-- ==== Sys2Proof/Word.lean ====
section
/-!
DEFINITION. Machine words, bit fields of words, and the sparse table in canonical form that every memory and
every indexed store of the model uses.

Byte order is little-endian everywhere (R7); a field of `len` bits that starts at bit `lo` of a structure is
bits `[lo + len - 1 : lo]` counted from bit 0 of the lowest-addressed byte (R8).
-/

namespace Sys2Proof

/-- A 32-bit register or parameter word. -/
abbrev Word := BitVec 32
/-- One byte of a memory. -/
abbrev Byte := BitVec 8

/-- Bits `[lo + len - 1 : lo]` of a number, as a number (R8). -/
def bitsOf (n lo len : Nat) : Nat := n / 2 ^ lo % 2 ^ len

/-- Field `[lo + len - 1 : lo]` of a 32-bit word (R8). -/
def fld (w : Word) (lo len : Nat) : Nat := bitsOf w.toNat lo len

/-- Bit `i` of a 32-bit word. -/
def bitAt (w : Word) (i : Nat) : Bool := bitsOf w.toNat i 1 == 1

/-- The two's-complement value of the low `len` bits of `n`. -/
def signedOf (n len : Nat) : Int :=
  if n % 2 ^ len < 2 ^ (len - 1) then (n % 2 ^ len : Nat) else (n % 2 ^ len : Nat) - (2 ^ len : Nat)

/-- Word `i` of a list of parameter words; a word that is not supplied reads as 0. -/
def wordAt : List Word → Nat → Word
  | [], _ => 0
  | w :: _, 0 => w
  | _ :: ws, i + 1 => wordAt ws i

/-- 1 for true, 0 for false. -/
def bit1 (b : Bool) : Nat := if b then 1 else 0

/-- The least multiple of `a` at or above `n`, for `a > 0`. -/
def roundUp (n a : Nat) : Nat := (n + a - 1) / a * a

/-- The quotient rounded up. -/
def ceilDiv (n a : Nat) : Nat := (n + a - 1) / a

/-! ### Sparse tables -/

/-- A sparse table: key and value pairs, keys strictly rising, no entry equal to what an unlisted key reads as.
What an unlisted key reads as is the argument `d` of every operation. -/
abbrev Tab (α : Type) := List (Nat × α)

/-- The value at key `k`; an unlisted key reads as `d`. -/
def Tab.get {α : Type} (d : α) : Tab α → Nat → α
  | [], _ => d
  | (k', v) :: r, k => if k = k' then v else Tab.get d r k

/-- Remove every entry of one key. -/
def Tab.drop {α : Type} : Tab α → Nat → Tab α
  | [], _ => []
  | (k', v) :: r, k => if k = k' then Tab.drop r k else (k', v) :: Tab.drop r k

/-- Put `v` at key `k` before the first higher key, in place of an entry of that key. -/
def Tab.insert {α : Type} : Tab α → Nat → α → Tab α
  | [], k, v => [(k, v)]
  | (k', v') :: r, k, v =>
    if k = k' then (k, v) :: r else if k < k' then (k, v) :: (k', v') :: r else (k', v') :: Tab.insert r k v

/-- Put `v` at key `k`, keeping the canonical form: the default value is stored by removing the entry. -/
def Tab.set {α : Type} [DecidableEq α] (d : α) (t : Tab α) (k : Nat) (v : α) : Tab α :=
  if v = d then Tab.drop t k else Tab.insert t k v

/-- Change the value at one key. -/
def Tab.mod {α : Type} [DecidableEq α] (d : α) (t : Tab α) (k : Nat) (f : α → α) : Tab α :=
  Tab.set d t k (f (Tab.get d t k))

/-- Every key of the table is at least `lo`, keys rise strictly, and no entry holds the default. -/
def Tab.wfFrom {α : Type} [DecidableEq α] (d : α) : Nat → Tab α → Bool
  | _, [] => true
  | lo, (k, v) :: r => decide (lo ≤ k) && decide (v ≠ d) && Tab.wfFrom d (k + 1) r

/-- The canonical form of a table. -/
def Tab.wf {α : Type} [DecidableEq α] (d : α) (t : Tab α) : Bool := Tab.wfFrom d 0 t

/-- Apply `f` to the values at `n` consecutive keys from `k`. -/
def Tab.modRange {α : Type} [DecidableEq α] (d : α) (t : Tab α) (k : Nat) : Nat → (Nat → α → α) → Tab α
  | 0, _ => t
  | n + 1, f => Tab.modRange d (Tab.mod d t k (f k)) (k + 1) n f

/-- The keys of a table that lists only non-default entries. -/
def Tab.keys {α : Type} (t : Tab α) : List Nat := t.map (·.1)

/-- A byte memory: a table of bytes in canonical form. -/
abbrev Mem := Tab Byte

/-- What a byte of memory that nothing has written reads as. DESIGN CHOICE (log 3): 0. Scratchpads and data
memories are scrubbed to zero before use (R33, R245, R256); for package memory the spec gives no power-on content. -/
def memDefault : Byte := 0

/-- Read one byte. -/
def Mem.rd (m : Mem) (a : Nat) : Byte := Tab.get memDefault m a

/-- Write one byte. -/
def Mem.wr (m : Mem) (a : Nat) (b : Byte) : Mem := Tab.set memDefault m a b

/-- The canonical form of a memory. -/
def Mem.wf (m : Mem) : Bool := Tab.wf memDefault m

/-- The bytes at `n` addresses from `a`. -/
def Mem.rdBytes (m : Mem) (a : Nat) : Nat → List Byte
  | 0 => []
  | n + 1 => m.rd a :: Mem.rdBytes m (a + 1) n

/-- Store a list of bytes from address `a` up. -/
def Mem.wrBytes (m : Mem) (a : Nat) : List Byte → Mem
  | [] => m
  | b :: bs => Mem.wrBytes (m.wr a b) (a + 1) bs

/-- The number whose little-endian bytes these are (R7). -/
def leNat : List Byte → Nat
  | [] => 0
  | b :: bs => b.toNat + 256 * leNat bs

/-- The `n` little-endian bytes of a number (R7). -/
def leBytes : Nat → Nat → List Byte
  | 0, _ => []
  | n + 1, v => BitVec.ofNat 8 v :: leBytes n (v / 256)

/-- Read an `n`-byte little-endian number (R7). -/
def Mem.rdLE (m : Mem) (a n : Nat) : Nat := leNat (m.rdBytes a n)

/-- Write an `n`-byte little-endian number (R7). -/
def Mem.wrLE (m : Mem) (a n v : Nat) : Mem := m.wrBytes a (leBytes n v)

/-- Write `n` zero bytes. -/
def Mem.zero (m : Mem) (a : Nat) : Nat → Mem
  | 0 => m
  | n + 1 => Mem.zero (m.wr a 0) (a + 1) n

/-- Drop every entry in `[a, a + n)`: the same memory as writing zeros there, in one pass over the list. -/
def Mem.clear (m : Mem) (a n : Nat) : Mem := m.filter (fun e => decide (e.1 < a) || decide (a + n ≤ e.1))

end Sys2Proof
end

