-- ==== Sys2Proof/Wire.lean ====
section
/-!
DEFINITION. What travels between the die and its partners, and between a core or a stream and the sync tree:
Windway packets (R396) and synchronisation requests (R287, R305).
-/

namespace Sys2Proof

/-- A Windway packet: the header fields of Table — Packet header and the data (R396). `authOk` says whether the
authentication tag of an `ENC` packet verifies (R402, R403); it is the outcome of a computation on the wire's bytes. -/
structure Packet where
  cls : Nat
  ptype : Nat
  /-- data length in bytes that `LEN_M1` gives -/
  len : Nat
  hasData : Bool
  enc : Bool
  poison : Bool
  srcDie : Nat
  dstDie : Nat
  srcStop : Nat
  tag : Nat
  addr : Nat
  job : Nat
  aux : Nat
  data : List Byte
  authOk : Bool
  deriving DecidableEq, Repr

/-- Who asked for a synchronisation operation, and so who gets its result (R287, R292, R305). -/
inductive SyncSrc
  /-- the head command of a tile's sync unit -/
  | tile (t : Nat)
  /-- a `SYNC` descriptor, by its uid in the queue manager -/
  | desc (uid : Nat)
  /-- deferred operation number `i` of a completing descriptor (R295) -/
  | defer (uid i : Nat)
  /-- another die: its position, the port the request came in on and its transaction tag -/
  | remote (die : Nat) (port : Nat) (tag : Nat) (job : Nat)
  /-- this die as the home of a barrier whose `SY_INIT` another die is to record (R297) -/
  | init (id : Nat)
  /-- nobody that waits for the answer -/
  | nobody
  deriving DecidableEq, Repr

/-- A synchronisation request as its home receives it: the command code and parameter words of Table — Sync unit
commands (or a code of what dies say to each other about objects, log 51), the job and stream it acts for, and the participant it arrives as (R286, R287, R297). -/
structure SyncReq where
  code : Nat
  words : List Word
  job : Nat
  stream : Nat
  /-- die position and logical core of the participant -/
  die : Nat
  core : Nat
  src : SyncSrc
  deriving DecidableEq, Repr

/-- An all-zero packet. -/
def Packet.zero : Packet :=
  { cls := 0, ptype := 0, len := 0, hasData := false, enc := false, poison := false, srcDie := 0, dstDie := 0,
    srcStop := 0, tag := 0, addr := 0, job := 0, aux := 0, data := [], authOk := true }

end Sys2Proof
end

