-- ==== Sys2Proof/Syntax.lean ====
section
/-!
DEFINITION. The commands of the block: the rows of the opcode table, with the operands that each command carries.
An operand is what comes from outside the die with the command (an instruction's fields, a packet, a register value,
the outcome of a physical test); everything else a command needs is in the state.
-/

namespace Sys2Proof

/-- Access sizes of `MEM` (R43). -/
inductive MemSize
  | b8 | b16 | b32
  deriving DecidableEq, Repr

/-- The fields of an `ISSUE` word beside its engine and command code (R41): the first parameter register, the word
count minus one, the wait token of a command with W = 1 and the post token of one with P = 1. -/
structure IssueArgs where
  ra : BitVec 5
  n1 : BitVec 3
  w : Option (BitVec 3)
  p : Option (BitVec 3)
  deriving DecidableEq, Repr

/-- The fields of a `VEC` word beside its operation (R180); `modv` is `MOD`. -/
structure VecArgs where
  vd : BitVec 3
  va : BitVec 3
  vb : BitVec 3
  rs : BitVec 5
  modv : BitVec 8
  deriving DecidableEq, Repr

/-- The commands the block takes, one constructor for each row of the opcode table. `t` is a physical tile ID (R12),
`ma` an array (`false` = MA0, `true` = MA1), `p` a port number (R14). -/
inductive Instr
  /-- `ADD` (R42): ALU add of two registers modulo 2^32. -/
  | add (t : Nat) (rd : BitVec 5) (ra : BitVec 5) (rb : BitVec 5)
  /-- `SUB` (R42): ALU subtract of two registers modulo 2^32. -/
  | sub (t : Nat) (rd : BitVec 5) (ra : BitVec 5) (rb : BitVec 5)
  /-- `AND` (R42): ALU bitwise AND of two registers. -/
  | and (t : Nat) (rd : BitVec 5) (ra : BitVec 5) (rb : BitVec 5)
  /-- `OR` (R42): ALU bitwise OR of two registers. -/
  | or (t : Nat) (rd : BitVec 5) (ra : BitVec 5) (rb : BitVec 5)
  /-- `XOR` (R42): ALU bitwise XOR of two registers. -/
  | xor (t : Nat) (rd : BitVec 5) (ra : BitVec 5) (rb : BitVec 5)
  /-- `SLL` (R42): ALU logical shift left by rb[4:0]. -/
  | sll (t : Nat) (rd : BitVec 5) (ra : BitVec 5) (rb : BitVec 5)
  /-- `SRL` (R42): ALU logical shift right by rb[4:0]. -/
  | srl (t : Nat) (rd : BitVec 5) (ra : BitVec 5) (rb : BitVec 5)
  /-- `SRA` (R42): ALU arithmetic shift right by rb[4:0]. -/
  | sra (t : Nat) (rd : BitVec 5) (ra : BitVec 5) (rb : BitVec 5)
  /-- `SLT` (R42): ALU signed set-less-than. -/
  | slt (t : Nat) (rd : BitVec 5) (ra : BitVec 5) (rb : BitVec 5)
  /-- `SLTU` (R42): ALU unsigned set-less-than. -/
  | sltu (t : Nat) (rd : BitVec 5) (ra : BitVec 5) (rb : BitVec 5)
  /-- `MUL` (R42): ALU multiply returning the low 32 bits. -/
  | mul (t : Nat) (rd : BitVec 5) (ra : BitVec 5) (rb : BitVec 5)
  /-- `MULHU` (R42): ALU unsigned multiply returning the high 32 bits. -/
  | mulhu (t : Nat) (rd : BitVec 5) (ra : BitVec 5) (rb : BitVec 5)
  /-- `MIN` (R42): ALU signed minimum. -/
  | min (t : Nat) (rd : BitVec 5) (ra : BitVec 5) (rb : BitVec 5)
  /-- `MAX` (R42): ALU signed maximum. -/
  | max (t : Nat) (rd : BitVec 5) (ra : BitVec 5) (rb : BitVec 5)
  /-- `MINU` (R42): ALU unsigned minimum. -/
  | minu (t : Nat) (rd : BitVec 5) (ra : BitVec 5) (rb : BitVec 5)
  /-- `MAXU` (R42): ALU unsigned maximum. -/
  | maxu (t : Nat) (rd : BitVec 5) (ra : BitVec 5) (rb : BitVec 5)
  /-- `ADDI` (R42): Add sign-extended 16-bit immediate. -/
  | addi (t : Nat) (rd : BitVec 5) (ra : BitVec 5) (imm : BitVec 16)
  /-- `ANDI` (R42): AND with zero-extended immediate. -/
  | andi (t : Nat) (rd : BitVec 5) (ra : BitVec 5) (imm : BitVec 16)
  /-- `ORI` (R42): OR with zero-extended immediate. -/
  | ori (t : Nat) (rd : BitVec 5) (ra : BitVec 5) (imm : BitVec 16)
  /-- `LUI` (R42): Load immediate shifted left by 16. -/
  | lui (t : Nat) (rd : BitVec 5) (ra : BitVec 5) (imm : BitVec 16)
  /-- `MEM_LOAD` (R43): Load 8, 16 or 32 bits from data memory with range and alignment checks. -/
  | memLoad (t : Nat) (rd : BitVec 5) (ra : BitVec 5) (off : BitVec 14) (size : MemSize) (sx : Bool)
  /-- `MEM_STORE` (R43): Store 8, 16 or 32 bits to data memory with range and alignment checks. -/
  | memStore (t : Nat) (rs : BitVec 5) (ra : BitVec 5) (off : BitVec 14) (size : MemSize)
  /-- `BEQ` (R44): Branch if equal, with PC range check. -/
  | beq (t : Nat) (ra : BitVec 5) (rb : BitVec 5) (off : BitVec 15)
  /-- `BNE` (R44): Branch if not equal, with PC range check. -/
  | bne (t : Nat) (ra : BitVec 5) (rb : BitVec 5) (off : BitVec 15)
  /-- `BLT` (R44): Branch if signed less than. -/
  | blt (t : Nat) (ra : BitVec 5) (rb : BitVec 5) (off : BitVec 15)
  /-- `BGE` (R44): Branch if signed greater or equal. -/
  | bge (t : Nat) (ra : BitVec 5) (rb : BitVec 5) (off : BitVec 15)
  /-- `BLTU` (R44): Branch if unsigned less than. -/
  | bltu (t : Nat) (ra : BitVec 5) (rb : BitVec 5) (off : BitVec 15)
  /-- `BGEU` (R44): Branch if unsigned greater or equal. -/
  | bgeu (t : Nat) (ra : BitVec 5) (rb : BitVec 5) (off : BitVec 15)
  /-- `JAL` (R44): Jump by 22-bit word offset and write link. -/
  | jal (t : Nat) (rd : BitVec 5) (off : BitVec 22)
  /-- `JALR` (R44): Jump to word address in ra and write link. -/
  | jalr (t : Nat) (rd : BitVec 5) (ra : BitVec 5)
  /-- `CSR_READ` (R58): Read a core CSR into rd. -/
  | csrRead (t : Nat) (rd : BitVec 5) (num : BitVec 12)
  /-- `CSR_WRITE` (R58): Write a core CSR, returning its previous value. -/
  | csrWrite (t : Nat) (rd : BitVec 5) (ra : BitVec 5) (num : BitVec 12)
  /-- `CSR_SET` (R58): Set bits of a core CSR, returning its previous value. -/
  | csrSet (t : Nat) (rd : BitVec 5) (ra : BitVec 5) (num : BitVec 12)
  /-- `CSR_CLEAR` (R58): Clear bits of a core CSR, returning its previous value. -/
  | csrClear (t : Nat) (rd : BitVec 5) (ra : BitVec 5) (num : BitVec 12)
  /-- `FENCE` (R53): Sequencer waits until all commands issued to the masked engines complete. -/
  | fence (t : Nat) (mask : BitVec 6)
  /-- `TWAIT` (R53): Sequencer waits for a non-zero token and decrements it. -/
  | twait (t : Nat) (tok : BitVec 3)
  /-- `TPOST` (R53): Sequencer increments a token, saturating. -/
  | tpost (t : Nat) (tok : BitVec 3)
  /-- `TSET` (R53): Sequencer sets a token unless an outstanding command names it. -/
  | tset (t : Nat) (tok : BitVec 3) (val : BitVec 16)
  /-- `NOP` (R46): Sequencer no-operation. -/
  | nop (t : Nat)
  /-- `END` (R57): Fence on all engines and report program completion to the queue manager. -/
  | endProg (t : Nat)
  /-- `TRAP` (R46): Raise program fault TRAP with a 16-bit code. -/
  | trap (t : Nat) (code : BitVec 16)
  /-- `BRK` (R46): Halt the sequencer if halt debug is enabled, else no-op. -/
  | brk (t : Nat)
  /-- `ISSUE_STALL_RESUME` (R50): A stalled ISSUE or VEC enters its queue once an entry frees. -/
  | issueStallResume (t : Nat)
  /-- `TOKEN_WAIT_START` (R52): A command with W=1 starts once its wait token is non-zero and decrements it. -/
  | tokenWaitStart (t : Nat) (eng : Nat)
  /-- `COMMAND_COMPLETE` (R54): An engine command completes and posts its token if P=1. -/
  | commandComplete (t : Nat) (eng : Nat) (idx : Nat)
  /-- `PROGRAM_START` (R564): Core program starts after hand-over, image load and argument fetch, with the state of R33. -/
  | programStart (t : Nat)
  /-- `WDOG` (R60): Stall watchdog expires and raises a program fault. -/
  | wdog (t : Nat)
  /-- `YIELD` (R63): Core told to yield stops issuing and lets queued commands finish within the grace. -/
  | yield (t : Nat) (job : Nat)
  /-- `YIELD_GRACE_EXPIRY` (R63): The 4,096-cycle grace expires and the core discards its context. -/
  | yieldGraceExpiry (t : Nat)
  /-- `CONTEXT_SAVE` (R331): Yielded core with completed commands saves its context into its frame. -/
  | contextSave (t : Nat)
  /-- `PASS` (R76): Array pass command: optional load, stream, accumulate and optional Bell store. -/
  | pass (t : Nat) (ma : Bool) (a : IssueArgs)
  /-- `ACC_CLEAR` (R80): Clear valid bits of an accumulator row range. -/
  | accClear (t : Nat) (ma : Bool) (a : IssueArgs)
  /-- `CNT_STORE` (R98): Write the array counter block to data memory. -/
  | cntStore (t : Nat) (ma : Bool) (a : IssueArgs)
  /-- `SCALE` (R130): Set block-scale parameters for later passes. -/
  | scale (t : Nat) (ma : Bool) (a : IssueArgs)
  /-- `BELL_CFG` (R153): Fill a new Bell settings set and load its vectors. -/
  | bellCfg (t : Nat) (ma : Bool) (a : IssueArgs)
  /-- `BELL_STORE` (R168): Send accumulator rows through the Bell outside a pass. -/
  | bellStore (t : Nat) (ma : Bool) (a : IssueArgs)
  /-- `STAT_LOAD_ROW` (R88): A stationary load row enters the load path once its slot is FULL and scheduling allows. -/
  | statLoadRow (t : Nat) (ma : Bool)
  /-- `STREAM_ROW_ENTER` (R81): A streamed row enters the array once complete in the feeder queues, or the array holds. -/
  | streamRowEnter (t : Nat) (ma : Bool)
  /-- `LOAD_CHANNEL_TAKE` (R108): An array takes the whole load channel for S8 once the other array allows. -/
  | loadChannelTake (t : Nat) (ma : Bool)
  /-- `PASS_COMPLETE` (R78): A pass completes and its requested slot releases take effect. -/
  | passComplete (t : Nat) (ma : Bool)
  /-- `BELL_VECTOR_LOAD` (R157): Bell loads enabled scale and bias vectors once the slots are FULL. -/
  | bellVectorLoad (t : Nat) (eng : Nat)
  /-- `BELL_ROW_READ` (R170): Bell reads a result row once complete and writes it 7 cycles later. -/
  | bellRowRead (t : Nat) (eng : Nat)
  /-- `BELL_STORE_COMPLETE` (R170): A Bell store completes after its last write and tag transitions. -/
  | bellStoreComplete (t : Nat) (eng : Nat)
  /-- `VSETVL` (R178): Set vector length VL. -/
  | vsetvl (t : Nat) (v : VecArgs)
  /-- `VBCFG` (R193): Set vector Bell settings. -/
  | vbcfg (t : Nat) (v : VecArgs)
  /-- `VCNT` (R198): Write the vector counter block to data memory. -/
  | vcnt (t : Nat) (v : VecArgs)
  /-- `VWAIT` (R188): Vector engine waits on a core token. -/
  | vwait (t : Nat) (v : VecArgs)
  /-- `VPOST` (R188): Vector engine posts a core token after earlier vector instructions. -/
  | vpost (t : Nat) (v : VecArgs)
  /-- `VLD` (R185): Load and widen a row from scratchpad into a row register. -/
  | vld (t : Nat) (v : VecArgs)
  /-- `VACC` (R187): Read one accumulator row into a row register. -/
  | vacc (t : Nat) (v : VecArgs)
  /-- `VACCT` (R187): Move accumulator rows into a tile buffer in the background. -/
  | vacct (t : Nat) (v : VecArgs)
  /-- `VTR` (R181): Read a tile-buffer row into a row register. -/
  | vtr (t : Nat) (v : VecArgs)
  /-- `VTW` (R181): Write a row register into a tile-buffer row. -/
  | vtw (t : Nat) (v : VecArgs)
  /-- `VMOV` (R181): Copy a row register. -/
  | vmov (t : Nat) (v : VecArgs)
  /-- `VBCAST` (R181): Broadcast a scalar to every lane. -/
  | vbcast (t : Nat) (v : VecArgs)
  /-- `VIOTA` (R181): Write lane indices as FP32. -/
  | viota (t : Nat) (v : VecArgs)
  /-- `VADD` (R183): Vector add. -/
  | vadd (t : Nat) (v : VecArgs)
  /-- `VSUB` (R183): Vector subtract. -/
  | vsub (t : Nat) (v : VecArgs)
  /-- `VMUL` (R183): Vector multiply. -/
  | vmul (t : Nat) (v : VecArgs)
  /-- `VFMA` (R183): Vector fused multiply-add. -/
  | vfma (t : Nat) (v : VecArgs)
  /-- `VMAX` (R184): Vector maximum. -/
  | vmax (t : Nat) (v : VecArgs)
  /-- `VMIN` (R184): Vector minimum. -/
  | vmin (t : Nat) (v : VecArgs)
  /-- `VABS` (R184): Clear the sign bit of each lane. -/
  | vabs (t : Nat) (v : VecArgs)
  /-- `VNEG` (R184): Invert the sign bit of each lane. -/
  | vneg (t : Nat) (v : VecArgs)
  /-- `VCMP` (R184): Vector compare writing 1.0 or +0. -/
  | vcmp (t : Nat) (v : VecArgs)
  /-- `VSEL` (R184): Vector select by condition lanes. -/
  | vsel (t : Nat) (v : VecArgs)
  /-- `VRSUM` (R189): Sum reduction across active lanes. -/
  | vrsum (t : Nat) (v : VecArgs)
  /-- `VRMAX` (R189): Maximum reduction across active lanes. -/
  | vrmax (t : Nat) (v : VecArgs)
  /-- `VRMIN` (R189): Minimum reduction across active lanes. -/
  | vrmin (t : Nat) (v : VecArgs)
  /-- `VRAMAX` (R189): Index of the first maximum across active lanes. -/
  | vramax (t : Nat) (v : VecArgs)
  /-- `VEXP2` (R147): Vector base-2 exponential. -/
  | vexp2 (t : Nat) (v : VecArgs)
  /-- `VLOG2` (R147): Vector base-2 logarithm. -/
  | vlog2 (t : Nat) (v : VecArgs)
  /-- `VRCP` (R147): Vector reciprocal. -/
  | vrcp (t : Nat) (v : VecArgs)
  /-- `VRSQRT` (R147): Vector reciprocal square root. -/
  | vrsqrt (t : Nat) (v : VecArgs)
  /-- `VTANH` (R147): Vector hyperbolic tangent. -/
  | vtanh (t : Nat) (v : VecArgs)
  /-- `VPERM` (R190): Permute lanes by an index row, zero-filling or faulting out-of-range lanes. -/
  | vperm (t : Nat) (v : VecArgs)
  /-- `VSTV` (R192): Store one row through the vector Bell. -/
  | vstv (t : Nat) (v : VecArgs)
  /-- `VSTT` (R192): Store tile-buffer rows through the vector Bell. -/
  | vstt (t : Nat) (v : VecArgs)
  /-- `ROW_FWD` (R204): Compute or apply row statistics and optionally write output rows. -/
  | rowFwd (t : Nat) (a : IssueArgs)
  /-- `ROW_BWD` (R204): Write input-gradient rows from kept statistics. -/
  | rowBwd (t : Nat) (a : IssueArgs)
  /-- `R_SPILL` (R217): Copy Reed entries to scratchpad slots. -/
  | rSpill (t : Nat) (a : IssueArgs)
  /-- `R_FILL` (R217): Copy Reed entries from FULL scratchpad slots. -/
  | rFill (t : Nat) (a : IssueArgs)
  /-- `R_INVAL` (R210): Clear valid bits of a Reed entry range. -/
  | rInval (t : Nat) (a : IssueArgs)
  /-- `RBELL_CFG` (R206): Set row-engine store settings. -/
  | rbellCfg (t : Nat) (a : IssueArgs)
  /-- `R_CNT` (R220): Write the row-engine counter block to data memory. -/
  | rCnt (t : Nat) (a : IssueArgs)
  /-- `DM_MOVE` (R270): Strided two-dimensional copy between endpoints. -/
  | dmMove (t : Nat) (a : IssueArgs)
  /-- `DM_GATHER` (R272): Gather rows from package memory by an index list. -/
  | dmGather (t : Nat) (a : IssueArgs)
  /-- `DM_TFILL` (R273): Transposing fill into 8 destination slots. -/
  | dmTfill (t : Nat) (a : IssueArgs)
  /-- `DM_TREAD` (R273): Transposing slot read into 8 destination slots. -/
  | dmTread (t : Nat) (a : IssueArgs)
  /-- `DM_DMEM` (R274): Copy between scratchpad and data memory. -/
  | dmDmem (t : Nat) (a : IssueArgs)
  /-- `DM_SWRITE` (R275): Stash write of data and scale slots. -/
  | dmSwrite (t : Nat) (a : IssueArgs)
  /-- `DM_SREAD` (R276): Stash read into destination slots, optionally freeing. -/
  | dmSread (t : Nat) (a : IssueArgs)
  /-- `CREDIT_REQ` (R259): Request credits in a remote receive window. -/
  | creditReq (t : Nat) (a : IssueArgs)
  /-- `CREDIT_DROP` (R262): Return the unspent credits of a handle. -/
  | creditDrop (t : Nat) (a : IssueArgs)
  /-- `RX_OPEN` (R258): Open a receive window over a slot range. -/
  | rxOpen (t : Nat) (a : IssueArgs)
  /-- `RX_CLOSE` (R263): Close a receive window, revoking its grants. -/
  | rxClose (t : Nat) (a : IssueArgs)
  /-- `SLOT_RELEASE` (R278): SLOT_TAG RELEASE: FULL slots become EMPTY. -/
  | slotRelease (t : Nat) (a : IssueArgs)
  /-- `MARK_FULL` (R278): SLOT_TAG MARK_FULL: EMPTY slots become FULL. -/
  | markFull (t : Nat) (a : IssueArgs)
  /-- `SET_RAW` (R278): SLOT_TAG SET_RAW: slots become RAW. -/
  | setRaw (t : Nat) (a : IssueArgs)
  /-- `RAW_EMPTY` (R278): SLOT_TAG RAW_EMPTY: RAW slots become EMPTY. -/
  | rawEmpty (t : Nat) (a : IssueArgs)
  /-- `RAW_FULL` (R278): SLOT_TAG RAW_FULL: RAW slots become FULL. -/
  | rawFull (t : Nat) (a : IssueArgs)
  /-- `DM_CNT` (R282): Write the core DMA counter block to data memory. -/
  | dmCnt (t : Nat) (a : IssueArgs)
  /-- `TAG_WAIT_GRANT` (R250): A read or write waiting on a slot tag proceeds when the transition takes effect. -/
  | tagWaitGrant (t : Nat) (eng : Nat) (idx : Nat)
  /-- `DMA_TRANSFER_COMPLETE` (R280): A core DMA transfer completes and its releases take effect. -/
  | dmaTransferComplete (t : Nat) (idx : Nat)
  /-- `CREDIT_ALLOC_GRANT` (R259): Destination allocator grants a waiting request once its slots are EMPTY and ungranted. -/
  | creditAllocGrant (t : Nat) (window : Nat)
  /-- `CREDIT_WAIT_TIMEOUT` (R260): A request waiting for RX_OPEN is refused after 100 µs. -/
  | creditWaitTimeout (t : Nat) (window : Nat)
  /-- `CORE_MAP_MOVING_RESOLVE` (R569): An access waiting on a MOVING logical core proceeds once MAPPED. -/
  | coreMapMovingResolve (core : Nat)
  /-- `MUTE_SCRUB_DONE` (R256): Mute scrub of a sealed core completes and slots become EMPTY. -/
  | muteScrubDone (t : Nat) (ok : Bool)
  /-- `SY_INIT` (R286): Initialise a sync object and take ownership. -/
  | syInit (t : Nat) (a : IssueArgs)
  /-- `SY_SIGNAL_ADD` (R289): Counter ADD or flag SET on a sync object. -/
  | sySignalAdd (t : Nat) (a : IssueArgs)
  /-- `SY_SIGNAL_CLEAR` (R289): Clear bits of a flag object. -/
  | sySignalClear (t : Nat) (a : IssueArgs)
  /-- `SY_SIGNAL_LOAD` (R289): Load a counter value. -/
  | sySignalLoad (t : Nat) (a : IssueArgs)
  /-- `SY_WAIT` (R290): Wait on a counter threshold or flag mask. -/
  | syWait (t : Nat) (a : IssueArgs)
  /-- `SY_ARRIVE` (R298): Arrive at a barrier, optionally waiting for the round to close. -/
  | syArrive (t : Nat) (a : IssueArgs)
  /-- `SY_FREE` (R287): Return an object to FREE, releasing waiters with ABANDONED. -/
  | syFree (t : Nat) (a : IssueArgs)
  /-- `SY_READ` (R287): Read an object's value into data memory. -/
  | syRead (t : Nat) (a : IssueArgs)
  /-- `SY_WAIT_TIMEOUT` (R294): A wait's time-out window ends without release. -/
  | syWaitTimeout (t : Nat)
  /-- `SYNC_DBG_READ` (R307): Debug READ copies an object field into VALUE. -/
  | syncDbgRead
  /-- `SYNC_DBG_WRITE` (R307): Debug WRITE sets a counter or flag field and retests waiters. -/
  | syncDbgWrite
  /-- `SYNC_DBG_RELEASE` (R307): Debug RELEASE releases all waiters with a given outcome. -/
  | syncDbgRelease
  /-- `SYNC_DBG_CLOSE` (R307): Debug CLOSE closes the oldest open barrier round. -/
  | syncDbgClose
  /-- `SYNC_DBG_FREE` (R307): Debug FREE releases waiters and returns the object to FREE. -/
  | syncDbgFree
  /-- `QM_CTRL_WRITE` (R310): Enable or disable the queue manager and notifications. -/
  | qmCtrlWrite (v : Word)
  /-- `EVENT_DOORBELL` (R319): Driver advances the event head. -/
  | eventDoorbell (p : Nat) (k : Packet)
  /-- `DESC_FETCH` (R322): Queue manager fetches and checks a descriptor. -/
  | descFetch (stream : Nat) (grp : BitVec 64)
  /-- `DESC_DISPATCH` (R328): Queue manager starts one ready descriptor per fabric cycle by priority. -/
  | descDispatch
  /-- `COMPUTE` (R35): Run a core program on a logical core or core group. -/
  | compute (d : Nat)
  /-- `COPY` (R324): Strided copy by the copy engine between memory and scratchpads. -/
  | copy (d : Nat)
  /-- `SYNC_DESC_SIGNAL` (R305): SYNC descriptor performs a signal for its stream. -/
  | syncDescSignal (d : Nat)
  /-- `SYNC_DESC_WAIT` (R305): SYNC descriptor waits for its stream. -/
  | syncDescWait (d : Nat)
  /-- `SYNC_DESC_ARRIVE` (R305): SYNC descriptor arrives at a barrier for its stream. -/
  | syncDescArrive (d : Nat)
  /-- `FENCE_DESC` (R325): Fence descriptor completes after earlier descriptors complete. -/
  | fenceDesc (d : Nat)
  /-- `NEAR` (R372): Placement hint naming a preferred die. -/
  | near (d : Nat)
  /-- `NEAR_CORE` (R372): Placement hint naming the processing die. -/
  | nearCore (d : Nat)
  /-- `SPREAD_OVER` (R372): Narrow the spread set of a SPREAD object. -/
  | spreadOver (d : Nat)
  /-- `FREEZE` (R372): Suppress traffic-driven migration. -/
  | freeze (d : Nat)
  /-- `THAW` (R372): Re-enable traffic-driven migration. -/
  | thaw (d : Nat)
  /-- `ACTIVATE` (R360): Activate a placement object, allocating and initialising its granules. -/
  | activate (d : Nat) (entry : List Word)
  /-- `RELEASE` (R361): Release a placement object and scrub its granules. -/
  | release (d : Nat)
  /-- `REED_SPILL` (R218): Move a Reed image to package memory. -/
  | reedSpill (d : Nat)
  /-- `REED_FILL` (R218): Move a Reed image from package memory. -/
  | reedFill (d : Nat)
  /-- `KILL_JOB` (R342): Kill a job: abandon, seal, scrub and release its objects. -/
  | killJob (d : Nat)
  /-- `RESET_STREAM` (R343): Stop a stream without sealing its job's cores. -/
  | resetStream (d : Nat)
  /-- `NOP_DESC` (R321): Descriptor that completes with OK. -/
  | nopDesc (d : Nat)
  /-- `JOB_KILL_DONE` (R342): Job becomes KILLED once cores are clear and memory scrub finished. -/
  | jobKillDone (job : Nat)
  /-- `DESC_COMPLETE` (R336): Descriptor completes: deferred operations, completion record, counts and stream halt. -/
  | descComplete (d : Nat)
  /-- `DESC_RESUME` (R333): Pre-empted descriptor restores its context and resumes. -/
  | descResume (d : Nat) (ok : Bool)
  /-- `STREAM_TIMEOUT` (R345): Descriptor time in progress reaches the stream limit and is abandoned. -/
  | streamTimeout (d : Nat)
  /-- `STREAM_WRITEBACK` (R314): Periodic 100 µs write-back of die fields of a stream. -/
  | streamWriteback (stream : Nat)
  /-- `NOTIFY_WRITE` (R340): Notification write at the end of the gap. -/
  | notifyWrite
  /-- `STASH_ALLOC` (R229): Stash write allocation request decided at the SCB. -/
  | stashAlloc (t : Nat) (idx : Nat)
  /-- `STASH_PRESENT` (R230): A stash record becomes PRESENT once observable. -/
  | stashPresent (t : Nat) (idx : Nat)
  /-- `EPOCH_BOUNDARY` (R368): Epoch ends: traffic reported and migration evaluated. -/
  | epochBoundary (reports : List (Nat × Nat × Nat))
  /-- `MIGRATION_COPY_DONE` (R369): Migration copy of granules completes. -/
  | migrationCopyDone (prog : Nat)
  /-- `MIGRATION_SWITCH_DONE` (R369): Dirty copy and invalidations done; object ACTIVE at new home. -/
  | migrationSwitchDone (prog : Nat)
  /-- `OBJ_FREED` (R361): Last granule of a released object is scrubbed and it becomes FREE. -/
  | objFreed (prog : Nat)
  /-- `TRANSLATION_MISS` (R358): Granule translation miss reads the owner's granule list. -/
  | translationMiss (addr : Nat)
  /-- `SPARE_ADMITTED` (R355): Spare admission completes and the logical core is MAPPED or ABSENT. -/
  | spareAdmitted (sp : Nat) (ok : Bool)
  /-- `ABSENT_ADMISSION` (R568): Spare admitted for the lowest ABSENT logical core. -/
  | absentAdmission
  /-- `PORT_TRAIN_RETRY` (R389): DOWN port retries training every 10 ms. -/
  | portTrainRetry (p : Nat) (ok : Bool)
  /-- `PORT_TRAINING_DONE` (R388): Training completes at a chosen width and rate and the port enters EXCHANGE. -/
  | portTrainingDone (p : Nat) (pass : Nat) (rates : Nat)
  /-- `CAPS` (R391): Capability block received and partner admitted or refused. -/
  | caps (p : Nat) (k : Packet)
  /-- `KEY_CERT` (R499): Partner certificate received for key exchange. -/
  | keyCert (p : Nat) (k : Packet) (ok : Bool)
  /-- `KEY_OFFER` (R499): Partner ephemeral offer received; keys derived. -/
  | keyOffer (p : Nat) (k : Packet) (ok : Bool)
  /-- `KEY_SWITCH` (R500): Receiver switches to the new port key at SWITCH. -/
  | keySwitch (p : Nat) (k : Packet)
  /-- `KEX_TIMEOUT` (R499): Key exchange not ended within 100 ms; port isolated. -/
  | kexTimeout (p : Nat)
  /-- `REKEY_START` (R500): Packet count reaches 2^47 and a rekey begins. -/
  | rekeyStart (p : Nat)
  /-- `PORT_EN` (R404): PORT_CTRL EN write enables training or forces DOWN. -/
  | portEn (p : Nat) (en : Bool)
  /-- `PORT_RETRAIN` (R393): Retrain requested by RETRAIN write. -/
  | portRetrain (p : Nat)
  /-- `ERR_LIMIT_RETRAIN` (R393): Replay count in a 1 ms window exceeds ERR_LIMIT, triggering retrain. -/
  | errLimitRetrain (p : Nat)
  /-- `RETRAIN_TIMEOUT` (R393): Retrain not done in 500 µs; port goes DOWN. -/
  | retrainTimeout (p : Nat)
  /-- `PORT_ISOLATE` (R404): ISOLATE write puts the port in ISOLATED. -/
  | portIsolate (p : Nat)
  /-- `KEEPALIVE_SEND` (R394): Idle port sends a KEEPALIVE after 500 ns. -/
  | keepaliveSend (p : Nat)
  /-- `LINK_LOSS` (R394): Port declares link loss and handles in-flight packets. -/
  | linkLoss (p : Nat) (cause : Nat)
  /-- `L1_ENTRY` (R395): Idle port enters L1. -/
  | l1Entry (p : Nat)
  /-- `L1_EXIT` (R395): Port leaves L1 to send or on partner request. -/
  | l1Exit (p : Nat)
  /-- `REQ_TAG_EXPIRY` (R394): 100 µs reservation of a resent request tag expires. -/
  | reqTagExpiry (tag : Nat)
  /-- `BASE_DIE_TIMEOUT` (R419): Unanswered MEM request at 100 µs is answered as poisoned and the port retrained. -/
  | baseDieTimeout (p : Nat) (t : Nat) (uid : Nat)
  /-- `RD` (R374): Read request served at its home. -/
  | rd (p : Nat) (k : Packet)
  /-- `SP_RD` (R265): Remote scratchpad read request. -/
  | spRd (p : Nat) (k : Packet)
  /-- `CRED_REQ` (R259): Credit request packet reaches the destination allocator. -/
  | credReq (p : Nat) (k : Packet)
  /-- `XLATE` (R358): Translation request to the owning Keywork. -/
  | xlate (p : Nat) (k : Packet)
  /-- `WR` (R374): Write to a home, with invalidation of sharers. -/
  | wr (p : Nat) (k : Packet)
  /-- `SP_WR` (R261): Remote write under credit into a scratchpad. -/
  | spWr (p : Nat) (k : Packet) (decl : Nat)
  /-- `DOORBELL` (R318): Doorbell write checked and accepted, dropped or ignored. -/
  | doorbell (p : Nat) (k : Packet)
  /-- `ATOMIC` (R420): Indivisible 64-bit memory operation. -/
  | atomic (p : Nat) (k : Packet)
  /-- `RD_DATA` (R376): Read data returned and installed unless invalidated. -/
  | rdData (p : Nat) (k : Packet)
  /-- `RD_ERR` (R396): Read error response received. -/
  | rdErr (p : Nat) (k : Packet)
  /-- `WR_ACK` (R401): Write acknowledgement received, completing the write. -/
  | wrAck (p : Nat) (k : Packet)
  /-- `CRED_GRANT` (R259): Credit grant response stored in the handle. -/
  | credGrant (p : Nat) (k : Packet)
  /-- `CRED_REFUSE` (R264): Credit refusal stops the requesting program. -/
  | credRefuse (p : Nat) (k : Packet)
  /-- `XLATE_RSP` (R358): Translation response fills the translation cache. -/
  | xlateRsp (p : Nat) (k : Packet)
  /-- `INV` (R374): Invalidate one remote-data-cache line. -/
  | inv (p : Nat) (k : Packet)
  /-- `INV_BATCH` (R377): Invalidate up to 16 lines of a 4 KiB block. -/
  | invBatch (p : Nat) (k : Packet)
  /-- `INV_ACK` (R374): Invalidation acknowledgement received at the home. -/
  | invAck (p : Nat) (k : Packet)
  /-- `SY_RESULT` (R292): Sync result message completes a wait or arrival. -/
  | syResult (p : Option Nat) (k : Packet) (idx : Nat)
  /-- `CFG_RSP` (R397): Configuration response received. -/
  | cfgRsp (p : Nat) (k : Packet)
  /-- `SY_OP` (R289): Sync operation applied at its home. -/
  | syOp (p : Nat) (k : Packet) (r : SyncReq)
  /-- `BAR_REPORT` (R299): Die root reports a barrier round to the package root. -/
  | barReport (p : Nat) (k : Packet) (obj : Nat) (round : Nat)
  /-- `BAR_RELEASE` (R299): Package root releases a closed round. -/
  | barRelease (p : Nat) (k : Packet) (obj : Nat) (round : Nat)
  /-- `CREDIT_RET` (R399): Per-hop credits returned. -/
  | creditRet (p : Nat) (k : Packet)
  /-- `KEEPALIVE` (R394): Keep-alive received. -/
  | keepalive (p : Nat) (k : Packet)
  /-- `CFG_RD` (R397): Configuration read packet. -/
  | cfgRd (p : Nat) (k : Packet)
  /-- `CFG_WR` (R397): Configuration write packet. -/
  | cfgWr (p : Nat) (k : Packet)
  /-- `BUDGET_REPORT` (R483): Leader receives a member's power report. -/
  | budgetReport (p : Nat) (k : Packet)
  /-- `BUDGET_GRANT` (R483): Member receives and applies a power grant. -/
  | budgetGrant (p : Nat) (k : Packet)
  /-- `RESET_REQ` (R432): Leader's reset request received and accepted or refused. -/
  | resetReq (p : Nat) (k : Packet)
  /-- `JOIN` (R415): Leader receives a JOIN. -/
  | join (p : Nat) (k : Packet)
  /-- `ACCEPT` (R425): Die receives ACCEPT and updates membership. -/
  | accept (p : Nat) (k : Packet)
  /-- `REFUSE` (R414): Die receives REFUSE. -/
  | refuse (p : Nat) (k : Packet)
  /-- `LOST` (R423): Member acts on the loss of a die. -/
  | lost (p : Nat) (k : Packet)
  /-- `CLOCK_FAULT` (R413): Die enters package clock fault. -/
  | clockFault (p : Nat) (k : Packet)
  /-- `PKG_FORM_TIMEOUT` (R415): Leader forms the package after 100 ms. -/
  | pkgFormTimeout
  /-- `REF_LOSS` (R411): Reference clock lost; PLLs hold over. -/
  | refLoss
  /-- `REF_RETURN` (R411): Reference present 5 µs within holdover; holdover ends. -/
  | refReturn
  /-- `HOLDOVER_EXPIRY` (R412): Slave holdover reaches 20 µs and the die isolates. -/
  | holdoverExpiry
  /-- `POR_SUPPLY` (R537): Supply below threshold over 200 ns asserts POR. -/
  | porSupply
  /-- `PORST_N` (R428): PORST_N low pulse requests POR. -/
  | porstN (ns : Nat) (taken : Bool)
  /-- `SYSRST_N` (R428): SYSRST_N low pulse requests SRST. -/
  | sysrstN (ns : Nat) (taken : Bool)
  /-- `SYS_WDOG_EXPIRY` (R431): System watchdog window expires and requests SRST. -/
  | sysWdogExpiry
  /-- `SYS_WDOG_KICK` (R431): Restart the system watchdog window. -/
  | sysWdogKick
  /-- `RESET_CTRL_SRST` (R431): RESET_CTRL SRST write resets this die. -/
  | resetCtrlSrst
  /-- `PKG_SRST` (R432): Leader resets every member. -/
  | pkgSrst
  /-- `DEFERRED_RESET` (R436): Reset deferred during a non-volatile pulse takes effect at its end. -/
  | deferredReset
  /-- `CORE_RESET_MASK` (R433): Request CRST of fenced, spare or failed tiles. -/
  | coreResetMask (w : Nat) (v : Word)
  /-- `CRST_DONE` (R434): CRST hold and Mute scrub complete. -/
  | crstDone (t : Nat) (pass : Bool)
  /-- `BOOT_START` (R443): POR ends and boot proceeds through fuse sense and option load. -/
  | bootStart (fuseOk : Bool) (mOk : Bool)
  /-- `PLL_LOCK` (R443): PLL locks to the reference and boot continues. -/
  | pllLock
  /-- `ONJAN_SELFTEST_DONE` (R509): Onjan self-tests finish and the ROM loader starts. -/
  | onjanSelftestDone (ok : Bool)
  /-- `FW_VERIFIED` (R446): Streamed firmware verifies and starts, or fails. -/
  | fwVerified (key : Nat) (hashOk : Bool)
  /-- `KEYWORK_INIT` (R351): Keywork initialisation builds the core map and activates objects. -/
  | keyworkInit (entries : List (Nat × List Word)) (pass : Nat)
  /-- `BOOT_READY` (R443): Die reaches ready state. -/
  | bootReady
  /-- `FW_LOAD` (R445): Begin a firmware stream into the free slot. -/
  | fwLoad
  /-- `FW_DATA` (R445): Place a firmware word and advance the stream. -/
  | fwData (v : Word)
  /-- `FW_SWITCH` (R447): Request live update to the verified slot. -/
  | fwSwitch
  /-- `FW_ABORT` (R445): Discard the stream or pending switch. -/
  | fwAbort
  /-- `FW_QUIESCE` (R447): Firmware reaches quiesce point and control transfers. -/
  | fwQuiesce
  /-- `FW_QUIESCE_TIMEOUT` (R447): Quiesce not reached in 1 ms; switch abandoned. -/
  | fwQuiesceTimeout
  /-- `OPT_DATA` (R442): Write a shadow option word. -/
  | optData (v : Word)
  /-- `OPT_COMMIT` (R442): Commit the shadow to the other option image. -/
  | optCommit
  /-- `OPT_REVERT` (R442): Copy the loaded image into the shadow. -/
  | optRevert
  /-- `OPT_COMMIT_DONE` (R442): Option commit finishes write and read-back, succeeding or failing. -/
  | optCommitDone (ok : Bool) (failOff : Nat)
  /-- `CORE_FAULT` (R450): Core fault detected: tile fenced, sealed and scrubbed. -/
  | coreFault (t : Nat) (src : Nat)
  /-- `CORRECTED_ERROR` (R453): Single-bit error corrected and counted per tile. -/
  | correctedError (t : Nat)
  /-- `CE_PREDICTIVE_FENCE` (R453): Tile over the corrected-error limit fenced when idle. -/
  | cePredictiveFence (t : Nat)
  /-- `UNCORE_FAULT` (R449): Uncorrectable uncore error; die isolates. -/
  | uncoreFault (b : Nat)
  /-- `FENCE_MASK` (R470): Driver fences an in-service tile. -/
  | fenceMask (w : Nat) (v : Word)
  /-- `FENCE_RELEASE` (R470): Driver releases a fenced tile through CRST and BIST. -/
  | fenceRelease (w : Nat) (v : Word)
  /-- `DESC_REPLAY` (R458): Queue manager replays a descriptor after a fault. -/
  | descReplay (d : Nat)
  /-- `COMMIT_POINT` (R462): All members at END; commit word written and apply begins. -/
  | commitPoint (d : Nat)
  /-- `COMMIT_APPLY_DONE` (R462): Copy engine finishes applying commit logs. -/
  | commitApplyDone (d : Nat)
  /-- `TSYNC_EMIT` (R477): Clock master emits a TSYNC frame each millisecond. -/
  | tsyncEmit (since : Nat)
  /-- `TSYNC_FRAME` (R478): Die aligns its timestamp to a received frame. -/
  | tsyncFrame (k : Nat) (since : Nat)
  /-- `TS_NOSYNC` (R478): 3 ms without a valid frame. -/
  | tsNosync
  /-- `CURRENT_WINDOW_END` (R486): 1 µs current window ends; stall or stretch applied. -/
  | currentWindowEnd (amps : Nat) (dw : Nat) (tjq : Nat) (tile : Nat)
  /-- `POWER_WINDOW_END` (R486): 100 µs power window ends; clock or duty adjusted. -/
  | powerWindowEnd
  /-- `THERMAL_WINDOW_END` (R486): 10 ms thermal window ends; ceiling adjusted. -/
  | thermalWindowEnd
  /-- `BUDGET_ROUND_START` (R483): Round starts; member sends REPORT and checks fallback. -/
  | budgetRoundStart
  /-- `BUDGET_GRANT_DEADLINE` (R483): Leader sends grants 10 µs into the round. -/
  | budgetGrantDeadline
  /-- `THERMAL_TRIP` (R488): Sensor reaches 110 °C; AON trip stops the die. -/
  | thermalTrip
  /-- `TS_LO_READ` (R480): Read of TS_LO latches TS_HI. -/
  | tsLoRead
  /-- `ATTEST` (R496): Capture nonce and state for an attestation report. -/
  | attest
  /-- `ATTEST_DONE` (R496): Report signed and RPT_VALID set. -/
  | attestDone
  /-- `SEC_RPT_DATA_READ` (R496): Read a report word and advance the index. -/
  | secRptDataRead
  /-- `CHALLENGE` (R506): Draw a fresh debug challenge. -/
  | challenge
  /-- `SEC_TOKEN_DATA_WRITE` (R506): Write a token word and advance the index. -/
  | secTokenDataWrite (v : Word)
  /-- `TOKEN_SUBMIT` (R506): Verify a debug token and act on its scope. -/
  | tokenSubmit
  /-- `DBG_LOCK` (R507): Clear debug authorisation. -/
  | dbgLock
  /-- `SVN_COMMIT` (R495): Raise the fused minimum SVN. -/
  | svnCommit
  /-- `FK0_REVOKE` (R495): Blow the FK0 revocation fuse. -/
  | fk0Revoke
  /-- `SEC_MEMENC_WRITE` (R503): Change stack encryption bits, or refuse. -/
  | secMemencWrite (v : Word)
  /-- `SEC_RETAIN_RELEASE` (R505): Release and scrub a job's held slots. -/
  | secRetainRelease (job : Nat)
  /-- `SEC_RNG_READ` (R509): Draw 32 random bits. -/
  | secRngRead
  /-- `RNG_TEST_FAIL` (R509): Continuous entropy test fails. -/
  | rngTestFail (test : Nat)
  /-- `TAP_RESET` (R513): TAP reset by TRST_N or TMS sequence. -/
  | tapReset
  /-- `EXTEST` (R514): Drive the boundary register. -/
  | extest (cells : Nat)
  /-- `IDCODE` (R515): Shift the identification code. -/
  | idcode
  /-- `SAMPLE_PRELOAD` (R514): Sample or preload the boundary register. -/
  | samplePreload (cells : Nat)
  /-- `CLAMP` (R514): Clamp outputs with bypass. -/
  | clamp
  /-- `HIGHZ` (R514): Outputs to high impedance with bypass. -/
  | highz
  /-- `WIR_SEL` (R517): Select the IEEE 1838 wrapper instruction register. -/
  | wirSel (v : Nat)
  /-- `CFG_ACCESS` (R516): One configuration access through the TAP. -/
  | cfgAccess (v : Word) (off : Nat) (wr : Bool)
  /-- `FUSE_PROG` (R519): Blow fuse bits of one word. -/
  | fuseProg (w : Nat) (bits : Word) (vpp : Bool)
  /-- `FUSE_VERIFY` (R520): Sense one fuse word directly. -/
  | fuseVerify (w : Nat)
  /-- `SCAN` (R514): Shift internal scan chains. -/
  | scan
  /-- `BYPASS` (R514): Select the 1-bit bypass register. -/
  | bypass
  /-- `BIST_RUN` (R521): Start memory or logic BIST on a tile. -/
  | bistRun (t : Nat) (kind : Nat)
  /-- `BIST_DONE` (R521): BIST ends with a pass or failing store. -/
  | bistDone (pass : Bool) (store : Nat)
  /-- `PORT_TEST_RUN` (R522): Start loopback or margining on one lane position. -/
  | portTestRun (p : Nat) (mode : Nat) (lane : Nat) (ok : Bool)
  /-- `PORT_TEST_DONE` (R522): Port test finishes or is aborted. -/
  | portTestDone (errors : Nat) (tm : Nat) (vm : Nat)
  /-- `DBG_HALT` (R523): Halt a sequencer at the next instruction boundary. -/
  | dbgHalt (t : Nat)
  /-- `DBG_STEP` (R523): Execute one instruction and halt. -/
  | dbgStep (t : Nat)
  /-- `DBG_RESUME` (R523): Continue a halted sequencer. -/
  | dbgResume (t : Nat)
  /-- `DBG_DATA_ACCESS` (R525): Debugger read or write of a tile store, advancing the address. -/
  | dbgDataAccess (wr : Bool) (v : Word)
  /-- `TRACE_CLEAR` (R528): Clear the trace buffer. -/
  | traceClear
  /-- `TRACE_DATA_READ` (R528): Read a trace word and advance the index. -/
  | traceDataRead
  /-- `TELEM_CTRL_WRITE` (R561): Start, stop or reconfigure telemetry windows. -/
  | telemCtrlWrite (v : Word)
  /-- `TELEM_WINDOW_END` (R562): Telemetry registers replaced at a window's end. -/
  | telemWindowEnd
  /-- `CFG_REG_WRITE` (R554): Write of a configuration register with no row of its own. -/
  | cfgRegWrite (off : Nat) (v : Word)
  /-- `ILLEGAL_WORD` (R40): The sequencer meets an instruction word with a reserved class, operation, engine number, command code or encoding and raises a program fault of cause ILLEGAL. -/
  | illegalWord (t : Nat) (word : Word)
  /-- `TOKEN_VERIFY_DONE` (R506): Onjan finishes verifying a submitted debug token about 2 ms after TOKEN_SUBMIT and accepts it (setting DBG_AUTH, zeroising or recording a lifecycle transition) or refuses it. -/
  | tokenVerifyDone (sigOk : Bool)
  /-- `SIDEBAND_RETRAIN` (R393): A port receives its partner's sideband retrain signal, stops sending, does not treat the silence as loss and retrains with it. -/
  | sidebandRetrain (p : Nat)
  /-- `FLIT_REPLAY` (R394): A flit fails its CRC and is replayed at link level, counting in PORT_REPLAYS and toward ERR_LIMIT and the eight-replay link-loss limit. -/
  | flitReplay (p : Nat)
  /-- `LINK_LEVEL_ACK` (R394): A link-level acknowledgement arrives, marking the flits it covers as delivered. -/
  | linkLevelAck (p : Nat) (n : Nat)
  /-- `CREDIT_RETURN_SEND` (R399): A receiver sends a CREDIT_RET for freed buffer units within 64 adapter cycles of freeing them, or at once when 64 units are freed. -/
  | creditReturnSend (p : Nat)
  deriving DecidableEq, Repr

end Sys2Proof
end

