-- ==== Sys2Proof/Config.lean ====
section
/-!
DEFINITION. What an implementation fixes, and the free values: constants without a body, of which nothing can be
proved. A step that needs free values applies them to the counter `State.free`, which it then advances (log 1).
-/

namespace Sys2Proof.Config

/-- The 32-bit free value number `i` of the step whose counter is `n`. -/
opaque freeWord (n i : Nat) : BitVec 32

/-- The byte that an agent outside the die holds or sends at address `a`, as seen by the step whose counter is `n`. -/
opaque outsideByte (n a : Nat) : BitVec 8

/-- The lane at leaf `i` of the fixed adder tree of `VRSUM` (R189; log 2). -/
opaque treeLeaf (i : Nat) : Nat

/-- Which of the elements of a stationary register takes part in a column-stream pass on a narrow format, by format code
(R111; log 7). -/
opaque columnSub (fmt : Nat) : Nat

/-- Byte `i` of the core part of the context saved by the step whose counter is `n`, and the bytes of it before its CRC: the
layout is internal to the stepping (R331; log 17). -/
opaque contextByte (n i : Nat) : BitVec 8
opaque contextLen : Nat

/-- Word `i` of the SHA-384 digest of these bytes (R497); the spec names the function and does not give it (log 30). -/
opaque sha384 (bs : List (BitVec 8)) (i : Nat) : BitVec 32

/-- Physical tiles, ports, slots per scratchpad, accumulator rows (R12, R14, R239, R70). -/
abbrev tiles : Nat := 72
/-- Ports of the die. -/
abbrev ports : Nat := 48
/-- Slots of a scratchpad. -/
abbrev slots : Nat := 4096
/-- Rows of an accumulator. -/
abbrev accRows : Nat := 2048

end Sys2Proof.Config
end

