-- ==== Sys2Proof/Machine/Formats.lean ====
section
/-!
DEFINITION. Number formats (spec/05_number_formats_and_block_scales.md): exact dyadic values, the element formats
of R118 to R121, the flush on input of R125, and the roundings of R146, R151, R161 and R163.
-/

namespace Sys2Proof.Machine

/-- An exact dyadic number `m · 2 ^ e`. Every finite element, product and sum of the die is one. -/
structure Dy where
  m : Int
  e : Int
  deriving DecidableEq, Repr

namespace Dy

/-- Zero. -/
def zero : Dy := ⟨0, 0⟩
/-- `2 ^ e`. -/
def pow2 (e : Int) : Dy := ⟨1, e⟩
/-- An integer. -/
def ofInt (i : Int) : Dy := ⟨i, 0⟩
/-- The mantissa of `a` when it is written with exponent `e`, for `e` at most its own exponent. -/
def at' (a : Dy) (e : Int) : Int := a.m * (2 ^ (a.e - e).toNat : Nat)
/-- Exact sum. -/
def add (a b : Dy) : Dy :=
  let e := if a.e ≤ b.e then a.e else b.e
  ⟨a.at' e + b.at' e, e⟩
/-- Exact product. -/
def mul (a b : Dy) : Dy := ⟨a.m * b.m, a.e + b.e⟩
/-- Negation. -/
def neg (a : Dy) : Dy := ⟨-a.m, a.e⟩
/-- Exact difference. -/
def sub (a b : Dy) : Dy := a.add b.neg
/-- Magnitude. -/
def abs (a : Dy) : Dy := ⟨a.m.natAbs, a.e⟩
/-- `a ≤ b`. -/
def le (a b : Dy) : Bool :=
  let e := if a.e ≤ b.e then a.e else b.e
  decide (a.at' e ≤ b.at' e)
/-- `a < b`. -/
def lt (a b : Dy) : Bool := !(b.le a)
/-- `a = b` as values. -/
def eqv (a b : Dy) : Bool := a.le b && b.le a
/-- Whether the value is zero. -/
def isZero (a : Dy) : Bool := decide (a.m = 0)
/-- The exponent of the binade of a non-zero value: `2 ^ ilog ≤ |a| < 2 ^ (ilog + 1)`. -/
def ilog (a : Dy) : Int := (Nat.log2 a.m.natAbs : Int) + a.e

end Dy

/-- A value as an engine handles it: NaN, an infinity of a sign, or a finite magnitude with a sign (so that
the two zeros differ). -/
inductive Val
  | nan
  | inf (neg : Bool)
  /-- sign and magnitude (never negative) -/
  | fin (neg : Bool) (mag : Dy)
  deriving DecidableEq, Repr

namespace Val
/-- Positive zero. -/
def pzero : Val := .fin false .zero
/-- The signed exact number of a finite value; zero for NaN and the infinities. -/
def num : Val → Dy
  | .fin true q => q.neg
  | .fin false q => q
  | _ => .zero
/-- The value of an exact number; a zero takes the sign `z`. -/
def ofDy (z : Bool) (q : Dy) : Val := if q.isZero then .fin z .zero else .fin (decide (q.m < 0)) q.abs
/-- Whether the value is a zero of either sign. -/
def isZero : Val → Bool
  | .fin _ q => q.isZero
  | _ => false
/-- Whether the sign bit is set. -/
def isNeg : Val → Bool
  | .fin n _ => n
  | .inf n => n
  | .nan => false
/-- Sign inverted. -/
def negate : Val → Val
  | .nan => .nan
  | .inf n => .inf (!n)
  | .fin n q => .fin (!n) q
/-- Exact product with the special values of R126: ∞ × 0 and any NaN give NaN. -/
def mul : Val → Val → Val
  | .nan, _ => .nan
  | _, .nan => .nan
  | .inf a, .inf b => .inf (a != b)
  | .inf a, .fin b q => if q.isZero then .nan else .inf (a != b)
  | .fin a q, .inf b => if q.isZero then .nan else .inf (a != b)
  | .fin a p, .fin b q => .fin (a != b) (p.mul q)
/-- Exact sum with the special values of R126; a sum of zeros is −0 only when both are −0. -/
def add : Val → Val → Val
  | .nan, _ => .nan
  | _, .nan => .nan
  | .inf a, .inf b => if a = b then .inf a else .nan
  | .inf a, .fin _ _ => .inf a
  | .fin _ _, .inf b => .inf b
  | .fin a p, .fin b q =>
    if p.isZero && q.isZero then .fin (a && b) .zero
    else ofDy false ((Val.fin a p).num.add (Val.fin b q).num)
/-- `a < b` for values that are not NaN. -/
def lt : Val → Val → Bool
  | .nan, _ => false
  | _, .nan => false
  | .inf true, .inf true => false
  | .inf true, _ => true
  | .inf false, _ => false
  | .fin _ _, .inf n => !n
  | .fin a p, .fin b q => (Val.fin a p).num.lt (Val.fin b q).num
end Val

/-- The element formats of Table — Format codes (R118). -/
inductive Fmt
  | bf16 | fp16 | e4m3 | e5m2 | int8 | e2m1 | int4 | fp32
  deriving DecidableEq, Repr

/-- The format of a code; 0x08 and above are reserved (R118). -/
def Fmt.ofCode : Nat → Option Fmt
  | 0 => some .bf16 | 1 => some .fp16 | 2 => some .e4m3 | 3 => some .e5m2
  | 4 => some .int8 | 5 => some .e2m1 | 6 => some .int4 | 7 => some .fp32
  | _ => none

/-- Width in bits (R118). -/
def Fmt.width : Fmt → Nat
  | .bf16 => 16 | .fp16 => 16 | .e4m3 => 8 | .e5m2 => 8 | .int8 => 8 | .e2m1 => 4 | .int4 => 4 | .fp32 => 32

/-- Elements per stationary register, `p` of R69. -/
def Fmt.p : Fmt → Nat
  | .bf16 => 1 | .fp16 => 1 | .e4m3 => 2 | .e5m2 => 2 | .int8 => 2 | .e2m1 => 4 | .int4 => 4 | .fp32 => 1

/-- Whether the format holds integers. -/
def Fmt.isInt : Fmt → Bool
  | .int8 => true
  | .int4 => true
  | _ => false

/-- Whether the format is an array operand (R118). -/
def Fmt.isOperand : Fmt → Bool
  | .fp32 => false
  | _ => true

/-- Exponent bits (R119). -/
def Fmt.ebits : Fmt → Nat
  | .bf16 => 8 | .fp16 => 5 | .e4m3 => 4 | .e5m2 => 5 | .e2m1 => 2 | .fp32 => 8 | .int8 => 0 | .int4 => 0
/-- Mantissa bits (R119). -/
def Fmt.mbits : Fmt → Nat
  | .bf16 => 7 | .fp16 => 10 | .e4m3 => 3 | .e5m2 => 2 | .e2m1 => 1 | .fp32 => 23 | .int8 => 0 | .int4 => 0
/-- Exponent bias (R119). -/
def Fmt.bias : Fmt → Int
  | .bf16 => 127 | .fp16 => 15 | .e4m3 => 7 | .e5m2 => 15 | .e2m1 => 1 | .fp32 => 127 | .int8 => 0 | .int4 => 0
/-- Whether the format has infinities (R119). -/
def Fmt.hasInf : Fmt → Bool
  | .fp32 => true | .bf16 => true | .fp16 => true | .e5m2 => true | _ => false
/-- The canonical NaN (R119); formats without NaN give +0 (R163). -/
def Fmt.nanBits : Fmt → Nat
  | .fp32 => 0x7FC00000 | .bf16 => 0x7FC0 | .fp16 => 0x7E00 | .e4m3 => 0x7F | .e5m2 => 0x7E
  | _ => 0
/-- Bits of the largest finite magnitude (R119). -/
def Fmt.maxBits : Fmt → Nat
  | .fp32 => 0x7F7FFFFF | .bf16 => 0x7F7F | .fp16 => 0x7BFF | .e4m3 => 0x7E | .e5m2 => 0x7B | .e2m1 => 7
  | _ => 0
/-- Bits of positive infinity, where the format has one. -/
def Fmt.infBits : Fmt → Nat
  | .fp32 => 0x7F800000 | .bf16 => 0x7F80 | .fp16 => 0x7C00 | .e5m2 => 0x7C | _ => 0

/-- Whether the bits are a subnormal value (R119). -/
def isSubnormal (f : Fmt) (b : Nat) : Bool :=
  !f.isInt && bitsOf b f.mbits f.ebits == 0 && bitsOf b 0 f.mbits != 0

/-- The value that floating-point bits hold (R119), subnormals kept. -/
def floatVal (f : Fmt) (b : Nat) : Val :=
  let s := bitsOf b (f.ebits + f.mbits) 1 == 1
  let e := bitsOf b f.mbits f.ebits
  let m := bitsOf b 0 f.mbits
  let top := 2 ^ f.ebits - 1
  if f.hasInf && e == top then (if m == 0 then .inf s else .nan)
  else if f == .e4m3 && e == 15 && m == 7 then .nan
  else if e == 0 then .fin s ⟨m, 1 - f.bias - f.mbits⟩
  else .fin s ⟨(2 ^ f.mbits + m : Nat), (e : Int) - f.bias - f.mbits⟩

/-- The value an engine reads from an element, and whether it was flushed on input (R125). Integer elements are
read with the signedness given (R121). -/
def readElem (f : Fmt) (signed : Bool) (b : Nat) : Val × Bool :=
  if f.isInt then
    (Val.ofDy false (.ofInt (if signed then signedOf b f.width else (b % 2 ^ f.width : Nat))), false)
  else if isSubnormal f b then (.fin (bitsOf b (f.ebits + f.mbits) 1 == 1) .zero, true)
  else (floatVal f b, false)

/-- The element with index `i` of a packed row that starts at byte `a` of memory `m` (R122). -/
def elemBits (m : Mem) (a : Nat) (f : Fmt) (i : Nat) : Nat :=
  match f.width with
  | 4 => bitsOf (m.rd (a + i / 2)).toNat (4 * (i % 2)) 4
  | 8 => (m.rd (a + i)).toNat
  | 16 => m.rdLE (a + 2 * i) 2
  | _ => m.rdLE (a + 4 * i) 4

/-- The rounding modes of the Bell (R152, R161): `sr r` carries the 16 random bits of the element. -/
inductive Rnd
  | rne | rtz | sr (r : Nat)
  deriving DecidableEq, Repr

/-- Round a non-negative magnitude to a multiple of `2 ^ u` (R161); the result is in units of `2 ^ u`. -/
def roundUnits (r : Rnd) (a : Dy) (u : Int) : Nat :=
  if u ≤ a.e then (a.m * (2 ^ (a.e - u).toNat : Nat)).toNat
  else
    let k := (u - a.e).toNat
    let q := a.m.toNat / 2 ^ k
    let rem := a.m.toNat % 2 ^ k
    match r with
    | .rtz => q
    | .rne => if 2 * rem > 2 ^ k ∨ (2 * rem = 2 ^ k ∧ q % 2 = 1) then q + 1 else q
    | .sr x => if rem * 2 ^ 16 / 2 ^ k + x ≥ 2 ^ 16 then q + 1 else q

/-- Round a magnitude onto the grid with `p` significant bits and no exponent limit (R151, R161). -/
def roundSig (r : Rnd) (p : Nat) (a : Dy) : Dy :=
  if a.isZero then .zero
  else
    let u := a.ilog - (p - 1 : Nat)
    ⟨roundUnits r a u, u⟩

/-- Round a value to 24 significant bits with `RNE` and no exponent limit (the Bell's scale and bias steps, R151). -/
def Val.round24 : Val → Val
  | .fin n q => .fin n (roundSig .rne 24 q)
  | v => v

/-- Floating-point bits of a sign and a magnitude that is normal and on the format's grid. -/
def packNormal (f : Fmt) (n : Bool) (a : Dy) : Nat :=
  let e := a.ilog
  let frac := roundUnits .rtz a (e - f.mbits)
  bit1 n * 2 ^ (f.ebits + f.mbits) + (e + f.bias).toNat * 2 ^ f.mbits + frac % 2 ^ f.mbits

/-- The smallest normal magnitude of a format is `2 ^ (1 - bias)` (R119). -/
def Fmt.minExp (f : Fmt) : Int := 1 - f.bias

/-- The largest finite magnitude of a floating format (R119). -/
def Fmt.maxMag (f : Fmt) : Dy := (floatVal f f.maxBits).num

/-- FP32 bits of a value rounded with `RNE`: subnormal results are kept and a finite magnitude beyond the range
becomes infinite, as in array accumulation (R126). -/
def fp32Keep (v : Val) : Word :=
  match v with
  | .nan => 0x7FC00000
  | .inf n => BitVec.ofNat 32 (bit1 n * 2 ^ 31 + 0x7F800000)
  | .fin n q =>
    if q.isZero then BitVec.ofNat 32 (bit1 n * 2 ^ 31)
    else
      let u : Int := if q.ilog < -126 then -149 else q.ilog - 23
      let r : Dy := ⟨roundUnits .rne q u, u⟩
      if r.isZero then BitVec.ofNat 32 (bit1 n * 2 ^ 31)
      else if r.ilog > 127 then BitVec.ofNat 32 (bit1 n * 2 ^ 31 + 0x7F800000)
      else if r.ilog < -126 then BitVec.ofNat 32 (bit1 n * 2 ^ 31 + roundUnits .rtz r (-149))
      else BitVec.ofNat 32 (packNormal .fp32 n r)

/-- FP32 bits of a value rounded with `RNE`, a result below the smallest normal magnitude flushed to zero of its
sign (the vector engine, R183, R184). -/
def fp32Flush (v : Val) : Word :=
  match v with
  | .fin n q =>
    if q.isZero then BitVec.ofNat 32 (bit1 n * 2 ^ 31)
    else
      let r := roundSig .rne 24 q
      if r.ilog < -126 then BitVec.ofNat 32 (bit1 n * 2 ^ 31)
      else fp32Keep (.fin n r)
  | _ => fp32Keep v

/-- BF16 bits of a value rounded with `RNE`, a result below the smallest normal magnitude flushed to zero (the
packed lanes of the vector engine, R183). -/
def bf16Flush (v : Val) : Nat :=
  match v with
  | .nan => 0x7FC0
  | .inf n => bit1 n * 2 ^ 15 + 0x7F80
  | .fin n q =>
    if q.isZero then bit1 n * 2 ^ 15
    else
      let r := roundSig .rne 8 q
      if r.ilog > 127 then bit1 n * 2 ^ 15 + 0x7F80
      else if r.ilog < -126 then bit1 n * 2 ^ 15
      else packNormal .bf16 n r

/-- The value of FP32 bits, subnormals kept. -/
def fp32Val (w : Word) : Val := floatVal .fp32 w.toNat
/-- The value an engine reads from FP32 bits and whether it was flushed (R125). -/
def fp32Read (w : Word) : Val × Bool := readElem .fp32 false w.toNat

/-- A scale byte (R129): its value and whether it was flushed (an E4M3 subnormal). -/
def scaleVal (e4m3 : Bool) (b : Byte) : Val × Bool :=
  if e4m3 then readElem .e4m3 false b.toNat
  else if b.toNat = 255 then (.nan, false)
  else (.fin false (.pow2 ((b.toNat : Int) - 127)), false)

/-- The result of a Bell's convert step for one element: the target bits, whether it counts as saturated, and
whether it counts as flushed on output. -/
structure Conv where
  bits : Nat
  sat : Bool
  flushOut : Bool
  deriving DecidableEq, Repr

/-- Convert to an integer target (R161, R163): range −128 to 127 or −8 to 7 when signed, 0 to 255 or 0 to 15 when not. -/
def convInt (w : Nat) (signed : Bool) (r : Rnd) (v : Val) : Conv :=
  let hi : Int := if signed then (2 ^ (w - 1) : Nat) - 1 else (2 ^ w : Nat) - 1
  let lo : Int := if signed then -((2 ^ (w - 1) : Nat) : Int) else 0
  match v with
  | .nan => ⟨0, true, false⟩
  | .inf n => ⟨((if n then lo else hi) % ((2 ^ w : Nat) : Int)).toNat, true, false⟩
  | .fin n q =>
    let k : Int := roundUnits r q 0
    let x : Int := if n then -k else k
    let y := if x < lo then lo else if hi < x then hi else x
    ⟨(y % ((2 ^ w : Nat) : Int)).toNat, decide (x ≠ y), false⟩

/-- Convert to a floating target (R161, R163). -/
def convFloat (f : Fmt) (r : Rnd) (ovfInf : Bool) (v : Val) : Conv :=
  let sgn := fun n => bit1 n * 2 ^ (f.ebits + f.mbits)
  match v with
  | .nan => ⟨f.nanBits, f == .e2m1, false⟩
  | .inf n => if f.hasInf then ⟨sgn n + f.infBits, false, false⟩ else ⟨sgn n + f.maxBits, true, false⟩
  | .fin n q =>
    if q.isZero then ⟨sgn n, false, false⟩
    else
      let x := roundSig r (f.mbits + 1) q
      if x.isZero || x.lt (.pow2 f.minExp) then ⟨sgn n, false, true⟩
      else if f.maxMag.lt x then
        ⟨sgn n + (if f.hasInf && ovfInf then f.infBits else f.maxBits), true, false⟩
      else ⟨packNormal f n x, false, false⟩

/-- Convert a value to the target format (R161 to R163). `RND` has no effect on an FP32 target. -/
def convert (f : Fmt) (signed : Bool) (r : Rnd) (ovfInf : Bool) (v : Val) : Conv :=
  if f.isInt then convInt f.width signed r v
  else if f == .fp32 then convFloat f .rne ovfInf v
  else convFloat f r ovfInf v

/-- `sr_bits` of R162, in arithmetic modulo 2^64. -/
def srRound (x y : BitVec 64) : Nat → BitVec 64 × BitVec 64
  | 0 => (x, y)
  | n + 1 =>
    let x1 := (x ^^^ (x >>> 30)) * 0xBF58476D1CE4E5B9#64
    let y1 := (y ^^^ (y >>> 27)) * 0x94D049BB133111EB#64
    let x2 := x1 ^^^ y1
    srRound x2 (y1 + (x2 >>> 31)) n

/-- The 16 random bits of an element (R162). -/
def srBits (seed c0 c1 : BitVec 64) : Nat :=
  (((srRound (seed ^^^ c0) (c1 + 0x9E3779B97F4A7C15#64) 4).1) >>> 48).toNat

/-- The generator input `c0` of element (`j`, `n`) (R162). -/
def srC0 (n j bell count : Nat) : BitVec 64 :=
  BitVec.ofNat 64 (n % 2 ^ 10 + j % 2 ^ 11 * 2 ^ 10 + bell % 4 * 2 ^ 21 + count % 2 ^ 32 * 2 ^ 32)

/-- CRC-32C of the spec is computed bit by bit over the reflected polynomial 0x82F63B78. -/
def crc32cByte (c : Nat) : Nat → Nat
  | 0 => c
  | k + 1 => crc32cByte (if c % 2 = 1 then (c / 2) ^^^ 0x82F63B78 else c / 2) k

/-- CRC-32C of a byte string (initial value and final inversion all ones). -/
def crc32c (bs : List Byte) : Nat :=
  (bs.foldl (fun c b => crc32cByte (c ^^^ b.toNat) 8) 0xFFFFFFFF) ^^^ 0xFFFFFFFF

end Sys2Proof.Machine
end

