-- ==== Sys2Proof/Machine/CoreTypes.lean ====
section
/-!
DEFINITION. The state of one core tile: sequencer, command queues, matrix arrays with their Bells, vector engine,
row engine with its Reed, scratchpad with slot tags, core DMA, sync unit (spec files 02, 03, 06, 07, 08, 10, 11).
-/

namespace Sys2Proof.Machine

/-- Where the sequencer of a tile stands with respect to a core program (R28, R46, R57, R61, R63). -/
inductive Phase
  /-- no program -/
  | idle
  /-- a descriptor has been handed over and the program has not started (R564) -/
  | starting
  /-- instructions run -/
  | running
  /-- told to yield; queued commands may finish (R63) -/
  | yielding
  /-- context saved (R63, R64) -/
  | saved
  /-- context discarded; the descriptor restarts (R63) -/
  | discarded
  /-- END executed (R57) -/
  | ended
  /-- stopped by a program fault of this cause code (R61, R62) -/
  | faulted (cause : Nat)
  deriving DecidableEq, Repr

/-- One command in an engine command queue (R47 to R52), with the progress of its execution. -/
structure QEntry where
  /-- command code of an `ISSUE`, or `VOP` of a `VEC` -/
  code : Nat
  /-- bits [27:0] of a `VEC` word; 0 for an `ISSUE` -/
  enc : Word
  /-- parameter words; for a `VEC`, the captured scalar registers from rs on -/
  words : List Word
  /-- wait token (W = 1) -/
  wait : Option Nat
  /-- post token (P = 1) -/
  post : Option Nat
  /-- the wait token has been taken, or none is needed (R52) -/
  taken : Bool
  /-- `CORE_CFG` captured on entry (R49) -/
  cfg : Word
  /-- `SR_SEED` captured on entry (R49) -/
  seed : BitVec 64
  /-- `PASS`: the `SCALE` words in force (R132) -/
  scale : List Word
  /-- vector instructions: VL in force; 0 otherwise (R178) -/
  vl : Nat
  /-- `PASS`: the stationary bank it uses, once known (R87) -/
  bank : Option Bool
  /-- `PASS`: load rows entered; -/
  loadRows : Nat
  /-- `PASS`: streamed rows entered; background vector moves: rows moved -/
  strRows : Nat
  /-- accumulator rows or source rows the Bell has read for the command's store (R170) -/
  bellRows : Nat
  /-- the store's settings set, first slot and store count, once it has begun (R155, R162, R164) -/
  store : Option (Nat × Nat × Nat)
  /-- the store has completed (R170) -/
  stored : Bool
  /-- the core DMA has started the command (R279) -/
  inFlight : Bool
  /-- the command waits on a slot tag, a credit, a window or a directory entry (R250, R259) -/
  waiting : Bool
  /-- bytes another die has returned for the transfer, by offset in the transfer's source (R265, R396) -/
  buf : Mem
  /-- responses of other dies that the command still waits for -/
  owed : Nat
  /-- identity of the command within its queue's program: the issue number -/
  uid : Nat
  /-- what the other side has answered: 0 nothing yet, 1 granted, 2 `NO_CREDIT`, 3 `SECURITY`, 4 core absent, 5 sealed
  slots of the fenced tile `tgt`, 6 refused by the Keywork, 7 poisoned, 8 unreachable, 9 lost with a port, 10 `FILL_DECL` -/
  ans : Nat
  /-- physical tile of this die that the command reaches into; 127 none -/
  tgt : Nat
  deriving DecidableEq, Repr

/-- A settings set of a Bell with its loaded vectors (R153, R155, R157). -/
structure BellSet where
  id : Nat
  /-- `BELL_CFG` words 0 to 5 -/
  words : List Word
  /-- M-direction vector, N-direction vector and bias vector as loaded -/
  mvec : Mem
  nvec : Mem
  bias : Mem
  /-- identity of the set whose vector load fills this one: its own, or that of the set it was copied from (R153) -/
  src : Nat
  /-- the vector load is complete (R157) -/
  loaded : Bool
  /-- the slot after the last slot the previous store under the set wrote (R166) -/
  adv : Option Nat
  deriving DecidableEq, Repr

/-- A Bell, or the row engine's own store settings (R149, R206). -/
structure Bell where
  /-- at most two settings sets, the latest last -/
  sets : List BellSet
  nextId : Nat
  /-- store count (R162); 32 bits -/
  count : Nat
  /-- issue-side copy of the latest `BELL_CFG` words and of the slot its next store begins in (R167) -/
  issWords : List Word
  issAdv : Option Nat
  deriving DecidableEq, Repr

/-- The model's own record beside an accumulated FP32 element, from which the bound of R145 is stated: the exact
sum of the finite terms, the sum of their magnitudes, the number K of terms, the group size G where an E4M3 scale takes
part (0 otherwise), whether a `K · 2^-149` allowance applies, which signs and special values occurred among the terms, and
whether every term was −0. -/
structure Ghost where
  exact : Dy
  mag : Dy
  k : Nat
  grp : Nat
  tiny : Bool
  pos : Bool
  neg : Bool
  negZero : Bool
  nan : Bool
  pinf : Bool
  ninf : Bool
  deriving DecidableEq, Repr

/-- An accumulator row that is valid: its class and its 128 words (R70, R72). -/
structure AccRow where
  isInt : Bool
  bits : Tab Word
  /-- none: the element's value is its bits -/
  ghost : Tab (Option Ghost)
  deriving DecidableEq, Repr

/-- One stationary bank (R67): 32 KiB of register values in the layout of R102, and the 2 KiB table of
stationary scale entries read with the load (R135, R137). -/
structure Bank where
  data : Mem
  scales : Mem
  deriving DecidableEq, Repr

/-- One complete streamed row in the feeder queues (R84, R85): the pass it belongs to, its number there, and the bytes that
the feeders have read, data and scale entries, at their scratchpad addresses. -/
structure FeedRow where
  uid : Nat
  row : Nat
  mem : Mem
  deriving DecidableEq, Repr

/-- One matrix array (R67, R565). -/
structure Arr where
  q : List QEntry
  acc : Tab (Option AccRow)
  /-- rows that passes behind an `ACC_CLEAR` have written into its range before it took effect, by the clear's identity;
  they enter the accumulator when it does (R80) -/
  later : Tab (Tab (Option AccRow))
  bankA : Bank
  bankB : Bank
  /-- bank-select bit that every PE holds once the last switch token has passed: false = bank A (R67, R87) -/
  sel : Bool
  /-- feeder queues, the row at their head first: at most 32 rows (R84) -/
  feed : List FeedRow
  /-- pass configuration of the last `PASS` that was issued (R79, R89) -/
  issCfg : Option (List Nat)
  /-- settings of the latest `SCALE` that was issued (R132, R133) -/
  issScale : List Word
  /-- the array holds the whole load channel (R108) -/
  channel : Bool
  /-- counter block (R98) -/
  cnt : Tab Nat
  bell : Bell
  deriving DecidableEq, Repr

/-- The vector engine (R175). -/
structure Vec where
  q : List QEntry
  /-- v0–v7, each a table of 128 lanes -/
  v : Tab (Tab Word)
  /-- t0–t3: row `128 · t + r`; none = valid bit clear -/
  t : Tab (Option (Tab Word))
  vl : Nat
  /-- the sequencer's copy of VL (R178) -/
  issVl : Nat
  cnt : Tab Nat
  bell : Bell
  deriving DecidableEq, Repr

/-- A Reed entry (R207). -/
structure ReedEnt where
  stat0 : Word
  stat1 : Word
  key : Nat
  valid : Bool
  /-- written by this program; cannot be seen from outside -/
  mine : Bool
  deriving DecidableEq, Repr

/-- The output row that the row engine is sending: its FP32 values, the source rows of 128 elements already sent, and its row
store count (R206). -/
structure RowOut where
  vals : List Word
  sent : Nat
  count : Nat
  deriving DecidableEq, Repr

/-- The row engine with its Reed (R199 to R220). -/
structure Row where
  q : List QEntry
  reed : Tab ReedEnt
  /-- job that owns the Reed (R211) -/
  owner : Option Nat
  cnt : Tab Nat
  bell : Bell
  /-- the row of the command at the head whose statistics are taken and whose output is under way (R206, R219) -/
  out : Option RowOut
  /-- the row engine lost the most recent vector-Bell contest (R206) -/
  lostLast : Bool
  deriving DecidableEq, Repr

/-- Slot tags (R245). -/
inductive Tag
  | empty | full | sealed | raw
  deriving DecidableEq, Repr

/-- Tag, fill count and declared length of a slot (R245). -/
structure Slot where
  tag : Tag
  fill : Nat
  decl : Nat
  deriving DecidableEq, Repr

/-- The scratchpad (R239 to R257). -/
structure Spad where
  mem : Mem
  slots : Tab Slot
  /-- owning job (R244) -/
  owner : Option Nat
  /-- slots that the program of the core has written in part (R254) -/
  mine : List Nat
  /-- sealed and awaiting the Mute (R255, R256) -/
  sealed : Bool
  /-- held for the debugger under `DEBUG_RETAIN` (R257): the job -/
  retain : Option Nat
  deriving DecidableEq, Repr

/-- A grant held in a credit handle (R259). -/
structure Grant where
  die : Nat
  core : Nat
  window : Nat
  /-- number of slots granted -/
  count : Nat
  revoked : Bool
  /-- physical tile of this die whose scratchpad it is; 127 on another die -/
  tile : Nat
  deriving DecidableEq, Repr

/-- Who holds a credit: die position, mesh stop (tile, or 120 for the copy engine) and handle (R259, R396). -/
structure Writer where
  die : Nat
  stop : Nat
  handle : Nat
  deriving DecidableEq, Repr

/-- An open receive window (R258). -/
structure Window where
  first : Nat
  count : Nat
  ptr : Nat
  deriving DecidableEq, Repr

/-- A credit request at the destination's allocator (R259, R260). -/
structure CredReq where
  who : Writer
  job : Nat
  window : Nat
  count : Nat
  /-- logical core of the requester, where this die knows it -/
  lcore : Nat
  /-- timestamp of its arrival (R260) -/
  since : Nat
  /-- identity of the command, or of the descriptor, that asks -/
  uid : Nat
  /-- port and packet of a request that came from another die -/
  port : Option (Nat × Packet)
  deriving DecidableEq, Repr

/-- A slot of this scratchpad that is granted to a writer and whose credit is neither spent nor returned (R261). -/
structure Granted where
  slot : Nat
  window : Nat
  who : Writer
  /-- number of the slot in grant order -/
  idx : Nat
  deriving DecidableEq, Repr

/-- The core DMA engine and the scratchpad's slot allocator (R258 to R282). -/
structure Dma where
  q : List QEntry
  handles : Tab (Option Grant)
  windows : Tab (Option Window)
  /-- requests waiting at the allocator, oldest first -/
  reqs : List CredReq
  granted : List Granted
  cnt : Tab Nat
  /-- ranges of the windows that a yield closed, which reopen when the program resumes (R263) -/
  reopen : Tab (Option Window)
  deriving DecidableEq, Repr

/-- The sync unit of a core (R284 to R307). -/
structure SyncUnit where
  q : List QEntry
  /-- operations deferred to the descriptor's completion (R295) -/
  deferred : List SyncReq
  /-- the command that a yield withdrew from its home (R300) -/
  withdrawn : Option QEntry
  /-- die timestamp at which the head command started (R294) -/
  since : Nat
  /-- what was left of the window of a withdrawn command, in nanoseconds (R300) -/
  left : Option Nat
  deriving DecidableEq, Repr

/-- A stalled `ISSUE` or `VEC` (R50): engine, and the entry that will enter its queue. -/
structure Stall where
  eng : Nat
  entry : QEntry
  deriving DecidableEq, Repr

/-- The sequencer (R36 to R66, R564). -/
structure Seq where
  phase : Phase
  pc : Nat
  /-- s1–s31; s0 is not stored (R36) -/
  regs : Tab Word
  dmem : Mem
  pmem : Tab Word
  /-- handle and number of words of the image that program memory holds (R32) -/
  resident : Option (Nat × Nat)
  tokens : Tab Nat
  coreCfg : Word
  /-- core cycles since program start (R58, R64) -/
  cycles : Nat
  /-- `TS_HI` as latched by the last read of `TS_LO` (R58) -/
  tsHi : Word
  seed : BitVec 64
  handle : Nat
  progLen : Nat
  entry : Nat
  args : List Word
  argAddr : Nat
  argLen : Nat
  lcore : Nat
  member : Nat
  group : Nat
  job : Nat
  stream : Nat
  seqNo : Nat
  stall : Option Stall
  /-- halted by the debugger or `BRK`; one step granted; halt requested (R46, R523) -/
  halted : Bool
  stepping : Bool
  haltReq : Bool
  /-- `STAT_RECOMP`, saturation, input-flush and output-flush totals of the program (R57, R172, R215) -/
  sat : Nat
  flushIn : Nat
  flushOut : Nat
  recomp : Nat
  /-- code or index that the fault event carries (R61) -/
  faultInfo : Nat
  /-- job of the descriptor that caused the last yield (R330, R331), and the cycle count at which it came (R63, R95) -/
  yieldJob : Nat
  yieldAt : Nat
  /-- number of engine commands entered so far; the uid of the next -/
  issued : Nat
  /-- the token of the `TWAIT` that the sequencer waits at (R53, R56) -/
  twait : Option Nat
  /-- nanoseconds since an instruction last retired, without those of a throttle hold (R60, R487) -/
  stallNs : Nat
  /-- core-phase remainder of the tick: cycles are counted from nanoseconds (log 5) -/
  phaseAcc : Nat
  deriving DecidableEq, Repr

/-- One core tile. -/
structure Tile where
  seq : Seq
  ma0 : Arr
  ma1 : Arr
  vec : Vec
  row : Row
  dma : Dma
  sync : SyncUnit
  spad : Spad
  deriving DecidableEq, Repr

/-! ### Values after a core reset (R30, R33, R153, R177) -/

/-- A command with no words, as it enters its queue. -/
def QEntry.init : QEntry :=
  { code := 0, enc := 0, words := [], wait := none, post := none, taken := true, cfg := 0, seed := 0, scale := [],
    vl := 0, bank := none, loadRows := 0, strRows := 0, bellRows := 0, store := none, stored := false,
    inFlight := false, waiting := false, buf := [], owed := 0, uid := 0, ans := 0, tgt := 127 }

/-- No term yet. -/
def Ghost.init : Ghost :=
  { exact := .zero, mag := .zero, k := 0, grp := 0, tiny := false, pos := false, neg := false, negZero := true,
    nan := false, pinf := false, ninf := false }

/-- An all-zero `BELL_CFG`, every vector unloaded and none needed (R153). -/
def Bell.init : Bell :=
  { sets := [{ id := 0, words := [0, 0, 0, 0, 0, 0], mvec := [], nvec := [], bias := [], src := 0, loaded := true,
                adv := none }],
    nextId := 1, count := 0, issWords := [0, 0, 0, 0, 0, 0], issAdv := none }

/-- An array with nothing in it. -/
def Arr.init : Arr :=
  { q := [], acc := [], later := [], bankA := ⟨[], []⟩, bankB := ⟨[], []⟩, sel := false, feed := [], issCfg := none,
    issScale := [0, 0, 0], channel := false, cnt := [], bell := Bell.init }

/-- The vector engine at program start (R177). -/
def Vec.init : Vec :=
  { q := [], v := [], t := [], vl := 128, issVl := 128, cnt := [], bell := Bell.init }

/-- An invalid Reed entry. -/
def ReedEnt.init : ReedEnt := ⟨0, 0, 0, false, false⟩

/-- The row engine with an empty Reed. -/
def Row.init : Row :=
  { q := [], reed := [], owner := none, cnt := [], bell := Bell.init, out := none, lostLast := false }

/-- A slot after a scrub (R245). -/
def Slot.init : Slot := ⟨.empty, 0, 0⟩

/-- A scrubbed scratchpad without an owner (R244, R245). -/
def Spad.init : Spad := { mem := [], slots := [], owner := none, mine := [], sealed := false, retain := none }

/-- An idle core DMA. -/
def Dma.init : Dma :=
  { q := [], handles := [], windows := [], reqs := [], granted := [], cnt := [], reopen := [] }

/-- An idle sync unit. -/
def SyncUnit.init : SyncUnit := { q := [], deferred := [], withdrawn := none, since := 0, left := none }

/-- A sequencer after CRST: program memory invalid, data memory, tokens and `CORE_CFG` clear (R30). -/
def Seq.init : Seq :=
  { phase := .idle, pc := 0, regs := [], dmem := [], pmem := [], resident := none, tokens := [], coreCfg := 0,
    cycles := 0, tsHi := 0, seed := 0, handle := 0, progLen := 0, entry := 0, args := [], argAddr := 0, argLen := 0,
    lcore := 0, member := 0, group := 1, job := 0, stream := 0, seqNo := 0, stall := none, halted := false,
    stepping := false, haltReq := false, sat := 0, flushIn := 0, flushOut := 0, recomp := 0, faultInfo := 0, yieldJob := 0, yieldAt := 0,
    issued := 0, twait := none, stallNs := 0, phaseAcc := 0 }

/-- A tile after CRST and scrub. -/
def Tile.init : Tile :=
  { seq := Seq.init, ma0 := Arr.init, ma1 := Arr.init, vec := Vec.init, row := Row.init, dma := Dma.init,
    sync := SyncUnit.init, spad := Spad.init }

end Sys2Proof.Machine
end

