-- ==== Sys2Proof/Machine/DieTypes.lean ====
section
/-!
DEFINITION. The state of the die's shared units: sync tree (11), queue manager (12), stash (09), Keywork and
remote-data cache (13), Windway ports (14).
-/

namespace Sys2Proof.Machine

/-! ### Sync tree -/

/-- A waiter on a counter or a flag (R289, R290). -/
structure SyncWaiter where
  src : SyncSrc
  /-- threshold of a counter, mask of a flag -/
  operand : Nat
  any : Bool
  take : Bool
  deriving DecidableEq, Repr

/-- A synchronisation object at its home (R284, R285). -/
structure SyncObj where
  /-- 0 counter, 1 flag, 2 barrier -/
  typ : Nat
  /-- 0 `FREE`, 1 `LIVE`, 2 `ABANDONED`, 3 `LOST` -/
  st : Nat
  value : Nat
  target : Nat
  job : Nat
  /-- the owner: a stream, and the die whose queue manager runs it (R286, R302) -/
  owner : Nat
  ownerDie : Nat
  waiters : List SyncWaiter
  deriving DecidableEq, Repr

/-- An arrival at a die's barrier record that waits: for its round to close, or blocked (R298). -/
structure BarWait where
  src : SyncSrc
  core : Nat
  /-- the round the arrival counted toward; none while it is blocked -/
  round : Option Nat
  /-- the arrival carried `WAIT` -/
  wait : Bool
  deriving DecidableEq, Repr

/-- A die's barrier record (R297 to R299), with its barrier's job and state. -/
structure Barrier where
  job : Nat
  st : Nat
  dieMask : Nat
  coreMask : Nat
  /-- oldest open round, modulo 2^32 -/
  round : Nat
  /-- participant core of this die → its next round minus the oldest open round (0, 1 or 2) -/
  ahead : Tab Nat
  waits : List BarWait
  /-- rounds from the oldest open one that this die has reported to the package root -/
  reported : Nat
  /-- package root only: die → rounds from the oldest open one it has reported -/
  reports : Tab Nat
  deriving DecidableEq, Repr

/-- A result message on its way to whoever asked (R292). Outcomes 0 to 3 are those of R292; 4 is an object fault
and 5 a refusal of another job's operation (R286). -/
structure SyncResult where
  src : SyncSrc
  outcome : Nat
  value : Nat
  deriving DecidableEq, Repr

/-- A `SY_INIT` of a package-wide barrier under way at its home: the dies that are still to create a record, the first
of them asked, and those that have (R297). -/
structure InitWait where
  req : SyncReq
  left : List Nat
  made : List Nat
  deriving DecidableEq, Repr

/-- The sync tree of the die. -/
structure SyncTree where
  /-- objects homed here, by local index -/
  objs : Tab SyncObj
  /-- barrier records of this die, by object ID -/
  bars : Tab (Option Barrier)
  results : List SyncResult
  /-- barriers homed here that are being initialised, by object ID, and the operations that have reached such an object
  since, oldest first -/
  inits : Tab (Option InitWait)
  held : List SyncReq
  deriving DecidableEq, Repr

/-! ### Queue manager -/

/-- The queue manager's copy of a ring table entry (R311, R312). -/
structure Ring where
  base : Nat
  log2 : Nat
  valid : Bool
  stream : Nat
  tail : Nat
  lastTag : Nat
  /-- the entries have been read since `QM_EN` was set (R312) -/
  read : Bool
  deriving DecidableEq, Repr

/-- State of a stream (R311, R315). -/
inductive StreamSt
  | idle | active | preempted | halted | reset
  deriving DecidableEq, Repr

/-- The queue manager's copy of a stream table entry (R311, R312). -/
structure Stream where
  valid : Bool
  prio : Nat
  job : Nat
  ring : Nat
  ctxSpad : Bool
  ctxMembers : Nat
  timeout : Nat
  cplBase : Nat
  cplLog2 : Nat
  ctxBase : Nat
  seqStart : Nat
  st : StreamSt
  nextSeq : Nat
  head : Nat
  cplTail : Nat
  /-- lap of the completion ring (R336) -/
  lap : Nat
  satTotal : Nat
  flushInTotal : Nat
  flushOutTotal : Nat
  done : Nat
  lastTs : Nat
  /-- a completion has halted the stream: no further descriptor starts (R337) -/
  halting : Bool
  /-- a reset or kill has stopped the stream: it enters `RESET` after its last completion (R342, R343) -/
  resetting : Bool
  deriving DecidableEq, Repr

/-- State of a job (R311, R342). -/
inductive JobSt
  | live | killing | killed
  deriving DecidableEq, Repr

/-- The queue manager's copy of a job table entry (R311). -/
structure Job where
  valid : Bool
  retain : Bool
  st : JobSt
  scb : Nat
  killTs : Nat
  /-- timestamp at which the kill began, and cores it sealed (R342, R338) -/
  killStart : Nat
  killCores : Nat
  /-- the `SCRUB` that began the kill, by its uid -/
  killUid : Nat
  deriving DecidableEq, Repr

/-- Where a fetched descriptor stands (R326, R327, R332, R336). -/
inductive DescSt
  | fetched | running | preempted | finished
  deriving DecidableEq, Repr

/-- A descriptor that the queue manager holds (R327). -/
structure Desc where
  uid : Nat
  stream : Nat
  /-- its ring index -/
  idx : Nat
  /-- its sixteen 32-bit words -/
  words : List Word
  st : DescSt
  /-- logical cores of its members in member order (R354) -/
  cores : List Nat
  startTs : Nat
  /-- its time in progress is running (R345) -/
  timed : Bool
  /-- nanoseconds in progress before the last pre-emption, or in all once the measure has stopped (R345) -/
  spent : Nat
  /-- the status, cause and tile that will complete it, once decided -/
  outcome : Option (Nat × Nat × Nat)
  /-- replays so far, and whether the descriptor has escaped (R455, R456) -/
  replays : Nat
  escaped : Bool
  /-- tiles of this die into whose scratchpads the present run has written (R456) -/
  wrote : List Nat
  /-- waiting for its program's commit log to be applied (R462) -/
  committing : Bool
  /-- deferred operations whose home has not answered yet (R295) -/
  deferring : Nat
  /-- totals of the members' counts (R57, R335) -/
  sat : Nat
  flushIn : Nat
  flushOut : Nat
  /-- `COPY`: the transfer in the copy engine, its place (R324) and its grant; Reed transfers use the first too -/
  xfer : Option QEntry
  place : Nat
  grant : Option Grant
  /-- cause and tile of the last fault that a replay answered (R465) -/
  lastFault : Nat × Nat
  /-- members that have reached `END` in the present run (R35, R63) -/
  ended : List Nat
  /-- a member has discarded its context (R332) -/
  discarded : Bool
  /-- the action of its opcode has been taken (R321) -/
  acted : Bool
  /-- it counts as started for the order of its stream (R321, R326) -/
  begun : Bool
  /-- deferred operations of members that have ended, by member (R295) -/
  defer : List (Nat × List SyncReq)
  /-- stash entries to free at completion (R231), and entries its runs have set `WRITING` (R232) -/
  frees : List Nat
  writes : List Nat
  deriving DecidableEq, Repr

/-- A saved member context (R63, R64, R331, R565, R173, R197, R213, R263, R300). -/
structure Frame where
  tile : Tile
  /-- the scratchpad part, when it was saved -/
  spad : Option Spad
  /-- slots that the context relied on have been scrubbed since (R333) -/
  gone : Bool
  deriving DecidableEq, Repr

/-- A record or a pad of a stash region that `TAIL` has not passed (R226, R231): its control block, the value of `HEAD` at
which it begins, its bytes, and whether it is freed; a pad is free from the start. -/
structure StashRec where
  scb : Nat
  pos : Nat
  len : Nat
  freed : Bool
  deriving DecidableEq, Repr

/-- The queue manager. -/
structure Qm where
  rings : Tab (Option Ring)
  streams : Tab (Option Stream)
  jobs : Tab (Option Job)
  descs : List Desc
  nextUid : Nat
  /-- frames by `64 · uid + member` of the descriptor (log 17) -/
  frames : Tab (Option Frame)
  /-- last stream served at each priority level (R328) -/
  rr : Tab Nat
  evHead : Nat
  evTail : Nat
  evLap : Nat
  evLoss : Bool
  evLost : Nat
  dbDrop : Nat
  tableErr : Bool
  /-- records and pads of the stash regions, in allocation order (R226, R231) -/
  recs : List StashRec
  /-- a notification is due, and the timestamp of the last one (R340) -/
  notifyDue : Bool
  lastNotify : Option Nat
  deriving DecidableEq, Repr

/-! ### Keywork -/

/-- State of a tile (R350). Before Keywork initialisation none is enabled (R18): `off`. -/
inductive TileSt
  | inService | spare | fenced | failed | admitting | off
  deriving DecidableEq, Repr

/-- State of a logical core (R350). -/
inductive CoreSt
  | mapped | moving | absent
  deriving DecidableEq, Repr

/-- A core map entry (R350). -/
structure CoreEnt where
  tile : Nat
  st : CoreSt
  deriving DecidableEq, Repr

/-- State of a placement object (R359). -/
inductive ObjSt
  | free | active | migrating | releasing
  deriving DecidableEq, Repr

/-- A migration under way (R369, R370). -/
structure Migration where
  /-- target die of a `LOCAL` object; 8 for a `SPREAD` object's new spread set -/
  target : Nat
  newHomes : List Nat
  copied : Bool
  switching : Bool
  /-- dirty 4 KiB blocks, as block numbers of the object -/
  dirty : List Nat
  postponed : Nat
  deriving DecidableEq, Repr

/-- What the Keywork holds for an entry of the object table beside the entry's driver fields (R359, R365). -/
structure Obj where
  st : ObjSt
  gen : Nat
  job : Nat
  exec : Bool
  sharedRo : Bool
  nc : Bool
  pol : Nat
  granules : Nat
  pbase : Nat
  stackMask : Nat
  homeDie : Nat
  hintDie : Nat
  frozen : Bool
  /-- home stack of each granule -/
  homes : List Nat
  /-- spread set of a `SPREAD` object -/
  spread : Nat
  /-- die → consecutive qualifying epochs (R368) -/
  qualify : Tab Nat
  /-- die → bytes this epoch; own counts of this die's accesses and the reports of others (R367) -/
  traffic : Tab Nat
  /-- `TRAFFIC0` to `TRAFFIC7`: counts of the last completed epoch, ÷ 4,096 (R367) -/
  shown : Tab Nat
  mig : Option Migration
  /-- hints recorded for the next epoch boundary (R372): hint code, and its operand -/
  hints : List (Nat × Nat)
  /-- of an object that is `RELEASING`: admitted accesses have completed, its images and cached lines are invalidated
  (R361) -/
  drained : Bool
  deriving DecidableEq, Repr

/-- A translation of a granule that another die owns (R358): its home stack, and what its owner's table says of its object
(R359): owning job, attributes, and granules from this one to the object's end, 0 where no object is `ACTIVE`. -/
structure Xlate where
  stack : Nat
  job : Nat
  exec : Bool
  sharedRo : Bool
  nc : Bool
  left : Nat
  deriving DecidableEq, Repr

/-- An event before it is stamped: type, job, stream (none: `NO_STREAM`), `SEQ`, tile, cause, code, and the payload
as (offset, bytes, value) (R338). -/
structure Ev where
  typ : Nat
  job : Nat := 0
  stream : Option Nat := none
  seq : Nat := 0
  tile : Nat := 127
  cause : Nat := 0
  code : Nat := 0
  pay : List (Nat × Nat × Nat) := []
  deriving DecidableEq, Repr

/-- The Keywork (R347 to R379). -/
structure Kw where
  ready : Bool
  mapErr : Bool
  cores : Tab CoreEnt
  tiles : Tab TileSt
  /-- objects by table index; none: `FREE` -/
  objs : Tab (Option Obj)
  /-- granules in use on each stack 0 to 31 -/
  used : Tab Nat
  epoch : Nat
  deny : Nat
  /-- register writes that take effect at the next epoch boundary (R349) -/
  pendCtrl : Option Word
  pendPolicy : Option Word
  /-- the translation cache, by granule number: at most 16,384 entries (R358) -/
  xlate : Tab (Option Xlate)
  /-- bytes that this die's accesses read and wrote in other dies' objects this epoch, by granule, and those of the last
  completed epoch, which it has reported to their owners (R367; log 51) -/
  ext : Tab Nat
  sent : Tab Nat
  /-- `KW_CORE_MAP_BASE`, `KW_OBJ_TABLE_BASE` and the number of entries of the object table, as read at Keywork
  initialisation (R349) -/
  coreBase : Word
  objBase : Word
  objLimit : Nat
  /-- the group table, as the driver has written the entries that the Keywork has read (R350, R354) -/
  groups : Tab (BitVec 64)
  /-- the sixteen words of object table entries: the driver's part as the Keywork has read it, the die's part as it stood
  when the object became `FREE` (R359) -/
  ents : Tab (List Word)
  /-- Keywork initialisation has dealt with the entries below this index (R360) -/
  initPos : Nat
  /-- events of Keywork initialisation, for which there is no event ring yet (R360; log 6) -/
  early : List Ev
  /-- admissions under way: spare tile, logical core and the fenced tile (127: none) (R355, R568) -/
  admitting : List (Nat × Nat × Nat)
  deriving DecidableEq, Repr

/-- An outstanding request of this die to another (R394, R396, R401). -/
structure OpenTx where
  pkt : Packet
  port : Nat
  /-- command of a tile (tile, engine, uid), or descriptor (127, 0, uid), or neither (126, 0, 0) -/
  tile : Nat
  eng : Nat
  uid : Nat
  /-- offset in the transfer's source that the data answers -/
  off : Nat
  /-- sent once more after link loss; its tag is reserved (R394) -/
  resent : Bool
  /-- when it was sent once more -/
  resentAt : Nat
  answered : Bool
  /-- an `INV` overtook the miss: the line is not installed (R376) -/
  noInstall : Bool
  deriving DecidableEq, Repr

/-- A line of package memory that an agent of this die other than a transfer has asked for: its number, the tag of the
request, what has come of it (0 nothing yet, 1 its bytes are here, from 2 on an answer code of `QEntry.ans`), and the
bytes (R32, R374). -/
structure Fetch where
  agent : Nat
  line : Nat
  tag : Nat
  ans : Nat
  data : List Byte
  deriving DecidableEq, Repr

/-- An invalidation message that a sharer has not acknowledged (R374, R377). -/
structure InvWait where
  /-- its transaction tag, and the die it went to -/
  tag : Nat
  die : Nat
  /-- the lines it names -/
  lines : List Nat
  /-- the write that it belongs to -/
  grp : Nat
  deriving DecidableEq, Repr

/-- What becomes due when every invalidation of a write has been acknowledged (R374, R401): a packet on a port, or one
acknowledgement for a command of this die (tile, or 127 for a descriptor's transfer, or 126 for nobody; uid). -/
structure InvDue where
  grp : Nat
  port : Nat
  reply : Option Packet
  tile : Nat
  uid : Nat
  deriving DecidableEq, Repr

/-- The remote-data cache, the home directory and the die's open transactions (R373 to R377). -/
structure Rdc where
  /-- cached lines by line number (package address ÷ 256): the way each stands in, and its bytes. Address bits [11:8]
  select the slice and [21:12] the set, so that the lines of one set have the same number modulo 2^14 (R373) -/
  lines : Tab (Option (Nat × List Byte))
  /-- replacement state of a set: the fifteen bits of its tree of ways (R373; log 50) -/
  plru : Tab Nat
  /-- the home directory: sharer vector by line number; 0: no entry (R375) -/
  sharers : Tab Nat
  opens : Tab (Option OpenTx)
  nextTag : Nat
  invs : List InvWait
  dues : List InvDue
  /-- reads held behind outstanding invalidations of their line (R376) -/
  held : List (Nat × Packet)
  /-- lines asked for by the loaders of the tiles, the queue manager and the Keywork -/
  fetches : List Fetch
  deriving DecidableEq, Repr

/-! ### Ports -/

/-- Port states (R389). -/
inductive PortSt
  | down | training | exchange | admitWait | up | retraining | isolated | failed
  deriving DecidableEq, Repr

/-- One port (R380 to R406, R498 to R500). `PORT_CTRL` and `PORT_LANEMAP` are set-up registers. -/
structure Port where
  st : PortSt
  rate : Nat
  x32 : Bool
  half : Bool
  version : Nat
  confOn : Bool
  l1 : Bool
  linkLoss : Bool
  /-- the die has sent the sideband link-reset message since the port was last in training (R435) -/
  linkReset : Bool
  admitErr : Bool
  retrains : Nat
  peerKind : Nat
  peerRole : Nat
  peerPos : Nat
  peerPort : Nat
  peerPart : Nat
  peerL1 : Bool
  replays : Nat
  authFails : Nat
  discards : Nat
  /-- credits held for each class, in 16 B units (R399) -/
  credits : Tab Nat
  /-- units of each class freed and not yet returned (R399) -/
  freed : Tab Nat
  /-- packets sent and not yet acknowledged at link level, and packets waiting to be sent -/
  unacked : List Packet
  queue : List Packet
  /-- failed replays of the flit at the head of the link, and replays in the 1 ms window with its start -/
  flitFails : Nat
  winReplays : Nat
  winStart : Nat
  /-- timestamp at which the present training began, the latest attempt from `DOWN`, and `PORT_CTRL` as it stood when the
  training began (R389, R404) -/
  trainStart : Nat
  tried : Option Nat
  ctl : Word
  /-- timestamps at which the port last had a packet to send and last received a flit, and at which it last sent or received
  a packet that keeps it out of L1 (R394, R395) -/
  lastSent : Nat
  lastRecv : Nat
  lastBusy : Nat
  /-- timestamp at which the key exchange of admission began (R499) -/
  kexStart : Nat
  retrainReq : Bool
  /-- partner's certificate accepted, offer accepted, key epoch, packets sent under the key, rekey under way -/
  certOk : Bool
  keyed : Bool
  keyEpoch : Nat
  sentCount : Nat
  rekeying : Bool
  /-- packets received under the key, and the CA that the partner's certificate verified under (R499, R510) -/
  recvCount : Nat
  ca : Nat
  /-- `MEM`: lines of its stack that the port has carried (R366, R383; the model's own count) -/
  memLines : Nat
  deriving DecidableEq, Repr

/-! ### Initial values -/

/-- A free object (R285). -/
def SyncObj.init : SyncObj := { typ := 0, st := 0, value := 0, target := 0, job := 0, owner := 0, ownerDie := 0, waiters := [] }

/-- The sync tree after POR or SRST: every object `FREE` (R285). -/
def SyncTree.init : SyncTree := { objs := [], bars := [], results := [], inits := [], held := [] }

/-- The queue manager after reset. -/
def Qm.init : Qm :=
  { rings := [], streams := [], jobs := [], descs := [], nextUid := 0, frames := [], rr := [], evHead := 0,
    evTail := 0, evLap := 0, evLoss := false, evLost := 0, dbDrop := 0, tableErr := false, recs := [], notifyDue := false,
    lastNotify := none }

/-- A core map entry before Keywork initialisation. -/
def CoreEnt.init : CoreEnt := ⟨0, .absent⟩

/-- The Keywork before its initialisation. -/
def Kw.init : Kw :=
  { ready := false, mapErr := false, cores := [], tiles := [], objs := [], used := [], epoch := 0, deny := 0,
    pendCtrl := none, pendPolicy := none, xlate := [], ext := [], sent := [], coreBase := 0, objBase := 0, objLimit := 0,
    groups := [], ents := [], initPos := 0, early := [], admitting := [] }

/-- An empty remote-data cache. -/
def Rdc.init : Rdc := { lines := [], plru := [], sharers := [], opens := [], nextTag := 0, invs := [], dues := [], held := [], fetches := [] }

/-- A port after reset: `DOWN`, no partner (R404). -/
def Port.init : Port :=
  { st := .down, rate := 0, x32 := false, half := false, version := 0, confOn := false, l1 := false,
    linkLoss := false, linkReset := false, admitErr := false, retrains := 0, peerKind := 15, peerRole := 0, peerPos := 255,
    peerPort := 0, peerPart := 0, peerL1 := false, replays := 0, authFails := 0, discards := 0, credits := [],
    freed := [], unacked := [], queue := [], flitFails := 0, winReplays := 0, winStart := 0, trainStart := 0,
    tried := none, ctl := 0, lastSent := 0, lastRecv := 0, lastBusy := 0, kexStart := 0,
    retrainReq := false, certOk := false, keyed := false, keyEpoch := 0, sentCount := 0, rekeying := false,
    recvCount := 0, ca := 0, memLines := 0 }

end Sys2Proof.Machine
end

