-- ==== Sys2Proof/Machine/MgmtTypes.lean ====
section
/-!
DEFINITION. The state of the package side and the management side: package membership and clock (15), reset, option
store and boot (16), faults (17), timestamp and Bellows (18), Onjan (19), test access (20), supplies (21),
telemetry (22).
-/

namespace Sys2Proof.Machine

/-! ### Package (15) -/

/-- Package membership and the package clock (R407 to R426). -/
structure Pkg where
  members : Nat
  leader : Nat
  accepted : Bool
  mepoch : Nat
  /-- this die's own `JOIN` has been sent, with its timestamp (R415) -/
  joined : Option Nat
  /-- leader: position → `CAPS0` and `CAPS1` of a `JOIN` it holds -/
  joins : Tab (Option (Nat × Nat))
  /-- leader: dies to be refused at formation, as port, position and reason (R415) -/
  refusals : List (Nat × Nat × Nat)
  /-- dies whose loss has been acted on in the present membership (R422) -/
  lostSeen : Nat
  /-- `CLK_ROLE`: reference present and locked, holdover, package clock fault -/
  refOk : Bool
  holdover : Bool
  holdoverStart : Nat
  clkFault : Bool
  /-- timestamp of another member's last `CLOCK_FAULT` (R413) -/
  lastClockFault : Option Nat
  /-- isolated until SRST (R412) -/
  isolated : Bool
  /-- clock outputs that run: bit *i* for `CLKREF_OUT`*i* and `TSYNC_OUT`*i* (R410, R413, R435) -/
  clkOut : Nat
  alertN : Bool
  thermtripN : Bool
  /-- poison marks: granules of package memory, by granule number (R421, R423, R466) -/
  poison : List Nat
  /-- local stacks lost (R421), bit per stack -/
  stackLost : Nat
  deriving DecidableEq, Repr

/-! ### Reset, options, boot, firmware (16) -/

/-- Lifecycle states (R491, R492). -/
inductive Life
  | blank | development | production | retired
  deriving DecidableEq, Repr

/-- Code of a lifecycle state (R511). -/
def Life.code : Life → Nat
  | .blank => 0
  | .development => 1
  | .production => 2
  | .retired => 3

/-- The lifecycle state of a code. -/
def Life.ofCode : Nat → Life
  | 0 => .blank
  | 1 => .development
  | 2 => .production
  | _ => .retired

/-- The state that the majority of three copies holds (R492): the middle one, which is that of any two that agree. -/
def Life.majority (x : Life × Life × Life) : Life :=
  let (a, b, c) := (x.1.code, x.2.1.code, x.2.2.code)
  Life.ofCode (max (min a b) (min (max a b) c))

/-- One fuse pulse (R436): bit `b` of word `w` of the array (R519), one step of the minimum `SVN` (R495: what it was, and
whether this is the last step), the revocation of FK0, or one of the three copies of the lifecycle state (R492). -/
inductive FusePulse
  | bit (w b : Nat)
  | svn (old : Nat) (last : Bool)
  | fk0
  | life (copy : Nat) (l : Life)
  deriving DecidableEq, Repr

/-- A reset level (R427). -/
inductive ResetLevel
  | srst | por
  deriving DecidableEq, Repr

/-- Reset, option store, boot and firmware state (R427 to R448). -/
structure Mgmt where
  cause : Nat
  sub : Nat
  reqDie : Nat
  deferredBit : Bool
  causeTs : Nat
  /-- a reset waits, for a non-volatile pulse (R436) or for the acknowledgement of `RESET_REQ` packets (R432): level,
  cause, sub, requesting die, timestamp -/
  pendingReset : Option (ResetLevel × Nat × Nat × Nat × Nat)
  /-- fuse pulses in progress and to come, and the nanoseconds that the one in progress still takes (R436, R492, R495,
  R519) -/
  pulses : List FusePulse
  pulseNs : Nat
  /-- timestamp at which `PKG_SRST` was written, while the leader waits (R432) -/
  pkgWait : Option Nat
  crstErr : Bool
  ctrlErr : Bool
  wdogStart : Nat
  /-- CRSTs in progress, bit per tile, and those that a release will follow with BIST (R433, R470) -/
  crst : Nat
  releasing : Nat
  /-- boot step in progress (R443): 1 in reset, 2 to 11, 14 halted -/
  stage : Nat
  ts5 : Nat
  ts8 : Nat
  ts11 : Nat
  bootEvent : Bool
  fwErr : Nat
  updReady : Bool
  updErr : Bool
  fwVersion : Nat
  fwNewVersion : Nat
  /-- running slot 0 or 1, stream under way, words received so far -/
  fwSlot : Nat
  fwStream : Bool
  fwPos : Nat
  fwSlots : Tab Mem
  switchReq : Option Nat
  /-- option store: region M valid, images A and B and the shadow as word tables (word offset) -/
  mValid : Bool
  imgA : Tab Word
  imgB : Tab Word
  aValid : Bool
  bValid : Bool
  /-- a commit to the image has begun and has not ended well: it fails its check (R437, R442) -/
  cutA : Bool
  cutB : Bool
  shadow : Tab Word
  optDefaulted : Bool
  /-- image loaded or last committed: false A, true B; none when there is no current image -/
  optLoaded : Bool
  optCurrent : Option Bool
  /-- the option image that was loaded, as it was then (R441, R497) -/
  optImage : Tab Word
  optBusy : Bool
  optErr : Bool
  optDirty : Bool
  /-- spare set of the option store, bit per tile (R351, R439) -/
  spareSet : Nat
  /-- fused by Moatum, at places that the spec does not give: serial number and engineering-sample bit (R408, R559) -/
  serial : Nat
  es : Bool
  /-- what the last read by the management controller returned (log 25) -/
  rdData : Word
  deriving DecidableEq, Repr

/-! ### Faults (17) -/

/-- Fault registers and counts (R449 to R472). -/
structure Flt where
  core : Bool
  port : Bool
  poison : Bool
  uncoreCe : Bool
  dieLost : Bool
  fenceErr : Bool
  lastTile : Nat
  ceCount : Nat
  coreCount : Nat
  replayCount : Nat
  poisonCount : Nat
  /-- tile → corrected errors in its present window and the window's start (R453) -/
  ceWin : Tab (Nat × Nat)
  /-- tiles to be fenced by prediction when they run nothing, bit per tile -/
  predict : Nat
  /-- commit logs: `64 · uid + member` → records of address and bytes, in append order (R461) -/
  logs : Tab (List (Nat × List Byte))
  /-- bytes counted against each log (R461) -/
  logLen : Tab Nat
  /-- fenced tile whose scrub failed or which is powered down: bit per tile (R451) -/
  off : Nat
  deriving DecidableEq, Repr

/-! ### Time and Bellows (18) -/

/-- The timestamp counter and its alignment (R476 to R480). `TS_ADJ` is in a set-up register. -/
structure Time where
  ts : Nat
  aligned : Bool
  slip : Bool
  nosync : Bool
  /-- nanoseconds for which the counter still advances by 1 every 2 ns (R478) -/
  slew : Nat
  hiLatch : Word
  /-- the clock master's millisecond counter, cleared only by POR (R477) -/
  masterMs : Nat
  /-- timestamp of the last valid frame -/
  lastFrame : Nat
  deriving DecidableEq, Repr

/-- The Bellows (R481 to R490). -/
structure Bw where
  freqStep : Nat
  ceilStep : Nat
  duty : Nat
  /-- rung 2 in force -/
  stretch : Bool
  /-- twentieths of a core cycle that the cores still hold while the clock glides to a new step (R486) -/
  glide : Nat
  grant : Nat
  fallback : Bool
  /-- rounds in a row without a grant, whether one came in this round, and the `ROUND` of the last -/
  late : Nat
  gotGrant : Bool
  grantRound : Nat
  /-- the round under way, and whether the leader has sent its grants -/
  round : Nat
  granted : Bool
  /-- leader: reports, position → round, envelope and average -/
  reports : Tab (Option (Nat × Nat × Nat))
  /-- windows under way: of 1 µs, 100 µs, 10 ms, by number -/
  curWin : Nat
  powWin : Nat
  thermWin : Nat
  /-- samples of the windows under way: power in 0.1 W, highest current in A, temperature in 0.125 °C -/
  powSum : Nat
  powN : Nat
  curPeak : Nat
  tjSum : Nat
  tjN : Nat
  /-- what `BW_POWER` and `BW_TEMP` show -/
  avgPower : Nat
  peakA : Nat
  tj : Nat
  tjTile : Nat
  warn : Bool
  trip : Bool
  /-- the last 100 µs average was at or below the target -/
  lowLast : Bool
  /-- the last 100 µs boundary at which a lowering was decided (R486) -/
  lowered : Option Nat
  /-- register writes waiting for the next 100 µs boundary (R489) -/
  pend : Tab (Option Word)
  deriving DecidableEq, Repr

/-! ### Onjan (19) -/

/-- Onjan (R491 to R512). The nonce, the indices and the job of `SEC_RETAIN` are in set-up registers. -/
structure Sec where
  /-- lifecycle state in effect, and the three fuse copies, of which the majority takes effect at the next POR or SRST
  (R492) -/
  life : Life
  copies : Life × Life × Life
  /-- the identity key fuses hold the die's key (R2, R492) -/
  idKey : Bool
  /-- fused: the minimum `SVN`, and whether FK0 is revoked (R494, R495) -/
  minSvn : Nat
  fk0Revoked : Bool
  /-- key that the running image was signed with: 0 none, 1 DK, 2 FK0, 3 FK1; its `SVN`; the key of the verified new image -/
  fwKey : Nat
  fwSvn : Nat
  fwNewKey : Nat
  /-- the start-up self-tests have passed, and the random source works (R509) -/
  selfTested : Bool
  rngOk : Bool
  /-- command in progress: 0 none, 1 `ATTEST`, 2 `TOKEN_SUBMIT` -/
  cmd : Nat
  cmdErr : Bool
  errCode : Nat
  rptValid : Bool
  report : Tab Word
  token : Tab Word
  challenge : Tab Word
  /-- the challenge has been drawn and not used, and whether the token under verification matched it (R506) -/
  challengeOk : Bool
  tokenHit : Bool
  dbgAuth : Bool
  refusals : Nat
  lockout : Bool
  zeroise : Bool
  /-- `ENC` in [3:0] and `LOCKED` in [4] -/
  memEnc : Nat
  /-- `EVAL` as last written (R510) -/
  eval : Nat
  deriving DecidableEq, Repr

/-- The lifecycle state that takes effect at the next POR or SRST, if it is another one (R492). -/
def Sec.pendLife (k : Sec) : Option Life := if Life.majority k.copies == k.life then none else some (Life.majority k.copies)

/-! ### Test access (20) -/

/-- A trace record (R527, R528), as four words. -/
abbrev TraceRec := Word × Word × Word × Word

/-- Test access and trace (R513 to R530). The RW fields of the `TEST` block are set-up registers. -/
structure Tst where
  /-- TAP instruction in force; `IDCODE` after a TAP reset (log 26) -/
  ir : Nat
  /-- wrapper instruction register (R517) -/
  wir : Nat
  /-- boundary register, 212 cells (R514) -/
  boundary : Nat
  /-- outputs: 0 functional, 1 driven by the boundary register, 2 clamped, 3 high impedance -/
  outMode : Nat
  /-- data register as captured, for the shift that follows -/
  dr : Nat
  /-- `CFG_ACCESS` capture: data, `REFUSED`, `DONE` (R516) -/
  cfgData : Word
  cfgRefused : Bool
  cfgDone : Bool
  /-- word last sensed by `FUSE_VERIFY` (R520) -/
  fuseData : Word
  /-- `SCAN` has shifted the chains: the die needs SRST (R514) -/
  scanned : Bool
  /-- BIST in progress: tile and kind, and the result fields (R521, R529) -/
  bistBusy : Bool
  bistTile : Nat
  bistKind : Nat
  bistPass : Bool
  bistErr : Bool
  bistFail : Nat
  /-- port test in progress: port, mode and position, and the result fields (R522, R529) -/
  ptBusy : Bool
  ptPort : Nat
  ptMode : Nat
  ptLane : Nat
  ptErrors : Nat
  ptT : Nat
  ptV : Nat
  ptDone : Bool
  ptErr : Bool
  /-- `TEST_DBG_STATUS` flags (R529) -/
  accErr : Bool
  refused : Bool
  /-- trace buffer by record index, write position and flags (R527, R528) -/
  trace : Tab TraceRec
  wptr : Nat
  full : Bool
  lost : Nat
  lostFlag : Bool
  deriving DecidableEq, Repr

/-- Telemetry (R560 to R562). `TELEM_CTRL` is a set-up register. -/
structure Telem where
  running : Bool
  /-- start and length in ms of the window in progress -/
  start : Nat
  len : Nat
  /-- raw counts of the window in progress, by counter index 0 to 7; bytes, lines, records, core cycles -/
  acc : Tab Nat
  /-- counts of the next window, while the registers of one that has ended are still to be replaced (R561, R562) -/
  late : Tab Nat
  /-- registers of the last completed window -/
  winNum : Nat
  lenMs : Nat
  shownStart : Nat
  shown : Tab Nat
  /-- array (2 · tile, or one more for MA1) → core cycles below 1,024 that it has not handed over yet (R561) -/
  arrayRem : Tab Nat
  deriving DecidableEq, Repr

/-! ### After a power-on reset -/

/-- No member, no reference yet (R411, R416). -/
def Pkg.init : Pkg :=
  { members := 0, leader := 0, accepted := false, mepoch := 0, joined := none, joins := [], refusals := [], lostSeen := 0
    refOk := false, holdover := false, holdoverStart := 0, clkFault := false, lastClockFault := none, isolated := false, clkOut := 0
    alertN := false, thermtripN := false, poison := [], stackLost := 0 }

/-- In POR, requested by the supply monitor as the supplies come up (R427, R430; log 23): no firmware, nothing in the
option store, no commit under way. -/
def Mgmt.init : Mgmt :=
  { cause := 1, sub := 0, reqDie := 0, deferredBit := false, causeTs := 0, pendingReset := none, pulses := [], pulseNs := 0, pkgWait := none
    crstErr := false, ctrlErr := false, wdogStart := 0, crst := 0, releasing := 0, stage := 1, ts5 := 0, ts8 := 0, ts11 := 0
    bootEvent := false, fwErr := 0, updReady := false, updErr := false, fwVersion := 0, fwNewVersion := 0, fwSlot := 1
    fwStream := false, fwPos := 0, fwSlots := [], switchReq := none, mValid := false, imgA := [], imgB := []
    aValid := false, bValid := false, cutA := false, cutB := false, shadow := [], optDefaulted := false
    optLoaded := false, optCurrent := none, optImage := [], optBusy := false, optErr := false, optDirty := false, spareSet := 0
    serial := 0, es := false, rdData := 0 }

/-- No fault yet; `LAST_TILE` is 127 (R470). -/
def Flt.init : Flt :=
  { core := false, port := false, poison := false, uncoreCe := false, dieLost := false, fenceErr := false, lastTile := 127
    ceCount := 0, coreCount := 0, replayCount := 0, poisonCount := 0, ceWin := [], predict := 0, logs := [], logLen := []
    off := 0 }

/-- The timestamp counter at 0 and not aligned (R478). -/
def Time.init : Time :=
  { ts := 0, aligned := false, slip := false, nosync := false, slew := 0, hiLatch := 0, masterMs := 0, lastFrame := 0 }

/-- Full core clock, no rung, the factory envelope (R439, R489; log 24). -/
def Bw.init : Bw :=
  { freqStep := 14, ceilStep := 14, duty := 0, stretch := false, glide := 0, grant := 450, fallback := false, late := 0
    gotGrant := false, grantRound := 0, round := 0, granted := false, reports := [], curWin := 0, powWin := 0, thermWin := 0
    powSum := 0, powN := 0, curPeak := 0, tjSum := 0, tjN := 0, avgPower := 0, peakA := 0, tj := 0, tjTile := 0
    warn := false, trip := false, lowLast := false, lowered := none, pend := [] }

/-- A shipped die of ordering code `PHM-64K-15-B0`: `PRODUCTION`, with its identity key (R1, R2); what else its fuses hold the
spec does not give (log 23). -/
def Sec.init : Sec :=
  { life := .production, copies := (.production, .production, .production), idKey := true, minSvn := 0, fk0Revoked := false, fwKey := 0, fwSvn := 0, fwNewKey := 0
    selfTested := false, rngOk := false, cmd := 0, cmdErr := false, errCode := 0, rptValid := false, report := []
    token := [], challenge := [], challengeOk := false, tokenHit := false, dbgAuth := false, refusals := 0
    lockout := false, zeroise := false, memEnc := 0, eval := 0 }

/-- The TAP after its reset (log 26), no test, an empty trace buffer (R513, R529). -/
def Tst.init : Tst :=
  { ir := 0x01, wir := 0, boundary := 0, outMode := 0, dr := 0, cfgData := 0, cfgRefused := false, cfgDone := false, fuseData := 0
    scanned := false, bistBusy := false, bistTile := 0, bistKind := 0, bistPass := false, bistErr := false, bistFail := 0
    ptBusy := false, ptPort := 0, ptMode := 0, ptLane := 0, ptErrors := 0, ptT := 0, ptV := 0, ptDone := false
    ptErr := false, accErr := false, refused := false, trace := [], wptr := 0, full := false, lost := 0
    lostFlag := false }

/-- No window has run (R560). -/
def Telem.init : Telem :=
  { running := false, start := 0, len := 0, acc := [], late := [], winNum := 0, lenMs := 0, shownStart := 0, shown := [], arrayRem := [] }

/-- Set-up registers whose whole-register reset value is a number other than 0 and which hold it (R558, R559). -/
def resetRegs : Tab Word :=
  [(0x0004, 0xB0), (0x0010, 0x202), (0x0014, 0x3F), (0x0020, 1), (0x0410, 0x3E8), (0x201C, 8), (0x341C, 0x40)
   , (0x3800, 0xA00)]

end Sys2Proof.Machine
end

