-- ==== Sys2Proof/Machine/State.lean ====
section
/-!
DEFINITION. The state of the die, the reasons a command can stop for, and the state after reset.
-/

namespace Sys2Proof.Machine

open Sys2Proof

/-- Why the machine can stop. -/
inductive Fault
  /-- Raised by a command that names a tile, array, engine or port number which the die does not have. Safe: no unit
  is there to receive the command, and nothing is concluded about a state that follows it. -/
  | noSuchUnit (n : Nat)
  deriving DecidableEq, Repr

/-- Why a command can be refused. -/
inductive Refusal
  /-- Raised by an arm of the dispatch whose command has no meaning yet. Safe: nothing is concluded about it. -/
  | notModelled (mnemonic : String)
  deriving DecidableEq, Repr

/-- The die. -/
structure State where
  time : Time
  /-- tiles by physical tile ID (R12) -/
  tiles : Tab Tile
  sync : SyncTree
  qm : Qm
  kw : Kw
  rdc : Rdc
  /-- package memory homed on this die's stacks, by package address (R357) -/
  mem : Mem
  ports : Tab Port
  pkg : Pkg
  mgmt : Mgmt
  /-- the fuse array, by word address (R519) -/
  fuses : Tab Word
  flt : Flt
  bw : Bw
  sec : Sec
  tst : Tst
  telem : Telem
  /-- the set-up registers that hold a written value, by offset (R558) -/
  cfg : Tab Word
  /-- the model's own counter of free values (log 1) -/
  free : Nat
  /-- the commands that wait, first in first out -/
  pending : List Instr
  deriving DecidableEq, Repr

/-- The die right after a power-on reset, before boot step 2 (R427, R443, R557): every register at the reset value of
its table, every fuse at 0 (R519), nothing in any memory. -/
def State.reset : State :=
  { time := Time.init, tiles := [], sync := SyncTree.init, qm := Qm.init, kw := Kw.init, rdc := Rdc.init, mem := []
    ports := [], pkg := Pkg.init, mgmt := Mgmt.init, fuses := [], flt := Flt.init, bw := Bw.init, sec := Sec.init
    tst := Tst.init, telem := Telem.init, cfg := resetRegs, free := 0, pending := [] }

end Sys2Proof.Machine
end

