-- ==== Sys2Proof/Machine/Ops.lean ====
section
/-!
DEFINITION. The named operations over the die's state that every family of commands uses: tiles and ports, set-up
registers, trace, packets and their routes (R382 to R384, R399), package memory and its homes (R357 to R366),
access checks (R363, R364) and events (R338, R339).
-/

namespace Sys2Proof.Machine

open Sys2Proof

/-! ### Access to parts of the state -/

/-- The tile with physical ID `t`. -/
def State.tile (s : State) (t : Nat) : Tile := Tab.get Tile.init s.tiles t
/-- Change one tile. -/
def State.onTile (s : State) (t : Nat) (f : Tile → Tile) : State :=
  { s with tiles := Tab.mod Tile.init s.tiles t f }
/-- Port `p`. -/
def State.port (s : State) (p : Nat) : Port := Tab.get Port.init s.ports p
/-- Change one port. -/
def State.onPort (s : State) (p : Nat) (f : Port → Port) : State :=
  { s with ports := Tab.mod Port.init s.ports p f }
/-- A set-up register as last written. -/
def State.reg (s : State) (a : Nat) : Word := Tab.get 0 s.cfg a
/-- Give a set-up register a value. -/
def State.setReg (s : State) (a : Nat) (v : Word) : State := { s with cfg := Tab.set 0 s.cfg a v }
/-- A field of a set-up register. -/
def State.rfld (s : State) (a lo len : Nat) : Nat := fld (s.reg a) lo len
/-- Replace bits `[lo + len - 1 : lo]` of a number. -/
def putBits (n lo len v : Nat) : Nat := n - bitsOf n lo len * 2 ^ lo + v % 2 ^ len * 2 ^ lo
/-- Replace a field of a set-up register. -/
def State.setFld (s : State) (a lo len v : Nat) : State :=
  s.setReg a (BitVec.ofNat 32 (putBits (s.reg a).toNat lo len v))

/-- Die timestamp in ns (R476). -/
def State.now (s : State) : Nat := s.time.ts
/-- Die position, `DIE_POSITION`.`POS` (R408). -/
def State.pos (s : State) : Nat := s.rfld 0x0008 0 3
/-- `FEATURE_LEVEL`.`LEVEL` (R416). -/
def State.level (s : State) : Nat := s.rfld 0x0020 0 4
/-- The free values of this step (log 1). -/
def State.fv (s : State) : Nat → Word := Config.freeWord s.free
/-- Use up this step's free values. -/
def State.tick (s : State) : State := { s with free := s.free + 1 }

/-- Answer a state when the unit that a command names exists, and stop by name when it does not. -/
def onUnit (ok : Bool) (n : Nat) (s : State) : Host.Outcome State Fault Refusal :=
  if ok then .next s else .fault (.noSuchUnit n)

/-- Whether a physical tile ID names a tile (R12). -/
def isTile (t : Nat) : Bool := decide (t < Config.tiles)
/-- Whether a port number names a port (R14). -/
def isPort (p : Nat) : Bool := decide (p < Config.ports)

/-- The lowest set bit below `n` of a mask. -/
def lowestBit (mask : Nat) : Nat → Option Nat
  | 0 => none
  | n + 1 => match lowestBit mask n with
    | some i => some i
    | none => if mask.testBit n then some n else none

/-- The set bits below `n` of a mask, ascending. -/
def bitList (mask n : Nat) : List Nat := (List.range n).filter (fun i => mask.testBit i)

/-- Number of set bits below `n`. -/
def popCount (mask n : Nat) : Nat := (bitList mask n).length

/-! ### Telemetry counts (R561) -/

/-- Count a happening in the telemetry window that contains it: the one in progress, or the one after it when that has
ended and its registers have not been replaced yet (R561, R562). -/
def State.count (s : State) (k n : Nat) : State :=
  let t := s.telem
  if !t.running then s
  else if s.time.ts < t.start + 10 ^ 6 * t.len then { s with telem := { t with acc := Tab.mod 0 t.acc k (· + n) } }
  else { s with telem := { t with late := Tab.mod 0 t.late k (· + n) } }

/-- Streamed rows have entered array `a` (2 · tile, or one more for MA1): one increment for every 1,024 core cycles counted
(R561). -/
def State.countRows (s : State) (a n : Nat) : State :=
  if !s.telem.running then s
  else
    let r := Tab.get 0 s.telem.arrayRem a + n
    { s with telem := { s.telem with arrayRem := Tab.set 0 s.telem.arrayRem a (r % 1024) } }.count 7 (r / 1024)

/-! ### Trace (R527, R528) -/

/-- The four words of a trace record. -/
def traceRec (ts tile src typ : Nat) (lost : Bool) (pay : Word) : TraceRec :=
  (BitVec.ofNat 32 ts, BitVec.ofNat 32 (ts / 2 ^ 32),
   BitVec.ofNat 32 (tile % 128 + bit1 lost * 2 ^ 7 + src % 256 * 2 ^ 8 + typ % 2 ^ 16 * 2 ^ 16), pay)

/-- Write one record to the trace buffer (R527, R528). -/
def State.traceAdd (s : State) (tile src typ : Nat) (pay : Word) : State :=
  if bitAt (s.reg 0x3C20) 0 && !(bitAt (s.reg 0x3C20) 1 && s.tst.full) then
    { s with tst := { s.tst with
        trace := Tab.set (0, 0, 0, 0) s.tst.trace s.tst.wptr (traceRec s.now tile src typ s.tst.lostFlag pay)
        wptr := (s.tst.wptr + 1) % 16384
        full := s.tst.full || s.tst.wptr == 16383
        lostFlag := false } }
  else s

/-! ### Ports and packets -/

/-- `PORT_ROLE`.`ROLE` (R404). -/
def State.role (s : State) (p : Nat) : Nat := s.rfld (0x1008 + 0x40 * p) 0 3
/-- The `UP` ports of a role, ascending. -/
def State.upPorts (s : State) (ok : Nat → Bool) : List Nat :=
  (List.range Config.ports).filter (fun p => ok (s.role p) && (s.port p).st == .up)
/-- The `UP` ports that lead to die `d` (R382). -/
def State.portsTo (s : State) (ok : Nat → Bool) (d : Nat) : List Nat :=
  (s.upPorts ok).filter (fun p => (s.port p).peerPos == d)

/-- Whether a role is `PEER` or `ACROSS`. -/
def isDieRole (r : Nat) : Bool := r == 1 || r == 2

/-- The choice among the ports toward the next hop (R382): sync and management the lowest, request and write-data by
the address; a response the port its request came on, where that is one of them. -/
def pickPort (ps : List Nat) (cls addr : Nat) (via : Option Nat) : Option Nat :=
  match ps with
  | [] => none
  | p :: _ =>
    if cls == 0 || cls == 2 then ps[bitsOf addr 8 5 % ps.length]?
    else if cls == 1 then
      match via with
      | some v => if ps.contains v then some v else some p
      | none => some p
    else some p

/-- The port toward die `d` (R382, R384). -/
def State.route (s : State) (d cls addr : Nat) (via : Option Nat) : Option Nat :=
  match pickPort (s.portsTo isDieRole d) cls addr via with
  | some p => some p
  | none =>
    let n := s.rfld 0x1C00 (4 * d) 4
    if n ≥ 8 then none else pickPort (s.portsTo isDieRole n) cls addr via

/-- The port of a host-window access (R382, R384). -/
def State.hostRoute (s : State) (cls addr : Nat) : Option Nat :=
  pickPort (s.upPorts (· == 3)) cls addr none

/-- Length of a packet in 16 B units, with its tag (R396, R399). -/
def packetUnits (p : Packet) : Nat := 1 + (if p.hasData then ceilDiv p.len 16 else 0) + bit1 p.enc

/-- Whether a packet consumes no credit (R399): `CREDIT_RET`, `KEEPALIVE`, `CAPS`. -/
def creditFree (p : Packet) : Bool := p.cls == 4 && p.ptype ≤ 2

/-- One pass over the packets that wait, oldest first (R399): one goes onto the link when no earlier packet of its class
is held up and the credits of its class cover it; a packet that consumes no credit always goes. -/
def Port.pass (po : Port) : List Packet → List Nat → Port
  | [], _ => po
  | k :: ks, held =>
    if creditFree k then
      Port.pass { po with unacked := po.unacked ++ [k], sentCount := po.sentCount + 1 } ks held
    else if !held.contains k.cls && decide (packetUnits k ≤ Tab.get 0 po.credits k.cls) then
      Port.pass { po with
        unacked := po.unacked ++ [k], sentCount := po.sentCount + 1
        credits := Tab.mod 0 po.credits k.cls (· - packetUnits k) } ks held
    else Port.pass { po with queue := po.queue ++ [k] } ks (k.cls :: held)

/-- Send what the port holds and can send: an `UP` port outside L1 (R393, R395, R399). -/
def Port.flush (po : Port) : Port :=
  if po.st == .up && !po.l1 then { po with queue := [] }.pass po.queue [] else po

/-- Whether a packet keeps its port out of L1: all but `KEEPALIVE` and `CREDIT_RET` (R395). -/
def keepsAwake (k : Packet) : Bool := !(k.cls == 4 && (k.ptype == 1 || k.ptype == 2))

/-- Send what a port holds and can send, at a time (R393 to R395, R399). -/
def Port.flushAt (po : Port) (now : Nat) : Port :=
  { po.flush with
    lastSent := if po.queue.isEmpty then po.lastSent else now
    lastBusy := if po.queue.any keepsAwake then now else po.lastBusy }

/-- Give a packet to a port. -/
def State.sendOn (s : State) (p : Nat) (k : Packet) : State :=
  (s.onPort p (fun po => { po with queue := po.queue ++ [{ k with enc := po.confOn }] }.flushAt s.now)).count
    2 (if isDieRole (s.role p) && k.hasData then k.len else 0)

/-- A packet of this die. -/
def State.packet (s : State) (cls ptype dst stop : Nat) : Packet :=
  { Packet.zero with cls := cls, ptype := ptype, srcDie := s.pos, dstDie := dst, srcStop := stop }

/-- Give data to a packet; its length is a multiple of 32 B (R396). -/
def withData (k : Packet) (bs : List Byte) : Packet :=
  { k with hasData := true, data := bs, len := roundUp bs.length 32 }

/-- Whether an address lies in the host window (R357). -/
def isHostAddr (addr : Nat) : Bool := bitsOf addr 51 1 == 1

/-- Whether a packet is a host-window access (R357). -/
def toHost (k : Packet) : Bool := ((k.cls == 0 && k.ptype == 0) || (k.cls == 2 && k.ptype == 0)) && isHostAddr k.addr

/-- Open a transaction and send its request to die `d`, or on a `HOST` port where it is a host-window access: the tag is
the transaction's own (R357, R382, R396). Answers the state and whether a port was found. -/
def State.request (s : State) (d : Nat) (k : Packet) (o : OpenTx) : State × Bool :=
  match (if toHost k then s.hostRoute k.cls k.addr else s.route d k.cls k.addr none) with
  | none => (s, false)
  | some p =>
    let k := { k with tag := s.rdc.nextTag }
    ({ s with rdc := { s.rdc with
          opens := Tab.set none s.rdc.opens s.rdc.nextTag (some { o with pkt := k, port := p })
          nextTag := (s.rdc.nextTag + 1) % 65536 } }.sendOn p k, true)

/-! ### Placement of package addresses -/

/-- Bytes of a granule (R357). -/
def granuleBytes : Nat := 2 ^ 21

/-- The object of this die's table whose range holds an address (R357, R358). -/
def findObj (addr : Nat) : Tab (Option Obj) → Option (Nat × Obj)
  | [] => none
  | (i, some o) :: r =>
    if o.pbase ≤ addr ∧ addr < o.pbase + o.granules * granuleBytes then some (i, o) else findObj addr r
  | (_, none) :: r => findObj addr r

/-- Owning die of a package address (R357). -/
def ownerOf (addr : Nat) : Nat := bitsOf addr 48 3
/-- The home stack of a package address, where this die knows it (R358, R365). -/
def State.homeStack (s : State) (addr : Nat) : Option Nat :=
  if isHostAddr addr then none
  else if ownerOf addr == s.pos then
    match findObj addr s.kw.objs with
    | none => none
    | some (_, o) => o.homes[(addr - o.pbase) / granuleBytes]?
  else (Tab.get none s.kw.xlate (addr / granuleBytes)).map (·.stack)

/-- The die whose stack holds an address; the owner, where no translation is held. -/
def State.homeDie (s : State) (addr : Nat) : Nat :=
  match s.homeStack addr with
  | some k => k / 4
  | none => ownerOf addr

/-- Whether an address is homed on this die's own stacks. -/
def State.isHome (s : State) (addr : Nat) : Bool :=
  !isHostAddr addr && s.homeDie addr == s.pos && (s.homeStack addr).isSome

/-- Reason of the refusal of an access by job `j` to an object of job `o` (R363): 0 allowed, 2 job, 3 executable
attribute. -/
def denyJob (j o : Nat) (exec sharedRo wr : Bool) : Nat :=
  if j == o then (if wr && exec then 3 else 0)
  else if !sharedRo then 2
  else if !wr then 0
  else if j != 0 then 2
  else if exec then 3 else 0

/-- The reason of the refusal under R363 of an access by job `j` to `len` bytes from `addr`, 0 when it is allowed:
1 no object or too short, 2 job, 3 executable attribute, 4 releasing, 5 host window (R378). An address that another
die owns is judged by its translation (R358); without one the access waits. -/
def State.deny (s : State) (j : Nat) (wr hostOk : Bool) (addr len : Nat) : Nat :=
  if isHostAddr addr then (if hostOk then 0 else 5)
  else if ownerOf addr != s.pos then
    match Tab.get none s.kw.xlate (addr / granuleBytes) with
    | none => 0
    | some x =>
      if x.left * granuleBytes < addr % granuleBytes + len then 1 else denyJob j x.job x.exec x.sharedRo wr
  else
    match findObj addr s.kw.objs with
    | none => 1
    | some (_, o) =>
      if o.st == .releasing then 4
      else if o.st == .free then 1
      else if o.pbase + o.granules * granuleBytes < addr + len then 1
      else denyJob j o.job o.exec o.sharedRo wr

/-- `LSTACK` and `STACK_PORT` of a `MEM` port (R404). -/
def State.lstack (s : State) (p : Nat) : Nat := s.rfld (0x1008 + 0x40 * p) 3 2
def State.stackPort (s : State) (p : Nat) : Nat := s.rfld (0x1008 + 0x40 * p) 5 3

/-- The `UP` ports of local stack `k`, ascending. -/
def State.stackPorts (s : State) (k : Nat) : List Nat := (s.upPorts (· == 0)).filter (fun p => s.lstack p == k)

/-- Whether a local stack has a port that is `UP` (R383). -/
def State.stackUp (s : State) (k : Nat) : Bool := !(s.stackPorts k).isEmpty

/-- The `MEM` port that carries line `j` of a granule on local stack `k`: the one whose `STACK_PORT` is *j* mod 8, or the
next `UP` one in ascending order with wrap-around (R366, R383). -/
def State.memPort (s : State) (k j : Nat) : Option Nat :=
  (List.range 8).findSome? (fun i => (s.stackPorts k).find? (fun p => s.stackPort p == (j + i) % 8))

/-- The first byte of each granule that a range touches, but for the first, whose address stands as it is. -/
def granulesOf (addr len : Nat) : List Nat :=
  (List.range ((addr + (len - 1)) / granuleBytes + 1 - addr / granuleBytes)).map (fun i =>
    if i = 0 then addr else (addr / granuleBytes + i) * granuleBytes)

/-- Whether a granule cannot be reached any more: it is owned by or homed on a die whose loss has been acted on, or homed
on a stack of this die none of whose ports is `UP` or about to be again (R383, R421, R423). -/
def State.granuleGone (s : State) (a : Nat) : Bool :=
  s.pkg.lostSeen.testBit (ownerOf a)
  || (match s.homeStack a with
      | some k => s.pkg.lostSeen.testBit (k / 4)
          || (k / 4 == s.pos && !s.stackUp (k % 4) && !(List.range Config.ports).any (fun p =>
                s.role p == 0 && s.lstack p == k % 4 && (s.port p).st == .retraining))
      | none => false)

/-- Whether a granule that an access touches is poisoned: it bears a mark, or it is gone (R421, R423, R466). -/
def State.isPoisoned (s : State) (addr len : Nat) : Bool :=
  !isHostAddr addr &&
  ((granulesOf addr len).any s.granuleGone
   || s.pkg.poison.any (fun g => decide (addr / granuleBytes ≤ g) && decide (g ≤ (addr + (len - 1)) / granuleBytes)))

/-! ### The remote-data cache (R373) -/

/-- The bytes of a cached line. -/
def Rdc.find (r : Rdc) (line : Nat) : Option (List Byte) := (Tab.get none r.lines line).map (·.2)

/-- The lines of the set of a line, with their ways. -/
def Rdc.setOf (r : Rdc) (line : Nat) : List (Nat × Nat) :=
  r.lines.filterMap (fun e => if e.1 % 2 ^ 14 == line % 2 ^ 14 then e.2.map (fun x => (e.1, x.1)) else none)

/-- The tree of a set after a use of way `w`: each node on its path points away from it (log 50). -/
def plruTouch (t w : Nat) : Nat :=
  ((List.range 4).foldl (fun (x : Nat × Nat) i =>
    let b := bitsOf w (3 - i) 1
    (putBits x.1 x.2 1 (1 - b), 2 * x.2 + b)) (t, 1)).1

/-- The way that the tree of a set points at. -/
def plruVictim (t : Nat) : Nat :=
  (List.range 4).foldl (fun n _ => 2 * n + bitsOf t n 1) 1 - 16

/-- A cached line is used (R373). -/
def Rdc.touch (r : Rdc) (line : Nat) : Rdc :=
  match Tab.get none r.lines line with
  | some (w, _) => { r with plru := Tab.mod 0 r.plru (line % 2 ^ 14) (fun t => plruTouch t w) }
  | none => r

/-- Install a line: in its own way if it is there, in a free way of its set, or in place of the line that the replacement
chooses; an eviction sends no message (R373). -/
def Rdc.install (r : Rdc) (line : Nat) (bs : List Byte) : Rdc :=
  let here := r.setOf line
  let w := match Tab.get none r.lines line with
    | some (w, _) => w
    | none => match (List.range 16).find? (fun w => !here.any (fun e => e.2 == w)) with
      | some w => w
      | none => plruVictim (Tab.get 0 r.plru (line % 2 ^ 14))
  let kept := here.foldl (fun t e => if e.2 == w then Tab.set none t e.1 none else t) r.lines
  ({ r with lines := Tab.set none kept line (some (w, bs)) } : Rdc).touch line

/-- Drop lines. -/
def Rdc.drop (r : Rdc) (ls : List Nat) : Rdc := { r with lines := ls.foldl (fun t l => Tab.set none t l none) r.lines }

/-! ### Bytes of package memory -/

/-- The line that an agent has fetched. -/
def State.fetchOf (s : State) (agent line : Nat) : Option Fetch :=
  s.rdc.fetches.find? (fun f => f.agent == agent && f.line == line)

/-- One byte of package memory as an agent of this die has it: from its own stack, or from a line that the agent has
fetched (R374). -/
def State.rdByte (s : State) (agent addr : Nat) : Byte :=
  if s.isHome addr then s.mem.rd addr
  else match s.fetchOf agent (addr / 256) with
    | some f => f.data[addr % 256]?.getD 0
    | none => 0

/-- `n` bytes of package memory as an agent has them. -/
def State.rdPkg (s : State) (agent addr : Nat) : Nat → List Byte
  | 0 => []
  | n + 1 => s.rdByte agent addr :: State.rdPkg s agent (addr + 1) n

/-- A little-endian number in package memory. -/
def State.rdPkgLE (s : State) (agent addr n : Nat) : Nat := leNat (s.rdPkg agent addr n)

/-- One acknowledgement for a command of a tile's core DMA, or for a descriptor's transfer (R374, R401). -/
def State.workAcked (s : State) (tile uid : Nat) : State :=
  let dec := fun (e : QEntry) => if e.uid == uid then { e with loadRows := e.loadRows - 1 } else e
  if tile < Config.tiles then s.onTile tile (fun q => { q with dma := { q.dma with q := q.dma.q.map dec } })
  else if tile == 127 then
    { s with qm := { s.qm with descs := s.qm.descs.map (fun d =>
        if d.uid == uid then { d with xfer := d.xfer.map (fun e => { e with loadRows := e.loadRows - 1 }) } else d) } }
  else s

/-- Send a packet that is due on a port, or by another route when the port is gone (R382). -/
def State.sendDue (s : State) (p : Nat) (k : Packet) : State :=
  if (s.port p).st == .up || (s.port p).st == .retraining then s.sendOn p k
  else match s.route k.dstDie k.cls k.addr (some p) with
    | some p' => s.sendOn p' k
    | none => s

/-- What an acknowledged write owes. -/
def State.due (s : State) (x : InvDue) : State :=
  match x.reply with
  | some k => s.sendDue x.port k
  | none => s.workAcked x.tile x.uid

/-- The writes whose invalidations have all been acknowledged are complete (R374). -/
def State.settleInvs (s : State) : State :=
  let open' := fun g => s.rdc.invs.any (fun w => w.grp == g)
  let ready := s.rdc.dues.filter (fun x => !open' x.grp)
  ready.foldl State.due { s with rdc := { s.rdc with dues := s.rdc.dues.filter (fun x => open' x.grp) } }

/-- Send one invalidation message to a sharer and remember what it owes (R374, R376, R377, R392). -/
def State.sendInv (s : State) (grp d ptype : Nat) (lines : List Nat) (addr aux : Nat) : State :=
  match s.route d 1 0 none with
  | none => s
  | some p =>
    let tag := s.rdc.nextTag
    let w : InvWait := ⟨tag, d, lines, grp⟩
    let s' : State := { s with rdc := { s.rdc with nextTag := (tag + 1) % 65536, invs := s.rdc.invs ++ [w] } }
    s'.sendOn p
      { s.packet 1 ptype d 120 with addr := addr, aux := aux, tag := tag }

/-- Whether the lines of one block go to a sharer in one message (R377, R392). -/
def State.batches (s : State) (d : Nat) : Bool :=
  s.level == 2 && (match s.route d 1 0 none with
    | some p => (s.port p).version == 2
    | none => false)

/-- Invalidate lines at one sharer: one message for each 4 KiB block where that is allowed, else one for each line
(R377). -/
def State.invAt (s : State) (grp d : Nat) (lines : List Nat) : State :=
  if s.batches d then
    (lines.map (· / 16)).eraseDups.foldl (fun s b =>
      let mine := lines.filter (fun l => l / 16 == b)
      match mine with
      | [l] => s.sendInv grp d 6 [l] (l * 256) 0
      | _ => s.sendInv grp d 7 mine (b * 4096) (mine.foldl (fun m l => m ||| 2 ^ (l % 16)) 0)) s
  else lines.foldl (fun s l => s.sendInv grp d 6 [l] (l * 256) 0) s

/-- Drop the sharers of lines homed here and tell each of them (R374); this die's own cache is dropped at once. Answers
the group under which the acknowledgements are awaited, and whether any is. -/
def State.invalidateLines (s : State) (lines : List Nat) : State × Nat × Bool :=
  let grp := s.rdc.nextTag
  let shares := fun (d : Nat) => lines.filter (fun l => (Tab.get 0 s.rdc.sharers l).testBit d)
  let work := ((List.range 8).filter (· != s.pos)).map (fun d => (d, shares d))
  let s := { s with rdc := { s.rdc with
    nextTag := (grp + 1) % 65536
    sharers := lines.foldl (fun t l => Tab.set 0 t l 0) s.rdc.sharers
    lines := (s.rdc.drop lines).lines } }
  let s := work.foldl (fun s w => if w.2.isEmpty then s else s.invAt grp w.1 w.2) s
  (s, grp, s.rdc.invs.any (fun w => w.grp == grp))

/-- Mark the 4 KiB blocks that a write of `n` bytes touches in a migrating object (R369). -/
def State.markDirty (s : State) (addr n : Nat) : State :=
  match findObj addr s.kw.objs with
  | some (i, o) =>
    match o.mig with
    | some m =>
      let a := addr - o.pbase
      let bs := ((List.range ((a + n + 4095) / 4096 - a / 4096)).map (· + a / 4096)).filter (fun b => !m.dirty.contains b)
      { s with kw := { s.kw with
        objs := Tab.set none s.kw.objs i (some { o with mig := some { m with dirty := bs.reverse ++ m.dirty } }) } }
    | none => s
  | none => s

/-- The lines that a range of bytes touches. -/
def linesOf (addr len : Nat) : List Nat :=
  (List.range ((addr + len + 255) / 256 - addr / 256)).map (· + addr / 256)

/-- Bytes of a line go over the `MEM` port that it is mapped to: `rd` of them are read and `wr` written (R366, R383,
R560). -/
def State.memLine (s : State) (line rd wr : Nat) : State :=
  match s.homeStack (256 * line) with
  | some k =>
    if k / 4 != s.pos then s
    else match s.memPort (k % 4) line with
    | some p => ((s.onPort p (fun po => { po with memLines := po.memLines + 1 })).count 0 rd).count 1 wr
    | none => s
  | none => s

/-- How many bytes of a range lie in a line. -/
def bytesIn (addr n line : Nat) : Nat := min (addr + n) (256 * line + 256) - max addr (256 * line)

/-- A range that is homed here is read over the `MEM` ports of its stack. -/
def State.memRead (s : State) (addr n : Nat) : State :=
  (linesOf addr n).foldl (fun s l => s.memLine l (bytesIn addr n l) 0) s

/-- Whether a line lies in a stack of this die that is encrypted (R501). -/
def State.encrypted (s : State) (line : Nat) : Bool :=
  match s.homeStack (256 * line) with
  | some k => k / 4 == s.pos && s.sec.memEnc.testBit (k % 4)
  | none => false

/-- A range that is homed here is written over the `MEM` ports of its stack: on an encrypted stack less than a line is a
read, a merge and a write of the whole line (R502). -/
def State.memWrite (s : State) (addr n : Nat) : State :=
  (linesOf addr n).foldl (fun s l =>
    let m := bytesIn addr n l
    if m < 256 && s.encrypted l then s.memLine l 256 256 else s.memLine l 0 m) s

/-- Write bytes that are homed on this die's stacks, over the `MEM` ports of their lines, and invalidate every sharer
(R366, R374). Answers the group of the invalidations and whether any is awaited. -/
def State.wrHome (s : State) (addr : Nat) (bs : List Byte) : State × Nat × Bool :=
  let s := ({ s with mem := s.mem.wrBytes addr bs }.markDirty addr bs.length).memWrite addr bs.length
  s.invalidateLines (linesOf addr bs.length)

/-- An open transaction of nobody in particular: a posted write of the queue manager or the Keywork. -/
def OpenTx.posted : OpenTx :=
  { pkt := Packet.zero, port := 0, tile := 126, eng := 0, uid := 0, off := 0, resent := false, resentAt := 0, answered := false,
    noInstall := false }

/-- Send a write of at most one line to its home on another die, or to the host (R374, R357). Answers whether a port
was found. -/
def State.sendWrite (s : State) (addr job stop : Nat) (bs : List Byte) (o : OpenTx) : State × Bool :=
  s.request (s.homeDie addr) (withData { s.packet 2 0 (s.homeDie addr) stop with addr := addr, job := job } bs) o

/-- Count bytes that this die's accesses read or write in an object, whoever owns it (R367). -/
def State.addTraffic (s : State) (addr n : Nat) : State :=
  if isHostAddr addr then s
  else if ownerOf addr != s.pos then
    { s with kw := { s.kw with ext := Tab.mod 0 s.kw.ext (addr / granuleBytes) (· + n) } }
  else match findObj addr s.kw.objs with
    | some (i, o) => { s with kw := { s.kw with
        objs := Tab.set none s.kw.objs i (some { o with traffic := Tab.mod 0 o.traffic s.pos (· + n) }) } }
    | none => s

/-- An access of this die has read bytes of package memory (R366, R367, R560). -/
def State.readAt (s : State) (addr n : Nat) : State := (s.addTraffic addr n).memRead addr n

/-- Split bytes at 256 B line boundaries, with the address of each piece. -/
def splitLines (addr : Nat) : List Byte → Nat → List (Nat × List Byte)
  | [], _ => []
  | _, 0 => []
  | bs, n + 1 =>
    let k := 256 - addr % 256
    (addr, bs.take k) :: splitLines (addr + k) (bs.drop k) n

/-- Split bytes at granule boundaries, with the address of each piece. -/
def splitGranules (addr : Nat) : List Byte → Nat → List (Nat × List Byte)
  | [], _ => []
  | _, 0 => []
  | bs, n + 1 =>
    let k := granuleBytes - addr % granuleBytes
    (addr, bs.take k) :: splitGranules (addr + k) (bs.drop k) n

/-- What a write of package memory leaves behind: the state, how many acknowledgements it awaits, and the first address
that no port leads to. -/
structure Written where
  st : State
  acks : Nat
  lost : Option Nat

/-- Write bytes that lie in one granule for a job: at home, or by packets of the open transaction given (R374, R401). -/
def State.wrGranule (s : State) (addr job stop : Nat) (bs : List Byte) (o : OpenTx) : Written :=
  if s.isHome addr then
    let (s', g, w) := s.wrHome addr bs
    let x : InvDue := ⟨g, 0, none, o.tile, o.uid⟩
    if w then ⟨{ s' with rdc := { s'.rdc with dues := s'.rdc.dues ++ [x] } }, 1, none⟩ else ⟨s', 0, none⟩
  else
    (splitLines addr bs (bs.length / 256 + 2)).foldl
      (fun (r : Written) (p : Nat × List Byte) =>
        let (s', ok) := r.st.sendWrite p.1 job stop p.2 o
        ⟨s', r.acks + bit1 ok, r.lost.or (if ok then none else some p.1)⟩) ⟨s, 0, none⟩

/-- Write bytes of package memory for a job, granule by granule, each at its own home (R371, R374, R401). -/
def State.wrPkgAs (s : State) (addr job stop : Nat) (bs : List Byte) (o : OpenTx) : Written :=
  (splitGranules addr bs (bs.length / granuleBytes + 2)).foldl (fun (r : Written) (p : Nat × List Byte) =>
    let x := r.st.wrGranule p.1 job stop p.2 o
    ⟨x.st, r.acks + x.acks, r.lost.or x.lost⟩) ⟨s.addTraffic addr bs.length, 0, none⟩

/-- A posted write of the queue manager (stop 120) or the Keywork (stop 121). -/
def State.wrPkg (s : State) (addr job : Nat) (bs : List Byte) : State := (s.wrPkgAs addr job 120 bs OpenTx.posted).st

/-! ### Events (R338 to R340) -/

/-- The 64 bytes of an event (R338, Table — Event header). -/
def evBytes (e : Ev) (phase loss : Bool) (pos ts : Nat) : List Byte :=
  let m := Mem.wrLE [] 0 4 (e.typ % 2 ^ 16 + bit1 phase * 2 ^ 16 + bit1 loss * 2 ^ 17 + pos * 2 ^ 24)
  let m := Mem.wrLE m 4 4 (e.job % 4096 + (match e.stream with
    | some st => st % 16384 * 2 ^ 16
    | none => 2 ^ 31))
  let m := Mem.wrLE m 8 4 e.seq
  let m := Mem.wrLE m 12 4 (e.tile % 128 + e.cause % 256 * 2 ^ 8 + e.code % 65536 * 2 ^ 16)
  let m := Mem.wrLE m 16 8 ts
  let m := e.pay.foldl (fun m p => Mem.wrLE m p.1 p.2.1 p.2.2) m
  m.rdBytes 0 64

/-- Value of the payload word at 0x18, for the trace (R527). -/
def evWord18 (e : Ev) : Word :=
  BitVec.ofNat 32 (Mem.rdLE (e.pay.foldl (fun m p => Mem.wrLE m p.1 p.2.1 p.2.2) []) 0x18 4)

/-- Saturating 32-bit count. -/
def satAdd (n k : Nat) : Nat := if n + k < 2 ^ 32 then n + k else 2 ^ 32 - 1

/-- Whether a descriptor is in progress (R310). -/
def Qm.busy (q : Qm) : Bool := q.descs.any (fun d => d.st == .running || d.st == .finished)

/-- `QM_ON` (R309): the queue manager runs. -/
def State.qmOn (s : State) : Bool := bitAt (s.reg 0x2000) 0 || s.qm.busy

/-- Size of the event ring (R309). -/
def State.evSize (s : State) : Nat := 2 ^ s.rfld 0x201C 0 5
/-- Whether the event ring holds its maximum of unread events (R339). -/
def State.evFull (s : State) : Bool := (s.qm.evTail + 1) % s.evSize == s.qm.evHead

/-- `RESET_CAUSE` (R430). -/
def State.resetCauseWord (s : State) : Word :=
  BitVec.ofNat 32 (s.mgmt.cause + s.mgmt.sub * 2 ^ 4 + s.mgmt.reqDie * 2 ^ 8 + bit1 s.mgmt.deferredBit * 2 ^ 31)

/-- `SEQ` of the current image, 0 when there is none (R441, R442). -/
def Mgmt.curSeq (m : Mgmt) : Nat :=
  match m.optCurrent with
  | none => 0
  | some b => (Tab.get 0 (if b then m.imgB else m.imgA) 0).toNat

/-- `OPT_STATUS` (R441). -/
def State.optStatusWord (s : State) : Word :=
  let m := s.mgmt
  BitVec.ofNat 32 (bit1 m.optDefaulted + bit1 m.optLoaded * 2 + bit1 m.aValid * 2 ^ 2 + bit1 m.bValid * 2 ^ 3
    + bit1 m.mValid * 2 ^ 4 + bit1 m.optBusy * 2 ^ 5 + bit1 m.optErr * 2 ^ 6 + bit1 m.optDirty * 2 ^ 7
    + m.curSeq % 2 ^ 16 * 2 ^ 16)

/-- Write an event (R338, R339, R364). Before the queue manager runs there is no event ring, and an event is not
written (log 6); nor is one after a thermal trip (R488). -/
def State.event (s : State) (e : Ev) : State :=
  if !s.qmOn || s.bw.trip then s
  else
    let s := if bitAt (s.reg 0x3C20) 2 then s.traceAdd e.tile 2 e.typ (evWord18 e) else s
    if s.evFull then { s with qm := { s.qm with evLost := satAdd s.qm.evLost 1, evLoss := true } }
    else
      let a := s.rfld 0x2018 0 32 * 2 ^ 20 + 64 * s.qm.evTail
      if s.deny 0 true false a 64 != 0 then
        { s with kw := { s.kw with deny := satAdd s.kw.deny 1 }
                 qm := { s.qm with evLost := satAdd s.qm.evLost 2, evLoss := true, tableErr := true } }
      else if s.isPoisoned a 64 then
        { s with qm := { s.qm with evLost := satAdd s.qm.evLost 1, evLoss := true, tableErr := true } }
      else
        let s' := s.wrPkg a 0 (evBytes e (s.qm.evLap % 2 == 0) s.qm.evLoss s.pos s.now)
        { s' with qm := { s'.qm with
            evTail := (s.qm.evTail + 1) % s.evSize
            evLap := if s.qm.evTail + 1 == s.evSize then s.qm.evLap + 1 else s.qm.evLap
            evLoss := false
            notifyDue := s'.qm.notifyDue || bitAt (s.reg 0x2000) 16 } }

/-- Count a refused access and write its `PLACE_DENY` event (R364, R378). -/
def State.denied (s : State) (e : Ev) (core addr reason : Nat) : State :=
  { s with kw := { s.kw with deny := satAdd s.kw.deny 1 } }.event
    { e with typ := 0x0705, cause := 0x17,
             pay := [(0x18, 4, s.pos + core * 2 ^ 8), (0x20, 8, addr), (0x28, 4, reason)] }

/-- Send a packet to another die, or report `PORT_UNREACHABLE` (R384, R406). -/
def State.send (s : State) (d : Nat) (k : Packet) (via : Option Nat) : State :=
  match s.route d k.cls k.addr via with
  | some p => s.sendOn p k
  | none => s.event { typ := 0x0206, pay := [(0x18, 4, d), (0x1C, 4, k.cls + k.ptype * 8)] }

/-- The `PORT_UNREACHABLE` event (R384, R406). -/
def State.unreachable (s : State) (k : Packet) : State :=
  s.event { typ := 0x0206, pay := [(0x18, 4, k.dstDie), (0x1C, 4, k.cls + k.ptype * 8)] }

/-- Answer a request on the port it came in on, or by another route (R382). -/
def State.reply (s : State) (p : Nat) (rq : Packet) (k : Packet) : State :=
  let k := { k with cls := 1, dstDie := rq.srcDie, tag := rq.tag, job := rq.job }
  if (s.port p).st == .up || (s.port p).st == .retraining then s.sendOn p k
  else s.send rq.srcDie k (some p)

end Sys2Proof.Machine
end

