-- ==== Sys2Proof/Machine/Fetch.lean ====
section
/-!
DEFINITION. Reads of package memory by the loaders of the tiles, the queue manager and the Keywork: lines homed on another
die, or in the host window, are asked for with `RD` packets, and what needs them waits for the answers
(spec/02 R32, R33, R564; spec/13 R357, R358, R373, R374; spec/14 R382 to R384).
-/

namespace Sys2Proof.Machine

open Sys2Proof

/-! ### Who fetches -/

/-- The loader of a tile: program image and argument block. -/
abbrev loaderAgent (t : Nat) : Nat := t
/-- The stash accesses of a tile. -/
abbrev stashAgent (t : Nat) : Nat := 128 + t
/-- The Keywork. -/
abbrev keyworkAgent : Nat := 256
/-- The reads of a doorbell to a ring. -/
abbrev bellAgent (r : Nat) : Nat := 2 ^ 16 + r
/-- The fetch of descriptors from a ring. -/
abbrev ringAgent (r : Nat) : Nat := 1024 + r
/-- What a descriptor needs as it completes or resumes. -/
abbrev descAgent (uid : Nat) : Nat := 2 ^ 20 + uid

/-- The mark of an open transaction that fetches for an agent. -/
abbrev fetchTx : Nat := 123

/-! ### Fetching -/

/-- Whether this die's own reads may be answered by its remote-data cache (R373). -/
def State.rdcOn (s : State) : Bool := bitAt (s.reg 0x2400) 2

/-- Add the record of a line that an agent has asked for. -/
def State.addFetch (s : State) (f : Fetch) : State := { s with rdc := { s.rdc with fetches := s.rdc.fetches ++ [f] } }

/-- An agent fetches one line, unless it is homed here or already asked for: from the remote-data cache, or from its home
(R373, R374). Without a route the line is unreachable (R384). -/
def State.fetchLine (agent job stop : Nat) (s : State) (line : Nat) : State :=
  let a := 256 * line
  if s.isHome a || (s.fetchOf agent line).isSome then s
  else
    match (if s.rdcOn && !isHostAddr a then s.rdc.find line else none) with
    | some bs => ({ s with rdc := s.rdc.touch line }.count 4 1).addFetch ⟨agent, line, 0, 1, bs⟩
    | none =>
      let s : State := if s.rdcOn && !isHostAddr a then s.count 5 1 else s
      let k := { s.packet 0 0 (s.homeDie a) stop with addr := a, job := job, len := 256 }
      let x := s.request (s.homeDie a) k { OpenTx.posted with tile := fetchTx, uid := agent, off := line }
      if x.2 then x.1.addFetch ⟨agent, line, s.rdc.nextTag, 0, []⟩
      else (s.addFetch ⟨agent, line, 0, 8, []⟩).unreachable k

/-- An agent fetches the lines of a range. -/
def State.fetch (s : State) (agent job stop addr len : Nat) : State :=
  if len = 0 then s else (linesOf addr len).foldl (State.fetchLine agent job stop) s

/-- What has come of the lines of a range: none while one is awaited, 1 when all are here, otherwise the answer code of
one that will not come. -/
def State.fetched (s : State) (agent addr len : Nat) : Option Nat :=
  let fs := if len = 0 then [] else
    ((linesOf addr len).filter (fun l => !s.isHome (256 * l))).map (fun l => match s.fetchOf agent l with
      | some f => f.ans
      | none => 0)
  match fs.find? (2 ≤ ·) with
  | some c => some c
  | none => if fs.all (· == 1) then some 1 else none

/-- Hold a packet until what it waits for has come about (R369, R376). -/
def State.hold (s : State) (p : Nat) (k : Packet) : State := { s with rdc := { s.rdc with held := s.rdc.held ++ [(p, k)] } }

/-- An agent has no more use for what it has fetched. -/
def State.dropFetch (s : State) (agent : Nat) : State :=
  { s with rdc := { s.rdc with fetches := s.rdc.fetches.filter (fun f => f.agent != agent) } }

/-- The answer to a fetch (R374, R384, R394, R466). -/
def State.takeFetch (s : State) (tag ans : Nat) (bs : List Byte) : State :=
  { s with rdc := { s.rdc with fetches := s.rdc.fetches.map (fun f =>
      if f.tag == tag && f.ans == 0 then { f with ans := ans, data := bs } else f) } }

end Sys2Proof.Machine
end

