-- ==== Sys2Proof/Machine/DescOps.lean ====
section
/-!
DEFINITION. Descriptors as the queue manager holds them: header and body fields (R320 to R323), the descriptor a tile
works for, status codes of causes (R337), poison and denial reports (R364, R466), and how a fault elsewhere ends a
descriptor (R454, R455, R467).
-/

namespace Sys2Proof.Machine

open Sys2Proof

/-! ### Descriptor fields (R320, R323) -/

/-- A 32-bit word of a descriptor, by byte offset. -/
def Desc.w (d : Desc) (off : Nat) : Word := wordAt d.words (off / 4)
/-- A 64-bit field of a descriptor, by byte offset. -/
def Desc.w64 (d : Desc) (off : Nat) : Nat := (d.w off).toNat + (d.w (off + 4)).toNat * 2 ^ 32
/-- `OPCODE`. -/
def Desc.opcode (d : Desc) : Nat := fld (d.w 0) 0 8
/-- Header flags. -/
def Desc.replayable (d : Desc) : Bool := bitAt (d.w 0) 8
def Desc.fence (d : Desc) : Bool := bitAt (d.w 0) 9
def Desc.wantsEvent (d : Desc) : Bool := bitAt (d.w 0) 10
def Desc.recomputeOk (d : Desc) : Bool := bitAt (d.w 0) 11
def Desc.overflow (d : Desc) : Nat := fld (d.w 0) 12 2
def Desc.commit (d : Desc) : Bool := bitAt (d.w 0) 14
/-- `SEQ`. -/
def Desc.seq (d : Desc) : Nat := (d.w 4).toNat
/-- `JOB_ID`. -/
def Desc.job (d : Desc) : Nat := fld (d.w 8) 0 12

/-- Whether a descriptor is in progress or pre-empted: started and not completed. -/
def Desc.started (d : Desc) : Bool := d.st != .fetched

/-- Change the descriptor with a uid. -/
def State.onDesc (s : State) (uid : Nat) (f : Desc → Desc) : State :=
  { s with qm := { s.qm with descs := s.qm.descs.map (fun d => if d.uid == uid then f d else d) } }
/-- The descriptor with a uid. -/
def State.desc (s : State) (uid : Nat) : Option Desc := s.qm.descs.find? (fun d => d.uid == uid)

/-- Core map entry of a logical core (R350). -/
def State.core (s : State) (c : Nat) : CoreEnt := Tab.get CoreEnt.init s.kw.cores c
/-- State of a tile in the Keywork (R350). -/
def State.tileSt (s : State) (t : Nat) : TileSt := Tab.get .off s.kw.tiles t
/-- Whether a tile is powered: it is in service, fenced, or being admitted (R18, R355). -/
def State.powered (s : State) (t : Nat) : Bool :=
  match s.tileSt t with
  | .inService => true
  | .fenced => true
  | .admitting => true
  | _ => false
/-- Logical core that is mapped on a tile. -/
def State.coreOf (s : State) (t : Nat) : Option Nat :=
  (s.kw.cores.find? (fun e => e.2.tile == t && e.2.st == .mapped)).map (·.1)

/-- The `COMPUTE` descriptor that the program of a tile belongs to. -/
def State.descOf (s : State) (t : Nat) : Option Desc :=
  let q := (s.tile t).seq
  if q.phase == .idle then none
  else s.qm.descs.find? (fun d => d.started && d.opcode == 1 && d.stream == q.stream && d.seq == q.seqNo)

/-- Change the descriptor that a tile works for. -/
def State.onDescOf (s : State) (t : Nat) (f : Desc → Desc) : State :=
  match s.descOf t with
  | some d => s.onDesc d.uid f
  | none => s

/-- The queue manager's copy of a stream (R311). -/
def Stream.init : Stream :=
  { valid := false, prio := 0, job := 0, ring := 0, ctxSpad := false, ctxMembers := 0, timeout := 0, cplBase := 0,
    cplLog2 := 0, ctxBase := 0, seqStart := 0, st := .idle, nextSeq := 0, head := 0, cplTail := 0, lap := 0,
    satTotal := 0, flushInTotal := 0, flushOutTotal := 0, done := 0, lastTs := 0, halting := false, resetting := false }
/-- The copy of a stream, if the queue manager holds one. -/
def State.stream (s : State) (k : Nat) : Option Stream := Tab.get none s.qm.streams k
/-- Change the copy of a stream that is held. -/
def State.onStream (s : State) (k : Nat) (f : Stream → Stream) : State :=
  match s.stream k with
  | some x => { s with qm := { s.qm with streams := Tab.set none s.qm.streams k (some (f x)) } }
  | none => s

/-! ### Status codes (R337) -/

abbrev stOK : Nat := 0x00
abbrev stReplayedOk : Nat := 0x01
abbrev stPreempted : Nat := 0x02
abbrev stAbandoned : Nat := 0x10
abbrev stOwnerLost : Nat := 0x11
abbrev stStatLost : Nat := 0x12
abbrev stNotReplayable : Nat := 0x16
abbrev stPoisoned : Nat := 0x17
abbrev stKilled : Nat := 0x18
abbrev stSecurity : Nat := 0x1A

/-- Cause codes of faults (R472). -/
abbrev causeCoreFault : Nat := 0x1B
abbrev causePortFault : Nat := 0x1C
abbrev causeCommitFull : Nat := 0x1E
abbrev causeReplayLimit : Nat := 0x1F
abbrev causeEscaped : Nat := 0x20
abbrev causeAbsent : Nat := 0x18
abbrev causePlaceState : Nat := 0x19
abbrev causeNoSpace : Nat := 0x1A

/-- The descriptor `STATUS` of a cause code (R61, R62, R75, R214, R235, R264, R266, R293, R364, R466, R472). -/
def statusOf : Nat → Nat
  | 0x8 => 0x14
  | 0x9 => 0x19
  | 0xA => 0x12
  | 0xC => 0x13
  | 0xD => 0x15
  | 0xF => 0x1A
  | 0x10 => 0x10
  | 0x11 => 0x11
  | 0x17 => 0x1A
  | 0x1B => 0x16
  | 0x1C => 0x16
  | 0x1D => 0x17
  | 0x1F => 0x16
  | 0x20 => 0x16
  | _ => 0x18

/-! ### Faults that reach a descriptor -/

/-- A member of a descriptor has lost its work to a fault (R450, R454, R467): the outcome that completes the
descriptor unless it is replayed (R455). A first outcome stands. -/
def State.hitDesc (s : State) (uid cause tile : Nat) : State :=
  s.onDesc uid (fun d => if d.outcome.isSome then d else { d with outcome := some (statusOf cause, cause, tile) })

/-- Job of a descriptor's stream, which its accesses are made as (R363). -/
def State.jobOf (s : State) (d : Desc) : Nat :=
  match s.stream d.stream with
  | some x => x.job
  | none => d.job

/-- Whether every member of a `COMPUTE` has ended in its present run (R35). -/
def Desc.allEnded (d : Desc) : Bool :=
  d.acted && !d.cores.isEmpty && (List.range d.cores.length).all (fun m => d.ended.contains m)

/-- Nanoseconds that a descriptor has been in progress (R345). -/
def State.elapsed (s : State) (d : Desc) : Nat := d.spent + (if d.timed && d.st != .preempted then s.now - d.startTs else 0)

/-- Whether a descriptor's time in progress has reached its stream's limit (R345). -/
def State.overTime (s : State) (d : Desc) : Bool :=
  match s.stream d.stream with
  | some x => x.timeout != 0 && decide (10 ^ 6 * x.timeout ≤ s.elapsed d)
  | none => false

/-- A time-out decides a descriptor (R345). -/
def State.timeUp (s : State) (d : Desc) : State :=
  (s.hitDesc d.uid 0x14 127).event { typ := 0x0008, job := d.job, stream := some d.stream, seq := d.seq, cause := 0x14,
                                     pay := [(0x18, 8, s.elapsed d)] }

/-- The measure of a descriptor's time stops (R345): its last member has ended, or its last write or operation is made. At
or past the limit that is a time-out. -/
def State.stopClock (s : State) (uid : Nat) : State :=
  match s.desc uid with
  | none => s
  | some d =>
    if !d.timed || d.outcome.isSome then s
    else
      let s' := s.onDesc uid (fun x => { x with spent := s.elapsed d, timed := false })
      if s.overTime d then s'.timeUp d else s'

/-- Whether the members of a descriptor that have not ended go on: nothing has decided its outcome, or a write that the
stash refused has, in which case the others run to `END` (R235). -/
def Desc.goesOn (d : Desc) : Bool :=
  match d.outcome with
  | none => true
  | some (_, c, _) => c == 0xC

/-- Whether the run that a fault of tile `t` has ended had escaped: a write into the scratchpad of that tile is no escape
(R456). -/
def Desc.hasEscaped (d : Desc) (t : Nat) : Bool := d.escaped || d.wrote.any (· != t)

/-- Whether the present run of a descriptor is to be replayed (R455). -/
def Desc.willReplay (d : Desc) : Bool :=
  match d.outcome with
  | some (st, c, t) =>
    st == stNotReplayable && (c == causeCoreFault || c == causePortFault) && d.replayable
    && (d.opcode == 1 || d.opcode == 2 || d.opcode == 7) && !d.hasEscaped t && decide (d.replays < 3)
  | none => false

/-- Record that the run of a tile's descriptor has escaped (R456). -/
def State.escape (s : State) (t : Nat) : State :=
  match s.descOf t with
  | some d => s.onDesc d.uid (fun d => { d with escaped := true })
  | none => s

/-- `FAULT_POISON`: the flag, the count and the event (R466, R471). -/
def State.poisonEvent (s : State) (e : Ev) (addr : Nat) : State :=
  { s with flt := { s.flt with poison := true, poisonCount := satAdd s.flt.poisonCount 1 } }.event
    { e with typ := 0x0103, pay := [(0x18, 4, e.seq), (0x20, 8, addr)] }

/-- The `REFUSED` event of a destination (R266, R286): requesting die and core, target word, kind. -/
def State.refusedEvent (s : State) (job die core target kind : Nat) : State :=
  s.event { typ := 0x0006, job := job,
            pay := [(0x18, 4, die + core % 64 * 2 ^ 8), (0x1C, 4, target), (0x20, 4, kind)] }

/-- The `CORE_ABSENT` event (R353, R378, R569). -/
def State.absentEvent (s : State) (core oldTile : Nat) : State :=
  s.event { typ := 0x0701, pay := [(0x18, 4, core + oldTile * 2 ^ 8)] }

/-- Header of the events that a tile's work causes. -/
def State.evOf (s : State) (t : Nat) : Ev :=
  let q := (s.tile t).seq
  { typ := 0, job := q.job, stream := some q.stream, seq := q.seqNo, tile := t }

end Sys2Proof.Machine
end

