-- ==== Sys2Proof/Machine/CoreOps.lean ====
section
/-!
DEFINITION. Operations on one core tile: scalar registers, tokens, program faults and their report, scratchpad slots
with their tags (R245 to R254), engine queues, and the stops of a core (R61, R63, R96, R195, R196).
-/

namespace Sys2Proof.Machine

open Sys2Proof

/-! ### Scalar registers and the program counter -/

/-- Change the sequencer of a tile. -/
def Tile.onSeq (q : Tile) (f : Seq → Seq) : Tile := { q with seq := f q.seq }

/-- A scalar register; s0 reads as 0 (R36). -/
def Tile.reg (q : Tile) (r : BitVec 5) : Word := if r = 0 then 0 else Tab.get 0 q.seq.regs r.toNat
/-- Write a scalar register; a write to s0 is discarded (R36). -/
def Tile.setReg (q : Tile) (r : BitVec 5) (v : Word) : Tile :=
  if r = 0 then q else { q with seq := { q.seq with regs := Tab.set 0 q.seq.regs r.toNat v } }

/-- Whether the sequencer executes its next instruction: it runs a program, no `ISSUE` is stalled (R50), and it is
not halted unless one step has been granted (R523). -/
def Tile.canRun (q : Tile) : Bool :=
  q.seq.phase == .running && q.seq.stall.isNone && (!q.seq.halted || q.seq.stepping)

/-! ### Scratchpad slots -/

/-- A slot's tag and counts. -/
def Spad.slot (sp : Spad) (i : Nat) : Slot := Tab.get Slot.init sp.slots i
/-- Change a slot's tag and counts. -/
def Spad.onSlot (sp : Spad) (i : Nat) (f : Slot → Slot) : Spad :=
  { sp with slots := Tab.mod Slot.init sp.slots i f }

/-- A local read does not wait: the slot is `FULL` or `RAW` (R251). -/
def Spad.canRead (sp : Spad) (i : Nat) : Bool := (sp.slot i).tag == .full || (sp.slot i).tag == .raw
/-- A local write does not wait: the slot is `EMPTY` or `RAW` (R251). -/
def Spad.canWrite (sp : Spad) (i : Nat) : Bool := (sp.slot i).tag == .empty || (sp.slot i).tag == .raw

/-- The slots that `n` bytes from byte address `a` touch. -/
def slotsOf (a n : Nat) : List Nat :=
  (List.range ((a + n + 4095) / 4096 - a / 4096)).map (· + a / 4096)

/-- Whether every slot of a byte range may be read. -/
def Spad.canReadRange (sp : Spad) (a n : Nat) : Bool := (slotsOf a n).all sp.canRead
/-- Whether every slot of a byte range may be written. -/
def Spad.canWriteRange (sp : Spad) (a n : Nat) : Bool := (slotsOf a n).all sp.canWrite

/-- Release a slot: `FULL` becomes `EMPTY`, any other tag stays (R248). -/
def Spad.release (sp : Spad) (i : Nat) : Spad :=
  sp.onSlot i (fun s => if s.tag == .full then { s with tag := .empty } else s)
/-- Release a run of slots. -/
def Spad.releaseRun (sp : Spad) (i : Nat) : Nat → Spad
  | 0 => sp
  | n + 1 => Spad.releaseRun (sp.release i) (i + 1) n

/-- The effect on a slot of a write of `n` bytes under a declared fill (R246, R247): none is a fault `FILL_DECL`. -/
def Slot.fillBy (s : Slot) (n decl : Nat) : Option Slot :=
  match s.tag with
  | .empty =>
    if decl = 0 ∨ 4096 < decl then none
    else if s.fill ≠ 0 ∧ s.decl ≠ decl then none
    else if decl < s.fill + n then none
    else if s.fill + n = decl then some ⟨.full, 0, 0⟩
    else some ⟨.empty, s.fill + n, decl⟩
  | _ => some s

/-- Write bytes under declared fills, slot by slot: `decl i` is the length declared for slot `i`. The first slot that
faults stops the write (R247). -/
def Spad.writeFill (sp : Spad) (decl : Nat → Nat) (a : Nat) : List Byte → Nat → Option Spad
  | [], _ => some sp
  | _, 0 => some sp
  | bs, n + 1 =>
    let k := 4096 - a % 4096
    let part := bs.take k
    match (sp.slot (a / 4096)).fillBy part.length (decl (a / 4096)) with
    | none => none
    | some s' =>
      Spad.writeFill { sp with
          mem := sp.mem.wrBytes a part, slots := Tab.set Slot.init sp.slots (a / 4096) s'
          mine := if s'.fill = 0 || sp.mine.contains (a / 4096) then sp.mine else (a / 4096) :: sp.mine }
        decl (a + k) (bs.drop k) n

/-- The scratchpad after a write by the core's own engines: the credit of a granted slot that has turned `FULL` is spent,
whoever filled it (R261). -/
def Tile.wrote (q : Tile) (sp : Spad) : Tile :=
  { q with spad := sp, dma := { q.dma with granted := q.dma.granted.filter (fun g => (sp.slot g.slot).tag != .full) } }

/-- The program's writers are abandoned: every slot that they have written in part returns its counts to 0 and is
counted (R254, R96). -/
def Tile.resetFills (q : Tile) : Tile :=
  let bad := q.spad.slots.filter (fun e => e.2.tag == .empty && e.2.fill != 0 && q.spad.mine.contains e.1)
  { q with
    spad := { bad.foldl (fun sp e => sp.onSlot e.1 (fun s => { s with fill := 0, decl := 0 })) q.spad with mine := [] }
    dma := { q.dma with cnt := Tab.mod 0 q.dma.cnt 7 (· + bad.length) } }

/-! ### Engine queues -/

/-- Depth of the command queue of an engine (R47). -/
def queueDepth : Nat → Nat
  | 2 => 64
  | 4 => 32
  | _ => 16

/-- The command queue of an engine (R47). -/
def Tile.queue (q : Tile) : Nat → List QEntry
  | 0 => q.ma0.q
  | 1 => q.ma1.q
  | 2 => q.vec.q
  | 3 => q.row.q
  | 4 => q.dma.q
  | 5 => q.sync.q
  | _ => []

/-- Change the command queue of an engine. -/
def Tile.onQueue (q : Tile) (eng : Nat) (f : List QEntry → List QEntry) : Tile :=
  match eng with
  | 0 => { q with ma0 := { q.ma0 with q := f q.ma0.q } }
  | 1 => { q with ma1 := { q.ma1 with q := f q.ma1.q } }
  | 2 => { q with vec := { q.vec with q := f q.vec.q } }
  | 3 => { q with row := { q.row with q := f q.row.q } }
  | 4 => { q with dma := { q.dma with q := f q.dma.q } }
  | 5 => { q with sync := { q.sync with q := f q.sync.q } }
  | _ => q

/-- The engines whose bit is set in a mask have no command that has not completed (R53). -/
def Tile.drained (q : Tile) (mask : Nat) : Bool :=
  (List.range 6).all (fun e => !mask.testBit e || (q.queue e).isEmpty)

/-- Whether some issued command that has not completed names a token (R53). -/
def Tile.namesToken (q : Tile) (k : Nat) : Bool :=
  (List.range 6).any (fun e => (q.queue e).any (fun c => c.wait == some k || c.post == some k))

/-- Change entry `i` of a list. -/
def modAt {α : Type} (f : α → α) : List α → Nat → List α
  | [], _ => []
  | x :: xs, 0 => f x :: xs
  | x :: xs, i + 1 => x :: modAt f xs i

/-- Change entry `i` of an engine's queue. -/
def Tile.onEntry (q : Tile) (eng i : Nat) (f : QEntry → QEntry) : Tile := q.onQueue eng (fun l => modAt f l i)

/-- A command code of the arrays that the rules below single out. -/
abbrev cPASS : Nat := 0x01

/-- Whether a queued command has started in a way that leaves a trace: rows have entered, a transfer is in flight, or
its store has been accepted, or it has taken its wait token. -/
def QEntry.started (e : QEntry) : Bool :=
  e.inFlight || e.store.isSome || e.loadRows != 0 || e.strRows != 0 || e.bellRows != 0 || (e.wait.isSome && e.taken)

/-- A queued array command has started: a `PASS` has entered a row, a `BELL_STORE` has been accepted by the Bell, and an
`ACC_CLEAR` holds nothing behind it (R51, R80). -/
def QEntry.begun (e : QEntry) : Bool :=
  (e.code == cPASS && (e.loadRows != 0 || e.strRows != 0)) || e.store.isSome || (e.code == 0x02 && e.taken)

/-! ### Tokens -/

/-- Count of a token. -/
def Tile.token (q : Tile) (k : Nat) : Nat := Tab.get 0 q.seq.tokens k
/-- Set a token. -/
def Tile.setToken (q : Tile) (k v : Nat) : Tile :=
  { q with seq := { q.seq with tokens := Tab.set 0 q.seq.tokens k v } }

/-! ### Program faults and stops -/

/-- Cause codes of program faults (R61, R62, R75, R214, R228, R283, R293, R379). -/
abbrev causeIllegal : Nat := 0x1
abbrev causeAlign : Nat := 0x2
abbrev causeDmem : Nat := 0x3
abbrev causePc : Nat := 0x4
abbrev causeTrap : Nat := 0x5
abbrev causeWdog : Nat := 0x6
abbrev causeTokenOvf : Nat := 0x7
abbrev causePerm : Nat := 0x8
abbrev causeFeature : Nat := 0x9
abbrev causeStatLost : Nat := 0xA
abbrev causeStash : Nat := 0xB
abbrev causeStashFull : Nat := 0xC
abbrev causeNoCredit : Nat := 0xD
abbrev causeFill : Nat := 0xE
abbrev causeSecurity : Nat := 0xF
abbrev causeDeny : Nat := 0x17
abbrev causePoison : Nat := 0x1D

/-- The started commands of an array's queue: an `ACC_CLEAR` has started once all ahead of it have (R51, R80). -/
def keepStarted : List QEntry → List QEntry
  | [] => []
  | e :: es =>
    if e.started then e :: keepStarted es
    else if e.code == 0x02 && e.taken then e :: keepStarted es
    else es.filter QEntry.started

/-- The feeders drop the rows of passes that have left an array's queue (R96). -/
def Arr.dropFeed (a : Arr) : Arr := { a with feed := a.feed.filter (fun r => a.q.any (fun e => e.uid == r.uid)) }

/-- On a program fault an engine completes the commands that have started and discards the rest (R61, R195). -/
def Tile.dropUnstarted (q : Tile) : Tile :=
  let q := (List.range 6).foldl (fun q e => q.onQueue e (if e < 2 then keepStarted else List.filter QEntry.started)) q
  { q with ma0 := q.ma0.dropFeed, ma1 := q.ma1.dropFeed }

/-- The valid bit of every Reed entry that this program wrote is cleared (R212). -/
def Tile.clearMine (q : Tile) : Tile :=
  let mine := (q.row.reed.filter (fun e => e.2.mine)).map (·.1)
  { q with row := { q.row with
      reed := mine.foldl (fun t k => Tab.mod ReedEnt.init t k (fun e => { e with valid := false })) q.row.reed } }

/-- Whether a program is under way on the tile. -/
def Tile.live (q : Tile) : Bool := q.seq.phase == .starting || q.seq.phase == .running || q.seq.phase == .yielding

/-- A program fault (R61): the sequencer stops at once, the engines discard what has not started, and the cause with
the code that its event carries is kept for the descriptor's completion. A program that has ended or stopped already
keeps its first cause. -/
def Tile.progFault (q : Tile) (cause info : Nat) : Tile :=
  if q.live then
    { q with seq := { q.seq with phase := .faulted cause, faultInfo := info, stall := none, halted := false,
                                 stepping := false, haltReq := false, twait := none } }.dropUnstarted.clearMine
  else q

/-- Increment a token, saturating; a fault `TOKEN_OVF` when `TOKEN_CHECK` is 1 in the `CORE_CFG` that governs the
increment: the one a command captured, or the present one for `TPOST` (R49, R55). -/
def Tile.postToken (q : Tile) (cfg : Word) (k : Nat) : Tile :=
  if q.token k < 65535 then q.setToken k (q.token k + 1)
  else if bitAt cfg 1 then q.progFault causeTokenOvf 0
  else q

/-- Move past an instruction; running past the last word of the image is a fault `PC_RANGE` whose event carries the
address of the last word (R45). -/
def Tile.advance (q : Tile) : Tile :=
  if q.seq.pc + 1 < q.seq.progLen then { q with seq := { q.seq with pc := q.seq.pc + 1 } }
  else q.progFault causePc 0

/-- Jump to an instruction; a target outside the image is a fault `PC_RANGE` (R45). -/
def Tile.jumpTo (q : Tile) (target : Int) : Tile :=
  if 0 ≤ target ∧ target < q.seq.progLen then { q with seq := { q.seq with pc := target.toNat } }
  else q.progFault causePc 0

/-- The work of a core is abandoned (R63, R96, R196): every queue is discarded, both arrays' accumulator valid bits
are cleared, no slot is released, partly filled slots return their counts to zero, and the
Reed entries the program wrote are invalid (R212). -/
def Tile.abandon (q : Tile) : Tile :=
  { q with
    ma0 := { q.ma0 with q := [], acc := [], later := [], feed := [], channel := false }
    ma1 := { q.ma1 with q := [], acc := [], later := [], feed := [], channel := false }
    vec := { q.vec with q := [] }
    row := { q.row with q := [], out := none }
    dma := { q.dma with q := [] }
    sync := { q.sync with q := [] }
    seq := { q.seq with stall := none, twait := none } }.resetFills.clearMine

/-! ### Windows and credits (R258 to R263) -/

/-- Change the core DMA of a tile. -/
def Tile.onDma (q : Tile) (f : Dma → Dma) : Tile := { q with dma := f q.dma }

/-- Add to a counter of the core DMA (R282). -/
def Tile.dmaCount (q : Tile) (k n : Nat) : Tile := q.onDma (fun d => { d with cnt := Tab.mod 0 d.cnt k (· + n) })

/-- The fill of a slot that a returned or revoked credit leaves in part goes back to zero (R254). -/
def Tile.resetFill (q : Tile) (slot : Nat) : Tile :=
  let sl := q.spad.slot slot
  if sl.tag == .empty && sl.fill != 0 then
    ({ q with spad := q.spad.onSlot slot (fun s => { s with fill := 0, decl := 0 }) } : Tile).dmaCount 7 1
  else q

/-- Take back the unspent credits that satisfy `f` (R254, R262, R263). -/
def Tile.takeCredits (q : Tile) (f : Granted → Bool) : Tile :=
  let back := q.dma.granted.filter f
  let q := q.onDma (fun d => { d with granted := d.granted.filter (fun g => !f g) })
  back.foldl (fun q g => q.resetFill g.slot) q

/-- Give an answer to the `CREDIT_REQ` with identity `uid`; a grant goes to its handle (R259, R264, R266). -/
def Tile.answerReq (q : Tile) (uid handle ans tgt : Nat) (g : Option Grant) : Tile :=
  q.onDma (fun d => { d with
    handles := match g with
      | some x => Tab.set none d.handles handle (some x)
      | none => d.handles
    q := d.q.map (fun e =>
      if e.code == 8 && e.uid == uid && e.ans == 0 then
        { e with ans := ans, tgt := tgt, owed := 0 } else e) })

/-- Answer a requester of credits: a tile's core DMA, a `COPY` of the copy engine, or another die. -/
def State.answerCredit (s : State) (r : CredReq) (ans tgt : Nat) (g : Option Grant) (first : Nat) : State :=
  match r.port with
  | some (p, k) =>
    match g with
    | some x => s.reply p k { s.packet 1 3 0 121 with addr := first + x.count * 2 ^ 12 }
    | none => s.reply p k { s.packet 1 4 0 121 with aux := if ans == 2 || ans == 5 then 1 else if ans == 3 then 2 else 3 }
  | none =>
    if r.who.stop < Config.tiles then s.onTile r.who.stop (fun q => q.answerReq r.uid r.who.handle ans tgt g)
    else
      { s with qm := { s.qm with descs := s.qm.descs.map (fun d =>
          match d.xfer with
          | some e =>
            if d.place == r.who.handle && e.ans == 0 && e.inFlight && fld (wordAt d.words 0) 0 8 == 2 then
              { d with grant := match g with
                         | some x => some x
                         | none => d.grant
                       xfer := some { e with ans := ans, tgt := tgt } }
            else d
          | none => d) } }

/-- Revoke the grants that a writer of this die holds in a window of tile `t` (R263). -/
def State.revoke (s : State) (t window : Nat) : State :=
  let off := fun (g : Option Grant) => match g with
    | some x => if x.tile == t && x.window == window then some { x with revoked := true } else some x
    | none => none
  { s with
    tiles := s.tiles.map (fun e => (e.1, e.2.onDma (fun d => { d with handles := d.handles.map (fun h => (h.1, off h.2)) })))
    qm := { s.qm with descs := s.qm.descs.map (fun d => { d with grant := off d.grant }) } }

/-- Close a receive window: waiting requests are refused with `NO_CREDIT`, every grant in it is revoked, and partly
written slots are reset (R254, R263). `ans` is 2, or 5 when the closing is that of a fenced tile (R454). -/
def State.closeWindow (s : State) (t window ans : Nat) : State :=
  let hit := (s.tile t).dma.reqs.filter (fun r => r.window == window)
  let s := s.onTile t (fun q => (q.onDma (fun d => { d with
      windows := Tab.set none d.windows window none
      reqs := d.reqs.filter (fun r => r.window != window) })).takeCredits (fun g => g.window == window))
  hit.foldl (fun s r => s.answerCredit r ans (if ans == 5 then t else 127) none 0) (s.revoke t window)

/-- Close every open window of a tile. -/
def State.closeWindows (s : State) (t ans : Nat) : State :=
  (s.tile t).dma.windows.keys.foldl (fun s w => s.closeWindow t w ans) s

/-- The unspent credits of a writer in every window of this die return (R262). -/
def State.returnCredits (s : State) (w : Writer) : State :=
  { s with tiles := s.tiles.map (fun e => (e.1, e.2.takeCredits (fun x => x.who == w))) }

/-- Return the unspent credits of a handle of a tile, and empty the handle (R262). To another die the return travels as a
`CRED_REQ` for no credit (DESIGN CHOICE: R396 gives no message for it; log 51). -/
def State.dropHandle (s : State) (t handle : Nat) : State :=
  match Tab.get none (s.tile t).dma.handles handle with
  | none => s
  | some g =>
    let s := if g.tile < Config.tiles then s.returnCredits ⟨s.pos, t, handle⟩
      else if g.revoked then s
      else (s.request g.die { s.packet 0 2 g.die t with
        addr := g.core * 2 ^ 24 + g.window * 2 ^ 30 + handle * 2 ^ 34, job := (s.tile t).seq.job } OpenTx.posted).1
    s.onTile t (fun q => q.onDma (fun d => { d with handles := Tab.set none d.handles handle none }))

/-- Whether a queued transfer names a credit handle: a `DM_MOVE` whose destination is remote under credit. -/
def QEntry.usesHandle (e : QEntry) (handle : Nat) : Bool :=
  e.code == 1 && fld (wordAt e.words 0) 2 2 == 3 && fld (wordAt e.words 4) 0 4 == handle

/-- Return the credits of every handle that no transfer in flight names (R262). -/
def State.dropHandles (s : State) (t : Nat) : State :=
  (s.tile t).dma.handles.keys.foldl (fun s h =>
    if (s.tile t).dma.q.any (fun e => e.inFlight && e.usesHandle h) then s else s.dropHandle t h) s

/-- Withdraw the requests for credits of a tile's program that still wait at an allocator of this die. -/
def State.dropRequests (s : State) (t : Nat) : State :=
  { s with tiles := s.tiles.map (fun e => (e.1, e.2.onDma (fun d => { d with
      reqs := d.reqs.filter (fun r => r.port.isSome || !(r.who.die == s.pos && r.who.stop == t)) }))) }

/-- The core program of a tile has ended, stopped or yielded: its windows close and its credits return
(R262, R263). -/
def State.letGo (s : State) (t ans : Nat) : State := ((s.closeWindows t ans).dropRequests t).dropHandles t

/-! ### Synchronisation requests between dies (log 13, log 51) -/

/-- The data of a sync request that this die sends (log 13). -/
def syncBytes (r : SyncReq) : List Byte :=
  (List.range 5).flatMap (fun i => leBytes 4 (wordAt r.words i).toNat) ++ leBytes 4 (r.code + r.core * 2 ^ 8)
  ++ leBytes 4 r.stream ++ leBytes 4 0

/-- Tile number of a transaction that a home's `SY_INIT` makes. -/
abbrev initTx : Nat := 121
/-- Tile number of a request for a wait that has been withdrawn: its `uid` is the descriptor whose completion waits for
the home's answer (R566). -/
abbrev withdrawnTx : Nat := 120

/-- Send a sync request to another die, and remember who asked. -/
def State.sendSync (s : State) (d : Nat) (r : SyncReq) : State × Bool :=
  let (t, uid, i) := match r.src with
    | .tile t => (t, 0, 5)
    | .desc u => (124, u, 5)
    | .defer u i => (125, u, i)
    | .init id => (initTx, id, 5)
    | .remote _ _ _ _ => (126, 0, 5)
    | .nobody => (126, 0, 5)
  s.request d (withData { s.packet 3 0 d (if t < 72 then t else 120) with job := r.job } (syncBytes r))
    { OpenTx.posted with tile := t, eng := i, uid := uid }

/-- Who asked for a synchronisation operation that is open at another die. -/
def OpenTx.src (o : OpenTx) : Option SyncSrc :=
  if o.pkt.cls != 3 then none
  else if o.tile < Config.tiles then some (.tile o.tile)
  else if o.tile == 124 then some (.desc o.uid)
  else if o.tile == 125 then some (.defer o.uid o.eng)
  else if o.tile == initTx then some (.init o.uid)
  else none

/-- Whether an open transaction is a request of somebody that `p` holds of. -/
def OpenTx.asks (o : OpenTx) (p : SyncSrc → Bool) : Bool :=
  match o.src with
  | some x => !o.answered && p x
  | none => false

/-- Whether an open transaction is an `SY_WAIT` (log 13). -/
def OpenTx.isWait (o : OpenTx) : Bool := o.pkt.cls == 3 && (o.pkt.data.drop 20)[0]? == some 3

/-- Ask the home of an open wait of this die to withdraw it (R300; log 51): the home answers the wait itself. -/
def State.askWithdraw (s : State) (tag : Nat) (o : OpenTx) : State :=
  if o.isWait then
    (s.sendSync o.pkt.dstDie { code := 7, words := [BitVec.ofNat 32 tag], job := o.pkt.job, stream := 0, die := s.pos, core := 0
                               src := .nobody }).1
  else s

/-! ### A stopped program's sync commands (R566) -/

/-- The homes of this die drop the waits, blocked arrivals and undelivered results of the requesters that `p` holds of;
accepted arrivals stay counted (R300, R566). -/
def State.dropSrcs (s : State) (p : SyncSrc → Bool) : State :=
  { s with sync := { s.sync with
      objs := s.sync.objs.map (fun e => (e.1, { e.2 with waiters := e.2.waiters.filter (fun w => !p w.src) }))
      bars := s.sync.bars.map (fun e => (e.1, e.2.map (fun b => { b with waits := b.waits.filter (fun w => !p w.src) })))
      results := s.sync.results.filter (fun r => !p r.src)
      inits := s.sync.inits.map (fun e => (e.1, e.2.map (fun x =>
        if p x.req.src then { x with req := { x.req with src := .nobody } } else x)))
      held := s.sync.held.filterMap (fun r => if p r.src then (if r.code == 3 || r.code == 4 then none else some { r with src := .nobody }) else some r) } }

/-- The requesters that `p` holds of are gone: this die's homes drop what waits for them, and other dies' homes are asked to.
Nobody looks at the answers any more, but with `some uid` that descriptor's completion waits for those to its waits (R300,
R566). -/
def State.withdraw (s : State) (p : SyncSrc → Bool) (uid : Option Nat) : State :=
  let hit := s.rdc.opens.filterMap (fun e => e.2.bind (fun o => if o.asks p then some (e.1, o) else none))
  let s : State := { s.dropSrcs p with rdc := { s.rdc with
    opens := s.rdc.opens.map (fun e => (e.1, e.2.map (fun o =>
      if o.asks p then { o with tile := if o.isWait && uid.isSome then withdrawnTx else 126, uid := uid.getD 0 } else o))) } }
  hit.foldl (fun s x => s.askWithdraw x.1 x.2) s

/-- Whether the home of some withdrawn wait of a descriptor has not answered (R566). -/
def State.withdrawing (s : State) (uid : Nat) : Bool :=
  s.rdc.opens.any (fun e => match e.2 with
    | some o => o.tile == withdrawnTx && o.uid == uid && o.pkt.cls == 3 && !o.answered
    | none => false)

/-- A program has stopped or is abandoned: its sync commands are discarded or withdrawn and its deferred operations
discarded (R295, R566). -/
def State.syncStop (s : State) (t : Nat) : State :=
  (s.withdraw (· == .tile t) ((s.descOf t).map (·.uid))).onTile t (fun q => { q with sync := SyncUnit.init })

/-! ### Reports -/

/-- The program-fault event of a stopped core (R61): tile, pc, cause, and the `TRAP` code or the lowest lost Reed
entry. -/
def State.faultEvent (s : State) (t : Nat) : State :=
  let q := s.tile t
  match q.seq.phase with
  | .faulted cause =>
    s.event { typ := 0x0001, job := q.seq.job, stream := some q.seq.stream, seq := q.seq.seqNo, tile := t,
              cause := cause, code := if cause == causeTrap then q.seq.faultInfo else 0,
              pay := [(0x18, 4, q.seq.pc % 2 ^ 14 + q.seq.lcore * 2 ^ 16),
                      (0x1C, 4, if cause == causeStatLost then q.seq.faultInfo else 0)] }
  | _ => s

/-- Whether the sequencer of a tile has been stopped by a program fault. -/
def Tile.isFaulted (q : Tile) : Bool :=
  match q.seq.phase with
  | .faulted _ => true
  | _ => false

/-- Change a tile; if the change raised a program fault, report it, record it for the descriptor's completion, let go
of windows and credits and withdraw its sync commands (R61, R263, R566). -/
def State.runTile (s : State) (t : Nat) (f : Tile → Tile) : State :=
  let s' := s.onTile t f
  if (s.tile t).isFaulted then s'
  else
    match (s'.tile t).seq.phase with
    | .faulted cause =>
      let s' := match s'.descOf t with
        | some d => s'.hitDesc d.uid cause t
        | none => s'
      ((s'.faultEvent t).letGo t 2).syncStop t
    | _ => s'

/-- A tile's work ends because of a fault elsewhere (R454, R467): it is abandoned and its descriptor takes the cause;
the tile itself is not fenced. -/
def State.drawIn (s : State) (t cause tile : Nat) : State :=
  let s' := match s.descOf t with
    | some d => s.hitDesc d.uid cause tile
    | none => s
  ((s'.onTile t (fun q => q.abandon.onSeq (fun z => { z with phase := .discarded }))).letGo t 2).syncStop t

/-- Write the `DBG_HALTED` event (R523, R530). -/
def State.haltEvent (s : State) (t reason : Nat) : State :=
  s.event { typ := 0x0501, tile := t, pay := [(0x18, 4, t), (0x1C, 4, (s.tile t).seq.pc), (0x20, 4, reason)] }

/-- Whether the die's clocks run: a thermal trip stops them until POR (R488), and after an internal scan nothing runs
until SRST (R514; log 27). -/
def State.clocked (s : State) : Bool := !s.bw.trip && !s.tst.scanned

/-- Whether the cores run: the clocks do, and no throttle hold is in force (R486, R487): the duty cycle of rung 4, or the
hold of rung 3 while the clock glides. Rung 2 leaves a core cycle in every two. -/
def State.coresRun (s : State) : Bool :=
  s.clocked && s.bw.glide == 0 && decide (125 * s.bw.duty ≤ s.now % 1000)

/-- An instruction has retired: a debug step is used up, no `TWAIT` is waited at, and the watchdog counts afresh
(R53, R60, R523). -/
def Seq.retired (z : Seq) : Seq := { z with stepping := false, twait := none, stallNs := 0 }

/-- Execute one instruction of a tile's sequencer: nothing happens while the sequencer does not run; a granted debug
step is used up and the sequencer halts again (R523). -/
def State.instr (s : State) (t : Nat) (f : Tile → Tile) : State :=
  if s.coresRun && (s.tile t).canRun then
    let stepping := (s.tile t).seq.stepping
    let s' := s.runTile t (fun q => (f q).onSeq Seq.retired)
    if stepping && !(s'.tile t).isFaulted then s'.haltEvent t 2 else s'
  else s

/-- An instruction that the sequencer stays at while it waits (R53, R57): nothing happens until the wait is over. -/
def State.instrWhen (s : State) (t : Nat) (ready : Tile → Bool) (f : Tile → Tile) : State :=
  if ready (s.tile t) then s.instr t f else s

/-- An instruction of a tile that is there. -/
def instrOn (t : Nat) (f : Tile → Tile) (s : State) : Host.Outcome State Fault Refusal :=
  onUnit (isTile t) t (s.instr t f)

end Sys2Proof.Machine
end

