-- ==== Sys2Proof/Machine/Arith.lean ====
section
/-!
DEFINITION. Bounded arithmetic: accumulated elements within the bound of R145, reductions within R189, transcendental
functions within R147. Where the spec gives a bound and no bit pattern (R148), the result is a free value if that
value lies within the bound, and the correctly rounded one otherwise (log 2).
-/

namespace Sys2Proof.Machine

open Sys2Proof

/-- FP32 bits with every NaN replaced by the canonical one (R126, R184). -/
def canonNaN (w : Word) : Word :=
  match fp32Val w with
  | .nan => 0x7FC00000
  | _ => w

/-- The least magnitude that rounds to infinity in FP32: `2^128 - 2^103`. -/
def fp32Over : Dy := ⟨2 ^ 25 - 1, 103⟩

/-! ### Accumulated elements (R126, R145) -/

/-- Add one term to the record of an element. -/
def Ghost.term (g : Ghost) (v : Val) : Ghost :=
  match v with
  | .nan => { g with nan := true, negZero := false, k := g.k + 1 }
  | .inf n => { g with pinf := g.pinf || !n, ninf := g.ninf || n, negZero := false, k := g.k + 1 }
  | .fin n q =>
    { g with
      exact := g.exact.add (if n then q.neg else q), mag := g.mag.add q, k := g.k + 1
      pos := g.pos || (!n && !q.isZero), neg := g.neg || (n && !q.isZero)
      negZero := g.negZero && n && q.isZero }

/-- The record of an element whose value is its bits: one exact term. -/
def Ghost.ofBits (w : Word) : Ghost := { Ghost.init.term (fp32Val w) with k := 0 }

/-- The sum of a station group's products (R139): exact, and −0 only when every product is; an integer sum of 0 is +0. -/
def groupSum (isInt : Bool) (ts : List Val) : Val :=
  let v := ts.foldl Val.add (.fin true .zero)
  if isInt then .ofDy false v.num else v

/-- Add a station group to the record of an element (R139, R145): its exact sum times the combined scale `s` is one term,
whose sign and special values are those of R126; K and the sum of magnitudes go by its products. -/
def Ghost.group (g : Ghost) (isInt : Bool) (s : Val) (ts : List Val) : Ghost :=
  let h := g.term ((groupSum isInt ts).mul s)
  let each := ts.map (fun t => (t.mul s).num)
  { h with
    k := g.k + ts.length
    mag := each.foldl (fun m t => m.add t.abs) g.mag
    pos := g.pos || each.any (fun t => decide ((0 : Int) < t.m)), neg := g.neg || each.any (fun t => decide (t.m < (0 : Int))) }

/-- The bound of R145 on the distance from the exact sum. -/
def Ghost.bound (g : Ghost) : Dy :=
  let groups := if g.grp = 0 then 0 else ceilDiv g.k g.grp
  let rel : Dy := (Dy.mul ⟨(ceilDiv g.k 32 + groups + 2 : Nat), -24⟩ g.mag)
  if g.tiny then rel.add ⟨g.k, -149⟩ else rel

/-- Whether FP32 bits hold a finite value within `b` of `x`. -/
def withinOf (w : Word) (x b : Dy) : Bool :=
  match fp32Val w with
  | .fin n q => ((if n then q.neg else q).sub x).abs.le b
  | _ => false

/-- Whether bits are a special value that a sum can end in once an intermediate value leaves the FP32 range: the infinity
of a sign that occurs among its terms, or a NaN where both do (R126). -/
def Ghost.special (g : Ghost) (c : Word) : Bool :=
  match fp32Val c with
  | .nan => g.pos && g.neg
  | .inf n => if n then g.neg else g.pos
  | .fin _ _ => false

/-- The FP32 result of a sum whose error bound is `b`, given a free value `c` (R126, R145): special values among the terms
as R126 states; `z` is the sign of a sum of zeros; the free value where it lies within the bound, or is a special value
that R126 gives when an intermediate value may leave the FP32 range; the correctly rounded sum otherwise (log 2). -/
def Ghost.pick (g : Ghost) (b : Dy) (z : Bool) (c : Word) : Word :=
  let mayLeave := !(g.mag.add b).lt fp32Over
  let nan := mayLeave && fp32Val c == .nan
  if g.nan || (g.pinf && g.ninf) then 0x7FC00000
  else if g.pinf then (if nan && g.neg then 0x7FC00000 else 0x7F800000)
  else if g.ninf then (if nan && g.pos then 0x7FC00000 else 0xFF800000)
  else if g.mag.isZero then (if z then 0x80000000 else 0)
  else if withinOf c g.exact b || (mayLeave && g.special c) then canonNaN c
  else fp32Keep (.ofDy false g.exact)

/-- The FP32 result of an accumulated element, given a free value `c` (R126, R145). -/
def Ghost.result (g : Ghost) (c : Word) : Word := g.pick g.bound g.negZero c

/-! ### Choices within a bound for results that are never subnormal -/

/-- A choice for a result with exact value `x` and absolute bound `b` whose nonzero results are at least `2^-126`
(R184): the free value when it is a finite normal value or zero within the bound, or zero where the exact value may
lie below the smallest normal magnitude; the correctly rounded value otherwise. -/
def pickFlush (c : Word) (x b : Dy) : Word :=
  match fp32Val c with
  | .fin n q =>
    if q.isZero then
      (if x.abs.le b || (x.abs.sub b).lt (.pow2 (-126)) then c else fp32Flush (.ofDy false x))
    else if q.lt (.pow2 (-126)) then fp32Flush (.ofDy false x)
    else if ((if n then q.neg else q).sub x).abs.le b then c
    else fp32Flush (.ofDy false x)
  | _ => fp32Flush (.ofDy false x)

/-- Spacing of FP32 at a magnitude, as an exponent: `2 ^ ulpExp`. -/
def ulpExp (x : Dy) : Int := x.ilog - 23

/-- A choice among the results within a bound: the free value where it is finite, normal and satisfies `near`, or is an
infinity whose value, taken as `2^128`, does; the correctly rounded reference `x` otherwise (log 2). -/
def pickNear (c : Word) (near : Dy → Dy → Bool) (x : Dy) : Word :=
  let ok := match fp32Val c with
    | .fin neg q => !q.isZero && !q.lt (.pow2 (-126)) && near (if neg then q.neg else q) (.pow2 (ulpExp q))
    | .inf neg => near (if neg then Dy.neg (.pow2 128) else .pow2 128) (.pow2 104)
    | .nan => false
  if ok then c else fp32Flush (.ofDy false x)

/-- A choice within `n` ulp, the spacing at the result (R146, R147), of a value that `x` stands for: no FP32 value and no
whole number of ulp from one lies between the two. -/
def pickUlp (c : Word) (n : Nat) (x : Dy) : Word :=
  pickNear c (fun v u => (v.sub x).abs.le (u.mul (.ofInt n))) x

/-! ### Reference values of the transcendental functions

Fixed-point integers with `fpBits` fraction bits. The truncation errors stay below `2^-90` ulp, and a value that is not
itself a multiple of an ulp lies farther than that from every multiple of one, so a comparison with the reference decides as
one with the exact value would (log 2). -/

/-- Fraction bits of the reference arithmetic. -/
abbrev fpBits : Nat := 128

/-- Truncated product of fixed-point numbers. -/
def fpMul (a b : Nat) : Nat := a * b / 2 ^ fpBits

/-- `Σ z^(2i+1) / (2i+1)` over `n` terms, for `z` in fixed point: atanh z. -/
def fpAtanh (z z2 zp : Nat) : Nat → Nat → Nat
  | 0, _ => 0
  | n + 1, d => zp / d + fpAtanh z z2 (fpMul zp z2) n (d + 2)

/-- atanh of a rational below one half. -/
def fpAtanhOf (num den : Nat) : Nat :=
  let z := num * 2 ^ fpBits / den
  fpAtanh z (fpMul z z) z 64 1

/-- ln 2 = 2 atanh (1/3). -/
def fpLn2 : Nat := 2 * fpAtanhOf 1 3

/-- `Σ y^i / i!` over `n` terms, from the present term `p` and index `i`. -/
def fpExpSum (y p : Nat) : Nat → Nat → Nat
  | 0, _ => 0
  | n + 1, i => p + fpExpSum y (fpMul p y / (i + 1)) n (i + 1)

/-- `2^f` for a fixed-point fraction `f`, in fixed point. -/
def fpExp2Frac (f : Nat) : Nat := fpExpSum (fpMul f fpLn2) (2 ^ fpBits) 40 0

/-- An exact number as a fixed-point integer, rounded down. -/
def fpFloor (x : Dy) : Int :=
  if 0 ≤ x.e + fpBits then x.m * (2 ^ (x.e + fpBits).toNat : Nat)
  else Int.fdiv x.m (2 ^ (-(x.e + fpBits)).toNat : Nat)

/-- Reference value of `2^x`. -/
def exp2Ref (x : Dy) : Dy :=
  let fx := fpFloor x
  let n := Int.fdiv fx (2 ^ fpBits : Nat)
  let f := (fx - n * (2 ^ fpBits : Nat)).toNat
  ⟨fpExp2Frac f, n - fpBits⟩

/-- Reference value of log2 of a positive number. -/
def log2Ref (x : Dy) : Dy :=
  let e := x.ilog
  let num := x.m.natAbs
  let one := 2 ^ Nat.log2 num
  let l := 2 * fpAtanhOf (num - one) (num + one)
  ⟨e * (2 ^ fpBits : Nat) + (l * 2 ^ fpBits / fpLn2 : Nat), -(fpBits : Int)⟩

/-- Reference value of the reciprocal of a positive number. -/
def rcpRef (x : Dy) : Dy :=
  ⟨(2 ^ (Nat.log2 x.m.natAbs + fpBits) / x.m.natAbs : Nat), -x.e - (Nat.log2 x.m.natAbs + fpBits : Nat)⟩

/-- Integer square root by bits, from bit `n` down. -/
def isqrtBits (v : Nat) : Nat → Nat → Nat
  | 0, r => r
  | n + 1, r =>
    let r' := r + 2 ^ n
    isqrtBits v n (if r' * r' ≤ v then r' else r)

/-- Reference value of the reciprocal square root of a positive number. -/
def rsqrtRef (x : Dy) : Dy :=
  -- 1/x = q * 2^-k with k even
  let k0 := x.e + (Nat.log2 x.m.natAbs + 2 * fpBits : Nat)
  let k := if k0 % 2 = 0 then k0 else k0 + 1
  let q := 2 ^ (k - x.e).toNat / x.m.natAbs
  ⟨(isqrtBits q (Nat.log2 q / 2 + 1) 0 : Nat), -(Int.fdiv k 2)⟩

/-- Reference value of tanh of a positive number: `(1 - u) / (1 + u)` with `u = e^(-2x)`. -/
def tanhRef (x : Dy) : Dy :=
  if (Dy.ofInt 40).lt x then ⟨2 ^ 200 - 1, -200⟩          -- below 1 by less than any spacing
  else
    let y := (fpFloor x).toNat * 2 * 2 ^ fpBits / fpLn2          -- 2x log2 e
    let n := y / 2 ^ fpBits
    let f := y % 2 ^ fpBits
    -- 2^-y = 1 / (2^n * 2^f)
    let u := 2 ^ (2 * fpBits) / fpExp2Frac f / 2 ^ n
    ⟨((2 ^ fpBits - u) * 2 ^ fpBits / (2 ^ fpBits + u) : Nat), -(fpBits : Int)⟩

/-- exp2 of an FP32 lane (R147). -/
def vExp2 (c : Word) (v : Val) : Word :=
  match v with
  | .nan => 0x7FC00000
  | .inf n => if n then 0 else 0x7F800000
  | .fin n q =>
    let x := if n then q.neg else q
    if (Dy.ofInt 128).le x then 0x7F800000
    else if x.lt (.ofInt (-126)) then 0
    else pickUlp c 2 (exp2Ref x)

/-- log2 of an FP32 lane (R147). -/
def vLog2 (c : Word) (v : Val) : Word :=
  match v with
  | .nan => 0x7FC00000
  | .inf n => if n then 0x7FC00000 else 0x7F800000
  | .fin n q =>
    if q.isZero then 0xFF800000
    else if n then 0x7FC00000
    else if (Dy.pow2 (-1)).le q && q.le (.ofInt 2) then pickFlush c (log2Ref q) (.pow2 (-22))
    else pickUlp c 2 (log2Ref q)

/-- Give a positive result the sign of its argument. -/
def signedBits (n : Bool) (w : Word) : Word := if n then w ^^^ 0x80000000 else w

/-- Reciprocal of an FP32 lane (R147). -/
def vRcp (c : Word) (v : Val) : Word :=
  match v with
  | .nan => 0x7FC00000
  | .inf n => signedBits n 0
  | .fin n q =>
    if q.isZero then signedBits n 0x7F800000
    else if (rcpRef q).lt (.pow2 (-126)) then signedBits n 0
    else signedBits n (pickNear c (fun v u => ((v.mul q).sub (.ofInt 1)).abs.le (u.mul q)) (rcpRef q))

/-- Reciprocal square root of an FP32 lane (R147). The spec states no result for −0: the free value (log 2). -/
def vRsqrt (c : Word) (v : Val) : Word :=
  match v with
  | .nan => 0x7FC00000
  | .inf n => if n then 0x7FC00000 else 0
  | .fin n q =>
    if q.isZero then (if n then canonNaN c else 0x7F800000)
    else if n then 0x7FC00000
    else pickNear c (fun v u =>
      let lo := v.sub u
      let hi := v.add u
      ((lo.mul lo).mul q).le (.ofInt 1) && (Dy.ofInt 1).le ((hi.mul hi).mul q)) (rsqrtRef q)

/-- tanh of an FP32 lane (R147). -/
def vTanh (c : Word) (v : Val) : Word :=
  match v with
  | .nan => 0x7FC00000
  | .inf n => signedBits n 0x3F800000
  | .fin n q =>
    if q.lt (.pow2 (-12)) then fp32Keep (.fin n q)
    else signedBits n (pickUlp c 2 (tanhRef q))

end Sys2Proof.Machine
end

