-- ==== Sys2Proof/Machine/Bell.lean ====
section
/-!
DEFINITION. The Bell output stage: settings, settings sets and their vectors, the steps of an element, the
destination of a store, and the writing of a row (spec/06_bell_output_stage.md, R149 to R174, R193, R206).
-/

namespace Sys2Proof.Machine

open Sys2Proof

/-! ### Settings (R152 to R154) -/

/-- The fields of Table — BELL_CFG parameter words (R152). -/
structure BellP where
  slot : Nat
  pitchCode : Nat
  off : Nat
  parts : Nat
  adv : Bool
  fmt : Fmt
  sgn : Bool
  rnd : Nat
  ovfInf : Bool
  clip : Bool
  biasEn : Bool
  biasFp32 : Bool
  mEn : Bool
  mBlock : Nat
  mE4m3 : Bool
  nEn : Bool
  nBlock : Nat
  nE4m3 : Bool
  mnsSlot : Nat
  biasSlot : Nat
  mExp : Int
  nExp : Int
  stream : Nat
  lo : Word
  hi : Word
  deriving DecidableEq, Repr

/-- Block size of an MN-direction scale: 0 to 6 for 1, 8, 16, 32, 64, 128, 256 (R152). -/
def mnBlock (code : Nat) : Nat := if code = 0 then 1 else 2 ^ (code + 2)

/-- Read the fields of `BELL_CFG` words. -/
def bellP (ws : List Word) : BellP :=
  let w0 := wordAt ws 0
  let w1 := wordAt ws 1
  let w2 := wordAt ws 2
  let w3 := wordAt ws 3
  { slot := fld w0 0 12, pitchCode := fld w0 12 3, off := fld w0 15 7, parts := 2 ^ fld w0 22 2, adv := bitAt w0 24
    fmt := (Fmt.ofCode (fld w1 0 5)).getD .bf16, sgn := bitAt w1 5, rnd := fld w1 6 2, ovfInf := bitAt w1 8
    clip := bitAt w1 9, biasEn := bitAt w1 10, biasFp32 := bitAt w1 11
    mEn := bitAt w1 12, mBlock := mnBlock (fld w1 13 3), mE4m3 := bitAt w1 16
    nEn := bitAt w1 17, nBlock := mnBlock (fld w1 18 3), nE4m3 := bitAt w1 21
    mnsSlot := fld w2 0 12, biasSlot := fld w2 12 12
    mExp := signedOf (fld w3 0 8) 8, nExp := signedOf (fld w3 8 8) 8, stream := fld w3 16 16
    lo := wordAt ws 4, hi := wordAt ws 5 }

/-- Whether the settings words are legal (R152, R154). `n` words are supplied; the rest are 0. -/
def bellCfgOk (ws : List Word) : Bool :=
  let w0 := wordAt ws 0
  let w1 := wordAt ws 1
  let p := bellP ws
  fld w0 25 7 == 0 && fld w1 22 10 == 0 && fld (wordAt ws 2) 24 8 == 0
  && wordAt ws 6 == 0 && wordAt ws 7 == 0
  && decide (fld w1 0 5 ≤ 7) && fld w1 6 2 != 3 && fld w1 13 3 != 7 && fld w1 18 3 != 7
  && (!p.sgn || p.fmt.isInt)
  && (p.off == 0 || p.pitchCode != 0)
  && (!p.clip || !(fp32Val p.lo == .nan || fp32Val p.hi == .nan || (fp32Val p.hi).lt (fp32Val p.lo)))

/-- The settings after a `BELL_CFG` of `n` words over the latest ones: one word replaces the word-0 fields only, more
replace everything and unsupplied words are 0 (R153). -/
def bellMerge (latest : List Word) (ws : List Word) : List Word :=
  match ws with
  | [w] => w :: latest.drop 1
  | _ => (List.range 6).map (wordAt ws)

/-! ### Destination geometry (R164, R166, R167) -/

/-- Written row length in bytes for `n` active elements (R164). -/
def rowLen (p : BellP) (n : Nat) : Nat := roundUp (ceilDiv (n * p.fmt.width) 8) 32
/-- Row pitch in bytes (R152). -/
def pitch (p : BellP) (n : Nat) : Nat := if p.pitchCode = 0 then rowLen p n else 32 * 2 ^ (p.pitchCode - 1)
/-- Scratchpad byte at which row `j` of a store that begins in slot `d` is written (R164). -/
def rowByte (p : BellP) (n d j : Nat) : Nat := 4096 * d + j * pitch p n + 32 * p.off
/-- The slot after the last slot that a store of `m` rows writes (R166). -/
def slotAfter (p : BellP) (n d m : Nat) : Nat := (rowByte p n d (m - 1) + rowLen p n - 1) / 4096 + 1
/-- First slot of the next store under settings with advance record `adv` (R166). -/
def firstSlot (p : BellP) (adv : Option Nat) : Nat :=
  match adv with
  | some a => if p.adv then a else p.slot
  | none => p.slot
/-- The check of R167 on a store of `m` rows of `n` elements. -/
def storeFits (p : BellP) (n m : Nat) (adv : Option Nat) : Bool :=
  decide (slotAfter p n (firstSlot p adv) m ≤ Config.slots)
  && (p.pitchCode == 0 || decide (32 * p.off + rowLen p n ≤ pitch p n))

/-- Length of the overlap of `[a, a + n)` with slot `i`. -/
def overlap (a n i : Nat) : Nat := min (a + n) (4096 * (i + 1)) - max a (4096 * i)
/-- The fill that a store declares for slot `i`: the bytes it writes there times `FILL_PARTS` (R165). -/
def declOf (p : BellP) (n d m i : Nat) : Nat :=
  (List.range m).foldl (fun a j => a + overlap (rowByte p n d j) (rowLen p n) i) 0 * p.parts

/-! ### Settings sets (R153, R155, R157) -/

/-- The latest settings set. -/
def Bell.latest (b : Bell) : BellSet :=
  b.sets.getLastD { id := 0, words := [0, 0, 0, 0, 0, 0], mvec := [], nvec := [], bias := [], src := 0, loaded := true,
                       adv := none }
/-- The settings set with an identity. -/
def Bell.setOf (b : Bell) (id : Nat) : BellSet := (b.sets.find? (fun s => s.id == id)).getD b.latest
/-- Change the settings set with an identity. -/
def Bell.onSet (b : Bell) (id : Nat) (f : BellSet → BellSet) : Bell :=
  { b with sets := b.sets.map (fun s => if s.id == id then f s else s) }

/-- Fill a new settings set from `BELL_CFG` words (R153, R155). `used` says whether unfinished stores need a set. None
while both sets are needed. A one-word `BELL_CFG` copies the latest set's vectors, or shares the load of them that is under
way. -/
def Bell.newSet (b : Bell) (ws : List Word) (used : Nat → Bool) : Option Bell :=
  let l := b.latest
  let s : BellSet :=
    if ws.length == 1 then { l with id := b.nextId, words := bellMerge l.words ws, adv := none }
    else { id := b.nextId, words := bellMerge l.words ws, mvec := [], nvec := [], bias := [], src := b.nextId, loaded := false,
           adv := none }
  let keep := match b.sets with
    | [x, y] => if !used x.id then some [y] else if !used y.id then some [x] else none
    | ss => some ss
  match keep with
  | some ss => some { b with sets := ss ++ [s], nextId := b.nextId + 1 }
  | none => none

/-- Slots that the vector load of settings reads (R156, R157). -/
def vectorSlots (p : BellP) : List Nat :=
  (if p.mEn || p.nEn then [p.mnsSlot] else []) ++ (if p.biasEn then [p.biasSlot] else [])

/-- Copy `n` bytes of one memory at `a` to the start of a new one. -/
def sliceMem (m : Mem) (a n : Nat) : Mem := Mem.wrBytes [] 0 (m.rdBytes a n)

/-- Load the enabled vectors of a settings set (R156, R157). -/
def BellSet.load (s : BellSet) (mem : Mem) : BellSet :=
  let p := bellP s.words
  { s with
    mvec := if p.mEn then sliceMem mem (4096 * p.mnsSlot) 2048 else []
    nvec := if p.nEn then sliceMem mem (4096 * p.mnsSlot + 2048) 1024 else []
    bias := if p.biasEn then sliceMem mem (4096 * p.biasSlot) (if p.biasFp32 then 4096 else 2048) else []
    loaded := true }

/-! ### The steps of one element (R150, R151, R156 to R163) -/

/-- The factor of the scale step (R158). -/
def bellFactor (p : BellP) (s : BellSet) (j n : Nat) : Val :=
  let f := if p.mEn then ((scaleVal p.mE4m3 (s.mvec.rd (j / p.mBlock))).1).mul (.fin false (.pow2 p.mExp))
           else .fin false (.ofInt 1)
  if p.nEn then (f.mul (scaleVal p.nE4m3 (s.nvec.rd (n / p.nBlock))).1).mul (.fin false (.pow2 p.nExp)) else f

/-- Bias of a column and whether its entry is flushed (R156, R159). -/
def biasOf (p : BellP) (s : BellSet) (n : Nat) : Val × Bool :=
  if p.biasFp32 then readElem .fp32 false (elemBits s.bias 0 .fp32 n) else readElem .bf16 false (elemBits s.bias 0 .bf16 n)

/-- The clip step (R160). -/
def clipVal (p : BellP) (v : Val) : Val :=
  if !p.clip || v == .nan then v
  else if v.lt (fp32Val p.lo) then fp32Val p.lo
  else if (fp32Val p.hi).lt v then fp32Val p.hi
  else v

/-- Rounding of one element (R161, R162). -/
def bellRnd (p : BellP) (seed : BitVec 64) (bell count j n : Nat) : Rnd :=
  match p.rnd with
  | 0 => .rne
  | 1 => .rtz
  | _ => .sr (srBits seed (srC0 n j bell count) (BitVec.ofNat 64 p.stream))

/-- The steps from scale to convert for element (`j`, `n`) of a store (R150). -/
def bellElem (p : BellP) (s : BellSet) (seed : BitVec 64) (bell count j n : Nat) (v : Val) : Conv :=
  let v := if p.mEn || p.nEn then (v.mul (bellFactor p s j n)).round24 else v
  let v := if p.biasEn then (v.add (biasOf p s n).1).round24 else v
  convert p.fmt p.sgn (bellRnd p seed bell count j n) p.ovfInf (clipVal p v)

/-- Vector entries flushed when row `j` of a store is processed, each counted once for the store (R159): the M entry
at the first row of its block, the N and bias entries at row 0. -/
def entryFlushes (p : BellP) (s : BellSet) (j : Nat) (cols : List Nat) : Nat :=
  let m := if p.mEn && j % p.mBlock == 0 then bit1 (scaleVal p.mE4m3 (s.mvec.rd (j / p.mBlock))).2 else 0
  if j == 0 then
    let ns := (cols.map (· / p.nBlock)).eraseDups
    m + (if p.nEn then (ns.filter (fun i => (scaleVal p.nE4m3 (s.nvec.rd i)).2)).length else 0)
      + (if p.biasEn then (cols.filter (fun n => (biasOf p s n).2)).length else 0)
  else m

/-- Pack element bits, lowest index first (R122). -/
def packBits (w : Nat) : List Nat → Nat
  | [] => 0
  | b :: bs => b % 2 ^ w + 2 ^ w * packBits w bs

/-- A converted row: its bytes, and the counts saturated, flushed on input and flushed on output. -/
structure BellRow where
  bytes : List Byte
  sat : Nat
  flushIn : Nat
  flushOut : Nat
  deriving DecidableEq, Repr

/-- Convert one row of a store. `src` gives the value of the `e`-th active element and whether the prepare step
flushed it; `off` is the output index of the first (R158, R164, R192). -/
def bellRow (p : BellP) (s : BellSet) (seed : BitVec 64) (bell count j off n : Nat) (src : Nat → Val × Bool) : BellRow :=
  let es := (List.range n).map (fun e => bellElem p s seed bell count j (e + off) (src e).1)
  { bytes := leBytes (rowLen p n) (packBits p.fmt.width (es.map (·.bits)))
    sat := (es.filter (·.sat)).length
    flushIn := ((List.range n).filter (fun e => (src e).2)).length
      + entryFlushes p s j ((List.range n).map (· + off))
    flushOut := (es.filter (·.flushOut)).length }

/-! ### A store on a tile -/

/-- Add a row's counts to the program's totals (R172). -/
def Tile.addCounts (q : Tile) (sat fin fout : Nat) : Tile :=
  { q with seq := { q.seq with sat := q.seq.sat + sat, flushIn := q.seq.flushIn + fin, flushOut := q.seq.flushOut + fout } }

/-- Whether row `j` of a store can be written now (R165). -/
def storeWritable (q : Tile) (p : BellP) (n d j : Nat) : Bool := q.spad.canWriteRange (rowByte p n d j) (rowLen p n)

/-- Write row `j` of a store of `m` rows into the scratchpad and add its counts; a broken declared fill is a program
fault of the writer (R165, R247). -/
def writeStoreRow (q : Tile) (p : BellP) (n d m j : Nat) (r : BellRow) : Tile :=
  match q.spad.writeFill (declOf p n d m) (rowByte p n d j) r.bytes (r.bytes.length / 4096 + 2) with
  | some sp => (q.wrote sp).addCounts r.sat r.flushIn r.flushOut
  | none => q.progFault causeFill 0

/-- Value of an accumulator word at the prepare step, and whether it is flushed (R150). -/
def prepareAcc (isInt : Bool) (w : Word) : Val × Bool :=
  if isInt then ((Val.ofDy false (.ofInt w.toInt)).round24, false) else fp32Read w

/-! ### How stores begin (R155, R162, R166, R171) -/

/-- Stores that have been accepted and have not completed (R171): a store that a `PASS` makes counts from its first streamed
row. -/
def acceptedStores (l : List QEntry) : Nat :=
  (l.filter (fun e => e.store.isSome && !e.stored && (e.code != cPASS || e.strRows != 0))).length

/-- A store of `m` rows of `n` elements begins: the settings set in force, its first slot and store count
(R155, R162, R166). -/
def Bell.accept (b : Bell) (n m : Nat) : Bell × (Nat × Nat × Nat) :=
  let s := b.latest
  let p := bellP s.words
  let d := firstSlot p s.adv
  ({ (b.onSet s.id (fun x => { x with adv := some (slotAfter p n d m) })) with count := (b.count + 1) % 2 ^ 32 },
   (s.id, d, b.count))

/-- The oldest settings set whose vectors are not loaded is loaded, with every set that shares its load, when its slots may
be read (R153, R157). -/
def Bell.loadVectors (b : Bell) (sp : Spad) : Bell :=
  match b.sets.find? (fun s => !s.loaded) with
  | none => b
  | some s =>
    if (vectorSlots (bellP s.words)).all sp.canRead then
      { b with sets := b.sets.map (fun x => if !x.loaded && x.src == s.src then x.load sp.mem else x) }
    else b

end Sys2Proof.Machine
end

