-- ==== Sys2Proof/Machine/Arrays.lean ====
section
/-!
DEFINITION. The matrix arrays: the parameter words of their commands and the checks at issue, the load of a
stationary operand, the entry of streamed rows with their accumulation, the load channel, and the completion of
passes (spec files 03, 04, 05).
-/

namespace Sys2Proof.Machine

open Sys2Proof

/-- One of the two arrays. -/
def Tile.arr (q : Tile) (ma : Bool) : Arr := if ma then q.ma1 else q.ma0
/-- Change one of the two arrays. -/
def Tile.onArr (q : Tile) (ma : Bool) (f : Arr → Arr) : Tile :=
  if ma then { q with ma1 := f q.ma1 } else { q with ma0 := f q.ma0 }
/-- Engine number of an array (R47). -/
def arrEng (ma : Bool) : Nat := bit1 ma

/-! ### Parameter words (R76, R130, R168) -/

/-- The fields of a `PASS` (R76). -/
structure PassP where
  src : Nat
  srcRel : Bool
  m : Nat
  stat : Nat
  statRel : Bool
  reuse : Bool
  accBase : Nat
  accAdd : Bool
  bell : Bool
  mode : Nat
  cstream : Bool
  fmtCode : Nat
  sgnS : Bool
  sgnW : Bool
  ka : Nat
  na : Nat
  deriving DecidableEq, Repr

/-- Read the words of a `PASS`. -/
def passP (ws : List Word) : PassP :=
  let w0 := wordAt ws 0
  let w1 := wordAt ws 1
  let w2 := wordAt ws 2
  let w3 := wordAt ws 3
  { src := fld w0 0 12, srcRel := bitAt w0 12, m := fld w0 16 11 + 1
    stat := fld w1 0 12, statRel := bitAt w1 12, reuse := bitAt w1 13
    accBase := fld w2 0 11, accAdd := bitAt w2 11, bell := bitAt w2 12
    mode := fld w3 0 2, cstream := bitAt w3 2, fmtCode := fld w3 3 5, sgnS := bitAt w3 8, sgnW := bitAt w3 9
    ka := fld w3 10 7 + 1, na := fld w3 17 10 + 1 }

/-- Accumulator rows per result row, and slices: `w` of R71. -/
def PassP.w (p : PassP) : Nat := 2 ^ p.mode
/-- PE rows of a slice, which is the stationary load time L (R92, R99). -/
def PassP.l (p : PassP) : Nat := 128 / p.w
/-- Operand format; BF16 for a code that the issue check has excluded. -/
def PassP.fmt (p : PassP) : Fmt := (Fmt.ofCode p.fmtCode).getD .bf16
/-- Active outputs per result row (R91, R113). -/
def PassP.nOut (p : PassP) : Nat := if p.cstream then p.ka else p.na
/-- Slots of the streamed operand (R77). -/
def PassP.srcSlots (p : PassP) : Nat := ceilDiv (p.m * (256 / p.w)) 4096

/-- The fields of `SCALE` (R130). -/
structure ScaleP where
  sDir : Nat
  sBlock : Nat
  sE4m3 : Bool
  wDir : Nat
  wBlock : Nat
  wE4m3 : Bool
  base : Nat
  sExp : Int
  wExp : Int
  deriving DecidableEq, Repr

/-- Read the words of a `SCALE`. -/
def scaleP (ws : List Word) : ScaleP :=
  let w0 := wordAt ws 0
  let w2 := wordAt ws 2
  { sDir := fld w0 0 2, sBlock := 8 * 2 ^ fld w0 2 3, sE4m3 := bitAt w0 5
    wDir := fld w0 8 2, wBlock := 8 * 2 ^ fld w0 10 3, wE4m3 := bitAt w0 13
    base := fld (wordAt ws 1) 0 12
    sExp := signedOf (fld w2 0 8) 8, wExp := signedOf (fld w2 8 8) 8 }

/-- Whether either operand carries K- or `T`-direction scales. -/
def ScaleP.any (c : ScaleP) : Bool := c.sDir != 0 || c.wDir != 0

/-- The fields of a `BELL_STORE` (R168). -/
structure BellStoreP where
  first : Nat
  rows : Nat
  w : Nat
  clr : Bool
  nOut : Nat
  deriving DecidableEq, Repr

/-- Read the words of a `BELL_STORE`; without word 1, N_out is `128 · w`. -/
def bellStoreP (ws : List Word) : BellStoreP :=
  let w0 := wordAt ws 0
  let w := 2 ^ fld w0 22 2
  { first := fld w0 0 11, rows := fld w0 11 11 + 1, w := w, clr := bitAt w0 24
    nOut := if ws.length ≤ 1 then 128 * w else fld (wordAt ws 1) 0 10 + 1 }

/-! ### Checks at issue (R74, R75, R79, R80, R98, R131, R133, R154, R167) -/

/-- Pass configuration (R89): mode, format and signs, active extents, block-scale settings. -/
def passCfg (p : PassP) (scale : List Word) : List Nat :=
  [p.mode, bit1 p.cstream, p.fmtCode, bit1 p.sgnS, bit1 p.sgnW, p.ka, p.na, fld (wordAt scale 0) 0 14]

/-- The limits of R76 and R77 on a `PASS`. -/
def passLimits (ws : List Word) : Bool :=
  let p := passP ws
  fld (wordAt ws 0) 13 3 == 0 && fld (wordAt ws 0) 27 5 == 0 && fld (wordAt ws 1) 14 18 == 0
  && fld (wordAt ws 2) 13 19 == 0 && fld (wordAt ws 3) 27 5 == 0
  && decide (p.m * p.w ≤ 2048) && (p.reuse || decide (p.stat ≤ 4088))
  && decide (p.accBase + p.m * p.w ≤ 2048) && decide (p.src + p.srcSlots ≤ 4096)
  && decide (p.ka ≤ p.l) && decide (p.na ≤ 128 * p.w)
  && decide (p.fmtCode ≤ 6) && (p.fmt.isInt || (!p.sgnS && !p.sgnW))
  && (!p.cstream || p.mode == 0)

/-- Whether two runs of slots meet. -/
def runsMeet (a n b m : Nat) : Bool := decide (a < b + m) && decide (b < a + n)

/-- The checks of R133 on a `PASS` against the latest `SCALE` issued. -/
def passScaleOk (p : PassP) (c : ScaleP) : Bool :=
  (c.sDir == 0 || decide (8 * p.fmt.p ≤ c.sBlock)) && (c.wDir == 0 || decide (8 * p.fmt.p ≤ c.wBlock))
  && !(c.wDir == 1 && p.cstream)
  && (c.sDir == 0 || !runsMeet p.src p.srcSlots c.base 256)
  && (c.wDir == 0 || p.reuse || !runsMeet p.stat 8 c.base 256)

/-- Whether `SCALE` words are legal (R130, R131). -/
def scaleOk (ws : List Word) : Bool :=
  let w0 := wordAt ws 0
  let side := fun (dir size fmt : Nat) =>
    match dir with
    | 0 => size == 0 && fmt == 0
    | 1 => decide (size ≤ 5)
    | 2 => decide (size ≤ 2)
    | _ => false
  side (fld w0 0 2) (fld w0 2 3) (fld w0 5 1) && side (fld w0 8 2) (fld w0 10 3) (fld w0 13 1)
  && fld w0 6 2 == 0 && fld w0 14 18 == 0
  && decide (fld (wordAt ws 1) 0 12 ≤ 3840) && fld (wordAt ws 1) 12 20 == 0
  && fld (wordAt ws 2) 16 16 == 0 && wordAt ws 3 == 0

/-- Whether `BELL_STORE` words are legal (R168). -/
def bellStoreOk (ws : List Word) : Bool :=
  let b := bellStoreP ws
  fld (wordAt ws 0) 25 7 == 0 && fld (wordAt ws 1) 10 22 == 0 && wordAt ws 2 == 0 && wordAt ws 3 == 0
  && decide (b.first + b.rows * b.w ≤ 2048) && decide (b.nOut ≤ 128 * b.w)

/-- Take a store into the issue-side record of a Bell (R167). -/
def Bell.issueStore (b : Bell) (n m : Nat) : Bell :=
  let p := bellP b.issWords
  { b with issAdv := some (slotAfter p n (firstSlot p b.issAdv) m) }

/-- The fault of a counter block's data-memory address, if any (R38, R98). -/
def cntFault (w : Word) : Option Nat :=
  if fld w 14 18 ≠ 0 then some causeIllegal
  else if fld w 0 14 % 64 ≠ 0 then some causeAlign
  else if 0x3FC0 < fld w 0 14 then some causeDmem
  else none

/-- The checks of an array command as it leaves the sequencer, and what it leaves there: the issue-side records, and
the `SCALE` settings a `PASS` captures. `lvl` is the package feature level. A command that is illegal and also needs an
absent feature is reported as `ILLEGAL` (DESIGN CHOICE: R75 and R131 give no order; log 49). -/
def issueArray (lvl : Nat) (ma : Bool) (q : Tile) (e : QEntry) : Except Nat (Tile × QEntry) :=
  let a := q.arr ma
  let ws := e.words
  match e.code with
  | 0x01 =>
    let p := passP ws
    let c := scaleP a.issScale
    if ws.length ≠ 4 then .error causeIllegal
    else if p.mode == 3 && decide (lvl < 2) then .error causeFeature
    else if !passLimits ws || !passScaleOk p c then .error causeIllegal
    else if p.reuse && a.issCfg != some (passCfg p a.issScale) then .error causeIllegal
    else if p.bell && !storeFits (bellP a.bell.issWords) p.nOut p.m a.bell.issAdv then .error causeIllegal
    else
      .ok (q.onArr ma (fun a => { a with
              issCfg := some (passCfg p a.issScale)
              bell := if p.bell then a.bell.issueStore p.nOut p.m else a.bell }),
           { e with scale := a.issScale })
  | 0x02 =>
    let w := wordAt ws 0
    if ws.length ≠ 1 || bitAt w 11 || fld w 23 9 != 0 || decide (2048 < fld w 0 11 + fld w 12 11 + 1) then
      .error causeIllegal
    else .ok (q, e)
  | 0x03 =>
    if ws.length ≠ 1 then .error causeIllegal
    else match cntFault (wordAt ws 0) with
      | some c => .error c
      | none => .ok (q, e)
  | 0x10 =>
    let c := scaleP ws
    if 4 < ws.length || !scaleOk ws then .error causeIllegal
    else if decide (lvl < 2) && (c.sDir == 2 || c.wDir == 2) then .error causeFeature
    else .ok (q.onArr ma (fun a => { a with issScale := (List.range 3).map (wordAt ws) }), e)
  | 0x11 =>
    if !bellCfgOk ws then .error causeIllegal
    else .ok (q.onArr ma (fun a => { a with
        bell := { a.bell with issWords := bellMerge a.bell.issWords ws, issAdv := none } }), e)
  | 0x12 =>
    let b := bellStoreP ws
    if 4 < ws.length || !bellStoreOk ws then .error causeIllegal
    else if !storeFits (bellP a.bell.issWords) b.nOut b.rows a.bell.issAdv then .error causeIllegal
    else .ok (q.onArr ma (fun a => { a with bell := a.bell.issueStore b.nOut b.rows }), e)
  | _ => .error causeIllegal

/-! ### Order of starts (R51, R108, R109) -/

/-- Index of the first entry that satisfies `f`, where every earlier entry satisfies `g`. -/
def firstWhere (f g : QEntry → Bool) : List QEntry → Nat → Option Nat
  | [], _ => none
  | e :: es, i => if f e then some i else if g e then firstWhere f g es (i + 1) else none

/-- The entry at an index. -/
def entryAt (l : List QEntry) (i : Nat) : Option QEntry := l[i]?

/-- Whether a `PASS` is in a Slide mode. -/
def isSlide (e : QEntry) : Bool := e.code == cPASS && (passP e.words).mode != 0
/-- Whether an entry is a `PASS` whose rows have not all entered. -/
def streaming (e : QEntry) : Bool := e.code == cPASS && decide (e.strRows < (passP e.words).m)

/-- The array gives the load channel back: it has no S8 pass with rows still to enter, and either its next pass has
another mode (the drain begins) or its queue is empty (R108). -/
def Arr.relChannel (a : Arr) : Arr :=
  if a.channel then
    match a.q.find? streaming with
    | some e => if (passP e.words).mode == 3 then a else { a with channel := false }
    | none => if a.q.isEmpty then { a with channel := false } else a
  else a

/-- While the other array holds the whole load channel, this one starts only full-mode `REUSE` passes (R109). What has
started goes on. -/
def mayStart (q : Tile) (ma : Bool) (e : QEntry) : Bool :=
  !(q.arr !ma).relChannel.channel
  || (e.code == cPASS && (passP e.words).mode == 0 && (passP e.words).reuse)

/-! ### Banks and the stationary load (R67, R82, R87, R88, R102, R135, R137) -/

/-- A stationary bank: false = A, true = B. -/
def Arr.bank (a : Arr) (b : Bool) : Bank := if b then a.bankB else a.bankA
/-- Change a stationary bank. -/
def Arr.onBank (a : Arr) (b : Bool) (f : Bank → Bank) : Arr :=
  if b then { a with bankB := f a.bankB } else { a with bankA := f a.bankA }

/-- Whether a command releases a slot when it completes (R78). -/
def releases (e : QEntry) (s : Nat) : Bool :=
  let p := passP e.words
  e.code == cPASS && ((p.srcRel && decide (p.src ≤ s) && decide (s < p.src + p.srcSlots))
    || (p.statRel && !p.reuse && decide (p.stat ≤ s) && decide (s < p.stat + 8)))

/-- Whether the array may read slots for a command behind `ahead`: each is readable, and none is one that a command ahead
still has to release, since the results are those of the queue order (R51, R78; log 49). -/
def mayRead (sp : Spad) (ahead : List QEntry) (ss : List Nat) : Bool :=
  ss.all (fun s => sp.canRead s && !ahead.any (fun e => releases e s))

/-- Number of stationary rows that a pass loads. -/
def loadTarget (e : QEntry) : Nat := if (passP e.words).reuse then 0 else (passP e.words).l

/-- The bank that a pass uses, given the one that the pass before it uses: its own once it is known, the same for a `REUSE`
pass, the other for a loading one (R82, R87). -/
def bankAfter (b : Bool) (e : QEntry) : Bool := e.bank.getD (if (passP e.words).reuse then b else !b)

/-- The bank of the pass before entry `i` (R76, R87): passes whose rows have all entered have left their bank selected, and
those still to enter follow on from it. -/
def prevBank (a : Arr) (i : Nat) : Bool :=
  ((a.q.take i).filter streaming).foldl bankAfter a.sel

/-- Byte of the scale region (R134). -/
def scaleByte (c : ScaleP) (i : Nat) : Nat := 4096 * c.base + i

/-- The block of stationary scales that load row `k` brings (R135, R138). -/
def loadBlock (p : PassP) (c : ScaleP) (k : Nat) : Nat := k * p.fmt.p / c.wBlock

/-- Slots that load row `k` waits for: its data slot, and the scale-region slots of its block (R88 (e), R137). -/
def loadSlots (p : PassP) (c : ScaleP) (k : Nat) : List Nat :=
  slotsOf (4096 * p.stat + 256 * p.w * k) (256 * p.w)
  ++ (if c.wDir == 0 then [] else slotsOf (scaleByte c (256 * p.stat + 128 * p.w * loadBlock p c k)) (128 * p.w))

/-- The stationary element W[κ][n] in a bank (R102, R122). -/
def statElem (b : Bank) (p : PassP) (kappa n : Nat) : Nat :=
  bitsOf (b.data.rdLE (256 * p.w * (kappa / p.fmt.p) + 2 * n) 2) (p.fmt.width * (kappa % p.fmt.p)) p.fmt.width

/-- Active stationary elements of load row `k` that are subnormal, and its block's flushed E4M3 scales (R91, R125). A scale
entry counts once, however many stations apply it (DESIGN CHOICE: R125 counts each scale that a station reads and does not say
how often one entry is read; log 49). -/
def loadFlushes (b : Bank) (p : PassP) (c : ScaleP) (k : Nat) : Nat :=
  let els := if decide (k < p.ka) then
      ((List.range p.fmt.p).flatMap (fun i => (List.range p.na).map (fun n => (k * p.fmt.p + i, n)))).filter
        (fun x => isSubnormal p.fmt (statElem b p x.1 x.2)) |>.length
    else 0
  let scs := if c.wDir != 0 && c.wE4m3 && decide (k < p.ka) && k * p.fmt.p % c.wBlock == 0 then
      ((List.range p.na).filter (fun n => (c.wDir == 1 || n % c.wBlock == 0)
        && (scaleVal true (b.scales.rd (128 * p.w * loadBlock p c k + n))).2)).length
    else 0
  els + scs

/-- Bring load row `k` into a bank (R82, R102, R137). -/
def loadRow (b : Bank) (mem : Mem) (p : PassP) (c : ScaleP) (k : Nat) : Bank :=
  let at' := 128 * p.w * loadBlock p c k
  { data := b.data.wrBytes (256 * p.w * k) (mem.rdBytes (4096 * p.stat + 256 * p.w * k) (256 * p.w))
    scales := if c.wDir == 0 then b.scales
      else b.scales.wrBytes at' (mem.rdBytes (scaleByte c (256 * p.stat + at')) (128 * p.w)) }

/-- The pass whose next load row is due: it has its token, rows remain, and every command ahead of it has started or is a
`REUSE` pass that may (R51, R52, R88 (b)). -/
def loadCandidate (a : Arr) : Option Nat :=
  firstWhere (fun e => e.code == cPASS && e.taken && decide (e.loadRows < loadTarget e))
    (fun e => e.begun || (e.code == cPASS && e.taken && loadTarget e == 0)) a.q 0

/-- Whether the bank that a pass loads into is free, and the array has drained for a pass of another configuration:
every pass ahead of it that uses the bank, or that differs in configuration, has streamed its rows (R88 (a), R89). -/
def bankFree (a : Arr) (i : Nat) (e : QEntry) (b : Bool) : Bool :=
  (List.range i).all (fun k =>
    match entryAt a.q k with
    | some x => !streaming x || (bankAfter (prevBank a k) x != b
        && passCfg (passP x.words) x.scale == passCfg (passP e.words) e.scale)
    | none => true)

/-- The load row that is due on an array, but for its slots: index and entry of its pass, and the bank (R88 (a), (b), R89). -/
def loadDue (a : Arr) : Option (Nat × QEntry × Bool) :=
  match loadCandidate a with
  | none => none
  | some i =>
    match entryAt a.q i with
    | none => none
    | some e => let b := bankAfter (prevBank a i) e; if bankFree a i e b then some (i, e, b) else none

/-- An array takes the whole load channel for an S8 pass whose first load row is due (R107, R108). A Slide-mode pass of the
other array is in flight until its last streamed row has entered (DESIGN CHOICE: R108 does not define it; log 49). -/
def channelStep (ma : Bool) (q : Tile) : Tile :=
  let a := q.arr ma
  let o := q.arr !ma
  match loadDue a with
  | none => q
  | some (_, e, _) =>
    let loading := o.q.any (fun x => x.code == cPASS && x.loadRows != 0 && decide (x.loadRows < loadTarget x))
    let slide := o.q.any (fun x => isSlide x && x.begun && streaming x)
    if (passP e.words).mode == 3 && e.loadRows == 0 && !a.channel && !o.relChannel.channel && !loading && !slide then
      (q.onArr ma (fun a => { a with channel := true })).onArr (!ma) Arr.relChannel
    else q

/-! ### Streamed rows (R68, R71, R72, R81, R91, R99, R101, R111, R113, R138, R139) -/

/-- Bytes of streamed row `j`: address and length (R77, R103). -/
def streamRow (p : PassP) (j : Nat) : Nat × Nat := (4096 * p.src + j * (256 / p.w), 256 / p.w)

/-- Row whose scale entries streamed row `j` uses (R138). -/
def scaleRow (c : ScaleP) (j : Nat) : Nat := if c.sDir == 2 then j / c.sBlock * c.sBlock else j

/-- Region byte of the streamed scale entry of row `j`, block `b` (R136). -/
def streamScaleAt (p : PassP) (c : ScaleP) (j b : Nat) : Nat :=
  scaleByte c (256 * p.src + (16 / p.w) * scaleRow c j + b)

/-- Reduction length of an active row (R91, R113). -/
def redLen (p : PassP) : Nat := if p.cstream then p.na else p.ka * p.fmt.p

/-- Slots that streamed row `j` waits for (R78, R137). -/
def streamSlots (p : PassP) (c : ScaleP) (j : Nat) : List Nat :=
  slotsOf (streamRow p j).1 (streamRow p j).2
  ++ (if c.sDir == 0 then []
      else (List.range ((redLen p - 1) / c.sBlock + 1)).map (fun b => streamScaleAt p c j b / 4096))

/-- Streamed element κ of row `j`: in column-stream mode the element of column κ at byte 2κ, which is the lowest one there in
a narrow format (R103, R111, R122). -/
def streamElem (m : Mem) (p : PassP) (j kappa : Nat) : Nat :=
  if p.cstream then bitsOf (m.rdLE ((streamRow p j).1 + 2 * kappa) 2) 0 p.fmt.width
  else elemBits m (streamRow p j).1 p.fmt kappa

/-- Row of W that column-stream output `n` takes from PE row `n` (R111): of the elements that a stationary register holds in
a narrow format, one that the spec does not name (log 7). -/
def outRow (p : PassP) (n : Nat) : Nat := n * p.fmt.p + Config.columnSub p.fmtCode % p.fmt.p

/-- The stationary element that meets streamed element κ for output `n`: W[κ][n], or in column-stream mode W[n][κ]
(R68, R111). -/
def statFor (b : Bank) (p : PassP) (kappa n : Nat) : Nat :=
  if p.cstream then statElem b p (outRow p n) kappa else statElem b p kappa n

/-- The combined scale of reduction index κ for row `j` and output `n` (R138, R139). -/
def combinedScale (m : Mem) (b : Bank) (p : PassP) (c : ScaleP) (j kappa n : Nat) : Val :=
  let s := if c.sDir == 0 then .fin false (.ofInt 1)
    else ((scaleVal c.sE4m3 (m.rd (streamScaleAt p c j (kappa / c.sBlock)))).1).mul (.fin false (.pow2 c.sExp))
  let k := if p.cstream then outRow p n else kappa
  let col := if p.cstream then kappa else n
  let col := if c.wDir == 2 then col / c.wBlock * c.wBlock else col
  if c.wDir == 0 then s
  else (s.mul (scaleVal c.wE4m3 (b.scales.rd (128 * p.w * (k / c.wBlock) + col))).1).mul (.fin false (.pow2 c.wExp))

/-- The product of reduction index κ (R125, R126). -/
def passTerm (m : Mem) (b : Bank) (p : PassP) (j kappa n : Nat) : Val :=
  ((readElem p.fmt p.sgnS (streamElem m p j kappa)).1).mul (readElem p.fmt p.sgnW (statFor b p kappa n)).1

/-- Reduction elements of a station group (R139). -/
def groupLen (p : PassP) : Nat := if p.cstream then 8 else 8 * p.fmt.p

/-- The smaller of two group sizes, where 0 stands for none. -/
def minGrp (a b : Nat) : Nat := if a = 0 then b else if b = 0 then a else min a b

/-- The record of one output element after its station groups (R139, R145). -/
def passGhost (m : Mem) (b : Bank) (p : PassP) (c : ScaleP) (j n : Nat) (g : Ghost) : Ghost :=
  let len := groupLen p
  let g := (List.range (ceilDiv (redLen p) len)).foldl (fun g i =>
    let ks := (List.range (min len (redLen p - len * i))).map (· + len * i)
    g.group p.fmt.isInt (if c.any then combinedScale m b p c j (len * i) n else .fin false (.ofInt 1))
      (ks.map (fun k => passTerm m b p j k n))) g
  { g with
    grp := if (c.sDir != 0 && c.sE4m3) || (c.wDir != 0 && c.wE4m3) then minGrp g.grp len else g.grp
    tiny := g.tiny || c.any || p.fmt == .bf16 }

/-- Exact integer sum of one output element (R127). -/
def passInt (m : Mem) (b : Bank) (p : PassP) (j n : Nat) : Int :=
  let int := fun (sgn : Bool) (x : Nat) => if sgn then signedOf x p.fmt.width else (x : Int)
  (List.range (redLen p)).foldl (fun acc k => acc + int p.sgnS (streamElem m p j k) * int p.sgnW (statFor b p k n)) 0

/-- Whether a pass writes rows of the integer class (R127, R141). -/
def passIsInt (p : PassP) (c : ScaleP) : Bool := p.fmt.isInt && !c.any

/-- The record that an accumulated element starts from (R72, R145). -/
def AccRow.ghostAt (r : AccRow) (col : Nat) : Ghost :=
  match Tab.get none r.ghost col with
  | some g => g
  | none => Ghost.ofBits (Tab.get 0 r.bits col)

/-- Whether FP32 bits are finite. -/
def fp32Finite (w : Word) : Bool :=
  match fp32Val w with
  | .fin _ _ => true
  | _ => false

/-- Put one element into an accumulator row: `n` is the output index, `col` its column; `add` says whether the old
value takes part (R72). A result that has left the FP32 range is what later passes add to (R126). -/
def accCell (fv : Nat → Word) (m : Mem) (b : Bank) (p : PassP) (c : ScaleP) (j : Nat) (add : Bool) (old : AccRow)
    (r : AccRow) (n : Nat) : AccRow :=
  let col := n % 128
  if passIsInt p c then
    let prev : Int := if add then (Tab.get 0 old.bits col).toInt else 0
    { r with bits := Tab.set 0 r.bits col (BitVec.ofInt 32 (prev + passInt m b p j n)), ghost := Tab.set none r.ghost col none }
  else
    let g := passGhost m b p c j n (if add then old.ghostAt col else Ghost.init)
    let v := g.result (fv n)
    { r with bits := Tab.set 0 r.bits col v, ghost := Tab.set none r.ghost col (if fp32Finite v then some g else none) }

/-- The accumulator row of slice `sl` after result row `j` (R71, R72, R104). -/
def accRowNew (fv : Nat → Word) (m : Mem) (b : Bank) (p : PassP) (c : ScaleP) (j sl : Nat) (old : Option AccRow) :
    Option AccRow :=
  let cols := (List.range 128).map (· + 128 * sl) |>.filter (fun n => decide (n < p.nOut))
  if cols.isEmpty then old
  else
    let isInt := passIsInt p c
    let prev := old.getD { isInt := isInt, bits := [], ghost := [] }
    let add := p.accAdd && old.isSome && prev.isInt == isInt
    some (cols.foldl (accCell fv m b p c j add prev) { prev with isInt := isInt })

/-- Accumulator rows of result row `j` (R71). -/
def accRowsOf (p : PassP) (j : Nat) : List Nat := (List.range p.w).map (fun sl => p.accBase + p.w * j + sl)

/-- Whether a command clears an accumulator row when it takes effect (R80). -/
def clears (e : QEntry) (r : Nat) : Bool :=
  let w := wordAt e.words 0
  e.code == 0x02 && decide (fld w 0 11 ≤ r) && decide (r ≤ fld w 0 11 + fld w 12 11)

/-- Whether a command's Bell still has to read an accumulator row (R73). -/
def readPending (e : QEntry) (r : Nat) : Bool :=
  match e.code with
  | 0x01 =>
    let p := passP e.words
    p.bell && decide (p.accBase + p.w * e.bellRows ≤ r) && decide (r < p.accBase + p.w * p.m)
  | 0x12 =>
    let b := bellStoreP e.words
    decide (b.first + b.w * e.bellRows ≤ r) && decide (r < b.first + b.w * b.rows)
  | _ => false

/-- Whether an earlier command still has to read or clear an accumulator row (R73, R80). -/
def rowPending (e : QEntry) (r : Nat) : Bool := readPending e r || clears e r

/-- Whether an earlier command still has to write or clear an accumulator row (R80, R169). -/
def writePending (e : QEntry) (r : Nat) : Bool :=
  let p := passP e.words
  (e.code == cPASS && decide (p.accBase + p.w * e.strRows ≤ r) && decide (r < p.accBase + p.w * p.m)) || clears e r

/-- Of the commands ahead, those behind the last clear of an accumulator row: what comes before it, the clear waits for
(R80). -/
def sinceClear (ahead : List QEntry) (r : Nat) : List QEntry :=
  ahead.foldl (fun l e => if clears e r then [] else l ++ [e]) []

/-- Identity of the last clear of an accumulator row among the commands ahead. -/
def lastClear (ahead : List QEntry) (r : Nat) : Option Nat :=
  ((ahead.filter (fun e => clears e r)).getLast?).map (·.uid)

/-- An accumulator row as a command behind `ahead` finds it: a clear still to take effect has taken effect for it (R80). -/
def Arr.rowAt (a : Arr) (ahead : List QEntry) (r : Nat) : Option AccRow :=
  match lastClear ahead r with
  | some u => Tab.get none (Tab.get [] a.later u) r
  | none => Tab.get none a.acc r

/-- Write an accumulator row for a command behind `ahead`: behind a clear of it the write waits for the clear (R80). -/
def Arr.putRow (a : Arr) (ahead : List QEntry) (r : Nat) (x : Option AccRow) : Arr :=
  match lastClear ahead r with
  | some u => { a with later := Tab.mod [] a.later u (fun t => Tab.set none t r x) }
  | none => { a with acc := Tab.set none a.acc r x }

/-- The pass whose next streamed row is due: its load is complete, every earlier pass has entered its rows, every
earlier command has started (R51, R52, R88 (c), (d)); a clear of the accumulator ahead of it does not hold it (R80). -/
def streamCandidate (a : Arr) : Option Nat :=
  firstWhere (fun e => streaming e && e.taken && e.loadRows == loadTarget e)
    (fun e => (e.code == cPASS && !streaming e) || (e.code != cPASS && e.begun)) a.q 0

/-! ### Feeder queues (R84 to R86) -/

/-- Rows of a pass that stand in the feeder queues. -/
def Arr.fed (a : Arr) (e : QEntry) : Nat := (a.feed.filter (fun r => r.uid == e.uid)).length

/-- The row that the feeders read next: in row order, and on from a pass to the next one in the queue; a pass that still
waits for its token is not read (R52, R85). -/
def feedNext (a : Arr) : Option (Nat × QEntry × Nat) :=
  match firstWhere (fun e => streaming e && e.taken && decide (e.strRows + a.fed e < (passP e.words).m)) QEntry.taken a.q 0 with
  | some i => (entryAt a.q i).map (fun e => (i, e, e.strRows + a.fed e))
  | none => none

/-- The bytes of a streamed row and of its scale entries, at their addresses (R77, R136, R137). -/
def feedBytes (m : Mem) (p : PassP) (c : ScaleP) (j : Nat) : Mem :=
  let x := streamRow p j
  let row := Mem.wrBytes [] x.1 (m.rdBytes x.1 x.2)
  if c.sDir == 0 then row
  else (List.range ((redLen p - 1) / c.sBlock + 1)).foldl (fun r b =>
    let a := streamScaleAt p c j b
    r.wrBytes a [m.rd a]) row

/-- The feeders read rows while an entry is free and the slots of the next row may be read (R78, R84, R85). -/
def feedRows (sp : Spad) : Nat → Arr → Arr
  | 0, a => a
  | n + 1, a =>
    if 32 ≤ a.feed.length then a
    else
      match feedNext a with
      | none => a
      | some (i, e, j) =>
        let p := passP e.words
        let c := scaleP e.scale
        if mayRead sp (a.q.take i) (streamSlots p c j) then
          feedRows sp n { a with feed := a.feed ++ [{ uid := e.uid, row := j, mem := feedBytes sp.mem p c j }] }
        else a

/-- The feeder queues of an array after the feeders have read what they can. They read whenever a command moves the array
(DESIGN CHOICE: R85 reads as soon as entries are free, and cycles between commands are not modelled; log 49). -/
def Arr.refill (a : Arr) (sp : Spad) : Arr := feedRows sp 32 a

/-- Whether a streamed row is complete at the head of the feeder queues (R84). -/
def Arr.headRow (a : Arr) (e : QEntry) : Option Mem :=
  match a.feed with
  | r :: _ => if r.uid == e.uid && r.row == e.strRows then some r.mem else none
  | [] => none

/-! ### Stores that begin (R155, R171) -/

/-- What a queued entry stores through its array's Bell: elements per row and rows (R155). -/
def storeShape (e : QEntry) : Option (Nat × Nat) :=
  match e.code with
  | 0x01 => let p := passP e.words; if p.bell then some (p.nOut, p.m) else none
  | 0x12 => let b := bellStoreP e.words; some (b.nOut, b.rows)
  | _ => none

/-- The store of the entry at an index begins, if it has one and it has not. -/
def Arr.beginStore (a : Arr) (i : Nat) : Arr :=
  match entryAt a.q i with
  | none => a
  | some e =>
    match storeShape e with
    | some (n, m) =>
      if e.store.isSome then a
      else
        let x := a.bell.accept n m
        { a with bell := x.1, q := modAt (fun e => { e with store := some x.2 }) a.q i }
    | none => a

/-- The pass at an index starts: its store begins, and so do those of the passes ahead of it, in queue order (R155). -/
def Arr.startPass (a : Arr) (i : Nat) : Arr := (List.range (i + 1)).foldl Arr.beginStore a

/-- The Bell accepts the `BELL_STORE`s whose turn it is: every command ahead has started, the token is taken, and fewer than
four stores are accepted and not complete (R155, R169, R171). -/
def acceptDue (ma : Bool) (q : Tile) : Tile :=
  (List.range ((q.arr ma).q.length)).foldl (fun q i =>
    let a := q.arr ma
    match entryAt a.q i with
    | some e =>
      if e.code == 0x12 && e.store.isNone && e.taken && (a.q.take i).all QEntry.begun && mayStart q ma e
          && decide (acceptedStores a.q < 4) then q.onArr ma (fun a => a.beginStore i)
      else q
    | none => q) q

/-! ### The steps of an array (R68, R81, R82, R85, R86, R88) -/

/-- Whether the entry at an index, whose streamed row `j` is due, waits for something other than its row: for the other array's
channel, a fifth store or an earlier Bell read (R73, R109, R171). Such a wait is no hold. -/
def streamWaits (ma : Bool) (q : Tile) (i : Nat) (e : QEntry) : Bool :=
  let a := q.arr ma
  let p := passP e.words
  (!e.begun && !mayStart q ma e) || (e.strRows == 0 && p.bell && decide (4 ≤ acceptedStores a.q))
    || (accRowsOf p e.strRows).any (fun r => (sinceClear (a.q.take i) r).any (fun x => readPending x r))

/-- Whether the array holds because a streamed row is due and not complete in the feeder queues (R86). -/
def feederHold (ma : Bool) (q : Tile) : Bool :=
  let a := q.arr ma
  match streamCandidate a with
  | none => false
  | some i =>
    match entryAt a.q i with
    | none => false
    | some e => !streamWaits ma q i e && (a.headRow e).isNone

/-- What comes before every step of an array: stores begin and the feeders read. -/
def arrReady (ma : Bool) (q : Tile) : Tile := (acceptDue ma q).onArr ma (fun a => a.refill q.spad)

/-- One stationary load row enters (R82, R88), unless the array holds (R86). -/
def loadStep (ma : Bool) (q : Tile) : Tile :=
  let q := arrReady ma q
  let a := q.arr ma
  match loadDue a with
  | none => q
  | some (i, e, b) =>
    let p := passP e.words
    let c := scaleP e.scale
    if (!e.begun && !mayStart q ma e) || (p.mode == 3 && !a.channel) || feederHold ma q then q
    else if !mayRead q.spad (a.q.take i) (loadSlots p c e.loadRows) then
      q.onEntry (arrEng ma) i (fun x => { x with waiting := true })
    else
      let bk := loadRow (a.bank b) q.spad.mem p c e.loadRows
      ((q.onArr ma (fun a => (a.onBank b (fun _ => bk)).startPass i)).onEntry (arrEng ma) i
        (fun x => { x with loadRows := x.loadRows + 1, bank := some b, waiting := false })).addCounts
          0 (loadFlushes bk p c e.loadRows) 0

/-- Streamed elements and streamed scale entries flushed in row `j`; the entry of a tile counts with the tile's first row
(R125; log 49). -/
def streamFlushes (m : Mem) (p : PassP) (c : ScaleP) (j : Nat) : Nat :=
  ((List.range (redLen p)).filter (fun k => isSubnormal p.fmt (streamElem m p j k))).length
  + (if c.sDir != 0 && c.sE4m3 && (c.sDir == 1 || j % c.sBlock == 0) then
      ((List.range ((redLen p - 1) / c.sBlock + 1)).filter
        (fun b => (scaleVal true (m.rd (streamScaleAt p c j b))).2)).length
    else 0)

/-- The accumulator after result row `j` of the pass at an index, whose row has the bytes `m` (R71, R72, R80). -/
def Arr.accumulate (a : Arr) (fv : Nat → Word) (m : Mem) (i : Nat) (p : PassP) (c : ScaleP) (j : Nat) (b : Bool) : Arr :=
  (List.range p.w).foldl (fun x sl =>
    let r := p.accBase + p.w * j + sl
    x.putRow (a.q.take i) r (accRowNew fv m (a.bank b) p c j sl (x.rowAt (a.q.take i) r))) a

/-- One streamed row enters and its result is accumulated (R68, R81, R85). -/
def streamStep (fv : Nat → Word) (ma : Bool) (q : Tile) : Tile :=
  let q := arrReady ma q
  let a := q.arr ma
  match streamCandidate a with
  | none => q
  | some i =>
    match entryAt a.q i with
    | none => q
    | some e =>
      let p := passP e.words
      let c := scaleP e.scale
      let j := e.strRows
      let b := bankAfter (prevBank a i) e
      if streamWaits ma q i e then q
      else
        match a.headRow e with
        | none => q.onEntry (arrEng ma) i (fun x => { x with waiting := true })
        | some m =>
          let a := (a.startPass i).accumulate fv m i p c j b
          let a : Arr := { a with
            sel := b, feed := a.feed.drop 1
            cnt := Tab.mod 0 (Tab.mod 0 a.cnt 1 (· + 1)) 2 (· + p.ka * p.na)
            q := modAt (fun x => { x with strRows := j + 1, bank := some b, waiting := false }) a.q i }
          (q.onArr ma (fun _ => (a.refill q.spad).relChannel)).addCounts 0 (streamFlushes m p c j) 0

/-! ### Bell stores of an array (R155, R157, R169, R170) -/

/-- The Bell store of an array whose next row is due, in command order (R170). -/
def bellCandidate (l : List QEntry) : Option Nat :=
  firstWhere (fun e => e.store.isSome && (match storeShape e with
      | some (_, m) => decide (e.bellRows < m)
      | none => false))
    (fun e => e.begun && (storeShape e).isSome == e.store.isSome) l 0

/-- Source value of element `n` of a result row whose accumulator rows start at `r0` (R150, R158). -/
def accSource (a : Arr) (r0 n : Nat) : Val × Bool :=
  match Tab.get none a.acc (r0 + n / 128) with
  | some row => prepareAcc row.isInt (Tab.get 0 row.bits (n % 128))
  | none => (.pzero, false)

/-- Where the Bell reads the next row of an array's store: first accumulator row, rows per result row, rows and elements of
the store, and whether it clears what it reads (R71, R168). -/
def storeSource (e : QEntry) : Nat × Nat × Nat × Nat × Bool :=
  if e.code == cPASS then
    let p := passP e.words
    (p.accBase + p.w * e.bellRows, p.w, p.m, p.nOut, false)
  else
    let b := bellStoreP e.words
    (b.first + b.w * e.bellRows, b.w, b.rows, b.nOut, b.clr)

/-- The Bell of an array reads one result row and writes it (R150, R164, R169, R170): a row of a pass once it is in the
accumulator, which one that waits for an `ACC_CLEAR` is not (R80). -/
def bellStep (ma : Bool) (q : Tile) : Tile :=
  let q := acceptDue ma q
  let a := q.arr ma
  match bellCandidate a.q with
  | none => q
  | some i =>
    match entryAt a.q i with
    | none => q
    | some e =>
      match e.store with
      | none => q
      | some st =>
        let j := e.bellRows
        let (r0, w, m, n, clr) := storeSource e
        let set := a.bell.setOf st.1
        let p := bellP set.words
        let rows := (List.range w).map (· + r0)
        let ahead := a.q.take i
        if !set.loaded || (e.code == cPASS && decide (e.strRows ≤ j))
            || rows.any (fun r => ahead.any (fun x => clears x r || (e.code != cPASS && writePending x r))) then q
        else if !storeWritable q p n st.2.1 j then q.onEntry (arrEng ma) i (fun x => { x with waiting := true })
        else
          let row := bellRow p set e.seed (arrEng ma) st.2.2 j 0 n (accSource a r0)
          let a' : Arr := { a with
            acc := if clr then rows.foldl (fun acc r => Tab.set none acc r none) a.acc else a.acc
            q := modAt (fun x => { x with bellRows := j + 1, waiting := false }) a.q i }
          writeStoreRow (q.onArr ma (fun _ => a')) p n st.2.1 m j row

/-- A Bell store whose rows have all been written completes (R170). -/
def bellDone (l : List QEntry) : List QEntry :=
  match firstWhere (fun e => e.store.isSome && !e.stored && (storeShape e).map (·.2) == some e.bellRows) (fun _ => true) l 0 with
  | some i => modAt (fun x => { x with stored := true }) l i
  | none => l

/-! ### Completion (R54, R78, R80, R98, R132, R155) -/

/-- Whether a settings set is needed by a store that has not finished. -/
def setUsed (l : List QEntry) (id : Nat) : Bool :=
  l.any (fun e => match e.store with
    | some st => st.1 == id && !e.stored
    | none => false)

/-- A counter block at a store of it (R98): a counter that the steps of this model do not keep, which counts core cycles or
events within one, has grown since the last store by an amount that is a free value (log 1, log 8). No counter wraps. -/
def cntGrow (fv : Nat → Word) (timed : Nat → Bool) (cnt : Tab Nat) : Tab Nat :=
  (List.range 8).foldl (fun t i =>
    if timed i then Tab.mod 0 t i (fun n => min (2 ^ 64 - 1) (n + (fv (2 * i)).toNat + (fv (2 * i + 1)).toNat * 2 ^ 32)) else t) cnt

/-- The 64 bytes of a counter block in data memory (R98). -/
def cntBlock (cnt : Tab Nat) (dmem : Mem) (a : Nat) : Mem :=
  (List.range 8).foldl (fun m i => m.wrBytes (a + 8 * i) (leBytes 8 (Tab.get 0 cnt i))) dmem

/-- Remove an entry from a list. -/
def dropAt {α : Type} : List α → Nat → List α
  | [], _ => []
  | _ :: xs, 0 => xs
  | x :: xs, i + 1 => x :: dropAt xs i

/-- Take a completed command out of its queue and increment its post token (R52, R54). -/
def Tile.retire (q : Tile) (eng i : Nat) : Tile :=
  match entryAt (q.queue eng) i with
  | none => q
  | some e =>
    let q := q.onQueue eng (fun l => dropAt l i)
    let q := if eng < 2 then q.onArr (eng == 1) Arr.relChannel else q
    match e.post with
    | some k => q.postToken e.cfg k
    | none => q

/-- A pass has entered its rows and its store, if it has one, has completed (R54). -/
def passDone (e : QEntry) : Bool :=
  e.code == cPASS && !streaming e && (!(passP e.words).bell || e.stored)

/-- Complete the pass at an index: the releases it asked for take effect (R54, R78). -/
def completePass (ma : Bool) (i : Nat) (q : Tile) : Tile :=
  match entryAt (q.arr ma).q i with
  | none => q
  | some e =>
    if !passDone e then q
    else
      let p := passP e.words
      let sp := if p.srcRel then q.spad.releaseRun p.src p.srcSlots else q.spad
      let sp := if p.statRel && !p.reuse then sp.releaseRun p.stat 8 else sp
      let q := { q with spad := sp }
      let q := q.onArr ma (fun a => { a with cnt := Tab.mod 0 a.cnt 0 (· + 1) })
      q.retire (arrEng ma) i

/-- An `ACC_CLEAR` takes effect: the rows of its range lose their valid bit, and take what later passes have written to them
(R72, R80). -/
def Arr.clear (a : Arr) (uid : Nat) (rows : List Nat) : Arr :=
  let acc := a.acc.filter (fun r => !rows.contains r.1)
  { a with
    acc := (Tab.get [] a.later uid).foldl (fun t r => Tab.set none t r.1 r.2) acc
    later := Tab.set [] a.later uid [] }

/-- Whether every command ahead has started and, where it stores, has its settings set (R155). -/
def aheadBegun (l : List QEntry) : Bool := l.all (fun e => e.begun && (storeShape e).isSome == e.store.isSome)

/-- Complete the array command at an index, where its effect is due (R54): a pass; a clear once no earlier command has
a write or Bell read of its rows to make; a counter store at the head; `SCALE` and `BELL_CFG` once every earlier
command has started; a Bell store that has completed. -/
def completeArray (fv : Nat → Word) (ma : Bool) (i : Nat) (q : Tile) : Tile :=
  let q := acceptDue ma q
  let a := q.arr ma
  match entryAt a.q i with
  | none => q
  | some e =>
    let ahead := a.q.take i
    if e.code == cPASS then completePass ma i q
    else if e.code == 0x12 then (if e.stored then q.retire (arrEng ma) i else q)
    else if !e.taken || !mayStart q ma e then q
    else
      match e.code with
      | 0x02 =>
        let w := wordAt e.words 0
        let rows := (List.range (fld w 12 11 + 1)).map (· + fld w 0 11)
        if ahead.any (fun x => rows.any (fun r => writePending x r || readPending x r)) then q
        else
          (q.onArr ma (fun a => a.clear e.uid rows)).retire (arrEng ma) i
      | 0x03 =>
        if i ≠ 0 then q
        else
          let c := cntGrow fv (fun k => decide (3 ≤ k)) a.cnt
          ((q.onArr ma (fun a => { a with cnt := c })).onSeq (fun z => { z with
            dmem := cntBlock c z.dmem (fld (wordAt e.words 0) 0 14) })).retire (arrEng ma) i
      | 0x10 => if aheadBegun ahead then q.retire (arrEng ma) i else q
      | 0x11 =>
        if aheadBegun ahead then
          match a.bell.newSet e.words (setUsed a.q) with
          | some b => (q.onArr ma (fun a => { a with bell := b })).retire (arrEng ma) i
          | none => q
        else q
      | _ => q

end Sys2Proof.Machine
end

