-- ==== Sys2Proof/Machine/VecEngine.lean ====
section
/-!
DEFINITION. The vector engine: fields and checks of its instructions at issue, lane arithmetic, reductions,
permutation, loads, accumulator reads, tile buffers and stores through the vector Bell (spec/07_vector_engine.md).
-/

namespace Sys2Proof.Machine

open Sys2Proof

/-- Operation codes (R181). -/
abbrev opVSETVL : Nat := 0x01
abbrev opVBCFG : Nat := 0x02
abbrev opVCNT : Nat := 0x03
abbrev opVWAIT : Nat := 0x04
abbrev opVPOST : Nat := 0x05
abbrev opVLD : Nat := 0x08
abbrev opVACC : Nat := 0x09
abbrev opVACCT : Nat := 0x0A
abbrev opVTR : Nat := 0x0B
abbrev opVTW : Nat := 0x0C
abbrev opVMOV : Nat := 0x0D
abbrev opVBCAST : Nat := 0x0E
abbrev opVIOTA : Nat := 0x0F
abbrev opVSTV : Nat := 0x38
abbrev opVSTT : Nat := 0x39

/-! ### Fields (R180) -/

/-- How an operation uses a register field: not at all (it must be 0), as a row register, or as a tile buffer (its
upper bit must be 0). -/
inductive FieldUse
  | none | row | tile
  deriving DecidableEq, Repr

/-- Uses of vd, va, vb and rs, and the mask of `MOD` bits used (R181). -/
structure VecUse where
  vd : FieldUse := .none
  va : FieldUse := .none
  vb : Bool := false
  rs : Bool := false
  modMask : Nat := 0
  deriving DecidableEq, Repr

/-- The uses of an operation; none for a code that is not listed (R181). -/
def vecUse : Nat → Option VecUse
  | 0x01 => some { rs := true, modMask := 0x7F }
  | 0x02 => some { rs := true, modMask := 0x07 }
  | 0x03 => some { rs := true }
  | 0x04 => some { modMask := 0x07 }
  | 0x05 => some { modMask := 0x07 }
  | 0x08 => some { vd := .row, rs := true, modMask := 0xFF }
  | 0x09 => some { vd := .row, rs := true, modMask := 0x03 }
  | 0x0A => some { vd := .tile, rs := true, modMask := 0x03 }
  | 0x0B => some { vd := .row, va := .tile, rs := true }
  | 0x0C => some { vd := .tile, va := .row, rs := true }
  | 0x0D => some { vd := .row, va := .row }
  | 0x0E => some { vd := .row, rs := true }
  | 0x0F => some { vd := .row }
  | 0x10 => some { vd := .row, va := .row, vb := true, rs := true, modMask := 0xC0 }
  | 0x11 => some { vd := .row, va := .row, vb := true, rs := true, modMask := 0xC0 }
  | 0x12 => some { vd := .row, va := .row, vb := true, rs := true, modMask := 0xC0 }
  | 0x13 => some { vd := .row, va := .row, vb := true, rs := true, modMask := 0xC0 }
  | 0x14 => some { vd := .row, va := .row, vb := true, rs := true, modMask := 0xC0 }
  | 0x15 => some { vd := .row, va := .row, vb := true, rs := true, modMask := 0xC0 }
  | 0x16 => some { vd := .row, va := .row, modMask := 0x80 }
  | 0x17 => some { vd := .row, va := .row, modMask := 0x80 }
  | 0x18 => some { vd := .row, va := .row, vb := true, rs := true, modMask := 0xC7 }
  | 0x19 => some { vd := .row, va := .row, vb := true, rs := true, modMask := 0xC0 }
  | 0x20 => some { vd := .row, va := .row }
  | 0x21 => some { vd := .row, va := .row }
  | 0x22 => some { vd := .row, va := .row }
  | 0x23 => some { vd := .row, va := .row }
  | 0x28 => some { vd := .row, va := .row, modMask := 0x80 }
  | 0x29 => some { vd := .row, va := .row, modMask := 0x80 }
  | 0x2A => some { vd := .row, va := .row, modMask := 0x80 }
  | 0x2B => some { vd := .row, va := .row, modMask := 0x80 }
  | 0x2C => some { vd := .row, va := .row, modMask := 0x80 }
  | 0x30 => some { vd := .row, va := .row, vb := true }
  | 0x38 => some { va := .row, modMask := 0x87 }
  | 0x39 => some { va := .tile, rs := true, modMask := 0x87 }
  | _ => none

/-- Whether an operation is two-operand arithmetic, comparison or selection, where `MOD`[6] is S (R180). -/
def hasS (vop : Nat) : Bool := (0x10 ≤ vop && vop ≤ 0x15) || vop == 0x18 || vop == 0x19

/-- The packed-mode bit P, `MOD`[7] (R176, R180). -/
def vP (v : VecArgs) : Bool := v.modv.getLsbD 7
/-- The scalar-operand bit S, `MOD`[6] (R180). -/
def vS (v : VecArgs) : Bool := v.modv.getLsbD 6

/-- Whether a field use leaves the reserved bits 0. -/
def fieldOk (u : FieldUse) (x : BitVec 3) : Bool :=
  match u with
  | .none => x == 0
  | .row => true
  | .tile => !x.getLsbD 2

/-- Whether every field the operation does not use is 0 (R180). With S = 1 the second operand is rs and vb must be 0;
with S = 0 rs is not used. -/
def vecFieldsOk (vop : Nat) (v : VecArgs) : Bool :=
  match vecUse vop with
  | none => false
  | some u =>
    let s := hasS vop && vS v
    fieldOk u.vd v.vd && fieldOk u.va v.va
    && ((u.vb && !s) || v.vb == 0)
    && ((u.rs && (!hasS vop || s)) || v.rs == 0)
    && (v.modv.toNat &&& (255 - u.modMask)) == 0
    && (vop != 0x18 || decide (fld (v.modv.zeroExtend 32) 0 3 ≤ 5))
    && (vop != opVBCFG || decide (v.modv.toNat ≤ 5))
    && (vop != opVSETVL || v.rs == 0 || v.modv == 0)
    && (!(vop == opVSTV || vop == opVSTT) || !(vP v && fld (v.modv.zeroExtend 32) 0 3 == 7))

/-- The scalar operands an instruction captures as it leaves the sequencer (R48, R180). -/
def vecWords (q : Tile) (vop : Nat) (v : VecArgs) : List Word :=
  if vop == opVBCFG then
    (List.range (v.modv.toNat + 1)).map (fun i => q.reg (BitVec.ofNat 5 (v.rs.toNat + i)))
  else [q.reg v.rs]

/-- Bits [27:0] of the word of a `VEC` instruction (R180). -/
def vecEnc (vop : Nat) (v : VecArgs) : Word :=
  BitVec.ofNat 32 (vop * 2 ^ 22 + v.vd.toNat * 2 ^ 19 + v.va.toNat * 2 ^ 16 + v.vb.toNat * 2 ^ 13
    + v.rs.toNat * 2 ^ 8 + v.modv.toNat)

/-- The fields back from an encoding. -/
def vecArgs (enc : Word) : VecArgs :=
  { vd := BitVec.ofNat 3 (fld enc 19 3), va := BitVec.ofNat 3 (fld enc 16 3), vb := BitVec.ofNat 3 (fld enc 13 3)
    rs := BitVec.ofNat 5 (fld enc 8 5), modv := BitVec.ofNat 8 (fld enc 0 8) }

/-- Format of a `VLD` (R185). -/
def vldFmt (v : VecArgs) : Option Fmt := Fmt.ofCode (fld (v.modv.zeroExtend 32) 0 5)
/-- Bytes that a `VLD` reads at vector length `vl` (R185). -/
def vldBytes (f : Fmt) (pk : Bool) (vl : Nat) : Nat := ceilDiv ((if pk then 2 * vl else vl) * f.width) 8

/-- Elements of a store row (R192). -/
def vElems (pk : Bool) (vl : Nat) : Nat := if pk then 2 * vl else vl

/-- The checks on scalar operands and settings made as the instruction leaves the sequencer (R178, R180, R181, R185,
R193), and the issue-side records it leaves. Two points are the model's choice (DESIGN CHOICE, log 49): `MOD`[5] of a `VLD` in a
floating format is accepted and has no effect, and the address of a `VCNT` faults with the causes of R98, which R198 names,
where R180 makes every other operand fault `ILLEGAL`. -/
def issueVec (q : Tile) (e : QEntry) : Except Nat (Tile × QEntry) :=
  let v := vecArgs e.enc
  let w := wordAt e.words 0
  let vl := q.vec.issVl
  let e := { e with vl := vl }
  let p := vP v
  if !vecFieldsOk e.code v then .error causeIllegal
  else
    match e.code with
    | 0x01 =>
      let n := if v.rs == 0 then fld (v.modv.zeroExtend 32) 0 7 + 1 else w.toNat
      if n = 0 ∨ 128 < n then .error causeIllegal
      else .ok ({ q with vec := { q.vec with issVl := n } }, { e with vl := n })
    | 0x02 =>
      if 32 < v.rs.toNat + (v.modv.toNat + 1) || !bellCfgOk e.words then .error causeIllegal
      else .ok ({ q with vec := { q.vec with bell := { q.vec.bell with
          issWords := bellMerge q.vec.bell.issWords e.words, issAdv := none } } }, e)
    | 0x03 =>
      match cntFault w with
      | some c => .error c
      | none => .ok (q, e)
    | 0x08 =>
      match vldFmt v with
      | none => .error causeIllegal
      | some f =>
        let okP := !p || f == .bf16 || f == .e4m3 || f == .e5m2 || f == .e2m1
        if !okP || fld w 24 8 != 0 || fld w 0 5 != 0
            || decide (4096 < fld w 0 12 + vldBytes f p vl) then .error causeIllegal
        else .ok (q, e)
    | 0x09 => if fld w 11 21 != 0 then .error causeIllegal else .ok (q, e)
    | 0x0A =>
      if fld w 25 7 != 0 || decide (2048 < fld w 0 11 + fld w 11 7 + 1) || decide (128 < fld w 18 7 + fld w 11 7 + 1)
      then .error causeIllegal else .ok (q, e)
    | 0x0B => if fld w 7 25 != 0 then .error causeIllegal else .ok (q, e)
    | 0x0C => if fld w 7 25 != 0 then .error causeIllegal else .ok (q, e)
    | 0x38 =>
      if !storeFits (bellP q.vec.bell.issWords) (vElems p vl) 1 q.vec.bell.issAdv then .error causeIllegal
      else .ok ({ q with vec := { q.vec with bell := q.vec.bell.issueStore (vElems p vl) 1 } }, e)
    | 0x39 =>
      if fld w 14 18 != 0 || decide (128 < fld w 0 7 + fld w 7 7 + 1)
          || !storeFits (bellP q.vec.bell.issWords) (vElems p vl) (fld w 7 7 + 1) q.vec.bell.issAdv then
        .error causeIllegal
      else .ok ({ q with vec := { q.vec with bell := q.vec.bell.issueStore (vElems p vl) (fld w 7 7 + 1) } }, e)
    | _ =>
      if hasS e.code && vS v && p && fld w 16 16 != 0 then .error causeIllegal else .ok (q, e)

/-! ### Lanes -/

/-- A row register. -/
def Vec.row (x : Vec) (r : BitVec 3) : Tab Word := Tab.get [] x.v r.toNat
/-- Write a row register. -/
def Vec.setRow (x : Vec) (r : BitVec 3) (t : Tab Word) : Vec := { x with v := Tab.set [] x.v r.toNat t }
/-- A lane of a row. -/
def laneOf (t : Tab Word) (i : Nat) : Word := Tab.get 0 t i
/-- A row made of 128 lanes. -/
def rowOf (f : Nat → Word) : Tab Word := (List.range 128).foldl (fun t i => Tab.set 0 t i (f i)) []
/-- Replace the active lanes of a row (R179). -/
def setActive (old : Tab Word) (vl : Nat) (f : Nat → Word) : Tab Word :=
  rowOf (fun i => if i < vl then f i else laneOf old i)

/-- Half `h` of a packed lane (R176). -/
def halfOf (w : Word) (h : Nat) : Nat := fld w (16 * h) 16
/-- A packed lane of two halves. -/
def packHalves (a b : Nat) : Word := BitVec.ofNat 32 (a % 2 ^ 16 + b % 2 ^ 16 * 2 ^ 16)
/-- The value of a packed element, a subnormal as zero of its sign (R184). -/
def bf16Read (b : Nat) : Val := (readElem .bf16 false b).1

/-- Apply a function of three lane values that answers FP32 bits: on FP32 lanes directly, on packed lanes to each
element with a second rounding to BF16 (R183). `h` numbers the element within the lane. -/
def laneApply (pk : Bool) (f : Nat → Val → Val → Val → Word) (d a b : Word) : Word :=
  if pk then
    let g := fun h => bf16Flush (fp32Val (f h (bf16Read (halfOf d h)) (bf16Read (halfOf a h)) (bf16Read (halfOf b h))))
    packHalves (g 0) (g 1)
  else f 0 (fp32Read d).1 (fp32Read a).1 (fp32Read b).1

/-- The order of `VMAX`: −0 lies below +0 (R184). -/
def ordLt (a b : Val) : Bool := a.lt b || (a.isZero && b.isZero && a.isNeg && !b.isNeg)

/-- Maximum with the NaN rule of R184. -/
def vmaxVal (a b : Val) : Val := if a == .nan || b == .nan then .nan else if ordLt a b then b else a
/-- Minimum with the NaN rule of R184. -/
def vminVal (a b : Val) : Val := if a == .nan || b == .nan then .nan else if ordLt b a then b else a

/-- Equality of values as numbers. -/
def valEq (a b : Val) : Bool :=
  match a, b with
  | .nan, _ => false
  | _, .nan => false
  | .inf x, .inf y => x == y
  | .fin _ _, .fin _ _ => (a.num).eqv b.num
  | _, _ => false

/-- The conditions of `VCMP` (R181, R184). -/
def vcmpHolds (cond : Nat) (a b : Val) : Bool :=
  if a == .nan || b == .nan then cond == 1
  else
    match cond with
    | 0 => valEq a b
    | 1 => !valEq a b
    | 2 => a.lt b
    | 3 => a.lt b || valEq a b
    | 4 => b.lt a
    | _ => b.lt a || valEq a b

/-- The result of a lane operation in FP32 mode: `d` is the old vd lane, `c` a free value (R181, R183, R184, R147). -/
def vecFn (vop cond : Nat) (c : Word) (d a b : Val) : Word :=
  match vop with
  | 0x10 => fp32Flush (a.add b)
  | 0x11 => fp32Flush (a.add b.negate)
  | 0x12 => fp32Flush (a.mul b)
  | 0x13 => fp32Flush ((a.mul b).add d)
  | 0x14 => fp32Keep (vmaxVal a b)
  | 0x15 => fp32Keep (vminVal a b)
  | 0x18 => if vcmpHolds cond a b then 0x3F800000 else 0
  | 0x19 => fp32Keep (if d.isZero then b else a)
  | 0x28 => vExp2 c a
  | 0x29 => vLog2 c a
  | 0x2A => vRcp c a
  | 0x2B => vRsqrt c a
  | 0x2C => vTanh c a
  | _ => 0

/-! ### Reductions (R189) -/

/-- Combine neighbours of a list. -/
def pairUp {α : Type} (f : α → α → α) : List α → List α
  | a :: b :: l => f a b :: pairUp f l
  | l => l

/-- The root of a binary tree over 128 leaves. -/
def treeRoot {α : Type} (f : α → α → α) (leaves : List α) : List α :=
  pairUp f (pairUp f (pairUp f (pairUp f (pairUp f (pairUp f (pairUp f leaves))))))

/-- Roundings on the longest path of a tree over leaves that are active or not: a sum with an inactive part is exact. -/
def joinDepth : Option Nat → Option Nat → Option Nat
  | none, x => x
  | x, none => x
  | some a, some b => some (max a b + 1)

/-- Whether an order of the lanes at the leaves of the adder tree of `VRSUM` meets R189: every lane stands at one leaf, and
for no VL a path of the tree rounds more than ⌈log2 VL⌉ times. -/
def leavesOk (ls : List Nat) : Bool :=
  (List.range 128).all (fun i => (ls.filter (· == i)).length == 1)
  && (List.range 128).all (fun v => (treeRoot joinDepth (ls.map (fun i => if i ≤ v then some 0 else none))).all (fun d =>
      decide (d.getD 0 ≤ if v = 0 then 0 else Nat.log2 v + 1)))

/-- The lanes at the leaves of the adder tree of `VRSUM`: an order that the spec leaves open, the same at every VL and on every
core (R189; log 2). -/
def treeLeaves : List Nat :=
  let ls := (List.range 128).map Config.treeLeaf
  if leavesOk ls then ls else List.range 128

/-- Sum reduction over the fixed tree: inactive leaves are +0, each add rounds with `RNE`, and a result below the smallest normal
magnitude is written as zero (R184, R189). -/
def vrsum (lanes : List Word) : Word :=
  let leaf := fun i => match lanes[i]? with
    | some w => (fp32Read w).1
    | none => .pzero
  fp32Flush ((treeRoot (fun a b => fp32Val (fp32Keep (a.add b))) (treeLeaves.map leaf)).headD .pzero)

/-- Index of the first lane that no lane exceeds; a NaN ranks above every number (R189). −0 ranks below +0 here, as it does for
`VMAX` (DESIGN CHOICE: R189 says only that the value equals the maximum; log 49). -/
def vramax (lanes : List Word) : Nat :=
  let vs := lanes.map (fun w => (fp32Read w).1)
  match vs.findIdx? (· == .nan) with
  | some i => i
  | none =>
    let m := vs.foldl (fun a b => if ordLt a b then b else a) (.inf true)
    (vs.findIdx? (fun v => !ordLt v m)).getD 0

/-- The reductions (R189). -/
def vecReduce (vop : Nat) (lanes : List Word) : Word :=
  let vs := lanes.map (fun w => (fp32Read w).1)
  match vop with
  | 0x20 => vrsum lanes
  | 0x21 => fp32Keep (vs.foldl vmaxVal (.inf true))
  | 0x22 => fp32Keep (vs.foldl vminVal (.inf false))
  | _ => fp32Keep (.fin false (.ofInt (vramax lanes)))

/-! ### Permutation (R190) -/

/-- The lane an index value names: ⌊x⌋ when x ≥ 0; none for a negative or NaN index or one at or beyond VL. -/
def permIndex (vl : Nat) (w : Word) : Option Nat :=
  match (fp32Read w).1 with
  | .fin n q =>
    if n && !q.isZero then none
    else
      let i := roundUnits .rtz q 0
      if i < vl then some i else none
  | _ => none

/-! ### Memory and accumulator sources -/

/-- The lane that `VLD` writes (R185). A NaN source gives the canonical NaN of the lane format, whatever its payload (DESIGN
CHOICE: R185 says only that the element is converted exactly; log 49). -/
def vldLane (m : Mem) (a : Nat) (f : Fmt) (sgn pk : Bool) (i : Nat) : Word :=
  let rd := fun k => (readElem f sgn (elemBits m a f k)).1
  if pk then packHalves (bf16Flush (rd (2 * i))) (bf16Flush (rd (2 * i + 1))) else fp32Keep (rd i)

/-- Elements that a `VLD` flushes (R185). -/
def vldFlushes (m : Mem) (a : Nat) (f : Fmt) (n : Nat) : Nat :=
  ((List.range n).filter (fun k => isSubnormal f (elemBits m a f k))).length

/-- One accumulator row as the vector engine reads it, and the lanes flushed (R187). -/
def accRead (r : Option AccRow) : Tab Word × Nat :=
  match r with
  | none => ([], 0)
  | some row =>
    let v := fun i => prepareAcc row.isInt (Tab.get 0 row.bits i)
    (rowOf (fun i => fp32Keep (v i).1), ((List.range 128).filter (fun i => (v i).2)).length)

/-- A tile-buffer row: zeros while its valid bit is clear (R177). -/
def Vec.tileRow (x : Vec) (tile r : Nat) : Tab Word := (Tab.get none x.t (128 * tile + r)).getD []

/-! ### Completion of instructions -/

/-- Whether an entry is a store through the vector Bell. -/
def isVStore (e : QEntry) : Bool := e.code == opVSTV || e.code == opVSTT

/-- Rows of a vector store (R192). -/
def vStoreRows (e : QEntry) : Nat := if e.code == opVSTT then fld (wordAt e.words 0) 7 7 + 1 else 1

/-- Whether vd of an operation names a row register that it writes. -/
def writesRow (e : QEntry) : Option (BitVec 3) :=
  match vecUse e.code with
  | some u => if u.vd == .row then some (vecArgs e.enc).vd else none
  | none => none

/-- Tile-buffer rows that an instruction writes: tile, first row, count. -/
def writesTile (e : QEntry) : Option (Nat × Nat × Nat) :=
  let w := wordAt e.words 0
  if e.code == opVTW then some ((vecArgs e.enc).vd.toNat, fld w 0 7, 1)
  else if e.code == opVACCT then some ((vecArgs e.enc).vd.toNat, fld w 18 7, fld w 11 7 + 1)
  else none

/-- Tile-buffer rows that an instruction reads or writes: tile, first row, count. -/
def touchesTile (e : QEntry) : Option (Nat × Nat × Nat) :=
  if e.code == opVTR then some ((vecArgs e.enc).va.toNat, fld (wordAt e.words 0) 0 7, 1) else writesTile e

/-- Whether an instruction must wait for an earlier store `k` that has started: it writes a row register, or reads or writes a
tile row, that the store has not yet read, or reads bytes it has not yet written (R182, R194). -/
def vHazard (q : Tile) (k e : QEntry) : Bool :=
  let unread := decide (k.bellRows < vStoreRows k)
  let regHit := k.code == opVSTV && unread && writesRow e == some (vecArgs k.enc).va
  let tileHit := k.code == opVSTT && (match touchesTile e with
    | some (tl, f, n) => tl == (vecArgs k.enc).va.toNat
        && runsMeet f n (fld (wordAt k.words 0) 0 7 + k.bellRows) (vStoreRows k - k.bellRows)
    | none => false)
  let memHit := e.code == opVLD && unread && (match k.store with
    | some st =>
      let p := bellP (q.vec.bell.setOf st.1).words
      let n := vElems (vP (vecArgs k.enc)) k.vl
      match vldFmt (vecArgs e.enc) with
      | some f => (List.range (vStoreRows k)).any (fun j => decide (k.bellRows ≤ j)
          && runsMeet (fld (wordAt e.words 0) 0 24) (vldBytes f (vP (vecArgs e.enc)) e.vl)
              (rowByte p n st.2.1 j) (rowLen p n))
      | none => false
    | none => true)
  regHit || tileHit || memHit

/-- Whether the instruction at an index may complete: it has its token, every earlier one has completed or is a store
that has started, and it waits for none of those (R182, R188, R194, R198). -/
def vecMay (q : Tile) (i : Nat) (e : QEntry) : Bool :=
  e.taken && (q.vec.q.take i).all (fun k => isVStore k && k.store.isSome && !vHazard q k e)
  && (i == 0 || !(e.code == opVPOST || e.code == opVCNT))

/-- The vector Bell accepts the stores whose turn it is: the token is taken, every instruction ahead has completed or is a store
that has begun and that this one does not wait for, and fewer than four are accepted and not complete (R182, R193). -/
def acceptVec (q : Tile) : Tile :=
  (List.range q.vec.q.length).foldl (fun q i =>
    match entryAt q.vec.q i with
    | some e =>
      if isVStore e && e.store.isNone && vecMay q i e && decide (acceptedStores q.vec.q < 4) then
        let x := q.vec.bell.accept (vElems (vP (vecArgs e.enc)) e.vl) (vStoreRows e)
        { q with vec := { q.vec with bell := x.1, q := modAt (fun e => { e with store := some x.2 }) q.vec.q i } }
      else q
    | none => q) q

/-- Change the vector engine of a tile. -/
def Tile.onVec (q : Tile) (f : Vec → Vec) : Tile := { q with vec := f q.vec }

/-- Add to a counter of the vector engine (R198). -/
def Vec.cntAdd (x : Vec) (k n : Nat) : Vec := { x with cnt := Tab.mod 0 x.cnt k (· + n) }

/-- Elements that an instruction counts in `LANE_OPS` (R198). -/
def laneOps (e : QEntry) : Nat :=
  let n := vElems (vP (vecArgs e.enc)) e.vl
  if (0x10 ≤ e.code && e.code ≤ 0x18) || (0x20 ≤ e.code && e.code ≤ 0x2C) then n else 0

/-- Core cycles of the transcendental unit (R181). -/
def transCycles (e : QEntry) : Nat :=
  if 0x28 ≤ e.code && e.code ≤ 0x2C then ceilDiv (vElems (vP (vecArgs e.enc)) e.vl) 32 else 0

/-- The row of index `i` in the active lanes. -/
def activeLanes (t : Tab Word) (vl : Nat) : List Word := (List.range vl).map (laneOf t)

/-- The effect of an instruction that works on row registers, tile rows and VL alone (R177 to R184, R189). -/
def vecRegOp (fv : Nat → Word) (e : QEntry) (x : Vec) : Vec :=
  let v := vecArgs e.enc
  let w := wordAt e.words 0
  let vl := e.vl
  let d := x.row v.vd
  let a := x.row v.va
  match e.code with
  | 0x01 => { x with vl := vl }
  | 0x0B => x.setRow v.vd (x.tileRow v.va.toNat (fld w 0 7))
  | 0x0C => { x with t := Tab.set none x.t (128 * v.vd.toNat + fld w 0 7) (some a) }
  | 0x0D => x.setRow v.vd a
  | 0x0E => x.setRow v.vd (rowOf (fun _ => w))
  | 0x0F => x.setRow v.vd (setActive d vl (fun i => fp32Keep (.fin false (.ofInt i))))
  | 0x16 => x.setRow v.vd (setActive d vl (fun i => laneOf a i &&& (if vP v then 0x7FFF7FFF else 0x7FFFFFFF)))
  | 0x17 => x.setRow v.vd (setActive d vl (fun i => laneOf a i ^^^ (if vP v then 0x80008000 else 0x80000000)))
  | 0x20 => x.setRow v.vd (setActive d vl (fun _ => vecReduce 0x20 (activeLanes a vl)))
  | 0x21 => x.setRow v.vd (setActive d vl (fun _ => vecReduce 0x21 (activeLanes a vl)))
  | 0x22 => x.setRow v.vd (setActive d vl (fun _ => vecReduce 0x22 (activeLanes a vl)))
  | 0x23 => x.setRow v.vd (setActive d vl (fun _ => vecReduce 0x23 (activeLanes a vl)))
  | _ =>
    let b := fun i => if vS v && hasS e.code then
        (if vP v then packHalves (fld w 0 16) (fld w 0 16) else w) else laneOf (x.row v.vb) i
    x.setRow v.vd (setActive d vl (fun i =>
      laneApply (vP v) (fun h => vecFn e.code (fld (v.modv.zeroExtend 32) 0 3) (fv (2 * i + h)))
        (laneOf d i) (laneOf a i) (b i)))

/-- `VPERM` (R190, R191): none is the strict-mode fault. -/
def vecPerm (e : QEntry) (x : Vec) : Option Vec :=
  let v := vecArgs e.enc
  let ix := fun i => permIndex e.vl (laneOf (x.row v.vb) i)
  let bad := ((List.range e.vl).filter (fun i => (ix i).isNone)).length
  if bitAt e.cfg 0 && bad != 0 then none
  else
    some ((x.setRow v.vd (setActive (x.row v.vd) e.vl (fun i =>
      match ix i with
      | some k => laneOf (x.row v.va) k
      | none => 0))).cntAdd 7 bad)

/-- Move `n` accumulator rows from row `r` into tile rows from `k` (R181, R187); answers the tile, the flushes. -/
def vacctRows (acc : Tab (Option AccRow)) (t : Tab (Option (Tab Word))) (r k : Nat) : Nat → Tab (Option (Tab Word)) × Nat
  | 0 => (t, 0)
  | n + 1 =>
    let x := accRead (Tab.get none acc r)
    let y := vacctRows acc (Tab.set none t k (some x.1)) (r + 1) (k + 1) n
    (y.1, x.2 + y.2)

/-- Complete the vector instruction at an index (R54, R181 to R194). -/
def completeVec (fv : Nat → Word) (i : Nat) (q : Tile) : Tile :=
  let q := acceptVec q
  match entryAt q.vec.q i with
  | none => q
  | some e =>
    let v := vecArgs e.enc
    let w := wordAt e.words 0
    let fin := fun (q : Tile) =>
      (q.onVec (fun x => ((x.cntAdd 0 1).cntAdd 1 (laneOps e)).cntAdd 2 (transCycles e))).retire 2 i
    if isVStore e then (if e.stored then fin q else q)
    else if !vecMay q i e then q
    else
      match e.code with
      | 0x02 =>
        match q.vec.bell.newSet e.words (setUsed q.vec.q) with
        | some b => fin (q.onVec (fun x => { x with bell := b }))
        | none => q
      | 0x03 =>
        let c := cntGrow fv (fun k => k == 4 || k == 5 || k == 6) q.vec.cnt
        fin ((q.onVec (fun x => { x with cnt := c })).onSeq (fun z => { z with dmem := cntBlock c z.dmem (fld w 0 14) }))
      | 0x04 => fin q
      | 0x05 => fin q
      | 0x08 =>
        let a := fld w 0 24
        match vldFmt v with
        | none => q
        | some f =>
          let n := vldBytes f (vP v) e.vl
          if !q.spad.canReadRange a n then q.onEntry 2 i (fun x => { x with waiting := true })
          else
            let q' := q.onVec (fun x => x.setRow v.vd (setActive (x.row v.vd) e.vl
              (vldLane q.spad.mem a f (v.modv.getLsbD 5) (vP v))))
            let q' := if v.modv.getLsbD 6 then { q' with spad := q'.spad.release (a / 4096) } else q'
            fin (q'.addCounts 0 (vldFlushes q.spad.mem a f (vElems (vP v) e.vl)) 0)
      | 0x09 =>
        let ma := v.modv.getLsbD 0
        let r := fld w 0 11
        let x := accRead (Tab.get none (q.arr ma).acc r)
        let q' := q.onVec (fun y => (y.setRow v.vd x.1).cntAdd 3 1)
        let q' := if v.modv.getLsbD 1 then
            q'.onArr ma (fun a => { a with acc := Tab.set none a.acc r none }) else q'
        fin (q'.addCounts 0 x.2 0)
      | 0x0A =>
        let ma := v.modv.getLsbD 0
        let r := fld w 0 11
        let n := fld w 11 7 + 1
        let x := vacctRows (q.arr ma).acc q.vec.t r (128 * v.vd.toNat + fld w 18 7) n
        let q' := q.onVec (fun y => { (y.cntAdd 3 n) with t := x.1 })
        let q' := if v.modv.getLsbD 1 then
            q'.onArr ma (fun a => { a with acc := a.acc.filter (fun e => decide (e.1 < r) || decide (r + n ≤ e.1)) })
          else q'
        fin (q'.addCounts 0 x.2 0)
      | 0x30 =>
        match vecPerm e q.vec with
        | some x => fin (q.onVec (fun _ => x))
        | none => q.progFault causePerm 0
      | _ => fin (q.onVec (vecRegOp fv e))

/-! ### The vector Bell (R174, R192 to R194) -/

/-- The value of store element `n` of a source row, and whether the prepare step flushes it (R150, R174, R192). -/
def vStoreSource (pk : Bool) (t : Tab Word) (n : Nat) : Val × Bool :=
  if pk then readElem .bf16 false (halfOf (laneOf t (n / 2)) (n % 2)) else fp32Read (laneOf t n)

/-- The vector store whose next row is due: the first that has begun with rows left, behind stores whose rows have all been
read (R170, R182). -/
def vBellCandidate (l : List QEntry) : Option Nat :=
  firstWhere (fun e => isVStore e && e.store.isSome && decide (e.bellRows < vStoreRows e))
    (fun e => isVStore e && e.store.isSome) l 0

/-- The vector Bell reads one row and writes it (R192, R194). -/
def vecBellStep (q : Tile) : Tile :=
  let q := acceptVec q
  match vBellCandidate q.vec.q with
  | none => q
  | some i =>
    match entryAt q.vec.q i with
    | none => q
    | some e =>
      match e.store with
      | none => q
      | some st =>
        let v := vecArgs e.enc
        let n := vElems (vP v) e.vl
        let m := vStoreRows e
        let j := e.bellRows
        let set := q.vec.bell.setOf st.1
        let p := bellP set.words
        if !set.loaded then q
        else if !storeWritable q p n st.2.1 j then q.onEntry 2 i (fun x => { x with waiting := true })
        else
          let src := if e.code == opVSTT then q.vec.tileRow v.va.toNat (fld (wordAt e.words 0) 0 7 + j)
            else q.vec.row v.va
          let row := bellRow p set e.seed 2 st.2.2 j (128 * fld (v.modv.zeroExtend 32) 0 3) n (vStoreSource (vP v) src)
          writeStoreRow (q.onEntry 2 i (fun x => { x with bellRows := j + 1, waiting := false })) p n st.2.1 m j row

/-- A vector store whose rows have all been written completes (R170). -/
def vBellDone (l : List QEntry) : List QEntry :=
  match firstWhere (fun e => e.store.isSome && !e.stored && e.bellRows == vStoreRows e) (fun _ => true) l 0 with
  | some i => modAt (fun x => { x with stored := true }) l i
  | none => l

end Sys2Proof.Machine
end

