-- ==== Sys2Proof/Machine/RowEngine.lean ====
section
/-!
DEFINITION. The row engine and the Reed: parameter words and the checks at issue, row statistics, forward and backward
rows, the store through the vector Bell, spills and fills (spec/08_row_engine_and_reed.md).

A command's rows run in order and commands run one after another (R51). Where R205 gives a bound, the result is a
free value within it (log 2).
-/

namespace Sys2Proof.Machine

open Sys2Proof

/-! ### Parameter words (R200) -/

/-- The fields of `ROW_FWD` and `ROW_BWD`. -/
structure RowP where
  bwd : Bool
  xSlot : Nat
  dySlot : Nat
  xRel : Bool
  dyRel : Bool
  len : Nat
  rows : Nat
  xFmt : Fmt
  first : Nat
  kind : Nat
  affine : Bool
  out : Bool
  merge : Bool
  ysrc : Bool
  rsEn : Bool
  param : Nat
  consume : Bool
  key : Nat
  apply : Bool
  rsSlot : Nat
  dyFmt : Fmt
  eps : Word
  deriving DecidableEq, Repr

/-- Read the words of a `ROW_FWD` (code 1) or `ROW_BWD` (code 2). -/
def rowP (code : Nat) (ws : List Word) : RowP :=
  let w0 := wordAt ws 0
  let w1 := wordAt ws 1
  let w2 := wordAt ws 2
  let w3 := wordAt ws 3
  { bwd := code == 2
    xSlot := fld w0 0 12, dySlot := fld w0 12 12, xRel := bitAt w0 24, dyRel := bitAt w0 25
    len := fld w1 0 16 + 1, rows := fld w1 16 11 + 1, xFmt := (Fmt.ofCode (fld w1 27 5)).getD .bf16
    first := fld w2 0 12, kind := fld w2 12 2, affine := bitAt w2 14, out := bitAt w2 15, merge := bitAt w2 16
    ysrc := bitAt w2 17, rsEn := bitAt w2 18, param := fld w2 19 12, consume := bitAt w2 31
    key := fld w3 0 15, apply := bitAt w3 15, rsSlot := fld w3 16 12
    dyFmt := (Fmt.ofCode (fld w3 28 4)).getD .bf16, eps := wordAt ws 4 }

/-- The formats of input rows (R201). -/
def rowFmtOk (code : Nat) : Bool := code == 0 || code == 1 || code == 2 || code == 3 || code == 7

/-- Row pitch in scratchpad (R202). -/
def rowPitch (f : Fmt) (len : Nat) : Nat := roundUp (ceilDiv (len * f.width) 8) 32
/-- Chunks of 128 elements of a row (R219). -/
def RowP.chunks (p : RowP) : Nat := ceilDiv p.len 128
/-- Scale bytes per row (R203). -/
def RowP.blocks (p : RowP) : Nat := ceilDiv p.len 32
/-- Whether a format's elements carry scales under `RS_EN` (R203). -/
def scaled8 (f : Fmt) : Bool := f == .e4m3 || f == .e5m2
/-- Whether the parameter region is used: γ by all but the soft-maximum, β by LayerNorm (R200, R204). -/
def RowP.useParam (p : RowP) : Bool := p.affine && p.kind != 2

/-- End byte of each region the command reads (R202, R203). -/
def RowP.regions (p : RowP) : List (Nat × Nat) :=
  [(4096 * p.xSlot, p.rows * rowPitch p.xFmt p.len)]
  ++ (if p.bwd then [(4096 * p.dySlot, p.rows * rowPitch p.dyFmt p.len)] else [])
  ++ (if p.useParam then
        (4096 * p.param, 2 * p.len) ::
          (if p.kind == 0 then [(4096 * (p.param + ceilDiv (2 * p.len) 4096), 2 * p.len)] else [])
      else [])
  ++ (if p.rsEn && p.bwd && scaled8 p.dyFmt then [(4096 * p.rsSlot, 2 * p.rows * p.blocks)]
      else if p.rsEn && scaled8 p.xFmt then [(4096 * p.rsSlot, p.rows * p.blocks)] else [])

/-- Whether ε or τ is legal for the kind (R201). -/
def epsOk (kind : Nat) (w : Word) : Bool :=
  match fp32Val w with
  | .fin n q => if kind == 2 then !n && !q.isZero else !n || q.isZero
  | _ => false

/-- Whether the words of a `ROW_FWD` or `ROW_BWD` are legal (R199 to R201). -/
def rowOk (code : Nat) (ws : List Word) : Bool :=
  let p := rowP code ws
  ws.length == 5 && fld (wordAt ws 0) 26 6 == 0
  && (p.bwd || (p.dySlot == 0 && fld (wordAt ws 3) 28 4 == 0))
  && rowFmtOk (fld (wordAt ws 1) 27 5) && rowFmtOk (fld (wordAt ws 3) 28 4)
  && decide (p.first + p.rows ≤ 4096) && p.kind != 3
  && (!p.bwd || (p.out && !p.merge && !p.apply))
  && (p.bwd || !p.ysrc)
  && (p.kind == 2 || (!p.merge && !p.ysrc))
  && !(p.merge && (p.out || p.apply))
  && (!p.apply || p.out)
  && epsOk p.kind p.eps
  && p.regions.all (fun r => decide (r.1 + r.2 ≤ 4096 * 4096))

/-- The fields of `R_SPILL` and `R_FILL` (R216): first entry, count, `INV`, first slot, `REL`. -/
structure SpillP where
  first : Nat
  n : Nat
  inv : Bool
  slot : Nat
  rel : Bool
  deriving DecidableEq, Repr

/-- Read the words of an `R_SPILL` or `R_FILL`. -/
def spillP (ws : List Word) : SpillP :=
  let w0 := wordAt ws 0
  let w1 := wordAt ws 1
  { first := fld w0 0 12, n := fld w0 12 12 + 1, inv := bitAt w0 24, slot := fld w1 0 12, rel := bitAt w1 12 }

/-- Slots of the statistics block of an image of `n` entries (R216). -/
def statSlots (n : Nat) : Nat := ceilDiv (8 * n) 4096
/-- Slots of an image of `n` entries (R216). -/
def imageSlots (n : Nat) : Nat := statSlots n + ceilDiv (2 * n) 4096

/-- Whether the words of an `R_SPILL` (code 3) or `R_FILL` (code 4) are legal (R216). -/
def spillOk (code : Nat) (ws : List Word) : Bool :=
  let p := spillP ws
  ws.length == 2 && fld (wordAt ws 0) 25 7 == 0 && fld (wordAt ws 1) 13 19 == 0
  && (code == 3 || !p.inv) && (code == 4 || !p.rel)
  && decide (p.first + p.n ≤ 4096) && decide (p.slot + imageSlots p.n ≤ 4096)

/-- The checks of a row-engine command as it leaves the sequencer (R199 to R201, R206, R210, R216, R220). -/
def issueRow (q : Tile) (e : QEntry) : Except Nat (Tile × QEntry) :=
  let ws := e.words
  let b := q.row.bell
  let ill : Except Nat (Tile × QEntry) := .error causeIllegal
  match e.code with
  | 0x01 =>
    let p := rowP 1 ws
    if !rowOk 1 ws then ill
    else if !p.out then .ok (q, e)
    else if !storeFits (bellP b.issWords) p.len p.rows b.issAdv then ill
    else .ok ({ q with row := { q.row with bell := b.issueStore p.len p.rows } }, e)
  | 0x02 =>
    let p := rowP 2 ws
    if !rowOk 2 ws || !storeFits (bellP b.issWords) p.len p.rows b.issAdv then ill
    else .ok ({ q with row := { q.row with bell := b.issueStore p.len p.rows } }, e)
  | 0x03 => if spillOk 3 ws then .ok (q, e) else ill
  | 0x04 => if spillOk 4 ws then .ok (q, e) else ill
  | 0x05 =>
    let w := wordAt ws 0
    if ws.length ≠ 1 || fld w 24 8 != 0 || decide (4096 < fld w 0 12 + fld w 12 12 + 1) then ill else .ok (q, e)
  | 0x06 =>
    let m := bellMerge b.issWords ws
    let p := bellP m
    if 6 < ws.length || ws.isEmpty || !bellCfgOk ws || p.mEn || p.nEn || p.biasEn then ill
    else .ok ({ q with row := { q.row with bell := { b with issWords := m, issAdv := none } } }, e)
  | 0x07 =>
    if ws.length ≠ 1 then ill
    else match cntFault (wordAt ws 0) with
      | some c => .error c
      | none => .ok (q, e)
  | _ => ill

/-! ### Arithmetic (R205) -/

/-- An operation's exact result rounded once to FP32 with `RNE`. -/
def rne (v : Val) : Val := fp32Val (fp32Keep v)

/-- The exact quotient with a sticky bit below 64 bits of it, so that one rounding to FP32 is right. -/
def Val.div (a b : Val) : Val :=
  match a, b with
  | .nan, _ => .nan
  | _, .nan => .nan
  | .inf _, .inf _ => .nan
  | .inf x, .fin y _ => .inf (x != y)
  | .fin x _, .inf y => .fin (x != y) .zero
  | .fin x p, .fin y q =>
    if q.isZero then (if p.isZero then .nan else .inf (x != y))
    else if p.isZero then .fin (x != y) .zero
    else
      let k := 64 + Nat.log2 q.m.natAbs
      let n := p.m.natAbs * 2 ^ k
      .fin (x != y) ⟨(2 * (n / q.m.natAbs) + bit1 (n % q.m.natAbs != 0) : Nat), p.e - q.e - (k + 1 : Nat)⟩

/-- A row reduction over `ch` chunks: a sum within `(ch + 7) · 2^-24 · Σ|t|` of the exact one, given the free value
`c` (R205). -/
def rowSum (c : Word) (ch : Nat) (ts : List Val) : Val :=
  let g := ts.foldl Ghost.term Ghost.init
  fp32Val (g.pick (Dy.mul ⟨(ch + 7 : Nat), -24⟩ g.mag) (g.negZero && c == 0x80000000) c)

/-- Mean of a row reduction: the sum rounded, divided by L, rounded (R204, R205). -/
def rowMean (c : Word) (p : RowP) (ts : List Val) : Val :=
  rne ((rowSum c p.chunks ts).div (.fin false (.ofInt p.len)))

/-- The sum of squared deviations of a row, given its mean as kept and the free value `c`: between the exact sum about
the exact mean and the exact sum about the kept one, each with the relative bound of R205, or +∞ or a NaN where the sum may
leave the FP32 range (log 2). -/
def rowSqDev (c : Word) (p : RowP) (mu : Val) (xs : List Val) : Val :=
  let s := xs.foldl (fun a v => a.add v.num) Dy.zero
  let s2 := xs.foldl (fun a v => a.add (v.num.mul v.num)) Dy.zero
  let n := (s2.mul (.ofInt p.len)).sub (s.mul s)          -- L times the exact sum about the exact mean
  let d := (mu.num.mul (.ofInt p.len)).sub s
  let beta : Dy := ⟨(p.chunks + 7 : Nat), -24⟩
  let lo := n.sub (n.mul beta)
  let hi0 := n.add (d.mul d)
  let hi := hi0.add (hi0.mul beta)
  let finite := xs.all (fun v => match v with
    | .fin _ _ => true
    | _ => false)
  if !finite then .nan
  else
    let ok := match fp32Val c with
      | .fin false q => lo.le (q.mul (.ofInt p.len)) && (q.mul (.ofInt p.len)).le hi
      | .fin true _ => false
      | .inf true => false
      | _ => !hi.lt (fp32Over.mul (.ofInt p.len))
    if ok then fp32Val (canonNaN c) else rne ((Val.ofDy false n).div (.fin false (.ofInt p.len)))

/-- Reference value of `e^x`. -/
def expRef (x : Dy) : Dy :=
  let y := Int.fdiv (fpFloor x * (2 ^ fpBits : Nat)) fpLn2
  let n := Int.fdiv y (2 ^ fpBits : Nat)
  ⟨fpExp2Frac (y - n * (2 ^ fpBits : Nat)).toNat, n - fpBits⟩

/-- e^t within 3 ulp for results of `2^-126` or more, +0 below (R205). -/
def rowExp (c : Word) (v : Val) : Val :=
  match v with
  | .nan => .nan
  | .inf n => if n then .pzero else .inf false
  | .fin n q =>
    let x := if n then q.neg else q
    if (Dy.ofInt 89).le x then .inf false
    else if x.lt (.ofInt (-88)) then .pzero
    else if (expRef x).lt (.pow2 (-126)) then .pzero
    else fp32Val (pickUlp c 3 (expRef x))

/-! ### Rows in (R202, R203) -/

/-- Element `i` of an input row at byte `a`, widened, and whether it was flushed; `sc` is the byte of the row's
first scale, where the row has scales. -/
def rowElem (m : Mem) (a : Nat) (f : Fmt) (sc : Option Nat) (i : Nat) : Val × Bool :=
  let r := readElem f false (elemBits m a f i)
  match sc with
  | some b => (rne (r.1.mul (scaleVal false (m.rd (b + i / 32))).1), r.2)
  | none => r

/-- The x (or y) row `j`. -/
def RowP.xRow (p : RowP) (m : Mem) (j : Nat) : List (Val × Bool) :=
  (List.range p.len).map (rowElem m (4096 * p.xSlot + j * rowPitch p.xFmt p.len) p.xFmt
    (if p.rsEn && scaled8 p.xFmt then some (4096 * p.rsSlot + j * p.blocks) else none))

/-- The dy row `j`. -/
def RowP.dyRow (p : RowP) (m : Mem) (j : Nat) : List (Val × Bool) :=
  (List.range p.len).map (rowElem m (4096 * p.dySlot + j * rowPitch p.dyFmt p.len) p.dyFmt
    (if p.rsEn && scaled8 p.dyFmt then some (4096 * p.rsSlot + (p.rows + j) * p.blocks) else none))

/-- γ of every element: 1 without `AFFINE` (R200, R202). -/
def RowP.gamma (p : RowP) (m : Mem) : List (Val × Bool) :=
  (List.range p.len).map (fun i =>
    if p.useParam then readElem .bf16 false (elemBits m (4096 * p.param) .bf16 i) else (.fin false (.ofInt 1), false))

/-- β of every element: 0 without `AFFINE` (R200, R202). -/
def RowP.beta (p : RowP) (m : Mem) : List (Val × Bool) :=
  (List.range p.len).map (fun i =>
    if p.useParam && p.kind == 0 then
      readElem .bf16 false (elemBits m (4096 * (p.param + ceilDiv (2 * p.len) 4096)) .bf16 i)
    else (.pzero, false))

/-- Slots that row `j` of a command reads. -/
def RowP.rowSlots (p : RowP) (j : Nat) : List Nat :=
  slotsOf (4096 * p.xSlot + j * rowPitch p.xFmt p.len) (rowPitch p.xFmt p.len)
  ++ (if p.bwd then slotsOf (4096 * p.dySlot + j * rowPitch p.dyFmt p.len) (rowPitch p.dyFmt p.len) else [])
  ++ (p.regions.drop (1 + bit1 p.bwd)).flatMap (fun r => slotsOf r.1 r.2)

/-! ### Statistics (R204, R209) -/

/-- τx of every element of a row. -/
def RowP.scaledRow (p : RowP) (xs : List Val) : List Val := xs.map (fun x => rne ((fp32Val p.eps).mul x))

/-- The exponential term of a soft-maximum element; +0 where both the element and the maximum are −∞ (R204). -/
def softTerm (c : Word) (m tx : Val) : Val :=
  if m == .inf true && tx == .inf true then .pzero else rowExp c (rne (tx.add m.negate))

/-- The statistics of a row (R204, R205). -/
def rowStats (fv : Nat → Word) (p : RowP) (xs : List Val) : Word × Word :=
  match p.kind with
  | 0 =>
    let mu := rowMean (fv 0) p xs
    let var := rne ((rowSqDev (fv 1) p mu xs).div (.fin false (.ofInt p.len)))
    (fp32Keep mu, vRsqrt (fv 2) (rne (var.add (fp32Val p.eps))))
  | 1 =>
    let ms := rowMean (fv 0) p (xs.map (fun x => rne (x.mul x)))
    (0, vRsqrt (fv 2) (rne (ms.add (fp32Val p.eps))))
  | _ =>
    let ts := p.scaledRow xs
    let m := ts.foldl vmaxVal (.inf true)
    let es := (List.range p.len).zip ts |>.map (fun it => softTerm (fv (16 + it.1)) m it.2)
    (fp32Keep m, fp32Keep (rowSum (fv 3) p.chunks es))

/-- Combine new soft-maximum statistics with kept ones (R209). -/
def mergeStats (fv : Nat → Word) (o n : Word × Word) : Word × Word :=
  let m0 := fp32Val o.1
  let mc := fp32Val n.1
  let m := vmaxVal m0 mc
  let t := fun (c : Word) (s x : Val) => if m == .inf true && x == .inf true then .pzero else rne (s.mul (softTerm c m x))
  (fp32Keep m, fp32Keep ((t (fv 4) (fp32Val o.2) m0).add (t (fv 5) (fp32Val n.2) mc)))

/-- A Reed entry. -/
def Row.ent (r : Row) (k : Nat) : ReedEnt := Tab.get ReedEnt.init r.reed k
/-- Whether an entry is usable for a key (R208). -/
def ReedEnt.usable (e : ReedEnt) (key : Nat) : Bool := e.valid && e.key == key
/-- Write an entry (R208). -/
def Row.setEnt (r : Row) (k : Nat) (e : ReedEnt) : Row := { r with reed := Tab.set ReedEnt.init r.reed k e }

/-- Whether a command reads entries under R214. -/
def RowP.readsEntries (p : RowP) : Bool := (p.bwd && !p.ysrc) || (!p.bwd && p.apply)

/-- The lowest lost entry of a command, if any (R214). -/
def lowestLost (r : Row) (p : RowP) : Option Nat :=
  ((List.range p.rows).map (· + p.first)).find? (fun k => !(r.ent k).usable p.key)

/-- What the statistics of row `j` are, the entry after the row, and whether the row's statistics were recomputed
(R208 to R210, R215). -/
def rowEntry (fv : Nat → Word) (r : Row) (p : RowP) (j : Nat) (xs : List Val) : (Word × Word) × ReedEnt × Bool :=
  let e := r.ent (p.first + j)
  let made := fun (s : Word × Word) (valid : Bool) =>
    ({ stat0 := s.1, stat1 := s.2, key := p.key, valid := valid, mine := true } : ReedEnt)
  if p.readsEntries then
    if e.usable p.key then ((e.stat0, e.stat1), { e with valid := !p.consume }, false)
    else
      let s := rowStats fv p xs
      (s, made s (!p.consume), true)
  else if p.bwd then ((0, 0), e, false)
  else
    let s := rowStats fv p xs
    if p.merge && e.usable p.key && e.mine then
      let s' := mergeStats fv (e.stat0, e.stat1) s
      (s', made s' (!p.consume), false)
    else (s, made s true, false)

/-! ### Rows out (R204) -/

/-- The normalised element of LayerNorm and RMSNorm. -/
def xhat (p : RowP) (s : Word × Word) (x : Val) : Val :=
  let d := if p.kind == 0 then rne (x.add (fp32Val s.1).negate) else x
  rne (d.mul (fp32Val s.2))

/-- y of a soft-maximum element. -/
def softY (c : Word) (s : Word × Word) (tx : Val) : Val :=
  let m := fp32Val s.1
  if m == .inf true && tx == .inf true then .pzero else rne ((softTerm c m tx).div (fp32Val s.2))

/-- The forward output row. -/
def fwdRow (fv : Nat → Word) (p : RowP) (s : Word × Word) (xs ga be : List Val) : List Val :=
  if p.kind == 2 then
    (List.range p.len).zip (p.scaledRow xs) |>.map (fun it => softY (fv (16 + p.len + it.1)) s it.2)
  else
    ((xs.zip ga).zip be).map (fun t =>
      let y := rne ((xhat p s t.1.1).mul t.1.2)
      if p.kind == 0 then rne (y.add t.2) else y)

/-- The backward output row. -/
def bwdRow (fv : Nat → Word) (p : RowP) (s : Word × Word) (xs dys ga : List Val) : List Val :=
  if p.kind == 2 then
    let ys := if p.ysrc then xs
      else (List.range p.len).zip (p.scaledRow xs) |>.map (fun it => softY (fv (16 + p.len + it.1)) s it.2)
    let d := rowSum (fv 6) p.chunks ((dys.zip ys).map (fun t => rne (t.1.mul t.2)))
    (dys.zip ys).map (fun t => rne ((rne ((fp32Val p.eps).mul t.2)).mul (rne (t.1.add d.negate))))
  else
    let gs := (dys.zip ga).map (fun t => rne (t.1.mul t.2))
    let hs := xs.map (xhat p s)
    let gm := rowMean (fv 6) p gs
    let gh := rowMean (fv 7) p ((gs.zip hs).map (fun t => rne (t.1.mul t.2)))
    (gs.zip hs).map (fun t =>
      let a := if p.kind == 0 then rne (t.1.add gm.negate) else t.1
      rne ((fp32Val s.2).mul (rne (a.add (rne (t.2.mul gh)).negate))))

/-- Bytes of an output row that lie before its element `e` (R122). -/
def rowOff (p : BellP) (e : Nat) : Nat := e * p.fmt.width / 8

/-- Bytes of source row `i` of an output row of `n` elements: its 128 elements, and with the last ones the rest of the written
row (R164, R206). -/
def chunkLen (p : BellP) (n i : Nat) : Nat :=
  (if n ≤ 128 * (i + 1) then rowLen p n else rowOff p (128 * (i + 1))) - rowOff p (128 * i)

/-- Convert source row `i` of an output row under the row engine's settings (R206): the stochastic key takes the low ten bits of
the element, its upper bits, and the row store count `rc`. -/
def rowBellRow (p : BellP) (set : BellSet) (seed : BitVec 64) (rc i : Nat) (row : List Word) : BellRow :=
  let src := ((row.drop (128 * i)).take 128).map fp32Read
  let es := (List.range src.length).zip src |>.map (fun it =>
    let e := 128 * i + it.1
    bellElem p set seed 3 rc (e / 1024) (e % 1024) it.2.1)
  { bytes := leBytes (chunkLen p row.length i) (packBits p.fmt.width (es.map (·.bits)))
    sat := (es.filter (·.sat)).length, flushIn := (src.filter (·.2)).length
    flushOut := (es.filter (·.flushOut)).length }

/-- Input elements that row `j` flushes; γ and β are counted with row 0 (R125, R203). An element that two or three passes over the
row read counts once (DESIGN CHOICE: R203 says only that each flush is counted; log 49). -/
def rowFlushes (p : RowP) (m : Mem) (j : Nat) : Nat :=
  let n := fun (l : List (Val × Bool)) => (l.filter (·.2)).length
  n (p.xRow m j) + (if p.bwd then n (p.dyRow m j) else 0)
  + (if j == 0 && (p.bwd || p.out) then n (p.gamma m) + (if p.bwd then 0 else n (p.beta m)) else 0)

/-- Add to a counter of the row engine (R220). -/
def Row.cntAdd (r : Row) (k n : Nat) : Row := { r with cnt := Tab.mod 0 r.cnt k (· + n) }

/-- Passes over a row of a command (R219). -/
def RowP.passes (p : RowP) (recomp : Bool) : Nat :=
  (if p.bwd then 2 else if p.out && !p.apply then 2 else 1) + bit1 recomp

/-- Change the row engine of a tile. -/
def Tile.onRow (q : Tile) (f : Row → Row) : Tile := { q with row := f q.row }

/-- The Reed of a program that has faulted keeps nothing that its started commands still write (R61, R212). -/
def Tile.unkept (q : Tile) : Tile := if q.isFaulted then q.clearMine else q

/-- The statistic side of row `j`: the entry, the counts (R208 to R215). Answers the row's statistics. -/
def rowStatStep (fv : Nat → Word) (p : RowP) (j : Nat) (q : Tile) : Tile × (Word × Word) :=
  let xs := (p.xRow q.spad.mem j).map (·.1)
  let (s, ent, rec) := rowEntry fv q.row p j xs
  let q' := q.onRow (fun r =>
    let r := if p.bwd && p.ysrc then r else r.setEnt (p.first + j) ent
    ((r.cntAdd (bit1 p.bwd) 1).cntAdd 2 (p.chunks * p.passes rec)).cntAdd 3 (bit1 rec))
  (({ q' with seq := { q'.seq with recomp := q'.seq.recomp + bit1 rec } } : Tile).addCounts
    0 (rowFlushes p q.spad.mem j) 0 |>.unkept, s)

/-- The output values of row `j`. -/
def rowValues (fv : Nat → Word) (p : RowP) (m : Mem) (j : Nat) (s : Word × Word) : List Val :=
  let xs := (p.xRow m j).map (·.1)
  let ga := (p.gamma m).map (·.1)
  if p.bwd then bwdRow fv p s xs ((p.dyRow m j).map (·.1)) ga
  else fwdRow fv p s xs ga ((p.beta m).map (·.1))

/-- Whether a command stops under R214 before it reads a row. -/
def rowLost (recompOk : Bool) (r : Row) (p : RowP) : Option Nat :=
  if p.readsEntries && !recompOk then lowestLost r p else none

/-- Whether an entry of the row queue writes output rows. -/
def isRowStore (e : QEntry) : Bool := e.code == 2 || (e.code == 1 && (rowP 1 e.words).out)

/-- First slot and set of the store of the command at the head (R206, R155, R166). -/
def rowStoreOf (b : Bell) (e : QEntry) (p : RowP) : Bell × (Nat × Nat × Nat) :=
  match e.store with
  | some st => (b, st)
  | none =>
    let s := b.latest
    let bp := bellP s.words
    let d := firstSlot bp s.adv
    (b.onSet s.id (fun x => { x with adv := some (slotAfter bp p.len d p.rows) }), (s.id, d, 0))

/-- The row command whose output row is due: the head of the queue, its token taken, rows left. -/
def rowBellReady (q : Tile) : Option (QEntry × RowP) :=
  match q.row.q with
  | e :: _ =>
    let p := rowP e.code e.words
    if e.taken && isRowStore e && decide (e.bellRows < p.rows) then some (e, p) else none
  | [] => none

/-- The source row that is due: its number within the output row. -/
def Row.chunk (r : Row) : Nat :=
  match r.out with
  | some o => o.sent
  | none => 0

/-- Whether that row's inputs may be read, or its values are there (R202). -/
def rowInputs (q : Tile) (e : QEntry) (p : RowP) : Bool := q.row.out.isSome || (p.rowSlots e.bellRows).all q.spad.canRead

/-- Whether the bytes of the source row that is due may be written (R165). -/
def rowChunkFree (q : Tile) (e : QEntry) (p : RowP) : Bool :=
  let (b, st) := rowStoreOf q.row.bell e p
  let bp := bellP (b.setOf st.1).words
  q.spad.canWriteRange (rowByte bp p.len st.2.1 e.bellRows + rowOff bp (128 * q.row.chunk)) (chunkLen bp p.len q.row.chunk)

/-- Whether the row engine has a source row that the vector Bell can read and write now (R206). -/
def rowBellFree (q : Tile) (e : QEntry) (p : RowP) : Bool := rowInputs q e p && rowChunkFree q e p

/-- The output row that is due begins: its statistics are taken and its values formed, and the row store count goes up
(R204, R206, R208). -/
def rowBegin (fv : Nat → Word) (e : QEntry) (p : RowP) (q : Tile) : Tile :=
  if q.row.out.isSome then q
  else
    let j := e.bellRows
    let (q1, s) := rowStatStep fv p j q
    let vals := (rowValues fv p q.spad.mem j s).map fp32Keep
    let (b, st) := rowStoreOf q.row.bell e p
    (q1.onRow (fun r => { r with
      bell := { b with count := (b.count + 1) % 2 ^ 32 }, out := some { vals := vals, sent := 0, count := b.count } })).onEntry 3 0
        (fun x => { x with store := some st })

/-- The vector Bell takes the source row that is due of an output row (R164, R206). -/
def rowSend (e : QEntry) (p : RowP) (q : Tile) : Tile :=
  match q.row.out with
  | none => q
  | some o =>
    let j := e.bellRows
    let (b, st) := rowStoreOf q.row.bell e p
    let set := b.setOf st.1
    let bp := bellP set.words
    let row := rowBellRow bp set e.seed o.count o.sent o.vals
    let last := decide (p.chunks ≤ o.sent + 1)
    let q := (q.onRow (fun r => { r with out := if last then none else some { o with sent := o.sent + 1 } })).onEntry 3 0
      (fun x => { x with bellRows := if last then j + 1 else j, waiting := false })
    match q.spad.writeFill (declOf bp p.len st.2.1 p.rows) (rowByte bp p.len st.2.1 j + rowOff bp (128 * o.sent)) row.bytes
        (row.bytes.length / 4096 + 2) with
    | some sp => (q.wrote sp).addCounts row.sat row.flushIn row.flushOut
    | none => q.progFault causeFill 0

/-- One source row of the command at the head: the check of lost entries and the statistics of its row come before the row's
first (R204, R206, R214, R215). -/
def rowBellStep (fv : Nat → Word) (recompOk : Bool) (q : Tile) : Tile :=
  match rowBellReady q with
  | none => q
  | some (e, p) =>
    match (if e.bellRows == 0 && q.row.out.isNone then rowLost recompOk q.row p else none) with
    | some k => q.progFault causeStatLost k
    | none =>
      if !rowInputs q e p then q.onEntry 3 0 (fun x => { x with waiting := true })
      else
        let q := rowBegin fv e p q
        match q.row.q with
        | e :: _ => if rowChunkFree q e p then rowSend e p q else q.onEntry 3 0 (fun x => { x with waiting := true })
        | [] => q

/-- Statistics of all rows of a command without output, from row `j`. -/
def rowStatAll (fv : Nat → Word) (p : RowP) (j : Nat) : Nat → Tile → Tile
  | 0, q => q
  | n + 1, q => rowStatAll fv p (j + 1) n (rowStatStep (fun i => fv (8 * (j + 1) * (p.len + 16) + i)) p j q).1

/-! ### Spill and fill (R216, R217) -/

/-- Tag word of an entry (R207). -/
def ReedEnt.tagWord (e : ReedEnt) : Nat := e.key % 2 ^ 15 + bit1 e.valid * 2 ^ 15

/-- The statistics and tag blocks of an image of `n` entries from `k`. -/
def reedImage (r : Row) (k n : Nat) : List Byte × List Byte :=
  let es := (List.range n).map (fun i => r.ent (k + i))
  (es.flatMap (fun e => leBytes 4 e.stat0.toNat ++ leBytes 4 e.stat1.toNat), es.flatMap (fun e => leBytes 2 e.tagWord))

/-- Write `n` entries from `k` from an image whose statistics block is at `a` and tag block at `b` (R217, R218). -/
def Row.fillFrom (r : Row) (m : Mem) (a b k n : Nat) : Row :=
  (List.range n).foldl (fun r i =>
    let t := m.rdLE (b + 2 * i) 2
    r.setEnt (k + i)
      { stat0 := BitVec.ofNat 32 (m.rdLE (a + 8 * i) 4), stat1 := BitVec.ofNat 32 (m.rdLE (a + 8 * i + 4) 4)
        key := t % 2 ^ 15, valid := t.testBit 15, mine := true }) r

/-- Clear the valid bits of `n` entries from `k` (R210). -/
def Row.inval (r : Row) (k n : Nat) : Row :=
  (List.range n).foldl (fun r i => r.setEnt (k + i) { r.ent (k + i) with valid := false }) r

/-- Length of the part of `[0, n)` that lies in block `i` of 4,096 bytes: the fill declared for the slots of an image. -/
def partLen (n i : Nat) : Nat := min n (4096 * (i + 1)) - 4096 * i

/-- Carry out an `R_SPILL`: none where a slot must be waited for; the fault of a broken fill inside. -/
def spillStep (p : SpillP) (q : Tile) : Option Tile :=
  let run := (List.range (imageSlots p.n)).map (· + p.slot)
  if !run.all q.spad.canWrite then none
  else
    let img := reedImage q.row p.first p.n
    let tagAt := p.slot + statSlots p.n
    let done := do
      let sp ← q.spad.writeFill (fun i => partLen (8 * p.n) (i - p.slot)) (4096 * p.slot) img.1 (statSlots p.n + 1)
      sp.writeFill (fun i => partLen (2 * p.n) (i - tagAt)) (4096 * tagAt) img.2 (imageSlots p.n + 1)
    match done with
    | none => some (q.progFault causeFill 0)
    | some sp =>
      some ((q.wrote sp).onRow (fun r =>
        (if p.inv then r.inval p.first p.n else r).cntAdd 4 p.n))

/-- Complete the row-engine command at the head of the queue (R54, R202, R210, R217, R220). -/
def completeRow (fv : Nat → Word) (recompOk : Bool) (i : Nat) (q : Tile) : Tile :=
  match q.row.q with
  | [] => q
  | e :: _ =>
    if i ≠ 0 || !e.taken then q
    else
      let ws := e.words
      let rel := fun (p : RowP) (q : Tile) =>
        let sp := if p.xRel then q.spad.releaseRun p.xSlot (ceilDiv (p.rows * rowPitch p.xFmt p.len) 4096) else q.spad
        let sp := if p.dyRel && p.bwd then sp.releaseRun p.dySlot (ceilDiv (p.rows * rowPitch p.dyFmt p.len) 4096) else sp
        (({ q with spad := sp } : Tile).retire 3 0)
      if isRowStore e then
        let p := rowP e.code ws
        if e.bellRows == p.rows then rel p q else q
      else
        match e.code with
        | 0x01 =>
          let p := rowP 1 ws
          match rowLost recompOk q.row p with
          | some k => q.progFault causeStatLost k
          | none =>
            if !((List.range p.rows).all (fun j => (p.rowSlots j).all q.spad.canRead)) then
              q.onEntry 3 0 (fun x => { x with waiting := true })
            else rel p (rowStatAll fv p 0 p.rows q)
        | 0x03 =>
          match spillStep (spillP ws) q with
          | none => q.onEntry 3 0 (fun x => { x with waiting := true })
          | some q' => if q'.isFaulted && !q.isFaulted then q' else q'.retire 3 0
        | 0x04 =>
          let p := spillP ws
          let run := (List.range (imageSlots p.n)).map (· + p.slot)
          if !run.all q.spad.canRead then q.onEntry 3 0 (fun x => { x with waiting := true })
          else
            let q' := q.onRow (fun r =>
              (r.fillFrom q.spad.mem (4096 * p.slot) (4096 * (p.slot + statSlots p.n)) p.first p.n).cntAdd 5 p.n) |>.unkept
            (({ q' with spad := if p.rel then q'.spad.releaseRun p.slot (imageSlots p.n) else q'.spad } : Tile)).retire 3 0
        | 0x05 =>
          let w := wordAt ws 0
          (q.onRow (fun r => r.inval (fld w 0 12) (fld w 12 12 + 1))).retire 3 0
        | 0x06 =>
          match q.row.bell.newSet ws (fun _ => false) with
          | some b => (q.onRow (fun r => { r with bell := b.onSet b.latest.id (fun x => { x with loaded := true }) })).retire 3 0
          | none => q
        | 0x07 =>
          let c := cntGrow fv (fun k => decide (6 ≤ k)) q.row.cnt
          ((q.onRow (fun r => { r with cnt := c })).onSeq (fun z => { z with
            dmem := cntBlock c z.dmem (fld (wordAt ws 0) 0 14) })).retire 3 0
        | _ => q

/-! ### The vector Bell between the two engines (R206) -/

/-- Whether the vector engine has a source row that the vector Bell can read and write now. -/
def vecBellReady (q : Tile) : Bool :=
  match vBellCandidate q.vec.q with
  | none => false
  | some i =>
    match entryAt q.vec.q i with
    | none => false
    | some e =>
      match e.store with
      | none => false
      | some st =>
        let set := q.vec.bell.setOf st.1
        set.loaded && storeWritable q (bellP set.words) (vElems (vP (vecArgs e.enc)) e.vl) st.2.1 e.bellRows

/-- The vector Bell serves one source row: with rows of both engines ready, the row of the engine that lost the most
recent contest (R206); otherwise the engine that is ready. -/
def sharedBellStep (fv : Nat → Word) (recompOk : Bool) (q : Tile) : Tile :=
  let q := acceptVec q
  let rowReady := match rowBellReady q with
    | some (e, p) => rowBellFree q e p
    | none => false
  if vecBellReady q && rowReady then
    if q.row.lostLast then (rowBellStep fv recompOk q).onRow (fun r => { r with lostLast := false })
    else (vecBellStep q).onRow (fun r => { r with lostLast := true })
  else if rowReady || !vecBellReady q && (rowBellReady q).isSome then rowBellStep fv recompOk q
  else vecBellStep q

end Sys2Proof.Machine
end

