-- ==== Sys2Proof/Machine/DmaEngine.lean ====
section
/-!
DEFINITION. The core DMA and the copy engine: checks at issue, endpoints, the pieces of a transfer, fills, credits,
stash records, and the start and completion of transfers (spec/10_scratchpad_tags_and_dma.md R258 to R283, R569;
spec/09_backward_pass_and_stash.md R221 to R236; spec/04 R115 to R117; spec/12 R324).
-/

namespace Sys2Proof.Machine

open Sys2Proof

/-! ### Checks at issue (R267 to R278) -/

/-- A 64-bit endpoint in two words, low word first (R269). -/
def word64 (ws : List Word) (i : Nat) : Nat := (wordAt ws i).toNat + (wordAt ws (i + 1)).toNat * 2 ^ 32

/-- Whether a number is a multiple of 32. -/
def m32 (n : Nat) : Bool := n % 32 == 0

/-- Whether an endpoint is well formed: reserved bits 0, a multiple of 32 B, a die position of 0 to 7 (R269). -/
def endpointOk (kind v : Nat) : Bool :=
  match kind with
  | 0 => v / 2 ^ 24 == 0 && m32 v
  | 1 => v / 2 ^ 52 == 0 && m32 v
  | 2 => bitsOf v 30 2 == 0 && decide (v / 2 ^ 32 ≤ 7) && m32 (bitsOf v 0 24)
  | _ => v / 2 ^ 28 == 0 && m32 (bitsOf v 4 24)

/-- Byte extent of `rows` rows of `b` bytes at a stride (R270). -/
def extent (rows b stride : Nat) : Nat := (rows - 1) * stride + b

/-- Bytes between rows: a stride of 0 stands for the row length (R270). -/
def strideOf (w : Word) (b : Nat) : Nat := if w = 0 then b else w.toNat

/-- Rows of a source tile and bytes of each, for an element size code (R115): 256 ÷ e rows of 128·e bytes. -/
def tileRows (esz : Nat) : Nat := 128 * 2 ^ esz
def tileRowB (esz : Nat) : Nat := 256 / 2 ^ esz

/-- Bytes of a stash record before rounding (R226). -/
def stashTotal (data scale : Nat) : Nat := 256 + ceilDiv data 256 * 256 + scale

/-- Whether two byte ranges that begin at slots meet: an empty range meets nothing. -/
def slotsMeet (a n b m : Nat) : Bool := n != 0 && m != 0 && runsMeet a (ceilDiv n 4096) b (ceilDiv m 4096)

/-- Whether the words of a `DM_MOVE` are legal (R267 to R270). -/
def moveOk (ws : List Word) : Bool :=
  let w0 := wordAt ws 0
  let sk := fld w0 0 2
  let dk := fld w0 2 2
  let rows := fld w0 8 12 + 1
  let b := (fld (wordAt ws 1) 0 11 + 1) * 32
  let src := word64 ws 2
  let dst := word64 ws 4
  let fits := fun (k v stride : Nat) => !(k == 0 || k == 2) || decide (bitsOf v 0 24 + extent rows b stride ≤ 2 ^ 24)
  decide (6 ≤ ws.length) && decide (ws.length ≤ 8)
  && sk != 3 && dk != 2 && !(bitAt w0 4 && sk == 1) && !bitAt w0 7 && fld w0 20 12 == 0 && fld (wordAt ws 1) 11 21 == 0
  && endpointOk sk src && endpointOk dk dst && m32 (wordAt ws 6).toNat && m32 (wordAt ws 7).toNat
  && fits sk src (strideOf (wordAt ws 6) b) && fits dk dst (strideOf (wordAt ws 7) b)

/-- Whether the words of a `DM_GATHER` are legal (R272). -/
def gatherOk (ws : List Word) : Bool :=
  let w0 := wordAt ws 0
  let rows := fld w0 8 12 + 1
  let b := (fld (wordAt ws 1) 0 11 + 1) * 32
  ws.length == 7 && fld w0 0 5 == 0 && !bitAt w0 7 && fld w0 20 12 == 0 && fld (wordAt ws 1) 11 21 == 0
  && endpointOk 1 (word64 ws 2) && endpointOk 0 (wordAt ws 4).toNat && endpointOk 0 (wordAt ws 5).toNat
  && m32 (wordAt ws 6).toNat
  && decide ((wordAt ws 4).toNat + rows * b ≤ 2 ^ 24) && decide ((wordAt ws 5).toNat + 4 * rows ≤ 2 ^ 24)

/-- Whether the words of a `DM_TFILL` are legal (R273). -/
def tfillOk (ws : List Word) : Bool :=
  let w0 := wordAt ws 0
  let k := fld w0 0 2
  let esz := fld w0 2 2
  let v := word64 ws 2
  ws.length == 5 && (k == 1 || k == 2) && esz != 3 && !(bitAt w0 4 && k == 1) && fld w0 5 27 == 0
  && decide ((wordAt ws 1).toNat ≤ 4088) && endpointOk k v && m32 (wordAt ws 4).toNat
  && (k == 1 || decide (bitsOf v 0 24 + extent (tileRows esz) (tileRowB esz) (strideOf (wordAt ws 4) (tileRowB esz)) ≤ 2 ^ 24))

/-- Whether the words of a `DM_TREAD` are legal (R273). -/
def treadOk (ws : List Word) : Bool :=
  let w0 := wordAt ws 0
  ws.length == 2 && decide (fld w0 0 12 ≤ 4088) && fld w0 12 2 != 3 && fld w0 15 17 == 0
  && decide ((wordAt ws 1).toNat ≤ 4088) && !runsMeet (fld w0 0 12) 8 (wordAt ws 1).toNat 8

/-- Whether the words of a `DM_DMEM` are legal (R274). -/
def dmemOk (ws : List Word) : Bool :=
  let w0 := wordAt ws 0
  let n := (wordAt ws 3).toNat
  ws.length == 4 && fld w0 4 28 == 0 && !(bitAt w0 0 && bitAt w0 1) && (bitAt w0 0 || fld w0 2 2 == 0)
  && m32 (wordAt ws 1).toNat && endpointOk 0 (wordAt ws 2).toNat && m32 n && decide (32 ≤ n) && decide (n ≤ 16384)
  && decide ((wordAt ws 1).toNat + n ≤ 0x4000) && decide ((wordAt ws 2).toNat + n ≤ 2 ^ 24)

/-- Whether the words of a `DM_SWRITE` are legal (R275). -/
def swriteOk (ws : List Word) : Bool :=
  let w0 := wordAt ws 0
  let d := (wordAt ws 1).toNat
  let sc := (wordAt ws 3).toNat
  let a := fld (wordAt ws 2) 0 12
  let b := fld (wordAt ws 2) 12 12
  ws.length == 4 && fld w0 29 3 == 0 && fld (wordAt ws 2) 24 8 == 0 && decide (fld w0 22 5 ≤ 7)
  && m32 d && m32 sc && (fld w0 20 2 != 3 || sc == 0)
  && decide (4096 * a + d ≤ 2 ^ 24) && decide (4096 * b + sc ≤ 2 ^ 24) && !slotsMeet a d b sc

/-- The checks of a core DMA command as it leaves the sequencer (R268). -/
def issueDma (q : Tile) (e : QEntry) : Except Nat (Tile × QEntry) :=
  let ws := e.words
  let w := wordAt ws 0
  let chk := fun (b : Bool) => if b then (Except.ok (q, e) : Except Nat (Tile × QEntry)) else .error causeIllegal
  match e.code with
  | 0x01 => chk (moveOk ws)
  | 0x02 => chk (gatherOk ws)
  | 0x03 => chk (tfillOk ws)
  | 0x04 => chk (treadOk ws)
  | 0x05 => chk (dmemOk ws)
  | 0x06 => chk (swriteOk ws)
  | 0x07 => chk (ws.length == 2 && fld w 21 11 == 0 && fld (wordAt ws 1) 24 8 == 0)
  | 0x08 => chk (ws.length == 2 && fld w 22 10 == 0 && decide (fld w 10 8 ≤ 7)
                 && decide (1 ≤ (wordAt ws 1).toNat) && decide ((wordAt ws 1).toNat ≤ 4095))
  | 0x09 => chk (ws.length == 1 && fld w 4 28 == 0)
  | 0x0A => chk (ws.length == 1 && fld w 28 4 == 0 && decide (fld w 4 12 + fld w 16 12 + 1 ≤ 4096))
  | 0x0B => chk (ws.length == 1 && fld w 4 28 == 0)
  | 0x0C => chk (ws.length == 1 && decide (fld w 24 3 ≤ 4) && fld w 27 5 == 0
                 && decide (fld w 0 12 + fld w 12 12 + 1 ≤ 4096))
  | 0x0D =>
    if ws.length ≠ 1 then .error causeIllegal
    else match cntFault w with
      | some c => .error c
      | none => .ok (q, e)
  | _ => .error causeIllegal

/-! ### Pieces of a transfer -/

/-- Where a piece of a transfer lies. -/
inductive Loc
  /-- own scratchpad -/
  | spad (a : Nat)
  /-- package memory -/
  | pkg (a : Nat)
  /-- scratchpad of a logical core of a die -/
  | remote (die core a : Nat)
  /-- byte offset in the grant of a handle -/
  | credit (handle b : Nat)
  /-- own data memory -/
  | dmem (a : Nat)
  deriving DecidableEq, Repr

/-- A transfer as units that are carried out one after another: what each unit reads and writes, and how the bytes
read become the bytes written. -/
structure Xfer where
  units : Nat
  srcs : Nat → List (Loc × Nat)
  dsts : Nat → List (Loc × Nat)
  conv : List Byte → List Byte
  /-- `FILL_PARTS` -/
  parts : Nat
  rel : Bool

/-- Bytes that a unit reads. -/
def Xfer.unitLen (x : Xfer) (i : Nat) : Nat := (x.srcs i).foldl (fun n p => n + p.2) 0
/-- Offset of a unit's bytes in the transfer's source. -/
def Xfer.off (x : Xfer) (i : Nat) : Nat := (List.range i).foldl (fun n k => n + x.unitLen k) 0

/-- Bytes that the transfer writes to slot `k` of its own scratchpad or of its grant, times the number of writers
(R271). -/
def Xfer.decl (x : Xfer) (credit : Bool) (k : Nat) : Nat :=
  x.parts * (List.range x.units).foldl (fun n i => n + (x.dsts i).foldl (fun n p =>
    match p.1 with
    | .spad a => if credit then n else n + overlap a p.2 k
    | .credit _ b => if credit then n + overlap b p.2 k else n
    | _ => n) 0) 0

/-- Bytes from a location to the end of its slot; a location outside the scratchpads has no such bound. -/
def Loc.room : Loc → Nat → Nat
  | .spad a, _ => 4096 - a % 4096
  | .remote _ _ a, _ => 4096 - a % 4096
  | .credit _ b, _ => 4096 - b % 4096
  | _, n => n

/-- A location `o` bytes further on. -/
def Loc.skip (l : Loc) (o : Nat) : Loc :=
  match l with
  | .spad a => .spad (a + o)
  | .pkg a => .pkg (a + o)
  | .remote d c a => .remote d c (a + o)
  | .credit h b => .credit h (b + o)
  | .dmem a => .dmem (a + o)

/-- Match source and destination pieces of a plain copy part by part, so that each part lies in one slot at either end. -/
def cutPieces : List (Loc × Nat) → List (Loc × Nat) → Nat → List ((Loc × Nat) × (Loc × Nat))
  | _, _, 0 => []
  | [], _, _ => []
  | _, [], _ => []
  | (l, n) :: ps, (m, k) :: qs, f + 1 =>
    if n = 0 then cutPieces ps ((m, k) :: qs) f
    else if k = 0 then cutPieces ((l, n) :: ps) qs f
    else
      let c := min (min n k) (min (l.room n) (m.room k))
      ((l, c), (m, c)) :: cutPieces ((l.skip c, n - c) :: ps) ((m.skip c, k - c) :: qs) f

/-- A plain copy with a unit for each part of a row that lies in one slot at either end: each destination slot turns
`FULL` as soon as its own bytes have arrived (R271). -/
def Xfer.bySlot (x : Xfer) : Xfer :=
  let us := (List.range x.units).flatMap (fun i => cutPieces (x.srcs i) (x.dsts i) (x.unitLen i / 1024 + 8))
  { x with units := us.length
           srcs := fun i => ((us.map (fun u => [u.1]))[i]?).getD []
           dsts := fun i => ((us.map (fun u => [u.2]))[i]?).getD [] }

/-- An endpoint as a location `o` bytes further on (R269). -/
def endpoint (kind v o : Nat) : Loc :=
  match kind with
  | 0 => .spad (bitsOf v 0 24 + o)
  | 1 => .pkg (v + o)
  | 2 => .remote (bitsOf v 32 8) (bitsOf v 24 6) (bitsOf v 0 24 + o)
  | _ => .credit (bitsOf v 0 4) (bitsOf v 4 24 + o)

/-- Element `i` of a byte string of packed elements of `hb` half-bytes each. -/
def packedElem (m : Mem) (hb i : Nat) : Nat :=
  if hb == 1 then bitsOf (m.rd (i / 2)).toNat (4 * (i % 2)) 4
  else if hb == 2 then (m.rd i).toNat
  else m.rdLE (2 * i) 2

/-- The transposition of R115: destination row `i` of 256 bytes holds source column `i` in source row order. -/
def transposeTile (esz : Nat) (bs : List Byte) : List Byte :=
  let hb := 4 / 2 ^ esz
  let n := tileRows esz
  let m := Mem.wrBytes [] 0 bs
  (List.range 128).flatMap (fun c =>
    leBytes 256 (packBits (4 * hb) ((List.range n).map (fun r => packedElem m hb (128 * r + c)))))

/-- `DM_MOVE` (R270). -/
def moveXfer (ws : List Word) : Xfer :=
  let w0 := wordAt ws 0
  let b := (fld (wordAt ws 1) 0 11 + 1) * 32
  { units := fld w0 8 12 + 1
    srcs := fun i => [(endpoint (fld w0 0 2) (word64 ws 2) (i * strideOf (wordAt ws 6) b), b)]
    dsts := fun i => [(endpoint (fld w0 2 2) (word64 ws 4) (i * strideOf (wordAt ws 7) b), b)]
    conv := id, parts := 2 ^ fld w0 5 2, rel := bitAt w0 4 }

/-- `DM_GATHER` with its index list as it stands in the scratchpad (R272). -/
def gatherXfer (ws : List Word) (m : Mem) : Xfer :=
  let w0 := wordAt ws 0
  let b := (fld (wordAt ws 1) 0 11 + 1) * 32
  { units := fld w0 8 12 + 1
    srcs := fun i => [(.pkg (word64 ws 2 + m.rdLE ((wordAt ws 5).toNat + 4 * i) 4 * (wordAt ws 6).toNat), b)]
    dsts := fun i => [(.spad ((wordAt ws 4).toNat + i * b), b)]
    conv := id, parts := 2 ^ fld w0 5 2, rel := false }

/-- `DM_TFILL` (R273): one unit, so that the 8 destination slots turn `FULL` together (R116). -/
def tfillXfer (ws : List Word) : Xfer :=
  let w0 := wordAt ws 0
  let esz := fld w0 2 2
  { units := 1
    srcs := fun _ => (List.range (tileRows esz)).map (fun i =>
      (endpoint (fld w0 0 2) (word64 ws 2) (i * strideOf (wordAt ws 4) (tileRowB esz)), tileRowB esz))
    dsts := fun _ => [(.spad (4096 * (wordAt ws 1).toNat), 32768)]
    conv := transposeTile esz, parts := 1, rel := bitAt w0 4 }

/-- `DM_TREAD` (R273). -/
def treadXfer (ws : List Word) : Xfer :=
  let w0 := wordAt ws 0
  { units := 1, srcs := fun _ => [(.spad (4096 * fld w0 0 12), 32768)]
    dsts := fun _ => [(.spad (4096 * (wordAt ws 1).toNat), 32768)]
    conv := transposeTile (fld w0 12 2), parts := 1, rel := bitAt w0 14 }

/-- `DM_DMEM` (R274). -/
def dmemXfer (ws : List Word) : Xfer :=
  let w0 := wordAt ws 0
  let n := (wordAt ws 3).toNat
  let d := (Loc.dmem (wordAt ws 1).toNat, n)
  let p := (Loc.spad (wordAt ws 2).toNat, n)
  { units := 1, srcs := fun _ => [if bitAt w0 0 then d else p], dsts := fun _ => [if bitAt w0 0 then p else d]
    conv := id, parts := 2 ^ fld w0 2 2, rel := bitAt w0 1 }

/-! ### The stash (R222 to R236) -/

/-- The fields of a stash control block (R223). -/
structure Scb where
  base : Nat
  size : Nat
  hwm : Nat
  head : Nat
  tail : Nat
  peak : Nat
  dir : Nat
  entries : Nat
  ovf : Bool
  skipped : Nat
  deriving DecidableEq, Repr

/-- Read a stash control block. -/
def State.scb (s : State) (agent a : Nat) : Scb :=
  let m := Mem.wrBytes [] 0 (s.rdPkg agent a 64)
  { base := m.rdLE 0 8 % 2 ^ 52, size := m.rdLE 8 8 % 2 ^ 48, hwm := m.rdLE 16 8 % 2 ^ 48, head := m.rdLE 24 8
    tail := m.rdLE 32 8, peak := m.rdLE 40 8, dir := m.rdLE 48 8 % 2 ^ 52
    entries := bitsOf (m.rdLE 56 4) 0 20 + 1, ovf := (m.rdLE 56 4).testBit 20, skipped := m.rdLE 60 4 }

/-- The mark of an open `ATOMIC` on a stash's control data (R225). -/
abbrev atomicTx : Nat := 122

/-- Update 64 bits of a stash's control data at their home: there at once, or with an `ATOMIC` `SWAP` at another die
(R225, R420). -/
def State.atomicPut (s : State) (job addr v : Nat) : State :=
  if s.isHome addr then s.wrPkg addr job (leBytes 8 v)
  else
    (s.request (s.homeDie addr) (withData { s.packet 2 3 (s.homeDie addr) 120 with addr := addr, job := job }
      ([4, 0, 0, 0, 0, 0, 0, 0] ++ leBytes 8 v ++ List.replicate 16 0)) { OpenTx.posted with tile := atomicTx, off := addr }).1

/-- Whether an update of a stash's control data is still on its way to a line (R225). -/
def State.atomicOpen (s : State) (addr : Nat) : Bool :=
  s.rdc.opens.any (fun e => match e.2 with
    | some o => o.tile == atomicTx && !o.answered && o.off / 256 == addr / 256
    | none => false)

/-- Write the die's fields of a stash control block (R225). -/
def State.setScb (s : State) (agent a job : Nat) (c : Scb) : State :=
  let w38 := s.rdPkgLE agent (a + 56) 4
  [(24, c.head), (32, c.tail), (40, c.peak), (56, putBits w38 20 1 (bit1 c.ovf) + c.skipped % 2 ^ 32 * 2 ^ 32)].foldl
    (fun s x => s.atomicPut job (a + x.1) x.2) s

/-- A stash directory entry (R227). -/
structure StashEnt where
  state : Nat
  kind : Nat
  fmt : Nat
  data : Nat
  recOff : Nat
  scale : Nat
  alloc : Nat
  seq : Nat
  deriving DecidableEq, Repr

/-- Read a directory entry. -/
def State.stashEnt (s : State) (agent a : Nat) : StashEnt :=
  let m := Mem.wrBytes [] 0 (s.rdPkg agent a 32)
  { state := bitsOf (m.rdLE 0 4) 0 2, kind := bitsOf (m.rdLE 0 4) 2 2, fmt := bitsOf (m.rdLE 0 4) 4 5
    data := m.rdLE 4 4, recOff := m.rdLE 8 8 % 2 ^ 48, scale := m.rdLE 16 4, alloc := m.rdLE 20 4, seq := m.rdLE 24 4 }

/-- Write a directory entry. -/
def State.setStashEnt (s : State) (a job : Nat) (e : StashEnt) : State :=
  [(0, e.state + e.kind * 4 + e.fmt * 16 + e.data % 2 ^ 32 * 2 ^ 32), (8, e.recOff),
    (16, e.scale % 2 ^ 32 + e.alloc % 2 ^ 32 * 2 ^ 32), (24, e.seq % 2 ^ 32)].foldl
    (fun s x => s.atomicPut job (a + x.1) x.2) s

/-- Address of a job's stash control block; 0: no stash (R311). -/
def State.scbAddr (s : State) (job : Nat) : Nat :=
  match Tab.get none s.qm.jobs job with
  | some j => j.scb
  | none => 0

/-- Address of the directory entry of a stash ID (R227). -/
def Scb.ent (c : Scb) (id : Nat) : Nat := c.dir + 32 * id

/-- The 256-byte header of a record (R226). -/
def stashHeader (id alloc : Nat) (free : Bool) : List Byte :=
  leBytes 4 id ++ leBytes 4 (bit1 free) ++ leBytes 4 alloc ++ List.replicate 244 0

/-- `DM_SWRITE` into the record at a package address (R226, R275). -/
def swriteXfer (ws : List Word) (rec alloc : Nat) : Xfer :=
  let w0 := wordAt ws 0
  let d := (wordAt ws 1).toNat
  let sc := (wordAt ws 3).toNat
  { units := 1
    srcs := fun _ => [(.spad (4096 * fld (wordAt ws 2) 0 12), d), (.spad (4096 * fld (wordAt ws 2) 12 12), sc)]
    dsts := fun _ => [(.pkg rec, 256), (.pkg (rec + 256), d), (.pkg (rec + 256 + ceilDiv d 256 * 256), sc)]
    conv := fun bs => stashHeader (fld w0 0 20) alloc false ++ bs, parts := 1, rel := false }

/-- `DM_SREAD` of a record (R231, R276). -/
def sreadXfer (ws : List Word) (rec data scale : Nat) : Xfer :=
  { units := 1
    srcs := fun _ => [(.pkg (rec + 256), data), (.pkg (rec + 256 + ceilDiv data 256 * 256), scale)]
    dsts := fun _ => [(.spad (4096 * fld (wordAt ws 1) 0 12), data), (.spad (4096 * fld (wordAt ws 1) 12 12), scale)]
    conv := id, parts := 1, rel := false }

/-! ### Who transfers, and how a transfer can stop -/

/-- The engine that carries a transfer out: a tile's core DMA, or the copy engine (R324). -/
structure Agent where
  /-- its own tile; none for the copy engine -/
  tile : Option Nat
  job : Nat
  /-- logical core, for reports -/
  core : Nat
  /-- uid of the descriptor of a `COPY` -/
  uid : Nat
  place : Nat
  /-- log that its writes to package memory are staged in (R461) -/
  log : Option Nat
  /-- header of its events -/
  ev : Ev
  /-- host-window accesses are allowed: a `COPY` of job 0 (R357) -/
  hostOk : Bool

/-- The mesh stop of an agent (R396). -/
def Agent.stop (g : Agent) : Nat := match g.tile with
  | some t => t
  | none => 120

/-- Why a transfer stops (R247, R261, R264, R266, R364, R454, R466, R569). -/
inductive Stop
  | fault (cause : Nat)
  | denied (addr reason : Nat)
  | poison (addr : Nat)
  | refused (die core : Nat)
  | absent (core oldTile : Nat)
  | drawn (cause tile : Nat)
  /-- a remote write at a sealed slot of this tile: it is counted there (R251, R282) -/
  | sealed (tile : Nat)
  deriving DecidableEq, Repr

/-- The answer of one piece: wait, stop or a value. -/
inductive Piece (α : Type)
  | wait
  | stop (r : Stop)
  | ok (a : α)

/-- Whether a granule that a range touches is held: its translation is missing, or its object is in the switch of a
migration (R358, R369). -/
def State.held (s : State) (addr len : Nat) : Bool :=
  if isHostAddr addr then false
  else
    (List.range ((addr + (len - 1)) / granuleBytes + 1 - addr / granuleBytes)).any (fun k =>
      let a := (addr / granuleBytes + k) * granuleBytes
      if ownerOf a == s.pos then
        match findObj a s.kw.objs with
        | some (_, o) => match o.mig with
          | some m => m.switching
          | none => false
        | none => false
      else (Tab.get none s.kw.xlate (a / granuleBytes)).isNone)

/-- The check of an access to package memory: held, refused or poisoned (R358, R363, R369, R421). -/
def State.access (s : State) (g : Agent) (wr : Bool) (addr len : Nat) : Piece Unit :=
  if len = 0 then .ok ()
  else if s.deny g.job wr g.hostOk addr len != 0 then .stop (.denied addr (s.deny g.job wr g.hostOk addr len))
  else if s.isPoisoned addr len then .stop (.poison addr)
  else if s.held addr len then .wait
  else .ok ()

/-- Why a transfer stops on an answer code that another die gave, or that stands for the lack of one (log 12). -/
def codeStop (ans addr : Nat) : Stop :=
  match ans with
  | 3 => .fault causeSecurity
  | 6 => .fault causeDeny
  | 7 => .poison addr
  | _ => .drawn causePortFault 127

/-- What an agent needs of package memory before it goes on: the access is checked, and lines that are not homed here are
fetched (R363, R374). -/
def State.need (s : State) (g : Agent) (agent : Nat) (wr : Bool) (addr len : Nat) : State × Piece Unit :=
  match s.access g wr addr len with
  | .wait => (s, .wait)
  | .stop r => (s, .stop r)
  | .ok _ =>
    if s.atomicOpen addr then (s, .wait)
    else
      let s' := s.fetch agent g.job g.stop addr len
      (s', match s'.fetched agent addr len with
        | none => .wait
        | some 1 => .ok ()
        | some c => .stop (codeStop c addr))

/-- Go on with `f` once what was needed has come. -/
def needThen (r : State × Piece Unit) (f : State → State × Piece Unit) : State × Piece Unit :=
  match r with
  | (s, .ok _) => f s
  | (s, .wait) => (s, .wait)
  | (s, .stop x) => (s, .stop x)

/-- The tile behind a logical core of this die, judged for a reader or a requester of credits (R266, R569). -/
def State.reach (s : State) (job core : Nat) : Piece Nat :=
  let c := s.core core
  match c.st with
  | .moving => .wait
  | .absent => .stop (.absent core c.tile)
  | .mapped =>
    if (s.tile c.tile).spad.owner != some job then .stop (.refused s.pos core)
    else .ok c.tile

/-- What another die's answer makes of a command (R264, R266, R364, R384, R394, R466, R569; log 12). -/
def ansStop (s : State) (e : QEntry) : Option Stop :=
  match e.ans with
  | 2 => some (.fault causeNoCredit)
  | 3 => some (.fault causeSecurity)
  | 4 => some (.fault causeAbsent)
  | 5 => some (.drawn causeCoreFault e.tgt)
  | 6 => some (.fault causeDeny)
  | 7 => some (.poison (word64 e.words 2))
  | 8 => some (.drawn causePortFault 127)
  | 9 => some (.drawn causePortFault 127)
  | 10 => some (.fault causeFill)
  | _ => if e.tgt < Config.tiles && s.tileSt e.tgt == .fenced then some (.drawn causeCoreFault e.tgt) else none

/-- The bytes of a source piece, at offset `off` of the transfer's source. -/
def State.readPiece (s : State) (g : Agent) (e : QEntry) (off : Nat) (l : Loc) (n : Nat) : Piece (List Byte) :=
  match l with
  | .spad a =>
    match g.tile with
    | some t => if (s.tile t).spad.canReadRange a n then .ok ((s.tile t).spad.mem.rdBytes a n) else .wait
    | none => .wait
  | .dmem a =>
    match g.tile with
    | some t => .ok ((s.tile t).seq.dmem.rdBytes a n)
    | none => .wait
  | .pkg a =>
    match s.access g false a n with
    | .wait => .wait
    | .stop r => .stop r
    | .ok _ =>
      if e.owed ≠ 0 then .wait
      else .ok ((List.range n).map (fun i => if s.isHome (a + i) then s.mem.rd (a + i) else e.buf.rd (off + i)))
  | .remote d c a =>
    if d ≠ s.pos then (if e.owed ≠ 0 then .wait else .ok (e.buf.rdBytes off n))
    else
      match s.reach g.job c with
      | .wait => .wait
      | .stop r => .stop r
      | .ok t =>
        if (s.tile t).spad.sealed then
          .stop (if s.tileSt t == .fenced then .drawn causeCoreFault t else .refused d c)
        else if (s.tile t).spad.canReadRange a n then .ok ((s.tile t).spad.mem.rdBytes a n) else .wait
  | .credit _ _ => .wait

/-- The bytes of all source pieces of a unit. -/
def State.readUnit (s : State) (g : Agent) (e : QEntry) : Nat → List (Loc × Nat) → Piece (List Byte)
  | _, [] => .ok []
  | off, (l, n) :: ps =>
    match s.readPiece g e off l n with
    | .wait => .wait
    | .stop r => .stop r
    | .ok bs =>
      match State.readUnit s g e (off + n) ps with
      | .wait => .wait
      | .stop r => .stop r
      | .ok cs => .ok (bs ++ cs)

/-- The grant that a handle of an agent holds (R259, R262). -/
def State.grantOf (s : State) (g : Agent) (handle : Nat) : Option Grant :=
  match g.tile with
  | some t => Tab.get none (s.tile t).dma.handles handle
  | none => match s.desc g.uid with
    | some d => d.grant
    | none => none

/-- Accept a write under credit at the tile that granted it (R251, R261, R246, R247): none is a refusal, otherwise the
tile and whether a declared fill was broken. -/
def acceptWrite (q : Tile) (w : Writer) (b : Nat) (decl : Nat → Nat) : List Byte → Nat → Option (Tile × Bool)
  | [], _ => some (q, true)
  | _, 0 => some (q, true)
  | bs, n + 1 =>
    let k := 4096 - b % 4096
    let part := bs.take k
    match q.dma.granted.find? (fun x => x.who == w && x.idx == b / 4096) with
    | none => none
    | some x =>
      let sl := q.spad.slot x.slot
      if sl.tag != .empty then none
      else
        match sl.fillBy part.length (decl (b / 4096)) with
        | none => some (q, false)
        | some sl' =>
          let q := { q with spad := { q.spad with
            mem := q.spad.mem.wrBytes (4096 * x.slot + b % 4096) part
            slots := Tab.set Slot.init q.spad.slots x.slot sl' } }
          let q := if sl'.tag == .full then
              q.onDma (fun d => { d with granted := d.granted.filter (fun y => !(y.who == w && y.idx == b / 4096)) })
            else q
          acceptWrite (q.dmaCount 2 part.length) w (b + k) decl (bs.drop k) n

/-- A data piece that goes to another die under credit: `SP_WR` packets of at most 256 B (R261, R396). -/
def State.sendCredit (s : State) (g : Agent) (e : QEntry) (x : Grant) (handle b : Nat) (bs : List Byte) :
    State × QEntry :=
  (splitLines b bs (bs.length / 256 + 2)).foldl (fun (r : State × QEntry) p =>
    let k := withData { r.1.packet 2 1 x.die g.stop with
      addr := p.1 + x.core * 2 ^ 24 + handle * 2 ^ 30, job := g.job } p.2
    let (s', ok) := r.1.request x.die k
      { OpenTx.posted with tile := g.tile.getD 127, eng := 4, uid := if g.tile.isSome then e.uid else g.uid }
    if ok then (s', { r.2 with loadRows := r.2.loadRows + 1 }) else (r.1.unreachable k, { r.2 with ans := 8 })) (s, e)

/-- Append to a staged commit log (R461). -/
def State.appendLog (s : State) (k addr : Nat) (bs : List Byte) : Piece State :=
  let n := Tab.get 0 s.flt.logLen k + bs.length + 32
  if 2 ^ 24 < n then .stop (.fault causeCommitFull)
  else .ok { s with flt := { s.flt with
      logs := Tab.set [] s.flt.logs k (Tab.get [] s.flt.logs k ++ [(addr, bs)])
      logLen := Tab.set 0 s.flt.logLen k n } }

/-- A run has written into the scratchpad of a tile of this die (R456). -/
def State.wroteTile (s : State) (d : Option Desc) (t : Nat) : State :=
  match d with
  | some d => s.onDesc d.uid (fun d => { d with wrote := if d.wrote.contains t then d.wrote else t :: d.wrote })
  | none => s

/-- Write one destination piece. Answers the state and the command with the acknowledgements it then waits for. -/
def State.writePiece (s : State) (g : Agent) (e : QEntry) (x : Xfer) (l : Loc) (bs : List Byte) :
    Piece (State × QEntry) :=
  let n := bs.length
  match l with
  | .spad a =>
    match g.tile with
    | none => .wait
    | some t =>
      let sp := (s.tile t).spad
      if !sp.canWriteRange a n then .wait
      else match sp.writeFill (x.decl false) a bs (n / 4096 + 2) with
        | none => .stop (.fault causeFill)
        | some sp' => .ok (s.onTile t (fun q => q.wrote sp'), e)
  | .dmem a =>
    match g.tile with
    | none => .wait
    | some t => .ok (s.onTile t (fun q => q.onSeq (fun z => { z with dmem := z.dmem.wrBytes a bs })), e)
  | .pkg a =>
    match s.access g true a n with
    | .wait => .wait
    | .stop r => .stop r
    | .ok _ =>
      match (if e.code == 1 then g.log else none) with
      | some k =>
        match s.appendLog k a bs with
        | .wait => .wait
        | .stop r => .stop r
        | .ok s' => .ok (s', e)
      | none =>
        let w := s.wrPkgAs a g.job g.stop bs
          { OpenTx.posted with tile := g.tile.getD 127, eng := 4, uid := if g.tile.isSome then e.uid else g.uid }
        match w.lost with
        | some b => .ok (w.st.unreachable (w.st.packet 2 0 (w.st.homeDie b) 0), { e with loadRows := e.loadRows + w.acks, ans := 8 })
        | none => .ok (w.st, { e with loadRows := e.loadRows + w.acks })
  | .credit h b =>
    match s.grantOf g h with
    | none => .stop (.fault causeNoCredit)
    | some gr =>
      if gr.tile < Config.tiles && (s.tile gr.tile).spad.sealed then
        .stop (.sealed gr.tile)
      else if gr.revoked then
        .stop (if gr.tile < Config.tiles && s.tileSt gr.tile == .fenced then .drawn causeCoreFault gr.tile
          else .fault causeNoCredit)
      else if 4096 * gr.count < b + n then .stop (.fault causeNoCredit)
      else if gr.tile < Config.tiles then
        match acceptWrite (s.tile gr.tile) ⟨s.pos, g.stop, if g.tile.isSome then h else g.place⟩ b (x.decl true) bs
            (n / 4096 + 2) with
        | none => .stop (.fault causeNoCredit)
        | some (q, true) =>
          let s' := s.onTile gr.tile (fun _ => q)
          .ok (s'.wroteTile (match g.tile with
            | some t => s.descOf t
            | none => s.desc g.uid) gr.tile, e)
        | some (_, false) => .stop (.fault causeFill)
      else
        .ok (s.sendCredit g e gr (if g.tile.isSome then h else g.place) b bs)
  | .remote _ _ _ => .wait

/-- Write the bytes of a unit piece by piece. The destinations in scratchpads are checked before any is written, so
that a unit waits whole. -/
def State.writeUnit (s : State) (g : Agent) (e : QEntry) (x : Xfer) : List (Loc × Nat) → List Byte → Piece (State × QEntry)
  | [], _ => .ok (s, e)
  | (l, n) :: ps, bs =>
    match s.writePiece g e x l (bs.take n) with
    | .wait => .wait
    | .stop r => .stop r
    | .ok (s', e') => State.writeUnit s' g e' x ps (bs.drop n)

/-- Count the reads of source pieces in the objects that they lie in, and on the `MEM` ports that bring them (R366, R367). -/
def State.readTraffic (s : State) (ps : List (Loc × Nat)) : State :=
  ps.foldl (fun s p => match p.1 with
    | .pkg a => s.readAt a p.2
    | _ => s) s

/-- Carry out units of a transfer in order while nothing holds them (R250, R271). Answers the state, the command and
why it stopped, if it did. -/
def State.runUnits (s : State) (g : Agent) (x : Xfer) : Nat → QEntry → State × QEntry × Option Stop
  | 0, e => (s, e, none)
  | n + 1, e =>
    if x.units ≤ e.strRows then (s, e, none)
    else
      match s.readUnit g e (x.off e.strRows) (x.srcs e.strRows) with
      | .wait => (s, { e with waiting := true }, none)
      | .stop r => (s, e, some r)
      | .ok bs =>
        match s.writeUnit g e x (x.dsts e.strRows) (x.conv bs) with
        | .wait => (s, { e with waiting := true }, none)
        | .stop r => (s, e, some r)
        | .ok (s', e') =>
          State.runUnits (s'.readTraffic (x.srcs e.strRows)) g x n { e' with strRows := e'.strRows + 1, waiting := false }

/-! ### Requests to other dies -/

/-- Send one read request of a transfer, to another die or to the host; the answer belongs at offset `at'` of the transfer's
source. Without a route the transfer ends as unreachable. -/
def State.askOne (o : OpenTx) (r : State × QEntry) (k : Packet) (at' : Nat) : State × QEntry :=
  let x := r.1.request k.dstDie k { o with off := at' }
  if x.2 then (x.1, { r.2 with owed := r.2.owed + 1 }) else (r.1.unreachable k, { r.2 with ans := 8 })

/-- One line of package memory that a transfer reads: this die's own, a line of the remote-data cache, or a request. -/
def State.askLine (g : Agent) (o : OpenTx) (off a : Nat) (r : State × QEntry) (p : Nat × List Byte) : State × QEntry :=
  if r.1.isHome p.1 then r
  else
    match (if r.1.rdcOn && !isHostAddr p.1 then r.1.rdc.find (p.1 / 256) else none) with
    | some line =>
      ({ r.1 with rdc := r.1.rdc.touch (p.1 / 256) }.count 4 1, { r.2 with buf := r.2.buf.wrBytes (off + (p.1 - a)) ((line.drop (p.1 % 256)).take p.2.length) })
    | none =>
      State.askOne o (if r.1.rdcOn && !isHostAddr p.1 then r.1.count 5 1 else r.1, r.2)
        { r.1.packet 0 0 (r.1.homeDie p.1) g.stop with addr := p.1, job := g.job, len := p.2.length }
        (off + (p.1 - a))

/-- Ask for the bytes of one source piece that another die, or the host, holds: line by line for package memory, with
lines of the remote-data cache taken at once (R265, R373, R374). Nothing is asked for that the Keywork refuses or that is
poisoned: the transfer stops when it reaches it (R268, R363). -/
def State.askPiece (s : State) (g : Agent) (e : QEntry) (off : Nat) (l : Loc) (n : Nat) : State × QEntry :=
  let o : OpenTx := { OpenTx.posted with tile := g.tile.getD 127, eng := 4, uid := if g.tile.isSome then e.uid else g.uid }
  match l with
  | .pkg a =>
    if s.deny g.job false g.hostOk a n != 0 || s.isPoisoned a n then (s, e)
    else (splitLines a (List.replicate n 0) (n / 256 + 2)).foldl (State.askLine g o off a) (s, e)
  | .remote d c a =>
    if d == s.pos then (s, e)
    else
      (splitLines a (List.replicate n 0) (n / 256 + 2)).foldl (fun r p =>
        State.askOne o r { r.1.packet 0 1 d g.stop with addr := p.1 + c * 2 ^ 24, job := g.job, len := p.2.length }
          (off + (p.1 - a))) (s, e)
  | _ => (s, e)

/-- Ask for every source piece of a transfer that this die does not hold. -/
def State.askAll (s : State) (g : Agent) (x : Xfer) (e : QEntry) : State × QEntry :=
  (List.range x.units).foldl (fun (r : State × QEntry) i =>
    ((x.srcs i).foldl (fun (a : (State × QEntry) × Nat) p =>
      ((a.1.1.askPiece g a.1.2 a.2 p.1 p.2), a.2 + p.2)) (r, x.off i)).1) (s, e)

/-- Whether a source piece in package memory must still wait before it can be asked for. -/
def State.askHeld (s : State) (x : Xfer) : Bool :=
  (List.range x.units).any (fun i => (x.srcs i).any (fun p => match p.1 with
    | .pkg a => p.2 != 0 && s.held a p.2
    | _ => false))

/-! ### The core DMA of a tile -/

/-- The agent of a tile's core DMA. -/
def State.agentOf (s : State) (t : Nat) : Agent :=
  let z := (s.tile t).seq
  { tile := some t, job := z.job, core := z.lcore, uid := 0, place := 0
    log := match s.descOf t with
      | some d => if d.commit then some (64 * d.uid + z.member) else none
      | none => none
    ev := s.evOf t, hostOk := false }

/-- End a program because of a transfer: the reports of the reason, then the program fault (R61, R264, R266, R364,
R454, R466, R569). -/
def State.stopTile (s : State) (t : Nat) (r : Stop) : State :=
  let g := s.agentOf t
  match r with
  | .fault c => s.runTile t (fun q => q.progFault c 0)
  | .denied a k => (s.denied g.ev g.core a k).runTile t (fun q => q.progFault causeDeny 0)
  | .poison a => (s.poisonEvent g.ev a).runTile t (fun q => q.progFault causePoison 0)
  | .refused d c =>
    (s.refusedEvent g.job s.pos g.core (d + c * 2 ^ 8) 2).runTile t (fun q => q.progFault causeSecurity 0)
  | .absent c o => (s.absentEvent c o).runTile t (fun q => q.progFault causeAbsent 0)
  | .drawn c o => s.drawIn t c o
  | .sealed o =>
    let s := s.onTile o (fun q => q.dmaCount 6 1)
    if s.tileSt o == .fenced then s.drawIn t causeCoreFault o else s.runTile t (fun q => q.progFault causeNoCredit 0)

/-- Put an entry back into the core DMA's queue. -/
def State.putDma (s : State) (t i : Nat) (e : QEntry) : State := s.onTile t (fun q => q.onEntry 4 i (fun _ => e))

/-- Remove the entry of a transfer that stops, and end the program. -/
def State.dropDma (s : State) (t i : Nat) (r : Stop) : State :=
  (s.onTile t (fun q => q.onDma (fun d => { d with q := dropAt d.q i }))).stopTile t r

/-- The transfer of a queued command; none while it has no transfer to run (a stash write that is not allocated, a
stash read whose record is not `PRESENT`, an index list that is not readable). -/
def State.xferOf (s : State) (t : Nat) (e : QEntry) : Option Xfer :=
  let ws := e.words
  let z := s.tile t
  match e.code with
  | 0x01 => some (moveXfer ws).bySlot
  | 0x02 =>
    if z.spad.canReadRange (wordAt ws 5).toNat (4 * (fld (wordAt ws 0) 8 12 + 1)) then some (gatherXfer ws z.spad.mem).bySlot
    else none
  | 0x03 => some (tfillXfer ws)
  | 0x04 => some (treadXfer ws)
  | 0x05 => some (dmemXfer ws).bySlot
  | 0x06 => match e.store with
    | some (rec, alloc, _) => some (swriteXfer ws rec alloc)
    | none => none
  | 0x07 => match e.store with
    | some (rec, data, scale) => some (sreadXfer ws rec data scale).bySlot
    | none => none
  | _ => none

/-- Whether the transfer at an index may start: in queue order, at most 16 in flight (R279). -/
def dmaMayStart (l : List QEntry) (i : Nat) (e : QEntry) : Bool :=
  e.taken && (l.take i).all (·.inFlight) && decide ((l.filter (·.inFlight)).length < 16)

/-- The core DMA command that waits for its token and nothing else: a transfer or a `CREDIT_REQ` needs a place, a slot-tag
command and a `DM_CNT` need every earlier command to have completed (R52, R278, R279, R282). -/
def dmaCandidate (l : List QEntry) : Option Nat :=
  match firstWhere (fun e => !e.taken) (fun e => e.inFlight) l 0 with
  | none => none
  | some i =>
    match entryAt l i with
    | none => none
    | some e =>
      if (if 0x0C ≤ e.code then i == 0 else decide (8 < e.code) || decide ((l.filter (·.inFlight)).length < 16)) then some i else none

/-- The check of a stash read as it starts (R228, R231, R276): the record's address and its data and scale lengths when
the entry is `PRESENT`. -/
def State.stashRead (s : State) (g : Agent) (t : Nat) (ws : List Word) : State × Piece (Nat × Nat × Nat) :=
  let ag := stashAgent t
  let a := s.scbAddr g.job
  let id := fld (wordAt ws 0) 0 20
  if a = 0 then (s, .stop (.fault causeStash))
  else
    match s.need g ag false a 64 with
    | (s, .wait) => (s, .wait)
    | (s, .stop r) => (s.dropFetch ag, .stop r)
    | (s, .ok _) =>
      let c := s.scb ag a
      if c.entries ≤ id then (s.dropFetch ag, .stop (.fault causeStash))
      else
        match s.need g ag false (c.ent id) 32 with
        | (s, .wait) => (s, .wait)
        | (s, .stop r) => (s.dropFetch ag, .stop r)
        | (s, .ok _) =>
          let e := s.stashEnt ag (c.ent id)
          let d := fld (wordAt ws 1) 0 12
          let sc := fld (wordAt ws 1) 12 12
          (s.dropFetch ag,
            if e.state = 1 then .wait
            else if e.state ≠ 2 then .stop (.fault causeStash)
            else if slotsMeet d e.data sc e.scale || decide (2 ^ 24 < 4096 * d + e.data) || decide (2 ^ 24 < 4096 * sc + e.scale) then
              .stop (.fault causeStash)
            else .ok (c.base + e.recOff, e.data, e.scale))

/-- The requests of a transfer that has started go out, once no translation or switch holds them (R279, R358). -/
def State.dmaAsk (s : State) (t i : Nat) (e : QEntry) : State :=
  match s.xferOf t e with
  | none => s.putDma t i { e with waiting := e.code != 6 }
  | some x =>
    if s.askHeld x then s.putDma t i { e with waiting := true }
    else
      let (s', e') := s.askAll (s.agentOf t) x { e with bellRows := 1 }
      s'.putDma t i e'

/-- Start a transfer (R279): its requests to other dies go out, and a destination that runs past its grant is a
fault (R270). -/
def State.dmaStart (s : State) (t i : Nat) (e : QEntry) : State :=
  let g := s.agentOf t
  let e := { e with inFlight := true }
  let past := e.code == 1 && fld (wordAt e.words 0) 2 2 == 3 && (match s.grantOf g (fld (wordAt e.words 4) 0 4) with
    | some gr => decide (4096 * gr.count < bitsOf (word64 e.words 4) 4 24
        + extent (fld (wordAt e.words 0) 8 12 + 1) ((fld (wordAt e.words 1) 0 11 + 1) * 32)
            (strideOf (wordAt e.words 7) ((fld (wordAt e.words 1) 0 11 + 1) * 32)))
    | none => false)
  if past then s.dropDma t i (.fault causeIllegal)
  else if e.code == 7 && e.store.isNone then
    match s.stashRead g t e.words with
    | (s, .ok r) => s.dmaAsk t i { e with store := some r }
    | (s, .wait) => s.putDma t i { e with waiting := true }
    | (s, .stop r) => s.dropDma t i r
  else s.dmaAsk t i e

/-- Whether the requests of a transfer have gone out. `bellRows` marks it. -/
def QEntry.asked (e : QEntry) : Bool := e.bellRows != 0

/-- A transfer that may start starts, and asks other dies for what it reads there (R279). -/
def State.dmaMayGo (s : State) (t i : Nat) : State :=
  match entryAt (s.tile t).dma.q i with
  | none => s
  | some e =>
    if e.code = 0 || 7 < e.code then s
    else if (!e.inFlight && dmaMayStart (s.tile t).dma.q i e) || (e.inFlight && !e.asked && e.code != 6) then
      s.dmaStart t i e
    else s

/-- The tile of this die whose scratchpad a transfer reads, once it has reached it (R265, R454). -/
def State.readsFrom (s : State) (x : Xfer) (tgt : Nat) : Nat :=
  match x.srcs 0 with
  | (.remote d c _, _) :: _ => if tgt == 127 && d == s.pos && (s.core c).st == .mapped then (s.core c).tile else tgt
  | _ => tgt

/-- The units of a transfer that has started, as far as they can go. -/
def State.dmaUnits (s : State) (t i : Nat) : State :=
  match entryAt (s.tile t).dma.q i with
  | none => s
  | some e =>
    if e.code = 0 || 7 < e.code || !e.inFlight then s
    else
      match ansStop s e with
      | some r => s.dropDma t i r
      | none =>
        if !e.asked && e.code != 6 then s
        else
          match s.xferOf t e with
          | none => s
          | some x =>
            let (s', e', r) := s.runUnits (s.agentOf t) x x.units { e with tgt := s.readsFrom x e.tgt }
            match r with
            | some r => s'.dropDma t i r
            | none => s'.putDma t i { e' with stored := e'.stored || (e.code != 6 && decide (x.units ≤ e'.strRows)) }

/-- Move a transfer on: start it if it may start, send its requests once nothing holds them, then carry out units. -/
def State.dmaRun (s : State) (t i : Nat) : State := (s.dmaMayGo t i).dmaUnits t i

/-- Slots that a transfer releases: in its own scratchpad, or in that of a core of a die. -/
def relSlots (x : Xfer) : List (Option (Nat × Nat) × Nat) :=
  ((List.range x.units).flatMap (fun i => (x.srcs i).flatMap (fun p => match p.1 with
    | .spad a => (slotsOf a p.2).map (fun k => (none, k))
    | .remote d c a => (slotsOf a p.2).map (fun k => (some (d, c), k))
    | _ => []))).eraseDups

/-- Release one slot of the tile's own scratchpad, or of that of another core; a release on another core is an escape
(R248, R265, R456). To another die it travels as an `SP_RD` of the slot's first 32 bytes with `AUX` 1 (DESIGN CHOICE: R396
gives no message for it; log 51). -/
def State.relSlot (t : Nat) (s : State) (r : Option (Nat × Nat) × Nat) : State :=
  match r.1 with
  | none => s.onTile t (fun q => { q with spad := q.spad.release r.2 })
  | some (d, c) =>
    if d == s.pos && (s.core c).st == .mapped then
      (s.onTile (s.core c).tile (fun q => { q with spad := q.spad.release r.2 })).escape t
    else if d == s.pos then s.escape t
    else
      ((s.request d { s.packet 0 1 d t with
        addr := 4096 * r.2 + c * 2 ^ 24, len := 32, job := (s.tile t).seq.job, aux := 1 } OpenTx.posted).1).escape t

/-- The releases that a completing transfer asked for (R78, R248, R265, R280). -/
def State.dmaRelease (s : State) (t : Nat) (x : Xfer) : State := (relSlots x).foldl (State.relSlot t) s

/-- Bytes that a transfer delivers. -/
def Xfer.bytes (x : Xfer) : Nat :=
  (List.range x.units).foldl (fun n i => n + (x.dsts i).foldl (fun n p => n + p.2) 0) 0

/-- The credits of a program that runs no more return as the last transfer that names their handle ends (R262). -/
def State.afterStop (s : State) (t : Nat) : State := if (s.tile t).seq.phase == .running then s else s.dropHandles t

/-- A transfer completes once every write has been acknowledged (R280): releases, counts, the post token, and for a
stash read with `FREE` the record of what is to be freed (R231). -/
def State.dmaFinish (s : State) (t i : Nat) : State :=
  match entryAt (s.tile t).dma.q i with
  | none => s
  | some e =>
    if !(e.inFlight && e.stored && e.owed == 0 && e.loadRows == 0) then s
    else
      let w := wordAt e.words 0
      let s := match s.xferOf t e with
        | some x => if x.rel then s.dmaRelease t x else s
        | none => s
      let len := match s.xferOf t e with
        | some x => if e.code == 6 && e.ans == 11 then 0 else x.bytes
        | none => 0
      let s := if e.code == 7 && bitAt w 20 then s.onDescOf t (fun d => { d with frees := d.frees ++ [fld w 0 20] }) else s
      (s.runTile t (fun q =>
        let q := if e.code == 6 then
            let d := fld (wordAt e.words 2) 0 12
            let sc := fld (wordAt e.words 2) 12 12
            let sp := if bitAt w 27 then q.spad.releaseRun d (ceilDiv (wordAt e.words 1).toNat 4096) else q.spad
            { q with spad := if bitAt w 28 then sp.releaseRun sc (ceilDiv (wordAt e.words 3).toNat 4096) else sp }
          else q
        ((q.dmaCount 0 1).dmaCount 1 len).retire 4 i)).afterStop t

/-- A stash write that is skipped (R234): it counts, from 1 again where it sets `OVF`, its entry is marked, and the command
has nothing to write. -/
def State.stashSkip (s : State) (agent a t i job id : Nat) (e : QEntry) (c : Scb) (d : StashEnt) : State :=
  let c' := { c with ovf := true, skipped := satAdd (if c.ovf then c.skipped else 0) 1 }
  let s := (s.setScb agent a job c').setStashEnt (c.ent id) job { d with state := 3 }
  s.putDma t i { e with stored := true, waiting := false, ans := 11 }

/-- Records and pads once a record of `len` bytes has been allocated at `pos`, where the region had been filled up to
`from` (R226). A region that is set up anew starts with none. -/
def Qm.allocRec (q : Qm) (a from' pos len : Nat) (fresh : Bool) : Qm :=
  let old := if fresh then q.recs.filter (fun r => r.scb != a) else q.recs
  { q with recs := old ++ (if pos = from' then [] else [⟨a, from', pos - from', true⟩]) ++ [⟨a, pos, len, false⟩] }

/-- The outcome of a stash write at its control block `c` and entry `d` (R229, R233 to R236). -/
def State.stashDecide (s : State) (g : Agent) (t i a id : Nat) (e : QEntry) (c : Scb) (d : StashEnt) : State :=
  let ag := stashAgent t
  let w := wordAt e.words 0
  let data := (wordAt e.words 1).toNat
  let scale := (wordAt e.words 3).toNat
  let alloc := roundUp (stashTotal data scale) 4096
  let kind := fld w 20 2
  let fmt := fld w 22 5
  let policy := match s.descOf t with
    | some x => x.overflow
    | none => 0
  let go := fun (s : State) (off len : Nat) =>
    (s.putDma t i { e with store := some (c.base + off, len, c.ent id), waiting := false, bellRows := 1 }).onDescOf t
      (fun x => { x with writes := x.writes ++ [id] })
  if d.state = 1 ∨ d.state = 2 then
    if d.kind ≠ kind ∨ d.fmt ≠ fmt ∨ d.alloc < stashTotal data scale then s.dropDma t i (.fault causeStash)
    else go (s.setStashEnt (c.ent id) g.job { d with state := 1, data := data, scale := scale }) d.recOff d.alloc
  else if c.ovf then
    if policy = 1 then s.stashSkip ag a t i g.job id e c d else s.dropDma t i (.fault causeStashFull)
  else
    let h := if c.size < c.head % c.size + alloc then (c.head / c.size + 1) * c.size else c.head
    if h + alloc - c.tail ≤ c.hwm then
      let c' := { c with head := h + alloc, peak := max c.peak (h + alloc - c.tail) }
      let s := { s with qm := s.qm.allocRec a c.head h alloc (c.head = 0 && c.tail = 0) }
      go ((s.setScb ag a g.job c').setStashEnt (c.ent id) g.job
        { state := 1, kind := kind, fmt := fmt, data := data, recOff := h % c.size, scale := scale, alloc := alloc, seq := d.seq })
        (h % c.size) alloc
    else if policy = 1 then
      (s.stashSkip ag a t i g.job id e c d).event { g.ev with
        typ := 0x0003, pay := [(0x18, 4, id), (0x20, 8, c.head - c.tail)] }
    else s.dropDma t i (.fault causeStashFull)

/-- Decide the allocation request of a stash write at the SCB (R225, R228, R229). -/
def State.stashAlloc (s : State) (t i : Nat) : State :=
  match entryAt (s.tile t).dma.q i with
  | none => s
  | some e =>
    if e.code ≠ 6 || e.store.isSome || e.stored || !(e.inFlight || dmaMayStart (s.tile t).dma.q i e) then s
    else
      let g := s.agentOf t
      let ag := stashAgent t
      let a := s.scbAddr g.job
      let id := fld (wordAt e.words 0) 0 20
      let e := { e with inFlight := true }
      if a = 0 then s.dropDma t i (.fault causeStash)
      else
        match s.need g ag true a 64 with
        | (s, .wait) => s.putDma t i { e with waiting := true }
        | (s, .stop r) => (s.dropFetch ag).dropDma t i r
        | (s, .ok _) =>
          let c := s.scb ag a
          if c.entries ≤ id then (s.dropFetch ag).dropDma t i (.fault causeStash)
          else
            match s.need g ag true (c.ent id) 32 with
            | (s, .wait) => s.putDma t i { e with waiting := true }
            | (s, .stop r) => (s.dropFetch ag).dropDma t i r
            | (s, .ok _) =>
              (((s.readAt a 64).readAt (c.ent id) 32).stashDecide g t i a id e c (s.stashEnt ag (c.ent id))).dropFetch ag

/-- A stash record whose writes can all be observed becomes `PRESENT` (R230). -/
def State.stashPresent (s : State) (t i : Nat) : State :=
  match entryAt (s.tile t).dma.q i with
  | none => s
  | some e =>
    match e.store with
    | none => s
    | some (_, _, ent) =>
      if e.code ≠ 6 || e.stored || e.strRows = 0 || e.loadRows ≠ 0 || 2 ≤ e.ans then s
      else
        let ag := stashAgent t
        match s.need (s.agentOf t) ag true ent 32 with
        | (s, .wait) => s.putDma t i { e with waiting := true }
        | (s, .stop r) => (s.dropFetch ag).dropDma t i r
        | (s, .ok _) =>
          let s := (s.setStashEnt ent (s.tile t).seq.job { s.stashEnt ag ent with state := 2, seq := (s.tile t).seq.seqNo }).dropFetch ag
          s.putDma t i { e with stored := true }

/-! ### Credits, windows and tags (R258 to R263, R277, R278) -/

/-- Start a `CREDIT_REQ` (R259, R262, R266, R569): a grant that the handle still holds is returned once no earlier
transfer names it, and the request goes to the destination's allocator. -/
def State.creditStart (s : State) (t i : Nat) (e : QEntry) : State :=
  let z := s.tile t
  let w := wordAt e.words 0
  let h := fld w 0 4
  if (z.dma.q.take i).any (fun x => x.usesHandle h) then s.putDma t i { e with inFlight := true, waiting := true }
  else
    let s := s.dropHandle t h
    let die := fld w 10 8
    let core := fld w 4 6
    let n := (wordAt e.words 1).toNat
    if die == s.pos then
      match s.reach z.seq.job core with
      | .wait => s.putDma t i { e with inFlight := true, waiting := true }
      | .stop r => s.dropDma t i r
      | .ok tt =>
        (s.putDma t i { e with inFlight := true, waiting := false, bellRows := 1, tgt := tt }).onTile tt (fun q => q.onDma (fun d =>
          { d with reqs := d.reqs ++ [{ who := ⟨s.pos, t, h⟩, job := z.seq.job, window := fld w 18 4, count := n,
                                        lcore := z.seq.lcore, since := s.now, uid := e.uid, port := none }] }))
    else
      let k := { s.packet 0 2 die t with
        addr := core * 2 ^ 24 + fld w 18 4 * 2 ^ 30 + h * 2 ^ 34 + n * 2 ^ 38, job := z.seq.job }
      let (s', ok) := s.request die k { OpenTx.posted with tile := t, eng := 4, uid := e.uid }
      s'.putDma t i { e with inFlight := true, waiting := false, bellRows := 1, owed := 1, ans := if ok then 0 else 8 }

/-- Slots `n` from the grant pointer of a window, wrapping (R259). -/
def windowRun (w : Window) (n : Nat) : List Nat := (List.range n).map (fun i => w.first + (w.ptr - w.first + i) % w.count)

/-- Whether a slot of a tile is granted. -/
def Tile.isGranted (q : Tile) (slot : Nat) : Bool := q.dma.granted.any (fun g => g.slot == slot)

/-- The allocator of tile `t` serves the oldest request to a window (R259, R260, R266, R277). -/
def State.creditServe (s : State) (t window : Nat) : State :=
  let q := s.tile t
  match q.dma.reqs.find? (fun r => r.window == window) with
  | none => s
  | some r =>
    let drop := fun (s : State) => s.onTile t (fun q => q.onDma (fun d => { d with reqs := d.reqs.erase r }))
    if q.spad.owner != some r.job then
      ((drop s).refusedEvent r.job r.who.die r.lcore (s.pos + (s.coreOf t).getD 63 * 2 ^ 8) 2).answerCredit r 3 127 none 0
    else
      match Tab.get none q.dma.windows window with
      | none => s
      | some w =>
        if w.count < r.count then (drop s).answerCredit r 2 127 none 0
        else
          let run := windowRun w r.count
          if !run.all (fun k => (q.spad.slot k).tag == .empty && !q.isGranted k) then s
          else
            let s := (drop s).onTile t (fun q => q.onDma (fun d => { d with
              granted := d.granted ++ ((List.range r.count).zip run).map (fun p => ⟨p.2, window, r.who, p.1⟩)
              windows := Tab.set none d.windows window
                (some { w with ptr := w.first + (w.ptr - w.first + r.count) % w.count }) }))
            s.answerCredit r 1 t
              (some { die := s.pos, core := (s.coreOf t).getD 63, window := window, count := r.count, revoked := false, tile := t })
              w.ptr

/-- Refuse the oldest request that waits for a window to open, once 100 µs have passed since its arrival (R260). -/
def State.creditTimeout (s : State) (t window : Nat) : State :=
  let q := s.tile t
  match q.dma.reqs.find? (fun r => r.window == window), Tab.get none q.dma.windows window with
  | some r, none =>
    if s.now < r.since + 10 ^ 5 then s
    else (s.onTile t (fun q => q.onDma (fun d => { d with reqs := d.reqs.erase r }))).answerCredit r 2 127 none 0
  | _, _ => s

/-- A tag operation on one slot (R248, R278). -/
def tagOp (op : Nat) (sl : Slot) : Slot :=
  match op, sl.tag with
  | 0, .full => { sl with tag := .empty }
  | 1, .empty => ⟨.full, 0, 0⟩
  | 2, .empty => ⟨.raw, 0, 0⟩
  | 2, .full => ⟨.raw, 0, 0⟩
  | 3, .raw => { sl with tag := .empty }
  | 4, .raw => { sl with tag := .full }
  | _, _ => sl

/-- Complete a core DMA command that is no transfer (R259, R262, R263, R278, R282). -/
def State.dmaOther (s : State) (fv : Nat → Word) (t i : Nat) (e : QEntry) : State :=
  let z := s.tile t
  let w := wordAt e.words 0
  let ready := e.taken && (z.dma.q.take i).all (·.inFlight)
  let done := fun (s : State) => s.runTile t (fun q => q.retire 4 i)
  match e.code with
  | 0x08 =>
    if e.asked then
      match ansStop s e with
      | some r => s.dropDma t i r
      | none => if e.ans == 1 then done s else s
    else if e.inFlight || dmaMayStart z.dma.q i e then s.creditStart t i e else s
  | 0x09 =>
    if ready && !(z.dma.q.take i).any (fun x => x.usesHandle (fld w 0 4)) then done (s.dropHandle t (fld w 0 4)) else s
  | 0x0A =>
    if !ready then s
    else
      let k := fld w 0 4
      let first := fld w 4 12
      let n := fld w 16 12 + 1
      if (Tab.get none z.dma.windows k).isSome
          || z.dma.windows.any (fun x => match x.2 with
              | some v => runsMeet first n v.first v.count
              | none => false) then s.dropDma t i (.fault causeIllegal)
      else
        done (s.onTile t (fun q => q.onDma (fun d => { d with windows := Tab.set none d.windows k (some ⟨first, n, first⟩) })))
  | 0x0B => if ready then done (s.closeWindow t (fld w 0 4) 2) else s
  | 0x0C =>
    let run := (List.range (fld w 12 12 + 1)).map (· + fld w 0 12)
    if !(e.taken && i == 0) || run.any z.isGranted then s
    else
      done (s.onTile t (fun q => { q with spad := run.foldl (fun sp k => sp.onSlot k (tagOp (fld w 24 3))) q.spad }))
  | 0x0D =>
    if !(e.taken && i == 0) then s
    else
      done (s.onTile t (fun q =>
        let c := cntGrow fv (fun k => 3 ≤ k && k ≤ 5) q.dma.cnt
        (q.onDma (fun d => { d with cnt := c })).onSeq (fun y => { y with dmem := cntBlock c y.dmem (fld w 0 14) })))
  | _ => s

/-- The core DMA command at an index: a transfer moves on and completes if it can; any other command takes effect. -/
def State.completeDma (s : State) (t i : Nat) : State :=
  match entryAt (s.tile t).dma.q i with
  | none => s
  | some e => if 8 ≤ e.code then s.dmaOther s.fv t i e else (s.dmaRun t i).dmaFinish t i

end Sys2Proof.Machine
end

