-- ==== Sys2Proof/Machine/SyncHome.lean ====
section
/-!
DEFINITION. Synchronisation objects: the checks of sync commands at issue, the operations at an object's home, barriers
and their tree, results, deferral, abandonment (spec/11_synchronisation.md, R284 to R307, R566).

The 32-byte data blocks of `SY_OP`, `BAR_REPORT` and `BAR_RELEASE` are not laid out by the spec: a command carries
their contents, and what this die sends is in the model's own layout (log 13).
-/

namespace Sys2Proof.Machine

open Sys2Proof

/-! ### Checks at issue (R284, R287, R288) -/

/-- Whether an object ID is well formed (R284). -/
def objOk (w : Word) : Bool := fld w 24 8 == 0 && decide (fld w 16 8 ≤ 7)

/-- Fault of a result address, if any (R288). -/
def resFault (a : Nat) : Option Nat :=
  if a % 8 ≠ 0 then some causeAlign else if 0x3FF8 < a then some causeDmem else none

/-- The words of a command with the missing ones 0 (R287). -/
def padWords (ws : List Word) : List Word := (List.range 5).map (wordAt ws)

/-- Whether the words of `SY_INIT` are legal (R287, R288). -/
def syInitOk (ws : List Word) : Bool :=
  let w := wordAt ws
  let ty := fld (w 1) 0 2
  decide (2 ≤ ws.length) && decide (ws.length ≤ 5) && objOk (w 0) && fld (w 1) 2 30 == 0 && ty != 3
  && (if ty == 2 then
        fld (w 2) 8 24 == 0 && bitAt (w 2) (fld (w 0) 16 8) && !((w 3) == 0 && (w 4) == 0)
      else w 4 == 0 && (ty == 0 || w 3 == 0))

/-- The checks of a sync command as it leaves the sequencer (R288). -/
def issueSync (q : Tile) (e : QEntry) : Except Nat (Tile × QEntry) :=
  let w := wordAt e.words
  let n := e.words.length
  let ok : Except Nat (Tile × QEntry) := .ok (q, { e with words := padWords e.words })
  let res := fun (en : Bool) (a : Nat) => if en then
      match resFault a with
      | some c => .error c
      | none => ok
    else ok
  match e.code with
  | 0x01 => if syInitOk e.words then ok else .error causeIllegal
  | 0x02 => if n == 3 && objOk (w 0) && fld (w 2) 0 2 != 3 && fld (w 2) 3 29 == 0 then ok else .error causeIllegal
  | 0x03 =>
    if n == 4 && objOk (w 0) && fld (w 2) 3 13 == 0 && fld (w 3) 15 17 == 0 then res (bitAt (w 3) 14) (fld (w 3) 0 14)
    else .error causeIllegal
  | 0x04 =>
    if n == 3 && objOk (w 0) && fld (w 1) 3 13 == 0 && !(bitAt (w 1) 0 && bitAt (w 1) 1) && fld (w 2) 15 17 == 0 then
      res (bitAt (w 2) 14) (fld (w 2) 0 14)
    else .error causeIllegal
  | 0x05 => if n == 1 && objOk (w 0) then ok else .error causeIllegal
  | 0x06 => if n == 2 && objOk (w 0) && fld (w 1) 14 18 == 0 then res true (fld (w 1) 0 14) else .error causeIllegal
  | _ => .error causeIllegal

/-! ### Results -/

/-- The 32-byte data of a result message: outcome, then value (R292, log 13). -/
def resultBytes (o v : Nat) : List Byte := leBytes 4 o ++ leBytes 4 v ++ List.replicate 24 0

/-- Send a result to whoever asked (R292): a message inside the die, or a packet. -/
def State.answer (s : State) (src : SyncSrc) (o v : Nat) : State :=
  match src with
  | .remote d p tag job =>
    s.reply p { Packet.zero with srcDie := d, tag := tag, job := job } (withData (s.packet 1 9 d 122) (resultBytes o v))
  | .nobody => s
  | _ => { s with sync := { s.sync with results := s.sync.results ++ [⟨src, o, v⟩] } }

/-- Send several results. -/
def State.answers (s : State) (rs : List SyncResult) : State := rs.foldl (fun s r => s.answer r.src r.outcome r.value) s

/-- An object homed here. -/
def State.obj (s : State) (i : Nat) : SyncObj := Tab.get SyncObj.init s.sync.objs i
/-- Write an object. -/
def State.setObj (s : State) (i : Nat) (o : SyncObj) : State :=
  { s with sync := { s.sync with objs := Tab.set SyncObj.init s.sync.objs i o } }
/-- A barrier record of this die. -/
def State.bar (s : State) (id : Nat) : Option Barrier := Tab.get none s.sync.bars id
/-- Write a barrier record. -/
def State.setBar (s : State) (id : Nat) (b : Option Barrier) : State :=
  { s with sync := { s.sync with bars := Tab.set none s.sync.bars id b } }

/-! ### Counters and flags (R289, R290) -/

/-- Whether a waiter is satisfied by the object's present value (R290). -/
def waiterOk (o : SyncObj) (w : SyncWaiter) : Bool :=
  if o.typ == 0 then decide ((if w.operand = 0 then o.target else w.operand) ≤ o.value)
  else if w.any then (o.value &&& w.operand) != 0
  else (o.value &&& w.operand) == w.operand

/-- Clear the bits of a mask. -/
def clearBits (v m : Nat) : Nat := v &&& (2 ^ 32 - 1 - m % 2 ^ 32)

/-- Test waiters in order of arrival: a satisfied one is released with the value seen, and with `TAKE` clears its
mask bits before the next is tested (R289). -/
def testWaiters (o : SyncObj) : List SyncWaiter → SyncObj × List SyncResult
  | [] => ({ o with waiters := [] }, [])
  | w :: ws =>
    if waiterOk o w then
      let r := testWaiters { o with value := if w.take && o.typ == 1 then clearBits o.value w.operand else o.value } ws
      (r.1, ⟨w.src, 0, o.value⟩ :: r.2)
    else
      let r := testWaiters o ws
      ({ r.1 with waiters := w :: r.1.waiters }, r.2)

/-- Give an object a value and test its waiters (R289). -/
def State.setValue (s : State) (i : Nat) (o : SyncObj) (v : Nat) : State :=
  let r := testWaiters { o with value := v } o.waiters
  (s.setObj i r.1).answers r.2

/-- Release every waiter of an object with an outcome. -/
def State.releaseAll (s : State) (i : Nat) (o : SyncObj) (outcome value : Nat) : State :=
  (s.setObj i { o with waiters := [] }).answers (o.waiters.map (fun w => ⟨w.src, outcome, value⟩))

/-! ### Barriers (R297 to R299) -/

/-- Whether the barrier names one die only. -/
def Barrier.dieWide (b : Barrier) : Bool := popCount b.dieMask 8 == 1

/-- Participating logical cores of this die. -/
def Barrier.parts (b : Barrier) : List Nat := bitList b.coreMask 64

/-- A participant's next round minus the oldest open one (R298). -/
def Barrier.next (b : Barrier) (c : Nat) : Nat := Tab.get 0 b.ahead c

/-- Whether every participant of this die has arrived for the `k`-th open round. -/
def Barrier.full (b : Barrier) (k : Nat) : Bool := b.parts.all (fun c => decide (k < b.next c))

/-- Round `k` rounds after the oldest open one. -/
def Barrier.roundAt (b : Barrier) (k : Nat) : Nat := (b.round + k) % 2 ^ 32

/-- One arrival (R298): answers the record, the results, and whether the core takes part. -/
def Barrier.arrive (b : Barrier) (src : SyncSrc) (c : Nat) (wait : Bool) : Barrier × List SyncResult × Bool :=
  if !b.coreMask.testBit c then (b, [], false)
  else if b.next c ≤ 1 then
    let r := b.roundAt (b.next c)
    let b' := { b with ahead := Tab.mod 0 b.ahead c (· + 1) }
    if wait then ({ b' with waits := b.waits ++ [⟨src, c, some r, true⟩] }, [], true) else (b', [⟨src, 0, r⟩], true)
  else ({ b with waits := b.waits ++ [⟨src, c, none, wait⟩] }, [], true)

/-- Blocked arrivals are accepted once the oldest round has closed (R298). -/
def Barrier.unblock (b : Barrier) : List BarWait → Barrier × List SyncResult
  | [] => ({ b with waits := [] }, [])
  | w :: ws =>
    match w.round with
    | none =>
      if b.next w.core ≤ 1 then
        let r := b.roundAt (b.next w.core)
        let x := Barrier.unblock { b with ahead := Tab.mod 0 b.ahead w.core (· + 1) } ws
        if w.wait then ({ x.1 with waits := { w with round := some r } :: x.1.waits }, x.2)
        else (x.1, ⟨w.src, 0, r⟩ :: x.2)
      else
        let x := Barrier.unblock b ws
        ({ x.1 with waits := w :: x.1.waits }, x.2)
    | some _ =>
      let x := Barrier.unblock b ws
      ({ x.1 with waits := w :: x.1.waits }, x.2)

/-- Close the oldest open round of a record (R298): the participants' next rounds are unchanged, except that one which
had not arrived is raised (R307). -/
def Barrier.close (b : Barrier) : Barrier × List SyncResult :=
  let g := b.round
  let rel := (b.waits.filter (fun w => w.round == some g)).map (fun w => (⟨w.src, 0, g⟩ : SyncResult))
  let b' := { b with
    round := b.roundAt 1, ahead := b.ahead.filterMap (fun (e : Nat × Nat) => if e.2 ≤ 1 then none else some (e.1, e.2 - 1))
    reported := b.reported - 1, reports := b.reports.filterMap (fun (e : Nat × Nat) => if e.2 ≤ 1 then none else some (e.1, e.2 - 1)) }
  let r := b'.unblock (b.waits.filter (fun w => w.round != some g))
  (r.1, rel ++ r.2)

/-- The leader die, where the package root is (R299). -/
def State.leader (s : State) : Nat := s.pkg.leader

/-- The other dies that hold a record of a barrier with this die mask, the package root first (R297, R299). -/
def State.recordDies (s : State) (mask : Nat) : List Nat :=
  let ds := (bitList (mask ||| (if popCount mask 8 == 1 then 0 else 2 ^ s.leader)) 8).filter (· != s.pos)
  ds.filter (· == s.leader) ++ ds.filter (· != s.leader)

/-- The other dies that hold a record of a barrier whose record this die holds. -/
def State.otherDies (s : State) (id : Nat) : List Nat :=
  match s.bar id with
  | some b => s.recordDies b.dieMask
  | none => []

/-- Data of a barrier message: object and round (R299, log 13). -/
def barBytes (id round : Nat) : List Byte := leBytes 4 id ++ leBytes 4 round ++ List.replicate 24 0

/-- Tell the other dies that hold a record that its oldest open round has closed (R299). -/
def State.tellClosed (s : State) (id : Nat) (b : Barrier) : State :=
  (s.recordDies b.dieMask).foldl (fun s d => s.send d (withData (s.packet 3 2 d 122) (barBytes id b.round)) none) s

/-- Close rounds while the condition holds; at the package root each closing is released to the other dies (R299). -/
def State.closeRounds (s : State) (id : Nat) : Nat → State
  | 0 => s
  | n + 1 =>
    match s.bar id with
    | none => s
    | some b =>
      let ready := if b.dieWide then b.full 0 && b.dieMask.testBit s.pos
        else s.leader == s.pos && (bitList b.dieMask 8).all (fun d =>
          if d == s.pos then b.full 0 else decide (1 ≤ Tab.get 0 b.reports d))
      if b.st != 1 || !ready then s
      else
        let r := b.close
        let s := (s.setBar id (some r.1)).answers r.2
        State.closeRounds (s.tellClosed id b) id n

/-- Report to the package root the rounds for which all participants of this die have arrived (R299). -/
def State.reportRounds (s : State) (id : Nat) : Nat → State
  | 0 => s
  | n + 1 =>
    match s.bar id with
    | none => s
    | some b =>
      if b.dieWide || s.leader == s.pos || b.st != 1 || !b.dieMask.testBit s.pos || !b.full b.reported
          || decide (2 ≤ b.reported) then s
      else
        State.reportRounds ((s.setBar id (some { b with reported := b.reported + 1 })).send s.leader
          (withData (s.packet 3 1 s.leader 122) (barBytes id (b.roundAt b.reported))) none) id n

/-- What follows a change of a barrier record: reports and closings. -/
def State.barSettle (s : State) (id : Nat) : State := (s.reportRounds id 2).closeRounds id 3

/-- Break a barrier record: everything that waits is released with an outcome (R302, R304). -/
def State.breakBar (s : State) (id st outcome : Nat) : State :=
  match s.bar id with
  | none => s
  | some b =>
    (s.setBar id (some { b with st := st, waits := [], ahead := [], reported := 0, reports := [] })).answers
      (b.waits.map (fun w => ⟨w.src, outcome, w.round.getD 0⟩))

/-- Drop a barrier record, releasing everything that waits (R287). -/
def State.dropBar (s : State) (id outcome : Nat) : State :=
  match s.bar id with
  | none => s
  | some b => (s.setBar id none).answers (b.waits.map (fun w => ⟨w.src, outcome, w.round.getD 0⟩))

/-! ### Requests (R286, R287, R292, R293) -/

/-- Pass something on to other dies without waiting for an answer. -/
def State.shareSync (s : State) (ds : List Nat) (r : SyncReq) : State :=
  ds.foldl (fun s d => (s.sendSync d { r with src := .nobody }).1) s

/-- A message of this die about an object: nobody waits for its answer (log 51). -/
def State.note (s : State) (code : Nat) (words : List Word) (job stream : Nat) : SyncReq :=
  { code := code, words := words, job := job, stream := stream, die := s.pos, core := 0, src := .nobody }

/-- Create this die's record of a barrier as its `SY_INIT` says (R297). -/
def State.putRecord (s : State) (r : SyncReq) (id : Nat) : State :=
  let w := wordAt r.words
  let dies := fld (w 2) 0 8
  (s.dropBar id 2).setBar id (some {
    job := r.job, st := 1, dieMask := dies
    coreMask := if dies.testBit s.pos then (w 3).toNat + (w 4).toNat * 2 ^ 32 else 0
    round := 0, ahead := [], waits := [], reported := 0, reports := [] })

/-- Whether this die has a record for a barrier, or one free (R297): those of `SY_INIT`s under way are taken. -/
def State.recordRoom (s : State) (id : Nat) : Bool :=
  (s.bar id).isSome || decide (s.sync.bars.length + s.sync.inits.length < 4096)

/-- The object that a `SY_INIT` makes (R285, R286). -/
def initObj (r : SyncReq) : SyncObj :=
  let w := wordAt r.words
  let ty := fld (w 1) 0 2
  { typ := ty, st := 1, value := if ty == 2 then 0 else (w 2).toNat, target := if ty == 0 then (w 3).toNat else 0
    job := r.job, owner := r.stream, ownerDie := r.die, waiters := [] }

/-- An object becomes `LIVE` at its home, and whoever initialised it is answered (R286). -/
def State.initDone (s : State) (r : SyncReq) (id : Nat) : State :=
  let s : State := if fld (wordAt r.words 1) 0 2 == 2 then s.putRecord r id else s.dropBar id 2
  (s.setObj (id % 65536) (initObj r)).answer r.src 0 0

/-- Remember a `SY_INIT` under way, or forget it. -/
def State.setInit (s : State) (id : Nat) (x : Option InitWait) : State :=
  { s with sync := { s.sync with inits := Tab.set none s.sync.inits id x } }

/-- A `SY_INIT` under way ends without success: the records that other dies have made are free again (R292, R297). -/
def State.initUndo (s : State) (id : Nat) (x : InitWait) : State :=
  ((s.setInit id none).shareSync x.made (s.note 5 [BitVec.ofNat 32 id] x.req.job x.req.stream)).answer x.req.src 4 0

/-- A `SY_INIT` of a package-wide barrier goes on with the next die that is to make a record; with none left the barrier
is `LIVE`, if no die that it names has been lost meanwhile (R297, R299). -/
def State.initGo (s : State) (id : Nat) (x : InitWait) : State :=
  match x.left with
  | [] =>
    if (bitList (fld (wordAt x.req.words 2) 0 8) 8).all (fun d => fld (wordAt x.req.words 1) 0 2 != 2 || s.pkg.members.testBit d) then
      (s.setInit id none).initDone x.req id
    else s.initUndo id x
  | d :: _ =>
    let (s', ok) := (s.setInit id (some x)).sendSync d { x.req with src := .init id }
    if ok then s' else s'.initUndo id x

/-- `SY_INIT` at the home (R286, R297): records that an earlier barrier has on dies which the new one does not name are
freed. -/
def State.syncInit (s : State) (r : SyncReq) (id : Nat) : State :=
  let w := wordAt r.words
  let ty := fld (w 1) 0 2
  let dies := fld (w 2) 0 8
  let o := s.obj (id % 65536)
  let free := o.st == 0 || o.st == 2 || o.st == 3
  let bad := ty == 2 && ((bitList dies 8).any (fun d => !s.pkg.members.testBit d) || !s.recordRoom id)
  if !free || bad then s.answer r.src 4 0
  else
    let left := if ty == 2 then s.recordDies dies else []
    let old := (s.otherDies id).filter (fun d => !left.contains d)
    (s.shareSync old (s.note 5 [BitVec.ofNat 32 id] r.job r.stream)).initGo id { req := r, left := left, made := [] }

/-- A `SY_INIT` that the home has passed on to this die (R297): exhausted records refuse it. -/
def State.syncRecord (s : State) (r : SyncReq) (id : Nat) : State :=
  if s.recordRoom id then (s.putRecord r id).answer r.src 0 0 else s.answer r.src 4 0

/-- An arrival at this die's record (R298): `r.core` arrives. -/
def State.syncArrive (s : State) (r : SyncReq) (id : Nat) : State :=
  match s.bar id with
  | none => s.answer r.src 4 0
  | some b =>
    if b.st == 2 then s.answer r.src 2 0
    else if b.st == 3 then s.answer r.src 3 0
    else
      let (b', rs, ok) := b.arrive r.src r.core (bitAt (wordAt r.words 1) 0)
      if !ok then s.answer r.src 4 0 else ((s.setBar id (some b')).answers rs).barSettle id

/-- `SY_FREE` at the home: waiters are released with `ABANDONED` and the object becomes `FREE`, here and, for a barrier, on
the other dies of its mask (R287, R297). -/
def State.syncFree (s : State) (r : SyncReq) (id i : Nat) (o : SyncObj) : State :=
  (((((s.releaseAll i o 2 0).setObj i SyncObj.init).dropBar id 2)).shareSync (s.otherDies id) r).answer r.src 0 0

/-- Release everything that waits at this die's record of a barrier with an outcome (R307). -/
def State.releaseBar (s : State) (id outcome : Nat) : State :=
  match s.bar id with
  | some b => (s.setBar id (some { b with waits := [] })).answers (b.waits.map (fun w => ⟨w.src, outcome, w.round.getD 0⟩))
  | none => s

/-- One object homed here becomes `ABANDONED` with its records, and everything that waits on it is released (R302). -/
def State.abandonObj (s : State) (i : Nat) (o : SyncObj) : State :=
  let id := i + s.pos * 65536
  ((s.releaseAll i { o with st := 2 } 2 0).breakBar id 2 2).shareSync (s.otherDies id)
    (s.note 10 [BitVec.ofNat 32 id] o.job o.owner)

/-- The owners of objects are gone: the `LIVE` ones homed here become `ABANDONED` (R302). -/
def State.abandonObjs (s : State) (own : SyncObj → Bool) : State :=
  s.sync.objs.foldl (fun s e => if e.2.st == 1 && own e.2 then s.abandonObj e.1 e.2 else s) s

/-- Abandoned objects homed here return to `FREE`, with their records (R302). -/
def State.freeObjs (s : State) (own : SyncObj → Bool) : State :=
  s.sync.objs.foldl (fun s e =>
    if e.2.st != 0 && own e.2 then
      let id := e.1 + s.pos * 65536
      ((s.setObj e.1 SyncObj.init).dropBar id 2).shareSync (s.otherDies id) (s.note 5 [BitVec.ofNat 32 id] e.2.job e.2.owner)
    else s) s

/-- The home of a wait of another die withdraws it if it has not satisfied it, and answers the wait itself with outcome 6:
withdrawn (R300; log 51). -/
def State.withdrawFor (s : State) (d tag : Nat) : State :=
  let me := fun (x : SyncSrc) => match x with
    | .remote d' _ tag' _ => d' == d && tag' == tag
    | _ => false
  let hit := s.sync.objs.flatMap (fun e => (e.2.waiters.filter (fun w => me w.src)).map (·.src))
    ++ (s.sync.held.filter (fun r => me r.src)).map (·.src)
  (s.dropSrcs me).answers (hit.map (fun x => ⟨x, 6, 0⟩))

/-- What other dies tell this one about objects (log 51): 7 withdraw a wait; 8 a stream of the sender is gone; 9 a job
of the sender is killed; 10 a barrier is `ABANDONED`; 11 the debugger releases its waiters. -/
def State.syncNote (s : State) (r : SyncReq) : State :=
  let id := (wordAt r.words 0).toNat
  let own := fun (o : SyncObj) => o.ownerDie == r.die
  match r.code with
  | 7 => s.withdrawFor r.die id
  | 8 => s.abandonObjs (fun o => own o && o.owner == r.stream)
  | 9 => (s.abandonObjs (fun o => own o && o.job == r.job)).freeObjs (fun o => own o && o.job == r.job)
  | 10 => match s.bar id with
    | some b => if b.st == 1 then s.breakBar id 2 2 else s
    | none => s
  | 11 => s.releaseBar id ((wordAt r.words 1).toNat % 4)
  | _ => s

/-- A signal, a wait or a read on a `LIVE` object at its home (R289, R290). -/
def State.syncLive (s : State) (r : SyncReq) (id i : Nat) (o : SyncObj) : State :=
  let w := wordAt r.words
  let v := (w 1).toNat
  match r.code with
  | 2 =>
    let op := fld (w 2) 0 2
    if o.typ == 0 && op == 0 then (s.setValue i o (satAdd o.value v)).answer r.src 0 0
    else if o.typ == 0 && op == 2 then (s.setValue i o v).answer r.src 0 0
    else if o.typ == 1 && op == 0 then (s.setValue i o (o.value ||| v)).answer r.src 0 0
    else if o.typ == 1 && op == 1 then (s.setValue i o (clearBits o.value v)).answer r.src 0 0
    else s.answer r.src 4 0
  | 3 =>
    if o.typ == 2 || (o.typ == 1 && v == 0) then s.answer r.src 4 0
    else
      let x : SyncWaiter := ⟨r.src, v, bitAt (w 2) 1, bitAt (w 2) 2⟩
      if waiterOk o x then
        (s.setObj i { o with value := if x.take && o.typ == 1 then clearBits o.value v else o.value }).answer r.src 0 o.value
      else s.setObj i { o with waiters := o.waiters ++ [x] }
  | 6 => s.answer r.src 0 (if o.typ == 2 then (match s.bar id with
      | some b => b.round
      | none => 0) else o.value)
  | _ => s.answer r.src 4 0

/-- Apply a request at its home (R286 to R293): an operation of another job is refused and recorded here; one that finds a
`SY_INIT` of the object under way waits for it (R289). An arrival from another die has found no record there: it is no
participant's. -/
def State.syncHome (s : State) (r : SyncReq) (id : Nat) : State :=
  let i := id % 65536
  let o := s.obj i
  if (Tab.get none s.sync.inits id).isSome then { s with sync := { s.sync with held := s.sync.held ++ [r] } }
  else if o.st != 0 && o.job != r.job then (s.refusedEvent r.job r.die r.core id 1).answer r.src 5 0
  else if r.code == 1 then s.syncInit r id
  else if o.st == 0 then s.answer r.src 4 0
  else if r.code == 5 then s.syncFree r id i o
  else if o.st == 2 then s.answer r.src 2 0
  else if o.st == 3 then s.answer r.src 3 0
  else if r.code == 4 then (if o.typ == 2 && r.die == s.pos then s.syncArrive r id else s.answer r.src 4 0)
  else s.syncLive r id i o

/-- Apply a request that has reached this die: at the object's home, or as a die that holds a record of the barrier (R297). -/
def State.syncApply (s : State) (r : SyncReq) : State :=
  let id := (wordAt r.words 0).toNat
  if 7 ≤ r.code then (s.syncNote r).answer r.src 0 0
  else if id / 65536 == s.pos then s.syncHome r id
  else if r.code == 1 then s.syncRecord r id
  else if r.code == 5 then (s.dropBar id 2).answer r.src 0 0
  else s.answer r.src 4 0

/-- Operations that waited for a `SY_INIT` are applied in their order (R289). -/
def State.serveSync (s : State) (id : Nat) : State :=
  let mine := fun (r : SyncReq) => (wordAt r.words 0).toNat == id
  (s.sync.held.filter mine).foldl (fun s r => s.syncApply r)
    { s with sync := { s.sync with held := s.sync.held.filter (fun r => !mine r) } }

/-- A die has answered the home of a barrier that is being initialised (R297). -/
def State.initNext (s : State) (id o : Nat) : State :=
  match Tab.get none s.sync.inits id with
  | none => s
  | some x =>
    let s : State := match x.left with
      | [] => s.initGo id x
      | d :: ds => if o == 0 then s.initGo id { x with left := ds, made := x.made ++ [d] } else s.initUndo id x
    if (Tab.get none s.sync.inits id).isSome then s else s.serveSync id

/-- Whether a request is an arrival that this die's record of a barrier homed elsewhere decides (R299). -/
def State.arrivesHere (s : State) (r : SyncReq) : Bool :=
  r.code == 4 && (match s.bar (wordAt r.words 0).toNat with
    | some b => b.job == r.job
    | none => false)

/-- Send a request to where it is applied: arrivals to this die's root, anything else to the object's home, as well as an
arrival that finds no record of its job here (R291, R299); an object of a lost die answers with `OWNER_LOST` (R304). Answers
the state and whether it could be sent. -/
def State.syncSend (s : State) (r : SyncReq) : State × Bool :=
  let d := fld (wordAt r.words 0) 16 8
  if d == s.pos then (s.syncApply r, true)
  else if s.pkg.lostSeen.testBit d then (s.answer r.src 3 0, true)
  else if s.arrivesHere r then (s.syncArrive r (wordAt r.words 0).toNat, true)
  else s.sendSync d r

/-! ### The sync unit of a tile -/

/-- The request that a queued command of a tile makes. -/
def State.syncReq (s : State) (t : Nat) (e : QEntry) : SyncReq :=
  let z := (s.tile t).seq
  { code := e.code, words := e.words, job := z.job, stream := z.stream, die := s.pos, core := z.lcore, src := .tile t }

/-- Whether a command defers its operation to the descriptor's completion (R295). -/
def isDeferred (e : QEntry) : Bool := (e.code == 2 && bitAt (wordAt e.words 2) 2) || (e.code == 4 && bitAt (wordAt e.words 1) 1)

/-- The head command of the sync unit starts: it is recorded when deferred, sent otherwise; a withdrawn arrival-wait
waits again for the round it counted toward, unless its barrier is `ABANDONED` or `LOST` (R291, R295, R300). -/
def State.syncStart (s : State) (t : Nat) (e : QEntry) : State :=
  let r := s.syncReq t e
  let mark := fun (s : State) => s.onTile t (fun q =>
    ({ q with sync := { q.sync with since := s.now } } : Tile).onEntry 5 0 (fun x => { x with inFlight := true }))
  if isDeferred e then
    if 8 ≤ (s.tile t).sync.deferred.length then s.runTile t (fun q => q.progFault 0x13 0)
    else
      s.runTile t (fun q => ({ q with sync := { q.sync with deferred := q.sync.deferred ++ [r] } } : Tile).retire 5 0)
  else
    match e.store with
    | some (round, _, _) =>
      let id := (wordAt e.words 0).toNat
      match s.bar id with
      | some b =>
        if b.st == 2 || b.st == 3 then mark (s.answer (.tile t) b.st round)
        else if b.round == round || b.roundAt 1 == round then
          mark (s.setBar id (some { b with waits := b.waits ++ [⟨.tile t, r.core, some round, true⟩] }))
        else mark (s.answer (.tile t) 0 round)
      | none => mark (s.answer (.tile t) 2 round)
    | none =>
      let s := if e.code == 1 || e.code == 2 || e.code == 4 || e.code == 5 then s.escape t else s
      let (s', ok) := (mark s).syncSend r
      if ok then s' else s'.drawIn t causePortFault 127

/-- `RES_ADDR` and `RES_EN` of a command (R287). -/
def resOf (e : QEntry) : Bool × Nat :=
  match e.code with
  | 3 => (bitAt (wordAt e.words 3) 14, fld (wordAt e.words 3) 0 14)
  | 4 => (bitAt (wordAt e.words 2) 14, fld (wordAt e.words 2) 0 14)
  | 6 => (true, fld (wordAt e.words 1) 0 14)
  | _ => (false, 0)

/-- Whether a command is `SOFT` (R293). -/
def isSoft (e : QEntry) : Bool :=
  (e.code == 3 && bitAt (wordAt e.words 2) 0) || (e.code == 4 && bitAt (wordAt e.words 1) 2)

/-- Cause code of an outcome that stops a program (R286, R293). -/
def outcomeCause : Nat → Nat
  | 1 => 0x12
  | 2 => 0x10
  | 3 => 0x11
  | 4 => 0x13
  | _ => causeSecurity

/-- `TIMEOUT` of a command, in microseconds; 0 none (R287). -/
def timeoutOf (e : QEntry) : Nat :=
  if e.code == 3 then fld (wordAt e.words 2) 16 16 else if e.code == 4 then fld (wordAt e.words 1) 16 16 else 0

/-- The window of a tile's head command, in nanoseconds from its start; none: it has no time-out (R294, R300). -/
def Tile.syncWindow (q : Tile) (e : QEntry) : Option Nat :=
  if timeoutOf e = 0 then none else some (if q.sync.withdrawn.isSome then 1000 * timeoutOf e else q.sync.left.getD (1000 * timeoutOf e))

/-- Whether the window of a tile's head command has ended at a time (R294). -/
def Tile.syncLate (q : Tile) (e : QEntry) (now : Nat) : Bool :=
  match q.syncWindow e with
  | some w => decide (q.sync.since + w ≤ now)
  | none => false

/-- The head command of a tile's sync unit is withdrawn, with what is left of its window and the round that it counted
toward (R300). -/
def State.syncBack (s : State) (t : Nat) (round : Option Nat) : State :=
  s.onTile t (fun q => match q.sync.q with
    | [] => q
    | e :: es =>
      { q with sync := { q.sync with
          q := es
          withdrawn := some { e with inFlight := false, store := match round with
            | some r => some (r, 0, 0)
            | none => e.store }
          left := (q.syncWindow e).map (fun w => q.sync.since + w - s.now) } })

/-- The head command of a tile's sync unit ends with an outcome (R292, R293); one of the four that comes after the window
is a time-out (R294), and 6 says that the home has withdrawn it (R300). -/
def State.syncEnd (s : State) (t o v : Nat) : State :=
  match (s.tile t).sync.q with
  | [] => s
  | e :: _ =>
    let o := if o ≤ 3 && (s.tile t).syncLate e s.now then 1 else o
    if !e.inFlight then s
    else if o == 6 then s.syncBack t none
    else if o == 0 || (isSoft e && decide (o ≤ 3)) then
      let s := if o == 0 && e.code == 3 && bitAt (wordAt e.words 2) 2 then s.escape t else s
      s.runTile t (fun q =>
        let q := if (resOf e).1 then
            q.onSeq (fun z => { z with dmem := (z.dmem.wrLE (resOf e).2 4 o).wrLE ((resOf e).2 + 4) 4 (if o == 0 || e.code == 4 then v else 0) })
          else q
        ({ q with sync := { q.sync with left := if q.sync.withdrawn.isSome then q.sync.left else none } } : Tile).retire 5 0)
    else s.runTile t (fun q => (q.onQueue 5 (fun l => dropAt l 0)).progFault (outcomeCause o) 0)

/-- The round that a waiting arrival of a tile counted toward, if the record holds its wait. -/
def State.waitRound (s : State) (t id : Nat) : Option (Option Nat) :=
  match s.bar id with
  | none => none
  | some b => (b.waits.find? (fun w => w.src == .tile t)).map (·.round)

/-- A yield asks the home to withdraw the head command if that has not been decided (R300). A command whose result is on
its way is left, and one whose home is another die waits for that home's answer. -/
def State.syncYield (s : State) (t : Nat) : State :=
  let me := fun (x : SyncSrc) => x == .tile t
  match (s.tile t).sync.q with
  | [] => s
  | e :: _ =>
    if !e.inFlight || !(e.code == 3 || e.code == 4) || s.sync.results.any (fun r => me r.src) then s
    else
      let away := s.rdc.opens.filterMap (fun x => x.2.bind (fun o => if o.asks me then some (x.1, o) else none))
      if away.isEmpty then
        let round := (s.waitRound t (wordAt e.words 0).toNat).getD none
        (s.dropSrcs me).syncBack t round
      else away.foldl (fun s x => s.askWithdraw x.1 x.2) s

/-- A wait's window ends without a release (R294): the wait is withdrawn and ends with `TIMEOUT`; an accepted arrival
stays counted and reports its round. -/
def State.syncTimeout (s : State) (t : Nat) : State :=
  let me := fun (x : SyncSrc) => x == .tile t
  match (s.tile t).sync.q with
  | [] => s
  | e :: _ =>
    if !e.inFlight || !(s.tile t).syncLate e s.now then s
    else
      let round := match s.sync.results.find? (fun r => me r.src) with
        | some r => r.value
        | none => match e.store with
          | some (round, _, _) => round
          | none => ((s.waitRound t (wordAt e.words 0).toNat).getD none).getD 0
      (s.withdraw me none).syncEnd t 1 round

/-! ### Abandonment (R302) -/

/-- Other members of the package. -/
def State.otherMembers (s : State) : List Nat := (bitList s.pkg.members 8).filter (· != s.pos)

/-- A stream of this die is gone: the objects that it owns become `ABANDONED`, wherever they are homed (R302). -/
def State.abandonStream (s : State) (k : Nat) : State :=
  let s : State := s.abandonObjs (fun o => o.owner == k && o.ownerDie == s.pos)
  s.shareSync s.otherMembers (s.note 8 [] 0 k)

/-- A killed job's objects release their waiters and return to `FREE` (R302, R342): those homed here, and those that its
streams here own on other dies. -/
def State.freeJobObjs (s : State) (j : Nat) : State :=
  let s : State := (s.abandonObjs (fun o => o.job == j)).freeObjs (fun o => o.job == j)
  s.shareSync s.otherMembers (s.note 9 [] j 0)

end Sys2Proof.Machine
end

