-- ==== Sys2Proof/Machine/Operands.lean ====
section
/-!
DEFINITION. Operand forms of the sequencer's words: which 32-bit words are legal instructions (R40 to R47, R53, R180),
and the parameter words that an `ISSUE` or `VEC` reads as it leaves the sequencer (R47, R48).
-/

namespace Sys2Proof.Machine

open Sys2Proof

/-- Command codes of the engines that `ISSUE` reaches (R47, R74, R130, R152, R168, R203, R268, R287). -/
def issueCodeOk (eng code : Nat) : Bool :=
  match eng with
  | 0 => (1 ≤ code && code ≤ 3) || (0x10 ≤ code && code ≤ 0x12)
  | 1 => (1 ≤ code && code ≤ 3) || (0x10 ≤ code && code ≤ 0x12)
  | 3 => 1 ≤ code && code ≤ 7
  | 4 => 1 ≤ code && code ≤ 0xD
  | 5 => 1 ≤ code && code ≤ 6
  | _ => false

/-- Whether a 32-bit word is a legal instruction: no reserved class, function or operation, and every bit that its
class, operation and operands do not use is 0 (R40, R41). A `CSR` number and a parameter run past s31 are judged by
the instruction itself (R48, R58). -/
def wordLegal (w : Word) : Bool :=
  match fld w 28 4 with
  | 0 => fld w 5 8 == 0 && decide (fld w 0 5 ≤ 0xF)
  | 1 => true
  | 2 => fld w 16 2 != 3 && !(bitAt w 15 && bitAt w 14)
  | 3 => decide (fld w 15 3 ≤ 5)
  | 4 => !bitAt w 22 || fld w 0 17 == 0
  | 5 => fld w 12 4 == 0 && (fld w 16 2 != 0 || fld w 18 5 == 0)
  | 6 => issueCodeOk (fld w 24 4) (fld w 16 8) && (bitAt w 7 || fld w 4 3 == 0) && (bitAt w 3 || fld w 0 3 == 0)
  | 7 =>
    match fld w 24 4 with
    | 0 => fld w 6 18 == 0
    | 1 => fld w 3 21 == 0
    | 2 => fld w 3 21 == 0
    | 3 => fld w 3 3 == 0 && fld w 22 2 == 0
    | _ => false
  | 8 => vecFieldsOk (fld w 22 6) (vecArgs w)
  | 9 => decide (fld w 24 4 ≤ 3) && fld w 16 8 == 0 && (fld w 24 4 == 2 || fld w 0 16 == 0)
  | _ => false

/-- The parameter words of an `ISSUE`, from the consecutive registers (R47, R48). -/
def issueWords (q : Tile) (a : IssueArgs) : List Word :=
  (List.range (a.n1.toNat + 1)).map (fun i => q.reg (BitVec.ofNat 5 (a.ra.toNat + i)))

/-- Whether the register run of an `ISSUE` extends past s31 (R48). -/
def issuePastEnd (a : IssueArgs) : Bool := decide (32 < a.ra.toNat + a.n1.toNat + 1)

/-- The command that an `ISSUE` builds. -/
def issueEntry (q : Tile) (code : Nat) (a : IssueArgs) : QEntry :=
  { QEntry.init with code := code, words := issueWords q a,
                     wait := a.w.map BitVec.toNat, post := a.p.map BitVec.toNat }

/-- The instruction that a `VEC` forwards (R180). `VWAIT` takes a token as a command with W = 1 does, `VPOST` posts one
(R188). -/
def vecEntry (q : Tile) (vop : Nat) (v : VecArgs) : QEntry :=
  { QEntry.init with
      code := vop, enc := vecEnc vop v, words := vecWords q vop v
      wait := if vop == opVWAIT then some (v.modv.toNat % 8) else none
      post := if vop == opVPOST then some (v.modv.toNat % 8) else none }

end Sys2Proof.Machine
end

