-- ==== Sys2Proof/Machine/Sequencer.lean ====
section
/-!
DEFINITION. The instructions of the sequencer: integer arithmetic, data memory, branches and jumps, core registers,
fences and tokens, `SYS` (spec/02_core_and_sequencer.md, R40 to R62).
-/

namespace Sys2Proof.Machine

open Sys2Proof

/-! ### ALU and ALUI (R42) -/

/-- Write rd and move on. -/
def Tile.result (q : Tile) (rd : BitVec 5) (v : Word) : Tile := (q.setReg rd v).advance

/-- An `ALU` instruction: rd takes a function of ra and rb (R42). -/
def aluOp (f : Word → Word → Word) (rd ra rb : BitVec 5) (q : Tile) : Tile :=
  q.result rd (f (q.reg ra) (q.reg rb))

/-- 1 for true, 0 for false, as a register value. -/
def boolWord (b : Bool) : Word := if b then 1 else 0

/-- Bits [63:32] of the unsigned product (R42). -/
def mulHigh (a b : Word) : Word := BitVec.ofNat 32 (a.toNat * b.toNat / 2 ^ 32)

/-- `ADD`: ra + rb modulo 2^32 (R42). -/
def execAdd (t : Nat) (rd ra rb : BitVec 5) (s : State) := instrOn t (aluOp (· + ·) rd ra rb) s
/-- `SUB`: ra − rb modulo 2^32 (R42). -/
def execSub (t : Nat) (rd ra rb : BitVec 5) (s : State) := instrOn t (aluOp (· - ·) rd ra rb) s
/-- `AND` (R42). -/
def execAnd (t : Nat) (rd ra rb : BitVec 5) (s : State) := instrOn t (aluOp (· &&& ·) rd ra rb) s
/-- `OR` (R42). -/
def execOr (t : Nat) (rd ra rb : BitVec 5) (s : State) := instrOn t (aluOp (· ||| ·) rd ra rb) s
/-- `XOR` (R42). -/
def execXor (t : Nat) (rd ra rb : BitVec 5) (s : State) := instrOn t (aluOp (· ^^^ ·) rd ra rb) s
/-- `SLL`: the shift is rb[4:0] (R42). -/
def execSll (t : Nat) (rd ra rb : BitVec 5) (s : State) := instrOn t (aluOp (fun a b => a <<< fld b 0 5) rd ra rb) s
/-- `SRL`: logical shift right by rb[4:0] (R42). -/
def execSrl (t : Nat) (rd ra rb : BitVec 5) (s : State) := instrOn t (aluOp (fun a b => a >>> fld b 0 5) rd ra rb) s
/-- `SRA`: arithmetic shift right by rb[4:0] (R42). -/
def execSra (t : Nat) (rd ra rb : BitVec 5) (s : State) :=
  instrOn t (aluOp (fun a b => a.sshiftRight (fld b 0 5)) rd ra rb) s
/-- `SLT`: signed comparison (R42). -/
def execSlt (t : Nat) (rd ra rb : BitVec 5) (s : State) := instrOn t (aluOp (fun a b => boolWord (a.slt b)) rd ra rb) s
/-- `SLTU`: unsigned comparison (R42). -/
def execSltu (t : Nat) (rd ra rb : BitVec 5) (s : State) :=
  instrOn t (aluOp (fun a b => boolWord (a.ult b)) rd ra rb) s
/-- `MUL`: bits [31:0] of the product (R42). -/
def execMul (t : Nat) (rd ra rb : BitVec 5) (s : State) := instrOn t (aluOp (· * ·) rd ra rb) s
/-- `MULHU`: bits [63:32] of the unsigned product (R42). -/
def execMulhu (t : Nat) (rd ra rb : BitVec 5) (s : State) := instrOn t (aluOp mulHigh rd ra rb) s
/-- `MIN`: the smaller as signed values (R42). -/
def execMin (t : Nat) (rd ra rb : BitVec 5) (s : State) :=
  instrOn t (aluOp (fun a b => if a.slt b then a else b) rd ra rb) s
/-- `MAX`: the larger as signed values (R42). -/
def execMax (t : Nat) (rd ra rb : BitVec 5) (s : State) :=
  instrOn t (aluOp (fun a b => if a.slt b then b else a) rd ra rb) s
/-- `MINU`: the smaller as unsigned values (R42). -/
def execMinu (t : Nat) (rd ra rb : BitVec 5) (s : State) :=
  instrOn t (aluOp (fun a b => if a.ult b then a else b) rd ra rb) s
/-- `MAXU`: the larger as unsigned values (R42). -/
def execMaxu (t : Nat) (rd ra rb : BitVec 5) (s : State) :=
  instrOn t (aluOp (fun a b => if a.ult b then b else a) rd ra rb) s

/-- `ADDI`: ra + sign-extended imm16 (R42). -/
def execAddi (t : Nat) (rd ra : BitVec 5) (imm : BitVec 16) (s : State) :=
  instrOn t (fun q => q.result rd (q.reg ra + imm.signExtend 32)) s
/-- `ANDI`: ra AND zero-extended imm16 (R42). -/
def execAndi (t : Nat) (rd ra : BitVec 5) (imm : BitVec 16) (s : State) :=
  instrOn t (fun q => q.result rd (q.reg ra &&& imm.zeroExtend 32)) s
/-- `ORI`: ra OR zero-extended imm16 (R42). -/
def execOri (t : Nat) (rd ra : BitVec 5) (imm : BitVec 16) (s : State) :=
  instrOn t (fun q => q.result rd (q.reg ra ||| imm.zeroExtend 32)) s
/-- `LUI`: imm16 shifted left by 16; ra is ignored (R42). -/
def execLui (t : Nat) (rd _ra : BitVec 5) (imm : BitVec 16) (s : State) :=
  instrOn t (fun q => q.result rd (imm.zeroExtend 32 <<< 16)) s

/-! ### Data memory (R38, R43) -/

/-- Bytes of an access size. -/
def sizeBytes : MemSize → Nat
  | .b8 => 1 | .b16 => 2 | .b32 => 4

/-- Effective address of a `MEM` instruction (R43), as a 32-bit sum. -/
def effAddr (q : Tile) (ra : BitVec 5) (off : BitVec 14) : Nat := (q.reg ra + off.signExtend 32).toNat

/-- The fault of a data-memory address, if any: misalignment is checked first (R38). -/
def dmemFault (addr n : Nat) : Option Nat :=
  if addr % n ≠ 0 then some causeAlign
  else if 0x4000 < addr + n then some causeDmem
  else none

/-- Extend a loaded value to 32 bits (R43). -/
def loadExtend (n : Nat) (sx : Bool) (v : Nat) : Word :=
  if sx then BitVec.ofInt 32 (signedOf v (8 * n)) else BitVec.ofNat 32 v

/-- A load (R38, R43). -/
def loadOp (rd ra : BitVec 5) (off : BitVec 14) (size : MemSize) (sx : Bool) (q : Tile) : Tile :=
  match dmemFault (effAddr q ra off) (sizeBytes size) with
  | some c => q.progFault c 0
  | none => q.result rd (loadExtend (sizeBytes size) sx (q.seq.dmem.rdLE (effAddr q ra off) (sizeBytes size)))

/-- A store (R38, R43). -/
def storeOp (rs ra : BitVec 5) (off : BitVec 14) (size : MemSize) (q : Tile) : Tile :=
  match dmemFault (effAddr q ra off) (sizeBytes size) with
  | some c => q.progFault c 0
  | none =>
    ({ q with seq := { q.seq with
        dmem := q.seq.dmem.wrLE (effAddr q ra off) (sizeBytes size) (q.reg rs).toNat } } : Tile).advance

/-- `MEM` load of 8, 16 or 32 bits (R43). -/
def execMemLoad (t : Nat) (rd ra : BitVec 5) (off : BitVec 14) (size : MemSize) (sx : Bool) (s : State) :=
  instrOn t (loadOp rd ra off size sx) s
/-- `MEM` store of 8, 16 or 32 bits (R43). -/
def execMemStore (t : Nat) (rs ra : BitVec 5) (off : BitVec 14) (size : MemSize) (s : State) :=
  instrOn t (storeOp rs ra off size) s

/-! ### Branches and jumps (R44, R45) -/

/-- A conditional branch: a taken branch adds the word offset to its own address (R44). -/
def branchOp (cond : Word → Word → Bool) (ra rb : BitVec 5) (off : BitVec 15) (q : Tile) : Tile :=
  if cond (q.reg ra) (q.reg rb) then q.jumpTo ((q.seq.pc : Int) + off.toInt) else q.advance

/-- A jump: the address of the next instruction goes to rd, unless the jump faults (R44, R45). -/
def jumpLink (rd : BitVec 5) (target : Int) (q : Tile) : Tile :=
  if 0 ≤ target ∧ target < q.seq.progLen then (q.setReg rd (BitVec.ofNat 32 (q.seq.pc + 1))).jumpTo target
  else q.progFault causePc 0

/-- `BEQ` (R44). -/
def execBeq (t : Nat) (ra rb : BitVec 5) (off : BitVec 15) (s : State) := instrOn t (branchOp (· == ·) ra rb off) s
/-- `BNE` (R44). -/
def execBne (t : Nat) (ra rb : BitVec 5) (off : BitVec 15) (s : State) := instrOn t (branchOp (· != ·) ra rb off) s
/-- `BLT`, signed (R44). -/
def execBlt (t : Nat) (ra rb : BitVec 5) (off : BitVec 15) (s : State) := instrOn t (branchOp BitVec.slt ra rb off) s
/-- `BGE`, signed (R44). -/
def execBge (t : Nat) (ra rb : BitVec 5) (off : BitVec 15) (s : State) :=
  instrOn t (branchOp (fun a b => !a.slt b) ra rb off) s
/-- `BLTU` (R44). -/
def execBltu (t : Nat) (ra rb : BitVec 5) (off : BitVec 15) (s : State) := instrOn t (branchOp BitVec.ult ra rb off) s
/-- `BGEU` (R44). -/
def execBgeu (t : Nat) (ra rb : BitVec 5) (off : BitVec 15) (s : State) :=
  instrOn t (branchOp (fun a b => !a.ult b) ra rb off) s
/-- `JAL`: jump by the 22-bit word offset (R44). -/
def execJal (t : Nat) (rd : BitVec 5) (off : BitVec 22) (s : State) :=
  instrOn t (fun q => jumpLink rd ((q.seq.pc : Int) + off.toInt) q) s
/-- `JALR`: jump to the word address in ra[13:0] (R44). -/
def execJalr (t : Nat) (rd ra : BitVec 5) (s : State) :=
  instrOn t (fun q => jumpLink rd (fld (q.reg ra) 0 14 : Nat) q) s

/-! ### Core registers (R58, R59) -/

/-- Free entries of a queue. -/
def Tile.queueFree (q : Tile) (e : Nat) : Nat := queueDepth e - (q.queue e).length

/-- The value of a core register; none for an unlisted number (R58). `pos` is the die position, `t` the tile and `ts`
the timestamp. -/
def csrValue (q : Tile) (pos t ts : Nat) (num : Nat) : Option Word :=
  match num with
  | 0x000 => some q.seq.coreCfg
  | 0x001 => some (BitVec.ofNat 32 (q.seq.lcore + t * 2 ^ 16 + pos * 2 ^ 24))
  | 0x002 => some (BitVec.ofNat 32 q.seq.cycles)
  | 0x003 => some (BitVec.ofNat 32 (q.seq.cycles / 2 ^ 32))
  | 0x004 => some (BitVec.ofNat 32 ts)
  | 0x005 => some q.seq.tsHi
  | 0x006 => some (BitVec.ofNat 32 (q.queueFree 0 + q.queueFree 1 * 2 ^ 5 + q.queueFree 3 * 2 ^ 10
      + q.queueFree 5 * 2 ^ 15 + q.queueFree 4 * 2 ^ 20 + min (q.queueFree 2) 63 * 2 ^ 26))
  | 0x007 => some (BitVec.ofNat 32 (q.token 0 + q.token 1 * 2 ^ 16))
  | 0x008 => some (BitVec.ofNat 32 (q.token 2 + q.token 3 * 2 ^ 16))
  | 0x009 => some (BitVec.ofNat 32 (min (q.token 4) 255 + min (q.token 5) 255 * 2 ^ 8
      + min (q.token 6) 255 * 2 ^ 16 + min (q.token 7) 255 * 2 ^ 24))
  | 0x00A => some (q.seq.seed.truncate 32)
  | 0x00B => some ((q.seq.seed >>> 32).truncate 32)
  | _ => none

/-- The bits of `CORE_CFG` that hold a value; [15:4] are reserved (R59). -/
def coreCfgMask : Word := 0xFFFF000F

/-- A read of `TS_LO` latches `TS_HI` (R58). -/
def Tile.csrReadEffect (q : Tile) (ts num : Nat) : Tile :=
  if num = 0x004 then { q with seq := { q.seq with tsHi := BitVec.ofNat 32 (ts / 2 ^ 32) } } else q

/-- `CSR` read (R58). -/
def csrReadOp (pos t ts : Nat) (rd : BitVec 5) (num : BitVec 12) (q : Tile) : Tile :=
  match csrValue q pos t ts num.toNat with
  | none => q.progFault causeIllegal 0
  | some v => (q.csrReadEffect ts num.toNat).result rd v

/-- `CSR` write, set or clear: only `CORE_CFG` can be written; the previous value goes to rd (R58). -/
def csrModOp (f : Word → Word → Word) (rd ra : BitVec 5) (num : BitVec 12) (q : Tile) : Tile :=
  if num.toNat = 0 then
    ({ q with seq := { q.seq with coreCfg := f q.seq.coreCfg (q.reg ra) &&& coreCfgMask } } : Tile).result
      rd q.seq.coreCfg
  else q.progFault causeIllegal 0

/-- `CSR` operation 00 (R58). -/
def execCsrRead (t : Nat) (rd : BitVec 5) (num : BitVec 12) (s : State) :=
  instrOn t (csrReadOp s.pos t s.now rd num) s
/-- `CSR` operation 01 (R58). -/
def execCsrWrite (t : Nat) (rd ra : BitVec 5) (num : BitVec 12) (s : State) :=
  instrOn t (csrModOp (fun _ v => v) rd ra num) s
/-- `CSR` operation 10 (R58). -/
def execCsrSet (t : Nat) (rd ra : BitVec 5) (num : BitVec 12) (s : State) :=
  instrOn t (csrModOp (· ||| ·) rd ra num) s
/-- `CSR` operation 11 (R58). -/
def execCsrClear (t : Nat) (rd ra : BitVec 5) (num : BitVec 12) (s : State) :=
  instrOn t (csrModOp (fun c v => c &&& ~~~v) rd ra num) s

/-! ### Fences and tokens (R53, R55) -/

/-- `FENCE`: the sequencer stays at it until every command issued to the engines of the mask has completed (R53). -/
def execFence (t : Nat) (mask : BitVec 6) (s : State) :=
  onUnit (isTile t) t (s.instrWhen t (fun q => q.drained mask.toNat) Tile.advance)
/-- `TWAIT`: waits until the token is non-zero, then decrements it (R53). While it waits it is the first that the token
serves (R56). -/
def execTwait (t : Nat) (tok : BitVec 3) (s : State) :=
  onUnit (isTile t) t (
    if (s.tile t).token tok.toNat != 0 then
      s.instr t (fun q => (q.setToken tok.toNat (q.token tok.toNat - 1)).advance)
    else if s.coresRun && (s.tile t).canRun then s.onTile t (fun q => q.onSeq (fun z => { z with twait := some tok.toNat }))
    else s)
/-- `TPOST`: increments the token, saturating (R53, R55). -/
def execTpost (t : Nat) (tok : BitVec 3) (s : State) :=
  instrOn t (fun q => let q' := q.postToken q.seq.coreCfg tok.toNat; if q'.isFaulted then q' else q'.advance) s
/-- `TSET`: sets the token, unless a command that has not completed names it (R53). -/
def execTset (t : Nat) (tok : BitVec 3) (val : BitVec 16) (s : State) :=
  instrOn t (fun q =>
    if q.namesToken tok.toNat then q.progFault causeIllegal 0
    else (q.setToken tok.toNat val.toNat).advance) s

/-! ### SYS (R46, R57) -/

/-- `NOP` (R46). -/
def execNop (t : Nat) (s : State) := instrOn t Tile.advance s
/-- The report of an ended core to the queue manager (R57): the member is done, and its counts join the descriptor's.
With the last member the descriptor's time stops (R345). -/
def State.endReport (s : State) (t : Nat) : State :=
  match s.descOf t with
  | none => s
  | some d =>
    let z := (s.tile t).seq
    let f := fun (d : Desc) => { d with
      defer := d.defer ++ [(z.member, (s.tile t).sync.deferred)]
      ended := d.ended ++ [z.member], sat := d.sat + z.sat, flushIn := d.flushIn + z.flushIn
      flushOut := d.flushOut + z.flushOut }
    let s := (s.onTile t (fun q => { q with sync := { q.sync with deferred := [] } })).onDesc d.uid f
    if (f d).allEnded then s.stopClock d.uid else s

/-- `END`: acts as a fence on all six engines, then reports completion; windows close and credits return
(R57, R262, R263). -/
def execEnd (t : Nat) (s : State) : Host.Outcome State Fault Refusal :=
  let s' := s.instrWhen t (fun q => q.drained 63) (fun q => q.onSeq (fun z => { z with phase := .ended }))
  onUnit (isTile t) t (
    if (s'.tile t).seq.phase == .ended && (s.tile t).seq.phase == .running then (s'.letGo t 2).endReport t else s')
/-- `TRAP`: a program fault that carries the code (R46, R61). -/
def execTrap (t : Nat) (code : BitVec 16) (s : State) := instrOn t (fun q => q.progFault causeTrap code.toNat) s

/-- Whether sequencer debug is open: `DBG_AUTH`, or the `BLANK` state (Table — Debug access by lifecycle state). -/
def State.dbgOpen (s : State) : Bool := s.sec.dbgAuth || s.sec.life == .blank

/-- `BRK`: halts the sequencer behind it when `BRK_EN` is 1 and debug is authorised, otherwise acts as `NOP`
(R46, R523). -/
def execBrk (t : Nat) (s : State) : Host.Outcome State Fault Refusal :=
  onUnit (isTile t) t (
    if s.coresRun && (s.tile t).canRun && bitAt (s.reg 0x3C10) 11 && s.dbgOpen then
      let s' := s.runTile t (fun q => q.advance.onSeq Seq.retired)
      if (s'.tile t).isFaulted then s'
      else (s'.onTile t (fun q => q.onSeq (fun z => { z with halted := true }))).haltEvent t 3
    else s.instr t Tile.advance)

end Sys2Proof.Machine
end

