-- ==== Sys2Proof/Machine/Issue.lean ====
section
/-!
DEFINITION. How commands leave the sequencer and enter the engine queues (R47 to R52, R65), how they wait for tokens,
tags and completion (R52, R54, R250), and what an illegal word does (R40).
-/

namespace Sys2Proof.Machine

open Sys2Proof

/-! ### Entering a queue -/

/-- The checks made as a command leaves the sequencer (R48, R75, R178, R203, R268, R288): a fault cause, or the tile with
its issue-side records and the command as queued. -/
def issueCheck (lvl eng : Nat) (q : Tile) (e : QEntry) : Except Nat (Tile × QEntry) :=
  match eng with
  | 0 => issueArray lvl false q e
  | 1 => issueArray lvl true q e
  | 2 => issueVec q e
  | 3 => issueRow q e
  | 4 => issueDma q e
  | 5 => issueSync q e
  | _ => .error causeIllegal

/-- An array gives the load channel back when what has entered its queue lets it (R108). -/
def relAfterIssue (eng : Nat) (q : Tile) : Tile :=
  match eng with
  | 0 => q.onArr false Arr.relChannel
  | 1 => q.onArr true Arr.relChannel
  | _ => q

/-- A command leaves the sequencer: it captures `CORE_CFG` and `SR_SEED`, enters its queue, and the program counter
moves on (R48, R49); or a check fails. -/
def enterQueue (lvl eng : Nat) (e : QEntry) (q : Tile) : Tile :=
  match issueCheck lvl eng q e with
  | .error c => q.progFault c 0
  | .ok (q', e') =>
    (relAfterIssue eng ((q'.onQueue eng (· ++ [{ e' with
        uid := q.seq.issued, cfg := q.seq.coreCfg, seed := q.seq.seed, taken := e'.wait.isNone }])).onSeq
      (fun z => { z with issued := z.issued + 1 }))).advance

/-- Whether the queue of an engine is full (R47). -/
def Tile.queueFull (q : Tile) (eng : Nat) : Bool := decide (queueDepth eng ≤ (q.queue eng).length)

/-- The trace record of an issued command (R59, R527). -/
def State.issueTrace (before s : State) (t eng : Nat) (e : QEntry) : State :=
  let q := before.tile t
  if bitAt q.seq.coreCfg 2 && (s.tile t).seq.issued != q.seq.issued then
    s.traceAdd t 1 (eng * 256 + e.code) (wordAt e.words 0)
  else s

/-- A sequencer issues the command that `mk` builds: the sequencer stalls on a full queue (R50). -/
def State.issue (s : State) (t eng : Nat) (legal : Bool) (mk : Tile → QEntry) : State :=
  if !legal then s.instr t (fun q => q.progFault causeIllegal 0)
  else if s.coresRun && (s.tile t).canRun && (s.tile t).queueFull eng then
    s.onTile t (fun q => q.onSeq (fun z => { z with stall := some ⟨eng, mk q⟩ }))
  else (s.issueTrace (s.instr t (fun q => enterQueue s.level eng (mk q) q)) t eng (mk (s.tile t)))

/-- An `ISSUE` of a command code (R47, R48). -/
def issueOn (t eng code : Nat) (a : IssueArgs) (s : State) : Host.Outcome State Fault Refusal :=
  onUnit (isTile t) t (s.issue t eng (!issuePastEnd a) (fun q => issueEntry q code a))

/-- An `ISSUE` whose command code stands for several operations: this row's operation is the value `op` of the field
that `opOf` reads from its words; a value that no row names is refused by the check at issue (R278, R287). -/
def issueOpOn (t eng code : Nat) (opOf : List Word → Nat) (op top : Nat) (a : IssueArgs) (s : State) :
    Host.Outcome State Fault Refusal :=
  onUnit (isTile t) t (
    let k := opOf (issueWords (s.tile t) a)
    if k == op || decide (top < k) then s.issue t eng (!issuePastEnd a) (fun q => issueEntry q code a) else s)

/-- A `VEC` instruction (R47, R180). -/
def vecOn (t vop : Nat) (v : VecArgs) (s : State) : Host.Outcome State Fault Refusal :=
  onUnit (isTile t) t (s.issue t 2 true (fun q => vecEntry q vop v))

/-! ### Array commands (R74) -/

/-- `PASS` (R75, R76, R79). -/
def execPass (t : Nat) (ma : Bool) (a : IssueArgs) (s : State) := issueOn t (arrEng ma) 0x01 a s
/-- `ACC_CLEAR` (R80). -/
def execAccClear (t : Nat) (ma : Bool) (a : IssueArgs) (s : State) := issueOn t (arrEng ma) 0x02 a s
/-- `CNT_STORE` (R98). -/
def execCntStore (t : Nat) (ma : Bool) (a : IssueArgs) (s : State) := issueOn t (arrEng ma) 0x03 a s
/-- `SCALE` (R130 to R133). -/
def execScale (t : Nat) (ma : Bool) (a : IssueArgs) (s : State) := issueOn t (arrEng ma) 0x10 a s
/-- `BELL_CFG` (R152 to R155). -/
def execBellCfg (t : Nat) (ma : Bool) (a : IssueArgs) (s : State) := issueOn t (arrEng ma) 0x11 a s
/-- `BELL_STORE` (R168). -/
def execBellStore (t : Nat) (ma : Bool) (a : IssueArgs) (s : State) := issueOn t (arrEng ma) 0x12 a s

/-! ### Vector instructions (R181) -/

/-- `VSETVL` (R178). -/
def execVsetvl (t : Nat) (v : VecArgs) (s : State) := vecOn t 0x01 v s
/-- `VBCFG` (R193). -/
def execVbcfg (t : Nat) (v : VecArgs) (s : State) := vecOn t 0x02 v s
/-- `VCNT` (R198). -/
def execVcnt (t : Nat) (v : VecArgs) (s : State) := vecOn t 0x03 v s
/-- `VWAIT` (R188). -/
def execVwait (t : Nat) (v : VecArgs) (s : State) := vecOn t 0x04 v s
/-- `VPOST` (R188). -/
def execVpost (t : Nat) (v : VecArgs) (s : State) := vecOn t 0x05 v s
/-- `VLD` (R185). -/
def execVld (t : Nat) (v : VecArgs) (s : State) := vecOn t 0x08 v s
/-- `VACC` (R187). -/
def execVacc (t : Nat) (v : VecArgs) (s : State) := vecOn t 0x09 v s
/-- `VACCT` (R187). -/
def execVacct (t : Nat) (v : VecArgs) (s : State) := vecOn t 0x0A v s
/-- `VTR` (R181). -/
def execVtr (t : Nat) (v : VecArgs) (s : State) := vecOn t 0x0B v s
/-- `VTW` (R181). -/
def execVtw (t : Nat) (v : VecArgs) (s : State) := vecOn t 0x0C v s
/-- `VMOV` (R181). -/
def execVmov (t : Nat) (v : VecArgs) (s : State) := vecOn t 0x0D v s
/-- `VBCAST` (R181). -/
def execVbcast (t : Nat) (v : VecArgs) (s : State) := vecOn t 0x0E v s
/-- `VIOTA` (R181). -/
def execViota (t : Nat) (v : VecArgs) (s : State) := vecOn t 0x0F v s
/-- `VADD` (R183). -/
def execVadd (t : Nat) (v : VecArgs) (s : State) := vecOn t 0x10 v s
/-- `VSUB` (R183). -/
def execVsub (t : Nat) (v : VecArgs) (s : State) := vecOn t 0x11 v s
/-- `VMUL` (R183). -/
def execVmul (t : Nat) (v : VecArgs) (s : State) := vecOn t 0x12 v s
/-- `VFMA` (R183). -/
def execVfma (t : Nat) (v : VecArgs) (s : State) := vecOn t 0x13 v s
/-- `VMAX` (R184). -/
def execVmax (t : Nat) (v : VecArgs) (s : State) := vecOn t 0x14 v s
/-- `VMIN` (R184). -/
def execVmin (t : Nat) (v : VecArgs) (s : State) := vecOn t 0x15 v s
/-- `VABS` (R184). -/
def execVabs (t : Nat) (v : VecArgs) (s : State) := vecOn t 0x16 v s
/-- `VNEG` (R184). -/
def execVneg (t : Nat) (v : VecArgs) (s : State) := vecOn t 0x17 v s
/-- `VCMP` (R184). -/
def execVcmp (t : Nat) (v : VecArgs) (s : State) := vecOn t 0x18 v s
/-- `VSEL` (R184). -/
def execVsel (t : Nat) (v : VecArgs) (s : State) := vecOn t 0x19 v s
/-- `VRSUM` (R189). -/
def execVrsum (t : Nat) (v : VecArgs) (s : State) := vecOn t 0x20 v s
/-- `VRMAX` (R189). -/
def execVrmax (t : Nat) (v : VecArgs) (s : State) := vecOn t 0x21 v s
/-- `VRMIN` (R189). -/
def execVrmin (t : Nat) (v : VecArgs) (s : State) := vecOn t 0x22 v s
/-- `VRAMAX` (R189). -/
def execVramax (t : Nat) (v : VecArgs) (s : State) := vecOn t 0x23 v s
/-- `VEXP2` (R147). -/
def execVexp2 (t : Nat) (v : VecArgs) (s : State) := vecOn t 0x28 v s
/-- `VLOG2` (R147). -/
def execVlog2 (t : Nat) (v : VecArgs) (s : State) := vecOn t 0x29 v s
/-- `VRCP` (R147). -/
def execVrcp (t : Nat) (v : VecArgs) (s : State) := vecOn t 0x2A v s
/-- `VRSQRT` (R147). -/
def execVrsqrt (t : Nat) (v : VecArgs) (s : State) := vecOn t 0x2B v s
/-- `VTANH` (R147). -/
def execVtanh (t : Nat) (v : VecArgs) (s : State) := vecOn t 0x2C v s
/-- `VPERM` (R190). -/
def execVperm (t : Nat) (v : VecArgs) (s : State) := vecOn t 0x30 v s
/-- `VSTV` (R192). -/
def execVstv (t : Nat) (v : VecArgs) (s : State) := vecOn t 0x38 v s
/-- `VSTT` (R192). -/
def execVstt (t : Nat) (v : VecArgs) (s : State) := vecOn t 0x39 v s

/-! ### Row engine commands (R203) -/

/-- `ROW_FWD` (R204). -/
def execRowFwd (t : Nat) (a : IssueArgs) (s : State) := issueOn t 3 0x01 a s
/-- `ROW_BWD` (R204). -/
def execRowBwd (t : Nat) (a : IssueArgs) (s : State) := issueOn t 3 0x02 a s
/-- `R_SPILL` (R217). -/
def execRSpill (t : Nat) (a : IssueArgs) (s : State) := issueOn t 3 0x03 a s
/-- `R_FILL` (R217). -/
def execRFill (t : Nat) (a : IssueArgs) (s : State) := issueOn t 3 0x04 a s
/-- `R_INVAL` (R210). -/
def execRInval (t : Nat) (a : IssueArgs) (s : State) := issueOn t 3 0x05 a s
/-- `RBELL_CFG` (R206). -/
def execRbellCfg (t : Nat) (a : IssueArgs) (s : State) := issueOn t 3 0x06 a s
/-- `R_CNT` (R220). -/
def execRCnt (t : Nat) (a : IssueArgs) (s : State) := issueOn t 3 0x07 a s

/-! ### Core DMA commands (R268) -/

/-- `DM_MOVE` (R270). -/
def execDmMove (t : Nat) (a : IssueArgs) (s : State) := issueOn t 4 0x01 a s
/-- `DM_GATHER` (R272). -/
def execDmGather (t : Nat) (a : IssueArgs) (s : State) := issueOn t 4 0x02 a s
/-- `DM_TFILL` (R273). -/
def execDmTfill (t : Nat) (a : IssueArgs) (s : State) := issueOn t 4 0x03 a s
/-- `DM_TREAD` (R273). -/
def execDmTread (t : Nat) (a : IssueArgs) (s : State) := issueOn t 4 0x04 a s
/-- `DM_DMEM` (R274). -/
def execDmDmem (t : Nat) (a : IssueArgs) (s : State) := issueOn t 4 0x05 a s
/-- `DM_SWRITE` (R275). -/
def execDmSwrite (t : Nat) (a : IssueArgs) (s : State) := issueOn t 4 0x06 a s
/-- `DM_SREAD` (R276). -/
def execDmSread (t : Nat) (a : IssueArgs) (s : State) := issueOn t 4 0x07 a s
/-- `CREDIT_REQ` (R259). -/
def execCreditReq (t : Nat) (a : IssueArgs) (s : State) := issueOn t 4 0x08 a s
/-- `CREDIT_DROP` (R262). -/
def execCreditDrop (t : Nat) (a : IssueArgs) (s : State) := issueOn t 4 0x09 a s
/-- `RX_OPEN` (R258). -/
def execRxOpen (t : Nat) (a : IssueArgs) (s : State) := issueOn t 4 0x0A a s
/-- `RX_CLOSE` (R263). -/
def execRxClose (t : Nat) (a : IssueArgs) (s : State) := issueOn t 4 0x0B a s
/-- `DM_CNT` (R282). -/
def execDmCnt (t : Nat) (a : IssueArgs) (s : State) := issueOn t 4 0x0D a s

/-- The operation of a slot-tag command (R278). -/
def slotOpOf (ws : List Word) : Nat := fld (wordAt ws 0) 24 3

/-- `SLOT_OP` with `RELEASE` (R278). -/
def execSlotRelease (t : Nat) (a : IssueArgs) (s : State) := issueOpOn t 4 0x0C slotOpOf 0 4 a s
/-- `SLOT_OP` with `MARK_FULL` (R278). -/
def execMarkFull (t : Nat) (a : IssueArgs) (s : State) := issueOpOn t 4 0x0C slotOpOf 1 4 a s
/-- `SLOT_OP` with `SET_RAW` (R278). -/
def execSetRaw (t : Nat) (a : IssueArgs) (s : State) := issueOpOn t 4 0x0C slotOpOf 2 4 a s
/-- `SLOT_OP` with `RAW_EMPTY` (R278). -/
def execRawEmpty (t : Nat) (a : IssueArgs) (s : State) := issueOpOn t 4 0x0C slotOpOf 3 4 a s
/-- `SLOT_OP` with `RAW_FULL` (R278). -/
def execRawFull (t : Nat) (a : IssueArgs) (s : State) := issueOpOn t 4 0x0C slotOpOf 4 4 a s

/-! ### Sync unit commands (R287) -/

/-- `SY_INIT` (R286). -/
def execSyInit (t : Nat) (a : IssueArgs) (s : State) := issueOn t 5 0x01 a s
/-- The operation of `SY_SIGNAL` (R287). -/
def signalOpOf (ws : List Word) : Nat := fld (wordAt ws 2) 0 2
/-- `SY_SIGNAL` that adds or sets (R289). -/
def execSySignalAdd (t : Nat) (a : IssueArgs) (s : State) := issueOpOn t 5 0x02 signalOpOf 0 2 a s
/-- `SY_SIGNAL` that clears (R289). -/
def execSySignalClear (t : Nat) (a : IssueArgs) (s : State) := issueOpOn t 5 0x02 signalOpOf 1 2 a s
/-- `SY_SIGNAL` that loads (R289). -/
def execSySignalLoad (t : Nat) (a : IssueArgs) (s : State) := issueOpOn t 5 0x02 signalOpOf 2 2 a s
/-- `SY_WAIT` (R290). -/
def execSyWait (t : Nat) (a : IssueArgs) (s : State) := issueOn t 5 0x03 a s
/-- `SY_ARRIVE` (R298). -/
def execSyArrive (t : Nat) (a : IssueArgs) (s : State) := issueOn t 5 0x04 a s
/-- `SY_FREE` (R287). -/
def execSyFree (t : Nat) (a : IssueArgs) (s : State) := issueOn t 5 0x05 a s
/-- `SY_READ` (R287). -/
def execSyRead (t : Nat) (a : IssueArgs) (s : State) := issueOn t 5 0x06 a s

/-! ### Stalls, tokens and completion -/

/-- A stalled `ISSUE` or `VEC` enters its queue once an entry is free; a halt asked for meanwhile takes effect behind
it, and so does the end of a debug step (R50, R523). -/
def State.stallResume (s : State) (t : Nat) : State :=
  let q := s.tile t
  match q.seq.stall with
  | none => s
  | some st =>
    if !s.coresRun || q.seq.phase != .running || q.queueFull st.eng then s
    else
      let z := q.seq
      let s' := s.issueTrace (s.runTile t (fun q =>
        (enterQueue s.level st.eng st.entry (q.onSeq (fun z => { z with stall := none }))).onSeq Seq.retired)) t st.eng st.entry
      if (s'.tile t).isFaulted then s'
      else if z.stepping then s'.haltEvent t 2
      else if z.haltReq then
        (s'.onTile t (fun q => q.onSeq (fun z => { z with halted := true, haltReq := false }))).haltEvent t 1
      else s'

/-- `ISSUE_STALL_RESUME` (R50). -/
def execIssueStallResume (t : Nat) (s : State) : Host.Outcome State Fault Refusal :=
  onUnit (isTile t) t (s.stallResume t)

/-- The first command of a queue that still waits for its token, if everything before it has started far enough for
it to start (R51, R52). -/
def tokenCandidate (eng : Nat) (l : List QEntry) : Option Nat :=
  match eng with
  | 0 => firstWhere (fun e => !e.taken) QEntry.begun l 0
  | 1 => firstWhere (fun e => !e.taken) QEntry.begun l 0
  | 2 => firstWhere (fun e => !e.taken) (fun e => isVStore e && e.store.isSome) l 0
  | 4 => dmaCandidate l
  | _ => firstWhere (fun e => !e.taken) (fun _ => false) l 0

/-- The command of an engine that waits for its token and nothing else, with its index (R52): what the other array holds
back does not start (R109). -/
def tokenWaiter (eng : Nat) (q : Tile) : Option (Nat × QEntry) :=
  match tokenCandidate eng (q.queue eng) with
  | some i =>
    match entryAt (q.queue eng) i with
    | some e => if eng < 2 && !mayStart q (eng == 1) e then none else some (i, e)
    | none => none
  | none => none

/-- Waiters that a token serves before an engine: the sequencer at a `TWAIT`, then the engines of lower number (R56). -/
def waitersBefore (eng k : Nat) (q : Tile) : Nat :=
  bit1 (q.seq.twait == some k && q.canRun)
  + ((List.range eng).filter (fun e => match tokenWaiter e q with
      | some x => x.2.wait == some k
      | none => false)).length

/-- The stores of an engine whose turn it is begin (R155, R193). -/
def settleStores (eng : Nat) (q : Tile) : Tile :=
  match eng with
  | 0 => acceptDue false q
  | 1 => acceptDue true q
  | 2 => acceptVec q
  | _ => q

/-- A command whose wait token is non-zero starts and decrements it (R52); each waiter that is served before it needs a
count of its own (R56). -/
def tokenStart (eng : Nat) (q : Tile) : Tile :=
  let q := settleStores eng q
  match tokenWaiter eng q with
  | none => q
  | some (i, e) =>
    match e.wait with
    | none => q
    | some k =>
      if q.token k ≤ waitersBefore eng k q then q
      else (q.setToken k (q.token k - 1)).onEntry eng i (fun x => { x with taken := true })

/-- `TOKEN_WAIT_START` (R52). -/
def execTokenWaitStart (t eng : Nat) (s : State) : Host.Outcome State Fault Refusal :=
  onUnit (isTile t && decide (eng < 6)) (if isTile t then eng else t)
    (if s.coresRun then s.onTile t (tokenStart eng) else s)

/-- `RECOMPUTE_OK` of the descriptor a tile works for (R214). -/
def State.recompOk (s : State) (t : Nat) : Bool :=
  match s.descOf t with
  | some d => d.recomputeOk
  | none => false

/-- The sync unit's head command starts once it has its token (R291). -/
def State.syncGo (s : State) (t : Nat) : State :=
  match (s.tile t).sync.q with
  | [] => s
  | e :: _ => if e.taken && !e.inFlight then s.syncStart t e else s

/-- The command at an index of an engine's queue does what is due of it and completes if it can (R54). -/
def State.complete (s : State) (t eng i : Nat) : State :=
  match eng with
  | 0 => (s.runTile t (completeArray s.fv false i)).tick
  | 1 => (s.runTile t (completeArray s.fv true i)).tick
  | 2 => (s.runTile t (completeVec s.fv i)).tick
  | 3 => (s.runTile t (completeRow s.fv (s.recompOk t) i)).tick
  | 4 => (s.completeDma t i).tick
  | _ => if i = 0 then s.syncGo t else s

/-- `COMMAND_COMPLETE` (R54). -/
def execCommandComplete (t eng idx : Nat) (s : State) : Host.Outcome State Fault Refusal :=
  onUnit (isTile t && decide (eng < 6)) (if isTile t then eng else t)
    (if s.coresRun then s.complete t eng idx else s)

/-- `STAT_LOAD_ROW`: one stationary row enters (R82, R88). -/
def execStatLoadRow (t : Nat) (ma : Bool) (s : State) : Host.Outcome State Fault Refusal :=
  onUnit (isTile t) t (if s.coresRun then s.runTile t (loadStep ma) else s)

/-- `STREAM_ROW_ENTER`: one streamed row enters (R81). Telemetry counts array cycles (R561). -/
def execStreamRowEnter (t : Nat) (ma : Bool) (s : State) : Host.Outcome State Fault Refusal :=
  onUnit (isTile t) t (
    if s.coresRun then
      let s' := (s.runTile t (streamStep s.fv ma)).tick
      let n := Tab.get 0 ((s'.tile t).arr ma).cnt 1 - Tab.get 0 ((s.tile t).arr ma).cnt 1
      if n = 0 then s' else s'.countRows (2 * t + bit1 ma) n
    else s)

/-- `LOAD_CHANNEL_TAKE`: an array takes the whole load channel (R107, R108). -/
def execLoadChannelTake (t : Nat) (ma : Bool) (s : State) : Host.Outcome State Fault Refusal :=
  onUnit (isTile t) t (if s.coresRun then s.onTile t (channelStep ma) else s)

/-- `PASS_COMPLETE`: the oldest pass of an array completes and its releases take effect (R54, R78). -/
def execPassComplete (t : Nat) (ma : Bool) (s : State) : Host.Outcome State Fault Refusal :=
  onUnit (isTile t) t (
    if s.coresRun then
      match firstWhere (fun e => e.code == cPASS) (fun _ => true) ((s.tile t).arr ma).q 0 with
      | some i => s.runTile t (completePass ma i)
      | none => s
    else s)

/-- Change the Bell of an engine: an array's, or the vector Bell. -/
def Tile.onBell (q : Tile) (eng : Nat) (f : Bell → Bell) : Tile :=
  match eng with
  | 0 => q.onArr false (fun a => { a with bell := f a.bell })
  | 1 => q.onArr true (fun a => { a with bell := f a.bell })
  | 2 => q.onVec (fun x => { x with bell := f x.bell })
  | _ => q

/-- `BELL_VECTOR_LOAD`: a Bell loads the vectors of its oldest set that waits for them (R157). -/
def execBellVectorLoad (t eng : Nat) (s : State) : Host.Outcome State Fault Refusal :=
  onUnit (isTile t && decide (eng < 4)) (if isTile t then eng else t)
    (if s.coresRun then s.onTile t (fun q => q.onBell eng (fun b => b.loadVectors q.spad)) else s)

/-- One source row goes through the Bell of an engine; the vector engine and the row engine share the vector Bell
(R170, R206). -/
def State.bellRowStep (s : State) (t eng : Nat) : State :=
  match eng with
  | 0 => s.runTile t (bellStep false)
  | 1 => s.runTile t (bellStep true)
  | _ => (s.runTile t (sharedBellStep s.fv (s.recompOk t))).tick

/-- `BELL_ROW_READ` (R170). -/
def execBellRowRead (t eng : Nat) (s : State) : Host.Outcome State Fault Refusal :=
  onUnit (isTile t && decide (eng < 4)) (if isTile t then eng else t) (if s.coresRun then s.bellRowStep t eng else s)

/-- `BELL_STORE_COMPLETE`: the oldest store whose rows have all been written completes (R170). -/
def execBellStoreComplete (t eng : Nat) (s : State) : Host.Outcome State Fault Refusal :=
  onUnit (isTile t && decide (eng < 4)) (if isTile t then eng else t)
    (if s.coresRun then s.onTile t (fun q =>
      match eng with
      | 0 => q.onQueue 0 bellDone
      | 1 => q.onQueue 1 bellDone
      | 2 => q.onQueue 2 vBellDone
      | _ => q) else s)

/-- What a command that waited on a slot tag does once the tag allows it (R250). -/
def State.retry (s : State) (t eng i : Nat) (e : QEntry) : State :=
  match eng with
  | 4 => s.dmaRun t i
  | 2 => if isVStore e then s.bellRowStep t 2 else s.complete t 2 i
  | 3 => if isRowStore e then s.bellRowStep t 3 else s.complete t 3 i
  | 5 => s
  | _ =>
    let ma := eng == 1
    if e.code == cPASS && decide (e.loadRows < loadTarget e) then s.runTile t (loadStep ma)
    else if streaming e then (s.runTile t (streamStep s.fv ma)).tick
    else s.runTile t (bellStep ma)

/-- `TAG_WAIT_GRANT`: a slot has taken the tag that a waiting command needs, and the command goes on (R250). -/
def execTagWaitGrant (t eng idx : Nat) (s : State) : Host.Outcome State Fault Refusal :=
  onUnit (isTile t && decide (eng < 6)) (if isTile t then eng else t) (
    match entryAt ((s.tile t).queue eng) idx with
    | some e => if s.coresRun && e.waiting then s.retry t eng idx e else s
    | none => s)

/-- `DMA_TRANSFER_COMPLETE`: every destination write of a transfer can be observed (R280). -/
def execDmaTransferComplete (t idx : Nat) (s : State) : Host.Outcome State Fault Refusal :=
  onUnit (isTile t) t (if s.coresRun then (s.completeDma t idx).tick else s)

/-- `CREDIT_ALLOC_GRANT`: the allocator of a tile serves a window's oldest request (R259). -/
def execCreditAllocGrant (t window : Nat) (s : State) : Host.Outcome State Fault Refusal :=
  onUnit (isTile t && decide (window < 16)) (if isTile t then window else t)
    (if s.coresRun then s.creditServe t window else s)

/-- `CREDIT_WAIT_TIMEOUT`: a request has waited 100 µs for its window to open (R260). -/
def execCreditWaitTimeout (t window : Nat) (s : State) : Host.Outcome State Fault Refusal :=
  onUnit (isTile t && decide (window < 16)) (if isTile t then window else t)
    (if s.coresRun then s.creditTimeout t window else s)

/-- `STASH_ALLOC`: the allocation of a stash write is decided at the stash control block (R229). -/
def execStashAlloc (t idx : Nat) (s : State) : Host.Outcome State Fault Refusal :=
  onUnit (isTile t) t (if s.coresRun then s.stashAlloc t idx else s)

/-- `STASH_PRESENT`: a stash record's writes can all be observed (R230). -/
def execStashPresent (t idx : Nat) (s : State) : Host.Outcome State Fault Refusal :=
  onUnit (isTile t) t (if s.coresRun then s.stashPresent t idx else s)

/-- `SY_WAIT_TIMEOUT`: a wait's window ends without a release (R294). -/
def execSyWaitTimeout (t : Nat) (s : State) : Host.Outcome State Fault Refusal :=
  onUnit (isTile t) t (if s.coresRun then s.syncTimeout t else s)

/-! ### Illegal words and the watchdog -/

/-- `ILLEGAL_WORD`: a word of a reserved class or with a reserved encoding is a program fault (R40). A legal word is
not this command. -/
def execIllegalWord (t : Nat) (word : Word) (s : State) : Host.Outcome State Fault Refusal :=
  onUnit (isTile t) t (if wordLegal word then s else s.instr t (fun q => q.progFault causeIllegal 0))

/-- The stall limit in nanoseconds: `WDOG_LIMIT` µs, where 0 acts as 65,536 (R59, R60). -/
def Seq.stallLimit (z : Seq) : Nat := 1000 * (if fld z.coreCfg 16 16 = 0 then 65536 else fld z.coreCfg 16 16)

/-- `WDOG`: the stall watchdog expires once no instruction has retired for its limit (R60). It does not count while the
sequencer is halted (R524). -/
def execWdog (t : Nat) (s : State) : Host.Outcome State Fault Refusal :=
  onUnit (isTile t) t (
    let q := s.tile t
    if s.clocked && q.seq.phase == .running && bitAt q.seq.coreCfg 3 && !q.seq.halted
        && decide (q.seq.stallLimit ≤ q.seq.stallNs) then
      s.runTile t (fun q => q.progFault causeWdog 0)
    else s)

end Sys2Proof.Machine
end

