-- ==== Sys2Proof/Machine/Keywork.lean ====
section
/-!
DEFINITION. The Keywork: the core map and spare admission, placement objects with their activation, release, hints and
migration, and translations (spec/13_keywork_placement_and_remote_cache.md, R347 to R372, R568).

The driver's part of an object table entry comes with the command that makes the Keywork read it: the spec gives the
driver no address for the table (log 14).
-/

namespace Sys2Proof.Machine

open Sys2Proof

/-- Change the Keywork. -/
def State.onKw (s : State) (f : Kw → Kw) : State := { s with kw := f s.kw }
/-- An object of the table. -/
def State.object (s : State) (i : Nat) : Option Obj := Tab.get none s.kw.objs i
/-- Write an object. -/
def State.setObject (s : State) (i : Nat) (o : Option Obj) : State :=
  s.onKw (fun k => { k with objs := Tab.set none k.objs i o })
/-- Set the state of a tile (R350). -/
def State.setTileSt (s : State) (t : Nat) (x : TileSt) : State :=
  s.onKw (fun k => { k with tiles := Tab.set .off k.tiles t x })
/-- Set a core map entry (R350). -/
def State.setCore (s : State) (c : Nat) (e : CoreEnt) : State :=
  s.onKw (fun k => { k with cores := Tab.set CoreEnt.init k.cores c e })
/-- Number of entries of the object table, as read at Keywork initialisation (R348, R349). -/
def State.objLimit (s : State) : Nat := s.kw.objLimit
/-- A handle: generation and index (R359). -/
def handleOf (i : Nat) (o : Obj) : Nat := o.gen * 2 ^ 20 + i

/-- The `ACTIVE` or `MIGRATING` object that a handle names (R359). -/
def State.handleObj (s : State) (h : Nat) : Option (Nat × Obj) :=
  let i := h % 2 ^ 20
  if s.objLimit ≤ i then none
  else match s.object i with
    | some o => if o.gen == h / 2 ^ 20 && (o.st == .active || o.st == .migrating) then some (i, o) else none
    | none => none

/-! ### Homes (R365) -/

/-- Granules of a stack outside its Keywork area. -/
def stackGranules : Nat := 32640

/-- Stacks of a mask, ascending. -/
def stacksOf (mask : Nat) : List Nat := bitList mask 32

/-- The first stack with a free granule, from position `p` of a home list onward. -/
def pickStack (l : List Nat) (used : Tab Nat) (p : Nat) : Option Nat :=
  ((List.range l.length).map (fun i => l[(p + i) % l.length]?.getD 0)).find? (fun k => decide (Tab.get 0 used k < stackGranules))

/-- Allocate homes for granules `i`, `i + 1`, … over a home list (R365). -/
def allocHomes (l : List Nat) (used : Tab Nat) (i : Nat) : Nat → Option (List Nat × Tab Nat)
  | 0 => some ([], used)
  | n + 1 =>
    if l.isEmpty then none
    else match pickStack l used (i % l.length) with
      | none => none
      | some k =>
        match allocHomes l (Tab.mod 0 used k (· + 1)) (i + 1) n with
        | some (hs, u) => some (k :: hs, u)
        | none => none

/-- Give granules back. -/
def freeHomes (used : Tab Nat) (hs : List Nat) : Tab Nat := hs.foldl (fun u k => Tab.mod 0 u k (· - 1)) used

/-- Allowed stacks of one die. -/
def dieStacks (mask d : Nat) : List Nat := (stacksOf mask).filter (fun k => k / 4 == d)

/-- Home die of a `LOCAL` object at activation (R365). -/
def firstHomeDie (mask pos : Nat) : Nat :=
  if !(dieStacks mask pos).isEmpty then pos
  else ((List.range 8).find? (fun d => !(dieStacks mask d).isEmpty)).getD pos

/-- Home list of an object. -/
def homeList (pol mask homeDie spread : Nat) : List Nat :=
  if pol == 1 then dieStacks mask homeDie else if pol == 2 then stacksOf spread else stacksOf mask

/-! ### Activation (R360) -/

/-- The driver's fields of an object table entry, from its sixteen words (R359). -/
structure ObjEntry where
  valid : Bool
  exec : Bool
  sharedRo : Bool
  nc : Bool
  pol : Nat
  job : Nat
  gen : Nat
  granules : Nat
  pbase : Nat
  mask : Nat
  initSrc : Nat
  /-- every reserved bit is 0 and no field holds a reserved value -/
  clean : Bool
  deriving DecidableEq, Repr

/-- Read an entry. -/
def objEntry (ws : List Word) : ObjEntry :=
  let w := wordAt ws
  { valid := bitAt (w 0) 0, exec := bitAt (w 0) 1, sharedRo := bitAt (w 0) 2, nc := bitAt (w 0) 3, pol := fld (w 0) 4 2
    job := fld (w 0) 8 12, gen := fld (w 0) 20 12, granules := fld (w 1) 0 24 + 1
    pbase := (w 2).toNat + fld (w 3) 0 20 * 2 ^ 32, mask := (w 4).toNat
    initSrc := (w 6).toNat + fld (w 7) 0 20 * 2 ^ 32
    clean := fld (w 0) 4 2 != 3 && fld (w 1) 24 8 == 0 && fld (w 3) 20 12 == 0 && fld (w 7) 20 12 == 0 }

/-- Whether an entry's range is legal: 2 MiB aligned, in this die's range, and clear of every object in use (R360). -/
def State.rangeOk (s : State) (e : ObjEntry) : Bool :=
  e.pbase % granuleBytes == 0 && !isHostAddr e.pbase && ownerOf e.pbase == s.pos
  && decide (bitsOf e.pbase 0 48 + e.granules * granuleBytes ≤ 2 ^ 48)
  && s.kw.objs.all (fun x => match x.2 with
      | some o => !runsMeet e.pbase (e.granules * granuleBytes) o.pbase (o.granules * granuleBytes)
      | none => true)

/-- Whether a package address lies in an object. -/
def Obj.holds (o : Obj) (a : Nat) : Bool := decide (o.pbase ≤ a) && decide (a < o.pbase + o.granules * granuleBytes)

/-- Whether a packet reads or writes package memory. -/
def memOp (k : Packet) : Bool := (k.cls == 0 && k.ptype == 0) || (k.cls == 2 && (k.ptype == 0 || k.ptype == 3))

/-- Whether accesses of this die to an object are still unanswered (R361, R369). -/
def State.objOpen (s : State) (o : Obj) : Bool :=
  s.rdc.opens.any (fun e => match e.2 with
    | some x => memOp x.pkt && o.holds x.pkt.addr
    | none => false)

/-- Whether admitted accesses to an object have yet to complete (R361). -/
def State.objBusy (s : State) (o : Obj) : Bool :=
  s.objOpen o || s.rdc.held.any (fun h => memOp h.2 && o.holds h.2.addr)

/-- Write an event of the Keywork; one of its initialisation is kept until there is an event ring (R360, R443; log 6). -/
def State.lateEvent (s : State) (e : Ev) : State :=
  if s.qmOn then s.event e else s.onKw (fun k => { k with early := k.early ++ [e] })

/-- The Keywork as an accessor: it reads as job 0, the host window included (R357, R360). -/
def initReader : Agent :=
  { tile := none, job := 0, core := 63, uid := 0, place := 0, log := none, ev := { typ := 0 }, hostOk := true }

/-- The Keywork needs the `n` bytes at `src`, a granule, for an `INIT_SRC` copy: the access is judged, and what is homed on another
die is asked for (R360, R363). -/
def State.initStep (s : State) (src n : Nat) : State × Piece Unit :=
  match s.access initReader false src n with
  | .wait => (s, .wait)
  | .stop r => (s, .stop r)
  | .ok _ =>
    let s' := s.fetch keyworkAgent 0 121 src n
    match s'.fetched keyworkAgent src n with
    | none => (s', .wait)
    | some c => (s', if c = 1 then .ok () else .stop (codeStop c src))

/-- The Keywork needs `n` granules of package memory from `src`: checked as an access of job 0, and fetched where they are
homed elsewhere (R357, R360). -/
def State.initNeed (s : State) (src : Nat) : Nat → State × Piece Unit
  | 0 => (s, .ok ())
  | n + 1 =>
    match s.initStep src granuleBytes with
    | (s, .ok _) => State.initNeed s (src + granuleBytes) n
    | r => r

/-- The bytes other than 0 of a granule from `src` on, as the Keywork has them. -/
def State.initBytes (s : State) (src : Nat) : Mem :=
  let here := s.mem.filter (fun e => decide (src ≤ e.1) && decide (e.1 < src + granuleBytes) && s.isHome e.1)
  let far := s.rdc.fetches.filter (fun f => f.agent == keyworkAgent)
  far.foldl (fun m f => ((List.range f.data.length).zip f.data).foldl (fun m x =>
    let a := 256 * f.line + x.1
    if src ≤ a ∧ a < src + granuleBytes then Mem.wr m a x.2 else m) m) here

/-- A granule goes over the `MEM` ports of its stack (R366). -/
def State.memGranule (s : State) (a : Nat) : State :=
  match s.homeStack a with
  | some k =>
    if k / 4 != s.pos then s
    else (List.range 8).foldl (fun s j => match s.memPort (k % 4) j with
      | some p => s.onPort p (fun po => { po with memLines := po.memLines + 1024 }) |>.count 1 (256 * 1024)
      | none => s) s
  | none => s

/-- Copy one granule of an object's initial contents to its home: into a stack of this die, or with `WR` packets of the
Keywork (R360, R374). -/
def State.copyInit (s : State) (src dst : Nat) : State :=
  let m := s.initBytes src
  if s.isHome dst then
    ({ s with mem := List.foldl (fun x (e : Nat × Byte) => Mem.wr x (dst + (e.1 - src)) e.2) s.mem m }.memGranule src).memGranule dst
  else ((s.memGranule src).wrGranule dst 0 121 (m.rdBytes src granuleBytes) OpenTx.posted).st

/-- Copy an object granule by granule. -/
def State.copyInitAll (s : State) (src dst : Nat) : Nat → State
  | 0 => s
  | n + 1 => State.copyInitAll (s.copyInit src dst) (src + granuleBytes) (dst + granuleBytes) n

/-- A refusal or a failure of the reads of `INIT_SRC` (R360, R364): the state with the report, and the cause. A port that
leads nowhere is `PORT_FAULT` (DESIGN CHOICE: R360 names refusals and poison only; log 12). -/
def State.initFails (s : State) : Stop → State × Nat
  | .denied a r =>
    ({ s with kw := { s.kw with deny := satAdd s.kw.deny 1 } }.lateEvent
      { typ := 0x0705, cause := 0x17, pay := [(0x18, 4, s.pos + 63 * 2 ^ 8), (0x20, 8, a), (0x28, 4, r)] }, causePlaceState)
  | .poison _ => (s, causePoison)
  | .fault c => (s, if c == causeDeny then causePlaceState else c)
  | _ => (s, causePortFault)

/-- The activation that an entry asks for (R360): the state, and none while it is in progress, 0 when it has succeeded, or
the cause of its failure. The object stands in the table as `FREE`, with its homes, while its initial contents are on
their way to other dies. -/
def State.activate (s : State) (i : Nat) (e : ObjEntry) : State × Option Nat :=
  match s.object i with
  | some o =>
    if o.st != .free || o.gen != e.gen then (s, some causePlaceState)
    else if s.objBusy o then (s, none)
    else (s.setObject i (some { o with st := .active }), some 0)
  | none =>
    if s.objLimit ≤ i || !e.clean || !s.rangeOk e then (s, some causePlaceState)
    else
      let hd := firstHomeDie e.mask s.pos
      match allocHomes (homeList e.pol e.mask hd e.mask) s.kw.used 0 e.granules with
      | none => (s, some causeNoSpace)
      | some (hs, used) =>
        let o : Obj :=
          { st := .active, gen := e.gen, job := e.job, exec := e.exec, sharedRo := e.sharedRo, nc := e.nc, pol := e.pol
            granules := e.granules, pbase := e.pbase, stackMask := e.mask, homeDie := hd, hintDie := 0xFF
            frozen := false, homes := hs, spread := e.mask, qualify := [], traffic := [], shown := [], mig := none
            hints := [], drained := false }
        let place := fun (s : State) (st : ObjSt) =>
          (({ s with mem := s.mem.clear e.pbase (e.granules * granuleBytes) } : State).onKw (fun k => { k with
            used := used })).setObject i (some { o with st := st })
        if e.initSrc = 0 then (place s .active, some 0)
        else
          match s.initNeed e.initSrc e.granules with
          | (s, .wait) => (s, none)
          | (s, .stop r) => let x := (s.dropFetch keyworkAgent).initFails r; (x.1, some x.2)
          | (s, .ok _) =>
            let s := ((place s .free).copyInitAll e.initSrc e.pbase e.granules).dropFetch keyworkAgent
            if s.objBusy o then (s, none) else (s.setObject i (some o), some 0)

/-- The Keywork has read an entry of the object table (R359). -/
def State.readEntry (s : State) (i : Nat) (ws : List Word) : State :=
  s.onKw (fun k => { k with ents := Tab.set [] k.ents i ws })

/-! ### The Keywork area (R347, R350, R359) -/

/-- Code of a core's state in its map entry (R350). -/
def CoreSt.code : CoreSt → Nat
  | .mapped => 0 | .moving => 1 | .absent => 2
/-- Code of a tile's state (R350); before Keywork initialisation nothing has been written. -/
def TileSt.code : TileSt → Nat
  | .inService => 0 | .spare => 1 | .fenced => 2 | .failed => 3 | .admitting => 4 | .off => 0
/-- Code of an object's state (R359). -/
def ObjSt.code : ObjSt → Nat
  | .free => 0 | .active => 1 | .migrating => 2 | .releasing => 3

/-- Entry of a logical core in the core map area (R350). -/
def CoreEnt.word (e : CoreEnt) : Nat := e.tile % 128 + e.st.code * 2 ^ 8

/-- The sixteen words of an object's entry: the driver's words `ws` with the die's fields in their places (R359). -/
def Obj.words (o : Obj) (ws : List Word) : List Word :=
  (List.range 16).map (fun n =>
    if n = 0 then BitVec.ofNat 32 (putBits (wordAt ws 0).toNat 6 2 o.st.code)
    else if n = 5 then BitVec.ofNat 32 (o.homeDie % 256 + o.hintDie % 256 * 2 ^ 8 + bit1 o.frozen * 2 ^ 16)
    else if n < 8 then wordAt ws n
    else BitVec.ofNat 32 (Tab.get 0 o.shown (n - 8)))

/-- The words of an entry of the object table as it stands in memory (R359). -/
def State.entryWords (s : State) (i : Nat) : List Word :=
  match s.object i with
  | some o => o.words (Tab.get [] s.kw.ents i)
  | none => Tab.get [] s.kw.ents i

/-- Byte `i` of the core map area (R350). -/
def State.coreMapByte (s : State) (i : Nat) : Byte :=
  if i < 0x100 then BitVec.ofNat 8 ((s.core (i / 4)).word / 2 ^ (8 * (i % 4)))
  else if i < 0x148 then BitVec.ofNat 8 (s.tileSt (i - 0x100)).code
  else if 0x1000 ≤ i ∧ i < 0x9000 then
    BitVec.ofNat 8 ((Tab.get 0 s.kw.groups ((i - 0x1000) / 8)).toNat / 2 ^ (8 * (i % 8)))
  else 0

/-- Local stack and stack byte offset that a base register names (R348). -/
def areaBase (w : Word) : Nat × Nat := (fld w 0 2, fld w 8 20 * 2 ^ 16)

/-- A byte of the Keywork area of a local stack, as far as the spec lays it out: the core map area at
`KW_CORE_MAP_BASE`, the object table at `KW_OBJ_TABLE_BASE` (R347 to R350, R359). -/
def State.keyworkByte (s : State) (k off : Nat) : Byte :=
  let c := areaBase s.kw.coreBase
  let t := areaBase s.kw.objBase
  if k = c.1 ∧ c.2 ≤ off ∧ off < c.2 + 0x9000 then s.coreMapByte (off - c.2)
  else if k = t.1 ∧ t.2 ≤ off ∧ off < t.2 + 64 * s.objLimit then
    BitVec.ofNat 8 ((wordAt (s.entryWords ((off - t.2) / 64)) ((off - t.2) % 64 / 4)).toNat / 2 ^ (8 * (off % 4)))
  else 0

/-! ### Release (R361) -/

/-- Every core that holds an image of a released executable object invalidates its program memory (R32). -/
def State.dropImages (s : State) (h : Nat) : State :=
  { s with tiles := s.tiles.map (fun e => (e.1, e.2.onSeq (fun z => match z.resident with
      | some (x, _) => if x == h then { z with resident := none, pmem := [] } else z
      | none => z))) }

/-- The lines of an object that a home directory or this die's cache knows. -/
def State.objLines (s : State) (o : Obj) : List Nat :=
  let inObj := fun l => decide (o.pbase ≤ l * 256) && decide (l * 256 < o.pbase + o.granules * granuleBytes)
  ((s.rdc.sharers.keys ++ s.rdc.lines.keys).filter inObj).eraseDups

/-- Invalidate every line of an object in every remote-data cache that the directory knows of (R361, R369). -/
def State.invalidateObj (s : State) (o : Obj) : State :=
  (s.invalidateLines (s.objLines o)).1

/-- Whether invalidations of an object's lines are still unacknowledged. -/
def State.objInvalidating (s : State) (o : Obj) : Bool :=
  s.rdc.invs.any (fun w => w.lines.any (fun l =>
    decide (o.pbase ≤ l * 256) && decide (l * 256 < o.pbase + o.granules * granuleBytes)))

/-- Abandon a migration whose switch has not begun (R361, R370). -/
def State.abandonMigration (s : State) (i : Nat) (o : Obj) : State :=
  match o.mig with
  | none => s
  | some m =>
    ((s.onKw (fun k => { k with used := freeHomes k.used m.newHomes })).setObject i
      (some { o with st := .active, mig := none, qualify := [] })).event
      { typ := 0x0703, job := o.job, pay := [(0x18, 4, handleOf i o), (0x1C, 4, m.dirty.length * 4096)] }

/-- A release goes on once the admitted accesses have completed (R361): the images of an executable object and the lines
of the object are invalidated everywhere. -/
def State.releaseStep (s : State) (i : Nat) : State :=
  match s.object i with
  | none => s
  | some o =>
    if o.st != .releasing || o.drained || s.objBusy o then s
    else
      let s := s.setObject i (some { o with drained := true })
      let s := if o.exec then s.dropImages (handleOf i o) else s
      s.invalidateObj o

/-- Whether the release of an object has come to its last step: its lines are gone from every cache (R361). -/
def State.released (s : State) (i : Nat) : Bool :=
  match s.object i with
  | none => true
  | some o => o.st == .releasing && o.drained && !s.objInvalidating o

/-- Begin the release of an object whose switch has not begun (R361). -/
def State.release (s : State) (i : Nat) : State :=
  match s.object i with
  | none => s
  | some o =>
    let s := if o.st == .migrating then s.abandonMigration i o else s
    (s.setObject i (some { o with st := .releasing, mig := none, hints := [], drained := false })).releaseStep i

/-- Release every object of a killed job (R342, R362). An object in the switch of a migration follows when the switch
is complete. -/
def State.releaseJob (s : State) (j : Nat) : State :=
  s.kw.objs.keys.foldl (fun s i => match s.object i with
    | some o =>
      let switching := match o.mig with
        | some m => m.switching
        | none => false
      if o.job == j && o.st != .releasing && o.st != .free && !switching then s.release i else s
    | none => s) s

/-- The last granule of a released object is clear (R361): its granules are free, its poison marks gone (R421). -/
def State.objFreed (s : State) (i : Nat) : State :=
  let s := s.releaseStep i
  match s.object i with
  | none => s
  | some o =>
    if !s.released i then s
    else
      let g := o.pbase / granuleBytes
      let s := { s with
        mem := s.mem.clear o.pbase (o.granules * granuleBytes)
        pkg := { s.pkg with poison := s.pkg.poison.filter (fun x => decide (x < g) || decide (g + o.granules ≤ x)) } }
      let ws := ({ o with st := .free } : Obj).words (Tab.get [] s.kw.ents i)
      ((s.onKw (fun k => { k with used := freeHomes k.used o.homes, ents := Tab.set [] k.ents i ws })).setObject i none).event
        { typ := 0x0704, job := o.job, pay := [(0x18, 4, handleOf i o)] }

/-- `OBJ_FREED` (R361). -/
def execObjFreed (i : Nat) (s : State) : Host.Outcome State Fault Refusal := .next (s.objFreed i)

/-! ### Hints (R372) -/

/-- Record a hint for the next epoch boundary; a later one of its kind replaces it. -/
def Obj.hint (o : Obj) (code operand : Nat) : Obj :=
  { o with hints := o.hints.filter (fun h => h.1 != code) ++ [(code, operand)] }

/-- Start moving an object's granules to new homes (R369); nothing happens when they do not fit. -/
def State.startMigration (s : State) (i : Nat) (o : Obj) (target : Nat) (l : List Nat) : State :=
  match allocHomes l s.kw.used 0 o.granules with
  | none => s
  | some (hs, used) =>
    (s.onKw (fun k => { k with used := used })).setObject i (some { o with
      st := .migrating
      mig := some { target := target, newHomes := hs, copied := false, switching := false, dirty := [], postponed := 0 } })

/-- Apply one recorded hint at an epoch boundary (R372). A spread set that changes while granules are moving is moved to at
the first boundary at which the object is `ACTIVE`. -/
def State.applyHint (s : State) (i : Nat) (h : Nat × Nat) : State :=
  match s.object i with
  | none => s
  | some o =>
    match h.1 with
    | 0 => s.setObject i (some { o with
        hintDie := ((List.range 8).find? (fun d => h.2.testBit d && !(dieStacks o.stackMask d).isEmpty)).getD 0xFF })
    | 1 => s.setObject i (some { o with hintDie := s.pos })
    | 2 =>
      let m := h.2 &&& o.stackMask
      if o.pol != 2 || m = 0 then s
      else if o.st == .active then
        let o' := { o with spread := m }
        (s.setObject i (some o')).startMigration i o' 8 (stacksOf m)
      else s.setObject i (some ({ o with spread := m }.hint 2 h.2))
    | 3 => s.setObject i (some { o with frozen := true })
    | _ => s.setObject i (some { o with frozen := false, qualify := [] })

/-- Apply an object's recorded hints in the order they were accepted. -/
def State.applyHints (s : State) (i : Nat) : State :=
  match s.object i with
  | none => s
  | some o => o.hints.foldl (fun s h => s.applyHint i h) (s.setObject i (some { o with hints := [] }))

/-! ### Epochs and migration (R349, R367 to R370) -/

/-- Epoch length in ns; the reserved length 0 is taken as 1 ms (log 15). -/
def State.epochNs (s : State) : Nat := 10 ^ 6 * max 1 (s.rfld 0x2414 0 8)

/-- Close an epoch's counts of an object: `TRAFFIC0` to `TRAFFIC7`, with the counts that other dies report (R367). -/
def Obj.closeEpoch (o : Obj) (reports : List (Nat × Nat)) : Obj :=
  let all := reports.foldl (fun t r => Tab.mod 0 t r.1 (· + r.2)) o.traffic
  { o with traffic := [], shown := all.map (fun e => (e.1, min (e.2 / 4096) (2 ^ 32 - 1))) |>.filter (fun e => e.2 != 0) }

/-- The share in percent that a die needs (R368), doubled: the hinted die needs half of `SHARE_PCT`, at least 50. -/
def shareNeeded (pct : Nat) (hinted : Bool) : Nat := if hinted then max 100 pct else 2 * pct

/-- Whether a die qualifies in the epoch just closed (R368). -/
def Obj.qualifies (o : Obj) (pct d : Nat) : Bool :=
  let total := o.shown.foldl (fun n e => n + e.2) 0
  total != 0 && !(dieStacks o.stackMask d).isEmpty
  && decide (shareNeeded pct (d == o.hintDie) * total ≤ 200 * Tab.get 0 o.shown d)

/-- Evaluate an object at an epoch boundary (R368). Where it is not evaluated no die qualifies in the epoch. -/
def State.evaluate (s : State) (i : Nat) : State :=
  match s.object i with
  | none => s
  | some o =>
    if o.st != .active || o.pol != 1 || o.frozen || !bitAt (s.reg 0x2400) 0 then s.setObject i (some { o with qualify := [] })
    else
      let pct := s.rfld 0x2414 8 7
      let hyst := s.rfld 0x2414 16 3
      let q := (List.range 8).foldl (fun t d =>
        Tab.set 0 t d (if o.qualifies pct d then Tab.get 0 o.qualify d + 1 else 0)) ([] : Tab Nat)
      let o := { o with qualify := q }
      let go := (List.range 8).find? (fun d => d != o.homeDie
        && decide ((if d == o.hintDie then 1 else hyst) ≤ Tab.get 0 q d) && decide (1 ≤ Tab.get 0 q d))
      match go with
      | some d => (s.setObject i (some o)).startMigration i o d (dieStacks o.stackMask d)
      | none => s.setObject i (some o)

/-- What an epoch boundary does to a migration whose copy has ended (R369, R370): the switch begins, or is put off, or
after three postponements the migration is abandoned. -/
def State.boundaryMigration (s : State) (i : Nat) : State :=
  match s.object i with
  | none => s
  | some o =>
    match o.mig with
    | none => s
    | some m =>
      if !m.copied || m.switching then s
      else if 4 * 2 ^ 20 < m.dirty.length * 4096 then
        if 3 ≤ m.postponed then s.abandonMigration i o
        else s.setObject i (some { o with mig := some { m with copied := false, dirty := [], postponed := m.postponed + 1 } })
      else (s.setObject i (some { o with mig := some { m with switching := true } })).invalidateObj o

/-- Register writes that wait for an epoch boundary take effect (R349). -/
def State.kwPending (s : State) : State :=
  let s := match s.kw.pendCtrl with
    | some v => s.setReg 0x2400 v
    | none => s
  let s := match s.kw.pendPolicy with
    | some v => s.setReg 0x2414 (if fld v 0 8 = 0 then BitVec.ofNat 32 (putBits v.toNat 0 8 (s.rfld 0x2414 0 8)) else v)
    | none => s
  s.onKw (fun k => { k with pendCtrl := none, pendPolicy := none })

/-- The counts of an epoch that ends, with what other dies report (R367). -/
def State.closeObjEpoch (s : State) (reports : List (Nat × Nat × Nat)) (i : Nat) : State :=
  match s.object i with
  | some o => s.setObject i (some (o.closeEpoch ((reports.filter (fun r => r.1 == i)).map (·.2))))
  | none => s

/-- This die's counts for the objects of other dies are reported to their owners, and it drops their translations, so that
an access after the boundary asks the owner anew, who holds the answer during a switch (R367, R369; log 51). -/
def State.closeExt (s : State) : State := s.onKw (fun k => { k with sent := k.ext, ext := [], xlate := [] })

/-- An epoch ends (R349, R367 to R370, R372). `reports` are the counts that other dies report: object, die, bytes. The
writes that take effect here are in force for the evaluation, and number the epoch that begins (DEDUCED; log 15). -/
def State.epochBoundary (s : State) (reports : List (Nat × Nat × Nat)) : State :=
  if !s.kw.ready || s.now / s.epochNs == s.kw.epoch then s
  else
    let ids := s.kw.objs.keys
    let s := ids.foldl (fun s i => s.closeObjEpoch reports i) s
    let s := s.closeExt.kwPending
    let s := s.onKw (fun k => { k with epoch := s.now / s.epochNs })
    let s := ids.foldl (fun s i => s.boundaryMigration i) s
    let s := ids.foldl (fun s i => s.applyHints i) s
    ids.foldl (fun s i => s.evaluate i) s

/-- `EPOCH_BOUNDARY` (R368). -/
def execEpochBoundary (reports : List (Nat × Nat × Nat)) (s : State) : Host.Outcome State Fault Refusal :=
  .next (s.epochBoundary reports)

/-- The copy of a migrating object ends (R369). -/
def State.migrationCopied (s : State) (i : Nat) : State :=
  match s.object i with
  | some o => match o.mig with
    | some m => s.setObject i (some { o with mig := some { m with copied := true } })
    | none => s
  | none => s

/-- `MIGRATION_COPY_DONE` (R369). -/
def execMigrationCopyDone (i : Nat) (s : State) : Host.Outcome State Fault Refusal := .next (s.migrationCopied i)

/-- Move the contents of granules between this die's stacks and those of others at a switch: what comes here is as
another die held it (log 4), what leaves is no longer here. -/
def State.moveGranules (s : State) (pbase i : Nat) : List (Nat × Nat) → State
  | [] => s
  | (a, b) :: r =>
    let at' := pbase + i * granuleBytes
    let s := if a / 4 == s.pos && b / 4 != s.pos then { s with mem := s.mem.clear at' granuleBytes }
      else if a / 4 != s.pos && b / 4 == s.pos then
        { s with mem := (s.mem.clear at' granuleBytes).wrBytes at' ((List.range granuleBytes).map (fun k => Config.outsideByte s.free (at' + k))) }
      else s
    State.moveGranules s pbase (i + 1) r

/-- The switch of a migrating object is complete (R369): once its lines have been invalidated everywhere and the admitted
accesses have completed at the old home. -/
def State.migrationSwitched (s : State) (i : Nat) : State :=
  match s.object i with
  | none => s
  | some o =>
    match o.mig with
    | none => s
    | some m =>
      if !m.switching || s.objInvalidating o || s.objOpen o then s
      else
        let hd := if m.target < 8 then m.target else o.homeDie
        let o' := { o with st := .active, homes := m.newHomes, homeDie := hd, mig := none, qualify := [] }
        let s := s.moveGranules o.pbase 0 (o.homes.zip m.newHomes)
        let s := (s.onKw (fun k => { k with used := freeHomes k.used o.homes })).setObject i (some o')
        (s.event { typ := 0x0702, job := o.job, pay := [(0x18, 4, handleOf i o), (0x1C, 4, o.homeDie + hd * 2 ^ 8),
          (0x20, 4, o.granules), (0x28, 8, s.now)] }).tick

/-! ### Translations (R358) -/

/-- A translation of a granule that another die owns is missing: the owner is asked (R358). -/
def State.translationMiss (s : State) (addr : Nat) : State :=
  let a := addr / granuleBytes * granuleBytes
  if isHostAddr a || ownerOf a == s.pos || (Tab.get none s.kw.xlate (a / granuleBytes)).isSome
      || s.rdc.opens.any (fun e => match e.2 with
          | some o => o.pkt.cls == 0 && o.pkt.ptype == 3 && o.pkt.addr == a
          | none => false) then s
  else
    let r := s.request (ownerOf a) { s.packet 0 3 (ownerOf a) 121 with addr := a } OpenTx.posted
    if r.2 then r.1 else s.event { typ := 0x0206, pay := [(0x18, 4, ownerOf a), (0x1C, 4, 3 * 8)] }

/-- `TRANSLATION_MISS` (R358). -/
def execTranslationMiss (addr : Nat) (s : State) : Host.Outcome State Fault Refusal := .next (s.translationMiss addr)

/-! ### The core map and spare admission (R351, R352, R355, R568) -/

/-- Column and row of a tile in the 9 by 8 mesh (R12). -/
def tileAt (t : Nat) : Nat × Nat := (t % 9, t / 9)

/-- Mesh hops between two tiles. -/
def hops (a b : Nat) : Nat :=
  let x := tileAt a
  let y := tileAt b
  (max x.1 y.1 - min x.1 y.1) + (max x.2 y.2 - min x.2 y.2)

/-- Whether a requested BIST runs on a tile: the Keywork does not choose it then (R521). -/
def State.inBist (s : State) (t : Nat) : Bool := s.tst.bistBusy && s.tst.bistTile == t

/-- Tiles in state `SPARE` that may be chosen. -/
def State.spares (s : State) : List Nat :=
  (List.range Config.tiles).filter (fun t => s.tileSt t == .spare && !s.inBist t)

/-- The spare nearest to a tile, ties to the lowest ID (R355). -/
def nearestSpare (t : Nat) : List Nat → Option Nat
  | [] => none
  | x :: xs => match nearestSpare t xs with
    | none => some x
    | some y => if hops y t < hops x t then some y else some x

/-- Begin admitting a spare for a logical core; `old` is the fenced tile, 127 for an `ABSENT` core (R355, R568). An
admission whose only spare is in BIST waits, as an entry for tile 127 (R521). With no spare left the core becomes
`ABSENT`. -/
def State.admitFor (s : State) (core old : Nat) : State :=
  let pick := if old == 127 then s.spares.head? else nearestSpare old s.spares
  match pick with
  | some sp =>
    (s.setTileSt sp .admitting).onKw (fun k => { k with
      cores := Tab.mod CoreEnt.init k.cores core (fun e => { e with st := .moving })
      admitting := k.admitting ++ [(sp, core, old)] })
  | none =>
    if s.tst.bistBusy && s.tileSt s.tst.bistTile == .spare then
      s.onKw (fun k => { k with
        cores := Tab.mod CoreEnt.init k.cores core (fun e => { e with st := .moving })
        admitting := k.admitting ++ [(127, core, old)] })
    else (s.onKw (fun k => { k with cores := Tab.mod CoreEnt.init k.cores core (fun e => { e with st := .absent }) })).absentEvent core old

/-- The core map's part of a fence (R352, R355): the logical core moves to a spare, or becomes `ABSENT`. -/
def State.mapFence (s : State) (t : Nat) : State :=
  let s' := s.setTileSt t .fenced
  match s.coreOf t with
  | none => s'
  | some c =>
    if bitAt (s.reg 0x2400) 1 then s'.admitFor c t
    else (s'.onKw (fun k => { k with cores := Tab.mod CoreEnt.init k.cores c (fun e => { e with st := .absent }) })).absentEvent c t

/-- A spare's power-up, BIST and scrub end (R355). -/
def State.spareDone (s : State) (sp : Nat) (ok : Bool) : State :=
  match s.kw.admitting.find? (fun a => a.1 == sp) with
  | none => s
  | some (_, core, old) =>
    let s := s.onKw (fun k => { k with admitting := k.admitting.filter (fun a => a.1 != sp) })
    if ok then
      let s := ((s.setTileSt sp .inService).setCore core ⟨sp, .mapped⟩).onTile sp (fun _ => Tile.init)
      s.event { typ := 0x0700, pay := [(0x18, 4, core + old * 2 ^ 8 + sp * 2 ^ 16 + s.spares.length * 2 ^ 24)] }
    else ((s.setTileSt sp .failed).onTile sp (fun _ => Tile.init)).admitFor core old

/-- `SPARE_ADMITTED`: an admission ends; `ok` says whether the spare passed its BIST (R355). -/
def execSpareAdmitted (sp : Nat) (ok : Bool) (s : State) : Host.Outcome State Fault Refusal :=
  onUnit (isTile sp) sp (s.spareDone sp ok)

/-- The lowest `ABSENT` logical core. -/
def State.lowestAbsent (s : State) : Option Nat := (List.range 64).find? (fun c => (s.core c).st == .absent)

/-- `ABSENT_ADMISSION`: a spare is admitted for the lowest `ABSENT` logical core (R568). -/
def execAbsentAdmission (s : State) : Host.Outcome State Fault Refusal :=
  .next (match s.lowestAbsent with
    | some c => if s.kw.ready && bitAt (s.reg 0x2400) 1 && !s.spares.isEmpty then s.admitFor c 127 else s
    | none => s)

/-- Build the core map: `pass` says which tiles passed BIST, `spareSet` is the option store's (R351, R440). A tile that takes
no logical core is powered down (R18). -/
def State.buildMap (s : State) (pass spareSet : Nat) : State :=
  let ok := (List.range Config.tiles).filter (fun t => pass.testBit t)
  let plain := (ok.filter (fun t => !spareSet.testBit t)).take 64
  let extra := (ok.filter (fun t => spareSet.testBit t)).take (64 - plain.length)
  let used := plain ++ extra
  let s : State := { s with tiles := s.tiles.filter (fun e => used.contains e.1) }
  let s := (List.range Config.tiles).foldl (fun s t =>
    s.setTileSt t (if !pass.testBit t then .failed else if used.contains t then .inService else .spare)) s
  (List.range 64).foldl (fun s c => s.setCore c (match used[c]? with
    | some t => ⟨t, .mapped⟩
    | none => ⟨127, .absent⟩)) s

/-- Entries of an object table in index order. -/
def inIndexOrder (ents : List (Nat × List Word)) : Tab (List Word) := ents.foldl (fun t x => Tab.set [] t x.1 x.2) []

/-- Keywork initialisation has dealt with entry `i`. -/
def State.initPast (s : State) (i : Nat) : State := s.onKw (fun k => { k with initPos := i + 1 })

/-- An entry has failed to activate at initialisation (R360). -/
def State.initFailed (s : State) (i cause : Nat) (e : ObjEntry) : State :=
  (s.onKw (fun k => { k with mapErr := true })).lateEvent
    { typ := 0x0706, job := e.job, pay := [(0x18, 4, e.gen * 2 ^ 20 + i), (0x1C, 4, cause)] }

/-- Activate the valid entries of the object table in index order (R360), from where an earlier attempt has come to. Answers
whether all have been dealt with. -/
def State.activateFrom (s : State) : List (Nat × List Word) → State × Bool
  | [] => (s, true)
  | (i, ws) :: r =>
    let e := objEntry ws
    if i < s.kw.initPos || !e.valid then State.activateFrom s r
    else match (s.readEntry i ws).activate i e with
      | (s', none) => (s', false)
      | (s', some 0) => State.activateFrom (s'.initPast i) r
      | (s', some c) => State.activateFrom ((s'.initFailed i c e).initPast i) r

/-- The Keywork reads its base registers and the size of the object table (R349). -/
def State.kwLatch (s : State) : State :=
  s.onKw (fun k => { k with
    coreBase := s.reg 0x2408, objBase := s.reg 0x240C, objLimit := 2 ^ s.rfld 0x2410 0 5, initPos := 0 })

end Sys2Proof.Machine
end

