-- ==== Sys2Proof/Machine/Program.lean ====
section
/-!
DEFINITION. How a core takes up, starts, yields and saves a core program, and how its stores are sealed and scrubbed
(spec/02_core_and_sequencer.md R28 to R35, R63, R64, R564; spec/10 R244, R255 to R257; spec/08 R211 to R213;
spec/12 R331).
-/

namespace Sys2Proof.Machine

open Sys2Proof

/-! ### Accesses of the queue manager (R363, R364, R567) -/

/-- The check of a queue-manager access as job `j`: 0 allowed, 1 to 5 the reason of the refusal, 6 poisoned. -/
def State.qmCheck (s : State) (j : Nat) (wr hostOk : Bool) (addr len : Nat) : Nat :=
  if s.deny j wr hostOk addr len != 0 then s.deny j wr hostOk addr len
  else if s.isPoisoned addr len then 6 else 0

/-- Report a queue-manager access that the check stopped. -/
def State.qmRefuse (s : State) (e : Ev) (addr reason : Nat) : State :=
  if reason == 6 then s.poisonEvent e addr else s.denied e 63 addr reason

/-! ### Sealing and scrubbing (R255 to R257) -/

/-- Every slot of a scratchpad turns `SEALED` (R255). -/
def Tile.seal (q : Tile) : Tile := { q with spad := { q.spad with sealed := true } }

/-- Seal a tile: its windows close, since no writer may write a sealed slot (R255). -/
def State.sealTile (s : State) (t ans : Nat) : State := (s.closeWindows t ans).onTile t Tile.seal

/-- The stores of a core that the Mute zeroes beside the scratchpad: Reed, tile buffers, accumulators (R256). -/
def Tile.scrub (q : Tile) : Tile :=
  { q with
    spad := Spad.init
    dma := { q.dma with granted := [] }
    row := { q.row with reed := [], owner := none }
    vec := { q.vec with t := [] }
    ma0 := { q.ma0 with acc := [] }
    ma1 := { q.ma1 with acc := [] } }

/-- The stores of a killed job's core that are cleared with the scrub (R504), program memory invalidated. The
sequencer returns to its reset state. -/
def Tile.wipe (q : Tile) : Tile :=
  { q with seq := Seq.init, ma0 := { Arr.init with acc := q.ma0.acc }, ma1 := { Arr.init with acc := q.ma1.acc }
           vec := { Vec.init with t := q.vec.t }
           row := { Row.init with reed := q.row.reed, owner := q.row.owner }
           dma := { Dma.init with reqs := q.dma.reqs, granted := q.dma.granted }
           sync := SyncUnit.init }

/-- The slots of a tile are scrubbed: contexts saved from it without them have lost what they relied on (R333). -/
def State.framesGone (s : State) (t : Nat) : State :=
  { s with qm := { s.qm with frames := s.qm.frames.map (fun e => (e.1, e.2.map (fun f =>
      if (s.core f.tile.seq.lcore).tile == t && f.spad.isNone then { f with gone := true } else f))) } }

/-- The Mute has finished with a sealed core (R256, R451): every slot is `EMPTY` and the core has no owner. `ok` says
whether the scrub succeeded; on a fenced tile a failed scrub leaves the tile `FAILED` and powered down, without state (R18). Slots held for
the debugger are not scrubbed (R257). -/
def State.muteScrubDone (s : State) (t : Nat) (ok : Bool) : State :=
  let q := s.tile t
  if !s.coresRun || !q.spad.sealed || q.spad.retain.isSome then s
  else if ok then (s.onTile t Tile.scrub).framesGone t
  else if s.tileSt t == .fenced then
    let s := (s.setTileSt t .failed).onTile t (fun _ => Tile.init)
    { s with flt := { s.flt with off := s.flt.off ||| 2 ^ t } }
  else s

/-- `MUTE_SCRUB_DONE` (R256). -/
def execMuteScrubDone (t : Nat) (ok : Bool) (s : State) : Host.Outcome State Fault Refusal :=
  onUnit (isTile t) t (s.muteScrubDone t ok)

/-! ### Hand-over and start (R32 to R34, R564) -/

/-- The Keywork hands a member its descriptor: the program's fields, taken from the descriptor's body (R564, R323). -/
def Seq.handOver (z : Seq) (d : Desc) (core member group : Nat) : Seq :=
  { z with
    phase := .starting, handle := (d.w 0x18).toNat, progLen := fld (d.w 0x14) 0 15, entry := fld (d.w 0x14) 16 14
    args := [d.w 0x28, d.w 0x2C, d.w 0x30, d.w 0x34], argAddr := d.w64 0x20 % 2 ^ 52, argLen := fld (d.w 0x1C) 0 13
    seed := BitVec.ofNat 64 (d.w64 0x38), lcore := core, member := member, group := group, job := d.job
    stream := d.stream, seqNo := d.seq, stall := none, halted := false, stepping := false, haltReq := false
    twait := none, faultInfo := 0 }

/-- Hand a descriptor to a tile. What an earlier program left undelivered is gone. -/
def Tile.handOver (q : Tile) (d : Desc) (core member group : Nat) : Tile :=
  { q with seq := q.seq.handOver d core member group, sync := SyncUnit.init
           dma := { q.dma with reopen := [], handles := [] } }

/-- The check of a program handle (R32): 0, or the reason of the refusal. A handle of a `RELEASING` object names no
`ACTIVE` object (DEDUCED, log 16). -/
def State.progReason (s : State) (job handle len : Nat) : Nat :=
  match s.handleObj handle with
  | none => 1
  | some (_, o) =>
    if o.granules * granuleBytes < 4 * len then 1
    else if o.job != job && !o.sharedRo then 2
    else if !o.exec then 3 else 0

/-- Package address of a program image; 0 when the handle names no object. -/
def State.progAddr (s : State) (handle : Nat) : Nat :=
  match s.handleObj handle with
  | some (_, o) => o.pbase
  | none => 0

/-- Header of the queue manager's events about a descriptor. -/
def Desc.ev (d : Desc) : Ev := { typ := 0, job := d.job, stream := some d.stream, seq := d.seq }

/-- A program handle has failed its check (R32): no member starts, one event, `SECURITY` with cause 0x17. -/
def State.progDenied (s : State) (uid reason : Nat) : State :=
  match s.desc uid with
  | none => s
  | some d =>
    let s := if d.outcome.isSome then s
      else (s.denied d.ev 63 (s.progAddr (d.w 0x18).toNat) reason).hitDesc uid causeDeny 127
    { s with tiles := s.tiles.map (fun e =>
        if e.2.seq.phase == .starting && e.2.seq.stream == d.stream && e.2.seq.seqNo == d.seq then
          (e.1, e.2.onSeq (fun z => { z with phase := .discarded })) else e) }

/-- Words of an image in package memory, as an agent has them. -/
def State.imageWords (s : State) (agent addr n : Nat) : Tab Word :=
  let m := Mem.wrBytes [] 0 (s.rdPkg agent addr (4 * n))
  (List.range n).foldl (fun t i => Tab.set 0 t i (BitVec.ofNat 32 (m.rdLE (4 * i) 4))) []

/-- Whether program memory already holds the image that a core is to run (R32). -/
def Seq.residentOk (z : Seq) : Bool :=
  match z.resident with
  | some (h, n) => h == z.handle && decide (z.progLen ≤ n)
  | none => false

/-- Fetch the image of a program unless it is resident (R32). -/
def State.needImage (s : State) (t : Nat) : State × Piece Unit :=
  let z := (s.tile t).seq
  if z.residentOk then (s, .ok ())
  else s.need (s.agentOf t) (loaderAgent t) false (s.progAddr z.handle) (4 * z.progLen)

/-- Fetch the argument block of a program (R33, R564). -/
def State.needArgs (s : State) (t : Nat) : State × Piece Unit :=
  s.need (s.agentOf t) (loaderAgent t) false (s.tile t).seq.argAddr (s.tile t).seq.argLen

/-- Put the image of a program into program memory unless it is resident (R32). -/
def State.loadImage (s : State) (t : Nat) : State :=
  let z := (s.tile t).seq
  if z.residentOk then s
  else (s.readAt (s.progAddr z.handle) (4 * z.progLen)).onTile t (fun q => q.onSeq (fun z => { z with
    pmem := s.imageWords (loaderAgent t) (s.progAddr z.handle) z.progLen, resident := some (z.handle, z.progLen) }))

/-- The argument block of a program as it has been fetched (R33). -/
def State.argBlock (s : State) (t : Nat) : List Byte :=
  s.rdPkg (loaderAgent t) (s.tile t).seq.argAddr (s.tile t).seq.argLen

/-- Scalar registers at program start (R34). -/
def startRegs (z : Seq) : Tab Word :=
  let n := fun k => BitVec.ofNat 32 k
  ([(1, n z.lcore), (2, n z.member), (3, n z.group), (4, n z.job), (5, n z.stream), (6, n z.seqNo),
    (8, wordAt z.args 0), (9, wordAt z.args 1), (10, wordAt z.args 2), (11, wordAt z.args 3), (12, n z.argLen)]).foldl
    (fun t e => Tab.set 0 t e.1 e.2) []

/-- An array at program start: no accumulator row is valid, no pass configuration is in force, `SCALE` and the Bell
are as after reset, and the counters are 0 (R79, R98, R132, R153). -/
def Arr.start (a : Arr) : Arr :=
  { Arr.init with bankA := a.bankA, bankB := a.bankB, sel := a.sel }

/-- The first instruction is about to run (R33, R34, R177, R211, R244). -/
def Tile.start (q : Tile) (argB : List Byte) : Tile :=
  let z := q.seq
  let same := q.row.owner == some z.job
  { q with
    seq := { z with
      phase := .running, pc := z.entry, regs := startRegs z, dmem := Mem.wrBytes [] 0 argB, tokens := [], coreCfg := 0
      cycles := 0, tsHi := 0, stall := none, sat := 0, flushIn := 0, flushOut := 0, recomp := 0, faultInfo := 0
      issued := 0, twait := none, stallNs := 0, phaseAcc := 0 }
    ma0 := q.ma0.start, ma1 := q.ma1.start, vec := Vec.init
    row := { Row.init with
      owner := some z.job
      reed := if same then q.row.reed.foldl (fun t e => Tab.set ReedEnt.init t e.1 { e.2 with mine := false }) [] else [] }
    dma := { q.dma with q := [], handles := [], windows := [], cnt := [], reopen := [] }
    sync := SyncUnit.init
    spad := { q.spad with owner := some z.job, mine := [] } }

/-- Whether a descriptor's members have all left the hand-over (R321). -/
def State.allStarted (s : State) (d : Desc) : Bool :=
  d.cores.all (fun c => let z := (s.tile (s.core c).tile).seq
    !(z.phase == .starting && z.stream == d.stream && z.seqNo == d.seq))

/-- Record the start of a descriptor once every member's program has started: its time runs from then on (R321, R345). -/
def State.noteStart (s : State) (uid : Nat) : State :=
  match s.desc uid with
  | some d =>
    if s.allStarted d then s.onDesc uid (fun d => { d with
      begun := true, timed := true, startTs := if d.timed then d.startTs else s.now })
    else s
  | none => s

/-- A program whose image and argument block are here starts (R32, R33, R564). -/
def State.startRun (s : State) (t : Nat) (d : Desc) : State :=
  let bs := s.argBlock t
  ((((s.loadImage t).readAt (s.tile t).seq.argAddr (s.tile t).seq.argLen).dropFetch (loaderAgent t)).onTile t (fun q => q.start bs)).noteStart d.uid

/-- The fetches of a program's image and argument block, which run together, and its start once both have ended
(R32, R33, R564). -/
def State.startFetched (s : State) (t : Nat) (d : Desc) : State :=
  match s.needImage t with
  | (s, .stop r) => (s.dropFetch (loaderAgent t)).stopTile t r
  | (s, img) =>
    match s.needArgs t, img with
    | (s, .stop r), _ => (s.dropFetch (loaderAgent t)).stopTile t r
    | (s, .ok _), .ok _ => s.startRun t d
    | (s, _), _ => s

/-- A core program starts (R32, R33, R564): the handle is checked, another job's data is sealed first and the start
waits for the scrub (R244), the image and the argument block are fetched, and the start state is set. -/
def State.programStart (s : State) (t : Nat) : State :=
  let q := s.tile t
  if !s.coresRun || s.pkg.holdover || q.seq.phase != .starting then s
  else
    match s.descOf t with
    | none => s
    | some d =>
      if !d.goesOn then s.onTile t (fun q => q.onSeq (fun z => { z with phase := .discarded }))
      else if s.progReason q.seq.job q.seq.handle q.seq.progLen != 0 then
        s.progDenied d.uid (s.progReason q.seq.job q.seq.handle q.seq.progLen)
      else if q.spad.sealed then s
      else if q.spad.owner.isSome && q.spad.owner != some q.seq.job then s.sealTile t 2
      else
        s.startFetched t d

/-- `PROGRAM_START` (R564). -/
def execProgramStart (t : Nat) (s : State) : Host.Outcome State Fault Refusal := onUnit (isTile t) t (s.programStart t)

/-! ### Yield and context save (R63, R64, R262, R263, R300, R331) -/

/-- A descriptor becomes pre-empted once no member is still yielding and one has saved or discarded its context
(R332); the time in progress stops (R345). -/
def State.settleYield (s : State) (uid : Nat) : State :=
  match s.desc uid with
  | none => s
  | some d =>
    let mine := s.tiles.filter (fun e => e.2.seq.stream == d.stream && e.2.seq.seqNo == d.seq)
    let any := fun (f : Phase → Bool) => mine.any (fun e => f e.2.seq.phase)
    if d.st == .running && d.acted && !any (· == .yielding) && any (fun p => p == .saved || p == .discarded) then
      s.onDesc uid (fun d => { d with st := .preempted, spent := s.elapsed d, startTs := s.now })
    else s

/-- Size of a context frame (R331). -/
def Stream.frameSize (x : Stream) : Nat := if x.ctxSpad then 20 * 2 ^ 20 else 4 * 2 ^ 20

/-- A core discards its context: the descriptor restarts from its start (R63, R196, R332). -/
def State.discardContext (s : State) (t : Nat) : State :=
  match s.descOf t with
  | none => s
  | some d =>
    let s := (((s.onTile t (fun q => q.abandon.onSeq (fun z => { z with phase := .discarded }))).letGo t 2).syncStop t)
    (s.onDesc d.uid (fun d => { d with discarded := true })).settleYield d.uid

/-- Where a member's frame begins (R331). -/
def Stream.frameAt (x : Stream) (member : Nat) : Nat := x.ctxBase + member * x.frameSize

/-- The core part of a context: its bytes, and their CRC-32C (R331; log 17). -/
def coreImage (n : Nat) : List Byte :=
  let bs := (List.range (Config.contextLen % 2621437)).map (Config.contextByte n)
  bs ++ leBytes 4 (crc32c bs)

/-- The word in which a frame keeps a slot's tag, fill count and declared length: 4 bytes a slot, the tag in [1:0], the
state of the fill behind it (DESIGN CHOICE: R331 gives the bytes, not their layout; log 17). -/
def Spad.tagWord (sp : Spad) (k : Nat) : Nat :=
  let x := sp.slot k
  (match x.tag with
    | .empty => 0
    | .full => 1
    | .sealed => 2
    | .raw => 3) + x.fill % 2 ^ 13 * 2 ^ 4 + x.decl % 2 ^ 13 * 2 ^ 17

/-- The scratchpad part of a context, with the offset of each of its two pieces in the frame (R331). -/
def Spad.image (sp : Spad) : List (Nat × List Byte) :=
  [(4 * 2 ^ 20 - 16384, (List.range 4096).flatMap (fun k => leBytes 4 (sp.tagWord k))),
   (4 * 2 ^ 20, sp.mem.rdBytes 0 (16 * 2 ^ 20))]

/-- Write a context into its frame (R331), as the stream's job (R363). -/
def State.writeFrame (s : State) (x : Stream) (member : Nat) (spad : Option Spad) : State :=
  let a := x.frameAt member
  let parts := (0, coreImage s.free) :: (match spad with
    | some sp => sp.image
    | none => [])
  parts.foldl (fun s p => s.wrPkg (a + p.1) x.job p.2) s

/-- Save the context of a core in the frame of its member (R331), as a program that stands at `phase` when it resumes.
The scratchpad part is saved when the stream keeps one and another job takes the core. A frame area that the Keywork
refuses, or that is poisoned, leaves nothing to resume from: the context is discarded (DESIGN CHOICE, log 17). -/
def State.saveContext (s : State) (t : Nat) (phase : Phase) : State :=
  match s.descOf t with
  | none => s
  | some d =>
    match s.stream d.stream with
    | none => s
    | some x =>
      let q := s.tile t
      let a := x.frameAt q.seq.member
      let r := s.qmCheck x.job true false a x.frameSize
      if r != 0 then (s.qmRefuse d.ev a r).discardContext t
      else
        let s := s.letGo t 2
        let q := s.tile t
        let held := match q.sync.withdrawn with
          | some e => e :: q.sync.q
          | none => q.sync.q
        let kept : Tile := { q with
          seq := { q.seq with phase := phase, pmem := [], resident := none }
          sync := { q.sync with q := held, withdrawn := none }
          dma := { q.dma with handles := [], windows := [], reqs := [], granted := [] }
          spad := Spad.init }
        let f : Frame :=
          { tile := kept, spad := if x.ctxSpad && q.seq.yieldJob != q.seq.job then some q.spad else none, gone := false }
        let s := (s.writeFrame x q.seq.member f.spad).tick
        let s := { s with qm := { s.qm with frames := Tab.set none s.qm.frames (64 * d.uid + q.seq.member) (some f) } }
        (s.onTile t (fun q => q.onSeq (fun z => { z with phase := .saved }))).settleYield d.uid

/-- Tell a core to yield for a descriptor of job `job` (R63, R330): it stops at the next instruction boundary, a
stalled instruction is not executed, its windows close and its credits return. A member whose program has not started
saves the start state at once. -/
def State.yield (s : State) (t job : Nat) : State :=
  let q := s.tile t
  match q.seq.phase with
  | .running =>
    let first := q.dma.windows.map (fun e => (e.1, e.2.map (fun w => { w with ptr := w.first })))
    ((s.onTile t (fun q => { q with
        seq := { q.seq with phase := .yielding, stall := none, twait := none, stepping := false, haltReq := false, yieldJob := job, yieldAt := q.seq.cycles
                            halted := q.seq.halted || q.seq.haltReq }
        dma := { q.dma with reopen := first } })).syncYield t).letGo t 2
  | .starting =>
    ((s.dropFetch (loaderAgent t)).onTile t (fun q => q.onSeq (fun z => { z with yieldJob := job }))).saveContext t .starting
  | _ => s

/-- Whether a yielding core has no queued command left. -/
def Tile.yieldDone (q : Tile) : Bool := q.seq.phase == .yielding && q.drained 63

end Sys2Proof.Machine
end

