-- ==== Sys2Proof/Machine/QmTables.lean ====
section
/-!
DEFINITION. The queue manager's tables, stream states and write-backs, doorbells, the event doorbell, `QM_CTRL` and
notifications (spec/12_rings_doorbells_descriptors.md R309 to R319, R337, R340, R343).
-/

namespace Sys2Proof.Machine

open Sys2Proof

/-! ### Table accesses (R311, R363, R364) -/

/-- Package address that a base register names (R309). -/
def State.qmBase (s : State) (off : Nat) : Nat := (s.reg off).toNat * 2 ^ 20

/-- Record a queue-manager access to a table that was stopped: `TABLE_ERR` and the event (R364, R567). -/
def State.tableRefuse (s : State) (addr reason : Nat) : State :=
  { s with qm := { s.qm with tableErr := true } }.qmRefuse { typ := 0 } addr reason

/-- A queue-manager access to a table did not come through (R364, R384, R567). -/
def State.tableStop (s : State) (r : Stop) : State :=
  match r with
  | .denied a k => s.tableRefuse a k
  | .poison a => s.tableRefuse a 6
  | _ => { s with qm := { s.qm with tableErr := true } }

/-- The queue manager needs bytes of package memory as job `j` (R363): checked, and fetched where they are homed on another
die or lie in the host window. -/
def State.qmNeed (s : State) (agent j : Nat) (hostOk : Bool) (addr len : Nat) : State × Piece Unit :=
  s.need { initReader with job := j, hostOk := hostOk } agent false addr len

/-- Write the die's fields of a table entry, as job 0. -/
def State.wrTable (s : State) (addr : Nat) (bs : List Byte) : State :=
  let r := s.qmCheck 0 true false addr bs.length
  if r != 0 then s.tableRefuse addr r else s.wrPkg addr 0 bs

/-- Code of a stream state (R311). -/
def StreamSt.code : StreamSt → Nat
  | .idle => 0 | .active => 1 | .preempted => 2 | .halted => 3 | .reset => 4

/-- The die's fields of a stream table entry, bytes 0x20 to 0x57 (R311). -/
def Stream.bytes (x : Stream) : List Byte :=
  leBytes 4 x.st.code ++ leBytes 4 x.nextSeq ++ leBytes 4 (x.head + x.cplTail * 2 ^ 16) ++ leBytes 4 0
  ++ leBytes 8 x.satTotal ++ leBytes 8 x.flushInTotal ++ leBytes 8 x.flushOutTotal ++ leBytes 8 x.done ++ leBytes 8 x.lastTs

/-- Write the die fields of a stream's ring back (R314). -/
def State.writeRing (s : State) (x : Stream) : State :=
  match Tab.get none s.qm.rings x.ring with
  | some r => s.wrTable (s.qmBase 0x2008 + 16 * x.ring + 0x0A) (leBytes 2 r.tail ++ leBytes 4 r.lastTag)
  | none => s

/-- Write a stream's die fields back, with those of its ring (R314). -/
def State.writeBack (s : State) (k : Nat) : State :=
  match s.stream k with
  | none => s
  | some x => (s.wrTable (s.qmBase 0x200C + 128 * k + 0x20) x.bytes).writeRing x

/-- Write `J_STATE`, and `KILL_TS` once the job is `KILLED` (R311, R342). -/
def State.writeJob (s : State) (j : Nat) : State :=
  match Tab.get none s.qm.jobs j with
  | none => s
  | some x =>
    let a := s.qmBase 0x2010 + 32 * j
    let code := match x.st with
      | .live => 0
      | .killing => 1
      | .killed => 2
    let s := s.wrTable a (leBytes 1 (bit1 x.valid + bit1 x.retain * 2 + code * 4))
    if x.st == .killed then s.wrTable (a + 0x10) (leBytes 8 x.killTs) else s

/-- Change the copy of a ring that is held. -/
def State.onRing (s : State) (rid : Nat) (f : Ring → Ring) : State :=
  match Tab.get none s.qm.rings rid with
  | some r => { s with qm := { s.qm with rings := Tab.set none s.qm.rings rid (some (f r)) } }
  | none => s

/-- Whether a stream has work (R315). -/
def Stream.running (x : Stream) : Bool := x.st == .active || x.st == .preempted

/-! ### Streams (R315, R337, R342, R343) -/

/-- The descriptors of a stream that the queue manager holds, in ring order. -/
def State.descsOf (s : State) (k : Nat) : List Desc := s.qm.descs.filter (fun d => d.stream == k)
/-- Fetched and not started, in ring order. -/
def State.unstarted (s : State) (k : Nat) : List Desc := (s.descsOf k).filter (fun d => !d.started)

/-- Discard the unstarted descriptors of a stream and rewind it to the first of them (R337, R343). -/
def State.rewind (s : State) (k : Nat) : State :=
  match s.unstarted k with
  | [] => s
  | d :: ds =>
    ({ s with qm := { s.qm with descs := s.qm.descs.filter (fun x => !(x.stream == k && !x.started)) } } : State).onStream k
      (fun x => { x with head := d.idx, nextSeq := (x.nextSeq + 2 ^ 32 - (ds.length + 1)) % 2 ^ 32 })

/-- Tail of a stream's ring. -/
def State.tailOf (s : State) (x : Stream) : Nat :=
  match Tab.get none s.qm.rings x.ring with
  | some r => r.tail
  | none => x.head

/-- A copy that its check has rejected counts as started (R322, R337): at the head of the unstarted ones it is in
progress until its record is written. -/
def State.startRejected (s : State) (k : Nat) : State :=
  match s.unstarted k with
  | d :: _ => if d.outcome.isSome then s.onDesc d.uid (fun d => { d with
      st := .running, startTs := s.now, begun := true, acted := true }) else s
  | [] => s

/-- The state that a stream's work gives it (R315). -/
def State.workState (s : State) (k : Nat) (x : Stream) : StreamSt :=
  if (s.descsOf k).any (fun d => d.st == .preempted) then .preempted
  else if (s.descsOf k).isEmpty && x.head == s.tailOf x then .idle
  else .active

/-- Give a stream the state that its descriptors and its stops call for, and write its fields back when it enters
`IDLE`, `HALTED`, `PREEMPTED` or `RESET` (R314, R315, R337, R342, R343). -/
def State.settle (s : State) (k : Nat) : State :=
  match s.stream k with
  | none => s
  | some x =>
    if x.resetting then
      let s := s.rewind k
      if (s.descsOf k).isEmpty then
        (s.onStream k (fun x => { x with st := .reset, resetting := false, halting := false })).writeBack k
      else s
    else if x.halting then
      let s := s.startRejected k
      if (s.descsOf k).any Desc.started then s
      else ((s.rewind k).onStream k (fun x => { x with st := .halted, halting := false })).writeBack k
    else if x.st == .halted || x.st == .reset then s
    else
      let n := s.workState k x
      if n == x.st then s
      else
        let s := s.onStream k (fun x => { x with st := n })
        if n == .active then s else s.writeBack k

/-- The fields of a stream that is not `ACTIVE` are exact in its entry (R314). -/
def State.exact (s : State) (k : Nat) : State :=
  match s.stream k with
  | some x => if x.st == .active then s else s.writeBack k
  | none => s

/-- With `QM_EN` cleared and nothing in progress the die writes every stream's fields back (R310). -/
def State.quiesce (s : State) : State :=
  if s.qmOn then s else s.qm.streams.keys.foldl (fun s k => s.writeBack k) s

/-! ### Yields and the stream's state (R63, R315, R331) -/

/-- Tell a core to yield, and settle the stream whose program it runs (R315). -/
def State.yieldTile (s : State) (t job : Nat) : State := (s.yield t job).settle (s.tile t).seq.stream

/-- Whether the grace of 4,096 core cycles of a yielding core is over (R63). -/
def Tile.graceOver (q : Tile) : Bool := q.seq.phase == .yielding && decide (q.seq.yieldAt + 4096 ≤ q.seq.cycles)

/-- `YIELD_GRACE_EXPIRY` (R63): the grace ends with commands left. -/
def execYieldGraceExpiry (t : Nat) (s : State) : Host.Outcome State Fault Refusal :=
  onUnit (isTile t) t (
    let q := s.tile t
    if s.coresRun && q.graceOver && !q.yieldDone then (s.discardContext t).settle q.seq.stream else s)

/-- `CONTEXT_SAVE` (R331): a yielded core whose commands have all completed saves its context. -/
def execContextSave (t : Nat) (s : State) : Host.Outcome State Fault Refusal :=
  onUnit (isTile t) t (
    if s.coresRun && (s.tile t).yieldDone then (s.saveContext t .running).settle (s.tile t).seq.stream else s)

/-! ### Reading the entries (R312) -/

/-- The entries that a doorbell reads. -/
structure Entries where
  ring : Ring
  sid : Nat
  stream : Stream
  job : Job

/-- The driver's fields of a stream table entry, as an agent has read it (R311). A reserved `CPL_LOG2` makes the entry not
valid. -/
def State.tableDriver (s : State) (agent sid : Nat) : Stream :=
  let m := Mem.wrBytes [] 0 (s.rdPkg agent (s.qmBase 0x200C + 128 * sid) 128)
  let w := fun o => m.rdLE o 4
  let cl := bitsOf (m.rdLE 8 8) 52 5
  { Stream.init with
    valid := bitsOf (w 0) 0 1 == 1 && decide (6 ≤ cl) && decide (cl ≤ 16)
    prio := bitsOf (w 0) 1 3, job := bitsOf (w 0) 4 12, ring := bitsOf (w 0) 16 14, ctxSpad := bitsOf (w 0) 30 1 == 1
    ctxMembers := bitsOf (w 4) 0 7, timeout := bitsOf (w 4) 16 16, cplBase := bitsOf (m.rdLE 8 8) 0 52
    cplLog2 := cl, ctxBase := bitsOf (m.rdLE 16 8) 0 52, seqStart := w 0x18 }

/-- A stream of which the die holds no copy, as its entry gives it (R312, R336). -/
def State.tableFresh (s : State) (agent sid : Nat) : Stream :=
  let d := s.tableDriver agent sid
  let m := Mem.wrBytes [] 0 (s.rdPkg agent (s.qmBase 0x200C + 128 * sid) 128)
  { d with
    st := if bitsOf (m.rdLE 0x20 4) 0 3 == 3 then .halted else .idle
    nextSeq := d.seqStart, head := bitsOf (m.rdLE 0x28 4) 0 16, satTotal := m.rdLE 0x30 8, flushInTotal := m.rdLE 0x38 8
    flushOutTotal := m.rdLE 0x40 8, done := m.rdLE 0x48 8, lastTs := m.rdLE 0x50 8 }

/-- A job's entry (R311); a kill in progress here stands. -/
def State.tableJob (s : State) (agent j : Nat) : Job :=
  let a := s.qmBase 0x2010 + 32 * j
  let j0 := s.rdPkgLE agent a 4
  let st : JobSt := if bitsOf j0 2 2 == 0 then .live else if bitsOf j0 2 2 == 1 then .killing else .killed
  { valid := bitsOf j0 0 1 == 1, retain := bitsOf j0 1 1 == 1
    st := match Tab.get none s.qm.jobs j with
      | some h => if h.st == .killing then .killing else st
      | none => st
    scb := bitsOf (s.rdPkgLE agent (a + 8) 8) 0 52, killTs := 0, killStart := 0, killCores := 0, killUid := 0 }

/-- The copy of a ring, and whether its stream has work. -/
def State.heldRing (s : State) (rid : Nat) : Option (Ring × Bool) :=
  match Tab.get none s.qm.rings rid with
  | none => none
  | some r => match s.stream r.stream with
    | some x => some (r, x.running)
    | none => some (r, false)

/-- A ring's entry as an agent has read it (R311); `TAIL` and `LAST_TAG` stand while its stream has work. -/
def State.tableRing (s : State) (agent rid : Nat) : Ring :=
  let ra := s.qmBase 0x2008 + 16 * rid
  let w0 := s.rdPkgLE agent ra 8
  let w8 := s.rdPkgLE agent (ra + 8) 4
  let log2 := bitsOf w0 52 5
  let held : Option Ring := match s.heldRing rid with
    | some (r, true) => some r
    | _ => none
  { base := bitsOf w0 0 52, log2 := log2, valid := bitsOf w0 57 1 == 1 && decide (6 ≤ log2) && decide (log2 ≤ 16)
    stream := bitsOf w8 0 14, read := true
    tail := match held with
      | some h => h.tail
      | none => bitsOf w8 16 16
    lastTag := match held with
      | some h => h.lastTag
      | none => s.rdPkgLE agent (ra + 12) 4 }

/-- A stream's entry as an agent has read it: the driver's fields are taken, the die's stand, except after a reset of the
stream (R312, R336). -/
def State.tableStream (s : State) (agent sid : Nat) : Stream :=
  let drv := s.tableDriver agent sid
  match s.stream sid with
  | none => s.tableFresh agent sid
  | some h =>
    if h.st == .reset then
      { drv with nextSeq := drv.seqStart, head := h.head, satTotal := h.satTotal, flushInTotal := h.flushInTotal
                 flushOutTotal := h.flushOutTotal, done := h.done, lastTs := h.lastTs }
    else
      { drv with st := h.st, nextSeq := h.nextSeq, head := h.head, cplTail := h.cplTail, lap := h.lap
                 satTotal := h.satTotal, flushInTotal := h.flushInTotal, flushOutTotal := h.flushOutTotal
                 done := h.done, lastTs := h.lastTs, halting := h.halting, resetting := h.resetting }

/-- A ring's entry is needed, as job 0 (R312). -/
def State.ringNeed (s : State) (ag rid : Nat) : State × Piece Unit :=
  s.qmNeed ag 0 false (s.qmBase 0x2008 + 16 * rid) 16

/-- A stream's entry is needed, as job 0 (R312). -/
def State.streamNeed (s : State) (ag sid : Nat) : State × Piece Unit :=
  s.qmNeed ag 0 false (s.qmBase 0x200C + 128 * sid) 128

/-- A job's entry is needed, as job 0 (R312). -/
def State.jobNeed (s : State) (ag j : Nat) : State × Piece Unit :=
  s.qmNeed ag 0 false (s.qmBase 0x2010 + 32 * j) 32

/-- A stream's entry has come: the entry of its job is needed (R312). -/
def State.streamNext (ag sid : Nat) (s : State) : State × Piece Unit := s.jobNeed ag (s.tableStream ag sid).job

/-- A ring's entry has come: its stream's entry is needed, then the entry of that stream's job (R312). -/
def State.ringNext (ag rid : Nat) (s : State) : State × Piece Unit :=
  needThen (s.streamNeed ag (s.tableRing ag rid).stream) (State.streamNext ag (s.tableRing ag rid).stream)

/-- The queue manager needs the entries that a ring number leads to, one after the other (R312, R363). -/
def State.entriesNeed (s : State) (ag rid : Nat) : State × Piece Unit :=
  needThen (s.ringNeed ag rid) (State.ringNext ag rid)

/-- The bytes of the entries that have been read, for the traffic counts (R367). -/
def State.entriesRead (s : State) (rid sid job : Nat) : State :=
  ((s.readAt (s.qmBase 0x2008 + 16 * rid) 16).readAt (s.qmBase 0x200C + 128 * sid) 128).readAt
    (s.qmBase 0x2010 + 32 * job) 32

/-- Take what has been read from the tables for an agent, once it has come; an access that did not come through is
reported (R312, R364). -/
def tableRead {α : Type} (ag : Nat) (r : State × Piece Unit) (f : State → State × α) : State × Piece α :=
  match r with
  | (s, .wait) => (s, .wait)
  | (s, .stop x) => ((s.dropFetch ag).tableStop x, .stop x)
  | (s, .ok _) => ((f s).1.dropFetch ag, .ok (f s).2)

/-- The three entries as they have been read, and the count of their bytes (R312, R367). -/
def State.takeEntries (ag rid : Nat) (s : State) : State × Entries :=
  let ring := s.tableRing ag rid
  let st := s.tableStream ag ring.stream
  (s.entriesRead rid ring.stream st.job, { ring := ring, sid := ring.stream, stream := st, job := s.tableJob ag st.job })

/-- Read a ring's entry, its stream's entry and the stream's job entry, as job 0 (R312). A stop: an access did not come
through, which is reported. -/
def State.readEntries (s : State) (rid : Nat) : State × Piece Entries :=
  let ag := bellAgent rid
  tableRead ag (s.entriesNeed ag rid) (State.takeEntries ag rid)

/-- Take entries into use: they replace the copy, except where the stream is running (R313, log 18). -/
def State.keepEntries (s : State) (rid : Nat) (e : Entries) : State :=
  let busy : Bool := match s.stream e.sid with
    | some h => h.running || h.halting || h.resetting
    | none => false
  if busy then s.onRing rid (fun r => { r with read := true })
  else
    let keepJob : Bool := match Tab.get none s.qm.jobs e.stream.job with
      | some h => h.st == .killing
      | none => false
    { s with qm := { s.qm with
        rings := Tab.set none s.qm.rings rid (some e.ring)
        streams := Tab.set none s.qm.streams e.sid (some e.stream)
        jobs := if keepJob then s.qm.jobs else Tab.set none s.qm.jobs e.stream.job (some e.job) } }

/-- The copies that a ring number leads to. -/
def State.heldEntries (s : State) (rid : Nat) : Option Entries :=
  match Tab.get none s.qm.rings rid with
  | none => none
  | some r =>
    match s.stream r.stream with
    | none => none
    | some x =>
      match Tab.get none s.qm.jobs x.job with
      | none => none
      | some j => some { ring := r, sid := r.stream, stream := x, job := j }

/-! ### Doorbells (R316 to R319) -/

/-- A doorbell is dropped or ignored: the count, and outside cases 1 and 3 the event (R318). -/
def State.dropBell (s : State) (p v case : Nat) (e : Option Entries) : State :=
  let s := { s with qm := { s.qm with dbDrop := satAdd s.qm.dbDrop 1 } }
  if case == 1 || case == 3 then s
  else s.event { typ := 0x0005, job := (e.map (fun x => x.stream.job)).getD 0, stream := e.map (·.sid),
                 pay := [(0x18, 8, v), (0x20, 4, p), (0x24, 4, case)] }

/-- Whether entries form a valid ring (case 2 of R318). -/
def Entries.ok (e : Entries) (rid : Nat) : Bool :=
  e.ring.valid && e.stream.valid && e.stream.ring == rid && decide (e.ring.log2 ≤ e.stream.cplLog2)
  && e.job.valid && e.job.st == .live

/-- The cases 3 to 5 of R318 for a doorbell with these fields; 6 accepts. -/
def Entries.case (e : Entries) (resume : Bool) (tail tag : Nat) (running : Bool) : Nat :=
  let n := 2 ^ e.ring.log2
  let age := (tag + 2 ^ 32 - e.ring.lastTag) % 2 ^ 32
  if age == 0 || decide (2 ^ 31 ≤ age) then 3
  else if n ≤ tail || decide ((tail + n - e.stream.head % n) % n < (e.ring.tail % n + n - e.stream.head % n) % n) then 4
  else if resume && running then 5 else 6

/-- The cases 2 to 6 of R318 for a doorbell whose entries are `e`. -/
def State.bellCases (s : State) (p v : Nat) (again running : Bool) (e : Entries) : State :=
  let rid := bitsOf v 0 14
  let resume := bitsOf v 14 1 == 1
  let tail := bitsOf v 16 16
  let tag := bitsOf v 32 32
  let s := if again then s.keepEntries rid e else s
  if bitsOf v 15 1 == 1 || !e.ok rid then s.dropBell p v 2 (some e)
  else
    let c := e.case resume tail tag running
    if c != 6 then s.dropBell p v c (some e)
    else
      let s := s.onRing rid (fun r => { r with tail := tail, lastTag := tag })
      ((s.onStream e.sid (fun x => if resume && x.st == .halted then { x with st := .idle } else x)).settle e.sid).exact e.sid

/-- Whether an earlier doorbell to a ring still waits for the ring's entries. -/
def State.bellWaits (s : State) (rid : Nat) : Bool :=
  s.rdc.held.any (fun h => h.2.cls == 2 && h.2.ptype == 2 && h.2.addr != 0x800 && bitsOf (leNat (h.2.data.take 8)) 0 14 == rid)

/-- A doorbell at the ring window (R318). Answers also whether it waits for entries that lie on another die. -/
def State.ringBell (s : State) (p v : Nat) : State × Bool :=
  let rid := bitsOf v 0 14
  let again := bitsOf v 14 1 == 1 || (match Tab.get none s.qm.rings rid with
    | some r => !r.read
    | none => true)
  let running : Bool := match s.heldEntries rid with
    | some h => h.stream.running
    | none => false
  if s.bellWaits rid then (s, true)
  else if again then
    match s.readEntries rid with
    | (s, .wait) => (s, true)
    | (s, .stop _) => (s.dropBell p v 2 none, false)
    | (s, .ok e) => (s.bellCases p v true running e, false)
  else
    match s.heldEntries rid with
    | none => (s.dropBell p v 2 none, false)
    | some e => (s.bellCases p v false running e, false)

/-- An event doorbell (R319): the head of the event ring moves forward. One with a reserved bit of [63:16] set is dropped
(DESIGN CHOICE: R319 gives no treatment for them; log 49). -/
def State.eventBell (s : State) (p v : Nat) : State :=
  let n := s.evSize
  let h := bitsOf v 0 16
  if h < n ∧ v / 2 ^ 16 = 0 ∧ (h + n - s.qm.evHead) % n ≤ (s.qm.evTail + n - s.qm.evHead) % n then
    { s with qm := { s.qm with evHead := h } }
  else s.dropBell p v 0 none

/-- A write to the doorbell window (R316, R318, R319): the first eight bytes of the data are the doorbell. One that waits for
entries is held. -/
def State.windowWrite (s : State) (p : Nat) (k : Packet) : State :=
  let v := leNat (k.data.take 8)
  if !bitAt (s.reg 0x2000) 0 || s.role p != 3 then s.dropBell p v 1 none
  else if k.addr ≤ 0x7F8 ∧ k.addr % 8 = 0 then
    let r := s.ringBell p v
    if r.2 then r.1.hold p k else r.1
  else if k.addr = 0x800 then s.eventBell p v
  else s.dropBell p v 0 none

/-! ### `QM_CTRL` (R309, R310) -/

/-- `BOOT_READY`, the first event after `QM_EN` is set (R443, R448). -/
def State.bootReadyEvent (s : State) : State :=
  if s.mgmt.bootEvent then
    ({ s with mgmt := { s.mgmt with bootEvent := false } }).event
      { typ := 0x0600, pay := [(0x18, 4, s.resetCauseWord.toNat), (0x1C, 4, s.optStatusWord.toNat), (0x20, 8, s.mgmt.ts5), (0x28, 8, s.mgmt.ts8), (0x30, 8, s.mgmt.ts11)] }
  else s

/-- What Keywork initialisation had to report goes out behind it (R360; log 6). -/
def State.earlyEvents (s : State) : State :=
  s.kw.early.foldl (fun s e => s.event e) { s with kw := { s.kw with early := [] } }

/-- Write `QM_CTRL` (R309, R310, R312). -/
def State.qmCtrl (s : State) (v : Word) : State :=
  let on := bitAt (s.reg 0x2000) 0
  let s := s.setReg 0x2000 (v &&& 0x0001FF01)
  let s : State := if !on && bitAt v 0 then s.bootReadyEvent.earlyEvents else s
  let s := if !on && bitAt v 0 then
      { s with qm := { s.qm with rings := s.qm.rings.map (fun (x : Nat × Option Ring) =>
        (x.1, x.2.map (fun r => { r with read := false }))) } }
    else s
  if on && !bitAt v 0 then s.quiesce else s

/-- `QM_CTRL_WRITE` (R310). -/
def execQmCtrlWrite (v : Word) (s : State) : Host.Outcome State Fault Refusal := .next (s.qmCtrl v)

/-- `STREAM_WRITEBACK`: the write-back that is due at least once every 100 µs (R314). -/
def execStreamWriteback (stream : Nat) (s : State) : Host.Outcome State Fault Refusal := .next (s.writeBack stream)

/-! ### Notifications (R340) -/

/-- A notification write at the end of the gap (R340). A refused one sets `TABLE_ERR` and starts no gap (DESIGN CHOICE,
log 18). -/
def State.notify (s : State) : State :=
  let due := s.qm.notifyDue && bitAt (s.reg 0x2000) 16 && (match s.qm.lastNotify with
    | some t => decide (t + 1000 * s.rfld 0x2000 8 8 ≤ s.now)
    | none => true)
  if !due then s
  else
    let a := s.rfld 0x2020 2 30 * 4 + s.rfld 0x2024 0 20 * 2 ^ 32
    let r := s.qmCheck 0 true true a 4
    let s := { s with qm := { s.qm with notifyDue := false } }
    if r != 0 then s.tableRefuse a r
    else { (s.wrPkg a 0 (leBytes 4 (s.reg 0x2028).toNat)) with qm := { s.qm with lastNotify := some s.now } }

/-- `NOTIFY_WRITE` (R340). -/
def execNotifyWrite (s : State) : Host.Outcome State Fault Refusal := .next s.notify

end Sys2Proof.Machine
end

