-- ==== Sys2Proof/Machine/QmDesc.lean ====
section
/-!
DEFINITION. Descriptors: fetch and checks, dispatch with pre-emption, and the action of each opcode except `SCRUB`
(spec/12_rings_doorbells_descriptors.md R320 to R330; spec/08 R218; spec/11 R305; spec/13 R353, R354, R361, R372).

A command that acts on a descriptor names it by `d`, the number of the queue manager's copy. A command whose time has
not come changes nothing (log 9).
-/

namespace Sys2Proof.Machine

open Sys2Proof

/-! ### Checks at fetch (R320 to R323) -/

/-- Words of a descriptor from a byte offset to its end are 0. -/
def Desc.zeroFrom (d : Desc) (off : Nat) : Bool := (d.words.drop (off / 4)).all (· == 0)

/-- Reserved bits and flags of the header (R320, R321). -/
def Desc.headerOk (d : Desc) : Bool :=
  let op := d.opcode
  !bitAt (d.w 0) 15 && fld (d.w 0) 30 2 == 0 && fld (d.w 8) 12 20 == 0 && d.w 12 == 0
  && (op == 1 || (!d.recomputeOk && d.overflow == 0 && !d.commit)) && decide (d.overflow ≤ 1)
  && (!d.replayable || op == 1 || op == 2 || op == 6 || op == 7) && (!d.commit || d.replayable)

/-- Body of `COMPUTE`; `grp` is the mask of the group it names (R323, R354). -/
def Desc.computeOk (d : Desc) (members grp : Nat) : Bool :=
  let t := d.w 0x10
  fld t 12 3 == 0 && fld t 16 16 == 0
  && (if bitAt t 15 then decide (popCount grp 64 ≤ members) && popCount grp 64 != 0 else decide (fld t 0 12 ≤ 63))
  && !bitAt (d.w 0x14) 15 && fld (d.w 0x14) 30 2 == 0 && decide (1 ≤ fld (d.w 0x14) 0 15)
  && decide (fld (d.w 0x14) 0 15 ≤ 16384) && decide (fld (d.w 0x14) 16 14 < fld (d.w 0x14) 0 15)
  && fld (d.w 0x1C) 13 19 == 0 && decide (fld (d.w 0x1C) 0 13 ≤ 4096) && fld (d.w 0x1C) 0 6 == 0
  && d.w64 0x20 / 2 ^ 52 == 0 && d.w64 0x20 % 64 == 0

/-- Rows and bytes of a row of a `COPY` (R323). -/
def Desc.copyRows (d : Desc) : Nat := fld (d.w 0x14) 0 16 + 1
def Desc.copyB (d : Desc) : Nat := (fld (d.w 0x14) 16 11 + 1) * 32

/-- Body of `COPY` (R323, R324, with the endpoint rules of R269 and R270). -/
def Desc.copyOk (d : Desc) : Bool :=
  let w := d.w 0x10
  let src := d.w64 0x18
  let dst := d.w64 0x20
  decide (fld w 0 2 ≤ 1) && decide (fld w 2 2 ≤ 1) && fld w 5 27 == 0 && (!bitAt w 4 || fld w 0 2 == 1)
  && fld (d.w 0x14) 27 5 == 0
  && (if fld w 0 2 == 0 then src / 2 ^ 52 == 0 && m32 src
      else bitsOf src 30 2 == 0 && decide (src / 2 ^ 32 ≤ 7) && m32 (bitsOf src 0 24)
        && decide (bitsOf src 0 24 + extent d.copyRows d.copyB (strideOf (d.w 0x28) d.copyB) ≤ 2 ^ 24))
  && (if fld w 2 2 == 0 then dst / 2 ^ 52 == 0 && m32 dst
      else bitsOf dst 4 20 == 0 && bitsOf dst 30 2 == 0 && decide (dst / 2 ^ 32 ≤ 7))
  && m32 (d.w 0x28).toNat && m32 (d.w 0x2C).toNat && d.zeroFrom 0x30

/-- Body of `SYNC` (R305, R323). -/
def Desc.syncOk (d : Desc) : Bool :=
  fld (d.w 0x10) 0 2 != 3 && fld (d.w 0x10) 2 2 != 3 && fld (d.w 0x10) 7 25 == 0 && objOk (d.w 0x14)
  && fld (d.w 0x1C) 6 26 == 0 && d.zeroFrom 0x20

/-- Body of `PLACE` (R323, R372). -/
def Desc.placeOk (d : Desc) : Bool :=
  let h := fld (d.w 0x14) 0 4
  (decide (h ≤ 4) || h == 8 || h == 9) && fld (d.w 0x14) 10 22 == 0 && fld (d.w 0x1C) 8 24 == 0 && d.zeroFrom 0x20

/-- Body of `REED_SPILL` and `REED_FILL` (R323). -/
def Desc.reedOk (d : Desc) : Bool :=
  fld (d.w 0x10) 6 26 == 0 && fld (d.w 0x14) 24 8 == 0
  && decide (fld (d.w 0x14) 0 12 + fld (d.w 0x14) 12 12 + 1 ≤ 4096)
  && d.w64 0x18 / 2 ^ 52 == 0 && d.w64 0x18 % 256 == 0 && d.zeroFrom 0x20

/-- Body of `SCRUB` (R323). -/
def Desc.scrubOk (d : Desc) : Bool :=
  decide (fld (d.w 0x10) 0 2 ≤ 1) && fld (d.w 0x10) 2 30 == 0 && fld (d.w 0x14) 12 20 == 0 && fld (d.w 0x18) 14 18 == 0
  && d.zeroFrom 0x1C

/-- Whether a descriptor passes check 2 of R322. -/
def Desc.formOk (d : Desc) (members grp : Nat) : Bool :=
  d.headerOk && (match d.opcode with
    | 1 => d.computeOk members grp
    | 2 => d.copyOk
    | 3 => d.syncOk
    | 4 => fld (d.w 0x10) 1 31 == 0 && d.zeroFrom 0x14
    | 5 => d.placeOk
    | 6 => d.reedOk
    | 7 => d.reedOk
    | 8 => d.scrubOk
    | 9 => d.zeroFrom 0x10
    | _ => false)

/-- The group table entry that a descriptor names, if it names one (R323, R354). -/
def Desc.groupOf (d : Desc) : Option Nat :=
  if d.opcode == 1 && bitAt (d.w 0x10) 15 then some (fld (d.w 0x10) 0 12) else none

/-- The Keywork reads the group table entry that a descriptor names; `grp` is what the driver has written there (R354;
log 14). -/
def State.readGroup (s : State) (d : Desc) (grp : BitVec 64) : State :=
  match d.groupOf with
  | some g => s.onKw (fun k => { k with groups := Tab.set 0 k.groups g grp })
  | none => s

/-- The mask of a core group (R350). -/
def State.group (s : State) (d : Desc) : Nat :=
  match d.groupOf with
  | some g => (Tab.get 0 s.kw.groups g).toNat
  | none => 0

/-- Logical cores that a descriptor names, in member order (R354). -/
def Desc.coresOf (d : Desc) (grp : Nat) : List Nat :=
  match d.opcode with
  | 1 => if bitAt (d.w 0x10) 15 then bitList grp 64 else [fld (d.w 0x10) 0 12]
  | 6 => [fld (d.w 0x10) 0 6]
  | 7 => [fld (d.w 0x10) 0 6]
  | _ => []

/-- Job of a stream, as the queue manager holds it, `LIVE` or not. -/
def State.jobLive (s : State) (j : Nat) : Bool :=
  match Tab.get none s.qm.jobs j with
  | some x => x.valid && x.st == .live
  | none => false

/-- `DEBUG_RETAIN` of a job. -/
def State.jobRetain (s : State) (j : Nat) : Bool :=
  match Tab.get none s.qm.jobs j with
  | some x => x.retain
  | none => false

/-- The reason for which a descriptor is rejected at fetch, 0 for none (R322). -/
def State.rejectReason (s : State) (x : Stream) (d : Desc) (grp : Nat) : Nat :=
  if d.job != x.job || fld (d.w 0) 16 14 != d.stream || d.seq != x.nextSeq then 1
  else if !s.jobLive x.job || (s.jobRetain x.job && s.sec.life != .development) then 2
  else if !d.formOk x.ctxMembers grp then 3 else 0

/-- Whether the entries of a stream's ring have been read since `QM_EN` was set (R310, R312). -/
def State.ringRead (s : State) (x : Stream) : Bool :=
  match Tab.get none s.qm.rings x.ring with
  | some r => r.read
  | none => false

/-- Whether a stream fetches: the queue manager is enabled, the entries have been read, nothing stops the stream, and
at most 8 descriptors are fetched ahead of the oldest unstarted one (R310, R312, R327, R337). -/
def State.mayFetch (s : State) (x : Stream) (k : Nat) : Bool :=
  bitAt (s.reg 0x2000) 0 && x.valid && !x.halting && !x.resetting && x.st != .halted && x.st != .reset
  && x.head != s.tailOf x && decide ((s.unstarted k).length ≤ 8) && s.ringRead x

/-- A fresh copy of a descriptor. -/
def Desc.fetched (uid k idx : Nat) (ws : List Word) : Desc :=
  { uid := uid, stream := k, idx := idx, words := ws, st := .fetched, cores := [], startTs := 0, timed := false, spent := 0
    outcome := none, replays := 0, escaped := false, wrote := [], committing := false, deferring := 0, sat := 0
    flushIn := 0, flushOut := 0, xfer := none, place := 0, grant := none, lastFault := (0, 127), ended := []
    discarded := false, acted := false, begun := false, defer := [], frees := [], writes := [] }

/-- A ring or a completion ring did not answer the queue manager: reported, and the stream halts (R337, R364, R384,
R567). -/
def State.ringStop (s : State) (k : Nat) (e : Ev) (r : Stop) : State :=
  let s : State := match r with
    | .denied a c => s.qmRefuse e a c
    | .poison a => s.qmRefuse e a 6
    | _ => s
  s.onStream k (fun x => { x with halting := true })

/-- Take up a descriptor of a stream `x` whose words have been read, and check it (R322, R327). -/
def State.takeDesc (s : State) (k : Nat) (x : Stream) (log2 : Nat) (ws : List Word) (grp : BitVec 64) : State :=
  let d := Desc.fetched s.qm.nextUid k x.head ws
  let s := s.readGroup d grp
  let n := s.rejectReason x d (s.group d)
  let d := { d with
    cores := if n = 0 then d.coresOf (s.group d) else []
    outcome := if n = 0 then none else some (if n = 3 then (stKilled, 0, 127) else (stSecurity, 0, 127)) }
  let s : State := { s with qm := { s.qm with descs := s.qm.descs ++ [d], nextUid := s.qm.nextUid + 1 } }
  let s := (s.onStream k (fun y => { y with head := (x.head + 1) % 2 ^ log2, nextSeq := (x.nextSeq + 1) % 2 ^ 32 })).exact k
  if n = 0 then s
  else s.event { d.ev with typ := 0x0004, pay := [(0x18, 4, x.ring), (0x1C, 4, x.head), (0x20, 4, n)] }

/-- Fetch and check one descriptor of a stream (R322, R327, R357, R364, R567): from this die's memory, from another die's, or
through the host window. `grp` is the entry of the core group that the descriptor names, as the driver has written it
(log 14). -/
def State.descFetch (s : State) (k : Nat) (grp : BitVec 64) : State :=
  match s.stream k with
  | none => s
  | some x =>
    match Tab.get none s.qm.rings x.ring with
    | none => s
    | some r =>
      if !s.mayFetch x k then s
      else
        let a := r.base + 64 * x.head
        let ag := ringAgent k
        match s.qmNeed ag x.job true a 64 with
        | (s, .wait) => s
        | (s, .stop c) =>
          ((s.dropFetch ag).ringStop k { typ := 0, job := x.job, stream := some k, seq := x.nextSeq } c).settle k
        | (s, .ok _) =>
          let m := Mem.wrBytes [] 0 (s.rdPkg ag a 64)
          ((s.readAt a 64).dropFetch ag).takeDesc k x r.log2
            ((List.range 16).map (fun i => BitVec.ofNat 32 (m.rdLE (4 * i) 4))) grp

/-- `DESC_FETCH` (R322). -/
def execDescFetch (stream : Nat) (grp : BitVec 64) (s : State) : Host.Outcome State Fault Refusal :=
  .next (s.descFetch stream grp)

/-! ### Readiness (R324, R326, R328 to R330, R353) -/

/-- Priority level of a stream. -/
def State.level' (s : State) (k : Nat) : Nat := match s.stream k with
  | some x => x.prio
  | none => 0

/-- Whether a descriptor's decided outcome stops its stream (R337). -/
def Desc.failed (d : Desc) : Bool := match d.outcome with
  | some (st, _, _) => st != stOK && st != stReplayedOk
  | none => false

/-- Places of the copy engine in use (R324). -/
def State.places (s : State) : List Nat :=
  (s.qm.descs.filter (fun d => d.started && d.opcode == 2)).map (·.place)
/-- The lowest free place. -/
def State.freePlace (s : State) : Option Nat := (List.range 16).find? (fun i => !s.places.contains i)

/-- The descriptor that a stream may start next under R326, if there is one. -/
def State.nextDesc (s : State) (k : Nat) : Option Desc :=
  match s.stream k with
  | none => none
  | some x =>
    let earlier := (s.descsOf k).filter Desc.started
    match s.unstarted k with
    | [] => none
    | d :: _ =>
      if bitAt (s.reg 0x2000) 0 && s.ringRead x && !x.halting && !x.resetting && x.st != .halted && x.st != .reset
          && (s.jobLive x.job || d.outcome.isSome) && !s.pkg.holdover && s.pkg.accepted
          && earlier.all (fun e => e.begun && e.st != .preempted && !e.failed) && decide (earlier.length < 64)
          && !(d.fence && !earlier.isEmpty) && !(d.opcode == 2 && d.outcome.isNone && s.freePlace.isNone)
      then some d else none

/-- Whether a tile runs nothing and has nothing queued. -/
def Tile.isFree (q : Tile) : Bool := !q.live && q.drained 63

/-- The descriptor that occupies a logical core: its program runs there, it is about to be handed over there, or its
Reed transfer is under way. -/
def State.occupant (s : State) (c uid : Nat) : Option Desc :=
  s.qm.descs.find? (fun o => o.uid != uid && o.st == .running && o.cores.contains c
    && (if o.opcode == 1 then
          !o.acted || (let z := (s.tile (s.core c).tile)
                       z.live && z.seq.stream == o.stream && z.seq.seqNo == o.seq)
        else o.outcome.isNone))

/-- Availability of a member core at a level (R328 to R330, R333): none, free, or held by lower-level work whose tile
may be told to yield. -/
inductive Avail
  | no
  | free
  | yield (t : Nat)
  deriving DecidableEq, Repr

/-- Availability of logical core `c` for a descriptor of job `job` at level `l` (R328, R330, R333). -/
def State.avail (s : State) (uid job l c : Nat) : Avail :=
  let e := s.core c
  let ahead := s.qm.descs.any (fun p => p.uid != uid && p.st == .preempted && p.cores.contains c && decide (l ≤ s.level' p.stream))
  if e.st != .mapped || ahead then .no
  else match s.occupant c uid with
    | none => if (s.tile e.tile).isFree then .free else .no
    | some o =>
      let spad : Bool := match s.stream o.stream with
        | some x => x.ctxSpad
        | none => false
      if o.opcode == 1 && o.acted && decide (s.level' o.stream < l) && (o.job == job || spad) then .yield e.tile else .no

/-- What can be done now for a descriptor that its stream may start (R328, R330, R353). -/
inductive Ready
  /-- it waits -/
  | wait
  /-- it starts -/
  | start
  /-- it names an absent logical core: that core -/
  | absent (c : Nat)
  /-- tiles that must yield first -/
  | yield (ts : List Nat)
  deriving DecidableEq, Repr

/-- Readiness of a descriptor at its level. -/
def State.ready (s : State) (d : Desc) (l : Nat) : Ready :=
  if d.outcome.isSome then .start
  else
    match d.cores.find? (fun c => (s.core c).st == .absent) with
    | some c => .absent c
    | none =>
      let av := d.cores.map (fun c => s.avail d.uid d.job l c)
      if av.any (· == .no) then .wait
      else
        let ts := av.filterMap (fun a => match a with
          | .yield t => some t
          | _ => none)
        if ts.isEmpty then .start else .yield ts

/-- Streams of a level in the order in which they are served: behind the one served last (R328). -/
def State.served (s : State) (l : Nat) : List Nat :=
  let ks := (s.qm.streams.filter (fun e => match e.2 with
    | some x => x.prio == l
    | none => false)).map (·.1)
  let last := Tab.get 0 s.qm.rr l
  ks.filter (fun k => decide (last < k)) ++ ks.filter (fun k => decide (k ≤ last))

/-- Start a descriptor (R321, R326): it is in progress; a fence, a scrub, a `NOP`, a `COPY` and a rejected descriptor
count as started at once. -/
def State.startDesc (s : State) (d : Desc) : State :=
  let op := d.opcode
  let s := s.onDesc d.uid (fun d => { d with
    st := .running, startTs := s.now, timed := op != 1, place := s.freePlace.getD 0
    begun := d.outcome.isSome || op == 2 || op == 4 || op == 8 || op == 9, acted := d.outcome.isSome })
  { s with qm := { s.qm with rr := Tab.set 0 s.qm.rr (s.level' d.stream) d.stream } }.settle d.stream

/-- One fabric cycle of dispatch over the streams in the order of R328: the first descriptor that is ready starts, or, where
it needs cores that run lower-level work, has them told to yield and is still the one picked (R330). -/
def State.dispatchOver (s : State) : List Nat → State
  | [] => s
  | k :: ks =>
    match s.nextDesc k with
    | none => State.dispatchOver s ks
    | some d =>
      match s.ready d (s.level' k) with
      | .wait => State.dispatchOver s ks
      | .start => s.startDesc d
      | .absent c =>
        (((s.startDesc d).onDesc d.uid (fun d => { d with
          outcome := some (stKilled, causeAbsent, 127), begun := true, acted := true })).absentEvent c (s.core c).tile)
      | .yield ts => ts.foldl (fun s t => s.yieldTile t d.job) s

/-- The queue manager starts at most one ready descriptor (R328). -/
def State.dispatch (s : State) : State :=
  s.dispatchOver ((List.range 8).reverse.flatMap (fun l => s.served l))

/-- Whether a ready descriptor of job `job` and a higher level needs the core of a tile that runs lower-level work
(R330). -/
def State.mustYield (s : State) (t job : Nat) : Bool :=
  s.qm.streams.keys.any (fun k => match s.nextDesc k with
    | some d => d.job == job && (match s.ready d (s.level' k) with
      | .yield ts => ts.contains t
      | _ => false)
    | none => false)

/-- `YIELD` (R63, R330): the yield reaches a core. -/
def execYield (t job : Nat) (s : State) : Host.Outcome State Fault Refusal :=
  onUnit (isTile t) t (if s.coresRun && s.mustYield t job then s.yieldTile t job else s)

/-- `DESC_DISPATCH` (R328). -/
def execDescDispatch (s : State) : Host.Outcome State Fault Refusal := .next (if s.clocked then s.dispatch else s)

/-! ### Outcomes -/

/-- Decide the outcome of a descriptor, unless it is decided; its time stops (R345). -/
def State.conclude (s : State) (uid st cause tile : Nat) : State :=
  (s.stopClock uid).onDesc uid (fun d => if d.outcome.isSome then d else { d with outcome := some (st, cause, tile) })

/-- A descriptor other than `COMPUTE` stops, with the reports of the reason (R266, R364, R466, R569). -/
def State.stopDesc (s : State) (d : Desc) (r : Stop) : State :=
  match r with
  | .fault c => s.hitDesc d.uid c 127
  | .denied a k => (s.denied d.ev 63 a k).hitDesc d.uid causeDeny 127
  | .poison a => (s.poisonEvent d.ev a).hitDesc d.uid causePoison 127
  | .refused die core => (s.refusedEvent d.job s.pos 63 (die + core * 2 ^ 8) 2).hitDesc d.uid causeSecurity 127
  | .absent c o => (s.absentEvent c o).hitDesc d.uid causeAbsent 127
  | .drawn c t => s.hitDesc d.uid c t
  | .sealed o =>
    let s := s.onTile o (fun q => q.dmaCount 6 1)
    if s.tileSt o == .fenced then s.hitDesc d.uid causeCoreFault o else s.hitDesc d.uid causeNoCredit 127

/-- Whether a descriptor in progress with this opcode still has its action before it or under way. -/
def Desc.due (d : Desc) (op : Nat) : Bool := d.st == .running && d.opcode == op && d.outcome.isNone

/-! ### `COMPUTE` (R35, R564) -/

/-- Hand a `COMPUTE` to all its members (R353, R564): it waits while a core is `MOVING` or not free. -/
def State.compute (s : State) (uid : Nat) : State :=
  match s.desc uid with
  | none => s
  | some d =>
    if !d.due 1 || d.acted then s
    else
      match d.cores.find? (fun c => (s.core c).st == .absent) with
      | some c => (s.conclude uid stKilled causeAbsent 127).absentEvent c (s.core c).tile
      | none =>
        if !d.cores.all (fun c => (s.core c).st == .mapped && (s.tile (s.core c).tile).isFree) then s
        else
          let give := fun (s : State) (p : Nat × Nat) =>
            let t := (s.core p.2).tile
            (s.letGo t 2).onTile t (fun q => q.handOver d p.2 p.1 d.cores.length)
          ((List.range d.cores.length).zip d.cores).foldl give (s.onDesc uid (fun d => { d with acted := true }))

/-- `COMPUTE` (R35). -/
def execCompute (d : Nat) (s : State) : Host.Outcome State Fault Refusal := .next (if s.clocked then s.compute d else s)

/-! ### `COPY` (R324) -/

/-- The transfer of a `COPY` (R270, R271, R324). -/
def Desc.copyXfer (d : Desc) : Xfer :=
  let w := d.w 0x10
  let b := d.copyB
  { units := d.copyRows
    srcs := fun i => [(endpoint (if fld w 0 2 == 0 then 1 else 2) (d.w64 0x18) (i * strideOf (d.w 0x28) b), b)]
    dsts := fun i => [(if fld w 2 2 == 0 then Loc.pkg (d.w64 0x20 + i * strideOf (d.w 0x2C) b)
      else Loc.credit d.place (i * strideOf (d.w 0x2C) b), b)]
    conv := id, parts := 1, rel := bitAt w 4 }

/-- The agent of a descriptor's transfer. -/
def Desc.agent (d : Desc) : Agent :=
  { tile := none, job := d.job, core := 63, uid := d.uid, place := d.place, log := none, ev := d.ev, hostOk := d.job == 0 }

/-- A transfer of the copy engine before it starts. -/
def Desc.newXfer (d : Desc) : QEntry :=
  { QEntry.init with code := 1, words := [0, 0, d.w 0x18, d.w 0x1C], inFlight := true, uid := d.uid }

/-- Put the transfer of a descriptor back. -/
def State.putXfer (s : State) (uid : Nat) (e : QEntry) : State := s.onDesc uid (fun d => { d with xfer := some e })

/-- Slots for which a `COPY` asks (R324). -/
def Desc.copySlots (d : Desc) : Nat := ceilDiv (extent d.copyRows d.copyB (strideOf (d.w 0x2C) d.copyB)) 4096

/-- The copy engine begins a `COPY`: it asks for credits where the destination is a scratchpad (R259, R324, R569). -/
def State.copyBegin (s : State) (d : Desc) : State :=
  if fld (d.w 0x10) 2 2 == 0 then s.putXfer d.uid { d.newXfer with ans := 1 }
  else
    let dst := d.w64 0x20
    let die := bitsOf dst 32 8
    let core := bitsOf dst 24 6
    let window := bitsOf dst 0 4
    if die == s.pos then
      match s.reach d.job core with
      | .wait => s
      | .stop r => s.stopDesc d r
      | .ok t =>
        (s.putXfer d.uid { d.newXfer with tgt := t }).onTile t (fun q => q.onDma (fun x => { x with
          reqs := x.reqs ++ [{ who := ⟨s.pos, 120, d.place⟩, job := d.job, window := window, count := d.copySlots
                               lcore := 63, since := s.now, uid := d.uid, port := none }] }))
    else
      let k := { s.packet 0 2 die 120 with
        addr := core * 2 ^ 24 + window * 2 ^ 30 + d.place * 2 ^ 34 + d.copySlots * 2 ^ 38, job := d.job }
      let (s', ok) := s.request die k { OpenTx.posted with tile := 127, eng := 4, uid := d.uid }
      s'.putXfer d.uid { d.newXfer with ans := if ok then 0 else 8 }

/-- Give back what is left of a `COPY`'s grant, and withdraw its request (R254, R262). -/
def State.copyLetGo (s : State) (d : Desc) : State :=
  let w : Writer := ⟨s.pos, 120, d.place⟩
  { s with tiles := s.tiles.map (fun e => (e.1, (e.2.takeCredits (fun g => g.who == w)).onDma (fun x => { x with
      reqs := x.reqs.filter (fun r => r.who != w) }))) }

/-- A `COPY` has ended: releases of its source slots (R248), then it is complete. -/
def State.copyEnd (s : State) (d : Desc) : State :=
  let s := if d.copyXfer.rel then
      (relSlots d.copyXfer).foldl (fun s r => match r with
        | (some (die, c), k) =>
          if die == s.pos && (s.core c).st == .mapped then
            s.onTile (s.core c).tile (fun q => { q with spad := q.spad.release k })
          else s
        | _ => s) s
    else s
  (s.copyLetGo d).conclude d.uid stOK 0 127

/-- Move a `COPY` on (R324): credits, requests, rows, completion. -/
def State.copyStep (s : State) (uid : Nat) : State :=
  match s.desc uid with
  | none => s
  | some d =>
    if !d.due 2 then s
    else match d.xfer with
      | none => s.copyBegin d
      | some e =>
        match ansStop s e with
        | some r => (s.copyLetGo d).stopDesc d r
        | none =>
          if e.ans != 1 then s
          else
            let x := d.copyXfer
            let g := d.agent
            if !e.asked && s.askHeld x then s
            else
              let (s, e) := if e.asked then (s, e) else s.askAll g x { e with bellRows := 1 }
              let (s, e, r) := s.runUnits g x x.units e
              let e := { e with stored := decide (x.units ≤ e.strRows) }
              let s := s.putXfer uid e
              let s := if e.stored then s.stopClock uid else s
              match r with
              | some r => (s.copyLetGo d).stopDesc d r
              | none =>
                if (s.desc uid).any (fun d => d.outcome.isNone) && e.stored && e.owed == 0 && e.loadRows == 0 then s.copyEnd d
                else s

/-- `COPY` (R324). -/
def execCopy (d : Nat) (s : State) : Host.Outcome State Fault Refusal := .next (if s.clocked then (s.copyStep d).tick else s)

/-! ### `SYNC` (R305) -/

/-- The request of a `SYNC` descriptor. -/
def Desc.syncReq (d : Desc) (pos : Nat) : SyncReq :=
  let w := d.w 0x10
  let bit := fun b i => BitVec.ofNat 32 (bit1 b * 2 ^ i)
  let (code, ws) : Nat × List Word := match fld w 0 2 with
    | 0 => (2, [d.w 0x14, d.w 0x18, BitVec.ofNat 32 (fld w 2 2)])
    | 1 => (3, [d.w 0x14, d.w 0x18, bit (bitAt w 4) 1 + bit (bitAt w 5) 2, 0])
    | _ => (4, [d.w 0x14, bit (bitAt w 6) 0, 0])
  { code := code, words := ws, job := d.job, stream := d.stream, die := pos, core := fld (d.w 0x1C) 0 6, src := .desc d.uid }

/-- Whether a `SYNC` holds its stream until it completes (R321). -/
def Desc.syncHolds (d : Desc) : Bool :=
  fld (d.w 0x10) 0 2 == 1 || (fld (d.w 0x10) 0 2 == 2 && bitAt (d.w 0x10) 6)

/-- Send the operation of a `SYNC` descriptor of kind `sop` (R305, R321). -/
def State.syncDesc (s : State) (uid sop : Nat) : State :=
  match s.desc uid with
  | none => s
  | some d =>
    if !d.due 3 || d.acted || fld (d.w 0x10) 0 2 != sop then s
    else
      let s := s.onDesc uid (fun d => { d with acted := true, begun := !d.syncHolds })
      let (s', ok) := s.syncSend (d.syncReq s.pos)
      if !ok then s'.hitDesc uid causePortFault 127
      else if d.syncHolds then s' else s'.stopClock uid

/-- `SYNC_DESC_SIGNAL` (R305). -/
def execSyncDescSignal (d : Nat) (s : State) : Host.Outcome State Fault Refusal := .next (s.syncDesc d 0)
/-- `SYNC_DESC_WAIT` (R305). -/
def execSyncDescWait (d : Nat) (s : State) : Host.Outcome State Fault Refusal := .next (s.syncDesc d 1)
/-- `SYNC_DESC_ARRIVE` (R305). -/
def execSyncDescArrive (d : Nat) (s : State) : Host.Outcome State Fault Refusal := .next (s.syncDesc d 2)

/-- The result of a `SYNC` descriptor's operation (R292, R305). -/
def State.syncDescEnd (s : State) (uid o : Nat) : State :=
  let s := s.onDesc uid (fun d => { d with begun := true })
  if o == 0 then s.conclude uid stOK 0 127 else s.hitDesc uid (outcomeCause o) 127

/-- The result of a deferred operation (R295): an outcome other than success writes `DEFER_FAIL`. -/
def State.deferEnd (s : State) (uid i o : Nat) : State :=
  match s.desc uid with
  | none => s
  | some d =>
    let s := s.onDesc uid (fun d => { d with deferring := d.deferring - 1 })
    match (d.defer.flatMap (·.2))[i]? with
    | some r =>
      if o == 0 then s
      else s.event { d.ev with typ := 0x000A, pay := [(0x18, 4, (wordAt r.words 0).toNat), (0x1C, 4, (if r.code == 4 then 1 else 0) + o * 2 ^ 8)] }
    | none => s

/-! ### `FENCE`, `NOP` (R321, R325) -/

/-- `FENCE_DESC` (R325): it completes when the descriptors that it waits on have completed. -/
def execFenceDesc (d : Nat) (s : State) : Host.Outcome State Fault Refusal :=
  .next (match s.desc d with
    | none => s
    | some x =>
      let wide := bitAt (x.w 0x10) 0
      if x.due 4 && !s.qm.descs.any (fun y => decide (y.uid < d) && (y.stream == x.stream || (wide && y.job == x.job))) then
        s.conclude d stOK 0 127
      else s)

/-- `NOP_DESC` (R321). -/
def execNopDesc (d : Nat) (s : State) : Host.Outcome State Fault Refusal :=
  .next (match s.desc d with
    | some x => if x.due 9 then s.conclude d stOK 0 127 else s
    | none => s)

/-! ### `PLACE` (R360 to R362, R372) -/

/-- A `PLACE` is due with this hint. -/
def State.placeDue (s : State) (uid hint : Nat) : Option Desc :=
  match s.desc uid with
  | some d => if d.due 5 && fld (d.w 0x14) 0 4 == hint then some d else none
  | none => none

/-- Count a `PLACE` as started: the Keywork has accepted it (R321). -/
def State.placeBegun (s : State) (uid : Nat) : State := s.onDesc uid (fun d => { d with begun := true, acted := true })

/-- Record a hint 0x0 to 0x4 (R372). -/
def State.placeHint (s : State) (uid hint operand : Nat) : State :=
  match s.placeDue uid hint with
  | none => s
  | some d =>
    let s := s.placeBegun uid
    match s.handleObj (d.w 0x10).toNat with
    | none => s.conclude uid stKilled causePlaceState 127
    | some (i, o) =>
      if o.job != d.job then s.conclude uid stSecurity 0 127
      else (s.setObject i (some (o.hint hint operand))).conclude uid stOK 0 127

/-- Operand of a hint, from a descriptor's body. -/
def State.placeWord (s : State) (uid off lo len : Nat) : Nat := match s.desc uid with
  | some d => fld (d.w off) lo len
  | none => 0

/-- `NEAR` (R372). -/
def execNear (d : Nat) (s : State) : Host.Outcome State Fault Refusal := .next (s.placeHint d 0 (s.placeWord d 0x1C 0 8))
/-- `NEAR_CORE` (R372). -/
def execNearCore (d : Nat) (s : State) : Host.Outcome State Fault Refusal := .next (s.placeHint d 1 (s.placeWord d 0x14 4 6))
/-- `SPREAD_OVER` (R372). -/
def execSpreadOver (d : Nat) (s : State) : Host.Outcome State Fault Refusal := .next (s.placeHint d 2 (s.placeWord d 0x18 0 32))
/-- `FREEZE` (R372). -/
def execFreeze (d : Nat) (s : State) : Host.Outcome State Fault Refusal := .next (s.placeHint d 3 0)
/-- `THAW` (R372). -/
def execThaw (d : Nat) (s : State) : Host.Outcome State Fault Refusal := .next (s.placeHint d 4 0)

/-- Activate the object that a `PLACE` names (R360, R362). While its initial contents are on their way the `PLACE` goes
on. -/
def State.placeActivate (s : State) (uid : Nat) (entry : List Word) : State :=
  match s.placeDue uid 8 with
  | none => s
  | some d =>
    let s := s.placeBegun uid
    let h := (d.w 0x10).toNat
    let e := objEntry entry
    if d.job != 0 then s.conclude uid stSecurity 0 127
    else if h / 2 ^ 20 != e.gen then s.conclude uid stKilled causePlaceState 127
    else
      match (s.readEntry (h % 2 ^ 20) entry).activate (h % 2 ^ 20) e with
      | (s', none) => s'
      | (s', some 0) => s'.conclude uid stOK 0 127
      | (s', some c) => s'.conclude uid (statusOf c) c 127

/-- `ACTIVATE` (R360). `entry` is the object table entry as the driver has written it (log 14). -/
def execActivate (d : Nat) (entry : List Word) (s : State) : Host.Outcome State Fault Refusal :=
  .next (s.placeActivate d entry)

/-- Whether an activation of the object at an index is in progress (R361). -/
def State.activating (s : State) (i : Nat) : Bool :=
  s.qm.descs.any (fun y => y.due 5 && y.begun && fld (y.w 0x14) 0 4 == 8 && (y.w 0x10).toNat % 2 ^ 20 == i)

/-- A `RELEASE` goes on, and completes once the lines of its object have been invalidated everywhere (R361). -/
def State.placeReleased (s : State) (uid i : Nat) : State :=
  let s := s.releaseStep i
  if s.released i then s.conclude uid stOK 0 127 else s

/-- Release the object that a `PLACE` names (R361): the release waits for an activation or a switch in progress. -/
def State.placeRelease (s : State) (uid : Nat) : State :=
  match s.placeDue uid 9 with
  | none => s
  | some d =>
    let h := (d.w 0x10).toNat
    let i := h % 2 ^ 20
    if d.job != 0 then (s.placeBegun uid).conclude uid stSecurity 0 127
    else if d.acted then s.placeReleased uid i
    else if s.activating i then s
    else
      match s.handleObj h with
      | none => (s.placeBegun uid).conclude uid stKilled causePlaceState 127
      | some (i, o) =>
        let switching : Bool := match o.mig with
          | some m => m.switching
          | none => false
        if switching then s else ((s.placeBegun uid).release i).placeReleased uid i

/-- `RELEASE` (R361). -/
def execRelease (d : Nat) (s : State) : Host.Outcome State Fault Refusal := .next (s.placeRelease d)

/-! ### Reed transfers (R211, R218) -/

/-- First entry, count, address of the statistics block and of the tag block of a Reed transfer (R216, R218). -/
def Desc.reedRange (d : Desc) : Nat × Nat × Nat × Nat :=
  let n := fld (d.w 0x14) 12 12 + 1
  (fld (d.w 0x14) 0 12, n, d.w64 0x18, d.w64 0x18 + 4096 * ceilDiv (8 * n) 4096)

/-- The tile on which a Reed transfer is due: its core is mapped and runs nothing (R218, R353). -/
def State.reedTile (s : State) (d : Desc) : Option Nat :=
  match d.cores with
  | c :: _ => if (s.core c).st == .mapped && (s.tile (s.core c).tile).isFree && !(s.tile (s.core c).tile).spad.sealed then
      some (s.core c).tile else none
  | [] => none

/-- The agent of a Reed transfer: the host window is closed to it (R357). -/
def Desc.reedAgent (d : Desc) : Agent := { d.agent with hostOk := false }

/-- The image of a `REED_SPILL` is written; the descriptor waits for the acknowledgements that `e` counts. -/
def State.reedStored (s : State) (uid : Nat) (e : QEntry) : State :=
  let s' := ((s.onDesc uid (fun d => { d with begun := true, acted := true })).putXfer uid e).stopClock uid
  if e.loadRows == 0 then s'.conclude uid stOK 0 127 else s'

/-- What has come of the two accesses of a `REED_SPILL`: the image is written. -/
def State.reedSave (s : State) (d : Desc) (a b : Nat) (img : List Byte × List Byte) : Piece Unit → Piece Unit → State
  | .stop r, _ => (s.onDesc d.uid (fun d => { d with begun := true })).stopDesc d r
  | .wait, .stop r => (s.onDesc d.uid (fun d => { d with begun := true })).stopDesc d r
  | .ok _, .stop r => (s.onDesc d.uid (fun d => { d with begun := true })).stopDesc d r
  | .wait, _ => s
  | .ok _, .wait => s
  | .ok _, .ok _ =>
    let o := { OpenTx.posted with tile := 127, eng := 4, uid := d.uid }
    let r1 := s.wrPkgAs a d.job 120 img.1 o
    let r2 := r1.st.wrPkgAs b d.job 120 img.2 o
    r2.st.reedStored d.uid { d.newXfer with
      stored := true, loadRows := r1.acks + r2.acks, ans := if (r1.lost.or r2.lost).isSome then 8 else 1 }

/-- `REED_SPILL`: the image goes to package memory; it is complete once every write has been acknowledged (R218). -/
def State.reedSpill (s : State) (uid : Nat) : State :=
  match s.desc uid with
  | none => s
  | some d =>
    if !d.due 6 then s
    else match d.xfer with
      | some e =>
        (match ansStop s e with
         | some r => s.stopDesc d r
         | none => if e.loadRows == 0 then s.conclude uid stOK 0 127 else s)
      | none =>
        match s.reedTile d with
        | none => s
        | some t =>
          let (k, n, a, b) := d.reedRange
          let g := d.reedAgent
          let img := if (s.tile t).row.owner == some d.job then reedImage (s.tile t).row k n
            else (List.replicate (8 * n) 0, List.replicate (2 * n) 0)
          s.reedSave d a b img (s.access g true a (8 * n)) (s.access g true b (2 * n))

/-- `REED_SPILL` (R218). -/
def execReedSpill (d : Nat) (s : State) : Host.Outcome State Fault Refusal := .next (if s.clocked then s.reedSpill d else s)

/-- The transfer of a `REED_FILL`: its two source blocks. -/
def Desc.fillXfer (d : Desc) : Xfer :=
  let (_, n, a, b) := d.reedRange
  { units := 1, srcs := fun _ => [(.pkg a, 8 * n), (.pkg b, 2 * n)], dsts := fun _ => [], conv := id, parts := 1, rel := false }

/-- A Reed that takes an image for a job; another job's entries are zeroed first (R211, R218). -/
def Tile.fillReed (q : Tile) (job k n : Nat) (bs : List Byte) : Tile :=
  let r := if q.row.owner == some job then q.row else { q.row with reed := [] }
  let r := r.fillFrom (Mem.wrBytes [] 0 bs) 0 (8 * n) k n
  { q with row := { r with
    owner := some job, reed := r.reed.foldl (fun t e => Tab.set ReedEnt.init t e.1 { e.2 with mine := false }) [] } }

/-- What has come of the bytes of a `REED_FILL`: they fill the Reed of tile `t`. -/
def State.reedTake (s : State) (d : Desc) (t : Nat) : Piece (List Byte) → State
  | .wait => s
  | .stop r => s.stopDesc d r
  | .ok bs =>
    (s.onTile t (fun q => q.fillReed d.job d.reedRange.1 d.reedRange.2.1 bs)).conclude d.uid stOK 0 127

/-- `REED_FILL`: the image comes from package memory; another job's Reed is zeroed first (R211, R218). -/
def State.reedFill (s : State) (uid : Nat) : State :=
  match s.desc uid with
  | none => s
  | some d =>
    if !d.due 7 then s
    else
      match s.reedTile d with
      | none => s
      | some t =>
        let x := d.fillXfer
        let g := d.reedAgent
        let e := d.xfer.getD { d.newXfer with ans := 1 }
        match ansStop s e with
        | some r => s.stopDesc d r
        | none =>
          if !e.asked && s.askHeld x then s
          else
            let s := s.onDesc uid (fun d => { d with begun := true, acted := true })
            let r := if e.asked then (s, e) else s.askAll g x { e with bellRows := 1 }
            (r.1.putXfer uid r.2).reedTake d t ((r.1.putXfer uid r.2).readUnit g r.2 0 (x.srcs 0))

/-- `REED_FILL` (R218). -/
def execReedFill (d : Nat) (s : State) : Host.Outcome State Fault Refusal :=
  .next (if s.clocked then (s.reedFill d).tick else s)

end Sys2Proof.Machine
end

