-- ==== Sys2Proof/Machine/QmEnd.lean ====
section
/-!
DEFINITION. How descriptors end: completion with deferred operations and the completion record, resumption after
pre-emption, time-out, kill and reset (spec/12_rings_doorbells_descriptors.md R332, R333, R335 to R337, R341 to R345;
spec/09 R231, R232; spec/11 R295, R302).
-/

namespace Sys2Proof.Machine

open Sys2Proof

/-! ### Stopping work (R96, R196, R212, R254, R566) -/

/-- Whether a tile holds a program of a descriptor that has not ended or saved. -/
def Tile.worksFor (q : Tile) (d : Desc) : Bool := q.live && q.seq.stream == d.stream && q.seq.seqNo == d.seq

/-- Abandon what a tile does: its program leaves no more trace. -/
def State.abandonTile (s : State) (t : Nat) : State :=
  (((s.onTile t (fun q => q.abandon.onSeq (fun z => { z with phase := .discarded, halted := false }))).letGo t 2).syncStop t)

/-- Physical tiles of a descriptor's cores. -/
def State.tilesOf (s : State) (d : Desc) : List Nat := d.cores.map (fun c => (s.core c).tile)

/-- Drop the frames of a descriptor's members (R332). -/
def State.dropFrames (s : State) (d : Desc) : State :=
  { s with qm := { s.qm with frames := s.qm.frames.filter (fun f => f.1 / 64 != d.uid) } }

/-- Drop the commit logs of a descriptor (R461). -/
def State.dropLogs (s : State) (uid : Nat) : State :=
  { s with flt := { s.flt with
      logs := s.flt.logs.filter (fun l => l.1 / 64 != uid), logLen := s.flt.logLen.filter (fun l => l.1 / 64 != uid) } }

/-- Abandon the work of a tile if it is a descriptor's. -/
def State.abandonFor (s : State) (d : Desc) (t : Nat) : State :=
  if (s.tile t).worksFor d then s.abandonTile t else s

/-- Abandon the members of a descriptor that still work. -/
def State.abandonMembers (s : State) (d : Desc) : State :=
  (s.tilesOf d).foldl (fun s t => s.abandonFor d t) s

/-- Stop all work of a descriptor: its members, its transfer, its wait at a home, its staged writes. -/
def State.stopWork (s : State) (d : Desc) : State :=
  let s : State := ((s.abandonMembers d).withdraw (· == .desc d.uid) (some d.uid)).dropLogs d.uid
  if d.opcode == 2 then s.copyLetGo d else s

/-! ### The stash at a descriptor's completion (R231, R232) -/

/-- Where `TAIL` of a stash comes to lie when it passes over freed records and pads, and what is left of them (R231). -/
def tailRun (a : Nat) : List StashRec → Nat → Nat × List StashRec
  | [], tail => (tail, [])
  | r :: rs, tail =>
    if r.scb != a then
      let x := tailRun a rs tail
      (x.1, r :: x.2)
    else if r.freed && r.pos == tail then tailRun a rs (r.pos + r.len)
    else (tail, r :: rs)

/-- Report that the stash did not answer the queue manager (R364, R567). -/
def State.stashStop (s : State) (e : Ev) (r : Stop) : State :=
  match r with
  | .denied a c => s.qmRefuse e a c
  | .poison a => s.qmRefuse e a 6
  | _ => s

/-- The record of a stash ID is free: its `FREE` bit, the state of its entry, and `TAIL` (R225, R231, R232). -/
def State.freeRecord (s : State) (ag job a : Nat) (c : Scb) (id st : Nat) : State :=
  let ent := c.ent id
  let e := s.stashEnt ag ent
  let recs := s.qm.recs.map (fun r => if r.scb == a && r.pos % c.size == e.recOff then { r with freed := true } else r)
  let x := tailRun a recs c.tail
  let s := (s.setStashEnt ent job { e with state := st }).wrPkg (c.base + e.recOff + 4) job (leBytes 4 1)
  { s with qm := { s.qm with recs := x.2 } }.setScb ag a job { c with tail := x.1 }

/-- Free the record of a stash ID and give its entry a state, as the stream's job (R231, R232, R363); `writing` asks for
that only where the entry is `WRITING`. Answers whether it is done; what lies on another die is read first. -/
def State.stashFree (s : State) (d : Desc) (id st : Nat) (writing : Bool) : State × Bool :=
  let ag := descAgent d.uid
  let job := s.jobOf d
  let a := s.scbAddr job
  if a = 0 then (s, true)
  else
    let g := { initReader with job := job, hostOk := false }
    match s.need g ag true a 64 with
    | (s, .wait) => (s, false)
    | (s, .stop r) => ((s.dropFetch ag).stashStop d.ev r, true)
    | (s, .ok _) =>
      let c := s.scb ag a
      match s.need g ag true (c.ent id) 32 with
      | (s, .wait) => (s, false)
      | (s, .stop r) => ((s.dropFetch ag).stashStop d.ev r, true)
      | (s, .ok _) =>
        if writing && (s.stashEnt ag (c.ent id)).state != 1 then (s.dropFetch ag, true)
        else ((((s.readAt a 64).readAt (c.ent id) 32).freeRecord ag job a c id st).dropFetch ag, true)

/-- Free several records one after the other. Answers the IDs that are still to be freed. -/
def State.stashFreeAll (s : State) (d : Desc) (st : Nat) (writing : Bool) : List Nat → State × List Nat
  | [] => (s, [])
  | id :: ids =>
    match s.stashFree d id st writing with
    | (s, true) => State.stashFreeAll s d st writing ids
    | (s, false) => (s, id :: ids)

/-! ### Completion records (R335 to R337) -/

/-- The 32 bytes of a completion record (R335). -/
def recordBytes (d : Desc) (st cause tile : Nat) (phase : Bool) (ts : Nat) : List Byte :=
  let n := fun k => min k (2 ^ 32 - 1)
  leBytes 4 d.seq ++ leBytes 4 (st + bit1 phase * 2 ^ 8 + bit1 (d.replays != 0) * 2 ^ 9 + d.stream * 2 ^ 16)
  ++ leBytes 4 (n d.sat) ++ leBytes 4 (n d.flushIn) ++ leBytes 4 (n d.flushOut) ++ leBytes 4 (cause + tile * 2 ^ 8)
  ++ leBytes 8 ts

/-- Status, cause and tile of the record of a decided descriptor (R337, R455, R456, R465). -/
def Desc.final (d : Desc) : Nat × Nat × Nat :=
  match d.outcome with
  | none => (stOK, 0, 127)
  | some (st, c, t) =>
    if st == stOK then (if d.replays == 0 then (stOK, 0, 127) else (stReplayedOk, d.lastFault.1, d.lastFault.2))
    else if st == stNotReplayable && (c == causeCoreFault || c == causePortFault) then
      (if d.opcode == 6 && c == causeCoreFault then (stStatLost, causeStatLost, t)
       else if d.hasEscaped t then (st, causeEscaped, t)
       else if d.replayable && decide (3 ≤ d.replays) then (st, causeReplayLimit, t)
       else (st, c, t))
    else (st, c, t)

/-- A job whose kill is under way and of which no descriptor is left: its objects are released (R342). -/
def State.killSettle (s : State) (j : Nat) : State :=
  match Tab.get none s.qm.jobs j with
  | some x => if x.st == .killing && !s.qm.descs.any (fun d => s.jobOf d == j) then s.releaseJob j else s
  | none => s

/-- The descriptor is gone from the queue manager, with its frames and logs. -/
def State.forget (s : State) (d : Desc) : State :=
  let s : State := if d.st == .preempted || d.discarded then s.dropFrames d else s
  let s : State := { s with tiles := s.tiles.map (fun e =>
    if e.2.seq.stream == d.stream && e.2.seq.seqNo == d.seq && !e.2.live then (e.1, e.2.onSeq (fun z => { z with phase := .idle })) else e) }
  (({ s with qm := { s.qm with descs := s.qm.descs.filter (fun x => x.uid != d.uid) } }).dropLogs d.uid)

/-- The completion ring did not take a record: its stream halts (R337, R364, R567). -/
def State.recordStop (s : State) (d : Desc) (r : Stop) : State := s.ringStop d.stream d.ev r

/-- A completion record is written at the tail of its ring (R335, R336). -/
def State.recordPut (s : State) (d : Desc) (x : Stream) (job : Nat) (bs : List Byte) : State :=
  let (_, cause, tile) := d.final
  let last := x.cplTail + 1 == 2 ^ x.cplLog2
  let s : State := ((s.wrPkg (x.cplBase + 32 * x.cplTail) job bs).count 6 1).onStream d.stream (fun x => { x with
    cplTail := if last then 0 else x.cplTail + 1, lap := if last then x.lap + 1 else x.lap
    done := (x.done + 1) % 2 ^ 64, lastTs := s.now })
  if d.wantsEvent then s.event { d.ev with typ := 0x0002, tile := tile, cause := cause, pay := [(0x18, 32, leNat bs)] }
  else s

/-- The counts of a descriptor join its stream's totals, and any status but success halts the stream (R172, R336, R337). -/
def Stream.tally (x : Stream) (d : Desc) : Stream :=
  { x with
    satTotal := (x.satTotal + min d.sat (2 ^ 32 - 1)) % 2 ^ 64
    flushInTotal := (x.flushInTotal + min d.flushIn (2 ^ 32 - 1)) % 2 ^ 64
    flushOutTotal := (x.flushOutTotal + min d.flushOut (2 ^ 32 - 1)) % 2 ^ 64
    halting := x.halting || !(d.final.1 == stOK || d.final.1 == stReplayedOk) }

/-- Write the completion record, as the stream's job, and what follows it (R302, R336, R337, R363, R364, R567). A completion
ring whose translation is missing is waited for. -/
def State.record (s : State) (d : Desc) : State :=
  match s.stream d.stream with
  | none => s.forget d
  | some x =>
    let bs := recordBytes d d.final.1 d.final.2.1 d.final.2.2 (x.lap % 2 == 0) s.now
    let put : Option State :=
      match s.access { initReader with job := x.job } true (x.cplBase + 32 * x.cplTail) 32 with
      | .wait => none
      | .stop r => some ((s.onStream d.stream (fun x => x.tally d)).recordStop d r)
      | .ok _ => some ((s.onStream d.stream (fun x => x.tally d)).recordPut d x x.job bs)
    match put with
    | none => s
    | some s =>
      let s : State := if d.final.1 == stKilled then s.abandonStream d.stream else s
      ((((s.forget d).settle d.stream).exact d.stream).killSettle x.job).quiesce

/-- The deferred operations of a completed descriptor go out, member by member in the order recorded (R295). -/
def State.sendDeferred (s : State) (d : Desc) : State :=
  let order := (List.range 64).flatMap (fun m => (d.defer.filter (fun e => e.1 == m)).flatMap (·.2))
  let s : State := s.onDesc d.uid (fun d => { d with st := .finished, defer := [(0, order)] })
  ((List.range order.length).zip order).foldl (fun s p =>
    let src : SyncSrc := .defer d.uid p.1
    let (s', ok) := s.syncSend { p.2 with src := src }
    (if ok then s' else s'.answer src 4 0).onDesc d.uid (fun d => { d with deferring := d.deferring + 1 })) s

/-- What a stopped run has left on its members' tiles: commands, partly filled slots, Reed entries of the run (R96, R212,
R254). -/
def State.clearMembers (s : State) (d : Desc) : State :=
  (s.tilesOf d).foldl (fun s t =>
    if (s.tile t).seq.stream == d.stream && (s.tile t).seq.seqNo == d.seq && d.acted && d.opcode == 1 then
      s.onTile t (fun q => (((List.range 6).foldl (fun q e => q.onQueue e (fun _ => [])) q).resetFills).clearMine)
    else s) s

/-- A descriptor whose outcome is decided stops being in progress (R231, R232, R295, R335): with success its stash entries
are freed and its deferred operations go out, otherwise what it left `WRITING` is marked. It goes on once the stash has
answered. -/
def State.finish (s : State) (d : Desc) : State :=
  let (st, _, _) := d.final
  if st == stOK || st == stReplayedOk then
    let r := s.stashFreeAll d 0 false d.frees
    let s := r.1.onDesc d.uid (fun d => { d with frees := r.2 })
    if r.2.isEmpty then s.sendDeferred d else s
  else
    let s := s.clearMembers d
    let ids := if st == stNotReplayable || st == stKilled || st == stPoisoned then d.writes.eraseDups else []
    let r := s.stashFreeAll d 3 true ids
    let s := r.1.onDesc d.uid (fun d => { d with writes := r.2 })
    if r.2.isEmpty then s.onDesc d.uid (fun d => { d with st := .finished, defer := [] }) else s

/-- Causes that stop every member of a descriptor at once: a core that is absent, a time-out, a kill, a context check,
a core fault, a port fault. -/
def stopsAll (c : Nat) : Bool := c == 0x14 || c == 0x15 || c == 0x16 || c == 0x18 || c == 0x1B || c == 0x1C

/-- Whether writes of the queue manager for a job are still unacknowledged (R26, R336). -/
def State.postedOpen (s : State) (job : Nat) : Bool :=
  s.rdc.opens.any (fun e => match e.2 with
    | some o => o.pkt.cls == 2 && o.pkt.job == job && (o.tile == 126 || o.tile == atomicTx)
    | none => false)

/-- Record the completion of a finished descriptor that neither a deferred operation, nor a withdrawal, nor a write holds up
(R26, R336, R566). -/
def State.recordIf (s : State) (uid : Nat) : State :=
  match s.desc uid with
  | some d => if d.st == .finished && d.deferring = 0 && !s.withdrawing uid && !s.postedOpen (s.jobOf d) then s.record d else s
  | none => s

/-- Finish a descriptor, and record its completion unless deferred operations are still awaited (R295, R336). -/
def State.finishNow (s : State) (uid : Nat) : State :=
  match s.desc uid with
  | none => s
  | some d => (s.finish d).recordIf uid

/-- Whether a member of a descriptor is through with its run: it has ended, or stopped, with its started commands complete
(R35, R61); it has nothing to resume. -/
def State.memberDone (s : State) (d : Desc) (m : Nat) : Bool :=
  d.ended.contains m
  || (let q := s.tile (s.core (d.cores[m]?.getD 0)).tile
      q.seq.stream == d.stream && q.seq.seqNo == d.seq && !q.live && q.seq.phase != .saved && q.drained 63)

/-- Whether a descriptor whose outcome a program fault has decided may complete: no member works, the commands that had
started are complete, and, where a refused stash write leaves the others running, every member is through (R61, R235). -/
def State.mayEnd (s : State) (d : Desc) : Bool :=
  !(s.tilesOf d).any (fun t => let q := s.tile t
    q.worksFor d || (q.seq.stream == d.stream && q.seq.seqNo == d.seq && !q.drained 63))
  && (!(d.goesOn && d.opcode == 1) || (List.range d.cores.length).all (fun m => s.memberDone d m))

/-- Completion of a descriptor (R336): the outcome, the deferred operations, and once every home has answered the
record. A descriptor to be replayed does not complete; a program fault waits for the other members (R235; log 19). -/
def State.descComplete (s : State) (uid : Nat) : State :=
  match s.desc uid with
  | none => s
  | some d =>
    if d.st == .finished then s.recordIf uid
    else if !d.started || d.willReplay then s
    else
      match d.outcome with
      | none =>
        if d.opcode == 1 && d.allEnded && !d.commit && d.st == .running then (s.conclude uid stOK 0 127).finishNow uid
        else s
      | some (_, c, _) =>
        if stopsAll c then (s.stopWork d).finishNow uid
        else if s.mayEnd d then s.finishNow uid
        else s

/-- `DESC_COMPLETE` (R336). -/
def execDescComplete (d : Nat) (s : State) : Host.Outcome State Fault Refusal := .next (s.descComplete d).tick

/-! ### Resumption (R332, R333) -/

/-- A descriptor starts again from its start on all its members (R332, R458): what the run left behind is dropped. -/
def Desc.restart (d : Desc) (now : Nat) : Desc :=
  { d with
    st := .running, startTs := now, timed := d.opcode != 1, acted := false, discarded := false, ended := [], defer := []
    frees := [], sat := 0
    flushIn := 0, flushOut := 0, xfer := none, grant := none, committing := false, outcome := none }

/-- Whether a ready descriptor of a higher level needs one of these cores (R333). -/
def State.wantedAbove (s : State) (l : Nat) (cores : List Nat) : Bool :=
  s.qm.streams.any (fun e => decide (l < s.level' e.1) && (match s.nextDesc e.1 with
    | some d => d.outcome.isNone && d.cores.any (fun c => cores.contains c) && s.ready d (s.level' e.1) != .wait
    | none => false))

/-- The frames of a pre-empted descriptor, by member. -/
def State.framesOf (s : State) (d : Desc) : List (Nat × Frame) :=
  (List.range d.cores.length).filterMap (fun m => match Tab.get none s.qm.frames (64 * d.uid + m) with
    | some f => some (m, f)
    | none => none)

/-- Put a saved member back on its tile, with the scratchpad part if it was saved (R64, R173, R197, R213, R263, R300, R565):
windows reopen, credits are to be requested again, and program memory holds the image. -/
def Tile.restore (q : Tile) (f : Frame) (spad : Option Spad) (pmem : Tab Word) (resident : Option (Nat × Nat)) : Tile :=
  let g := f.tile
  if g.seq.phase == .starting then { q with seq := { g.seq with pmem := q.seq.pmem, resident := q.seq.resident } }
  else
    { g with
      seq := { g.seq with phase := .running, pmem := pmem, resident := resident, stallNs := 0 }
      dma := { g.dma with windows := g.dma.reopen, reopen := [], reqs := q.dma.reqs, granted := q.dma.granted }
      spad := spad.getD q.spad }

/-- Tile of a member of a descriptor. -/
def State.memberTile (s : State) (d : Desc) (m : Nat) : Nat := (s.core (d.cores[m]?.getD 0)).tile

/-- The agent of a descriptor, without the host window. -/
def Desc.closedAgent (d : Desc) : Agent := { d.agent with hostOk := false }

/-- Whether a frame's core part, as the descriptor has read it back, bears its CRC-32C (R331, R333). -/
def State.frameOk (s : State) (d : Desc) (x : Stream) (m : Nat) : Bool :=
  let n := Config.contextLen % 2621437
  let bs := s.rdPkg (descAgent d.uid) (x.frameAt m) (n + 4)
  crc32c (bs.take n) == leNat (bs.drop n)

/-- A resuming descriptor needs a member's frame and, unless it is resident or the program has not started, its image
(R32, R333). -/
def State.needMember (s : State) (d : Desc) (x : Stream) (m : Nat) (f : Frame) : State × Piece Unit :=
  let g := d.closedAgent
  let a := x.frameAt m
  let t := s.memberTile d m
  let z := f.tile.seq
  match s.need g (descAgent d.uid) false a (Config.contextLen % 2621437 + 4) with
  | (s, .ok _) =>
    (match (if f.spad.isSome then s.need g (descAgent d.uid) false (a + 4 * 2 ^ 20) (16 * 2 ^ 20) else (s, .ok ())) with
     | (s, .ok _) =>
       if z.phase == .starting || { (s.tile t).seq with handle := z.handle, progLen := z.progLen }.residentOk then (s, .ok ())
       else s.need g (loaderAgent t) false (s.progAddr z.handle) (4 * z.progLen)
     | r => r)
  | r => r

/-- A resuming descriptor needs every saved member's part. -/
def State.needMembers (s : State) (d : Desc) (x : Stream) : List (Nat × Frame) → State × Piece Unit
  | [] => (s, .ok ())
  | (m, f) :: fs =>
    match s.needMember d x m f with
    | (s, .ok _) => State.needMembers s d x fs
    | r => r

/-- Restore one member whose part is here (R333). -/
def State.restoreMember (s : State) (d : Desc) (x : Stream) (m : Nat) (f : Frame) : State :=
  let t := s.memberTile d m
  let z := f.tile.seq
  let keep := z.phase == .starting || { (s.tile t).seq with handle := z.handle, progLen := z.progLen }.residentOk
  let pm := if keep then (s.tile t).seq.pmem else s.imageWords (loaderAgent t) (s.progAddr z.handle) z.progLen
  let rs := if keep then (s.tile t).seq.resident else some (z.handle, z.progLen)
  let sp := f.spad.map (fun sp => { sp with
    mem := Mem.wrBytes [] 0 (s.rdPkg (descAgent d.uid) (x.frameAt m + 4 * 2 ^ 20) (16 * 2 ^ 20))
    owner := some d.job, sealed := false, retain := none })
  let s := s.readAt (x.frameAt m) (Config.contextLen % 2621437 + 4)
  let s := if f.spad.isSome then s.readAt (x.frameAt m + 4 * 2 ^ 20) (16 * 2 ^ 20) else s
  (s.onTile t (fun q => q.restore f sp pm rs)).dropFetch (loaderAgent t)

/-- Restore every saved member. -/
def State.restoreAll (s : State) (d : Desc) (x : Stream) (fs : List (Nat × Frame)) : State :=
  (fs.foldl (fun s p => s.restoreMember d x p.1 p.2) s).dropFetch (descAgent d.uid)

/-- A descriptor runs from its start again (R63, R333). -/
def State.restartDesc (s : State) (d : Desc) : State :=
  ((s.abandonMembers d).dropFrames d).onDesc d.uid (fun d => d.restart s.now)

/-- Whether slots that a saved context relied on are gone: scrubbed since, or another job's (R333). -/
def State.slotsGone (s : State) (d : Desc) (p : Nat × Frame) : Bool :=
  p.2.spad.isNone && p.2.tile.seq.phase != .starting
  && (p.2.gone || (s.tile (s.memberTile d p.1)).spad.owner != some d.job)

/-- Whether something still holds a pre-empted descriptor back (R310, R333): the queue manager, a core that is not free, or
a ready descriptor of a higher level. -/
def State.resumeHeld (s : State) (d : Desc) (x : Stream) : Bool :=
  d.st != .preempted || !bitAt (s.reg 0x2000) 0 || !s.ringRead x || s.pkg.holdover || !d.goesOn
  || (d.discarded && d.outcome.isSome)
  || d.cores.any (fun c =>
      let q := s.tile (s.core c).tile
      (s.core c).st != .mapped || (s.occupant c d.uid).isSome || (!q.isFree && !q.worksFor d))
  || s.wantedAbove x.prio d.cores

/-- The contexts of a descriptor come back (R333): the frames and images are fetched, a frame whose CRC-32C does not verify
ends it. `ok` says whether the frames came back as they were written. -/
def State.resumeFrames (s : State) (d : Desc) (x : Stream) (ok : Bool) (fs : List (Nat × Frame)) : State :=
  if s.postedOpen d.job then s
  else match s.needMembers d x fs with
  | (s, .wait) => s
  | (s, .stop r) => (s.dropFetch (descAgent d.uid)).stopDesc d r
  | (s, .ok _) =>
    if !ok || !fs.all (fun p => s.frameOk d x p.1) then (s.dropFetch (descAgent d.uid)).hitDesc d.uid 0x16 127
    else (((s.restoreAll d x fs).dropFrames d).onDesc d.uid (fun d => { d with st := .running, startTs := s.now })).settle d.stream

/-- A pre-empted descriptor resumes on the same logical cores (R332, R333). Another job's data is sealed and scrubbed before
a saved scratchpad part comes back; where the slots that a context relied on are gone, or a member discarded its context,
the descriptor restarts on all its members. -/
def State.descResume (s : State) (uid : Nat) (ok : Bool) : State :=
  match s.desc uid with
  | none => s
  | some d =>
    match s.stream d.stream with
    | none => s
    | some x =>
      let fs := s.framesOf d
      let of := fun (m : Nat) => (s.tile (s.memberTile d m)).spad
      if s.resumeHeld d x then s
      else if d.discarded || fs.any (s.slotsGone d) then (s.restartDesc d).settle d.stream
      else
        let other := fs.filter (fun p => p.2.spad.isSome && (of p.1).owner.isSome && (of p.1).owner != some d.job
          && !(of p.1).sealed)
        if !other.isEmpty then other.foldl (fun s p => s.sealTile (s.memberTile d p.1) 2) s
        else if fs.any (fun p => (of p.1).sealed) then s
        else
          match fs.find? (fun p => s.progReason d.job p.2.tile.seq.handle p.2.tile.seq.progLen != 0) with
          | some p => s.progDenied uid (s.progReason d.job p.2.tile.seq.handle p.2.tile.seq.progLen)
          | none => s.resumeFrames d x ok fs

/-- `DESC_RESUME` (R333). -/
def execDescResume (d : Nat) (ok : Bool) (s : State) : Host.Outcome State Fault Refusal :=
  .next (if s.coresRun then s.descResume d ok else s)

/-! ### Time-out (R345) -/

/-- The time in progress of a descriptor reaches its stream's limit (R345). -/
def State.timeout (s : State) (uid : Nat) : State :=
  match s.desc uid with
  | none => s
  | some d =>
    if d.st != .running || !d.timed || d.outcome.isSome || !s.overTime d then s
    else (s.stopWork d).timeUp d

/-- `STREAM_TIMEOUT` (R345). -/
def execStreamTimeout (d : Nat) (s : State) : Host.Outcome State Fault Refusal := .next (s.timeout d)

/-! ### Kill and reset (R341 to R344) -/

/-- Complete a descriptor with a kill or a reset, whatever it had reached short of its completion (R342, R343). -/
def State.killDesc (s : State) (d : Desc) (st cause : Nat) : State :=
  let s : State := ((s.stopWork d).withdraw (fun x => match x with
    | .defer uid _ => uid == d.uid
    | _ => false) none).dropFrames d
  s.onDesc d.uid (fun d => { d with st := .running, outcome := some (st, cause, 127), begun := true, deferring := 0, timed := false })

/-- A stream enters `RESET` after its last completion (R342, R343). -/
def State.resetStream (s : State) (k : Nat) : State := (s.onStream k (fun x => { x with resetting := true })).settle k

/-- Whether a core runs a job's work or belongs to it (R244, R342). -/
def Tile.ofJob (q : Tile) (j : Nat) : Bool :=
  (q.live && q.seq.job == j) || (q.seq.phase != .idle && q.seq.job == j && q.spad.owner == some j) || q.spad.owner == some j

/-- Kill a job's core (R255, R257, R342, R504): its work is abandoned, its slots are sealed, and everything that the
job left there is out of reach. Another job's program that waits to start there goes on waiting. -/
def State.killTile (s : State) (t j : Nat) (retain : Bool) : State :=
  let other := (s.tile t).live && (s.tile t).seq.job != j
  let s : State := if other then s else s.abandonTile t
  let s : State := s.sealTile t 2
  s.onTile t (fun q =>
    let q := if other then q else q.wipe
    { q with spad := { q.spad with owner := some j, retain := if retain then some j else none } })

/-- Whether some core of a job is still to be scrubbed (R342). -/
def State.jobScrubbing (s : State) (j : Nat) : Bool :=
  s.tiles.any (fun e => e.2.spad.sealed && e.2.spad.owner == some j && e.2.spad.retain.isNone)

/-- A job's state and the beginning of its kill (R342). -/
def State.beginKill (s : State) (uid j : Nat) (x : Job) (cores : Nat) : State :=
  ({ s with qm := { s.qm with jobs := Tab.set none s.qm.jobs j (some { x with
      st := .killing, killStart := s.now, killCores := cores, killUid := uid }) } } : State).writeJob j

/-- Every descriptor of a job that is under way is killed, but for the one that kills. -/
def State.killDescs (s : State) (uid j : Nat) : State :=
  (s.qm.descs.filter (fun d => s.jobOf d == j && d.started && d.uid != uid)).foldl (fun s d => s.killDesc d stKilled 0x15) s

/-- The Reeds that a job owns on cores that are not sealed are emptied (R211, R342). -/
def State.dropReeds (s : State) (j : Nat) : State :=
  { s with tiles := s.tiles.map (fun e =>
      if e.2.row.owner == some j && !e.2.spad.sealed then (e.1, { e.2 with row := { e.2.row with reed := [], owner := none } }) else e) }

/-- The streams of a job stop (R342). -/
def State.stopStreams (s : State) (j : Nat) : State :=
  (s.qm.streams.filter (fun e => match e.2 with
    | some y => y.job == j
    | none => false)).foldl (fun s e => s.resetStream e.1) s

/-- The steps 1 to 4 of a kill (R342), begun by the `SCRUB` with this uid. -/
def State.killJob (s : State) (uid j : Nat) (x : Job) : State :=
  let cores := (s.tiles.filter (fun e => e.2.ofJob j)).map (·.1)
  ((((cores.foldl (fun s t => s.killTile t j (x.retain && s.sec.life == .development))
    ((s.beginKill uid j x cores.length).killDescs uid j)).dropReeds j).freeJobObjs j).stopStreams j)

/-- A job's entry as it has been read, and the count of its bytes (R312, R367). -/
def State.takeJob (ag j : Nat) (s : State) : State × Job := (s.readAt (s.qmBase 0x2010 + 32 * j) 32, s.tableJob ag j)

/-- A stream's entry as it has been read, and the count of its bytes (R312, R367). -/
def State.takeStream (ag k : Nat) (s : State) : State × Stream :=
  (s.readAt (s.qmBase 0x200C + 128 * k) 128, s.tableFresh ag k)

/-- The job that a `SCRUB` targets: its copy, or its entry as it stands in the table (R342, R363). -/
def State.targetJob (s : State) (uid j : Nat) : State × Piece Job :=
  match Tab.get none s.qm.jobs j with
  | some x => (s, .ok x)
  | none =>
    tableRead (descAgent uid) (s.jobNeed (descAgent uid) j) (State.takeJob (descAgent uid) j)

/-- The stream that a `SCRUB` targets: its copy, or its entry as it stands in the table (R343, R363). -/
def State.targetStream (s : State) (uid k : Nat) : State × Piece Stream :=
  match s.stream k with
  | some x => (s, .ok x)
  | none =>
    tableRead (descAgent uid) (s.streamNeed (descAgent uid) k) (State.takeStream (descAgent uid) k)

/-- A `SCRUB` of a job with no valid entry (R342), or with none that can be read (DESIGN CHOICE, log 18). -/
def State.scrubNoJob (s : State) (d : Desc) : State :=
  (s.conclude d.uid stKilled 0 127).event
    { d.ev with typ := 0x0004, pay := [(0x18, 4, ((s.stream d.stream).map (·.ring)).getD 0), (0x1C, 4, d.idx), (0x20, 4, 3)] }

/-- What a `SCRUB` does with the job `x` that it targets (R342). -/
def State.scrubJobAt (s : State) (d : Desc) (j : Nat) (x : Job) : State :=
  let uid := d.uid
  if !x.valid then s.scrubNoJob d
  else match x.st with
    | .killed => s.conclude uid stOK 0 127
    | .live =>
      let s : State := s.killJob uid j x
      if s.jobScrubbing j then s else s.conclude uid stOK 0 127
    | .killing =>
      if x.killUid == uid then (if s.jobScrubbing j then s else s.conclude uid stOK 0 127)
      else if (s.desc x.killUid).isSome then s else s.conclude uid stOK 0 127

/-- `KILL_JOB` (R341, R342). -/
def State.scrubJob (s : State) (uid : Nat) : State :=
  match s.desc uid with
  | none => s
  | some d =>
    let j := fld (d.w 0x14) 0 12
    if !d.due 8 || fld (d.w 0x10) 0 2 != 0 then s
    else if (if d.job == 0 then j == 0 else j != d.job) then s.conclude uid stSecurity 0 127
    else match s.targetJob uid j with
      | (s, .wait) => s
      | (s, .stop _) => s.scrubNoJob d
      | (s, .ok x) => s.scrubJobAt d j x

/-- `KILL_JOB` (R342). -/
def execKillJob (d : Nat) (s : State) : Host.Outcome State Fault Refusal := .next (s.scrubJob d)

/-- Hold a copy of a stream's entry that was only in the table (R343). -/
def State.holdStream (s : State) (k : Nat) (x : Stream) : State :=
  if (s.stream k).isSome then s else { s with qm := { s.qm with streams := Tab.set none s.qm.streams k (some x) } }

/-- End what a stream has started but for the descriptor `uid`: the pre-empted with `PREEMPTED`, the rest with `KILLED`
(R343). -/
def State.endStarted (s : State) (k uid : Nat) : State :=
  ((s.descsOf k).filter (fun y => y.started && y.uid != uid)).foldl (fun s y =>
    if y.st == .preempted then s.killDesc y stPreempted 0 else s.killDesc y stKilled 0x15) s

/-- Reset a stream (R343): running descriptors end with `KILLED`, pre-empted ones with `PREEMPTED`, unstarted ones
without a record, and the stream's objects become `ABANDONED`. -/
def State.scrubStream (s : State) (uid : Nat) : State :=
  match s.desc uid with
  | none => s
  | some d =>
    let j := fld (d.w 0x14) 0 12
    let k := fld (d.w 0x18) 0 14
    if !d.due 8 || fld (d.w 0x10) 0 2 != 1 then s
    else match s.targetStream uid k with
      | (s, .wait) => s
      | (s, .stop _) => s.conclude uid stSecurity 0 127
      | (s, .ok x) =>
        if (if d.job == 0 then j == 0 else j != d.job) || !x.valid || x.job != j then s.conclude uid stSecurity 0 127
        else ((((s.holdStream k x).endStarted k uid).abandonStream k).conclude uid stOK 0 127).resetStream k

/-- `RESET_STREAM` (R343). -/
def execResetStream (d : Nat) (s : State) : Host.Outcome State Fault Refusal := .next (s.scrubStream d)

/-- The end of a kill (R342): every core is clear and the job's objects are gone. -/
def State.jobKillDone (s : State) (j : Nat) : State :=
  match Tab.get none s.qm.jobs j with
  | none => s
  | some x =>
    let objs := s.kw.objs.any (fun e => match e.2 with
      | some o => o.job == j
      | none => false)
    if x.st != .killing then s
    else if s.qm.descs.any (fun d => s.jobOf d == j) then s
    else if objs then s.releaseJob j
    else if s.jobScrubbing j then s
    else
      let s : State := { s with qm := { s.qm with jobs := Tab.set none s.qm.jobs j (some { x with st := .killed, killTs := s.now }) } }
      (s.writeJob j).event { typ := 0x0009, job := j, pay := [(0x18, 8, x.killStart), (0x20, 4, x.killCores)] }

/-- `JOB_KILL_DONE` (R342). -/
def execJobKillDone (job : Nat) (s : State) : Host.Outcome State Fault Refusal := .next (s.jobKillDone job)

end Sys2Proof.Machine
end

