-- ==== Sys2Proof/Machine/Transactions.lean ====
section
/-!
DEFINITION. The die's open transactions: how an answer, a failure or the loss of a link ends one (R384, R394, R396,
R401, R422, R423, R454, R466, R467), and what becomes of packets that a failing port held.
-/

namespace Sys2Proof.Machine

open Sys2Proof

/-! ### Open transactions -/

/-- The open transaction of a tag that has had no answer. -/
def State.tx (s : State) (tag : Nat) : Option OpenTx :=
  match Tab.get none s.rdc.opens tag with
  | some o => if o.answered then none else some o
  | none => none

/-- Change the record of a tag. -/
def State.setTx (s : State) (tag : Nat) (o : Option OpenTx) : State :=
  { s with rdc := { s.rdc with opens := Tab.set none s.rdc.opens tag o } }

/-- A transaction is answered: its tag is free, or stays reserved after a second sending (R394). -/
def State.closeTx (s : State) (tag : Nat) (o : OpenTx) : State :=
  s.setTx tag (if o.resent then some { o with answered := true } else none)

/-- Change the transfer that a transaction belongs to: a command of a tile's core DMA, or a descriptor's transfer. -/
def State.onWork (s : State) (o : OpenTx) (f : QEntry → QEntry) : State :=
  if o.tile < Config.tiles then
    s.onTile o.tile (fun q => q.onDma (fun d => { d with q := d.q.map (fun e => if e.uid == o.uid then f e else e) }))
  else if o.tile == 127 then s.onDesc o.uid (fun d => { d with xfer := d.xfer.map f })
  else s

/-- A transfer that receives this answer stops when it is next looked at (log 12). -/
def QEntry.fail (e : QEntry) (ans : Nat) : QEntry := if 2 ≤ e.ans then e else { e with ans := ans }

/-- What a transaction was for ends with an answer code of `QEntry.ans`: 9 lost with a port, 8 unreachable, 7 poisoned
and so on. A synchronisation operation on a lost die's object ends with `OWNER_LOST` (R304), one lost with a port as a
port fault (R394, R467). -/
def State.failTx (s : State) (o : OpenTx) (ans : Nat) : State :=
  match o.src with
  | some x =>
    if ans == 7 then { s with sync := { s.sync with results := s.sync.results ++ [⟨x, 3, 0⟩] } }
    else
      match x with
      | .tile t => s.drawIn t causePortFault 127
      | .desc uid => s.hitDesc uid causePortFault 127
      | .defer _ _ => { s with sync := { s.sync with results := s.sync.results ++ [⟨x, 4, 0⟩] } }
      | .init _ => { s with sync := { s.sync with results := s.sync.results ++ [⟨x, 4, 0⟩] } }
      | .remote _ _ _ _ => s
      | .nobody => s
  | none => if o.tile == fetchTx then s.takeFetch o.pkt.tag ans [] else s.onWork o (fun e => e.fail ans)

/-- `SEQ` of the descriptor that a transaction works for. -/
def State.txSeq (s : State) (o : OpenTx) : Option Nat :=
  if o.tile < Config.tiles then some (s.tile o.tile).seq.seqNo
  else if o.tile == fetchTx then (if o.uid < Config.tiles then some (s.tile o.uid).seq.seqNo else none)
  else if o.tile == 126 || o.tile == initTx then none
  else (s.desc o.uid).map (·.seq)

/-- Whether a packet is one that its origin answers for: a request, write or sync operation of this die. -/
def State.ownRequest (s : State) (k : Packet) : Bool :=
  k.srcDie == s.pos && (k.cls == 0 || (k.cls == 2 && k.ptype != 2) || (k.cls == 3 && k.ptype == 0))

/-- The transaction that a request packet of this die belongs to. -/
def State.txOf (s : State) (k : Packet) : Option OpenTx :=
  if s.ownRequest k then
    match s.tx k.tag with
    | some o => if o.pkt.cls == k.cls && o.pkt.ptype == k.ptype && o.pkt.addr == k.addr then some o else none
    | none => none
  else none

/-- A request of this die will have no answer: its transaction ends. -/
def State.loseTx (s : State) (k : Packet) (ans : Nat) : State :=
  match s.txOf k with
  | some o => (s.setTx k.tag none).failTx o ans
  | none => s

/-- An invalidation message of this die is lost with a link: it is not sent again, and the write that it belongs to
ends as its own operation does (R394; log 20). -/
def State.loseInv (s : State) (k : Packet) : State :=
  if !(k.srcDie == s.pos && k.cls == 1 && (k.ptype == 6 || k.ptype == 7)) then s
  else
    match s.rdc.invs.find? (fun w => w.tag == k.tag) with
    | none => s
    | some w =>
      let hit := s.rdc.dues.filter (fun x => x.grp == w.grp)
      let s : State := { s with rdc := { s.rdc with
        invs := s.rdc.invs.filter (fun x => x.tag != w.tag), dues := s.rdc.dues.filter (fun x => x.grp != w.grp) } }
      hit.foldl (fun s x => if x.reply.isSome then s
        else s.failTx { OpenTx.posted with tile := x.tile, uid := x.uid } 9) s

/-! ### Routes of held packets (R382, R384) -/

/-- The port that a packet goes out on: a forwarded one leaves on an `ACROSS` port to its destination (R384). -/
def State.routeOf (s : State) (k : Packet) : Option Nat :=
  if toHost k then s.hostRoute k.cls k.addr
  else if k.srcDie == s.pos then s.route k.dstDie k.cls k.addr none
  else pickPort (s.portsTo (· == 2) k.dstDie) k.cls k.addr none

/-- A packet that cannot go on (R384): a request of this die is answered with reason 5, anything else is dropped. -/
def State.dropPacket (s : State) (k : Packet) : State := ((s.loseTx k 8).loseInv k).unreachable k

/-- Send a held packet by another route. -/
def State.resend (s : State) (k : Packet) : State :=
  match s.routeOf k with
  | some p =>
    let s : State := match s.txOf k with
      | some o => s.setTx k.tag (some { o with port := p })
      | none => s
    s.sendOn p k
  | none => s.dropPacket k

/-! ### The packets of a port that has gone down (R394, R467) -/

/-- Whether a packet is sent once more after link loss. -/
def repeats (k : Packet) : Bool := k.cls == 0 && (k.ptype == 0 || k.ptype == 1 || k.ptype == 3)

/-- Mark a transaction as sent once more; its tag is reserved. -/
def State.markResent (s : State) (k : Packet) : State :=
  match s.txOf k with
  | some o => s.setTx k.tag (some { o with resent := true, resentAt := s.now })
  | none => s

/-- An unacknowledged packet of a lost link. -/
def State.unackedLost (s : State) (k : Packet) (retry : Bool) : State :=
  if retry && repeats k && !(match s.txOf k with
    | some o => o.resent
    | none => false) then (s.markResent k).resend k
  else (s.loseTx k 9).loseInv k

/-- The `SEQ` values of the descriptors that lose a packet. -/
def State.lostSeqs (s : State) (ks : List Packet) (retry : Bool) : List Nat :=
  ((ks.filter (fun k => !(retry && repeats k))).filterMap (fun k => match s.txOf k with
    | some o => s.txSeq o
    | none => none)).eraseDups

/-- `FAULT_PORT` events for up to seven descriptors each (R467, R471). -/
def State.portFaultEvents (s : State) (p : Nat) : List Nat → Nat → State
  | _, 0 => s
  | [], _ => s
  | l, n + 1 =>
    let part := l.take 7
    let s : State := s.event { typ := 0x0102
                               pay := (0x18, 4, p + part.length * 2 ^ 8) ::
                                 ((List.range 7).zip (part ++ List.replicate 7 0)).map (fun x => (0x1C + 4 * x.1, 4, x.2)) }
    State.portFaultEvents s p (l.drop 7) n

/-- `FAULT_PORT`: the flag, and events that name the descriptors whose packets a port has lost (R467, R471). -/
def State.portFaults (s : State) (p : Nat) (seqs : List Nat) : State :=
  if seqs.isEmpty then s
  else ({ s with flt := { s.flt with port := true } }).portFaultEvents p seqs seqs.length

/-- What follows for the packets that a port held when it went down; `retry` says whether reads are sent again
(R394, R467). -/
def State.portPackets (s : State) (p : Nat) (unacked queue : List Packet) (retry : Bool) : State :=
  (queue.foldl State.resend
    (unacked.foldl (fun s k => s.unackedLost k retry) (s.portFaults p (s.lostSeqs unacked retry)))).settleInvs

end Sys2Proof.Machine
end

