-- ==== Sys2Proof/Machine/Loss.lean ====
section
/-!
DEFINITION. Isolation, loss of a die, loss of a stack and loss of a port (spec/14_windway_ports.md R394, R403, R404;
spec/15_package_assembly_and_identity.md R412, R414, R421 to R424; spec/11 R304).
-/

namespace Sys2Proof.Machine

open Sys2Proof

/-- Change what the die knows of its package. -/
def State.onPkg (s : State) (f : Pkg → Pkg) : State := { s with pkg := f s.pkg }

/-! ### Isolation (R412) -/

/-- A port whose transmit lanes are at electrical idle: it carries nothing and holds nothing. -/
def Port.idle (po : Port) (st : PortSt) : Port :=
  { po with
    st := st, l1 := false, version := 0, confOn := false, credits := [], freed := [], unacked := [], queue := []
    flitFails := 0, retrainReq := false, certOk := false, keyed := false, sentCount := 0, recvCount := 0, rekeying := false }

/-- Every port is driven to electrical idle. -/
def State.portsIdle (s : State) : State :=
  (List.range Config.ports).foldl (fun s p =>
    if (s.port p).st == .down || (s.port p).st == .isolated || (s.port p).st == .failed then s
    else s.onPort p (fun po => po.idle .down)) s

/-- Abandon all work as a kill does without the memory scrub (R412, R342): descriptors complete with `KILLED`, cores
are sealed, synchronisation objects follow R302, streams are reset. -/
def State.abandonAll (s : State) : State :=
  let s : State := (s.qm.descs.filter (fun d => d.started)).foldl (fun s d => s.killDesc d stKilled 0x15) s
  let used := s.tiles.filter (fun e => e.2.seq.phase != .idle || e.2.spad.owner.isSome)
  let s : State := used.foldl (fun s e =>
    let s : State := ((s.abandonTile e.1).sealTile e.1 2)
    s.onTile e.1 Tile.wipe) s
  let s : State := ((s.sync.objs.map (fun e => e.2.job)).eraseDups).foldl (fun s j => s.freeJobObjs j) s
  s.qm.streams.keys.foldl (fun s k => s.resetStream k) s

/-- The die isolates itself, and stays so until SRST (R412). -/
def State.isolateNow (s : State) : State :=
  ((s.abandonAll).portsIdle).onPkg (fun k => { k with isolated := true, alertN := true })

/-- `DIE_ISOLATED` with a cause, then isolation (R412, R426). -/
def State.isolate (s : State) (cause : Nat) : State :=
  if s.pkg.isolated then s else (s.event { typ := 0x0284, pay := [(0x18, 4, cause)] }).isolateNow

/-! ### `ADMIT` packets (R414) -/

/-- The 32 bytes of an `ADMIT` block. -/
def admitBytes (op subject level reason : Nat) (caps : List Nat) (members mepoch ts : Nat) : List Byte :=
  [BitVec.ofNat 8 op, BitVec.ofNat 8 subject, BitVec.ofNat 8 level, BitVec.ofNat 8 reason]
  ++ (List.range 4).flatMap (fun i => leBytes 4 (caps[i]?.getD 0))
  ++ [BitVec.ofNat 8 members, 0] ++ leBytes 2 mepoch ++ leBytes 8 ts

/-- Send an `ADMIT` to a die. -/
def State.sendAdmit (s : State) (d op subject level reason : Nat) (caps : List Nat) : State :=
  s.send d (withData (s.packet 4 8 d 123)
    (admitBytes op subject level reason caps s.pkg.members s.pkg.mepoch s.now)) none

/-- Send a `LOST` that names `d` to some dies, with the membership that follows (R414, R422). -/
def State.sendLost (s : State) (d : Nat) (ms : List Nat) : State :=
  ms.foldl (fun s m => s.send m (withData (s.packet 4 8 m 123)
    (admitBytes 4 d 0 0 [] (putBits s.pkg.members d 1 0) ((s.pkg.mepoch + 1) % 65536) s.now)) none) s

/-- Members that this die can reach: itself, and those that some port leads toward (R384, R424). -/
def State.reaches (s : State) (d : Nat) : Bool := d == s.pos || (s.route d 4 0 none).isSome
/-- Other members that an `UP` port of this die leads to. -/
def State.neighbours (s : State) : List Nat :=
  (bitList s.pkg.members 8).filter (fun d => d != s.pos && !(s.portsTo isDieRole d).isEmpty)

/-! ### Loss of a die (R304, R421 to R424) -/

/-- Drop the packets that wait to go to a die. -/
def State.dropToward (s : State) (d : Nat) : State :=
  { s with ports := s.ports.map (fun e => (e.1, { e.2 with queue := e.2.queue.filter (fun k => toHost k || k.dstDie != d) })) }

/-- End the requests that are outstanding to a die (R423, R465; log 12): accesses to its package memory as poisoned,
operations on its objects with `OWNER_LOST`, anything else as unreachable. -/
def State.loseRequests (s : State) (d : Nat) : State :=
  let hit := s.rdc.opens.filterMap (fun e => match e.2 with
    | some o => if !o.answered && !toHost o.pkt && o.pkt.dstDie == d then some (e.1, o) else none
    | none => none)
  hit.foldl (fun s x =>
    let k := x.2.pkt
    let mem := (k.cls == 0 && k.ptype == 0) || (k.cls == 2 && (k.ptype == 0 || k.ptype == 3)) || k.cls == 3
    (s.setTx x.1 none).failTx x.2 (if mem then 7 else 8)) s

/-- Granules of this die's own objects and of held translations that are homed on stacks which satisfy `f`, apart from
those that a lost die owns. -/
def State.granulesOn (s : State) (f : Nat → Bool) : List Nat :=
  let own := s.kw.objs.flatMap (fun e => match e.2 with
    | some o => ((List.range o.homes.length).zip o.homes).filterMap (fun p =>
        if f p.2 then some (o.pbase / granuleBytes + p.1) else none)
    | none => [])
  let other := s.kw.xlate.filterMap (fun e => match e.2 with
    | some x => if f x.stack then some e.1 else none
    | none => none)
  own ++ other

/-- Mark granules as poisoned (R421, R423); marks are kept in ascending order without repeats. -/
def State.poisonGranules (s : State) (gs : List Nat) : State :=
  s.onPkg (fun k => { k with poison := ((k.poison ++ gs).eraseDups).mergeSort (fun a b => decide (a ≤ b)) })

/-- Barriers that a lost die takes part in, or whose package root it held, become `LOST` (R304). -/
def State.loseBarriers (s : State) (d : Nat) : State :=
  s.sync.bars.foldl (fun s e => match e.2 with
    | some b =>
      if b.st != 3 && (b.dieMask.testBit d || (!b.dieWide && s.leader == d)) then
        let s : State := if fld (BitVec.ofNat 32 e.1) 16 8 == s.pos then
            s.setObj (e.1 % 65536) { s.obj (e.1 % 65536) with st := 3 }
          else s
        s.breakBar e.1 3 3
      else s
    | none => s) s

/-- `MEMBERS` and `MEPOCH` as an event carries them (R426). -/
def Pkg.word (k : Pkg) : Nat := k.members + k.mepoch * 2 ^ 16

/-- Whether this die's part of the package stays in service after a loss (R424): it reaches more than half of the
members before, or half with the lowest position, and it is not in holdover. -/
def State.keepsMajority (s : State) (before : Nat) : Bool :=
  let r := (bitList before 8).filter (fun d => s.reaches d && !s.pkg.lostSeen.testBit d)
  let n := popCount before 8
  (decide (n < 2 * r.length) || (2 * r.length == n && (match lowestBit before 8 with
    | some l => r.contains l
    | none => false)))
  && !s.pkg.holdover

/-- Act on the loss of a member (R423, R424), of which the first `LOST` is stamped `ts`; a loss that has been acted on is
ignored (R422). -/
def State.loseDie (s : State) (d ts : Nat) : State :=
  if d == s.pos || !s.pkg.members.testBit d || s.pkg.lostSeen.testBit d then s
  else
    let before := s.pkg.members
    let s : State := (s.dropToward d).loseRequests d
    let s : State := ({ s with rdc := { s.rdc with
      invs := s.rdc.invs.filter (fun w => w.die != d)
      lines := s.rdc.lines.filter (fun e => match s.homeStack (e.1 * 256) with
        | some k => k / 4 != d
        | none => false)
      sharers := (s.rdc.sharers.map (fun (e : Nat × Nat) => (e.1, e.2 - bit1 (e.2.testBit d) * 2 ^ d))).filter (fun (e : Nat × Nat) => e.2 != 0) } }).settleInvs
    let s : State := (s.poisonGranules (s.granulesOn (fun k => k / 4 == d))).onPkg (fun k => { k with lostSeen := k.lostSeen + 2 ^ d })
    let s : State := ((s.loseBarriers d).dropSrcs (fun x => match x with
      | .remote d' _ _ _ => d' == d
      | _ => false)).abandonObjs (fun o => o.ownerDie == d)
    let s : State := s.onPkg (fun k => { k with members := k.members - 2 ^ d, mepoch := (k.mepoch + 1) % 65536 })
    let s : State := ({ s with flt := { s.flt with dieLost := true } }).event
      { typ := 0x0282, pay := [(0x18, 4, d), (0x1C, 4, s.pkg.word), (0x20, 8, ts)] }
    let s : State := if s.pkg.leader == d then
        let l := (lowestBit s.pkg.members 8).getD s.pos
        (s.onPkg (fun k => { k with leader := l })).event { typ := 0x0283, pay := [(0x18, 4, d + l * 2 ^ 8)] }
      else s
    if s.keepsMajority before then s else s.isolate 2

/-- Tell the leader and every member within reach that a die is lost (R422). -/
def State.tellLost (s : State) (d : Nat) : State :=
  s.sendLost d ((bitList s.pkg.members 8).filter (fun m => m != s.pos && m != d && s.reaches m))

/-! ### Loss of a stack (R383, R421) -/

/-- A local stack none of whose ports is `UP` is lost (R421). -/
def State.loseStack (s : State) (k : Nat) : State :=
  if s.stackUp k || s.pkg.stackLost.testBit k then s
  else
    let gs := s.granulesOn (fun x => x == 4 * s.pos + k)
    let s : State := (s.poisonGranules gs).onPkg (fun x => { x with stackLost := x.stackLost + 2 ^ k })
    let s : State := s.event { typ := 0x0285, pay := [(0x18, 4, k), (0x1C, 4, gs.length)] }
    if s.kw.ready && (fld s.kw.coreBase 0 2 == k || fld s.kw.objBase 0 2 == k) then s.isolate 3 else s

/-! ### A port goes down (R394, R403, R404) -/

/-- What the loss of a link means for the package: other ports to the same die make it a port fault only; the last
port of a die or of a stack loses that (R394, R421, R422). -/
def State.afterFall (s : State) (p : Nat) (wasUp : Bool) : State :=
  let d := (s.port p).peerPos
  if !wasUp then s
  else if s.role p == 0 then
    (if s.stackUp (s.lstack p) then { s with flt := { s.flt with port := true } } else s.loseStack (s.lstack p))
  else if isDieRole (s.role p) then
    (if !(s.portsTo isDieRole d).isEmpty then { s with flt := { s.flt with port := true } }
     else if s.pkg.members.testBit d && !s.pkg.lostSeen.testBit d then (s.tellLost d).loseDie d s.now else s)
  else { s with flt := { s.flt with port := true } }

/-- What a port that has gone down held, and what its loss means (R394). -/
def State.portDrop (s : State) (p : Nat) (old : Port) (retry : Bool) : State :=
  let s : State := s.afterFall p (old.st == .up || old.st == .retraining)
  let stays := fun (k : Packet) => toHost k || !s.pkg.lostSeen.testBit k.dstDie
  if s.pkg.isolated then s else s.portPackets p (old.unacked.filter stays) (old.queue.filter stays) retry

/-- A port goes down as on link loss, with a cause of `PORT_DOWN` (R406); `retry` says whether unacknowledged reads are
sent once more, `st` where the port goes. -/
def State.portFall (s : State) (p cause : Nat) (retry : Bool) (st : PortSt) : State :=
  let old := s.port p
  let s : State := s.onPort p (fun po => { po.idle st with linkLoss := true })
  (s.event { typ := 0x0201, pay := [(0x18, 4, p), (0x1C, 4, cause)] }).portDrop p old retry

end Sys2Proof.Machine
end

