-- ==== Sys2Proof/Machine/Ports.lean ====
section
/-!
DEFINITION. The ports: lanes and repair, training, capability exchange and admission, keys, retraining, link loss, L1,
keep-alive and credits (spec/14_windway_ports.md R380 to R406; spec/19_onjan_security.md R498 to R500).

What the wire and the cryptographic engines find out (which lane positions and rates pass, whether a certificate or a
signature verifies, why a link is lost) comes with the command.
-/

namespace Sys2Proof.Machine

open Sys2Proof

/-- A field of `PORT_CTRL` (R404). -/
def State.pctl (s : State) (p lo len : Nat) : Nat := s.rfld (0x1000 + 0x40 * p) lo len
/-- `EN`. -/
def State.portEn (s : State) (p : Nat) : Bool := s.pctl p 0 1 == 1

/-! ### Lane maps (R385 to R387) -/

/-- Positions that a map retires. -/
def retired (map : Word) : List Nat := (List.range 4).map (fun i => fld map (7 * i) 7)

/-- Positions that carry the logical lanes 0 to 63 under a map (R385). -/
def inService (map : Word) : List Nat := ((List.range 68).filter (fun i => !(retired map).contains i)).take 64

/-- The map that retires these positions. -/
def mapOf (ret : List Nat) : Word :=
  BitVec.ofNat 32 (((List.range 4).map (fun i => (ret[i]?.getD 0x7F) * 2 ^ (7 * i))).foldl (· + ·) 0)

/-- Whether `n` logical lanes from `lo` on lie on positions in `pass` under a map (R385). -/
def lanesPass (map : Word) (pass lo n : Nat) : Bool :=
  let l := ((inService map).drop lo).take n
  l.length == n && l.all (fun i => pass.testBit i)

/-- The map that retires the positions from `lo` on that fail before `n` of them have passed; only four can be retired. -/
def repairMap (pass lo n : Nat) : Word :=
  let ok := (List.range 68).filter (fun i => decide (lo ≤ i) && pass.testBit i)
  mapOf ((List.range (ok[n - 1]?.getD 0)).filter (fun i => decide (lo ≤ i) && !pass.testBit i))

/-- The lane map and width that training chooses when the positions in `pass` pass: the present map if it is whole,
else x64 on the first 64 passing positions, else x32 on the lower or the upper half (R386, R387). Answers the map, x32,
and the half. -/
def chooseMap (map : Word) (pass : Nat) : Option (Word × Bool × Bool) :=
  [(map, false, false), (repairMap pass 0 64, false, false), (repairMap pass 0 32, true, false),
    (repairMap pass 32 32, true, true)].find?
    (fun c => lanesPass c.1 pass (if c.2.2 then 32 else 0) (if c.2.1 then 32 else 64))

/-- The highest rate up to a maximum at which every lane in service passes (R388). -/
def chooseRate (maxRate rates : Nat) : Option Nat :=
  [2, 1, 0].find? (fun r => decide (r ≤ maxRate) && rates.testBit r)

/-! ### Capability blocks (R390, R391) -/

/-- Whether this die required confidentiality on a port when its training began (R404). -/
def State.confReq (s : State) (p : Nat) : Bool := bitAt (s.port p).ctl 4

/-- The capability block that this die sends. The spec gives no value for its `PART_ID`: a free value (log 1). -/
def State.capsBytes (s : State) (p : Nat) : List Byte :=
  leBytes 4 (s.rfld 0x0010 8 8 + s.role p * 2 ^ 12 + s.pos * 2 ^ 16 + p * 2 ^ 24) ++ leBytes 4 (s.fv 0).toNat
  ++ leBytes 4 (256 + 1024 * 2 ^ 16) ++ leBytes 4 (1024 + 128 * 2 ^ 16)
  ++ leBytes 4 (128 + s.rfld 0x0014 4 1 * 2 ^ 16 + bit1 (s.confReq p) * 2 ^ 17 + 2 ^ 18)
  ++ leBytes 4 (s.reg 0x0010).toNat ++ leBytes 4 (s.reg 0x0014).toNat ++ leBytes 8 0 ++ List.replicate 28 0

/-- Put a packet on the link of a port that is not `UP` yet. -/
def State.sendRaw (s : State) (p : Nat) (k : Packet) : State :=
  s.onPort p (fun po => { po with
    unacked := po.unacked ++ [k]
    credits := if creditFree k then po.credits else Tab.mod 0 po.credits k.cls (· - packetUnits k) })

/-- Send the capability block. -/
def State.sendCaps (s : State) (p : Nat) : State :=
  (s.sendRaw p (withData (s.packet 4 0 (s.port p).peerPos 123) (s.capsBytes p))).tick

/-- A little-endian field of a packet's data. -/
def pktLE (k : Packet) (off n : Nat) : Nat := leNat ((k.data.drop off).take n)

/-- The reason for which a partner's capability block is refused, 0 for none (R390, R391, R399). -/
def State.capsReason (s : State) (p : Nat) (k : Packet) : Nat :=
  let w0 := pktLE k 0 4
  let kind := bitsOf w0 8 4
  let role := s.role p
  let kindOk := if role == 0 then kind == 2 else if role == 3 then kind == 1
    else (kind == 0 || kind == 3) && bitsOf w0 12 3 == role
  let need := s.confReq p || (pktLE k 0x10 4).testBit 17
  if !kindOk then 1
  else if bitsOf w0 0 8 == 0 then 2
  else if decide (pktLE k 8 2 < 64) || decide (pktLE k 10 2 < 256) || decide (pktLE k 12 2 < 256)
      || decide (pktLE k 14 2 < 32) || decide (pktLE k 16 2 < 32) then 3
  else if need && !(pktLE k 0x10 4).testBit 16 then 4
  else 0

/-- Record the partner: identity, version and credits (R390, R391). -/
def State.takeCaps (s : State) (p : Nat) (k : Packet) : State :=
  let w0 := pktLE k 0 4
  let v := if bitAt (s.port p).ctl 6 then 1 else min (s.rfld 0x0010 8 8) (bitsOf w0 0 8)
  s.onPort p (fun po => { po with
    version := v, peerKind := bitsOf w0 8 4, peerRole := bitsOf w0 12 3, peerPos := bitsOf w0 16 8
    peerPort := bitsOf w0 24 6, peerPart := pktLE k 4 4, peerL1 := (pktLE k 0x10 4).testBit 18, freed := []
    credits := (List.range 5).foldl (fun t c => Tab.set 0 t c (pktLE k (8 + 2 * c) 2)) [] })

/-- The value of `PORT_PEER_ID` (R404). -/
def Port.peerId (po : Port) : Nat := po.peerKind + po.peerRole * 2 ^ 4 + po.peerPos * 2 ^ 8 + po.peerPort * 2 ^ 16

/-- The port enters `UP` (R391): the event, and what waited to be sent. A stack that has a port again is not lost for
the ports' part; its granules stay poisoned (R421). The first `HOST` port ends boot step 7 (R443). -/
def State.portUp (s : State) (p : Nat) (conf : Bool) : State :=
  let s : State := s.onPort p (fun po => { po with
    st := .up, confOn := conf, retrainReq := false, lastSent := s.now, lastRecv := s.now, lastBusy := s.now })
  let s : State := if s.role p == 0 then
      s.onPkg (fun k => { k with stackLost := putBits k.stackLost (s.lstack p) 1 0 })
    else s
  let s : State := if s.mgmt.stage == 7 && s.role p == 3 then { s with mgmt := { s.mgmt with stage := 8 } } else s
  let po := s.port p
  (s.event { typ := 0x0200, pay := [(0x18, 4, p + po.rate * 2 ^ 8 + bit1 po.x32 * 2 ^ 10 + po.version * 2 ^ 11), (0x1C, 4, po.peerId)] }).onPort p (fun po => po.flushAt s.now)

/-! ### Training (R386 to R389) -/

/-- The boot step from which a port may train (R443). -/
def State.mayTrain (s : State) (p : Nat) : Bool :=
  bitAt (s.reg 0x0008) 31 && s.role p != 7 && s.portEn p && !s.pkg.isolated && s.clocked && s.mgmt.stage ≤ 11
  && decide ((if s.role p == 3 then 7 else 9) ≤ s.mgmt.stage)

/-- Begin training. -/
def State.beginTraining (s : State) (p : Nat) : State :=
  s.onPort p (fun po => { po with
    st := .training, linkReset := false, trainStart := s.now, tried := some s.now, ctl := s.reg (0x1000 + 0x40 * p) })

/-- Whether a port in `DOWN` may try to train: 10 ms after its latest attempt (R389). -/
def State.tryDue (s : State) (p : Nat) : Bool :=
  match (s.port p).tried with
  | some t => decide (t + 10 ^ 7 ≤ s.now)
  | none => true

/-- A port in `DOWN` tries again; `ok` says whether a partner with supported options answers on the sideband (R380,
R389). -/
def State.trainRetry (s : State) (p : Nat) (ok : Bool) : State :=
  if (s.port p).st == .down && s.mayTrain p && s.tryDue p then
    (if ok then s.beginTraining p else s.onPort p (fun po => { po with tried := some s.now }))
  else s

/-- `PORT_TRAIN_RETRY` (R389). -/
def execPortTrainRetry (p : Nat) (ok : Bool) (s : State) : Host.Outcome State Fault Refusal :=
  onUnit (isPort p) p (s.trainRetry p ok)

/-- An aborted port test: a training, retraining or loss of the port under test (R522). -/
def State.abortPortTest (s : State) (p : Nat) : State :=
  if s.tst.ptBusy && s.tst.ptPort == p then { s with tst := { s.tst with ptBusy := false, ptErr := true } } else s

/-- Write the map in service back, with its event when it changes (R386). -/
def State.putMap (s : State) (p : Nat) (map : Word) : State :=
  let old := s.reg (0x100C + 0x40 * p)
  if map == old then s
  else (s.setReg (0x100C + 0x40 * p) map).event
    { typ := 0x0205, pay := [(0x18, 4, p), (0x1C, 4, old.toNat), (0x20, 4, map.toNat)] }

/-- Training ends (R386 to R389): `pass` holds the lane positions that pass, `rates` the rates at which every lane in
service passes. Without a whole width and rate the port enters `FAILED`. -/
def State.trainingDone (s : State) (p pass rates : Nat) : State :=
  let po := s.port p
  if !(po.st == .training || po.st == .retraining) then s
  else
    let s : State := (s.abortPortTest p).onPort p (fun po => { po with retrains := min 65535 (po.retrains + 1) })
    match chooseMap (s.reg (0x100C + 0x40 * p)) pass, chooseRate (min 2 (fld po.ctl 2 2)) rates with
    | some (map, x32, half), some r =>
      let s : State := (s.putMap p map).onPort p (fun po => { po with
        rate := r, x32 := x32, half := half, st := if po.st == .training then .exchange else .retraining, lastRecv := s.now })
      s.sendCaps p
    | _, _ => if po.st == .retraining then s.portFall p 6 true .failed else s.onPort p (fun po => po.idle .failed)

/-- `PORT_TRAINING_DONE` (R388). -/
def execPortTrainingDone (p pass rates : Nat) (s : State) : Host.Outcome State Fault Refusal :=
  onUnit (isPort p) p (s.trainingDone p pass rates)

/-! ### Keys (R498 to R500) -/

/-- Bytes of a `KEY` block; keys, signatures and nonces are what Onjan's engines make them (log 4). -/
def State.keyBytes (s : State) (op epoch len : Nat) : List Byte :=
  ([BitVec.ofNat 8 op, 0] ++ leBytes 2 epoch ++ leBytes 4 (s.reg 0x0000).toNat ++ leBytes 4 (s.reg 0x0004).toNat ++ leBytes 4 0
    ++ (List.range (if op == 3 then 0 else 192)).map (fun i => Config.outsideByte s.free (2 ^ 52 + i)) ++ [0, 0, 0, 0]
    ++ (List.range (if op == 1 then 32 else 0)).map (fun i => Config.outsideByte s.free (2 ^ 52 + 256 + i))
    ++ List.replicate 256 0).take len

/-- Send this die's `CERT` and `OFFER` (R498). -/
def State.sendKeys (s : State) (p epoch : Nat) : State :=
  let k := s.packet 4 7 (s.port p).peerPos 123
  let put := fun (s : State) (k : Packet) => if (s.port p).st == .up then s.sendOn p k else s.sendRaw p k
  (put (put s (withData k (s.keyBytes 1 epoch 256))) (withData k (s.keyBytes 2 epoch 224))).tick

/-- Key exchange fails: the port is isolated (R499). -/
def State.kexFail (s : State) (p reason : Nat) : State :=
  let old := s.port p
  let s : State := s.onPort p (fun po => po.idle .isolated)
  (s.event { typ := 0x0404, pay := [(0x18, 4, p), (0x1C, 4, reason)] }).portDrop p old true

/-- Whether an exchange is under way on a port that Onjan serves (R492, R508). -/
def State.kexOpen (s : State) (p : Nat) : Bool :=
  ((s.port p).st == .admitWait || ((s.port p).st == .up && (s.port p).rekeying))
  && s.sec.life != .retired && s.sec.idKey && !s.sec.zeroise

/-- Whether an integrator key is fused (R493). -/
def State.fused (s : State) (lo hi : Nat) : Bool :=
  ((List.range (hi - lo)).map (· + lo)).any (fun i => Tab.get 0 s.fuses i != 0)

/-- Begin to rekey a port (R500). -/
def State.rekey (s : State) (p : Nat) : State :=
  let po := s.port p
  if !s.sec.rngOk then s.kexFail p 4
  else (s.onPort p (fun po => { po with rekeying := true, certOk := false })).sendKeys p ((po.keyEpoch + 1) % 65536)

/-- A partner's `CERT` (R499); `ok` says whether it verifies under the CA that it names. One that comes on an `UP` port is
the partner's repetition of the exchange, which this die joins (R500). -/
def State.keyCert (s : State) (p : Nat) (k : Packet) (ok : Bool) : State :=
  let ca := pktLE k 208 1
  let s : State := if (s.port p).st == .up && (s.port p).confOn && !(s.port p).rekeying && pktLE k 0 1 == 1 then s.rekey p else s
  if !s.kexOpen p || pktLE k 0 1 != 1 then s
  else if !s.sec.rngOk then s.kexFail p 4
  else if !ok || decide (2 ≤ ca) || (ca == 1 && !s.fused 0x120 0x138) then s.kexFail p 1
  else s.onPort p (fun po => { po with certOk := true, ca := ca })

/-- A partner's `OFFER` (R499, R500): with a signature that verifies the keys are installed; a port in `ADMIT_WAIT` goes
`UP`, a rekeying one sends `SWITCH` and uses the new key from then on. -/
def State.keyOffer (s : State) (p : Nat) (k : Packet) (ok : Bool) : State :=
  let po := s.port p
  if !s.kexOpen p || pktLE k 0 1 != 2 || !po.certOk then s
  else if !s.sec.rngOk then s.kexFail p 4
  else if !ok then s.kexFail p 2
  else if po.st == .admitWait then
    (s.onPort p (fun po => { po with keyed := true, certOk := false, keyEpoch := 0, sentCount := 0, recvCount := 0 })).portUp p true
  else
    let e := (po.keyEpoch + 1) % 65536
    let s : State := s.sendOn p (withData (s.packet 4 7 po.peerPos 123) (s.keyBytes 3 e 32))
    s.onPort p (fun po => { po with keyEpoch := e, certOk := false, sentCount := 0 })

/-- The partner's `SWITCH` (R500): the receive key changes and the rekey has ended. -/
def State.keySwitch (s : State) (p : Nat) (k : Packet) : State :=
  let po := s.port p
  if !(po.st == .up && po.rekeying) || pktLE k 0 1 != 3 then s
  else (s.onPort p (fun po => { po with rekeying := false, recvCount := 0 })).event
    { typ := 0x0405, pay := [(0x18, 4, p), (0x1C, 4, po.keyEpoch)] }

/-- Whether the key exchange of a port is over time: 100 ms at admission, a packet count of 2⁴⁸ for a rekey (R499, R500). -/
def State.kexLate (s : State) (p : Nat) : Bool :=
  let po := s.port p
  (po.st == .admitWait && decide (po.kexStart + 10 ^ 8 ≤ s.now))
  || (po.st == .up && po.rekeying && decide (2 ^ 48 ≤ max po.sentCount po.recvCount))

/-- A key exchange has not ended within 100 ms, or a rekey before a packet count reaches 2⁴⁸ (R499, R500). -/
def State.kexTimeout (s : State) (p : Nat) : State := if s.kexLate p then s.kexFail p 3 else s

/-- `KEX_TIMEOUT` (R499). -/
def execKexTimeout (p : Nat) (s : State) : Host.Outcome State Fault Refusal := onUnit (isPort p) p (s.kexTimeout p)

/-- A packet count reaches 2⁴⁷ and the exchange is repeated (R500). -/
def State.rekeyStart (s : State) (p : Nat) : State :=
  let po := s.port p
  if po.st == .up && po.confOn && !po.rekeying && decide (2 ^ 47 ≤ max po.sentCount po.recvCount) then
    s.rekey p
  else s

/-- `REKEY_START` (R500). -/
def execRekeyStart (p : Nat) (s : State) : Host.Outcome State Fault Refusal := onUnit (isPort p) p (s.rekeyStart p)

/-! ### Admission (R390, R391, R393) -/

/-- A partner is refused: the port returns to `DOWN` (R391). -/
def State.refusePartner (s : State) (p reason : Nat) : State :=
  let s : State := if (s.port p).st == .retraining then s.portFall p 3 true .down else s.onPort p (fun po => po.idle .down)
  (s.onPort p (fun po => { po with admitErr := true })).event
    { typ := 0x0203, pay := [(0x18, 4, p), (0x1C, 4, reason)] }

/-- The partner's `CAPS` (R390, R391, R393): it is admitted or refused. A retraining after which confidentiality applies as it
did not before, or no longer applies, ends as an admission does (R404). -/
def State.caps (s : State) (p : Nat) (k : Packet) : State :=
  let po := s.port p
  if !(po.st == .exchange || po.st == .retraining) then s
  else
    let s : State := s.onPort p (fun po => { po with lastRecv := s.now })
    let r := s.capsReason p k
    if r != 0 then s.refusePartner p r
    else
      let conf := s.confReq p || (pktLE k 0x10 4).testBit 17
      let s : State := s.takeCaps p k
      if po.st == .retraining && conf == po.confOn then
        let s : State := s.onPort p (fun po => { po with st := .up, retrainReq := false })
        (s.event { typ := 0x0202, pay := [(0x18, 4, p), (0x20, 8, s.now - po.trainStart)] }).onPort p (fun po => po.flushAt s.now)
      else if conf then
        (s.onPort p (fun po => { po with st := .admitWait, kexStart := s.now, confOn := false, certOk := false })).sendKeys p 0
      else s.portUp p false

/-- `CAPS` (R391). -/
def execCaps (p : Nat) (k : Packet) (s : State) : Host.Outcome State Fault Refusal := onUnit (isPort p) p (s.caps p k)

/-! ### Driver requests (R393, R403, R404) -/

/-- A write of `EN` (R404): 0 takes the port down at once; a later 1 lets a failed port train again. -/
def State.portEnWrite (s : State) (p : Nat) (en : Bool) : State :=
  let s : State := (s.setFld (0x1000 + 0x40 * p) 0 1 (bit1 en)).onPort p (fun po => if en then po else { po with tried := none })
  let st := (s.port p).st
  if en || st == .down || st == .isolated then s
  else if st == .failed then s.onPort p (fun po => po.idle .down)
  else (s.abortPortTest p).portFall p 5 false .down

/-- `PORT_EN` (R404). -/
def execPortEn (p : Nat) (en : Bool) (s : State) : Host.Outcome State Fault Refusal := onUnit (isPort p) p (s.portEnWrite p en)

/-- Begin to retrain an `UP` port, which first sends what it holds (R393). -/
def State.beginRetrain (s : State) (p : Nat) : State :=
  (s.abortPortTest p).onPort p (fun po =>
    { { po with l1 := false }.flushAt s.now with
      st := .retraining, trainStart := s.now, ctl := s.reg (0x1000 + 0x40 * p), winReplays := 0 })

/-- A write of `RETRAIN` (R393, R404). -/
def State.retrain (s : State) (p : Nat) : State :=
  match (s.port p).st with
  | .up => (s.beginRetrain p).onPort p (fun po => { po with retrainReq := true })
  | .isolated =>
    if s.mayTrain p then (s.beginTraining p).onPort p (fun po => { po with retrainReq := true }) else s
  | _ => s

/-- `PORT_RETRAIN` (R393). -/
def execPortRetrain (p : Nat) (s : State) : Host.Outcome State Fault Refusal := onUnit (isPort p) p (s.retrain p)

/-- Replays in the present 1 ms window exceed `ERR_LIMIT` (R393). -/
def State.errLimit (s : State) (p : Nat) : State :=
  let po := s.port p
  if po.st == .up && s.pctl p 8 8 != 0 && decide (s.pctl p 8 8 < po.winReplays) then s.beginRetrain p else s

/-- `ERR_LIMIT_RETRAIN` (R393). -/
def execErrLimitRetrain (p : Nat) (s : State) : Host.Outcome State Fault Refusal := onUnit (isPort p) p (s.errLimit p)

/-- A retraining has not ended within 500 µs (R393). -/
def State.retrainTimeout (s : State) (p : Nat) : State :=
  if (s.port p).st == .retraining && decide ((s.port p).trainStart + 500000 ≤ s.now) then s.portFall p 6 true .down else s

/-- `RETRAIN_TIMEOUT` (R393). -/
def execRetrainTimeout (p : Nat) (s : State) : Host.Outcome State Fault Refusal := onUnit (isPort p) p (s.retrainTimeout p)

/-- A write of `ISOLATE` (R404). -/
def State.portIsolate (s : State) (p : Nat) : State :=
  match (s.port p).st with
  | .isolated => s
  | .down => s.onPort p (fun po => po.idle .isolated)
  | .failed => s.onPort p (fun po => po.idle .isolated)
  | _ => (s.abortPortTest p).portFall p 5 false .isolated

/-- `PORT_ISOLATE` (R404). -/
def execPortIsolate (p : Nat) (s : State) : Host.Outcome State Fault Refusal := onUnit (isPort p) p (s.portIsolate p)

/-! ### The link (R393 to R395, R399) -/

/-- The partner signals a retrain on the sideband (R393). -/
def State.sidebandRetrain (s : State) (p : Nat) : State := if (s.port p).st == .up then s.beginRetrain p else s

/-- `SIDEBAND_RETRAIN` (R393). -/
def execSidebandRetrain (p : Nat) (s : State) : Host.Outcome State Fault Refusal := onUnit (isPort p) p (s.sidebandRetrain p)

/-- Whether a port is linked, so that flits pass. -/
def Port.linked (po : Port) : Bool :=
  po.st == .exchange || po.st == .admitWait || po.st == .up || po.st == .retraining

/-- A flit is replayed (R393, R394): counted in total, in the 1 ms window and for the flit itself. -/
def State.flitReplay (s : State) (p : Nat) : State :=
  if !(s.port p).linked then s
  else
    let w := s.now / 10 ^ 6 * 10 ^ 6
    s.onPort p (fun po => { po with
      lastRecv := s.now, replays := satAdd po.replays 1, flitFails := po.flitFails + 1, winStart := w
      winReplays := if po.winStart == w then po.winReplays + 1 else 1 })

/-- `FLIT_REPLAY` (R394). -/
def execFlitReplay (p : Nat) (s : State) : Host.Outcome State Fault Refusal := onUnit (isPort p) p (s.flitReplay p)

/-- The `n` oldest packets on the link have been acknowledged (R394). -/
def State.linkAck (s : State) (p n : Nat) : State :=
  if (s.port p).linked then s.onPort p (fun po => { po with unacked := po.unacked.drop n, flitFails := 0, lastRecv := s.now }) else s

/-- `LINK_LEVEL_ACK` (R394). -/
def execLinkLevelAck (p n : Nat) (s : State) : Host.Outcome State Fault Refusal := onUnit (isPort p) p (s.linkAck p n)

/-- A port that has had nothing to send for 500 ns sends a `KEEPALIVE` (R394, R395). -/
def State.keepalive (s : State) (p : Nat) : State :=
  let po := s.port p
  if po.st == .up && !po.l1 && po.queue.isEmpty && decide (po.lastSent + 500 ≤ s.now) then s.sendOn p (s.packet 4 2 po.peerPos (72 + p)) else s

/-- `KEEPALIVE_SEND` (R394). -/
def execKeepaliveSend (p : Nat) (s : State) : Host.Outcome State Fault Refusal := onUnit (isPort p) p (s.keepalive p)

/-- The port declares link loss (R394, R395), with a cause of `PORT_DOWN`: 1 silence, 2 replay limit, 3 partner, 4
clock. In L1 only the partner's signal counts, or an exit that fails (cause 3); in a retrain silence is no loss. -/
def State.linkLoss (s : State) (p cause : Nat) : State :=
  let po := s.port p
  let counts := match cause with
    | 1 => !po.l1 && po.st != .retraining && decide (po.lastRecv + 1000 ≤ s.now)
    | 2 => !po.l1 && po.st != .retraining && decide (8 ≤ po.flitFails)
    | 3 => true
    | 4 => !po.l1 && po.st != .retraining
    | _ => false
  if po.linked && counts then (s.abortPortTest p).portFall p cause true .down else s

/-- `LINK_LOSS` (R394). -/
def execLinkLoss (p cause : Nat) (s : State) : Host.Outcome State Fault Refusal := onUnit (isPort p) p (s.linkLoss p cause)

/-- A port that has carried nothing but `KEEPALIVE` and `CREDIT_RET` for 10 µs enters L1 (R395). -/
def State.l1Entry (s : State) (p : Nat) : State :=
  let po := s.port p
  if po.st == .up && s.pctl p 5 1 == 1 && po.peerL1 && po.queue.isEmpty && decide (po.lastBusy + 10 ^ 4 ≤ s.now) then s.onPort p (fun po => { po with l1 := true })
  else s

/-- `L1_ENTRY` (R395). -/
def execL1Entry (p : Nat) (s : State) : Host.Outcome State Fault Refusal := onUnit (isPort p) p (s.l1Entry p)

/-- A port leaves L1, and what waited goes out (R395). -/
def State.l1Exit (s : State) (p : Nat) : State :=
  if (s.port p).l1 then s.onPort p (fun po => { po with l1 := false, lastRecv := s.now }.flushAt s.now) else s

/-- `L1_EXIT` (R395). -/
def execL1Exit (p : Nat) (s : State) : Host.Outcome State Fault Refusal := onUnit (isPort p) p (s.l1Exit p)

/-- The reservation of a request that was sent twice ends 100 µs after (R394): the tag is free if the first answer has come. -/
def State.tagExpiry (s : State) (tag : Nat) : State :=
  match Tab.get none s.rdc.opens tag with
  | some o => if o.resent && decide (o.resentAt + 10 ^ 5 ≤ s.now) then s.setTx tag (if o.answered then none else some { o with resent := false }) else s
  | none => s

/-- `REQ_TAG_EXPIRY` (R394). -/
def execReqTagExpiry (tag : Nat) (s : State) : Host.Outcome State Fault Refusal := .next (s.tagExpiry tag)

/-- A base die has not answered within 100 µs (R419): the request of the transfer `uid` of tile `t` (127: a descriptor's
transfer; 126: nobody's) is answered as poisoned, and the port is retrained. -/
def State.baseDieTimeout (s : State) (p t uid : Nat) : State :=
  if s.role p == 0 && (s.port p).st == .up then
    (s.onWork { OpenTx.posted with tile := t, uid := uid } (fun e => e.fail 7)).beginRetrain p
  else s

/-- `BASE_DIE_TIMEOUT` (R419). -/
def execBaseDieTimeout (p t uid : Nat) (s : State) : Host.Outcome State Fault Refusal :=
  onUnit (isPort p) p (s.baseDieTimeout p t uid)

/-- Freed units go back to the partner in a `CREDIT_RET` (R396, R399). -/
def State.returnUnits (s : State) (p : Nat) : State :=
  let po := s.port p
  if po.st == .up && !po.freed.isEmpty then
    let n := fun c => min 1023 (Tab.get 0 po.freed c)
    let s : State := s.onPort p (fun po => { po with
      freed := (List.range 5).foldl (fun t c => Tab.mod 0 t c (· - n c)) po.freed })
    s.sendOn p { s.packet 4 1 po.peerPos (72 + p) with addr := n 0 + n 1 * 2 ^ 10 + n 2 * 2 ^ 20 + n 3 * 2 ^ 30 + n 4 * 2 ^ 40 }
  else s

/-- `CREDIT_RETURN_SEND` (R399). -/
def execCreditReturnSend (p : Nat) (s : State) : Host.Outcome State Fault Refusal := onUnit (isPort p) p (s.returnUnits p)

end Sys2Proof.Machine
end

