-- ==== Sys2Proof/Machine/Packets.lean ====
section
/-!
DEFINITION. Packets received on the ports: admission, discard and forwarding (spec/14_windway_ports.md R381, R384, R396
to R403), and the packets of the request, write-data, response and sync classes (R265, R266, R358, R371, R374 to R377,
R420; spec/11 R289 to R299).
-/

namespace Sys2Proof.Machine

open Sys2Proof

/-! ### Admission (R381, R396, R402, R403) -/

/-- Whether a role carries a packet (R381). -/
def roleCarries (role : Nat) (k : Packet) : Bool :=
  match role with
  | 0 => k.cls ≤ 2 || (k.cls == 4 && k.ptype ≤ 2)
  | 1 => k.cls ≤ 4
  | 2 => k.cls ≤ 4
  | 3 => k.cls ≤ 2 || k.cls == 4
  | _ => false

/-- Whether class and type are defined (R396). -/
def typeDefined (k : Packet) : Bool :=
  match k.cls with
  | 0 => k.ptype ≤ 3
  | 1 => k.ptype ≤ 10
  | 2 => k.ptype ≤ 3
  | 3 => k.ptype ≤ 2
  | 4 => k.ptype ≤ 8
  | _ => false

/-- Length in bytes of the data of a type: none, a fixed length, or 0 where it varies (R396). -/
def typeData (k : Packet) : Option Nat :=
  match k.cls, k.ptype with
  | 1, 0 => some 0
  | 1, 5 => some 32
  | 1, 9 => some 32
  | 1, 10 => some 32
  | 2, 0 => some 0
  | 2, 1 => some 0
  | 2, _ => some 32
  | 3, _ => some 32
  | 4, 0 => some 64
  | 4, 4 => some 32
  | 4, 5 => some 32
  | 4, 6 => some 32
  | 4, 7 => some 0
  | 4, 8 => some 32
  | _, _ => none

/-- Whether a packet keeps the limits of R396 (and R402 for `ENC`, R420 for an `ATOMIC`). -/
def packetOk (version : Nat) (conf : Bool) (k : Packet) : Bool :=
  let fits := decide (32 ≤ k.len) && decide (k.len ≤ 1024) && k.len % 32 == 0
  typeDefined k && k.enc == conf
  && (match typeData k with
      | none => !k.hasData
      | some 0 => k.hasData && fits && decide (k.data.length ≤ k.len) && (version == 2 || decide (k.len ≤ 256))
      | some n => k.hasData && k.len == n && decide (k.data.length ≤ n))
  && (!(k.cls == 0 && k.ptype == 0) || (fits && k.addr % 32 == 0))
  && (!(k.cls == 0 && k.ptype == 1) || fits)
  && (!(k.cls == 2 && k.ptype == 3) || (k.addr % 8 == 0 && decide (1 ≤ pktLE k 0 1) && decide (pktLE k 0 1 ≤ 5)))
  && (!(k.cls == 4 && k.ptype == 7) || decide (k.len ≤ 256))

/-- Whether a packet is for the link itself, whatever its destination field says: `CAPS`, `CREDIT_RET`, `KEEPALIVE`,
`KEY`. -/
def linkLocal (k : Packet) : Bool := k.cls == 4 && (k.ptype ≤ 2 || k.ptype == 7)

/-- Bytes 0 to 3 of a packet's header (R396). -/
def headerWord (k : Packet) : Nat :=
  k.cls + k.ptype * 2 ^ 3 + (k.len / 32 - 1) * 2 ^ 8 + bit1 k.hasData * 2 ^ 13 + bit1 k.enc * 2 ^ 14 + bit1 k.poison * 2 ^ 15
  + k.srcDie * 2 ^ 16 + k.dstDie * 2 ^ 20 + k.srcStop * 2 ^ 24

/-- Discard a packet that the port may not carry or that breaks a limit (R381, R396). -/
def State.discard (s : State) (p : Nat) : State :=
  (s.onPort p (fun po => { po with discards := satAdd po.discards 1, admitErr := true })).event
    { typ := 0x0203, pay := [(0x18, 4, p), (0x1C, 4, 5)] }

/-- A packet fails authentication (R403): the port is isolated. -/
def State.authFail (s : State) (p : Nat) (k : Packet) : State :=
  let old := s.port p
  let s : State := s.onPort p (fun po => { po.idle .isolated with authFails := satAdd po.authFails 1 })
  (s.event { typ := 0x0204, pay := [(0x18, 4, p), (0x1C, 4, headerWord k)] }).portDrop p old true

/-- A packet that can neither be taken nor sent on (R384): a request is answered with reason 5. -/
def State.undeliverable (s : State) (p : Nat) (k : Packet) : State :=
  let s : State := if k.cls == 0 then s.reply p k { s.packet 1 1 k.srcDie 121 with aux := 5 } else s
  s.unreachable k

/-- Forward a packet for another die (R384): from a `PEER` to an `ACROSS` port only. -/
def State.forward (s : State) (p : Nat) (k : Packet) : State :=
  match (if s.role p == 1 then pickPort (s.portsTo (· == 2) k.dstDie) k.cls k.addr none else none) with
  | some q => s.sendOn q k
  | none => s.undeliverable p k

/-- A packet arrives on a linked port: checked, counted, and taken by `act`, or discarded, or sent on (R381, R384, R396,
R399, R402, R403). -/
def State.receive (s : State) (p : Nat) (k : Packet) (act : State → State) : State :=
  let po := s.port p
  let key := k.cls == 4 && k.ptype == 7
  if !(po.st == .up || po.st == .retraining || (po.st == .admitWait && key)) then s
  else if po.confOn && !k.authOk then s.authFail p k
  else
    let s : State := s.onPort p (fun po => { po with
      recvCount := po.recvCount + 1, lastRecv := s.now, lastBusy := if keepsAwake k then s.now else po.lastBusy
      freed := if creditFree k then po.freed else Tab.mod 0 po.freed k.cls (· + packetUnits k) })
    if !roleCarries (s.role p) k || !packetOk po.version po.confOn k then s.discard p
    else
      let s : State := s.count 3 (if isDieRole (s.role p) && k.hasData then k.len else 0)
      if k.dstDie != s.pos && !linkLocal k && s.role p != 0 then s.forward p k else act s

/-- The packet of a row: its class and type are the row's. -/
def asType (k : Packet) (cls ptype : Nat) : Packet := { k with cls := cls, ptype := ptype }

/-! ### At home (R363, R371, R374, R376, R420, R421) -/

/-- Whether an operation on a range must wait at its home (R358, R369, R376): for a translation, for a switch, for
invalidations of its lines, or behind an earlier operation on them. -/
def State.busyLines (s : State) (addr len : Nat) : Bool :=
  let ls := linesOf addr len
  s.held addr len
  || s.rdc.invs.any (fun w => w.lines.any (fun l => ls.contains l))
  || s.rdc.held.any (fun h => memOp h.2 && (linesOf h.2.addr h.2.len).any (fun l => ls.contains l))

/-- A refused access of another die or of the host (R364): the count and the event. -/
def State.deniedFor (s : State) (k : Packet) (reason : Nat) : State :=
  { s with kw := { s.kw with deny := satAdd s.kw.deny 1 } }.event
    { typ := 0x0705, job := k.job, cause := 0x17,
      pay := [(0x18, 4, k.srcDie + 63 * 2 ^ 8), (0x20, 8, k.addr), (0x28, 4, reason)] }

/-- Bytes that an operation touches: an `ATOMIC` touches eight. -/
def opLen (k : Packet) : Nat := if k.cls == 2 && k.ptype == 3 then 8 else k.len

/-- Whether the reads of an address are not cached (R359, R373): its object has `NC` set. -/
def State.isNc (s : State) (addr : Nat) : Bool :=
  if ownerOf addr == s.pos then match findObj addr s.kw.objs with
    | some (_, o) => o.nc
    | none => false
  else (Tab.get none s.kw.xlate (addr / granuleBytes)).any (·.nc)

/-- Entries of the home directory, and its sets (R375): the index of a line is its number modulo 32,768 (log 50). -/
def dirSet (line : Nat) : Nat := line % 2 ^ 15

/-- The lines of the directory set of a line that have sharers. -/
def Rdc.dirEntries (r : Rdc) (line : Nat) : List Nat :=
  (r.sharers.filter (fun e => dirSet e.1 == dirSet line && e.2 != 0)).map (·.1)

/-- Whether the directory has an entry for a line, or room for one (R375). -/
def Rdc.dirRoom (r : Rdc) (line : Nat) : Bool :=
  Tab.get 0 r.sharers line != 0 || decide ((r.dirEntries line).length < 16)

/-- Evict an entry from the full directory set of a line: its sharers are told to drop it (R375). Which one goes is not
stated: a free value (log 50). -/
def State.dirEvict (s : State) (line : Nat) : State :=
  let es := s.rdc.dirEntries line
  match es[(s.fv 0).toNat % es.length]? with
  | some v => (s.invalidateLines [v]).1.tick
  | none => s

/-- Serve a read at its home (R374): the reader's die joins the sharers of each line it reads. -/
def State.homeRead (s : State) (p : Nat) (k : Packet) : State :=
  let bs := s.mem.rdBytes k.addr k.len
  let s : State := if isDieRole (s.role p) && !s.isNc k.addr then
      { s with rdc := { s.rdc with sharers := (linesOf k.addr k.len).foldl (fun t l => Tab.mod 0 t l (· ||| 2 ^ k.srcDie)) s.rdc.sharers } }
    else s
  (s.memRead k.addr k.len).reply p k (withData (s.packet 1 0 k.srcDie 121) bs)

/-- A read at its home, which waits while a line of it needs a directory entry that an eviction has to free (R375). -/
def State.homeReadDir (s : State) (p : Nat) (k : Packet) : State :=
  if !isDieRole (s.role p) || s.isNc k.addr then s.homeRead p k
  else match (linesOf k.addr k.len).find? (fun l => !s.rdc.dirRoom l) with
    | none => s.homeRead p k
    | some l => (s.dirEvict l).hold p k

/-- A write has been done at home: its answer goes out when every sharer has acknowledged (R374, R401). -/
def State.answerWrite (s : State) (p : Nat) (k ans : Packet) (grp : Nat) (wait : Bool) : State :=
  let a := { ans with cls := 1, dstDie := k.srcDie, tag := k.tag, job := k.job }
  if wait then { s with rdc := { s.rdc with dues := s.rdc.dues ++ [⟨grp, p, some a, 126, 0⟩] } } else s.reply p k a

/-- The new value of an `ATOMIC` on 64 bits (R420): 1 `ADD`, 2 `OR`, 3 `AND`, 4 `SWAP`, 5 `CAS`. -/
def atomicOp (op old v cmp : Nat) : Nat :=
  match op with
  | 1 => (old + v) % 2 ^ 64
  | 2 => old ||| v
  | 3 => old &&& v
  | 4 => v
  | _ => if old == cmp then v else old

/-- Whether a packet is a Keywork's own access to an object that its die owns: the contents of an object that is being
activated or moved (R360, R369). -/
def ownersOwn (k : Packet) : Bool := k.srcStop == 121 && !isHostAddr k.addr && ownerOf k.addr == k.srcDie

/-- Write at home and answer. -/
def State.homeWrite (s : State) (p : Nat) (k : Packet) : State :=
  let n := k.len
  let w := s.wrHome k.addr ((k.data ++ List.replicate n 0).take n)
  w.1.answerWrite p k { s.packet 1 2 k.srcDie 121 with aux := 0 } w.2.1 w.2.2

/-- An `ATOMIC` at home (R225, R420). -/
def State.homeAtomic (s : State) (p : Nat) (k : Packet) : State :=
  let old := s.mem.rdLE k.addr 8
  let w := s.wrHome k.addr (leBytes 8 (atomicOp (pktLE k 0 1) old (pktLE k 8 8) (pktLE k 16 8)))
  w.1.answerWrite p k (withData (s.packet 1 0 k.srcDie 121) (leBytes 8 old ++ List.replicate 24 0)) w.2.1 w.2.2

/-- Refuse an operation on package memory (R364, R396, R466). -/
def State.refuseOp (s : State) (p : Nat) (k : Packet) (reason : Nat) : State :=
  if k.cls == 2 && k.ptype == 0 then s.reply p k { s.packet 1 2 k.srcDie 121 with aux := 3 }
  else s.reply p k { s.packet 1 1 k.srcDie 121 with aux := reason }

/-- Serve one operation on package memory at its home (R363, R371, R374, R420, R421, R466). `admitted`: it was admitted
before and held; the release of its object waits for it (R361). -/
def State.homeOp (s : State) (p : Nat) (k : Packet) (admitted : Bool) : State :=
  let wr := k.cls == 2
  let n := opLen k
  let r := if isHostAddr k.addr then 5 else s.deny k.job wr false k.addr n
  if ownersOwn k && k.ptype == 0 then (if wr then s.homeWrite p k else s.homeRead p k)
  else if r != 0 && !(admitted && r == 4) then (s.deniedFor k r).refuseOp p k 1
  else if s.isPoisoned k.addr n || k.poison then s.refuseOp p k 2
  else if s.busyLines k.addr n then s.hold p k
  else if !s.isHome k.addr then s.send (s.homeDie k.addr) { k with dstDie := s.homeDie k.addr } none
  else if !wr then s.homeReadDir p k
  else if k.ptype == 0 then s.homeWrite p k
  else s.homeAtomic p k

/-! ### Scratchpads (R259, R261, R265, R266, R569) -/

/-- Serve a remote scratchpad read (R251, R265, R266, R569). -/
def State.spRead (s : State) (p : Nat) (k : Packet) : State :=
  let core := bitsOf k.addr 24 6
  let a := bitsOf k.addr 0 24
  let no := fun (s : State) (reason : Nat) => s.reply p k { s.packet 1 1 k.srcDie 120 with aux := reason }
  let refused := fun (s : State) => s.refusedEvent k.job k.srcDie 63 (s.pos + core * 2 ^ 8) 2
  match s.reach k.job core with
  | .wait => s.hold p k
  | .stop (.absent c o) => no (s.absentEvent c o) 6
  | .stop _ => no (refused s) 3
  | .ok t =>
    let sp := (s.tile t).spad
    if sp.sealed then (if s.tileSt t == .fenced then no s 4 else no (refused s) 3)
    else if k.aux % 2 == 1 then
      (s.onTile t (fun q => { q with spad := q.spad.release (a / 4096) })).reply p k
        (withData (s.packet 1 0 k.srcDie t) (sp.mem.rdBytes a k.len))
    else if sp.canReadRange a k.len then s.reply p k (withData (s.packet 1 0 k.srcDie t) (sp.mem.rdBytes a k.len))
    else s.hold p k

/-- Take a credit request of another die (R259, R262, R266, R569): what its handle still holds here returns first. A
request for no credit asks for nothing else (DESIGN CHOICE: R396 gives no message for a return; log 51). -/
def State.creditReq (s : State) (p : Nat) (k : Packet) : State :=
  let core := bitsOf k.addr 24 6
  let no := fun (s : State) (status : Nat) => s.reply p k { s.packet 1 4 k.srcDie 120 with aux := status }
  let s := s.returnCredits ⟨k.srcDie, k.srcStop, bitsOf k.addr 34 4⟩
  if bitsOf k.addr 38 12 = 0 then s.reply p k (s.packet 1 3 k.srcDie 121)
  else
  match s.reach k.job core with
  | .wait => s.hold p k
  | .stop (.absent c o) => no (s.absentEvent c o) 3
  | .stop _ => no (s.refusedEvent k.job k.srcDie 63 (s.pos + core * 2 ^ 8) 2) 2
  | .ok t =>
    s.onTile t (fun q => q.onDma (fun d => { d with reqs := d.reqs ++
      [{ who := ⟨k.srcDie, k.srcStop, bitsOf k.addr 34 4⟩, job := k.job, window := bitsOf k.addr 30 4
         count := bitsOf k.addr 38 12, lcore := 63, since := s.now, uid := 0, port := some (p, k) }] }))

/-- A write under credit from another die (R251, R261); `decl` is the declared length that the slot's fill carries, 0 for
none (log 21). -/
def State.spWrite (s : State) (p : Nat) (k : Packet) (decl : Nat) : State :=
  let ack := fun (s : State) (status : Nat) => s.reply p k { s.packet 1 2 k.srcDie 120 with aux := status }
  let c := s.core (bitsOf k.addr 24 6)
  if c.st != .mapped then
    ack (if c.st == .moving && (s.tile c.tile).spad.sealed then s.onTile c.tile (fun q => q.dmaCount 6 1) else s) 1
  else
    let q := s.tile c.tile
    if q.spad.sealed then ack (s.onTile c.tile (fun q => q.dmaCount 6 1)) 1
    else if k.poison then ack s 3
    else
      match acceptWrite q ⟨k.srcDie, k.srcStop, bitsOf k.addr 30 4⟩ (bitsOf k.addr 0 24) (fun _ => decl)
          ((k.data ++ List.replicate k.len 0).take k.len) (k.len / 4096 + 2) with
      | none => ack s 1
      | some (_, false) => ack s 3
      | some (q', true) => ack (s.onTile c.tile (fun _ => q')) 0

/-! ### Held packets -/

/-- The granule homes that an `XLATE_RSP` carries (R358; log 13): in bytes 0 to 3 the object's job and attributes, [12]
`EXEC`, [13] `SHARED_RO`, [14] `NC`, [15] `ACTIVE`, in bytes 4 to 7 its granules from the requested one to its end, and
then the home stacks of up to 24 of them. -/
def State.homesData (s : State) (addr : Nat) : List Byte :=
  match (if ownerOf addr == s.pos && !isHostAddr addr then findObj addr s.kw.objs else none) with
  | some (_, o) =>
    let i := (addr - o.pbase) / granuleBytes
    let on := o.st == .active || o.st == .migrating
    leBytes 4 (o.job + bit1 o.exec * 2 ^ 12 + bit1 o.sharedRo * 2 ^ 13 + bit1 o.nc * 2 ^ 14 + bit1 on * 2 ^ 15)
    ++ leBytes 4 (o.granules - i) ++ ((o.homes.drop i ++ List.replicate 24 0).take 24).map (BitVec.ofNat 8)
  | none => List.replicate 32 0

/-- A translation request (R358, R369): during the switch of its object the answer waits. -/
def State.xlateReq (s : State) (p : Nat) (k : Packet) : State :=
  if ownerOf k.addr == s.pos && s.held k.addr 1 then s.hold p k
  else s.reply p k (withData { s.packet 1 5 k.srcDie 121 with addr := k.addr } (s.homesData k.addr))

/-- Serve a packet that was held. -/
def State.serve (s : State) (p : Nat) (k : Packet) : State :=
  match k.cls, k.ptype with
  | 0, 1 => s.spRead p k
  | 0, 2 => s.creditReq p k
  | 0, 3 => s.xlateReq p k
  | 2, 2 => s.windowWrite p k
  | _, _ => s.homeOp p k true

/-- Look at the held packets again, oldest first (R371, R376, R569). -/
def State.serveHeld (s : State) : State :=
  s.rdc.held.foldl (fun s h => s.serve h.1 h.2) { s with rdc := { s.rdc with held := [] } }

/-! ### Requests and writes -/

/-- `RD` (R374). -/
def execRd (p : Nat) (k : Packet) (s : State) : Host.Outcome State Fault Refusal :=
  let k := asType k 0 0
  onUnit (isPort p) p (s.receive p k (fun s => s.homeOp p k false))

/-- `SP_RD` (R265). -/
def execSpRd (p : Nat) (k : Packet) (s : State) : Host.Outcome State Fault Refusal :=
  let k := asType k 0 1
  onUnit (isPort p) p (s.receive p k (fun s => s.spRead p k))

/-- `CRED_REQ` (R259). -/
def execCredReq (p : Nat) (k : Packet) (s : State) : Host.Outcome State Fault Refusal :=
  let k := asType k 0 2
  onUnit (isPort p) p (s.receive p k (fun s => s.creditReq p k))

/-- `XLATE` (R358): the owner's Keywork answers with granule homes. -/
def execXlate (p : Nat) (k : Packet) (s : State) : Host.Outcome State Fault Refusal :=
  let k := asType k 0 3
  onUnit (isPort p) p (s.receive p k (fun s => s.xlateReq p k))

/-- `WR` (R374). -/
def execWr (p : Nat) (k : Packet) (s : State) : Host.Outcome State Fault Refusal :=
  let k := asType k 2 0
  onUnit (isPort p) p (s.receive p k (fun s => s.homeOp p k false))

/-- `SP_WR` (R261). -/
def execSpWr (p : Nat) (k : Packet) (decl : Nat) (s : State) : Host.Outcome State Fault Refusal :=
  let k := asType k 2 1
  onUnit (isPort p) p (s.receive p k (fun s => s.spWrite p k decl))

/-- `DOORBELL` (R318). -/
def execDoorbell (p : Nat) (k : Packet) (s : State) : Host.Outcome State Fault Refusal :=
  let k := asType k 2 2
  onUnit (isPort p) p (s.receive p k (fun s => s.windowWrite p k))

/-- `EVENT_DOORBELL` (R319): a doorbell packet at offset 0x800 of the window. -/
def execEventDoorbell (p : Nat) (k : Packet) (s : State) : Host.Outcome State Fault Refusal :=
  let k := { asType k 2 2 with addr := 0x800 }
  onUnit (isPort p) p (s.receive p k (fun s => s.windowWrite p k))

/-- `ATOMIC` (R420). -/
def execAtomic (p : Nat) (k : Packet) (s : State) : Host.Outcome State Fault Refusal :=
  let k := asType k 2 3
  onUnit (isPort p) p (s.receive p k (fun s => s.homeOp p k false))

/-! ### Answers (R394, R396, R401) -/

/-- The transaction that an answer belongs to, taken out of the open ones; a second answer is discarded. -/
def State.answered (s : State) (k : Packet) (fits : Packet → Bool) (f : State → OpenTx → State) : State :=
  match s.tx k.tag with
  | none => s
  | some o => if fits o.pkt then f (s.closeTx k.tag o) o else s

/-- Data for a command (R265, R374): its bytes, and the cached line where the read covers one (R373, R376). -/
def State.takeData (s : State) (o : OpenTx) (k : Packet) : State :=
  let bs := k.data.take o.pkt.len
  let s : State := if o.pkt.cls == 0 && o.pkt.ptype == 0 && o.pkt.len == 256 && o.pkt.addr % 256 == 0 && bs.length == 256
      && s.rdcOn && !o.noInstall && !isHostAddr o.pkt.addr && !s.isHome o.pkt.addr && !s.isNc o.pkt.addr then
      { s with rdc := s.rdc.install (o.pkt.addr / 256) bs }
    else s
  if o.tile == fetchTx then (s.takeFetch o.pkt.tag 1 bs).serveHeld
  else s.onWork o (fun e => { e with buf := e.buf.wrBytes o.off bs, owed := e.owed - 1 })

/-- `RD_DATA` (R376, R398). -/
def execRdData (p : Nat) (k : Packet) (s : State) : Host.Outcome State Fault Refusal :=
  let k := asType k 1 0
  onUnit (isPort p) p (s.receive p k (fun s =>
    s.answered k (fun q => (q.cls == 0 && q.ptype ≤ 1) || (q.cls == 2 && q.ptype == 3))
      (fun s o => if k.poison then s.failTx o 7 else s.takeData o k)))

/-- What a reason of `RD_ERR` makes of a command (R396; log 12). -/
def rdErrAns : Nat → Nat
  | 1 => 6
  | 2 => 7
  | 3 => 3
  | 4 => 5
  | 6 => 4
  | _ => 8

/-- `RD_ERR` (R396). -/
def execRdErr (p : Nat) (k : Packet) (s : State) : Host.Outcome State Fault Refusal :=
  let k := asType k 1 1
  onUnit (isPort p) p (s.receive p k (fun s =>
    s.answered k (fun q => q.cls == 0 || (q.cls == 2 && q.ptype == 3)) (fun s o => (s.failTx o (rdErrAns (k.aux % 16))).serveHeld)))

/-- A remote write into a scratchpad has completed: its run has escaped (R456). -/
def State.escapeWork (s : State) (o : OpenTx) : State :=
  if o.tile < Config.tiles then s.escape o.tile
  else if o.tile == 127 then s.onDesc o.uid (fun d => { d with escaped := true })
  else s

/-- An acknowledgement ends a write (R261, R264, R401, R421; log 12). -/
def State.takeAck (s : State) (o : OpenTx) (status : Nat) : State :=
  let sp := o.pkt.ptype == 1
  match status with
  | 0 => (if sp then s.escapeWork o else s).workAcked o.tile o.uid
  | 1 => s.failTx o 2
  | 2 => s.failTx o 3
  | _ => s.failTx o (if sp then 10 else if s.isPoisoned o.pkt.addr o.pkt.len then 7 else 6)

/-- `WR_ACK` (R401). -/
def execWrAck (p : Nat) (k : Packet) (s : State) : Host.Outcome State Fault Refusal :=
  let k := asType k 1 2
  onUnit (isPort p) p (s.receive p k (fun s =>
    s.answered k (fun q => q.cls == 2 && q.ptype ≤ 1) (fun s o => s.takeAck o (k.aux % 16))))

/-- A grant of another die's window is stored in the handle (R259). -/
def State.takeGrant (s : State) (o : OpenTx) (k : Packet) : State :=
  let q := o.pkt
  let g : Grant := { die := q.dstDie, core := bitsOf q.addr 24 6, window := bitsOf q.addr 30 4, count := bitsOf k.addr 12 12
                     revoked := false, tile := 127 }
  if o.tile < Config.tiles then s.onTile o.tile (fun t => t.answerReq o.uid (bitsOf q.addr 34 4) 1 127 (some g))
  else if o.tile == 127 then s.onDesc o.uid (fun d => { d with grant := some g, xfer := d.xfer.map (fun e => if e.ans == 0 then { e with ans := 1 } else e) })
  else s

/-- `CRED_GRANT` (R259). -/
def execCredGrant (p : Nat) (k : Packet) (s : State) : Host.Outcome State Fault Refusal :=
  let k := asType k 1 3
  onUnit (isPort p) p (s.receive p k (fun s =>
    s.answered k (fun q => q.cls == 0 && q.ptype == 2) (fun s o => s.takeGrant o k)))

/-- `CRED_REFUSE` (R264, R266, R569). -/
def execCredRefuse (p : Nat) (k : Packet) (s : State) : Host.Outcome State Fault Refusal :=
  let k := asType k 1 4
  onUnit (isPort p) p (s.receive p k (fun s =>
    s.answered k (fun q => q.cls == 0 && q.ptype == 2) (fun s o =>
      s.failTx o (match k.aux % 16 with
        | 2 => 3
        | 3 => 4
        | _ => 2))))

/-- Entries of the translation cache (R358). -/
abbrev xlateMax : Nat := 16384

/-- Hold a translation; in a full cache one gives way, which one is not stated: a free value (R358; log 50). A granule that
is homed on another die is no longer in a stack of this one (R369). -/
def State.addXlate (s : State) (g : Nat) (x : Xlate) : State :=
  let t := if (Tab.get none s.kw.xlate g).isNone && decide (xlateMax ≤ s.kw.xlate.length) then
      s.kw.xlate.eraseIdx ((s.fv 0).toNat % s.kw.xlate.length)
    else s.kw.xlate
  { s with
    kw := { s.kw with xlate := Tab.set none t g (some x) }
    mem := if x.stack / 4 == s.pos then s.mem else s.mem.clear (g * granuleBytes) granuleBytes }.tick

/-- Granule homes of another die's object, as an `XLATE_RSP` gives them (R358; log 13). A granule of no `ACTIVE` object is
held as that, so that accesses to it are refused. -/
def State.takeHomes (s : State) (g : Nat) (bs : List Byte) : State :=
  let w := leNat (bs.take 4)
  let left := if w.testBit 15 then leNat ((bs.drop 4).take 4) else 0
  let x := fun (stack i : Nat) => { stack := stack, job := bitsOf w 0 12, exec := w.testBit 12, sharedRo := w.testBit 13,
                                    nc := w.testBit 14, left := left - i : Xlate }
  if isHostAddr (g * granuleBytes) || ownerOf (g * granuleBytes) == s.pos then s
  else if left = 0 then s.addXlate g (x (4 * ownerOf (g * granuleBytes)) 0)
  else (List.range (min left 24)).foldl (fun s i => s.addXlate (g + i) (x ((bs[8 + i]?.getD 0).toNat % 32) i)) s

/-- `XLATE_RSP` (R358). -/
def execXlateRsp (p : Nat) (k : Packet) (s : State) : Host.Outcome State Fault Refusal :=
  let k := asType k 1 5
  onUnit (isPort p) p (s.receive p k (fun s =>
    s.answered k (fun q => q.cls == 0 && q.ptype == 3) (fun s o => (s.takeHomes (o.pkt.addr / granuleBytes) k.data).serveHeld)))

/-- Drop lines of the remote-data cache; a miss under way for one of them will not install it (R374, R376). -/
def State.dropLines (s : State) (ls : List Nat) : State :=
  { s with rdc := { s.rdc with
      lines := (s.rdc.drop ls).lines
      opens := s.rdc.opens.map (fun e => (e.1, e.2.map (fun o =>
        if o.pkt.cls == 0 && o.pkt.ptype == 0 && ls.contains (o.pkt.addr / 256) then { o with noInstall := true } else o))) } }

/-- Acknowledge an invalidation. -/
def State.invAck (s : State) (p : Nat) (k : Packet) : State := s.reply p k (s.packet 1 8 k.srcDie 120)

/-- `INV` (R374). -/
def execInv (p : Nat) (k : Packet) (s : State) : Host.Outcome State Fault Refusal :=
  let k := asType k 1 6
  onUnit (isPort p) p (s.receive p k (fun s => (s.dropLines [k.addr / 256]).invAck p k))

/-- `INV_BATCH` (R377, R392). -/
def execInvBatch (p : Nat) (k : Packet) (s : State) : Host.Outcome State Fault Refusal :=
  let k := asType k 1 7
  onUnit (isPort p) p (s.receive p k (fun s =>
    (s.dropLines ((bitList k.aux 16).map (fun i => k.addr / 4096 * 16 + i))).invAck p k))

/-- A sharer has acknowledged (R374): completed writes are answered, and held operations go on. -/
def State.takeInvAck (s : State) (k : Packet) : State :=
  ({ s with rdc := { s.rdc with invs := s.rdc.invs.filter (fun w => !(w.tag == k.tag && w.die == k.srcDie)) } }).settleInvs.serveHeld

/-- `INV_ACK` (R374). -/
def execInvAck (p : Nat) (k : Packet) (s : State) : Host.Outcome State Fault Refusal :=
  let k := asType k 1 8
  onUnit (isPort p) p (s.receive p k (fun s => s.takeInvAck k))

/-! ### Synchronisation (R289, R292, R299) -/

/-- Give a result to whoever asked. -/
def State.syncResult (s : State) (x : SyncSrc) (o v : Nat) : State :=
  match x with
  | .tile t => s.syncEnd t o v
  | .desc uid => s.syncDescEnd uid o
  | .defer uid i => s.deferEnd uid i o
  | .init id => s.initNext id o
  | .remote _ _ _ _ => s
  | .nobody => s

/-- Deliver the result number `i` that travels inside the die (R292). -/
def State.localResult (s : State) (i : Nat) : State :=
  match s.sync.results[i]? with
  | none => s
  | some r => ({ s with sync := { s.sync with results := s.sync.results.eraseIdx i } }).syncResult r.src r.outcome r.value

/-- `SY_RESULT` (R292): a packet on a port, with the outcome and value that its data carries, or, without a port, result
number `i` inside the die. -/
def execSyResult (p : Option Nat) (k : Packet) (i : Nat) (s : State) : Host.Outcome State Fault Refusal :=
  match p with
  | none => .next (s.localResult i)
  | some p =>
    let k := asType k 1 9
    onUnit (isPort p) p (s.receive p k (fun s =>
      s.answered k (fun q => q.cls == 3) (fun s o => match o.src with
        | some x => s.syncResult x (pktLE k 0 4) (pktLE k 4 4)
        | none => s)))

/-- `SY_OP` (R289): a request of another die; its operation is the operand `r` (log 13). -/
def execSyOp (p : Nat) (k : Packet) (r : SyncReq) (s : State) : Host.Outcome State Fault Refusal :=
  let k := asType k 3 0
  onUnit (isPort p) p (s.receive p k (fun s =>
    s.syncApply { r with job := k.job, die := k.srcDie, src := .remote k.srcDie p k.tag k.job }))

/-- A die's report that every participant there has arrived for a round (R299). -/
def State.barReport (s : State) (d id round : Nat) : State :=
  match s.bar id with
  | some b =>
    let n := Tab.get 0 b.reports d
    if s.leader == s.pos && b.st == 1 && b.dieMask.testBit d && b.roundAt n == round then
      (s.setBar id (some { b with reports := Tab.mod 0 b.reports d (· + 1) })).barSettle id
    else s
  | none => s

/-- `BAR_REPORT` (R299). -/
def execBarReport (p : Nat) (k : Packet) (obj round : Nat) (s : State) : Host.Outcome State Fault Refusal :=
  let k := asType k 3 1
  onUnit (isPort p) p (s.receive p k (fun s => s.barReport k.srcDie obj round))

/-- The package root has closed a round (R298, R299). -/
def State.barRelease (s : State) (id round : Nat) : State :=
  match s.bar id with
  | some b =>
    if b.st == 1 && b.round == round then
      let r := b.close
      ((s.setBar id (some r.1)).answers r.2).barSettle id
    else s
  | none => s

/-- `BAR_RELEASE` (R299). -/
def execBarRelease (p : Nat) (k : Packet) (obj round : Nat) (s : State) : Host.Outcome State Fault Refusal :=
  let k := asType k 3 2
  onUnit (isPort p) p (s.receive p k (fun s => s.barRelease obj round))

/-! ### Management packets of the link (R394, R396, R399, R498) -/

/-- Units that a `CREDIT_RET` returns for a class (R396). -/
def returnedUnits (k : Packet) (c : Nat) : Nat := bitsOf k.addr (10 * c) 10

/-- `CREDIT_RET` (R399). -/
def execCreditRet (p : Nat) (k : Packet) (s : State) : Host.Outcome State Fault Refusal :=
  let k := asType k 4 1
  onUnit (isPort p) p (s.receive p k (fun s => s.onPort p (fun po => { po with
    credits := (List.range 5).foldl (fun t c => Tab.mod 0 t c (· + returnedUnits k c)) po.credits }.flushAt s.now)))

/-- `KEEPALIVE` (R394): it shows that the link lives, and changes nothing. -/
def execKeepalive (p : Nat) (k : Packet) (s : State) : Host.Outcome State Fault Refusal :=
  let k := asType k 4 2
  onUnit (isPort p) p (s.receive p k (fun s => s))

/-- `KEY_CERT` (R499). -/
def execKeyCert (p : Nat) (k : Packet) (ok : Bool) (s : State) : Host.Outcome State Fault Refusal :=
  let k := asType k 4 7
  onUnit (isPort p) p (s.receive p k (fun s => s.keyCert p k ok))

/-- `KEY_OFFER` (R499). -/
def execKeyOffer (p : Nat) (k : Packet) (ok : Bool) (s : State) : Host.Outcome State Fault Refusal :=
  let k := asType k 4 7
  onUnit (isPort p) p (s.receive p k (fun s => s.keyOffer p k ok))

/-- `KEY_SWITCH` (R500). -/
def execKeySwitch (p : Nat) (k : Packet) (s : State) : Host.Outcome State Fault Refusal :=
  let k := asType k 4 7
  onUnit (isPort p) p (s.receive p k (fun s => s.keySwitch p k))

/-- `CFG_RSP` (R397): the answer to a configuration packet of this die. -/
def execCfgRsp (p : Nat) (k : Packet) (s : State) : Host.Outcome State Fault Refusal :=
  let k := asType k 1 10
  onUnit (isPort p) p (s.receive p k (fun s =>
    s.answered k (fun q => q.cls == 4 && (q.ptype == 3 || q.ptype == 4)) (fun s _ => s)))

/-- `MIGRATION_SWITCH_DONE` (R369): the accesses that were held go to the new home. -/
def execMigrationSwitchDone (i : Nat) (s : State) : Host.Outcome State Fault Refusal := .next (s.migrationSwitched i).serveHeld

/-- `CORE_MAP_MOVING_RESOLVE` (R569): a logical core is `MAPPED` or `ABSENT`; requests that wait for it at this die are
judged against its entry. Waiting commands of this die's own cores look at the entry when they are next tried. -/
def execCoreMapMovingResolve (core : Nat) (s : State) : Host.Outcome State Fault Refusal :=
  .next (if (s.core core).st == .moving then s else s.serveHeld)

end Sys2Proof.Machine
end

