-- ==== Sys2Proof/Machine/SyncDebug.lean ====
section
/-!
DEFINITION. The debugger override of synchronisation objects (spec/11_synchronisation.md R306, R307): the object and
field are those of `SYNC_DBG_SEL`, the value that of `SYNC_DBG_VALUE`.
-/

namespace Sys2Proof.Machine

open Sys2Proof

/-- `INDEX` of `SYNC_DBG_SEL` (R306). -/
def State.dbgIdx (s : State) : Nat := s.rfld 0x2800 0 16
/-- Object ID of the selected object (R284). -/
def State.dbgId (s : State) : Nat := s.dbgIdx + s.pos * 2 ^ 16
/-- `VALUE` of `SYNC_DBG_VALUE`. -/
def State.dbgValue (s : State) : Nat := (s.reg 0x2804).toNat
/-- A command is refused: `ERR` of `SYNC_DBG_SEL`. -/
def State.dbgRefuse (s : State) : State := s.setFld 0x2800 30 1 1
/-- The `SYNC_DEBUG` event (R307). -/
def State.dbgEvent (s : State) (cmd : Nat) : State :=
  s.event { typ := 0x0007, job := (s.obj s.dbgIdx).job, pay := [(0x18, 4, s.dbgId), (0x1C, 4, cmd), (0x20, 4, s.dbgValue)] }

/-- Whether something waits on an object homed here. -/
def State.hasWaiters (s : State) (i : Nat) : Bool :=
  !(s.obj i).waiters.isEmpty || (match s.bar (i + s.pos * 2 ^ 16) with
    | some b => !b.waits.isEmpty
    | none => false)

/-- The state word of an object (R306). -/
def State.dbgState (s : State) (i : Nat) : Nat :=
  let o := s.obj i
  let wide := match s.bar (i + s.pos * 2 ^ 16) with
    | some b => o.typ == 2 && !b.dieWide
    | none => false
  o.typ + o.st * 2 ^ 2 + o.job * 2 ^ 4 + o.owner * 2 ^ 16 + bit1 wide * 2 ^ 30 + bit1 (s.hasWaiters i) * 2 ^ 31

/-- Participants of this die from core `lo` on whose next round lies beyond the oldest open one, as 32 bits (R306). -/
def arrivedBits (b : Barrier) (lo : Nat) : Nat :=
  (List.range 32).foldl (fun n i => n + (if b.coreMask.testBit (lo + i) && b.next (lo + i) != 0 then 2 ^ i else 0)) 0

/-- A field of an object (R306); none: the field does not fit its type or state. -/
def State.dbgField (s : State) (i f : Nat) : Option Nat :=
  let o := s.obj i
  match f with
  | 0 => some (s.dbgState i)
  | 1 => if o.st != 0 && o.typ != 2 then some o.value else none
  | 2 => if o.st != 0 && o.typ == 0 then some o.target else none
  | _ =>
    if o.st == 0 || o.typ != 2 then none
    else match s.bar (i + s.pos * 2 ^ 16) with
      | none => none
      | some b =>
        match f with
        | 3 => some b.round
        | 4 => some (arrivedBits b 0)
        | 5 => some (arrivedBits b 32)
        | 6 => some (arrivedBits b 0)
        | 7 => some (arrivedBits b 32)
        | _ => none

/-- `READ` copies the selected field into `VALUE` (R307). -/
def State.dbgRead (s : State) : State :=
  match s.dbgField s.dbgIdx (s.rfld 0x2800 16 4) with
  | some v => s.setReg 0x2804 (BitVec.ofNat 32 v)
  | none => s.dbgRefuse

/-- `SYNC_DBG_READ` (R307). -/
def execSyncDbgRead (s : State) : Host.Outcome State Fault Refusal := .next s.dbgRead

/-- `WRITE` sets field 1 or 2 of a `LIVE` counter or flag, and the home tests the waiters (R307). -/
def State.dbgWrite (s : State) : State :=
  let i := s.dbgIdx
  let o := s.obj i
  let f := s.rfld 0x2800 16 4
  if o.st != 1 || o.typ == 2 || !(f == 1 || (f == 2 && o.typ == 0)) then s.dbgRefuse
  else
    (if f == 1 then s.setValue i o s.dbgValue else s.setValue i { o with target := s.dbgValue } o.value).dbgEvent 2

/-- `SYNC_DBG_WRITE` (R307). -/
def execSyncDbgWrite (s : State) : Host.Outcome State Fault Refusal := .next s.dbgWrite

/-- `RELEASE` releases every waiter of the object with outcome 0 or 2 (R307); of a barrier, those that wait at
any die's record. -/
def State.dbgRelease (s : State) : State :=
  let i := s.dbgIdx
  let o := s.obj i
  let oc := s.dbgValue % 4
  if o.st == 0 || !(oc == 0 || oc == 2) then s.dbgRefuse
  else
    let s' := if o.typ == 2 then
        (s.releaseBar s.dbgId oc).shareSync (s.otherDies s.dbgId) (s.note 11 [BitVec.ofNat 32 s.dbgId, BitVec.ofNat 32 oc] o.job o.owner)
      else s.releaseAll i o oc (if oc == 0 then o.value else 0)
    s'.dbgEvent 3

/-- `SYNC_DBG_RELEASE` (R307). -/
def execSyncDbgRelease (s : State) : Host.Outcome State Fault Refusal := .next s.dbgRelease

/-- `CLOSE` closes the oldest open round of a `LIVE` barrier homed here (R307); the other dies that hold a record hear
of it as of any closing (R299). -/
def State.dbgClose (s : State) : State :=
  let o := s.obj s.dbgIdx
  let id := s.dbgId
  match s.bar id with
  | some b =>
    if o.st != 1 || o.typ != 2 || b.st != 1 then s.dbgRefuse
    else
      let r := b.close
      ((((s.setBar id (some r.1)).answers r.2).tellClosed id b).barSettle id).dbgEvent 4
  | none => s.dbgRefuse

/-- `SYNC_DBG_CLOSE` (R307). -/
def execSyncDbgClose (s : State) : Host.Outcome State Fault Refusal := .next s.dbgClose

/-- `FREE` releases all waiters with `ABANDONED` and returns the object to `FREE` (R307). -/
def State.dbgFree (s : State) : State :=
  let i := s.dbgIdx
  let o := s.obj i
  if o.st == 0 then s.dbgRefuse
  else
    let s' := (s.dbgEvent 5).shareSync (s.otherDies s.dbgId) (s.note 5 [BitVec.ofNat 32 s.dbgId] o.job o.owner)
    ((s'.releaseAll i o 2 0).setObj i SyncObj.init).dropBar s.dbgId 2

/-- `SYNC_DBG_FREE` (R307). -/
def execSyncDbgFree (s : State) : Host.Outcome State Fault Refusal := .next s.dbgFree

/-- A value written to `SYNC_DBG_CMD` (R307): a reserved code is refused. -/
def State.dbgCmd (s : State) (v : Word) : State :=
  match fld v 0 4 with
  | 1 => s.dbgRead
  | 2 => s.dbgWrite
  | 3 => s.dbgRelease
  | 4 => s.dbgClose
  | 5 => s.dbgFree
  | _ => s.dbgRefuse

end Sys2Proof.Machine
end

