-- ==== Sys2Proof/Machine/Members.lean ====
section
/-!
DEFINITION. Membership of the package and its reference clock: formation, re-admission, loss notices, clock faults,
holdover (spec/15_package_assembly_and_identity.md R410 to R417, R422, R425, R426).
-/

namespace Sys2Proof.Machine

open Sys2Proof

/-- `PKG_MASK` (R408). -/
def State.pkgMask (s : State) : Nat := s.rfld 0x0008 8 8

/-- Positions of `PKG_MASK`. -/
def State.positions (s : State) : List Nat := bitList s.pkgMask 8

/-! ### Formation (R415, R417) -/

/-- Level of joining dies: the lowest `MAX_LEVEL`, and level 2 only with `FEATS`[3:0] = 0xF (R417). -/
def packageLevel (joins : List (Nat × Nat)) : Nat × Nat :=
  let feats := joins.foldl (fun f j => f &&& bitsOf j.2 0 6) 0x3F
  let lvl := joins.foldl (fun l j => min l (bitsOf j.1 0 8)) 15
  (if 2 ≤ lvl && feats % 16 != 0xF then 1 else lvl, feats)

/-- The value of `FEATURE_LEVEL` for a level and features (R416). -/
def levelWord (lvl feats : Nat) : Nat := lvl % 16 + feats % 64 * 2 ^ 16 + 2 ^ 31

/-- Write another die's `FEATURE_LEVEL` (R397, R415). -/
def State.sendLevel (s : State) (d v : Nat) : State :=
  let r := s.request d (withData { s.packet 4 4 d 123 with addr := 0x0020 } (leBytes 4 v)) OpenTx.posted
  if r.2 then r.1 else s.unreachable (s.packet 4 4 d 123)

/-- `DIE_JOINED` (R426). -/
def State.joinedEvent (s : State) (d caps1 : Nat) : State :=
  s.event { typ := 0x0280, pay := [(0x18, 4, d), (0x1C, 4, s.pkg.word), (0x20, 4, caps1)] }

/-- Refuse a die on the port that its `JOIN` came in on (R414, R415, R425). -/
def State.refuseDie (s : State) (p d reason : Nat) : State :=
  (s.sendOn p (withData (s.packet 4 8 d 123) (admitBytes 3 d 0 reason [] s.pkg.members s.pkg.mepoch s.now))).event
    { typ := 0x0281, pay := [(0x18, 4, d), (0x1C, 4, reason)] }

/-- The leader forms the package from the dies that have joined (R415). -/
def State.formPackage (s : State) : State :=
  let js := s.positions.filterMap (fun d => (Tab.get none s.pkg.joins d).map (fun c => (d, c)))
  let (lvl, feats) := packageLevel (js.map (·.2))
  let mem := js.foldl (fun m j => m ||| 2 ^ j.1) 0
  let others := js.filter (fun j => j.1 != s.pos)
  let s : State := s.pkg.refusals.foldl (fun s r => s.refuseDie r.1 r.2.1 r.2.2) s
  let s : State := s.setReg 0x0020 (BitVec.ofNat 32 (levelWord lvl feats))
  let s : State := others.foldl (fun s j => s.sendLevel j.1 (levelWord lvl feats)) s
  let s : State := s.onPkg (fun k => { k with
    members := mem, leader := s.pos, accepted := true, mepoch := (k.mepoch + 1) % 65536, refusals := []
    lostSeen := s.pkgMask - mem &&& s.pkgMask })
  let s : State := others.foldl (fun s j => s.sendAdmit j.1 2 j.1 lvl 0 [j.2.1, j.2.2]) s
  js.foldl (fun s j => s.joinedEvent j.1 j.2.2) s

/-- Form the package when every position of `PKG_MASK` has joined. -/
def State.tryForm (s : State) : State :=
  if !s.pkg.accepted && (Tab.get none s.pkg.joins s.pos).isSome
      && s.positions.all (fun d => (Tab.get none s.pkg.joins d).isSome) then s.formPackage else s

/-- `CAPS0` and `CAPS1` of this die. -/
def State.ownCaps (s : State) : Nat × Nat := ((s.reg 0x0010).toNat, (s.reg 0x0014).toNat)

/-- This die sends its `JOIN` to the lowest position of `PKG_MASK` that it can reach; when that is its own, it is the leader
(R415), unless one of the others leads a package that is formed already: its `JOIN` goes to each of them (R425; DEDUCED,
log 49). -/
def State.joinNow (s : State) : State :=
  let s : State := s.onPkg (fun k => { k with joined := some s.now })
  match s.positions.find? s.reaches with
  | none => s
  | some d =>
    if d == s.pos then
      (((s.positions.filter (fun m => m != s.pos && s.reaches m)).foldl (fun s m =>
          s.sendAdmit m 1 s.pos 0 0 [s.ownCaps.1, s.ownCaps.2]) s).onPkg (fun k => { k with
        leader := s.pos, joins := Tab.set none k.joins s.pos (some s.ownCaps) })).tryForm
    else s.sendAdmit d 1 s.pos 0 0 [s.ownCaps.1, s.ownCaps.2]

/-- 100 ms have passed since the leader's own `JOIN` (R415). -/
def State.formTimeout (s : State) : State :=
  match s.pkg.joined with
  | some t =>
    if !s.pkg.accepted && (Tab.get none s.pkg.joins s.pos).isSome && decide (t + 10 ^ 8 ≤ s.now) then s.formPackage else s
  | none => s

/-- `PKG_FORM_TIMEOUT` (R415). -/
def execPkgFormTimeout (s : State) : Host.Outcome State Fault Refusal := .next s.formTimeout

/-! ### `JOIN`, `ACCEPT`, `REFUSE` (R414, R415, R425) -/

/-- Add a die that has come back (R425): its marks and its objects here are cleared, and it is a member again. -/
def State.readmit (s : State) (d caps1 : Nat) : State :=
  let s : State := s.sync.bars.keys.foldl (fun s id => if id / 65536 == d then s.dropBar id 2 else s) s
  let mine := fun (g : Nat) => ownerOf (g * granuleBytes) == d
  let s : State := { s with
    kw := { s.kw with xlate := s.kw.xlate.filter (fun e => !mine e.1) }
    rdc := { s.rdc with lines := s.rdc.lines.filter (fun e => ownerOf (e.1 * 256) != d) } }
  let s : State := s.onPkg (fun k => { k with
    members := k.members ||| 2 ^ d, mepoch := (k.mepoch + 1) % 65536, lostSeen := putBits k.lostSeen d 1 0
    poison := k.poison.filter (fun g => !mine g) })
  s.joinedEvent d caps1

/-- A `JOIN` that reaches a member of a formed package: its leader decides, any other passes it on to the leader (R425;
DEDUCED, log 49). -/
def State.rejoin (s : State) (p d c0 c1 : Nat) : State :=
  if s.pkg.leader != s.pos then (if s.pkg.leader == d then s else s.sendAdmit s.pkg.leader 1 d 0 0 [c0, c1])
  else if s.pkg.members.testBit d then s.refuseDie p d 1
  else if !s.pkgMask.testBit d then s.refuseDie p d 3
  else if decide (bitsOf c0 0 8 < s.level) || bitsOf c1 0 6 &&& s.rfld 0x0020 16 6 != s.rfld 0x0020 16 6 then s.refuseDie p d 2
  else
    let s : State := (s.sendLevel d (s.reg 0x0020).toNat).readmit d c1
    ((bitList s.pkg.members 8).filter (· != s.pos)).foldl (fun s m => s.sendAdmit m 2 d s.level 0 [c0, c1]) s

/-- A `JOIN` is received (R415, R425). -/
def State.join (s : State) (p : Nat) (k : Packet) : State :=
  let d := pktLE k 1 1
  let c0 := pktLE k 4 4
  let c1 := pktLE k 8 4
  if pktLE k 0 1 != 1 then s
  else if s.pkg.accepted then s.rejoin p d c0 c1
  else if (Tab.get none s.pkg.joins d).isSome || d == s.pos then
    s.onPkg (fun x => { x with refusals := x.refusals ++ [(p, d, 1)] })
  else if !s.pkgMask.testBit d then s.onPkg (fun x => { x with refusals := x.refusals ++ [(p, d, 3)] })
  else (s.onPkg (fun x => { x with joins := Tab.set none x.joins d (some (c0, c1)) })).tryForm

/-- `JOIN` (R415). -/
def execJoin (p : Nat) (k : Packet) (s : State) : Host.Outcome State Fault Refusal :=
  let k := asType k 4 8
  onUnit (isPort p) p (s.receive p k (fun s => s.join p k))

/-- An `ACCEPT` is received (R415, R425). -/
def State.accept (s : State) (k : Packet) : State :=
  let d := pktLE k 1 1
  if pktLE k 0 1 != 2 then s
  else if d == s.pos then
    let mem := pktLE k 20 1
    (s.onPkg (fun x => { x with
      accepted := true, members := mem, leader := k.srcDie, mepoch := pktLE k 22 2
      lostSeen := s.pkgMask - (mem &&& s.pkgMask) })).joinedEvent d s.ownCaps.2
  else if s.pkg.accepted && decide (d < 8) && !s.pkg.members.testBit d then s.readmit d (pktLE k 8 4)
  else s

/-- `ACCEPT` (R425). -/
def execAccept (p : Nat) (k : Packet) (s : State) : Host.Outcome State Fault Refusal :=
  let k := asType k 4 8
  onUnit (isPort p) p (s.receive p k (fun s => s.accept k))

/-- A `REFUSE` is received (R414, R426). -/
def State.refusedJoin (s : State) (k : Packet) : State :=
  if pktLE k 0 1 != 3 then s
  else s.event { typ := 0x0281, pay := [(0x18, 4, pktLE k 1 1), (0x1C, 4, pktLE k 3 1)] }

/-- `REFUSE` (R414). -/
def execRefuse (p : Nat) (k : Packet) (s : State) : Host.Outcome State Fault Refusal :=
  let k := asType k 4 8
  onUnit (isPort p) p (s.receive p k (fun s => s.refusedJoin k))

/-! ### `LOST` (R422, R423) -/

/-- A `LOST` is received (R422): the first for a die is passed on to every member reached directly, and acted on. -/
def State.lostNotice (s : State) (k : Packet) : State :=
  let d := pktLE k 1 1
  if pktLE k 0 1 != 4 || d == s.pos || !s.pkg.members.testBit d || s.pkg.lostSeen.testBit d then s
  else
    (s.sendLost d ((s.neighbours).filter (fun m => m != d && m != k.srcDie))).loseDie d (pktLE k 24 8)

/-- `LOST` (R423). -/
def execLost (p : Nat) (k : Packet) (s : State) : Host.Outcome State Fault Refusal :=
  let k := asType k 4 8
  onUnit (isPort p) p (s.receive p k (fun s => s.lostNotice k))

/-! ### The reference clock (R410 to R413) -/

/-- `CLK_ROLE`.`MASTER`. -/
def State.isMaster (s : State) : Bool := s.rfld 0x0C00 0 1 == 1

/-- Enter package clock fault (R413); `d` is the master that sent `CLOCK_FAULT`. -/
def State.clockFault (s : State) (d : Nat) : State :=
  let s : State := s.onPkg (fun k => { k with lastClockFault := some s.now })
  if s.pkg.clkFault then s
  else ((s.onPkg (fun k => { k with clkFault := true })).event { typ := 0x0287, pay := [(0x18, 4, d)] }).abandonAll

/-- `CLOCK_FAULT` (R413). -/
def execClockFault (p : Nat) (k : Packet) (s : State) : Host.Outcome State Fault Refusal :=
  let k := asType k 4 8
  onUnit (isPort p) p (s.receive p k (fun s => if pktLE k 0 1 == 5 then s.clockFault k.srcDie else s))

/-- The reference is lost (R411, R413): holdover begins; a master warns every member and enters package clock fault, and
so does a die that has heard a `CLOCK_FAULT` within 20 µs. -/
def State.refLoss (s : State) : State :=
  if s.pkg.holdover || !s.pkg.refOk then s
  else
    let s : State := s.onPkg (fun k => { k with refOk := false, holdover := true, holdoverStart := s.now })
    if s.isMaster then
      (((bitList s.pkg.members 8).filter (· != s.pos)).foldl (fun s m => s.sendAdmit m 5 s.pos 0 0 []) s).clockFault s.pos
    else match s.pkg.lastClockFault with
      | some t => if s.now < t + 20000 then s.clockFault s.pkg.leader else s
      | none => s

/-- `REF_LOSS` (R411). -/
def execRefLoss (s : State) : Host.Outcome State Fault Refusal := .next s.refLoss

/-- A die in package clock fault at the end of its holdover: its ports and clock outputs idle, and `ALERT_N` is asserted
(R413). -/
def State.clockStop (s : State) : State := s.portsIdle.onPkg (fun k => { k with alertN := true, clkOut := 0 })

/-- The reference has been back for 5 µs within the holdover (R411), which ends: so do the ports of a die in package clock
fault (R413). -/
def State.refReturn (s : State) : State :=
  if !s.pkg.holdover || decide (s.pkg.holdoverStart + 20000 ≤ s.now) then s
  else
    let s : State := (s.onPkg (fun k => { k with refOk := true, holdover := false })).event
      { typ := 0x0286, pay := [(0x18, 4, s.now - s.pkg.holdoverStart)] }
    if s.pkg.clkFault then s.clockStop else s

/-- `REF_RETURN` (R411). -/
def execRefReturn (s : State) : Host.Outcome State Fault Refusal := .next s.refReturn

/-- Holdover reaches 20 µs (R412, R413): a slave isolates itself; a die in package clock fault drives its ports and
clock outputs to idle and asserts `ALERT_N`. -/
def State.holdoverEnd (s : State) : State :=
  if !s.pkg.holdover || decide (s.now < s.pkg.holdoverStart + 20000) then s
  else
    let s : State := s.onPkg (fun k => { k with holdover := false })
    if s.pkg.clkFault then s.clockStop
    else if s.isMaster then s
    else s.isolate 1

/-- `HOLDOVER_EXPIRY` (R412). -/
def execHoldoverExpiry (s : State) : Host.Outcome State Fault Refusal := .next s.holdoverEnd

end Sys2Proof.Machine
end

