-- ==== Sys2Proof/Machine/Faults.lean ====
section
/-!
DEFINITION. Faults: fencing of cores, corrected errors, uncore faults, driver fences and releases, core resets, replay and
the two-phase commit (spec/17_faults_fencing_and_replay.md R449 to R472; spec/16 R433, R434).
-/

namespace Sys2Proof.Machine

open Sys2Proof

/-- Change the fault registers. -/
def State.onFlt (s : State) (f : Flt → Flt) : State := { s with flt := f s.flt }

/-- The tiles that a word written to register `w` of three names (R433, R470). -/
def maskTiles (w : Nat) (v : Word) : List Nat :=
  ((bitList v.toNat 32).map (fun i => 32 * w + i)).filter (fun t => decide (t < Config.tiles))

/-! ### Fencing (R450, R454, R459) -/

/-- Descriptors that lose work to the fence of a tile: the one whose program runs there, a Reed transfer on its logical
core, and a pre-empted one with a member there (R450, R455, R459). -/
def State.fenceHits (s : State) (t : Nat) : List Desc :=
  let c := s.coreOf t
  s.qm.descs.filter (fun d =>
    (d.st == .running && d.opcode == 1 && (s.tile t).worksFor d)
    || (d.st == .running && (d.opcode == 6 || d.opcode == 7) && d.outcome.isNone && (match c with
        | some c => d.cores.contains c
        | none => false))
    || (d.st == .preempted && (match c with
        | some c => d.cores.contains c
        | none => false)))

/-- A descriptor is hit by the fence of a tile: the frames of a pre-empted one are discarded (R459), and it is pre-empted no
longer (R315). -/
def State.fenceDesc (s : State) (t : Nat) (d : Desc) : State :=
  let s : State := if d.st == .preempted then
      ((s.dropFrames d).onDesc d.uid (fun d => { d with st := .running, startTs := s.now })).settle d.stream
    else s
  s.hitDesc d.uid causeCoreFault t

/-- Close a tile's part in everything: its windows, its work, its slots, its place in the core map (R255, R352, R450). -/
def State.fenceTile (s : State) (t : Nat) : State := (((s.closeWindows t 5).abandonTile t).sealTile t 5).mapFence t

/-- A core fault, or a fence by the driver (R450, R470): `src` is the source that `FAULT_CORE` names. A tile that is not
in service runs nothing to fence. -/
def State.coreFault (s : State) (t src : Nat) : State :=
  if s.tileSt t != .inService then s
  else
    let hits := s.fenceHits t
    let seq := match hits.find? (fun d => d.st == .running) with
      | some d => d.seq
      | none => 2 ^ 32 - 1
    let core := (s.coreOf t).getD 63
    let s : State := hits.foldl (fun s d => s.fenceDesc t d) s
    let s : State := s.fenceTile t
    (s.onFlt (fun f => { f with core := true, lastTile := t, coreCount := satAdd f.coreCount 1 })).event
      { typ := 0x0100, tile := t, pay := [(0x18, 4, t + core * 2 ^ 8), (0x1C, 4, src), (0x20, 4, seq)] }

/-- `CORE_FAULT` (R450). -/
def execCoreFault (t src : Nat) (s : State) : Host.Outcome State Fault Refusal := onUnit (isTile t) t (s.coreFault t src)

/-! ### Corrected errors (R453) -/

/-- A corrected error of a tile, or of the uncore (127) (R453, R470). -/
def State.corrected (s : State) (t : Nat) : State :=
  let s : State := s.onFlt (fun f => { f with ceCount := satAdd f.ceCount 1 })
  if t == 127 then s.onFlt (fun f => { f with uncoreCe := true })
  else
    let w := s.now / 10 ^ 9 * 10 ^ 9
    let old := Tab.get (0, 0) s.flt.ceWin t
    let n := (if old.2 == w then old.1 else 0) + 1
    let lim := s.rfld 0x341C 0 16
    s.onFlt (fun f => { f with
      ceWin := Tab.set (0, 0) f.ceWin t (n, w)
      predict := if lim != 0 && decide (lim ≤ n) then f.predict ||| 2 ^ t else f.predict })

/-- `CORRECTED_ERROR` (R453). -/
def execCorrectedError (t : Nat) (s : State) : Host.Outcome State Fault Refusal :=
  onUnit (isTile t || t == 127) t (s.corrected t)

/-- Whether a tile runs nothing (R453): no program, no queued command, no descriptor that is to run or resume there. -/
def State.tileIdle (s : State) (t : Nat) : Bool :=
  (s.tile t).isFree && (match s.coreOf t with
    | some c => !s.qm.descs.any (fun d => d.started && d.st != .finished && d.outcome.isNone && d.cores.contains c)
    | none => true)

/-- A tile over the limit is fenced by prediction once it runs nothing (R453). -/
def State.predictFence (s : State) (t : Nat) : State :=
  if !s.flt.predict.testBit t || s.tileSt t != .inService || !s.tileIdle t then s
  else
    let n := (Tab.get (0, 0) s.flt.ceWin t).1
    let s : State := (s.fenceTile t).onFlt (fun f => { f with predict := putBits f.predict t 1 0 })
    s.event { typ := 0x0105, tile := t, pay := [(0x18, 4, t), (0x1C, 4, n)] }

/-- `CE_PREDICTIVE_FENCE` (R453). -/
def execCePredictiveFence (t : Nat) (s : State) : Host.Outcome State Fault Refusal := onUnit (isTile t) t (s.predictFence t)

/-! ### Uncore faults (R449) -/

/-- An uncorrectable error in block `b` of the uncore (R449, R471): the event, then isolation. The spec gives the
`DIE_ISOLATED` event no cause for it: a free value (log 1). -/
def State.uncoreFault (s : State) (b : Nat) : State :=
  if s.pkg.isolated then s
  else ((s.event { typ := 0x0104, pay := [(0x18, 4, b)] }).isolate (s.fv 0).toNat).tick

/-- `UNCORE_FAULT` (R449). -/
def execUncoreFault (b : Nat) (s : State) : Host.Outcome State Fault Refusal := .next (s.uncoreFault b)

/-! ### Driver fences, releases and core resets (R433, R434, R470) -/

/-- A fence or release write names a tile in another state. -/
def State.fenceErr (s : State) : State := s.onFlt (fun f => { f with fenceErr := true })

/-- A write to `FENCE_MASK`*w* (R470). -/
def State.fenceMask (s : State) (w : Nat) (v : Word) : State :=
  (maskTiles w v).foldl (fun s t => if s.tileSt t == .inService then s.coreFault t 7 else s.fenceErr) s

/-- `FENCE_MASK` (R470). -/
def execFenceMask (w : Nat) (v : Word) (s : State) : Host.Outcome State Fault Refusal := .next (s.fenceMask w v)

/-- Begin a CRST of a tile (R430, R434); `why` is 1 for the register, 2 for fault handling. -/
def State.beginCrst (s : State) (t why : Nat) : State :=
  ({ s with mgmt := { s.mgmt with crst := s.mgmt.crst ||| 2 ^ t } }).event
    { typ := 0x0605, tile := t, pay := [(0x18, 4, t), (0x1C, 4, why)] }

/-- A write to `FENCE_RELEASE`*w* (R470): CRST, then BIST. -/
def State.fenceRelease (s : State) (w : Nat) (v : Word) : State :=
  (maskTiles w v).foldl (fun s t =>
    if s.tileSt t != .fenced then s.fenceErr
    else if s.mgmt.releasing.testBit t then s
    else
      let s : State := if s.mgmt.crst.testBit t then s else s.beginCrst t 2
      { s with mgmt := { s.mgmt with releasing := s.mgmt.releasing ||| 2 ^ t } }) s

/-- `FENCE_RELEASE` (R470). -/
def execFenceRelease (w : Nat) (v : Word) (s : State) : Host.Outcome State Fault Refusal := .next (s.fenceRelease w v)

/-- A write to `CORE_RESET_MASK`*w* (R433). -/
def State.coreResetMask (s : State) (w : Nat) (v : Word) : State :=
  (maskTiles w v).foldl (fun s t =>
    match s.tileSt t with
    | .inService => { s with mgmt := { s.mgmt with crstErr := true } }
    | .admitting => { s with mgmt := { s.mgmt with crstErr := true } }
    | _ => if s.mgmt.crst.testBit t then s else s.beginCrst t 1) s

/-- `CORE_RESET_MASK` (R433). -/
def execCoreResetMask (w : Nat) (v : Word) (s : State) : Host.Outcome State Fault Refusal := .next (s.coreResetMask w v)

/-- The hold and the scrub of a CRST end (R30, R434): the tile is as after reset. Where a release asked for it, `pass`
is the result of the BIST that follows, which makes the tile a spare or failed (R470). -/
def State.crstDone (s : State) (t : Nat) (pass : Bool) : State :=
  if !s.mgmt.crst.testBit t || !s.clocked then s
  else
    let rel := s.mgmt.releasing.testBit t && s.tileSt t == .fenced
    let s : State := { s.onTile t (fun _ => Tile.init) with mgmt := { s.mgmt with
      crst := putBits s.mgmt.crst t 1 0, releasing := putBits s.mgmt.releasing t 1 0 } }
    if rel then
      (s.setTileSt t (if pass then .spare else .failed)).event
        { typ := 0x0106, tile := t, pay := [(0x18, 4, t), (0x1C, 4, if pass then 1 else 2)] }
    else s

/-- `CRST_DONE` (R434). -/
def execCrstDone (t : Nat) (pass : Bool) (s : State) : Host.Outcome State Fault Refusal := onUnit (isTile t) t (s.crstDone t pass)

/-! ### Replay (R452, R455 to R458) -/

/-- The tile that now carries the member which lost its tile: one on which no run of the descriptor has been. -/
def State.newTile (s : State) (d : Desc) : Nat :=
  ((s.tilesOf d).find? (fun t => !((s.tile t).seq.stream == d.stream && (s.tile t).seq.seqNo == d.seq && (s.tile t).seq.phase != .idle))).getD 127

/-- Replay a descriptor that a fault has ended (R455, R458): every member is abandoned, what the run left is discarded,
and the descriptor starts again on the same logical cores once all are mapped. With an absent core it ends with `KILLED`
and cause code 0x18 (R452). -/
def State.replay (s : State) (uid : Nat) : State :=
  match s.desc uid with
  | none => s
  | some d =>
    if !d.willReplay || d.st == .finished then s
    else
      let s : State := (s.stopWork d).dropFrames d
      match d.cores.find? (fun c => (s.core c).st == .absent) with
      | some c =>
        (s.onDesc uid (fun d => { d with outcome := some (stKilled, causeAbsent, 127), defer := [] })).absentEvent c (s.core c).tile
      | none =>
        if d.cores.any (fun c => (s.core c).st != .mapped) then s.onDesc uid (fun d => { d with defer := [] })
        else
          let fault := match d.outcome with
            | some (_, c, t) => (c, t)
            | none => (0, 127)
          let tile := if fault.1 == causeCoreFault then s.newTile d else 127
          let s : State := (s.onDesc uid (fun d => { d.restart s.now with
            replays := d.replays + 1, spent := 0, wrote := [], lastFault := fault })).settle d.stream
          (s.onFlt (fun f => { f with replayCount := satAdd f.replayCount 1 })).event
            { d.ev with typ := 0x0101, pay := [(0x18, 4, d.seq), (0x1C, 4, d.replays + 1), (0x20, 4, tile)] }

/-- `DESC_REPLAY` (R458). -/
def execDescReplay (d : Nat) (s : State) : Host.Outcome State Fault Refusal := .next (s.replay d)

/-! ### Two-phase commit (R460 to R464) -/

/-- The commit point (R462): every member has reached `END` and the apply begins. -/
def State.commitPoint (s : State) (uid : Nat) : State :=
  match s.desc uid with
  | none => s
  | some d =>
    if d.opcode == 1 && d.commit && d.st == .running && d.outcome.isNone && d.allEnded then
      s.onDesc uid (fun d => { d with committing := true })
    else s

/-- `COMMIT_POINT` (R462). -/
def execCommitPoint (d : Nat) (s : State) : Host.Outcome State Fault Refusal := .next (s.commitPoint d)

/-- The records of a descriptor's logs: in member order, each log in append order (R462). -/
def State.logRecords (s : State) (d : Desc) : List (Nat × List Byte) :=
  (List.range d.cores.length).flatMap (fun m => Tab.get [] s.flt.logs (64 * d.uid + m))

/-- Apply one record: a refused or poisoned target keeps its bytes and decides the descriptor (R364, R466). Answers also
how many acknowledgements are awaited, and whether the record was lost for want of a way (R463). -/
def State.applyRecord (s : State) (d : Desc) (r : Nat × List Byte) : Written :=
  let a := s.deny d.job true false r.1 r.2.length
  if a != 0 then ⟨(s.denied d.ev 63 r.1 a).hitDesc d.uid causeDeny 127, 0, none⟩
  else if s.isPoisoned r.1 r.2.length then ⟨(s.poisonEvent d.ev r.1).hitDesc d.uid causePoison 127, 0, none⟩
  else s.wrPkgAs r.1 d.job 120 r.2 { OpenTx.posted with tile := 127, eng := 4, uid := d.uid }

/-- Apply the records of a descriptor's logs. -/
def State.applyRecords (s : State) (d : Desc) : Written :=
  (s.logRecords d).foldl (fun x r =>
    let y := x.st.applyRecord d r
    ⟨y.st, x.acks + y.acks, match x.lost with
      | some b => some b
      | none => y.lost⟩) ⟨s, 0, none⟩

/-- Whether a write of a descriptor's own transfer is still to be acknowledged. -/
def State.writesOpen (s : State) (uid : Nat) : Bool :=
  s.rdc.opens.any (fun e => match e.2 with
    | some o => o.tile == 127 && o.uid == uid && !o.answered
    | none => false)
  || s.rdc.dues.any (fun x => x.tile == 127 && x.uid == uid)

/-- The apply of a descriptor's logs begins, or begins again (R462, R463): nothing is left but to wait for what lies on
other dies. -/
def State.applyLogs (s : State) (d : Desc) : State :=
  if (s.logRecords d).any (fun r => s.held r.1 r.2.length) then s
  else
    let x := s.applyRecords d
    let s := x.st.putXfer d.uid { d.newXfer with ans := if x.lost.isSome then 9 else 1, stored := true, loadRows := x.acks }
    if x.acks = 0 && x.lost.isNone then (s.conclude d.uid stOK 0 127).dropLogs d.uid else s

/-- The copy engine applies every log, and the descriptor is complete once the writes have been acknowledged (R26,
R462). Records that were lost with a port are applied again: the whole of the logs, in their order, once nothing of the
earlier apply is on its way (R463; log 42). -/
def State.commitDone (s : State) (uid : Nat) : State :=
  match s.desc uid with
  | none => s
  | some d =>
    if !d.committing || d.outcome.isSome || !s.clocked then s
    else match d.xfer with
      | none => s.applyLogs d
      | some e =>
        if e.ans == 8 || e.ans == 9 then (if s.writesOpen uid then s else s.applyLogs d)
        else
          match ansStop s e with
          | some r => (s.stopDesc d r).dropLogs uid
          | none => if e.loadRows == 0 then (s.conclude uid stOK 0 127).dropLogs uid else s

/-- `COMMIT_APPLY_DONE` (R462): the apply, and what is left of it when acknowledgements are awaited. -/
def execCommitApplyDone (d : Nat) (s : State) : Host.Outcome State Fault Refusal := .next (s.commitDone d)

end Sys2Proof.Machine
end

