-- ==== Sys2Proof/Machine/Reset.lean ====
section
/-!
DEFINITION. Reset levels and their requests, boot up to readiness (spec/16_reset_options_and_boot.md R427 to R432, R435 to
R437, R441, R443, R509; spec/13 R351, R360; spec/21 R537).

Reset pins, supplies and the outcomes of self-tests come with the commands.
-/

namespace Sys2Proof.Machine

open Sys2Proof

/-- Change the management state. -/
def State.onMgmt (s : State) (f : Mgmt → Mgmt) : State := { s with mgmt := f s.mgmt }

/-! ### What a reset clears and spares (R427, R508, R557) -/

/-- What package memory holds after the memory keys are lost (R501): a byte homed on an encrypted stack reads as whatever
the new keys make of it. -/
def State.scramble (s : State) : Mem :=
  s.mem.foldl (fun m e => match s.homeStack e.1 with
    | some k => if s.sec.memEnc.testBit (k % 4) then m.wr e.1 (Config.outsideByte s.free e.1) else m
    | none => m) s.mem

/-- Ports after a reset, at electrical idle; `RETRAINS` counts since POR (R404), and before SRST idles it an `UP` port sends
the sideband link-reset message (R435). -/
def State.portsAfter (s : State) (por : Bool) : Tab Port :=
  if por then []
  else s.ports.foldl (fun t e => Tab.set Port.init t e.1 { Port.init with
    retrains := e.2.retrains, linkReset := e.2.st == .up || e.2.linkReset }) []

/-- Test access after SRST: the TAP, the die wrapper and the trace buffer are spared (R427). -/
def Tst.srst (t : Tst) : Tst :=
  { Tst.init with
    ir := t.ir, wir := t.wir, boundary := t.boundary, outMode := t.outMode, dr := t.dr, cfgData := t.cfgData
    cfgRefused := t.cfgRefused, cfgDone := t.cfgDone, fuseData := t.fuseData, trace := t.trace, wptr := t.wptr
    full := t.full, lost := t.lost, lostFlag := t.lostFlag }

/-- The non-volatile part of the management state: the option images, and what Moatum has fused. An image whose commit is
under way is cut short (R437). -/
def Mgmt.kept (m : Mgmt) : Mgmt :=
  let toB := m.optCurrent == some false
  { Mgmt.init with
    imgA := m.imgA, imgB := m.imgB, cutA := m.cutA || (m.optBusy && !toB), cutB := m.cutB || (m.optBusy && toB)
    serial := m.serial, es := m.es }

/-- Onjan after a reset: fuses, and a pending transition takes effect (R492); the refusals last until POR (R506). -/
def Sec.kept (k : Sec) (por : Bool) : Sec :=
  { Sec.init with
    life := Life.majority k.copies, copies := k.copies, idKey := k.idKey, minSvn := k.minSvn, fk0Revoked := k.fk0Revoked
    refusals := if por then 0 else k.refusals, lockout := !por && k.lockout }

/-- The die in reset: everything at its reset value but what the level spares. -/
def State.afterReset (s : State) (por : Bool) : State :=
  { State.reset with
    mem := s.scramble, fuses := s.fuses, free := s.free + 1, pending := s.pending, mgmt := s.mgmt.kept
    sec := s.sec.kept por, ports := s.portsAfter por
    time := { Time.init with masterMs := if por then 0 else s.time.masterMs }
    tst := if por then Tst.init else s.tst.srst
    bw := { Bw.init with trip := !por && s.bw.trip }
    pkg := { Pkg.init with
      refOk := !por && s.pkg.refOk, clkOut := if !por && s.pkg.refOk then s.pkg.clkOut else 0, thermtripN := !por && s.pkg.thermtripN }
    cfg := if por then resetRegs
      else Tab.set 0 (Tab.set 0 resetRegs 0x3C20 (s.reg 0x3C20)) 0x3C28 (s.reg 0x3C28) }

/-- A reset takes effect (R427, R430). -/
def State.takeReset (s : State) (lvl : ResetLevel) (cause sub die ts : Nat) (deferred : Bool) : State :=
  (s.afterReset (lvl == .por)).onMgmt (fun m => { m with
    cause := cause, sub := sub, reqDie := die, deferredBit := deferred, causeTs := if lvl == .por then 0 else ts })

/-- Whether the reset that took effect last was a POR. -/
def Mgmt.wasPor (m : Mgmt) : Bool := m.cause ≤ 2

/-! ### Fuse pulses (R436, R492, R495, R519) -/

/-- What one pulse does. -/
def State.pulsed (s : State) (p : FusePulse) : State :=
  match p with
  | .bit w b => { s with fuses := Tab.set 0 s.fuses w (BitVec.ofNat 32 (putBits (Tab.get 0 s.fuses w).toNat b 1 1)) }
  | .svn old last =>
    let s : State := { s with sec := { s.sec with minSvn := s.sec.minSvn + 1 } }
    if last then s.event { typ := 0x0409, pay := [(0x18, 4, old), (0x1C, 4, s.sec.minSvn)] } else s
  | .fk0 => { s with sec := { s.sec with fk0Revoked := true } }
  | .life c l =>
    let (x, y, z) := s.sec.copies
    { s with sec := { s.sec with copies := match c with
      | 0 => (l, y, z)
      | 1 => (x, l, z)
      | _ => (x, y, l) } }

/-- How long the next pulse takes, up to 20 µs: a free value (R436; log 1). -/
def State.pulseTime (s : State) : Nat := 1 + (s.fv 0).toNat % 20000

/-- Pulses are to be made, one after another, behind those that are under way; none starts while a reset waits (R436). -/
def State.blow (s : State) (ps : List FusePulse) : State :=
  if s.mgmt.pendingReset.isSome || ps.isEmpty then s
  else (s.onMgmt (fun m => { m with
    pulses := m.pulses ++ ps, pulseNs := if m.pulseNs = 0 then s.pulseTime else m.pulseNs })).tick

/-- One nanosecond of the pulse in progress. With its end the next one starts, unless a reset waits: then the rest is cut
short (R436, R437). -/
def State.pulse (s : State) : State :=
  match s.mgmt.pulses with
  | [] => s
  | p :: ps =>
    if 1 < s.mgmt.pulseNs then s.onMgmt (fun m => { m with pulseNs := m.pulseNs - 1 })
    else
      let ps := if s.mgmt.pendingReset.isSome then [] else ps
      ((s.pulsed p).onMgmt (fun m => { m with pulses := ps, pulseNs := if ps.isEmpty then 0 else s.pulseTime })).tick

/-- A reset by the supply monitor cuts a pulse: its cell is left in either state, a free value (R437; log 1). -/
def State.pulseCut (s : State) : State :=
  match s.mgmt.pulses with
  | [] => s
  | p :: _ => (if (s.fv 1).getLsbD 0 then s.pulsed p else s).tick

/-- A request for a reset (R429, R436): discarded in reset unless its level is higher; it waits for the end of a
non-volatile pulse, apart from one by the supply monitor. -/
def State.requestReset (s : State) (lvl : ResetLevel) (cause sub die : Nat) : State :=
  if s.mgmt.stage == 1 then
    if lvl == .por && !s.mgmt.wasPor then s.takeReset .por cause sub die s.now false else s
  else
    match s.mgmt.pendingReset with
    | some (old, _) =>
      if cause == 1 then s.pulseCut.takeReset .por cause sub die s.now false
      else if lvl == .por && old == .srst then s.onMgmt (fun m => { m with pendingReset := some (lvl, cause, sub, die, s.now) })
      else s
    | none =>
      if cause == 1 then s.pulseCut.takeReset lvl cause sub die s.now false
      else if s.mgmt.optBusy || s.mgmt.pulseNs != 0 then
        s.onMgmt (fun m => { m with pendingReset := some (lvl, cause, sub, die, s.now) })
      else s.takeReset lvl cause sub die s.now false

/-- `POR_SUPPLY`: a supply has been below its threshold for more than 200 ns (R436, R537). -/
def execPorSupply (s : State) : Host.Outcome State Fault Refusal := .next (s.requestReset .por 1 0 0)

/-- Whether a low pulse of `ns` on a reset pin is a request (R428): `taken` decides between 50 ns and 100 ns. -/
def pulseTaken (ns : Nat) (taken : Bool) : Bool := decide (100 ≤ ns) || (decide (50 ≤ ns) && taken)

/-- `PORST_N` (R428). -/
def execPorstN (ns : Nat) (taken : Bool) (s : State) : Host.Outcome State Fault Refusal :=
  .next (if pulseTaken ns taken then s.requestReset .por 2 0 0 else s)

/-- `SYSRST_N` (R428). -/
def execSysrstN (ns : Nat) (taken : Bool) (s : State) : Host.Outcome State Fault Refusal :=
  .next (if pulseTaken ns taken then s.requestReset .srst 3 0 0 else s)

/-! ### The watchdog and requests by register and packet (R431, R432) -/

/-- `SYS_WDOG_EXPIRY`: the window since the last kick has ended (R431). -/
def execSysWdogExpiry (s : State) : Host.Outcome State Fault Refusal :=
  .next (if bitAt (s.reg 0x0410) 31 && decide (s.mgmt.wdogStart + 10 ^ 6 * s.rfld 0x0410 0 16 ≤ s.now) then
      s.requestReset .srst 5 0 0
    else s)

/-- Restart the watchdog's window (R431). -/
def State.wdogKick (s : State) : State := s.onMgmt (fun m => { m with wdogStart := s.now })

/-- `SYS_WDOG_KICK` (R431). -/
def execSysWdogKick (s : State) : Host.Outcome State Fault Refusal := .next s.wdogKick

/-- `RESET_CTRL_SRST` (R431). -/
def execResetCtrlSrst (s : State) : Host.Outcome State Fault Refusal := .next (s.requestReset .srst 6 1 0)

/-- Data of a `RESET_REQ` (R432). -/
def resetBytes (targets ts : Nat) : List Byte :=
  [1, BitVec.ofNat 8 targets, 0, 0, 0, 0, 0, 0] ++ leBytes 8 ts ++ List.replicate 16 0

/-- A write of `PKG_SRST` (R431, R432): the leader asks every other member, and waits. -/
def State.pkgSrst (s : State) : State :=
  if !(s.pkg.accepted && s.pkg.leader == s.pos) then s.onMgmt (fun m => { m with ctrlErr := true })
  else if s.mgmt.pkgWait.isSome then s
  else
    let others := (bitList s.pkg.members 8).filter (· != s.pos)
    let mask := others.foldl (fun m d => m + 2 ^ d) 0
    let s : State := others.foldl (fun s d => s.send d (withData (s.packet 4 6 d 123) (resetBytes mask s.now)) none) s
    s.onMgmt (fun m => { m with pkgWait := some s.now })

/-- `PKG_SRST` (R432). -/
def execPkgSrst (s : State) : Host.Outcome State Fault Refusal := .next s.pkgSrst

/-- Whether a `RESET_REQ` of this die waits to be sent or acknowledged at link level. -/
def State.resetReqOpen (s : State) : Bool :=
  s.ports.any (fun e => (e.2.unacked ++ e.2.queue).any (fun k => k.cls == 4 && k.ptype == 6 && k.srcDie == s.pos))

/-- A reset that waited takes effect (R432, R436): the pulse has ended, or the leader's packets have been acknowledged, or
10 µs have passed. -/
def State.deferredReset (s : State) : State :=
  match s.mgmt.pendingReset with
  | some (lvl, cause, sub, die, ts) => if s.mgmt.pulseNs != 0 then s else s.takeReset lvl cause sub die ts true
  | none =>
    match s.mgmt.pkgWait with
    | some t =>
      if !s.resetReqOpen || decide (t + 10000 ≤ s.now) then
        (s.onMgmt (fun m => { m with pkgWait := none })).requestReset .srst 6 2 0
      else s
    | none => s

/-- `DEFERRED_RESET` (R436). -/
def execDeferredReset (s : State) : Host.Outcome State Fault Refusal := .next s.deferredReset

/-- The die position and mesh stop of a packet's origin, where an event carries both (log 22). -/
def originWord (k : Packet) : Nat := k.srcDie + k.srcStop * 2 ^ 8

/-- A `RESET_REQ` is received (R432). -/
def State.resetReq (s : State) (p : Nat) (k : Packet) : State :=
  if isDieRole (s.role p) && k.srcStop == 123 && s.pkg.accepted && k.srcDie == s.pkg.leader && pktLE k 0 1 == 1 && (pktLE k 1 1).testBit s.pos then
    s.requestReset .srst 4 0 k.srcDie
  else s.event { typ := 0x0606, pay := [(0x18, 4, p), (0x1C, 4, originWord k)] }

/-- `RESET_REQ` (R432). -/
def execResetReq (p : Nat) (k : Packet) (s : State) : Host.Outcome State Fault Refusal :=
  let k := asType k 4 6
  onUnit (isPort p) p (s.receive p k (fun s => s.resetReq p k))

/-! ### Boot (R441, R443, R509) -/

/-- A word of the fuse array. -/
def State.fuse (s : State) (w : Nat) : Word := Tab.get 0 s.fuses w

/-- The role of each port comes from the fuse array (R404, R519). -/
def State.senseRoles (s : State) : State :=
  (List.range Config.ports).foldl (fun s n =>
    s.setReg (0x1008 + 0x40 * n) (BitVec.ofNat 32 (fld (s.fuse (0x101 + n / 4)) (8 * (n % 4)) 8))) s

/-- `DIE_ID`, `DIE_REV`, `DIE_POSITION` and `CLK_ROLE` come from the fuse array. -/
def State.senseId (s : State) : State :=
  (((s.setReg 0x0000 (BitVec.ofNat 32 s.mgmt.serial)).setReg 0x0004 (BitVec.ofNat 32 (0xB0 + bit1 s.mgmt.es * 2 ^ 8))).setReg
    0x0008 (BitVec.ofNat 32 (fld (s.fuse 0x100) 0 5 + fld (s.fuse 0x100) 8 8 * 2 ^ 8 + fld (s.fuse 0x11F) 0 1 * 2 ^ 31))).setReg
    0x0C00 (BitVec.ofNat 32 (fld (s.fuse 0x100) 5 1))

/-- Fuse sense (R407, R408, R410, R440, R503): the fuses reach their registers. -/
def State.fuseSense (s : State) : State :=
  { s.senseId.senseRoles with sec := { s.sec with memEnc := fld (s.fuse 0x150) 0 5 } }

/-- A word of an option image, by byte offset. -/
def optAt (img : Tab Word) (off : Nat) : Word := Tab.get 0 img (off / 4)

/-- Every byte of an image before its check word. -/
def imageBytes (img : Tab Word) : List Byte := (List.range 16383).flatMap (fun i => leBytes 4 (Tab.get 0 img i).toNat)

/-- The spare set of an image, bit per tile. -/
def spareBits (img : Tab Word) : Nat :=
  (optAt img 0x1A4).toNat + (optAt img 0x1A8).toNat * 2 ^ 32 + (optAt img 0x1AC).toNat * 2 ^ 64

/-- Whether a value of `WW_ROUTE` marks no next hop as reserved (R405). -/
def routeOk (v : Word) (d : Nat) : Bool := fld v (4 * d) 4 < 8 || fld v (4 * d) 4 == 15

/-- Whether an envelope is one that `BW_ENVELOPE` allows (R489). -/
def envelopeOk (w : Nat) : Bool := decide (200 ≤ w) && decide (w ≤ 450)

/-- Whether an object table's size is one that `KW_OBJ_TABLE_CFG` allows (R348). -/
def objLog2Ok (n : Nat) : Bool := decide (10 ≤ n) && decide (n ≤ 20)

/-- Whether no field of an image holds a value that its register marks reserved (R440). -/
def optionsLegal (img : Tab Word) : Bool :=
  (List.range Config.ports).all (fun n => fld (optAt img (0x10 + 8 * n)) 2 2 != 3)
  && objLog2Ok (fld (optAt img 0x19C) 0 5) && fld (optAt img 0x1A0) 0 8 != 0
  && envelopeOk (fld (optAt img 0x1B4) 0 10) && (List.range 8).all (routeOk (optAt img 0x1BC))
  && decide (popCount (spareBits img) 96 ≤ 8)

/-- Whether an image is valid (R437, R440). -/
def imageValid (cut : Bool) (img : Tab Word) : Bool :=
  !cut && optAt img 4 == 1 && optionsLegal img && crc32c (imageBytes img) == (optAt img 0xFFFC).toNat

/-- The factory defaults in image layout, with `SEQ` 0 (R441, R442). -/
def State.factory (s : State) : Tab Word :=
  let put := fun (t : Tab Word) (off v : Nat) => Tab.set 0 t (off / 4) (BitVec.ofNat 32 v)
  let t := put [] 0x4 1
  let t := (List.range Config.ports).foldl (fun t n =>
    put (put t (0x10 + 8 * n) (bit1 (s.role n != 7) + 2 * 2 ^ 2 + 0x40 * 2 ^ 8)) (0x14 + 8 * n) 0xFFFFFFFF) t
  let t := put (put (put (put t 0x190 7) 0x198 0x1000) 0x19C 16) 0x1A0 (10 + 75 * 2 ^ 8 + 3 * 2 ^ 16 + 64 * 2 ^ 20)
  let spares := [0, 11, 22, 33, 44, 46, 57, 68].foldl (fun m t => m + 2 ^ t) 0
  let t := put (put (put t 0x1A4 spares) 0x1A8 (spares / 2 ^ 32)) 0x1AC (spares / 2 ^ 64)
  put (put (put (put t 0x1B0 (0x7F * 2 ^ 8)) 0x1B4 (450 + 450 * 2 ^ 16)) 0x1B8 (800 + 15 * 2 ^ 10 + 95 * 2 ^ 16 + 100 * 2 ^ 24))
    0x1BC 0xFFFFFFFF

/-- Copy an image's fields into their registers (R439). The grant in force is the envelope until a grant comes (log 24). -/
def State.applyOptions (s : State) (img : Tab Word) : State :=
  let s : State := (List.range Config.ports).foldl (fun s n =>
    (s.setReg (0x1000 + 0x40 * n) (optAt img (0x10 + 8 * n) &&& 0xFF1D)).setReg (0x100C + 0x40 * n)
      (optAt img (0x14 + 8 * n) &&& 0x0FFFFFFF)) s
  let s : State := (s.setReg 0x2400 (optAt img 0x190 &&& 7)).setReg 0x2408 (optAt img 0x194 &&& 0x0FFFFF03)
  let s : State := (s.setReg 0x240C (optAt img 0x198 &&& 0x0FFFFF03)).setReg 0x2410 (optAt img 0x19C &&& 0x1F)
  let s : State := (s.setReg 0x2414 (optAt img 0x1A0 &&& 0xFFF77FFF)).setFld 0x0C00 8 7 (fld (optAt img 0x1B0) 8 7)
  let s : State := (s.setReg 0x2C00 (optAt img 0x1B4 &&& 0x03FF03FF)).setReg 0x2C04 (optAt img 0x1B8 &&& 0xFF7FFFFF)
  let s : State := s.setReg 0x1C00 (optAt img 0x1BC)
  { s with bw := { s.bw with grant := fld (optAt img 0x1B4) 0 10 }, mgmt := { s.mgmt with spareSet := spareBits img } }

/-- Whether image B is the newer of two valid images (R441). -/
def newerB (a b : Tab Word) : Bool :=
  let n := ((optAt b 0).toNat + 2 ^ 32 - (optAt a 0).toNat) % 2 ^ 32
  decide (1 ≤ n) && decide (n ≤ 2 ^ 31 - 1)

/-- The option load (R439 to R441): `mOk` says whether region M is valid. -/
def State.optionLoad (s : State) (mOk : Bool) : State :=
  let m := s.mgmt
  let a := imageValid m.cutA m.imgA
  let b := imageValid m.cutB m.imgB
  let useB := b && (!a || newerB m.imgA m.imgB)
  let img := if useB then m.imgB else if a then m.imgA else s.factory
  (s.applyOptions img).onMgmt (fun m => { m with
    mValid := mOk, aValid := a, bValid := b, optDefaulted := !a && !b, optLoaded := useB
    optCurrent := if a || b then some useB else none, optImage := img, shadow := img, optDirty := false })

/-- The die halts in boot: only the TAP answers (R443). -/
def State.bootHalt (s : State) : State :=
  (s.onMgmt (fun m => { m with stage := 14 })).onPkg (fun k => { k with alertN := true })

/-- The clock outputs of a master whose PLLs run follow `OUT_EN` (R410, R435). -/
def State.clockOut (s : State) : State :=
  let runs := s.rfld 0x0C00 0 1 == 1 && decide (5 ≤ s.mgmt.stage) && !(s.pkg.clkFault && !s.pkg.holdover)
  s.onPkg (fun k => { k with clkOut := if runs then s.rfld 0x0C00 8 7 else 0 })

/-- Reset ends: fuse sense and option load (R443). `fuseOk` says whether the fuses were sensed. After SRST the PLLs run
already. -/
def State.bootStart (s : State) (fuseOk mOk : Bool) : State :=
  if s.mgmt.stage != 1 then s
  else if !fuseOk then s.bootHalt
  else
    let s : State := s.fuseSense.optionLoad mOk
    let s : State := s.onMgmt (fun m => { m with stage := if m.wasPor then 4 else 5 })
    if s.mgmt.stage == 5 then s.clockOut else s

/-- `BOOT_START` (R443). -/
def execBootStart (fuseOk mOk : Bool) (s : State) : Host.Outcome State Fault Refusal := .next (s.bootStart fuseOk mOk)

/-- `PLL_LOCK` (R443). -/
def execPllLock (s : State) : Host.Outcome State Fault Refusal :=
  .next (if s.mgmt.stage == 4 then
      ((s.onMgmt (fun m => { m with stage := 5 })).onPkg (fun k => { k with refOk := true })).clockOut
    else s)

/-- Copies of the lifecycle state that differ from the majority are programmed at boot (R492). -/
def State.repairLife (s : State) : State :=
  let (x, y, z) := s.sec.copies
  s.blow (([(0, x), (1, y), (2, z)].filter (fun e => e.2 != s.sec.life)).map (fun e => FusePulse.life e.1 s.sec.life))

/-- Onjan's self-tests end (R443, R506, R509): `HOST` ports may train. -/
def State.selfTestDone (s : State) (ok : Bool) : State :=
  if s.mgmt.stage != 5 then s
  else if !ok then s.bootHalt
  else
    let s : State := s.onMgmt (fun m => { m with stage := 7, ts5 := s.now })
    let s : State := { s with sec := { s.sec with selfTested := true, rngOk := true, dbgAuth := s.sec.life == .blank } }
    s.repairLife

/-- `ONJAN_SELFTEST_DONE` (R509). -/
def execOnjanSelftestDone (ok : Bool) (s : State) : Host.Outcome State Fault Refusal := .next (s.selfTestDone ok)

/-- Keywork initialisation begins (R349, R351, R415, R443): `JOIN` is sent, the base registers are read, and the tiles that
pass BIST (`pass`) are mapped. -/
def State.keyworkBegin (s : State) (pass : Nat) : State :=
  let s : State := if s.pkg.joined.isSome then s else s.joinNow
  s.kwLatch.buildMap pass s.mgmt.spareSet

/-- Whether every enabled port is `UP`, `FAILED` or retrying, which ends boot step 9 (R443). -/
def State.portsTried (s : State) : Bool :=
  (List.range Config.ports).all (fun p =>
    s.role p == 7 || s.rfld (0x1000 + 0x40 * p) 0 1 == 0 ||
    (let po := s.port p;
     po.st == .up || po.st == .failed || po.st == .isolated || po.st == .retraining || (po.st == .down && po.tried.isSome)))

/-- Keywork initialisation (R351, R360, R443): it begins once, when the ports have trained, and ends when the valid entries of the object table have been
dealt with; meanwhile it waits for initial contents from elsewhere. -/
def State.keyworkInit (s : State) (entries : List (Nat × List Word)) (pass : Nat) : State :=
  if s.mgmt.stage != 9 then s
  else
    if s.objLimit = 0 && !s.portsTried then s
    else
    let s := if s.objLimit = 0 then s.keyworkBegin pass else s
    match s.activateFrom (inIndexOrder entries) with
    | (s, true) => s.onMgmt (fun m => { m with stage := 10 })
    | (s, false) => s

/-- `KEYWORK_INIT` (R351, R360). -/
def execKeyworkInit (entries : List (Nat × List Word)) (pass : Nat) (s : State) : Host.Outcome State Fault Refusal :=
  .next (s.keyworkInit entries pass)

/-- The die is ready (R443). -/
def State.bootReady (s : State) : State :=
  if s.mgmt.stage != 10 then s
  else (s.onMgmt (fun m => { m with stage := 11, ts11 := s.now, bootEvent := true })).onKw (fun k => { k with
    ready := true, epoch := s.now / s.epochNs })

/-- `BOOT_READY` (R443). -/
def execBootReady (s : State) : Host.Outcome State Fault Refusal := .next s.bootReady

end Sys2Proof.Machine
end

