-- ==== Sys2Proof/Machine/Firmware.lean ====
section
/-!
DEFINITION. Firmware and the option store while the die works (spec/16_reset_options_and_boot.md R442, R444 to R447;
spec/19_onjan_security.md R494).
-/

namespace Sys2Proof.Machine

open Sys2Proof

/-! ### Streaming and verification (R444 to R446) -/

/-- A slot of management SRAM (R444). -/
def Mgmt.slot (m : Mgmt) (i : Nat) : Mem := Tab.get [] m.fwSlots i

/-- The slot that the running image does not occupy. -/
def Mgmt.freeSlot (m : Mgmt) : Nat := 1 - m.fwSlot

/-- A word of the header of the image in the free slot (R445). -/
def Mgmt.header (m : Mgmt) (off : Nat) : Nat := (m.slot m.freeSlot).rdLE off 4

/-- A write of `LOAD` (R445): a new stream replaces what the free slot holds, and with it a verified image or a switch
that waits (log 28). -/
def State.fwLoad (s : State) : State :=
  if decide (8 ≤ s.mgmt.stage) && decide (s.mgmt.stage ≤ 11) then
    s.onMgmt (fun m => { m with
      fwStream := true, fwPos := 0, fwErr := 0, updReady := false, switchReq := none
      fwSlots := Tab.set [] m.fwSlots m.freeSlot [] })
  else s

/-- `FW_LOAD` (R445). -/
def execFwLoad (s : State) : Host.Outcome State Fault Refusal := .next s.fwLoad

/-- A stream fails (R446): it is discarded; a live update reports it. -/
def State.fwFail (s : State) (e : Nat) : State :=
  let s : State := s.onMgmt (fun m => { m with fwStream := false, fwPos := 0, fwErr := e })
  if 9 ≤ s.mgmt.stage then
    (s.onMgmt (fun m => { m with updErr := true })).event { typ := 0x0604, pay := [(0x18, 4, e)] }
  else s

/-- A word of the stream (R445, R446): placed in the slot, or beyond `IMG_LEN`. -/
def State.fwData (s : State) (v : Word) : State :=
  let m := s.mgmt
  if !m.fwStream then s
  else if decide (458752 ≤ 4 * m.fwPos) || (decide (64 ≤ m.fwPos) && decide (256 + m.header 4 ≤ 4 * m.fwPos)) then s.fwFail 6
  else s.onMgmt (fun m => { m with
    fwPos := m.fwPos + 1, fwSlots := Tab.set [] m.fwSlots m.freeSlot ((m.slot m.freeSlot).wrLE (4 * m.fwPos) 4 v.toNat) })

/-- `FW_DATA` (R445). -/
def execFwData (v : Word) (s : State) : Host.Outcome State Fault Refusal := .next (s.fwData v)

/-- Whether Onjan accepts a signing key (R494): 1 DK, 2 FK0, 3 FK1; 0 when the signature verifies under none. -/
def Sec.keyOk (k : Sec) (key : Nat) : Bool :=
  match k.life with
  | .retired => false
  | .production => (key == 2 && !k.fk0Revoked) || key == 3
  | _ => key == 1 || (key == 2 && !k.fk0Revoked) || key == 3

/-- The error of verification, 0 for none (R445, R494; Table — FW_STATUS): the first that applies, in the order of their
codes, and a length that is illegal before anything is known of the body (log 28). -/
def State.fwCheck (s : State) (key : Nat) (hashOk : Bool) : Nat :=
  let m := s.mgmt
  let len := m.header 4
  if !s.sec.keyOk key then 1
  else if key != 1 && decide (m.header 0xC < s.sec.minSvn) then 2
  else if decide (458496 < len) || len % 4 != 0 then 3
  else if !(m.header 0x14).testBit 1 then 4
  else if !hashOk then 5
  else 0

/-- Verification ends (R445, R446): at boot the image starts; in a live update it waits for `SWITCH`. `key` is the key
under which the header's signature verifies, `hashOk` whether the body's hash matches. -/
def State.fwVerified (s : State) (key : Nat) (hashOk : Bool) : State :=
  let m := s.mgmt
  let e := s.fwCheck key hashOk
  let whole := 4 * m.fwPos == 256 + m.header 4
  if !m.fwStream || decide (m.fwPos < 64) || (!whole && (e == 0 || e == 5)) then s
  else if e != 0 then s.fwFail e
  else if m.stage == 8 then
    let s : State := s.onMgmt (fun m => { m with
      fwStream := false, stage := 9, ts8 := s.now, fwVersion := m.header 8, fwSlot := m.freeSlot })
    { s with sec := { s.sec with fwKey := key, fwSvn := m.header 0xC } }
  else
    let s : State := s.onMgmt (fun m => { m with fwStream := false, updReady := true, fwNewVersion := m.header 8 })
    { s with sec := { s.sec with fwNewKey := key } }

/-- `FW_VERIFIED` (R446). -/
def execFwVerified (key : Nat) (hashOk : Bool) (s : State) : Host.Outcome State Fault Refusal := .next (s.fwVerified key hashOk)

/-! ### Live update (R445, R447) -/

/-- A write of `SWITCH` (R447). -/
def State.fwSwitch (s : State) : State :=
  if s.mgmt.updReady && s.mgmt.switchReq.isNone then s.onMgmt (fun m => { m with switchReq := some s.now }) else s

/-- `FW_SWITCH` (R447). -/
def execFwSwitch (s : State) : Host.Outcome State Fault Refusal := .next s.fwSwitch

/-- `FW_ABORT`: the stream or the pending switch is discarded (R445). -/
def execFwAbort (s : State) : Host.Outcome State Fault Refusal :=
  .next (s.onMgmt (fun m => { m with fwStream := false, fwPos := 0, switchReq := none }))

/-- Whether a non-volatile pulse or a management request is in progress (R447): a commit, a command of Onjan, a reset that
waits. -/
def State.mgmtBusy (s : State) : Bool :=
  s.mgmt.optBusy || s.mgmt.pulseNs != 0 || s.sec.cmd != 0 || s.mgmt.pkgWait.isSome || s.mgmt.pendingReset.isSome

/-- The quiesce point within 1 ms (R447): control goes to the new image. How long the transfer takes, up to 20 µs, is a
free value. -/
def State.fwQuiesce (s : State) : State :=
  match s.mgmt.switchReq with
  | none => s
  | some t =>
    if s.mgmtBusy || decide (t + 10 ^ 6 ≤ s.now) then s
    else
      let m := s.mgmt
      let ns := (s.fv 0).toNat % 20001
      let s : State := s.tick.onMgmt (fun m => { m with
        switchReq := none, updReady := false, fwSlot := m.freeSlot, fwVersion := m.fwNewVersion })
      ({ s with sec := { s.sec with fwKey := s.sec.fwNewKey, fwSvn := m.header 0xC } }).event
        { typ := 0x0603, pay := [(0x18, 4, m.fwVersion), (0x1C, 4, m.fwNewVersion), (0x20, 4, ns)] }

/-- `FW_QUIESCE` (R447). -/
def execFwQuiesce (s : State) : Host.Outcome State Fault Refusal := .next s.fwQuiesce

/-- The quiesce point has not been reached in 1 ms (R447). -/
def State.fwQuiesceTimeout (s : State) : State :=
  match s.mgmt.switchReq with
  | none => s
  | some t =>
    if s.now < t + 10 ^ 6 then s
    else (s.onMgmt (fun m => { m with switchReq := none, updErr := true })).event { typ := 0x0604, pay := [(0x18, 4, 7)] }

/-- `FW_QUIESCE_TIMEOUT` (R447). -/
def execFwQuiesceTimeout (s : State) : Host.Outcome State Fault Refusal := .next s.fwQuiesceTimeout

/-! ### The option shadow and commits (R442) -/

/-- `OPT_ADDR` as a byte offset. -/
def State.optOff (s : State) : Nat := 4 * s.rfld 0x0808 2 14

/-- A refused shadow write. -/
def State.optRefuse (s : State) : State := s.onMgmt (fun m => { m with optErr := true })

/-- A write of `OPT_DATA` (R442). -/
def State.optData (s : State) (v : Word) : State :=
  let off := s.optOff
  if s.mgmt.optBusy || off < 8 || off == 0xFFFC then s.optRefuse
  else s.onMgmt (fun m => { m with shadow := Tab.set 0 m.shadow (off / 4) v, optDirty := true })

/-- `OPT_DATA` (R442). -/
def execOptData (v : Word) (s : State) : Host.Outcome State Fault Refusal := .next (s.optData v)

/-- A write of `REVERT` (R442): the image loaded at step 3 goes back into the shadow. -/
def State.optRevert (s : State) : State :=
  let m := s.mgmt
  if m.optBusy then s.optRefuse
  else
    let loaded := if m.optDefaulted then none else some m.optLoaded
    let img := if m.optDefaulted then s.factory else if m.optLoaded then m.imgB else m.imgA
    s.onMgmt (fun m => { m with shadow := img, optDirty := m.optCurrent != loaded })

/-- `OPT_REVERT` (R442). -/
def execOptRevert (s : State) : Host.Outcome State Fault Refusal := .next s.optRevert

/-- Whether a commit goes to image B. -/
def Mgmt.targetB (m : Mgmt) : Bool := m.optCurrent == some false

/-- A write of `COMMIT` (R436, R442): the target is invalid from the first pulse. -/
def State.optCommit (s : State) : State :=
  let m := s.mgmt
  if m.optBusy || m.pendingReset.isSome then s
  else if m.targetB then s.onMgmt (fun m => { m with optBusy := true, bValid := false, cutB := true })
  else s.onMgmt (fun m => { m with optBusy := true, aValid := false, cutA := true })

/-- `OPT_COMMIT` (R442). -/
def execOptCommit (s : State) : Host.Outcome State Fault Refusal := .next s.optCommit

/-- The image that a commit writes: the shadow with the next `SEQ`, `FORMAT` 1 and the check word (R442). -/
def Mgmt.commitImage (m : Mgmt) : Tab Word :=
  let t := Tab.set 0 (Tab.set 0 m.shadow 0 (BitVec.ofNat 32 (m.curSeq + 1))) 1 1
  Tab.set 0 t 16383 (BitVec.ofNat 32 (crc32c (imageBytes t)))

/-- A commit ends (R442): written, read back and checked; `ok` says whether the read-back matched, `failOff` the failing
offset otherwise. -/
def State.optCommitDone (s : State) (ok : Bool) (failOff : Nat) : State :=
  let m := s.mgmt
  if !m.optBusy || m.pendingReset.isSome then s
  else
    let b := m.targetB
    let img := m.commitImage
    if ok && optionsLegal img then
      (s.onMgmt (fun m =>
        if b then { m with optBusy := false, imgB := img, cutB := false, bValid := true, optCurrent := some true, optDirty := false }
        else { m with optBusy := false, imgA := img, cutA := false, aValid := true, optCurrent := some false, optDirty := false })).event
        { typ := 0x0601, pay := [(0x18, 4, bit1 b), (0x1C, 4, m.curSeq + 1)] }
    else
      (s.onMgmt (fun m => { m with optBusy := false, optErr := true })).event
        { typ := 0x0602, pay := [(0x18, 4, bit1 b), (0x1C, 4, failOff)] }

/-- `OPT_COMMIT_DONE` (R442). -/
def execOptCommitDone (ok : Bool) (failOff : Nat) (s : State) : Host.Outcome State Fault Refusal :=
  .next (s.optCommitDone ok failOff)

end Sys2Proof.Machine
end

