-- ==== Sys2Proof/Machine/Bellows.lean ====
section
/-!
DEFINITION. The timestamp, the Bellows and the budget (spec/18_clock_domains_and_bellows.md R476 to R490).

Measurements come with the commands that end the windows: current in A, power in 0.1 W, temperature in 0.125 °C.
-/

namespace Sys2Proof.Machine

open Sys2Proof

/-- Change the clock state. -/
def State.onTime (s : State) (f : Time → Time) : State := { s with time := f s.time }
/-- Change the Bellows. -/
def State.onBw (s : State) (f : Bw → Bw) : State := { s with bw := f s.bw }

/-! ### The timestamp (R477 to R480) -/

/-- `TS_ADJ`, ignored on the master (R480). -/
def State.tsAdj (s : State) : Nat := if s.isMaster then 0 else s.rfld 0x0C0C 0 8

/-- A frame with number `k` has been read, `since` nanoseconds after its start edge (R478). Only an aligned counter has a
difference to act on (log 29). -/
def State.align (s : State) (k since : Nat) : State :=
  let target := k % 2 ^ 44 * 10 ^ 6 + s.tsAdj
  if !s.time.aligned then s.onTime (fun t => { t with ts := target + since, aligned := true, slew := 0, lastFrame := target + since })
  else
    let e : Int := (s.now : Int) - (since : Int) - (target : Int)
    let s : State := s.onTime (fun t => { t with
      ts := if e < 0 then t.ts + e.natAbs else t.ts
      slew := if e < 0 then 0 else 2 * e.natAbs })
    let s : State := s.onTime (fun t => { t with lastFrame := t.ts })
    if 1000 < e.natAbs then
      (s.onTime (fun t => { t with slip := true })).event { typ := 0x0304, pay := [(0x18, 8, (e % 2 ^ 64).toNat)] }
    else s

/-- Whether the timestamp counter runs: not in reset nor before the PLLs have locked (R443, R476). -/
def State.counting (s : State) : Bool := decide (5 ≤ s.mgmt.stage)

/-- Whether the clock master emits frames: from PLL lock on, and through SRST, until it stops in package clock fault (R413,
R435, R477). -/
def State.emits (s : State) : Bool :=
  (s.pkg.clkOut != 0 || (s.isMaster && s.counting)) && s.clocked && !(s.pkg.clkFault && !s.pkg.holdover)

/-- `TSYNC_EMIT`: the clock master emits the frame of its next millisecond and, when its counter runs, aligns to it (R477). -/
def execTsyncEmit (since : Nat) (s : State) : Host.Outcome State Fault Refusal :=
  .next (if s.emits then
      (let s' := s.onTime (fun t => { t with masterMs := t.masterMs + 1 })
       if s.counting then s'.align s.time.masterMs since else s')
    else s)

/-- `TSYNC_FRAME`: a frame arrives on `TSYNC_IN`, which a master ignores (R410, R478). -/
def execTsyncFrame (k since : Nat) (s : State) : Host.Outcome State Fault Refusal :=
  .next (if s.isMaster || !s.clocked || !s.counting then s else s.align k since)

/-- 3 ms have passed without a valid frame (R478). -/
def State.tsNosync (s : State) : State :=
  if s.time.nosync || !s.counting || decide (s.now < s.time.lastFrame + 3000000) then s
  else (s.onTime (fun t => { t with nosync := true })).event { typ := 0x0305, pay := [(0x18, 8, s.time.lastFrame)] }

/-- `TS_NOSYNC` (R478). -/
def execTsNosync (s : State) : Host.Outcome State Fault Refusal := .next s.tsNosync

/-- A read of `TS_LO` latches `TS_HI` (R480). -/
def State.tsLatch (s : State) : State := s.onTime (fun t => { t with hiLatch := BitVec.ofNat 32 (t.ts / 2 ^ 32) })

/-- Deliver what a read by the management controller returns (log 25). -/
def State.mgmtRead (s : State) (v : Word) : State := s.onMgmt (fun m => { m with rdData := v })

/-- `TS_LO_READ` (R480). -/
def execTsLoRead (s : State) : Host.Outcome State Fault Refusal := .next (s.tsLatch.mgmtRead (BitVec.ofNat 32 s.now))

/-! ### Registers of the Bellows (R489) -/

/-- `ENVELOPE_W` and `FALLBACK_W`. -/
def State.envelope (s : State) : Nat := s.rfld 0x2C00 0 10
/-- The grant in force (R483, R485): it never exceeds the envelope. -/
def State.grantNow (s : State) : Nat :=
  min s.envelope (if s.bw.fallback then min s.bw.grant (s.rfld 0x2C00 16 10) else s.bw.grant)

/-- The highest rung in force (R486; log 24): 4 while *q* is above 0, 3 below 1.50 GHz, 2 while the clock is stretched. -/
def Bw.rung (b : Bw) : Nat := if b.duty != 0 then 4 else if b.freqStep < 14 then 3 else if b.stretch then 2 else 0

/-- `BW_STATUS`. -/
def State.bwStatus (s : State) : Word :=
  let b := s.bw
  BitVec.ofNat 32 (b.freqStep + b.ceilStep * 2 ^ 4 + b.rung * 2 ^ 8 + b.duty * 2 ^ 11 + bit1 b.fallback * 2 ^ 14
    + bit1 b.warn * 2 ^ 15 + s.grantNow * 2 ^ 16)

/-- Change the ladder (R486, R490, R527): the events of a new step or *q*, and the trace record of a new rung or step,
whose type field the spec does not give: a free value (log 1). -/
def State.ladder (s : State) (thermal : Bool) (f : Bw → Bw) : State :=
  let old := s.bw
  let s : State := s.onBw f
  let s : State := if s.bw.freqStep < old.freqStep then s.onBw (fun b => { b with glide := 1280 }) else s
  let s : State := if s.bw.freqStep != old.freqStep && bitAt (s.reg 0x2C04) 31 then
      s.event { typ := 0x0300, pay := [(0x18, 4, old.freqStep + s.bw.freqStep * 2 ^ 4 + bit1 thermal * 2 ^ 8)] }
    else s
  let s : State := if s.bw.duty != old.duty then s.event { typ := 0x0302, pay := [(0x18, 4, s.bw.duty)] } else s
  if s.bw.freqStep != old.freqStep || s.bw.rung != old.rung then (s.traceAdd 127 3 (s.fv 0).toNat s.bwStatus).tick else s

/-- One step lower: the core clock, or *q* at 0.80 GHz (R486). -/
def Bw.lower (b : Bw) : Bw :=
  if b.freqStep = 0 then { b with duty := min 7 (b.duty + 1) } else { b with freqStep := b.freqStep - 1 }

/-- One step higher: *q* falls, or the core clock rises up to the thermal ceiling (R486). -/
def Bw.higher (b : Bw) : Bw :=
  if b.duty ≠ 0 then { b with duty := b.duty - 1 } else { b with freqStep := max b.freqStep (min (b.freqStep + 1) (min 14 b.ceilStep)) }

/-! ### The three windows (R481, R482, R486, R488) -/

/-- The warning threshold (R488): set at a sample that reaches it, released below it by 2 °C. -/
def State.thermWarn (s : State) (tjq tile : Nat) : State :=
  let lim := s.rfld 0x2C04 24 7
  if !s.bw.warn && decide (8 * lim ≤ tjq) then
    ((s.onBw (fun b => { b with warn := true })).onPkg (fun k => { k with alertN := true })).event
      { typ := 0x0303, pay := [(0x18, 4, tjq % 2 ^ 11 + tile % 2 ^ 7 * 2 ^ 16)] }
  else if s.bw.warn && decide (tjq + 16 < 8 * lim) then
    (s.onBw (fun b => { b with warn := false })).onPkg (fun k => { k with
      alertN := k.isolated || (k.clkFault && !k.holdover) || s.mgmt.stage == 14 })
  else s

/-- A 1 µs window ends with its samples (R482, R486): a current at the limit has stalled the engines within the window and
stretches the clock through the next; a current below 90 % of the limit ends the stretch. -/
def State.currentWindow (s : State) (amps dw tjq tile : Nat) : State :=
  if !s.clocked || decide (s.now / 1000 ≤ s.bw.curWin) then s
  else
    let lim := s.rfld 0x2C04 0 10
    let s : State := s.onBw (fun b => { b with
      curWin := s.now / 1000, curPeak := max b.curPeak amps, powSum := b.powSum + dw, powN := b.powN + 1
      tjSum := b.tjSum + tjq, tjN := b.tjN + 1, tj := tjq, tjTile := tile % 128 })
    let s : State := s.ladder false (fun b => { b with
      stretch := if lim ≤ amps then true else if 10 * amps < 9 * lim then false else b.stretch })
    s.thermWarn tjq tile

/-- `CURRENT_WINDOW_END` (R486). -/
def execCurrentWindowEnd (amps dw tjq tile : Nat) (s : State) : Host.Outcome State Fault Refusal :=
  .next (s.currentWindow amps dw tjq tile)

/-- Whether the average of the power samples taken so far exceeds the target (R486). -/
def State.powHigh (s : State) : Bool := decide ((s.grantNow - s.rfld 0x2C04 10 6) * 10 * s.bw.powN < s.bw.powSum)

/-- A 10 ms window ends (R486): the thermal ceiling. A lowering of power at the same boundary takes precedence over a
raising. The decision of the 10 ms window comes before that of the 100 µs window which ends with it. -/
def State.thermalWindow (s : State) : State :=
  if !s.clocked || decide (s.now / 10 ^ 7 ≤ s.bw.thermWin) then s
  else
    let b := s.bw
    let target := s.rfld 0x2C04 16 7
    let m := s.now / 10 ^ 5
    let s : State := s.onBw (fun b => { b with thermWin := s.now / 10 ^ 7, tjSum := 0, tjN := 0 })
    if b.tjN = 0 then s
    else if 8 * target * b.tjN < b.tjSum then
      (s.ladder true (fun b => if b.ceilStep = 0 then { b with duty := min 7 (b.duty + 1) }
        else { b with ceilStep := b.ceilStep - 1, freqStep := min b.freqStep (b.ceilStep - 1) })).onBw (fun b => { b with lowered := some m })
    else if b.tjSum < 8 * (target - 3) * b.tjN && !s.powHigh then
      s.onBw (fun b => { b with ceilStep := min 14 (b.ceilStep + 1) })
    else s

/-- `THERMAL_WINDOW_END` (R486). -/
def execThermalWindowEnd (s : State) : Host.Outcome State Fault Refusal := .next s.thermalWindow

/-- Register writes of the `BW` block take effect (R489); no grant exceeds the envelope (R485). -/
def State.bwPending (s : State) : State :=
  let s : State := s.bw.pend.foldl (fun s e => match e.2 with
    | some v => s.setReg e.1 v
    | none => s) s
  s.onBw (fun b => { b with pend := [], grant := min b.grant s.envelope })

/-- A 100 µs window ends (R482, R486, R489). -/
def State.powerWindow (s : State) : State :=
  if !s.clocked || decide (s.now / 10 ^ 5 ≤ s.bw.powWin) || decide (s.bw.thermWin < s.now / 10 ^ 7) then s
  else
    let b := s.bw
    let m := s.now / 10 ^ 5
    let high := s.powHigh
    let s : State := s.onBw (fun b => { b with powWin := m, powSum := 0, powN := 0, curPeak := 0 })
    let s : State :=
      if b.powN = 0 then s
      else
        let s : State := s.onBw (fun x => { x with avgPower := b.powSum / b.powN, peakA := b.curPeak, lowLast := !high })
        if high then s.ladder false Bw.lower
        else if b.lowLast && b.lowered != some m then s.ladder false Bw.higher
        else s
    s.bwPending

/-- `POWER_WINDOW_END` (R486). -/
def execPowerWindowEnd (s : State) : Host.Outcome State Fault Refusal := .next s.powerWindow

/-- A sensor reaches 110 °C (R488): the trip circuit stops the core and fabric clocks and idles the ports. -/
def State.thermalTrip (s : State) : State :=
  if s.bw.trip then s
  else (s.portsIdle.onBw (fun b => { b with trip := true })).onPkg (fun k => { k with thermtripN := true })

/-- `THERMAL_TRIP` (R488). -/
def execThermalTrip (s : State) : Host.Outcome State Fault Refusal := .next s.thermalTrip

/-! ### Budget rounds (R483 to R485) -/

/-- The BUDGET block. -/
def budgetBytes (op pos round avg env grant rung tj ts : Nat) : List Byte :=
  [BitVec.ofNat 8 op, BitVec.ofNat 8 pos] ++ leBytes 2 round ++ leBytes 2 avg ++ leBytes 2 env ++ leBytes 2 grant
    ++ [BitVec.ofNat 8 rung, BitVec.ofNat 8 tj] ++ List.replicate 12 0 ++ leBytes 8 ts

/-- The largest number up to a bound with a property, 0 when there is none. -/
def largest (p : Nat → Bool) : Nat → Nat
  | 0 => 0
  | n + 1 => if p (n + 1) then n + 1 else largest p n

/-- Sum of a list. -/
def total (l : List Nat) : Nat := l.foldl (· + ·) 0

/-- The grants for members with these envelopes and averages (R484). Above the largest envelope *lam* changes nothing. -/
def grantsFor (pkgW : Nat) (ms : List (Nat × Nat)) : List Nat :=
  let w := max pkgW (200 * ms.length)
  let need := ms.map (fun m => (m.1, min m.1 (max 200 (m.2 + 20))))
  let top := ms.foldl (fun t m => max t m.1) 0
  if pkgW = 0 then ms.map (·.1)
  else if total (need.map (·.2)) ≤ w then
    let lam := largest (fun l => decide (total (need.map (fun m => min m.1 (max m.2 l))) ≤ w)) top
    need.map (fun m => min m.1 (max m.2 lam))
  else
    let lam := largest (fun l => decide (total (need.map (fun m => min m.2 (max 200 l))) ≤ w)) top
    need.map (fun m => min m.2 (max 200 lam))

/-- A grant is received (R483, R485): one above the envelope is never applied. -/
def State.applyGrant (s : State) (w round : Nat) : State :=
  if w ≤ s.envelope then
    s.onBw (fun b => { b with grant := w, fallback := false, gotGrant := true, late := 0, grantRound := round })
  else s

/-- Members of the package, ascending. -/
def State.memberList (s : State) : List Nat := bitList s.pkg.members 8

/-- Whether this die is the leader of a package that has formed. -/
def State.isLeader (s : State) : Bool := s.pkg.accepted && s.pkg.leader == s.pos

/-- Envelope and average that the leader uses for a member (R483): its last report; for a member that has never reported
the spec gives none: free values (log 1). -/
def State.lastReport (s : State) (d : Nat) : Nat × Nat :=
  match Tab.get none s.bw.reports d with
  | some (_, e, a) => (e, a)
  | none => ((s.fv (2 * d)).toNat % 65536, (s.fv (2 * d + 1)).toNat % 65536)

/-- The leader sends every member its grant for the round (R483, R484). -/
def State.sendGrants (s : State) : State :=
  let ms := s.memberList
  let r := s.bw.round % 65536
  let gs := grantsFor (s.rfld 0x2C08 0 14) (ms.map s.lastReport)
  let s : State := (s.tick).onBw (fun b => { b with granted := true })
  (ms.zip gs).foldl (fun s x =>
    if x.1 == s.pos then s.applyGrant x.2 r
    else s.send x.1 (withData (s.packet 4 5 x.1 123) (budgetBytes 2 x.1 r 0 0 x.2 0 0 s.now)) none) s

/-- Send the grants once every member has reported for the round (R483). -/
def State.tryGrant (s : State) : State :=
  let r := s.bw.round % 65536
  if s.isLeader && !s.bw.granted && s.memberList.all (fun d => match Tab.get none s.bw.reports d with
      | some (x, _, _) => x == r
      | none => false)
  then s.sendGrants else s

/-- Without a grant in three rounds in a row a member falls back (R485). -/
def State.checkFallback (s : State) : State :=
  let late := if s.bw.gotGrant then 0 else s.bw.late + 1
  let go := decide (3 ≤ late) && !s.bw.fallback
  let s : State := s.onBw (fun b => { b with late := late, gotGrant := false, fallback := b.fallback || go })
  if go then s.event { typ := 0x0301, pay := [(0x18, 4, s.bw.grant), (0x1C, 4, s.bw.grantRound)] } else s

/-- A round begins (R483, R485): the member reports. -/
def State.roundStart (s : State) : State :=
  let r := s.now / 50000
  if !s.pkg.accepted || !s.clocked || decide (r ≤ s.bw.round) then s
  else
    let s : State := s.checkFallback.onBw (fun b => { b with round := r, granted := false })
    let avg := s.bw.avgPower / 10
    if s.isLeader then
      (s.onBw (fun b => { b with reports := Tab.set none b.reports s.pos (some (r % 65536, s.envelope, avg)) })).tryGrant
    else
      s.send s.pkg.leader (withData (s.packet 4 5 s.pkg.leader 123)
        (budgetBytes 1 s.pos (r % 65536) avg s.envelope 0 s.bw.rung (s.bw.tj / 8) s.now)) none

/-- `BUDGET_ROUND_START` (R483). -/
def execBudgetRoundStart (s : State) : Host.Outcome State Fault Refusal := .next s.roundStart

/-- `BUDGET_GRANT_DEADLINE`: 10 µs into the round (R483). -/
def execBudgetGrantDeadline (s : State) : Host.Outcome State Fault Refusal :=
  .next (if s.isLeader && !s.bw.granted && s.clocked && decide (50000 * s.bw.round + 10000 ≤ s.now) then s.sendGrants else s)

/-- A `REPORT` is received (R483). -/
def State.budgetReport (s : State) (k : Packet) : State :=
  if pktLE k 0 1 != 1 || !s.isLeader || decide (8 ≤ pktLE k 1 1) then s
  else
    (s.onBw (fun b => { b with
      reports := Tab.set none b.reports (pktLE k 1 1) (some (pktLE k 2 2, pktLE k 6 2, pktLE k 4 2)) })).tryGrant

/-- `BUDGET_REPORT` (R483). -/
def execBudgetReport (p : Nat) (k : Packet) (s : State) : Host.Outcome State Fault Refusal :=
  let k := asType k 4 5
  onUnit (isPort p) p (s.receive p k (fun s => s.budgetReport k))

/-- `BUDGET_GRANT` (R483, R485). -/
def execBudgetGrant (p : Nat) (k : Packet) (s : State) : Host.Outcome State Fault Refusal :=
  let k := asType k 4 5
  onUnit (isPort p) p (s.receive p k (fun s =>
    if pktLE k 0 1 == 2 && pktLE k 1 1 == s.pos then s.applyGrant (pktLE k 8 2) (pktLE k 2 2) else s))

end Sys2Proof.Machine
end

