-- ==== Sys2Proof/Machine/Onjan.lean ====
section
/-!
DEFINITION. Onjan: attestation, debug authorisation, lifecycle transitions, rollback fuses, memory encryption bits, held
slots, the random source and the evaluated configuration (spec/19_onjan_security.md R491 to R512).

Whether a signature verifies comes with the command; keys, signatures and hashes are values from outside (log 30).
-/

namespace Sys2Proof.Machine

open Sys2Proof

/-- Change Onjan. -/
def State.onSec (s : State) (f : Sec → Sec) : State := { s with sec := f s.sec }

/-- `QM_EN`. -/
def State.qmEn (s : State) : Bool := bitAt (s.reg 0x2000) 0

/-- `RNG_FAIL` (R509). -/
def Sec.rngFail (k : Sec) : Bool := k.selfTested && !k.rngOk

/-- A command or read is refused (R511). -/
def State.secRefuse (s : State) (code : Nat) : State := s.onSec (fun k => { k with cmdErr := true, errCode := code })

/-! ### The evaluated configuration (R510) -/

/-- Ports with `EN` = 1 and a role. -/
def State.enabledPorts (s : State) (ok : Nat → Bool) : List Nat :=
  (List.range Config.ports).filter (fun p => s.portEn p && ok (s.role p))

/-- The requirements of `EVAL`[7:0], bit 0 first. -/
def State.evalBits (s : State) : List Bool :=
  let k := s.sec
  let f := s.reg 0x0020
  [ k.life == .production && !s.mgmt.es,
    (k.fwKey == 2 || k.fwKey == 3) && decide (k.minSvn ≤ k.fwSvn),
    (s.enabledPorts (fun r => r == 1 || r == 2 || r == 3)).all (fun p => s.confReq p && ((s.port p).st != .up || (s.port p).confOn)),
    k.memEnc % 32 == 31,
    !k.dbgAuth && !k.zeroise,
    !k.rngFail,
    bitAt f 31 && fld f 20 2 == 3,
    (s.upPorts isDieRole).all (fun p => (s.port p).confOn && (s.port p).ca == 0) ]

/-- `EVAL`: bit 31 is 1 when bits 0 to 7 all are. -/
def State.evalWord (s : State) : Nat :=
  let bs := s.evalBits
  (List.range 8).foldl (fun n i => n + bit1 (bs[i]?.getD false) * 2 ^ i) 0 + bit1 (bs.all (· == true)) * 2 ^ 31

/-- Onjan evaluates, and reports a change (R510, R512). -/
def State.evaluateConfig (s : State) : State :=
  let e := s.evalWord
  if e == s.sec.eval then s
  else (s.onSec (fun k => { k with eval := e })).event { typ := 0x0408, pay := [(0x18, 4, s.sec.eval), (0x1C, 4, e)] }

/-! ### Registers of other units that a report carries -/

/-- `LIFECYCLE`. -/
def State.lifecycleWord (s : State) : Word :=
  BitVec.ofNat 32 (s.sec.life.code + bit1 s.mgmt.es * 2 ^ 2 + bit1 s.sec.dbgAuth * 2 ^ 3 + bit1 s.sec.zeroise * 2 ^ 4
    + bit1 s.sec.pendLife.isSome * 2 ^ 5 + s.evalWord / 2 ^ 31 * 2 ^ 31)

/-- `PKG_STATE` (R416). -/
def State.pkgStateWord (s : State) : Word :=
  BitVec.ofNat 32 (s.pkg.members + s.pkg.leader * 2 ^ 8 + bit1 s.pkg.accepted * 2 ^ 11 + s.pkg.mepoch * 2 ^ 16)

/-! ### Attestation (R496, R497) -/

/-- Put a list of words into a table from an index up. -/
def putWords (t : Tab Word) (i : Nat) : List Word → Tab Word
  | [] => t
  | w :: ws => putWords (Tab.set 0 t i w) (i + 1) ws

/-- `CONF_MASK`. -/
def State.confMask (s : State) : Nat :=
  (List.range Config.ports).foldl (fun m p => if (s.port p).confOn then m + 2 ^ p else m) 0

/-- The report as captured (R497): words 64 to 111 are the die's identity key and its certificate. -/
def State.reportWords (s : State) : Tab Word :=
  let n := fun (v : Nat) => BitVec.ofNat 32 v
  let hash := (List.range 12).map (fun i => n (((s.mgmt.slot s.mgmt.fwSlot)).rdLE (0x20 + 4 * i) 4))
  let bytes := imageBytes s.mgmt.optImage ++ leBytes 4 (optAt s.mgmt.optImage 0xFFFC).toNat
  let opt := (List.range 12).map (fun i => if s.mgmt.optDefaulted then (0 : Word) else Config.sha384 bytes i)
  let nonce := (List.range 12).map (fun i => s.reg (0x3060 + 4 * i))
  let key := (List.range 48).map (fun i => Config.freeWord 0 (2 ^ 20 + i))
  let head : List Word :=
    [1, s.reg 0x0000, s.reg 0x0004, s.lifecycleWord, s.reg 0x0008, s.reg 0x0020, s.pkgStateWord, n s.evalWord,
     n s.mgmt.fwVersion, n s.sec.fwSvn, n s.sec.minSvn, s.optStatusWord, n s.confMask, n (s.confMask / 2 ^ 32),
     n s.now, n (s.now / 2 ^ 32)]
  putWords (putWords [] 0 (head ++ hash ++ opt ++ nonce ++ [n s.sec.memEnc])) 64 key

/-- `ATTEST` (R496): refused, or the nonce and the state are captured. -/
def State.attest (s : State) : State :=
  let k := s.sec
  if k.cmd != 0 || k.life == .blank || k.life == .retired then s.secRefuse 1
  else if k.zeroise || !k.idKey then s.secRefuse 8
  else if !k.rngOk then s.secRefuse 7
  else (s.onSec (fun k => { k with cmd := 1, rptValid := false, report := s.reportWords })).tick

/-- `ATTEST` (R496). -/
def execAttest (s : State) : Host.Outcome State Fault Refusal := .next s.attest

/-- The report is signed (R496, R512). -/
def State.attestDone (s : State) : State :=
  if s.sec.cmd != 1 then s
  else
    let sig := (List.range 24).map s.fv
    let s : State := (s.onSec (fun k => { k with cmd := 0, rptValid := true, report := putWords k.report 112 sig })).tick
    let w := fun i => (Tab.get 0 s.sec.report i).toNat
    s.event { typ := 0x0400, pay := [(0x18, 8, w 40 + w 41 * 2 ^ 32), (0x20, 4, w 7)] }

/-- `ATTEST_DONE` (R496). -/
def execAttestDone (s : State) : Host.Outcome State Fault Refusal := .next s.attestDone

/-- `SEC_RPT_IDX`. -/
def State.rptIdx (s : State) : Nat := s.rfld 0x3018 0 8

/-- The value that a read of `SEC_RPT_DATA` returns (R496): 0 without a report; past word 135 the spec states none, a free
value (log 1). -/
def State.rptWord (s : State) : Word :=
  if !s.sec.rptValid then 0 else if s.rptIdx < 136 then Tab.get 0 s.sec.report s.rptIdx else s.fv 0

/-- What a read of `SEC_RPT_DATA` does (R496): the index advances; without a report `ERR` is set. -/
def State.rptRead (s : State) : State :=
  let s' : State := s.tick.setFld 0x3018 0 8 (s.rptIdx + 1)
  if s.sec.rptValid then s' else s'.onSec (fun k => { k with cmdErr := true })

/-- `SEC_RPT_DATA_READ` (R496). -/
def execSecRptDataRead (s : State) : Host.Outcome State Fault Refusal := .next (s.rptRead.mgmtRead s.rptWord)

/-! ### Debug authorisation (R506 to R508) -/

/-- `CHALLENGE` (R506, R509). -/
def State.drawChallenge (s : State) : State :=
  if !s.sec.rngOk then s.secRefuse 7
  else (s.onSec (fun k => { k with challenge := putWords [] 0 ((List.range 8).map s.fv), challengeOk := true })).tick

/-- `CHALLENGE` (R506). -/
def execChallenge (s : State) : Host.Outcome State Fault Refusal := .next s.drawChallenge

/-- A write of `SEC_TOKEN_DATA` (R506): tokens have 36 words. -/
def State.tokenData (s : State) (v : Word) : State :=
  let i := s.rfld 0x3020 0 6
  (s.onSec (fun k => { k with token := if i < 36 then Tab.set 0 k.token i v else k.token })).setFld 0x3020 0 6 (i + 1)

/-- `SEC_TOKEN_DATA_WRITE` (R506). -/
def execSecTokenDataWrite (v : Word) (s : State) : Host.Outcome State Fault Refusal := .next (s.tokenData v)

/-- A token is refused (R506, R512): the third refusal sets `LOCKOUT`. -/
def State.tokenRefuse (s : State) (code : Nat) : State :=
  let n := min 255 (s.sec.refusals + 1)
  ((s.secRefuse code).onSec (fun k => { k with refusals := n, lockout := k.lockout || decide (3 ≤ n) })).event
    { typ := 0x0402, pay := [(0x18, 4, code), (0x1C, 4, n)] }

/-- A word of the token. -/
def Sec.tok (k : Sec) (off : Nat) : Word := Tab.get 0 k.token (off / 4)

/-- `TOKEN_SUBMIT` (R506): the challenge is used up. A token is refused at once under lockout, and while a command is in
progress (log 31). -/
def State.tokenSubmit (s : State) : State :=
  let hit := s.sec.challengeOk && (List.range 8).all (fun i => Tab.get 0 s.sec.challenge i == s.sec.tok (0x10 + 4 * i))
  let s : State := s.onSec (fun k => { k with challengeOk := false, tokenHit := hit })
  if s.sec.lockout then s.tokenRefuse 5
  else if s.sec.cmd != 0 then s.secRefuse 1
  else s.onSec (fun k => { k with cmd := 2 })

/-- `TOKEN_SUBMIT` (R506). -/
def execTokenSubmit (s : State) : Host.Outcome State Fault Refusal := .next s.tokenSubmit

/-- Whether the key that a token names is present (R506). -/
def State.debugKeyHeld (s : State) (id : Nat) : Bool := id == 0 || (id == 1 && s.fused 0x138 0x150)

/-- Whether the move to `RETIRED` has been accepted: no other transition follows it (R492). -/
def State.retiring (s : State) : Bool := !s.sec.idKey

/-- Why a token is refused, 0 when it is accepted (R492, R506, R508; log 31). -/
def State.tokenCheck (s : State) (sigOk : Bool) : Nat :=
  let k := s.sec
  let scope := (k.tok 8).toNat
  if k.tok 0 != 1 then 1
  else if k.tok 4 != s.reg 0x0000 || !k.tokenHit then 3
  else if !s.debugKeyHeld (k.tok 0xC).toNat || !sigOk then 2
  else if scope == 1 then
    if k.life == .blank then 4 else if k.life == .production && s.qmEn then 1 else 0
  else if scope == 2 then
    if k.life != .development || s.mgmt.es || s.retiring then 4 else if s.qmEn then 1 else 0
  else if scope == 3 then
    if k.life == .blank || k.life == .retired then 4 else if s.qmEn then 1 else 0
  else 4

/-- Every core is sealed and scrubbed (R255, R256, R508); what still ran ends as killed (log 31). -/
def State.scrubCores (s : State) : State :=
  let s : State := (s.qm.descs.filter (fun d => d.started)).foldl (fun s d => s.killDesc d stKilled 0x15) s
  (List.range Config.tiles).foldl (fun s t =>
    (((s.abandonTile t).sealTile t 2).onTile t Tile.wipe).onTile t Tile.scrub) s

/-- The port keys are gone: every port under confidentiality is isolated (R508). -/
def State.dropPortKeys (s : State) : State :=
  ((List.range Config.ports).filter (fun p => (s.port p).confOn || (s.port p).keyed)).foldl (fun s p =>
    let old := s.port p
    (s.onPort p (fun po => po.idle .isolated)).portDrop p old true) s

/-- The memory keys are replaced: every granule of an encrypted stack is poisoned (R421, R508). -/
def State.dropMemKeys (s : State) : State :=
  s.poisonGranules (s.granulesOn (fun k => k / 4 == s.pos && s.sec.memEnc.testBit (k % 4)))

/-- The event of an accepted scope-1 token (R512). -/
def State.authEvent (s : State) (z : Bool) : State :=
  s.event { typ := 0x0401, pay := [(0x18, 4, (s.sec.tok 8).toNat % 16 + (s.sec.tok 0xC).toNat % 16 * 2 ^ 4), (0x1C, 4, bit1 z)] }

/-- A lifecycle transition begins: the fuse copies are programmed one after another (R492). -/
def State.transition (s : State) (dest : Life) : State :=
  (s.blow [.life 0 dest, .life 1 dest, .life 2 dest]).event
    { typ := 0x0403, pay := [(0x18, 4, s.sec.life.code + dest.code * 2 ^ 8)] }

/-- Onjan has finished with a token (R492, R506 to R508). -/
def State.tokenDone (s : State) (sigOk : Bool) : State :=
  if s.sec.cmd != 2 then s
  else
    let code := s.tokenCheck sigOk
    let scope := (s.sec.tok 8).toNat
    let s : State := s.onSec (fun k => { k with cmd := 0 })
    if code != 0 then s.tokenRefuse code
    else if scope == 1 then
      if s.sec.life == .production then
        let s : State := s.scrubCores.dropPortKeys.dropMemKeys
        (s.onSec (fun k => { k with zeroise := true, dbgAuth := true })).authEvent true
      else (s.onSec (fun k => { k with dbgAuth := true })).authEvent false
    else if scope == 2 then s.transition .production
    else ((s.dropPortKeys.dropMemKeys).onSec (fun k => { k with idKey := false })).transition .retired

/-- `TOKEN_VERIFY_DONE` (R506): `sigOk` says whether the signature verifies. -/
def execTokenVerifyDone (sigOk : Bool) (s : State) : Host.Outcome State Fault Refusal := .next (s.tokenDone sigOk)

/-- `DBG_LOCK` (R506, R507): no effect in `BLANK`. -/
def State.dbgLock (s : State) : State := if s.sec.life == .blank then s else s.onSec (fun k => { k with dbgAuth := false })

/-- `DBG_LOCK` (R507). -/
def execDbgLock (s : State) : Host.Outcome State Fault Refusal := .next s.dbgLock

/-! ### Rollback fuses (R495) -/

/-- Steps of the minimum `SVN` that are in progress or to come. -/
def Mgmt.svnSteps (m : Mgmt) : Nat :=
  m.pulses.countP (fun p => match p with
    | .svn _ _ => true
    | _ => false)

/-- `SVN_COMMIT` (R495): one fuse for each step that the minimum rises. -/
def State.svnCommit (s : State) : State :=
  if s.sec.fwKey == 1 then s.secRefuse 1
  else
    let old := s.sec.minSvn + s.mgmt.svnSteps
    let n := min s.sec.fwSvn 64 - old
    s.blow ((List.range n).map (fun i => FusePulse.svn old (i + 1 == n)))

/-- `SVN_COMMIT` (R495). -/
def execSvnCommit (s : State) : Host.Outcome State Fault Refusal := .next s.svnCommit

/-- `FK0_REVOKE` (R495). -/
def State.fk0Revoke (s : State) : State :=
  if s.sec.fwKey != 3 then s.secRefuse 1 else s.blow [.fk0]

/-- `FK0_REVOKE` (R495). -/
def execFk0Revoke (s : State) : Host.Outcome State Fault Refusal := .next s.fk0Revoke

/-! ### Memory encryption (R501, R503) -/

/-- Whether any object has a granule on local stack `k` (R503): one of this die's, or another die's that this die knows of. -/
def State.stackInUse (s : State) (k : Nat) : Bool :=
  s.kw.objs.any (fun e => match e.2 with
    | some o => o.homes.contains (4 * s.pos + k) || (match o.mig with
        | some m => m.newHomes.contains (4 * s.pos + k)
        | none => false)
    | none => false)
  || s.kw.xlate.any (fun e => match e.2 with
    | some x => x.stack == 4 * s.pos + k
    | none => false)

/-- A write of `SEC_MEMENC` (R503): the whole write is refused when one changed bit may not change. -/
def State.memEncWrite (s : State) (v : Word) : State :=
  let old := s.sec.memEnc
  let new := fld v 0 4
  let changed := (List.range 4).filter (fun k => old.testBit k != new.testBit k)
  if changed.any (fun k => s.stackInUse k || (old.testBit k && old.testBit 4)) then s.secRefuse 6
  else s.onSec (fun x => { x with memEnc := putBits x.memEnc 0 4 new })

/-- `SEC_MEMENC_WRITE` (R503). -/
def execSecMemencWrite (v : Word) (s : State) : Host.Outcome State Fault Refusal := .next (s.memEncWrite v)

/-! ### Held slots (R257, R505) -/

/-- Tiles whose slots are held for a job. -/
def State.heldTiles (s : State) (j : Nat) : List Nat :=
  (List.range Config.tiles).filter (fun t => (s.tile t).spad.retain == some j)

/-- Release and scrub a job's held slots (R505), in `DEVELOPMENT` only. -/
def State.retainRelease (s : State) (j : Nat) : State :=
  let ts := s.heldTiles j
  if s.sec.life != .development || ts.isEmpty then s
  else (ts.foldl (fun s t => s.onTile t Tile.scrub) s).event
    { typ := 0x0407, job := j, pay := [(0x18, 4, j), (0x1C, 4, ts.length * Config.slots)] }

/-- `SEC_RETAIN_RELEASE` (R505). -/
def execSecRetainRelease (job : Nat) (s : State) : Host.Outcome State Fault Refusal := .next (s.retainRelease job)

/-! ### The random source (R509) -/

/-- The value of a read of `SEC_RNG` (R509). -/
def State.rngWord (s : State) : Word := if s.sec.rngOk then s.fv 0 else 0

/-- What a read of `SEC_RNG` does (R509). -/
def State.rngRead (s : State) : State := if s.sec.rngOk then s.tick else s.onSec (fun k => { k with cmdErr := true })

/-- `SEC_RNG_READ` (R509). -/
def execSecRngRead (s : State) : Host.Outcome State Fault Refusal := .next (s.rngRead.mgmtRead s.rngWord)

/-- A continuous test fails (R509). -/
def State.rngTestFail (s : State) (test : Nat) : State :=
  if !s.sec.rngOk then s
  else (s.onSec (fun k => { k with rngOk := false })).event { typ := 0x0406, pay := [(0x18, 4, test)] }

/-- `RNG_TEST_FAIL` (R509). -/
def execRngTestFail (test : Nat) (s : State) : Host.Outcome State Fault Refusal := .next (s.rngTestFail test)

end Sys2Proof.Machine
end

