-- ==== Sys2Proof/Machine/TestAccess.lean ====
section
/-!
DEFINITION. The TAP but for its configuration access, fuses, BIST, port tests, sequencer debug, the memory window and the
trace buffer (spec/20_test_access_and_debug.md R513 to R530).
-/

namespace Sys2Proof.Machine

open Sys2Proof

/-- Change test access. -/
def State.onTst (s : State) (f : Tst → Tst) : State := { s with tst := f s.tst }

/-! ### TAP instructions (R513 to R517) -/

/-- Take up a TAP instruction: its code, what it does to the outputs, and what its data register captures. -/
def State.tapTake (s : State) (ir out dr : Nat) : State := s.onTst (fun t => { t with ir := ir, outMode := out, dr := dr })

/-- An instruction whose condition fails selects `BYPASS` and sets `REFUSED` (R514). -/
def State.tapRefuse (s : State) : State := (s.tapTake 0xFF 0 0).onTst (fun t => { t with refused := true })

/-- `TAP_RESET`: `IDCODE` becomes the instruction in force and the outputs are functional again (R513; log 26). -/
def execTapReset (s : State) : Host.Outcome State Fault Refusal :=
  .next ((s.tapTake 0x01 0 0).onTst (fun t => { t with wir := 0 }))

/-- The boundary register as a capture finds it: what the pins carry comes from outside (log 1). -/
def State.pins (s : State) : Nat := (List.range 7).foldl (fun n i => n + (s.fv i).toNat * 2 ^ (32 * i)) 0 % 2 ^ 212

/-- `EXTEST` (R514): drives what is shifted in. -/
def execExtest (cells : Nat) (s : State) : Host.Outcome State Fault Refusal :=
  .next (if s.qmEn then s.tapRefuse
    else ((s.tapTake 0x00 1 s.pins).onTst (fun t => { t with boundary := cells % 2 ^ 212 })).tick)

/-- `IDCODE` (R515): 0x27A1_09A7 on B0. -/
def execIdcode (s : State) : Host.Outcome State Fault Refusal := .next (s.tapTake 0x01 0 0x27A109A7)

/-- `SAMPLE` / `PRELOAD` (R514): the functional outputs run on. -/
def execSamplePreload (cells : Nat) (s : State) : Host.Outcome State Fault Refusal :=
  .next ((s.tapTake 0x02 0 s.pins).onTst (fun t => { t with boundary := cells % 2 ^ 212 })).tick

/-- `CLAMP` (R514). -/
def execClamp (s : State) : Host.Outcome State Fault Refusal := .next (if s.qmEn then s.tapRefuse else s.tapTake 0x03 2 0)

/-- `HIGHZ` (R514). -/
def execHighz (s : State) : Host.Outcome State Fault Refusal := .next (if s.qmEn then s.tapRefuse else s.tapTake 0x04 3 0)

/-- `WIR_SEL` (R517). -/
def execWirSel (v : Nat) (s : State) : Host.Outcome State Fault Refusal :=
  .next ((s.tapTake 0x08 0 s.tst.wir).onTst (fun t => { t with wir := v % 64 }))

/-- `BYPASS` (R514). -/
def execBypass (s : State) : Host.Outcome State Fault Refusal := .next (s.tapTake 0xFF 0 0)

/-- `SCAN` (R514): only with `DBG_AUTH` and `QM_EN` = 0; nothing runs afterwards until SRST (log 27). -/
def execScan (s : State) : Host.Outcome State Fault Refusal :=
  .next (if s.sec.dbgAuth && !s.qmEn then (s.tapTake 0x20 0 0).onTst (fun t => { t with scanned := true }) else s.tapRefuse)

/-! ### Fuses (R519, R520, R541) -/

/-- Whether a fuse word belongs to the package region. -/
def packageFuse (w : Nat) : Bool := (decide (0x100 ≤ w) && decide (w ≤ 0x10C)) || w == 0x11F

/-- Whether a fuse word belongs to the Onjan region. -/
def onjanFuse (w : Nat) : Bool := decide (0x120 ≤ w) && decide (w ≤ 0x150)

/-- Whether a fuse write is refused (R493, R519). -/
def State.fuseRefused (s : State) (w : Nat) (bits : Word) : Bool :=
  s.qmEn
  || (if packageFuse w then bitAt (s.fuse 0x11F) 0 || s.sec.life == .retired
      else if onjanFuse w then s.sec.life != .development || (s.fuse w &&& ~~~bits) != 0
      else true)

/-- `BUSY` of the fuse data registers (R519, R520). -/
def State.fuseBusy (s : State) : Nat := bit1 (s.mgmt.pulseNs != 0) * 2 ^ 41

/-- `FUSE_PROG` (R519, R541): each set bit of the word that still reads 0 is blown, lowest first, one pulse a bit; below its
range `VPP_FUSE` blows nothing. -/
def State.fuseProg (s : State) (w : Nat) (bits : Word) (vpp : Bool) : State :=
  let s : State := s.tapTake 0x18 0 s.fuseBusy
  if s.fuseRefused w bits then s.onTst (fun t => { t with refused := true })
  else if vpp then s.blow ((bitList (bits &&& ~~~(s.fuse w)).toNat 32).map (FusePulse.bit w))
  else s

/-- `FUSE_PROG` (R519). -/
def execFuseProg (w : Nat) (bits : Word) (vpp : Bool) (s : State) : Host.Outcome State Fault Refusal :=
  .next (s.fuseProg (w % 512) bits vpp)

/-- `FUSE_VERIFY` (R520): a word as it is sensed. The spec gives no layout of Moatum's region, and the identity key never
leaves it (R491): a free value. -/
def State.fuseVerify (s : State) (w : Nat) : State :=
  let v := if w < 0x100 then s.fv 0 else s.fuse w
  ((s.tapTake 0x19 0 (v.toNat + w * 2 ^ 32 + s.fuseBusy)).onTst (fun t => { t with fuseData := v })).tick

/-- `FUSE_VERIFY` (R520). -/
def execFuseVerify (w : Nat) (s : State) : Host.Outcome State Fault Refusal := .next (s.fuseVerify (w % 512))

/-! ### BIST and port tests (R521, R522) -/

/-- A request for BIST (R521): a tile that is `SPARE`, `FENCED` or `FAILED`. -/
def State.bistRun (s : State) (t kind : Nat) : State :=
  let ok := decide (t < Config.tiles) && (kind == 1 || kind == 2) && !s.tst.bistBusy
    && (s.tileSt t == .spare || s.tileSt t == .fenced || s.tileSt t == .failed)
  s.onTst (fun x => if ok then { x with bistBusy := true, bistTile := t, bistKind := kind, bistPass := false } else { x with bistErr := true })

/-- `BIST_RUN` (R521). -/
def execBistRun (t kind : Nat) (s : State) : Host.Outcome State Fault Refusal := .next (s.bistRun t kind)

/-- Admissions that waited for the BIST of the only spare go on (R521). -/
def State.admitWaiting (s : State) : State :=
  let waiting := s.kw.admitting.filter (fun a => a.1 == 127)
  waiting.foldl (fun s a => s.admitFor a.2.1 a.2.2)
    (s.onKw (fun k => { k with admitting := k.admitting.filter (fun a => a.1 != 127) }))

/-- A BIST ends (R521, R530); the result changes no tile state. -/
def State.bistDone (s : State) (pass : Bool) (store : Nat) : State :=
  if !s.tst.bistBusy then s
  else
    let t := s.tst
    let f := if pass then 0 else store % 256
    let s : State := s.onTst (fun x => { x with bistBusy := false, bistPass := pass, bistFail := f })
    (s.event { typ := 0x0500, tile := t.bistTile, pay := [(0x18, 4, t.bistTile + t.bistKind * 2 ^ 7 + bit1 pass * 2 ^ 9), (0x1C, 4, f)] }).admitWaiting

/-- `BIST_DONE` (R521). -/
def execBistDone (pass : Bool) (store : Nat) (s : State) : Host.Outcome State Fault Refusal := .next (s.bistDone pass store)

/-- Whether a port test may run (R522): `ok` says whether the partner answers on the sideband. -/
def State.portTestOk (s : State) (p mode lane : Nat) (ok : Bool) : Bool :=
  let off := (s.port p).st == .down && !s.portEn p
  isPort p && decide (lane < 68) && !s.tst.ptBusy
  && (if mode == 1 then off
      else if mode == 2 then (off && ok) || ((s.port p).st == .up && !(inService (s.reg (0x100C + 0x40 * p))).contains lane)
      else false)

/-- A request for a port test (R522). -/
def State.portTest (s : State) (p mode lane : Nat) (ok : Bool) : State :=
  s.onTst (fun x => if s.portTestOk p mode lane ok then
      { x with ptBusy := true, ptPort := p, ptMode := mode, ptLane := lane, ptDone := false }
    else { x with ptErr := true })

/-- `PORT_TEST_RUN` (R522). -/
def execPortTestRun (p mode lane : Nat) (ok : Bool) (s : State) : Host.Outcome State Fault Refusal :=
  .next (s.portTest p mode lane ok)

/-- `TEST_PORT_RESULT` (R529). -/
def Tst.portResult (t : Tst) : Word :=
  BitVec.ofNat 32 (t.ptErrors + t.ptT * 2 ^ 8 + t.ptV * 2 ^ 16 + bit1 t.ptDone * 2 ^ 24 + bit1 t.ptErr * 2 ^ 25)

/-- A port test ends with its result (R522, R530). -/
def State.portTestDone (s : State) (errors tm vm : Nat) : State :=
  if !s.tst.ptBusy then s
  else if s.tst.ptMode == 1 then s.onTst (fun x => { x with ptBusy := false, ptDone := true, ptErrors := min 255 errors })
  else
    let s : State := s.onTst (fun x => { x with ptBusy := false, ptDone := true, ptT := tm % 256, ptV := vm % 256 })
    s.event { typ := 0x0504, pay := [(0x18, 4, s.tst.ptPort + s.tst.ptLane * 2 ^ 8), (0x1C, 4, s.tst.portResult.toNat)] }

/-- `PORT_TEST_DONE` (R522). -/
def execPortTestDone (errors tm vm : Nat) (s : State) : Host.Outcome State Fault Refusal := .next (s.portTestDone errors tm vm)

/-! ### Sequencer debug (R523, R524) -/

/-- A debug control without authorisation is refused (R523). -/
def State.dbgGate (s : State) (act : State → State) : State :=
  if s.dbgOpen then act s else s.onTst (fun t => { t with refused := true })

/-- `HALT` (R523): at once between two instructions; behind a stalled `ISSUE` when that has entered its queue. -/
def State.dbgHalt (s : State) (t : Nat) : State :=
  let z := (s.tile t).seq
  if z.phase != .running || z.halted then s
  else if z.stall.isSome then s.onTile t (fun q => q.onSeq (fun z => { z with haltReq := true }))
  else (s.onTile t (fun q => q.onSeq (fun z => { z with halted := true }))).haltEvent t 1

/-- `DBG_HALT` (R523). -/
def execDbgHalt (t : Nat) (s : State) : Host.Outcome State Fault Refusal :=
  onUnit (isTile t) t (s.dbgGate (fun s => s.dbgHalt t))

/-- `STEP` (R523): the next instruction runs and the sequencer halts again behind it. -/
def State.dbgStep (s : State) (t : Nat) : State :=
  if (s.tile t).seq.halted then s.onTile t (fun q => q.onSeq (fun z => { z with stepping := true })) else s

/-- `DBG_STEP` (R523). -/
def execDbgStep (t : Nat) (s : State) : Host.Outcome State Fault Refusal :=
  onUnit (isTile t) t (s.dbgGate (fun s => s.dbgStep t))

/-- `RESUME` (R523). -/
def State.dbgResume (s : State) (t : Nat) : State :=
  s.onTile t (fun q => q.onSeq (fun z => { z with halted := false, stepping := false, haltReq := false }))

/-- `DBG_RESUME` (R523). -/
def execDbgResume (t : Nat) (s : State) : Host.Outcome State Fault Refusal :=
  onUnit (isTile t) t (s.dbgGate (fun s => s.dbgResume t))

/-! ### The memory window (R251, R252, R525, R526) -/

/-- The tile that `TEST_DBG_CTRL` names. -/
def State.dbgTile (s : State) : Nat := s.rfld 0x3C10 0 7
/-- `ADDR`, a multiple of 4 (log 33), and `SPACE` of `TEST_DBG_ADDR`. -/
def State.dbgAddr (s : State) : Nat × Nat := (s.rfld 0x3C18 0 24 / 4 * 4, s.rfld 0x3C18 24 4)

/-- Word of an accumulator by byte address: 512 B a row (R70; log 33). An invalid row holds no value that the spec
states. -/
def Arr.dbgRead (a : Arr) (free : Word) (addr : Nat) : Word :=
  match Tab.get none a.acc (addr / 512) with
  | some r => Tab.get 0 r.bits (addr % 512 / 4)
  | none => free

/-- Write a word of a valid accumulator row. -/
def Arr.dbgWrite (a : Arr) (addr : Nat) (v : Word) : Arr :=
  match Tab.get none a.acc (addr / 512) with
  | some r => { a with acc := Tab.set none a.acc (addr / 512) (some { r with
      bits := Tab.set 0 r.bits (addr % 512 / 4) v, ghost := Tab.set none r.ghost (addr % 512 / 4) none }) }
  | none => a

/-- Word of the Reed by byte address, laid out as an image of all its entries (R216; log 33). -/
def Row.dbgRead (r : Row) (addr : Nat) : Word :=
  if addr < 32768 then
    let e := Tab.get ReedEnt.init r.reed (addr / 8)
    if addr % 8 < 4 then e.stat0 else e.stat1
  else
    let w := fun i => let e := Tab.get ReedEnt.init r.reed i; e.key + bit1 e.valid * 2 ^ 15
    let i := (addr - 32768) / 2
    BitVec.ofNat 32 (w i + w (i + 1) * 2 ^ 16)

/-- Write a word of the Reed. -/
def Row.dbgWrite (r : Row) (addr : Nat) (v : Word) : Row :=
  if addr < 32768 then
    { r with reed := Tab.mod ReedEnt.init r.reed (addr / 8) (fun e => if addr % 8 < 4 then { e with stat0 := v } else { e with stat1 := v }) }
  else
    let i := (addr - 32768) / 2
    let put := fun (t : Tab ReedEnt) (i h : Nat) => Tab.mod ReedEnt.init t i (fun e => { e with key := h % 2 ^ 15, valid := h / 2 ^ 15 % 2 == 1 })
    { r with reed := put (put r.reed i (fld v 0 16)) (i + 1) (fld v 16 16) }

/-- A debugger's read of a tile's store; none: refused (R251, R525). A tile that is powered down holds no state (R18). -/
def State.dbgFetch (s : State) (t : Nat) : Option Word :=
  let q := s.tile t
  let (a, sp) := s.dbgAddr
  let w := fun (m : Mem) => BitVec.ofNat 32 (m.rdLE a 4)
  let held := q.spad.retain.isSome && s.sec.life == .development && s.sec.dbgAuth
  if !isTile t || !s.dbgOpen || !s.powered t || (q.spad.sealed && !(sp == 3 && held)) then none
  else match sp with
    | 0 => if q.seq.halted && decide (a < 128) then some (q.reg (BitVec.ofNat 5 (a / 4))) else none
    | 1 => if q.seq.halted && decide (a < 16384) then some (w q.seq.dmem) else none
    | 2 => if q.seq.halted then csrValue q s.pos t s.now (a / 4) else none
    | 3 => some (w q.spad.mem)
    | 4 => if a < 40960 then some (q.row.dbgRead a) else none
    | 5 => if a < 262144 then
        some (match Tab.get none q.vec.t (a / 512) with
          | some r => Tab.get 0 r (a % 512 / 4)
          | none => s.fv 0)
      else none
    | 6 => if a < 512 * Config.accRows then some (q.ma0.dbgRead (s.fv 0) a) else none
    | 7 => if a < 512 * Config.accRows then some (q.ma1.dbgRead (s.fv 0) a) else none
    | _ => none

/-- A debugger's write of a tile's store; none: refused. Only `CORE_CFG` of the core registers can be written (R58). -/
def State.dbgPut (s : State) (t : Nat) (v : Word) : Option Tile :=
  let q := s.tile t
  let (a, sp) := s.dbgAddr
  if !isTile t || !s.dbgOpen || !s.powered t || q.spad.sealed then none
  else match sp with
    | 0 => if q.seq.halted && decide (a < 128) then some (q.setReg (BitVec.ofNat 5 (a / 4)) v) else none
    | 1 => if q.seq.halted && decide (a < 16384) then some (q.onSeq (fun z => { z with dmem := z.dmem.wrLE a 4 v.toNat })) else none
    | 2 => if q.seq.halted && a / 4 == 0 then some (q.onSeq (fun z => { z with coreCfg := v &&& coreCfgMask })) else none
    | 3 => some { q with spad := { q.spad with mem := q.spad.mem.wrLE a 4 v.toNat } }
    | 4 => if a < 40960 then some { q with row := q.row.dbgWrite a v } else none
    | 5 => if a < 262144 then
        some (match Tab.get none q.vec.t (a / 512) with
          | some r => { q with vec := { q.vec with t := Tab.set none q.vec.t (a / 512) (some (Tab.set 0 r (a % 512 / 4) v)) } }
          | none => q)
      else none
    | 6 => if a < 512 * Config.accRows then some { q with ma0 := q.ma0.dbgWrite a v } else none
    | 7 => if a < 512 * Config.accRows then some { q with ma1 := q.ma1.dbgWrite a v } else none
    | _ => none

/-- The address advances by 4 (R525). -/
def State.dbgNext (s : State) : State := s.setFld 0x3C18 0 24 (s.dbgAddr.1 + 4)

/-- A refused access (R252, R525, R530). -/
def State.dbgRefused (s : State) : State :=
  (s.onTst (fun t => { t with accErr := true })).event
    { typ := 0x0502, tile := s.dbgTile, pay := [(0x18, 4, s.dbgTile), (0x1C, 4, (s.reg 0x3C18).toNat)] }

/-- The value that a read of `TEST_DBG_DATA` returns. -/
def State.dbgWord (s : State) : Word := (s.dbgFetch s.dbgTile).getD 0

/-- What a read of `TEST_DBG_DATA` does (R525). -/
def State.dbgReadData (s : State) : State :=
  let s' : State := if (s.dbgFetch s.dbgTile).isSome then s else s.dbgRefused
  s'.tick.dbgNext

/-- What a write of `TEST_DBG_DATA` does (R525, R526). -/
def State.dbgWriteData (s : State) (v : Word) : State :=
  (match s.dbgPut s.dbgTile v with
    | some q => (s.onTile s.dbgTile (fun _ => q)).escape s.dbgTile
    | none => s.dbgRefused).dbgNext

/-- `DBG_DATA_ACCESS` (R525): a read, or a write of `v`. -/
def execDbgDataAccess (wr : Bool) (v : Word) (s : State) : Host.Outcome State Fault Refusal :=
  .next (if wr then s.dbgWriteData v else s.dbgReadData.mgmtRead s.dbgWord)

/-! ### Trace (R527, R528) -/

/-- `CLEAR` (R528). -/
def State.traceClear (s : State) : State :=
  s.onTst (fun t => { t with trace := [], wptr := 0, full := false, lost := 0, lostFlag := false })

/-- `TRACE_CLEAR` (R528). -/
def execTraceClear (s : State) : Host.Outcome State Fault Refusal := .next s.traceClear

/-- `TEST_TRACE_IDX`. -/
def State.traceIdx (s : State) : Nat := s.rfld 0x3C28 0 16

/-- The value that a read of `TEST_TRACE_DATA` returns (R528). -/
def State.traceWord (s : State) : Word :=
  let i := s.traceIdx
  let r := Tab.get (0, 0, 0, 0) s.tst.trace (i / 4)
  if !s.dbgOpen then 0
  else match i % 4 with
    | 0 => r.1
    | 1 => r.2.1
    | 2 => r.2.2.1
    | _ => r.2.2.2

/-- The index advances at each read (R528). -/
def State.traceNext (s : State) : State := s.setFld 0x3C28 0 16 (s.traceIdx + 1)

/-- `TRACE_DATA_READ` (R528). -/
def execTraceDataRead (s : State) : Host.Outcome State Fault Refusal := .next (s.traceNext.mgmtRead s.traceWord)

/-! ### Telemetry (R560 to R562) -/

/-- `WIN_MS`. -/
def State.winMs (s : State) : Nat := s.rfld 0x3800 8 8

/-- A write of `TELEM_CTRL` (R10, R561): the first window begins when `EN` is set; clearing it discards the window in
progress. -/
def State.telemCtrl (s : State) (v : Word) : State :=
  let on := s.telem.running
  let ms := if fld v 8 8 = 0 then s.winMs else fld v 8 8
  let s : State := s.setReg 0x3800 (BitVec.ofNat 32 (fld v 0 1 + ms * 2 ^ 8))
  if bitAt v 0 && !on then
    { s with telem := { s.telem with running := true, start := s.now, len := ms, acc := [], late := [], arrayRem := [] } }
  else if !bitAt v 0 then { s with telem := { s.telem with running := false, acc := [], late := [] } }
  else s

/-- `TELEM_CTRL_WRITE` (R561). -/
def execTelemCtrlWrite (v : Word) (s : State) : Host.Outcome State Fault Refusal := .next (s.telemCtrl v)

/-- The shown value of a counter: bytes in 4 KiB (R560); the arrays hand over their cycles 1,024 at a time. -/
def telemShown (k n : Nat) : Nat := min (2 ^ 32 - 1) (if k < 4 then n / 4096 else n)

/-- A window ends: the registers are replaced together and the next window begins (R561, R562). -/
def State.telemWindowEnd (s : State) : State :=
  let t := s.telem
  let stop := t.start + 10 ^ 6 * t.len
  if !t.running || decide (s.now < stop) then s
  else
    { s with telem := { t with
        winNum := (t.winNum + 1) % 2 ^ 24, lenMs := t.len, shownStart := t.start
        shown := (List.range 8).foldl (fun x k => Tab.set 0 x k (telemShown k (Tab.get 0 t.acc k))) []
        start := stop, len := s.winMs, acc := t.late, late := [] } }

/-- `TELEM_WINDOW_END` (R562). -/
def execTelemWindowEnd (s : State) : Host.Outcome State Fault Refusal := .next s.telemWindowEnd

end Sys2Proof.Machine
end

