-- ==== Sys2Proof/Machine/Flags.lean ====
section
/-!
DEFINITION. What a read of each set-up register returns, and what it changes (spec/22_register_map.md R552 to R562, with
the register tables of the owning chapters). Registers that hold a written value are in `State.cfg`; status fields are
computed from the state. A command bit reads 1 while its command is in progress (log 34).
-/

namespace Sys2Proof.Machine

open Sys2Proof

/-- Code of a port state (R389). -/
def PortSt.code : PortSt → Nat
  | .down => 0
  | .training => 1
  | .exchange => 2
  | .admitWait => 3
  | .up => 4
  | .retraining => 5
  | .isolated => 6
  | .failed => 7

/-- A word of a number. -/
def w32 (n : Nat) : Word := BitVec.ofNat 32 n

/-! ### `RESET`, `OPT` and `CLK` -/

/-- `RESET_CTRL` (R431). -/
def State.resetCtrlWord (s : State) : Word :=
  let m := s.mgmt
  let mine := match m.pendingReset with
    | some (_, cause, sub, _, _) => cause == 6 && sub == 1
    | none => false
  w32 (bit1 mine + bit1 m.pkgWait.isSome * 2 + bit1 m.crstErr * 2 ^ 2 + bit1 m.ctrlErr * 2 ^ 3)

/-- `FW_CTRL` and `FW_STATUS` (Table — FW_STATUS). -/
def State.fwWord (s : State) (off : Nat) : Option Word :=
  let m := s.mgmt
  match off with
  | 0x0420 => some (w32 (bit1 m.fwStream + bit1 m.switchReq.isSome * 2))
  | 0x0424 => some (w32 (m.stage + m.fwErr * 2 ^ 4 + bit1 m.updReady * 2 ^ 8 + bit1 m.updErr * 2 ^ 9 + m.fwVersion % 2 ^ 16 * 2 ^ 16))
  | 0x0428 => some 0
  | _ => none

/-- The `RESET` block (R430, R431, R433). -/
def State.resetBlock (s : State) (off : Nat) : Option Word :=
  match off with
  | 0x0400 => some s.resetCauseWord
  | 0x0404 => some (w32 s.mgmt.causeTs)
  | 0x0408 => some (w32 (s.mgmt.causeTs / 2 ^ 32))
  | 0x040C => some s.resetCtrlWord
  | 0x0410 => some (s.reg 0x0410)
  | 0x0414 => some (w32 s.mgmt.crst)
  | 0x0418 => some (w32 (s.mgmt.crst / 2 ^ 32))
  | 0x041C => some (w32 (s.mgmt.crst / 2 ^ 64))
  | _ => s.fwWord off

/-- The `OPT` and `CLK` blocks (R410, R441, R480). -/
def State.optClk (s : State) (off : Nat) : Option Word :=
  let t := s.time
  match off with
  | 0x0800 => some s.optStatusWord
  | 0x0804 => some (w32 (bit1 s.mgmt.optBusy))
  | 0x0808 => some (s.reg 0x0808)
  | 0x080C => some (Tab.get 0 s.mgmt.shadow (s.optOff / 4))
  | 0x0C00 => some (s.reg 0x0C00 ||| w32 (bit1 s.pkg.refOk * 2 + bit1 s.pkg.holdover * 2 ^ 2 + bit1 s.pkg.clkFault * 2 ^ 3))
  | 0x0C04 => some (w32 t.ts)
  | 0x0C08 => some t.hiLatch
  | 0x0C0C => some (s.reg 0x0C0C ||| w32 (bit1 t.aligned * 2 ^ 8 + bit1 t.slip * 2 ^ 9 + bit1 t.nosync * 2 ^ 10))
  | _ => none

/-! ### `PORT` -/

/-- `PORT_STATUS` (R404). -/
def Port.statusWord (po : Port) : Word :=
  w32 (po.st.code + po.rate * 2 ^ 3 + bit1 po.x32 * 2 ^ 5 + bit1 po.half * 2 ^ 6 + po.version * 2 ^ 7 + bit1 po.confOn * 2 ^ 9
    + bit1 po.l1 * 2 ^ 10 + bit1 po.linkLoss * 2 ^ 11 + bit1 po.admitErr * 2 ^ 12 + po.retrains * 2 ^ 16)

/-- A register of port `p` at its offset within the port (R404); offsets from 0x20 up are reserved. -/
def State.portBlock (s : State) (p off : Nat) : Option Word :=
  let po := s.port p
  let base := 0x1000 + 0x40 * p
  match off with
  | 0x00 => some (s.reg base ||| w32 (bit1 po.retrainReq * 2))
  | 0x04 => some po.statusWord
  | 0x08 => some (s.reg (base + 0x08))
  | 0x0C => some (s.reg (base + 0x0C))
  | 0x10 => some (w32 po.peerId)
  | 0x14 => some (w32 po.peerPart)
  | 0x18 => some (w32 po.replays)
  | 0x1C => some (w32 po.authFails)
  | _ => none

/-! ### `QM`, `KW`, `SYNC` and `BW` -/

/-- The `QM` block (R309). -/
def State.qmBlock (s : State) (off : Nat) : Option Word :=
  match off with
  | 0x2004 => some (w32 (bit1 s.qmOn + bit1 s.qm.tableErr * 2 + bit1 s.evFull * 2 ^ 2))
  | 0x201C => some (s.reg 0x201C ||| w32 (s.qm.evTail % 2 ^ 16 * 2 ^ 16))
  | 0x202C => some (w32 s.qm.dbDrop)
  | 0x2030 => some (w32 s.qm.evLost)
  | _ => if 0x2000 ≤ off ∧ off ≤ 0x2028 then some (s.reg off) else none

/-- `KW_STATUS` (R348). -/
def State.kwStatusWord (s : State) : Word :=
  let spares := ((List.range Config.tiles).filter (fun t => s.tileSt t == .spare)).length
  let absent := ((List.range 64).filter (fun c => (s.core c).st == .absent)).length
  w32 (bit1 s.kw.ready + bit1 s.kw.mapErr * 2 + spares * 2 ^ 4 + absent * 2 ^ 8)

/-- The `KW` block (R348). -/
def State.kwBlock (s : State) (off : Nat) : Option Word :=
  match off with
  | 0x2400 => some (s.kw.pendCtrl.getD (s.reg 0x2400))
  | 0x2404 => some s.kwStatusWord
  | 0x2408 => some (s.reg 0x2408)
  | 0x240C => some (s.reg 0x240C)
  | 0x2410 => some (s.reg 0x2410)
  | 0x2414 => some (s.kw.pendPolicy.getD (s.reg 0x2414))
  | 0x2418 => some (w32 s.kw.epoch)
  | 0x241C => some (w32 s.kw.deny)
  | _ => none

/-- A `BW` register as last written, whether or not it has taken effect (R489). -/
def State.bwWritten (s : State) (off : Nat) : Word := (Tab.get none s.bw.pend off).getD (s.reg off)

/-- The `SYNC` and `BW` blocks (R306, R489). -/
def State.syncBw (s : State) (off : Nat) : Option Word :=
  match off with
  | 0x2800 => some (s.reg 0x2800)
  | 0x2804 => some (s.reg 0x2804)
  | 0x2808 => some 0
  | 0x2C00 => some (s.bwWritten 0x2C00)
  | 0x2C04 => some (s.bwWritten 0x2C04)
  | 0x2C08 => some (s.bwWritten 0x2C08)
  | 0x2C0C => some s.bwStatus
  | 0x2C10 => some (w32 (s.bw.avgPower % 2 ^ 16 + s.bw.peakA % 2 ^ 16 * 2 ^ 16))
  | 0x2C14 => some (w32 (s.bw.tj % 2 ^ 11 + s.bw.tjTile * 2 ^ 16))
  | _ => none

/-! ### `SEC`, `FAULT`, `TELEM` and `TEST` -/

/-- `SEC_STATUS` (R511). -/
def State.secStatusWord (s : State) : Word :=
  let k := s.sec
  w32 (bit1 (k.cmd != 0) + bit1 k.cmdErr * 2 + k.errCode * 2 ^ 2 + bit1 k.rptValid * 2 ^ 6 + bit1 k.rngFail * 2 ^ 7
    + bit1 k.lockout * 2 ^ 8 + k.refusals * 2 ^ 16)

/-- The `SEC` block (R511). -/
def State.secBlock (s : State) (off : Nat) : Option Word :=
  let k := s.sec
  match off with
  | 0x3000 => some s.lifecycleWord
  | 0x3004 => some (w32 (bit1 (k.cmd == 1) + bit1 (k.cmd == 2) * 2 ^ 2))
  | 0x3008 => some s.secStatusWord
  | 0x300C => some (w32 k.memEnc)
  | 0x3010 => some (s.reg 0x3010 ||| w32 (bit1 (!(s.heldTiles (s.rfld 0x3010 0 12)).isEmpty) * 2 ^ 13))
  | 0x3014 => some (w32 (k.minSvn + min 255 k.fwSvn * 2 ^ 8 + bit1 k.fk0Revoked * 2 ^ 16))
  | 0x3018 => some (s.reg 0x3018)
  | 0x301C => some s.rptWord
  | 0x3020 => some (s.reg 0x3020)
  | 0x3024 => some 0
  | 0x3028 => some s.rngWord
  | _ =>
    if 0x3040 ≤ off ∧ off ≤ 0x305C then some (Tab.get 0 k.challenge ((off - 0x3040) / 4))
    else if 0x3060 ≤ off ∧ off ≤ 0x308C then some (s.reg off) else none

/-- Tiles in a state, as a mask. -/
def State.tileMask (s : State) (x : TileSt) : Nat :=
  (List.range Config.tiles).foldl (fun m t => if s.tileSt t == x then m + 2 ^ t else m) 0

/-- The `FAULT` block (R470). -/
def State.faultBlock (s : State) (off : Nat) : Option Word :=
  let f := s.flt
  match off with
  | 0x3400 => some (w32 (bit1 f.core + bit1 f.port * 2 + bit1 f.poison * 2 ^ 2 + bit1 f.uncoreCe * 2 ^ 3 + bit1 f.dieLost * 2 ^ 4
      + bit1 f.fenceErr * 2 ^ 5 + f.lastTile * 2 ^ 16))
  | 0x3404 => some (w32 (s.tileMask .fenced))
  | 0x3408 => some (w32 (s.tileMask .fenced / 2 ^ 32))
  | 0x340C => some (w32 (s.tileMask .fenced / 2 ^ 64))
  | 0x3410 => some (w32 s.mgmt.releasing)
  | 0x3414 => some (w32 (s.mgmt.releasing / 2 ^ 32))
  | 0x3418 => some (w32 (s.mgmt.releasing / 2 ^ 64))
  | 0x341C => some (s.reg 0x341C)
  | 0x3420 => some (w32 f.ceCount)
  | 0x3424 => some (w32 f.coreCount)
  | 0x3428 => some (w32 f.replayCount)
  | 0x342C => some (w32 f.poisonCount)
  | _ => none

/-- The `TELEM` block (R560). -/
def State.telemBlock (s : State) (off : Nat) : Option Word :=
  let t := s.telem
  match off with
  | 0x3800 => some (s.reg 0x3800)
  | 0x3804 => some (w32 (t.winNum + t.lenMs * 2 ^ 24))
  | 0x3808 => some (w32 t.shownStart)
  | 0x380C => some (w32 (t.shownStart / 2 ^ 32))
  | _ => if 0x3810 ≤ off ∧ off ≤ 0x382C then some (w32 (Tab.get 0 t.shown ((off - 0x3810) / 4))) else none

/-- The `TEST` block (R529). -/
def State.testBlock (s : State) (off : Nat) : Option Word :=
  let t := s.tst
  let z := (s.tile s.dbgTile).seq
  match off with
  | 0x3C00 => some (s.reg 0x3C00)
  | 0x3C04 => some (w32 (bit1 t.bistBusy + bit1 t.bistPass * 2 + bit1 t.bistErr * 2 ^ 2 + t.bistFail * 2 ^ 8))
  | 0x3C08 => some (s.reg 0x3C08)
  | 0x3C0C => some t.portResult
  | 0x3C10 => some (s.reg 0x3C10)
  | 0x3C14 => some (w32 (bit1 z.halted + bit1 t.accErr * 2 + bit1 t.refused * 2 ^ 2 + (if z.halted then z.pc % 2 ^ 14 else 0) * 2 ^ 16))
  | 0x3C18 => some (s.reg 0x3C18)
  | 0x3C1C => some s.dbgWord
  | 0x3C20 => some (s.reg 0x3C20)
  | 0x3C24 => some (w32 (t.wptr + bit1 t.full * 2 ^ 14 + t.lost * 2 ^ 16))
  | 0x3C28 => some (s.reg 0x3C28)
  | 0x3C2C => some s.traceWord
  | _ => none

/-! ### The whole space -/

/-- The `DIE` block (R408, R416, R559). -/
def State.dieBlock (s : State) (off : Nat) : Option Word :=
  match off with
  | 0x0000 => some (s.reg 0x0000)
  | 0x0004 => some (s.reg 0x0004)
  | 0x0008 => some (s.reg 0x0008)
  | 0x0010 => some (s.reg 0x0010)
  | 0x0014 => some (s.reg 0x0014)
  | 0x0018 => some 0
  | 0x001C => some 0
  | 0x0020 => some (s.reg 0x0020)
  | 0x0024 => some s.pkgStateWord
  | _ => none

/-- The value of the register at an offset; none for an unmapped or misaligned one (R552, R553). -/
def State.cfgRead (s : State) (off : Nat) : Option Word :=
  if off % 4 ≠ 0 then none
  else if off < 0x400 then s.dieBlock off
  else if off < 0x800 then s.resetBlock off
  else if off < 0x1000 then s.optClk off
  else if off < 0x1C00 then s.portBlock ((off - 0x1000) / 0x40) ((off - 0x1000) % 0x40)
  else if off = 0x1C00 then some (s.reg 0x1C00)
  else if off < 0x2000 then none
  else if off < 0x2400 then s.qmBlock off
  else if off < 0x2800 then s.kwBlock off
  else if off < 0x3000 then s.syncBw off
  else if off < 0x3400 then s.secBlock off
  else if off < 0x3800 then s.faultBlock off
  else if off < 0x3C00 then s.telemBlock off
  else s.testBlock off

/-- What a read changes (R556, R525). -/
def State.cfgReadEffect (s : State) (off : Nat) : State :=
  match off with
  | 0x0C04 => s.tsLatch
  | 0x301C => s.rptRead
  | 0x3028 => s.rngRead
  | 0x3C1C => s.dbgReadData
  | 0x3C2C => s.traceNext
  | _ => s

end Sys2Proof.Machine
end

