-- ==== Sys2Proof/Machine/Registers.lean ====
section
/-!
DEFINITION. Writes of the set-up registers, and the commands that access them: packets, the TAP and the management
controller (spec/22_register_map.md R553 to R558; R9, R10, R397, R417, R516).
-/

namespace Sys2Proof.Machine

open Sys2Proof

/-- Who accesses the configuration space (R552): the die's own management controller, the TAP, a `HOST` port, the leader's
management controller. -/
inductive CfgSrc
  | mgmt | tap | host | leader
  deriving DecidableEq, Repr

/-- A field of a write, or its old value where the new one is reserved (R10). -/
def keepReserved (ok : Bool) (old new : Nat) : Nat := if ok then new else old

/-- Do `f` when a bit of the written word is 1. -/
def State.onBit (s : State) (v : Word) (i : Nat) (f : State → State) : State := if bitAt v i then f s else s

/-! ### `DIE`, `RESET`, `OPT` and `CLK` -/

/-- A write of `FEATURE_LEVEL` is accepted only from the leader's management controller (R417). -/
def State.mayLevel (s : State) (src : CfgSrc) : Bool := src == .leader || (src == .mgmt && s.isLeader)

/-- A write of `RESET_CTRL` (R431). -/
def State.resetCtrl (s : State) (v : Word) : State :=
  let s : State := (s.onBit v 2 (fun s => s.onMgmt (fun m => { m with crstErr := false }))).onBit v 3
    (fun s => s.onMgmt (fun m => { m with ctrlErr := false }))
  (s.onBit v 1 State.pkgSrst).onBit v 0 (fun s => s.requestReset .srst 6 1 0)

/-- A write of `SYS_WDOG` (R431): a kick, or setting `EN`, starts the window. -/
def State.wdogWrite (s : State) (v : Word) : State :=
  let on := bitAt (s.reg 0x0410) 31
  let lim := keepReserved (fld v 0 16 != 0) (s.rfld 0x0410 0 16) (fld v 0 16)
  let s : State := s.setReg 0x0410 (w32 (lim + fld v 31 1 * 2 ^ 31))
  if bitAt v 30 || (bitAt v 31 && !on) then s.wdogKick else s

/-- A write of `FW_CTRL` (R445, R447). -/
def State.fwCtrl (s : State) (v : Word) : State :=
  ((s.onBit v 0 State.fwLoad).onBit v 1 State.fwSwitch).onBit v 2 (fun s => s.onMgmt (fun m => { m with
    fwStream := false, fwPos := 0, switchReq := none }))

/-- Writes of the `DIE` and `RESET` blocks. Answers the state and whether the write is accepted. -/
def State.wrReset (s : State) (src : CfgSrc) (off : Nat) (v : Word) : State × Bool :=
  match off with
  | 0x0020 => if s.mayLevel src then (s.setReg 0x0020 (v &&& 0x803F000F), true) else (s, false)
  | 0x040C => (s.resetCtrl v, !bitAt v 1 || s.isLeader)
  | 0x0410 => (s.wdogWrite v, true)
  | 0x0414 => (s.coreResetMask 0 v, true)
  | 0x0418 => (s.coreResetMask 1 v, true)
  | 0x041C => (s.coreResetMask 2 v, true)
  | 0x0420 => (s.fwCtrl v, true)
  | 0x0424 => (s.onBit v 9 (fun s => s.onMgmt (fun m => { m with updErr := false })), true)
  | 0x0428 => (s.fwData v, true)
  | _ => (s, true)

/-- Writes of the `OPT` and `CLK` blocks. -/
def State.wrOptClk (s : State) (off : Nat) (v : Word) : State × Bool :=
  match off with
  | 0x0800 => (s.onBit v 6 (fun s => s.onMgmt (fun m => { m with optErr := false })), true)
  | 0x0804 => ((s.onBit v 1 State.optRevert).onBit v 0 State.optCommit, !(bitAt v 1 && s.mgmt.optBusy))
  | 0x0808 => (s.setReg 0x0808 (v &&& 0xFFFC), true)
  | 0x080C => (s.optData v, !(s.mgmt.optBusy || s.optOff < 8 || s.optOff == 0xFFFC))
  | 0x0C00 => ((s.setFld 0x0C00 8 7 (fld v 8 7)).clockOut, true)
  | 0x0C0C => (((s.setFld 0x0C0C 0 8 (fld v 0 8)).onBit v 9 (fun s => s.onTime (fun t => { t with slip := false }))).onBit v 10
      (fun s => s.onTime (fun t => { t with nosync := false })), true)
  | _ => (s, true)

/-! ### `PORT` -/

/-- A write of `PORT_CTRL` (R393, R404). -/
def State.portCtrl (s : State) (p : Nat) (v : Word) : State :=
  let base := 0x1000 + 0x40 * p
  let rate := keepReserved (fld v 2 2 != 3) (s.pctl p 2 2) (fld v 2 2)
  let s : State := s.setReg base (w32 (s.pctl p 0 1 + rate * 2 ^ 2 + fld v 4 3 * 2 ^ 4 + fld v 8 8 * 2 ^ 8))
  let s : State := if bitAt v 0 == s.portEn p then s else s.portEnWrite p (bitAt v 0)
  (s.onBit v 1 (fun s => s.retrain p)).onBit v 7 (fun s => s.portIsolate p)

/-- Writes of a port's registers. -/
def State.wrPort (s : State) (p off : Nat) (v : Word) : State :=
  match off with
  | 0x00 => s.portCtrl p v
  | 0x04 => (s.onBit v 11 (fun s => s.onPort p (fun po => { po with linkLoss := false }))).onBit v 12
      (fun s => s.onPort p (fun po => { po with admitErr := false }))
  | 0x0C => s.setReg (0x100C + 0x40 * p) (v &&& 0x0FFFFFFF)
  | _ => s

/-- A write of `WW_ROUTE` (R10, R405). -/
def State.routeWrite (s : State) (v : Word) : State :=
  s.setReg 0x1C00 (w32 ((List.range 8).foldl (fun n d =>
    n + keepReserved (routeOk v d) (s.rfld 0x1C00 (4 * d) 4) (fld v (4 * d) 4) * 2 ^ (4 * d)) 0))

/-! ### `QM`, `KW`, `SYNC` and `BW` -/

/-- Writes of the `QM` block (R309, R310): the bases and the ring's size only while the queue manager is off. -/
def State.wrQm (s : State) (off : Nat) (v : Word) : State :=
  match off with
  | 0x2000 => s.qmCtrl v
  | 0x2004 => s.onBit v 1 (fun s => { s with qm := { s.qm with tableErr := false } })
  | 0x201C => if s.qmOn || fld v 0 5 < 8 || 16 < fld v 0 5 then s else s.setReg 0x201C (v &&& 0x1F)
  | 0x2020 => s.setReg 0x2020 (v &&& 0xFFFFFFFC)
  | 0x2024 => s.setReg 0x2024 (v &&& 0xFFFFF)
  | 0x2028 => s.setReg 0x2028 v
  | _ => if 0x2008 ≤ off ∧ off ≤ 0x2018 ∧ !s.qmOn then s.setReg off v else s

/-- Writes of the `KW` block (R348, R349). -/
def State.wrKw (s : State) (off : Nat) (v : Word) : State :=
  match off with
  | 0x2400 => s.onKw (fun k => { k with pendCtrl := some (v &&& 7) })
  | 0x2404 => s.onBit v 1 (fun s => s.onKw (fun k => { k with mapErr := false }))
  | 0x2408 => if s.kw.ready then s else s.setReg 0x2408 (v &&& 0x0FFFFF03)
  | 0x240C => if s.kw.ready then s else s.setReg 0x240C (v &&& 0x0FFFFF03)
  | 0x2410 => if s.kw.ready || !objLog2Ok (fld v 0 5) then s else s.setReg 0x2410 (v &&& 0x1F)
  | 0x2414 =>
    let old := s.kw.pendPolicy.getD (s.reg 0x2414)
    let v := v &&& 0xFFF77FFF
    s.onKw (fun k => { k with
      pendPolicy := some (if fld v 0 8 = 0 then w32 (putBits v.toNat 0 8 (fld old 0 8)) else v) })
  | _ => s

/-- A write of a `BW` register waits for the next 100 µs boundary (R10, R489). -/
def State.bwWrite (s : State) (off : Nat) (v : Word) : State :=
  let v := match off with
    | 0x2C00 => w32 (keepReserved (envelopeOk (fld v 0 10)) (fld (s.bwWritten 0x2C00) 0 10) (fld v 0 10) + fld v 16 10 * 2 ^ 16)
    | 0x2C04 => v &&& 0xFF7FFFFF
    | _ => v &&& 0x3FFF
  s.onBw (fun b => { b with pend := Tab.set none b.pend off (some v) })

/-- Writes of the `SYNC` and `BW` blocks (R306, R307, R489). -/
def State.wrSyncBw (s : State) (off : Nat) (v : Word) : State :=
  match off with
  | 0x2800 =>
    let f := keepReserved (decide (fld v 16 4 < 8)) (s.rfld 0x2800 16 4) (fld v 16 4)
    let err := if bitAt v 30 then 0 else s.rfld 0x2800 30 1
    s.setReg 0x2800 (w32 (fld v 0 16 + f * 2 ^ 16 + err * 2 ^ 30))
  | 0x2804 => s.setReg 0x2804 v
  | 0x2808 => s.dbgCmd v
  | 0x2C00 => s.bwWrite off v
  | 0x2C04 => s.bwWrite off v
  | 0x2C08 => s.bwWrite off v
  | _ => s

/-! ### `SEC`, `FAULT`, `TELEM` and `TEST` -/

/-- A write of `SEC_CTRL`: its commands in ascending bit order (R511). -/
def State.secCtrl (s : State) (v : Word) : State :=
  (((((s.onBit v 0 State.attest).onBit v 1 State.drawChallenge).onBit v 2 State.tokenSubmit).onBit v 3 State.dbgLock).onBit v 4
    State.svnCommit).onBit v 5 State.fk0Revoke

/-- Writes of the `SEC` block (R496, R503, R505, R506). -/
def State.wrSec (s : State) (off : Nat) (v : Word) : State × Bool :=
  match off with
  | 0x3004 => (s.secCtrl v, true)
  | 0x3008 => (s.onBit v 1 (fun s => s.onSec (fun k => { k with cmdErr := false })), true)
  | 0x300C =>
    let s' : State := (s.onSec (fun k => { k with cmdErr := false })).memEncWrite v
    if s'.sec.cmdErr then (s.memEncWrite v, false) else (s.memEncWrite v, true)
  | 0x3010 => ((s.setReg 0x3010 (v &&& 0xFFF)).onBit v 12 (fun s => s.retainRelease (fld v 0 12)), true)
  | 0x3018 => (s.setReg 0x3018 (v &&& 0xFF), true)
  | 0x3020 => (s.setReg 0x3020 (v &&& 0x3F), true)
  | 0x3024 => (s.tokenData v, true)
  | _ => (if 0x3060 ≤ off ∧ off ≤ 0x308C then s.setReg off v else s, true)

/-- A write of `FAULT_STATUS` (R470). -/
def State.faultStatus (s : State) (v : Word) : State :=
  s.onFlt (fun f => { f with
    core := f.core && !bitAt v 0, port := f.port && !bitAt v 1, poison := f.poison && !bitAt v 2
    uncoreCe := f.uncoreCe && !bitAt v 3, dieLost := f.dieLost && !bitAt v 4, fenceErr := f.fenceErr && !bitAt v 5 })

/-- Writes of the `FAULT` and `TELEM` blocks. -/
def State.wrFault (s : State) (off : Nat) (v : Word) : State :=
  match off with
  | 0x3400 => s.faultStatus v
  | 0x3404 => s.fenceMask 0 v
  | 0x3408 => s.fenceMask 1 v
  | 0x340C => s.fenceMask 2 v
  | 0x3410 => s.fenceRelease 0 v
  | 0x3414 => s.fenceRelease 1 v
  | 0x3418 => s.fenceRelease 2 v
  | 0x341C => s.setReg 0x341C (v &&& 0xFFFF)
  | 0x3800 => s.telemCtrl v
  | _ => s

/-- A write of `TEST_BIST_CTRL` (R10, R521). -/
def State.bistCtrl (s : State) (v : Word) : State :=
  let kind := keepReserved (fld v 7 2 == 1 || fld v 7 2 == 2) (s.rfld 0x3C00 7 2) (fld v 7 2)
  (s.setReg 0x3C00 (w32 (fld v 0 7 + kind * 2 ^ 7))).onBit v 9 (fun s => s.bistRun (fld v 0 7) kind)

/-- A write of `TEST_PORT_CTRL` (R10, R522). Whether the partner of a port answers on the sideband comes from outside
(log 1). -/
def State.portTestCtrl (s : State) (v : Word) : State :=
  let mode := keepReserved (fld v 6 2 != 3) (s.rfld 0x3C08 6 2) (fld v 6 2)
  (s.setReg 0x3C08 (w32 (fld v 0 6 + mode * 2 ^ 6 + fld v 8 7 * 2 ^ 8))).onBit v 15
    (fun s => (s.portTest (fld v 0 6) mode (fld v 8 7) (bitAt (s.fv 0) 0)).tick)

/-- A write of `TEST_DBG_CTRL` (R523). -/
def State.dbgCtrl (s : State) (v : Word) : State :=
  let t := fld v 0 7
  let gate := fun (f : State → Nat → State) (s : State) => s.dbgGate (fun s => if isTile t then f s t else s)
  let s : State := s.setReg 0x3C10 (v &&& 0x87F)
  ((s.onBit v 8 (gate State.dbgHalt)).onBit v 9 (gate State.dbgStep)).onBit v 10 (gate State.dbgResume)

/-- Writes of the `TEST` block (R529). -/
def State.wrTest (s : State) (off : Nat) (v : Word) : State :=
  match off with
  | 0x3C00 => s.bistCtrl v
  | 0x3C04 => s.onBit v 2 (fun s => s.onTst (fun t => { t with bistErr := false }))
  | 0x3C08 => s.portTestCtrl v
  | 0x3C0C => s.onBit v 25 (fun s => s.onTst (fun t => { t with ptErr := false }))
  | 0x3C10 => s.dbgCtrl v
  | 0x3C14 => (s.onBit v 1 (fun s => s.onTst (fun t => { t with accErr := false }))).onBit v 2
      (fun s => s.onTst (fun t => { t with refused := false }))
  | 0x3C18 => s.setReg 0x3C18 (w32 (fld v 0 24 + keepReserved (decide (fld v 24 4 < 8)) (s.rfld 0x3C18 24 4) (fld v 24 4) * 2 ^ 24))
  | 0x3C1C => s.dbgWriteData v
  | 0x3C20 => (s.setReg 0x3C20 (v &&& 7)).onBit v 3 State.traceClear
  | 0x3C28 => s.setReg 0x3C28 (v &&& 0xFFFF)
  | _ => s

/-! ### The whole space -/

/-- A write of the register at an offset, and whether it is accepted (R553, R554). -/
def State.cfgWrite (s : State) (src : CfgSrc) (off : Nat) (v : Word) : State × Bool :=
  if (s.cfgRead off).isNone then (s, false)
  else if off < 0x800 then s.wrReset src off v
  else if off < 0x1000 then s.wrOptClk off v
  else if off < 0x1C00 then (s.wrPort ((off - 0x1000) / 0x40) ((off - 0x1000) % 0x40) v, true)
  else if off < 0x2000 then (s.routeWrite v, true)
  else if off < 0x2400 then (s.wrQm off v, true)
  else if off < 0x2800 then (s.wrKw off v, true)
  else if off < 0x3000 then (s.wrSyncBw off v, true)
  else if off < 0x3400 then s.wrSec off v
  else if off < 0x3C00 then (s.wrFault off v, true)
  else (s.wrTest off v, true)

/-- `CFG_REG_WRITE`: a write by the die's own management controller (R554). -/
def execCfgRegWrite (off : Nat) (v : Word) (s : State) : Host.Outcome State Fault Refusal := .next (s.cfgWrite .mgmt off v).1

/-! ### Configuration packets (R397) -/

/-- Whether a die is this one's leader: until it has been accepted, a die takes any other of `PKG_MASK` for the leader that
admits it (R415, R425; DEDUCED, log 49). -/
def State.isLeaderDie (s : State) (d : Nat) : Bool :=
  if s.pkg.accepted then d == s.pkg.leader else d != s.pos && s.positions.contains d

/-- The source of a configuration packet, none when it is refused (R397). -/
def State.cfgSource (s : State) (p : Nat) (k : Packet) : Option CfgSrc :=
  if s.role p == 3 then some .host
  else if isDieRole (s.role p) && k.srcStop == 123 && s.isLeaderDie k.srcDie then some .leader
  else none

/-- Answer a configuration packet with `CFG_RSP` (R396, R553). -/
def State.cfgRsp (s : State) (p : Nat) (k : Packet) (ok : Bool) (v : Word) : State :=
  s.reply p k (withData { s.packet 1 10 k.srcDie 123 with aux := bit1 (!ok) } (leBytes 4 v.toNat ++ List.replicate 28 0))

/-- A configuration packet that R397 does not admit. -/
def State.cfgRefused (s : State) (p : Nat) (k : Packet) : State :=
  (s.cfgRsp p k false 0).event { typ := 0x0207, pay := [(0x18, 4, p), (0x1C, 4, originWord k)] }

/-- `CFG_RD` (R397, R553, R556). -/
def State.cfgRdPacket (s : State) (p : Nat) (k : Packet) : State :=
  match s.cfgSource p k with
  | none => s.cfgRefused p k
  | some _ =>
    match s.cfgRead (k.addr % 2 ^ 16) with
    | none => s.cfgRsp p k false 0
    | some v => (s.cfgReadEffect (k.addr % 2 ^ 16)).cfgRsp p k true v

/-- `CFG_RD` (R554). -/
def execCfgRd (p : Nat) (k : Packet) (s : State) : Host.Outcome State Fault Refusal :=
  let k := asType k 4 3
  onUnit (isPort p) p (s.receive p k (fun s => s.cfgRdPacket p k))

/-- `CFG_WR` (R397, R553). -/
def State.cfgWrPacket (s : State) (p : Nat) (k : Packet) : State :=
  match s.cfgSource p k with
  | none => s.cfgRefused p k
  | some src =>
    let r := s.cfgWrite src (k.addr % 2 ^ 16) (w32 (pktLE k 0 4))
    r.1.cfgRsp p k r.2 0

/-- `CFG_WR` (R554). -/
def execCfgWr (p : Nat) (k : Packet) (s : State) : Host.Outcome State Fault Refusal :=
  let k := asType k 4 4
  onUnit (isPort p) p (s.receive p k (fun s => s.cfgWrPacket p k))

/-! ### Access through the TAP (R516) -/

/-- One access through the TAP; what it returns waits in the capture register. -/
def State.tapAccess (s : State) (v : Word) (off : Nat) (wr : Bool) : State :=
  let r : State × Bool × Word :=
    if wr then ((s.cfgWrite .tap off v).1, (s.cfgWrite .tap off v).2, 0)
    else match s.cfgRead off with
      | none => (s, false, 0)
      | some x => (s.cfgReadEffect off, true, x)
  let d := r.2.2.toNat + off * 2 ^ 32 + bit1 (!r.2.1) * 2 ^ 48 + 2 ^ 49
  (r.1.tapTake 0x10 0 d).onTst (fun t => { t with cfgData := r.2.2, cfgRefused := !r.2.1, cfgDone := true })

/-- `CFG_ACCESS` (R516). -/
def execCfgAccess (v : Word) (off : Nat) (wr : Bool) (s : State) : Host.Outcome State Fault Refusal :=
  .next (s.tapAccess v (off % 2 ^ 16) wr)

end Sys2Proof.Machine
end

