-- ==== Sys2Proof/Machine/Dispatch.lean ====
section
/-!
DEFINITION. The dispatch of a command to its meaning: one arm for each constructor of `Instr`.
-/

namespace Sys2Proof.Machine

open Sys2Proof

/-- The effect of a command on everything but the queue of waiting commands. -/
def exec (i : Instr) (s : State) : Host.Outcome State Fault Refusal :=
  match i with
  | .add t rd ra rb => Sys2Proof.Machine.execAdd t rd ra rb s
  | .sub t rd ra rb => Sys2Proof.Machine.execSub t rd ra rb s
  | .and t rd ra rb => Sys2Proof.Machine.execAnd t rd ra rb s
  | .or t rd ra rb => Sys2Proof.Machine.execOr t rd ra rb s
  | .xor t rd ra rb => Sys2Proof.Machine.execXor t rd ra rb s
  | .sll t rd ra rb => Sys2Proof.Machine.execSll t rd ra rb s
  | .srl t rd ra rb => Sys2Proof.Machine.execSrl t rd ra rb s
  | .sra t rd ra rb => Sys2Proof.Machine.execSra t rd ra rb s
  | .slt t rd ra rb => Sys2Proof.Machine.execSlt t rd ra rb s
  | .sltu t rd ra rb => Sys2Proof.Machine.execSltu t rd ra rb s
  | .mul t rd ra rb => Sys2Proof.Machine.execMul t rd ra rb s
  | .mulhu t rd ra rb => Sys2Proof.Machine.execMulhu t rd ra rb s
  | .min t rd ra rb => Sys2Proof.Machine.execMin t rd ra rb s
  | .max t rd ra rb => Sys2Proof.Machine.execMax t rd ra rb s
  | .minu t rd ra rb => Sys2Proof.Machine.execMinu t rd ra rb s
  | .maxu t rd ra rb => Sys2Proof.Machine.execMaxu t rd ra rb s
  | .addi t rd ra imm => Sys2Proof.Machine.execAddi t rd ra imm s
  | .andi t rd ra imm => Sys2Proof.Machine.execAndi t rd ra imm s
  | .ori t rd ra imm => Sys2Proof.Machine.execOri t rd ra imm s
  | .lui t rd ra imm => Sys2Proof.Machine.execLui t rd ra imm s
  | .memLoad t rd ra off size sx => Sys2Proof.Machine.execMemLoad t rd ra off size sx s
  | .memStore t rs ra off size => Sys2Proof.Machine.execMemStore t rs ra off size s
  | .beq t ra rb off => Sys2Proof.Machine.execBeq t ra rb off s
  | .bne t ra rb off => Sys2Proof.Machine.execBne t ra rb off s
  | .blt t ra rb off => Sys2Proof.Machine.execBlt t ra rb off s
  | .bge t ra rb off => Sys2Proof.Machine.execBge t ra rb off s
  | .bltu t ra rb off => Sys2Proof.Machine.execBltu t ra rb off s
  | .bgeu t ra rb off => Sys2Proof.Machine.execBgeu t ra rb off s
  | .jal t rd off => Sys2Proof.Machine.execJal t rd off s
  | .jalr t rd ra => Sys2Proof.Machine.execJalr t rd ra s
  | .csrRead t rd num => Sys2Proof.Machine.execCsrRead t rd num s
  | .csrWrite t rd ra num => Sys2Proof.Machine.execCsrWrite t rd ra num s
  | .csrSet t rd ra num => Sys2Proof.Machine.execCsrSet t rd ra num s
  | .csrClear t rd ra num => Sys2Proof.Machine.execCsrClear t rd ra num s
  | .fence t mask => Sys2Proof.Machine.execFence t mask s
  | .twait t tok => Sys2Proof.Machine.execTwait t tok s
  | .tpost t tok => Sys2Proof.Machine.execTpost t tok s
  | .tset t tok val => Sys2Proof.Machine.execTset t tok val s
  | .nop t => Sys2Proof.Machine.execNop t s
  | .endProg t => Sys2Proof.Machine.execEnd t s
  | .trap t code => Sys2Proof.Machine.execTrap t code s
  | .brk t => Sys2Proof.Machine.execBrk t s
  | .issueStallResume t => Sys2Proof.Machine.execIssueStallResume t s
  | .tokenWaitStart t eng => Sys2Proof.Machine.execTokenWaitStart t eng s
  | .commandComplete t eng idx => Sys2Proof.Machine.execCommandComplete t eng idx s
  | .programStart t => Sys2Proof.Machine.execProgramStart t s
  | .wdog t => Sys2Proof.Machine.execWdog t s
  | .yield t job => Sys2Proof.Machine.execYield t job s
  | .yieldGraceExpiry t => Sys2Proof.Machine.execYieldGraceExpiry t s
  | .contextSave t => Sys2Proof.Machine.execContextSave t s
  | .pass t ma a => Sys2Proof.Machine.execPass t ma a s
  | .accClear t ma a => Sys2Proof.Machine.execAccClear t ma a s
  | .cntStore t ma a => Sys2Proof.Machine.execCntStore t ma a s
  | .scale t ma a => Sys2Proof.Machine.execScale t ma a s
  | .bellCfg t ma a => Sys2Proof.Machine.execBellCfg t ma a s
  | .bellStore t ma a => Sys2Proof.Machine.execBellStore t ma a s
  | .statLoadRow t ma => Sys2Proof.Machine.execStatLoadRow t ma s
  | .streamRowEnter t ma => Sys2Proof.Machine.execStreamRowEnter t ma s
  | .loadChannelTake t ma => Sys2Proof.Machine.execLoadChannelTake t ma s
  | .passComplete t ma => Sys2Proof.Machine.execPassComplete t ma s
  | .bellVectorLoad t eng => Sys2Proof.Machine.execBellVectorLoad t eng s
  | .bellRowRead t eng => Sys2Proof.Machine.execBellRowRead t eng s
  | .bellStoreComplete t eng => Sys2Proof.Machine.execBellStoreComplete t eng s
  | .vsetvl t v => Sys2Proof.Machine.execVsetvl t v s
  | .vbcfg t v => Sys2Proof.Machine.execVbcfg t v s
  | .vcnt t v => Sys2Proof.Machine.execVcnt t v s
  | .vwait t v => Sys2Proof.Machine.execVwait t v s
  | .vpost t v => Sys2Proof.Machine.execVpost t v s
  | .vld t v => Sys2Proof.Machine.execVld t v s
  | .vacc t v => Sys2Proof.Machine.execVacc t v s
  | .vacct t v => Sys2Proof.Machine.execVacct t v s
  | .vtr t v => Sys2Proof.Machine.execVtr t v s
  | .vtw t v => Sys2Proof.Machine.execVtw t v s
  | .vmov t v => Sys2Proof.Machine.execVmov t v s
  | .vbcast t v => Sys2Proof.Machine.execVbcast t v s
  | .viota t v => Sys2Proof.Machine.execViota t v s
  | .vadd t v => Sys2Proof.Machine.execVadd t v s
  | .vsub t v => Sys2Proof.Machine.execVsub t v s
  | .vmul t v => Sys2Proof.Machine.execVmul t v s
  | .vfma t v => Sys2Proof.Machine.execVfma t v s
  | .vmax t v => Sys2Proof.Machine.execVmax t v s
  | .vmin t v => Sys2Proof.Machine.execVmin t v s
  | .vabs t v => Sys2Proof.Machine.execVabs t v s
  | .vneg t v => Sys2Proof.Machine.execVneg t v s
  | .vcmp t v => Sys2Proof.Machine.execVcmp t v s
  | .vsel t v => Sys2Proof.Machine.execVsel t v s
  | .vrsum t v => Sys2Proof.Machine.execVrsum t v s
  | .vrmax t v => Sys2Proof.Machine.execVrmax t v s
  | .vrmin t v => Sys2Proof.Machine.execVrmin t v s
  | .vramax t v => Sys2Proof.Machine.execVramax t v s
  | .vexp2 t v => Sys2Proof.Machine.execVexp2 t v s
  | .vlog2 t v => Sys2Proof.Machine.execVlog2 t v s
  | .vrcp t v => Sys2Proof.Machine.execVrcp t v s
  | .vrsqrt t v => Sys2Proof.Machine.execVrsqrt t v s
  | .vtanh t v => Sys2Proof.Machine.execVtanh t v s
  | .vperm t v => Sys2Proof.Machine.execVperm t v s
  | .vstv t v => Sys2Proof.Machine.execVstv t v s
  | .vstt t v => Sys2Proof.Machine.execVstt t v s
  | .rowFwd t a => Sys2Proof.Machine.execRowFwd t a s
  | .rowBwd t a => Sys2Proof.Machine.execRowBwd t a s
  | .rSpill t a => Sys2Proof.Machine.execRSpill t a s
  | .rFill t a => Sys2Proof.Machine.execRFill t a s
  | .rInval t a => Sys2Proof.Machine.execRInval t a s
  | .rbellCfg t a => Sys2Proof.Machine.execRbellCfg t a s
  | .rCnt t a => Sys2Proof.Machine.execRCnt t a s
  | .dmMove t a => Sys2Proof.Machine.execDmMove t a s
  | .dmGather t a => Sys2Proof.Machine.execDmGather t a s
  | .dmTfill t a => Sys2Proof.Machine.execDmTfill t a s
  | .dmTread t a => Sys2Proof.Machine.execDmTread t a s
  | .dmDmem t a => Sys2Proof.Machine.execDmDmem t a s
  | .dmSwrite t a => Sys2Proof.Machine.execDmSwrite t a s
  | .dmSread t a => Sys2Proof.Machine.execDmSread t a s
  | .creditReq t a => Sys2Proof.Machine.execCreditReq t a s
  | .creditDrop t a => Sys2Proof.Machine.execCreditDrop t a s
  | .rxOpen t a => Sys2Proof.Machine.execRxOpen t a s
  | .rxClose t a => Sys2Proof.Machine.execRxClose t a s
  | .slotRelease t a => Sys2Proof.Machine.execSlotRelease t a s
  | .markFull t a => Sys2Proof.Machine.execMarkFull t a s
  | .setRaw t a => Sys2Proof.Machine.execSetRaw t a s
  | .rawEmpty t a => Sys2Proof.Machine.execRawEmpty t a s
  | .rawFull t a => Sys2Proof.Machine.execRawFull t a s
  | .dmCnt t a => Sys2Proof.Machine.execDmCnt t a s
  | .tagWaitGrant t eng idx => Sys2Proof.Machine.execTagWaitGrant t eng idx s
  | .dmaTransferComplete t idx => Sys2Proof.Machine.execDmaTransferComplete t idx s
  | .creditAllocGrant t window => Sys2Proof.Machine.execCreditAllocGrant t window s
  | .creditWaitTimeout t window => Sys2Proof.Machine.execCreditWaitTimeout t window s
  | .coreMapMovingResolve core => Sys2Proof.Machine.execCoreMapMovingResolve core s
  | .muteScrubDone t ok => Sys2Proof.Machine.execMuteScrubDone t ok s
  | .syInit t a => Sys2Proof.Machine.execSyInit t a s
  | .sySignalAdd t a => Sys2Proof.Machine.execSySignalAdd t a s
  | .sySignalClear t a => Sys2Proof.Machine.execSySignalClear t a s
  | .sySignalLoad t a => Sys2Proof.Machine.execSySignalLoad t a s
  | .syWait t a => Sys2Proof.Machine.execSyWait t a s
  | .syArrive t a => Sys2Proof.Machine.execSyArrive t a s
  | .syFree t a => Sys2Proof.Machine.execSyFree t a s
  | .syRead t a => Sys2Proof.Machine.execSyRead t a s
  | .syWaitTimeout t => Sys2Proof.Machine.execSyWaitTimeout t s
  | .syncDbgRead => Sys2Proof.Machine.execSyncDbgRead s
  | .syncDbgWrite => Sys2Proof.Machine.execSyncDbgWrite s
  | .syncDbgRelease => Sys2Proof.Machine.execSyncDbgRelease s
  | .syncDbgClose => Sys2Proof.Machine.execSyncDbgClose s
  | .syncDbgFree => Sys2Proof.Machine.execSyncDbgFree s
  | .qmCtrlWrite v => Sys2Proof.Machine.execQmCtrlWrite v s
  | .eventDoorbell p k => Sys2Proof.Machine.execEventDoorbell p k s
  | .descFetch stream grp => Sys2Proof.Machine.execDescFetch stream grp s
  | .descDispatch => Sys2Proof.Machine.execDescDispatch s
  | .compute d => Sys2Proof.Machine.execCompute d s
  | .copy d => Sys2Proof.Machine.execCopy d s
  | .syncDescSignal d => Sys2Proof.Machine.execSyncDescSignal d s
  | .syncDescWait d => Sys2Proof.Machine.execSyncDescWait d s
  | .syncDescArrive d => Sys2Proof.Machine.execSyncDescArrive d s
  | .fenceDesc d => Sys2Proof.Machine.execFenceDesc d s
  | .near d => Sys2Proof.Machine.execNear d s
  | .nearCore d => Sys2Proof.Machine.execNearCore d s
  | .spreadOver d => Sys2Proof.Machine.execSpreadOver d s
  | .freeze d => Sys2Proof.Machine.execFreeze d s
  | .thaw d => Sys2Proof.Machine.execThaw d s
  | .activate d entry => Sys2Proof.Machine.execActivate d entry s
  | .release d => Sys2Proof.Machine.execRelease d s
  | .reedSpill d => Sys2Proof.Machine.execReedSpill d s
  | .reedFill d => Sys2Proof.Machine.execReedFill d s
  | .killJob d => Sys2Proof.Machine.execKillJob d s
  | .resetStream d => Sys2Proof.Machine.execResetStream d s
  | .nopDesc d => Sys2Proof.Machine.execNopDesc d s
  | .jobKillDone job => Sys2Proof.Machine.execJobKillDone job s
  | .descComplete d => Sys2Proof.Machine.execDescComplete d s
  | .descResume d ok => Sys2Proof.Machine.execDescResume d ok s
  | .streamTimeout d => Sys2Proof.Machine.execStreamTimeout d s
  | .streamWriteback stream => Sys2Proof.Machine.execStreamWriteback stream s
  | .notifyWrite => Sys2Proof.Machine.execNotifyWrite s
  | .stashAlloc t idx => Sys2Proof.Machine.execStashAlloc t idx s
  | .stashPresent t idx => Sys2Proof.Machine.execStashPresent t idx s
  | .epochBoundary reports => Sys2Proof.Machine.execEpochBoundary reports s
  | .migrationCopyDone prog => Sys2Proof.Machine.execMigrationCopyDone prog s
  | .migrationSwitchDone prog => Sys2Proof.Machine.execMigrationSwitchDone prog s
  | .objFreed prog => Sys2Proof.Machine.execObjFreed prog s
  | .translationMiss addr => Sys2Proof.Machine.execTranslationMiss addr s
  | .spareAdmitted sp ok => Sys2Proof.Machine.execSpareAdmitted sp ok s
  | .absentAdmission => Sys2Proof.Machine.execAbsentAdmission s
  | .portTrainRetry p ok => Sys2Proof.Machine.execPortTrainRetry p ok s
  | .portTrainingDone p pass rates => Sys2Proof.Machine.execPortTrainingDone p pass rates s
  | .caps p k => Sys2Proof.Machine.execCaps p k s
  | .keyCert p k ok => Sys2Proof.Machine.execKeyCert p k ok s
  | .keyOffer p k ok => Sys2Proof.Machine.execKeyOffer p k ok s
  | .keySwitch p k => Sys2Proof.Machine.execKeySwitch p k s
  | .kexTimeout p => Sys2Proof.Machine.execKexTimeout p s
  | .rekeyStart p => Sys2Proof.Machine.execRekeyStart p s
  | .portEn p en => Sys2Proof.Machine.execPortEn p en s
  | .portRetrain p => Sys2Proof.Machine.execPortRetrain p s
  | .errLimitRetrain p => Sys2Proof.Machine.execErrLimitRetrain p s
  | .retrainTimeout p => Sys2Proof.Machine.execRetrainTimeout p s
  | .portIsolate p => Sys2Proof.Machine.execPortIsolate p s
  | .keepaliveSend p => Sys2Proof.Machine.execKeepaliveSend p s
  | .linkLoss p cause => Sys2Proof.Machine.execLinkLoss p cause s
  | .l1Entry p => Sys2Proof.Machine.execL1Entry p s
  | .l1Exit p => Sys2Proof.Machine.execL1Exit p s
  | .reqTagExpiry tag => Sys2Proof.Machine.execReqTagExpiry tag s
  | .baseDieTimeout p t uid => Sys2Proof.Machine.execBaseDieTimeout p t uid s
  | .rd p k => Sys2Proof.Machine.execRd p k s
  | .spRd p k => Sys2Proof.Machine.execSpRd p k s
  | .credReq p k => Sys2Proof.Machine.execCredReq p k s
  | .xlate p k => Sys2Proof.Machine.execXlate p k s
  | .wr p k => Sys2Proof.Machine.execWr p k s
  | .spWr p k decl => Sys2Proof.Machine.execSpWr p k decl s
  | .doorbell p k => Sys2Proof.Machine.execDoorbell p k s
  | .atomic p k => Sys2Proof.Machine.execAtomic p k s
  | .rdData p k => Sys2Proof.Machine.execRdData p k s
  | .rdErr p k => Sys2Proof.Machine.execRdErr p k s
  | .wrAck p k => Sys2Proof.Machine.execWrAck p k s
  | .credGrant p k => Sys2Proof.Machine.execCredGrant p k s
  | .credRefuse p k => Sys2Proof.Machine.execCredRefuse p k s
  | .xlateRsp p k => Sys2Proof.Machine.execXlateRsp p k s
  | .inv p k => Sys2Proof.Machine.execInv p k s
  | .invBatch p k => Sys2Proof.Machine.execInvBatch p k s
  | .invAck p k => Sys2Proof.Machine.execInvAck p k s
  | .syResult p k idx => Sys2Proof.Machine.execSyResult p k idx s
  | .cfgRsp p k => Sys2Proof.Machine.execCfgRsp p k s
  | .syOp p k r => Sys2Proof.Machine.execSyOp p k r s
  | .barReport p k obj round => Sys2Proof.Machine.execBarReport p k obj round s
  | .barRelease p k obj round => Sys2Proof.Machine.execBarRelease p k obj round s
  | .creditRet p k => Sys2Proof.Machine.execCreditRet p k s
  | .keepalive p k => Sys2Proof.Machine.execKeepalive p k s
  | .cfgRd p k => Sys2Proof.Machine.execCfgRd p k s
  | .cfgWr p k => Sys2Proof.Machine.execCfgWr p k s
  | .budgetReport p k => Sys2Proof.Machine.execBudgetReport p k s
  | .budgetGrant p k => Sys2Proof.Machine.execBudgetGrant p k s
  | .resetReq p k => Sys2Proof.Machine.execResetReq p k s
  | .join p k => Sys2Proof.Machine.execJoin p k s
  | .accept p k => Sys2Proof.Machine.execAccept p k s
  | .refuse p k => Sys2Proof.Machine.execRefuse p k s
  | .lost p k => Sys2Proof.Machine.execLost p k s
  | .clockFault p k => Sys2Proof.Machine.execClockFault p k s
  | .pkgFormTimeout => Sys2Proof.Machine.execPkgFormTimeout s
  | .refLoss => Sys2Proof.Machine.execRefLoss s
  | .refReturn => Sys2Proof.Machine.execRefReturn s
  | .holdoverExpiry => Sys2Proof.Machine.execHoldoverExpiry s
  | .porSupply => Sys2Proof.Machine.execPorSupply s
  | .porstN ns taken => Sys2Proof.Machine.execPorstN ns taken s
  | .sysrstN ns taken => Sys2Proof.Machine.execSysrstN ns taken s
  | .sysWdogExpiry => Sys2Proof.Machine.execSysWdogExpiry s
  | .sysWdogKick => Sys2Proof.Machine.execSysWdogKick s
  | .resetCtrlSrst => Sys2Proof.Machine.execResetCtrlSrst s
  | .pkgSrst => Sys2Proof.Machine.execPkgSrst s
  | .deferredReset => Sys2Proof.Machine.execDeferredReset s
  | .coreResetMask w v => Sys2Proof.Machine.execCoreResetMask w v s
  | .crstDone t pass => Sys2Proof.Machine.execCrstDone t pass s
  | .bootStart fuseOk mOk => Sys2Proof.Machine.execBootStart fuseOk mOk s
  | .pllLock => Sys2Proof.Machine.execPllLock s
  | .onjanSelftestDone ok => Sys2Proof.Machine.execOnjanSelftestDone ok s
  | .fwVerified key hashOk => Sys2Proof.Machine.execFwVerified key hashOk s
  | .keyworkInit entries pass => Sys2Proof.Machine.execKeyworkInit entries pass s
  | .bootReady => Sys2Proof.Machine.execBootReady s
  | .fwLoad => Sys2Proof.Machine.execFwLoad s
  | .fwData v => Sys2Proof.Machine.execFwData v s
  | .fwSwitch => Sys2Proof.Machine.execFwSwitch s
  | .fwAbort => Sys2Proof.Machine.execFwAbort s
  | .fwQuiesce => Sys2Proof.Machine.execFwQuiesce s
  | .fwQuiesceTimeout => Sys2Proof.Machine.execFwQuiesceTimeout s
  | .optData v => Sys2Proof.Machine.execOptData v s
  | .optCommit => Sys2Proof.Machine.execOptCommit s
  | .optRevert => Sys2Proof.Machine.execOptRevert s
  | .optCommitDone ok failOff => Sys2Proof.Machine.execOptCommitDone ok failOff s
  | .coreFault t src => Sys2Proof.Machine.execCoreFault t src s
  | .correctedError t => Sys2Proof.Machine.execCorrectedError t s
  | .cePredictiveFence t => Sys2Proof.Machine.execCePredictiveFence t s
  | .uncoreFault b => Sys2Proof.Machine.execUncoreFault b s
  | .fenceMask w v => Sys2Proof.Machine.execFenceMask w v s
  | .fenceRelease w v => Sys2Proof.Machine.execFenceRelease w v s
  | .descReplay d => Sys2Proof.Machine.execDescReplay d s
  | .commitPoint d => Sys2Proof.Machine.execCommitPoint d s
  | .commitApplyDone d => Sys2Proof.Machine.execCommitApplyDone d s
  | .tsyncEmit since => Sys2Proof.Machine.execTsyncEmit since s
  | .tsyncFrame k since => Sys2Proof.Machine.execTsyncFrame k since s
  | .tsNosync => Sys2Proof.Machine.execTsNosync s
  | .currentWindowEnd amps dw tjq tile => Sys2Proof.Machine.execCurrentWindowEnd amps dw tjq tile s
  | .powerWindowEnd => Sys2Proof.Machine.execPowerWindowEnd s
  | .thermalWindowEnd => Sys2Proof.Machine.execThermalWindowEnd s
  | .budgetRoundStart => Sys2Proof.Machine.execBudgetRoundStart s
  | .budgetGrantDeadline => Sys2Proof.Machine.execBudgetGrantDeadline s
  | .thermalTrip => Sys2Proof.Machine.execThermalTrip s
  | .tsLoRead => Sys2Proof.Machine.execTsLoRead s
  | .attest => Sys2Proof.Machine.execAttest s
  | .attestDone => Sys2Proof.Machine.execAttestDone s
  | .secRptDataRead => Sys2Proof.Machine.execSecRptDataRead s
  | .challenge => Sys2Proof.Machine.execChallenge s
  | .secTokenDataWrite v => Sys2Proof.Machine.execSecTokenDataWrite v s
  | .tokenSubmit => Sys2Proof.Machine.execTokenSubmit s
  | .dbgLock => Sys2Proof.Machine.execDbgLock s
  | .svnCommit => Sys2Proof.Machine.execSvnCommit s
  | .fk0Revoke => Sys2Proof.Machine.execFk0Revoke s
  | .secMemencWrite v => Sys2Proof.Machine.execSecMemencWrite v s
  | .secRetainRelease job => Sys2Proof.Machine.execSecRetainRelease job s
  | .secRngRead => Sys2Proof.Machine.execSecRngRead s
  | .rngTestFail test => Sys2Proof.Machine.execRngTestFail test s
  | .tapReset => Sys2Proof.Machine.execTapReset s
  | .extest cells => Sys2Proof.Machine.execExtest cells s
  | .idcode => Sys2Proof.Machine.execIdcode s
  | .samplePreload cells => Sys2Proof.Machine.execSamplePreload cells s
  | .clamp => Sys2Proof.Machine.execClamp s
  | .highz => Sys2Proof.Machine.execHighz s
  | .wirSel v => Sys2Proof.Machine.execWirSel v s
  | .cfgAccess v off wr => Sys2Proof.Machine.execCfgAccess v off wr s
  | .fuseProg w bits vpp => Sys2Proof.Machine.execFuseProg w bits vpp s
  | .fuseVerify w => Sys2Proof.Machine.execFuseVerify w s
  | .scan => Sys2Proof.Machine.execScan s
  | .bypass => Sys2Proof.Machine.execBypass s
  | .bistRun t kind => Sys2Proof.Machine.execBistRun t kind s
  | .bistDone pass store => Sys2Proof.Machine.execBistDone pass store s
  | .portTestRun p mode lane ok => Sys2Proof.Machine.execPortTestRun p mode lane ok s
  | .portTestDone errors tm vm => Sys2Proof.Machine.execPortTestDone errors tm vm s
  | .dbgHalt t => Sys2Proof.Machine.execDbgHalt t s
  | .dbgStep t => Sys2Proof.Machine.execDbgStep t s
  | .dbgResume t => Sys2Proof.Machine.execDbgResume t s
  | .dbgDataAccess wr v => Sys2Proof.Machine.execDbgDataAccess wr v s
  | .traceClear => Sys2Proof.Machine.execTraceClear s
  | .traceDataRead => Sys2Proof.Machine.execTraceDataRead s
  | .telemCtrlWrite v => Sys2Proof.Machine.execTelemCtrlWrite v s
  | .telemWindowEnd => Sys2Proof.Machine.execTelemWindowEnd s
  | .cfgRegWrite off v => Sys2Proof.Machine.execCfgRegWrite off v s
  | .illegalWord t word => Sys2Proof.Machine.execIllegalWord t word s
  | .tokenVerifyDone sigOk => Sys2Proof.Machine.execTokenVerifyDone sigOk s
  | .sidebandRetrain p => Sys2Proof.Machine.execSidebandRetrain p s
  | .flitReplay p => Sys2Proof.Machine.execFlitReplay p s
  | .linkLevelAck p n => Sys2Proof.Machine.execLinkLevelAck p n s
  | .creditReturnSend p => Sys2Proof.Machine.execCreditReturnSend p s

end Sys2Proof.Machine
end

