-- ==== Sys2Proof/Machine/Tick.lean ====
section
/-!
DEFINITION. One nanosecond that passes while no command waits (log 10): the timestamp advances, core cycles are counted,
held packets are looked at again, and Onjan evaluates its requirements (R58, R371, R476, R478, R510).
-/

namespace Sys2Proof.Machine

open Sys2Proof

/-- The timestamp after one nanosecond: while it is slewed it advances by 1 every 2 ns (R476, R478). -/
def Time.next (t : Time) : Time :=
  if t.slew = 0 then { t with ts := t.ts + 1 }
  else { t with slew := t.slew - 1, ts := t.ts + (if t.slew % 2 = 1 then 1 else 0) }

/-- Core cycles of one nanosecond at a step of the core clock, (16 + step) ÷ 20 of a cycle (R58, R489; log 5). The stall
watchdog counts the nanoseconds in which a running sequencer retires nothing, but for those of a throttle hold and those
in which the debugger holds it (R60, R487, R524). -/
def Seq.next (z : Seq) (step : Nat) (held : Bool) : Seq :=
  { z with
    cycles := z.cycles + (z.phaseAcc + 16 + step) / 20, phaseAcc := (z.phaseAcc + 16 + step) % 20
    stallNs := if z.phase == .running && !z.halted && !held then z.stallNs + 1 else z.stallNs }

/-- A tile after one nanosecond. While a core told to yield drains its queues its cycles count as cycles of a running
program (DESIGN CHOICE: R64 saves the counter and says nothing of that time; log 49). -/
def Tile.next (q : Tile) (step : Nat) (held : Bool) : Tile := if q.live then { q with seq := q.seq.next step held } else q

/-- The glide of the core clock after one nanosecond (R486). -/
def Bw.next (b : Bw) : Bw := { b with glide := b.glide - (16 + b.freqStep) }

/-- Whether this nanosecond is one of a throttle hold (R486, R487): the cores do not run, or rung 2 takes the odd one of
every two. -/
def State.holding (s : State) : Bool := !s.coresRun || (s.bw.stretch && s.now % 2 == 1)

/-- The die after one nanosecond without a command. In reset, and until the PLLs have locked after POR, the counter stays at
0 (R443, R476, R478). -/
def State.idle (s : State) : State :=
  let s := s.pulse
  if s.mgmt.stage ≤ 4 then s
  else
    let s : State := { s with time := s.time.next }
    if !s.clocked then s
    else
      let s : State := { s with bw := s.bw.next, tiles := s.tiles.map (fun e => (e.1, e.2.next s.bw.freqStep s.holding)) }
      s.serveHeld.evaluateConfig

end Sys2Proof.Machine
end

