-- ==== Sys2Proof/WellFormed.lean ====
section
/-!
DEFINITION. Well-formed commands: the units that a command names are units the die has (R12, R14), and its fields fit their
widths (R396 for packets).
-/

namespace Sys2Proof

/-- A physical tile ID names a tile (R12). -/
def tileOk (t : Nat) : Bool := decide (t < 72)

/-- A port number names a port (R14). -/
def portOk (p : Nat) : Bool := decide (p < 48)

/-- Every header field of a packet fits its width, and no more data follows than its length says (R396). -/
def packetFits (k : Packet) : Bool :=
  decide (k.cls < 8) && decide (k.ptype < 32) && decide (k.len ≤ 1024) && decide (k.srcDie < 8) && decide (k.dstDie < 8)
  && decide (k.srcStop < 256) && decide (k.tag < 65536) && decide (k.addr < 2 ^ 52) && decide (k.job < 4096)
  && decide (k.aux < 65536) && decide (k.data.length ≤ 1024)

/-- Whether a command is well formed. -/
def wellFormed : Instr → Bool
  | .add t _ _ _ => tileOk t
  | .sub t _ _ _ => tileOk t
  | .and t _ _ _ => tileOk t
  | .or t _ _ _ => tileOk t
  | .xor t _ _ _ => tileOk t
  | .sll t _ _ _ => tileOk t
  | .srl t _ _ _ => tileOk t
  | .sra t _ _ _ => tileOk t
  | .slt t _ _ _ => tileOk t
  | .sltu t _ _ _ => tileOk t
  | .mul t _ _ _ => tileOk t
  | .mulhu t _ _ _ => tileOk t
  | .min t _ _ _ => tileOk t
  | .max t _ _ _ => tileOk t
  | .minu t _ _ _ => tileOk t
  | .maxu t _ _ _ => tileOk t
  | .addi t _ _ _ => tileOk t
  | .andi t _ _ _ => tileOk t
  | .ori t _ _ _ => tileOk t
  | .lui t _ _ _ => tileOk t
  | .memLoad t _ _ _ _ _ => tileOk t
  | .memStore t _ _ _ _ => tileOk t
  | .beq t _ _ _ => tileOk t
  | .bne t _ _ _ => tileOk t
  | .blt t _ _ _ => tileOk t
  | .bge t _ _ _ => tileOk t
  | .bltu t _ _ _ => tileOk t
  | .bgeu t _ _ _ => tileOk t
  | .jal t _ _ => tileOk t
  | .jalr t _ _ => tileOk t
  | .csrRead t _ _ => tileOk t
  | .csrWrite t _ _ _ => tileOk t
  | .csrSet t _ _ _ => tileOk t
  | .csrClear t _ _ _ => tileOk t
  | .fence t _ => tileOk t
  | .twait t _ => tileOk t
  | .tpost t _ => tileOk t
  | .tset t _ _ => tileOk t
  | .nop t => tileOk t
  | .endProg t => tileOk t
  | .trap t _ => tileOk t
  | .brk t => tileOk t
  | .issueStallResume t => tileOk t
  | .tokenWaitStart t eng => tileOk t && decide (eng < 6)
  | .commandComplete t eng _ => tileOk t && decide (eng < 6)
  | .programStart t => tileOk t
  | .wdog t => tileOk t
  | .yield t job => tileOk t && decide (job < 4096)
  | .yieldGraceExpiry t => tileOk t
  | .contextSave t => tileOk t
  | .pass t _ _ => tileOk t
  | .accClear t _ _ => tileOk t
  | .cntStore t _ _ => tileOk t
  | .scale t _ _ => tileOk t
  | .bellCfg t _ _ => tileOk t
  | .bellStore t _ _ => tileOk t
  | .statLoadRow t _ => tileOk t
  | .streamRowEnter t _ => tileOk t
  | .loadChannelTake t _ => tileOk t
  | .passComplete t _ => tileOk t
  | .bellVectorLoad t eng => tileOk t && decide (eng < 4)
  | .bellRowRead t eng => tileOk t && decide (eng < 4)
  | .bellStoreComplete t eng => tileOk t && decide (eng < 4)
  | .vsetvl t _ => tileOk t
  | .vbcfg t _ => tileOk t
  | .vcnt t _ => tileOk t
  | .vwait t _ => tileOk t
  | .vpost t _ => tileOk t
  | .vld t _ => tileOk t
  | .vacc t _ => tileOk t
  | .vacct t _ => tileOk t
  | .vtr t _ => tileOk t
  | .vtw t _ => tileOk t
  | .vmov t _ => tileOk t
  | .vbcast t _ => tileOk t
  | .viota t _ => tileOk t
  | .vadd t _ => tileOk t
  | .vsub t _ => tileOk t
  | .vmul t _ => tileOk t
  | .vfma t _ => tileOk t
  | .vmax t _ => tileOk t
  | .vmin t _ => tileOk t
  | .vabs t _ => tileOk t
  | .vneg t _ => tileOk t
  | .vcmp t _ => tileOk t
  | .vsel t _ => tileOk t
  | .vrsum t _ => tileOk t
  | .vrmax t _ => tileOk t
  | .vrmin t _ => tileOk t
  | .vramax t _ => tileOk t
  | .vexp2 t _ => tileOk t
  | .vlog2 t _ => tileOk t
  | .vrcp t _ => tileOk t
  | .vrsqrt t _ => tileOk t
  | .vtanh t _ => tileOk t
  | .vperm t _ => tileOk t
  | .vstv t _ => tileOk t
  | .vstt t _ => tileOk t
  | .rowFwd t _ => tileOk t
  | .rowBwd t _ => tileOk t
  | .rSpill t _ => tileOk t
  | .rFill t _ => tileOk t
  | .rInval t _ => tileOk t
  | .rbellCfg t _ => tileOk t
  | .rCnt t _ => tileOk t
  | .dmMove t _ => tileOk t
  | .dmGather t _ => tileOk t
  | .dmTfill t _ => tileOk t
  | .dmTread t _ => tileOk t
  | .dmDmem t _ => tileOk t
  | .dmSwrite t _ => tileOk t
  | .dmSread t _ => tileOk t
  | .creditReq t _ => tileOk t
  | .creditDrop t _ => tileOk t
  | .rxOpen t _ => tileOk t
  | .rxClose t _ => tileOk t
  | .slotRelease t _ => tileOk t
  | .markFull t _ => tileOk t
  | .setRaw t _ => tileOk t
  | .rawEmpty t _ => tileOk t
  | .rawFull t _ => tileOk t
  | .dmCnt t _ => tileOk t
  | .tagWaitGrant t eng _ => tileOk t && decide (eng < 6)
  | .dmaTransferComplete t _ => tileOk t
  | .creditAllocGrant t window => tileOk t && decide (window < 16)
  | .creditWaitTimeout t window => tileOk t && decide (window < 16)
  | .coreMapMovingResolve core => decide (core < 64)
  | .muteScrubDone t _ => tileOk t
  | .syInit t _ => tileOk t
  | .sySignalAdd t _ => tileOk t
  | .sySignalClear t _ => tileOk t
  | .sySignalLoad t _ => tileOk t
  | .syWait t _ => tileOk t
  | .syArrive t _ => tileOk t
  | .syFree t _ => tileOk t
  | .syRead t _ => tileOk t
  | .syWaitTimeout t => tileOk t
  | .syncDbgRead => true
  | .syncDbgWrite => true
  | .syncDbgRelease => true
  | .syncDbgClose => true
  | .syncDbgFree => true
  | .qmCtrlWrite _ => true
  | .eventDoorbell p k => portOk p && packetFits k
  | .descFetch stream _ => decide (stream < 16384)
  | .descDispatch => true
  | .compute _ => true
  | .copy _ => true
  | .syncDescSignal _ => true
  | .syncDescWait _ => true
  | .syncDescArrive _ => true
  | .fenceDesc _ => true
  | .near _ => true
  | .nearCore _ => true
  | .spreadOver _ => true
  | .freeze _ => true
  | .thaw _ => true
  | .activate _ _ => true
  | .release _ => true
  | .reedSpill _ => true
  | .reedFill _ => true
  | .killJob _ => true
  | .resetStream _ => true
  | .nopDesc _ => true
  | .jobKillDone job => decide (job < 4096)
  | .descComplete _ => true
  | .descResume _ _ => true
  | .streamTimeout _ => true
  | .streamWriteback stream => decide (stream < 16384)
  | .notifyWrite => true
  | .stashAlloc t _ => tileOk t
  | .stashPresent t _ => tileOk t
  | .epochBoundary _ => true
  | .migrationCopyDone i => decide (i < 2 ^ 20)
  | .migrationSwitchDone i => decide (i < 2 ^ 20)
  | .objFreed i => decide (i < 2 ^ 20)
  | .translationMiss addr => decide (addr < 2 ^ 52)
  | .spareAdmitted sp _ => tileOk sp
  | .absentAdmission => true
  | .portTrainRetry p _ => portOk p
  | .portTrainingDone p pass rates => portOk p && decide (pass < 2 ^ 68) && decide (rates < 8)
  | .caps p k => portOk p && packetFits k
  | .keyCert p k _ => portOk p && packetFits k
  | .keyOffer p k _ => portOk p && packetFits k
  | .keySwitch p k => portOk p && packetFits k
  | .kexTimeout p => portOk p
  | .rekeyStart p => portOk p
  | .portEn p _ => portOk p
  | .portRetrain p => portOk p
  | .errLimitRetrain p => portOk p
  | .retrainTimeout p => portOk p
  | .portIsolate p => portOk p
  | .keepaliveSend p => portOk p
  | .linkLoss p cause => portOk p && decide (1 ≤ cause) && decide (cause ≤ 4)
  | .l1Entry p => portOk p
  | .l1Exit p => portOk p
  | .reqTagExpiry tag => decide (tag < 65536)
  | .baseDieTimeout p t _ => portOk p && (tileOk t || t == 126 || t == 127)
  | .rd p k => portOk p && packetFits k
  | .spRd p k => portOk p && packetFits k
  | .credReq p k => portOk p && packetFits k
  | .xlate p k => portOk p && packetFits k
  | .wr p k => portOk p && packetFits k
  | .spWr p k _ => portOk p && packetFits k
  | .doorbell p k => portOk p && packetFits k
  | .atomic p k => portOk p && packetFits k
  | .rdData p k => portOk p && packetFits k
  | .rdErr p k => portOk p && packetFits k
  | .wrAck p k => portOk p && packetFits k
  | .credGrant p k => portOk p && packetFits k
  | .credRefuse p k => portOk p && packetFits k
  | .xlateRsp p k => portOk p && packetFits k
  | .inv p k => portOk p && packetFits k
  | .invBatch p k => portOk p && packetFits k
  | .invAck p k => portOk p && packetFits k
  | .syResult p k _ => (match p with | some p => portOk p | none => true) && packetFits k
  | .cfgRsp p k => portOk p && packetFits k
  | .syOp p k _ => portOk p && packetFits k
  | .barReport p k _ _ => portOk p && packetFits k
  | .barRelease p k _ _ => portOk p && packetFits k
  | .creditRet p k => portOk p && packetFits k
  | .keepalive p k => portOk p && packetFits k
  | .cfgRd p k => portOk p && packetFits k
  | .cfgWr p k => portOk p && packetFits k
  | .budgetReport p k => portOk p && packetFits k
  | .budgetGrant p k => portOk p && packetFits k
  | .resetReq p k => portOk p && packetFits k
  | .join p k => portOk p && packetFits k
  | .accept p k => portOk p && packetFits k
  | .refuse p k => portOk p && packetFits k
  | .lost p k => portOk p && packetFits k
  | .clockFault p k => portOk p && packetFits k
  | .pkgFormTimeout => true
  | .refLoss => true
  | .refReturn => true
  | .holdoverExpiry => true
  | .porSupply => true
  | .porstN _ _ => true
  | .sysrstN _ _ => true
  | .sysWdogExpiry => true
  | .sysWdogKick => true
  | .resetCtrlSrst => true
  | .pkgSrst => true
  | .deferredReset => true
  | .coreResetMask w _ => decide (w < 3)
  | .crstDone t _ => tileOk t
  | .bootStart _ _ => true
  | .pllLock => true
  | .onjanSelftestDone _ => true
  | .fwVerified key _ => decide (key < 4)
  | .keyworkInit _ pass => decide (pass < 2 ^ 72)
  | .bootReady => true
  | .fwLoad => true
  | .fwData _ => true
  | .fwSwitch => true
  | .fwAbort => true
  | .fwQuiesce => true
  | .fwQuiesceTimeout => true
  | .optData _ => true
  | .optCommit => true
  | .optRevert => true
  | .optCommitDone _ _ => true
  | .coreFault t src => tileOk t && decide (1 ≤ src) && decide (src ≤ 7)
  | .correctedError t => (tileOk t || t == 127)
  | .cePredictiveFence t => tileOk t
  | .uncoreFault _ => true
  | .fenceMask w _ => decide (w < 3)
  | .fenceRelease w _ => decide (w < 3)
  | .descReplay _ => true
  | .commitPoint _ => true
  | .commitApplyDone _ => true
  | .tsyncEmit _ => true
  | .tsyncFrame k _ => decide (k < 2 ^ 44)
  | .tsNosync => true
  | .currentWindowEnd _ _ tjq tile => decide (tjq < 2 ^ 11) && tileOk tile
  | .powerWindowEnd => true
  | .thermalWindowEnd => true
  | .budgetRoundStart => true
  | .budgetGrantDeadline => true
  | .thermalTrip => true
  | .tsLoRead => true
  | .attest => true
  | .attestDone => true
  | .secRptDataRead => true
  | .challenge => true
  | .secTokenDataWrite _ => true
  | .tokenSubmit => true
  | .dbgLock => true
  | .svnCommit => true
  | .fk0Revoke => true
  | .secMemencWrite _ => true
  | .secRetainRelease job => decide (job < 4096)
  | .secRngRead => true
  | .rngTestFail _ => true
  | .tapReset => true
  | .extest cells => decide (cells < 2 ^ 212)
  | .idcode => true
  | .samplePreload cells => decide (cells < 2 ^ 212)
  | .clamp => true
  | .highz => true
  | .wirSel v => decide (v < 64)
  | .cfgAccess _ off _ => decide (off < 65536)
  | .fuseProg w _ _ => decide (w < 512)
  | .fuseVerify w => decide (w < 512)
  | .scan => true
  | .bypass => true
  | .bistRun t kind => decide (t < 128) && decide (kind < 4)
  | .bistDone _ _ => true
  | .portTestRun p mode lane _ => decide (p < 64) && decide (mode < 4) && decide (lane < 128)
  | .portTestDone _ _ _ => true
  | .dbgHalt t => tileOk t
  | .dbgStep t => tileOk t
  | .dbgResume t => tileOk t
  | .dbgDataAccess _ _ => true
  | .traceClear => true
  | .traceDataRead => true
  | .telemCtrlWrite _ => true
  | .telemWindowEnd => true
  | .cfgRegWrite off _ => decide (off < 65536)
  | .illegalWord t _ => tileOk t
  | .tokenVerifyDone _ => true
  | .sidebandRetrain p => portOk p
  | .flitReplay p => portOk p
  | .linkLevelAck p _ => portOk p
  | .creditReturnSend p => portOk p

end Sys2Proof
end

