-- ==== Sys2Proof/Safety.lean ====
section
/-!
DEFINITION. What counts as a safe run, and the conditions and results in whose terms the statements speak: waiting commands
are well formed, memories are in canonical form, a sequencer executes, a register is written.
-/

namespace Sys2Proof.Machine

open Sys2Proof

/-! ### Safety -/

/-- Every command that waits names units the die has (R12, R14). -/
def State.queueWf (s : State) : Bool := s.pending.all wellFormed

/-- Package memory is in its canonical form. -/
def State.memWf (s : State) : Bool := s.mem.wf

/-! ### The sequencer -/

/-- The sequencer of a tile executes its next instruction: the cores run and are not held by the throttle, a program runs, no `ISSUE` is stalled, and the
sequencer is neither halted nor stepped (R50, R486, R523). -/
def State.executes (s : State) (t : Nat) : Bool :=
  decide (t < Config.tiles) && s.coresRun && (s.tile t).canRun && !(s.tile t).seq.stepping

/-- A program works on a tile: the cores run and are not held by the throttle (R486), and the program runs or has been told to yield while its queued commands
finish (R63). -/
def State.works (s : State) (t : Nat) : Bool :=
  decide (t < Config.tiles) && s.coresRun && ((s.tile t).seq.phase == .running || (s.tile t).seq.phase == .yielding)

/-- Another word follows in the image (R45). -/
def Tile.more (q : Tile) : Bool := decide (q.seq.pc + 1 < q.seq.progLen)

/-- The tile after an instruction that left its program counter at `pc`: no `TWAIT` is waited at and the watchdog counts
afresh (R53, R60); everything else as before. -/
def Tile.at (q : Tile) (pc : Nat) : Tile := { q with seq := { q.seq with pc := pc, twait := none, stallNs := 0 } }

/-- The tile after an instruction that wrote `v` to `rd`, everything else as before (R36). -/
def Tile.after (q : Tile) (rd : BitVec 5) (v : Word) : Tile := (q.setReg rd v).at (q.seq.pc + 1)

/-- The tile has stopped with a program fault of a cause: program counter, scalar registers and data memory stay as they
were (R61). -/
def Tile.stoppedBy (q' q : Tile) (cause info : Nat) : Prop :=
  q'.seq.phase = .faulted cause ∧ q'.seq.faultInfo = info ∧ q'.seq.pc = q.seq.pc ∧ q'.seq.regs = q.seq.regs
  ∧ q'.seq.dmem = q.seq.dmem

/-- The descriptor that a tile works for has an outcome in a later state, unless it had one already. -/
def State.givesOutcome (s s' : State) (t st cause : Nat) : Prop :=
  ∀ d, s.descOf t = some d → d.outcome = none → ∃ d' ∈ s'.qm.descs, d'.uid = d.uid ∧ d'.outcome = some (st, cause, t)

/-- A descriptor that is concluded: it has its outcome and its clock has stopped (R336, R345). -/
def Desc.concluded (d : Desc) (s : State) (st cause tile : Nat) : Desc :=
  { d with outcome := some (st, cause, tile), timed := false, spent := s.elapsed d }

/-- The time limit of a descriptor's stream is not over, as far as the descriptor's clock runs (R345). -/
def State.inLimit (s : State) (d : Desc) : Bool := !(d.timed && s.overTime d)

/-- The engine, command code and operands of an `ISSUE` command whose effect at issue is to enter its engine's queue: tile,
engine, code, operands (R47, R74, R130, R152, R168, R203, R268, R287). -/
def issueSpec : Instr → Option (Nat × Nat × Nat × IssueArgs)
  | .pass t ma a => some (t, if ma then 1 else 0, 0x01, a)
  | .accClear t ma a => some (t, if ma then 1 else 0, 0x02, a)
  | .cntStore t ma a => some (t, if ma then 1 else 0, 0x03, a)
  | .scale t ma a => some (t, if ma then 1 else 0, 0x10, a)
  | .bellCfg t ma a => some (t, if ma then 1 else 0, 0x11, a)
  | .bellStore t ma a => some (t, if ma then 1 else 0, 0x12, a)
  | .rowFwd t a => some (t, 3, 0x01, a)
  | .rowBwd t a => some (t, 3, 0x02, a)
  | .rSpill t a => some (t, 3, 0x03, a)
  | .rFill t a => some (t, 3, 0x04, a)
  | .rInval t a => some (t, 3, 0x05, a)
  | .rbellCfg t a => some (t, 3, 0x06, a)
  | .rCnt t a => some (t, 3, 0x07, a)
  | .dmMove t a => some (t, 4, 0x01, a)
  | .dmGather t a => some (t, 4, 0x02, a)
  | .dmTfill t a => some (t, 4, 0x03, a)
  | .dmTread t a => some (t, 4, 0x04, a)
  | .dmDmem t a => some (t, 4, 0x05, a)
  | .dmSwrite t a => some (t, 4, 0x06, a)
  | .dmSread t a => some (t, 4, 0x07, a)
  | .creditReq t a => some (t, 4, 0x08, a)
  | .creditDrop t a => some (t, 4, 0x09, a)
  | .rxOpen t a => some (t, 4, 0x0A, a)
  | .rxClose t a => some (t, 4, 0x0B, a)
  | .slotRelease t a => some (t, 4, 0x0C, a)
  | .markFull t a => some (t, 4, 0x0C, a)
  | .setRaw t a => some (t, 4, 0x0C, a)
  | .rawEmpty t a => some (t, 4, 0x0C, a)
  | .rawFull t a => some (t, 4, 0x0C, a)
  | .dmCnt t a => some (t, 4, 0x0D, a)
  | .syInit t a => some (t, 5, 0x01, a)
  | .sySignalAdd t a => some (t, 5, 0x02, a)
  | .sySignalClear t a => some (t, 5, 0x02, a)
  | .sySignalLoad t a => some (t, 5, 0x02, a)
  | .syWait t a => some (t, 5, 0x03, a)
  | .syArrive t a => some (t, 5, 0x04, a)
  | .syFree t a => some (t, 5, 0x05, a)
  | .syRead t a => some (t, 5, 0x06, a)
  | _ => none

/-- The operation field that tells commands of one code apart: the parameter word, its bit and width, and this row's value
(R278, R287); none for a code with one row. -/
def issueOpField : Instr → Option (Nat × Nat × Nat × Nat)
  | .slotRelease _ _ => some (0, 24, 3, 0)
  | .markFull _ _ => some (0, 24, 3, 1)
  | .setRaw _ _ => some (0, 24, 3, 2)
  | .rawEmpty _ _ => some (0, 24, 3, 3)
  | .rawFull _ _ => some (0, 24, 3, 4)
  | .sySignalAdd _ _ => some (2, 0, 2, 0)
  | .sySignalClear _ _ => some (2, 0, 2, 1)
  | .sySignalLoad _ _ => some (2, 0, 2, 2)
  | _ => none

/-- Whether the words that a command reads are those of its row. -/
def issueOpOk (c : Instr) (ws : List Word) : Bool :=
  match issueOpField c with
  | some (i, lo, len, v) => fld (wordAt ws i) lo len == v
  | none => true

/-- The operation and operands of a vector instruction (R181). -/
def vecSpec : Instr → Option (Nat × Nat × VecArgs)
  | .vsetvl t v => some (t, 0x01, v)
  | .vbcfg t v => some (t, 0x02, v)
  | .vcnt t v => some (t, 0x03, v)
  | .vwait t v => some (t, 0x04, v)
  | .vpost t v => some (t, 0x05, v)
  | .vld t v => some (t, 0x08, v)
  | .vacc t v => some (t, 0x09, v)
  | .vacct t v => some (t, 0x0A, v)
  | .vtr t v => some (t, 0x0B, v)
  | .vtw t v => some (t, 0x0C, v)
  | .vmov t v => some (t, 0x0D, v)
  | .vbcast t v => some (t, 0x0E, v)
  | .viota t v => some (t, 0x0F, v)
  | .vadd t v => some (t, 0x10, v)
  | .vsub t v => some (t, 0x11, v)
  | .vmul t v => some (t, 0x12, v)
  | .vfma t v => some (t, 0x13, v)
  | .vmax t v => some (t, 0x14, v)
  | .vmin t v => some (t, 0x15, v)
  | .vabs t v => some (t, 0x16, v)
  | .vneg t v => some (t, 0x17, v)
  | .vcmp t v => some (t, 0x18, v)
  | .vsel t v => some (t, 0x19, v)
  | .vrsum t v => some (t, 0x20, v)
  | .vrmax t v => some (t, 0x21, v)
  | .vrmin t v => some (t, 0x22, v)
  | .vramax t v => some (t, 0x23, v)
  | .vexp2 t v => some (t, 0x28, v)
  | .vlog2 t v => some (t, 0x29, v)
  | .vrcp t v => some (t, 0x2A, v)
  | .vrsqrt t v => some (t, 0x2B, v)
  | .vtanh t v => some (t, 0x2C, v)
  | .vperm t v => some (t, 0x30, v)
  | .vstv t v => some (t, 0x38, v)
  | .vstt t v => some (t, 0x39, v)
  | _ => none

/-- The tile whose sequencer executes a scalar instruction (R40). -/
def scalarTile : Instr → Option Nat
  | .add t _ _ _ => some t
  | .sub t _ _ _ => some t
  | .and t _ _ _ => some t
  | .or t _ _ _ => some t
  | .xor t _ _ _ => some t
  | .sll t _ _ _ => some t
  | .srl t _ _ _ => some t
  | .sra t _ _ _ => some t
  | .slt t _ _ _ => some t
  | .sltu t _ _ _ => some t
  | .mul t _ _ _ => some t
  | .mulhu t _ _ _ => some t
  | .min t _ _ _ => some t
  | .max t _ _ _ => some t
  | .minu t _ _ _ => some t
  | .maxu t _ _ _ => some t
  | .addi t _ _ _ => some t
  | .andi t _ _ _ => some t
  | .ori t _ _ _ => some t
  | .lui t _ _ _ => some t
  | .memLoad t _ _ _ _ _ => some t
  | .memStore t _ _ _ _ => some t
  | .beq t _ _ _ => some t
  | .bne t _ _ _ => some t
  | .blt t _ _ _ => some t
  | .bge t _ _ _ => some t
  | .bltu t _ _ _ => some t
  | .bgeu t _ _ _ => some t
  | .jal t _ _ => some t
  | .jalr t _ _ => some t
  | .csrRead t _ _ => some t
  | .csrWrite t _ _ _ => some t
  | .csrSet t _ _ _ => some t
  | .csrClear t _ _ _ => some t
  | .fence t _ => some t
  | .twait t _ => some t
  | .tpost t _ => some t
  | .tset t _ _ => some t
  | .nop t => some t
  | .endProg t => some t
  | .trap t _ => some t
  | .brk t => some t
  | _ => none

/-- The tile whose sequencer executes an instruction: scalar, `ISSUE` or `VEC` (R40, R47). -/
def instrTile (c : Instr) : Option Nat :=
  match scalarTile c with
  | some t => some t
  | none => match issueSpec c with
    | some x => some x.1
    | none => (vecSpec c).map (·.1)

/-- The Bell of an engine: an array's, the vector Bell, or the row engine's settings of it (R149, R206). -/
def Tile.bellOf (q : Tile) (eng : Nat) : Bell :=
  match eng with
  | 0 => q.ma0.bell
  | 1 => q.ma1.bell
  | 2 => q.vec.bell
  | _ => q.row.bell

/-- The fields of a queue entry that it captures as it enters (R49), and its token flag (R52). -/
def QEntry.captured (e : QEntry) (z : Seq) : QEntry :=
  { e with uid := z.issued, cfg := z.coreCfg, seed := z.seed, taken := e.wait.isNone }

/-! ### Packets -/

/-- A port takes a packet in (R381, R396, R402): it is `UP`, its role carries the class, the packet is within the limits of the
link, it is authentic where the link is keyed, and it is for this die. -/
def State.accepts (s : State) (p : Nat) (k : Packet) : Bool :=
  isPort p && (s.port p).st == .up && (!(s.port p).confOn || k.authOk) && roleCarries (s.role p) k
  && packetOk (s.port p).version (s.port p).confOn k && (k.dstDie == s.pos || linkLocal k || s.role p == 0)

/-- The state in which a packet that was taken in acts: it has been counted, and its buffer units are free again (R399). -/
def State.taken (s : State) (p : Nat) (k : Packet) : State :=
  (s.onPort p (fun po => { po with
      recvCount := po.recvCount + 1, lastRecv := s.now, lastBusy := if keepsAwake k then s.now else po.lastBusy
      freed := if creditFree k then po.freed else Tab.mod 0 po.freed k.cls (· + packetUnits k) })).count 3
    (if isDieRole (s.role p) && k.hasData then k.len else 0)

/-- A port holds a packet: it waits for credits, or is on the link and not acknowledged (R393, R399). -/
def State.holds (s : State) (p : Nat) (k : Packet) : Prop := k ∈ (s.port p).queue ∨ k ∈ (s.port p).unacked

/-- The answer `a` to request `k` on port `p`: a response to the requesting die with the request's tag and job (R396, R398). -/
def State.answerTo (s : State) (p : Nat) (k a : Packet) : Packet :=
  { a with cls := 1, dstDie := k.srcDie, tag := k.tag, job := k.job, enc := (s.port p).confOn }

/-- Package bytes that an access of a packet may touch now: of an object that the job may access and that is homed here, neither
poisoned nor held back by a switch or by outstanding invalidations (R363, R371, R376, R466). -/
def State.admits (s : State) (k : Packet) (wr : Bool) (n : Nat) : Bool :=
  !isHostAddr k.addr && s.deny k.job wr false k.addr n == 0 && !s.isPoisoned k.addr n && !k.poison && !s.busyLines k.addr n
  && s.isHome k.addr

end Sys2Proof.Machine
end

