-- ==== Sys2Proof/Certificates/Slice0/Obligations.lean ====
section
/-!
DEFINITION. The statements for the provers, family by family.
-/

open Sys2Proof Sys2Proof.Machine

/-! ### The block as a whole -/

/-- A step carries out the command at the front of the queue on the state with the rest of the queue. -/
def Obligations.StepTakesFrontCommand : Prop :=
  ∀ (c : Instr) (s : State), step { s with pending := c :: s.pending } = exec c s

/-! ### The sequencer (spec/02_core_and_sequencer.md) -/

/-- R42: the functions of `ALU` and `ALUI`. Each executing instruction writes its function of the operands to rd and moves
to the next word, and changes nothing else of the die. -/
def Obligations.AluWritesFunctionOfOperands : Prop :=
  ∀ (s : State) (t : Nat) (rd ra rb : BitVec 5) (imm : BitVec 16), s.executes t = true → (s.tile t).more = true →
    let a := (s.tile t).reg ra
    let b := (s.tile t).reg rb
    let gives := fun (c : Instr) (v : Word) => exec c s = .next (s.onTile t (fun q => q.after rd v))
    gives (.add t rd ra rb) (a + b)
    ∧ gives (.sub t rd ra rb) (a - b)
    ∧ gives (.and t rd ra rb) (a &&& b)
    ∧ gives (.or t rd ra rb) (a ||| b)
    ∧ gives (.xor t rd ra rb) (a ^^^ b)
    ∧ gives (.sll t rd ra rb) (a <<< (b.toNat % 32))
    ∧ gives (.srl t rd ra rb) (a >>> (b.toNat % 32))
    ∧ gives (.sra t rd ra rb) (a.sshiftRight (b.toNat % 32))
    ∧ gives (.slt t rd ra rb) (if a.toInt < b.toInt then 1 else 0)
    ∧ gives (.sltu t rd ra rb) (if a.toNat < b.toNat then 1 else 0)
    ∧ gives (.mul t rd ra rb) (BitVec.ofNat 32 (a.toNat * b.toNat))
    ∧ gives (.mulhu t rd ra rb) (BitVec.ofNat 32 (a.toNat * b.toNat / 2 ^ 32))
    ∧ gives (.min t rd ra rb) (if a.toInt ≤ b.toInt then a else b)
    ∧ gives (.max t rd ra rb) (if a.toInt ≤ b.toInt then b else a)
    ∧ gives (.minu t rd ra rb) (if a.toNat ≤ b.toNat then a else b)
    ∧ gives (.maxu t rd ra rb) (if a.toNat ≤ b.toNat then b else a)
    ∧ gives (.addi t rd ra imm) (a + imm.signExtend 32)
    ∧ gives (.andi t rd ra imm) (a &&& imm.zeroExtend 32)
    ∧ gives (.ori t rd ra imm) (a ||| imm.zeroExtend 32)
    ∧ gives (.lui t rd ra imm) (BitVec.ofNat 32 (imm.toNat * 2 ^ 16))

/-- R36: s0 reads as 0 and a write to it is discarded; every other register reads back what was written, and a write leaves
the other registers alone. -/
def Obligations.ScalarRegistersHoldWrites : Prop :=
  ∀ (q : Tile) (r x : BitVec 5) (v : Word),
    q.reg 0 = 0 ∧ q.setReg 0 v = q
    ∧ (q.setReg r v).reg x = (if x = r ∧ r ≠ 0 then v else q.reg x)

/-- R43, R38, R7: an aligned access of data memory within its 16 KiB. A load writes the little-endian value, sign- or
zero-extended, to rd; a store puts the bytes of rs at the effective address. Nothing else of the die changes. -/
def Obligations.LoadAndStoreDataMemory : Prop :=
  ∀ (s : State) (t : Nat) (rd rs ra : BitVec 5) (off : BitVec 14) (size : MemSize) (sx : Bool),
    s.executes t = true → (s.tile t).more = true →
    let n := sizeBytes size
    let a := ((s.tile t).reg ra + off.signExtend 32).toNat
    a % n = 0 → a + n ≤ 0x4000 →
    let v := (s.tile t).seq.dmem.rdLE a n
    exec (.memLoad t rd ra off size sx) s = .next (s.onTile t (fun q =>
      q.after rd (if sx && decide (2 ^ (8 * n - 1) ≤ v) then BitVec.ofNat 32 (v + 2 ^ 32 - 2 ^ (8 * n)) else BitVec.ofNat 32 v)))
    ∧ exec (.memStore t rs ra off size) s = .next (s.onTile t (fun q =>
        ({ q with seq := { q.seq with dmem := q.seq.dmem.wrLE a n ((s.tile t).reg rs).toNat } } : Tile).at (q.seq.pc + 1)))

/-- R44: branches and jumps whose target lies in the image. A taken branch adds its word offset to its own address; `JAL`
and `JALR` write the address of the next instruction to rd. -/
def Obligations.BranchesAndJumpsGoToTheirTarget : Prop :=
  ∀ (s : State) (t : Nat) (rd ra rb : BitVec 5) (off : BitVec 15) (joff : BitVec 22) (tgt jtgt : Nat),
    s.executes t = true → (s.tile t).more = true →
    let q := s.tile t
    (q.seq.pc : Int) + off.toInt = tgt → tgt < q.seq.progLen →
    (q.seq.pc : Int) + joff.toInt = jtgt → jtgt < q.seq.progLen →
    (q.reg ra).toNat % 2 ^ 14 < q.seq.progLen →
    let a := q.reg ra
    let b := q.reg rb
    let goes := fun (c : Instr) (taken : Prop) [Decidable taken] =>
      exec c s = .next (s.onTile t (fun q => q.at (if taken then tgt else q.seq.pc + 1)))
    goes (.beq t ra rb off) (a = b)
    ∧ goes (.bne t ra rb off) (a ≠ b)
    ∧ goes (.blt t ra rb off) (a.toInt < b.toInt)
    ∧ goes (.bge t ra rb off) (b.toInt ≤ a.toInt)
    ∧ goes (.bltu t ra rb off) (a.toNat < b.toNat)
    ∧ goes (.bgeu t ra rb off) (b.toNat ≤ a.toNat)
    ∧ exec (.jal t rd joff) s = .next (s.onTile t (fun q =>
        (q.setReg rd (BitVec.ofNat 32 (q.seq.pc + 1))).at jtgt))
    ∧ exec (.jalr t rd ra) s = .next (s.onTile t (fun q =>
        (q.setReg rd (BitVec.ofNat 32 (q.seq.pc + 1))).at (a.toNat % 2 ^ 14)))

/-- R46, R53, R56: the instructions of `WAIT` and `SYS` that leave the program running. A fence waits for the engines of its
mask, a `TWAIT` for its token; while a fence waits nothing happens, and a `TWAIT` that waits is known as one of the token's
waiters.
R57, R35: `END` with no command outstanding ends the program; the core reports to the descriptor it works for, with its
counts. R46: an enabled `BRK` halts the sequencer behind it. -/
def Obligations.WaitAndSystemInstructions : Prop :=
  (
    ∀ (s : State) (t : Nat) (mask : BitVec 6) (tok : BitVec 3) (val : BitVec 16),
      s.executes t = true → (s.tile t).more = true →
      let q := s.tile t
      let k := q.token tok.toNat
      let moves := fun (c : Instr) (f : Tile → Tile) => exec c s = .next (s.onTile t (fun q => (f q).at (q.seq.pc + 1)))
      moves (.nop t) id
      ∧ ((∀ e, e < 6 → mask.getLsbD e = true → q.queue e = []) → moves (.fence t mask) id)
      ∧ ((∃ e, e < 6 ∧ mask.getLsbD e = true ∧ q.queue e ≠ []) → exec (.fence t mask) s = .next s)
      ∧ (if k = 0 then exec (.twait t tok) s = .next (s.onTile t (fun q => { q with seq := { q.seq with twait := some tok.toNat } }))
        else moves (.twait t tok) (fun q => q.setToken tok.toNat (k - 1)))
      ∧ (k < 65535 → moves (.tpost t tok) (fun q => q.setToken tok.toNat (k + 1)))
      ∧ (k = 65535 → bitAt q.seq.coreCfg 1 = false → moves (.tpost t tok) id)
      ∧ ((∀ e c, e < 6 → c ∈ q.queue e → c.wait ≠ some tok.toNat ∧ c.post ≠ some tok.toNat) →
          moves (.tset t tok val) (fun q => q.setToken tok.toNat val.toNat))
      ∧ ((bitAt (s.reg 0x3C10) 11 && s.dbgOpen) = false → moves (.brk t) id))
  ∧ (
    ∀ (s : State) (t : Nat), s.executes t = true → (s.tile t).more = true →
      let z := (s.tile t).seq
      ((∀ e, e < 6 → (s.tile t).queue e = []) →
        ∃ s', exec (.endProg t) s = .next s' ∧ (s'.tile t).seq.phase = .ended
          ∧ ∀ d, s.descOf t = some d → s.desc d.uid = some d → s.inLimit d = true → ∃ d' ∈ s'.qm.descs, d'.uid = d.uid ∧ d'.ended = d.ended ++ [z.member]
              ∧ d'.sat = d.sat + z.sat ∧ d'.flushIn = d.flushIn + z.flushIn ∧ d'.flushOut = d.flushOut + z.flushOut)
      ∧ ((bitAt (s.reg 0x3C10) 11 && s.dbgOpen) = true →
        ∃ s', exec (.brk t) s = .next s' ∧ (s'.tile t).seq.halted = true ∧ (s'.tile t).seq.pc = z.pc + 1
          ∧ (s'.tile t).seq.phase = .running ∧ (s'.tile t).seq.regs = z.regs))

/-- R58, R59: a read of each core register, and a write, set or clear of `CORE_CFG`, whose reserved bits stay 0. A read of
`TS_LO` latches `TS_HI`. -/
def Obligations.CoreRegisterAccess : Prop :=
  ∀ (s : State) (t : Nat) (rd ra : BitVec 5), s.executes t = true → (s.tile t).more = true →
    let q := s.tile t
    let w := BitVec.ofNat 32
    let free := fun e => queueDepth e - (q.queue e).length
    let reads := fun (n : Nat) (v : Word) =>
      exec (.csrRead t rd (BitVec.ofNat 12 n)) s = .next (s.onTile t (fun q => q.after rd v))
    reads 0x0 q.seq.coreCfg
    ∧ reads 0x1 (w (q.seq.lcore + t * 2 ^ 16 + s.pos * 2 ^ 24))
    ∧ reads 0x2 (w q.seq.cycles)
    ∧ reads 0x3 (w (q.seq.cycles / 2 ^ 32))
    ∧ exec (.csrRead t rd 0x4) s = .next (s.onTile t (fun q =>
        ({ q with seq := { q.seq with tsHi := w (s.time.ts / 2 ^ 32) } } : Tile).after rd (w s.time.ts)))
    ∧ reads 0x5 q.seq.tsHi
    ∧ reads 0x6 (w (free 0 + free 1 * 2 ^ 5 + free 3 * 2 ^ 10 + free 5 * 2 ^ 15 + free 4 * 2 ^ 20 + min (free 2) 63 * 2 ^ 26))
    ∧ reads 0x7 (w (q.token 0 + q.token 1 * 2 ^ 16))
    ∧ reads 0x8 (w (q.token 2 + q.token 3 * 2 ^ 16))
    ∧ reads 0x9 (w (min (q.token 4) 255 + min (q.token 5) 255 * 2 ^ 8 + min (q.token 6) 255 * 2 ^ 16
        + min (q.token 7) 255 * 2 ^ 24))
    ∧ reads 0xA (q.seq.seed.truncate 32)
    ∧ reads 0xB ((q.seq.seed >>> 32).truncate 32)
    ∧ let sets := fun (c : Instr) (v : Word) => exec c s = .next (s.onTile t (fun q =>
        ({ q with seq := { q.seq with coreCfg := v &&& 0xFFFF000F } } : Tile).after rd q.seq.coreCfg))
      sets (.csrWrite t rd ra 0) (q.reg ra)
      ∧ sets (.csrSet t rd ra 0) (q.seq.coreCfg ||| q.reg ra)
      ∧ sets (.csrClear t rd ra 0) (q.seq.coreCfg &&& ~~~(q.reg ra))

/-- R61 with R38, R40, R45, R46, R48, R53, R58: the program faults of the sequencer. The sequencer stops at the instruction
with the cause of the table, and its descriptor takes the status `KILLED` (0x18).
R59, R60, R524: the stall watchdog. Once a running sequencer with `WDOG_EN` 1 has retired no instruction for
`WDOG_LIMIT` microseconds of its own time, 0 standing for 65,536, the program stops with `WDOG`; before that, with
`WDOG_EN` 0, and while the sequencer is halted, nothing happens. -/
def Obligations.FaultsAndWatchdogStopTheCore : Prop :=
  (
    ∀ (s : State) (t : Nat) (rd ra rb : BitVec 5) (off : BitVec 14) (boff : BitVec 15) (joff : BitVec 22) (size : MemSize)
        (sx : Bool) (num : BitVec 12) (tok : BitVec 3) (val code : BitVec 16) (word : Word) (c : Instr), s.executes t = true →
      let q := s.tile t
      let n := sizeBytes size
      let a := (q.reg ra + off.signExtend 32).toNat
      let stops := fun (c : Instr) (cause info : Nat) =>
        ∃ s', exec c s = .next s' ∧ (s'.tile t).stoppedBy q cause info ∧ s.givesOutcome s' t 0x18 cause
      let outside := fun (x : Int) => x < 0 ∨ (q.seq.progLen : Int) ≤ x
      stops (.trap t code) 0x5 code.toNat
      ∧ (wordLegal word = false → stops (.illegalWord t word) 0x1 0)
      ∧ (a % n ≠ 0 → stops (.memLoad t rd ra off size sx) 0x2 0 ∧ stops (.memStore t rd ra off size) 0x2 0)
      ∧ (a % n = 0 → 0x4000 < a + n → stops (.memLoad t rd ra off size sx) 0x3 0 ∧ stops (.memStore t rd ra off size) 0x3 0)
      ∧ (outside (q.seq.pc + boff.toInt) → q.reg ra = q.reg rb → stops (.beq t ra rb boff) 0x4 0)
      ∧ (outside (q.seq.pc + joff.toInt) → stops (.jal t rd joff) 0x4 0)
      ∧ (q.seq.progLen ≤ (q.reg ra).toNat % 2 ^ 14 → stops (.jalr t rd ra) 0x4 0)
      ∧ (q.seq.progLen ≤ q.seq.pc + 1 → stops (.nop t) 0x4 0)
      ∧ (num ≠ 0 → stops (.csrWrite t rd ra num) 0x1 0 ∧ stops (.csrSet t rd ra num) 0x1 0 ∧ stops (.csrClear t rd ra num) 0x1 0)
      ∧ (0xB < num.toNat → stops (.csrRead t rd num) 0x1 0)
      ∧ (q.namesToken tok.toNat = true → stops (.tset t tok val) 0x1 0)
      ∧ ∀ eng cd ia, issueSpec c = some (t, eng, cd, ia) → issueOpOk c (issueWords q ia) = true → 32 < ia.ra.toNat + ia.n1.toNat + 1 →
          stops c 0x1 0)
  ∧ (
    ∀ (s : State) (t : Nat), t < 72 → s.clocked = true →
      let z := (s.tile t).seq
      let l := fld z.coreCfg 16 16
      let due := z.phase = .running ∧ bitAt z.coreCfg 3 = true ∧ z.halted = false ∧ 1000 * (if l = 0 then 65536 else l) ≤ z.stallNs
      (due → ∃ s', exec (.wdog t) s = .next s' ∧ (s'.tile t).stoppedBy (s.tile t) 0x6 0 ∧ s.givesOutcome s' t 0x18 0x6)
      ∧ (¬ due → exec (.wdog t) s = .next s))

/-- R47 to R50: an `ISSUE` or `VEC` whose checks pass enters the queue of its engine behind what is there, capturing
`CORE_CFG` and `SR_SEED`; into a full queue it does not go, and the sequencer stalls at it. No other queue changes.
R50: a stalled instruction enters its queue once an entry is free. R52, R56: a command that waits for its token and for
nothing else starts once the token holds a count of its own for it, behind the waiters that are served before it, and the
token is decremented by one. The stores of its engine whose turn it is begin first. -/
def Obligations.IssuedCommandsEnterAndGoOn : Prop :=
  (
    ∀ (s : State) (t eng : Nat) (c : Instr) (e e' : QEntry) (q' : Tile), s.executes t = true →
      let q := s.tile t
      ((∃ cd ia, issueSpec c = some (t, eng, cd, ia) ∧ issueOpOk c (issueWords q ia) = true ∧ ia.ra.toNat + ia.n1.toNat < 32
          ∧ e = issueEntry q cd ia)
        ∨ (∃ vop v, vecSpec c = some (t, vop, v) ∧ eng = 2 ∧ e = vecEntry q vop v)) →
      (queueDepth eng ≤ (q.queue eng).length →
        exec c s = .next (s.onTile t (fun q => { q with seq := { q.seq with stall := some ⟨eng, e⟩ } })))
      ∧ ((q.queue eng).length < queueDepth eng → issueCheck s.level eng q e = .ok (q', e') → q.more = true →
        ∃ s', exec c s = .next s' ∧ (s'.tile t).queue eng = q.queue eng ++ [e'.captured q.seq]
          ∧ (∀ k, k ≠ eng → (s'.tile t).queue k = q.queue k)
          ∧ (s'.tile t).seq.pc = q.seq.pc + 1 ∧ (s'.tile t).seq.phase = .running ∧ (s'.tile t).seq.regs = q.seq.regs
          ∧ (s'.tile t).spad = q.spad))
  ∧ (
    ∀ (s : State) (t : Nat), t < 72 → s.coresRun = true →
      (∀ st q' e', (s.tile t).seq.phase = .running → (s.tile t).seq.stall = some st → (s.tile t).seq.stepping = false →
        (s.tile t).seq.haltReq = false → ((s.tile t).queue st.eng).length < queueDepth st.eng → (s.tile t).more = true →
        issueCheck s.level st.eng { (s.tile t) with seq := { (s.tile t).seq with stall := none } } st.entry = .ok (q', e') →
        ∃ s', exec (.issueStallResume t) s = .next s' ∧ (s'.tile t).seq.stall = none
          ∧ (s'.tile t).queue st.eng = (s.tile t).queue st.eng ++ [e'.captured (s.tile t).seq]
          ∧ (s'.tile t).seq.pc = (s.tile t).seq.pc + 1)
      ∧ (∀ eng i e k, eng < 6 →
        let q := settleStores eng (s.tile t)
        tokenWaiter eng q = some (i, e) → e.wait = some k → waitersBefore eng k q < q.token k →
        exec (.tokenWaitStart t eng) s = .next (s.onTile t (fun _ =>
          (q.setToken k (q.token k - 1)).onEntry eng i (fun x => { x with taken := true })))))

/-- R33, R34, R564: a program whose handle passes its check, on a core that no other job's data keeps, starts once its image
and its argument block have been fetched, with the state of R33: its entry as program counter, the scalar registers of R34,
its argument block in data memory, and everything else at zero. -/
def Obligations.ProgramStartsInStartState : Prop :=
  ∀ (s s1 s2 : State) (t : Nat) (d : Desc), t < 72 → s.coresRun = true → s.pkg.holdover = false →
    let z := (s.tile t).seq
    z.phase = .starting → s.descOf t = some d → d.outcome = none → s.progReason z.job z.handle z.progLen = 0 →
    (s.tile t).spad.sealed = false → ((s.tile t).spad.owner = none ∨ (s.tile t).spad.owner = some z.job) →
    s.needImage t = (s1, .ok ()) → s1.needArgs t = (s2, .ok ()) →
    let bs := s2.argBlock t
    ∃ s', exec (.programStart t) s = .next s' ∧
      let q := s'.tile t
      q.seq.phase = .running ∧ q.seq.pc = z.entry ∧ q.seq.dmem = Mem.wrBytes [] 0 bs ∧ q.seq.tokens = [] ∧ q.seq.coreCfg = 0
      ∧ q.seq.cycles = 0 ∧ q.vec.vl = 128 ∧ q.ma0.acc = [] ∧ q.ma1.acc = [] ∧ q.spad.owner = some z.job
      ∧ q.row.owner = some z.job
      ∧ (∀ r : BitVec 5, q.reg r = match r.toNat with
          | 1 => BitVec.ofNat 32 z.lcore
          | 2 => BitVec.ofNat 32 z.member
          | 3 => BitVec.ofNat 32 z.group
          | 4 => BitVec.ofNat 32 z.job
          | 5 => BitVec.ofNat 32 z.stream
          | 6 => BitVec.ofNat 32 z.seqNo
          | 8 => wordAt z.args 0
          | 9 => wordAt z.args 1
          | 10 => wordAt z.args 2
          | 11 => wordAt z.args 3
          | 12 => BitVec.ofNat 32 z.argLen
          | _ => 0)

/-- R63, R330, R331, R332: a core that a ready descriptor of higher level wants is told to yield: it stops issuing and gives up
a stalled instruction; when its queued commands have all completed, its context is saved in its member's frame; when the
grace of 4,096 cycles ends first, the context is discarded and no accumulator row stays valid. -/
def Obligations.YieldSavesOrDiscards : Prop :=
  ∀ (s : State) (t job : Nat) (d : Desc) (x : Stream), t < 72 → s.coresRun = true → s.descOf t = some d →
    s.stream d.stream = some x →
    let q := s.tile t
    (q.seq.phase = .running → s.mustYield t job = true →
      ∃ s', exec (.yield t job) s = .next s' ∧ (s'.tile t).seq.phase = .yielding ∧ (s'.tile t).seq.stall = none
        ∧ (s'.tile t).seq.pc = q.seq.pc ∧ (s'.tile t).seq.regs = q.seq.regs)
    ∧ (q.seq.phase = .yielding → (∀ e, e < 6 → q.queue e = []) →
      s.qmCheck x.job true false (x.ctxBase + q.seq.member * x.frameSize) x.frameSize = 0 →
      ∃ s' f, exec (.contextSave t) s = .next s' ∧ (s'.tile t).seq.phase = .saved
        ∧ Tab.get none s'.qm.frames (64 * d.uid + q.seq.member) = some f ∧ f.tile.seq.pc = q.seq.pc
        ∧ f.tile.seq.regs = q.seq.regs ∧ f.tile.seq.dmem = q.seq.dmem ∧ f.tile.ma0.acc = q.ma0.acc)
    ∧ (q.seq.phase = .yielding → q.seq.yieldAt + 4096 ≤ q.seq.cycles → (∃ e, e < 6 ∧ q.queue e ≠ []) →
      ∃ s', exec (.yieldGraceExpiry t) s = .next s' ∧ (s'.tile t).seq.phase = .discarded
        ∧ (s'.tile t).ma0.acc = [] ∧ (s'.tile t).ma1.acc = [] ∧ (∀ e, e < 6 → (s'.tile t).queue e = []))

/-! ### The matrix arrays (spec/03_matrix_arrays.md, spec/04_slide_mode_and_transposed_use.md, spec/05_number_formats_and_block_scales.md) -/

/-- R82, R86, R88, R102: an array whose stores have begun and whose feeders have read on (`arrReady`) has a load row k due for
the pass at index i and the bank b; its slots may be read, the array does not hold, and the other array does not keep the
pass from starting. The row's `256 · w` bytes enter bank b at the place of row k; the other bank, the accumulator, the
selected bank, the other array, the scratchpad and data memory stay, and the pass has one more row. The oldest pass with
rows to load is due, into the bank that is not selected.
R107, R108: an array whose next pass to load is an S8 pass takes the whole load channel while the other array is idle;
nothing else changes. -/
def Obligations.StationaryRowsAndLoadChannel : Prop :=
  (
    (∀ (s : State) (t : Nat) (ma : Bool) (i : Nat) (e : QEntry) (b : Bool), s.works t = true →
      let q := arrReady ma (s.tile t)
      let a := q.arr ma
      let p := passP e.words
      let k := e.loadRows
      loadDue a = some (i, e, b) → (e.begun = true ∨ mayStart q ma e = true) → (p.mode = 3 → a.channel = true) →
      feederHold ma q = false → mayRead q.spad (a.q.take i) (loadSlots p (scaleP e.scale) k) = true →
      ∃ s', exec (.statLoadRow t ma) s = .next s' ∧
        let a' := (s'.tile t).arr ma
        (a'.bank b).data = (a.bank b).data.wrBytes (256 * p.w * k) (q.spad.mem.rdBytes (4096 * p.stat + 256 * p.w * k) (256 * p.w))
        ∧ a'.bank (!b) = a.bank (!b) ∧ a'.acc = a.acc ∧ a'.sel = a.sel ∧ a'.cnt = a.cnt
        ∧ (∃ st, entryAt a'.q i = some { e with loadRows := k + 1, bank := some b, waiting := false, store := st })
        ∧ (s'.tile t).arr (!ma) = (s.tile t).arr (!ma) ∧ (s'.tile t).spad = (s.tile t).spad
        ∧ (s'.tile t).seq.dmem = (s.tile t).seq.dmem)
    ∧ (∀ (a : Arr) (e : QEntry) (rest : List QEntry), a.q = e :: rest → e.code = cPASS → e.taken = true → e.loadRows < loadTarget e →
        e.bank = none → (passP e.words).reuse = false → loadDue a = some (0, e, !a.sel)))
  ∧ (
    ∀ (s : State) (t : Nat) (ma : Bool) (e : QEntry) (rest : List QEntry), s.works t = true →
      let q := s.tile t
      (q.arr ma).q = e :: rest → e.code = cPASS → e.taken = true → e.loadRows = 0 → (passP e.words).mode = 3 →
      (passP e.words).reuse = false → (q.arr ma).channel = false → (q.arr !ma).channel = false → (q.arr !ma).q = [] →
      exec (.loadChannelTake t ma) s = .next (s.onTile t (fun q => q.onArr ma (fun a => { a with channel := true }))))

/-- R68, R71, R72, R81, R111, R127: the oldest command of an array (`arrReady`) is an integer `PASS` without block scales whose
next streamed row j stands complete at the head of the feeder queues, with the bytes m. Every active output n of the row
becomes the exact sum over κ of `S[j][κ] · W[κ][n]` (with `CSTREAM` 1, of `S[j][κ] · W[n][κ]`) modulo 2^32, added to the old
value where `ACC_ADD` is 1 and the accumulator row is valid and of the integer class; every other accumulator row stays.
R85: the feeders of an array whose queues are empty read the due row of its oldest pass once its slots may be read. -/
def Obligations.StreamedIntegerRowsAreExact : Prop :=
  (∀ (s : State) (t : Nat) (ma : Bool) (e : QEntry) (rest : List QEntry) (m : Mem), s.works t = true →
    let q := arrReady ma (s.tile t)
    let a := q.arr ma
    let p := passP e.words
    let c := scaleP e.scale
    let j := e.strRows
    a.q = e :: rest → e.code = cPASS → e.taken = true → j < p.m → e.loadRows = loadTarget e →
    (e.begun = true ∨ mayStart q ma e = true) → p.bell = false → p.fmt.isInt = true → c.any = false →
    a.headRow e = some m →
    let b := bankAfter a.sel e
    let x := fun κ => let v := streamElem m p j κ
      if p.sgnS then signedOf v p.fmt.width else (v : Int)
    let y := fun κ n => let v := statFor (a.bank b) p κ n
      if p.sgnW then signedOf v p.fmt.width else (v : Int)
    ∃ s', exec (.streamRowEnter t ma) s = .next s' ∧
      let a' := (s'.tile t).arr ma
      (∀ n, n < p.nOut → n < 128 * p.w → ∃ r, Tab.get none a'.acc (p.accBase + p.w * j + n / 128) = some r ∧ r.isInt = true
        ∧ Tab.get 0 r.bits (n % 128) = BitVec.ofInt 32
            ((match Tab.get none a.acc (p.accBase + p.w * j + n / 128) with
              | some o => if p.accAdd && o.isInt then (Tab.get 0 o.bits (n % 128)).toInt else 0
              | none => 0)
             + ((List.range (redLen p)).map (fun κ => x κ * y κ n)).sum))
      ∧ (∀ i, (∀ sl, sl < p.w → i ≠ p.accBase + p.w * j + sl) → Tab.get none a'.acc i = Tab.get none a.acc i)
      ∧ a'.q = { e with strRows := j + 1, bank := some b, waiting := false } :: rest
      ∧ a'.sel = b ∧ a'.bankA = a.bankA ∧ a'.bankB = a.bankB ∧ (s'.tile t).spad = (s.tile t).spad
      ∧ (s'.tile t).arr (!ma) = (s.tile t).arr (!ma))
  ∧ (∀ (a : Arr) (sp : Spad) (e : QEntry) (rest : List QEntry), a.feed = [] → a.q = e :: rest → streaming e = true → e.taken = true →
      (streamSlots (passP e.words) (scaleP e.scale) e.strRows).all sp.canRead = true →
      (a.refill sp).headRow e = some (feedBytes sp.mem (passP e.words) (scaleP e.scale) e.strRows))

/-- R54, R78, R80, R98, R132, R155: the oldest command of an array completes (`acceptDue`: the stores whose turn it is have
begun). A finished `PASS` releases the slots that it asked to release, FULL slots becoming EMPTY; `ACC_CLEAR` makes its
accumulator rows invalid and no other, where no later pass has written them yet; `CNT_STORE` puts the eight counters into
data memory, of which the pass, cycle and cell counts are the array's own; `SCALE` and `BELL_CFG` leave the queue, `BELL_CFG`
adding its settings. The post token, where there is one, is incremented. -/
def Obligations.ArrayCommandsComplete : Prop :=
  ∀ (s : State) (t : Nat) (ma : Bool) (e : QEntry) (rest : List QEntry), s.works t = true →
    let q0 := s.tile t
    let q := acceptDue ma q0
    let a := q.arr ma
    let p := passP e.words
    let w := wordAt e.words 0
    (∀ k, e.post = some k → q0.token k < 65535) →
    let gone := fun (s' : State) => ((s'.tile t).arr ma).q = rest ∧ (s'.tile t).seq.phase = q0.seq.phase
      ∧ (∀ k, (s'.tile t).token k = q0.token k + (if e.post = some k then 1 else 0))
    let completes := fun (f : State → Prop) => a.q = e :: rest → e.taken = true → (q0.arr !ma).channel = false →
      ∃ s', exec (.commandComplete t (arrEng ma) 0) s = .next s' ∧ gone s' ∧ f s'
    ((q0.arr ma).q = e :: rest → e.code = cPASS → e.strRows = p.m → (p.bell = true → e.stored = true) →
      ∃ s', exec (.passComplete t ma) s = .next s' ∧ gone s' ∧ ((s'.tile t).arr ma).acc = (q0.arr ma).acc
        ∧ ∀ i, (s'.tile t).spad.slot i =
            if ((p.srcRel = true ∧ p.src ≤ i ∧ i < p.src + p.srcSlots)
                ∨ (p.statRel = true ∧ p.reuse = false ∧ p.stat ≤ i ∧ i < p.stat + 8)) ∧ (q0.spad.slot i).tag = .full
            then { q0.spad.slot i with tag := .empty } else q0.spad.slot i)
    ∧ (e.code = 0x02 → Tab.get [] a.later e.uid = [] → completes (fun s' => ∀ r, Tab.get none ((s'.tile t).arr ma).acc r =
        if fld w 0 11 ≤ r ∧ r ≤ fld w 0 11 + fld w 12 11 then none else Tab.get none a.acc r))
    ∧ (e.code = 0x03 → completes (fun s' =>
        (∀ i, i < 8 → (s'.tile t).seq.dmem.rdBytes (fld w 0 14 + 8 * i) 8 = leBytes 8 (Tab.get 0 ((s'.tile t).arr ma).cnt i))
        ∧ (∀ i, i < 3 → Tab.get 0 ((s'.tile t).arr ma).cnt i = Tab.get 0 a.cnt i)
        ∧ ∀ b, b < fld w 0 14 ∨ fld w 0 14 + 64 ≤ b → (s'.tile t).seq.dmem.rd b = q0.seq.dmem.rd b))
    ∧ (e.code = 0x10 → completes (fun s' => (s'.tile t).spad = q0.spad))
    ∧ (e.code = 0x11 → a.bell.sets.length ≤ 1 →
        completes (fun s' => let b' := ((s'.tile t).arr ma).bell
          b'.sets.length = a.bell.sets.length + 1 ∧ b'.latest.words = bellMerge a.bell.latest.words e.words
          ∧ b'.latest.adv = none ∧ (b'.latest.loaded = true ↔ e.words.length = 1 ∧ a.bell.latest.loaded = true)))

/-- R157, R164, R165, R170: a Bell loads the vectors of its settings set once their slots may be read. An accepted `BELL_STORE`
of an array writes row j, converted element by element, at `4096 · d + j · pitch + 32 · OFF` when the slots may be written
(here: `RAW` slots), invalidating the accumulator rows where it clears; nothing outside the row's bytes changes. When all
rows have been written, the store completes. -/
def Obligations.BellStoresRows : Prop :=
  ∀ (s : State) (t : Nat), s.works t = true →
    let q0 := s.tile t
    (∀ eng x, eng < 3 → (q0.bellOf eng).sets = [x] → x.loaded = false → (vectorSlots (bellP x.words)).all q0.spad.canRead = true →
      ∃ s', exec (.bellVectorLoad t eng) s = .next s' ∧ ((s'.tile t).bellOf eng).sets = [x.load q0.spad.mem]
        ∧ (s'.tile t).spad = q0.spad ∧ (s'.tile t).seq = q0.seq)
    ∧ ∀ ma e rest id d cnt, let q := acceptDue ma q0; let a := q.arr ma
      a.q = e :: rest → e.code = 0x12 → e.taken = true → e.store = some (id, d, cnt) → e.stored = false →
      let b := bellStoreP e.words
      let set := a.bell.setOf id
      let p := bellP set.words
      let j := e.bellRows
      (j < b.rows → set.loaded = true → (∀ i, i ∈ slotsOf (rowByte p b.nOut d j) (rowLen p b.nOut) → (q0.spad.slot i).tag = .raw) →
        ∃ s', exec (.bellRowRead t (arrEng ma)) s = .next s' ∧
          let q' := s'.tile t
          q'.spad.mem.rdBytes (rowByte p b.nOut d j) (rowLen p b.nOut)
            = leBytes (rowLen p b.nOut) (packBits p.fmt.width ((List.range b.nOut).map (fun n =>
                (bellElem p set e.seed (arrEng ma) cnt j n (accSource a (b.first + b.w * j) n).1).bits)))
          ∧ (∀ x, x < rowByte p b.nOut d j ∨ rowByte p b.nOut d j + rowLen p b.nOut ≤ x → q'.spad.mem.rd x = q0.spad.mem.rd x)
          ∧ (∀ i, q'.spad.slot i = q0.spad.slot i)
          ∧ (q'.arr ma).q = { e with bellRows := j + 1, waiting := false } :: rest
          ∧ (∀ r, Tab.get none (q'.arr ma).acc r =
              if b.clr = true ∧ b.first + b.w * j ≤ r ∧ r < b.first + b.w * j + b.w then none else Tab.get none a.acc r)
          ∧ q'.seq.dmem = q0.seq.dmem ∧ q'.seq.regs = q0.seq.regs)
      ∧ (j = b.rows → (q0.arr ma).q = e :: rest →
        ∃ s', exec (.bellStoreComplete t (arrEng ma)) s = .next s' ∧ ((s'.tile t).arr ma).q = { e with stored := true } :: rest
          ∧ (s'.tile t).spad = q0.spad ∧ ((s'.tile t).arr ma).acc = (q0.arr ma).acc)

/-! ### The vector engine (spec/07_vector_engine.md) -/

/-- R179, R181, R183, R184, R190: the oldest instruction of the vector engine, in FP32 mode (P = 0, S = 0), completes: lane i of
vd becomes its function of lane i of the operands for i below VL, each operand read with subnormals as zero and the exact
result rounded once; the other lanes of vd, the other rows, the tile buffers and the scratchpad stay.
R177, R178, R185, R187, R250: `VSETVL` sets VL; `VTW` and `VTR` move a row to and from a tile buffer; `VLD` fills the active
lanes from the scratchpad once its slots may be read, whether it completes at once or is granted the tag that it waits for;
while a slot may not be read, it waits; `VACC` reads an accumulator row, which becomes invalid where it clears; `VWAIT` and
`VPOST` leave the queue. -/
def Obligations.VectorInstructionsComplete : Prop :=
  (
    ∀ (s : State) (t : Nat) (e : QEntry) (rest : List QEntry), s.works t = true →
      let q := s.tile t
      let v := vecArgs e.enc
      q.vec.q = e :: rest → e.taken = true → e.vl ≤ 128 → vP v = false → vS v = false →
      (∀ k, e.post = some k → q.token k < 65535) →
      let lane := fun (r : BitVec 3) (i : Nat) => laneOf (q.vec.row r) i
      let x := fun (r : BitVec 3) (i : Nat) => (fp32Read (lane r i)).1
      let writes := fun (code n : Nat) (f : Nat → Word) => e.code = code →
        ∃ s', exec (.commandComplete t 2 0) s = .next s' ∧ (s'.tile t).vec.q = rest
          ∧ (∀ i, i < 128 → laneOf ((s'.tile t).vec.row v.vd) i = if i < n then f i else lane v.vd i)
          ∧ (∀ r, r ≠ v.vd → (s'.tile t).vec.row r = q.vec.row r) ∧ (s'.tile t).vec.t = q.vec.t
          ∧ (s'.tile t).spad = q.spad ∧ (s'.tile t).seq.dmem = q.seq.dmem ∧ (s'.tile t).seq.regs = q.seq.regs
      let vl := e.vl
      writes 0x10 vl (fun i => fp32Flush ((x v.va i).add (x v.vb i)))
      ∧ writes 0x11 vl (fun i => fp32Flush ((x v.va i).add (x v.vb i).negate))
      ∧ writes 0x12 vl (fun i => fp32Flush ((x v.va i).mul (x v.vb i)))
      ∧ writes 0x13 vl (fun i => fp32Flush (((x v.va i).mul (x v.vb i)).add (x v.vd i)))
      ∧ writes 0x14 vl (fun i => fp32Keep (if x v.va i = .nan ∨ x v.vb i = .nan then .nan
          else if ordLt (x v.va i) (x v.vb i) then x v.vb i else x v.va i))
      ∧ writes 0x15 vl (fun i => fp32Keep (if x v.va i = .nan ∨ x v.vb i = .nan then .nan
          else if ordLt (x v.vb i) (x v.va i) then x v.vb i else x v.va i))
      ∧ writes 0x16 vl (fun i => lane v.va i &&& 0x7FFFFFFF)
      ∧ writes 0x17 vl (fun i => lane v.va i ^^^ 0x80000000)
      ∧ writes 0x18 vl (fun i => if vcmpHolds (v.modv.toNat % 8) (x v.va i) (x v.vb i) then 0x3F800000 else 0)
      ∧ writes 0x19 vl (fun i => fp32Keep (if (x v.vd i).isZero then x v.vb i else x v.va i))
      ∧ writes 0x0D 128 (fun i => lane v.va i)
      ∧ writes 0x0E 128 (fun _ => wordAt e.words 0)
      ∧ writes 0x0F vl (fun i => fp32Keep (.fin false (.ofInt i)))
      ∧ (bitAt e.cfg 0 = false → writes 0x30 vl (fun i => match permIndex vl (lane v.vb i) with
          | some k => lane v.va k
          | none => 0)))
  ∧ (
    ∀ (s : State) (t : Nat) (e : QEntry) (rest : List QEntry), s.works t = true →
      let q := s.tile t
      let v := vecArgs e.enc
      let w := wordAt e.words 0
      q.vec.q = e :: rest → e.taken = true → e.vl ≤ 128 → (∀ k, e.post = some k → q.token k < 65535) →
      let does := fun (c : Instr) (f : Tile → Prop) => ∃ s', exec c s = .next s' ∧ (s'.tile t).vec.q = rest ∧ f (s'.tile t)
      let ends := fun (code : Nat) (f : Tile → Prop) => e.code = code → does (.commandComplete t 2 0) f
      ends 0x01 (fun q' => q'.vec.vl = e.vl ∧ q'.vec.v = q.vec.v ∧ q'.vec.t = q.vec.t)
      ∧ ends 0x04 (fun q' => q'.vec.v = q.vec.v ∧ q'.vec.t = q.vec.t)
      ∧ ends 0x05 (fun q' => q'.vec.v = q.vec.v ∧ q'.vec.t = q.vec.t ∧ ∀ k, e.post = some k → q'.token k = q.token k + 1)
      ∧ ends 0x0B (fun q' => q'.vec.row v.vd = q.vec.tileRow v.va.toNat (fld w 0 7) ∧ q'.vec.t = q.vec.t)
      ∧ ends 0x0C (fun q' => q'.vec.tileRow v.vd.toNat (fld w 0 7) = q.vec.row v.va
          ∧ (∀ k, k ≠ 128 * v.vd.toNat + fld w 0 7 → Tab.get none q'.vec.t k = Tab.get none q.vec.t k) ∧ q'.vec.v = q.vec.v)
      ∧ ends 0x09 (fun q' =>
          let ma := v.modv.getLsbD 0
          (∀ i, i < 128 → laneOf (q'.vec.row v.vd) i = match Tab.get none (q.arr ma).acc (fld w 0 11) with
            | some row => fp32Keep (prepareAcc row.isInt (Tab.get 0 row.bits i)).1
            | none => 0)
          ∧ ∀ r, Tab.get none (q'.arr ma).acc r =
              if v.modv.getLsbD 1 = true ∧ r = fld w 0 11 then none else Tab.get none (q.arr ma).acc r)
      ∧ ∀ f, e.code = 0x08 → vldFmt v = some f →
          let a := fld w 0 24
          let loads := fun (q' : Tile) =>
            (∀ i, i < 128 → laneOf (q'.vec.row v.vd) i =
              if i < e.vl then vldLane q.spad.mem a f (v.modv.getLsbD 5) (vP v) i else laneOf (q.vec.row v.vd) i)
            ∧ q'.spad = if v.modv.getLsbD 6 then q.spad.release (a / 4096) else q.spad
          (q.spad.canReadRange a (vldBytes f (vP v) e.vl) = true →
            does (.commandComplete t 2 0) loads ∧ (e.waiting = true → does (.tagWaitGrant t 2 0) loads))
          ∧ (q.spad.canReadRange a (vldBytes f (vP v) e.vl) = false →
            ∃ s', exec (.commandComplete t 2 0) s = .next s' ∧ (s'.tile t).vec.q = { e with waiting := true } :: rest
              ∧ (s'.tile t).spad = q.spad ∧ (s'.tile t).vec.v = q.vec.v))

/-! ### The row engine (spec/08_row_engine_and_reed.md) -/

/-- R207, R210, R216, R217: the oldest command of the row engine completes. `R_INVAL` clears the valid bit of its entries and
leaves their contents and every other entry alone. `R_SPILL` into `RAW` slots writes the image: statistics of 8 B each from its
first slot, tag words of 2 B each from the first slot after them. `R_FILL` gives each of its entries the statistics, key and
valid bit of the image. -/
def Obligations.ReedSpillFillInvalidate : Prop :=
  ∀ (s : State) (t : Nat) (e : QEntry) (rest : List QEntry), s.works t = true →
    let q := s.tile t
    let w := wordAt e.words 0
    let p := spillP e.words
    q.row.q = e :: rest → e.taken = true → (∀ k, e.post = some k → q.token k < 65535) →
    let ends := fun (code : Nat) (f : Tile → Prop) => e.code = code →
      ∃ s', exec (.commandComplete t 3 0) s = .next s' ∧ (s'.tile t).row.q = rest ∧ f (s'.tile t)
    ends 0x05 (fun q' => ∀ k, q'.row.ent k =
        if fld w 0 12 ≤ k ∧ k ≤ fld w 0 12 + fld w 12 12 then { q.row.ent k with valid := false } else q.row.ent k)
    ∧ ((∀ i, i < imageSlots p.n → (q.spad.slot (p.slot + i)).tag = .raw) →
        ends 0x03 (fun q' =>
          q'.spad.mem.rdBytes (4096 * p.slot) (8 * p.n) = (List.range p.n).flatMap (fun i =>
            leBytes 4 (q.row.ent (p.first + i)).stat0.toNat ++ leBytes 4 (q.row.ent (p.first + i)).stat1.toNat)
          ∧ q'.spad.mem.rdBytes (4096 * (p.slot + statSlots p.n)) (2 * p.n) = (List.range p.n).flatMap (fun i =>
            leBytes 2 ((q.row.ent (p.first + i)).key % 2 ^ 15 + bit1 (q.row.ent (p.first + i)).valid * 2 ^ 15))
          ∧ (∀ i, q'.spad.slot i = q.spad.slot i)))
    ∧ ((∀ i, i < imageSlots p.n → q.spad.canRead (p.slot + i) = true) →
        ends 0x04 (fun q' => ∀ k, q'.row.ent k =
          if p.first ≤ k ∧ k < p.first + p.n then
            let at0 := 4096 * p.slot + 8 * (k - p.first)
            let tag := q.spad.mem.rdLE (4096 * (p.slot + statSlots p.n) + 2 * (k - p.first)) 2
            { stat0 := BitVec.ofNat 32 (q.spad.mem.rdLE at0 4), stat1 := BitVec.ofNat 32 (q.spad.mem.rdLE (at0 + 4) 4)
              key := tag % 2 ^ 15, valid := tag.testBit 15, mine := true }
          else q.row.ent k))

/-! ### Scratchpads, credits and the core DMA (spec/10_scratchpad_tags_and_dma.md) -/

/-- R274, R279, R280: the oldest core DMA command is a `DM_DMEM` from the scratchpad that has its token and has not started, and
nothing else of the queue is in flight. With its source slots readable, its completion puts the bytes into data memory,
releases the source slots where it asked for that, and takes the command out of the queue; no other byte changes. A core that
has been told to yield returns its credits with its last transfer (R262): there the premise is that it holds none. -/
def Obligations.DmaCopiesToDataMemory : Prop :=
  ∀ (s : State) (t : Nat) (e : QEntry) (rest : List QEntry), s.works t = true →
    let q := s.tile t
    let a := (wordAt e.words 1).toNat
    let b := (wordAt e.words 2).toNat
    let n := (wordAt e.words 3).toNat
    q.dma.q = e :: rest → e.code = 0x05 → e.taken = true → bitAt (wordAt e.words 0) 0 = false →
    e.inFlight = false → e.bellRows = 0 → e.strRows = 0 → e.owed = 0 → e.loadRows = 0 → e.ans = 0 → e.tgt = 127 →
    (∀ x ∈ rest, x.inFlight = false) → q.spad.canReadRange b n = true → (∀ k, e.post = some k → q.token k < 65535) →
    q.seq.phase = .running ∨ q.dma.handles = [] →
    ∃ s', exec (.dmaTransferComplete t 0) s = .next s' ∧
      let q' := s'.tile t
      q'.dma.q = rest ∧ q'.seq.dmem.rdBytes a n = q.spad.mem.rdBytes b n
      ∧ (∀ x, x < a ∨ a + n ≤ x → q'.seq.dmem.rd x = q.seq.dmem.rd x)
      ∧ q'.spad.mem = q.spad.mem ∧ (bitAt (wordAt e.words 0) 1 = false → q'.spad = q.spad) ∧ q'.seq.regs = q.seq.regs

/-- R248, R258, R278: the oldest core DMA command completes. A slot-tag command on slots that are not granted changes the tag of
every slot of its run by the table of R278 and no other slot; `RX_OPEN` of a free window number whose slots lie in no open
window opens it with the grant pointer at its first slot.
R259, R260: the only request waiting at the allocator of tile t comes from the core DMA of another tile u of this die. With
its window open, its count within the window, the tile's scratchpad owned by its job and the next slots EMPTY and not granted,
the slots are granted in order from the grant pointer, the pointer moves on, and the requester's handle holds the grant and its
`CREDIT_REQ` is answered. When no such window has opened in 100 µs, the request is refused with `NO_CREDIT`. -/
def Obligations.SlotTagsAndCredits : Prop :=
  (
    ∀ (s : State) (t : Nat) (e : QEntry) (rest : List QEntry), s.works t = true →
      let q := s.tile t
      let w := wordAt e.words 0
      q.dma.q = e :: rest → e.taken = true → (∀ k, e.post = some k → q.token k < 65535) →
      let ends := fun (f : Tile → Prop) =>
        ∃ s', exec (.commandComplete t 4 0) s = .next s' ∧ (s'.tile t).dma.q = rest ∧ f (s'.tile t)
      let first := fld w 0 12
      let count := fld w 12 12 + 1
      (e.code = 0x0C → (∀ g ∈ q.dma.granted, g.slot < first ∨ first + count ≤ g.slot) →
        ends (fun q' => q'.spad.mem = q.spad.mem ∧ ∀ i,
          let sl := q.spad.slot i
          q'.spad.slot i =
            if i < first ∨ first + count ≤ i then sl
            else match fld w 24 3, sl.tag with
              | 0, .full => { sl with tag := .empty }
              | 1, .empty => ⟨.full, 0, 0⟩
              | 2, .empty => ⟨.raw, 0, 0⟩
              | 2, .full => ⟨.raw, 0, 0⟩
              | 3, .raw => { sl with tag := .empty }
              | 4, .raw => { sl with tag := .full }
              | _, _ => sl))
      ∧ (e.code = 0x0A → q.dma.windows = [] →
          ends (fun q' => Tab.get none q'.dma.windows (fld w 0 4) = some ⟨fld w 4 12, fld w 16 12 + 1, fld w 4 12⟩
            ∧ q'.spad = q.spad ∧ q'.dma.granted = q.dma.granted)))
  ∧ (
    ∀ (s : State) (t u window : Nat) (r : CredReq) (e : QEntry), t < 72 → u < 72 → u ≠ t → window < 16 → s.coresRun = true →
      let q := s.tile t
      q.dma.reqs = [r] → r.window = window → r.port = none → r.who.stop = u →
      (s.tile u).dma.q = [e] → e.code = 8 → e.inFlight = true → e.ans = 0 → e.uid = r.uid →
      (∀ w : Window, q.spad.owner = some r.job → Tab.get none q.dma.windows window = some w → r.count ≤ w.count →
        (∀ i, i < r.count → let k := w.first + (w.ptr - w.first + i) % w.count
          (q.spad.slot k).tag = .empty ∧ ∀ g ∈ q.dma.granted, g.slot ≠ k) →
        ∃ s', exec (.creditAllocGrant t window) s = .next s' ∧ (s'.tile t).dma.reqs = []
          ∧ (s'.tile t).dma.granted = q.dma.granted ++ (List.range r.count).map (fun i =>
              ⟨w.first + (w.ptr - w.first + i) % w.count, window, r.who, i⟩)
          ∧ Tab.get none (s'.tile t).dma.windows window
              = some { w with ptr := w.first + (w.ptr - w.first + r.count) % w.count }
          ∧ (∃ g, Tab.get none (s'.tile u).dma.handles r.who.handle = some g ∧ g.die = s.pos ∧ g.tile = t ∧ g.window = window
              ∧ g.count = r.count ∧ g.revoked = false)
          ∧ (s'.tile u).dma.q = [{ e with ans := 1, tgt := t, owed := 0 }])
      ∧ (Tab.get none q.dma.windows window = none → r.since + 10 ^ 5 ≤ s.now →
        ∃ s', exec (.creditWaitTimeout t window) s = .next s' ∧ (s'.tile t).dma.reqs = []
          ∧ (s'.tile u).dma.q = [{ e with ans := 2, tgt := 127, owed := 0 }]
          ∧ (s'.tile u).dma.handles = (s.tile u).dma.handles))

/-- R226, R227, R229, R230: the oldest core DMA command is a stash write that may start. Its allocation request finds the
control block and its entry at hand (`need`), the entry neither `PRESENT` nor `WRITING`, no overflow, and room below `HWM`: the
record is placed at `HEAD` (past a pad where it would cross the region's end). When every write of the record has been
acknowledged, a directory entry that is homed on this die, in one granule, takes `STATE` = `PRESENT` and the descriptor's
`SEQ`; no other byte of package memory changes, and the command is done. -/
def Obligations.StashRecordBecomesPresent : Prop :=
  ∀ (s : State) (t : Nat) (e : QEntry) (rest : List QEntry), s.works t = true →
    let q := s.tile t
    let g := s.agentOf t
    let ag := stashAgent t
    q.dma.q = e :: rest → e.code = 0x06 →
    (∀ s1 s2 : State,
     let w := wordAt e.words 0
     let a := s.scbAddr q.seq.job
     let c := s1.scb ag a
     let x := s2.stashEnt ag (c.ent (fld w 0 20))
     let alloc := roundUp (stashTotal (wordAt e.words 1).toNat (wordAt e.words 3).toNat) 4096
     let at0 := if c.size < c.head % c.size + alloc then (c.head / c.size + 1) * c.size else c.head
     (e.inFlight = true ∨ dmaMayStart q.dma.q 0 e = true) → e.store = none → e.stored = false → a ≠ 0 → fld w 0 20 < c.entries →
     s.need g ag true a 64 = (s1, .ok ()) → s1.need g ag true (c.ent (fld w 0 20)) 32 = (s2, .ok ()) →
     x.state ≠ 1 → x.state ≠ 2 → c.ovf = false → at0 + alloc - c.tail ≤ c.hwm →
     ∃ s', exec (.stashAlloc t 0) s = .next s' ∧ (s'.tile t).dma.q =
       { e with inFlight := true, store := some (c.base + at0 % c.size, alloc, c.ent (fld w 0 20)), waiting := false, bellRows := 1 } :: rest)
    ∧ (∀ rec alloc ent i o s1, e.store = some (rec, alloc, ent) → e.stored = false → e.strRows ≠ 0 → e.loadRows = 0 → e.ans < 2 →
      s.need g ag true ent 32 = (s1, .ok ()) → s1.kw.objs = [(i, some o)] → s1.rdc.sharers = [] → s1.rdc.invs = [] →
      (∀ k, k < 4 → s1.isHome (ent + 8 * k) = true) → ent % granuleBytes + 32 ≤ granuleBytes →
      let x := s1.stashEnt ag ent
      ∃ s', exec (.stashPresent t 0) s = .next s' ∧ (s'.tile t).dma.q = { e with stored := true } :: rest
        ∧ s'.mem.rdBytes ent 32 = leBytes 8 (2 + x.kind * 4 + x.fmt * 16 + x.data % 2 ^ 32 * 2 ^ 32) ++ leBytes 8 x.recOff
            ++ leBytes 8 (x.scale % 2 ^ 32 + x.alloc % 2 ^ 32 * 2 ^ 32) ++ leBytes 8 (q.seq.seqNo % 2 ^ 32)
        ∧ ∀ b, b < ent ∨ ent + 32 ≤ b → s'.mem.rd b = s1.mem.rd b)

/-! ### Synchronisation (spec/11_synchronisation.md) -/

/-- R286, R289, R290, R292: a `SY_OP` of another die reaches an object that is homed here, on which nothing waits and no `SY_INIT` is
under way. On a `LIVE`
object of its job, a signal changes the value by its operation; a wait that is satisfied is answered with the value and, with
`TAKE`, clears its mask bits; one that is not joins the waiters; a read is answered with the value; `SY_FREE` makes the object
`FREE`. An operation of another job is answered as refused and changes no object.
R292, R293, R294: the oldest sync command of a tile is a `SY_WAIT` that has been sent. A result inside the die or on a port that
comes within its window ends it, as does the end of the window: `SATISFIED` writes outcome 0 and the value when `RES_EN` is set; an unsatisfied outcome of a `SOFT`
wait writes that outcome and 0; the outcome `ABANDONED` of a wait that is not `SOFT` stops the program. -/
def Obligations.SyncOperationsAndResults : Prop :=
  (
    ∀ (s : State) (p : Nat) (k0 : Packet) (r : SyncReq),
      let k := asType k0 3 0
      let w := wordAt r.words
      let i := (w 0).toNat % 65536
      let o := s.obj i
      let v := (w 1).toNat
      let result := fun (oc x : Nat) => s.answerTo p k (withData (s.packet 1 9 k.srcDie 122) (resultBytes oc x))
      let ends := fun (o' : SyncObj) (x : Nat) =>
        ∃ s', exec (.syOp p k0 r) s = .next s' ∧ s'.obj i = o' ∧ s'.sync.bars = s.sync.bars ∧ s'.holds p (result 0 x)
      s.accepts p k = true → (w 0).toNat / 65536 = s.pos → Tab.get none s.sync.inits (w 0).toNat = none → o.waiters = [] →
      (o.st = 1 → o.job = k.job →
        (r.code = 2 → o.typ = 0 → fld (w 2) 0 2 = 0 → ends { o with value := min (o.value + v) (2 ^ 32 - 1) } 0)
        ∧ (r.code = 2 → o.typ = 0 → fld (w 2) 0 2 = 2 → ends { o with value := v } 0)
        ∧ (r.code = 2 → o.typ = 1 → fld (w 2) 0 2 = 0 → ends { o with value := o.value ||| v } 0)
        ∧ (r.code = 2 → o.typ = 1 → fld (w 2) 0 2 = 1 → ends { o with value := clearBits o.value v } 0)
        ∧ (r.code = 3 → o.typ = 0 → (if v = 0 then o.target else v) ≤ o.value → ends o o.value)
        ∧ (r.code = 3 → o.typ = 1 → v ≠ 0 → bitAt (w 2) 1 = false → o.value &&& v = v → bitAt (w 2) 2 = true →
            ends { o with value := clearBits o.value v } o.value)
        ∧ (r.code = 3 → o.typ = 0 → o.value < (if v = 0 then o.target else v) →
            ∃ s', exec (.syOp p k0 r) s = .next s' ∧ s'.sync.bars = s.sync.bars ∧ s'.obj i = { o with
              waiters := [⟨.remote k.srcDie p k.tag k.job, v, bitAt (w 2) 1, bitAt (w 2) 2⟩] })
        ∧ (r.code = 6 → o.typ ≠ 2 → ends o o.value)
        ∧ (r.code = 5 → s.bar (w 0).toNat = none → ends SyncObj.init 0))
      ∧ (o.st ≠ 0 → o.job ≠ k.job → r.code < 7 →
        ∃ s', exec (.syOp p k0 r) s = .next s' ∧ s'.sync = s.sync ∧ s'.holds p (result 5 0)))
  ∧ (
    ∀ (s : State) (t : Nat) (e : QEntry) (rest : List QEntry), s.works t = true →
      let q := s.tile t
      let w := wordAt e.words
      let a := fld (w 3) 0 14
      q.sync.q = e :: rest → e.inFlight = true → e.code = 3 → bitAt (w 2) 2 = false → (∀ k, e.post = some k → q.token k < 65535) →
      let ends := fun (c : Instr) (oc v : Nat) =>
        ∃ s', exec c s = .next s' ∧ (s'.tile t).sync.q = rest ∧ (s'.tile t).seq.phase = q.seq.phase ∧
          if bitAt (w 3) 14 then
            (s'.tile t).seq.dmem.rdLE a 4 = oc ∧ (s'.tile t).seq.dmem.rdLE (a + 4) 4 = v
            ∧ ∀ x, x < a ∨ a + 8 ≤ x → (s'.tile t).seq.dmem.rd x = q.seq.dmem.rd x
          else (s'.tile t).seq.dmem = q.seq.dmem
      (∀ (k : Packet) (i v : Nat), q.syncLate e s.now = false → s.sync.results[i]? = some ⟨.tile t, 0, v⟩ → v < 2 ^ 32 → ends (.syResult none k i) 0 v)
      ∧ (∀ (k : Packet) (i v : Nat), q.syncLate e s.now = false → s.sync.results[i]? = some ⟨.tile t, 2, v⟩ →
          (bitAt (w 2) 0 = true → ends (.syResult none k i) 2 0)
          ∧ (bitAt (w 2) 0 = false → ∃ s', exec (.syResult none k i) s = .next s'
              ∧ (s'.tile t).stoppedBy (q.onQueue 5 (fun _ => rest)) 0x10 0 ∧ s.givesOutcome s' t (statusOf 0x10) 0x10))
      ∧ (∀ (p i v : Nat) (k0 : Packet) (o : OpenTx), let k := asType k0 1 9
          q.syncLate e s.now = false → s.accepts p k = true → s.tx k.tag = some o → o.tile = t → o.pkt.cls = 3 → pktLE k 0 4 = 0 → pktLE k 4 4 = v →
          v < 2 ^ 32 → ends (.syResult (some p) k0 i) 0 v)
      ∧ (q.syncLate e s.now = true → bitAt (w 2) 0 = true → ends (.syWaitTimeout t) 1 0))

/-- R298, R299: a `BAR_REPORT` of a die in the mask for its next round, at the leader and while another die has not reported its
oldest round, is counted and closes nothing. A `BAR_RELEASE` of the oldest open round, at another die, raises the round by one
modulo 2^32, lowers by one how far each participant is ahead, and releases the arrivals that wait for that round. -/
def Obligations.BarrierRounds : Prop :=
  ∀ (s : State) (p id round : Nat) (b : Barrier) (k0 : Packet), s.bar id = some b → b.st = 1 →
    (let k := asType k0 3 1
     ∀ d, s.accepts p k = true → s.leader = s.pos → b.dieMask.testBit k.srcDie = true → b.dieWide = false →
       b.roundAt (Tab.get 0 b.reports k.srcDie) = round →
       d < 8 → d ≠ k.srcDie → d ≠ s.pos → b.dieMask.testBit d = true → Tab.get 0 b.reports d = 0 →
       ∃ s', exec (.barReport p k0 id round) s = .next s' ∧ s'.sync.results = s.sync.results
         ∧ s'.bar id = some { b with reports := Tab.mod 0 b.reports k.srcDie (· + 1) })
    ∧ (let k := asType k0 3 2
       ∀ t c, s.accepts p k = true → s.leader ≠ s.pos → b.round = round → b.dieWide = false → b.parts ≠ [] →
         b.waits = [⟨.tile t, c, some round, true⟩] → (∀ x ∈ b.ahead, x.2 ≤ 1) →
         ∃ s' b', exec (.barRelease p k0 id round) s = .next s' ∧ s'.bar id = some b' ∧ b'.round = (round + 1) % 2 ^ 32
           ∧ (∀ x, b'.next x = 0) ∧ b'.waits = [] ∧ b'.coreMask = b.coreMask
           ∧ s'.sync.results = s.sync.results ++ [⟨.tile t, 0, round⟩])

/-- R306, R307: the selected object is homed here. `READ` puts the state word or the value into `VALUE`; `WRITE` gives a `LIVE` counter
on which nothing waits the value; `RELEASE` of a counter releases its waiters with the chosen outcome; `CLOSE` closes the oldest open
round of a die-wide barrier; `FREE` makes the object `FREE`. A command that does not fit its object sets `ERR`. -/
def Obligations.DebuggerOverridesObjects : Prop :=
  ∀ (s : State), let i := s.dbgIdx
    let o := s.obj i
    let f := s.rfld 0x2800 16 4
    let v := (s.reg 0x2804).toNat
    let b := s.bar s.dbgId
    (f = 0 → o.st < 4 → o.typ < 4 → b = none →
      ∃ s', exec .syncDbgRead s = .next s' ∧ s'.sync = s.sync ∧
        s'.reg 0x2804 = BitVec.ofNat 32 (o.typ + o.st * 4 + o.job * 16 + o.owner * 65536 + (if o.waiters = [] then 0 else 2 ^ 31)))
    ∧ (f = 1 → o.st ≠ 0 → o.typ ≠ 2 → ∃ s', exec .syncDbgRead s = .next s' ∧ s'.sync = s.sync ∧ s'.reg 0x2804 = BitVec.ofNat 32 o.value)
    ∧ (f = 1 → o.st = 1 → o.typ ≠ 2 → o.waiters = [] →
      ∃ s', exec .syncDbgWrite s = .next s' ∧ s'.obj i = { o with value := v } ∧ s'.sync.results = s.sync.results)
    ∧ (o.st ≠ 1 → ∃ s', exec .syncDbgWrite s = .next s' ∧ s'.sync = s.sync ∧ s'.rfld 0x2800 30 1 = 1)
    ∧ (∀ t x a tk, o.st ≠ 0 → o.typ = 0 → v % 4 = 2 → o.waiters = [⟨.tile t, x, a, tk⟩] →
      ∃ s', exec .syncDbgRelease s = .next s' ∧ s'.obj i = { o with waiters := [] }
        ∧ s'.sync.results = s.sync.results ++ [⟨.tile t, 2, 0⟩])
    ∧ (∀ bb, b = some bb → o.st = 1 → o.typ = 2 → bb.st = 1 → bb.dieWide = true → bb.waits = [] → bb.parts ≠ [] →
        (∀ x ∈ bb.ahead, x.2 ≤ 1) →
      ∃ s' b', exec .syncDbgClose s = .next s' ∧ s'.bar s.dbgId = some b' ∧ b'.round = (bb.round + 1) % 2 ^ 32
        ∧ (∀ x, b'.next x = 0) ∧ s'.sync.objs = s.sync.objs)
    ∧ (o.st ≠ 0 → o.waiters = [] → b = none →
      ∃ s', exec .syncDbgFree s = .next s' ∧ s'.obj i = SyncObj.init ∧ s'.sync.results = s.sync.results)

/-! ### Descriptors (spec/12_rings_doorbells_descriptors.md) -/

/-- R322, R326, R327, R328: a stream that may fetch and whose ring entry is at hand (`qmNeed`) takes the next descriptor: a copy with its sixteen
words joins those held, the ring index and the next sequence number go on by one, and a descriptor that a check rejects has its
outcome decided. When the next descriptor of one stream only may start and it is ready, dispatch puts it in progress at this time. -/
def Obligations.DescriptorsAreFetchedAndStarted : Prop :=
  ∀ (s : State) (k : Nat) (x : Stream), s.stream k = some x →
    (∀ (r : Ring) (grp : BitVec 64) (s1 : State), s.mayFetch x k = true → Tab.get none s.qm.rings x.ring = some r →
      let a := r.base + 64 * x.head
      let ag := ringAgent k
      let m := Mem.wrBytes [] 0 (s1.rdPkg ag a 64)
      let ws := (List.range 16).map (fun i => BitVec.ofNat 32 (m.rdLE (4 * i) 4))
      let n := s.rejectReason x (Desc.fetched s.qm.nextUid k x.head ws) grp.toNat
      s.qmNeed ag x.job true a 64 = (s1, .ok ()) →
      ∃ s' d y, exec (.descFetch k grp) s = .next s' ∧ s'.qm.descs = s.qm.descs ++ [d] ∧ d.uid = s.qm.nextUid ∧ d.words = ws
        ∧ d.stream = k ∧ d.st = .fetched
        ∧ d.outcome = (if n = 0 then none else if n = 3 then some (stKilled, 0, 127) else some (stSecurity, 0, 127))
        ∧ s'.stream k = some y ∧ y.head = (x.head + 1) % 2 ^ r.log2 ∧ y.nextSeq = (x.nextSeq + 1) % 2 ^ 32)
    ∧ (∀ d, s.clocked = true → s.nextDesc k = some d → x.prio < 8 → s.ready d x.prio = .start → (∀ j, j ≠ k → s.nextDesc j = none) →
      ∃ s' d', exec .descDispatch s = .next s' ∧ d' ∈ s'.qm.descs ∧ d'.uid = d.uid ∧ d'.words = d.words ∧ d'.st = .running
        ∧ d'.startTs = s.now ∧ d'.outcome = d.outcome ∧ s'.tiles = s.tiles)

/-- R35, R305, R321, R324, R325: a descriptor in progress that is undecided and within its stream's time limit. `NOP` completes with `OK`, and so does `FENCE` once no
earlier descriptor of what it waits on is held. A `SYNC` performs its signal, satisfied wait or arrival at an object homed here.
A `COMPUTE` on one free mapped core hands the core its program, to be started. A `COPY` of one row between addresses that its job
may access and that are homed here, into one granule, copies the bytes.
R359, R360, R361, R372: a `PLACE` descriptor in progress that is undecided. A hint on an object of its job is recorded for the next
epoch boundary in place of an earlier one of its kind, and a hint on another job's object ends with `SECURITY` and records nothing.
`ACTIVATE` of a free entry whose fields and range are legal and for which there is room puts the object in use with its homes, its
bytes reading 0 where `INIT_SRC` is 0; `RELEASE` of an object on which no access is open and whose lines no cache holds makes it
`RELEASING`. Either is for job 0. Each ends with `OK`. -/
def Obligations.DescriptorsTakeTheirAction : Prop :=
  (
    ∀ (s : State) (uid : Nat) (d : Desc), s.desc uid = some d → s.inLimit d = true →
      let w := d.w 0x10
      let i := (d.w 0x14).toNat % 65536
      let o := s.obj i
      let v := (d.w 0x18).toNat
      let done := fun (c : Instr) => ∃ s', exec c s = .next s' ∧ s'.desc uid = some (d.concluded s stOK 0 127)
        ∧ s'.mem = s.mem ∧ s'.tiles = s.tiles
      let result := fun (c : Instr) (begun : Bool) (x : Nat) (f : State → Prop) => ∃ s', exec c s = .next s'
        ∧ s'.sync.results = s.sync.results ++ [⟨.desc uid, 0, x⟩] ∧ f s'
        ∧ ∃ d', s'.desc uid = some d' ∧ d'.acted = true ∧ d'.begun = begun ∧ d'.outcome = none
      (d.due 9 = true → done (.nopDesc uid))
      ∧ (d.due 4 = true → (∀ y ∈ s.qm.descs, y.uid < uid → y.stream ≠ d.stream ∧ (bitAt w 0 = true → y.job ≠ d.job)) →
          done (.fenceDesc uid))
      ∧ (d.due 3 = true → d.acted = false → (d.w 0x14).toNat / 65536 = s.pos → Tab.get none s.sync.inits (d.w 0x14).toNat = none → o.job = d.job →
        (fld w 0 2 = 0 → fld w 2 2 = 0 → o.st = 1 → o.typ = 0 → o.waiters = [] →
          result (.syncDescSignal uid) true 0 (fun s' => s'.obj i = { o with value := min (o.value + v) (2 ^ 32 - 1) }))
        ∧ (fld w 0 2 = 1 → o.st = 1 → o.typ = 0 → v ≠ 0 → v ≤ o.value →
          result (.syncDescWait uid) false o.value (fun s' => s'.obj i = o))
        ∧ (∀ (b : Barrier) (c c2 : Nat), fld w 0 2 = 2 → bitAt w 6 = false → o.st = 1 → o.typ = 2 →
          s.bar (d.w 0x14).toNat = some b → b.st = 1 → c = fld (d.w 0x1C) 0 6 → b.coreMask.testBit c = true → b.next c = 0 → c2 < 64 → c2 ≠ c →
          b.coreMask.testBit c2 = true → b.next c2 = 0 → b.dieMask.testBit s.pos = true →
          result (.syncDescArrive uid) true (b.round % 2 ^ 32) (fun s' =>
            s'.bar (d.w 0x14).toNat = some { b with ahead := Tab.mod 0 b.ahead c (· + 1) })))
      ∧ (∀ c t, d.due 1 = true → d.acted = false → s.clocked = true → d.cores = [c] → s.core c = ⟨t, .mapped⟩ →
          (s.tile t).isFree = true →
          ∃ s', exec (.compute uid) s = .next s' ∧ (s'.tile t).seq.phase = .starting ∧ (s'.tile t).seq.handle = (d.w 0x18).toNat
            ∧ (s'.tile t).seq.lcore = c ∧ (s'.tile t).seq.job = d.job ∧ (s'.tile t).seq.stream = d.stream
            ∧ (s'.tile t).seq.seqNo = d.seq ∧ (s'.tile t).seq.regs = (s.tile t).seq.regs)
      ∧ (∀ e, d.due 2 = true → s.clocked = true → d.xfer = some e → e.ans = 1 → e.asked = true → e.owed = 0 → e.strRows = 0 →
          e.tgt = 127 → fld w 0 2 = 0 → fld w 2 2 = 0 → fld (d.w 0x14) 0 16 = 0 →
          let n := (fld (d.w 0x14) 16 11 + 1) * 32
          let a := d.w64 0x18
          let b := d.w64 0x20
          s.access d.agent false a n = .ok () → s.access d.agent true b n = .ok () → s.isHome b = true →
          (∀ k, k < n → s.isHome (a + k) = true) → b % granuleBytes + n ≤ granuleBytes →
          ∃ s', exec (.copy uid) s = .next s' ∧ s'.mem = s.mem.wrBytes b (s.mem.rdBytes a n)))
  ∧ (
    ∀ (s : State) (uid : Nat) (d : Desc), s.desc uid = some d → d.due 5 = true → s.inLimit d = true →
      let h := (d.w 0x10).toNat
      let ended := fun (s' : State) (st : Nat) => s'.desc uid = some (({ d with begun := true, acted := true } : Desc).concluded s st 0 127)
      (∀ i o, s.handleObj h = some (i, o) →
        let hint := fun (c : Instr) (code x : Nat) => fld (d.w 0x14) 0 4 = code →
          (o.job = d.job → ∃ s', exec c s = .next s' ∧ ended s' stOK ∧ s'.mem = s.mem
            ∧ ∀ j, s'.object j = if j = i then some { o with hints := o.hints.filter (fun y => y.1 != code) ++ [(code, x)] }
                else s.object j)
          ∧ (o.job ≠ d.job → ∃ s', exec c s = .next s' ∧ ended s' stSecurity ∧ s'.kw = s.kw)
        hint (.near uid) 0 (fld (d.w 0x1C) 0 8) ∧ hint (.nearCore uid) 1 (fld (d.w 0x14) 4 6)
        ∧ hint (.spreadOver uid) 2 (d.w 0x18).toNat ∧ hint (.freeze uid) 3 0 ∧ hint (.thaw uid) 4 0)
      ∧ (∀ (ws : List Word) (hs : List Nat) (used : Tab Nat), fld (d.w 0x14) 0 4 = 8 → d.job = 0 →
        let e := objEntry ws
        let i := h % 2 ^ 20
        h / 2 ^ 20 = e.gen → i < s.objLimit → s.object i = none → e.clean = true → s.rangeOk e = true → e.initSrc = 0 →
        allocHomes (homeList e.pol e.mask (firstHomeDie e.mask s.pos) e.mask) s.kw.used 0 e.granules = some (hs, used) →
        ∃ s' o, exec (.activate uid ws) s = .next s' ∧ ended s' stOK ∧ s'.object i = some o ∧ o.st = .active ∧ o.gen = e.gen
          ∧ o.job = e.job ∧ o.exec = e.exec ∧ o.sharedRo = e.sharedRo ∧ o.granules = e.granules ∧ o.pbase = e.pbase ∧ o.homes = hs
          ∧ s'.kw.used = used ∧ (∀ j, j ≠ i → s'.object j = s.object j)
          ∧ ∀ a, s'.mem.rd a = if e.pbase ≤ a ∧ a < e.pbase + e.granules * granuleBytes then 0 else s.mem.rd a)
      ∧ (∀ i o, fld (d.w 0x14) 0 4 = 9 → d.job = 0 → d.acted = false → s.handleObj h = some (i, o) → o.st = .active → o.mig = none →
        s.activating (h % 2 ^ 20) = false → s.objBusy o = false → s.rdc.invs = [] → s.rdc.sharers = [] → s.rdc.lines = [] →
        ∃ s', exec (.release uid) s = .next s' ∧ ended s' stOK ∧ s'.object i = some { o with st := .releasing, hints := [], drained := true }
          ∧ s'.mem = s.mem ∧ ∀ j, j ≠ i → s'.object j = s.object j))

/-! ### Placement (spec/13_keywork_placement_and_remote_cache.md) -/

/-- R358, R361, R367, R368, R369, R372: an epoch boundary closes the counts of the object table's only object, applies its recorded
`FREEZE`, begins the switch of a copied migration with few dirty bytes, and, with `MIG_EN`, begins the migration of a `LOCAL` object toward a die
that qualifies often enough. A copy that ends is noted; a switch without open accesses gives the object its new homes; a released object becomes `FREE`
and its bytes read 0; a missing translation is asked of the owning die.
R256, R351, R355, R568, R569: an admission that ends well puts the spare in service behind the logical core with its stores
empty; one that ends badly leaves the spare `FAILED`, and the core `ABSENT` when no spare is left. The lowest `ABSENT` core gets the
first spare. At initialisation, once the ports have trained, the tiles that pass are mapped in order, those of the spare set
last. A read that waited for a moving core is answered once it is
mapped. A scrub empties the slots of a sealed core, which then has no owner. -/
def Obligations.KeyworkMovesAndAdmits : Prop :=
  (
    ∀ (s : State) (i : Nat) (o : Obj), s.object i = some o →
      (s.kw.objs = [(i, some o)] → s.kw.ready = true → s.now / s.epochNs ≠ s.kw.epoch → s.kw.pendCtrl = none → s.kw.pendPolicy = none →
        let closed : Obj := { o with traffic := [], shown :=
          (o.traffic.map (fun (e : Nat × Nat) => (e.1, min (e.2 / 4096) (2 ^ 32 - 1)))).filter (fun (e : Nat × Nat) => e.2 != 0) }
        let idle : Obj := { closed with qualify := [] }
        let at_ := fun (o' : Obj) => ∃ s', exec (.epochBoundary []) s = .next s' ∧ s'.kw.epoch = s.now / s.epochNs ∧ s'.object i = some o'
          ∧ s'.mem = s.mem
        (bitAt (s.reg 0x2400) 0 = false →
          (o.mig = none → o.hints = [] → at_ idle)
          ∧ (o.mig = none → o.hints = [(3, 0)] → at_ { idle with hints := [], frozen := true })
          ∧ (∀ m, o.mig = some m → o.hints = [] → m.copied = true → m.switching = false → m.dirty.length ≤ 1024 →
              at_ { idle with mig := some { m with switching := true } }))
        ∧ (∀ d hs used, bitAt (s.reg 0x2400) 0 = true → o.mig = none → o.hints = [] → o.st = .active → o.pol = 1 → o.frozen = false →
            o.hintDie = 0xFF → d < 8 → d ≠ o.homeDie → closed.qualifies (s.rfld 0x2414 8 7) d = true →
            (∀ x, x ≠ d → closed.qualifies (s.rfld 0x2414 8 7) x = false) →
            s.rfld 0x2414 16 3 ≤ Tab.get 0 o.qualify d + 1 → 1 ≤ s.rfld 0x2414 16 3 →
            allocHomes (dieStacks o.stackMask d) s.kw.used 0 o.granules = some (hs, used) →
            ∃ s' o', exec (.epochBoundary []) s = .next s' ∧ s'.object i = some o' ∧ o'.st = .migrating ∧ o'.homes = o.homes
              ∧ o'.mig = some { target := d, newHomes := hs, copied := false, switching := false, dirty := [], postponed := 0 }))
      ∧ (∀ m, o.mig = some m →
          (∃ s', exec (.migrationCopyDone i) s = .next s' ∧ s'.object i = some { o with mig := some { m with copied := true } }
            ∧ s'.mem = s.mem)
          ∧ (s.kw.objs = [(i, some o)] → m.switching = true → s.rdc.invs = [] → s.objOpen o = false → s.rdc.held = [] → m.target < 8 →
              ∃ s' o', exec (.migrationSwitchDone i) s = .next s' ∧ s'.object i = some o' ∧ o'.st = .active ∧ o'.homes = m.newHomes
                ∧ o'.homeDie = m.target ∧ o'.mig = none ∧ o'.qualify = [] ∧ o'.gen = o.gen ∧ o'.job = o.job
                ∧ o'.pbase = o.pbase ∧ o'.granules = o.granules))
      ∧ (s.kw.objs = [(i, some o)] → o.st = .releasing → o.drained = true → s.rdc.invs = [] →
          ∃ s', exec (.objFreed i) s = .next s' ∧ s'.object i = none ∧ s'.kw.used = freeHomes s.kw.used o.homes
            ∧ (s.qmOn = false → ∀ a, s'.mem.rd a =
                if o.pbase ≤ a ∧ a < o.pbase + o.granules * granuleBytes then 0 else s.mem.rd a))
      ∧ (∀ addr p, let g := addr / granuleBytes
          let a := g * granuleBytes
          isHostAddr a = false → ownerOf a ≠ s.pos → Tab.get none s.kw.xlate g = none → s.rdc.opens = [] →
          s.route (ownerOf a) 0 a none = some p →
          ∃ s' t, exec (.translationMiss addr) s = .next s' ∧ s'.tx s.rdc.nextTag = some t ∧ t.pkt.cls = 0 ∧ t.pkt.ptype = 3
            ∧ t.pkt.addr = a ∧ t.pkt.dstDie = ownerOf a ∧ t.port = p ∧ s'.mem = s.mem))
  ∧ (
    ∀ (s : State) (t : Nat), t < 72 →
      (∀ core old, core < 64 → s.kw.admitting = [(t, core, old)] → 
        (∃ s', exec (.spareAdmitted t true) s = .next s' ∧ s'.tileSt t = .inService ∧ s'.core core = ⟨t, .mapped⟩
          ∧ s'.tile t = Tile.init ∧ s'.kw.admitting = [] ∧ ∀ c, c ≠ core → s'.core c = s.core c)
        ∧ (s.spares = [] → s.tst.bistBusy = false → s.tileSt t ≠ .spare →
          ∃ s', exec (.spareAdmitted t false) s = .next s' ∧ s'.tileSt t = .failed ∧ (s'.core core).st = .absent ∧ s'.kw.admitting = []))
      ∧ (∀ core r, s.kw.ready = true → bitAt (s.reg 0x2400) 1 = true → s.lowestAbsent = some core → s.spares = t :: r →
          ∃ s', exec .absentAdmission s = .next s' ∧ s'.tileSt t = .admitting ∧ (s'.core core).st = .moving
            ∧ s'.kw.admitting = s.kw.admitting ++ [(t, core, 127)])
      ∧ (∀ pass, s.mgmt.stage = 9 → s.pkg.joined.isSome = true → s.kw.objLimit = 0 → s.portsTried = true →
          let ok := fun (x : Bool) => (List.range 72).filter (fun u => pass.testBit u && (s.mgmt.spareSet.testBit u == x))
          let plain := (ok false).take 64
          ∃ s', exec (.keyworkInit [] pass) s = .next s' ∧ s'.mgmt.stage = 10
            ∧ (pass.testBit t = false → s'.tileSt t = .failed)
            ∧ ∀ c, c < 64 → s'.core c = match (plain ++ (ok true).take (64 - plain.length))[c]? with
                | some u => ⟨u, .mapped⟩
                | none => ⟨127, .absent⟩)
      ∧ (∀ p k core, let a := bitsOf k.addr 0 24
          s.rdc.held = [(p, k)] → k.cls = 0 → k.ptype = 1 → k.aux % 2 = 0 → bitsOf k.addr 24 6 = core → s.core core = ⟨t, .mapped⟩ →
          (s.port p).st = .up → (s.tile t).spad.owner = some k.job → (s.tile t).spad.sealed = false →
          (s.tile t).spad.canReadRange a k.len = true →
          ∃ s', exec (.coreMapMovingResolve core) s = .next s' ∧ s'.rdc.held = [] ∧ s'.tiles = s.tiles
            ∧ s'.holds p (s.answerTo p k (withData (s.packet 1 0 k.srcDie t) ((s.tile t).spad.mem.rdBytes a k.len))))
      ∧ (s.coresRun = true → (s.tile t).spad.sealed = true → (s.tile t).spad.retain = none →
          ∃ s', exec (.muteScrubDone t true) s = .next s' ∧ (s'.tile t).spad = Spad.init ∧ (s'.tile t).row.reed = []
            ∧ (s'.tile t).ma0.acc = [] ∧ (s'.tile t).ma1.acc = [] ∧ (s'.tile t).vec.t = [] ∧ ∀ u, u ≠ t → s'.tile u = s.tile u))

/-! ### How descriptors and jobs end; doorbells (spec/12_rings_doorbells_descriptors.md) -/

/-- R335, R336: a decided descriptor with no member left to stop writes its record of 32 bytes to the tail of its stream's completion
ring, and is gone; the stream's totals and tail move on. R333: a pre-empted descriptor of one saved member whose frame is at
hand and whose CRC fits resumes on its core where the member stopped. R345: at the stream's limit a descriptor whose time counts and that is not decided ends with `KILLED`, cause 0x14. -/
def Obligations.DescriptorsEndAndResume : Prop :=
  ∀ (s : State) (uid : Nat) (d : Desc) (x : Stream), s.desc uid = some d → s.stream d.stream = some x →
    (d.st = .running → d.outcome = some (stOK, 0, 127) → d.replays = 0 → d.cores = [] → d.frees = [] → d.defer = [] → d.deferring = 0 →
      d.wantsEvent = false → x.halting = false → x.resetting = false → x.st = .active → bitAt (s.reg 0x2000) 0 = true → s.jobLive x.job = true →
      s.withdrawing uid = false → s.postedOpen x.job = false →
      (∃ y ∈ s.qm.descs, y.uid ≠ uid ∧ y.stream = d.stream) → (∀ y ∈ s.qm.descs, y.st ≠ .preempted) →
      let a := x.cplBase + 32 * x.cplTail
      let last := x.cplTail + 1 == 2 ^ x.cplLog2
      let c := fun (n : Nat) => min n (2 ^ 32 - 1)
      s.access { initReader with job := x.job } true a 32 = .ok () → s.isHome a = true → a % granuleBytes + 32 ≤ granuleBytes →
      ∃ s', exec (.descComplete uid) s = .next s' ∧ s'.desc uid = none
        ∧ s'.stream d.stream = some { x with
            satTotal := (x.satTotal + c d.sat) % 2 ^ 64, flushInTotal := (x.flushInTotal + c d.flushIn) % 2 ^ 64
            flushOutTotal := (x.flushOutTotal + c d.flushOut) % 2 ^ 64, done := (x.done + 1) % 2 ^ 64, lastTs := s.now
            cplTail := if last then 0 else x.cplTail + 1, lap := if last then x.lap + 1 else x.lap }
        ∧ s'.mem = s.mem.wrBytes a (leBytes 4 d.seq ++ leBytes 4 (bit1 (x.lap % 2 == 0) * 2 ^ 8 + d.stream * 2 ^ 16)
            ++ leBytes 4 (c d.sat) ++ leBytes 4 (c d.flushIn) ++ leBytes 4 (c d.flushOut) ++ leBytes 4 (127 * 2 ^ 8) ++ leBytes 8 s.now))
    ∧ (∀ c t f, d.st = .preempted → d.discarded = false → d.outcome = none → d.cores = [c] → s.core c = ⟨t, .mapped⟩ → s.coresRun = true →
        bitAt (s.reg 0x2000) 0 = true → s.ringRead x = true → s.pkg.holdover = false → s.occupant c uid = none → (s.tile t).isFree = true →
        s.wantedAbove x.prio [c] = false → x.halting = false → x.resetting = false → s.postedOpen d.job = false →
        Tab.get none s.qm.frames (64 * uid) = some f → f.spad = none → f.gone = false → f.tile.seq.phase = .saved →
        s.needMembers d x [(0, f)] = (s, .ok ()) → s.frameOk d x 0 = true → (s.tile t).spad.owner = some d.job →
        (s.tile t).spad.sealed = false → s.progReason d.job f.tile.seq.handle f.tile.seq.progLen = 0 →
        (s.tile t).seq.resident = some (f.tile.seq.handle, f.tile.seq.progLen) →
        ∃ s' d', exec (.descResume uid true) s = .next s' ∧ d' ∈ s'.qm.descs ∧ d'.uid = uid ∧ d'.st = .running ∧ d'.startTs = s.now
          ∧ (s'.tile t).seq.phase = .running ∧ (s'.tile t).seq.pc = f.tile.seq.pc ∧ (s'.tile t).seq.regs = f.tile.seq.regs
          ∧ (s'.tile t).seq.dmem = f.tile.seq.dmem ∧ (s'.tile t).seq.tokens = f.tile.seq.tokens
          ∧ (s'.tile t).ma0.acc = f.tile.ma0.acc ∧ (s'.tile t).ma1.acc = f.tile.ma1.acc ∧ (s'.tile t).vec = f.tile.vec)
    ∧ (x.timeout ≠ 0 → d.st = .running → d.timed = true → d.outcome = none → 10 ^ 6 * x.timeout ≤ s.elapsed d →
        ∃ s' d', exec (.streamTimeout uid) s = .next s' ∧ d' ∈ s'.qm.descs ∧ d'.uid = uid ∧ d'.outcome = some (stKilled, 0x14, 127))

/-- R218: a Reed transfer of a free core whose image lies in memory homed here. R341 to R343: `KILL_JOB` of a live job turns it
`KILLING` and seals every core that the job owns; `RESET_STREAM` leaves its stream in `RESET` with no descriptor; when nothing of a
killed job is left it is `KILLED`. -/
def Obligations.ReedTransfersAndKills : Prop :=
  ∀ (s : State) (uid : Nat) (d : Desc), s.desc uid = some d → s.clocked = true → s.inLimit d = true →
    let ended := fun (s' : State) => ∃ d' ∈ s'.qm.descs, d'.uid = uid ∧ d'.outcome = some (stOK, 0, 127)
    let k := d.reedRange.1
    let n := d.reedRange.2.1
    let a := d.reedRange.2.2.1
    let b := d.reedRange.2.2.2
    (∀ t c, d.cores = [c] → s.core c = ⟨t, .mapped⟩ → (s.tile t).isFree = true → (s.tile t).spad.sealed = false → d.xfer = none →
      (d.due 6 = true → (s.tile t).row.owner = some d.job → (∃ i o, s.kw.objs = [(i, some o)]) → s.rdc.sharers = [] → s.rdc.invs = [] →
        s.isHome a = true → s.isHome b = true → a % granuleBytes + 8 * n ≤ granuleBytes → b % granuleBytes + 2 * n ≤ granuleBytes →
        s.access d.reedAgent true a (8 * n) = .ok () → s.access d.reedAgent true b (2 * n) = .ok () →
        ∃ s', exec (.reedSpill uid) s = .next s' ∧ ended s'
          ∧ s'.mem = (s.mem.wrBytes a (reedImage (s.tile t).row k n).1).wrBytes b (reedImage (s.tile t).row k n).2)
      ∧ (d.due 7 = true → s.held a (8 * n) = false → s.held b (2 * n) = false → (∀ i, i < 8 * n → s.isHome (a + i) = true) → (∀ i, i < 2 * n → s.isHome (b + i) = true) →
        s.access d.reedAgent false a (8 * n) = .ok () → s.access d.reedAgent false b (2 * n) = .ok () →
        ∃ s', exec (.reedFill uid) s = .next s' ∧ ended s' ∧ s'.mem = s.mem
          ∧ s'.tile t = (s.tile t).fillReed d.job k n (s.mem.rdBytes a (8 * n) ++ s.mem.rdBytes b (2 * n))))
    ∧ (∀ j x, d.due 8 = true → fld (d.w 0x10) 0 2 = 0 → fld (d.w 0x14) 0 12 = j → (if d.job = 0 then j ≠ 0 else j = d.job) →
        Tab.get none s.qm.jobs j = some x → x.valid = true → x.st = .live → d.job ≠ j →
        ∃ s' x', exec (.killJob uid) s = .next s' ∧ Tab.get none s'.qm.jobs j = some x' ∧ x'.st = .killing ∧ x'.killStart = s.now
          ∧ ∀ t, (s.tile t).spad.owner = some j → (s'.tile t).spad.sealed = true)
    ∧ (∀ j st x, d.due 8 = true → fld (d.w 0x10) 0 2 = 1 → fld (d.w 0x14) 0 12 = j → fld (d.w 0x18) 0 14 = st →
        (if d.job = 0 then j ≠ 0 else j = d.job) → s.stream st = some x → x.valid = true → x.job = j → d.stream ≠ st →
        (∀ y ∈ s.descsOf st, y.started = false) →
        ∃ s' x', exec (.resetStream uid) s = .next s' ∧ ended s' ∧ s'.stream st = some x' ∧ x'.st = .reset ∧ s'.descsOf st = [])
    ∧ (∀ j x, Tab.get none s.qm.jobs j = some x → x.st = .killing → (∀ y ∈ s.qm.descs, s.jobOf y ≠ j) →
        (∀ i o, (i, some o) ∈ s.kw.objs → o.job ≠ j) → s.jobScrubbing j = false →
        ∃ s', exec (.jobKillDone j) s = .next s' ∧ Tab.get none s'.qm.jobs j = some { x with st := .killed, killTs := s.now })

/-- R318: a doorbell of a ring that is held and read, newer than the last and ahead of it, moves the ring's tail; one for an idle
stream with work makes it `ACTIVE`. R319: an event doorbell moves the event ring's head. R309: `QM_CTRL` keeps the bits it has. R314,
R340: a write-back and a notification store their bytes. -/
def Obligations.DoorbellsAndWriteBacks : Prop :=
  ∀ (s : State) (p : Nat) (k0 : Packet),
    (∀ r x j, let k := asType k0 2 2
      let v := leNat (k.data.take 8)
      let rid := bitsOf v 0 14
      let tail := bitsOf v 16 16
      let age := (bitsOf v 32 32 + 2 ^ 32 - r.lastTag) % 2 ^ 32
      s.accepts p k = true → s.role p = 3 → bitAt (s.reg 0x2000) 0 = true → s.bellWaits rid = false → k.addr ≤ 0x7F8 → k.addr % 8 = 0 → bitsOf v 14 2 = 0 →
      Tab.get none s.qm.rings rid = some r → r.read = true → r.valid = true → s.stream r.stream = some x → x.valid = true →
      x.ring = rid → r.log2 ≤ x.cplLog2 → Tab.get none s.qm.jobs x.job = some j → j.valid = true → j.st = .live →
      0 < age → age < 2 ^ 31 → tail < 2 ^ r.log2 →
      (r.tail % 2 ^ r.log2 + 2 ^ r.log2 - x.head % 2 ^ r.log2) % 2 ^ r.log2 ≤ (tail + 2 ^ r.log2 - x.head % 2 ^ r.log2) % 2 ^ r.log2 →
      ((x.st = .idle ∧ x.head ≠ tail) ∨ x.st = .active) → x.halting = false → x.resetting = false →
      (∀ y ∈ s.descsOf r.stream, y.st ≠ .preempted) → (x.st = .active → (s.descsOf r.stream ≠ [] ∨ x.head ≠ tail)) →
      ∃ s', exec (.doorbell p k0) s = .next s' ∧ s'.mem = s.mem
        ∧ Tab.get none s'.qm.rings rid = some { r with tail := tail, lastTag := bitsOf v 32 32 }
        ∧ s'.stream r.stream = some { x with st := .active })
    ∧ (let k : Packet := { asType k0 2 2 with addr := 0x800 }
       let h := leNat (k.data.take 8)
       let n := s.evSize
       s.accepts p k = true → s.role p = 3 → bitAt (s.reg 0x2000) 0 = true → h < n → n ≤ 2 ^ 16 →
       (h + n - s.qm.evHead) % n ≤ (s.qm.evTail + n - s.qm.evHead) % n →
       ∃ s', exec (.eventDoorbell p k0) s = .next s' ∧ s'.qm = { s.qm with evHead := h } ∧ s'.mem = s.mem)
    ∧ (∀ v, ∃ s', exec (.qmCtrlWrite v) s = .next s' ∧ s'.reg 0x2000 = v &&& 0x0001FF01
        ∧ ∀ a, a ≠ 0x2000 → s'.reg a = s.reg a)
    ∧ (∀ sid x, let a := s.qmBase 0x200C + 128 * sid + 0x20
        s.stream sid = some x → Tab.get none s.qm.rings x.ring = none → s.qmCheck 0 true false a 56 = 0 → s.isHome a = true → a % granuleBytes + 56 ≤ granuleBytes →
        ∃ s', exec (.streamWriteback sid) s = .next s' ∧ s'.qm.streams = s.qm.streams
          ∧ s'.mem = s.mem.wrBytes a (leBytes 4 x.st.code ++ leBytes 4 x.nextSeq ++ leBytes 4 (x.head + x.cplTail * 2 ^ 16)
            ++ leBytes 4 0 ++ leBytes 8 x.satTotal ++ leBytes 8 x.flushInTotal ++ leBytes 8 x.flushOutTotal ++ leBytes 8 x.done
            ++ leBytes 8 x.lastTs))
    ∧ (∀ t0, let a := s.rfld 0x2020 2 30 * 4 + s.rfld 0x2024 0 20 * 2 ^ 32
        s.qm.notifyDue = true → bitAt (s.reg 0x2000) 16 = true → s.qm.lastNotify = some t0 →
        t0 + 1000 * s.rfld 0x2000 8 8 ≤ s.now → s.qmCheck 0 true true a 4 = 0 → s.isHome a = true → a % granuleBytes + 4 ≤ granuleBytes →
        ∃ s', exec .notifyWrite s = .next s' ∧ s'.mem = s.mem.wrLE a 4 (s.reg 0x2028).toNat
          ∧ s'.qm = { s.qm with notifyDue := false, lastNotify := some s.now })

/-! ### Packets on the links (spec/10, spec/13, spec/14) -/

/-- R374, R401, R420: a packet from another die on a port that takes it in, for package memory that is homed here and open to it. A
read is answered with the bytes and, when a die may cache them, makes that die a sharer of each line, for which the directory has room; a write whose lines no die
shares puts its bytes in memory and is acknowledged; an `ATOMIC` answers the old value and stores `ADD`, `OR`, `AND`, `SWAP` or
`CAS` of it. No other byte changes. -/
def Obligations.PackageMemoryAccessesAtHome : Prop :=
  ∀ (s : State) (p : Nat) (k0 : Packet),
    (let k := asType k0 0 0
     s.accepts p k = true → s.admits k false k.len = true → (∀ l ∈ linesOf k.addr k.len, s.rdc.dirRoom l = true) →
     ∃ s', exec (.rd p k0) s = .next s' ∧ s'.mem = s.mem
       ∧ s'.holds p (s.answerTo p k (withData (s.packet 1 0 k.srcDie 121) (s.mem.rdBytes k.addr k.len)))
       ∧ ∀ l, Tab.get 0 s'.rdc.sharers l =
           if isDieRole (s.role p) = true ∧ s.isNc k.addr = false ∧ l ∈ linesOf k.addr k.len
           then Tab.get 0 s.rdc.sharers l ||| 2 ^ k.srcDie else Tab.get 0 s.rdc.sharers l)
    ∧ (let k := asType k0 2 0
       let bs := (k.data ++ List.replicate k.len 0).take k.len
       s.accepts p k = true → s.admits k true k.len = true → s.rdc.invs = [] →
       (∀ l ∈ linesOf k.addr k.len, Tab.get 0 s.rdc.sharers l = 0) →
       ∃ s', exec (.wr p k0) s = .next s' ∧ s'.mem = s.mem.wrBytes k.addr bs
         ∧ s'.holds p (s.answerTo p k { s.packet 1 2 k.srcDie 121 with aux := 0 }))
    ∧ (let k := asType k0 2 3
       let old := s.mem.rdLE k.addr 8
       let v := pktLE k 8 8
       let new := match pktLE k 0 1 with
         | 1 => (old + v) % 2 ^ 64
         | 2 => old ||| v
         | 3 => old &&& v
         | 4 => v
         | _ => if old = pktLE k 16 8 then v else old
       s.accepts p k = true → s.admits k true 8 = true → s.rdc.invs = [] →
       (∀ l ∈ linesOf k.addr 8, Tab.get 0 s.rdc.sharers l = 0) →
       ∃ s', exec (.atomic p k0) s = .next s' ∧ s'.mem = s.mem.wrBytes k.addr (leBytes 8 new)
         ∧ s'.holds p (s.answerTo p k (withData (s.packet 1 0 k.srcDie 121) (leBytes 8 old ++ List.replicate 24 0))))

/-- R251, R259, R261, R265, R266, R358: a packet of another die for a mapped core that its job owns and that is not sealed. A
scratchpad read of readable slots is answered with their bytes, and the last read of a slot that the reader gives up releases it; a read
of another job's scratchpad is answered with reason 3; a credit request returns what its handle still holds here and joins the queue of
the tile's allocator, and one for no credit is answered at once; a write under credit that the grant covers fills its slots and is
acknowledged, one that it does not cover is refused and changes nothing of the tile. An `XLATE` is answered with the object's job and flags, its
granules from there on and their homes (the layout is the model's: log 13). -/
def Obligations.ScratchpadPacketsOfOtherDies : Prop :=
  ∀ (s : State) (p t : Nat) (k0 : Packet) (decl : Nat),
    let core := bitsOf k0.addr 24 6
    let a := bitsOf k0.addr 0 24
    let q := s.tile t
    (let k := asType k0 0 1
     s.accepts p k = true → (s.core core).st = .mapped → (s.core core).tile = t → q.spad.sealed = false →
     (q.spad.owner = some k.job → k.aux % 2 = 0 → q.spad.canReadRange a k.len = true →
       ∃ s', exec (.spRd p k0) s = .next s' ∧ s'.tiles = s.tiles
         ∧ s'.holds p (s.answerTo p k (withData (s.packet 1 0 k.srcDie t) (q.spad.mem.rdBytes a k.len))))
     ∧ (q.spad.owner = some k.job → k.aux % 2 = 1 →
       ∃ s', exec (.spRd p k0) s = .next s' ∧ s'.tile t = { q with spad := q.spad.release (a / 4096) } ∧ (∀ u, u ≠ t → s'.tile u = s.tile u)
         ∧ s'.holds p (s.answerTo p k (withData (s.packet 1 0 k.srcDie t) (q.spad.mem.rdBytes a k.len))))
     ∧ (q.spad.owner ≠ some k.job →
       ∃ s', exec (.spRd p k0) s = .next s' ∧ s'.tiles = s.tiles
         ∧ s'.holds p (s.answerTo p k { s.packet 1 1 k.srcDie 120 with aux := 3 })))
    ∧ (let k := asType k0 0 2
       let who : Writer := ⟨k.srcDie, k.srcStop, bitsOf k.addr 34 4⟩
       s.accepts p k = true →
       (bitsOf k.addr 38 12 ≠ 0 → (s.core core).st = .mapped → (s.core core).tile = t → q.spad.owner = some k.job →
         ∃ s', exec (.credReq p k0) s = .next s'
           ∧ (s'.tile t).dma.reqs = q.dma.reqs ++
               [{ who := who, job := k.job, window := bitsOf k.addr 30 4, count := bitsOf k.addr 38 12, lcore := 63, since := s.now
                  uid := 0, port := some (p, k) }]
           ∧ (s'.tile t).dma.granted = q.dma.granted.filter (fun g => g.who != who)
           ∧ ((∀ g ∈ q.dma.granted, g.who ≠ who) → (s'.tile t).spad = q.spad))
       ∧ (bitsOf k.addr 38 12 = 0 →
         ∃ s', exec (.credReq p k0) s = .next s' ∧ s'.holds p (s.answerTo p k (s.packet 1 3 k.srcDie 121))
           ∧ (s'.tile t).dma.reqs = q.dma.reqs ∧ (s'.tile t).dma.granted = q.dma.granted.filter (fun g => g.who != who)))
    ∧ (let k := asType k0 2 1
       let bs := (k.data ++ List.replicate k.len 0).take k.len
       let who : Writer := ⟨k.srcDie, k.srcStop, bitsOf k.addr 30 4⟩
       s.accepts p k = true → (s.core core).st = .mapped → (s.core core).tile = t → q.spad.sealed = false → k.poison = false →
       (∀ q', acceptWrite q who a (fun _ => decl) bs (k.len / 4096 + 2) = some (q', true) →
         ∃ s', exec (.spWr p k0 decl) s = .next s' ∧ s'.tile t = q'
           ∧ s'.holds p (s.answerTo p k { s.packet 1 2 k.srcDie 120 with aux := 0 }))
       ∧ (acceptWrite q who a (fun _ => decl) bs (k.len / 4096 + 2) = none →
         ∃ s', exec (.spWr p k0 decl) s = .next s' ∧ s'.tiles = s.tiles
           ∧ s'.holds p (s.answerTo p k { s.packet 1 2 k.srcDie 120 with aux := 1 })))
    ∧ (let k := asType k0 0 3
       s.accepts p k = true →
       (∀ i o, isHostAddr k.addr = false → ownerOf k.addr = s.pos → s.held k.addr 1 = false → findObj k.addr s.kw.objs = some (i, o) →
         let n := (k.addr - o.pbase) / granuleBytes
         let on := o.st == .active || o.st == .migrating
         ∃ s', exec (.xlate p k0) s = .next s' ∧ s'.tiles = s.tiles ∧ s'.kw = s.kw
           ∧ s'.holds p (s.answerTo p k (withData { s.packet 1 5 k.srcDie 121 with addr := k.addr }
               (leBytes 4 (o.job + bit1 o.exec * 2 ^ 12 + bit1 o.sharedRo * 2 ^ 13 + bit1 o.nc * 2 ^ 14 + bit1 on * 2 ^ 15)
                 ++ leBytes 4 (o.granules - n) ++ ((o.homes.drop n ++ List.replicate 24 0).take 24).map (BitVec.ofNat 8)))))
       ∧ ((isHostAddr k.addr = true ∨ ownerOf k.addr ≠ s.pos ∨ findObj k.addr s.kw.objs = none) → (ownerOf k.addr = s.pos → s.held k.addr 1 = false) →
         ∃ s', exec (.xlate p k0) s = .next s' ∧ s'.tiles = s.tiles ∧ s'.kw = s.kw
           ∧ s'.holds p (s.answerTo p k (withData { s.packet 1 5 k.srcDie 121 with addr := k.addr } (List.replicate 32 0)))))

/-- R259, R264, R394, R396, R401: an answer to an open transaction of this die's tag, sent once. The transaction closes; data goes to
the command it is for, an acknowledgement is taken off what the command awaits, a reason of an error or refusal decides how the
command ends, a grant is stored in its handle, and granule homes enter the translations.
R374, R376, R377, R401: an invalidation drops the line, or the lines of its 4 KiB block that its mask names, from the
remote-data cache, keeps every other line, and is acknowledged; a miss under way for such a line will not install it. When the
last acknowledgement that a write awaits has come, the write's own answer goes out. -/
def Obligations.AnswersAndInvalidations : Prop :=
  (
    ∀ (s : State) (p t : Nat) (k0 : Packet) (o : OpenTx) (e : QEntry), t < 72 → s.tx k0.tag = some o → o.resent = false →
      (let q := s.tile t
       o.tile = t → q.dma.q = [e] → e.uid = o.uid → e.ans = 0 → o.pkt.cls ≠ 3 →
       let ends := fun (c : Instr) (e' : QEntry) =>
         ∃ s', exec c s = .next s' ∧ s'.tx k0.tag = none ∧ (s'.tile t).dma.q = [e'] ∧ (s'.tile t).spad = q.spad
       (s.accepts p (asType k0 1 0) = true → o.pkt.cls = 0 → o.pkt.ptype = 1 → k0.poison = false →
         ends (.rdData p k0) { e with buf := e.buf.wrBytes o.off (k0.data.take o.pkt.len), owed := e.owed - 1 })
       ∧ (s.accepts p (asType k0 1 1) = true → o.pkt.cls = 0 →
         s.rdc.held = [] → ends (.rdErr p k0) { e with ans := match k0.aux % 16 with
           | 1 => 6
           | 2 => 7
           | 3 => 3
           | 4 => 5
           | 6 => 4
           | _ => 8 })
       ∧ (s.accepts p (asType k0 1 2) = true → o.pkt.cls = 2 → o.pkt.ptype = 0 →
         (k0.aux % 16 = 0 → ends (.wrAck p k0) { e with loadRows := e.loadRows - 1 })
         ∧ (k0.aux % 16 = 1 → ends (.wrAck p k0) { e with ans := 2 })
         ∧ (k0.aux % 16 = 2 → ends (.wrAck p k0) { e with ans := 3 }))
       ∧ (s.accepts p (asType k0 1 4) = true → o.pkt.cls = 0 → o.pkt.ptype = 2 →
         ends (.credRefuse p k0) { e with ans := match k0.aux % 16 with
           | 2 => 3
           | 3 => 4
           | _ => 2 })
       ∧ (s.accepts p (asType k0 1 3) = true → o.pkt.cls = 0 → o.pkt.ptype = 2 → e.code = 8 →
         ∃ s', exec (.credGrant p k0) s = .next s' ∧ s'.tx k0.tag = none
           ∧ (s'.tile t).dma.q = [{ e with ans := 1, tgt := 127, owed := 0 }]
           ∧ Tab.get none (s'.tile t).dma.handles (bitsOf o.pkt.addr 34 4) = some
               { die := o.pkt.dstDie, core := bitsOf o.pkt.addr 24 6, window := bitsOf o.pkt.addr 30 4
                 count := bitsOf k0.addr 12 12, revoked := false, tile := 127 }))
      ∧ (s.accepts p (asType k0 1 10) = true → o.pkt.cls = 4 → (o.pkt.ptype = 3 ∨ o.pkt.ptype = 4) →
        ∃ s', exec (.cfgRsp p k0) s = .next s' ∧ s'.tx k0.tag = none ∧ s'.tiles = s.tiles)
      ∧ (s.accepts p (asType k0 1 5) = true → o.pkt.cls = 0 → o.pkt.ptype = 3 → s.rdc.held = [] →
          let g := o.pkt.addr / granuleBytes
          let w := leNat (k0.data.take 4)
          let left := leNat ((k0.data.drop 4).take 4)
          let known := fun (stack left : Nat) => ({ stack := stack, job := bitsOf w 0 12, exec := w.testBit 12, sharedRo := w.testBit 13
                                                    nc := w.testBit 14, left := left } : Xlate)
          isHostAddr (g * granuleBytes) = false → ownerOf (g * granuleBytes) ≠ s.pos → s.kw.xlate.length + 24 ≤ xlateMax →
          ∃ s', exec (.xlateRsp p k0) s = .next s' ∧ s'.tx k0.tag = none ∧ s'.tiles = s.tiles
            ∧ (w.testBit 15 = true → ∀ i, i < min left 24 →
                Tab.get none s'.kw.xlate (g + i) = some (known ((k0.data[8 + i]?.getD 0).toNat % 32) (left - i)))
            ∧ (w.testBit 15 = false → Tab.get none s'.kw.xlate g = some (known (4 * ownerOf (g * granuleBytes)) 0))))
  ∧ (
    ∀ (s : State) (p : Nat) (k0 : Packet),
      let inv := fun (c : Instr) (k : Packet) (named : Nat → Prop) [DecidablePred named] =>
        ∃ s', exec c s = .next s' ∧ s'.mem = s.mem ∧ s'.tiles = s.tiles
          ∧ s'.holds p (s.answerTo p k (s.packet 1 8 k.srcDie 120))
          ∧ (∀ l, Tab.get none s'.rdc.lines l = if named l then none else Tab.get none s.rdc.lines l)
          ∧ (∀ tag o, (tag, some o) ∈ s'.rdc.opens → o.pkt.cls = 0 → o.pkt.ptype = 0 → named (o.pkt.addr / 256) → o.noInstall = true)
      (let k := asType k0 1 6
       s.accepts p k = true → inv (.inv p k0) k (fun l => l = k.addr / 256))
      ∧ (let k := asType k0 1 7
         s.accepts p k = true →
         inv (.invBatch p k0) k (fun l => l / 16 = k.addr / 4096 ∧ k.aux.testBit (l % 16) = true))
      ∧ (let k := asType k0 1 8
         ∀ (w : InvWait) (x : InvDue) (a : Packet), s.accepts p k = true → s.rdc.invs = [w] → w.tag = k.tag → w.die = k.srcDie →
         s.rdc.held = [] → s.rdc.dues = [x] → x.grp = w.grp → x.port = p → x.reply = some a →
         ∃ s', exec (.invAck p k0) s = .next s' ∧ s'.rdc.invs = [] ∧ s'.rdc.dues = [] ∧ s'.mem = s.mem
           ∧ s'.holds p { a with enc := (s.port p).confOn }))

/-! ### The ports (spec/14_windway_ports.md, spec/19_onjan_security.md) -/

/-- R385 to R389: a map and width that training chooses put every logical lane in use on a position that passes. A port in `DOWN`
that may train goes to `TRAINING` when a partner answers. When training ends with a choice of map, width and rate, the port is in
`EXCHANGE` at that choice, `PORT_LANEMAP` holds the map, and the port has sent its `CAPS` with its identity and its buffers; without
one it is in `FAILED`. -/
def Obligations.TrainingChoosesAWholeWidth : Prop :=
  (∀ (map m : Word) (pass i : Nat) (x32 half : Bool), chooseMap map pass = some (m, x32, half) →
      (if half then 32 else 0) ≤ i → i < (if x32 && !half then 32 else 64) →
      ∃ pos, (inService m)[i]? = some pos ∧ pass.testBit pos = true)
  ∧ ∀ (s : State) (p pass rates : Nat), isPort p = true →
    let map := s.reg (0x100C + 0x40 * p)
    let rate := chooseRate (min 2 (fld (s.port p).ctl 2 2)) rates
    ((s.port p).st = .down → s.mayTrain p = true → (∀ t, (s.port p).tried = some t → t + 10 ^ 7 ≤ s.now) →
      ∃ s', exec (.portTrainRetry p true) s = .next s'
        ∧ s'.port p = { s.port p with
            st := .training, linkReset := false, trainStart := s.now, tried := some s.now, ctl := s.reg (0x1000 + 0x40 * p) }
        ∧ s'.mem = s.mem ∧ ∀ q, q ≠ p → s'.port q = s.port q)
    ∧ (∀ m x32 half r, (s.port p).st = .training → chooseMap map pass = some (m, x32, half) → rate = some r →
      ∃ s', exec (.portTrainingDone p pass rates) s = .next s' ∧ (s'.port p).st = .exchange ∧ (s'.port p).rate = r
        ∧ (s'.port p).x32 = x32 ∧ (s'.port p).half = half ∧ s'.reg (0x100C + 0x40 * p) = m
        ∧ ∃ k ∈ (s'.port p).unacked, k.cls = 4 ∧ k.ptype = 0 ∧ k.data.length = 64
          ∧ k.data.take 4 = leBytes 4 (s.rfld 0x0010 8 8 + s.role p * 2 ^ 12 + s.pos * 2 ^ 16 + p * 2 ^ 24)
          ∧ (k.data.drop 8).take 10 = leBytes 2 256 ++ leBytes 2 1024 ++ leBytes 2 1024 ++ leBytes 2 128 ++ leBytes 2 128)
    ∧ ((s.port p).st = .training → (chooseMap map pass = none ∨ rate = none) →
      ∃ s', exec (.portTrainingDone p pass rates) s = .next s' ∧ (s'.port p).st = .failed)

/-- R390, R391: a partner's `CAPS` is admitted when its kind and role match, its version is not 0, its credits meet the minimums and
it has confidentiality where either side requires it: the partner and its credits are recorded and the port is in `UP`, or in
`ADMIT_WAIT` where confidentiality applies. Otherwise the port is in `DOWN` with `ADMIT_ERR`. R498 to R500: a certificate that
verifies under the Moatum CA is kept, a verified offer then brings the port `UP` with a key, a failure or a time-out isolates it, and
a repeated exchange changes the keys by `OFFER` and `SWITCH`. -/
def Obligations.PartnersAreAdmittedOrRefused : Prop :=
  ∀ (s : State) (p : Nat) (k : Packet), isPort p = true → s.role p < 4 →
    let w := pktLE k 0 4
    let conf := bitAt (s.port p).ctl 4 || (pktLE k 0x10 4).testBit 17
    let kind := bitsOf w 8 4
    let fits := (s.role p = 0 ∧ kind = 2 ∨ s.role p = 3 ∧ kind = 1
        ∨ (s.role p = 1 ∨ s.role p = 2) ∧ (kind = 0 ∨ kind = 3) ∧ bitsOf w 12 3 = s.role p)
      ∧ bitsOf w 0 8 ≠ 0 ∧ 64 ≤ pktLE k 8 2 ∧ 256 ≤ pktLE k 10 2 ∧ 256 ≤ pktLE k 12 2 ∧ 32 ≤ pktLE k 14 2 ∧ 32 ≤ pktLE k 16 2
      ∧ (conf = true → (pktLE k 0x10 4).testBit 16 = true)
    let known := fun (q : Port) => q.peerKind = kind ∧ q.peerRole = bitsOf w 12 3 ∧ q.peerPos = bitsOf w 16 8 ∧ q.peerPart = pktLE k 4 4
      ∧ q.version = if bitAt (s.port p).ctl 6 then 1 else min (s.rfld 0x0010 8 8) (bitsOf w 0 8)
    let only := fun (k : Packet) => (s.port p).queue = [] ∧ (∀ x ∈ (s.port p).unacked, x.cls = 4) ∧ roleCarries (s.role p) k = true
      ∧ packetOk (s.port p).version (s.port p).confOn k = true ∧ ((s.port p).confOn = true → k.authOk = true)
    let key := asType k 4 7
    ((s.port p).st = .exchange →
      (fits → ∃ s', exec (.caps p k) s = .next s' ∧ (s'.port p).st = (if conf then .admitWait else .up) ∧ known (s'.port p)
        ∧ (s.qmOn = false → (s.port p).queue = [] → ∀ c, c < (if conf then 4 else 5) →
          Tab.get 0 (s'.port p).credits c = pktLE k (8 + 2 * c) 2))
      ∧ (¬fits → ∃ s', exec (.caps p k) s = .next s' ∧ (s'.port p).st = .down ∧ (s'.port p).admitErr = true))
    ∧ ((s.port p).st = .retraining → fits →
      ∃ s', exec (.caps p k) s = .next s' ∧ known (s'.port p)
        ∧ (s'.port p).st = (if conf && !(s.port p).confOn then .admitWait else .up))
    ∧ ((s.port p).st = .admitWait → s.sec.life ≠ .retired → s.sec.idKey = true → s.sec.zeroise = false → s.sec.rngOk = true →
      only key →
      (pktLE k 0 1 = 1 → pktLE k 208 1 = 0 →
        ∃ s', exec (.keyCert p k true) s = .next s' ∧ (s'.port p).certOk = true ∧ (s'.port p).ca = 0 ∧ (s'.port p).st = .admitWait)
      ∧ (pktLE k 0 1 = 1 → ∃ s', exec (.keyCert p k false) s = .next s' ∧ (s'.port p).st = .isolated)
      ∧ (pktLE k 0 1 = 2 → (s.port p).certOk = true →
        (∃ s', exec (.keyOffer p k true) s = .next s' ∧ (s'.port p).st = .up ∧ (s'.port p).keyed = true ∧ (s'.port p).confOn = true
          ∧ (s'.port p).keyEpoch = 0)
        ∧ ∃ s', exec (.keyOffer p k false) s = .next s' ∧ (s'.port p).st = .isolated))
    ∧ ((s.port p).st = .admitWait → (s.port p).kexStart + 10 ^ 8 ≤ s.now → (s.port p).queue = [] → (∀ x ∈ (s.port p).unacked, x.cls = 4) →
      ∃ s', exec (.kexTimeout p) s = .next s' ∧ (s'.port p).st = .isolated)
    ∧ ((s.port p).st = .up → (s.port p).confOn = true → (s.port p).rekeying = false → s.sec.rngOk = true →
      2 ^ 47 ≤ max (s.port p).sentCount (s.port p).recvCount →
      ∃ s', exec (.rekeyStart p) s = .next s' ∧ (s'.port p).rekeying = true ∧ (s'.port p).certOk = false ∧ (s'.port p).st = .up)
    ∧ (s.accepts p key = true → (s.port p).rekeying = true →
      (pktLE k 0 1 = 2 → (s.port p).certOk = true → s.sec.rngOk = true → s.sec.life ≠ .retired → s.sec.idKey = true →
        s.sec.zeroise = false →
        ∃ s', exec (.keyOffer p k true) s = .next s' ∧ (s'.port p).keyEpoch = ((s.port p).keyEpoch + 1) % 65536
          ∧ (s'.port p).sentCount = 0 ∧ (s'.port p).st = .up)
      ∧ (pktLE k 0 1 = 3 → ∃ s', exec (.keySwitch p k) s = .next s' ∧ (s'.port p).rekeying = false ∧ (s'.port p).st = .up
          ∧ (s'.port p).keyEpoch = (s.port p).keyEpoch))

/-- R393 to R395, R399, R404, R419: what starts and ends a retraining, what takes a port down, `L1`, replays and acknowledgements,
`KEEPALIVE` and `CREDIT_RET`, and a tag that was reserved for a read sent twice. A port that falls while another leads to the same die,
or a `HOST` port, is in `DOWN` with `LINK_LOSS`; before events are enabled, an unacknowledged read goes out once more on the other port, and a
write that was not acknowledged ends as a port fault. -/
def Obligations.LinksRetrainSleepAndFall : Prop :=
  ∀ (s : State) (p : Nat), isPort p = true →
    let po := s.port p
    let backed := s.role p = 3 ∨ isDieRole (s.role p) = true ∧ ∃ q, q ≠ p ∧ q ∈ s.portsTo isDieRole po.peerPos
    let falls := fun (c : Instr) (st : PortSt) =>
      ∃ s', exec c s = .next s' ∧ (s'.port p).st = st ∧ (s'.port p).linkLoss = true ∧ (s'.port p).l1 = false ∧ s'.flt.port = true
    let becomes := fun (c : Instr) (po' : Port) => ∃ s', exec c s = .next s' ∧ s'.port p = po' ∧ s'.mem = s.mem ∧ s'.tiles = s.tiles
    let retrains := { { po with l1 := false }.flushAt s.now with
      st := .retraining, trainStart := s.now, ctl := s.reg (0x1000 + 0x40 * p), winReplays := 0 }
    (po.st = .up → becomes (.portRetrain p) { retrains with retrainReq := true } ∧ becomes (.sidebandRetrain p) retrains)
    ∧ (po.st = .up → 0 < s.pctl p 8 8 → s.pctl p 8 8 < po.winReplays → becomes (.errLimitRetrain p) retrains)
    ∧ (po.st = .isolated → s.mayTrain p = true →
      becomes (.portRetrain p) { po with
        st := .training, linkReset := false, trainStart := s.now, tried := some s.now, ctl := s.reg (0x1000 + 0x40 * p)
        retrainReq := true })
    ∧ (po.queue = [] → po.unacked = [] → backed →
      (po.st = .retraining → po.trainStart + 500000 ≤ s.now → falls (.retrainTimeout p) .down)
      ∧ (po.st = .up → falls (.portEn p false) .down ∧ falls (.portIsolate p) .isolated ∧ falls (.linkLoss p 3) .down
        ∧ (po.l1 = false → (po.lastRecv + 1000 ≤ s.now → falls (.linkLoss p 1) .down) ∧ falls (.linkLoss p 4) .down
          ∧ (8 ≤ po.flitFails → falls (.linkLoss p 2) .down))))
    ∧ (∃ s', exec (.portEn p true) s = .next s' ∧ (∀ q, s'.port q = s.port q) ∧ s'.pctl p 0 1 = 1)
    ∧ (po.st = .failed → ∃ s', exec (.portEn p false) s = .next s' ∧ (s'.port p).st = .down ∧ s'.pctl p 0 1 = 0)
    ∧ (po.st = .down ∨ po.st = .failed → ∃ s', exec (.portIsolate p) s = .next s' ∧ (s'.port p).st = .isolated)
    ∧ (po.linked = true →
      (∃ s', exec (.flitReplay p) s = .next s' ∧ (s'.port p).replays = satAdd po.replays 1 ∧ (s'.port p).flitFails = po.flitFails + 1
        ∧ (s'.port p).unacked = po.unacked ∧ (s'.port p).st = po.st)
      ∧ ∀ n, becomes (.linkLevelAck p n) { po with unacked := po.unacked.drop n, flitFails := 0, lastRecv := s.now })
    ∧ (po.st = .up → po.queue = [] →
      (po.l1 = false → po.lastSent + 500 ≤ s.now → ∃ s', exec (.keepaliveSend p) s = .next s' ∧ (s'.port p).st = .up
        ∧ s'.holds p { s.packet 4 2 po.peerPos (72 + p) with enc := po.confOn })
      ∧ (s.pctl p 5 1 = 1 → po.peerL1 = true → po.lastBusy + 10 ^ 4 ≤ s.now → becomes (.l1Entry p) { po with l1 := true })
      ∧ (po.l1 = true → ∃ s', exec (.l1Exit p) s = .next s' ∧ (s'.port p).l1 = false ∧ (s'.port p).st = .up))
    ∧ (po.st = .up → po.freed ≠ [] →
      let n := fun c => min 1023 (Tab.get 0 po.freed c)
      ∃ s', exec (.creditReturnSend p) s = .next s' ∧ (∀ c, c < 5 → Tab.get 0 (s'.port p).freed c = Tab.get 0 po.freed c - n c)
        ∧ s'.holds p { s.packet 4 1 po.peerPos (72 + p) with
            addr := n 0 + n 1 * 2 ^ 10 + n 2 * 2 ^ 20 + n 3 * 2 ^ 30 + n 4 * 2 ^ 40, enc := po.confOn })
    ∧ (∀ k, s.accepts p (asType k 4 2) = true → exec (.keepalive p k) s = .next (s.taken p (asType k 4 2)))
    ∧ (∀ k, s.accepts p (asType k 4 1) = true → po.queue = [] →
      ∃ s', exec (.creditRet p k) s = .next s' ∧ (s'.port p).unacked = po.unacked
        ∧ ∀ c, c < 5 → Tab.get 0 (s'.port p).credits c = Tab.get 0 po.credits c + bitsOf k.addr (10 * c) 10)
    ∧ (∀ tag o, Tab.get none s.rdc.opens tag = some o → o.resent = true → o.resentAt + 10 ^ 5 ≤ s.now →
      ∃ s', exec (.reqTagExpiry tag) s = .next s'
        ∧ Tab.get none s'.rdc.opens tag = (if o.answered then none else some { o with resent := false }))
    ∧ (∀ t uid e, t < 72 → s.role p = 0 → po.st = .up → (s.tile t).dma.q = [e] → e.uid = uid → e.ans < 2 →
      ∃ s', exec (.baseDieTimeout p t uid) s = .next s' ∧ (s'.tile t).dma.q = [{ e with ans := 7 }] ∧ s'.port p = retrains)
    ∧ (∀ q k o, po.st = .up → isDieRole (s.role p) = true → po.peerPos = k.dstDie → q ≠ p →
      (s.portsTo isDieRole k.dstDie = [q, p] ∨ s.portsTo isDieRole k.dstDie = [p, q]) →
      s.pkg.isolated = false → s.pkg.lostSeen.testBit k.dstDie = false → isHostAddr k.addr = false →
      k.srcDie = s.pos → s.tx k.tag = some o → o.pkt.cls = k.cls → o.pkt.ptype = k.ptype → o.pkt.addr = k.addr →
      s.rdc.dues = [] → po.queue = [] → po.unacked = [k] → s.qmOn = false →
      (k.cls = 0 → (k.ptype = 0 ∨ k.ptype = 1 ∨ k.ptype = 3) → o.resent = false →
        ∃ s', exec (.linkLoss p 3) s = .next s' ∧ (s'.port p).st = .down ∧ s'.holds q { k with enc := (s.port q).confOn }
          ∧ Tab.get none s'.rdc.opens k.tag = some { o with resent := true, resentAt := s.now, port := q })
      ∧ (∀ t e, k.cls = 2 → k.ptype = 0 → o.tile = t → t < 72 → (s.tile t).dma.q = [e] → e.uid = o.uid → e.ans < 2 →
        ∃ s', exec (.linkLoss p 3) s = .next s' ∧ s'.tx k.tag = none ∧ (s'.tile t).dma.q = [{ e with ans := 9 }]
          ∧ s'.flt.port = true))

/-! ### The package and the configuration space (spec/15, spec/14 R397, spec/22) -/

/-- R415, R417: the leader forms the package when the last `JOIN` of `PKG_MASK` comes, or 100 ms after its own, from the dies that
have joined: they are the members, and `FEATURE_LEVEL` is theirs. R425: a `JOIN` of a die that fits a formed package makes it a member
again, one of a present member changes nothing, and an `ACCEPT` is taken over. R414: a `REFUSE` changes no membership. R422, R423: a
`LOST` takes its subject out of the members once. Each change raises the epoch by one. -/
def Obligations.MembershipFormsGrowsAndShrinks : Prop :=
  ∀ (s : State) (p d : Nat) (k0 : Packet),
    let k := asType k0 4 8
    let c0 := pktLE k0 4 4
    let c1 := pktLE k0 8 4
    let forms := fun (c : Instr) (joins : List (Nat × Nat × Nat)) =>
      ∃ s', exec c s = .next s' ∧ s'.pkg.accepted = true ∧ s'.pkg.leader = s.pos
        ∧ s'.pkg.members = joins.foldl (fun m j => m ||| 2 ^ j.1) 0 ∧ s'.pkg.mepoch = (s.pkg.mepoch + 1) % 65536
        ∧ s'.reg 0x0020 = BitVec.ofNat 32 (levelWord (packageLevel (joins.map (·.2))).1 (packageLevel (joins.map (·.2))).2)
    let held := fun (t : Tab (Option (Nat × Nat))) => s.positions.filterMap (fun d => (Tab.get none t d).map (fun c => (d, c)))
    let keeps := fun (c : Instr) => ∃ s', exec c s = .next s' ∧ s'.pkg = s.pkg
    (s.accepts p k = true → pktLE k0 1 1 = d →
      (pktLE k0 0 1 = 1 → s.pkg.accepted = false → (Tab.get none s.pkg.joins d).isSome = false → d ≠ s.pos → s.pkgMask.testBit d = true →
        ((Tab.get none s.pkg.joins s.pos).isSome = true → (∀ x ∈ s.positions, x = d ∨ (Tab.get none s.pkg.joins x).isSome = true) →
          forms (.join p k0) (held (Tab.set none s.pkg.joins d (some (c0, c1)))))
        ∧ ((Tab.get none s.pkg.joins s.pos).isSome = false →
          ∃ s', exec (.join p k0) s = .next s' ∧ Tab.get none s'.pkg.joins d = some (c0, c1) ∧ s'.pkg.accepted = false))
      ∧ (pktLE k0 0 1 = 1 → s.pkg.accepted = true → s.pkg.leader = s.pos →
        (s.pkg.members.testBit d = true → keeps (.join p k0))
        ∧ (s.pkg.members.testBit d = false → s.pkgMask.testBit d = true → s.level ≤ bitsOf c0 0 8 →
          bitsOf c1 0 6 &&& s.rfld 0x0020 16 6 = s.rfld 0x0020 16 6 →
          ∃ s', exec (.join p k0) s = .next s' ∧ s'.pkg.members = s.pkg.members ||| 2 ^ d
            ∧ s'.pkg.mepoch = (s.pkg.mepoch + 1) % 65536 ∧ s'.pkg.lostSeen = putBits s.pkg.lostSeen d 1 0))
      ∧ (pktLE k0 0 1 = 2 →
        (d = s.pos → ∃ s', exec (.accept p k0) s = .next s' ∧ s'.pkg.accepted = true ∧ s'.pkg.members = pktLE k0 20 1
          ∧ s'.pkg.leader = k0.srcDie ∧ s'.pkg.mepoch = pktLE k0 22 2)
        ∧ (d ≠ s.pos → d < 8 → s.pkg.accepted = true → s.pkg.members.testBit d = false →
          ∃ s', exec (.accept p k0) s = .next s' ∧ s'.pkg.members = s.pkg.members ||| 2 ^ d
            ∧ s'.pkg.mepoch = (s.pkg.mepoch + 1) % 65536))
      ∧ (pktLE k0 0 1 = 3 → keeps (.refuse p k0))
      ∧ (pktLE k0 0 1 = 4 → d ≠ s.pos → s.pkg.members.testBit d = true →
        (s.pkg.lostSeen.testBit d = true → keeps (.lost p k0))
        ∧ (s.pkg.lostSeen.testBit d = false →
          ∃ s', exec (.lost p k0) s = .next s' ∧ s'.pkg.members = s.pkg.members - 2 ^ d ∧ s'.pkg.mepoch = (s.pkg.mepoch + 1) % 65536
            ∧ s'.pkg.lostSeen = s.pkg.lostSeen + 2 ^ d)))
    ∧ (∀ t, s.pkg.joined = some t → s.pkg.accepted = false → (Tab.get none s.pkg.joins s.pos).isSome = true → t + 10 ^ 8 ≤ s.now →
      forms .pkgFormTimeout (held s.pkg.joins))

/-- R411 to R413: the loss of the reference begins a holdover, and a clock master enters package clock fault with it. A return within
the holdover ends it. When a slave's holdover reaches 20 µs the die isolates itself: no port of it is `UP` and `ALERT_N` is asserted.
A `CLOCK_FAULT` puts the die in package clock fault and is remembered with its time. -/
def Obligations.ReferenceLossAndClockFault : Prop :=
  ∀ (s : State),
    (s.pkg.refOk = true → s.pkg.holdover = false →
      ∃ s', exec .refLoss s = .next s' ∧ s'.pkg.refOk = false ∧ s'.pkg.holdover = true ∧ s'.pkg.holdoverStart = s.now
        ∧ (s.isMaster = true → s'.pkg.clkFault = true)
        ∧ (s.isMaster = false → s.pkg.lastClockFault = none → s'.pkg.clkFault = s.pkg.clkFault ∧ s'.tiles = s.tiles))
    ∧ (s.pkg.holdover = true → s.now < s.pkg.holdoverStart + 20000 → ∃ s', exec .refReturn s = .next s' ∧ s'.pkg.refOk = true ∧ s'.pkg.holdover = false ∧ s'.tiles = s.tiles)
    ∧ (s.pkg.holdover = true → s.pkg.holdoverStart + 20000 ≤ s.now → s.pkg.clkFault = false → s.isMaster = false →
      s.pkg.isolated = false →
      ∃ s', exec .holdoverExpiry s = .next s' ∧ s'.pkg.isolated = true ∧ s'.pkg.alertN = true ∧ s'.pkg.holdover = false
        ∧ ∀ p, p < Config.ports → (s'.port p).st = .down ∨ (s'.port p).st = .isolated ∨ (s'.port p).st = .failed)
    ∧ (∀ p k0, s.accepts p (asType k0 4 8) = true → pktLE k0 0 1 = 5 →
      ∃ s', exec (.clockFault p k0) s = .next s' ∧ s'.pkg.clkFault = true ∧ s'.pkg.lastClockFault = some s.now
        ∧ s'.pkg.members = s.pkg.members)

/-- R397, R553: a configuration packet on a `HOST` port, or of the leader's management controller, reads the register at its offset and
is answered with status 0 and the value, or status 1 for an unmapped offset; a write is answered with its status. Any other packet is
answered with status 1 and changes no register. R417: `FEATURE_LEVEL` takes a write only from the leader's management controller. R516:
the TAP reads and writes the same space. `ISSUE` of the sync debug tree and other plain registers hold what was written. -/
def Obligations.ConfigurationAccesses : Prop :=
  ∀ (s : State),
    (∀ (p : Nat) (k0 : Packet),
      (let k := asType k0 4 3
       let off := k0.addr % 2 ^ 16
       let rsp := fun (ok : Bool) (v : Word) => s.answerTo p k
         (withData { s.packet 1 10 k.srcDie 123 with aux := bit1 (!ok) } (leBytes 4 v.toNat ++ List.replicate 28 0))
       s.accepts p k = true →
       (s.role p = 3 → (∀ v, (s.taken p k).cfgRead off = some v → off ∉ [0x0C04, 0x301C, 0x3028, 0x3C1C, 0x3C2C] →
            ∃ s', exec (.cfgRd p k0) s = .next s' ∧ s'.holds p (rsp true v) ∧ s'.cfg = s.cfg)
         ∧ ((s.taken p k).cfgRead off = none →
            ∃ s', exec (.cfgRd p k0) s = .next s' ∧ s'.holds p (rsp false 0) ∧ s'.cfg = s.cfg))
       ∧ (isDieRole (s.role p) = true → (k0.srcStop ≠ 123 ∨ k0.srcDie ≠ s.pkg.leader) → s.pkg.accepted = true →
         ∃ s', exec (.cfgRd p k0) s = .next s' ∧ s'.holds p (rsp false 0) ∧ s'.cfg = s.cfg))
      ∧ (let k := asType k0 4 4
         let v := w32 (pktLE k0 0 4)
         let rsp := fun (ok : Bool) => s.answerTo p k
           (withData { s.packet 1 10 k.srcDie 123 with aux := bit1 (!ok) } (leBytes 4 0 ++ List.replicate 28 0))
         s.accepts p k = true → k0.addr % 2 ^ 16 = 0x0020 →
         (s.role p = 3 → ∃ s', exec (.cfgWr p k0) s = .next s' ∧ s'.holds p (rsp false) ∧ s'.cfg = s.cfg)
         ∧ (isDieRole (s.role p) = true → k0.srcStop = 123 → k0.srcDie = s.pkg.leader → s.pkg.accepted = true →
           ∃ s', exec (.cfgWr p k0) s = .next s' ∧ s'.holds p (rsp true) ∧ s'.reg 0x0020 = v &&& 0x803F000F)))
    ∧ (∀ v : Word, exec (.cfgRegWrite 0x2804 v) s = .next (s.setReg 0x2804 v)
      ∧ exec (.cfgRegWrite 0x3060 v) s = .next (s.setReg 0x3060 v)
      ∧ exec (.cfgRegWrite 0x0000 v) s = .next s ∧ exec (.cfgRegWrite 0x0002 v) s = .next s
      ∧ (s.isLeader = false → exec (.cfgRegWrite 0x0020 v) s = .next s)
      ∧ (s.qmOn = false → exec (.cfgRegWrite 0x2008 v) s = .next (s.setReg 0x2008 v))
      ∧ (s.qmOn = true → exec (.cfgRegWrite 0x2008 v) s = .next s)
      ∧ ∃ s', exec (.cfgRegWrite 0x2C04 v) s = .next s' ∧ s'.reg 0x2C04 = s.reg 0x2C04 ∧ s'.bwWritten 0x2C04 = v &&& 0xFF7FFFFF)
    ∧ (∀ (v w : Word),
      (∃ s', exec (.cfgAccess v 0x2804 true) s = .next s' ∧ s'.reg 0x2804 = v ∧ s'.tst.cfgDone = true ∧ s'.tst.cfgRefused = false)
      ∧ (s.cfgRead 0x0410 = some w → ∃ s', exec (.cfgAccess v 0x0410 false) s = .next s' ∧ s'.tst.cfgData = w
        ∧ s'.tst.cfgRefused = false ∧ s'.cfg = s.cfg)
      ∧ ∃ s', exec (.cfgAccess v 0x0412 true) s = .next s' ∧ s'.cfg = s.cfg ∧ s'.tst.cfgRefused = true)

/-! ### Resets, boot, firmware and the option store (spec/16) -/

/-- R427 to R432, R436, with the die out of reset and no reset pending: a POR clears everything but fuses and the option store, an SRST
spares the trace buffer and the count of refused tokens; `RESET_CAUSE` names the source. A pin pulse of 100 ns or more resets, one below 50 ns does not;
the watchdog resets at the end of its window; `PKG_SRST` is for the leader, which asks the other members first; a `RESET_REQ` resets
only when it comes from the leader on a die's port and names this die. During a pulse of the option store or of the fuses a reset waits, and takes effect with
`DEFERRED`; one by the supply monitor does not wait, and cuts a fuse pulse. -/
def Obligations.ResetsClearAndSpare : Prop :=
  ∀ (s : State), s.mgmt.stage ≠ 1 → s.mgmt.pendingReset = none →
    let cleared := fun (s' : State) => s'.mgmt.stage = 1 ∧ s'.tiles = [] ∧ s'.sync = SyncTree.init ∧ s'.qm = Qm.init
      ∧ s'.kw = Kw.init ∧ s'.rdc = Rdc.init ∧ s'.time.ts = 0 ∧ s'.sec.dbgAuth = false ∧ s'.sec.token = [] ∧ s'.flt = Flt.init
      ∧ s'.fuses = s.fuses ∧ s'.mgmt.imgA = s.mgmt.imgA ∧ s'.mgmt.imgB = s.mgmt.imgB ∧ s'.mgmt.fwVersion = 0 ∧ s'.pending = s.pending
    let por := fun (c : Instr) (cause : Nat) => ∃ s', exec c s = .next s' ∧ cleared s' ∧ s'.mgmt.cause = cause ∧ s'.mgmt.sub = 0
      ∧ s'.mgmt.causeTs = 0 ∧ s'.ports = [] ∧ s'.tst = Tst.init ∧ s'.sec.refusals = 0
    let srst := fun (c : Instr) (cause sub die : Nat) => ∃ s', exec c s = .next s' ∧ cleared s' ∧ s'.mgmt.cause = cause
      ∧ s'.mgmt.sub = sub ∧ s'.mgmt.reqDie = die ∧ s'.mgmt.causeTs = s.now ∧ s'.tst.trace = s.tst.trace
      ∧ s'.tst.wptr = s.tst.wptr ∧ s'.sec.refusals = s.sec.refusals
    (s.mgmt.pulses = [] → por .porSupply 1)
    ∧ (∀ q l, s.mgmt.pulses = q :: l → ∃ s', exec .porSupply s = .next s' ∧ s'.mgmt.stage = 1 ∧ s'.mgmt.cause = 1 ∧ s'.tiles = []
      ∧ (s'.fuses = s.fuses ∨ s'.fuses = (s.pulsed q).fuses))
    ∧ (∀ ns taken, (ns < 50 → exec (.porstN ns taken) s = .next s ∧ exec (.sysrstN ns taken) s = .next s)
      ∧ (s.mgmt.optBusy = false → s.mgmt.pulseNs = 0 → 100 ≤ ns → por (.porstN ns taken) 2 ∧ srst (.sysrstN ns taken) 3 0 0)
      ∧ (s.mgmt.optBusy = true ∨ s.mgmt.pulseNs ≠ 0 → 100 ≤ ns →
        exec (.sysrstN ns taken) s = .next (s.onMgmt (fun m => { m with pendingReset := some (.srst, 3, 0, 0, s.now) }))))
    ∧ (∃ s', exec .sysWdogKick s = .next s' ∧ s'.mgmt = { s.mgmt with wdogStart := s.now } ∧ s'.cfg = s.cfg)
    ∧ (bitAt (s.reg 0x0410) 31 = true → s.now < s.mgmt.wdogStart + 10 ^ 6 * s.rfld 0x0410 0 16 → exec .sysWdogExpiry s = .next s)
    ∧ (s.mgmt.optBusy = false → s.mgmt.pulseNs = 0 →
      (bitAt (s.reg 0x0410) 31 = true → s.mgmt.wdogStart + 10 ^ 6 * s.rfld 0x0410 0 16 ≤ s.now → srst .sysWdogExpiry 5 0 0)
      ∧ srst .resetCtrlSrst 6 1 0
      ∧ (∀ p k0, s.accepts p (asType k0 4 6) = true →
        let good := isDieRole (s.role p) = true ∧ k0.srcStop = 123 ∧ s.pkg.accepted = true ∧ k0.srcDie = s.pkg.leader ∧ pktLE k0 0 1 = 1
          ∧ (pktLE k0 1 1).testBit s.pos = true
        (good → ∃ s', exec (.resetReq p k0) s = .next s' ∧ cleared s' ∧ s'.mgmt.cause = 4 ∧ s'.mgmt.reqDie = s.pkg.leader)
        ∧ (¬good → ∃ s', exec (.resetReq p k0) s = .next s' ∧ s'.mgmt = s.mgmt ∧ s'.tiles = s.tiles))
      ∧ (∀ t, s.mgmt.pkgWait = some t → (t + 10000 ≤ s.now ∨ s.resetReqOpen = false) → srst .deferredReset 6 2 0))
    ∧ (s.mgmt.pulseNs = 0 → ∀ lvl cause sub die ts, ∃ s',
      exec .deferredReset (s.onMgmt (fun m => { m with pendingReset := some (lvl, cause, sub, die, ts) })) = .next s'
      ∧ cleared s' ∧ s'.mgmt.cause = cause ∧ s'.mgmt.deferredBit = true ∧ s'.mgmt.pendingReset = none)
    ∧ (s.mgmt.pulseNs ≠ 0 → ∀ r, exec .deferredReset (s.onMgmt (fun m => { m with pendingReset := some r }))
      = .next (s.onMgmt (fun m => { m with pendingReset := some r })))
    ∧ (s.pkg.accepted = false ∨ s.pkg.leader ≠ s.pos → exec .pkgSrst s = .next (s.onMgmt (fun m => { m with ctrlErr := true })))
    ∧ (s.pkg.accepted = true → s.pkg.leader = s.pos → s.mgmt.pkgWait = none →
      ∃ s', exec .pkgSrst s = .next s' ∧ s'.mgmt.pkgWait = some s.now ∧ s'.tiles = s.tiles
        ∧ ∀ d p, d < 8 → d ≠ s.pos → s.pkg.members.testBit d = true → s.route d 4 0 none = some p →
          ∃ k, s'.holds p k ∧ k.cls = 4 ∧ k.ptype = 6 ∧ k.dstDie = d ∧ k.data.take 1 = [1])

/-- R443: a die in reset senses its fuses and loads its options, waits for the PLLs only after POR, runs Onjan's self-tests, starts
verified firmware and, after Keywork initialisation, is ready; each step needs the one before it. A fuse sense or a self-test that fails
halts the boot with `ALERT_N`. R439, R441: with no valid image the factory defaults are in force and reported. -/
def Obligations.BootGoesStepByStep : Prop :=
  ∀ (s : State),
    (s.mgmt.stage = 1 →
      (∀ mOk, ∃ s', exec (.bootStart false mOk) s = .next s' ∧ s'.mgmt.stage = 14 ∧ s'.pkg.alertN = true)
      ∧ ∀ mOk, ∃ s', exec (.bootStart true mOk) s = .next s' ∧ s'.mgmt.stage = (if s.mgmt.cause ≤ 2 then 4 else 5)
        ∧ s'.pos = fld (s.fuse 0x100) 0 3 ∧ s'.mgmt.mValid = mOk
        ∧ (∀ n, n < Config.ports → s'.role n = fld (s.fuse (0x101 + n / 4)) (8 * (n % 4)) 3)
        ∧ (imageValid s.mgmt.cutA s.mgmt.imgA = false → imageValid s.mgmt.cutB s.mgmt.imgB = false →
          s'.mgmt.optDefaulted = true ∧ s'.rfld 0x2400 0 3 = 7 ∧ s'.rfld 0x2410 0 5 = 16 ∧ s'.reg 0x1C00 = 0xFFFFFFFF
          ∧ s'.bw.grant = 450
          ∧ s'.mgmt.spareSet = [0, 11, 22, 33, 44, 46, 57, 68].foldl (fun m t => m + 2 ^ t) 0)
        ∧ (imageValid s.mgmt.cutA s.mgmt.imgA = true → imageValid s.mgmt.cutB s.mgmt.imgB = false →
          s'.mgmt.optLoaded = false ∧ s'.mgmt.optDefaulted = false ∧ s'.mgmt.shadow = s.mgmt.imgA
          ∧ s'.reg 0x1C00 = optAt s.mgmt.imgA 0x1BC))
    ∧ (s.mgmt.stage = 4 → ∃ s', exec .pllLock s = .next s' ∧ s'.mgmt = { s.mgmt with stage := 5 } ∧ s'.pkg.refOk = true)
    ∧ (s.mgmt.stage ≠ 4 → exec .pllLock s = .next s)
    ∧ (s.mgmt.stage = 5 →
      (∃ s', exec (.onjanSelftestDone true) s = .next s' ∧ s'.mgmt.stage = 7 ∧ s'.sec.selfTested = true ∧ s'.sec.rngOk = true
        ∧ s'.sec.life = s.sec.life)
      ∧ ∃ s', exec (.onjanSelftestDone false) s = .next s' ∧ s'.mgmt.stage = 14 ∧ s'.pkg.alertN = true)
    ∧ (∀ key hashOk, s.mgmt.stage = 8 → s.mgmt.fwStream = true → 64 ≤ s.mgmt.fwPos → 4 * s.mgmt.fwPos = 256 + s.mgmt.header 4 →
      (s.fwCheck key hashOk = 0 → ∃ s', exec (.fwVerified key hashOk) s = .next s' ∧ s'.mgmt.stage = 9
        ∧ s'.mgmt.fwVersion = s.mgmt.header 8 ∧ s'.mgmt.fwSlot = s.mgmt.freeSlot ∧ s'.sec.fwKey = key ∧ s'.sec.fwSvn = s.mgmt.header 0xC)
      ∧ (s.fwCheck key hashOk ≠ 0 → ∃ s', exec (.fwVerified key hashOk) s = .next s' ∧ s'.mgmt.stage = 8
        ∧ s'.mgmt.fwErr = s.fwCheck key hashOk ∧ s'.mgmt.fwStream = false))
    ∧ (s.mgmt.stage = 10 → ∃ s', exec .bootReady s = .next s' ∧ s'.mgmt.stage = 11 ∧ s'.mgmt.ts11 = s.now ∧ s'.kw.ready = true)
    ∧ (s.mgmt.stage ≠ 10 → exec .bootReady s = .next s)

/-- R445 to R447: `LOAD` opens a stream into the slot that does not run, each word of `FW_DATA` goes to the next place, `SWITCH` of a
verified image waits for the quiesce point and the new image then runs, `ABORT` drops the stream or the switch, and a quiesce point not
reached in 1 ms fails the update with the running image unchanged. R442: `OPT_DATA` edits the shadow, `REVERT` brings the loaded image
back, `COMMIT` makes its target invalid until it has been written and checked, and then it is valid and current; nothing of it changes a
register. -/
def Obligations.FirmwareAndOptionUpdates : Prop :=
  ∀ (s : State),
    (8 ≤ s.mgmt.stage → s.mgmt.stage ≤ 11 →
      ∃ s', exec .fwLoad s = .next s' ∧ s'.mgmt.fwStream = true ∧ s'.mgmt.fwPos = 0 ∧ s'.mgmt.slot s.mgmt.freeSlot = []
        ∧ (s.mgmt.fwSlot ≤ 1 → s'.mgmt.slot s.mgmt.fwSlot = s.mgmt.slot s.mgmt.fwSlot))
    ∧ (∀ v : Word, s.mgmt.fwStream = true → s.mgmt.fwPos < 64 →
      ∃ s', exec (.fwData v) s = .next s' ∧ s'.mgmt.fwPos = s.mgmt.fwPos + 1
        ∧ s'.mgmt.slot s.mgmt.freeSlot = (s.mgmt.slot s.mgmt.freeSlot).wrLE (4 * s.mgmt.fwPos) 4 v.toNat)
    ∧ (s.mgmt.updReady = true → s.mgmt.switchReq = none →
      exec .fwSwitch s = .next (s.onMgmt (fun m => { m with switchReq := some s.now })))
    ∧ (s.mgmt.updReady = false → exec .fwSwitch s = .next s)
    ∧ (∃ s', exec .fwAbort s = .next s' ∧ s'.mgmt.fwStream = false ∧ s'.mgmt.switchReq = none ∧ s'.mgmt.fwSlot = s.mgmt.fwSlot)
    ∧ (∀ t, s.mgmt.switchReq = some t →
      (s.mgmtBusy = true → exec .fwQuiesce s = .next s)
      ∧ (s.mgmtBusy = false → s.now < t + 10 ^ 6 → ∃ s', exec .fwQuiesce s = .next s' ∧ s'.mgmt.fwSlot = s.mgmt.freeSlot
        ∧ s'.mgmt.fwVersion = s.mgmt.fwNewVersion ∧ s'.mgmt.switchReq = none ∧ s'.mgmt.updReady = false
        ∧ s'.sec.fwKey = s.sec.fwNewKey ∧ s'.tiles = s.tiles)
      ∧ (t + 10 ^ 6 ≤ s.now → ∃ s', exec .fwQuiesceTimeout s = .next s' ∧ s'.mgmt.updErr = true ∧ s'.mgmt.switchReq = none
        ∧ s'.mgmt.fwSlot = s.mgmt.fwSlot ∧ s'.mgmt.fwVersion = s.mgmt.fwVersion))
    ∧ (∀ v : Word,
      (s.mgmt.optBusy = false → 8 ≤ s.optOff → s.optOff ≠ 0xFFFC →
        exec (.optData v) s = .next (s.onMgmt (fun m => { m with shadow := Tab.set 0 m.shadow (s.optOff / 4) v, optDirty := true })))
      ∧ (s.mgmt.optBusy = true ∨ s.optOff < 8 ∨ s.optOff = 0xFFFC →
        exec (.optData v) s = .next (s.onMgmt (fun m => { m with optErr := true }))))
    ∧ (s.mgmt.optBusy = false → s.mgmt.optDefaulted = false →
      ∃ s', exec .optRevert s = .next s' ∧ s'.mgmt.shadow = (if s.mgmt.optLoaded then s.mgmt.imgB else s.mgmt.imgA) ∧ s'.cfg = s.cfg)
    ∧ (s.mgmt.optBusy = false → s.mgmt.pendingReset = none →
      (s.mgmt.optCurrent = some false → exec .optCommit s = .next (s.onMgmt (fun m => { m with optBusy := true, bValid := false, cutB := true })))
      ∧ (s.mgmt.optCurrent ≠ some false →
        exec .optCommit s = .next (s.onMgmt (fun m => { m with optBusy := true, aValid := false, cutA := true }))))
    ∧ (∀ off, s.mgmt.optBusy = true → s.mgmt.pendingReset = none →
      (optionsLegal s.mgmt.commitImage = true → ∃ s', exec (.optCommitDone true off) s = .next s' ∧ s'.cfg = s.cfg
        ∧ s'.mgmt.optBusy = false ∧ s'.mgmt.optDirty = false ∧ s'.mgmt.optCurrent = some s.mgmt.targetB
        ∧ (if s.mgmt.targetB then s'.mgmt.imgB = s.mgmt.commitImage ∧ s'.mgmt.bValid = true ∧ s'.mgmt.imgA = s.mgmt.imgA
           else s'.mgmt.imgA = s.mgmt.commitImage ∧ s'.mgmt.aValid = true ∧ s'.mgmt.imgB = s.mgmt.imgB))
      ∧ ∃ s', exec (.optCommitDone false off) s = .next s' ∧ s'.mgmt.optErr = true ∧ s'.mgmt.optBusy = false
        ∧ s'.mgmt.imgA = s.mgmt.imgA ∧ s'.mgmt.imgB = s.mgmt.imgB)

/-! ### Faults, fencing and replay (spec/17, spec/16 R433, R434) -/

/-- R450: a core fault fences the tile in service: `FAULT_CORE` names it, the core count rises, its program is discarded, and the
`COMPUTE` descriptor that works there has the outcome of the fault. R470: a driver's fence or release of tiles, and R433: a core reset,
acts on each tile in the right state and sets its error bit for any other. R453: corrected errors are counted; a tile that reaches the
limit in its window is marked, and fenced when it runs nothing. R434, R470: at the end of a core reset the tile is as after reset, and
becomes a spare where a release asked for it and the BIST passed, else `FAILED`. Fuses, security, budget and queue are untouched. -/
def Obligations.CoresAreFencedAndReset : Prop :=
  ∀ (s : State) (t : Nat), t < Config.tiles →
    let frame := fun (s' : State) => s'.fuses = s.fuses ∧ s'.sec = s.sec ∧ s'.bw = s.bw ∧ s'.pending = s.pending
    (∀ src, (s.tileSt t ≠ .inService → exec (.coreFault t src) s = .next s)
      ∧ (s.tileSt t = .inService → ∃ s', exec (.coreFault t src) s = .next s' ∧ frame s' ∧ s'.tileSt t = .fenced
        ∧ s'.flt.core = true ∧ s'.flt.lastTile = t ∧ s'.flt.coreCount = min (s.flt.coreCount + 1) (2 ^ 32 - 1)
        ∧ (s'.tile t).seq.phase = .discarded ∧ (s'.tile t).spad.sealed = true
        ∧ ∀ d ∈ s.qm.descs, d.st = .running → d.opcode = 1 → (s.tile t).worksFor d = true → d.outcome = none →
          ∃ d' ∈ s'.qm.descs, d'.uid = d.uid ∧ d'.outcome = some (0x16, 0x1B, t)))
    ∧ (∃ s', exec (.correctedError 127) s = .next s' ∧ s'.flt.uncoreCe = true ∧ s'.flt.ceCount = min (s.flt.ceCount + 1) (2 ^ 32 - 1)
        ∧ s'.tiles = s.tiles ∧ s'.kw = s.kw)
    ∧ (let win := s.now / 10 ^ 9 * 10 ^ 9
       let n := if (Tab.get (0, 0) s.flt.ceWin t).2 = win then (Tab.get (0, 0) s.flt.ceWin t).1 + 1 else 1
       let lim := s.rfld 0x341C 0 16
       ∃ s', exec (.correctedError t) s = .next s' ∧ s'.tiles = s.tiles ∧ s'.kw = s.kw
        ∧ s'.flt.ceCount = min (s.flt.ceCount + 1) (2 ^ 32 - 1) ∧ Tab.get (0, 0) s'.flt.ceWin t = (n, win)
        ∧ s'.flt.predict = if lim ≠ 0 ∧ lim ≤ n then s.flt.predict ||| 2 ^ t else s.flt.predict)
    ∧ (s.flt.predict.testBit t = true → s.tileSt t = .inService → s.tileIdle t = true →
      ∃ s', exec (.cePredictiveFence t) s = .next s' ∧ frame s' ∧ s'.tileSt t = .fenced ∧ s'.flt.predict.testBit t = false
        ∧ s'.flt.coreCount = s.flt.coreCount)
    ∧ (∀ w v, t ∈ maskTiles w v →
      (∃ s', exec (.fenceMask w v) s = .next s' ∧ frame s'
        ∧ (s.tileSt t = .inService → s'.tileSt t = .fenced) ∧ (s.tileSt t ≠ .inService → s'.flt.fenceErr = true))
      ∧ (∃ s', exec (.fenceRelease w v) s = .next s' ∧ frame s' ∧ s'.tiles = s.tiles ∧ (∀ u, s'.tileSt u = s.tileSt u)
        ∧ (s.tileSt t = .fenced → s.mgmt.releasing.testBit t = false → s'.mgmt.crst.testBit t = true ∧ s'.mgmt.releasing.testBit t = true)
        ∧ (s.tileSt t ≠ .fenced → s'.flt.fenceErr = true))
      ∧ (∃ s', exec (.coreResetMask w v) s = .next s' ∧ frame s' ∧ s'.tiles = s.tiles ∧ (∀ u, s'.tileSt u = s.tileSt u)
        ∧ (s.tileSt t ≠ .inService → s.tileSt t ≠ .admitting → s'.mgmt.crst.testBit t = true)
        ∧ (s.tileSt t = .inService ∨ s.tileSt t = .admitting → s'.mgmt.crstErr = true)))
    ∧ (∀ pass, s.mgmt.crst.testBit t = true → s.clocked = true →
      ∃ s', exec (.crstDone t pass) s = .next s' ∧ frame s' ∧ s'.tile t = Tile.init ∧ s'.mgmt.crst.testBit t = false
        ∧ s'.mgmt.releasing.testBit t = false ∧ (∀ u, u ≠ t → s'.tile u = s.tile u ∧ s'.tileSt u = s.tileSt u)
        ∧ s'.tileSt t = if s.mgmt.releasing.testBit t = true ∧ s.tileSt t = .fenced then (if pass then .spare else .failed)
          else s.tileSt t)

/-- R458: a descriptor that a fault has ended and that may be replayed starts again on the same logical cores, its replay count one
higher; R452: with an absent core it ends with `KILLED`, cause 0x18. R462: at the commit point a `COMMIT` descriptor of which every
member has ended begins to apply, and once its records are applied in order, their bytes are in memory homed here and it is complete. R449: a fault of
the uncore isolates the die. -/
def Obligations.ReplaysCommitsAndUncoreFaults : Prop :=
  ∀ (s : State),
    (∀ b, (s.pkg.isolated = true → exec (.uncoreFault b) s = .next s)
      ∧ (s.pkg.isolated = false → ∃ s', exec (.uncoreFault b) s = .next s' ∧ s'.pkg.isolated = true ∧ s'.pkg.alertN = true
        ∧ s'.fuses = s.fuses ∧ s'.sec = s.sec))
    ∧ ∀ uid d, s.desc uid = some d →
      (d.willReplay = false → exec (.descReplay uid) s = .next s)
      ∧ (d.willReplay = true → d.st ≠ .finished →
        ((∀ c ∈ d.cores, (s.core c).st = .mapped) →
          ∃ s' d', exec (.descReplay uid) s = .next s' ∧ d' ∈ s'.qm.descs ∧ d'.uid = uid ∧ d'.st = .running ∧ d'.outcome = none
            ∧ d'.acted = false ∧ d'.ended = [] ∧ d'.startTs = s.now ∧ d'.replays = d.replays + 1 ∧ d'.cores = d.cores
            ∧ s'.flt.replayCount = min (s.flt.replayCount + 1) (2 ^ 32 - 1))
        ∧ ((∃ c ∈ d.cores, (s.core c).st = .absent) →
          ∃ s' d', exec (.descReplay uid) s = .next s' ∧ d' ∈ s'.qm.descs ∧ d'.uid = uid ∧ d'.outcome = some (0x18, 0x18, 127)))
      ∧ (d.opcode = 1 → d.commit = true → d.st = .running → d.outcome = none → d.allEnded = true →
        ∃ s' d', exec (.commitPoint uid) s = .next s' ∧ d' ∈ s'.qm.descs ∧ d'.uid = uid ∧ d' = { d with committing := true }
          ∧ s'.mem = s.mem ∧ s'.tiles = s.tiles)
      ∧ (d.committing = true → d.outcome = none → s.clocked = true → d.xfer = none → s.inLimit d = true →
        s.rdc.sharers = [] → s.rdc.invs = [] →
        (∀ r ∈ s.logRecords d, r.1 % granuleBytes + r.2.length ≤ granuleBytes ∧ s.held r.1 r.2.length = false ∧ s.deny d.job true false r.1 r.2.length = 0
          ∧ s.isPoisoned r.1 r.2.length = false ∧ s.isHome r.1 = true ∧ isHostAddr r.1 = false) →
        ∃ s' d', exec (.commitApplyDone uid) s = .next s' ∧ d' ∈ s'.qm.descs ∧ d'.uid = uid ∧ d'.outcome = some (stOK, 0, 127)
          ∧ s'.mem = (s.logRecords d).foldl (fun m r => m.wrBytes r.1 r.2) s.mem)

/-! ### The timestamp, the Bellows and the budget (spec/18) -/

/-- R477, R478: the first valid frame sets the counter; a later one steps a counter that is behind forward at once, lets one that is
ahead by *e* count at half its rate for 2·*e* ns, and sets `SLIP` when the difference exceeds 1000 ns. A master ignores `TSYNC_IN` and
aligns to the frames that it emits, one number after the other; before PLL lock no counter runs, and frames that are emitted through
SRST go on. R478: 3 ms without a frame set `NOSYNC`. R480: a read of `TS_LO` returns
the low half and latches the high half of the same value. Tiles, memory homes, fuses and Bellows are as before. -/
def Obligations.TimestampFollowsFrames : Prop :=
  ∀ (s : State) (k since : Nat),
    let frame := fun (s' : State) => s'.tiles = s.tiles ∧ s'.cfg = s.cfg ∧ s'.fuses = s.fuses ∧ s'.bw = s.bw ∧ s'.pending = s.pending
    let target := k % 2 ^ 44 * 10 ^ 6 + s.tsAdj
    let lands := fun (s' : State) =>
      (s.time.aligned = false → s'.time.ts = target + since ∧ s'.time.aligned = true)
      ∧ (s.time.aligned = true → s.now < target + since →
          s'.time.ts = target + since ∧ s'.time.slew = 0 ∧ s'.time.slip = (s.time.slip || decide (1000 < target + since - s.now)))
      ∧ (s.time.aligned = true → target + since ≤ s.now →
          s'.time.ts = s.now ∧ s'.time.slew = 2 * (s.now - (target + since))
          ∧ s'.time.slip = (s.time.slip || decide (1000 < s.now - (target + since))))
    (s.clocked = true → s.isMaster = false → 5 ≤ s.mgmt.stage → ∃ s', exec (.tsyncFrame k since) s = .next s' ∧ lands s' ∧ frame s')
    ∧ (s.isMaster = true → exec (.tsyncFrame k since) s = .next s)
    ∧ (s.mgmt.stage < 5 → exec (.tsyncFrame k since) s = .next s)
    ∧ (s.emits = true →
        (5 ≤ s.mgmt.stage → k = s.time.masterMs →
          ∃ s', exec (.tsyncEmit since) s = .next s' ∧ lands s' ∧ frame s' ∧ s'.time.masterMs = s.time.masterMs + 1)
        ∧ (s.mgmt.stage < 5 → ∃ s', exec (.tsyncEmit since) s = .next s' ∧ frame s'
            ∧ s'.time = { s.time with masterMs := s.time.masterMs + 1 }))
    ∧ (s.emits = false → exec (.tsyncEmit since) s = .next s)
    ∧ (s.time.nosync = false → 5 ≤ s.mgmt.stage → s.time.lastFrame + 3 * 10 ^ 6 ≤ s.now →
        ∃ s', exec .tsNosync s = .next s' ∧ s'.time = { s.time with nosync := true } ∧ frame s')
    ∧ (s.now < s.time.lastFrame + 3 * 10 ^ 6 → exec .tsNosync s = .next s)
    ∧ ∃ s', exec .tsLoRead s = .next s' ∧ frame s' ∧ s'.mem = s.mem
        ∧ s'.time = { s.time with hiLatch := BitVec.ofNat 32 (s.now / 2 ^ 32) } ∧ s'.mgmt = { s.mgmt with rdData := BitVec.ofNat 32 s.now }

/-- R486, with the clocks running at the end of a new window: a current at the limit stretches the clock and one below 90 % of it ends
the stretch; a sample that reaches `TJ_WARN` raises the warning with `ALERT_N` (R488). An average power above the target lowers the core
clock by a step, or raises *q* at the lowest step; two averages in a row that are not above it let *q* fall or the clock rise by a step, up to
the ceiling; the register writes that waited take effect (R489). A hot average lowers the ceiling, and the clock with it; one 3 °C below the
target raises it. R488: a trip stops the clocks for good. Log 24 names the readings of R486 that this rests on. -/
def Obligations.BellowsWindowsDecide : Prop :=
  ∀ (s : State), s.clocked = true →
    let b := s.bw
    let frame := fun (s' : State) => s'.tiles = s.tiles ∧ s'.fuses = s.fuses ∧ s'.sec = s.sec ∧ s'.time = s.time ∧ s'.pending = s.pending
    let high := (s.grantNow - s.rfld 0x2C04 10 6) * 10 * b.powN < b.powSum
    let target := s.rfld 0x2C04 16 7
    (∀ amps dw tjq tile, b.curWin < s.now / 1000 →
      ∃ s', exec (.currentWindowEnd amps dw tjq tile) s = .next s' ∧ frame s' ∧ s'.cfg = s.cfg
        ∧ s'.bw.stretch = (if s.rfld 0x2C04 0 10 ≤ amps then true else if 10 * amps < 9 * s.rfld 0x2C04 0 10 then false else b.stretch)
        ∧ s'.bw.powSum = b.powSum + dw ∧ s'.bw.powN = b.powN + 1 ∧ s'.bw.tjSum = b.tjSum + tjq ∧ s'.bw.tjN = b.tjN + 1
        ∧ s'.bw.curPeak = max b.curPeak amps ∧ s'.bw.freqStep = b.freqStep ∧ s'.bw.duty = b.duty ∧ s'.bw.ceilStep = b.ceilStep
        ∧ (8 * s.rfld 0x2C04 24 7 ≤ tjq → s'.bw.warn = true) ∧ (b.warn = false → 8 * s.rfld 0x2C04 24 7 ≤ tjq → s'.pkg.alertN = true)
        ∧ (tjq + 16 < 8 * s.rfld 0x2C04 24 7 → s'.bw.warn = false))
    ∧ (b.powWin < s.now / 10 ^ 5 → s.now / 10 ^ 7 ≤ b.thermWin → 0 < b.powN →
      ∃ s', exec .powerWindowEnd s = .next s' ∧ frame s' ∧ s'.bw.avgPower = b.powSum / b.powN ∧ s'.bw.powN = 0 ∧ s'.bw.powSum = 0
        ∧ s'.bw.pend = [] ∧ s'.bw.grant ≤ s'.envelope ∧ s'.bw.ceilStep = b.ceilStep ∧ s'.bw.stretch = b.stretch
        ∧ (high → if b.freqStep = 0 then s'.bw.duty = min 7 (b.duty + 1) ∧ s'.bw.freqStep = 0
            else s'.bw.freqStep = b.freqStep - 1 ∧ s'.bw.duty = b.duty)
        ∧ (¬high → b.lowLast = true → b.lowered ≠ some (s.now / 10 ^ 5) →
            if b.duty ≠ 0 then s'.bw.duty = b.duty - 1 ∧ s'.bw.freqStep = b.freqStep
            else s'.bw.duty = 0 ∧ s'.bw.freqStep = max b.freqStep (min (b.freqStep + 1) (min 14 b.ceilStep)))
        ∧ (¬high → b.lowLast = false → s'.bw.duty = b.duty ∧ s'.bw.freqStep = b.freqStep)
        ∧ (b.pend = [] → s'.cfg = s.cfg))
    ∧ (b.thermWin < s.now / 10 ^ 7 → 0 < b.tjN →
      ∃ s', exec .thermalWindowEnd s = .next s' ∧ frame s' ∧ s'.cfg = s.cfg ∧ s'.bw.tjN = 0 ∧ s'.bw.tjSum = 0
        ∧ (8 * target * b.tjN < b.tjSum → if b.ceilStep = 0 then s'.bw.duty = min 7 (b.duty + 1) ∧ s'.bw.freqStep = b.freqStep
            else s'.bw.ceilStep = b.ceilStep - 1 ∧ s'.bw.freqStep = min b.freqStep (b.ceilStep - 1))
        ∧ (b.tjSum ≤ 8 * target * b.tjN → s'.bw.freqStep = b.freqStep ∧ s'.bw.duty = b.duty
            ∧ s'.bw.ceilStep = if b.tjSum < 8 * (target - 3) * b.tjN ∧ ¬high then min 14 (b.ceilStep + 1) else b.ceilStep))
    ∧ (s.bw.trip = false → ∃ s', exec .thermalTrip s = .next s' ∧ s'.clocked = false ∧ s'.pkg.thermtripN = true ∧ s'.fuses = s.fuses
        ∧ ∀ p, p < Config.ports → (s'.port p).st ≠ .up)

/-- R484: the grants for members with envelopes of at least 200 W never exceed their envelopes, nor in total the budget, where there is
one. R483: at the start of a round a member reports to the leader; the leader sends its grants when every member has reported, and at the
deadline whoever has not. R485: a grant within the envelope is applied and ends the fallback, one above it changes nothing; three
rounds without a grant begin the fallback. -/
def Obligations.BudgetRoundsGiveGrants : Prop :=
  (∀ pkgW (ms : List (Nat × Nat)), (∀ m ∈ ms, 200 ≤ m.1) →
    (grantsFor pkgW ms).length = ms.length
    ∧ (∀ i (h : i < ms.length), (grantsFor pkgW ms)[i]?.getD 0 ≤ ms[i].1 ∧ 200 ≤ (grantsFor pkgW ms)[i]?.getD 0)
    ∧ (pkgW ≠ 0 → (grantsFor pkgW ms).sum ≤ max pkgW (200 * ms.length)))
  ∧ ∀ (s : State), s.clocked = true → s.pkg.accepted = true →
    let r := s.now / 50000
    (s.bw.round < r →
      ∃ s', exec .budgetRoundStart s = .next s' ∧ s'.bw.round = r ∧ s'.tiles = s.tiles ∧ s'.fuses = s.fuses
        ∧ (s.pkg.leader ≠ s.pos → s'.bw.fallback = (s.bw.fallback || (!s.bw.gotGrant && decide (2 ≤ s.bw.late))))
        ∧ ∀ p, s.pkg.leader ≠ s.pos → s.route s.pkg.leader 4 0 none = some p →
          ∃ k, s'.holds p k ∧ k.cls = 4 ∧ k.ptype = 5 ∧ k.dstDie = s.pkg.leader ∧ pktLE k 0 1 = 1 ∧ pktLE k 2 2 = r % 65536
            ∧ pktLE k 4 2 = s.bw.avgPower / 10 % 65536 ∧ pktLE k 6 2 = s.envelope)
    ∧ (∀ p k0, s.accepts p (asType k0 4 5) = true →
      (pktLE k0 0 1 = 2 → pktLE k0 1 1 = s.pos →
        ∃ s', exec (.budgetGrant p k0) s = .next s' ∧ s'.tiles = s.tiles ∧ s'.cfg = s.cfg
          ∧ (pktLE k0 8 2 ≤ s.envelope → s'.bw = { s.bw with
              grant := pktLE k0 8 2, fallback := false, gotGrant := true, late := 0, grantRound := pktLE k0 2 2 })
          ∧ (s.envelope < pktLE k0 8 2 → s'.bw = s.bw))
      ∧ (pktLE k0 0 1 = 1 → s.pkg.leader = s.pos → pktLE k0 1 1 < 8 →
        ∃ s', exec (.budgetReport p k0) s = .next s' ∧ s'.tiles = s.tiles ∧ s'.cfg = s.cfg
          ∧ Tab.get none s'.bw.reports (pktLE k0 1 1) = some (pktLE k0 2 2, pktLE k0 6 2, pktLE k0 4 2)))
    ∧ (s.pkg.leader = s.pos → s.bw.granted = false → 50000 * s.bw.round + 10000 ≤ s.now →
      ∃ s', exec .budgetGrantDeadline s = .next s' ∧ s'.bw.granted = true ∧ s'.tiles = s.tiles ∧ s'.cfg = s.cfg
        ∧ ∀ i (h : i < s.memberList.length) p, s.memberList[i] ≠ s.pos → s.route s.memberList[i] 4 0 none = some p →
          ∃ k, s'.holds p k ∧ k.cls = 4 ∧ k.ptype = 5 ∧ k.dstDie = s.memberList[i] ∧ pktLE k 0 1 = 2
            ∧ pktLE k 8 2 = (grantsFor (s.rfld 0x2C08 0 14) (s.memberList.map s.lastReport))[i]?.getD 0 % 65536)

/-! ### Onjan (spec/19) -/

/-- R496, R497: with the random source at work and no command in progress, `ATTEST` captures a report with the nonce, the identity and
the time; without authority for it the error code says why; the signed report becomes valid and is read word by word, and without one a
read returns 0 with `ERR`. R506: a challenge of eight words is drawn. R509: a failed test stops the random source, after which a read
of `SEC_RNG` returns 0 with `ERR`, and a challenge is refused. The drawn words are free values. -/
def Obligations.AttestationChallengesAndRandom : Prop :=
  ∀ (s : State),
    let frame := fun (s' : State) => s'.tiles = s.tiles ∧ s'.fuses = s.fuses ∧ s'.sec.life = s.sec.life ∧ s'.sec.minSvn = s.sec.minSvn
      ∧ s'.pending = s.pending
    let refusal := if s.sec.cmd ≠ 0 ∨ s.sec.life = .blank ∨ s.sec.life = .retired then 1
      else if s.sec.zeroise = true ∨ s.sec.idKey = false then 8 else if s.sec.rngOk = false then 7 else 0
    (refusal ≠ 0 → exec .attest s = .next { s with sec := { s.sec with cmdErr := true, errCode := refusal } })
    ∧ (refusal = 0 → ∃ s', exec .attest s = .next s' ∧ frame s' ∧ s'.cfg = s.cfg ∧ s'.sec.cmd = 1 ∧ s'.sec.rptValid = false
      ∧ Tab.get 0 s'.sec.report 0 = 1 ∧ Tab.get 0 s'.sec.report 1 = s.reg 0x0000 ∧ Tab.get 0 s'.sec.report 4 = s.reg 0x0008
      ∧ Tab.get 0 s'.sec.report 8 = BitVec.ofNat 32 s.mgmt.fwVersion ∧ Tab.get 0 s'.sec.report 10 = BitVec.ofNat 32 s.sec.minSvn
      ∧ Tab.get 0 s'.sec.report 14 = BitVec.ofNat 32 s.now
      ∧ ∀ i, i < 12 → Tab.get 0 s'.sec.report (40 + i) = s.reg (0x3060 + 4 * i))
    ∧ (s.sec.cmd = 1 → ∃ s', exec .attestDone s = .next s' ∧ frame s' ∧ s'.sec.cmd = 0 ∧ s'.sec.rptValid = true
      ∧ ∀ i, i < 112 → Tab.get 0 s'.sec.report i = Tab.get 0 s.sec.report i)
    ∧ (∃ s', exec .secRptDataRead s = .next s' ∧ frame s' ∧ s'.mem = s.mem
      ∧ (s.sec.rptValid = true → s.rfld 0x3018 0 8 < 136 → s'.mgmt.rdData = Tab.get 0 s.sec.report (s.rfld 0x3018 0 8))
      ∧ (s.sec.rptValid = false → s'.mgmt.rdData = 0 ∧ s'.sec.cmdErr = true)
      ∧ s'.rfld 0x3018 0 8 = (s.rfld 0x3018 0 8 + 1) % 256)
    ∧ (s.sec.rngOk = true → ∃ s', exec .challenge s = .next s' ∧ frame s' ∧ s'.sec.challengeOk = true
      ∧ ∀ i, i < 8 → Tab.get 0 s'.sec.challenge i = Config.freeWord s.free i)
    ∧ (s.sec.rngOk = false → exec .challenge s = .next { s with sec := { s.sec with cmdErr := true, errCode := 7 } })
    ∧ (∃ s', exec .secRngRead s = .next s' ∧ frame s' ∧ s'.mem = s.mem
      ∧ (s.sec.rngOk = true → s'.mgmt.rdData = Config.freeWord s.free 0 ∧ s'.sec = s.sec)
      ∧ (s.sec.rngOk = false → s'.mgmt.rdData = 0 ∧ s'.sec.cmdErr = true))
    ∧ ∀ test, (s.sec.rngOk = true → ∃ s', exec (.rngTestFail test) s = .next s' ∧ frame s' ∧ s'.sec.rngOk = false)
      ∧ (s.sec.rngOk = false → exec (.rngTestFail test) s = .next s)

/-- R506: token words enter in order; a submission uses up the challenge and is refused at once under lockout; a token whose challenge,
serial number or signature does not match is refused, and the third refusal locks. R506, R508: an accepted token of scope 1 authorises the
debugger, in `PRODUCTION` only after every core is scrubbed and `ZEROISE` set; R492: scope 2 begins to program the three copies
for the transition from `DEVELOPMENT` to `PRODUCTION`, scope 3 for the one to `RETIRED`, which also takes the identity key away. R507: `DBG_LOCK` takes the authority away but in `BLANK`. -/
def Obligations.TokensAuthoriseTransitions : Prop :=
  ∀ (s : State),
    let match' := s.sec.challengeOk && (List.range 8).all (fun i => Tab.get 0 s.sec.challenge i == s.sec.tok (0x10 + 4 * i))
    let refused := fun (c : Instr) (busy code : Nat) => ∃ s', exec c s = .next s' ∧ s'.sec.cmd = busy ∧ s'.sec.errCode = code ∧ s'.sec.cmdErr = true
      ∧ s'.sec.refusals = min 255 (s.sec.refusals + 1) ∧ (2 ≤ s.sec.refusals → s'.sec.lockout = true) ∧ s'.sec.dbgAuth = s.sec.dbgAuth
      ∧ s'.sec.life = s.sec.life ∧ s'.sec.copies = s.sec.copies ∧ s'.mgmt.pulses = s.mgmt.pulses ∧ s'.tiles = s.tiles
    let programs := fun (s' : State) (l : Life) => s'.mgmt.pulses = s.mgmt.pulses ++ [.life 0 l, .life 1 l, .life 2 l]
    (∀ v : Word, ∃ s', exec (.secTokenDataWrite v) s = .next s' ∧ s'.mem = s.mem ∧ s'.tiles = s.tiles
      ∧ s'.rfld 0x3020 0 6 = (s.rfld 0x3020 0 6 + 1) % 64
      ∧ ∀ i, Tab.get 0 s'.sec.token i = if i = s.rfld 0x3020 0 6 ∧ i < 36 then v else Tab.get 0 s.sec.token i)
    ∧ (s.sec.lockout = true → refused .tokenSubmit s.sec.cmd 5)
    ∧ (s.sec.lockout = false → s.sec.cmd = 0 →
      exec .tokenSubmit s = .next { s with sec := { s.sec with challengeOk := false, tokenHit := match', cmd := 2 } })
    ∧ (s.sec.cmd = 2 → ∀ sigOk,
      (s.tokenCheck sigOk ≠ 0 → refused (.tokenVerifyDone sigOk) 0 (s.tokenCheck sigOk))
      ∧ (s.sec.tok 0 = 1 → s.sec.tok 4 ≠ s.reg 0x0000 ∨ s.sec.tokenHit = false → refused (.tokenVerifyDone sigOk) 0 3)
      ∧ (s.sec.tok 0 = 1 → s.sec.tok 4 = s.reg 0x0000 → s.sec.tokenHit = true → refused (.tokenVerifyDone false) 0 2)
      ∧ (s.tokenCheck sigOk = 0 → s.sec.tok 8 = 1 → s.sec.life ≠ .production →
        ∃ s', exec (.tokenVerifyDone sigOk) s = .next s' ∧ s'.sec = { s.sec with cmd := 0, dbgAuth := true } ∧ s'.tiles = s.tiles)
      ∧ (s.tokenCheck sigOk = 0 → s.sec.tok 8 = 1 → s.sec.life = .production →
        ∃ s', exec (.tokenVerifyDone sigOk) s = .next s' ∧ s'.sec.dbgAuth = true ∧ s'.sec.zeroise = true ∧ s'.sec.life = .production
          ∧ ∀ t, t < Config.tiles → (s'.tile t).spad.owner = none ∧ (s'.tile t).ma0.acc = [] ∧ (s'.tile t).vec.t = [] ∧ (s'.tile t).row.reed = [])
      ∧ (s.tokenCheck sigOk = 0 → s.sec.tok 8 = 2 → s.sec.life = .development ∧
        (s.mgmt.pendingReset = none →
          ∃ s', exec (.tokenVerifyDone sigOk) s = .next s' ∧ s'.sec = { s.sec with cmd := 0 } ∧ s'.tiles = s.tiles ∧ programs s' .production))
      ∧ (s.tokenCheck sigOk = 0 → s.sec.tok 8 = 3 → s.mgmt.pendingReset = none →
        ∃ s', exec (.tokenVerifyDone sigOk) s = .next s' ∧ s'.sec = { s.sec with cmd := 0, idKey := false } ∧ programs s' .retired))
    ∧ (s.sec.life = .blank → exec .dbgLock s = .next s)
    ∧ (s.sec.life ≠ .blank → exec .dbgLock s = .next { s with sec := { s.sec with dbgAuth := false } })

/-- R495: `SVN_COMMIT` begins one pulse for each step that the minimum version rises to that of the running image, and is refused under the
development key; FK0 is revoked only by firmware signed with FK1. R436: pulses take effect one after another as their time ends; a
reset that waits cuts those to come. R503: a write of `SEC_MEMENC` changes no bit of a stack in use, and sets none back once
`LOCKED`; such a write is refused whole. R505: in `DEVELOPMENT` the held slots of a job are released and scrubbed; otherwise nothing happens. -/
def Obligations.RollbackMemoryAndHeldSlots : Prop :=
  ∀ (s : State),
    let steps := min s.sec.fwSvn 64 - (s.sec.minSvn + s.mgmt.svnSteps)
    (s.sec.fwKey ≠ 1 → s.mgmt.pendingReset = none → ∃ s', exec .svnCommit s = .next s' ∧ s'.sec = s.sec ∧ s'.fuses = s.fuses ∧ s'.tiles = s.tiles
      ∧ s'.mgmt.svnSteps = s.mgmt.svnSteps + steps ∧ s.mgmt.pulses <+: s'.mgmt.pulses)
    ∧ (s.sec.fwKey = 1 → exec .svnCommit s = .next { s with sec := { s.sec with cmdErr := true, errCode := 1 } })
    ∧ (s.sec.fwKey = 3 → s.mgmt.pendingReset = none →
      ∃ s', exec .fk0Revoke s = .next s' ∧ s'.sec = s.sec ∧ s'.tiles = s.tiles ∧ s'.mgmt.pulses = s.mgmt.pulses ++ [.fk0])
    ∧ (s.sec.fwKey ≠ 3 → exec .fk0Revoke s = .next { s with sec := { s.sec with cmdErr := true, errCode := 1 } })
    ∧ (∀ q l, s.pending = [] → s.mgmt.pulses = q :: l →
      (1 < s.mgmt.pulseNs → ∃ s', step s = .next s' ∧ s'.mgmt = { s.mgmt with pulseNs := s.mgmt.pulseNs - 1 } ∧ s'.sec.minSvn = s.sec.minSvn
        ∧ s'.sec.fk0Revoked = s.sec.fk0Revoked ∧ s'.fuses = s.fuses)
      ∧ (s.mgmt.pulseNs ≤ 1 → ∃ s', step s = .next s' ∧ s'.mgmt.pulses = (if s.mgmt.pendingReset.isSome then [] else l)
        ∧ (∀ old last, q = .svn old last → s'.sec.minSvn = s.sec.minSvn + 1) ∧ (q = .fk0 → s'.sec.fk0Revoked = true)
        ∧ (∀ w b, q = .bit w b → b < 32 → (s'.fuse w).getLsbD b = true) ∧ s'.sec.life = s.sec.life))
    ∧ (∀ v : Word,
      let barred := ∃ k, k < 4 ∧ s.sec.memEnc.testBit k ≠ v.toNat.testBit k
        ∧ (s.stackInUse k = true ∨ (s.sec.memEnc.testBit k = true ∧ s.sec.memEnc.testBit 4 = true))
      (barred → exec (.secMemencWrite v) s = .next { s with sec := { s.sec with cmdErr := true, errCode := 6 } })
      ∧ (¬barred → ∃ s', exec (.secMemencWrite v) s = .next s' ∧ s'.sec.memEnc / 16 = s.sec.memEnc / 16
        ∧ s'.sec.memEnc % 16 = v.toNat % 16 ∧ s'.sec.cmdErr = s.sec.cmdErr ∧ s'.tiles = s.tiles ∧ s'.mem = s.mem))
    ∧ ∀ j,
      (s.sec.life = .development → (∃ t, t < Config.tiles ∧ (s.tile t).spad.retain = some j) →
        ∃ s', exec (.secRetainRelease j) s = .next s' ∧ s'.sec = s.sec ∧ s'.fuses = s.fuses
          ∧ ∀ t, t < Config.tiles → s'.tile t = if (s.tile t).spad.retain = some j then (s.tile t).scrub else s.tile t)
      ∧ (s.sec.life ≠ .development → exec (.secRetainRelease j) s = .next s)

/-! ### Test access, telemetry (spec/20, spec/23) -/

/-- R513 to R517: each instruction becomes the one in force with what it does to the outputs and what its data register captures; one
whose condition fails selects `BYPASS` and sets `REFUSED`; after `SCAN` nothing runs. The instruction in force after a TAP reset is the model's
choice (log 26). R519: `FUSE_PROG` of a word that may be written begins one pulse for each set bit that still reads 0, lowest first, only with the supply on,
and clears none; R520:
`FUSE_VERIFY` senses a word. Tiles, ports, management and security are untouched. -/
def Obligations.TapInstructionsAndFuses : Prop :=
  ∀ (s : State),
    let frame := fun (s' : State) => s'.tiles = s.tiles ∧ s'.ports = s.ports ∧ s'.mgmt = s.mgmt ∧ s'.sec = s.sec ∧ s'.mem = s.mem
      ∧ s'.cfg = s.cfg ∧ s'.pending = s.pending ∧ s'.tst.trace = s.tst.trace
    let takes := fun (c : Instr) (ir out : Nat) => ∃ s', exec c s = .next s' ∧ frame s' ∧ s'.fuses = s.fuses ∧ s'.tst.ir = ir
      ∧ s'.tst.outMode = out ∧ s'.tst.refused = s.tst.refused ∧ (c ≠ .scan → s'.tst.scanned = s.tst.scanned)
    let refuses := fun (c : Instr) => ∃ s', exec c s = .next s' ∧ frame s' ∧ s'.fuses = s.fuses ∧ s'.tst.ir = 0xFF
      ∧ s'.tst.outMode = 0 ∧ s'.tst.refused = true ∧ s'.tst.boundary = s.tst.boundary ∧ s'.tst.scanned = s.tst.scanned
    let on := bitAt (s.reg 0x2000) 0
    takes .tapReset 0x01 0 ∧ takes .idcode 0x01 0 ∧ takes .bypass 0xFF 0
    ∧ (∃ s', exec .idcode s = .next s' ∧ s'.tst.dr = 0x27A109A7)
    ∧ (∀ cells, takes (.samplePreload cells) 0x02 0 ∧ (∃ s', exec (.samplePreload cells) s = .next s' ∧ s'.tst.boundary = cells % 2 ^ 212)
      ∧ (on = false → takes (.extest cells) 0x00 1 ∧ ∃ s', exec (.extest cells) s = .next s' ∧ s'.tst.boundary = cells % 2 ^ 212)
      ∧ (on = true → refuses (.extest cells)))
    ∧ (on = false → takes .clamp 0x03 2 ∧ takes .highz 0x04 3) ∧ (on = true → refuses .clamp ∧ refuses .highz)
    ∧ (∀ v, takes (.wirSel v) 0x08 0 ∧ ∃ s', exec (.wirSel v) s = .next s' ∧ s'.tst.wir = v % 64)
    ∧ (s.sec.dbgAuth = true → on = false → takes .scan 0x20 0 ∧ ∃ s', exec .scan s = .next s' ∧ s'.clocked = false)
    ∧ (s.sec.dbgAuth = false ∨ on = true → refuses .scan)
    ∧ (∀ w bits vpp, w < 512 →
      (s.fuseRefused w bits = true → ∃ s', exec (.fuseProg w bits vpp) s = .next s' ∧ frame s' ∧ s'.fuses = s.fuses ∧ s'.tst.refused = true)
      ∧ (s.fuseRefused w bits = false → vpp = false → ∃ s', exec (.fuseProg w bits vpp) s = .next s' ∧ frame s' ∧ s'.fuses = s.fuses
        ∧ s'.tst.ir = 0x18)
      ∧ (s.fuseRefused w bits = false → vpp = true → s.mgmt.pendingReset = none →
        ∃ s', exec (.fuseProg w bits vpp) s = .next s' ∧ s'.tst.ir = 0x18 ∧ s'.fuses = s.fuses ∧ s'.tiles = s.tiles ∧ s'.ports = s.ports
          ∧ s'.sec = s.sec ∧ s'.mem = s.mem ∧ s'.cfg = s.cfg
          ∧ s'.mgmt.pulses = s.mgmt.pulses ++ (bitList (bits &&& ~~~(s.fuse w)).toNat 32).map (FusePulse.bit w)))
    ∧ ∀ w, w < 512 → ∃ s', exec (.fuseVerify w) s = .next s' ∧ frame s' ∧ s'.fuses = s.fuses ∧ s'.tst.ir = 0x19
        ∧ (0x100 ≤ w → s'.tst.fuseData = s.fuse w)

/-- R521: a BIST of kind 1 or 2 runs on a `SPARE`, `FENCED` or `FAILED` tile while none is in progress, else `ERR` is set; its end leaves
the result and changes the state of no tile but a spare whose admission waited for it. R522: a port test runs on a lane of a port that is off, or
in mode 2 on a lane out of service of a port that is `UP`; its end leaves the error count or the trained values. -/
def Obligations.BistAndPortTests : Prop :=
  ∀ (s : State),
    let frame := fun (s' : State) => s'.tiles = s.tiles ∧ s'.fuses = s.fuses ∧ s'.sec = s.sec ∧ s'.cfg = s.cfg ∧ s'.mgmt = s.mgmt
    (∀ t kind,
      let ok := t < Config.tiles ∧ (kind = 1 ∨ kind = 2) ∧ s.tst.bistBusy = false
        ∧ (s.tileSt t = .spare ∨ s.tileSt t = .fenced ∨ s.tileSt t = .failed)
      (ok → exec (.bistRun t kind) s = .next { s with tst := { s.tst with
        bistBusy := true, bistTile := t, bistKind := kind, bistPass := false } })
      ∧ (¬ok → exec (.bistRun t kind) s = .next { s with tst := { s.tst with bistErr := true } }))
    ∧ (s.tst.bistBusy = true → ∀ pass store, ∃ s', exec (.bistDone pass store) s = .next s' ∧ frame s'
      ∧ s'.tst.bistBusy = false ∧ s'.tst.bistPass = pass ∧ s'.tst.bistFail = (if pass then 0 else store % 256)
      ∧ ((∀ a ∈ s.kw.admitting, a.1 ≠ 127) → ∀ t, s'.tileSt t = s.tileSt t))
    ∧ (s.tst.bistBusy = false → ∀ pass store, exec (.bistDone pass store) s = .next s)
    ∧ (∀ p mode lane ok,
      let off := (s.port p).st = .down ∧ s.portEn p = false
      let runs := p < Config.ports ∧ lane < 68 ∧ s.tst.ptBusy = false ∧ ((mode = 1 ∧ off) ∨ (mode = 2 ∧ ((off ∧ ok = true)
        ∨ ((s.port p).st = .up ∧ lane ∉ inService (s.reg (0x100C + 0x40 * p))))))
      (runs → exec (.portTestRun p mode lane ok) s = .next { s with tst := { s.tst with
        ptBusy := true, ptPort := p, ptMode := mode, ptLane := lane, ptDone := false } })
      ∧ (¬runs → exec (.portTestRun p mode lane ok) s = .next { s with tst := { s.tst with ptErr := true } }))
    ∧ ∀ errors tm vm, s.tst.ptBusy = true → ∃ s', exec (.portTestDone errors tm vm) s = .next s' ∧ frame s' ∧ s'.tst.ptBusy = false
        ∧ s'.tst.ptDone = true ∧ (s.tst.ptMode = 1 → s'.tst.ptErrors = min 255 errors)
        ∧ (s.tst.ptMode ≠ 1 → s'.tst.ptT = tm % 256 ∧ s'.tst.ptV = vm % 256)

/-- R523: `HALT`, `STEP` and `RESUME` act on a running sequencer only for an authorised debugger, else they are refused. R525: an access of
the window reads or writes the word of the tile's store and advances the address by 4; R251, R252, R525: a refused one reads 0, changes no
tile and sets `ACC_ERR`. R526: a write makes the descriptor's run escape. R528: a trace read returns the word at the index, 0 without
authorisation, and advances it; `CLEAR` empties the buffer. -/
def Obligations.DebuggerAndTrace : Prop :=
  ∀ (s : State) (t : Nat), t < Config.tiles →
    let z := (s.tile t).seq
    let frame := fun (s' : State) => s'.fuses = s.fuses ∧ s'.sec = s.sec ∧ ∀ u, u ≠ t → s'.tile u = s.tile u
    (s.dbgOpen = false → let no := Host.Outcome.next { s with tst := { s.tst with refused := true } }
      exec (.dbgHalt t) s = no ∧ exec (.dbgStep t) s = no ∧ exec (.dbgResume t) s = no)
    ∧ (s.dbgOpen = true →
      (z.phase = .running → z.halted = false → z.stall = none → ∃ s', exec (.dbgHalt t) s = .next s' ∧ frame s'
        ∧ s'.tile t = { s.tile t with seq := { z with halted := true } })
      ∧ (z.phase = .running → z.halted = false → z.stall ≠ none → ∃ s', exec (.dbgHalt t) s = .next s' ∧ frame s'
        ∧ s'.tile t = { s.tile t with seq := { z with haltReq := true } })
      ∧ (z.halted = true → ∃ s', exec (.dbgStep t) s = .next s' ∧ frame s'
        ∧ s'.tile t = { s.tile t with seq := { z with stepping := true } })
      ∧ (∃ s', exec (.dbgResume t) s = .next s' ∧ frame s'
        ∧ s'.tile t = { s.tile t with seq := { z with halted := false, stepping := false, haltReq := false } }))
    ∧ (s.dbgTile = t →
      (∀ v, s.dbgFetch t = some v → ∀ x, ∃ s', exec (.dbgDataAccess false x) s = .next s' ∧ s'.tiles = s.tiles ∧ s'.mem = s.mem
        ∧ s'.mgmt.rdData = v ∧ s'.dbgAddr = ((s.dbgAddr.1 + 4) % 2 ^ 24, s.dbgAddr.2))
      ∧ (s.dbgFetch t = none → ∀ x, ∃ s', exec (.dbgDataAccess false x) s = .next s' ∧ s'.tiles = s.tiles ∧ s'.mgmt.rdData = 0
        ∧ s'.tst.accErr = true)
      ∧ (∀ v q, s.dbgPut t v = some q → ∃ s', exec (.dbgDataAccess true v) s = .next s' ∧ frame s' ∧ s'.tile t = q ∧ s'.mem = s.mem
        ∧ s'.dbgAddr = ((s.dbgAddr.1 + 4) % 2 ^ 24, s.dbgAddr.2))
      ∧ (∀ v, s.dbgPut t v = none → ∃ s', exec (.dbgDataAccess true v) s = .next s' ∧ s'.tiles = s.tiles ∧ s'.tst.accErr = true)
      ∧ (z.halted = true → s.dbgOpen = true → s.powered t = true → (s.tile t).spad.sealed = false → s.dbgAddr.2 = 0 → s.dbgAddr.1 < 128 →
        s.dbgFetch t = some ((s.tile t).reg (BitVec.ofNat 5 (s.dbgAddr.1 / 4)))
        ∧ ∀ v, s.dbgPut t v = some ((s.tile t).setReg (BitVec.ofNat 5 (s.dbgAddr.1 / 4)) v)))
    ∧ (∃ s', exec .traceClear s = .next s' ∧ frame s' ∧ s'.tst.trace = [] ∧ s'.tst.wptr = 0 ∧ s'.tst.full = false ∧ s'.tile t = s.tile t)
    ∧ ∃ s', exec .traceDataRead s = .next s' ∧ frame s' ∧ s'.tst = s.tst ∧ (s.dbgOpen = false → s'.mgmt.rdData = 0)
        ∧ (s.dbgOpen = true → let r := Tab.get (0, 0, 0, 0) s.tst.trace (s.rfld 0x3C28 0 16 / 4)
          s'.mgmt.rdData = ([r.1, r.2.1, r.2.2.1, r.2.2.2][s.rfld 0x3C28 0 16 % 4]?).getD 0)
        ∧ s'.rfld 0x3C28 0 16 = (s.rfld 0x3C28 0 16 + 1) % 2 ^ 16

/-- R561: a write that sets `EN` begins the first window now; one that clears it discards the window in progress. R562: at the end of a
window its counts are shown together, in the units of the registers, and the next window begins where it ended, with what was counted
since. -/
def Obligations.TelemetryWindows : Prop :=
  ∀ (s : State),
    let frame := fun (s' : State) => s'.tiles = s.tiles ∧ s'.mem = s.mem ∧ s'.fuses = s.fuses ∧ s'.mgmt = s.mgmt ∧ s'.tst = s.tst
    (∀ v : Word, ∃ s', exec (.telemCtrlWrite v) s = .next s' ∧ frame s' ∧ s'.telem.running = bitAt v 0
      ∧ s'.telem.shown = s.telem.shown ∧ s'.rfld 0x3800 0 1 = bit1 (bitAt v 0)
      ∧ s'.rfld 0x3800 8 8 = (if fld v 8 8 = 0 then s.rfld 0x3800 8 8 else fld v 8 8)
      ∧ (bitAt v 0 = true → s.telem.running = false → s'.telem.start = s.now ∧ s'.telem.acc = [])
      ∧ (bitAt v 0 = false → s'.telem.acc = []))
    ∧ (s.telem.running = true → s.telem.start + 10 ^ 6 * s.telem.len ≤ s.now →
      ∃ s', exec .telemWindowEnd s = .next s' ∧ frame s' ∧ s'.cfg = s.cfg ∧ s'.telem.running = true
        ∧ s'.telem.start = s.telem.start + 10 ^ 6 * s.telem.len ∧ s'.telem.acc = s.telem.late ∧ s'.telem.late = []
        ∧ s'.telem.winNum = (s.telem.winNum + 1) % 2 ^ 24 ∧ s'.telem.shownStart = s.telem.start
        ∧ ∀ k, k < 8 → Tab.get 0 s'.telem.shown k = min (2 ^ 32 - 1)
          (if k < 4 then Tab.get 0 s.telem.acc k / 4096 else Tab.get 0 s.telem.acc k))
    ∧ (s.telem.running = false ∨ s.now < s.telem.start + 10 ^ 6 * s.telem.len → exec .telemWindowEnd s = .next s)

/-! ### Rules stated whole (R50, R55, R110) -/

/-- R50: an `ISSUE` or `VEC` whose queue is full stalls the sequencer at it; while it is stalled no instruction of the tile runs, whichever it
is; with the queue still full the stall stays; once an entry is free the instruction enters its queue and the stall ends. -/
def Obligations.FullQueueStallsTheSequencer : Prop :=
  ∀ (s : State) (t : Nat),
    (∀ eng c e, s.executes t = true →
      ((∃ cd ia, issueSpec c = some (t, eng, cd, ia) ∧ issueOpOk c (issueWords (s.tile t) ia) = true ∧ ia.ra.toNat + ia.n1.toNat < 32
          ∧ e = issueEntry (s.tile t) cd ia)
        ∨ (∃ vop v, vecSpec c = some (t, vop, v) ∧ eng = 2 ∧ e = vecEntry (s.tile t) vop v)) →
      queueDepth eng ≤ ((s.tile t).queue eng).length →
      exec c s = .next (s.onTile t (fun q => { q with seq := { q.seq with stall := some ⟨eng, e⟩ } })))
    ∧ ∀ st, t < Config.tiles → (s.tile t).seq.stall = some st →
      (∀ c, instrTile c = some t → exec c s = .next s)
      ∧ (queueDepth st.eng ≤ ((s.tile t).queue st.eng).length → exec (.issueStallResume t) s = .next s)
      ∧ (∀ q' e', s.coresRun = true → (s.tile t).seq.phase = .running → (s.tile t).seq.stepping = false → (s.tile t).seq.haltReq = false →
        ((s.tile t).queue st.eng).length < queueDepth st.eng → (s.tile t).more = true →
        issueCheck s.level st.eng { (s.tile t) with seq := { (s.tile t).seq with stall := none } } st.entry = .ok (q', e') →
        ∃ s', exec (.issueStallResume t) s = .next s' ∧ (s'.tile t).seq.stall = none
          ∧ (s'.tile t).queue st.eng = (s.tile t).queue st.eng ++ [e'.captured (s.tile t).seq]
          ∧ (s'.tile t).seq.pc = (s.tile t).seq.pc + 1)

/-- R55: an increment of a token below 65,535, by `TPOST` or by whatever else posts it, adds one; at 65,535 the count stays, and with
`TOKEN_CHECK` in the `CORE_CFG` that governs it the program has stopped with `TOKEN_OVF`. No other token changes. -/
def Obligations.TokenCountsSaturate : Prop :=
  (∀ (q : Tile) (cfg : Word) (k : Nat), q.token k ≤ 65535 →
    (q.postToken cfg k).token k = min 65535 (q.token k + 1) ∧ (∀ j, j ≠ k → (q.postToken cfg k).token j = q.token j)
    ∧ (q.live = true → ((q.postToken cfg k).seq.phase = .faulted causeTokenOvf ↔ q.token k = 65535 ∧ bitAt cfg 1 = true)))
  ∧ ∀ (s : State) (t : Nat) (k : BitVec 3), s.executes t = true → (s.tile t).more = true →
    ((s.tile t).token k.toNat < 65535 → exec (.tpost t k) s = .next (s.onTile t (fun q =>
        (q.setToken k.toNat (q.token k.toNat + 1)).at (q.seq.pc + 1))))
    ∧ ((s.tile t).token k.toNat = 65535 → bitAt (s.tile t).seq.coreCfg 1 = false →
        exec (.tpost t k) s = .next (s.onTile t (fun q => q.at (q.seq.pc + 1))))
    ∧ ((s.tile t).token k.toNat = 65535 → bitAt (s.tile t).seq.coreCfg 1 = true →
        ∃ s', exec (.tpost t k) s = .next s' ∧ (s'.tile t).stoppedBy (s.tile t) causeTokenOvf 0 ∧ (s'.tile t).token k.toNat = 65535)

/-- R110: a `PASS` of four words with `CSTREAM` = 1 and `MODE` other than full that leaves for a queue with room is a program fault of cause
`ILLEGAL`; where S8 is absent (`FEATURE_LEVEL` below 2) that exception of R75 comes first. In mode full `CSTREAM` = 1
is valid: such a `PASS` that passes its checks enters the queue. -/
def Obligations.ChannelStreamNeedsFullMode : Prop :=
  ∀ (s : State) (t : Nat) (ma : Bool) (a : IssueArgs), s.executes t = true →
    let q := s.tile t
    let ws := issueWords q a
    let eng := if ma then 1 else 0
    ws.length = 4 → a.ra.toNat + a.n1.toNat < 32 → (q.queue eng).length < queueDepth eng →
    (passP ws).cstream = true →
    ((passP ws).mode ≠ 0 → (2 ≤ s.level ∨ (passP ws).mode ≠ 3) →
      ∃ s', exec (.pass t ma a) s = .next s' ∧ (s'.tile t).stoppedBy q causeIllegal 0)
    ∧ ∀ q' e', (passP ws).mode = 0 → issueCheck s.level eng q (issueEntry q 0x01 a) = .ok (q', e') → q.more = true →
      ∃ s', exec (.pass t ma a) s = .next s' ∧ (s'.tile t).queue eng = q.queue eng ++ [e'.captured q.seq]
        ∧ (s'.tile t).seq.phase = .running

/-! ### The whole machine -/

/-- A command that names units which the die has (R12, R14) is carried out in every state: no well-formed command is refused or
faults. No command changes the queue of waiting commands: a step takes the front one from it, an idle step leaves it empty, and what waits
stays well formed. The queue is the model's (log 10). -/
def Obligations.CommandsAreCarriedOutAndLeaveTheQueue : Prop :=
  (∀ (c : Instr) (s : State), wellFormed c = true → ∃ s', exec c s = .next s' ∧ s'.pending = s.pending)
  ∧ (∀ (c : Instr) (s s' : State), exec c s = .next s' → s'.pending = s.pending)
  ∧ (∀ s : State, s.queueWf = true → ∃ s', step s = .next s' ∧ s'.pending = s.pending.tail ∧ s'.queueWf = true)

/-- R519, R495, R492: in every state where neither the majority of the lifecycle copies nor a pulse that is to program one lies behind the
lifecycle in effect, and after every step whatever the command: a fuse bit that is blown stays blown, the minimum `SVN` never falls, a revoked
FK0 stays revoked, the lifecycle never goes back, and copies and pulses still lie no further back. -/
def Obligations.FusesAndLifecycleOnlyAdvance : Prop :=
  let forward := fun (s : State) => s.sec.life.code ≤ (Life.majority s.sec.copies).code
    ∧ ∀ c l, FusePulse.life c l ∈ s.mgmt.pulses → s.sec.life.code ≤ l.code
  ∀ (s s' : State), forward s → step s = .next s' →
    (∀ w b, (s.fuse w).getLsbD b = true → (s'.fuse w).getLsbD b = true)
    ∧ s.sec.minSvn ≤ s'.sec.minSvn ∧ (s.sec.fk0Revoked = true → s'.sec.fk0Revoked = true)
    ∧ s.sec.life.code ≤ s'.sec.life.code ∧ forward s'

/-- Whatever the command, a step from a state whose package memory is in canonical form (addresses strictly rising, no byte listed that an
unlisted address reads as) leaves it in that form, so that equal memories are equal data. The form is the model's own (log 3). -/
def Obligations.MemoryKeepsItsForm : Prop :=
  ∀ (s s' : State), s.memWf = true → step s = .next s' → s'.memWf = true

/-- The state at power-on meets the invariants: memory in canonical form, an empty queue, no transition waiting; the die is in reset, no tile
holds anything, every port is down. R558: every register of the index whose whole-register reset value is a number reads that number in the
state at power-on. Where the spec gives a piece of state no value, the value is the model's choice (logs 3, 23, 24) and stands in no clause
but `fuses = []` (a part whose fuses are not blown), the time 0, and the reset cause of the supply monitor. -/
def Obligations.ResetMeetsTheInvariants : Prop :=
  State.reset.memWf = true ∧ State.reset.queueWf = true ∧ State.reset.pending = [] ∧ State.reset.sec.pendLife = none
  ∧ State.reset.mgmt.pulses = []
  ∧ State.reset.mgmt.stage = 1 ∧ State.reset.mgmt.cause = 1 ∧ State.reset.now = 0 ∧ State.reset.fuses = []
  ∧ (∀ t, State.reset.tile t = Tile.init) ∧ (∀ p, (State.reset.port p).st = .down)
  ∧ (∀ x ∈ [(0x0004, (0xB0 : Word)), (0x0010, 0x202), (0x0014, 0x3F), (0x0020, 1), (0x0410, 0x3E8), (0x201C, 8), (0x3400, 0x007F0000), (0x341C, 0x40),
      (0x3800, 0xA00)], State.reset.cfgRead x.1 = some x.2)
  ∧ (∀ a ∈ [0x0018, 0x001C, 0x0024, 0x040C, 0x0414, 0x0418, 0x041C, 0x0420, 0x0428, 0x0804, 0x0808, 0x2000, 0x2008, 0x200C, 0x2010, 0x2014, 0x2018,
      0x2020, 0x2024, 0x2028, 0x202C, 0x2030, 0x241C, 0x2800, 0x2804, 0x2808, 0x2C08, 0x3004, 0x3008, 0x3010, 0x3018, 0x301C, 0x3020, 0x3024, 0x3410,
      0x3414, 0x3418, 0x3420, 0x3424, 0x3428, 0x342C, 0x3804, 0x3808, 0x380C], State.reset.cfgRead a = some 0)
  ∧ (∀ n, n < 8 → State.reset.cfgRead (0x3040 + 4 * n) = some 0 ∧ State.reset.cfgRead (0x3810 + 4 * n) = some 0)
  ∧ (∀ n, n < 12 → State.reset.cfgRead (0x3060 + 4 * n) = some 0 ∧ State.reset.cfgRead (0x3C00 + 4 * n) = some 0)
  ∧ (∀ n, n < 48 → State.reset.cfgRead (0x1010 + 0x40 * n) = some 0xFF0F ∧ State.reset.cfgRead (0x1014 + 0x40 * n) = some 0
      ∧ State.reset.cfgRead (0x1018 + 0x40 * n) = some 0 ∧ State.reset.cfgRead (0x101C + 0x40 * n) = some 0)
end

