-- ==== Sys2Proof/Laws/Tables.lean ====
section
/-!
SUPPORT. Laws of sparse tables and byte memories: a read after a write to the same key gives the value written, a write
leaves every other key alone, and every operation keeps the canonical form.
-/

set_option Elab.async false

namespace Sys2Proof

variable {α : Type} [DecidableEq α] {d : α}

/-! ### One key -/

/-- A dropped key reads as the default, and every other key as before. -/
theorem Tab.get_drop (t : Tab α) (k j : Nat) : Tab.get d (Tab.drop t k) j = if j = k then d else Tab.get d t j := by
  induction t with
  | nil => simp [Tab.drop, Tab.get]
  | cons e r ih =>
    obtain ⟨k', v'⟩ := e
    by_cases h1 : k = k'
    · subst h1; rw [Tab.drop, if_pos rfl, ih]; by_cases hj : j = k <;> simp [Tab.get, hj]
    · by_cases hj : j = k
      · subst hj; simp [Tab.drop, Tab.get, h1, ih]
      · simp [Tab.drop, Tab.get, h1, ih, hj]

/-- An inserted key reads as its value, and every other key as before. -/
theorem Tab.get_insert (t : Tab α) (k j : Nat) (v : α) :
    Tab.get d (Tab.insert t k v) j = if j = k then v else Tab.get d t j := by
  induction t with
  | nil => simp [Tab.insert, Tab.get]
  | cons e r ih =>
    obtain ⟨k', v'⟩ := e
    by_cases h1 : k = k'
    · subst h1; by_cases hj : j = k <;> simp [Tab.insert, Tab.get, hj]
    · by_cases h2 : k < k'
      · simp [Tab.insert, Tab.get, h1, h2]
      · by_cases hj : j = k
        · subst hj; simp [Tab.insert, Tab.get, h1, h2, ih]
        · simp [Tab.insert, Tab.get, h1, h2, ih, hj]

/-- A read after a write: the value written at its key, every other key as before. -/
theorem Tab.get_set (t : Tab α) (k j : Nat) (v : α) :
    Tab.get d (Tab.set d t k v) j = if j = k then v else Tab.get d t j := by
  by_cases hv : v = d
  · subst hv; simp [Tab.set, Tab.get_drop]
  · simp [Tab.set, hv, Tab.get_insert]

/-- A value is read back from where it was put. -/
@[simp] theorem Tab.get_set_self (t : Tab α) (k : Nat) (v : α) : Tab.get d (Tab.set d t k v) k = v := by
  simp [Tab.get_set]

/-- A change of one value, read anywhere. -/
theorem Tab.get_mod (t : Tab α) (k j : Nat) (f : α → α) :
    Tab.get d (Tab.mod d t k f) j = if j = k then f (Tab.get d t k) else Tab.get d t j := Tab.get_set t k j _

/-- A table without the keys that fail a test. -/
theorem Tab.get_filter_key (t : Tab α) (p : Nat → Bool) (k : Nat) :
    Tab.get d (t.filter (fun e => p e.1)) k = if p k then Tab.get d t k else d := by
  induction t with
  | nil => simp [Tab.get]
  | cons e r ih =>
    obtain ⟨k', v'⟩ := e
    by_cases h1 : k = k'
    · subst h1; by_cases hp : p k = true <;> simp [Tab.get, hp, ih]
    · by_cases hp : p k' = true <;> simp [Tab.get, hp, h1, ih]

/-! ### Folds of writes -/

/-- Writes at other keys leave a key alone. -/
theorem Tab.foldl_set_other {β : Type} [DecidableEq β] {d : β} (l : List Nat) (key : Nat → Nat) (val : Tab β → Nat → β) (t : Tab β) (i : Nat)
    (h : ∀ x ∈ l, i ≠ key x) : Tab.get d (l.foldl (fun t x => Tab.set d t (key x) (val t x)) t) i = Tab.get d t i := by
  induction l generalizing t with
  | nil => rfl
  | cons x r ih =>
    simp only [List.foldl_cons]
    rw [ih _ (fun y hy => h y (List.mem_cons_of_mem _ hy)), Tab.get_set, if_neg (h x List.mem_cons_self)]

/-- Changes at distinct keys, each read back. -/
theorem Tab.foldl_set_at {β : Type} [DecidableEq β] {d : β} (key : Nat → Nat) (hk : Function.Injective key) (f : Nat → β → β) (t : Tab β) (n k : Nat)
    (h : k < n) : Tab.get d ((List.range n).foldl (fun t x => Tab.set d t (key x) (f x (Tab.get d t (key x)))) t) (key k) = f k (Tab.get d t (key k)) := by
  induction n with
  | zero => omega
  | succ n ih =>
    rw [List.range_succ, List.foldl_append]
    simp only [List.foldl_cons, List.foldl_nil, Tab.get_set]
    by_cases hkn : k = n
    · subst hkn
      rw [if_pos rfl, foldl_set_other (d := d) _ key (fun t x => f x (Tab.get d t (key x)))]
      intro x hx; have := List.mem_range.1 hx
      intro e; have := hk e; omega
    · rw [if_neg (fun e => hkn (hk e)), ih (by omega)]

/-- Writes at distinct keys, each read back. -/
theorem Tab.foldl_set_const {β : Type} [DecidableEq β] {d : β} (key : Nat → Nat) (val : Nat → β) (l : List Nat) (hn : l.Nodup)
    (hk : ∀ x ∈ l, ∀ y ∈ l, key x = key y → x = y) (t : Tab β) (x : Nat) (hx : x ∈ l) :
    Tab.get d (l.foldl (fun t x => Tab.set d t (key x) (val x)) t) (key x) = val x := by
  induction l generalizing t with
  | nil => simp at hx
  | cons y r ih =>
    simp only [List.foldl_cons]
    by_cases hxr : x ∈ r
    · exact ih (List.nodup_cons.1 hn).2 (fun a ha b hb => hk a (List.mem_cons_of_mem _ ha) b (List.mem_cons_of_mem _ hb)) _ hxr
    · have : x = y := by simpa [hxr] using hx
      subst this
      rw [Tab.foldl_set_other r key (fun _ x => val x), Tab.get_set_self]
      intro z hz e
      have := hk x List.mem_cons_self z (List.mem_cons_of_mem _ hz) e
      exact hxr (this ▸ hz)

/-- A running sum is the sum of a list. -/
theorem foldl_sum (l : List Nat) (g : Nat → Int) (a : Int) : l.foldl (fun acc k => acc + g k) a = a + (l.map g).sum := by
  induction l generalizing a with
  | nil => simp
  | cons x r ih => simp [ih, add_assoc]

/-! ### The canonical form -/

/-- In a table whose keys start at `lo`, a lower key reads as the default. -/
theorem Tab.get_below (t : Tab α) {lo k : Nat} (h : Tab.wfFrom d lo t = true) (hk : k < lo) : Tab.get d t k = d := by
  induction t generalizing lo with
  | nil => rfl
  | cons e r ih =>
    obtain ⟨k', v'⟩ := e
    simp only [Tab.wfFrom, Bool.and_eq_true, decide_eq_true_eq] at h
    simp [Tab.get, show k ≠ k' by omega, ih h.2 (by omega)]

/-- A lower bound of the keys may be lowered. -/
theorem Tab.wfFrom_mono {t : Tab α} {lo lo' : Nat} (hl : lo' ≤ lo) (h : Tab.wfFrom d lo t = true) :
    Tab.wfFrom d lo' t = true := by
  cases t with
  | nil => rfl
  | cons e r =>
    obtain ⟨k', v'⟩ := e
    simp only [Tab.wfFrom, Bool.and_eq_true, decide_eq_true_eq] at h ⊢
    exact ⟨⟨by omega, h.1.2⟩, h.2⟩

/-- Dropping a key keeps the canonical form. -/
theorem Tab.wfFrom_drop (t : Tab α) {lo : Nat} (hw : Tab.wfFrom d lo t = true) (k : Nat) :
    Tab.wfFrom d lo (Tab.drop t k) = true := by
  induction t generalizing lo with
  | nil => rfl
  | cons e r ih =>
    obtain ⟨k', v'⟩ := e
    simp only [Tab.wfFrom, Bool.and_eq_true, decide_eq_true_eq] at hw
    by_cases h1 : k = k'
    · simpa [Tab.drop, h1] using Tab.wfFrom_mono (by omega) (h1 ▸ ih hw.2)
    · simp [Tab.drop, h1, Tab.wfFrom, hw.1.1, hw.1.2, ih hw.2]

/-- Inserting a value that is not the default keeps the canonical form. -/
theorem Tab.wfFrom_insert (t : Tab α) {lo : Nat} (hw : Tab.wfFrom d lo t = true) (k : Nat) (hk : lo ≤ k) {v : α}
    (hv : v ≠ d) : Tab.wfFrom d lo (Tab.insert t k v) = true := by
  induction t generalizing lo with
  | nil => simp [Tab.insert, Tab.wfFrom, hv, hk]
  | cons e r ih =>
    obtain ⟨k', v'⟩ := e
    simp only [Tab.wfFrom, Bool.and_eq_true, decide_eq_true_eq] at hw
    by_cases h1 : k = k'
    · subst h1; simp [Tab.insert, Tab.wfFrom, hv, hw.2, hk]
    · by_cases h2 : k < k'
      · simp [Tab.insert, Tab.wfFrom, h1, h2, hv, hk, hw.1.2, hw.2]
      · simp [Tab.insert, Tab.wfFrom, h1, h2, hw.1.1, hw.1.2, ih (lo := k' + 1) hw.2 (by omega)]

/-- A write keeps the canonical form. -/
theorem Tab.wfFrom_set (t : Tab α) {lo : Nat} (hw : Tab.wfFrom d lo t = true) (k : Nat) (hk : lo ≤ k) (v : α) :
    Tab.wfFrom d lo (Tab.set d t k v) = true := by
  by_cases hv : v = d
  · simp [Tab.set, hv, Tab.wfFrom_drop t hw k]
  · simp [Tab.set, hv, Tab.wfFrom_insert t hw k hk hv]

/-- A write keeps the canonical form. -/
theorem Tab.wf_set {t : Tab α} (h : Tab.wf d t = true) (k : Nat) (v : α) : Tab.wf d (Tab.set d t k v) = true :=
  Tab.wfFrom_set t h k (Nat.zero_le k) v

/-- A change of one value keeps the canonical form. -/
theorem Tab.wf_mod {t : Tab α} (h : Tab.wf d t = true) (k : Nat) (f : α → α) : Tab.wf d (Tab.mod d t k f) = true :=
  Tab.wf_set h k _

/-! ### Byte memories -/

/-- A byte read after a byte written (R374). -/
theorem Mem.rd_wr (m : Mem) (a b : Nat) (v : Byte) :
    (m.wr a v).rd b = if b = a then v else m.rd b := Tab.get_set m a b v

/-- A byte write keeps the canonical form. -/
theorem Mem.wf_wr {m : Mem} (h : m.wf = true) (a : Nat) (v : Byte) : (m.wr a v).wf = true := Tab.wf_set h a v

/-- A block write keeps the canonical form. -/
theorem Mem.wf_wrBytes {m : Mem} (h : m.wf = true) (a : Nat) (bs : List Byte) : (m.wrBytes a bs).wf = true := by
  induction bs generalizing m a with
  | nil => exact h
  | cons b r ih => exact ih (Mem.wf_wr h a b) (a + 1)

/-- A number write keeps the canonical form. -/
theorem Mem.wf_wrLE {m : Mem} (h : m.wf = true) (a n v : Nat) : (m.wrLE a n v).wf = true := Mem.wf_wrBytes h a _

/-- Writing zeros keeps the canonical form. -/
theorem Mem.wf_zero {m : Mem} (h : m.wf = true) (a n : Nat) : (m.zero a n).wf = true := by
  induction n generalizing m a with
  | zero => exact h
  | succ n ih => exact ih (Mem.wf_wr h a 0) (a + 1)

/-- Dropping entries keeps the canonical form. -/
theorem Tab.wfFrom_filter (t : Tab α) {lo : Nat} (hw : Tab.wfFrom d lo t = true) (p : Nat × α → Bool) :
    Tab.wfFrom d lo (t.filter p) = true := by
  induction t generalizing lo with
  | nil => rfl
  | cons e r ih =>
    obtain ⟨k', v'⟩ := e
    simp only [Tab.wfFrom, Bool.and_eq_true, decide_eq_true_eq] at hw
    by_cases hp : p (k', v') = true
    · simp [hp, Tab.wfFrom, hw.1.1, hw.1.2, ih hw.2]
    · simpa [hp] using Tab.wfFrom_mono (by omega) (ih hw.2)

/-- Clearing a range keeps the canonical form. -/
theorem Mem.wf_clear {m : Mem} (h : m.wf = true) (a n : Nat) : (m.clear a n).wf = true :=
  Tab.wfFrom_filter m h _

/-- A block write, read one byte at a time: the bytes written inside the block, the old bytes outside (R374). -/
theorem Mem.rd_wrBytes (m : Mem) (a : Nat) (bs : List Byte) (b : Nat) :
    (m.wrBytes a bs).rd b = if a ≤ b then bs[b - a]?.getD (m.rd b) else m.rd b := by
  induction bs generalizing m a with
  | nil => simp [Mem.wrBytes]
  | cons x r ih =>
    simp only [Mem.wrBytes]
    rw [ih, Mem.rd_wr]
    by_cases h1 : a ≤ b
    · by_cases h2 : b = a
      · subst h2; simp [show ¬ b + 1 ≤ b by omega]
      · have e : b - a = (b - (a + 1)) + 1 := by omega
        simp [h1, h2, show a + 1 ≤ b by omega, e]
    · simp [h1, show ¬ a + 1 ≤ b by omega, show b ≠ a by omega]

/-- Bytes outside a block are unchanged by a block write. -/
theorem Mem.rd_wrBytes_outside (m : Mem) (a : Nat) (bs : List Byte) {b : Nat}
    (hb : b < a ∨ a + bs.length ≤ b) : (m.wrBytes a bs).rd b = m.rd b := by
  rw [Mem.rd_wrBytes]
  split
  · rw [List.getElem?_eq_none (by omega)]; rfl
  · rfl

/-- The number of bytes of a number. -/
@[simp] theorem leBytes_length (n v : Nat) : (leBytes n v).length = n := by
  induction n generalizing v with
  | zero => rfl
  | succ n ih => simp [leBytes, ih]

/-- The little-endian bytes of a number give the number back, modulo their width (R7). -/
theorem leNat_leBytes (n v : Nat) : leNat (leBytes n v) = v % 2 ^ (8 * n) := by
  induction n generalizing v with
  | zero => simp [leBytes, leNat, Nat.mod_one]
  | succ n ih =>
    simp only [leBytes, leNat, ih, BitVec.toNat_ofNat]
    rw [show 8 * (n + 1) = 8 + 8 * n by ring, pow_add, Nat.mod_mul]
    norm_num

/-- Reading a block back after it was written. -/
theorem Mem.rdBytes_wrBytes (m : Mem) (a : Nat) (bs : List Byte) :
    (m.wrBytes a bs).rdBytes a bs.length = bs := by
  induction bs generalizing m a with
  | nil => rfl
  | cons x r ih =>
    have hx : (Mem.wrBytes m a (x :: r)).rd a = x := by
      rw [Mem.rd_wrBytes]; simp
    simp only [List.length_cons, Mem.rdBytes]
    rw [hx]
    simp only [Mem.wrBytes]
    rw [ih]

/-- Reading a number back after it was written (R7). -/
theorem Mem.rdLE_wrLE (m : Mem) (a n v : Nat) : (m.wrLE a n v).rdLE a n = v % 2 ^ (8 * n) := by
  have := Mem.rdBytes_wrBytes m a (leBytes n v)
  rw [leBytes_length] at this
  rw [Mem.rdLE, Mem.wrLE, this, leNat_leBytes]

/-- A cleared range reads as zero. -/
theorem Mem.rd_clear (m : Mem) (a n b : Nat) : (m.clear a n).rd b = if a ≤ b ∧ b < a + n then 0 else m.rd b := by
  have := Tab.get_filter_key (d := memDefault) m (fun k => decide (k < a) || decide (a + n ≤ k)) b
  simp only [Mem.rd, Mem.clear, this]
  by_cases h : a ≤ b ∧ b < a + n
  · simp [h, show ¬ b < a by omega, show ¬ a + n ≤ b by omega, memDefault]
  · simp only [h, if_false]
    rw [if_pos]; simp; omega

end Sys2Proof
end

