-- ==== Sys2Proof/Laws/State.lean ====
section
/-!
SUPPORT. Laws of the updates of the state: what each leaves unchanged, one lemma for each field, and how a part that was
changed reads back.
-/

set_option Elab.async false

namespace Sys2Proof.Machine

open Sys2Proof

/-! ### `onTile` -/

@[simp] theorem State.onTile_time (s : State) (t : Nat) (f : Tile → Tile) : (s.onTile t f).time = s.time := rfl
@[simp] theorem State.onTile_sync (s : State) (t : Nat) (f : Tile → Tile) : (s.onTile t f).sync = s.sync := rfl
@[simp] theorem State.onTile_qm (s : State) (t : Nat) (f : Tile → Tile) : (s.onTile t f).qm = s.qm := rfl
@[simp] theorem State.onTile_kw (s : State) (t : Nat) (f : Tile → Tile) : (s.onTile t f).kw = s.kw := rfl
@[simp] theorem State.onTile_rdc (s : State) (t : Nat) (f : Tile → Tile) : (s.onTile t f).rdc = s.rdc := rfl
@[simp] theorem State.onTile_mem (s : State) (t : Nat) (f : Tile → Tile) : (s.onTile t f).mem = s.mem := rfl
@[simp] theorem State.onTile_ports (s : State) (t : Nat) (f : Tile → Tile) : (s.onTile t f).ports = s.ports := rfl
@[simp] theorem State.onTile_pkg (s : State) (t : Nat) (f : Tile → Tile) : (s.onTile t f).pkg = s.pkg := rfl
@[simp] theorem State.onTile_mgmt (s : State) (t : Nat) (f : Tile → Tile) : (s.onTile t f).mgmt = s.mgmt := rfl
@[simp] theorem State.onTile_fuses (s : State) (t : Nat) (f : Tile → Tile) : (s.onTile t f).fuses = s.fuses := rfl
@[simp] theorem State.onTile_flt (s : State) (t : Nat) (f : Tile → Tile) : (s.onTile t f).flt = s.flt := rfl
@[simp] theorem State.onTile_bw (s : State) (t : Nat) (f : Tile → Tile) : (s.onTile t f).bw = s.bw := rfl
@[simp] theorem State.onTile_sec (s : State) (t : Nat) (f : Tile → Tile) : (s.onTile t f).sec = s.sec := rfl
@[simp] theorem State.onTile_tst (s : State) (t : Nat) (f : Tile → Tile) : (s.onTile t f).tst = s.tst := rfl
@[simp] theorem State.onTile_telem (s : State) (t : Nat) (f : Tile → Tile) : (s.onTile t f).telem = s.telem := rfl
@[simp] theorem State.onTile_cfg (s : State) (t : Nat) (f : Tile → Tile) : (s.onTile t f).cfg = s.cfg := rfl
@[simp] theorem State.onTile_free (s : State) (t : Nat) (f : Tile → Tile) : (s.onTile t f).free = s.free := rfl
@[simp] theorem State.onTile_pending (s : State) (t : Nat) (f : Tile → Tile) : (s.onTile t f).pending = s.pending := rfl

/-! ### `onPort` -/

@[simp] theorem State.onPort_time (s : State) (p : Nat) (f : Port → Port) : (s.onPort p f).time = s.time := rfl
@[simp] theorem State.onPort_tiles (s : State) (p : Nat) (f : Port → Port) : (s.onPort p f).tiles = s.tiles := rfl
@[simp] theorem State.onPort_sync (s : State) (p : Nat) (f : Port → Port) : (s.onPort p f).sync = s.sync := rfl
@[simp] theorem State.onPort_qm (s : State) (p : Nat) (f : Port → Port) : (s.onPort p f).qm = s.qm := rfl
@[simp] theorem State.onPort_kw (s : State) (p : Nat) (f : Port → Port) : (s.onPort p f).kw = s.kw := rfl
@[simp] theorem State.onPort_rdc (s : State) (p : Nat) (f : Port → Port) : (s.onPort p f).rdc = s.rdc := rfl
@[simp] theorem State.onPort_mem (s : State) (p : Nat) (f : Port → Port) : (s.onPort p f).mem = s.mem := rfl
@[simp] theorem State.onPort_pkg (s : State) (p : Nat) (f : Port → Port) : (s.onPort p f).pkg = s.pkg := rfl
@[simp] theorem State.onPort_mgmt (s : State) (p : Nat) (f : Port → Port) : (s.onPort p f).mgmt = s.mgmt := rfl
@[simp] theorem State.onPort_fuses (s : State) (p : Nat) (f : Port → Port) : (s.onPort p f).fuses = s.fuses := rfl
@[simp] theorem State.onPort_flt (s : State) (p : Nat) (f : Port → Port) : (s.onPort p f).flt = s.flt := rfl
@[simp] theorem State.onPort_bw (s : State) (p : Nat) (f : Port → Port) : (s.onPort p f).bw = s.bw := rfl
@[simp] theorem State.onPort_sec (s : State) (p : Nat) (f : Port → Port) : (s.onPort p f).sec = s.sec := rfl
@[simp] theorem State.onPort_tst (s : State) (p : Nat) (f : Port → Port) : (s.onPort p f).tst = s.tst := rfl
@[simp] theorem State.onPort_telem (s : State) (p : Nat) (f : Port → Port) : (s.onPort p f).telem = s.telem := rfl
@[simp] theorem State.onPort_cfg (s : State) (p : Nat) (f : Port → Port) : (s.onPort p f).cfg = s.cfg := rfl
@[simp] theorem State.onPort_free (s : State) (p : Nat) (f : Port → Port) : (s.onPort p f).free = s.free := rfl
@[simp] theorem State.onPort_pending (s : State) (p : Nat) (f : Port → Port) : (s.onPort p f).pending = s.pending := rfl

/-! ### `setReg` -/

@[simp] theorem State.setReg_time (s : State) (a : Nat) (v : Word) : (s.setReg a v).time = s.time := (rfl)
@[simp] theorem State.setReg_tiles (s : State) (a : Nat) (v : Word) : (s.setReg a v).tiles = s.tiles := (rfl)
@[simp] theorem State.setReg_sync (s : State) (a : Nat) (v : Word) : (s.setReg a v).sync = s.sync := (rfl)
@[simp] theorem State.setReg_qm (s : State) (a : Nat) (v : Word) : (s.setReg a v).qm = s.qm := (rfl)
@[simp] theorem State.setReg_kw (s : State) (a : Nat) (v : Word) : (s.setReg a v).kw = s.kw := (rfl)
@[simp] theorem State.setReg_rdc (s : State) (a : Nat) (v : Word) : (s.setReg a v).rdc = s.rdc := (rfl)
@[simp] theorem State.setReg_mem (s : State) (a : Nat) (v : Word) : (s.setReg a v).mem = s.mem := (rfl)
@[simp] theorem State.setReg_ports (s : State) (a : Nat) (v : Word) : (s.setReg a v).ports = s.ports := (rfl)
@[simp] theorem State.setReg_pkg (s : State) (a : Nat) (v : Word) : (s.setReg a v).pkg = s.pkg := (rfl)
@[simp] theorem State.setReg_mgmt (s : State) (a : Nat) (v : Word) : (s.setReg a v).mgmt = s.mgmt := (rfl)
@[simp] theorem State.setReg_fuses (s : State) (a : Nat) (v : Word) : (s.setReg a v).fuses = s.fuses := (rfl)
@[simp] theorem State.setReg_flt (s : State) (a : Nat) (v : Word) : (s.setReg a v).flt = s.flt := (rfl)
@[simp] theorem State.setReg_bw (s : State) (a : Nat) (v : Word) : (s.setReg a v).bw = s.bw := (rfl)
@[simp] theorem State.setReg_sec (s : State) (a : Nat) (v : Word) : (s.setReg a v).sec = s.sec := (rfl)
@[simp] theorem State.setReg_tst (s : State) (a : Nat) (v : Word) : (s.setReg a v).tst = s.tst := (rfl)
@[simp] theorem State.setReg_telem (s : State) (a : Nat) (v : Word) : (s.setReg a v).telem = s.telem := (rfl)
@[simp] theorem State.setReg_free (s : State) (a : Nat) (v : Word) : (s.setReg a v).free = s.free := (rfl)
@[simp] theorem State.setReg_pending (s : State) (a : Nat) (v : Word) : (s.setReg a v).pending = s.pending := (rfl)

/-! ### `setFld` -/

@[simp] theorem State.setFld_time (s : State) (a lo len v : Nat) : (s.setFld a lo len v).time = s.time := (rfl)
@[simp] theorem State.setFld_tiles (s : State) (a lo len v : Nat) : (s.setFld a lo len v).tiles = s.tiles := (rfl)
@[simp] theorem State.setFld_sync (s : State) (a lo len v : Nat) : (s.setFld a lo len v).sync = s.sync := (rfl)
@[simp] theorem State.setFld_qm (s : State) (a lo len v : Nat) : (s.setFld a lo len v).qm = s.qm := (rfl)
@[simp] theorem State.setFld_kw (s : State) (a lo len v : Nat) : (s.setFld a lo len v).kw = s.kw := (rfl)
@[simp] theorem State.setFld_rdc (s : State) (a lo len v : Nat) : (s.setFld a lo len v).rdc = s.rdc := (rfl)
@[simp] theorem State.setFld_mem (s : State) (a lo len v : Nat) : (s.setFld a lo len v).mem = s.mem := (rfl)
@[simp] theorem State.setFld_ports (s : State) (a lo len v : Nat) : (s.setFld a lo len v).ports = s.ports := (rfl)
@[simp] theorem State.setFld_pkg (s : State) (a lo len v : Nat) : (s.setFld a lo len v).pkg = s.pkg := (rfl)
@[simp] theorem State.setFld_mgmt (s : State) (a lo len v : Nat) : (s.setFld a lo len v).mgmt = s.mgmt := (rfl)
@[simp] theorem State.setFld_fuses (s : State) (a lo len v : Nat) : (s.setFld a lo len v).fuses = s.fuses := (rfl)
@[simp] theorem State.setFld_flt (s : State) (a lo len v : Nat) : (s.setFld a lo len v).flt = s.flt := (rfl)
@[simp] theorem State.setFld_bw (s : State) (a lo len v : Nat) : (s.setFld a lo len v).bw = s.bw := (rfl)
@[simp] theorem State.setFld_sec (s : State) (a lo len v : Nat) : (s.setFld a lo len v).sec = s.sec := (rfl)
@[simp] theorem State.setFld_tst (s : State) (a lo len v : Nat) : (s.setFld a lo len v).tst = s.tst := (rfl)
@[simp] theorem State.setFld_telem (s : State) (a lo len v : Nat) : (s.setFld a lo len v).telem = s.telem := (rfl)
@[simp] theorem State.setFld_free (s : State) (a lo len v : Nat) : (s.setFld a lo len v).free = s.free := (rfl)
@[simp] theorem State.setFld_pending (s : State) (a lo len v : Nat) : (s.setFld a lo len v).pending = s.pending := (rfl)

/-! ### `tick` -/

@[simp] theorem State.tick_time (s : State) : (s.tick).time = s.time := rfl
@[simp] theorem State.tick_tiles (s : State) : (s.tick).tiles = s.tiles := rfl
@[simp] theorem State.tick_sync (s : State) : (s.tick).sync = s.sync := rfl
@[simp] theorem State.tick_qm (s : State) : (s.tick).qm = s.qm := rfl
@[simp] theorem State.tick_kw (s : State) : (s.tick).kw = s.kw := rfl
@[simp] theorem State.tick_rdc (s : State) : (s.tick).rdc = s.rdc := rfl
@[simp] theorem State.tick_mem (s : State) : (s.tick).mem = s.mem := rfl
@[simp] theorem State.tick_ports (s : State) : (s.tick).ports = s.ports := rfl
@[simp] theorem State.tick_pkg (s : State) : (s.tick).pkg = s.pkg := rfl
@[simp] theorem State.tick_mgmt (s : State) : (s.tick).mgmt = s.mgmt := rfl
@[simp] theorem State.tick_fuses (s : State) : (s.tick).fuses = s.fuses := rfl
@[simp] theorem State.tick_flt (s : State) : (s.tick).flt = s.flt := rfl
@[simp] theorem State.tick_bw (s : State) : (s.tick).bw = s.bw := rfl
@[simp] theorem State.tick_sec (s : State) : (s.tick).sec = s.sec := rfl
@[simp] theorem State.tick_tst (s : State) : (s.tick).tst = s.tst := rfl
@[simp] theorem State.tick_telem (s : State) : (s.tick).telem = s.telem := rfl
@[simp] theorem State.tick_cfg (s : State) : (s.tick).cfg = s.cfg := rfl
@[simp] theorem State.tick_pending (s : State) : (s.tick).pending = s.pending := rfl

/-! ### `onDesc` -/

@[simp] theorem State.onDesc_time (s : State) (uid : Nat) (f : Desc → Desc) : (s.onDesc uid f).time = s.time := rfl
@[simp] theorem State.onDesc_tiles (s : State) (uid : Nat) (f : Desc → Desc) : (s.onDesc uid f).tiles = s.tiles := rfl
@[simp] theorem State.onDesc_sync (s : State) (uid : Nat) (f : Desc → Desc) : (s.onDesc uid f).sync = s.sync := rfl
@[simp] theorem State.onDesc_kw (s : State) (uid : Nat) (f : Desc → Desc) : (s.onDesc uid f).kw = s.kw := rfl
@[simp] theorem State.onDesc_rdc (s : State) (uid : Nat) (f : Desc → Desc) : (s.onDesc uid f).rdc = s.rdc := rfl
@[simp] theorem State.onDesc_mem (s : State) (uid : Nat) (f : Desc → Desc) : (s.onDesc uid f).mem = s.mem := rfl
@[simp] theorem State.onDesc_ports (s : State) (uid : Nat) (f : Desc → Desc) : (s.onDesc uid f).ports = s.ports := rfl
@[simp] theorem State.onDesc_pkg (s : State) (uid : Nat) (f : Desc → Desc) : (s.onDesc uid f).pkg = s.pkg := rfl
@[simp] theorem State.onDesc_mgmt (s : State) (uid : Nat) (f : Desc → Desc) : (s.onDesc uid f).mgmt = s.mgmt := rfl
@[simp] theorem State.onDesc_fuses (s : State) (uid : Nat) (f : Desc → Desc) : (s.onDesc uid f).fuses = s.fuses := rfl
@[simp] theorem State.onDesc_flt (s : State) (uid : Nat) (f : Desc → Desc) : (s.onDesc uid f).flt = s.flt := rfl
@[simp] theorem State.onDesc_bw (s : State) (uid : Nat) (f : Desc → Desc) : (s.onDesc uid f).bw = s.bw := rfl
@[simp] theorem State.onDesc_sec (s : State) (uid : Nat) (f : Desc → Desc) : (s.onDesc uid f).sec = s.sec := rfl
@[simp] theorem State.onDesc_tst (s : State) (uid : Nat) (f : Desc → Desc) : (s.onDesc uid f).tst = s.tst := rfl
@[simp] theorem State.onDesc_telem (s : State) (uid : Nat) (f : Desc → Desc) : (s.onDesc uid f).telem = s.telem := rfl
@[simp] theorem State.onDesc_cfg (s : State) (uid : Nat) (f : Desc → Desc) : (s.onDesc uid f).cfg = s.cfg := rfl
@[simp] theorem State.onDesc_free (s : State) (uid : Nat) (f : Desc → Desc) : (s.onDesc uid f).free = s.free := rfl
@[simp] theorem State.onDesc_pending (s : State) (uid : Nat) (f : Desc → Desc) : (s.onDesc uid f).pending = s.pending := rfl

/-! ### `count` -/

/-- A count moves the telemetry only (R561). -/
theorem State.count_eq (s : State) (k n : Nat) : s.count k n = { s with telem := (s.count k n).telem } := by
  simp only [State.count]; repeat' split
  all_goals rfl

@[simp] theorem State.count_sync (s : State) (k n : Nat) : (s.count k n).sync = s.sync := by rw [State.count_eq]
@[simp] theorem State.count_qm (s : State) (k n : Nat) : (s.count k n).qm = s.qm := by rw [State.count_eq]
@[simp] theorem State.count_kw (s : State) (k n : Nat) : (s.count k n).kw = s.kw := by rw [State.count_eq]
@[simp] theorem State.count_rdc (s : State) (k n : Nat) : (s.count k n).rdc = s.rdc := by rw [State.count_eq]
@[simp] theorem State.count_mem (s : State) (k n : Nat) : (s.count k n).mem = s.mem := by rw [State.count_eq]
@[simp] theorem State.count_ports (s : State) (k n : Nat) : (s.count k n).ports = s.ports := by rw [State.count_eq]
@[simp] theorem State.count_flt (s : State) (k n : Nat) : (s.count k n).flt = s.flt := by rw [State.count_eq]
@[simp] theorem State.count_tst (s : State) (k n : Nat) : (s.count k n).tst = s.tst := by rw [State.count_eq]
@[simp] theorem State.count_free (s : State) (k n : Nat) : (s.count k n).free = s.free := by rw [State.count_eq]

/-! ### Reading back -/

/-- A tile is read back from where it was put. -/
@[simp] theorem State.tile_onTile (s : State) (t : Nat) (f : Tile → Tile) : (s.onTile t f).tile t = f (s.tile t) :=
  Tab.get_set_self _ _ _

/-- A change of one tile leaves the others alone. -/
theorem State.tile_onTile_other (s : State) {t u : Nat} (hu : u ≠ t) (f : Tile → Tile) :
    (s.onTile t f).tile u = s.tile u := (Tab.get_mod _ _ _ _).trans (if_neg hu)

/-- A port is read back from where it was put. -/
@[simp] theorem State.port_onPort (s : State) (p : Nat) (f : Port → Port) : (s.onPort p f).port p = f (s.port p) :=
  Tab.get_set_self _ _ _

/-- A change of one port leaves the others alone. -/
theorem State.port_onPort_other (s : State) {p q : Nat} (hq : q ≠ p) (f : Port → Port) :
    (s.onPort p f).port q = s.port q := (Tab.get_mod _ _ _ _).trans (if_neg hq)

/-- A set-up register is read back from where it was put, and every other register as before. -/
theorem State.reg_setReg (s : State) (a b : Nat) (v : Word) :
    (s.setReg a v).reg b = if b = a then v else s.reg b := Tab.get_set s.cfg a b v

/-! ### Fields of registers -/

/-- A number with a field replaced, written out. -/
theorem putBits_eq (n lo len v : Nat) :
    putBits n lo len v = n / 2 ^ (lo + len) * 2 ^ (lo + len) + v % 2 ^ len * 2 ^ lo + n % 2 ^ lo := by
  simp only [putBits, bitsOf]
  have h1 : n / 2 ^ (lo + len) = n / 2 ^ lo / 2 ^ len := by rw [Nat.pow_add, Nat.div_div_eq_div_mul]
  rw [h1, Nat.pow_add]
  have e1 := Nat.div_add_mod n (2 ^ lo)
  have e2 := Nat.div_add_mod (n / 2 ^ lo) (2 ^ len)
  generalize n / 2 ^ lo / 2 ^ len = A at *
  generalize n / 2 ^ lo % 2 ^ len = B at *
  generalize n / 2 ^ lo = D at *
  generalize n % 2 ^ lo = C at *
  generalize v % 2 ^ len = V
  generalize 2 ^ lo = P at *
  generalize 2 ^ len = Q at *
  have : n = A * (P * Q) + B * P + C := by rw [← e1, ← e2]; ring
  rw [this]
  have : A * (P * Q) + B * P + C - B * P = A * (P * Q) + C := by omega
  rw [this]; ring

/-- A field reads back from where it was put. -/
theorem bitsOf_putBits (n lo len v : Nat) : bitsOf (putBits n lo len v) lo len = v % 2 ^ len := by
  have hl : 0 < 2 ^ lo := Nat.two_pow_pos _
  have hn : 0 < 2 ^ len := Nat.two_pow_pos _
  rw [putBits_eq]
  simp only [bitsOf]
  have : n / 2 ^ (lo + len) * 2 ^ (lo + len) + v % 2 ^ len * 2 ^ lo + n % 2 ^ lo
      = n % 2 ^ lo + 2 ^ lo * (v % 2 ^ len + 2 ^ len * (n / 2 ^ (lo + len))) := by rw [Nat.pow_add]; ring
  rw [this, Nat.add_mul_div_left _ _ hl, Nat.div_eq_of_lt (Nat.mod_lt _ hl), Nat.zero_add, Nat.add_mul_mod_self_left,
    Nat.mod_mod]

/-- A field below the one that was put reads as before. -/
theorem bitsOf_putBits_low (n lo len v a l : Nat) (h : a + l ≤ lo) : bitsOf (putBits n lo len v) a l = bitsOf n a l := by
  rw [putBits_eq]
  simp only [bitsOf]
  obtain ⟨d, rfl⟩ := Nat.exists_eq_add_of_le h
  have key : ∀ x, x / 2 ^ a % 2 ^ l = x % 2 ^ (a + l + d) / 2 ^ a % 2 ^ l := by
    intro x
    rw [Nat.add_assoc, Nat.pow_add 2 a, Nat.mod_mul_right_div_self, Nat.pow_add 2 l, Nat.mod_mul_right_mod]
  rw [key, key n]
  congr 2
  have : n / 2 ^ (a + l + d + len) * 2 ^ (a + l + d + len) + v % 2 ^ len * 2 ^ (a + l + d) + n % 2 ^ (a + l + d)
      = n % 2 ^ (a + l + d) + 2 ^ (a + l + d) * (v % 2 ^ len + 2 ^ len * (n / 2 ^ (a + l + d + len))) := by rw [Nat.pow_add 2 (a + l + d)]; ring
  rw [this, Nat.add_mul_mod_self_left, Nat.mod_mod]

/-- A field above the one that was put reads as before. -/
theorem bitsOf_putBits_high (n lo len v a l : Nat) (h : lo + len ≤ a) : bitsOf (putBits n lo len v) a l = bitsOf n a l := by
  rw [putBits_eq]
  simp only [bitsOf]
  obtain ⟨d, rfl⟩ := Nat.exists_eq_add_of_le h
  have hl : 0 < 2 ^ (lo + len) := Nat.two_pow_pos _
  have e : ∀ x, x / 2 ^ (lo + len + d) = x / 2 ^ (lo + len) / 2 ^ d := by intro x; rw [Nat.pow_add 2 (lo + len), Nat.div_div_eq_div_mul]
  rw [e, e]
  congr 2
  have hs : v % 2 ^ len * 2 ^ lo + n % 2 ^ lo < 2 ^ (lo + len) := by
    have h1 := Nat.mod_lt v (Nat.two_pow_pos len)
    have h2 := Nat.mod_lt n (Nat.two_pow_pos lo)
    rw [Nat.pow_add]
    calc v % 2 ^ len * 2 ^ lo + n % 2 ^ lo < v % 2 ^ len * 2 ^ lo + 2 ^ lo := by omega
      _ = (v % 2 ^ len + 1) * 2 ^ lo := by ring
      _ ≤ 2 ^ len * 2 ^ lo := Nat.mul_le_mul_right _ h1
      _ = 2 ^ lo * 2 ^ len := by ring
  rw [Nat.add_assoc, Nat.add_comm, Nat.add_mul_div_right _ _ hl, Nat.div_eq_of_lt hs, Nat.zero_add]

/-- A field put into a 32-bit number keeps it one. -/
theorem putBits_lt {n lo len : Nat} (v : Nat) (hn : n < 2 ^ 32) (h : lo + len ≤ 32) : putBits n lo len v < 2 ^ 32 := by
  rw [putBits_eq]
  have h1 := Nat.mod_lt v (Nat.two_pow_pos len)
  have h2 := Nat.mod_lt n (Nat.two_pow_pos lo)
  have hs : v % 2 ^ len * 2 ^ lo + n % 2 ^ lo < 2 ^ (lo + len) := by
    rw [Nat.pow_add]
    calc v % 2 ^ len * 2 ^ lo + n % 2 ^ lo < v % 2 ^ len * 2 ^ lo + 2 ^ lo := by omega
      _ = (v % 2 ^ len + 1) * 2 ^ lo := by ring
      _ ≤ 2 ^ len * 2 ^ lo := Nat.mul_le_mul_right _ h1
      _ = 2 ^ lo * 2 ^ len := by ring
  obtain ⟨d, hd⟩ := Nat.exists_eq_add_of_le h
  have h3 : n / 2 ^ (lo + len) < 2 ^ d := by
    rw [Nat.div_lt_iff_lt_mul (Nat.two_pow_pos _), ← Nat.pow_add, Nat.add_comm d, ← hd]; exact hn
  have : 2 ^ 32 = 2 ^ d * 2 ^ (lo + len) := by rw [← Nat.pow_add, Nat.add_comm d, ← hd]
  rw [this]
  calc _ < n / 2 ^ (lo + len) * 2 ^ (lo + len) + 2 ^ (lo + len) := by omega
    _ = (n / 2 ^ (lo + len) + 1) * 2 ^ (lo + len) := by ring
    _ ≤ _ := Nat.mul_le_mul_right _ h3

/-- A field of a set-up register reads back from where it was put. -/
theorem State.rfld_setFld (s : State) (a lo len v : Nat) (h : lo + len ≤ 32) : (s.setFld a lo len v).rfld a lo len = v % 2 ^ len := by
  simp only [State.rfld, State.setFld, State.reg_setReg, if_true, fld, BitVec.toNat_ofNat]
  rw [Nat.mod_eq_of_lt (putBits_lt v (s.reg a).isLt h), bitsOf_putBits]

/-- Other fields of the register, and other registers, read as before. -/
theorem State.rfld_setFld_other (s : State) (a lo len v b l m : Nat) (h : lo + len ≤ 32) (hd : b ≠ a ∨ l + m ≤ lo ∨ lo + len ≤ l) :
    (s.setFld a lo len v).rfld b l m = s.rfld b l m := by
  simp only [State.rfld, State.setFld, State.reg_setReg]
  split
  · rename_i hb
    simp only [fld, BitVec.toNat_ofNat]
    rw [Nat.mod_eq_of_lt (putBits_lt v (s.reg a).isLt h), hb]
    rcases hd with hd | hd | hd
    · exact absurd hb hd
    · exact bitsOf_putBits_low _ _ _ _ _ _ hd
    · exact bitsOf_putBits_high _ _ _ _ _ _ hd
  · rfl

/-- Other set-up registers are left alone. -/
theorem State.reg_setFld_other (s : State) (a lo len v : Nat) {b : Nat} (hb : b ≠ a) : (s.setFld a lo len v).reg b = s.reg b := by
  simp only [State.setFld, State.reg_setReg, if_neg hb]

end Sys2Proof.Machine
end

