-- ==== Sys2Proof/Laws/Sequencer.lean ====
section
/-!
SUPPORT. What the shared operations of the sequencer and of a tile do (spec/02_core_and_sequencer.md): an executing
instruction that raises no fault answers the state with its tile changed.
-/

set_option Elab.async false

namespace Sys2Proof.Machine

open Sys2Proof

/-- What `State.executes` says. -/
theorem executes_iff {s : State} {t : Nat} (h : s.executes t = true) :
    isTile t = true ∧ s.coresRun = true ∧ (s.tile t).canRun = true ∧ (s.tile t).seq.stepping = false
    ∧ (s.tile t).seq.phase = .running := by
  simp [State.executes, Tile.canRun] at h
  obtain ⟨⟨⟨h1,h2⟩,⟨h3,h4⟩,h5⟩,h6⟩ := h
  simp_all [isTile, Tile.canRun]

/-- Two changes that agree on a tile give the same state. -/
theorem onTile_congr (s : State) (t : Nat) (f g : Tile → Tile) (h : f (s.tile t) = g (s.tile t)) :
    s.onTile t f = s.onTile t g := by
  simp only [State.onTile, Tab.mod]; unfold State.tile at h; rw [h]

/-- An executing instruction that stays in its program answers the state with its tile changed (R42). -/
theorem instr_next {s : State} {t : Nat} (h : s.executes t = true) (f g : Tile → Tile)
    (hg : g (s.tile t) = (f (s.tile t)).onSeq Seq.retired) (hp : (g (s.tile t)).seq.phase = .running) :
    instrOn t f s = .next (s.onTile t g) := by
  obtain ⟨h1, h2, h3, h4, h5⟩ := executes_iff h
  have e : s.onTile t (fun q => (f q).onSeq Seq.retired) = s.onTile t g := onTile_congr _ _ _ _ hg.symm
  have r : (s.onTile t g).tile t = g (s.tile t) := State.tile_onTile _ _ _
  have k : s.runTile t (fun q => (f q).onSeq Seq.retired) = s.onTile t g := by
    simp only [State.runTile, e, Tile.isFaulted, h5, r, hp]
    simp
  simp [instrOn, onUnit, h1, State.instr, h2, h3, h4, k]

/-- Moving past an instruction that is not the last (R45). -/
theorem advance_more {q : Tile} (h : q.more = true) :
    q.advance = { q with seq := { q.seq with pc := q.seq.pc + 1 } } := by
  simp [Tile.more] at h; simp [Tile.advance, h]

/-- The retirement of an instruction that moved past itself, for a sequencer that is not stepped (R45, R60). -/
theorem retire_more {q : Tile} (h : q.more = true) (hs : q.seq.stepping = false) :
    q.advance.onSeq Seq.retired = q.at (q.seq.pc + 1) := by
  rw [advance_more h]; simp [Tile.at, Tile.onSeq, Seq.retired, hs]

/-- A register write leaves the program counter alone. -/
@[simp] theorem setReg_pc (q : Tile) (r v) : (q.setReg r v).seq.pc = q.seq.pc := by unfold Tile.setReg; split <;> rfl
/-- A register write leaves the image length alone. -/
@[simp] theorem setReg_pl (q : Tile) (r v) : (q.setReg r v).seq.progLen = q.seq.progLen := by unfold Tile.setReg; split <;> rfl
/-- A register write leaves the step grant alone. -/
@[simp] theorem setReg_st (q : Tile) (r v) : (q.setReg r v).seq.stepping = q.seq.stepping := by unfold Tile.setReg; split <;> rfl
/-- A register write leaves the phase alone. -/
@[simp] theorem setReg_ph (q : Tile) (r v) : (q.setReg r v).seq.phase = q.seq.phase := by unfold Tile.setReg; split <;> rfl

/-- An instruction that writes a register and is not the last. -/
theorem result_more {q : Tile} (h : q.more = true) (hs : q.seq.stepping = false) (r v) :
    (q.result r v).onSeq Seq.retired = q.after r v := by
  have hm : (q.setReg r v).more = true := by simpa [Tile.more] using h
  rw [Tile.result, retire_more hm (by simpa using hs)]
  simp [Tile.after]

/-- An executing instruction that writes a register (R36, R42). -/
theorem result_next {s : State} {t : Nat} (h : s.executes t = true) (hm : (s.tile t).more = true) (rd : BitVec 5) (v : Word)
    (f : Tile → Tile) (hf : f (s.tile t) = (s.tile t).result rd v) :
    instrOn t f s = .next (s.onTile t (fun q => q.after rd v)) := by
  obtain ⟨h1, h2, h3, h4, h5⟩ := executes_iff h
  apply instr_next h
  · rw [hf, result_more hm h4]
  · simp [Tile.after, Tile.at, h5]

/-- An access size is 1 to 4 bytes (R43). -/
theorem sizeBytes_pos (z) : 0 < sizeBytes z ∧ sizeBytes z ≤ 4 := by cases z <;> decide

/-- A number of n bytes is below 256^n. -/
theorem leNat_lt (l : List Byte) : leNat l < 2 ^ (8 * l.length) := by
  induction l with
  | nil => simp [leNat]
  | cons b r ih =>
    simp only [leNat, List.length_cons, Nat.mul_add, pow_add]
    have := b.isLt
    omega

/-- A block read has its length. -/
theorem rdBytes_length (m : Mem) (a n) : (m.rdBytes a n).length = n := by
  induction n generalizing a with
  | zero => rfl
  | succ n ih => simp [Mem.rdBytes, ih]

/-- A jump inside the image (R45). -/
theorem jumpTo_ok {q : Tile} {tgt : Nat} (h : tgt < q.seq.progLen) :
    q.jumpTo (tgt : Int) = { q with seq := { q.seq with pc := tgt } } := by
  simp [Tile.jumpTo, h]

/-- The retirement of a jump inside the image (R45, R60). -/
theorem retire_jump {q : Tile} {tgt : Nat} (h : tgt < q.seq.progLen) (hs : q.seq.stepping = false) :
    (q.jumpTo (tgt : Int)).onSeq Seq.retired = q.at tgt := by
  rw [jumpTo_ok h]; simp [Tile.at, Tile.onSeq, Seq.retired, hs]

/-- What `State.works` says. -/
theorem works_iff {s : State} {t : Nat} (h : s.works t = true) :
    isTile t = true ∧ s.coresRun = true ∧ (s.tile t).isFaulted = false ∧ (s.tile t).seq.phase ≠ .idle := by
  simp only [State.works, Bool.and_eq_true, Bool.or_eq_true, decide_eq_true_eq, beq_iff_eq] at h
  obtain ⟨⟨h1, h2⟩, h3⟩ := h
  refine ⟨by simpa [isTile] using h1, h2, ?_, ?_⟩
  · rcases h3 with e | e <;> simp [Tile.isFaulted, e]
  · rcases h3 with e | e <;> simp [e]

/-- A change of a tile that leaves its phase alone raises no fault and is the whole effect. -/
theorem runTile_eq {s : State} {t : Nat} {f : Tile → Tile} (h : s.works t = true)
    (hp : (f (s.tile t)).seq.phase = (s.tile t).seq.phase) : s.runTile t f = s.onTile t f := by
  obtain ⟨h1, h2, h3, h4⟩ := works_iff h
  have r : (s.onTile t f).tile t = f (s.tile t) :=
    State.tile_onTile _ _ _
  simp only [State.runTile, h3, r, hp]
  simp only [State.works, Bool.and_eq_true, Bool.or_eq_true, decide_eq_true_eq, beq_iff_eq] at h
  rcases h.2 with e | e <;> simp [e]

end Sys2Proof.Machine
end

