-- ==== Sys2Proof/Laws/Arrays.lean ====
section
/-!
SUPPORT. The oldest command of an array: what its selection, its start and its completion come to
(spec/03_matrix_arrays.md, spec/04_slide_mode_and_transposed_use.md, spec/06_bell_output_stage.md).
-/

set_option Elab.async false

namespace Sys2Proof.Machine

open Sys2Proof

/-- An array without the load channel has none to give back (R108). -/
theorem relChannel_channel {a : Arr} (h : a.channel = false) : a.relChannel.channel = false := by
  simp [Arr.relChannel, h]
/-- While the other array does not hold the load channel, every command may start (R109). -/
theorem mayStart_of {q : Tile} {ma e} (h : (q.arr !ma).channel = false) : mayStart q ma e = true := by
  simp [mayStart, relChannel_channel h]
/-- The first entry is selected when it satisfies the test. -/
theorem firstWhere_head {f g : QEntry → Bool} {e r i} (h : f e = true) : firstWhere f g (e :: r) i = some i := by
  simp [firstWhere, h]

/-- The oldest pass whose load is complete is the next to stream (R88). -/
theorem streamCand {a : Arr} {e rest} (hq : a.q = e :: rest) (hc : e.code = cPASS) (ht : e.taken = true)
    (hj : e.strRows < (passP e.words).m) (hl : e.loadRows = loadTarget e) : streamCandidate a = some 0 := by
  simp only [streamCandidate, hq]
  exact firstWhere_head (by simp [streaming, hc, ht, hl, hj])

/-- Bell stores of an array have begun: its settings sets, and which entries have one, may differ; nothing else does
(R155). -/
structure Arr.Begins (a a' : Arr) : Prop where
  acc : a'.acc = a.acc
  later : a'.later = a.later
  bankA : a'.bankA = a.bankA
  bankB : a'.bankB = a.bankB
  sel : a'.sel = a.sel
  issCfg : a'.issCfg = a.issCfg
  issScale : a'.issScale = a.issScale
  channel : a'.channel = a.channel
  cnt : a'.cnt = a.cnt
  q : a'.q.map (fun e => { e with store := none }) = a.q.map (fun e => { e with store := none })

theorem Arr.Begins.refl (a : Arr) : a.Begins a := ⟨rfl, rfl, rfl, rfl, rfl, rfl, rfl, rfl, rfl, rfl⟩

theorem Arr.Begins.trans {a b c : Arr} (h : a.Begins b) (k : b.Begins c) : a.Begins c :=
  ⟨k.acc.trans h.acc, k.later.trans h.later, k.bankA.trans h.bankA, k.bankB.trans h.bankB, k.sel.trans h.sel,
   k.issCfg.trans h.issCfg, k.issScale.trans h.issScale, k.channel.trans h.channel, k.cnt.trans h.cnt, k.q.trans h.q⟩

/-- The entry at an index after stores have begun: it differs in its store at most. -/
theorem Arr.Begins.entry {a a' : Arr} (h : a.Begins a') {i : Nat} {e : QEntry} (he : entryAt a.q i = some e) :
    ∃ st, entryAt a'.q i = some { e with store := st } := by
  have := congrArg (fun l => l[i]?) h.q
  simp only [entryAt] at he
  simp only [List.getElem?_map, he, Option.map_some] at this
  cases h' : a'.q[i]? with
  | none => rw [h'] at this; simp at this
  | some e' =>
    rw [h'] at this
    simp only [Option.map_some, Option.some.injEq] at this
    refine ⟨e'.store, ?_⟩
    simp only [entryAt, h', Option.some.injEq]
    calc e' = { ({ e' with store := none } : QEntry) with store := e'.store } := rfl
      _ = { e with store := e'.store } := by rw [this]

/-- Changing an entry leaves the others alone. -/
theorem entryAt_modAt (f : QEntry → QEntry) (l : List QEntry) (i k : Nat) :
    entryAt (modAt f l i) k = if k = i then (entryAt l k).map f else entryAt l k := by
  induction l generalizing i k with
  | nil => cases k <;> simp [modAt, entryAt]
  | cons x r ih =>
    cases i <;> cases k <;> simp [modAt, entryAt] at *
    rw [ih]

theorem modAt_store (l : List QEntry) (i : Nat) (st : Option (Nat × Nat × Nat)) :
    (modAt (fun e => { e with store := st }) l i).map (fun e => { e with store := none }) = l.map (fun e => { e with store := none }) := by
  induction l generalizing i with
  | nil => rfl
  | cons x r ih => cases i <;> simp [modAt, ih]

/-- Beginning a store (R155). -/
theorem beginStore_begins (a : Arr) (i : Nat) : a.Begins (a.beginStore i) := by
  simp only [Arr.beginStore]
  repeat' split
  all_goals first | exact Arr.Begins.refl a | exact ⟨rfl, rfl, rfl, rfl, rfl, rfl, rfl, rfl, rfl, modAt_store _ _ _⟩

theorem foldl_begins (l : List Nat) (a : Arr) : a.Begins (l.foldl Arr.beginStore a) := by
  induction l generalizing a with
  | nil => exact Arr.Begins.refl a
  | cons x r ih => exact (beginStore_begins a x).trans (ih _)

/-- Starting a pass begins its store, and those ahead of it (R155). -/
theorem startPass_begins (a : Arr) (i : Nat) : a.Begins (a.startPass i) := foldl_begins _ _

/-- The Bell accepts stores of one array and changes nothing else of the tile (R155). -/
theorem acceptDue_begins (ma : Bool) (q : Tile) : ∃ x, acceptDue ma q = q.onArr ma (fun _ => x) ∧ (q.arr ma).Begins x
    ∧ x.feed = (q.arr ma).feed
    ∧ ∀ k e, entryAt (q.arr ma).q k = some e → e.code ≠ 0x12 → entryAt x.q k = some e := by
  have same : ∀ z : Tile, z = z.onArr ma (fun _ => z.arr ma) := fun z => by cases ma <;> rfl
  have put : ∀ (z : Tile) (x y : Arr), (z.onArr ma (fun _ => x)).onArr ma (fun _ => y) = z.onArr ma (fun _ => y) := fun z x y => by cases ma <;> rfl
  have get : ∀ (z : Tile) (x : Arr), (z.onArr ma (fun _ => x)).arr ma = x := fun z x => by cases ma <;> rfl
  simp only [acceptDue]
  generalize List.range (q.arr ma).q.length = l
  suffices h : ∀ (l : List Nat) (z : Tile) (x : Arr), z = q.onArr ma (fun _ => x) → (q.arr ma).Begins x → x.feed = (q.arr ma).feed →
      (∀ k e, entryAt (q.arr ma).q k = some e → e.code ≠ 0x12 → entryAt x.q k = some e) →
      ∃ y, l.foldl _ z = q.onArr ma (fun _ => y) ∧ (q.arr ma).Begins y ∧ y.feed = (q.arr ma).feed
        ∧ ∀ k e, entryAt (q.arr ma).q k = some e → e.code ≠ 0x12 → entryAt y.q k = some e from
    h l q (q.arr ma) (same q) (Arr.Begins.refl _) rfl (fun _ _ h _ => h)
  intro l
  induction l with
  | nil => intro z x hz hb hf hk; exact ⟨x, hz, hb, hf, hk⟩
  | cons i r ih =>
    intro z x hz hb hf hk
    simp only [List.foldl_cons]
    have hza : z.arr ma = x := by rw [hz, get]
    have go : ∀ e, entryAt x.q i = some e → e.code = 0x12 → ∀ w, w = z.onArr ma (fun a => a.beginStore i) →
        w = q.onArr ma (fun _ => x.beginStore i) ∧ (q.arr ma).Begins (x.beginStore i) ∧ (x.beginStore i).feed = (q.arr ma).feed
        ∧ (∀ k e, entryAt (q.arr ma).q k = some e → e.code ≠ 0x12 → entryAt (x.beginStore i).q k = some e) := by
      intro e he hc w hw
      refine ⟨?_, hb.trans (beginStore_begins x i), ?_, ?_⟩
      · rw [hw, hz]; cases ma <;> rfl
      · rw [← hf]; simp only [Arr.beginStore]; repeat' split
        all_goals rfl
      · intro k e' h1 h2
        have h3 := hk k e' h1 h2
        have hki : k ≠ i := by rintro rfl; rw [he] at h3; simp at h3; subst h3; exact h2 hc
        simp only [Arr.beginStore]; repeat' split
        all_goals first | exact h3 | (simp only [entryAt_modAt, hki, if_false]; exact h3)
    rw [hza]
    split
    · rename_i e he
      split
      · rename_i hc
        have hc' : e.code = 0x12 := by simp only [Bool.and_eq_true, beq_iff_eq] at hc; exact hc.1.1.1.1.1
        obtain ⟨g1, g2, g3, g4⟩ := go e he hc' _ rfl
        exact ih _ _ g1 g2 g3 g4
      · exact ih _ _ hz hb hf hk
    · exact ih _ _ hz hb hf hk

/-- Reading rows ahead changes the feeder queues only (R85). -/
theorem feedRows_eq (sp : Spad) (n : Nat) (a : Arr) : ∃ f, feedRows sp n a = { a with feed := f } := by
  induction n generalizing a with
  | zero => exact ⟨a.feed, rfl⟩
  | succ n ih =>
    simp only [feedRows]
    split
    · exact ⟨a.feed, rfl⟩
    · split
      · exact ⟨a.feed, rfl⟩
      · split
        · obtain ⟨f, hf⟩ := ih { a with feed := a.feed ++ [_] }
          exact ⟨f, hf⟩
        · exact ⟨a.feed, rfl⟩

/-- Reading rows ahead changes the feeder queues only (R85). -/
theorem refill_eq (a : Arr) (sp : Spad) : ∃ f, a.refill sp = { a with feed := f } := feedRows_eq sp 32 a

/-- What a feeder queue holds keeps its place as rows are read behind it (R84). -/
theorem feedRows_head (sp : Spad) (n : Nat) (a : Arr) (x : FeedRow) (r : List FeedRow) (h : a.feed = x :: r) :
    ∃ r', (feedRows sp n a).feed = x :: r' := by
  induction n generalizing a r with
  | zero => exact ⟨r, h⟩
  | succ n ih =>
    simp only [feedRows]
    split
    · exact ⟨r, h⟩
    · split
      · exact ⟨r, h⟩
      · split
        · exact ih _ _ (by rw [h]; rfl)
        · exact ⟨r, h⟩

/-- The feeders of an array whose queues are empty read the due row of its oldest pass, if its slots may be read (R85). -/
theorem refill_reads {a : Arr} {sp : Spad} {e : QEntry} {rest : List QEntry} (hf : a.feed = []) (hq : a.q = e :: rest)
    (hs : streaming e = true) (ht : e.taken = true)
    (hr : (streamSlots (passP e.words) (scaleP e.scale) e.strRows).all sp.canRead = true) :
    (a.refill sp).headRow e = some (feedBytes sp.mem (passP e.words) (scaleP e.scale) e.strRows) := by
  have hfed : a.fed e = 0 := by simp [Arr.fed, hf]
  have hj : e.strRows < (passP e.words).m := by simp only [streaming, Bool.and_eq_true, decide_eq_true_eq] at hs; exact hs.2
  have hn : feedNext a = some (0, e, e.strRows) := by
    simp only [feedNext, hq]
    rw [firstWhere_head (by simp [hs, ht, hfed, hj])]
    simp [entryAt, hfed]
  have hr' : mayRead sp (a.q.take 0) (streamSlots (passP e.words) (scaleP e.scale) e.strRows) = true := by
    simpa [mayRead] using hr
  obtain ⟨r', h'⟩ := feedRows_head sp 31 { a with feed := a.feed ++ [{ uid := e.uid, row := e.strRows, mem := feedBytes sp.mem (passP e.words) (scaleP e.scale) e.strRows }] }
    { uid := e.uid, row := e.strRows, mem := feedBytes sp.mem (passP e.words) (scaleP e.scale) e.strRows } [] (by simp [hf])
  have : a.refill sp = feedRows sp 31 { a with feed := a.feed ++ [{ uid := e.uid, row := e.strRows, mem := feedBytes sp.mem (passP e.words) (scaleP e.scale) e.strRows }] } := by
    simp only [Arr.refill]
    rw [show (32 : Nat) = 31 + 1 from rfl, feedRows]
    rw [if_neg (by simp [hf]), hn]
    simp only [hr', if_true]
  rw [this]; simp only [Arr.headRow, h']; simp

/-- An array ready for its next step: stores whose turn it is have begun and the feeders have read on (R85, R155). -/
theorem arrReady_begins (ma : Bool) (q : Tile) : ∃ x, arrReady ma q = q.onArr ma (fun _ => x) ∧ (q.arr ma).Begins x
    ∧ ∀ k e, entryAt (q.arr ma).q k = some e → e.code ≠ 0x12 → entryAt x.q k = some e := by
  obtain ⟨x, h1, h2, h3, h4⟩ := acceptDue_begins ma q
  obtain ⟨f, hf⟩ := refill_eq x q.spad
  refine ⟨{ x with feed := f }, ?_, ⟨h2.acc, h2.later, h2.bankA, h2.bankB, h2.sel, h2.issCfg, h2.issScale, h2.channel, h2.cnt, h2.q⟩, h4⟩
  simp only [arrReady, h1]
  rw [← hf]; cases ma <;> rfl

/-- A token below its highest count is incremented (R55). -/
theorem postToken_lt {q : Tile} {cfg : Word} {k : Nat} (h : q.token k < 65535) :
    q.postToken cfg k = q.setToken k (q.token k + 1) := by
  simp [Tile.postToken, h]

/-- A token read after a token is set. -/
theorem token_setToken (q : Tile) (k j v : Nat) : (q.setToken k v).token j = if j = k then v else q.token j :=
  Tab.get_set _ _ _ _

/-- A command has left the front of its queue; an array may give the load channel back (R54, R108). -/
def Tile.popped (q : Tile) (eng : Nat) (rest : List QEntry) : Tile :=
  if eng < 2 then (q.onQueue eng (fun _ => rest)).onArr (eng == 1) Arr.relChannel else q.onQueue eng (fun _ => rest)

/-- Giving the load channel back changes nothing else (R108). -/
theorem relChannel_eq (a : Arr) : a.relChannel = { a with channel := a.relChannel.channel } := by
  unfold Arr.relChannel; repeat' split
  all_goals rfl

/-- What a command that leaves its queue changes (R54). -/
theorem popped_facts (q : Tile) {eng : Nat} (rest : List QEntry) (he : eng < 6) :
    (q.popped eng rest).queue eng = rest ∧ (q.popped eng rest).seq = q.seq ∧ (q.popped eng rest).spad = q.spad := by
  rcases eng with _|_|_|_|_|_|n
  · refine ⟨?_, rfl, rfl⟩; simp [Tile.popped, Tile.queue, Tile.onQueue, Tile.onArr]; rw [relChannel_eq]
  · refine ⟨?_, rfl, rfl⟩; simp [Tile.popped, Tile.queue, Tile.onQueue, Tile.onArr]; rw [relChannel_eq]
  all_goals first | exact ⟨rfl, rfl, rfl⟩ | omega

/-- The oldest command retires: it leaves the queue and its post token is incremented (R54). -/
theorem retire_head {q : Tile} {eng : Nat} {e : QEntry} {rest : List QEntry} (he : eng < 6) (hq : q.queue eng = e :: rest)
    (hp : ∀ k, e.post = some k → q.token k < 65535) :
    q.retire eng 0 = (match e.post with
      | some k => (q.popped eng rest).setToken k (q.token k + 1)
      | none => q.popped eng rest) := by
  have hd : q.onQueue eng (fun l => dropAt l 0) = q.onQueue eng (fun _ => rest) := by
    unfold Tile.queue at hq
    unfold Tile.onQueue
    split at hq <;> simp_all [dropAt]
  simp only [Tile.retire, hq, entryAt, List.getElem?_cons_zero, hd]
  cases hpo : e.post with
  | none => rfl
  | some k =>
    have ht : (q.popped eng rest).token k = q.token k := by
      unfold Tile.token; rw [(popped_facts q rest he).2.1]
    show (q.popped eng rest).postToken e.cfg k = _
    rw [postToken_lt (by rw [ht]; exact hp k hpo), ht]

/-- What retiring the oldest command changes, and what it leaves alone (R54). -/
theorem retire_head_facts {q : Tile} {eng : Nat} {e : QEntry} {rest : List QEntry} (he : eng < 6) (hq : q.queue eng = e :: rest)
    (hp : ∀ k, e.post = some k → q.token k < 65535) :
    (q.retire eng 0).queue eng = rest ∧ (q.retire eng 0).seq.phase = q.seq.phase
    ∧ (∀ k, (q.retire eng 0).token k = q.token k + (if e.post = some k then 1 else 0))
    ∧ (q.retire eng 0).spad = q.spad ∧ (q.retire eng 0).seq.dmem = q.seq.dmem := by
  have hh := popped_facts q rest he
  rw [retire_head he hq hp]
  cases hpo : e.post with
  | none => simp [Tile.token, hh]
  | some k =>
    simp only [Tile.setToken, Tile.token, hh.2.1, hh.2.2, Tab.get_set]
    refine ⟨?_, trivial, ?_, trivial, trivial⟩
    · have := hh.1; unfold Tile.queue at this ⊢; split <;> simp_all
    · intro j; by_cases h : j = k
      · subst h; simp
      · simp [h, Ne.symm h]

/-- Retiring the oldest command of an array changes that queue and the load channel only (R54, R108). -/
theorem retire_ma {q : Tile} {ma : Bool} {e : QEntry} {rest : List QEntry} (hq : (q.arr ma).q = e :: rest)
    (hp : ∀ k, e.post = some k → q.token k < 65535) :
    ((q.retire (arrEng ma) 0).arr ma) = Arr.relChannel { q.arr ma with q := rest }
    ∧ (q.retire (arrEng ma) 0).arr (!ma) = q.arr (!ma) := by
  have hq' : q.queue (arrEng ma) = e :: rest := by cases ma <;> exact hq
  rw [retire_head (by cases ma <;> decide) hq' hp]
  cases hpo : e.post <;> cases ma <;> exact ⟨rfl, rfl⟩

/-- What an array keeps when its oldest command retires (R54, R108). -/
theorem retire_arr {q : Tile} {ma : Bool} {e : QEntry} {rest : List QEntry} (hq : (q.arr ma).q = e :: rest)
    (hp : ∀ k, e.post = some k → q.token k < 65535) :
    ((q.retire (arrEng ma) 0).arr ma).q = rest ∧ ((q.retire (arrEng ma) 0).arr ma).acc = (q.arr ma).acc
    ∧ ((q.retire (arrEng ma) 0).arr ma).bell = (q.arr ma).bell ∧ ((q.retire (arrEng ma) 0).arr ma).cnt = (q.arr ma).cnt := by
  rw [(retire_ma hq hp).1, relChannel_eq]; exact ⟨rfl, rfl, rfl, rfl⟩

/-- Releasing a slot (R248). -/
theorem release_slot (sp : Spad) (i j : Nat) : (sp.release i).slot j =
    if j = i ∧ (sp.slot j).tag = .full then { sp.slot j with tag := .empty } else sp.slot j := by
  simp only [Spad.release, Spad.onSlot, Spad.slot, Tab.get_mod]
  by_cases h : j = i
  · subst h; simp
  · simp [h]

/-- Releasing a run of slots (R248). -/
theorem releaseRun_slot (sp : Spad) (i n j : Nat) : (sp.releaseRun i n).slot j =
    if (i ≤ j ∧ j < i + n) ∧ (sp.slot j).tag = .full then { sp.slot j with tag := .empty } else sp.slot j := by
  induction n generalizing sp i with
  | zero => simp [Spad.releaseRun]
  | succ n ih =>
    simp only [Spad.releaseRun, ih, release_slot]
    by_cases h : j = i
    · subst h
      by_cases hf : (sp.slot j).tag = .full <;> simp [hf]
    · by_cases hf : (sp.slot j).tag = .full
      · simp only [h, hf, false_and, if_false, and_true]
        congr 1; simp; omega
      · simp [h, hf]

/-- A block read depends on its bytes only. -/
theorem rdBytes_congr {m m' : Mem} (a n : Nat) (h : ∀ b, a ≤ b → b < a + n → m.rd b = m'.rd b) : m.rdBytes a n = m'.rdBytes a n := by
  induction n generalizing a with
  | zero => rfl
  | succ n ih =>
    simp only [Mem.rdBytes]
    rw [h a (le_refl _) (by omega), ih (a + 1) (fun b h1 h2 => h b (by omega) (by omega))]

/-- A block read beside a block written. -/
theorem rdBytes_wrBytes_other (m : Mem) (a b k : Nat) (l : List Byte) (h : b + k ≤ a ∨ a + l.length ≤ b) : (m.wrBytes a l).rdBytes b k = m.rdBytes b k := by
  rw [rdBytes_congr]
  intro x h1 h2
  exact Mem.rd_wrBytes_outside _ _ _ (by omega)

/-- A block read back, by its length. -/
theorem rdBytes_wrBytes' (m : Mem) (a n : Nat) (l : List Byte) (h : l.length = n) : (m.wrBytes a l).rdBytes a n = l := by
  rw [← h, Mem.rdBytes_wrBytes]

/-- Blocks of 8 bytes written in a row: each is read back, and nothing outside them changes. -/
theorem words_in_row (f : Nat → List Byte) (hf : ∀ i, (f i).length = 8) (m : Mem) (a n : Nat) :
    (∀ i, i < n → ((List.range n).foldl (fun m i => m.wrBytes (a + 8 * i) (f i)) m).rdBytes (a + 8 * i) 8 = f i)
    ∧ ∀ b, b < a ∨ a + 8 * n ≤ b → ((List.range n).foldl (fun m i => m.wrBytes (a + 8 * i) (f i)) m).rd b = m.rd b := by
  induction n with
  | zero => exact ⟨fun i hi => by omega, fun b _ => rfl⟩
  | succ n ih =>
    rw [List.range_succ, List.foldl_append]
    simp only [List.foldl_cons, List.foldl_nil]
    constructor
    · intro i hi
      by_cases h : i = n
      · subst h; exact rdBytes_wrBytes' _ _ _ _ (hf i)
      · rw [rdBytes_wrBytes_other _ _ _ _ _ (by rw [hf]; omega)]; exact ih.1 i (by omega)
    · intro b hb
      rw [Mem.rd_wrBytes_outside _ _ _ (by rw [hf]; omega)]; exact ih.2 b (by omega)

/-- The counters that a counter block stores, and the bytes it leaves alone (R98). -/
theorem cntBlock_facts (cnt : Tab Nat) (m : Mem) (a : Nat) :
    (∀ i, i < 8 → (cntBlock cnt m a).rdBytes (a + 8 * i) 8 = leBytes 8 (Tab.get 0 cnt i))
    ∧ ∀ b, b < a ∨ a + 64 ≤ b → (cntBlock cnt m a).rd b = m.rd b :=
  words_in_row (fun i => leBytes 8 (Tab.get 0 cnt i)) (fun i => by simp) m a 8

/-- Counters that the steps keep do not grow as a block is stored (R98). -/
theorem cntGrow_other (fv : Nat → Word) (timed : Nat → Bool) (cnt : Tab Nat) (i : Nat) (h : timed i = false) :
    Tab.get 0 (cntGrow fv timed cnt) i = Tab.get 0 cnt i := by
  unfold cntGrow
  generalize List.range 8 = l
  induction l generalizing cnt with
  | nil => rfl
  | cons x r ih =>
    simp only [List.foldl_cons]
    split
    · rename_i hx
      have hne : i ≠ x := by rintro rfl; rw [h] at hx; simp at hx
      rw [ih, Tab.get_mod, if_neg hne]
    · exact ih cnt

/-- A Bell with one settings set loads its vectors (R157). -/
theorem loadVectors_one {b : Bell} {x : BellSet} {sp : Spad} (h : b.sets = [x]) (hx : x.loaded = false)
    (hv : (vectorSlots (bellP x.words)).all sp.canRead = true) : (b.loadVectors sp).sets = [x.load sp.mem] := by
  simp only [Bell.loadVectors, h, List.find?_cons, hx, Bool.not_false]
  rw [if_pos hv]
  simp [h, hx]

/-- A block written in two parts. -/
theorem wrBytes_append (m : Mem) (a : Nat) (l r : List Byte) : m.wrBytes a (l ++ r) = (m.wrBytes a l).wrBytes (a + l.length) r := by
  induction l generalizing m a with
  | nil => rfl
  | cons x l ih => simp only [List.cons_append, Mem.wrBytes, ih, List.length_cons]; congr 1; omega

/-- A store into `RAW` slots writes its bytes and changes no tag (R246, R251). -/
theorem writeFill_raw (sp : Spad) (decl : Nat → Nat) (a : Nat) (bs : List Byte) (n : Nat)
    (hn : bs.length + a % 4096 ≤ 4096 * n)
    (hr : ∀ i ∈ slotsOf a bs.length, (sp.slot i).tag = .raw) :
    ∃ sp', sp.writeFill decl a bs n = some sp' ∧ sp'.mem = sp.mem.wrBytes a bs ∧ ∀ i, sp'.slot i = sp.slot i := by
  induction n generalizing sp a bs with
  | zero =>
    have : bs = [] := by cases bs with | nil => rfl | cons _ _ => simp at hn
    subst this; exact ⟨sp, by simp [Spad.writeFill], rfl, fun _ => rfl⟩
  | succ n ih =>
    by_cases hb : bs = []
    · subst hb; exact ⟨sp, by simp [Spad.writeFill], rfl, fun _ => rfl⟩
    · have hlen : 0 < bs.length := List.length_pos_of_ne_nil hb
      have h0 : (sp.slot (a / 4096)).tag = .raw := hr _ (by
        simp only [slotsOf, List.mem_map, List.mem_range]; exact ⟨0, by omega, by omega⟩)
      set k := 4096 - a % 4096 with hk
      have hfill : (sp.slot (a / 4096)).fillBy (bs.take k).length (decl (a / 4096)) = some (sp.slot (a / 4096)) := by
        simp [Slot.fillBy, h0]
      set sp1 : Spad := { sp with
          mem := sp.mem.wrBytes a (bs.take k), slots := Tab.set Slot.init sp.slots (a / 4096) (sp.slot (a / 4096))
          mine := if (sp.slot (a / 4096)).fill == 0 || sp.mine.contains (a / 4096) then sp.mine
            else a / 4096 :: sp.mine } with hsp1
      have hs1 : ∀ i, sp1.slot i = sp.slot i := by
        intro i; simp only [Spad.slot, hsp1, Tab.get_set]
        by_cases h : i = a / 4096 <;> simp [h]
      obtain ⟨sp', e1, e2, e3⟩ := ih sp1 (a + k) (bs.drop k) (by
          rw [List.length_drop]
          have : (a + k) % 4096 = 0 := by omega
          omega) (by
          intro i hi
          rw [hs1]
          apply hr
          simp only [slotsOf, List.mem_map, List.mem_range, List.length_drop] at hi ⊢
          obtain ⟨u, hu, rfl⟩ := hi
          exact ⟨u + (a + k) / 4096 - a / 4096, by omega, by omega⟩)
      refine ⟨sp', ?_, ?_, fun i => by rw [e3, hs1]⟩
      · rw [Spad.writeFill]
        · simp only [← hk, hfill]; exact e1
        · exact hb
      · rw [e2]
        show (sp.mem.wrBytes a (bs.take k)).wrBytes (a + k) (bs.drop k) = _
        by_cases hkl : k ≤ bs.length
        · have : (bs.take k).length = k := by simp [hkl]
          conv_rhs => rw [← List.take_append_drop k bs, wrBytes_append, this]
        · rw [List.drop_eq_nil_of_le (by omega), List.take_of_length_le (by omega)]; rfl

/-- A lane of a row made of 128 lanes. -/
theorem laneOf_rowOf (f : Nat → Word) {i : Nat} (h : i < 128) : laneOf (rowOf f) i = f i := by
  unfold laneOf rowOf
  exact Tab.foldl_set_const (d := (0 : Word)) (fun i => i) f (List.range 128) List.nodup_range (fun x _ y _ h => h) [] i (List.mem_range.2 h)

/-- A row read after a row is written. -/
theorem row_setRow (x : Vec) (r r' : BitVec 3) (tb : Tab Word) : (x.setRow r tb).row r' = if r' = r then tb else x.row r' := by
  simp only [Vec.row, Vec.setRow, Tab.get_set]
  by_cases h : r' = r
  · simp [h]
  · rw [if_neg (fun hh => h (BitVec.eq_of_toNat_eq hh)), if_neg h]

/-- A fold whose steps change nothing. -/
theorem foldl_fixed {α β : Type} {f : α → β → α} {a : α} (h : ∀ b, f a b = a) (l : List β) : l.foldl f a = a := by
  induction l with
  | nil => rfl
  | cons b r ih => rw [List.foldl_cons, h b]; exact ih

/-- Behind an instruction that is no vector store, the vector Bell accepts nothing (R193). -/
theorem acceptVec_head {q : Tile} {e : QEntry} {rest : List QEntry} (hq : q.vec.q = e :: rest) (hs : isVStore e = false) :
    acceptVec q = q := by
  have step : ∀ i, (match entryAt q.vec.q i with
      | some e =>
        if isVStore e && e.store.isNone && vecMay q i e && decide (acceptedStores q.vec.q < 4) then
          let x := q.vec.bell.accept (vElems (vP (vecArgs e.enc)) e.vl) (vStoreRows e)
          { q with vec := { q.vec with bell := x.1, q := modAt (fun e => { e with store := some x.2 }) q.vec.q i } }
        else q
      | none => q) = q := by
    intro i
    split
    · rename_i e' he'
      rw [if_neg]
      intro hh
      simp only [Bool.and_eq_true] at hh
      cases i with
      | zero =>
        rw [hq] at he'; simp only [entryAt, List.getElem?_cons_zero, Option.some.injEq] at he'
        subst he'; rw [hs] at hh; simp at hh
      | succ i =>
        have := hh.1.2
        simp only [vecMay, hq, List.take_succ_cons, List.all_cons, hs, Bool.false_and, Bool.and_false, Bool.false_eq_true] at this
    · rfl
  exact foldl_fixed step _

/-- The oldest vector instruction retires (R54): its counts and its post token, and nothing of the rows. -/
theorem vec_fin {q : Tile} {e : QEntry} {rest : List QEntry} (hq : q.vec.q = e :: rest) (hp : ∀ k, e.post = some k → q.token k < 65535)
    (n m : Nat) :
    let q' := (q.onVec (fun x => ((x.cntAdd 0 1).cntAdd 1 n).cntAdd 2 m)).retire 2 0
    q'.vec.q = rest ∧ q'.vec.v = q.vec.v ∧ q'.vec.t = q.vec.t ∧ q'.vec.vl = q.vec.vl ∧ q'.seq.phase = q.seq.phase
    ∧ q'.spad = q.spad ∧ q'.seq.dmem = q.seq.dmem ∧ q'.seq.regs = q.seq.regs ∧ q'.ma0 = q.ma0 ∧ q'.ma1 = q.ma1
    ∧ (∀ k, q'.token k = q.token k + (if e.post = some k then 1 else 0)) := by
  intro q'
  let q1 := q.onVec (fun x => ((x.cntAdd 0 1).cntAdd 1 n).cntAdd 2 m)
  have h1 : q1.queue 2 = e :: rest := hq
  have hp1 : ∀ k, e.post = some k → q1.token k < 65535 := by
    have hh : q1.seq.tokens = q.seq.tokens := rfl
    intro k hk; have h := hp k hk; simp only [Tile.token, hh] at h ⊢; exact h
  have f := retire_head_facts (eng := 2) (by decide) h1 hp1
  have tok : ∀ k, q'.token k = q.token k + (if e.post = some k then 1 else 0) := by
    intro k; rw [show q' = q1.retire 2 0 from rfl, f.2.2.1]; rfl
  refine ⟨f.1, ?_, ?_, ?_, f.2.1, f.2.2.2.1, f.2.2.2.2, ?_, ?_, ?_, tok⟩ <;>
  · show _ = _
    simp only [q']
    rw [show q.onVec (fun x => ((x.cntAdd 0 1).cntAdd 1 n).cntAdd 2 m) = q1 from rfl, retire_head (by decide) h1 hp1]
    cases e.post <;> rfl

/-- A `commandComplete` of the vector engine that leaves the phase alone. -/
theorem vec_complete {s : State} {t : Nat} (h : s.works t = true) (hp : (completeVec s.fv 0 (s.tile t)).seq.phase = (s.tile t).seq.phase) :
    ∃ s', exec (.commandComplete t 2 0) s = .next s' ∧ s'.tile t = completeVec s.fv 0 (s.tile t) := by
  obtain ⟨h1, h2, h3, h4⟩ := works_iff h
  refine ⟨(s.onTile t (completeVec s.fv 0)).tick, ?_, ?_⟩
  · simp [exec, execCommandComplete, onUnit, h1, h2, State.complete, runTile_eq h hp]
  · show (s.onTile t (completeVec s.fv 0)).tile t = _
    rw [State.tile_onTile]

/-- An entry read after an entry is written. -/
theorem ent_setEnt (r : Row) (k j : Nat) (e : ReedEnt) : (r.setEnt k e).ent j = if j = k then e else r.ent j := Tab.get_set _ _ _ _

/-- Clearing valid bits (R210). -/
theorem ent_inval (r : Row) (k n j : Nat) : (r.inval k n).ent j =
    if k ≤ j ∧ j < k + n then { r.ent j with valid := false } else r.ent j := by
  unfold Row.inval
  induction n with
  | zero => simp
  | succ n ih =>
    rw [List.range_succ, List.foldl_append]
    simp only [List.foldl_cons, List.foldl_nil, ent_setEnt]
    by_cases h : j = k + n
    · subst h; rw [if_pos rfl, ih]; simp
    · rw [if_neg h, ih]
      by_cases h2 : k ≤ j ∧ j < k + n
      · rw [if_pos h2, if_pos (by omega)]
      · rw [if_neg h2, if_neg (by omega)]

/-- Filling entries from an image (R217). -/
theorem ent_fillFrom (r : Row) (m : Mem) (a b k n j : Nat) : (r.fillFrom m a b k n).ent j =
    if k ≤ j ∧ j < k + n then
      { stat0 := BitVec.ofNat 32 (m.rdLE (a + 8 * (j - k)) 4), stat1 := BitVec.ofNat 32 (m.rdLE (a + 8 * (j - k) + 4) 4)
        key := m.rdLE (b + 2 * (j - k)) 2 % 2 ^ 15, valid := (m.rdLE (b + 2 * (j - k)) 2).testBit 15, mine := true }
    else r.ent j := by
  unfold Row.fillFrom
  induction n with
  | zero => simp
  | succ n ih =>
    rw [List.range_succ, List.foldl_append]
    simp only [List.foldl_cons, List.foldl_nil, ent_setEnt]
    by_cases h : j = k + n
    · subst h; rw [if_pos rfl, if_pos (by omega)]; simp
    · rw [if_neg h, ih]
      by_cases h2 : k ≤ j ∧ j < k + n
      · rw [if_pos h2, if_pos (by omega)]
      · rw [if_neg h2, if_neg (by omega)]

/-- A `commandComplete` of the row engine that leaves the phase alone. -/
theorem row_complete {s : State} {t : Nat} (h : s.works t = true)
    (hp : (completeRow s.fv (s.recompOk t) 0 (s.tile t)).seq.phase = (s.tile t).seq.phase) :
    ∃ s', exec (.commandComplete t 3 0) s = .next s' ∧ s'.tile t = completeRow s.fv (s.recompOk t) 0 (s.tile t) := by
  obtain ⟨h1, h2, h3, h4⟩ := works_iff h
  refine ⟨(s.onTile t (completeRow s.fv (s.recompOk t) 0)).tick, ?_, ?_⟩
  · simp [exec, execCommandComplete, onUnit, h1, h2, State.complete, runTile_eq h hp]
  · show (s.onTile t (completeRow s.fv (s.recompOk t) 0)).tile t = _
    rw [State.tile_onTile]

/-- The oldest row-engine command retires (R54). -/
theorem row_fin {q q2 : Tile} {e : QEntry} {rest : List QEntry} (hq : q2.row.q = e :: rest)
    (htk : q2.seq.tokens = q.seq.tokens) (hph : q2.seq.phase = q.seq.phase) (hp : ∀ k, e.post = some k → q.token k < 65535) :
    (q2.retire 3 0).row.q = rest ∧ (∀ k, (q2.retire 3 0).row.ent k = q2.row.ent k) ∧ (q2.retire 3 0).spad = q2.spad
    ∧ (q2.retire 3 0).seq.phase = q.seq.phase ∧ (q2.retire 3 0).seq.dmem = q2.seq.dmem := by
  have h1 : q2.queue 3 = e :: rest := hq
  have hp1 : ∀ k, e.post = some k → q2.token k < 65535 := by
    intro k hk; have h := hp k hk; simp only [Tile.token, htk] at h ⊢; exact h
  have f := retire_head_facts (eng := 3) (by decide) h1 hp1
  refine ⟨f.1, ?_, f.2.2.2.1, f.2.1.trans hph, f.2.2.2.2⟩
  intro k
  rw [retire_head (by decide) h1 hp1]
  cases e.post <;> rfl

end Sys2Proof.Machine
end

