-- ==== Sys2Proof/Laws/FramesCore.lean ====
section
/-!
SUPPORT. Which parts of the state the operations of Ops, DescOps, CoreOps and the core DMA leave as they were: one lemma
`<operation>_frame` for each operation on the state, of the fields tiles, fuses, pending, cfg, mgmt, pkg, sec, bw and time.
-/

set_option Elab.async false
set_option linter.unusedSimpArgs false
set_option linter.unusedVariables false
set_option linter.unreachableTactic false
set_option linter.unusedTactic false

namespace Sys2Proof.Machine

open Sys2Proof

/-! ### Folds and conditionals -/

theorem foldl_tiles {β : Type} (l : List β) (s : State) (g : State → β → State) (h : ∀ s x, (g s x).tiles = s.tiles) : (l.foldl g s).tiles = s.tiles := by
  induction l generalizing s with
  | nil => rfl
  | cons x r ih => simp only [List.foldl_cons]; rw [ih, h]
theorem foldl_fuses {β : Type} (l : List β) (s : State) (g : State → β → State) (h : ∀ s x, (g s x).fuses = s.fuses) : (l.foldl g s).fuses = s.fuses := by
  induction l generalizing s with
  | nil => rfl
  | cons x r ih => simp only [List.foldl_cons]; rw [ih, h]
theorem foldl_pending {β : Type} (l : List β) (s : State) (g : State → β → State) (h : ∀ s x, (g s x).pending = s.pending) : (l.foldl g s).pending = s.pending := by
  induction l generalizing s with
  | nil => rfl
  | cons x r ih => simp only [List.foldl_cons]; rw [ih, h]
theorem foldl_cfg {β : Type} (l : List β) (s : State) (g : State → β → State) (h : ∀ s x, (g s x).cfg = s.cfg) : (l.foldl g s).cfg = s.cfg := by
  induction l generalizing s with
  | nil => rfl
  | cons x r ih => simp only [List.foldl_cons]; rw [ih, h]
theorem foldl_mgmt {β : Type} (l : List β) (s : State) (g : State → β → State) (h : ∀ s x, (g s x).mgmt = s.mgmt) : (l.foldl g s).mgmt = s.mgmt := by
  induction l generalizing s with
  | nil => rfl
  | cons x r ih => simp only [List.foldl_cons]; rw [ih, h]
theorem foldl_pkg {β : Type} (l : List β) (s : State) (g : State → β → State) (h : ∀ s x, (g s x).pkg = s.pkg) : (l.foldl g s).pkg = s.pkg := by
  induction l generalizing s with
  | nil => rfl
  | cons x r ih => simp only [List.foldl_cons]; rw [ih, h]
theorem foldl_sec {β : Type} (l : List β) (s : State) (g : State → β → State) (h : ∀ s x, (g s x).sec = s.sec) : (l.foldl g s).sec = s.sec := by
  induction l generalizing s with
  | nil => rfl
  | cons x r ih => simp only [List.foldl_cons]; rw [ih, h]
theorem foldl_bw {β : Type} (l : List β) (s : State) (g : State → β → State) (h : ∀ s x, (g s x).bw = s.bw) : (l.foldl g s).bw = s.bw := by
  induction l generalizing s with
  | nil => rfl
  | cons x r ih => simp only [List.foldl_cons]; rw [ih, h]
theorem foldl_time {β : Type} (l : List β) (s : State) (g : State → β → State) (h : ∀ s x, (g s x).time = s.time) : (l.foldl g s).time = s.time := by
  induction l generalizing s with
  | nil => rfl
  | cons x r ih => simp only [List.foldl_cons]; rw [ih, h]
theorem foldlP_tiles {β γ : Type} (l : List β) (r : State × γ) (g : State × γ → β → State × γ) (h : ∀ r x, (g r x).1.tiles = r.1.tiles) : (l.foldl g r).1.tiles = r.1.tiles := by
  induction l generalizing r with
  | nil => rfl
  | cons x l ih => simp only [List.foldl_cons]; rw [ih, h]
@[simp] theorem iteP_tiles {γ : Type} (c : Prop) [Decidable c] (a b : State × γ) : (if c then a else b).1.tiles = if c then a.1.tiles else b.1.tiles := apply_ite (fun r : State × γ => r.1.tiles) c a b
theorem foldlP_fuses {β γ : Type} (l : List β) (r : State × γ) (g : State × γ → β → State × γ) (h : ∀ r x, (g r x).1.fuses = r.1.fuses) : (l.foldl g r).1.fuses = r.1.fuses := by
  induction l generalizing r with
  | nil => rfl
  | cons x l ih => simp only [List.foldl_cons]; rw [ih, h]
@[simp] theorem iteP_fuses {γ : Type} (c : Prop) [Decidable c] (a b : State × γ) : (if c then a else b).1.fuses = if c then a.1.fuses else b.1.fuses := apply_ite (fun r : State × γ => r.1.fuses) c a b
theorem foldlP_pending {β γ : Type} (l : List β) (r : State × γ) (g : State × γ → β → State × γ) (h : ∀ r x, (g r x).1.pending = r.1.pending) : (l.foldl g r).1.pending = r.1.pending := by
  induction l generalizing r with
  | nil => rfl
  | cons x l ih => simp only [List.foldl_cons]; rw [ih, h]
@[simp] theorem iteP_pending {γ : Type} (c : Prop) [Decidable c] (a b : State × γ) : (if c then a else b).1.pending = if c then a.1.pending else b.1.pending := apply_ite (fun r : State × γ => r.1.pending) c a b
theorem foldlP_cfg {β γ : Type} (l : List β) (r : State × γ) (g : State × γ → β → State × γ) (h : ∀ r x, (g r x).1.cfg = r.1.cfg) : (l.foldl g r).1.cfg = r.1.cfg := by
  induction l generalizing r with
  | nil => rfl
  | cons x l ih => simp only [List.foldl_cons]; rw [ih, h]
@[simp] theorem iteP_cfg {γ : Type} (c : Prop) [Decidable c] (a b : State × γ) : (if c then a else b).1.cfg = if c then a.1.cfg else b.1.cfg := apply_ite (fun r : State × γ => r.1.cfg) c a b
theorem foldlP_mgmt {β γ : Type} (l : List β) (r : State × γ) (g : State × γ → β → State × γ) (h : ∀ r x, (g r x).1.mgmt = r.1.mgmt) : (l.foldl g r).1.mgmt = r.1.mgmt := by
  induction l generalizing r with
  | nil => rfl
  | cons x l ih => simp only [List.foldl_cons]; rw [ih, h]
@[simp] theorem iteP_mgmt {γ : Type} (c : Prop) [Decidable c] (a b : State × γ) : (if c then a else b).1.mgmt = if c then a.1.mgmt else b.1.mgmt := apply_ite (fun r : State × γ => r.1.mgmt) c a b
theorem foldlP_pkg {β γ : Type} (l : List β) (r : State × γ) (g : State × γ → β → State × γ) (h : ∀ r x, (g r x).1.pkg = r.1.pkg) : (l.foldl g r).1.pkg = r.1.pkg := by
  induction l generalizing r with
  | nil => rfl
  | cons x l ih => simp only [List.foldl_cons]; rw [ih, h]
@[simp] theorem iteP_pkg {γ : Type} (c : Prop) [Decidable c] (a b : State × γ) : (if c then a else b).1.pkg = if c then a.1.pkg else b.1.pkg := apply_ite (fun r : State × γ => r.1.pkg) c a b
theorem foldlP_sec {β γ : Type} (l : List β) (r : State × γ) (g : State × γ → β → State × γ) (h : ∀ r x, (g r x).1.sec = r.1.sec) : (l.foldl g r).1.sec = r.1.sec := by
  induction l generalizing r with
  | nil => rfl
  | cons x l ih => simp only [List.foldl_cons]; rw [ih, h]
@[simp] theorem iteP_sec {γ : Type} (c : Prop) [Decidable c] (a b : State × γ) : (if c then a else b).1.sec = if c then a.1.sec else b.1.sec := apply_ite (fun r : State × γ => r.1.sec) c a b
theorem foldlP_bw {β γ : Type} (l : List β) (r : State × γ) (g : State × γ → β → State × γ) (h : ∀ r x, (g r x).1.bw = r.1.bw) : (l.foldl g r).1.bw = r.1.bw := by
  induction l generalizing r with
  | nil => rfl
  | cons x l ih => simp only [List.foldl_cons]; rw [ih, h]
@[simp] theorem iteP_bw {γ : Type} (c : Prop) [Decidable c] (a b : State × γ) : (if c then a else b).1.bw = if c then a.1.bw else b.1.bw := apply_ite (fun r : State × γ => r.1.bw) c a b
theorem foldlP_time {β γ : Type} (l : List β) (r : State × γ) (g : State × γ → β → State × γ) (h : ∀ r x, (g r x).1.time = r.1.time) : (l.foldl g r).1.time = r.1.time := by
  induction l generalizing r with
  | nil => rfl
  | cons x l ih => simp only [List.foldl_cons]; rw [ih, h]
@[simp] theorem iteP_time {γ : Type} (c : Prop) [Decidable c] (a b : State × γ) : (if c then a else b).1.time = if c then a.1.time else b.1.time := apply_ite (fun r : State × γ => r.1.time) c a b
theorem foldlW_tiles {β : Type} (l : List β) (r : Written) (g : Written → β → Written) (h : ∀ r x, (g r x).st.tiles = r.st.tiles) : (l.foldl g r).st.tiles = r.st.tiles := by
  induction l generalizing r with
  | nil => rfl
  | cons x l ih => simp only [List.foldl_cons]; rw [ih, h]
@[simp] theorem iteW_tiles (c : Prop) [Decidable c] (a b : Written) : (if c then a else b).st.tiles = if c then a.st.tiles else b.st.tiles := apply_ite (fun r : Written => r.st.tiles) c a b
theorem foldlW_fuses {β : Type} (l : List β) (r : Written) (g : Written → β → Written) (h : ∀ r x, (g r x).st.fuses = r.st.fuses) : (l.foldl g r).st.fuses = r.st.fuses := by
  induction l generalizing r with
  | nil => rfl
  | cons x l ih => simp only [List.foldl_cons]; rw [ih, h]
@[simp] theorem iteW_fuses (c : Prop) [Decidable c] (a b : Written) : (if c then a else b).st.fuses = if c then a.st.fuses else b.st.fuses := apply_ite (fun r : Written => r.st.fuses) c a b
theorem foldlW_pending {β : Type} (l : List β) (r : Written) (g : Written → β → Written) (h : ∀ r x, (g r x).st.pending = r.st.pending) : (l.foldl g r).st.pending = r.st.pending := by
  induction l generalizing r with
  | nil => rfl
  | cons x l ih => simp only [List.foldl_cons]; rw [ih, h]
@[simp] theorem iteW_pending (c : Prop) [Decidable c] (a b : Written) : (if c then a else b).st.pending = if c then a.st.pending else b.st.pending := apply_ite (fun r : Written => r.st.pending) c a b
theorem foldlW_cfg {β : Type} (l : List β) (r : Written) (g : Written → β → Written) (h : ∀ r x, (g r x).st.cfg = r.st.cfg) : (l.foldl g r).st.cfg = r.st.cfg := by
  induction l generalizing r with
  | nil => rfl
  | cons x l ih => simp only [List.foldl_cons]; rw [ih, h]
@[simp] theorem iteW_cfg (c : Prop) [Decidable c] (a b : Written) : (if c then a else b).st.cfg = if c then a.st.cfg else b.st.cfg := apply_ite (fun r : Written => r.st.cfg) c a b
theorem foldlW_mgmt {β : Type} (l : List β) (r : Written) (g : Written → β → Written) (h : ∀ r x, (g r x).st.mgmt = r.st.mgmt) : (l.foldl g r).st.mgmt = r.st.mgmt := by
  induction l generalizing r with
  | nil => rfl
  | cons x l ih => simp only [List.foldl_cons]; rw [ih, h]
@[simp] theorem iteW_mgmt (c : Prop) [Decidable c] (a b : Written) : (if c then a else b).st.mgmt = if c then a.st.mgmt else b.st.mgmt := apply_ite (fun r : Written => r.st.mgmt) c a b
theorem foldlW_pkg {β : Type} (l : List β) (r : Written) (g : Written → β → Written) (h : ∀ r x, (g r x).st.pkg = r.st.pkg) : (l.foldl g r).st.pkg = r.st.pkg := by
  induction l generalizing r with
  | nil => rfl
  | cons x l ih => simp only [List.foldl_cons]; rw [ih, h]
@[simp] theorem iteW_pkg (c : Prop) [Decidable c] (a b : Written) : (if c then a else b).st.pkg = if c then a.st.pkg else b.st.pkg := apply_ite (fun r : Written => r.st.pkg) c a b
theorem foldlW_sec {β : Type} (l : List β) (r : Written) (g : Written → β → Written) (h : ∀ r x, (g r x).st.sec = r.st.sec) : (l.foldl g r).st.sec = r.st.sec := by
  induction l generalizing r with
  | nil => rfl
  | cons x l ih => simp only [List.foldl_cons]; rw [ih, h]
@[simp] theorem iteW_sec (c : Prop) [Decidable c] (a b : Written) : (if c then a else b).st.sec = if c then a.st.sec else b.st.sec := apply_ite (fun r : Written => r.st.sec) c a b
theorem foldlW_bw {β : Type} (l : List β) (r : Written) (g : Written → β → Written) (h : ∀ r x, (g r x).st.bw = r.st.bw) : (l.foldl g r).st.bw = r.st.bw := by
  induction l generalizing r with
  | nil => rfl
  | cons x l ih => simp only [List.foldl_cons]; rw [ih, h]
@[simp] theorem iteW_bw (c : Prop) [Decidable c] (a b : Written) : (if c then a else b).st.bw = if c then a.st.bw else b.st.bw := apply_ite (fun r : Written => r.st.bw) c a b
theorem foldlW_time {β : Type} (l : List β) (r : Written) (g : Written → β → Written) (h : ∀ r x, (g r x).st.time = r.st.time) : (l.foldl g r).st.time = r.st.time := by
  induction l generalizing r with
  | nil => rfl
  | cons x l ih => simp only [List.foldl_cons]; rw [ih, h]
@[simp] theorem iteW_time (c : Prop) [Decidable c] (a b : Written) : (if c then a else b).st.time = if c then a.st.time else b.st.time := apply_ite (fun r : Written => r.st.time) c a b
@[simp] theorem ite_tiles (c : Prop) [Decidable c] (a b : State) : (if c then a else b).tiles = if c then a.tiles else b.tiles := apply_ite State.tiles c a b
@[simp] theorem ite_fuses (c : Prop) [Decidable c] (a b : State) : (if c then a else b).fuses = if c then a.fuses else b.fuses := apply_ite State.fuses c a b
@[simp] theorem ite_pending (c : Prop) [Decidable c] (a b : State) : (if c then a else b).pending = if c then a.pending else b.pending := apply_ite State.pending c a b
@[simp] theorem ite_cfg (c : Prop) [Decidable c] (a b : State) : (if c then a else b).cfg = if c then a.cfg else b.cfg := apply_ite State.cfg c a b
@[simp] theorem ite_mgmt (c : Prop) [Decidable c] (a b : State) : (if c then a else b).mgmt = if c then a.mgmt else b.mgmt := apply_ite State.mgmt c a b
@[simp] theorem ite_pkg (c : Prop) [Decidable c] (a b : State) : (if c then a else b).pkg = if c then a.pkg else b.pkg := apply_ite State.pkg c a b
@[simp] theorem ite_sec (c : Prop) [Decidable c] (a b : State) : (if c then a else b).sec = if c then a.sec else b.sec := apply_ite State.sec c a b
@[simp] theorem ite_bw (c : Prop) [Decidable c] (a b : State) : (if c then a else b).bw = if c then a.bw else b.bw := apply_ite State.bw c a b
@[simp] theorem ite_time (c : Prop) [Decidable c] (a b : State) : (if c then a else b).time = if c then a.time else b.time := apply_ite State.time c a b

/-! ### `Ops` -/

@[simp] theorem State.onTile_frame (s : State) (t : Nat) (f : Tile → Tile) :
    (State.onTile s t f).fuses = s.fuses ∧ (State.onTile s t f).pending = s.pending ∧ (State.onTile s t f).cfg = 
    s.cfg ∧ (State.onTile s t f).mgmt = s.mgmt ∧ (State.onTile s t f).pkg = s.pkg ∧ (State.onTile s t f).sec = 
    s.sec ∧ (State.onTile s t f).bw = s.bw ∧ (State.onTile s t f).time = s.time := by
  simp [State.onTile]
@[simp] theorem State.onPort_frame (s : State) (p : Nat) (f : Port → Port) :
    (State.onPort s p f).tiles = s.tiles ∧ (State.onPort s p f).fuses = s.fuses ∧ (State.onPort s p f).pending = 
    s.pending ∧ (State.onPort s p f).cfg = s.cfg ∧ (State.onPort s p f).mgmt = s.mgmt ∧ (State.onPort s p f).pkg = 
    s.pkg ∧ (State.onPort s p f).sec = s.sec ∧ (State.onPort s p f).bw = s.bw ∧ (State.onPort s p f).time = s.time := by
  simp [State.onPort]
@[simp] theorem State.setReg_frame (s : State) (a : Nat) (v : Word) :
    (State.setReg s a v).tiles = s.tiles ∧ (State.setReg s a v).fuses = s.fuses ∧ (State.setReg s a v).pending = 
    s.pending ∧ (State.setReg s a v).mgmt = s.mgmt ∧ (State.setReg s a v).pkg = s.pkg ∧ (State.setReg s a v).sec = 
    s.sec ∧ (State.setReg s a v).bw = s.bw ∧ (State.setReg s a v).time = s.time := by
  simp [State.setReg]
@[simp] theorem State.setFld_frame (s : State) (a lo len v : Nat) :
    (State.setFld s a lo len v).tiles = s.tiles ∧ (State.setFld s a lo len v).fuses = s.fuses ∧ (State.setFld s a 
    lo len v).pending = s.pending ∧ (State.setFld s a lo len v).mgmt = s.mgmt ∧ (State.setFld s a lo len v).pkg = 
    s.pkg ∧ (State.setFld s a lo len v).sec = s.sec ∧ (State.setFld s a lo len v).bw = s.bw ∧ (State.setFld s a lo 
    len v).time = s.time := by
  simp [State.setFld]
@[simp] theorem State.tick_frame (s : State) :
    (State.tick s).tiles = s.tiles ∧ (State.tick s).fuses = s.fuses ∧ (State.tick s).pending = s.pending ∧ 
    (State.tick s).cfg = s.cfg ∧ (State.tick s).mgmt = s.mgmt ∧ (State.tick s).pkg = s.pkg ∧ (State.tick s).sec = 
    s.sec ∧ (State.tick s).bw = s.bw ∧ (State.tick s).time = s.time := by
  simp [State.tick]
@[simp] theorem State.count_frame (s : State) (k n : Nat) :
    (State.count s k n).tiles = s.tiles ∧ (State.count s k n).fuses = s.fuses ∧ (State.count s k n).pending = 
    s.pending ∧ (State.count s k n).cfg = s.cfg ∧ (State.count s k n).mgmt = s.mgmt ∧ (State.count s k n).pkg = 
    s.pkg ∧ (State.count s k n).sec = s.sec ∧ (State.count s k n).bw = s.bw ∧ (State.count s k n).time = s.time := by
  simp [State.count]
@[simp] theorem State.countRows_frame (s : State) (a n : Nat) :
    (State.countRows s a n).tiles = s.tiles ∧ (State.countRows s a n).fuses = s.fuses ∧ (State.countRows s a 
    n).pending = s.pending ∧ (State.countRows s a n).cfg = s.cfg ∧ (State.countRows s a n).mgmt = s.mgmt ∧ 
    (State.countRows s a n).pkg = s.pkg ∧ (State.countRows s a n).sec = s.sec ∧ (State.countRows s a n).bw = s.bw 
    ∧ (State.countRows s a n).time = s.time := by
  simp [State.countRows]
@[simp] theorem State.traceAdd_frame (s : State) (tile src typ : Nat) (pay : Word) :
    (State.traceAdd s tile src typ pay).tiles = s.tiles ∧ (State.traceAdd s tile src typ pay).fuses = s.fuses ∧ 
    (State.traceAdd s tile src typ pay).pending = s.pending ∧ (State.traceAdd s tile src typ pay).cfg = s.cfg ∧ 
    (State.traceAdd s tile src typ pay).mgmt = s.mgmt ∧ (State.traceAdd s tile src typ pay).pkg = s.pkg ∧ 
    (State.traceAdd s tile src typ pay).sec = s.sec ∧ (State.traceAdd s tile src typ pay).bw = s.bw ∧ 
    (State.traceAdd s tile src typ pay).time = s.time := by
  simp [State.traceAdd]
@[simp] theorem State.sendOn_frame (s : State) (p : Nat) (k : Packet) :
    (State.sendOn s p k).tiles = s.tiles ∧ (State.sendOn s p k).fuses = s.fuses ∧ (State.sendOn s p k).pending = 
    s.pending ∧ (State.sendOn s p k).cfg = s.cfg ∧ (State.sendOn s p k).mgmt = s.mgmt ∧ (State.sendOn s p k).pkg = 
    s.pkg ∧ (State.sendOn s p k).sec = s.sec ∧ (State.sendOn s p k).bw = s.bw ∧ (State.sendOn s p k).time = s.time := by
  simp [State.sendOn]
@[simp] theorem State.request_frame (s : State) (d : Nat) (k : Packet) (o : OpenTx) :
    (State.request s d k o).1.tiles = s.tiles ∧ (State.request s d k o).1.fuses = s.fuses ∧ (State.request s d k 
    o).1.pending = s.pending ∧ (State.request s d k o).1.cfg = s.cfg ∧ (State.request s d k o).1.mgmt = s.mgmt ∧ 
    (State.request s d k o).1.pkg = s.pkg ∧ (State.request s d k o).1.sec = s.sec ∧ (State.request s d k o).1.bw = 
    s.bw ∧ (State.request s d k o).1.time = s.time := by
  simp only [State.request]; (repeat' split) <;> (simp [*])
@[simp] theorem State.workAcked_frame (s : State) (tile uid : Nat) :
    (State.workAcked s tile uid).fuses = s.fuses ∧ (State.workAcked s tile uid).pending = s.pending ∧ 
    (State.workAcked s tile uid).cfg = s.cfg ∧ (State.workAcked s tile uid).mgmt = s.mgmt ∧ (State.workAcked s 
    tile uid).pkg = s.pkg ∧ (State.workAcked s tile uid).sec = s.sec ∧ (State.workAcked s tile uid).bw = s.bw ∧ 
    (State.workAcked s tile uid).time = s.time := by
  simp [State.workAcked]
@[simp] theorem State.sendDue_frame (s : State) (p : Nat) (k : Packet) :
    (State.sendDue s p k).tiles = s.tiles ∧ (State.sendDue s p k).fuses = s.fuses ∧ (State.sendDue s p k).pending 
    = s.pending ∧ (State.sendDue s p k).cfg = s.cfg ∧ (State.sendDue s p k).mgmt = s.mgmt ∧ (State.sendDue s p 
    k).pkg = s.pkg ∧ (State.sendDue s p k).sec = s.sec ∧ (State.sendDue s p k).bw = s.bw ∧ (State.sendDue s p 
    k).time = s.time := by
  simp only [State.sendDue]; (repeat' split) <;> (simp [*])
@[simp] theorem State.due_frame (s : State) (x : InvDue) :
    (State.due s x).fuses = s.fuses ∧ (State.due s x).pending = s.pending ∧ (State.due s x).cfg = s.cfg ∧ 
    (State.due s x).mgmt = s.mgmt ∧ (State.due s x).pkg = s.pkg ∧ (State.due s x).sec = s.sec ∧ (State.due s x).bw 
    = s.bw ∧ (State.due s x).time = s.time := by
  simp only [State.due]; (repeat' split) <;> (simp [*])
@[simp] theorem State.settleInvs_frame (s : State) :
    (State.settleInvs s).fuses = s.fuses ∧ (State.settleInvs s).pending = s.pending ∧ (State.settleInvs s).cfg = 
    s.cfg ∧ (State.settleInvs s).mgmt = s.mgmt ∧ (State.settleInvs s).pkg = s.pkg ∧ (State.settleInvs s).sec = 
    s.sec ∧ (State.settleInvs s).bw = s.bw ∧ (State.settleInvs s).time = s.time := by
  simp [State.settleInvs, foldl_tiles, foldl_fuses, foldl_pending, foldl_cfg, foldl_mgmt, foldl_pkg, foldl_sec, foldl_bw, foldl_time, foldlP_tiles, foldlP_fuses, foldlP_pending, foldlP_cfg, foldlP_mgmt, foldlP_pkg, foldlP_sec, foldlP_bw, foldlP_time, foldlW_tiles, foldlW_fuses, foldlW_pending, foldlW_cfg, foldlW_mgmt, foldlW_pkg, foldlW_sec, foldlW_bw, foldlW_time]
@[simp] theorem State.sendInv_frame (s : State) (grp d ptype : Nat) (lines : List Nat) (addr aux : Nat) :
    (State.sendInv s grp d ptype lines addr aux).tiles = s.tiles ∧ (State.sendInv s grp d ptype lines addr 
    aux).fuses = s.fuses ∧ (State.sendInv s grp d ptype lines addr aux).pending = s.pending ∧ (State.sendInv s grp 
    d ptype lines addr aux).cfg = s.cfg ∧ (State.sendInv s grp d ptype lines addr aux).mgmt = s.mgmt ∧ 
    (State.sendInv s grp d ptype lines addr aux).pkg = s.pkg ∧ (State.sendInv s grp d ptype lines addr aux).sec = 
    s.sec ∧ (State.sendInv s grp d ptype lines addr aux).bw = s.bw ∧ (State.sendInv s grp d ptype lines addr 
    aux).time = s.time := by
  simp only [State.sendInv]; (repeat' split) <;> (simp [*])
@[simp] theorem State.invAt_frame (s : State) (grp d : Nat) (lines : List Nat) :
    (State.invAt s grp d lines).tiles = s.tiles ∧ (State.invAt s grp d lines).fuses = s.fuses ∧ (State.invAt s grp 
    d lines).pending = s.pending ∧ (State.invAt s grp d lines).cfg = s.cfg ∧ (State.invAt s grp d lines).mgmt = 
    s.mgmt ∧ (State.invAt s grp d lines).pkg = s.pkg ∧ (State.invAt s grp d lines).sec = s.sec ∧ (State.invAt s 
    grp d lines).bw = s.bw ∧ (State.invAt s grp d lines).time = s.time := by
  ((repeat' apply And.intro) <;> (simp only [State.invAt]; (repeat' (first | split | (with_reducible refine (foldl_tiles _ _ _ (fun _ _ => ?_)).trans ?_) | (with_reducible refine (foldl_fuses _ _ _ (fun _ _ => ?_)).trans ?_) | (with_reducible refine (foldl_pending _ _ _ (fun _ _ => ?_)).trans ?_) | (with_reducible refine (foldl_cfg _ _ _ (fun _ _ => ?_)).trans ?_) | (with_reducible refine (foldl_mgmt _ _ _ (fun _ _ => ?_)).trans ?_) | (with_reducible refine (foldl_pkg _ _ _ (fun _ _ => ?_)).trans ?_) | (with_reducible refine (foldl_sec _ _ _ (fun _ _ => ?_)).trans ?_) | (with_reducible refine (foldl_bw _ _ _ (fun _ _ => ?_)).trans ?_) | (with_reducible refine (foldl_time _ _ _ (fun _ _ => ?_)).trans ?_) | (with_reducible refine (foldlP_tiles _ _ _ (fun _ _ => ?_)).trans ?_) | (with_reducible refine (foldlP_fuses _ _ _ (fun _ _ => ?_)).trans ?_) | (with_reducible refine (foldlP_pending _ _ _ (fun _ _ => ?_)).trans ?_) | (with_reducible refine (foldlP_cfg _ _ _ (fun _ _ => ?_)).trans ?_) | (with_reducible refine (foldlP_mgmt _ _ _ (fun _ _ => ?_)).trans ?_) | (with_reducible refine (foldlP_pkg _ _ _ (fun _ _ => ?_)).trans ?_) | (with_reducible refine (foldlP_sec _ _ _ (fun _ _ => ?_)).trans ?_) | (with_reducible refine (foldlP_bw _ _ _ (fun _ _ => ?_)).trans ?_) | (with_reducible refine (foldlP_time _ _ _ (fun _ _ => ?_)).trans ?_) | (with_reducible refine (foldlW_tiles _ _ _ (fun _ _ => ?_)).trans ?_) | (with_reducible refine (foldlW_fuses _ _ _ (fun _ _ => ?_)).trans ?_) | (with_reducible refine (foldlW_pending _ _ _ (fun _ _ => ?_)).trans ?_) | (with_reducible refine (foldlW_cfg _ _ _ (fun _ _ => ?_)).trans ?_) | (with_reducible refine (foldlW_mgmt _ _ _ (fun _ _ => ?_)).trans ?_) | (with_reducible refine (foldlW_pkg _ _ _ (fun _ _ => ?_)).trans ?_) | (with_reducible refine (foldlW_sec _ _ _ (fun _ _ => ?_)).trans ?_) | (with_reducible refine (foldlW_bw _ _ _ (fun _ _ => ?_)).trans ?_) | (with_reducible refine (foldlW_time _ _ _ (fun _ _ => ?_)).trans ?_))) <;> (simp [*])))
@[simp] theorem State.invalidateLines_frame (s : State) (lines : List Nat) :
    (State.invalidateLines s lines).1.tiles = s.tiles ∧ (State.invalidateLines s lines).1.fuses = s.fuses ∧ 
    (State.invalidateLines s lines).1.pending = s.pending ∧ (State.invalidateLines s lines).1.cfg = s.cfg ∧ 
    (State.invalidateLines s lines).1.mgmt = s.mgmt ∧ (State.invalidateLines s lines).1.pkg = s.pkg ∧ 
    (State.invalidateLines s lines).1.sec = s.sec ∧ (State.invalidateLines s lines).1.bw = s.bw ∧ 
    (State.invalidateLines s lines).1.time = s.time := by
  simp [State.invalidateLines, foldl_tiles, foldl_fuses, foldl_pending, foldl_cfg, foldl_mgmt, foldl_pkg, foldl_sec, foldl_bw, foldl_time, foldlP_tiles, foldlP_fuses, foldlP_pending, foldlP_cfg, foldlP_mgmt, foldlP_pkg, foldlP_sec, foldlP_bw, foldlP_time, foldlW_tiles, foldlW_fuses, foldlW_pending, foldlW_cfg, foldlW_mgmt, foldlW_pkg, foldlW_sec, foldlW_bw, foldlW_time]
@[simp] theorem State.markDirty_frame (s : State) (addr n : Nat) :
    (State.markDirty s addr n).tiles = s.tiles ∧ (State.markDirty s addr n).fuses = s.fuses ∧ (State.markDirty s 
    addr n).pending = s.pending ∧ (State.markDirty s addr n).cfg = s.cfg ∧ (State.markDirty s addr n).mgmt = 
    s.mgmt ∧ (State.markDirty s addr n).pkg = s.pkg ∧ (State.markDirty s addr n).sec = s.sec ∧ (State.markDirty s 
    addr n).bw = s.bw ∧ (State.markDirty s addr n).time = s.time := by
  simp only [State.markDirty]; (repeat' split) <;> (simp [*])
@[simp] theorem State.memLine_frame (s : State) (line rd wr : Nat) :
    (State.memLine s line rd wr).tiles = s.tiles ∧ (State.memLine s line rd wr).fuses = s.fuses ∧ (State.memLine s 
    line rd wr).pending = s.pending ∧ (State.memLine s line rd wr).cfg = s.cfg ∧ (State.memLine s line rd wr).mgmt 
    = s.mgmt ∧ (State.memLine s line rd wr).pkg = s.pkg ∧ (State.memLine s line rd wr).sec = s.sec ∧ 
    (State.memLine s line rd wr).bw = s.bw ∧ (State.memLine s line rd wr).time = s.time := by
  simp only [State.memLine]; (repeat' split) <;> (simp [*])
@[simp] theorem State.memRead_frame (s : State) (addr n : Nat) :
    (State.memRead s addr n).tiles = s.tiles ∧ (State.memRead s addr n).fuses = s.fuses ∧ (State.memRead s addr 
    n).pending = s.pending ∧ (State.memRead s addr n).cfg = s.cfg ∧ (State.memRead s addr n).mgmt = s.mgmt ∧ 
    (State.memRead s addr n).pkg = s.pkg ∧ (State.memRead s addr n).sec = s.sec ∧ (State.memRead s addr n).bw = 
    s.bw ∧ (State.memRead s addr n).time = s.time := by
  simp [State.memRead, foldl_tiles, foldl_fuses, foldl_pending, foldl_cfg, foldl_mgmt, foldl_pkg, foldl_sec, foldl_bw, foldl_time, foldlP_tiles, foldlP_fuses, foldlP_pending, foldlP_cfg, foldlP_mgmt, foldlP_pkg, foldlP_sec, foldlP_bw, foldlP_time, foldlW_tiles, foldlW_fuses, foldlW_pending, foldlW_cfg, foldlW_mgmt, foldlW_pkg, foldlW_sec, foldlW_bw, foldlW_time]
@[simp] theorem State.memWrite_frame (s : State) (addr n : Nat) :
    (State.memWrite s addr n).tiles = s.tiles ∧ (State.memWrite s addr n).fuses = s.fuses ∧ (State.memWrite s addr 
    n).pending = s.pending ∧ (State.memWrite s addr n).cfg = s.cfg ∧ (State.memWrite s addr n).mgmt = s.mgmt ∧ 
    (State.memWrite s addr n).pkg = s.pkg ∧ (State.memWrite s addr n).sec = s.sec ∧ (State.memWrite s addr n).bw = 
    s.bw ∧ (State.memWrite s addr n).time = s.time := by
  simp [State.memWrite, foldl_tiles, foldl_fuses, foldl_pending, foldl_cfg, foldl_mgmt, foldl_pkg, foldl_sec, foldl_bw, foldl_time, foldlP_tiles, foldlP_fuses, foldlP_pending, foldlP_cfg, foldlP_mgmt, foldlP_pkg, foldlP_sec, foldlP_bw, foldlP_time, foldlW_tiles, foldlW_fuses, foldlW_pending, foldlW_cfg, foldlW_mgmt, foldlW_pkg, foldlW_sec, foldlW_bw, foldlW_time]
@[simp] theorem State.wrHome_frame (s : State) (addr : Nat) (bs : List Byte) :
    (State.wrHome s addr bs).1.tiles = s.tiles ∧ (State.wrHome s addr bs).1.fuses = s.fuses ∧ (State.wrHome s addr 
    bs).1.pending = s.pending ∧ (State.wrHome s addr bs).1.cfg = s.cfg ∧ (State.wrHome s addr bs).1.mgmt = s.mgmt 
    ∧ (State.wrHome s addr bs).1.pkg = s.pkg ∧ (State.wrHome s addr bs).1.sec = s.sec ∧ (State.wrHome s addr 
    bs).1.bw = s.bw ∧ (State.wrHome s addr bs).1.time = s.time := by
  simp [State.wrHome]
@[simp] theorem State.sendWrite_frame (s : State) (addr job stop : Nat) (bs : List Byte) (o : OpenTx) :
    (State.sendWrite s addr job stop bs o).1.tiles = s.tiles ∧ (State.sendWrite s addr job stop bs o).1.fuses = 
    s.fuses ∧ (State.sendWrite s addr job stop bs o).1.pending = s.pending ∧ (State.sendWrite s addr job stop bs 
    o).1.cfg = s.cfg ∧ (State.sendWrite s addr job stop bs o).1.mgmt = s.mgmt ∧ (State.sendWrite s addr job stop 
    bs o).1.pkg = s.pkg ∧ (State.sendWrite s addr job stop bs o).1.sec = s.sec ∧ (State.sendWrite s addr job stop 
    bs o).1.bw = s.bw ∧ (State.sendWrite s addr job stop bs o).1.time = s.time := by
  simp [State.sendWrite]
@[simp] theorem State.addTraffic_frame (s : State) (addr n : Nat) :
    (State.addTraffic s addr n).tiles = s.tiles ∧ (State.addTraffic s addr n).fuses = s.fuses ∧ (State.addTraffic 
    s addr n).pending = s.pending ∧ (State.addTraffic s addr n).cfg = s.cfg ∧ (State.addTraffic s addr n).mgmt = 
    s.mgmt ∧ (State.addTraffic s addr n).pkg = s.pkg ∧ (State.addTraffic s addr n).sec = s.sec ∧ (State.addTraffic 
    s addr n).bw = s.bw ∧ (State.addTraffic s addr n).time = s.time := by
  simp only [State.addTraffic]; (repeat' split) <;> (simp [*])
@[simp] theorem State.readAt_frame (s : State) (addr n : Nat) :
    (State.readAt s addr n).tiles = s.tiles ∧ (State.readAt s addr n).fuses = s.fuses ∧ (State.readAt s addr 
    n).pending = s.pending ∧ (State.readAt s addr n).cfg = s.cfg ∧ (State.readAt s addr n).mgmt = s.mgmt ∧ 
    (State.readAt s addr n).pkg = s.pkg ∧ (State.readAt s addr n).sec = s.sec ∧ (State.readAt s addr n).bw = s.bw 
    ∧ (State.readAt s addr n).time = s.time := by
  simp [State.readAt]
@[simp] theorem State.wrGranule_frame (s : State) (addr job stop : Nat) (bs : List Byte) (o : OpenTx) :
    (State.wrGranule s addr job stop bs o).st.tiles = s.tiles ∧ (State.wrGranule s addr job stop bs o).st.fuses = 
    s.fuses ∧ (State.wrGranule s addr job stop bs o).st.pending = s.pending ∧ (State.wrGranule s addr job stop bs 
    o).st.cfg = s.cfg ∧ (State.wrGranule s addr job stop bs o).st.mgmt = s.mgmt ∧ (State.wrGranule s addr job stop 
    bs o).st.pkg = s.pkg ∧ (State.wrGranule s addr job stop bs o).st.sec = s.sec ∧ (State.wrGranule s addr job 
    stop bs o).st.bw = s.bw ∧ (State.wrGranule s addr job stop bs o).st.time = s.time := by
  simp [State.wrGranule, foldl_tiles, foldl_fuses, foldl_pending, foldl_cfg, foldl_mgmt, foldl_pkg, foldl_sec, foldl_bw, foldl_time, foldlP_tiles, foldlP_fuses, foldlP_pending, foldlP_cfg, foldlP_mgmt, foldlP_pkg, foldlP_sec, foldlP_bw, foldlP_time, foldlW_tiles, foldlW_fuses, foldlW_pending, foldlW_cfg, foldlW_mgmt, foldlW_pkg, foldlW_sec, foldlW_bw, foldlW_time]
@[simp] theorem State.wrPkgAs_frame (s : State) (addr job stop : Nat) (bs : List Byte) (o : OpenTx) :
    (State.wrPkgAs s addr job stop bs o).st.tiles = s.tiles ∧ (State.wrPkgAs s addr job stop bs o).st.fuses = 
    s.fuses ∧ (State.wrPkgAs s addr job stop bs o).st.pending = s.pending ∧ (State.wrPkgAs s addr job stop bs 
    o).st.cfg = s.cfg ∧ (State.wrPkgAs s addr job stop bs o).st.mgmt = s.mgmt ∧ (State.wrPkgAs s addr job stop bs 
    o).st.pkg = s.pkg ∧ (State.wrPkgAs s addr job stop bs o).st.sec = s.sec ∧ (State.wrPkgAs s addr job stop bs 
    o).st.bw = s.bw ∧ (State.wrPkgAs s addr job stop bs o).st.time = s.time := by
  simp [State.wrPkgAs, foldl_tiles, foldl_fuses, foldl_pending, foldl_cfg, foldl_mgmt, foldl_pkg, foldl_sec, foldl_bw, foldl_time, foldlP_tiles, foldlP_fuses, foldlP_pending, foldlP_cfg, foldlP_mgmt, foldlP_pkg, foldlP_sec, foldlP_bw, foldlP_time, foldlW_tiles, foldlW_fuses, foldlW_pending, foldlW_cfg, foldlW_mgmt, foldlW_pkg, foldlW_sec, foldlW_bw, foldlW_time]
@[simp] theorem State.wrPkg_frame (s : State) (addr job : Nat) (bs : List Byte) :
    (State.wrPkg s addr job bs).tiles = s.tiles ∧ (State.wrPkg s addr job bs).fuses = s.fuses ∧ (State.wrPkg s 
    addr job bs).pending = s.pending ∧ (State.wrPkg s addr job bs).cfg = s.cfg ∧ (State.wrPkg s addr job bs).mgmt 
    = s.mgmt ∧ (State.wrPkg s addr job bs).pkg = s.pkg ∧ (State.wrPkg s addr job bs).sec = s.sec ∧ (State.wrPkg s 
    addr job bs).bw = s.bw ∧ (State.wrPkg s addr job bs).time = s.time := by
  simp [State.wrPkg]
@[simp] theorem State.event_frame (s : State) (e : Ev) :
    (State.event s e).tiles = s.tiles ∧ (State.event s e).fuses = s.fuses ∧ (State.event s e).pending = s.pending 
    ∧ (State.event s e).cfg = s.cfg ∧ (State.event s e).mgmt = s.mgmt ∧ (State.event s e).pkg = s.pkg ∧ 
    (State.event s e).sec = s.sec ∧ (State.event s e).bw = s.bw ∧ (State.event s e).time = s.time := by
  simp [State.event]
@[simp] theorem State.denied_frame (s : State) (e : Ev) (core addr reason : Nat) :
    (State.denied s e core addr reason).tiles = s.tiles ∧ (State.denied s e core addr reason).fuses = s.fuses ∧ 
    (State.denied s e core addr reason).pending = s.pending ∧ (State.denied s e core addr reason).cfg = s.cfg ∧ 
    (State.denied s e core addr reason).mgmt = s.mgmt ∧ (State.denied s e core addr reason).pkg = s.pkg ∧ 
    (State.denied s e core addr reason).sec = s.sec ∧ (State.denied s e core addr reason).bw = s.bw ∧ 
    (State.denied s e core addr reason).time = s.time := by
  simp [State.denied]
@[simp] theorem State.send_frame (s : State) (d : Nat) (k : Packet) (via : Option Nat) :
    (State.send s d k via).tiles = s.tiles ∧ (State.send s d k via).fuses = s.fuses ∧ (State.send s d k 
    via).pending = s.pending ∧ (State.send s d k via).cfg = s.cfg ∧ (State.send s d k via).mgmt = s.mgmt ∧ 
    (State.send s d k via).pkg = s.pkg ∧ (State.send s d k via).sec = s.sec ∧ (State.send s d k via).bw = s.bw ∧ 
    (State.send s d k via).time = s.time := by
  simp only [State.send]; (repeat' split) <;> (simp [*])
@[simp] theorem State.unreachable_frame (s : State) (k : Packet) :
    (State.unreachable s k).tiles = s.tiles ∧ (State.unreachable s k).fuses = s.fuses ∧ (State.unreachable s 
    k).pending = s.pending ∧ (State.unreachable s k).cfg = s.cfg ∧ (State.unreachable s k).mgmt = s.mgmt ∧ 
    (State.unreachable s k).pkg = s.pkg ∧ (State.unreachable s k).sec = s.sec ∧ (State.unreachable s k).bw = s.bw 
    ∧ (State.unreachable s k).time = s.time := by
  simp [State.unreachable]
@[simp] theorem State.reply_frame (s : State) (p : Nat) (rq : Packet) (k : Packet) :
    (State.reply s p rq k).tiles = s.tiles ∧ (State.reply s p rq k).fuses = s.fuses ∧ (State.reply s p rq 
    k).pending = s.pending ∧ (State.reply s p rq k).cfg = s.cfg ∧ (State.reply s p rq k).mgmt = s.mgmt ∧ 
    (State.reply s p rq k).pkg = s.pkg ∧ (State.reply s p rq k).sec = s.sec ∧ (State.reply s p rq k).bw = s.bw ∧ 
    (State.reply s p rq k).time = s.time := by
  simp [State.reply]

/-! ### `Fetch` -/

@[simp] theorem State.addFetch_frame (s : State) (f : Fetch) :
    (State.addFetch s f).tiles = s.tiles ∧ (State.addFetch s f).fuses = s.fuses ∧ (State.addFetch s f).pending = 
    s.pending ∧ (State.addFetch s f).cfg = s.cfg ∧ (State.addFetch s f).mgmt = s.mgmt ∧ (State.addFetch s f).pkg = 
    s.pkg ∧ (State.addFetch s f).sec = s.sec ∧ (State.addFetch s f).bw = s.bw ∧ (State.addFetch s f).time = s.time := by
  simp [State.addFetch]
@[simp] theorem State.fetchLine_frame (agent job stop : Nat) (s : State) (line : Nat) :
    (State.fetchLine agent job stop s line).tiles = s.tiles ∧ (State.fetchLine agent job stop s line).fuses = 
    s.fuses ∧ (State.fetchLine agent job stop s line).pending = s.pending ∧ (State.fetchLine agent job stop s 
    line).cfg = s.cfg ∧ (State.fetchLine agent job stop s line).mgmt = s.mgmt ∧ (State.fetchLine agent job stop s 
    line).pkg = s.pkg ∧ (State.fetchLine agent job stop s line).sec = s.sec ∧ (State.fetchLine agent job stop s 
    line).bw = s.bw ∧ (State.fetchLine agent job stop s line).time = s.time := by
  simp only [State.fetchLine]; (repeat' split) <;> (simp [*])
@[simp] theorem State.fetch_frame (s : State) (agent job stop addr len : Nat) :
    (State.fetch s agent job stop addr len).tiles = s.tiles ∧ (State.fetch s agent job stop addr len).fuses = 
    s.fuses ∧ (State.fetch s agent job stop addr len).pending = s.pending ∧ (State.fetch s agent job stop addr 
    len).cfg = s.cfg ∧ (State.fetch s agent job stop addr len).mgmt = s.mgmt ∧ (State.fetch s agent job stop addr 
    len).pkg = s.pkg ∧ (State.fetch s agent job stop addr len).sec = s.sec ∧ (State.fetch s agent job stop addr 
    len).bw = s.bw ∧ (State.fetch s agent job stop addr len).time = s.time := by
  simp [State.fetch, foldl_tiles, foldl_fuses, foldl_pending, foldl_cfg, foldl_mgmt, foldl_pkg, foldl_sec, foldl_bw, foldl_time, foldlP_tiles, foldlP_fuses, foldlP_pending, foldlP_cfg, foldlP_mgmt, foldlP_pkg, foldlP_sec, foldlP_bw, foldlP_time, foldlW_tiles, foldlW_fuses, foldlW_pending, foldlW_cfg, foldlW_mgmt, foldlW_pkg, foldlW_sec, foldlW_bw, foldlW_time]
@[simp] theorem State.hold_frame (s : State) (p : Nat) (k : Packet) :
    (State.hold s p k).tiles = s.tiles ∧ (State.hold s p k).fuses = s.fuses ∧ (State.hold s p k).pending = 
    s.pending ∧ (State.hold s p k).cfg = s.cfg ∧ (State.hold s p k).mgmt = s.mgmt ∧ (State.hold s p k).pkg = s.pkg 
    ∧ (State.hold s p k).sec = s.sec ∧ (State.hold s p k).bw = s.bw ∧ (State.hold s p k).time = s.time := by
  simp [State.hold]
@[simp] theorem State.dropFetch_frame (s : State) (agent : Nat) :
    (State.dropFetch s agent).tiles = s.tiles ∧ (State.dropFetch s agent).fuses = s.fuses ∧ (State.dropFetch s 
    agent).pending = s.pending ∧ (State.dropFetch s agent).cfg = s.cfg ∧ (State.dropFetch s agent).mgmt = s.mgmt ∧ 
    (State.dropFetch s agent).pkg = s.pkg ∧ (State.dropFetch s agent).sec = s.sec ∧ (State.dropFetch s agent).bw = 
    s.bw ∧ (State.dropFetch s agent).time = s.time := by
  simp [State.dropFetch]
@[simp] theorem State.takeFetch_frame (s : State) (tag ans : Nat) (bs : List Byte) :
    (State.takeFetch s tag ans bs).tiles = s.tiles ∧ (State.takeFetch s tag ans bs).fuses = s.fuses ∧ 
    (State.takeFetch s tag ans bs).pending = s.pending ∧ (State.takeFetch s tag ans bs).cfg = s.cfg ∧ 
    (State.takeFetch s tag ans bs).mgmt = s.mgmt ∧ (State.takeFetch s tag ans bs).pkg = s.pkg ∧ (State.takeFetch s 
    tag ans bs).sec = s.sec ∧ (State.takeFetch s tag ans bs).bw = s.bw ∧ (State.takeFetch s tag ans bs).time = 
    s.time := by
  simp [State.takeFetch]

/-! ### `DescOps` -/

@[simp] theorem State.onDesc_frame (s : State) (uid : Nat) (f : Desc → Desc) :
    (State.onDesc s uid f).tiles = s.tiles ∧ (State.onDesc s uid f).fuses = s.fuses ∧ (State.onDesc s uid 
    f).pending = s.pending ∧ (State.onDesc s uid f).cfg = s.cfg ∧ (State.onDesc s uid f).mgmt = s.mgmt ∧ 
    (State.onDesc s uid f).pkg = s.pkg ∧ (State.onDesc s uid f).sec = s.sec ∧ (State.onDesc s uid f).bw = s.bw ∧ 
    (State.onDesc s uid f).time = s.time := by
  simp [State.onDesc]
@[simp] theorem State.onDescOf_frame (s : State) (t : Nat) (f : Desc → Desc) :
    (State.onDescOf s t f).tiles = s.tiles ∧ (State.onDescOf s t f).fuses = s.fuses ∧ (State.onDescOf s t 
    f).pending = s.pending ∧ (State.onDescOf s t f).cfg = s.cfg ∧ (State.onDescOf s t f).mgmt = s.mgmt ∧ 
    (State.onDescOf s t f).pkg = s.pkg ∧ (State.onDescOf s t f).sec = s.sec ∧ (State.onDescOf s t f).bw = s.bw ∧ 
    (State.onDescOf s t f).time = s.time := by
  simp only [State.onDescOf]; (repeat' split) <;> (simp [*])
@[simp] theorem State.onStream_frame (s : State) (k : Nat) (f : Stream → Stream) :
    (State.onStream s k f).tiles = s.tiles ∧ (State.onStream s k f).fuses = s.fuses ∧ (State.onStream s k 
    f).pending = s.pending ∧ (State.onStream s k f).cfg = s.cfg ∧ (State.onStream s k f).mgmt = s.mgmt ∧ 
    (State.onStream s k f).pkg = s.pkg ∧ (State.onStream s k f).sec = s.sec ∧ (State.onStream s k f).bw = s.bw ∧ 
    (State.onStream s k f).time = s.time := by
  simp only [State.onStream]; (repeat' split) <;> (simp [*])
@[simp] theorem State.hitDesc_frame (s : State) (uid cause tile : Nat) :
    (State.hitDesc s uid cause tile).tiles = s.tiles ∧ (State.hitDesc s uid cause tile).fuses = s.fuses ∧ 
    (State.hitDesc s uid cause tile).pending = s.pending ∧ (State.hitDesc s uid cause tile).cfg = s.cfg ∧ 
    (State.hitDesc s uid cause tile).mgmt = s.mgmt ∧ (State.hitDesc s uid cause tile).pkg = s.pkg ∧ (State.hitDesc 
    s uid cause tile).sec = s.sec ∧ (State.hitDesc s uid cause tile).bw = s.bw ∧ (State.hitDesc s uid cause 
    tile).time = s.time := by
  simp [State.hitDesc]
@[simp] theorem State.timeUp_frame (s : State) (d : Desc) :
    (State.timeUp s d).tiles = s.tiles ∧ (State.timeUp s d).fuses = s.fuses ∧ (State.timeUp s d).pending = 
    s.pending ∧ (State.timeUp s d).cfg = s.cfg ∧ (State.timeUp s d).mgmt = s.mgmt ∧ (State.timeUp s d).pkg = s.pkg 
    ∧ (State.timeUp s d).sec = s.sec ∧ (State.timeUp s d).bw = s.bw ∧ (State.timeUp s d).time = s.time := by
  simp [State.timeUp]
@[simp] theorem State.stopClock_frame (s : State) (uid : Nat) :
    (State.stopClock s uid).tiles = s.tiles ∧ (State.stopClock s uid).fuses = s.fuses ∧ (State.stopClock s 
    uid).pending = s.pending ∧ (State.stopClock s uid).cfg = s.cfg ∧ (State.stopClock s uid).mgmt = s.mgmt ∧ 
    (State.stopClock s uid).pkg = s.pkg ∧ (State.stopClock s uid).sec = s.sec ∧ (State.stopClock s uid).bw = s.bw 
    ∧ (State.stopClock s uid).time = s.time := by
  simp only [State.stopClock]; (repeat' split) <;> (simp [*])
@[simp] theorem State.escape_frame (s : State) (t : Nat) :
    (State.escape s t).tiles = s.tiles ∧ (State.escape s t).fuses = s.fuses ∧ (State.escape s t).pending = 
    s.pending ∧ (State.escape s t).cfg = s.cfg ∧ (State.escape s t).mgmt = s.mgmt ∧ (State.escape s t).pkg = s.pkg 
    ∧ (State.escape s t).sec = s.sec ∧ (State.escape s t).bw = s.bw ∧ (State.escape s t).time = s.time := by
  simp only [State.escape]; (repeat' split) <;> (simp [*])
@[simp] theorem State.poisonEvent_frame (s : State) (e : Ev) (addr : Nat) :
    (State.poisonEvent s e addr).tiles = s.tiles ∧ (State.poisonEvent s e addr).fuses = s.fuses ∧ 
    (State.poisonEvent s e addr).pending = s.pending ∧ (State.poisonEvent s e addr).cfg = s.cfg ∧ 
    (State.poisonEvent s e addr).mgmt = s.mgmt ∧ (State.poisonEvent s e addr).pkg = s.pkg ∧ (State.poisonEvent s e 
    addr).sec = s.sec ∧ (State.poisonEvent s e addr).bw = s.bw ∧ (State.poisonEvent s e addr).time = s.time := by
  simp [State.poisonEvent]
@[simp] theorem State.refusedEvent_frame (s : State) (job die core target kind : Nat) :
    (State.refusedEvent s job die core target kind).tiles = s.tiles ∧ (State.refusedEvent s job die core target 
    kind).fuses = s.fuses ∧ (State.refusedEvent s job die core target kind).pending = s.pending ∧ 
    (State.refusedEvent s job die core target kind).cfg = s.cfg ∧ (State.refusedEvent s job die core target 
    kind).mgmt = s.mgmt ∧ (State.refusedEvent s job die core target kind).pkg = s.pkg ∧ (State.refusedEvent s job 
    die core target kind).sec = s.sec ∧ (State.refusedEvent s job die core target kind).bw = s.bw ∧ 
    (State.refusedEvent s job die core target kind).time = s.time := by
  simp [State.refusedEvent]
@[simp] theorem State.absentEvent_frame (s : State) (core oldTile : Nat) :
    (State.absentEvent s core oldTile).tiles = s.tiles ∧ (State.absentEvent s core oldTile).fuses = s.fuses ∧ 
    (State.absentEvent s core oldTile).pending = s.pending ∧ (State.absentEvent s core oldTile).cfg = s.cfg ∧ 
    (State.absentEvent s core oldTile).mgmt = s.mgmt ∧ (State.absentEvent s core oldTile).pkg = s.pkg ∧ 
    (State.absentEvent s core oldTile).sec = s.sec ∧ (State.absentEvent s core oldTile).bw = s.bw ∧ 
    (State.absentEvent s core oldTile).time = s.time := by
  simp [State.absentEvent]

/-! ### `CoreOps` -/

@[simp] theorem State.answerCredit_frame (s : State) (r : CredReq) (ans tgt : Nat) (g : Option Grant) (first : Nat) :
    (State.answerCredit s r ans tgt g first).fuses = s.fuses ∧ (State.answerCredit s r ans tgt g first).pending = 
    s.pending ∧ (State.answerCredit s r ans tgt g first).cfg = s.cfg ∧ (State.answerCredit s r ans tgt g 
    first).mgmt = s.mgmt ∧ (State.answerCredit s r ans tgt g first).pkg = s.pkg ∧ (State.answerCredit s r ans tgt 
    g first).sec = s.sec ∧ (State.answerCredit s r ans tgt g first).bw = s.bw ∧ (State.answerCredit s r ans tgt g 
    first).time = s.time := by
  simp only [State.answerCredit]; (repeat' split) <;> (simp [*])
@[simp] theorem State.revoke_frame (s : State) (t window : Nat) :
    (State.revoke s t window).fuses = s.fuses ∧ (State.revoke s t window).pending = s.pending ∧ (State.revoke s t 
    window).cfg = s.cfg ∧ (State.revoke s t window).mgmt = s.mgmt ∧ (State.revoke s t window).pkg = s.pkg ∧ 
    (State.revoke s t window).sec = s.sec ∧ (State.revoke s t window).bw = s.bw ∧ (State.revoke s t window).time = 
    s.time := by
  simp [State.revoke]
@[simp] theorem State.closeWindow_frame (s : State) (t window ans : Nat) :
    (State.closeWindow s t window ans).fuses = s.fuses ∧ (State.closeWindow s t window ans).pending = s.pending ∧ 
    (State.closeWindow s t window ans).cfg = s.cfg ∧ (State.closeWindow s t window ans).mgmt = s.mgmt ∧ 
    (State.closeWindow s t window ans).pkg = s.pkg ∧ (State.closeWindow s t window ans).sec = s.sec ∧ 
    (State.closeWindow s t window ans).bw = s.bw ∧ (State.closeWindow s t window ans).time = s.time := by
  simp [State.closeWindow, foldl_tiles, foldl_fuses, foldl_pending, foldl_cfg, foldl_mgmt, foldl_pkg, foldl_sec, foldl_bw, foldl_time, foldlP_tiles, foldlP_fuses, foldlP_pending, foldlP_cfg, foldlP_mgmt, foldlP_pkg, foldlP_sec, foldlP_bw, foldlP_time, foldlW_tiles, foldlW_fuses, foldlW_pending, foldlW_cfg, foldlW_mgmt, foldlW_pkg, foldlW_sec, foldlW_bw, foldlW_time]
@[simp] theorem State.closeWindows_frame (s : State) (t ans : Nat) :
    (State.closeWindows s t ans).fuses = s.fuses ∧ (State.closeWindows s t ans).pending = s.pending ∧ 
    (State.closeWindows s t ans).cfg = s.cfg ∧ (State.closeWindows s t ans).mgmt = s.mgmt ∧ (State.closeWindows s 
    t ans).pkg = s.pkg ∧ (State.closeWindows s t ans).sec = s.sec ∧ (State.closeWindows s t ans).bw = s.bw ∧ 
    (State.closeWindows s t ans).time = s.time := by
  simp [State.closeWindows, foldl_tiles, foldl_fuses, foldl_pending, foldl_cfg, foldl_mgmt, foldl_pkg, foldl_sec, foldl_bw, foldl_time, foldlP_tiles, foldlP_fuses, foldlP_pending, foldlP_cfg, foldlP_mgmt, foldlP_pkg, foldlP_sec, foldlP_bw, foldlP_time, foldlW_tiles, foldlW_fuses, foldlW_pending, foldlW_cfg, foldlW_mgmt, foldlW_pkg, foldlW_sec, foldlW_bw, foldlW_time]
@[simp] theorem State.returnCredits_frame (s : State) (w : Writer) :
    (State.returnCredits s w).fuses = s.fuses ∧ (State.returnCredits s w).pending = s.pending ∧ 
    (State.returnCredits s w).cfg = s.cfg ∧ (State.returnCredits s w).mgmt = s.mgmt ∧ (State.returnCredits s 
    w).pkg = s.pkg ∧ (State.returnCredits s w).sec = s.sec ∧ (State.returnCredits s w).bw = s.bw ∧ 
    (State.returnCredits s w).time = s.time := by
  simp [State.returnCredits]
@[simp] theorem State.dropHandle_frame (s : State) (t handle : Nat) :
    (State.dropHandle s t handle).fuses = s.fuses ∧ (State.dropHandle s t handle).pending = s.pending ∧ 
    (State.dropHandle s t handle).cfg = s.cfg ∧ (State.dropHandle s t handle).mgmt = s.mgmt ∧ (State.dropHandle s 
    t handle).pkg = s.pkg ∧ (State.dropHandle s t handle).sec = s.sec ∧ (State.dropHandle s t handle).bw = s.bw ∧ 
    (State.dropHandle s t handle).time = s.time := by
  simp only [State.dropHandle]; (repeat' split) <;> (simp [*])
@[simp] theorem State.dropHandles_frame (s : State) (t : Nat) :
    (State.dropHandles s t).fuses = s.fuses ∧ (State.dropHandles s t).pending = s.pending ∧ (State.dropHandles s 
    t).cfg = s.cfg ∧ (State.dropHandles s t).mgmt = s.mgmt ∧ (State.dropHandles s t).pkg = s.pkg ∧ 
    (State.dropHandles s t).sec = s.sec ∧ (State.dropHandles s t).bw = s.bw ∧ (State.dropHandles s t).time = 
    s.time := by
  simp [State.dropHandles, foldl_tiles, foldl_fuses, foldl_pending, foldl_cfg, foldl_mgmt, foldl_pkg, foldl_sec, foldl_bw, foldl_time, foldlP_tiles, foldlP_fuses, foldlP_pending, foldlP_cfg, foldlP_mgmt, foldlP_pkg, foldlP_sec, foldlP_bw, foldlP_time, foldlW_tiles, foldlW_fuses, foldlW_pending, foldlW_cfg, foldlW_mgmt, foldlW_pkg, foldlW_sec, foldlW_bw, foldlW_time]
@[simp] theorem State.dropRequests_frame (s : State) (t : Nat) :
    (State.dropRequests s t).fuses = s.fuses ∧ (State.dropRequests s t).pending = s.pending ∧ (State.dropRequests 
    s t).cfg = s.cfg ∧ (State.dropRequests s t).mgmt = s.mgmt ∧ (State.dropRequests s t).pkg = s.pkg ∧ 
    (State.dropRequests s t).sec = s.sec ∧ (State.dropRequests s t).bw = s.bw ∧ (State.dropRequests s t).time = 
    s.time := by
  simp [State.dropRequests]
@[simp] theorem State.letGo_frame (s : State) (t ans : Nat) :
    (State.letGo s t ans).fuses = s.fuses ∧ (State.letGo s t ans).pending = s.pending ∧ (State.letGo s t ans).cfg 
    = s.cfg ∧ (State.letGo s t ans).mgmt = s.mgmt ∧ (State.letGo s t ans).pkg = s.pkg ∧ (State.letGo s t ans).sec 
    = s.sec ∧ (State.letGo s t ans).bw = s.bw ∧ (State.letGo s t ans).time = s.time := by
  simp [State.letGo]
@[simp] theorem State.sendSync_frame (s : State) (d : Nat) (r : SyncReq) :
    (State.sendSync s d r).1.tiles = s.tiles ∧ (State.sendSync s d r).1.fuses = s.fuses ∧ (State.sendSync s d 
    r).1.pending = s.pending ∧ (State.sendSync s d r).1.cfg = s.cfg ∧ (State.sendSync s d r).1.mgmt = s.mgmt ∧ 
    (State.sendSync s d r).1.pkg = s.pkg ∧ (State.sendSync s d r).1.sec = s.sec ∧ (State.sendSync s d r).1.bw = 
    s.bw ∧ (State.sendSync s d r).1.time = s.time := by
  simp [State.sendSync]
@[simp] theorem State.askWithdraw_frame (s : State) (tag : Nat) (o : OpenTx) :
    (State.askWithdraw s tag o).tiles = s.tiles ∧ (State.askWithdraw s tag o).fuses = s.fuses ∧ (State.askWithdraw 
    s tag o).pending = s.pending ∧ (State.askWithdraw s tag o).cfg = s.cfg ∧ (State.askWithdraw s tag o).mgmt = 
    s.mgmt ∧ (State.askWithdraw s tag o).pkg = s.pkg ∧ (State.askWithdraw s tag o).sec = s.sec ∧ 
    (State.askWithdraw s tag o).bw = s.bw ∧ (State.askWithdraw s tag o).time = s.time := by
  simp [State.askWithdraw]
@[simp] theorem State.dropSrcs_frame (s : State) (p : SyncSrc → Bool) :
    (State.dropSrcs s p).tiles = s.tiles ∧ (State.dropSrcs s p).fuses = s.fuses ∧ (State.dropSrcs s p).pending = 
    s.pending ∧ (State.dropSrcs s p).cfg = s.cfg ∧ (State.dropSrcs s p).mgmt = s.mgmt ∧ (State.dropSrcs s p).pkg = 
    s.pkg ∧ (State.dropSrcs s p).sec = s.sec ∧ (State.dropSrcs s p).bw = s.bw ∧ (State.dropSrcs s p).time = s.time := by
  simp [State.dropSrcs]
@[simp] theorem State.withdraw_frame (s : State) (p : SyncSrc → Bool) (uid : Option Nat) :
    (State.withdraw s p uid).tiles = s.tiles ∧ (State.withdraw s p uid).fuses = s.fuses ∧ (State.withdraw s p 
    uid).pending = s.pending ∧ (State.withdraw s p uid).cfg = s.cfg ∧ (State.withdraw s p uid).mgmt = s.mgmt ∧ 
    (State.withdraw s p uid).pkg = s.pkg ∧ (State.withdraw s p uid).sec = s.sec ∧ (State.withdraw s p uid).bw = 
    s.bw ∧ (State.withdraw s p uid).time = s.time := by
  simp [State.withdraw, foldl_tiles, foldl_fuses, foldl_pending, foldl_cfg, foldl_mgmt, foldl_pkg, foldl_sec, foldl_bw, foldl_time, foldlP_tiles, foldlP_fuses, foldlP_pending, foldlP_cfg, foldlP_mgmt, foldlP_pkg, foldlP_sec, foldlP_bw, foldlP_time, foldlW_tiles, foldlW_fuses, foldlW_pending, foldlW_cfg, foldlW_mgmt, foldlW_pkg, foldlW_sec, foldlW_bw, foldlW_time]
@[simp] theorem State.syncStop_frame (s : State) (t : Nat) :
    (State.syncStop s t).fuses = s.fuses ∧ (State.syncStop s t).pending = s.pending ∧ (State.syncStop s t).cfg = 
    s.cfg ∧ (State.syncStop s t).mgmt = s.mgmt ∧ (State.syncStop s t).pkg = s.pkg ∧ (State.syncStop s t).sec = 
    s.sec ∧ (State.syncStop s t).bw = s.bw ∧ (State.syncStop s t).time = s.time := by
  simp [State.syncStop]
@[simp] theorem State.faultEvent_frame (s : State) (t : Nat) :
    (State.faultEvent s t).tiles = s.tiles ∧ (State.faultEvent s t).fuses = s.fuses ∧ (State.faultEvent s 
    t).pending = s.pending ∧ (State.faultEvent s t).cfg = s.cfg ∧ (State.faultEvent s t).mgmt = s.mgmt ∧ 
    (State.faultEvent s t).pkg = s.pkg ∧ (State.faultEvent s t).sec = s.sec ∧ (State.faultEvent s t).bw = s.bw ∧ 
    (State.faultEvent s t).time = s.time := by
  simp only [State.faultEvent]; (repeat' split) <;> (simp [*])
@[simp] theorem State.runTile_frame (s : State) (t : Nat) (f : Tile → Tile) :
    (State.runTile s t f).fuses = s.fuses ∧ (State.runTile s t f).pending = s.pending ∧ (State.runTile s t f).cfg 
    = s.cfg ∧ (State.runTile s t f).mgmt = s.mgmt ∧ (State.runTile s t f).pkg = s.pkg ∧ (State.runTile s t f).sec 
    = s.sec ∧ (State.runTile s t f).bw = s.bw ∧ (State.runTile s t f).time = s.time := by
  simp only [State.runTile]; (repeat' split) <;> (simp [*])
@[simp] theorem State.drawIn_frame (s : State) (t cause tile : Nat) :
    (State.drawIn s t cause tile).fuses = s.fuses ∧ (State.drawIn s t cause tile).pending = s.pending ∧ 
    (State.drawIn s t cause tile).cfg = s.cfg ∧ (State.drawIn s t cause tile).mgmt = s.mgmt ∧ (State.drawIn s t 
    cause tile).pkg = s.pkg ∧ (State.drawIn s t cause tile).sec = s.sec ∧ (State.drawIn s t cause tile).bw = s.bw 
    ∧ (State.drawIn s t cause tile).time = s.time := by
  simp only [State.drawIn]; (repeat' split) <;> (simp [*])
@[simp] theorem State.haltEvent_frame (s : State) (t reason : Nat) :
    (State.haltEvent s t reason).tiles = s.tiles ∧ (State.haltEvent s t reason).fuses = s.fuses ∧ (State.haltEvent 
    s t reason).pending = s.pending ∧ (State.haltEvent s t reason).cfg = s.cfg ∧ (State.haltEvent s t reason).mgmt 
    = s.mgmt ∧ (State.haltEvent s t reason).pkg = s.pkg ∧ (State.haltEvent s t reason).sec = s.sec ∧ 
    (State.haltEvent s t reason).bw = s.bw ∧ (State.haltEvent s t reason).time = s.time := by
  simp [State.haltEvent]
@[simp] theorem State.instr_frame (s : State) (t : Nat) (f : Tile → Tile) :
    (State.instr s t f).fuses = s.fuses ∧ (State.instr s t f).pending = s.pending ∧ (State.instr s t f).cfg = 
    s.cfg ∧ (State.instr s t f).mgmt = s.mgmt ∧ (State.instr s t f).pkg = s.pkg ∧ (State.instr s t f).sec = s.sec 
    ∧ (State.instr s t f).bw = s.bw ∧ (State.instr s t f).time = s.time := by
  simp [State.instr]
@[simp] theorem State.instrWhen_frame (s : State) (t : Nat) (ready : Tile → Bool) (f : Tile → Tile) :
    (State.instrWhen s t ready f).fuses = s.fuses ∧ (State.instrWhen s t ready f).pending = s.pending ∧ 
    (State.instrWhen s t ready f).cfg = s.cfg ∧ (State.instrWhen s t ready f).mgmt = s.mgmt ∧ (State.instrWhen s t 
    ready f).pkg = s.pkg ∧ (State.instrWhen s t ready f).sec = s.sec ∧ (State.instrWhen s t ready f).bw = s.bw ∧ 
    (State.instrWhen s t ready f).time = s.time := by
  simp [State.instrWhen]

/-! ### `DmaEngine` -/

@[simp] theorem State.atomicPut_frame (s : State) (job addr v : Nat) :
    (State.atomicPut s job addr v).tiles = s.tiles ∧ (State.atomicPut s job addr v).fuses = s.fuses ∧ 
    (State.atomicPut s job addr v).pending = s.pending ∧ (State.atomicPut s job addr v).cfg = s.cfg ∧ 
    (State.atomicPut s job addr v).mgmt = s.mgmt ∧ (State.atomicPut s job addr v).pkg = s.pkg ∧ (State.atomicPut s 
    job addr v).sec = s.sec ∧ (State.atomicPut s job addr v).bw = s.bw ∧ (State.atomicPut s job addr v).time = 
    s.time := by
  simp [State.atomicPut]
@[simp] theorem State.setScb_frame (s : State) (agent a job : Nat) (c : Scb) :
    (State.setScb s agent a job c).tiles = s.tiles ∧ (State.setScb s agent a job c).fuses = s.fuses ∧ 
    (State.setScb s agent a job c).pending = s.pending ∧ (State.setScb s agent a job c).cfg = s.cfg ∧ 
    (State.setScb s agent a job c).mgmt = s.mgmt ∧ (State.setScb s agent a job c).pkg = s.pkg ∧ (State.setScb s 
    agent a job c).sec = s.sec ∧ (State.setScb s agent a job c).bw = s.bw ∧ (State.setScb s agent a job c).time = 
    s.time := by
  simp [State.setScb]
@[simp] theorem State.setStashEnt_frame (s : State) (a job : Nat) (e : StashEnt) :
    (State.setStashEnt s a job e).tiles = s.tiles ∧ (State.setStashEnt s a job e).fuses = s.fuses ∧ 
    (State.setStashEnt s a job e).pending = s.pending ∧ (State.setStashEnt s a job e).cfg = s.cfg ∧ 
    (State.setStashEnt s a job e).mgmt = s.mgmt ∧ (State.setStashEnt s a job e).pkg = s.pkg ∧ (State.setStashEnt s 
    a job e).sec = s.sec ∧ (State.setStashEnt s a job e).bw = s.bw ∧ (State.setStashEnt s a job e).time = s.time := by
  simp [State.setStashEnt]
@[simp] theorem State.need_frame (s : State) (g : Agent) (agent : Nat) (wr : Bool) (addr len : Nat) :
    (State.need s g agent wr addr len).1.tiles = s.tiles ∧ (State.need s g agent wr addr len).1.fuses = s.fuses ∧ 
    (State.need s g agent wr addr len).1.pending = s.pending ∧ (State.need s g agent wr addr len).1.cfg = s.cfg ∧ 
    (State.need s g agent wr addr len).1.mgmt = s.mgmt ∧ (State.need s g agent wr addr len).1.pkg = s.pkg ∧ 
    (State.need s g agent wr addr len).1.sec = s.sec ∧ (State.need s g agent wr addr len).1.bw = s.bw ∧ 
    (State.need s g agent wr addr len).1.time = s.time := by
  simp only [State.need]; (repeat' split) <;> (simp [*])
@[simp] theorem State.sendCredit_frame (s : State) (g : Agent) (e : QEntry) (x : Grant) (handle b : Nat) (bs : List Byte) :
    (State.sendCredit s g e x handle b bs).1.tiles = s.tiles ∧ (State.sendCredit s g e x handle b bs).1.fuses = 
    s.fuses ∧ (State.sendCredit s g e x handle b bs).1.pending = s.pending ∧ (State.sendCredit s g e x handle b 
    bs).1.cfg = s.cfg ∧ (State.sendCredit s g e x handle b bs).1.mgmt = s.mgmt ∧ (State.sendCredit s g e x handle 
    b bs).1.pkg = s.pkg ∧ (State.sendCredit s g e x handle b bs).1.sec = s.sec ∧ (State.sendCredit s g e x handle 
    b bs).1.bw = s.bw ∧ (State.sendCredit s g e x handle b bs).1.time = s.time := by
  simp [State.sendCredit, foldl_tiles, foldl_fuses, foldl_pending, foldl_cfg, foldl_mgmt, foldl_pkg, foldl_sec, foldl_bw, foldl_time, foldlP_tiles, foldlP_fuses, foldlP_pending, foldlP_cfg, foldlP_mgmt, foldlP_pkg, foldlP_sec, foldlP_bw, foldlP_time, foldlW_tiles, foldlW_fuses, foldlW_pending, foldlW_cfg, foldlW_mgmt, foldlW_pkg, foldlW_sec, foldlW_bw, foldlW_time]
theorem State.appendLog_frame (s : State) (k addr : Nat) (bs : List Byte) {s' : State} (h : s.appendLog k addr bs = .ok s') :
    s'.tiles = s.tiles ∧ s'.fuses = s.fuses ∧ s'.pending = s.pending ∧ s'.cfg = s.cfg ∧ s'.mgmt = s.mgmt ∧ s'.pkg 
    = s.pkg ∧ s'.sec = s.sec ∧ s'.bw = s.bw ∧ s'.time = s.time := by
  unfold State.appendLog at h
  dsimp only at h
  split at h
  · cases h
  · cases h; simp

@[simp] theorem State.wroteTile_frame (s : State) (d : Option Desc) (t : Nat) :
    (State.wroteTile s d t).tiles = s.tiles ∧ (State.wroteTile s d t).fuses = s.fuses ∧ (State.wroteTile s d 
    t).pending = s.pending ∧ (State.wroteTile s d t).cfg = s.cfg ∧ (State.wroteTile s d t).mgmt = s.mgmt ∧ 
    (State.wroteTile s d t).pkg = s.pkg ∧ (State.wroteTile s d t).sec = s.sec ∧ (State.wroteTile s d t).bw = s.bw 
    ∧ (State.wroteTile s d t).time = s.time := by
  simp only [State.wroteTile]; (repeat' split) <;> (simp [*])
theorem State.writePiece_frame (s : State) (g : Agent) (e : QEntry) (x : Xfer) (l : Loc) (bs : List Byte)
    {r : State × QEntry} (h : s.writePiece g e x l bs = .ok r) :
    r.1.fuses = s.fuses ∧ r.1.pending = s.pending ∧ r.1.cfg = s.cfg ∧ r.1.mgmt = s.mgmt ∧ r.1.pkg = s.pkg ∧ 
    r.1.sec = s.sec ∧ r.1.bw = s.bw ∧ r.1.time = s.time := by
  unfold State.writePiece at h
  dsimp only at h
  repeat' (split at h)
  all_goals first
    | (cases h; done)
    | (cases h; simp; done)
    | (cases h; rename_i hh; have := State.appendLog_frame _ _ _ _ hh; simp [this]; done)
    | (cases h; simp only []; repeat' split
       all_goals simp)

theorem State.writeUnit_frame (g : Agent) (x : Xfer) (ps : List (Loc × Nat)) : ∀ (s : State) (e : QEntry) (bs : List Byte)
    {r : State × QEntry} (_ : s.writeUnit g e x ps bs = .ok r),
    r.1.fuses = s.fuses ∧ r.1.pending = s.pending ∧ r.1.cfg = s.cfg ∧ r.1.mgmt = s.mgmt ∧ r.1.pkg = s.pkg ∧ 
    r.1.sec = s.sec ∧ r.1.bw = s.bw ∧ r.1.time = s.time := by
  induction ps with
  | nil => intro s e bs r h; rw [State.writeUnit] at h; cases h; simp
  | cons p ps ih =>
    intro s e bs r h
    obtain ⟨l, n⟩ := p
    rw [State.writeUnit] at h
    split at h
    · cases h
    · cases h
    · rename_i hh
      have h1 := State.writePiece_frame _ _ _ _ _ _ hh
      have h2 := ih _ _ _ h
      dsimp only at h1
      simp only [h1] at h2
      exact h2

@[simp] theorem State.readTraffic_frame (s : State) (ps : List (Loc × Nat)) :
    (State.readTraffic s ps).tiles = s.tiles ∧ (State.readTraffic s ps).fuses = s.fuses ∧ (State.readTraffic s 
    ps).pending = s.pending ∧ (State.readTraffic s ps).cfg = s.cfg ∧ (State.readTraffic s ps).mgmt = s.mgmt ∧ 
    (State.readTraffic s ps).pkg = s.pkg ∧ (State.readTraffic s ps).sec = s.sec ∧ (State.readTraffic s ps).bw = 
    s.bw ∧ (State.readTraffic s ps).time = s.time := by
  ((repeat' apply And.intro) <;> (simp only [State.readTraffic]; (repeat' (first | split | (with_reducible refine (foldl_tiles _ _ _ (fun _ _ => ?_)).trans ?_) | (with_reducible refine (foldl_fuses _ _ _ (fun _ _ => ?_)).trans ?_) | (with_reducible refine (foldl_pending _ _ _ (fun _ _ => ?_)).trans ?_) | (with_reducible refine (foldl_cfg _ _ _ (fun _ _ => ?_)).trans ?_) | (with_reducible refine (foldl_mgmt _ _ _ (fun _ _ => ?_)).trans ?_) | (with_reducible refine (foldl_pkg _ _ _ (fun _ _ => ?_)).trans ?_) | (with_reducible refine (foldl_sec _ _ _ (fun _ _ => ?_)).trans ?_) | (with_reducible refine (foldl_bw _ _ _ (fun _ _ => ?_)).trans ?_) | (with_reducible refine (foldl_time _ _ _ (fun _ _ => ?_)).trans ?_) | (with_reducible refine (foldlP_tiles _ _ _ (fun _ _ => ?_)).trans ?_) | (with_reducible refine (foldlP_fuses _ _ _ (fun _ _ => ?_)).trans ?_) | (with_reducible refine (foldlP_pending _ _ _ (fun _ _ => ?_)).trans ?_) | (with_reducible refine (foldlP_cfg _ _ _ (fun _ _ => ?_)).trans ?_) | (with_reducible refine (foldlP_mgmt _ _ _ (fun _ _ => ?_)).trans ?_) | (with_reducible refine (foldlP_pkg _ _ _ (fun _ _ => ?_)).trans ?_) | (with_reducible refine (foldlP_sec _ _ _ (fun _ _ => ?_)).trans ?_) | (with_reducible refine (foldlP_bw _ _ _ (fun _ _ => ?_)).trans ?_) | (with_reducible refine (foldlP_time _ _ _ (fun _ _ => ?_)).trans ?_) | (with_reducible refine (foldlW_tiles _ _ _ (fun _ _ => ?_)).trans ?_) | (with_reducible refine (foldlW_fuses _ _ _ (fun _ _ => ?_)).trans ?_) | (with_reducible refine (foldlW_pending _ _ _ (fun _ _ => ?_)).trans ?_) | (with_reducible refine (foldlW_cfg _ _ _ (fun _ _ => ?_)).trans ?_) | (with_reducible refine (foldlW_mgmt _ _ _ (fun _ _ => ?_)).trans ?_) | (with_reducible refine (foldlW_pkg _ _ _ (fun _ _ => ?_)).trans ?_) | (with_reducible refine (foldlW_sec _ _ _ (fun _ _ => ?_)).trans ?_) | (with_reducible refine (foldlW_bw _ _ _ (fun _ _ => ?_)).trans ?_) | (with_reducible refine (foldlW_time _ _ _ (fun _ _ => ?_)).trans ?_))) <;> (simp [*])))
@[simp] theorem State.runUnits_frame (g : Agent) (x : Xfer) (n : Nat) : ∀ (s : State) (e : QEntry),
    (s.runUnits g x n e).1.fuses = s.fuses ∧ (s.runUnits g x n e).1.pending = s.pending ∧ (s.runUnits g x n 
    e).1.cfg = s.cfg ∧ (s.runUnits g x n e).1.mgmt = s.mgmt ∧ (s.runUnits g x n e).1.pkg = s.pkg ∧ (s.runUnits g x 
    n e).1.sec = s.sec ∧ (s.runUnits g x n e).1.bw = s.bw ∧ (s.runUnits g x n e).1.time = s.time := by
  induction n with
  | zero => intro s e; rw [State.runUnits]; simp
  | succ n ih =>
    intro s e
    rw [State.runUnits]
    split
    · simp
    · split
      · simp
      · simp
      · split
        · simp
        · simp
        · rename_i hh
          have h1 := State.writeUnit_frame _ _ _ _ _ _ hh
          dsimp only at h1
          simp only [h1, ih, State.count_frame, State.readTraffic_frame, and_self]

@[simp] theorem State.askOne_frame (o : OpenTx) (r : State × QEntry) (k : Packet) (at' : Nat) :
    (State.askOne o r k at').1.tiles = r.1.tiles ∧ (State.askOne o r k at').1.fuses = r.1.fuses ∧ (State.askOne o 
    r k at').1.pending = r.1.pending ∧ (State.askOne o r k at').1.cfg = r.1.cfg ∧ (State.askOne o r k at').1.mgmt 
    = r.1.mgmt ∧ (State.askOne o r k at').1.pkg = r.1.pkg ∧ (State.askOne o r k at').1.sec = r.1.sec ∧ 
    (State.askOne o r k at').1.bw = r.1.bw ∧ (State.askOne o r k at').1.time = r.1.time := by
  simp [State.askOne]
@[simp] theorem State.askLine_frame (g : Agent) (o : OpenTx) (off a : Nat) (r : State × QEntry) (p : Nat × List Byte) :
    (State.askLine g o off a r p).1.tiles = r.1.tiles ∧ (State.askLine g o off a r p).1.fuses = r.1.fuses ∧ 
    (State.askLine g o off a r p).1.pending = r.1.pending ∧ (State.askLine g o off a r p).1.cfg = r.1.cfg ∧ 
    (State.askLine g o off a r p).1.mgmt = r.1.mgmt ∧ (State.askLine g o off a r p).1.pkg = r.1.pkg ∧ 
    (State.askLine g o off a r p).1.sec = r.1.sec ∧ (State.askLine g o off a r p).1.bw = r.1.bw ∧ (State.askLine g 
    o off a r p).1.time = r.1.time := by
  simp only [State.askLine]; (repeat' split) <;> (simp [*])
@[simp] theorem State.askPiece_frame (s : State) (g : Agent) (e : QEntry) (off : Nat) (l : Loc) (n : Nat) :
    (State.askPiece s g e off l n).1.tiles = s.tiles ∧ (State.askPiece s g e off l n).1.fuses = s.fuses ∧ 
    (State.askPiece s g e off l n).1.pending = s.pending ∧ (State.askPiece s g e off l n).1.cfg = s.cfg ∧ 
    (State.askPiece s g e off l n).1.mgmt = s.mgmt ∧ (State.askPiece s g e off l n).1.pkg = s.pkg ∧ 
    (State.askPiece s g e off l n).1.sec = s.sec ∧ (State.askPiece s g e off l n).1.bw = s.bw ∧ (State.askPiece s 
    g e off l n).1.time = s.time := by
  ((repeat' apply And.intro) <;> (simp only [State.askPiece]; (repeat' (first | split | (with_reducible refine (foldl_tiles _ _ _ (fun _ _ => ?_)).trans ?_) | (with_reducible refine (foldl_fuses _ _ _ (fun _ _ => ?_)).trans ?_) | (with_reducible refine (foldl_pending _ _ _ (fun _ _ => ?_)).trans ?_) | (with_reducible refine (foldl_cfg _ _ _ (fun _ _ => ?_)).trans ?_) | (with_reducible refine (foldl_mgmt _ _ _ (fun _ _ => ?_)).trans ?_) | (with_reducible refine (foldl_pkg _ _ _ (fun _ _ => ?_)).trans ?_) | (with_reducible refine (foldl_sec _ _ _ (fun _ _ => ?_)).trans ?_) | (with_reducible refine (foldl_bw _ _ _ (fun _ _ => ?_)).trans ?_) | (with_reducible refine (foldl_time _ _ _ (fun _ _ => ?_)).trans ?_) | (with_reducible refine (foldlP_tiles _ _ _ (fun _ _ => ?_)).trans ?_) | (with_reducible refine (foldlP_fuses _ _ _ (fun _ _ => ?_)).trans ?_) | (with_reducible refine (foldlP_pending _ _ _ (fun _ _ => ?_)).trans ?_) | (with_reducible refine (foldlP_cfg _ _ _ (fun _ _ => ?_)).trans ?_) | (with_reducible refine (foldlP_mgmt _ _ _ (fun _ _ => ?_)).trans ?_) | (with_reducible refine (foldlP_pkg _ _ _ (fun _ _ => ?_)).trans ?_) | (with_reducible refine (foldlP_sec _ _ _ (fun _ _ => ?_)).trans ?_) | (with_reducible refine (foldlP_bw _ _ _ (fun _ _ => ?_)).trans ?_) | (with_reducible refine (foldlP_time _ _ _ (fun _ _ => ?_)).trans ?_) | (with_reducible refine (foldlW_tiles _ _ _ (fun _ _ => ?_)).trans ?_) | (with_reducible refine (foldlW_fuses _ _ _ (fun _ _ => ?_)).trans ?_) | (with_reducible refine (foldlW_pending _ _ _ (fun _ _ => ?_)).trans ?_) | (with_reducible refine (foldlW_cfg _ _ _ (fun _ _ => ?_)).trans ?_) | (with_reducible refine (foldlW_mgmt _ _ _ (fun _ _ => ?_)).trans ?_) | (with_reducible refine (foldlW_pkg _ _ _ (fun _ _ => ?_)).trans ?_) | (with_reducible refine (foldlW_sec _ _ _ (fun _ _ => ?_)).trans ?_) | (with_reducible refine (foldlW_bw _ _ _ (fun _ _ => ?_)).trans ?_) | (with_reducible refine (foldlW_time _ _ _ (fun _ _ => ?_)).trans ?_))) <;> (simp [*])))
theorem foldl_keeps {α β : Type} (P : α → Prop) (g : α → β → α) (h : ∀ a b, P a → P (g a b)) (l : List β) (a : α) (ha : P a) :
    P (l.foldl g a) := by
  induction l generalizing a with
  | nil => exact ha
  | cons x r ih => exact ih _ (h a x ha)
@[simp] theorem State.askAll_frame (s : State) (g : Agent) (x : Xfer) (e : QEntry) :
    (s.askAll g x e).1.tiles = s.tiles ∧ (s.askAll g x e).1.fuses = s.fuses ∧ (s.askAll g x e).1.pending = 
    s.pending ∧ (s.askAll g x e).1.cfg = s.cfg ∧ (s.askAll g x e).1.mgmt = s.mgmt ∧ (s.askAll g x e).1.pkg = s.pkg 
    ∧ (s.askAll g x e).1.sec = s.sec ∧ (s.askAll g x e).1.bw = s.bw ∧ (s.askAll g x e).1.time = s.time := by
  unfold State.askAll
  refine foldl_keeps (fun r : State × QEntry => r.1.tiles = s.tiles ∧ r.1.fuses = s.fuses ∧ r.1.pending = s.pending ∧ r.1.cfg = s.cfg ∧ r.1.mgmt = s.mgmt ∧ 
    r.1.pkg = s.pkg ∧ r.1.sec = s.sec ∧ r.1.bw = s.bw ∧ r.1.time = s.time) _ ?_ _ _ (by simp)
  intro r i hr
  refine foldl_keeps (fun a : (State × QEntry) × Nat => a.1.1.tiles = s.tiles ∧ a.1.1.fuses = s.fuses ∧ a.1.1.pending = s.pending ∧ a.1.1.cfg = s.cfg ∧ a.1.1.mgmt = 
    s.mgmt ∧ a.1.1.pkg = s.pkg ∧ a.1.1.sec = s.sec ∧ a.1.1.bw = s.bw ∧ a.1.1.time = s.time) _ ?_ _ _ hr
  intro a p ha
  simp only [State.askPiece_frame]
  exact ha

@[simp] theorem State.stopTile_frame (s : State) (t : Nat) (r : Stop) :
    (State.stopTile s t r).fuses = s.fuses ∧ (State.stopTile s t r).pending = s.pending ∧ (State.stopTile s t 
    r).cfg = s.cfg ∧ (State.stopTile s t r).mgmt = s.mgmt ∧ (State.stopTile s t r).pkg = s.pkg ∧ (State.stopTile s 
    t r).sec = s.sec ∧ (State.stopTile s t r).bw = s.bw ∧ (State.stopTile s t r).time = s.time := by
  simp only [State.stopTile]; (repeat' split) <;> (simp [*])
@[simp] theorem State.putDma_frame (s : State) (t i : Nat) (e : QEntry) :
    (State.putDma s t i e).fuses = s.fuses ∧ (State.putDma s t i e).pending = s.pending ∧ (State.putDma s t i 
    e).cfg = s.cfg ∧ (State.putDma s t i e).mgmt = s.mgmt ∧ (State.putDma s t i e).pkg = s.pkg ∧ (State.putDma s t 
    i e).sec = s.sec ∧ (State.putDma s t i e).bw = s.bw ∧ (State.putDma s t i e).time = s.time := by
  simp [State.putDma]
@[simp] theorem State.dropDma_frame (s : State) (t i : Nat) (r : Stop) :
    (State.dropDma s t i r).fuses = s.fuses ∧ (State.dropDma s t i r).pending = s.pending ∧ (State.dropDma s t i 
    r).cfg = s.cfg ∧ (State.dropDma s t i r).mgmt = s.mgmt ∧ (State.dropDma s t i r).pkg = s.pkg ∧ (State.dropDma 
    s t i r).sec = s.sec ∧ (State.dropDma s t i r).bw = s.bw ∧ (State.dropDma s t i r).time = s.time := by
  simp [State.dropDma]
@[simp] theorem State.stashRead_frame (s : State) (g : Agent) (t : Nat) (ws : List Word) :
    (State.stashRead s g t ws).1.tiles = s.tiles ∧ (State.stashRead s g t ws).1.fuses = s.fuses ∧ (State.stashRead 
    s g t ws).1.pending = s.pending ∧ (State.stashRead s g t ws).1.cfg = s.cfg ∧ (State.stashRead s g t ws).1.mgmt 
    = s.mgmt ∧ (State.stashRead s g t ws).1.pkg = s.pkg ∧ (State.stashRead s g t ws).1.sec = s.sec ∧ 
    (State.stashRead s g t ws).1.bw = s.bw ∧ (State.stashRead s g t ws).1.time = s.time := by
  (unfold State.stashRead; (try simp only []); (repeat' split) <;> (try simp only [Prod.ext_iff] at *) <;> (repeat (rename _ ∧ _ => hx; cases hx)) <;> (try subst_vars) <;> (simp [*]))
@[simp] theorem State.dmaAsk_frame (s : State) (t i : Nat) (e : QEntry) :
    (State.dmaAsk s t i e).fuses = s.fuses ∧ (State.dmaAsk s t i e).pending = s.pending ∧ (State.dmaAsk s t i 
    e).cfg = s.cfg ∧ (State.dmaAsk s t i e).mgmt = s.mgmt ∧ (State.dmaAsk s t i e).pkg = s.pkg ∧ (State.dmaAsk s t 
    i e).sec = s.sec ∧ (State.dmaAsk s t i e).bw = s.bw ∧ (State.dmaAsk s t i e).time = s.time := by
  simp only [State.dmaAsk]; (repeat' split) <;> (simp [*])
@[simp] theorem State.dmaStart_frame (s : State) (t i : Nat) (e : QEntry) :
    (State.dmaStart s t i e).fuses = s.fuses ∧ (State.dmaStart s t i e).pending = s.pending ∧ (State.dmaStart s t 
    i e).cfg = s.cfg ∧ (State.dmaStart s t i e).mgmt = s.mgmt ∧ (State.dmaStart s t i e).pkg = s.pkg ∧ 
    (State.dmaStart s t i e).sec = s.sec ∧ (State.dmaStart s t i e).bw = s.bw ∧ (State.dmaStart s t i e).time = 
    s.time := by
  (unfold State.dmaStart; (try simp only []); (repeat' split) <;> (try simp only [Prod.ext_iff] at *) <;> (repeat (rename _ ∧ _ => hx; cases hx)) <;> (try subst_vars) <;> (simp [*]))
@[simp] theorem State.dmaMayGo_frame (s : State) (t i : Nat) :
    (State.dmaMayGo s t i).fuses = s.fuses ∧ (State.dmaMayGo s t i).pending = s.pending ∧ (State.dmaMayGo s t 
    i).cfg = s.cfg ∧ (State.dmaMayGo s t i).mgmt = s.mgmt ∧ (State.dmaMayGo s t i).pkg = s.pkg ∧ (State.dmaMayGo s 
    t i).sec = s.sec ∧ (State.dmaMayGo s t i).bw = s.bw ∧ (State.dmaMayGo s t i).time = s.time := by
  simp only [State.dmaMayGo]; (repeat' split) <;> (simp [*])
@[simp] theorem State.dmaUnits_frame (s : State) (t i : Nat) :
    (State.dmaUnits s t i).fuses = s.fuses ∧ (State.dmaUnits s t i).pending = s.pending ∧ (State.dmaUnits s t 
    i).cfg = s.cfg ∧ (State.dmaUnits s t i).mgmt = s.mgmt ∧ (State.dmaUnits s t i).pkg = s.pkg ∧ (State.dmaUnits s 
    t i).sec = s.sec ∧ (State.dmaUnits s t i).bw = s.bw ∧ (State.dmaUnits s t i).time = s.time := by
  simp only [State.dmaUnits]; (repeat' split) <;> (simp [*])
@[simp] theorem State.dmaRun_frame (s : State) (t i : Nat) :
    (State.dmaRun s t i).fuses = s.fuses ∧ (State.dmaRun s t i).pending = s.pending ∧ (State.dmaRun s t i).cfg = 
    s.cfg ∧ (State.dmaRun s t i).mgmt = s.mgmt ∧ (State.dmaRun s t i).pkg = s.pkg ∧ (State.dmaRun s t i).sec = 
    s.sec ∧ (State.dmaRun s t i).bw = s.bw ∧ (State.dmaRun s t i).time = s.time := by
  simp [State.dmaRun]
@[simp] theorem State.relSlot_frame (t : Nat) (s : State) (r : Option (Nat × Nat) × Nat) :
    (State.relSlot t s r).fuses = s.fuses ∧ (State.relSlot t s r).pending = s.pending ∧ (State.relSlot t s r).cfg 
    = s.cfg ∧ (State.relSlot t s r).mgmt = s.mgmt ∧ (State.relSlot t s r).pkg = s.pkg ∧ (State.relSlot t s r).sec 
    = s.sec ∧ (State.relSlot t s r).bw = s.bw ∧ (State.relSlot t s r).time = s.time := by
  simp only [State.relSlot]; (repeat' split) <;> (simp [*])
@[simp] theorem State.dmaRelease_frame (s : State) (t : Nat) (x : Xfer) :
    (State.dmaRelease s t x).fuses = s.fuses ∧ (State.dmaRelease s t x).pending = s.pending ∧ (State.dmaRelease s 
    t x).cfg = s.cfg ∧ (State.dmaRelease s t x).mgmt = s.mgmt ∧ (State.dmaRelease s t x).pkg = s.pkg ∧ 
    (State.dmaRelease s t x).sec = s.sec ∧ (State.dmaRelease s t x).bw = s.bw ∧ (State.dmaRelease s t x).time = 
    s.time := by
  simp [State.dmaRelease, foldl_tiles, foldl_fuses, foldl_pending, foldl_cfg, foldl_mgmt, foldl_pkg, foldl_sec, foldl_bw, foldl_time, foldlP_tiles, foldlP_fuses, foldlP_pending, foldlP_cfg, foldlP_mgmt, foldlP_pkg, foldlP_sec, foldlP_bw, foldlP_time, foldlW_tiles, foldlW_fuses, foldlW_pending, foldlW_cfg, foldlW_mgmt, foldlW_pkg, foldlW_sec, foldlW_bw, foldlW_time]
@[simp] theorem State.afterStop_frame (s : State) (t : Nat) :
    (State.afterStop s t).fuses = s.fuses ∧ (State.afterStop s t).pending = s.pending ∧ (State.afterStop s t).cfg 
    = s.cfg ∧ (State.afterStop s t).mgmt = s.mgmt ∧ (State.afterStop s t).pkg = s.pkg ∧ (State.afterStop s t).sec 
    = s.sec ∧ (State.afterStop s t).bw = s.bw ∧ (State.afterStop s t).time = s.time := by
  simp [State.afterStop]
@[simp] theorem State.dmaFinish_frame (s : State) (t i : Nat) :
    (State.dmaFinish s t i).fuses = s.fuses ∧ (State.dmaFinish s t i).pending = s.pending ∧ (State.dmaFinish s t 
    i).cfg = s.cfg ∧ (State.dmaFinish s t i).mgmt = s.mgmt ∧ (State.dmaFinish s t i).pkg = s.pkg ∧ 
    (State.dmaFinish s t i).sec = s.sec ∧ (State.dmaFinish s t i).bw = s.bw ∧ (State.dmaFinish s t i).time = 
    s.time := by
  simp only [State.dmaFinish]; (repeat' split) <;> (simp [*])
@[simp] theorem State.stashSkip_frame (s : State) (agent a t i job id : Nat) (e : QEntry) (c : Scb) (d : StashEnt) :
    (State.stashSkip s agent a t i job id e c d).fuses = s.fuses ∧ (State.stashSkip s agent a t i job id e c 
    d).pending = s.pending ∧ (State.stashSkip s agent a t i job id e c d).cfg = s.cfg ∧ (State.stashSkip s agent a 
    t i job id e c d).mgmt = s.mgmt ∧ (State.stashSkip s agent a t i job id e c d).pkg = s.pkg ∧ (State.stashSkip 
    s agent a t i job id e c d).sec = s.sec ∧ (State.stashSkip s agent a t i job id e c d).bw = s.bw ∧ 
    (State.stashSkip s agent a t i job id e c d).time = s.time := by
  simp [State.stashSkip]
@[simp] theorem State.stashDecide_frame (s : State) (g : Agent) (t i a id : Nat) (e : QEntry) (c : Scb) (d : StashEnt) :
    (State.stashDecide s g t i a id e c d).fuses = s.fuses ∧ (State.stashDecide s g t i a id e c d).pending = 
    s.pending ∧ (State.stashDecide s g t i a id e c d).cfg = s.cfg ∧ (State.stashDecide s g t i a id e c d).mgmt = 
    s.mgmt ∧ (State.stashDecide s g t i a id e c d).pkg = s.pkg ∧ (State.stashDecide s g t i a id e c d).sec = 
    s.sec ∧ (State.stashDecide s g t i a id e c d).bw = s.bw ∧ (State.stashDecide s g t i a id e c d).time = 
    s.time := by
  simp [State.stashDecide]
@[simp] theorem State.stashAlloc_frame (s : State) (t i : Nat) :
    (State.stashAlloc s t i).fuses = s.fuses ∧ (State.stashAlloc s t i).pending = s.pending ∧ (State.stashAlloc s 
    t i).cfg = s.cfg ∧ (State.stashAlloc s t i).mgmt = s.mgmt ∧ (State.stashAlloc s t i).pkg = s.pkg ∧ 
    (State.stashAlloc s t i).sec = s.sec ∧ (State.stashAlloc s t i).bw = s.bw ∧ (State.stashAlloc s t i).time = 
    s.time := by
  (unfold State.stashAlloc; (try simp only []); (repeat' split) <;> (try simp only [Prod.ext_iff] at *) <;> (repeat (rename _ ∧ _ => hx; cases hx)) <;> (try subst_vars) <;> (simp [*]))
@[simp] theorem State.stashPresent_frame (s : State) (t i : Nat) :
    (State.stashPresent s t i).fuses = s.fuses ∧ (State.stashPresent s t i).pending = s.pending ∧ 
    (State.stashPresent s t i).cfg = s.cfg ∧ (State.stashPresent s t i).mgmt = s.mgmt ∧ (State.stashPresent s t 
    i).pkg = s.pkg ∧ (State.stashPresent s t i).sec = s.sec ∧ (State.stashPresent s t i).bw = s.bw ∧ 
    (State.stashPresent s t i).time = s.time := by
  (unfold State.stashPresent; (try simp only []); (repeat' split) <;> (try simp only [Prod.ext_iff] at *) <;> (repeat (rename _ ∧ _ => hx; cases hx)) <;> (try subst_vars) <;> (simp [*]))
@[simp] theorem State.creditStart_frame (s : State) (t i : Nat) (e : QEntry) :
    (State.creditStart s t i e).fuses = s.fuses ∧ (State.creditStart s t i e).pending = s.pending ∧ 
    (State.creditStart s t i e).cfg = s.cfg ∧ (State.creditStart s t i e).mgmt = s.mgmt ∧ (State.creditStart s t i 
    e).pkg = s.pkg ∧ (State.creditStart s t i e).sec = s.sec ∧ (State.creditStart s t i e).bw = s.bw ∧ 
    (State.creditStart s t i e).time = s.time := by
  simp only [State.creditStart]; (repeat' split) <;> (simp [*])
@[simp] theorem State.creditServe_frame (s : State) (t window : Nat) :
    (State.creditServe s t window).fuses = s.fuses ∧ (State.creditServe s t window).pending = s.pending ∧ 
    (State.creditServe s t window).cfg = s.cfg ∧ (State.creditServe s t window).mgmt = s.mgmt ∧ (State.creditServe 
    s t window).pkg = s.pkg ∧ (State.creditServe s t window).sec = s.sec ∧ (State.creditServe s t window).bw = 
    s.bw ∧ (State.creditServe s t window).time = s.time := by
  simp only [State.creditServe]; (repeat' split) <;> (simp [*])
@[simp] theorem State.creditTimeout_frame (s : State) (t window : Nat) :
    (State.creditTimeout s t window).fuses = s.fuses ∧ (State.creditTimeout s t window).pending = s.pending ∧ 
    (State.creditTimeout s t window).cfg = s.cfg ∧ (State.creditTimeout s t window).mgmt = s.mgmt ∧ 
    (State.creditTimeout s t window).pkg = s.pkg ∧ (State.creditTimeout s t window).sec = s.sec ∧ 
    (State.creditTimeout s t window).bw = s.bw ∧ (State.creditTimeout s t window).time = s.time := by
  simp only [State.creditTimeout]; (repeat' split) <;> (simp [*])
@[simp] theorem State.dmaOther_frame (s : State) (fv : Nat → Word) (t i : Nat) (e : QEntry) :
    (State.dmaOther s fv t i e).fuses = s.fuses ∧ (State.dmaOther s fv t i e).pending = s.pending ∧ 
    (State.dmaOther s fv t i e).cfg = s.cfg ∧ (State.dmaOther s fv t i e).mgmt = s.mgmt ∧ (State.dmaOther s fv t i 
    e).pkg = s.pkg ∧ (State.dmaOther s fv t i e).sec = s.sec ∧ (State.dmaOther s fv t i e).bw = s.bw ∧ 
    (State.dmaOther s fv t i e).time = s.time := by
  simp only [State.dmaOther]; (repeat' split) <;> (simp [*])
@[simp] theorem State.completeDma_frame (s : State) (t i : Nat) :
    (State.completeDma s t i).fuses = s.fuses ∧ (State.completeDma s t i).pending = s.pending ∧ (State.completeDma 
    s t i).cfg = s.cfg ∧ (State.completeDma s t i).mgmt = s.mgmt ∧ (State.completeDma s t i).pkg = s.pkg ∧ 
    (State.completeDma s t i).sec = s.sec ∧ (State.completeDma s t i).bw = s.bw ∧ (State.completeDma s t i).time = 
    s.time := by
  simp only [State.completeDma]; (repeat' split) <;> (simp [*])

end Sys2Proof.Machine
end

