-- ==== Sys2Proof/Laws/FramesWork.lean ====
section
/-!
SUPPORT. Which parts of the state sync, issue, the Keywork and program starts leave as they were: one lemma
`<operation>_frame` for each operation on the state, of the fields tiles, fuses, pending, cfg, mgmt, pkg, sec, bw and time.
-/

set_option Elab.async false
set_option linter.unusedSimpArgs false
set_option linter.unusedVariables false
set_option linter.unreachableTactic false
set_option linter.unusedTactic false

namespace Sys2Proof.Machine

open Sys2Proof

/-! ### `SyncHome` -/

@[simp] theorem State.answer_frame (s : State) (src : SyncSrc) (o v : Nat) :
    (State.answer s src o v).tiles = s.tiles ∧ (State.answer s src o v).fuses = s.fuses ∧ (State.answer s src o 
    v).pending = s.pending ∧ (State.answer s src o v).cfg = s.cfg ∧ (State.answer s src o v).mgmt = s.mgmt ∧ 
    (State.answer s src o v).pkg = s.pkg ∧ (State.answer s src o v).sec = s.sec ∧ (State.answer s src o v).bw = 
    s.bw ∧ (State.answer s src o v).time = s.time := by
  simp only [State.answer]; (repeat' split) <;> (simp [*])
@[simp] theorem State.answers_frame (s : State) (rs : List SyncResult) :
    (State.answers s rs).tiles = s.tiles ∧ (State.answers s rs).fuses = s.fuses ∧ (State.answers s rs).pending = 
    s.pending ∧ (State.answers s rs).cfg = s.cfg ∧ (State.answers s rs).mgmt = s.mgmt ∧ (State.answers s rs).pkg = 
    s.pkg ∧ (State.answers s rs).sec = s.sec ∧ (State.answers s rs).bw = s.bw ∧ (State.answers s rs).time = s.time := by
  simp [State.answers, foldl_tiles, foldl_fuses, foldl_pending, foldl_cfg, foldl_mgmt, foldl_pkg, foldl_sec, foldl_bw, foldl_time, foldlP_tiles, foldlP_fuses, foldlP_pending, foldlP_cfg, foldlP_mgmt, foldlP_pkg, foldlP_sec, foldlP_bw, foldlP_time, foldlW_tiles, foldlW_fuses, foldlW_pending, foldlW_cfg, foldlW_mgmt, foldlW_pkg, foldlW_sec, foldlW_bw, foldlW_time]
@[simp] theorem State.setObj_frame (s : State) (i : Nat) (o : SyncObj) :
    (State.setObj s i o).tiles = s.tiles ∧ (State.setObj s i o).fuses = s.fuses ∧ (State.setObj s i o).pending = 
    s.pending ∧ (State.setObj s i o).cfg = s.cfg ∧ (State.setObj s i o).mgmt = s.mgmt ∧ (State.setObj s i o).pkg = 
    s.pkg ∧ (State.setObj s i o).sec = s.sec ∧ (State.setObj s i o).bw = s.bw ∧ (State.setObj s i o).time = s.time := by
  simp [State.setObj]
@[simp] theorem State.setBar_frame (s : State) (id : Nat) (b : Option Barrier) :
    (State.setBar s id b).tiles = s.tiles ∧ (State.setBar s id b).fuses = s.fuses ∧ (State.setBar s id b).pending 
    = s.pending ∧ (State.setBar s id b).cfg = s.cfg ∧ (State.setBar s id b).mgmt = s.mgmt ∧ (State.setBar s id 
    b).pkg = s.pkg ∧ (State.setBar s id b).sec = s.sec ∧ (State.setBar s id b).bw = s.bw ∧ (State.setBar s id 
    b).time = s.time := by
  simp [State.setBar]
@[simp] theorem State.setValue_frame (s : State) (i : Nat) (o : SyncObj) (v : Nat) :
    (State.setValue s i o v).tiles = s.tiles ∧ (State.setValue s i o v).fuses = s.fuses ∧ (State.setValue s i o 
    v).pending = s.pending ∧ (State.setValue s i o v).cfg = s.cfg ∧ (State.setValue s i o v).mgmt = s.mgmt ∧ 
    (State.setValue s i o v).pkg = s.pkg ∧ (State.setValue s i o v).sec = s.sec ∧ (State.setValue s i o v).bw = 
    s.bw ∧ (State.setValue s i o v).time = s.time := by
  simp [State.setValue]
@[simp] theorem State.releaseAll_frame (s : State) (i : Nat) (o : SyncObj) (outcome value : Nat) :
    (State.releaseAll s i o outcome value).tiles = s.tiles ∧ (State.releaseAll s i o outcome value).fuses = 
    s.fuses ∧ (State.releaseAll s i o outcome value).pending = s.pending ∧ (State.releaseAll s i o outcome 
    value).cfg = s.cfg ∧ (State.releaseAll s i o outcome value).mgmt = s.mgmt ∧ (State.releaseAll s i o outcome 
    value).pkg = s.pkg ∧ (State.releaseAll s i o outcome value).sec = s.sec ∧ (State.releaseAll s i o outcome 
    value).bw = s.bw ∧ (State.releaseAll s i o outcome value).time = s.time := by
  simp [State.releaseAll]
@[simp] theorem State.tellClosed_frame (s : State) (id : Nat) (b : Barrier) :
    (State.tellClosed s id b).tiles = s.tiles ∧ (State.tellClosed s id b).fuses = s.fuses ∧ (State.tellClosed s id 
    b).pending = s.pending ∧ (State.tellClosed s id b).cfg = s.cfg ∧ (State.tellClosed s id b).mgmt = s.mgmt ∧ 
    (State.tellClosed s id b).pkg = s.pkg ∧ (State.tellClosed s id b).sec = s.sec ∧ (State.tellClosed s id b).bw = 
    s.bw ∧ (State.tellClosed s id b).time = s.time := by
  simp [State.tellClosed, foldl_tiles, foldl_fuses, foldl_pending, foldl_cfg, foldl_mgmt, foldl_pkg, foldl_sec, foldl_bw, foldl_time, foldlP_tiles, foldlP_fuses, foldlP_pending, foldlP_cfg, foldlP_mgmt, foldlP_pkg, foldlP_sec, foldlP_bw, foldlP_time, foldlW_tiles, foldlW_fuses, foldlW_pending, foldlW_cfg, foldlW_mgmt, foldlW_pkg, foldlW_sec, foldlW_bw, foldlW_time]
@[simp] theorem State.closeRounds_frame (s : State) (id : Nat) (z0 : Nat) :
    (State.closeRounds s id z0).tiles = s.tiles ∧ (State.closeRounds s id z0).fuses = s.fuses ∧ (State.closeRounds 
    s id z0).pending = s.pending ∧ (State.closeRounds s id z0).cfg = s.cfg ∧ (State.closeRounds s id z0).mgmt = 
    s.mgmt ∧ (State.closeRounds s id z0).pkg = s.pkg ∧ (State.closeRounds s id z0).sec = s.sec ∧ 
    (State.closeRounds s id z0).bw = s.bw ∧ (State.closeRounds s id z0).time = s.time := by
  induction z0 generalizing s id <;> first
  | (simp [State.closeRounds]; done)
  | (rw [State.closeRounds]; (repeat' split) <;> (simp [*]; done))

@[simp] theorem State.reportRounds_frame (s : State) (id : Nat) (z0 : Nat) :
    (State.reportRounds s id z0).tiles = s.tiles ∧ (State.reportRounds s id z0).fuses = s.fuses ∧ 
    (State.reportRounds s id z0).pending = s.pending ∧ (State.reportRounds s id z0).cfg = s.cfg ∧ 
    (State.reportRounds s id z0).mgmt = s.mgmt ∧ (State.reportRounds s id z0).pkg = s.pkg ∧ (State.reportRounds s 
    id z0).sec = s.sec ∧ (State.reportRounds s id z0).bw = s.bw ∧ (State.reportRounds s id z0).time = s.time := by
  induction z0 generalizing s id <;> first
  | (simp [State.reportRounds]; done)
  | (rw [State.reportRounds]; (repeat' split) <;> (simp [*]; done))

@[simp] theorem State.barSettle_frame (s : State) (id : Nat) :
    (State.barSettle s id).tiles = s.tiles ∧ (State.barSettle s id).fuses = s.fuses ∧ (State.barSettle s 
    id).pending = s.pending ∧ (State.barSettle s id).cfg = s.cfg ∧ (State.barSettle s id).mgmt = s.mgmt ∧ 
    (State.barSettle s id).pkg = s.pkg ∧ (State.barSettle s id).sec = s.sec ∧ (State.barSettle s id).bw = s.bw ∧ 
    (State.barSettle s id).time = s.time := by
  simp [State.barSettle]
@[simp] theorem State.breakBar_frame (s : State) (id st outcome : Nat) :
    (State.breakBar s id st outcome).tiles = s.tiles ∧ (State.breakBar s id st outcome).fuses = s.fuses ∧ 
    (State.breakBar s id st outcome).pending = s.pending ∧ (State.breakBar s id st outcome).cfg = s.cfg ∧ 
    (State.breakBar s id st outcome).mgmt = s.mgmt ∧ (State.breakBar s id st outcome).pkg = s.pkg ∧ 
    (State.breakBar s id st outcome).sec = s.sec ∧ (State.breakBar s id st outcome).bw = s.bw ∧ (State.breakBar s 
    id st outcome).time = s.time := by
  simp only [State.breakBar]; (repeat' split) <;> (simp [*])
@[simp] theorem State.dropBar_frame (s : State) (id outcome : Nat) :
    (State.dropBar s id outcome).tiles = s.tiles ∧ (State.dropBar s id outcome).fuses = s.fuses ∧ (State.dropBar s 
    id outcome).pending = s.pending ∧ (State.dropBar s id outcome).cfg = s.cfg ∧ (State.dropBar s id outcome).mgmt 
    = s.mgmt ∧ (State.dropBar s id outcome).pkg = s.pkg ∧ (State.dropBar s id outcome).sec = s.sec ∧ 
    (State.dropBar s id outcome).bw = s.bw ∧ (State.dropBar s id outcome).time = s.time := by
  simp only [State.dropBar]; (repeat' split) <;> (simp [*])
@[simp] theorem State.shareSync_frame (s : State) (ds : List Nat) (r : SyncReq) :
    (State.shareSync s ds r).tiles = s.tiles ∧ (State.shareSync s ds r).fuses = s.fuses ∧ (State.shareSync s ds 
    r).pending = s.pending ∧ (State.shareSync s ds r).cfg = s.cfg ∧ (State.shareSync s ds r).mgmt = s.mgmt ∧ 
    (State.shareSync s ds r).pkg = s.pkg ∧ (State.shareSync s ds r).sec = s.sec ∧ (State.shareSync s ds r).bw = 
    s.bw ∧ (State.shareSync s ds r).time = s.time := by
  simp [State.shareSync, foldl_tiles, foldl_fuses, foldl_pending, foldl_cfg, foldl_mgmt, foldl_pkg, foldl_sec, foldl_bw, foldl_time, foldlP_tiles, foldlP_fuses, foldlP_pending, foldlP_cfg, foldlP_mgmt, foldlP_pkg, foldlP_sec, foldlP_bw, foldlP_time, foldlW_tiles, foldlW_fuses, foldlW_pending, foldlW_cfg, foldlW_mgmt, foldlW_pkg, foldlW_sec, foldlW_bw, foldlW_time]
@[simp] theorem State.putRecord_frame (s : State) (r : SyncReq) (id : Nat) :
    (State.putRecord s r id).tiles = s.tiles ∧ (State.putRecord s r id).fuses = s.fuses ∧ (State.putRecord s r 
    id).pending = s.pending ∧ (State.putRecord s r id).cfg = s.cfg ∧ (State.putRecord s r id).mgmt = s.mgmt ∧ 
    (State.putRecord s r id).pkg = s.pkg ∧ (State.putRecord s r id).sec = s.sec ∧ (State.putRecord s r id).bw = 
    s.bw ∧ (State.putRecord s r id).time = s.time := by
  simp [State.putRecord]
@[simp] theorem State.initDone_frame (s : State) (r : SyncReq) (id : Nat) :
    (State.initDone s r id).tiles = s.tiles ∧ (State.initDone s r id).fuses = s.fuses ∧ (State.initDone s r 
    id).pending = s.pending ∧ (State.initDone s r id).cfg = s.cfg ∧ (State.initDone s r id).mgmt = s.mgmt ∧ 
    (State.initDone s r id).pkg = s.pkg ∧ (State.initDone s r id).sec = s.sec ∧ (State.initDone s r id).bw = s.bw 
    ∧ (State.initDone s r id).time = s.time := by
  simp [State.initDone]
@[simp] theorem State.setInit_frame (s : State) (id : Nat) (x : Option InitWait) :
    (State.setInit s id x).tiles = s.tiles ∧ (State.setInit s id x).fuses = s.fuses ∧ (State.setInit s id 
    x).pending = s.pending ∧ (State.setInit s id x).cfg = s.cfg ∧ (State.setInit s id x).mgmt = s.mgmt ∧ 
    (State.setInit s id x).pkg = s.pkg ∧ (State.setInit s id x).sec = s.sec ∧ (State.setInit s id x).bw = s.bw ∧ 
    (State.setInit s id x).time = s.time := by
  simp [State.setInit]
@[simp] theorem State.initUndo_frame (s : State) (id : Nat) (x : InitWait) :
    (State.initUndo s id x).tiles = s.tiles ∧ (State.initUndo s id x).fuses = s.fuses ∧ (State.initUndo s id 
    x).pending = s.pending ∧ (State.initUndo s id x).cfg = s.cfg ∧ (State.initUndo s id x).mgmt = s.mgmt ∧ 
    (State.initUndo s id x).pkg = s.pkg ∧ (State.initUndo s id x).sec = s.sec ∧ (State.initUndo s id x).bw = s.bw 
    ∧ (State.initUndo s id x).time = s.time := by
  simp [State.initUndo]
@[simp] theorem State.initGo_frame (s : State) (id : Nat) (x : InitWait) :
    (State.initGo s id x).tiles = s.tiles ∧ (State.initGo s id x).fuses = s.fuses ∧ (State.initGo s id x).pending 
    = s.pending ∧ (State.initGo s id x).cfg = s.cfg ∧ (State.initGo s id x).mgmt = s.mgmt ∧ (State.initGo s id 
    x).pkg = s.pkg ∧ (State.initGo s id x).sec = s.sec ∧ (State.initGo s id x).bw = s.bw ∧ (State.initGo s id 
    x).time = s.time := by
  simp only [State.initGo]; (repeat' split) <;> (simp [*])
@[simp] theorem State.syncInit_frame (s : State) (r : SyncReq) (id : Nat) :
    (State.syncInit s r id).tiles = s.tiles ∧ (State.syncInit s r id).fuses = s.fuses ∧ (State.syncInit s r 
    id).pending = s.pending ∧ (State.syncInit s r id).cfg = s.cfg ∧ (State.syncInit s r id).mgmt = s.mgmt ∧ 
    (State.syncInit s r id).pkg = s.pkg ∧ (State.syncInit s r id).sec = s.sec ∧ (State.syncInit s r id).bw = s.bw 
    ∧ (State.syncInit s r id).time = s.time := by
  simp [State.syncInit]
@[simp] theorem State.syncRecord_frame (s : State) (r : SyncReq) (id : Nat) :
    (State.syncRecord s r id).tiles = s.tiles ∧ (State.syncRecord s r id).fuses = s.fuses ∧ (State.syncRecord s r 
    id).pending = s.pending ∧ (State.syncRecord s r id).cfg = s.cfg ∧ (State.syncRecord s r id).mgmt = s.mgmt ∧ 
    (State.syncRecord s r id).pkg = s.pkg ∧ (State.syncRecord s r id).sec = s.sec ∧ (State.syncRecord s r id).bw = 
    s.bw ∧ (State.syncRecord s r id).time = s.time := by
  simp [State.syncRecord]
@[simp] theorem State.syncArrive_frame (s : State) (r : SyncReq) (id : Nat) :
    (State.syncArrive s r id).tiles = s.tiles ∧ (State.syncArrive s r id).fuses = s.fuses ∧ (State.syncArrive s r 
    id).pending = s.pending ∧ (State.syncArrive s r id).cfg = s.cfg ∧ (State.syncArrive s r id).mgmt = s.mgmt ∧ 
    (State.syncArrive s r id).pkg = s.pkg ∧ (State.syncArrive s r id).sec = s.sec ∧ (State.syncArrive s r id).bw = 
    s.bw ∧ (State.syncArrive s r id).time = s.time := by
  simp only [State.syncArrive]; (repeat' split) <;> (simp [*])
@[simp] theorem State.syncFree_frame (s : State) (r : SyncReq) (id i : Nat) (o : SyncObj) :
    (State.syncFree s r id i o).tiles = s.tiles ∧ (State.syncFree s r id i o).fuses = s.fuses ∧ (State.syncFree s 
    r id i o).pending = s.pending ∧ (State.syncFree s r id i o).cfg = s.cfg ∧ (State.syncFree s r id i o).mgmt = 
    s.mgmt ∧ (State.syncFree s r id i o).pkg = s.pkg ∧ (State.syncFree s r id i o).sec = s.sec ∧ (State.syncFree s 
    r id i o).bw = s.bw ∧ (State.syncFree s r id i o).time = s.time := by
  simp [State.syncFree]
@[simp] theorem State.releaseBar_frame (s : State) (id outcome : Nat) :
    (State.releaseBar s id outcome).tiles = s.tiles ∧ (State.releaseBar s id outcome).fuses = s.fuses ∧ 
    (State.releaseBar s id outcome).pending = s.pending ∧ (State.releaseBar s id outcome).cfg = s.cfg ∧ 
    (State.releaseBar s id outcome).mgmt = s.mgmt ∧ (State.releaseBar s id outcome).pkg = s.pkg ∧ 
    (State.releaseBar s id outcome).sec = s.sec ∧ (State.releaseBar s id outcome).bw = s.bw ∧ (State.releaseBar s 
    id outcome).time = s.time := by
  simp only [State.releaseBar]; (repeat' split) <;> (simp [*])
@[simp] theorem State.abandonObj_frame (s : State) (i : Nat) (o : SyncObj) :
    (State.abandonObj s i o).tiles = s.tiles ∧ (State.abandonObj s i o).fuses = s.fuses ∧ (State.abandonObj s i 
    o).pending = s.pending ∧ (State.abandonObj s i o).cfg = s.cfg ∧ (State.abandonObj s i o).mgmt = s.mgmt ∧ 
    (State.abandonObj s i o).pkg = s.pkg ∧ (State.abandonObj s i o).sec = s.sec ∧ (State.abandonObj s i o).bw = 
    s.bw ∧ (State.abandonObj s i o).time = s.time := by
  simp [State.abandonObj]
@[simp] theorem State.abandonObjs_frame (s : State) (own : SyncObj → Bool) :
    (State.abandonObjs s own).tiles = s.tiles ∧ (State.abandonObjs s own).fuses = s.fuses ∧ (State.abandonObjs s 
    own).pending = s.pending ∧ (State.abandonObjs s own).cfg = s.cfg ∧ (State.abandonObjs s own).mgmt = s.mgmt ∧ 
    (State.abandonObjs s own).pkg = s.pkg ∧ (State.abandonObjs s own).sec = s.sec ∧ (State.abandonObjs s own).bw = 
    s.bw ∧ (State.abandonObjs s own).time = s.time := by
  simp [State.abandonObjs, foldl_tiles, foldl_fuses, foldl_pending, foldl_cfg, foldl_mgmt, foldl_pkg, foldl_sec, foldl_bw, foldl_time, foldlP_tiles, foldlP_fuses, foldlP_pending, foldlP_cfg, foldlP_mgmt, foldlP_pkg, foldlP_sec, foldlP_bw, foldlP_time, foldlW_tiles, foldlW_fuses, foldlW_pending, foldlW_cfg, foldlW_mgmt, foldlW_pkg, foldlW_sec, foldlW_bw, foldlW_time]
@[simp] theorem State.freeObjs_frame (s : State) (own : SyncObj → Bool) :
    (State.freeObjs s own).tiles = s.tiles ∧ (State.freeObjs s own).fuses = s.fuses ∧ (State.freeObjs s 
    own).pending = s.pending ∧ (State.freeObjs s own).cfg = s.cfg ∧ (State.freeObjs s own).mgmt = s.mgmt ∧ 
    (State.freeObjs s own).pkg = s.pkg ∧ (State.freeObjs s own).sec = s.sec ∧ (State.freeObjs s own).bw = s.bw ∧ 
    (State.freeObjs s own).time = s.time := by
  simp [State.freeObjs, foldl_tiles, foldl_fuses, foldl_pending, foldl_cfg, foldl_mgmt, foldl_pkg, foldl_sec, foldl_bw, foldl_time, foldlP_tiles, foldlP_fuses, foldlP_pending, foldlP_cfg, foldlP_mgmt, foldlP_pkg, foldlP_sec, foldlP_bw, foldlP_time, foldlW_tiles, foldlW_fuses, foldlW_pending, foldlW_cfg, foldlW_mgmt, foldlW_pkg, foldlW_sec, foldlW_bw, foldlW_time]
@[simp] theorem State.withdrawFor_frame (s : State) (d tag : Nat) :
    (State.withdrawFor s d tag).tiles = s.tiles ∧ (State.withdrawFor s d tag).fuses = s.fuses ∧ (State.withdrawFor 
    s d tag).pending = s.pending ∧ (State.withdrawFor s d tag).cfg = s.cfg ∧ (State.withdrawFor s d tag).mgmt = 
    s.mgmt ∧ (State.withdrawFor s d tag).pkg = s.pkg ∧ (State.withdrawFor s d tag).sec = s.sec ∧ 
    (State.withdrawFor s d tag).bw = s.bw ∧ (State.withdrawFor s d tag).time = s.time := by
  simp [State.withdrawFor]
@[simp] theorem State.syncNote_frame (s : State) (r : SyncReq) :
    (State.syncNote s r).tiles = s.tiles ∧ (State.syncNote s r).fuses = s.fuses ∧ (State.syncNote s r).pending = 
    s.pending ∧ (State.syncNote s r).cfg = s.cfg ∧ (State.syncNote s r).mgmt = s.mgmt ∧ (State.syncNote s r).pkg = 
    s.pkg ∧ (State.syncNote s r).sec = s.sec ∧ (State.syncNote s r).bw = s.bw ∧ (State.syncNote s r).time = s.time := by
  simp only [State.syncNote]; (repeat' split) <;> (simp [*])
@[simp] theorem State.syncLive_frame (s : State) (r : SyncReq) (id i : Nat) (o : SyncObj) :
    (State.syncLive s r id i o).tiles = s.tiles ∧ (State.syncLive s r id i o).fuses = s.fuses ∧ (State.syncLive s 
    r id i o).pending = s.pending ∧ (State.syncLive s r id i o).cfg = s.cfg ∧ (State.syncLive s r id i o).mgmt = 
    s.mgmt ∧ (State.syncLive s r id i o).pkg = s.pkg ∧ (State.syncLive s r id i o).sec = s.sec ∧ (State.syncLive s 
    r id i o).bw = s.bw ∧ (State.syncLive s r id i o).time = s.time := by
  simp only [State.syncLive]; (repeat' split) <;> (simp [*])
@[simp] theorem State.syncHome_frame (s : State) (r : SyncReq) (id : Nat) :
    (State.syncHome s r id).tiles = s.tiles ∧ (State.syncHome s r id).fuses = s.fuses ∧ (State.syncHome s r 
    id).pending = s.pending ∧ (State.syncHome s r id).cfg = s.cfg ∧ (State.syncHome s r id).mgmt = s.mgmt ∧ 
    (State.syncHome s r id).pkg = s.pkg ∧ (State.syncHome s r id).sec = s.sec ∧ (State.syncHome s r id).bw = s.bw 
    ∧ (State.syncHome s r id).time = s.time := by
  simp [State.syncHome]
@[simp] theorem State.syncApply_frame (s : State) (r : SyncReq) :
    (State.syncApply s r).tiles = s.tiles ∧ (State.syncApply s r).fuses = s.fuses ∧ (State.syncApply s r).pending 
    = s.pending ∧ (State.syncApply s r).cfg = s.cfg ∧ (State.syncApply s r).mgmt = s.mgmt ∧ (State.syncApply s 
    r).pkg = s.pkg ∧ (State.syncApply s r).sec = s.sec ∧ (State.syncApply s r).bw = s.bw ∧ (State.syncApply s 
    r).time = s.time := by
  simp [State.syncApply]
@[simp] theorem State.serveSync_frame (s : State) (id : Nat) :
    (State.serveSync s id).tiles = s.tiles ∧ (State.serveSync s id).fuses = s.fuses ∧ (State.serveSync s 
    id).pending = s.pending ∧ (State.serveSync s id).cfg = s.cfg ∧ (State.serveSync s id).mgmt = s.mgmt ∧ 
    (State.serveSync s id).pkg = s.pkg ∧ (State.serveSync s id).sec = s.sec ∧ (State.serveSync s id).bw = s.bw ∧ 
    (State.serveSync s id).time = s.time := by
  simp [State.serveSync, foldl_tiles, foldl_fuses, foldl_pending, foldl_cfg, foldl_mgmt, foldl_pkg, foldl_sec, foldl_bw, foldl_time, foldlP_tiles, foldlP_fuses, foldlP_pending, foldlP_cfg, foldlP_mgmt, foldlP_pkg, foldlP_sec, foldlP_bw, foldlP_time, foldlW_tiles, foldlW_fuses, foldlW_pending, foldlW_cfg, foldlW_mgmt, foldlW_pkg, foldlW_sec, foldlW_bw, foldlW_time]
@[simp] theorem State.initNext_frame (s : State) (id o : Nat) :
    (State.initNext s id o).tiles = s.tiles ∧ (State.initNext s id o).fuses = s.fuses ∧ (State.initNext s id 
    o).pending = s.pending ∧ (State.initNext s id o).cfg = s.cfg ∧ (State.initNext s id o).mgmt = s.mgmt ∧ 
    (State.initNext s id o).pkg = s.pkg ∧ (State.initNext s id o).sec = s.sec ∧ (State.initNext s id o).bw = s.bw 
    ∧ (State.initNext s id o).time = s.time := by
  simp only [State.initNext]; (repeat' split) <;> (simp [*])
@[simp] theorem State.syncSend_frame (s : State) (r : SyncReq) :
    (s.syncSend r).1.tiles = s.tiles ∧ (s.syncSend r).1.fuses = s.fuses ∧ (s.syncSend r).1.pending = s.pending ∧ 
    (s.syncSend r).1.cfg = s.cfg ∧ (s.syncSend r).1.mgmt = s.mgmt ∧ (s.syncSend r).1.pkg = s.pkg ∧ (s.syncSend 
    r).1.sec = s.sec ∧ (s.syncSend r).1.bw = s.bw ∧ (s.syncSend r).1.time = s.time := by
  unfold State.syncSend
  dsimp only
  split
  · simp
  · split <;> simp

@[simp] theorem State.syncStart_frame (s : State) (t : Nat) (e : QEntry) :
    (State.syncStart s t e).fuses = s.fuses ∧ (State.syncStart s t e).pending = s.pending ∧ (State.syncStart s t 
    e).cfg = s.cfg ∧ (State.syncStart s t e).mgmt = s.mgmt ∧ (State.syncStart s t e).pkg = s.pkg ∧ 
    (State.syncStart s t e).sec = s.sec ∧ (State.syncStart s t e).bw = s.bw ∧ (State.syncStart s t e).time = 
    s.time := by
  simp only [State.syncStart]; (repeat' split) <;> (simp [*])
@[simp] theorem State.syncBack_frame (s : State) (t : Nat) (round : Option Nat) :
    (State.syncBack s t round).fuses = s.fuses ∧ (State.syncBack s t round).pending = s.pending ∧ (State.syncBack 
    s t round).cfg = s.cfg ∧ (State.syncBack s t round).mgmt = s.mgmt ∧ (State.syncBack s t round).pkg = s.pkg ∧ 
    (State.syncBack s t round).sec = s.sec ∧ (State.syncBack s t round).bw = s.bw ∧ (State.syncBack s t 
    round).time = s.time := by
  simp [State.syncBack]
@[simp] theorem State.syncEnd_frame (s : State) (t o v : Nat) :
    (State.syncEnd s t o v).fuses = s.fuses ∧ (State.syncEnd s t o v).pending = s.pending ∧ (State.syncEnd s t o 
    v).cfg = s.cfg ∧ (State.syncEnd s t o v).mgmt = s.mgmt ∧ (State.syncEnd s t o v).pkg = s.pkg ∧ (State.syncEnd 
    s t o v).sec = s.sec ∧ (State.syncEnd s t o v).bw = s.bw ∧ (State.syncEnd s t o v).time = s.time := by
  simp only [State.syncEnd]; (repeat' split) <;> (simp [*])
@[simp] theorem State.syncYield_frame (s : State) (t : Nat) :
    (State.syncYield s t).fuses = s.fuses ∧ (State.syncYield s t).pending = s.pending ∧ (State.syncYield s t).cfg 
    = s.cfg ∧ (State.syncYield s t).mgmt = s.mgmt ∧ (State.syncYield s t).pkg = s.pkg ∧ (State.syncYield s t).sec 
    = s.sec ∧ (State.syncYield s t).bw = s.bw ∧ (State.syncYield s t).time = s.time := by
  ((repeat' apply And.intro) <;> (simp only [State.syncYield]; (repeat' (first | split | (with_reducible refine (foldl_tiles _ _ _ (fun _ _ => ?_)).trans ?_) | (with_reducible refine (foldl_fuses _ _ _ (fun _ _ => ?_)).trans ?_) | (with_reducible refine (foldl_pending _ _ _ (fun _ _ => ?_)).trans ?_) | (with_reducible refine (foldl_cfg _ _ _ (fun _ _ => ?_)).trans ?_) | (with_reducible refine (foldl_mgmt _ _ _ (fun _ _ => ?_)).trans ?_) | (with_reducible refine (foldl_pkg _ _ _ (fun _ _ => ?_)).trans ?_) | (with_reducible refine (foldl_sec _ _ _ (fun _ _ => ?_)).trans ?_) | (with_reducible refine (foldl_bw _ _ _ (fun _ _ => ?_)).trans ?_) | (with_reducible refine (foldl_time _ _ _ (fun _ _ => ?_)).trans ?_) | (with_reducible refine (foldlP_tiles _ _ _ (fun _ _ => ?_)).trans ?_) | (with_reducible refine (foldlP_fuses _ _ _ (fun _ _ => ?_)).trans ?_) | (with_reducible refine (foldlP_pending _ _ _ (fun _ _ => ?_)).trans ?_) | (with_reducible refine (foldlP_cfg _ _ _ (fun _ _ => ?_)).trans ?_) | (with_reducible refine (foldlP_mgmt _ _ _ (fun _ _ => ?_)).trans ?_) | (with_reducible refine (foldlP_pkg _ _ _ (fun _ _ => ?_)).trans ?_) | (with_reducible refine (foldlP_sec _ _ _ (fun _ _ => ?_)).trans ?_) | (with_reducible refine (foldlP_bw _ _ _ (fun _ _ => ?_)).trans ?_) | (with_reducible refine (foldlP_time _ _ _ (fun _ _ => ?_)).trans ?_) | (with_reducible refine (foldlW_tiles _ _ _ (fun _ _ => ?_)).trans ?_) | (with_reducible refine (foldlW_fuses _ _ _ (fun _ _ => ?_)).trans ?_) | (with_reducible refine (foldlW_pending _ _ _ (fun _ _ => ?_)).trans ?_) | (with_reducible refine (foldlW_cfg _ _ _ (fun _ _ => ?_)).trans ?_) | (with_reducible refine (foldlW_mgmt _ _ _ (fun _ _ => ?_)).trans ?_) | (with_reducible refine (foldlW_pkg _ _ _ (fun _ _ => ?_)).trans ?_) | (with_reducible refine (foldlW_sec _ _ _ (fun _ _ => ?_)).trans ?_) | (with_reducible refine (foldlW_bw _ _ _ (fun _ _ => ?_)).trans ?_) | (with_reducible refine (foldlW_time _ _ _ (fun _ _ => ?_)).trans ?_))) <;> (simp [*])))
@[simp] theorem State.syncTimeout_frame (s : State) (t : Nat) :
    (State.syncTimeout s t).fuses = s.fuses ∧ (State.syncTimeout s t).pending = s.pending ∧ (State.syncTimeout s 
    t).cfg = s.cfg ∧ (State.syncTimeout s t).mgmt = s.mgmt ∧ (State.syncTimeout s t).pkg = s.pkg ∧ 
    (State.syncTimeout s t).sec = s.sec ∧ (State.syncTimeout s t).bw = s.bw ∧ (State.syncTimeout s t).time = 
    s.time := by
  simp only [State.syncTimeout]; (repeat' split) <;> (simp [*])
@[simp] theorem State.abandonStream_frame (s : State) (k : Nat) :
    (State.abandonStream s k).tiles = s.tiles ∧ (State.abandonStream s k).fuses = s.fuses ∧ (State.abandonStream s 
    k).pending = s.pending ∧ (State.abandonStream s k).cfg = s.cfg ∧ (State.abandonStream s k).mgmt = s.mgmt ∧ 
    (State.abandonStream s k).pkg = s.pkg ∧ (State.abandonStream s k).sec = s.sec ∧ (State.abandonStream s k).bw = 
    s.bw ∧ (State.abandonStream s k).time = s.time := by
  simp [State.abandonStream]
@[simp] theorem State.freeJobObjs_frame (s : State) (j : Nat) :
    (State.freeJobObjs s j).tiles = s.tiles ∧ (State.freeJobObjs s j).fuses = s.fuses ∧ (State.freeJobObjs s 
    j).pending = s.pending ∧ (State.freeJobObjs s j).cfg = s.cfg ∧ (State.freeJobObjs s j).mgmt = s.mgmt ∧ 
    (State.freeJobObjs s j).pkg = s.pkg ∧ (State.freeJobObjs s j).sec = s.sec ∧ (State.freeJobObjs s j).bw = s.bw 
    ∧ (State.freeJobObjs s j).time = s.time := by
  simp [State.freeJobObjs]

/-! ### `Sequencer` -/

@[simp] theorem State.endReport_frame (s : State) (t : Nat) :
    (State.endReport s t).fuses = s.fuses ∧ (State.endReport s t).pending = s.pending ∧ (State.endReport s t).cfg 
    = s.cfg ∧ (State.endReport s t).mgmt = s.mgmt ∧ (State.endReport s t).pkg = s.pkg ∧ (State.endReport s t).sec 
    = s.sec ∧ (State.endReport s t).bw = s.bw ∧ (State.endReport s t).time = s.time := by
  simp only [State.endReport]; (repeat' split) <;> (simp [*])

/-! ### `Issue` -/

@[simp] theorem State.issueTrace_frame (before s : State) (t eng : Nat) (e : QEntry) :
    (State.issueTrace before s t eng e).tiles = s.tiles ∧ (State.issueTrace before s t eng e).fuses = s.fuses ∧ 
    (State.issueTrace before s t eng e).pending = s.pending ∧ (State.issueTrace before s t eng e).cfg = s.cfg ∧ 
    (State.issueTrace before s t eng e).mgmt = s.mgmt ∧ (State.issueTrace before s t eng e).pkg = s.pkg ∧ 
    (State.issueTrace before s t eng e).sec = s.sec ∧ (State.issueTrace before s t eng e).bw = s.bw ∧ 
    (State.issueTrace before s t eng e).time = s.time := by
  simp [State.issueTrace]
@[simp] theorem State.issue_frame (s : State) (t eng : Nat) (legal : Bool) (mk : Tile → QEntry) :
    (State.issue s t eng legal mk).fuses = s.fuses ∧ (State.issue s t eng legal mk).pending = s.pending ∧ 
    (State.issue s t eng legal mk).cfg = s.cfg ∧ (State.issue s t eng legal mk).mgmt = s.mgmt ∧ (State.issue s t 
    eng legal mk).pkg = s.pkg ∧ (State.issue s t eng legal mk).sec = s.sec ∧ (State.issue s t eng legal mk).bw = 
    s.bw ∧ (State.issue s t eng legal mk).time = s.time := by
  simp [State.issue]
@[simp] theorem State.stallResume_frame (s : State) (t : Nat) :
    (State.stallResume s t).fuses = s.fuses ∧ (State.stallResume s t).pending = s.pending ∧ (State.stallResume s 
    t).cfg = s.cfg ∧ (State.stallResume s t).mgmt = s.mgmt ∧ (State.stallResume s t).pkg = s.pkg ∧ 
    (State.stallResume s t).sec = s.sec ∧ (State.stallResume s t).bw = s.bw ∧ (State.stallResume s t).time = 
    s.time := by
  simp only [State.stallResume]; (repeat' split) <;> (simp [*])
@[simp] theorem State.syncGo_frame (s : State) (t : Nat) :
    (State.syncGo s t).fuses = s.fuses ∧ (State.syncGo s t).pending = s.pending ∧ (State.syncGo s t).cfg = s.cfg ∧ 
    (State.syncGo s t).mgmt = s.mgmt ∧ (State.syncGo s t).pkg = s.pkg ∧ (State.syncGo s t).sec = s.sec ∧ 
    (State.syncGo s t).bw = s.bw ∧ (State.syncGo s t).time = s.time := by
  simp only [State.syncGo]; (repeat' split) <;> (simp [*])
@[simp] theorem State.complete_frame (s : State) (t eng i : Nat) :
    (State.complete s t eng i).fuses = s.fuses ∧ (State.complete s t eng i).pending = s.pending ∧ (State.complete 
    s t eng i).cfg = s.cfg ∧ (State.complete s t eng i).mgmt = s.mgmt ∧ (State.complete s t eng i).pkg = s.pkg ∧ 
    (State.complete s t eng i).sec = s.sec ∧ (State.complete s t eng i).bw = s.bw ∧ (State.complete s t eng 
    i).time = s.time := by
  simp only [State.complete]; (repeat' split) <;> (simp [*])
@[simp] theorem State.bellRowStep_frame (s : State) (t eng : Nat) :
    (State.bellRowStep s t eng).fuses = s.fuses ∧ (State.bellRowStep s t eng).pending = s.pending ∧ 
    (State.bellRowStep s t eng).cfg = s.cfg ∧ (State.bellRowStep s t eng).mgmt = s.mgmt ∧ (State.bellRowStep s t 
    eng).pkg = s.pkg ∧ (State.bellRowStep s t eng).sec = s.sec ∧ (State.bellRowStep s t eng).bw = s.bw ∧ 
    (State.bellRowStep s t eng).time = s.time := by
  simp only [State.bellRowStep]; (repeat' split) <;> (simp [*])
@[simp] theorem State.retry_frame (s : State) (t eng i : Nat) (e : QEntry) :
    (State.retry s t eng i e).fuses = s.fuses ∧ (State.retry s t eng i e).pending = s.pending ∧ (State.retry s t 
    eng i e).cfg = s.cfg ∧ (State.retry s t eng i e).mgmt = s.mgmt ∧ (State.retry s t eng i e).pkg = s.pkg ∧ 
    (State.retry s t eng i e).sec = s.sec ∧ (State.retry s t eng i e).bw = s.bw ∧ (State.retry s t eng i e).time = 
    s.time := by
  simp only [State.retry]; (repeat' split) <;> (simp [*])

/-! ### `Keywork` -/

@[simp] theorem State.onKw_frame (s : State) (f : Kw → Kw) :
    (State.onKw s f).tiles = s.tiles ∧ (State.onKw s f).fuses = s.fuses ∧ (State.onKw s f).pending = s.pending ∧ 
    (State.onKw s f).cfg = s.cfg ∧ (State.onKw s f).mgmt = s.mgmt ∧ (State.onKw s f).pkg = s.pkg ∧ (State.onKw s 
    f).sec = s.sec ∧ (State.onKw s f).bw = s.bw ∧ (State.onKw s f).time = s.time := by
  simp [State.onKw]
@[simp] theorem State.setObject_frame (s : State) (i : Nat) (o : Option Obj) :
    (State.setObject s i o).tiles = s.tiles ∧ (State.setObject s i o).fuses = s.fuses ∧ (State.setObject s i 
    o).pending = s.pending ∧ (State.setObject s i o).cfg = s.cfg ∧ (State.setObject s i o).mgmt = s.mgmt ∧ 
    (State.setObject s i o).pkg = s.pkg ∧ (State.setObject s i o).sec = s.sec ∧ (State.setObject s i o).bw = s.bw 
    ∧ (State.setObject s i o).time = s.time := by
  simp [State.setObject]
@[simp] theorem State.setTileSt_frame (s : State) (t : Nat) (x : TileSt) :
    (State.setTileSt s t x).fuses = s.fuses ∧ (State.setTileSt s t x).pending = s.pending ∧ (State.setTileSt s t 
    x).cfg = s.cfg ∧ (State.setTileSt s t x).mgmt = s.mgmt ∧ (State.setTileSt s t x).pkg = s.pkg ∧ 
    (State.setTileSt s t x).sec = s.sec ∧ (State.setTileSt s t x).bw = s.bw ∧ (State.setTileSt s t x).time = 
    s.time := by
  simp [State.setTileSt]
@[simp] theorem State.setCore_frame (s : State) (c : Nat) (e : CoreEnt) :
    (State.setCore s c e).tiles = s.tiles ∧ (State.setCore s c e).fuses = s.fuses ∧ (State.setCore s c e).pending 
    = s.pending ∧ (State.setCore s c e).cfg = s.cfg ∧ (State.setCore s c e).mgmt = s.mgmt ∧ (State.setCore s c 
    e).pkg = s.pkg ∧ (State.setCore s c e).sec = s.sec ∧ (State.setCore s c e).bw = s.bw ∧ (State.setCore s c 
    e).time = s.time := by
  simp [State.setCore]
@[simp] theorem State.lateEvent_frame (s : State) (e : Ev) :
    (State.lateEvent s e).tiles = s.tiles ∧ (State.lateEvent s e).fuses = s.fuses ∧ (State.lateEvent s e).pending 
    = s.pending ∧ (State.lateEvent s e).cfg = s.cfg ∧ (State.lateEvent s e).mgmt = s.mgmt ∧ (State.lateEvent s 
    e).pkg = s.pkg ∧ (State.lateEvent s e).sec = s.sec ∧ (State.lateEvent s e).bw = s.bw ∧ (State.lateEvent s 
    e).time = s.time := by
  simp [State.lateEvent]
@[simp] theorem State.initStep_frame (s : State) (src n : Nat) :
    (State.initStep s src n).1.tiles = s.tiles ∧ (State.initStep s src n).1.fuses = s.fuses ∧ (State.initStep s 
    src n).1.pending = s.pending ∧ (State.initStep s src n).1.cfg = s.cfg ∧ (State.initStep s src n).1.mgmt = 
    s.mgmt ∧ (State.initStep s src n).1.pkg = s.pkg ∧ (State.initStep s src n).1.sec = s.sec ∧ (State.initStep s 
    src n).1.bw = s.bw ∧ (State.initStep s src n).1.time = s.time := by
  simp only [State.initStep]; (repeat' split) <;> (simp [*])
@[simp] theorem State.initNeed_frame (s : State) (src n : Nat) :
    (s.initNeed src n).1.tiles = s.tiles ∧ (s.initNeed src n).1.fuses = s.fuses ∧ (s.initNeed src n).1.pending = 
    s.pending ∧ (s.initNeed src n).1.cfg = s.cfg ∧ (s.initNeed src n).1.mgmt = s.mgmt ∧ (s.initNeed src n).1.pkg = 
    s.pkg ∧ (s.initNeed src n).1.sec = s.sec ∧ (s.initNeed src n).1.bw = s.bw ∧ (s.initNeed src n).1.time = s.time := by
  induction n generalizing s src with
  | zero => simp [State.initNeed]
  | succ n ih =>
    have h := State.initStep_frame s src granuleBytes
    simp only [State.initNeed]
    generalize s.initStep src granuleBytes = r at h ⊢
    obtain ⟨s1, p⟩ := r
    cases p
    all_goals simp only [ih]
    all_goals simpa using h

@[simp] theorem State.memGranule_frame (s : State) (a : Nat) :
    (State.memGranule s a).tiles = s.tiles ∧ (State.memGranule s a).fuses = s.fuses ∧ (State.memGranule s 
    a).pending = s.pending ∧ (State.memGranule s a).cfg = s.cfg ∧ (State.memGranule s a).mgmt = s.mgmt ∧ 
    (State.memGranule s a).pkg = s.pkg ∧ (State.memGranule s a).sec = s.sec ∧ (State.memGranule s a).bw = s.bw ∧ 
    (State.memGranule s a).time = s.time := by
  ((repeat' apply And.intro) <;> (simp only [State.memGranule]; (repeat' (first | split | (with_reducible refine (foldl_tiles _ _ _ (fun _ _ => ?_)).trans ?_) | (with_reducible refine (foldl_fuses _ _ _ (fun _ _ => ?_)).trans ?_) | (with_reducible refine (foldl_pending _ _ _ (fun _ _ => ?_)).trans ?_) | (with_reducible refine (foldl_cfg _ _ _ (fun _ _ => ?_)).trans ?_) | (with_reducible refine (foldl_mgmt _ _ _ (fun _ _ => ?_)).trans ?_) | (with_reducible refine (foldl_pkg _ _ _ (fun _ _ => ?_)).trans ?_) | (with_reducible refine (foldl_sec _ _ _ (fun _ _ => ?_)).trans ?_) | (with_reducible refine (foldl_bw _ _ _ (fun _ _ => ?_)).trans ?_) | (with_reducible refine (foldl_time _ _ _ (fun _ _ => ?_)).trans ?_) | (with_reducible refine (foldlP_tiles _ _ _ (fun _ _ => ?_)).trans ?_) | (with_reducible refine (foldlP_fuses _ _ _ (fun _ _ => ?_)).trans ?_) | (with_reducible refine (foldlP_pending _ _ _ (fun _ _ => ?_)).trans ?_) | (with_reducible refine (foldlP_cfg _ _ _ (fun _ _ => ?_)).trans ?_) | (with_reducible refine (foldlP_mgmt _ _ _ (fun _ _ => ?_)).trans ?_) | (with_reducible refine (foldlP_pkg _ _ _ (fun _ _ => ?_)).trans ?_) | (with_reducible refine (foldlP_sec _ _ _ (fun _ _ => ?_)).trans ?_) | (with_reducible refine (foldlP_bw _ _ _ (fun _ _ => ?_)).trans ?_) | (with_reducible refine (foldlP_time _ _ _ (fun _ _ => ?_)).trans ?_) | (with_reducible refine (foldlW_tiles _ _ _ (fun _ _ => ?_)).trans ?_) | (with_reducible refine (foldlW_fuses _ _ _ (fun _ _ => ?_)).trans ?_) | (with_reducible refine (foldlW_pending _ _ _ (fun _ _ => ?_)).trans ?_) | (with_reducible refine (foldlW_cfg _ _ _ (fun _ _ => ?_)).trans ?_) | (with_reducible refine (foldlW_mgmt _ _ _ (fun _ _ => ?_)).trans ?_) | (with_reducible refine (foldlW_pkg _ _ _ (fun _ _ => ?_)).trans ?_) | (with_reducible refine (foldlW_sec _ _ _ (fun _ _ => ?_)).trans ?_) | (with_reducible refine (foldlW_bw _ _ _ (fun _ _ => ?_)).trans ?_) | (with_reducible refine (foldlW_time _ _ _ (fun _ _ => ?_)).trans ?_))) <;> (simp [*])))
@[simp] theorem State.copyInit_frame (s : State) (src dst : Nat) :
    (State.copyInit s src dst).tiles = s.tiles ∧ (State.copyInit s src dst).fuses = s.fuses ∧ (State.copyInit s 
    src dst).pending = s.pending ∧ (State.copyInit s src dst).cfg = s.cfg ∧ (State.copyInit s src dst).mgmt = 
    s.mgmt ∧ (State.copyInit s src dst).pkg = s.pkg ∧ (State.copyInit s src dst).sec = s.sec ∧ (State.copyInit s 
    src dst).bw = s.bw ∧ (State.copyInit s src dst).time = s.time := by
  simp [State.copyInit]
@[simp] theorem State.copyInitAll_frame (s : State) (src dst : Nat) (z0 : Nat) :
    (State.copyInitAll s src dst z0).tiles = s.tiles ∧ (State.copyInitAll s src dst z0).fuses = s.fuses ∧ 
    (State.copyInitAll s src dst z0).pending = s.pending ∧ (State.copyInitAll s src dst z0).cfg = s.cfg ∧ 
    (State.copyInitAll s src dst z0).mgmt = s.mgmt ∧ (State.copyInitAll s src dst z0).pkg = s.pkg ∧ 
    (State.copyInitAll s src dst z0).sec = s.sec ∧ (State.copyInitAll s src dst z0).bw = s.bw ∧ (State.copyInitAll 
    s src dst z0).time = s.time := by
  induction z0 generalizing s src dst <;> first
  | (simp [State.copyInitAll]; done)
  | (simp [State.copyInitAll, *]; done)

@[simp] theorem State.initFails_frame (s : State) (z0 : Stop) :
    (State.initFails s z0).1.tiles = s.tiles ∧ (State.initFails s z0).1.fuses = s.fuses ∧ (State.initFails s 
    z0).1.pending = s.pending ∧ (State.initFails s z0).1.cfg = s.cfg ∧ (State.initFails s z0).1.mgmt = s.mgmt ∧ 
    (State.initFails s z0).1.pkg = s.pkg ∧ (State.initFails s z0).1.sec = s.sec ∧ (State.initFails s z0).1.bw = 
    s.bw ∧ (State.initFails s z0).1.time = s.time := by
  induction z0 generalizing s <;> (simp [State.initFails])
@[simp] theorem State.activate_frame (s : State) (i : Nat) (e : ObjEntry) :
    (State.activate s i e).1.tiles = s.tiles ∧ (State.activate s i e).1.fuses = s.fuses ∧ (State.activate s i 
    e).1.pending = s.pending ∧ (State.activate s i e).1.cfg = s.cfg ∧ (State.activate s i e).1.mgmt = s.mgmt ∧ 
    (State.activate s i e).1.pkg = s.pkg ∧ (State.activate s i e).1.sec = s.sec ∧ (State.activate s i e).1.bw = 
    s.bw ∧ (State.activate s i e).1.time = s.time := by
  have h := State.initNeed_frame s e.initSrc e.granules
  unfold State.activate
  generalize s.initNeed e.initSrc e.granules = r at h ⊢
  obtain ⟨s1, p⟩ := r
  dsimp only at h ⊢
  cases p <;> (repeat' split)
  all_goals try (rename_i hx; simp only [Prod.mk.injEq, reduceCtorEq, and_true, and_false, Piece.stop.injEq, Piece.ok.injEq] at hx)
  all_goals try (rename_i hx _; simp only [Prod.mk.injEq, reduceCtorEq, and_true, and_false, Piece.stop.injEq, Piece.ok.injEq] at hx)
  all_goals try (repeat (rename _ ∧ _ = _ => hx; cases hx))
  all_goals try subst_vars
  all_goals simp [h]

@[simp] theorem State.readEntry_frame (s : State) (i : Nat) (ws : List Word) :
    (State.readEntry s i ws).tiles = s.tiles ∧ (State.readEntry s i ws).fuses = s.fuses ∧ (State.readEntry s i 
    ws).pending = s.pending ∧ (State.readEntry s i ws).cfg = s.cfg ∧ (State.readEntry s i ws).mgmt = s.mgmt ∧ 
    (State.readEntry s i ws).pkg = s.pkg ∧ (State.readEntry s i ws).sec = s.sec ∧ (State.readEntry s i ws).bw = 
    s.bw ∧ (State.readEntry s i ws).time = s.time := by
  simp [State.readEntry]
@[simp] theorem State.dropImages_frame (s : State) (h : Nat) :
    (State.dropImages s h).fuses = s.fuses ∧ (State.dropImages s h).pending = s.pending ∧ (State.dropImages s 
    h).cfg = s.cfg ∧ (State.dropImages s h).mgmt = s.mgmt ∧ (State.dropImages s h).pkg = s.pkg ∧ (State.dropImages 
    s h).sec = s.sec ∧ (State.dropImages s h).bw = s.bw ∧ (State.dropImages s h).time = s.time := by
  simp [State.dropImages]
@[simp] theorem State.invalidateObj_frame (s : State) (o : Obj) :
    (State.invalidateObj s o).tiles = s.tiles ∧ (State.invalidateObj s o).fuses = s.fuses ∧ (State.invalidateObj s 
    o).pending = s.pending ∧ (State.invalidateObj s o).cfg = s.cfg ∧ (State.invalidateObj s o).mgmt = s.mgmt ∧ 
    (State.invalidateObj s o).pkg = s.pkg ∧ (State.invalidateObj s o).sec = s.sec ∧ (State.invalidateObj s o).bw = 
    s.bw ∧ (State.invalidateObj s o).time = s.time := by
  simp [State.invalidateObj]
@[simp] theorem State.abandonMigration_frame (s : State) (i : Nat) (o : Obj) :
    (State.abandonMigration s i o).tiles = s.tiles ∧ (State.abandonMigration s i o).fuses = s.fuses ∧ 
    (State.abandonMigration s i o).pending = s.pending ∧ (State.abandonMigration s i o).cfg = s.cfg ∧ 
    (State.abandonMigration s i o).mgmt = s.mgmt ∧ (State.abandonMigration s i o).pkg = s.pkg ∧ 
    (State.abandonMigration s i o).sec = s.sec ∧ (State.abandonMigration s i o).bw = s.bw ∧ 
    (State.abandonMigration s i o).time = s.time := by
  simp only [State.abandonMigration]; (repeat' split) <;> (simp [*])
@[simp] theorem State.releaseStep_frame (s : State) (i : Nat) :
    (State.releaseStep s i).fuses = s.fuses ∧ (State.releaseStep s i).pending = s.pending ∧ (State.releaseStep s 
    i).cfg = s.cfg ∧ (State.releaseStep s i).mgmt = s.mgmt ∧ (State.releaseStep s i).pkg = s.pkg ∧ 
    (State.releaseStep s i).sec = s.sec ∧ (State.releaseStep s i).bw = s.bw ∧ (State.releaseStep s i).time = 
    s.time := by
  simp only [State.releaseStep]; (repeat' split) <;> (simp [*])
@[simp] theorem State.release_frame (s : State) (i : Nat) :
    (State.release s i).fuses = s.fuses ∧ (State.release s i).pending = s.pending ∧ (State.release s i).cfg = 
    s.cfg ∧ (State.release s i).mgmt = s.mgmt ∧ (State.release s i).pkg = s.pkg ∧ (State.release s i).sec = s.sec 
    ∧ (State.release s i).bw = s.bw ∧ (State.release s i).time = s.time := by
  simp only [State.release]; (repeat' split) <;> (simp [*])
@[simp] theorem State.releaseJob_frame (s : State) (j : Nat) :
    (State.releaseJob s j).fuses = s.fuses ∧ (State.releaseJob s j).pending = s.pending ∧ (State.releaseJob s 
    j).cfg = s.cfg ∧ (State.releaseJob s j).mgmt = s.mgmt ∧ (State.releaseJob s j).pkg = s.pkg ∧ (State.releaseJob 
    s j).sec = s.sec ∧ (State.releaseJob s j).bw = s.bw ∧ (State.releaseJob s j).time = s.time := by
  ((repeat' apply And.intro) <;> (simp only [State.releaseJob]; (repeat' (first | split | (with_reducible refine (foldl_tiles _ _ _ (fun _ _ => ?_)).trans ?_) | (with_reducible refine (foldl_fuses _ _ _ (fun _ _ => ?_)).trans ?_) | (with_reducible refine (foldl_pending _ _ _ (fun _ _ => ?_)).trans ?_) | (with_reducible refine (foldl_cfg _ _ _ (fun _ _ => ?_)).trans ?_) | (with_reducible refine (foldl_mgmt _ _ _ (fun _ _ => ?_)).trans ?_) | (with_reducible refine (foldl_pkg _ _ _ (fun _ _ => ?_)).trans ?_) | (with_reducible refine (foldl_sec _ _ _ (fun _ _ => ?_)).trans ?_) | (with_reducible refine (foldl_bw _ _ _ (fun _ _ => ?_)).trans ?_) | (with_reducible refine (foldl_time _ _ _ (fun _ _ => ?_)).trans ?_) | (with_reducible refine (foldlP_tiles _ _ _ (fun _ _ => ?_)).trans ?_) | (with_reducible refine (foldlP_fuses _ _ _ (fun _ _ => ?_)).trans ?_) | (with_reducible refine (foldlP_pending _ _ _ (fun _ _ => ?_)).trans ?_) | (with_reducible refine (foldlP_cfg _ _ _ (fun _ _ => ?_)).trans ?_) | (with_reducible refine (foldlP_mgmt _ _ _ (fun _ _ => ?_)).trans ?_) | (with_reducible refine (foldlP_pkg _ _ _ (fun _ _ => ?_)).trans ?_) | (with_reducible refine (foldlP_sec _ _ _ (fun _ _ => ?_)).trans ?_) | (with_reducible refine (foldlP_bw _ _ _ (fun _ _ => ?_)).trans ?_) | (with_reducible refine (foldlP_time _ _ _ (fun _ _ => ?_)).trans ?_) | (with_reducible refine (foldlW_tiles _ _ _ (fun _ _ => ?_)).trans ?_) | (with_reducible refine (foldlW_fuses _ _ _ (fun _ _ => ?_)).trans ?_) | (with_reducible refine (foldlW_pending _ _ _ (fun _ _ => ?_)).trans ?_) | (with_reducible refine (foldlW_cfg _ _ _ (fun _ _ => ?_)).trans ?_) | (with_reducible refine (foldlW_mgmt _ _ _ (fun _ _ => ?_)).trans ?_) | (with_reducible refine (foldlW_pkg _ _ _ (fun _ _ => ?_)).trans ?_) | (with_reducible refine (foldlW_sec _ _ _ (fun _ _ => ?_)).trans ?_) | (with_reducible refine (foldlW_bw _ _ _ (fun _ _ => ?_)).trans ?_) | (with_reducible refine (foldlW_time _ _ _ (fun _ _ => ?_)).trans ?_))) <;> (simp [*])))
@[simp] theorem State.objFreed_frame (s : State) (i : Nat) :
    (State.objFreed s i).fuses = s.fuses ∧ (State.objFreed s i).pending = s.pending ∧ (State.objFreed s i).cfg = 
    s.cfg ∧ (State.objFreed s i).mgmt = s.mgmt ∧ (State.objFreed s i).sec = s.sec ∧ (State.objFreed s i).bw = s.bw 
    ∧ (State.objFreed s i).time = s.time := by
  simp only [State.objFreed]; (repeat' split) <;> (simp [*])
@[simp] theorem State.startMigration_frame (s : State) (i : Nat) (o : Obj) (target : Nat) (l : List Nat) :
    (State.startMigration s i o target l).tiles = s.tiles ∧ (State.startMigration s i o target l).fuses = s.fuses 
    ∧ (State.startMigration s i o target l).pending = s.pending ∧ (State.startMigration s i o target l).cfg = 
    s.cfg ∧ (State.startMigration s i o target l).mgmt = s.mgmt ∧ (State.startMigration s i o target l).pkg = 
    s.pkg ∧ (State.startMigration s i o target l).sec = s.sec ∧ (State.startMigration s i o target l).bw = s.bw ∧ 
    (State.startMigration s i o target l).time = s.time := by
  simp only [State.startMigration]; (repeat' split) <;> (simp [*])
@[simp] theorem State.applyHint_frame (s : State) (i : Nat) (h : Nat × Nat) :
    (State.applyHint s i h).tiles = s.tiles ∧ (State.applyHint s i h).fuses = s.fuses ∧ (State.applyHint s i 
    h).pending = s.pending ∧ (State.applyHint s i h).cfg = s.cfg ∧ (State.applyHint s i h).mgmt = s.mgmt ∧ 
    (State.applyHint s i h).pkg = s.pkg ∧ (State.applyHint s i h).sec = s.sec ∧ (State.applyHint s i h).bw = s.bw 
    ∧ (State.applyHint s i h).time = s.time := by
  simp only [State.applyHint]; (repeat' split) <;> (simp [*])
@[simp] theorem State.applyHints_frame (s : State) (i : Nat) :
    (State.applyHints s i).tiles = s.tiles ∧ (State.applyHints s i).fuses = s.fuses ∧ (State.applyHints s 
    i).pending = s.pending ∧ (State.applyHints s i).cfg = s.cfg ∧ (State.applyHints s i).mgmt = s.mgmt ∧ 
    (State.applyHints s i).pkg = s.pkg ∧ (State.applyHints s i).sec = s.sec ∧ (State.applyHints s i).bw = s.bw ∧ 
    (State.applyHints s i).time = s.time := by
  ((repeat' apply And.intro) <;> (simp only [State.applyHints]; (repeat' (first | split | (with_reducible refine (foldl_tiles _ _ _ (fun _ _ => ?_)).trans ?_) | (with_reducible refine (foldl_fuses _ _ _ (fun _ _ => ?_)).trans ?_) | (with_reducible refine (foldl_pending _ _ _ (fun _ _ => ?_)).trans ?_) | (with_reducible refine (foldl_cfg _ _ _ (fun _ _ => ?_)).trans ?_) | (with_reducible refine (foldl_mgmt _ _ _ (fun _ _ => ?_)).trans ?_) | (with_reducible refine (foldl_pkg _ _ _ (fun _ _ => ?_)).trans ?_) | (with_reducible refine (foldl_sec _ _ _ (fun _ _ => ?_)).trans ?_) | (with_reducible refine (foldl_bw _ _ _ (fun _ _ => ?_)).trans ?_) | (with_reducible refine (foldl_time _ _ _ (fun _ _ => ?_)).trans ?_) | (with_reducible refine (foldlP_tiles _ _ _ (fun _ _ => ?_)).trans ?_) | (with_reducible refine (foldlP_fuses _ _ _ (fun _ _ => ?_)).trans ?_) | (with_reducible refine (foldlP_pending _ _ _ (fun _ _ => ?_)).trans ?_) | (with_reducible refine (foldlP_cfg _ _ _ (fun _ _ => ?_)).trans ?_) | (with_reducible refine (foldlP_mgmt _ _ _ (fun _ _ => ?_)).trans ?_) | (with_reducible refine (foldlP_pkg _ _ _ (fun _ _ => ?_)).trans ?_) | (with_reducible refine (foldlP_sec _ _ _ (fun _ _ => ?_)).trans ?_) | (with_reducible refine (foldlP_bw _ _ _ (fun _ _ => ?_)).trans ?_) | (with_reducible refine (foldlP_time _ _ _ (fun _ _ => ?_)).trans ?_) | (with_reducible refine (foldlW_tiles _ _ _ (fun _ _ => ?_)).trans ?_) | (with_reducible refine (foldlW_fuses _ _ _ (fun _ _ => ?_)).trans ?_) | (with_reducible refine (foldlW_pending _ _ _ (fun _ _ => ?_)).trans ?_) | (with_reducible refine (foldlW_cfg _ _ _ (fun _ _ => ?_)).trans ?_) | (with_reducible refine (foldlW_mgmt _ _ _ (fun _ _ => ?_)).trans ?_) | (with_reducible refine (foldlW_pkg _ _ _ (fun _ _ => ?_)).trans ?_) | (with_reducible refine (foldlW_sec _ _ _ (fun _ _ => ?_)).trans ?_) | (with_reducible refine (foldlW_bw _ _ _ (fun _ _ => ?_)).trans ?_) | (with_reducible refine (foldlW_time _ _ _ (fun _ _ => ?_)).trans ?_))) <;> (simp [*])))
@[simp] theorem State.evaluate_frame (s : State) (i : Nat) :
    (State.evaluate s i).tiles = s.tiles ∧ (State.evaluate s i).fuses = s.fuses ∧ (State.evaluate s i).pending = 
    s.pending ∧ (State.evaluate s i).cfg = s.cfg ∧ (State.evaluate s i).mgmt = s.mgmt ∧ (State.evaluate s i).pkg = 
    s.pkg ∧ (State.evaluate s i).sec = s.sec ∧ (State.evaluate s i).bw = s.bw ∧ (State.evaluate s i).time = s.time := by
  simp only [State.evaluate]; (repeat' split) <;> (simp [*])
@[simp] theorem State.boundaryMigration_frame (s : State) (i : Nat) :
    (State.boundaryMigration s i).tiles = s.tiles ∧ (State.boundaryMigration s i).fuses = s.fuses ∧ 
    (State.boundaryMigration s i).pending = s.pending ∧ (State.boundaryMigration s i).cfg = s.cfg ∧ 
    (State.boundaryMigration s i).mgmt = s.mgmt ∧ (State.boundaryMigration s i).pkg = s.pkg ∧ 
    (State.boundaryMigration s i).sec = s.sec ∧ (State.boundaryMigration s i).bw = s.bw ∧ (State.boundaryMigration 
    s i).time = s.time := by
  simp only [State.boundaryMigration]; (repeat' split) <;> (simp [*])
@[simp] theorem State.kwPending_frame (s : State) :
    (State.kwPending s).tiles = s.tiles ∧ (State.kwPending s).fuses = s.fuses ∧ (State.kwPending s).pending = 
    s.pending ∧ (State.kwPending s).mgmt = s.mgmt ∧ (State.kwPending s).pkg = s.pkg ∧ (State.kwPending s).sec = 
    s.sec ∧ (State.kwPending s).bw = s.bw ∧ (State.kwPending s).time = s.time := by
  simp only [State.kwPending]; (repeat' split) <;> (simp [*])
@[simp] theorem State.closeObjEpoch_frame (s : State) (reports : List (Nat × Nat × Nat)) (i : Nat) :
    (State.closeObjEpoch s reports i).tiles = s.tiles ∧ (State.closeObjEpoch s reports i).fuses = s.fuses ∧ 
    (State.closeObjEpoch s reports i).pending = s.pending ∧ (State.closeObjEpoch s reports i).cfg = s.cfg ∧ 
    (State.closeObjEpoch s reports i).mgmt = s.mgmt ∧ (State.closeObjEpoch s reports i).pkg = s.pkg ∧ 
    (State.closeObjEpoch s reports i).sec = s.sec ∧ (State.closeObjEpoch s reports i).bw = s.bw ∧ 
    (State.closeObjEpoch s reports i).time = s.time := by
  simp only [State.closeObjEpoch]; (repeat' split) <;> (simp [*])
@[simp] theorem State.closeExt_frame (s : State) :
    (State.closeExt s).tiles = s.tiles ∧ (State.closeExt s).fuses = s.fuses ∧ (State.closeExt s).pending = 
    s.pending ∧ (State.closeExt s).cfg = s.cfg ∧ (State.closeExt s).mgmt = s.mgmt ∧ (State.closeExt s).pkg = s.pkg 
    ∧ (State.closeExt s).sec = s.sec ∧ (State.closeExt s).bw = s.bw ∧ (State.closeExt s).time = s.time := by
  simp [State.closeExt]
@[simp] theorem State.epochBoundary_frame (s : State) (reports : List (Nat × Nat × Nat)) :
    (State.epochBoundary s reports).tiles = s.tiles ∧ (State.epochBoundary s reports).fuses = s.fuses ∧ 
    (State.epochBoundary s reports).pending = s.pending ∧ (State.epochBoundary s reports).mgmt = s.mgmt ∧ 
    (State.epochBoundary s reports).pkg = s.pkg ∧ (State.epochBoundary s reports).sec = s.sec ∧ 
    (State.epochBoundary s reports).bw = s.bw ∧ (State.epochBoundary s reports).time = s.time := by
  simp [State.epochBoundary, foldl_tiles, foldl_fuses, foldl_pending, foldl_cfg, foldl_mgmt, foldl_pkg, foldl_sec, foldl_bw, foldl_time, foldlP_tiles, foldlP_fuses, foldlP_pending, foldlP_cfg, foldlP_mgmt, foldlP_pkg, foldlP_sec, foldlP_bw, foldlP_time, foldlW_tiles, foldlW_fuses, foldlW_pending, foldlW_cfg, foldlW_mgmt, foldlW_pkg, foldlW_sec, foldlW_bw, foldlW_time]
@[simp] theorem State.migrationCopied_frame (s : State) (i : Nat) :
    (State.migrationCopied s i).tiles = s.tiles ∧ (State.migrationCopied s i).fuses = s.fuses ∧ 
    (State.migrationCopied s i).pending = s.pending ∧ (State.migrationCopied s i).cfg = s.cfg ∧ 
    (State.migrationCopied s i).mgmt = s.mgmt ∧ (State.migrationCopied s i).pkg = s.pkg ∧ (State.migrationCopied s 
    i).sec = s.sec ∧ (State.migrationCopied s i).bw = s.bw ∧ (State.migrationCopied s i).time = s.time := by
  simp only [State.migrationCopied]; (repeat' split) <;> (simp [*])
@[simp] theorem State.moveGranules_frame (s : State) (pbase i : Nat) (z0 : List (Nat × Nat)) :
    (State.moveGranules s pbase i z0).tiles = s.tiles ∧ (State.moveGranules s pbase i z0).fuses = s.fuses ∧ 
    (State.moveGranules s pbase i z0).pending = s.pending ∧ (State.moveGranules s pbase i z0).cfg = s.cfg ∧ 
    (State.moveGranules s pbase i z0).mgmt = s.mgmt ∧ (State.moveGranules s pbase i z0).pkg = s.pkg ∧ 
    (State.moveGranules s pbase i z0).sec = s.sec ∧ (State.moveGranules s pbase i z0).bw = s.bw ∧ 
    (State.moveGranules s pbase i z0).time = s.time := by
  induction z0 generalizing s pbase i <;> first
  | (simp [State.moveGranules]; done)
  | (simp [State.moveGranules, *]; done)

@[simp] theorem State.migrationSwitched_frame (s : State) (i : Nat) :
    (State.migrationSwitched s i).tiles = s.tiles ∧ (State.migrationSwitched s i).fuses = s.fuses ∧ 
    (State.migrationSwitched s i).pending = s.pending ∧ (State.migrationSwitched s i).cfg = s.cfg ∧ 
    (State.migrationSwitched s i).mgmt = s.mgmt ∧ (State.migrationSwitched s i).pkg = s.pkg ∧ 
    (State.migrationSwitched s i).sec = s.sec ∧ (State.migrationSwitched s i).bw = s.bw ∧ (State.migrationSwitched 
    s i).time = s.time := by
  simp only [State.migrationSwitched]; (repeat' split) <;> (simp [*])
@[simp] theorem State.translationMiss_frame (s : State) (addr : Nat) :
    (State.translationMiss s addr).tiles = s.tiles ∧ (State.translationMiss s addr).fuses = s.fuses ∧ 
    (State.translationMiss s addr).pending = s.pending ∧ (State.translationMiss s addr).cfg = s.cfg ∧ 
    (State.translationMiss s addr).mgmt = s.mgmt ∧ (State.translationMiss s addr).pkg = s.pkg ∧ 
    (State.translationMiss s addr).sec = s.sec ∧ (State.translationMiss s addr).bw = s.bw ∧ (State.translationMiss 
    s addr).time = s.time := by
  simp [State.translationMiss]
@[simp] theorem State.admitFor_frame (s : State) (core old : Nat) :
    (State.admitFor s core old).fuses = s.fuses ∧ (State.admitFor s core old).pending = s.pending ∧ 
    (State.admitFor s core old).cfg = s.cfg ∧ (State.admitFor s core old).mgmt = s.mgmt ∧ (State.admitFor s core 
    old).pkg = s.pkg ∧ (State.admitFor s core old).sec = s.sec ∧ (State.admitFor s core old).bw = s.bw ∧ 
    (State.admitFor s core old).time = s.time := by
  simp only [State.admitFor]; (repeat' split) <;> (simp [*])
@[simp] theorem State.mapFence_frame (s : State) (t : Nat) :
    (State.mapFence s t).fuses = s.fuses ∧ (State.mapFence s t).pending = s.pending ∧ (State.mapFence s t).cfg = 
    s.cfg ∧ (State.mapFence s t).mgmt = s.mgmt ∧ (State.mapFence s t).pkg = s.pkg ∧ (State.mapFence s t).sec = 
    s.sec ∧ (State.mapFence s t).bw = s.bw ∧ (State.mapFence s t).time = s.time := by
  simp only [State.mapFence]; (repeat' split) <;> (simp [*])
@[simp] theorem State.spareDone_frame (s : State) (sp : Nat) (ok : Bool) :
    (State.spareDone s sp ok).fuses = s.fuses ∧ (State.spareDone s sp ok).pending = s.pending ∧ (State.spareDone s 
    sp ok).cfg = s.cfg ∧ (State.spareDone s sp ok).mgmt = s.mgmt ∧ (State.spareDone s sp ok).pkg = s.pkg ∧ 
    (State.spareDone s sp ok).sec = s.sec ∧ (State.spareDone s sp ok).bw = s.bw ∧ (State.spareDone s sp ok).time = 
    s.time := by
  simp only [State.spareDone]; (repeat' split) <;> (simp [*])
@[simp] theorem State.buildMap_frame (s : State) (pass spareSet : Nat) :
    (State.buildMap s pass spareSet).fuses = s.fuses ∧ (State.buildMap s pass spareSet).pending = s.pending ∧ 
    (State.buildMap s pass spareSet).cfg = s.cfg ∧ (State.buildMap s pass spareSet).mgmt = s.mgmt ∧ 
    (State.buildMap s pass spareSet).pkg = s.pkg ∧ (State.buildMap s pass spareSet).sec = s.sec ∧ (State.buildMap 
    s pass spareSet).bw = s.bw ∧ (State.buildMap s pass spareSet).time = s.time := by
  simp [State.buildMap, foldl_tiles, foldl_fuses, foldl_pending, foldl_cfg, foldl_mgmt, foldl_pkg, foldl_sec, foldl_bw, foldl_time, foldlP_tiles, foldlP_fuses, foldlP_pending, foldlP_cfg, foldlP_mgmt, foldlP_pkg, foldlP_sec, foldlP_bw, foldlP_time, foldlW_tiles, foldlW_fuses, foldlW_pending, foldlW_cfg, foldlW_mgmt, foldlW_pkg, foldlW_sec, foldlW_bw, foldlW_time]
@[simp] theorem State.initPast_frame (s : State) (i : Nat) :
    (State.initPast s i).tiles = s.tiles ∧ (State.initPast s i).fuses = s.fuses ∧ (State.initPast s i).pending = 
    s.pending ∧ (State.initPast s i).cfg = s.cfg ∧ (State.initPast s i).mgmt = s.mgmt ∧ (State.initPast s i).pkg = 
    s.pkg ∧ (State.initPast s i).sec = s.sec ∧ (State.initPast s i).bw = s.bw ∧ (State.initPast s i).time = s.time := by
  simp [State.initPast]
@[simp] theorem State.initFailed_frame (s : State) (i cause : Nat) (e : ObjEntry) :
    (State.initFailed s i cause e).tiles = s.tiles ∧ (State.initFailed s i cause e).fuses = s.fuses ∧ 
    (State.initFailed s i cause e).pending = s.pending ∧ (State.initFailed s i cause e).cfg = s.cfg ∧ 
    (State.initFailed s i cause e).mgmt = s.mgmt ∧ (State.initFailed s i cause e).pkg = s.pkg ∧ (State.initFailed 
    s i cause e).sec = s.sec ∧ (State.initFailed s i cause e).bw = s.bw ∧ (State.initFailed s i cause e).time = 
    s.time := by
  simp [State.initFailed]
@[simp] theorem State.activateFrom_frame (s : State) (z0 : List (Nat × List Word)) :
    (State.activateFrom s z0).1.tiles = s.tiles ∧ (State.activateFrom s z0).1.fuses = s.fuses ∧ 
    (State.activateFrom s z0).1.pending = s.pending ∧ (State.activateFrom s z0).1.cfg = s.cfg ∧ 
    (State.activateFrom s z0).1.mgmt = s.mgmt ∧ (State.activateFrom s z0).1.pkg = s.pkg ∧ (State.activateFrom s 
    z0).1.sec = s.sec ∧ (State.activateFrom s z0).1.bw = s.bw ∧ (State.activateFrom s z0).1.time = s.time := by
  induction z0 generalizing s <;> first
  | (simp [State.activateFrom]; done)
  | (rw [State.activateFrom]; (try simp only []); (repeat' split) <;> (try simp only [Prod.ext_iff] at *) <;> (repeat (rename _ ∧ _ => hx; cases hx)) <;> (try subst_vars) <;> (simp [*]; done))

@[simp] theorem State.kwLatch_frame (s : State) :
    (State.kwLatch s).tiles = s.tiles ∧ (State.kwLatch s).fuses = s.fuses ∧ (State.kwLatch s).pending = s.pending 
    ∧ (State.kwLatch s).cfg = s.cfg ∧ (State.kwLatch s).mgmt = s.mgmt ∧ (State.kwLatch s).pkg = s.pkg ∧ 
    (State.kwLatch s).sec = s.sec ∧ (State.kwLatch s).bw = s.bw ∧ (State.kwLatch s).time = s.time := by
  simp [State.kwLatch]

/-! ### `Program` -/

@[simp] theorem State.qmRefuse_frame (s : State) (e : Ev) (addr reason : Nat) :
    (State.qmRefuse s e addr reason).tiles = s.tiles ∧ (State.qmRefuse s e addr reason).fuses = s.fuses ∧ 
    (State.qmRefuse s e addr reason).pending = s.pending ∧ (State.qmRefuse s e addr reason).cfg = s.cfg ∧ 
    (State.qmRefuse s e addr reason).mgmt = s.mgmt ∧ (State.qmRefuse s e addr reason).pkg = s.pkg ∧ 
    (State.qmRefuse s e addr reason).sec = s.sec ∧ (State.qmRefuse s e addr reason).bw = s.bw ∧ (State.qmRefuse s 
    e addr reason).time = s.time := by
  simp [State.qmRefuse]
@[simp] theorem State.sealTile_frame (s : State) (t ans : Nat) :
    (State.sealTile s t ans).fuses = s.fuses ∧ (State.sealTile s t ans).pending = s.pending ∧ (State.sealTile s t 
    ans).cfg = s.cfg ∧ (State.sealTile s t ans).mgmt = s.mgmt ∧ (State.sealTile s t ans).pkg = s.pkg ∧ 
    (State.sealTile s t ans).sec = s.sec ∧ (State.sealTile s t ans).bw = s.bw ∧ (State.sealTile s t ans).time = 
    s.time := by
  simp [State.sealTile]
@[simp] theorem State.framesGone_frame (s : State) (t : Nat) :
    (State.framesGone s t).tiles = s.tiles ∧ (State.framesGone s t).fuses = s.fuses ∧ (State.framesGone s 
    t).pending = s.pending ∧ (State.framesGone s t).cfg = s.cfg ∧ (State.framesGone s t).mgmt = s.mgmt ∧ 
    (State.framesGone s t).pkg = s.pkg ∧ (State.framesGone s t).sec = s.sec ∧ (State.framesGone s t).bw = s.bw ∧ 
    (State.framesGone s t).time = s.time := by
  simp [State.framesGone]
@[simp] theorem State.muteScrubDone_frame (s : State) (t : Nat) (ok : Bool) :
    (State.muteScrubDone s t ok).fuses = s.fuses ∧ (State.muteScrubDone s t ok).pending = s.pending ∧ 
    (State.muteScrubDone s t ok).cfg = s.cfg ∧ (State.muteScrubDone s t ok).mgmt = s.mgmt ∧ (State.muteScrubDone s 
    t ok).pkg = s.pkg ∧ (State.muteScrubDone s t ok).sec = s.sec ∧ (State.muteScrubDone s t ok).bw = s.bw ∧ 
    (State.muteScrubDone s t ok).time = s.time := by
  simp [State.muteScrubDone]
@[simp] theorem State.progDenied_frame (s : State) (uid reason : Nat) :
    (State.progDenied s uid reason).fuses = s.fuses ∧ (State.progDenied s uid reason).pending = s.pending ∧ 
    (State.progDenied s uid reason).cfg = s.cfg ∧ (State.progDenied s uid reason).mgmt = s.mgmt ∧ 
    (State.progDenied s uid reason).pkg = s.pkg ∧ (State.progDenied s uid reason).sec = s.sec ∧ (State.progDenied 
    s uid reason).bw = s.bw ∧ (State.progDenied s uid reason).time = s.time := by
  simp only [State.progDenied]; (repeat' split) <;> (simp [*])
@[simp] theorem State.needImage_frame (s : State) (t : Nat) :
    (State.needImage s t).1.tiles = s.tiles ∧ (State.needImage s t).1.fuses = s.fuses ∧ (State.needImage s 
    t).1.pending = s.pending ∧ (State.needImage s t).1.cfg = s.cfg ∧ (State.needImage s t).1.mgmt = s.mgmt ∧ 
    (State.needImage s t).1.pkg = s.pkg ∧ (State.needImage s t).1.sec = s.sec ∧ (State.needImage s t).1.bw = s.bw 
    ∧ (State.needImage s t).1.time = s.time := by
  simp [State.needImage]
@[simp] theorem State.needArgs_frame (s : State) (t : Nat) :
    (State.needArgs s t).1.tiles = s.tiles ∧ (State.needArgs s t).1.fuses = s.fuses ∧ (State.needArgs s 
    t).1.pending = s.pending ∧ (State.needArgs s t).1.cfg = s.cfg ∧ (State.needArgs s t).1.mgmt = s.mgmt ∧ 
    (State.needArgs s t).1.pkg = s.pkg ∧ (State.needArgs s t).1.sec = s.sec ∧ (State.needArgs s t).1.bw = s.bw ∧ 
    (State.needArgs s t).1.time = s.time := by
  simp [State.needArgs]
@[simp] theorem State.loadImage_frame (s : State) (t : Nat) :
    (State.loadImage s t).fuses = s.fuses ∧ (State.loadImage s t).pending = s.pending ∧ (State.loadImage s t).cfg 
    = s.cfg ∧ (State.loadImage s t).mgmt = s.mgmt ∧ (State.loadImage s t).pkg = s.pkg ∧ (State.loadImage s t).sec 
    = s.sec ∧ (State.loadImage s t).bw = s.bw ∧ (State.loadImage s t).time = s.time := by
  simp [State.loadImage]
@[simp] theorem State.noteStart_frame (s : State) (uid : Nat) :
    (State.noteStart s uid).tiles = s.tiles ∧ (State.noteStart s uid).fuses = s.fuses ∧ (State.noteStart s 
    uid).pending = s.pending ∧ (State.noteStart s uid).cfg = s.cfg ∧ (State.noteStart s uid).mgmt = s.mgmt ∧ 
    (State.noteStart s uid).pkg = s.pkg ∧ (State.noteStart s uid).sec = s.sec ∧ (State.noteStart s uid).bw = s.bw 
    ∧ (State.noteStart s uid).time = s.time := by
  simp only [State.noteStart]; (repeat' split) <;> (simp [*])
@[simp] theorem State.startRun_frame (s : State) (t : Nat) (d : Desc) :
    (State.startRun s t d).fuses = s.fuses ∧ (State.startRun s t d).pending = s.pending ∧ (State.startRun s t 
    d).cfg = s.cfg ∧ (State.startRun s t d).mgmt = s.mgmt ∧ (State.startRun s t d).pkg = s.pkg ∧ (State.startRun s 
    t d).sec = s.sec ∧ (State.startRun s t d).bw = s.bw ∧ (State.startRun s t d).time = s.time := by
  simp [State.startRun]
@[simp] theorem State.startFetched_frame (s : State) (t : Nat) (d : Desc) :
    (State.startFetched s t d).fuses = s.fuses ∧ (State.startFetched s t d).pending = s.pending ∧ 
    (State.startFetched s t d).cfg = s.cfg ∧ (State.startFetched s t d).mgmt = s.mgmt ∧ (State.startFetched s t 
    d).pkg = s.pkg ∧ (State.startFetched s t d).sec = s.sec ∧ (State.startFetched s t d).bw = s.bw ∧ 
    (State.startFetched s t d).time = s.time := by
  (unfold State.startFetched; (try simp only []); (repeat' split) <;> (try simp only [Prod.ext_iff] at *) <;> (repeat (rename _ ∧ _ => hx; cases hx)) <;> (try subst_vars) <;> (simp [*]))
@[simp] theorem State.programStart_frame (s : State) (t : Nat) :
    (State.programStart s t).fuses = s.fuses ∧ (State.programStart s t).pending = s.pending ∧ (State.programStart 
    s t).cfg = s.cfg ∧ (State.programStart s t).mgmt = s.mgmt ∧ (State.programStart s t).pkg = s.pkg ∧ 
    (State.programStart s t).sec = s.sec ∧ (State.programStart s t).bw = s.bw ∧ (State.programStart s t).time = 
    s.time := by
  simp only [State.programStart]; (repeat' split) <;> (simp [*])
@[simp] theorem State.settleYield_frame (s : State) (uid : Nat) :
    (State.settleYield s uid).tiles = s.tiles ∧ (State.settleYield s uid).fuses = s.fuses ∧ (State.settleYield s 
    uid).pending = s.pending ∧ (State.settleYield s uid).cfg = s.cfg ∧ (State.settleYield s uid).mgmt = s.mgmt ∧ 
    (State.settleYield s uid).pkg = s.pkg ∧ (State.settleYield s uid).sec = s.sec ∧ (State.settleYield s uid).bw = 
    s.bw ∧ (State.settleYield s uid).time = s.time := by
  simp only [State.settleYield]; (repeat' split) <;> (simp [*])
@[simp] theorem State.discardContext_frame (s : State) (t : Nat) :
    (State.discardContext s t).fuses = s.fuses ∧ (State.discardContext s t).pending = s.pending ∧ 
    (State.discardContext s t).cfg = s.cfg ∧ (State.discardContext s t).mgmt = s.mgmt ∧ (State.discardContext s 
    t).pkg = s.pkg ∧ (State.discardContext s t).sec = s.sec ∧ (State.discardContext s t).bw = s.bw ∧ 
    (State.discardContext s t).time = s.time := by
  simp only [State.discardContext]; (repeat' split) <;> (simp [*])
@[simp] theorem State.writeFrame_frame (s : State) (x : Stream) (member : Nat) (spad : Option Spad) :
    (State.writeFrame s x member spad).tiles = s.tiles ∧ (State.writeFrame s x member spad).fuses = s.fuses ∧ 
    (State.writeFrame s x member spad).pending = s.pending ∧ (State.writeFrame s x member spad).cfg = s.cfg ∧ 
    (State.writeFrame s x member spad).mgmt = s.mgmt ∧ (State.writeFrame s x member spad).pkg = s.pkg ∧ 
    (State.writeFrame s x member spad).sec = s.sec ∧ (State.writeFrame s x member spad).bw = s.bw ∧ 
    (State.writeFrame s x member spad).time = s.time := by
  simp [State.writeFrame, foldl_tiles, foldl_fuses, foldl_pending, foldl_cfg, foldl_mgmt, foldl_pkg, foldl_sec, foldl_bw, foldl_time, foldlP_tiles, foldlP_fuses, foldlP_pending, foldlP_cfg, foldlP_mgmt, foldlP_pkg, foldlP_sec, foldlP_bw, foldlP_time, foldlW_tiles, foldlW_fuses, foldlW_pending, foldlW_cfg, foldlW_mgmt, foldlW_pkg, foldlW_sec, foldlW_bw, foldlW_time]
@[simp] theorem State.saveContext_frame (s : State) (t : Nat) (phase : Phase) :
    (State.saveContext s t phase).fuses = s.fuses ∧ (State.saveContext s t phase).pending = s.pending ∧ 
    (State.saveContext s t phase).cfg = s.cfg ∧ (State.saveContext s t phase).mgmt = s.mgmt ∧ (State.saveContext s 
    t phase).pkg = s.pkg ∧ (State.saveContext s t phase).sec = s.sec ∧ (State.saveContext s t phase).bw = s.bw ∧ 
    (State.saveContext s t phase).time = s.time := by
  unfold State.saveContext
  split
  · simp only [and_self]
  · rename_i d _
    split
    · simp only [and_self]
    · rename_i x _
      dsimp only
      generalize s.qmCheck x.job true false (x.frameAt (s.tile t).seq.member) x.frameSize = r
      split
      · simp
      · simp only [State.settleYield_frame, State.onTile_frame, State.tick_frame, State.writeFrame_frame, State.letGo_frame, and_self]

@[simp] theorem State.yield_frame (s : State) (t job : Nat) :
    (State.yield s t job).fuses = s.fuses ∧ (State.yield s t job).pending = s.pending ∧ (State.yield s t job).cfg 
    = s.cfg ∧ (State.yield s t job).mgmt = s.mgmt ∧ (State.yield s t job).pkg = s.pkg ∧ (State.yield s t job).sec 
    = s.sec ∧ (State.yield s t job).bw = s.bw ∧ (State.yield s t job).time = s.time := by
  simp only [State.yield]; (repeat' split) <;> (simp [*])

end Sys2Proof.Machine
end

