-- ==== Sys2Proof/Laws/FramesQueues.lean ====
section
/-!
SUPPORT. Which parts of the state the queue manager and its descriptors leave as they were: one lemma
`<operation>_frame` for each operation on the state, of the fields tiles, fuses, pending, cfg, mgmt, pkg, sec, bw and time.
-/

set_option Elab.async false
set_option linter.unusedSimpArgs false
set_option linter.unusedVariables false
set_option linter.unreachableTactic false
set_option linter.unusedTactic false

namespace Sys2Proof.Machine

open Sys2Proof

/-! ### `QmTables` -/

@[simp] theorem State.tableRefuse_frame (s : State) (addr reason : Nat) :
    (State.tableRefuse s addr reason).tiles = s.tiles ∧ (State.tableRefuse s addr reason).fuses = s.fuses ∧ 
    (State.tableRefuse s addr reason).pending = s.pending ∧ (State.tableRefuse s addr reason).cfg = s.cfg ∧ 
    (State.tableRefuse s addr reason).mgmt = s.mgmt ∧ (State.tableRefuse s addr reason).pkg = s.pkg ∧ 
    (State.tableRefuse s addr reason).sec = s.sec ∧ (State.tableRefuse s addr reason).bw = s.bw ∧ 
    (State.tableRefuse s addr reason).time = s.time := by
  simp [State.tableRefuse]
@[simp] theorem State.tableStop_frame (s : State) (r : Stop) :
    (State.tableStop s r).tiles = s.tiles ∧ (State.tableStop s r).fuses = s.fuses ∧ (State.tableStop s r).pending 
    = s.pending ∧ (State.tableStop s r).cfg = s.cfg ∧ (State.tableStop s r).mgmt = s.mgmt ∧ (State.tableStop s 
    r).pkg = s.pkg ∧ (State.tableStop s r).sec = s.sec ∧ (State.tableStop s r).bw = s.bw ∧ (State.tableStop s 
    r).time = s.time := by
  simp only [State.tableStop]; (repeat' split) <;> (simp [*])
@[simp] theorem State.qmNeed_frame (s : State) (agent j : Nat) (hostOk : Bool) (addr len : Nat) :
    (State.qmNeed s agent j hostOk addr len).1.tiles = s.tiles ∧ (State.qmNeed s agent j hostOk addr len).1.fuses 
    = s.fuses ∧ (State.qmNeed s agent j hostOk addr len).1.pending = s.pending ∧ (State.qmNeed s agent j hostOk 
    addr len).1.cfg = s.cfg ∧ (State.qmNeed s agent j hostOk addr len).1.mgmt = s.mgmt ∧ (State.qmNeed s agent j 
    hostOk addr len).1.pkg = s.pkg ∧ (State.qmNeed s agent j hostOk addr len).1.sec = s.sec ∧ (State.qmNeed s 
    agent j hostOk addr len).1.bw = s.bw ∧ (State.qmNeed s agent j hostOk addr len).1.time = s.time := by
  simp [State.qmNeed]
@[simp] theorem State.wrTable_frame (s : State) (addr : Nat) (bs : List Byte) :
    (State.wrTable s addr bs).tiles = s.tiles ∧ (State.wrTable s addr bs).fuses = s.fuses ∧ (State.wrTable s addr 
    bs).pending = s.pending ∧ (State.wrTable s addr bs).cfg = s.cfg ∧ (State.wrTable s addr bs).mgmt = s.mgmt ∧ 
    (State.wrTable s addr bs).pkg = s.pkg ∧ (State.wrTable s addr bs).sec = s.sec ∧ (State.wrTable s addr bs).bw = 
    s.bw ∧ (State.wrTable s addr bs).time = s.time := by
  simp [State.wrTable]
@[simp] theorem State.writeRing_frame (s : State) (x : Stream) :
    (State.writeRing s x).tiles = s.tiles ∧ (State.writeRing s x).fuses = s.fuses ∧ (State.writeRing s x).pending 
    = s.pending ∧ (State.writeRing s x).cfg = s.cfg ∧ (State.writeRing s x).mgmt = s.mgmt ∧ (State.writeRing s 
    x).pkg = s.pkg ∧ (State.writeRing s x).sec = s.sec ∧ (State.writeRing s x).bw = s.bw ∧ (State.writeRing s 
    x).time = s.time := by
  simp only [State.writeRing]; (repeat' split) <;> (simp [*])
@[simp] theorem State.writeBack_frame (s : State) (k : Nat) :
    (State.writeBack s k).tiles = s.tiles ∧ (State.writeBack s k).fuses = s.fuses ∧ (State.writeBack s k).pending 
    = s.pending ∧ (State.writeBack s k).cfg = s.cfg ∧ (State.writeBack s k).mgmt = s.mgmt ∧ (State.writeBack s 
    k).pkg = s.pkg ∧ (State.writeBack s k).sec = s.sec ∧ (State.writeBack s k).bw = s.bw ∧ (State.writeBack s 
    k).time = s.time := by
  simp only [State.writeBack]; (repeat' split) <;> (simp [*])
@[simp] theorem State.writeJob_frame (s : State) (j : Nat) :
    (State.writeJob s j).tiles = s.tiles ∧ (State.writeJob s j).fuses = s.fuses ∧ (State.writeJob s j).pending = 
    s.pending ∧ (State.writeJob s j).cfg = s.cfg ∧ (State.writeJob s j).mgmt = s.mgmt ∧ (State.writeJob s j).pkg = 
    s.pkg ∧ (State.writeJob s j).sec = s.sec ∧ (State.writeJob s j).bw = s.bw ∧ (State.writeJob s j).time = s.time := by
  simp only [State.writeJob]; (repeat' split) <;> (simp [*])
@[simp] theorem State.onRing_frame (s : State) (rid : Nat) (f : Ring → Ring) :
    (State.onRing s rid f).tiles = s.tiles ∧ (State.onRing s rid f).fuses = s.fuses ∧ (State.onRing s rid 
    f).pending = s.pending ∧ (State.onRing s rid f).cfg = s.cfg ∧ (State.onRing s rid f).mgmt = s.mgmt ∧ 
    (State.onRing s rid f).pkg = s.pkg ∧ (State.onRing s rid f).sec = s.sec ∧ (State.onRing s rid f).bw = s.bw ∧ 
    (State.onRing s rid f).time = s.time := by
  simp only [State.onRing]; (repeat' split) <;> (simp [*])
@[simp] theorem State.rewind_frame (s : State) (k : Nat) :
    (State.rewind s k).tiles = s.tiles ∧ (State.rewind s k).fuses = s.fuses ∧ (State.rewind s k).pending = 
    s.pending ∧ (State.rewind s k).cfg = s.cfg ∧ (State.rewind s k).mgmt = s.mgmt ∧ (State.rewind s k).pkg = s.pkg 
    ∧ (State.rewind s k).sec = s.sec ∧ (State.rewind s k).bw = s.bw ∧ (State.rewind s k).time = s.time := by
  simp only [State.rewind]; (repeat' split) <;> (simp [*])
@[simp] theorem State.startRejected_frame (s : State) (k : Nat) :
    (State.startRejected s k).tiles = s.tiles ∧ (State.startRejected s k).fuses = s.fuses ∧ (State.startRejected s 
    k).pending = s.pending ∧ (State.startRejected s k).cfg = s.cfg ∧ (State.startRejected s k).mgmt = s.mgmt ∧ 
    (State.startRejected s k).pkg = s.pkg ∧ (State.startRejected s k).sec = s.sec ∧ (State.startRejected s k).bw = 
    s.bw ∧ (State.startRejected s k).time = s.time := by
  simp only [State.startRejected]; (repeat' split) <;> (simp [*])
@[simp] theorem State.settle_frame (s : State) (k : Nat) :
    (State.settle s k).tiles = s.tiles ∧ (State.settle s k).fuses = s.fuses ∧ (State.settle s k).pending = 
    s.pending ∧ (State.settle s k).cfg = s.cfg ∧ (State.settle s k).mgmt = s.mgmt ∧ (State.settle s k).pkg = s.pkg 
    ∧ (State.settle s k).sec = s.sec ∧ (State.settle s k).bw = s.bw ∧ (State.settle s k).time = s.time := by
  simp only [State.settle]; (repeat' split) <;> (simp [*])
@[simp] theorem State.exact_frame (s : State) (k : Nat) :
    (State.exact s k).tiles = s.tiles ∧ (State.exact s k).fuses = s.fuses ∧ (State.exact s k).pending = s.pending 
    ∧ (State.exact s k).cfg = s.cfg ∧ (State.exact s k).mgmt = s.mgmt ∧ (State.exact s k).pkg = s.pkg ∧ 
    (State.exact s k).sec = s.sec ∧ (State.exact s k).bw = s.bw ∧ (State.exact s k).time = s.time := by
  simp only [State.exact]; (repeat' split) <;> (simp [*])
@[simp] theorem State.quiesce_frame (s : State) :
    (State.quiesce s).tiles = s.tiles ∧ (State.quiesce s).fuses = s.fuses ∧ (State.quiesce s).pending = s.pending 
    ∧ (State.quiesce s).cfg = s.cfg ∧ (State.quiesce s).mgmt = s.mgmt ∧ (State.quiesce s).pkg = s.pkg ∧ 
    (State.quiesce s).sec = s.sec ∧ (State.quiesce s).bw = s.bw ∧ (State.quiesce s).time = s.time := by
  simp [State.quiesce, foldl_tiles, foldl_fuses, foldl_pending, foldl_cfg, foldl_mgmt, foldl_pkg, foldl_sec, foldl_bw, foldl_time, foldlP_tiles, foldlP_fuses, foldlP_pending, foldlP_cfg, foldlP_mgmt, foldlP_pkg, foldlP_sec, foldlP_bw, foldlP_time, foldlW_tiles, foldlW_fuses, foldlW_pending, foldlW_cfg, foldlW_mgmt, foldlW_pkg, foldlW_sec, foldlW_bw, foldlW_time]
@[simp] theorem State.yieldTile_frame (s : State) (t job : Nat) :
    (State.yieldTile s t job).fuses = s.fuses ∧ (State.yieldTile s t job).pending = s.pending ∧ (State.yieldTile s 
    t job).cfg = s.cfg ∧ (State.yieldTile s t job).mgmt = s.mgmt ∧ (State.yieldTile s t job).pkg = s.pkg ∧ 
    (State.yieldTile s t job).sec = s.sec ∧ (State.yieldTile s t job).bw = s.bw ∧ (State.yieldTile s t job).time = 
    s.time := by
  simp [State.yieldTile]
theorem needThen_ind {P : State → Prop} {r : State × Piece Unit} {f : State → State × Piece Unit} (h : P r.1)
    (hf : ∀ s, P s → P (f s).1) : P (needThen r f).1 := by
  obtain ⟨s, p⟩ := r
  cases p
  · exact h
  · exact h
  · exact hf s h

theorem tableRead_ind {α : Type} {P : State → Prop} {ag : Nat} {r : State × Piece Unit} {f : State → State × α}
    (h : P r.1) (hs : ∀ s x, P s → P ((s.dropFetch ag).tableStop x)) (hf : ∀ s, P s → P ((f s).1.dropFetch ag)) :
    P (tableRead ag r f).1 := by
  obtain ⟨s, p⟩ := r
  cases p
  · exact h
  · exact hs s _ h
  · exact hf s h

theorem State.ringNeed_ind {P : State → Prop} {s : State} {ag rid : Nat} (h : P s)
    (hq : ∀ s ag j b a n, P s → P (s.qmNeed ag j b a n).1) : P (s.ringNeed ag rid).1 := hq _ _ _ _ _ _ h

@[simp] theorem State.ringNeed_frame (s : State) (ag rid : Nat) :
    (s.ringNeed ag rid).1.tiles = s.tiles ∧ (s.ringNeed ag rid).1.fuses = s.fuses ∧ (s.ringNeed ag rid).1.pending 
    = s.pending ∧ (s.ringNeed ag rid).1.cfg = s.cfg ∧ (s.ringNeed ag rid).1.mgmt = s.mgmt ∧ (s.ringNeed ag 
    rid).1.pkg = s.pkg ∧ (s.ringNeed ag rid).1.sec = s.sec ∧ (s.ringNeed ag rid).1.bw = s.bw ∧ (s.ringNeed ag 
    rid).1.time = s.time := by
  refine State.ringNeed_ind (P := fun x => x.tiles = s.tiles ∧ x.fuses = s.fuses ∧ x.pending = s.pending ∧ x.cfg = s.cfg ∧ x.mgmt = s.mgmt ∧ x.pkg = 
    s.pkg ∧ x.sec = s.sec ∧ x.bw = s.bw ∧ x.time = s.time) (by simp only [and_self]) ?_
  intro s1 ag j b a n h
  simp only [State.qmNeed_frame, h, and_self]

theorem State.streamNeed_ind {P : State → Prop} {s : State} {ag sid : Nat} (h : P s)
    (hq : ∀ s ag j b a n, P s → P (s.qmNeed ag j b a n).1) : P (s.streamNeed ag sid).1 := hq _ _ _ _ _ _ h

@[simp] theorem State.streamNeed_frame (s : State) (ag sid : Nat) :
    (s.streamNeed ag sid).1.tiles = s.tiles ∧ (s.streamNeed ag sid).1.fuses = s.fuses ∧ (s.streamNeed ag 
    sid).1.pending = s.pending ∧ (s.streamNeed ag sid).1.cfg = s.cfg ∧ (s.streamNeed ag sid).1.mgmt = s.mgmt ∧ 
    (s.streamNeed ag sid).1.pkg = s.pkg ∧ (s.streamNeed ag sid).1.sec = s.sec ∧ (s.streamNeed ag sid).1.bw = s.bw 
    ∧ (s.streamNeed ag sid).1.time = s.time := by
  refine State.streamNeed_ind (P := fun x => x.tiles = s.tiles ∧ x.fuses = s.fuses ∧ x.pending = s.pending ∧ x.cfg = s.cfg ∧ x.mgmt = s.mgmt ∧ x.pkg = 
    s.pkg ∧ x.sec = s.sec ∧ x.bw = s.bw ∧ x.time = s.time) (by simp only [and_self]) ?_
  intro s1 ag j b a n h
  simp only [State.qmNeed_frame, h, and_self]

theorem State.jobNeed_ind {P : State → Prop} {s : State} {ag j : Nat} (h : P s)
    (hq : ∀ s ag j b a n, P s → P (s.qmNeed ag j b a n).1) : P (s.jobNeed ag j).1 := hq _ _ _ _ _ _ h

@[simp] theorem State.jobNeed_frame (s : State) (ag j : Nat) :
    (s.jobNeed ag j).1.tiles = s.tiles ∧ (s.jobNeed ag j).1.fuses = s.fuses ∧ (s.jobNeed ag j).1.pending = 
    s.pending ∧ (s.jobNeed ag j).1.cfg = s.cfg ∧ (s.jobNeed ag j).1.mgmt = s.mgmt ∧ (s.jobNeed ag j).1.pkg = s.pkg 
    ∧ (s.jobNeed ag j).1.sec = s.sec ∧ (s.jobNeed ag j).1.bw = s.bw ∧ (s.jobNeed ag j).1.time = s.time := by
  refine State.jobNeed_ind (P := fun x => x.tiles = s.tiles ∧ x.fuses = s.fuses ∧ x.pending = s.pending ∧ x.cfg = s.cfg ∧ x.mgmt = s.mgmt ∧ x.pkg = 
    s.pkg ∧ x.sec = s.sec ∧ x.bw = s.bw ∧ x.time = s.time) (by simp only [and_self]) ?_
  intro s1 ag j b a n h
  simp only [State.qmNeed_frame, h, and_self]

theorem State.streamNext_ind {P : State → Prop} {s : State} {ag sid : Nat} (h : P s)
    (hq : ∀ s ag j b a n, P s → P (s.qmNeed ag j b a n).1) : P (State.streamNext ag sid s).1 := by
  exact State.jobNeed_ind h hq

theorem State.ringNext_ind {P : State → Prop} {s : State} {ag rid : Nat} (h : P s)
    (hq : ∀ s ag j b a n, P s → P (s.qmNeed ag j b a n).1) : P (State.ringNext ag rid s).1 := by
  exact needThen_ind (State.streamNeed_ind h hq) (fun _ h => State.streamNext_ind h hq)

theorem State.entriesNeed_ind {P : State → Prop} {s : State} {ag rid : Nat} (h : P s)
    (hq : ∀ s ag j b a n, P s → P (s.qmNeed ag j b a n).1) : P (s.entriesNeed ag rid).1 :=
  needThen_ind (State.ringNeed_ind h hq) (fun _ h => State.ringNext_ind h hq)

@[simp] theorem State.entriesNeed_frame (s : State) (ag rid : Nat) :
    (s.entriesNeed ag rid).1.tiles = s.tiles ∧ (s.entriesNeed ag rid).1.fuses = s.fuses ∧ (s.entriesNeed ag 
    rid).1.pending = s.pending ∧ (s.entriesNeed ag rid).1.cfg = s.cfg ∧ (s.entriesNeed ag rid).1.mgmt = s.mgmt ∧ 
    (s.entriesNeed ag rid).1.pkg = s.pkg ∧ (s.entriesNeed ag rid).1.sec = s.sec ∧ (s.entriesNeed ag rid).1.bw = 
    s.bw ∧ (s.entriesNeed ag rid).1.time = s.time := by
  refine State.entriesNeed_ind (P := fun x => x.tiles = s.tiles ∧ x.fuses = s.fuses ∧ x.pending = s.pending ∧ x.cfg = s.cfg ∧ x.mgmt = s.mgmt ∧ x.pkg = 
    s.pkg ∧ x.sec = s.sec ∧ x.bw = s.bw ∧ x.time = s.time) (by simp only [and_self]) ?_
  intro s1 ag j b a n h
  simp only [State.qmNeed_frame, h, and_self]

@[simp] theorem State.entriesRead_frame (s : State) (rid sid job : Nat) :
    (State.entriesRead s rid sid job).tiles = s.tiles ∧ (State.entriesRead s rid sid job).fuses = s.fuses ∧ 
    (State.entriesRead s rid sid job).pending = s.pending ∧ (State.entriesRead s rid sid job).cfg = s.cfg ∧ 
    (State.entriesRead s rid sid job).mgmt = s.mgmt ∧ (State.entriesRead s rid sid job).pkg = s.pkg ∧ 
    (State.entriesRead s rid sid job).sec = s.sec ∧ (State.entriesRead s rid sid job).bw = s.bw ∧ 
    (State.entriesRead s rid sid job).time = s.time := by
  simp [State.entriesRead]
@[simp] theorem State.takeEntries_frame (ag rid : Nat) (s : State) :
    (State.takeEntries ag rid s).1.tiles = s.tiles ∧ (State.takeEntries ag rid s).1.fuses = s.fuses ∧ 
    (State.takeEntries ag rid s).1.pending = s.pending ∧ (State.takeEntries ag rid s).1.cfg = s.cfg ∧ 
    (State.takeEntries ag rid s).1.mgmt = s.mgmt ∧ (State.takeEntries ag rid s).1.pkg = s.pkg ∧ (State.takeEntries 
    ag rid s).1.sec = s.sec ∧ (State.takeEntries ag rid s).1.bw = s.bw ∧ (State.takeEntries ag rid s).1.time = 
    s.time := by
  simp [State.takeEntries]
@[simp] theorem State.readEntries_frame (s : State) (rid : Nat) :
    (s.readEntries rid).1.tiles = s.tiles ∧ (s.readEntries rid).1.fuses = s.fuses ∧ (s.readEntries rid).1.pending 
    = s.pending ∧ (s.readEntries rid).1.cfg = s.cfg ∧ (s.readEntries rid).1.mgmt = s.mgmt ∧ (s.readEntries 
    rid).1.pkg = s.pkg ∧ (s.readEntries rid).1.sec = s.sec ∧ (s.readEntries rid).1.bw = s.bw ∧ (s.readEntries 
    rid).1.time = s.time := by
  have h0 := State.entriesNeed_frame s (bellAgent rid) rid
  refine tableRead_ind (P := fun x => x.tiles = s.tiles ∧ x.fuses = s.fuses ∧ x.pending = s.pending ∧ x.cfg = s.cfg ∧ x.mgmt = s.mgmt ∧ x.pkg = 
    s.pkg ∧ x.sec = s.sec ∧ x.bw = s.bw ∧ x.time = s.time) h0 (fun s1 r h1 => ?_) (fun s1 h1 => ?_)
  · simp only [State.tableStop_frame, State.dropFetch_frame, h1, and_self]
  · simp only [State.dropFetch_frame, State.takeEntries_frame, h1, and_self]

@[simp] theorem State.keepEntries_frame (s : State) (rid : Nat) (e : Entries) :
    (State.keepEntries s rid e).tiles = s.tiles ∧ (State.keepEntries s rid e).fuses = s.fuses ∧ (State.keepEntries 
    s rid e).pending = s.pending ∧ (State.keepEntries s rid e).cfg = s.cfg ∧ (State.keepEntries s rid e).mgmt = 
    s.mgmt ∧ (State.keepEntries s rid e).pkg = s.pkg ∧ (State.keepEntries s rid e).sec = s.sec ∧ 
    (State.keepEntries s rid e).bw = s.bw ∧ (State.keepEntries s rid e).time = s.time := by
  simp [State.keepEntries]
@[simp] theorem State.dropBell_frame (s : State) (p v case : Nat) (e : Option Entries) :
    (State.dropBell s p v case e).tiles = s.tiles ∧ (State.dropBell s p v case e).fuses = s.fuses ∧ 
    (State.dropBell s p v case e).pending = s.pending ∧ (State.dropBell s p v case e).cfg = s.cfg ∧ 
    (State.dropBell s p v case e).mgmt = s.mgmt ∧ (State.dropBell s p v case e).pkg = s.pkg ∧ (State.dropBell s p 
    v case e).sec = s.sec ∧ (State.dropBell s p v case e).bw = s.bw ∧ (State.dropBell s p v case e).time = s.time := by
  simp [State.dropBell]
@[simp] theorem State.bellCases_frame (s : State) (p v : Nat) (again running : Bool) (e : Entries) :
    (State.bellCases s p v again running e).tiles = s.tiles ∧ (State.bellCases s p v again running e).fuses = 
    s.fuses ∧ (State.bellCases s p v again running e).pending = s.pending ∧ (State.bellCases s p v again running 
    e).cfg = s.cfg ∧ (State.bellCases s p v again running e).mgmt = s.mgmt ∧ (State.bellCases s p v again running 
    e).pkg = s.pkg ∧ (State.bellCases s p v again running e).sec = s.sec ∧ (State.bellCases s p v again running 
    e).bw = s.bw ∧ (State.bellCases s p v again running e).time = s.time := by
  simp [State.bellCases]
@[simp] theorem State.ringBell_frame (s : State) (p v : Nat) :
    (State.ringBell s p v).1.tiles = s.tiles ∧ (State.ringBell s p v).1.fuses = s.fuses ∧ (State.ringBell s p 
    v).1.pending = s.pending ∧ (State.ringBell s p v).1.cfg = s.cfg ∧ (State.ringBell s p v).1.mgmt = s.mgmt ∧ 
    (State.ringBell s p v).1.pkg = s.pkg ∧ (State.ringBell s p v).1.sec = s.sec ∧ (State.ringBell s p v).1.bw = 
    s.bw ∧ (State.ringBell s p v).1.time = s.time := by
  (unfold State.ringBell; (try simp only []); (repeat' split) <;> (try simp only [Prod.ext_iff] at *) <;> (repeat (rename _ ∧ _ => hx; cases hx)) <;> (try subst_vars) <;> (simp [*]))
@[simp] theorem State.eventBell_frame (s : State) (p v : Nat) :
    (State.eventBell s p v).tiles = s.tiles ∧ (State.eventBell s p v).fuses = s.fuses ∧ (State.eventBell s p 
    v).pending = s.pending ∧ (State.eventBell s p v).cfg = s.cfg ∧ (State.eventBell s p v).mgmt = s.mgmt ∧ 
    (State.eventBell s p v).pkg = s.pkg ∧ (State.eventBell s p v).sec = s.sec ∧ (State.eventBell s p v).bw = s.bw 
    ∧ (State.eventBell s p v).time = s.time := by
  simp [State.eventBell]
@[simp] theorem State.windowWrite_frame (s : State) (p : Nat) (k : Packet) :
    (State.windowWrite s p k).tiles = s.tiles ∧ (State.windowWrite s p k).fuses = s.fuses ∧ (State.windowWrite s p 
    k).pending = s.pending ∧ (State.windowWrite s p k).cfg = s.cfg ∧ (State.windowWrite s p k).mgmt = s.mgmt ∧ 
    (State.windowWrite s p k).pkg = s.pkg ∧ (State.windowWrite s p k).sec = s.sec ∧ (State.windowWrite s p k).bw = 
    s.bw ∧ (State.windowWrite s p k).time = s.time := by
  simp [State.windowWrite]
@[simp] theorem State.bootReadyEvent_frame (s : State) :
    (State.bootReadyEvent s).tiles = s.tiles ∧ (State.bootReadyEvent s).fuses = s.fuses ∧ (State.bootReadyEvent 
    s).pending = s.pending ∧ (State.bootReadyEvent s).cfg = s.cfg ∧ (State.bootReadyEvent s).pkg = s.pkg ∧ 
    (State.bootReadyEvent s).sec = s.sec ∧ (State.bootReadyEvent s).bw = s.bw ∧ (State.bootReadyEvent s).time = 
    s.time := by
  simp [State.bootReadyEvent]
@[simp] theorem State.earlyEvents_frame (s : State) :
    (State.earlyEvents s).tiles = s.tiles ∧ (State.earlyEvents s).fuses = s.fuses ∧ (State.earlyEvents s).pending 
    = s.pending ∧ (State.earlyEvents s).cfg = s.cfg ∧ (State.earlyEvents s).mgmt = s.mgmt ∧ (State.earlyEvents 
    s).pkg = s.pkg ∧ (State.earlyEvents s).sec = s.sec ∧ (State.earlyEvents s).bw = s.bw ∧ (State.earlyEvents 
    s).time = s.time := by
  simp [State.earlyEvents, foldl_tiles, foldl_fuses, foldl_pending, foldl_cfg, foldl_mgmt, foldl_pkg, foldl_sec, foldl_bw, foldl_time, foldlP_tiles, foldlP_fuses, foldlP_pending, foldlP_cfg, foldlP_mgmt, foldlP_pkg, foldlP_sec, foldlP_bw, foldlP_time, foldlW_tiles, foldlW_fuses, foldlW_pending, foldlW_cfg, foldlW_mgmt, foldlW_pkg, foldlW_sec, foldlW_bw, foldlW_time]
@[simp] theorem State.qmCtrl_frame (s : State) (v : Word) :
    (State.qmCtrl s v).tiles = s.tiles ∧ (State.qmCtrl s v).fuses = s.fuses ∧ (State.qmCtrl s v).pending = 
    s.pending ∧ (State.qmCtrl s v).pkg = s.pkg ∧ (State.qmCtrl s v).sec = s.sec ∧ (State.qmCtrl s v).bw = s.bw ∧ 
    (State.qmCtrl s v).time = s.time := by
  simp [State.qmCtrl]
@[simp] theorem State.notify_frame (s : State) :
    (State.notify s).fuses = s.fuses ∧ (State.notify s).pending = s.pending ∧ (State.notify s).cfg = s.cfg ∧ 
    (State.notify s).mgmt = s.mgmt ∧ (State.notify s).pkg = s.pkg ∧ (State.notify s).sec = s.sec ∧ (State.notify 
    s).bw = s.bw ∧ (State.notify s).time = s.time := by
  simp [State.notify]

/-! ### `QmDesc` -/

@[simp] theorem State.readGroup_frame (s : State) (d : Desc) (grp : BitVec 64) :
    (State.readGroup s d grp).tiles = s.tiles ∧ (State.readGroup s d grp).fuses = s.fuses ∧ (State.readGroup s d 
    grp).pending = s.pending ∧ (State.readGroup s d grp).cfg = s.cfg ∧ (State.readGroup s d grp).mgmt = s.mgmt ∧ 
    (State.readGroup s d grp).pkg = s.pkg ∧ (State.readGroup s d grp).sec = s.sec ∧ (State.readGroup s d grp).bw = 
    s.bw ∧ (State.readGroup s d grp).time = s.time := by
  simp only [State.readGroup]; (repeat' split) <;> (simp [*])
@[simp] theorem State.ringStop_frame (s : State) (k : Nat) (e : Ev) (r : Stop) :
    (State.ringStop s k e r).tiles = s.tiles ∧ (State.ringStop s k e r).fuses = s.fuses ∧ (State.ringStop s k e 
    r).pending = s.pending ∧ (State.ringStop s k e r).cfg = s.cfg ∧ (State.ringStop s k e r).mgmt = s.mgmt ∧ 
    (State.ringStop s k e r).pkg = s.pkg ∧ (State.ringStop s k e r).sec = s.sec ∧ (State.ringStop s k e r).bw = 
    s.bw ∧ (State.ringStop s k e r).time = s.time := by
  simp only [State.ringStop]; (repeat' split) <;> (simp [*])
@[simp] theorem State.takeDesc_frame (s : State) (k : Nat) (x : Stream) (log2 : Nat) (ws : List Word) (grp : BitVec 64) :
    (State.takeDesc s k x log2 ws grp).tiles = s.tiles ∧ (State.takeDesc s k x log2 ws grp).fuses = s.fuses ∧ 
    (State.takeDesc s k x log2 ws grp).pending = s.pending ∧ (State.takeDesc s k x log2 ws grp).cfg = s.cfg ∧ 
    (State.takeDesc s k x log2 ws grp).mgmt = s.mgmt ∧ (State.takeDesc s k x log2 ws grp).pkg = s.pkg ∧ 
    (State.takeDesc s k x log2 ws grp).sec = s.sec ∧ (State.takeDesc s k x log2 ws grp).bw = s.bw ∧ 
    (State.takeDesc s k x log2 ws grp).time = s.time := by
  simp [State.takeDesc]
@[simp] theorem State.descFetch_frame (s : State) (k : Nat) (grp : BitVec 64) :
    (State.descFetch s k grp).tiles = s.tiles ∧ (State.descFetch s k grp).fuses = s.fuses ∧ (State.descFetch s k 
    grp).pending = s.pending ∧ (State.descFetch s k grp).cfg = s.cfg ∧ (State.descFetch s k grp).mgmt = s.mgmt ∧ 
    (State.descFetch s k grp).pkg = s.pkg ∧ (State.descFetch s k grp).sec = s.sec ∧ (State.descFetch s k grp).bw = 
    s.bw ∧ (State.descFetch s k grp).time = s.time := by
  (unfold State.descFetch; (try simp only []); (repeat' split) <;> (try simp only [Prod.ext_iff] at *) <;> (repeat (rename _ ∧ _ => hx; cases hx)) <;> (try subst_vars) <;> (simp [*]))
@[simp] theorem State.startDesc_frame (s : State) (d : Desc) :
    (State.startDesc s d).tiles = s.tiles ∧ (State.startDesc s d).fuses = s.fuses ∧ (State.startDesc s d).pending 
    = s.pending ∧ (State.startDesc s d).cfg = s.cfg ∧ (State.startDesc s d).mgmt = s.mgmt ∧ (State.startDesc s 
    d).pkg = s.pkg ∧ (State.startDesc s d).sec = s.sec ∧ (State.startDesc s d).bw = s.bw ∧ (State.startDesc s 
    d).time = s.time := by
  simp [State.startDesc]
@[simp] theorem State.dispatchOver_frame (s : State) (z0 : List Nat) :
    (State.dispatchOver s z0).fuses = s.fuses ∧ (State.dispatchOver s z0).pending = s.pending ∧ 
    (State.dispatchOver s z0).cfg = s.cfg ∧ (State.dispatchOver s z0).mgmt = s.mgmt ∧ (State.dispatchOver s 
    z0).pkg = s.pkg ∧ (State.dispatchOver s z0).sec = s.sec ∧ (State.dispatchOver s z0).bw = s.bw ∧ 
    (State.dispatchOver s z0).time = s.time := by
  induction z0 generalizing s <;> first
  | (simp [State.dispatchOver]; done)
  | ((repeat' apply And.intro) <;> (simp only [State.dispatchOver]; (repeat' (first | split | (with_reducible refine (foldl_tiles _ _ _ (fun _ _ => ?_)).trans ?_) | (with_reducible refine (foldl_fuses _ _ _ (fun _ _ => ?_)).trans ?_) | (with_reducible refine (foldl_pending _ _ _ (fun _ _ => ?_)).trans ?_) | (with_reducible refine (foldl_cfg _ _ _ (fun _ _ => ?_)).trans ?_) | (with_reducible refine (foldl_mgmt _ _ _ (fun _ _ => ?_)).trans ?_) | (with_reducible refine (foldl_pkg _ _ _ (fun _ _ => ?_)).trans ?_) | (with_reducible refine (foldl_sec _ _ _ (fun _ _ => ?_)).trans ?_) | (with_reducible refine (foldl_bw _ _ _ (fun _ _ => ?_)).trans ?_) | (with_reducible refine (foldl_time _ _ _ (fun _ _ => ?_)).trans ?_) | (with_reducible refine (foldlP_tiles _ _ _ (fun _ _ => ?_)).trans ?_) | (with_reducible refine (foldlP_fuses _ _ _ (fun _ _ => ?_)).trans ?_) | (with_reducible refine (foldlP_pending _ _ _ (fun _ _ => ?_)).trans ?_) | (with_reducible refine (foldlP_cfg _ _ _ (fun _ _ => ?_)).trans ?_) | (with_reducible refine (foldlP_mgmt _ _ _ (fun _ _ => ?_)).trans ?_) | (with_reducible refine (foldlP_pkg _ _ _ (fun _ _ => ?_)).trans ?_) | (with_reducible refine (foldlP_sec _ _ _ (fun _ _ => ?_)).trans ?_) | (with_reducible refine (foldlP_bw _ _ _ (fun _ _ => ?_)).trans ?_) | (with_reducible refine (foldlP_time _ _ _ (fun _ _ => ?_)).trans ?_) | (with_reducible refine (foldlW_tiles _ _ _ (fun _ _ => ?_)).trans ?_) | (with_reducible refine (foldlW_fuses _ _ _ (fun _ _ => ?_)).trans ?_) | (with_reducible refine (foldlW_pending _ _ _ (fun _ _ => ?_)).trans ?_) | (with_reducible refine (foldlW_cfg _ _ _ (fun _ _ => ?_)).trans ?_) | (with_reducible refine (foldlW_mgmt _ _ _ (fun _ _ => ?_)).trans ?_) | (with_reducible refine (foldlW_pkg _ _ _ (fun _ _ => ?_)).trans ?_) | (with_reducible refine (foldlW_sec _ _ _ (fun _ _ => ?_)).trans ?_) | (with_reducible refine (foldlW_bw _ _ _ (fun _ _ => ?_)).trans ?_) | (with_reducible refine (foldlW_time _ _ _ (fun _ _ => ?_)).trans ?_))) <;> (simp [*]; done)))

@[simp] theorem State.dispatch_frame (s : State) :
    (State.dispatch s).fuses = s.fuses ∧ (State.dispatch s).pending = s.pending ∧ (State.dispatch s).cfg = s.cfg ∧ 
    (State.dispatch s).mgmt = s.mgmt ∧ (State.dispatch s).pkg = s.pkg ∧ (State.dispatch s).sec = s.sec ∧ 
    (State.dispatch s).bw = s.bw ∧ (State.dispatch s).time = s.time := by
  simp [State.dispatch]
@[simp] theorem State.conclude_frame (s : State) (uid st cause tile : Nat) :
    (State.conclude s uid st cause tile).tiles = s.tiles ∧ (State.conclude s uid st cause tile).fuses = s.fuses ∧ 
    (State.conclude s uid st cause tile).pending = s.pending ∧ (State.conclude s uid st cause tile).cfg = s.cfg ∧ 
    (State.conclude s uid st cause tile).mgmt = s.mgmt ∧ (State.conclude s uid st cause tile).pkg = s.pkg ∧ 
    (State.conclude s uid st cause tile).sec = s.sec ∧ (State.conclude s uid st cause tile).bw = s.bw ∧ 
    (State.conclude s uid st cause tile).time = s.time := by
  simp [State.conclude]
@[simp] theorem State.stopDesc_frame (s : State) (d : Desc) (r : Stop) :
    (State.stopDesc s d r).fuses = s.fuses ∧ (State.stopDesc s d r).pending = s.pending ∧ (State.stopDesc s d 
    r).cfg = s.cfg ∧ (State.stopDesc s d r).mgmt = s.mgmt ∧ (State.stopDesc s d r).pkg = s.pkg ∧ (State.stopDesc s 
    d r).sec = s.sec ∧ (State.stopDesc s d r).bw = s.bw ∧ (State.stopDesc s d r).time = s.time := by
  simp only [State.stopDesc]; (repeat' split) <;> (simp [*])
@[simp] theorem State.compute_frame (s : State) (uid : Nat) :
    (State.compute s uid).fuses = s.fuses ∧ (State.compute s uid).pending = s.pending ∧ (State.compute s uid).cfg 
    = s.cfg ∧ (State.compute s uid).mgmt = s.mgmt ∧ (State.compute s uid).pkg = s.pkg ∧ (State.compute s uid).sec 
    = s.sec ∧ (State.compute s uid).bw = s.bw ∧ (State.compute s uid).time = s.time := by
  ((repeat' apply And.intro) <;> (simp only [State.compute]; (repeat' (first | split | (with_reducible refine (foldl_tiles _ _ _ (fun _ _ => ?_)).trans ?_) | (with_reducible refine (foldl_fuses _ _ _ (fun _ _ => ?_)).trans ?_) | (with_reducible refine (foldl_pending _ _ _ (fun _ _ => ?_)).trans ?_) | (with_reducible refine (foldl_cfg _ _ _ (fun _ _ => ?_)).trans ?_) | (with_reducible refine (foldl_mgmt _ _ _ (fun _ _ => ?_)).trans ?_) | (with_reducible refine (foldl_pkg _ _ _ (fun _ _ => ?_)).trans ?_) | (with_reducible refine (foldl_sec _ _ _ (fun _ _ => ?_)).trans ?_) | (with_reducible refine (foldl_bw _ _ _ (fun _ _ => ?_)).trans ?_) | (with_reducible refine (foldl_time _ _ _ (fun _ _ => ?_)).trans ?_) | (with_reducible refine (foldlP_tiles _ _ _ (fun _ _ => ?_)).trans ?_) | (with_reducible refine (foldlP_fuses _ _ _ (fun _ _ => ?_)).trans ?_) | (with_reducible refine (foldlP_pending _ _ _ (fun _ _ => ?_)).trans ?_) | (with_reducible refine (foldlP_cfg _ _ _ (fun _ _ => ?_)).trans ?_) | (with_reducible refine (foldlP_mgmt _ _ _ (fun _ _ => ?_)).trans ?_) | (with_reducible refine (foldlP_pkg _ _ _ (fun _ _ => ?_)).trans ?_) | (with_reducible refine (foldlP_sec _ _ _ (fun _ _ => ?_)).trans ?_) | (with_reducible refine (foldlP_bw _ _ _ (fun _ _ => ?_)).trans ?_) | (with_reducible refine (foldlP_time _ _ _ (fun _ _ => ?_)).trans ?_) | (with_reducible refine (foldlW_tiles _ _ _ (fun _ _ => ?_)).trans ?_) | (with_reducible refine (foldlW_fuses _ _ _ (fun _ _ => ?_)).trans ?_) | (with_reducible refine (foldlW_pending _ _ _ (fun _ _ => ?_)).trans ?_) | (with_reducible refine (foldlW_cfg _ _ _ (fun _ _ => ?_)).trans ?_) | (with_reducible refine (foldlW_mgmt _ _ _ (fun _ _ => ?_)).trans ?_) | (with_reducible refine (foldlW_pkg _ _ _ (fun _ _ => ?_)).trans ?_) | (with_reducible refine (foldlW_sec _ _ _ (fun _ _ => ?_)).trans ?_) | (with_reducible refine (foldlW_bw _ _ _ (fun _ _ => ?_)).trans ?_) | (with_reducible refine (foldlW_time _ _ _ (fun _ _ => ?_)).trans ?_))) <;> (simp [*])))
@[simp] theorem State.putXfer_frame (s : State) (uid : Nat) (e : QEntry) :
    (State.putXfer s uid e).tiles = s.tiles ∧ (State.putXfer s uid e).fuses = s.fuses ∧ (State.putXfer s uid 
    e).pending = s.pending ∧ (State.putXfer s uid e).cfg = s.cfg ∧ (State.putXfer s uid e).mgmt = s.mgmt ∧ 
    (State.putXfer s uid e).pkg = s.pkg ∧ (State.putXfer s uid e).sec = s.sec ∧ (State.putXfer s uid e).bw = s.bw 
    ∧ (State.putXfer s uid e).time = s.time := by
  simp [State.putXfer]
@[simp] theorem State.copyBegin_frame (s : State) (d : Desc) :
    (State.copyBegin s d).fuses = s.fuses ∧ (State.copyBegin s d).pending = s.pending ∧ (State.copyBegin s d).cfg 
    = s.cfg ∧ (State.copyBegin s d).mgmt = s.mgmt ∧ (State.copyBegin s d).pkg = s.pkg ∧ (State.copyBegin s d).sec 
    = s.sec ∧ (State.copyBegin s d).bw = s.bw ∧ (State.copyBegin s d).time = s.time := by
  simp only [State.copyBegin]; (repeat' split) <;> (simp [*])
@[simp] theorem State.copyLetGo_frame (s : State) (d : Desc) :
    (State.copyLetGo s d).fuses = s.fuses ∧ (State.copyLetGo s d).pending = s.pending ∧ (State.copyLetGo s d).cfg 
    = s.cfg ∧ (State.copyLetGo s d).mgmt = s.mgmt ∧ (State.copyLetGo s d).pkg = s.pkg ∧ (State.copyLetGo s d).sec 
    = s.sec ∧ (State.copyLetGo s d).bw = s.bw ∧ (State.copyLetGo s d).time = s.time := by
  simp [State.copyLetGo]
@[simp] theorem State.copyEnd_frame (s : State) (d : Desc) :
    (State.copyEnd s d).fuses = s.fuses ∧ (State.copyEnd s d).pending = s.pending ∧ (State.copyEnd s d).cfg = 
    s.cfg ∧ (State.copyEnd s d).mgmt = s.mgmt ∧ (State.copyEnd s d).pkg = s.pkg ∧ (State.copyEnd s d).sec = s.sec 
    ∧ (State.copyEnd s d).bw = s.bw ∧ (State.copyEnd s d).time = s.time := by
  ((repeat' apply And.intro) <;> (simp only [State.copyEnd]; (repeat' split) <;> (try simp [*]) <;> (repeat' (first | split | (with_reducible refine (foldl_tiles _ _ _ (fun _ _ => ?_)).trans ?_) | (with_reducible refine (foldl_fuses _ _ _ (fun _ _ => ?_)).trans ?_) | (with_reducible refine (foldl_pending _ _ _ (fun _ _ => ?_)).trans ?_) | (with_reducible refine (foldl_cfg _ _ _ (fun _ _ => ?_)).trans ?_) | (with_reducible refine (foldl_mgmt _ _ _ (fun _ _ => ?_)).trans ?_) | (with_reducible refine (foldl_pkg _ _ _ (fun _ _ => ?_)).trans ?_) | (with_reducible refine (foldl_sec _ _ _ (fun _ _ => ?_)).trans ?_) | (with_reducible refine (foldl_bw _ _ _ (fun _ _ => ?_)).trans ?_) | (with_reducible refine (foldl_time _ _ _ (fun _ _ => ?_)).trans ?_) | (with_reducible refine (foldlP_tiles _ _ _ (fun _ _ => ?_)).trans ?_) | (with_reducible refine (foldlP_fuses _ _ _ (fun _ _ => ?_)).trans ?_) | (with_reducible refine (foldlP_pending _ _ _ (fun _ _ => ?_)).trans ?_) | (with_reducible refine (foldlP_cfg _ _ _ (fun _ _ => ?_)).trans ?_) | (with_reducible refine (foldlP_mgmt _ _ _ (fun _ _ => ?_)).trans ?_) | (with_reducible refine (foldlP_pkg _ _ _ (fun _ _ => ?_)).trans ?_) | (with_reducible refine (foldlP_sec _ _ _ (fun _ _ => ?_)).trans ?_) | (with_reducible refine (foldlP_bw _ _ _ (fun _ _ => ?_)).trans ?_) | (with_reducible refine (foldlP_time _ _ _ (fun _ _ => ?_)).trans ?_) | (with_reducible refine (foldlW_tiles _ _ _ (fun _ _ => ?_)).trans ?_) | (with_reducible refine (foldlW_fuses _ _ _ (fun _ _ => ?_)).trans ?_) | (with_reducible refine (foldlW_pending _ _ _ (fun _ _ => ?_)).trans ?_) | (with_reducible refine (foldlW_cfg _ _ _ (fun _ _ => ?_)).trans ?_) | (with_reducible refine (foldlW_mgmt _ _ _ (fun _ _ => ?_)).trans ?_) | (with_reducible refine (foldlW_pkg _ _ _ (fun _ _ => ?_)).trans ?_) | (with_reducible refine (foldlW_sec _ _ _ (fun _ _ => ?_)).trans ?_) | (with_reducible refine (foldlW_bw _ _ _ (fun _ _ => ?_)).trans ?_) | (with_reducible refine (foldlW_time _ _ _ (fun _ _ => ?_)).trans ?_))) <;> (simp [*, foldl_tiles, foldl_fuses, foldl_pending, foldl_cfg, foldl_mgmt, foldl_pkg, foldl_sec, foldl_bw, foldl_time, foldlP_tiles, foldlP_fuses, foldlP_pending, foldlP_cfg, foldlP_mgmt, foldlP_pkg, foldlP_sec, foldlP_bw, foldlP_time, foldlW_tiles, foldlW_fuses, foldlW_pending, foldlW_cfg, foldlW_mgmt, foldlW_pkg, foldlW_sec, foldlW_bw, foldlW_time])))
@[simp] theorem State.copyStep_frame (s : State) (uid : Nat) :
    (State.copyStep s uid).fuses = s.fuses ∧ (State.copyStep s uid).pending = s.pending ∧ (State.copyStep s 
    uid).cfg = s.cfg ∧ (State.copyStep s uid).mgmt = s.mgmt ∧ (State.copyStep s uid).pkg = s.pkg ∧ (State.copyStep 
    s uid).sec = s.sec ∧ (State.copyStep s uid).bw = s.bw ∧ (State.copyStep s uid).time = s.time := by
  simp only [State.copyStep]; (repeat' split) <;> (simp [*])
@[simp] theorem State.syncDesc_frame (s : State) (uid sop : Nat) :
    (State.syncDesc s uid sop).fuses = s.fuses ∧ (State.syncDesc s uid sop).pending = s.pending ∧ (State.syncDesc 
    s uid sop).cfg = s.cfg ∧ (State.syncDesc s uid sop).mgmt = s.mgmt ∧ (State.syncDesc s uid sop).pkg = s.pkg ∧ 
    (State.syncDesc s uid sop).sec = s.sec ∧ (State.syncDesc s uid sop).bw = s.bw ∧ (State.syncDesc s uid 
    sop).time = s.time := by
  simp only [State.syncDesc]; (repeat' split) <;> (simp [*])
@[simp] theorem State.syncDescEnd_frame (s : State) (uid o : Nat) :
    (State.syncDescEnd s uid o).tiles = s.tiles ∧ (State.syncDescEnd s uid o).fuses = s.fuses ∧ (State.syncDescEnd 
    s uid o).pending = s.pending ∧ (State.syncDescEnd s uid o).cfg = s.cfg ∧ (State.syncDescEnd s uid o).mgmt = 
    s.mgmt ∧ (State.syncDescEnd s uid o).pkg = s.pkg ∧ (State.syncDescEnd s uid o).sec = s.sec ∧ 
    (State.syncDescEnd s uid o).bw = s.bw ∧ (State.syncDescEnd s uid o).time = s.time := by
  simp [State.syncDescEnd]
@[simp] theorem State.deferEnd_frame (s : State) (uid i o : Nat) :
    (State.deferEnd s uid i o).tiles = s.tiles ∧ (State.deferEnd s uid i o).fuses = s.fuses ∧ (State.deferEnd s 
    uid i o).pending = s.pending ∧ (State.deferEnd s uid i o).cfg = s.cfg ∧ (State.deferEnd s uid i o).mgmt = 
    s.mgmt ∧ (State.deferEnd s uid i o).pkg = s.pkg ∧ (State.deferEnd s uid i o).sec = s.sec ∧ (State.deferEnd s 
    uid i o).bw = s.bw ∧ (State.deferEnd s uid i o).time = s.time := by
  simp only [State.deferEnd]; (repeat' split) <;> (simp [*])
@[simp] theorem State.placeBegun_frame (s : State) (uid : Nat) :
    (State.placeBegun s uid).tiles = s.tiles ∧ (State.placeBegun s uid).fuses = s.fuses ∧ (State.placeBegun s 
    uid).pending = s.pending ∧ (State.placeBegun s uid).cfg = s.cfg ∧ (State.placeBegun s uid).mgmt = s.mgmt ∧ 
    (State.placeBegun s uid).pkg = s.pkg ∧ (State.placeBegun s uid).sec = s.sec ∧ (State.placeBegun s uid).bw = 
    s.bw ∧ (State.placeBegun s uid).time = s.time := by
  simp [State.placeBegun]
@[simp] theorem State.placeHint_frame (s : State) (uid hint operand : Nat) :
    (State.placeHint s uid hint operand).tiles = s.tiles ∧ (State.placeHint s uid hint operand).fuses = s.fuses ∧ 
    (State.placeHint s uid hint operand).pending = s.pending ∧ (State.placeHint s uid hint operand).cfg = s.cfg ∧ 
    (State.placeHint s uid hint operand).mgmt = s.mgmt ∧ (State.placeHint s uid hint operand).pkg = s.pkg ∧ 
    (State.placeHint s uid hint operand).sec = s.sec ∧ (State.placeHint s uid hint operand).bw = s.bw ∧ 
    (State.placeHint s uid hint operand).time = s.time := by
  simp only [State.placeHint]; (repeat' split) <;> (simp [*])
@[simp] theorem State.placeActivate_frame (s : State) (uid : Nat) (entry : List Word) :
    (State.placeActivate s uid entry).tiles = s.tiles ∧ (State.placeActivate s uid entry).fuses = s.fuses ∧ 
    (State.placeActivate s uid entry).pending = s.pending ∧ (State.placeActivate s uid entry).cfg = s.cfg ∧ 
    (State.placeActivate s uid entry).mgmt = s.mgmt ∧ (State.placeActivate s uid entry).pkg = s.pkg ∧ 
    (State.placeActivate s uid entry).sec = s.sec ∧ (State.placeActivate s uid entry).bw = s.bw ∧ 
    (State.placeActivate s uid entry).time = s.time := by
  (unfold State.placeActivate; (try simp only []); (repeat' split) <;> (try simp only [Prod.ext_iff] at *) <;> (repeat (rename _ ∧ _ => hx; cases hx)) <;> (try subst_vars) <;> (simp [*]))
@[simp] theorem State.placeReleased_frame (s : State) (uid i : Nat) :
    (State.placeReleased s uid i).fuses = s.fuses ∧ (State.placeReleased s uid i).pending = s.pending ∧ 
    (State.placeReleased s uid i).cfg = s.cfg ∧ (State.placeReleased s uid i).mgmt = s.mgmt ∧ (State.placeReleased 
    s uid i).pkg = s.pkg ∧ (State.placeReleased s uid i).sec = s.sec ∧ (State.placeReleased s uid i).bw = s.bw ∧ 
    (State.placeReleased s uid i).time = s.time := by
  simp [State.placeReleased]
@[simp] theorem State.placeRelease_frame (s : State) (uid : Nat) :
    (State.placeRelease s uid).fuses = s.fuses ∧ (State.placeRelease s uid).pending = s.pending ∧ 
    (State.placeRelease s uid).cfg = s.cfg ∧ (State.placeRelease s uid).mgmt = s.mgmt ∧ (State.placeRelease s 
    uid).pkg = s.pkg ∧ (State.placeRelease s uid).sec = s.sec ∧ (State.placeRelease s uid).bw = s.bw ∧ 
    (State.placeRelease s uid).time = s.time := by
  simp only [State.placeRelease]; (repeat' split) <;> (simp [*])
@[simp] theorem State.reedStored_frame (s : State) (uid : Nat) (e : QEntry) :
    (State.reedStored s uid e).tiles = s.tiles ∧ (State.reedStored s uid e).fuses = s.fuses ∧ (State.reedStored s 
    uid e).pending = s.pending ∧ (State.reedStored s uid e).cfg = s.cfg ∧ (State.reedStored s uid e).mgmt = s.mgmt 
    ∧ (State.reedStored s uid e).pkg = s.pkg ∧ (State.reedStored s uid e).sec = s.sec ∧ (State.reedStored s uid 
    e).bw = s.bw ∧ (State.reedStored s uid e).time = s.time := by
  simp [State.reedStored]
@[simp] theorem State.reedSave_frame (s : State) (d : Desc) (a b : Nat) (img : List Byte × List Byte) (x y : Piece Unit) :
    (s.reedSave d a b img x y).fuses = s.fuses ∧ (s.reedSave d a b img x y).pending = s.pending ∧ (s.reedSave d a 
    b img x y).cfg = s.cfg ∧ (s.reedSave d a b img x y).mgmt = s.mgmt ∧ (s.reedSave d a b img x y).pkg = s.pkg ∧ 
    (s.reedSave d a b img x y).sec = s.sec ∧ (s.reedSave d a b img x y).bw = s.bw ∧ (s.reedSave d a b img x 
    y).time = s.time := by
  cases x <;> cases y <;> simp [State.reedSave]

@[simp] theorem State.reedSpill_frame (s : State) (uid : Nat) :
    (State.reedSpill s uid).fuses = s.fuses ∧ (State.reedSpill s uid).pending = s.pending ∧ (State.reedSpill s 
    uid).cfg = s.cfg ∧ (State.reedSpill s uid).mgmt = s.mgmt ∧ (State.reedSpill s uid).pkg = s.pkg ∧ 
    (State.reedSpill s uid).sec = s.sec ∧ (State.reedSpill s uid).bw = s.bw ∧ (State.reedSpill s uid).time = 
    s.time := by
  unfold State.reedSpill
  cases s.desc uid with
  | none => simp
  | some d =>
    dsimp only
    split
    · simp
    · split
      · split
        · simp
        · split <;> simp
      · split <;> simp

@[simp] theorem State.reedTake_frame (s : State) (d : Desc) (t : Nat) (z0 : Piece (List Byte)) :
    (State.reedTake s d t z0).fuses = s.fuses ∧ (State.reedTake s d t z0).pending = s.pending ∧ (State.reedTake s 
    d t z0).cfg = s.cfg ∧ (State.reedTake s d t z0).mgmt = s.mgmt ∧ (State.reedTake s d t z0).pkg = s.pkg ∧ 
    (State.reedTake s d t z0).sec = s.sec ∧ (State.reedTake s d t z0).bw = s.bw ∧ (State.reedTake s d t z0).time = 
    s.time := by
  induction z0 generalizing s d t <;> (simp [State.reedTake])
@[simp] theorem State.reedFill_frame (s : State) (uid : Nat) :
    (State.reedFill s uid).fuses = s.fuses ∧ (State.reedFill s uid).pending = s.pending ∧ (State.reedFill s 
    uid).cfg = s.cfg ∧ (State.reedFill s uid).mgmt = s.mgmt ∧ (State.reedFill s uid).pkg = s.pkg ∧ (State.reedFill 
    s uid).sec = s.sec ∧ (State.reedFill s uid).bw = s.bw ∧ (State.reedFill s uid).time = s.time := by
  unfold State.reedFill
  cases s.desc uid with
  | none => simp
  | some d =>
    dsimp only
    split
    · simp
    · cases s.reedTile d with
      | none => simp
      | some t =>
        dsimp only
        generalize d.xfer.getD _ = e
        cases ansStop s e with
        | some r => simp
        | none =>
          dsimp only
          split
          · simp
          · simp only [State.reedTake_frame, State.putXfer_frame]
            split <;> simp

/-! ### `QmEnd` -/

@[simp] theorem State.abandonTile_frame (s : State) (t : Nat) :
    (State.abandonTile s t).fuses = s.fuses ∧ (State.abandonTile s t).pending = s.pending ∧ (State.abandonTile s 
    t).cfg = s.cfg ∧ (State.abandonTile s t).mgmt = s.mgmt ∧ (State.abandonTile s t).pkg = s.pkg ∧ 
    (State.abandonTile s t).sec = s.sec ∧ (State.abandonTile s t).bw = s.bw ∧ (State.abandonTile s t).time = 
    s.time := by
  simp [State.abandonTile]
@[simp] theorem State.dropFrames_frame (s : State) (d : Desc) :
    (State.dropFrames s d).tiles = s.tiles ∧ (State.dropFrames s d).fuses = s.fuses ∧ (State.dropFrames s 
    d).pending = s.pending ∧ (State.dropFrames s d).cfg = s.cfg ∧ (State.dropFrames s d).mgmt = s.mgmt ∧ 
    (State.dropFrames s d).pkg = s.pkg ∧ (State.dropFrames s d).sec = s.sec ∧ (State.dropFrames s d).bw = s.bw ∧ 
    (State.dropFrames s d).time = s.time := by
  simp [State.dropFrames]
@[simp] theorem State.dropLogs_frame (s : State) (uid : Nat) :
    (State.dropLogs s uid).tiles = s.tiles ∧ (State.dropLogs s uid).fuses = s.fuses ∧ (State.dropLogs s 
    uid).pending = s.pending ∧ (State.dropLogs s uid).cfg = s.cfg ∧ (State.dropLogs s uid).mgmt = s.mgmt ∧ 
    (State.dropLogs s uid).pkg = s.pkg ∧ (State.dropLogs s uid).sec = s.sec ∧ (State.dropLogs s uid).bw = s.bw ∧ 
    (State.dropLogs s uid).time = s.time := by
  simp [State.dropLogs]
@[simp] theorem State.abandonFor_frame (s : State) (d : Desc) (t : Nat) :
    (State.abandonFor s d t).fuses = s.fuses ∧ (State.abandonFor s d t).pending = s.pending ∧ (State.abandonFor s 
    d t).cfg = s.cfg ∧ (State.abandonFor s d t).mgmt = s.mgmt ∧ (State.abandonFor s d t).pkg = s.pkg ∧ 
    (State.abandonFor s d t).sec = s.sec ∧ (State.abandonFor s d t).bw = s.bw ∧ (State.abandonFor s d t).time = 
    s.time := by
  simp [State.abandonFor]
@[simp] theorem State.abandonMembers_frame (s : State) (d : Desc) :
    (State.abandonMembers s d).fuses = s.fuses ∧ (State.abandonMembers s d).pending = s.pending ∧ 
    (State.abandonMembers s d).cfg = s.cfg ∧ (State.abandonMembers s d).mgmt = s.mgmt ∧ (State.abandonMembers s 
    d).pkg = s.pkg ∧ (State.abandonMembers s d).sec = s.sec ∧ (State.abandonMembers s d).bw = s.bw ∧ 
    (State.abandonMembers s d).time = s.time := by
  simp [State.abandonMembers, foldl_tiles, foldl_fuses, foldl_pending, foldl_cfg, foldl_mgmt, foldl_pkg, foldl_sec, foldl_bw, foldl_time, foldlP_tiles, foldlP_fuses, foldlP_pending, foldlP_cfg, foldlP_mgmt, foldlP_pkg, foldlP_sec, foldlP_bw, foldlP_time, foldlW_tiles, foldlW_fuses, foldlW_pending, foldlW_cfg, foldlW_mgmt, foldlW_pkg, foldlW_sec, foldlW_bw, foldlW_time]
@[simp] theorem State.stopWork_frame (s : State) (d : Desc) :
    (State.stopWork s d).fuses = s.fuses ∧ (State.stopWork s d).pending = s.pending ∧ (State.stopWork s d).cfg = 
    s.cfg ∧ (State.stopWork s d).mgmt = s.mgmt ∧ (State.stopWork s d).pkg = s.pkg ∧ (State.stopWork s d).sec = 
    s.sec ∧ (State.stopWork s d).bw = s.bw ∧ (State.stopWork s d).time = s.time := by
  simp [State.stopWork]
@[simp] theorem State.stashStop_frame (s : State) (e : Ev) (r : Stop) :
    (State.stashStop s e r).tiles = s.tiles ∧ (State.stashStop s e r).fuses = s.fuses ∧ (State.stashStop s e 
    r).pending = s.pending ∧ (State.stashStop s e r).cfg = s.cfg ∧ (State.stashStop s e r).mgmt = s.mgmt ∧ 
    (State.stashStop s e r).pkg = s.pkg ∧ (State.stashStop s e r).sec = s.sec ∧ (State.stashStop s e r).bw = s.bw 
    ∧ (State.stashStop s e r).time = s.time := by
  simp only [State.stashStop]; (repeat' split) <;> (simp [*])
@[simp] theorem State.freeRecord_frame (s : State) (ag job a : Nat) (c : Scb) (id st : Nat) :
    (State.freeRecord s ag job a c id st).tiles = s.tiles ∧ (State.freeRecord s ag job a c id st).fuses = s.fuses 
    ∧ (State.freeRecord s ag job a c id st).pending = s.pending ∧ (State.freeRecord s ag job a c id st).cfg = 
    s.cfg ∧ (State.freeRecord s ag job a c id st).mgmt = s.mgmt ∧ (State.freeRecord s ag job a c id st).pkg = 
    s.pkg ∧ (State.freeRecord s ag job a c id st).sec = s.sec ∧ (State.freeRecord s ag job a c id st).bw = s.bw ∧ 
    (State.freeRecord s ag job a c id st).time = s.time := by
  simp [State.freeRecord]
@[simp] theorem State.stashFree_frame (s : State) (d : Desc) (id st : Nat) (writing : Bool) :
    (State.stashFree s d id st writing).1.tiles = s.tiles ∧ (State.stashFree s d id st writing).1.fuses = s.fuses 
    ∧ (State.stashFree s d id st writing).1.pending = s.pending ∧ (State.stashFree s d id st writing).1.cfg = 
    s.cfg ∧ (State.stashFree s d id st writing).1.mgmt = s.mgmt ∧ (State.stashFree s d id st writing).1.pkg = 
    s.pkg ∧ (State.stashFree s d id st writing).1.sec = s.sec ∧ (State.stashFree s d id st writing).1.bw = s.bw ∧ 
    (State.stashFree s d id st writing).1.time = s.time := by
  (unfold State.stashFree; (try simp only []); (repeat' split) <;> (try simp only [Prod.ext_iff] at *) <;> (repeat (rename _ ∧ _ => hx; cases hx)) <;> (try subst_vars) <;> (simp [*]))
@[simp] theorem State.stashFreeAll_frame (s : State) (d : Desc) (st : Nat) (writing : Bool) (z0 : List Nat) :
    (State.stashFreeAll s d st writing z0).1.tiles = s.tiles ∧ (State.stashFreeAll s d st writing z0).1.fuses = 
    s.fuses ∧ (State.stashFreeAll s d st writing z0).1.pending = s.pending ∧ (State.stashFreeAll s d st writing 
    z0).1.cfg = s.cfg ∧ (State.stashFreeAll s d st writing z0).1.mgmt = s.mgmt ∧ (State.stashFreeAll s d st 
    writing z0).1.pkg = s.pkg ∧ (State.stashFreeAll s d st writing z0).1.sec = s.sec ∧ (State.stashFreeAll s d st 
    writing z0).1.bw = s.bw ∧ (State.stashFreeAll s d st writing z0).1.time = s.time := by
  induction z0 generalizing s d st writing <;> first
  | (simp [State.stashFreeAll]; done)
  | (rw [State.stashFreeAll]; (try simp only []); (repeat' split) <;> (try simp only [Prod.ext_iff] at *) <;> (repeat (rename _ ∧ _ => hx; cases hx)) <;> (try subst_vars) <;> (simp [*]; done))

@[simp] theorem State.killSettle_frame (s : State) (j : Nat) :
    (State.killSettle s j).fuses = s.fuses ∧ (State.killSettle s j).pending = s.pending ∧ (State.killSettle s 
    j).cfg = s.cfg ∧ (State.killSettle s j).mgmt = s.mgmt ∧ (State.killSettle s j).pkg = s.pkg ∧ (State.killSettle 
    s j).sec = s.sec ∧ (State.killSettle s j).bw = s.bw ∧ (State.killSettle s j).time = s.time := by
  simp only [State.killSettle]; (repeat' split) <;> (simp [*])
@[simp] theorem State.forget_frame (s : State) (d : Desc) :
    (State.forget s d).fuses = s.fuses ∧ (State.forget s d).pending = s.pending ∧ (State.forget s d).cfg = s.cfg ∧ 
    (State.forget s d).mgmt = s.mgmt ∧ (State.forget s d).pkg = s.pkg ∧ (State.forget s d).sec = s.sec ∧ 
    (State.forget s d).bw = s.bw ∧ (State.forget s d).time = s.time := by
  simp [State.forget]
@[simp] theorem State.recordStop_frame (s : State) (d : Desc) (r : Stop) :
    (State.recordStop s d r).tiles = s.tiles ∧ (State.recordStop s d r).fuses = s.fuses ∧ (State.recordStop s d 
    r).pending = s.pending ∧ (State.recordStop s d r).cfg = s.cfg ∧ (State.recordStop s d r).mgmt = s.mgmt ∧ 
    (State.recordStop s d r).pkg = s.pkg ∧ (State.recordStop s d r).sec = s.sec ∧ (State.recordStop s d r).bw = 
    s.bw ∧ (State.recordStop s d r).time = s.time := by
  simp [State.recordStop]
@[simp] theorem State.recordPut_frame (s : State) (d : Desc) (x : Stream) (job : Nat) (bs : List Byte) :
    (State.recordPut s d x job bs).tiles = s.tiles ∧ (State.recordPut s d x job bs).fuses = s.fuses ∧ 
    (State.recordPut s d x job bs).pending = s.pending ∧ (State.recordPut s d x job bs).cfg = s.cfg ∧ 
    (State.recordPut s d x job bs).mgmt = s.mgmt ∧ (State.recordPut s d x job bs).pkg = s.pkg ∧ (State.recordPut s 
    d x job bs).sec = s.sec ∧ (State.recordPut s d x job bs).bw = s.bw ∧ (State.recordPut s d x job bs).time = 
    s.time := by
  simp [State.recordPut]
@[simp] theorem State.record_frame (s : State) (d : Desc) :
    (State.record s d).fuses = s.fuses ∧ (State.record s d).pending = s.pending ∧ (State.record s d).cfg = s.cfg ∧ 
    (State.record s d).mgmt = s.mgmt ∧ (State.record s d).pkg = s.pkg ∧ (State.record s d).sec = s.sec ∧ 
    (State.record s d).bw = s.bw ∧ (State.record s d).time = s.time := by
  ((repeat' apply And.intro) <;> (unfold State.record; (repeat' (first | split | (with_reducible refine (foldl_tiles _ _ _ (fun _ _ => ?_)).trans ?_) | (with_reducible refine (foldl_fuses _ _ _ (fun _ _ => ?_)).trans ?_) | (with_reducible refine (foldl_pending _ _ _ (fun _ _ => ?_)).trans ?_) | (with_reducible refine (foldl_cfg _ _ _ (fun _ _ => ?_)).trans ?_) | (with_reducible refine (foldl_mgmt _ _ _ (fun _ _ => ?_)).trans ?_) | (with_reducible refine (foldl_pkg _ _ _ (fun _ _ => ?_)).trans ?_) | (with_reducible refine (foldl_sec _ _ _ (fun _ _ => ?_)).trans ?_) | (with_reducible refine (foldl_bw _ _ _ (fun _ _ => ?_)).trans ?_) | (with_reducible refine (foldl_time _ _ _ (fun _ _ => ?_)).trans ?_) | (with_reducible refine (foldlP_tiles _ _ _ (fun _ _ => ?_)).trans ?_) | (with_reducible refine (foldlP_fuses _ _ _ (fun _ _ => ?_)).trans ?_) | (with_reducible refine (foldlP_pending _ _ _ (fun _ _ => ?_)).trans ?_) | (with_reducible refine (foldlP_cfg _ _ _ (fun _ _ => ?_)).trans ?_) | (with_reducible refine (foldlP_mgmt _ _ _ (fun _ _ => ?_)).trans ?_) | (with_reducible refine (foldlP_pkg _ _ _ (fun _ _ => ?_)).trans ?_) | (with_reducible refine (foldlP_sec _ _ _ (fun _ _ => ?_)).trans ?_) | (with_reducible refine (foldlP_bw _ _ _ (fun _ _ => ?_)).trans ?_) | (with_reducible refine (foldlP_time _ _ _ (fun _ _ => ?_)).trans ?_) | (with_reducible refine (foldlW_tiles _ _ _ (fun _ _ => ?_)).trans ?_) | (with_reducible refine (foldlW_fuses _ _ _ (fun _ _ => ?_)).trans ?_) | (with_reducible refine (foldlW_pending _ _ _ (fun _ _ => ?_)).trans ?_) | (with_reducible refine (foldlW_cfg _ _ _ (fun _ _ => ?_)).trans ?_) | (with_reducible refine (foldlW_mgmt _ _ _ (fun _ _ => ?_)).trans ?_) | (with_reducible refine (foldlW_pkg _ _ _ (fun _ _ => ?_)).trans ?_) | (with_reducible refine (foldlW_sec _ _ _ (fun _ _ => ?_)).trans ?_) | (with_reducible refine (foldlW_bw _ _ _ (fun _ _ => ?_)).trans ?_) | (with_reducible refine (foldlW_time _ _ _ (fun _ _ => ?_)).trans ?_))) <;> (simp [*])))
@[simp] theorem State.sendDeferred_frame (s : State) (d : Desc) :
    (State.sendDeferred s d).tiles = s.tiles ∧ (State.sendDeferred s d).fuses = s.fuses ∧ (State.sendDeferred s 
    d).pending = s.pending ∧ (State.sendDeferred s d).cfg = s.cfg ∧ (State.sendDeferred s d).mgmt = s.mgmt ∧ 
    (State.sendDeferred s d).pkg = s.pkg ∧ (State.sendDeferred s d).sec = s.sec ∧ (State.sendDeferred s d).bw = 
    s.bw ∧ (State.sendDeferred s d).time = s.time := by
  simp [State.sendDeferred, foldl_tiles, foldl_fuses, foldl_pending, foldl_cfg, foldl_mgmt, foldl_pkg, foldl_sec, foldl_bw, foldl_time, foldlP_tiles, foldlP_fuses, foldlP_pending, foldlP_cfg, foldlP_mgmt, foldlP_pkg, foldlP_sec, foldlP_bw, foldlP_time, foldlW_tiles, foldlW_fuses, foldlW_pending, foldlW_cfg, foldlW_mgmt, foldlW_pkg, foldlW_sec, foldlW_bw, foldlW_time]
@[simp] theorem State.clearMembers_frame (s : State) (d : Desc) :
    (State.clearMembers s d).fuses = s.fuses ∧ (State.clearMembers s d).pending = s.pending ∧ (State.clearMembers 
    s d).cfg = s.cfg ∧ (State.clearMembers s d).mgmt = s.mgmt ∧ (State.clearMembers s d).pkg = s.pkg ∧ 
    (State.clearMembers s d).sec = s.sec ∧ (State.clearMembers s d).bw = s.bw ∧ (State.clearMembers s d).time = 
    s.time := by
  simp [State.clearMembers, foldl_tiles, foldl_fuses, foldl_pending, foldl_cfg, foldl_mgmt, foldl_pkg, foldl_sec, foldl_bw, foldl_time, foldlP_tiles, foldlP_fuses, foldlP_pending, foldlP_cfg, foldlP_mgmt, foldlP_pkg, foldlP_sec, foldlP_bw, foldlP_time, foldlW_tiles, foldlW_fuses, foldlW_pending, foldlW_cfg, foldlW_mgmt, foldlW_pkg, foldlW_sec, foldlW_bw, foldlW_time]
@[simp] theorem State.finish_frame (s : State) (d : Desc) :
    (State.finish s d).fuses = s.fuses ∧ (State.finish s d).pending = s.pending ∧ (State.finish s d).cfg = s.cfg ∧ 
    (State.finish s d).mgmt = s.mgmt ∧ (State.finish s d).pkg = s.pkg ∧ (State.finish s d).sec = s.sec ∧ 
    (State.finish s d).bw = s.bw ∧ (State.finish s d).time = s.time := by
  simp [State.finish]
@[simp] theorem State.recordIf_frame (s : State) (uid : Nat) :
    (State.recordIf s uid).fuses = s.fuses ∧ (State.recordIf s uid).pending = s.pending ∧ (State.recordIf s 
    uid).cfg = s.cfg ∧ (State.recordIf s uid).mgmt = s.mgmt ∧ (State.recordIf s uid).pkg = s.pkg ∧ (State.recordIf 
    s uid).sec = s.sec ∧ (State.recordIf s uid).bw = s.bw ∧ (State.recordIf s uid).time = s.time := by
  simp only [State.recordIf]; (repeat' split) <;> (simp [*])
@[simp] theorem State.finishNow_frame (s : State) (uid : Nat) :
    (State.finishNow s uid).fuses = s.fuses ∧ (State.finishNow s uid).pending = s.pending ∧ (State.finishNow s 
    uid).cfg = s.cfg ∧ (State.finishNow s uid).mgmt = s.mgmt ∧ (State.finishNow s uid).pkg = s.pkg ∧ 
    (State.finishNow s uid).sec = s.sec ∧ (State.finishNow s uid).bw = s.bw ∧ (State.finishNow s uid).time = 
    s.time := by
  simp only [State.finishNow]; (repeat' split) <;> (simp [*])
@[simp] theorem State.descComplete_frame (s : State) (uid : Nat) :
    (State.descComplete s uid).fuses = s.fuses ∧ (State.descComplete s uid).pending = s.pending ∧ 
    (State.descComplete s uid).cfg = s.cfg ∧ (State.descComplete s uid).mgmt = s.mgmt ∧ (State.descComplete s 
    uid).pkg = s.pkg ∧ (State.descComplete s uid).sec = s.sec ∧ (State.descComplete s uid).bw = s.bw ∧ 
    (State.descComplete s uid).time = s.time := by
  simp only [State.descComplete]; (repeat' split) <;> (simp [*])
@[simp] theorem State.needMember_frame (s : State) (d : Desc) (x : Stream) (m : Nat) (f : Frame) :
    (State.needMember s d x m f).1.tiles = s.tiles ∧ (State.needMember s d x m f).1.fuses = s.fuses ∧ 
    (State.needMember s d x m f).1.pending = s.pending ∧ (State.needMember s d x m f).1.cfg = s.cfg ∧ 
    (State.needMember s d x m f).1.mgmt = s.mgmt ∧ (State.needMember s d x m f).1.pkg = s.pkg ∧ (State.needMember 
    s d x m f).1.sec = s.sec ∧ (State.needMember s d x m f).1.bw = s.bw ∧ (State.needMember s d x m f).1.time = 
    s.time := by
  (unfold State.needMember; (try simp only []); (repeat' split) <;> (try simp only [Prod.ext_iff] at *) <;> (repeat (rename _ ∧ _ => hx; cases hx)) <;> (try subst_vars) <;> (simp [*]))
@[simp] theorem State.needMembers_frame (s : State) (d : Desc) (x : Stream) (z0 : List (Nat × Frame)) :
    (State.needMembers s d x z0).1.tiles = s.tiles ∧ (State.needMembers s d x z0).1.fuses = s.fuses ∧ 
    (State.needMembers s d x z0).1.pending = s.pending ∧ (State.needMembers s d x z0).1.cfg = s.cfg ∧ 
    (State.needMembers s d x z0).1.mgmt = s.mgmt ∧ (State.needMembers s d x z0).1.pkg = s.pkg ∧ (State.needMembers 
    s d x z0).1.sec = s.sec ∧ (State.needMembers s d x z0).1.bw = s.bw ∧ (State.needMembers s d x z0).1.time = 
    s.time := by
  induction z0 generalizing s d x <;> first
  | (simp [State.needMembers]; done)
  | (rw [State.needMembers]; (try simp only []); (repeat' split) <;> (try simp only [Prod.ext_iff] at *) <;> (repeat (rename _ ∧ _ => hx; cases hx)) <;> (try subst_vars) <;> (simp [*]; done))

@[simp] theorem State.restoreMember_frame (s : State) (d : Desc) (x : Stream) (m : Nat) (f : Frame) :
    (State.restoreMember s d x m f).fuses = s.fuses ∧ (State.restoreMember s d x m f).pending = s.pending ∧ 
    (State.restoreMember s d x m f).cfg = s.cfg ∧ (State.restoreMember s d x m f).mgmt = s.mgmt ∧ 
    (State.restoreMember s d x m f).pkg = s.pkg ∧ (State.restoreMember s d x m f).sec = s.sec ∧ 
    (State.restoreMember s d x m f).bw = s.bw ∧ (State.restoreMember s d x m f).time = s.time := by
  simp [State.restoreMember]
@[simp] theorem State.restoreAll_frame (s : State) (d : Desc) (x : Stream) (fs : List (Nat × Frame)) :
    (State.restoreAll s d x fs).fuses = s.fuses ∧ (State.restoreAll s d x fs).pending = s.pending ∧ 
    (State.restoreAll s d x fs).cfg = s.cfg ∧ (State.restoreAll s d x fs).mgmt = s.mgmt ∧ (State.restoreAll s d x 
    fs).pkg = s.pkg ∧ (State.restoreAll s d x fs).sec = s.sec ∧ (State.restoreAll s d x fs).bw = s.bw ∧ 
    (State.restoreAll s d x fs).time = s.time := by
  simp [State.restoreAll, foldl_tiles, foldl_fuses, foldl_pending, foldl_cfg, foldl_mgmt, foldl_pkg, foldl_sec, foldl_bw, foldl_time, foldlP_tiles, foldlP_fuses, foldlP_pending, foldlP_cfg, foldlP_mgmt, foldlP_pkg, foldlP_sec, foldlP_bw, foldlP_time, foldlW_tiles, foldlW_fuses, foldlW_pending, foldlW_cfg, foldlW_mgmt, foldlW_pkg, foldlW_sec, foldlW_bw, foldlW_time]
@[simp] theorem State.restartDesc_frame (s : State) (d : Desc) :
    (State.restartDesc s d).fuses = s.fuses ∧ (State.restartDesc s d).pending = s.pending ∧ (State.restartDesc s 
    d).cfg = s.cfg ∧ (State.restartDesc s d).mgmt = s.mgmt ∧ (State.restartDesc s d).pkg = s.pkg ∧ 
    (State.restartDesc s d).sec = s.sec ∧ (State.restartDesc s d).bw = s.bw ∧ (State.restartDesc s d).time = 
    s.time := by
  simp [State.restartDesc]
@[simp] theorem State.resumeFrames_frame (s : State) (d : Desc) (x : Stream) (ok : Bool) (fs : List (Nat × Frame)) :
    (State.resumeFrames s d x ok fs).fuses = s.fuses ∧ (State.resumeFrames s d x ok fs).pending = s.pending ∧ 
    (State.resumeFrames s d x ok fs).cfg = s.cfg ∧ (State.resumeFrames s d x ok fs).mgmt = s.mgmt ∧ 
    (State.resumeFrames s d x ok fs).pkg = s.pkg ∧ (State.resumeFrames s d x ok fs).sec = s.sec ∧ 
    (State.resumeFrames s d x ok fs).bw = s.bw ∧ (State.resumeFrames s d x ok fs).time = s.time := by
  (unfold State.resumeFrames; (try simp only []); (repeat' split) <;> (try simp only [Prod.ext_iff] at *) <;> (repeat (rename _ ∧ _ => hx; cases hx)) <;> (try subst_vars) <;> (simp [*]))
@[simp] theorem State.descResume_frame (s : State) (uid : Nat) (ok : Bool) :
    (State.descResume s uid ok).fuses = s.fuses ∧ (State.descResume s uid ok).pending = s.pending ∧ 
    (State.descResume s uid ok).cfg = s.cfg ∧ (State.descResume s uid ok).mgmt = s.mgmt ∧ (State.descResume s uid 
    ok).pkg = s.pkg ∧ (State.descResume s uid ok).sec = s.sec ∧ (State.descResume s uid ok).bw = s.bw ∧ 
    (State.descResume s uid ok).time = s.time := by
  unfold State.descResume
  split
  · simp
  · dsimp only
    (repeat' split)
    all_goals first
      | (simp; done)
      | ((repeat' apply And.intro) <;> (simp [foldl_fuses, foldl_cfg, foldl_mgmt, foldl_pkg, foldl_sec, foldl_bw, foldl_time, foldl_pending]; done))
      | (rename_i hh; have h1 := State.restoreAll_frame _ _ _ hh; simp [h1]; done)

@[simp] theorem State.timeout_frame (s : State) (uid : Nat) :
    (State.timeout s uid).fuses = s.fuses ∧ (State.timeout s uid).pending = s.pending ∧ (State.timeout s uid).cfg 
    = s.cfg ∧ (State.timeout s uid).mgmt = s.mgmt ∧ (State.timeout s uid).pkg = s.pkg ∧ (State.timeout s uid).sec 
    = s.sec ∧ (State.timeout s uid).bw = s.bw ∧ (State.timeout s uid).time = s.time := by
  simp only [State.timeout]; (repeat' split) <;> (simp [*])
@[simp] theorem State.killDesc_frame (s : State) (d : Desc) (st cause : Nat) :
    (State.killDesc s d st cause).fuses = s.fuses ∧ (State.killDesc s d st cause).pending = s.pending ∧ 
    (State.killDesc s d st cause).cfg = s.cfg ∧ (State.killDesc s d st cause).mgmt = s.mgmt ∧ (State.killDesc s d 
    st cause).pkg = s.pkg ∧ (State.killDesc s d st cause).sec = s.sec ∧ (State.killDesc s d st cause).bw = s.bw ∧ 
    (State.killDesc s d st cause).time = s.time := by
  simp [State.killDesc]
@[simp] theorem State.resetStream_frame (s : State) (k : Nat) :
    (State.resetStream s k).tiles = s.tiles ∧ (State.resetStream s k).fuses = s.fuses ∧ (State.resetStream s 
    k).pending = s.pending ∧ (State.resetStream s k).cfg = s.cfg ∧ (State.resetStream s k).mgmt = s.mgmt ∧ 
    (State.resetStream s k).pkg = s.pkg ∧ (State.resetStream s k).sec = s.sec ∧ (State.resetStream s k).bw = s.bw 
    ∧ (State.resetStream s k).time = s.time := by
  simp [State.resetStream]
@[simp] theorem State.killTile_frame (s : State) (t j : Nat) (retain : Bool) :
    (State.killTile s t j retain).fuses = s.fuses ∧ (State.killTile s t j retain).pending = s.pending ∧ 
    (State.killTile s t j retain).cfg = s.cfg ∧ (State.killTile s t j retain).mgmt = s.mgmt ∧ (State.killTile s t 
    j retain).pkg = s.pkg ∧ (State.killTile s t j retain).sec = s.sec ∧ (State.killTile s t j retain).bw = s.bw ∧ 
    (State.killTile s t j retain).time = s.time := by
  simp [State.killTile]
@[simp] theorem State.beginKill_frame (s : State) (uid j : Nat) (x : Job) (cores : Nat) :
    (State.beginKill s uid j x cores).tiles = s.tiles ∧ (State.beginKill s uid j x cores).fuses = s.fuses ∧ 
    (State.beginKill s uid j x cores).pending = s.pending ∧ (State.beginKill s uid j x cores).cfg = s.cfg ∧ 
    (State.beginKill s uid j x cores).mgmt = s.mgmt ∧ (State.beginKill s uid j x cores).pkg = s.pkg ∧ 
    (State.beginKill s uid j x cores).sec = s.sec ∧ (State.beginKill s uid j x cores).bw = s.bw ∧ (State.beginKill 
    s uid j x cores).time = s.time := by
  simp [State.beginKill]
@[simp] theorem State.killDescs_frame (s : State) (uid j : Nat) :
    (State.killDescs s uid j).fuses = s.fuses ∧ (State.killDescs s uid j).pending = s.pending ∧ (State.killDescs s 
    uid j).cfg = s.cfg ∧ (State.killDescs s uid j).mgmt = s.mgmt ∧ (State.killDescs s uid j).pkg = s.pkg ∧ 
    (State.killDescs s uid j).sec = s.sec ∧ (State.killDescs s uid j).bw = s.bw ∧ (State.killDescs s uid j).time = 
    s.time := by
  simp [State.killDescs, foldl_tiles, foldl_fuses, foldl_pending, foldl_cfg, foldl_mgmt, foldl_pkg, foldl_sec, foldl_bw, foldl_time, foldlP_tiles, foldlP_fuses, foldlP_pending, foldlP_cfg, foldlP_mgmt, foldlP_pkg, foldlP_sec, foldlP_bw, foldlP_time, foldlW_tiles, foldlW_fuses, foldlW_pending, foldlW_cfg, foldlW_mgmt, foldlW_pkg, foldlW_sec, foldlW_bw, foldlW_time]
@[simp] theorem State.dropReeds_frame (s : State) (j : Nat) :
    (State.dropReeds s j).fuses = s.fuses ∧ (State.dropReeds s j).pending = s.pending ∧ (State.dropReeds s j).cfg 
    = s.cfg ∧ (State.dropReeds s j).mgmt = s.mgmt ∧ (State.dropReeds s j).pkg = s.pkg ∧ (State.dropReeds s j).sec 
    = s.sec ∧ (State.dropReeds s j).bw = s.bw ∧ (State.dropReeds s j).time = s.time := by
  simp [State.dropReeds]
@[simp] theorem State.stopStreams_frame (s : State) (j : Nat) :
    (State.stopStreams s j).tiles = s.tiles ∧ (State.stopStreams s j).fuses = s.fuses ∧ (State.stopStreams s 
    j).pending = s.pending ∧ (State.stopStreams s j).cfg = s.cfg ∧ (State.stopStreams s j).mgmt = s.mgmt ∧ 
    (State.stopStreams s j).pkg = s.pkg ∧ (State.stopStreams s j).sec = s.sec ∧ (State.stopStreams s j).bw = s.bw 
    ∧ (State.stopStreams s j).time = s.time := by
  simp [State.stopStreams, foldl_tiles, foldl_fuses, foldl_pending, foldl_cfg, foldl_mgmt, foldl_pkg, foldl_sec, foldl_bw, foldl_time, foldlP_tiles, foldlP_fuses, foldlP_pending, foldlP_cfg, foldlP_mgmt, foldlP_pkg, foldlP_sec, foldlP_bw, foldlP_time, foldlW_tiles, foldlW_fuses, foldlW_pending, foldlW_cfg, foldlW_mgmt, foldlW_pkg, foldlW_sec, foldlW_bw, foldlW_time]
@[simp] theorem State.killJob_frame (s : State) (uid j : Nat) (x : Job) :
    (State.killJob s uid j x).fuses = s.fuses ∧ (State.killJob s uid j x).pending = s.pending ∧ (State.killJob s 
    uid j x).cfg = s.cfg ∧ (State.killJob s uid j x).mgmt = s.mgmt ∧ (State.killJob s uid j x).pkg = s.pkg ∧ 
    (State.killJob s uid j x).sec = s.sec ∧ (State.killJob s uid j x).bw = s.bw ∧ (State.killJob s uid j x).time = 
    s.time := by
  simp [State.killJob, foldl_tiles, foldl_fuses, foldl_pending, foldl_cfg, foldl_mgmt, foldl_pkg, foldl_sec, foldl_bw, foldl_time, foldlP_tiles, foldlP_fuses, foldlP_pending, foldlP_cfg, foldlP_mgmt, foldlP_pkg, foldlP_sec, foldlP_bw, foldlP_time, foldlW_tiles, foldlW_fuses, foldlW_pending, foldlW_cfg, foldlW_mgmt, foldlW_pkg, foldlW_sec, foldlW_bw, foldlW_time]
@[simp] theorem State.takeJob_frame (ag j : Nat) (s : State) :
    (State.takeJob ag j s).1.tiles = s.tiles ∧ (State.takeJob ag j s).1.fuses = s.fuses ∧ (State.takeJob ag j 
    s).1.pending = s.pending ∧ (State.takeJob ag j s).1.cfg = s.cfg ∧ (State.takeJob ag j s).1.mgmt = s.mgmt ∧ 
    (State.takeJob ag j s).1.pkg = s.pkg ∧ (State.takeJob ag j s).1.sec = s.sec ∧ (State.takeJob ag j s).1.bw = 
    s.bw ∧ (State.takeJob ag j s).1.time = s.time := by
  simp [State.takeJob]
@[simp] theorem State.takeStream_frame (ag k : Nat) (s : State) :
    (State.takeStream ag k s).1.tiles = s.tiles ∧ (State.takeStream ag k s).1.fuses = s.fuses ∧ (State.takeStream 
    ag k s).1.pending = s.pending ∧ (State.takeStream ag k s).1.cfg = s.cfg ∧ (State.takeStream ag k s).1.mgmt = 
    s.mgmt ∧ (State.takeStream ag k s).1.pkg = s.pkg ∧ (State.takeStream ag k s).1.sec = s.sec ∧ (State.takeStream 
    ag k s).1.bw = s.bw ∧ (State.takeStream ag k s).1.time = s.time := by
  simp [State.takeStream]
@[simp] theorem State.targetJob_frame (s : State) (uid j : Nat) :
    (s.targetJob uid j).1.tiles = s.tiles ∧ (s.targetJob uid j).1.fuses = s.fuses ∧ (s.targetJob uid j).1.pending 
    = s.pending ∧ (s.targetJob uid j).1.cfg = s.cfg ∧ (s.targetJob uid j).1.mgmt = s.mgmt ∧ (s.targetJob uid 
    j).1.pkg = s.pkg ∧ (s.targetJob uid j).1.sec = s.sec ∧ (s.targetJob uid j).1.bw = s.bw ∧ (s.targetJob uid 
    j).1.time = s.time := by
  unfold State.targetJob
  split
  · simp only [and_self]
  · refine tableRead_ind (P := fun x => x.tiles = s.tiles ∧ x.fuses = s.fuses ∧ x.pending = s.pending ∧ x.cfg = s.cfg ∧ x.mgmt = s.mgmt ∧ x.pkg = 
    s.pkg ∧ x.sec = s.sec ∧ x.bw = s.bw ∧ x.time = s.time) (State.jobNeed_frame s _ _) (fun s1 r h1 => ?_) (fun s1 h1 => ?_)
    · simp only [State.tableStop_frame, State.dropFetch_frame, h1, and_self]
    · simp only [State.dropFetch_frame, State.takeJob_frame, h1, and_self]

@[simp] theorem State.targetStream_frame (s : State) (uid k : Nat) :
    (s.targetStream uid k).1.tiles = s.tiles ∧ (s.targetStream uid k).1.fuses = s.fuses ∧ (s.targetStream uid 
    k).1.pending = s.pending ∧ (s.targetStream uid k).1.cfg = s.cfg ∧ (s.targetStream uid k).1.mgmt = s.mgmt ∧ 
    (s.targetStream uid k).1.pkg = s.pkg ∧ (s.targetStream uid k).1.sec = s.sec ∧ (s.targetStream uid k).1.bw = 
    s.bw ∧ (s.targetStream uid k).1.time = s.time := by
  unfold State.targetStream
  split
  · simp only [and_self]
  · refine tableRead_ind (P := fun x => x.tiles = s.tiles ∧ x.fuses = s.fuses ∧ x.pending = s.pending ∧ x.cfg = s.cfg ∧ x.mgmt = s.mgmt ∧ x.pkg = 
    s.pkg ∧ x.sec = s.sec ∧ x.bw = s.bw ∧ x.time = s.time) (State.streamNeed_frame s _ _) (fun s1 r h1 => ?_) (fun s1 h1 => ?_)
    · simp only [State.tableStop_frame, State.dropFetch_frame, h1, and_self]
    · simp only [State.dropFetch_frame, State.takeStream_frame, h1, and_self]

@[simp] theorem State.scrubNoJob_frame (s : State) (d : Desc) :
    (State.scrubNoJob s d).tiles = s.tiles ∧ (State.scrubNoJob s d).fuses = s.fuses ∧ (State.scrubNoJob s 
    d).pending = s.pending ∧ (State.scrubNoJob s d).cfg = s.cfg ∧ (State.scrubNoJob s d).mgmt = s.mgmt ∧ 
    (State.scrubNoJob s d).pkg = s.pkg ∧ (State.scrubNoJob s d).sec = s.sec ∧ (State.scrubNoJob s d).bw = s.bw ∧ 
    (State.scrubNoJob s d).time = s.time := by
  simp [State.scrubNoJob]
@[simp] theorem State.scrubJobAt_frame (s : State) (d : Desc) (j : Nat) (x : Job) :
    (State.scrubJobAt s d j x).fuses = s.fuses ∧ (State.scrubJobAt s d j x).pending = s.pending ∧ 
    (State.scrubJobAt s d j x).cfg = s.cfg ∧ (State.scrubJobAt s d j x).mgmt = s.mgmt ∧ (State.scrubJobAt s d j 
    x).pkg = s.pkg ∧ (State.scrubJobAt s d j x).sec = s.sec ∧ (State.scrubJobAt s d j x).bw = s.bw ∧ 
    (State.scrubJobAt s d j x).time = s.time := by
  simp only [State.scrubJobAt]; (repeat' split) <;> (simp [*])
@[simp] theorem State.scrubJob_frame (s : State) (uid : Nat) :
    (State.scrubJob s uid).fuses = s.fuses ∧ (State.scrubJob s uid).pending = s.pending ∧ (State.scrubJob s 
    uid).cfg = s.cfg ∧ (State.scrubJob s uid).mgmt = s.mgmt ∧ (State.scrubJob s uid).pkg = s.pkg ∧ (State.scrubJob 
    s uid).sec = s.sec ∧ (State.scrubJob s uid).bw = s.bw ∧ (State.scrubJob s uid).time = s.time := by
  (unfold State.scrubJob; (try simp only []); (repeat' split) <;> (try simp only [Prod.ext_iff] at *) <;> (repeat (rename _ ∧ _ => hx; cases hx)) <;> (try subst_vars) <;> (simp [*]))
@[simp] theorem State.holdStream_frame (s : State) (k : Nat) (x : Stream) :
    (State.holdStream s k x).tiles = s.tiles ∧ (State.holdStream s k x).fuses = s.fuses ∧ (State.holdStream s k 
    x).pending = s.pending ∧ (State.holdStream s k x).cfg = s.cfg ∧ (State.holdStream s k x).mgmt = s.mgmt ∧ 
    (State.holdStream s k x).pkg = s.pkg ∧ (State.holdStream s k x).sec = s.sec ∧ (State.holdStream s k x).bw = 
    s.bw ∧ (State.holdStream s k x).time = s.time := by
  simp [State.holdStream]
@[simp] theorem State.endStarted_frame (s : State) (k uid : Nat) :
    (State.endStarted s k uid).fuses = s.fuses ∧ (State.endStarted s k uid).pending = s.pending ∧ 
    (State.endStarted s k uid).cfg = s.cfg ∧ (State.endStarted s k uid).mgmt = s.mgmt ∧ (State.endStarted s k 
    uid).pkg = s.pkg ∧ (State.endStarted s k uid).sec = s.sec ∧ (State.endStarted s k uid).bw = s.bw ∧ 
    (State.endStarted s k uid).time = s.time := by
  simp [State.endStarted, foldl_tiles, foldl_fuses, foldl_pending, foldl_cfg, foldl_mgmt, foldl_pkg, foldl_sec, foldl_bw, foldl_time, foldlP_tiles, foldlP_fuses, foldlP_pending, foldlP_cfg, foldlP_mgmt, foldlP_pkg, foldlP_sec, foldlP_bw, foldlP_time, foldlW_tiles, foldlW_fuses, foldlW_pending, foldlW_cfg, foldlW_mgmt, foldlW_pkg, foldlW_sec, foldlW_bw, foldlW_time]
@[simp] theorem State.scrubStream_frame (s : State) (uid : Nat) :
    (State.scrubStream s uid).fuses = s.fuses ∧ (State.scrubStream s uid).pending = s.pending ∧ (State.scrubStream 
    s uid).cfg = s.cfg ∧ (State.scrubStream s uid).mgmt = s.mgmt ∧ (State.scrubStream s uid).pkg = s.pkg ∧ 
    (State.scrubStream s uid).sec = s.sec ∧ (State.scrubStream s uid).bw = s.bw ∧ (State.scrubStream s uid).time = 
    s.time := by
  (unfold State.scrubStream; (try simp only []); (repeat' split) <;> (try simp only [Prod.ext_iff] at *) <;> (repeat (rename _ ∧ _ => hx; cases hx)) <;> (try subst_vars) <;> (simp [*]))
@[simp] theorem State.jobKillDone_frame (s : State) (j : Nat) :
    (State.jobKillDone s j).fuses = s.fuses ∧ (State.jobKillDone s j).pending = s.pending ∧ (State.jobKillDone s 
    j).cfg = s.cfg ∧ (State.jobKillDone s j).mgmt = s.mgmt ∧ (State.jobKillDone s j).pkg = s.pkg ∧ 
    (State.jobKillDone s j).sec = s.sec ∧ (State.jobKillDone s j).bw = s.bw ∧ (State.jobKillDone s j).time = 
    s.time := by
  simp only [State.jobKillDone]; (repeat' split) <;> (simp [*])

end Sys2Proof.Machine
end

