-- ==== Sys2Proof/Laws/FramesLinks.lean ====
section
/-!
SUPPORT. Which parts of the state transactions, die loss, ports, packets, the sync debug access and the package leave as they were: one lemma
`<operation>_frame` for each operation on the state, of the fields tiles, fuses, pending, cfg, mgmt, pkg, sec, bw and time.
-/

set_option Elab.async false
set_option linter.unusedSimpArgs false
set_option linter.unusedVariables false
set_option linter.unreachableTactic false
set_option linter.unusedTactic false

namespace Sys2Proof.Machine

open Sys2Proof

/-! ### `Transactions` -/

@[simp] theorem State.setTx_frame (s : State) (tag : Nat) (o : Option OpenTx) :
    (State.setTx s tag o).tiles = s.tiles ∧ (State.setTx s tag o).fuses = s.fuses ∧ (State.setTx s tag o).pending 
    = s.pending ∧ (State.setTx s tag o).cfg = s.cfg ∧ (State.setTx s tag o).mgmt = s.mgmt ∧ (State.setTx s tag 
    o).pkg = s.pkg ∧ (State.setTx s tag o).sec = s.sec ∧ (State.setTx s tag o).bw = s.bw ∧ (State.setTx s tag 
    o).time = s.time := by
  simp [State.setTx]
@[simp] theorem State.closeTx_frame (s : State) (tag : Nat) (o : OpenTx) :
    (State.closeTx s tag o).tiles = s.tiles ∧ (State.closeTx s tag o).fuses = s.fuses ∧ (State.closeTx s tag 
    o).pending = s.pending ∧ (State.closeTx s tag o).cfg = s.cfg ∧ (State.closeTx s tag o).mgmt = s.mgmt ∧ 
    (State.closeTx s tag o).pkg = s.pkg ∧ (State.closeTx s tag o).sec = s.sec ∧ (State.closeTx s tag o).bw = s.bw 
    ∧ (State.closeTx s tag o).time = s.time := by
  simp [State.closeTx]
@[simp] theorem State.onWork_frame (s : State) (o : OpenTx) (f : QEntry → QEntry) :
    (State.onWork s o f).fuses = s.fuses ∧ (State.onWork s o f).pending = s.pending ∧ (State.onWork s o f).cfg = 
    s.cfg ∧ (State.onWork s o f).mgmt = s.mgmt ∧ (State.onWork s o f).pkg = s.pkg ∧ (State.onWork s o f).sec = 
    s.sec ∧ (State.onWork s o f).bw = s.bw ∧ (State.onWork s o f).time = s.time := by
  simp [State.onWork]
@[simp] theorem State.failTx_frame (s : State) (o : OpenTx) (ans : Nat) :
    (State.failTx s o ans).fuses = s.fuses ∧ (State.failTx s o ans).pending = s.pending ∧ (State.failTx s o 
    ans).cfg = s.cfg ∧ (State.failTx s o ans).mgmt = s.mgmt ∧ (State.failTx s o ans).pkg = s.pkg ∧ (State.failTx s 
    o ans).sec = s.sec ∧ (State.failTx s o ans).bw = s.bw ∧ (State.failTx s o ans).time = s.time := by
  simp only [State.failTx]; (repeat' split) <;> (simp [*])
@[simp] theorem State.loseTx_frame (s : State) (k : Packet) (ans : Nat) :
    (State.loseTx s k ans).fuses = s.fuses ∧ (State.loseTx s k ans).pending = s.pending ∧ (State.loseTx s k 
    ans).cfg = s.cfg ∧ (State.loseTx s k ans).mgmt = s.mgmt ∧ (State.loseTx s k ans).pkg = s.pkg ∧ (State.loseTx s 
    k ans).sec = s.sec ∧ (State.loseTx s k ans).bw = s.bw ∧ (State.loseTx s k ans).time = s.time := by
  simp only [State.loseTx]; (repeat' split) <;> (simp [*])
@[simp] theorem State.loseInv_frame (s : State) (k : Packet) :
    (State.loseInv s k).fuses = s.fuses ∧ (State.loseInv s k).pending = s.pending ∧ (State.loseInv s k).cfg = 
    s.cfg ∧ (State.loseInv s k).mgmt = s.mgmt ∧ (State.loseInv s k).pkg = s.pkg ∧ (State.loseInv s k).sec = s.sec 
    ∧ (State.loseInv s k).bw = s.bw ∧ (State.loseInv s k).time = s.time := by
  ((repeat' apply And.intro) <;> (simp only [State.loseInv]; (repeat' (first | split | (with_reducible refine (foldl_tiles _ _ _ (fun _ _ => ?_)).trans ?_) | (with_reducible refine (foldl_fuses _ _ _ (fun _ _ => ?_)).trans ?_) | (with_reducible refine (foldl_pending _ _ _ (fun _ _ => ?_)).trans ?_) | (with_reducible refine (foldl_cfg _ _ _ (fun _ _ => ?_)).trans ?_) | (with_reducible refine (foldl_mgmt _ _ _ (fun _ _ => ?_)).trans ?_) | (with_reducible refine (foldl_pkg _ _ _ (fun _ _ => ?_)).trans ?_) | (with_reducible refine (foldl_sec _ _ _ (fun _ _ => ?_)).trans ?_) | (with_reducible refine (foldl_bw _ _ _ (fun _ _ => ?_)).trans ?_) | (with_reducible refine (foldl_time _ _ _ (fun _ _ => ?_)).trans ?_) | (with_reducible refine (foldlP_tiles _ _ _ (fun _ _ => ?_)).trans ?_) | (with_reducible refine (foldlP_fuses _ _ _ (fun _ _ => ?_)).trans ?_) | (with_reducible refine (foldlP_pending _ _ _ (fun _ _ => ?_)).trans ?_) | (with_reducible refine (foldlP_cfg _ _ _ (fun _ _ => ?_)).trans ?_) | (with_reducible refine (foldlP_mgmt _ _ _ (fun _ _ => ?_)).trans ?_) | (with_reducible refine (foldlP_pkg _ _ _ (fun _ _ => ?_)).trans ?_) | (with_reducible refine (foldlP_sec _ _ _ (fun _ _ => ?_)).trans ?_) | (with_reducible refine (foldlP_bw _ _ _ (fun _ _ => ?_)).trans ?_) | (with_reducible refine (foldlP_time _ _ _ (fun _ _ => ?_)).trans ?_) | (with_reducible refine (foldlW_tiles _ _ _ (fun _ _ => ?_)).trans ?_) | (with_reducible refine (foldlW_fuses _ _ _ (fun _ _ => ?_)).trans ?_) | (with_reducible refine (foldlW_pending _ _ _ (fun _ _ => ?_)).trans ?_) | (with_reducible refine (foldlW_cfg _ _ _ (fun _ _ => ?_)).trans ?_) | (with_reducible refine (foldlW_mgmt _ _ _ (fun _ _ => ?_)).trans ?_) | (with_reducible refine (foldlW_pkg _ _ _ (fun _ _ => ?_)).trans ?_) | (with_reducible refine (foldlW_sec _ _ _ (fun _ _ => ?_)).trans ?_) | (with_reducible refine (foldlW_bw _ _ _ (fun _ _ => ?_)).trans ?_) | (with_reducible refine (foldlW_time _ _ _ (fun _ _ => ?_)).trans ?_))) <;> (simp [*])))
@[simp] theorem State.dropPacket_frame (s : State) (k : Packet) :
    (State.dropPacket s k).fuses = s.fuses ∧ (State.dropPacket s k).pending = s.pending ∧ (State.dropPacket s 
    k).cfg = s.cfg ∧ (State.dropPacket s k).mgmt = s.mgmt ∧ (State.dropPacket s k).pkg = s.pkg ∧ (State.dropPacket 
    s k).sec = s.sec ∧ (State.dropPacket s k).bw = s.bw ∧ (State.dropPacket s k).time = s.time := by
  simp [State.dropPacket]
@[simp] theorem State.resend_frame (s : State) (k : Packet) :
    (State.resend s k).fuses = s.fuses ∧ (State.resend s k).pending = s.pending ∧ (State.resend s k).cfg = s.cfg ∧ 
    (State.resend s k).mgmt = s.mgmt ∧ (State.resend s k).pkg = s.pkg ∧ (State.resend s k).sec = s.sec ∧ 
    (State.resend s k).bw = s.bw ∧ (State.resend s k).time = s.time := by
  simp only [State.resend]; (repeat' split) <;> (simp [*])
@[simp] theorem State.markResent_frame (s : State) (k : Packet) :
    (State.markResent s k).tiles = s.tiles ∧ (State.markResent s k).fuses = s.fuses ∧ (State.markResent s 
    k).pending = s.pending ∧ (State.markResent s k).cfg = s.cfg ∧ (State.markResent s k).mgmt = s.mgmt ∧ 
    (State.markResent s k).pkg = s.pkg ∧ (State.markResent s k).sec = s.sec ∧ (State.markResent s k).bw = s.bw ∧ 
    (State.markResent s k).time = s.time := by
  simp only [State.markResent]; (repeat' split) <;> (simp [*])
@[simp] theorem State.unackedLost_frame (s : State) (k : Packet) (retry : Bool) :
    (State.unackedLost s k retry).fuses = s.fuses ∧ (State.unackedLost s k retry).pending = s.pending ∧ 
    (State.unackedLost s k retry).cfg = s.cfg ∧ (State.unackedLost s k retry).mgmt = s.mgmt ∧ (State.unackedLost s 
    k retry).pkg = s.pkg ∧ (State.unackedLost s k retry).sec = s.sec ∧ (State.unackedLost s k retry).bw = s.bw ∧ 
    (State.unackedLost s k retry).time = s.time := by
  simp [State.unackedLost]
@[simp] theorem State.portFaultEvents_frame (s : State) (p : Nat) (z0 : List Nat) (z1 : Nat) :
    (State.portFaultEvents s p z0 z1).tiles = s.tiles ∧ (State.portFaultEvents s p z0 z1).fuses = s.fuses ∧ 
    (State.portFaultEvents s p z0 z1).pending = s.pending ∧ (State.portFaultEvents s p z0 z1).cfg = s.cfg ∧ 
    (State.portFaultEvents s p z0 z1).mgmt = s.mgmt ∧ (State.portFaultEvents s p z0 z1).pkg = s.pkg ∧ 
    (State.portFaultEvents s p z0 z1).sec = s.sec ∧ (State.portFaultEvents s p z0 z1).bw = s.bw ∧ 
    (State.portFaultEvents s p z0 z1).time = s.time := by
  induction z1 generalizing s z0 with
  | zero => cases z0 <;> simp [State.portFaultEvents]
  | succ n ih =>
    cases z0 with
    | nil => simp [State.portFaultEvents]
    | cons a l => simp only [State.portFaultEvents, ih, State.event_frame, and_self]

@[simp] theorem State.portFaults_frame (s : State) (p : Nat) (seqs : List Nat) :
    (State.portFaults s p seqs).tiles = s.tiles ∧ (State.portFaults s p seqs).fuses = s.fuses ∧ (State.portFaults 
    s p seqs).pending = s.pending ∧ (State.portFaults s p seqs).cfg = s.cfg ∧ (State.portFaults s p seqs).mgmt = 
    s.mgmt ∧ (State.portFaults s p seqs).pkg = s.pkg ∧ (State.portFaults s p seqs).sec = s.sec ∧ (State.portFaults 
    s p seqs).bw = s.bw ∧ (State.portFaults s p seqs).time = s.time := by
  simp [State.portFaults]
@[simp] theorem State.portPackets_frame (s : State) (p : Nat) (unacked queue : List Packet) (retry : Bool) :
    (State.portPackets s p unacked queue retry).fuses = s.fuses ∧ (State.portPackets s p unacked queue 
    retry).pending = s.pending ∧ (State.portPackets s p unacked queue retry).cfg = s.cfg ∧ (State.portPackets s p 
    unacked queue retry).mgmt = s.mgmt ∧ (State.portPackets s p unacked queue retry).pkg = s.pkg ∧ 
    (State.portPackets s p unacked queue retry).sec = s.sec ∧ (State.portPackets s p unacked queue retry).bw = 
    s.bw ∧ (State.portPackets s p unacked queue retry).time = s.time := by
  simp [State.portPackets, foldl_tiles, foldl_fuses, foldl_pending, foldl_cfg, foldl_mgmt, foldl_pkg, foldl_sec, foldl_bw, foldl_time, foldlP_tiles, foldlP_fuses, foldlP_pending, foldlP_cfg, foldlP_mgmt, foldlP_pkg, foldlP_sec, foldlP_bw, foldlP_time, foldlW_tiles, foldlW_fuses, foldlW_pending, foldlW_cfg, foldlW_mgmt, foldlW_pkg, foldlW_sec, foldlW_bw, foldlW_time]

/-! ### `Loss` -/

@[simp] theorem State.onPkg_frame (s : State) (f : Pkg → Pkg) :
    (State.onPkg s f).tiles = s.tiles ∧ (State.onPkg s f).fuses = s.fuses ∧ (State.onPkg s f).pending = s.pending 
    ∧ (State.onPkg s f).cfg = s.cfg ∧ (State.onPkg s f).mgmt = s.mgmt ∧ (State.onPkg s f).sec = s.sec ∧ 
    (State.onPkg s f).bw = s.bw ∧ (State.onPkg s f).time = s.time := by
  simp [State.onPkg]
@[simp] theorem State.portsIdle_frame (s : State) :
    (State.portsIdle s).tiles = s.tiles ∧ (State.portsIdle s).fuses = s.fuses ∧ (State.portsIdle s).pending = 
    s.pending ∧ (State.portsIdle s).cfg = s.cfg ∧ (State.portsIdle s).mgmt = s.mgmt ∧ (State.portsIdle s).pkg = 
    s.pkg ∧ (State.portsIdle s).sec = s.sec ∧ (State.portsIdle s).bw = s.bw ∧ (State.portsIdle s).time = s.time := by
  simp [State.portsIdle, foldl_tiles, foldl_fuses, foldl_pending, foldl_cfg, foldl_mgmt, foldl_pkg, foldl_sec, foldl_bw, foldl_time, foldlP_tiles, foldlP_fuses, foldlP_pending, foldlP_cfg, foldlP_mgmt, foldlP_pkg, foldlP_sec, foldlP_bw, foldlP_time, foldlW_tiles, foldlW_fuses, foldlW_pending, foldlW_cfg, foldlW_mgmt, foldlW_pkg, foldlW_sec, foldlW_bw, foldlW_time]
@[simp] theorem State.abandonAll_frame (s : State) :
    (State.abandonAll s).fuses = s.fuses ∧ (State.abandonAll s).pending = s.pending ∧ (State.abandonAll s).cfg = 
    s.cfg ∧ (State.abandonAll s).mgmt = s.mgmt ∧ (State.abandonAll s).pkg = s.pkg ∧ (State.abandonAll s).sec = 
    s.sec ∧ (State.abandonAll s).bw = s.bw ∧ (State.abandonAll s).time = s.time := by
  simp [State.abandonAll, foldl_tiles, foldl_fuses, foldl_pending, foldl_cfg, foldl_mgmt, foldl_pkg, foldl_sec, foldl_bw, foldl_time, foldlP_tiles, foldlP_fuses, foldlP_pending, foldlP_cfg, foldlP_mgmt, foldlP_pkg, foldlP_sec, foldlP_bw, foldlP_time, foldlW_tiles, foldlW_fuses, foldlW_pending, foldlW_cfg, foldlW_mgmt, foldlW_pkg, foldlW_sec, foldlW_bw, foldlW_time]
@[simp] theorem State.isolateNow_frame (s : State) :
    (State.isolateNow s).fuses = s.fuses ∧ (State.isolateNow s).pending = s.pending ∧ (State.isolateNow s).cfg = 
    s.cfg ∧ (State.isolateNow s).mgmt = s.mgmt ∧ (State.isolateNow s).sec = s.sec ∧ (State.isolateNow s).bw = s.bw 
    ∧ (State.isolateNow s).time = s.time := by
  simp [State.isolateNow]
@[simp] theorem State.isolate_frame (s : State) (cause : Nat) :
    (State.isolate s cause).fuses = s.fuses ∧ (State.isolate s cause).pending = s.pending ∧ (State.isolate s 
    cause).cfg = s.cfg ∧ (State.isolate s cause).mgmt = s.mgmt ∧ (State.isolate s cause).sec = s.sec ∧ 
    (State.isolate s cause).bw = s.bw ∧ (State.isolate s cause).time = s.time := by
  simp [State.isolate]
@[simp] theorem State.sendAdmit_frame (s : State) (d op subject level reason : Nat) (caps : List Nat) :
    (State.sendAdmit s d op subject level reason caps).fuses = s.fuses ∧ (State.sendAdmit s d op subject level 
    reason caps).pending = s.pending ∧ (State.sendAdmit s d op subject level reason caps).cfg = s.cfg ∧ 
    (State.sendAdmit s d op subject level reason caps).sec = s.sec ∧ (State.sendAdmit s d op subject level reason 
    caps).bw = s.bw ∧ (State.sendAdmit s d op subject level reason caps).time = s.time := by
  simp [State.sendAdmit]
@[simp] theorem State.sendLost_frame (s : State) (d : Nat) (ms : List Nat) :
    (State.sendLost s d ms).tiles = s.tiles ∧ (State.sendLost s d ms).fuses = s.fuses ∧ (State.sendLost s d 
    ms).pending = s.pending ∧ (State.sendLost s d ms).cfg = s.cfg ∧ (State.sendLost s d ms).mgmt = s.mgmt ∧ 
    (State.sendLost s d ms).pkg = s.pkg ∧ (State.sendLost s d ms).sec = s.sec ∧ (State.sendLost s d ms).bw = s.bw 
    ∧ (State.sendLost s d ms).time = s.time := by
  simp [State.sendLost, foldl_tiles, foldl_fuses, foldl_pending, foldl_cfg, foldl_mgmt, foldl_pkg, foldl_sec, foldl_bw, foldl_time, foldlP_tiles, foldlP_fuses, foldlP_pending, foldlP_cfg, foldlP_mgmt, foldlP_pkg, foldlP_sec, foldlP_bw, foldlP_time, foldlW_tiles, foldlW_fuses, foldlW_pending, foldlW_cfg, foldlW_mgmt, foldlW_pkg, foldlW_sec, foldlW_bw, foldlW_time]
@[simp] theorem State.dropToward_frame (s : State) (d : Nat) :
    (State.dropToward s d).tiles = s.tiles ∧ (State.dropToward s d).fuses = s.fuses ∧ (State.dropToward s 
    d).pending = s.pending ∧ (State.dropToward s d).cfg = s.cfg ∧ (State.dropToward s d).mgmt = s.mgmt ∧ 
    (State.dropToward s d).pkg = s.pkg ∧ (State.dropToward s d).sec = s.sec ∧ (State.dropToward s d).bw = s.bw ∧ 
    (State.dropToward s d).time = s.time := by
  simp [State.dropToward]
@[simp] theorem State.loseRequests_frame (s : State) (d : Nat) :
    (State.loseRequests s d).fuses = s.fuses ∧ (State.loseRequests s d).pending = s.pending ∧ (State.loseRequests 
    s d).cfg = s.cfg ∧ (State.loseRequests s d).mgmt = s.mgmt ∧ (State.loseRequests s d).pkg = s.pkg ∧ 
    (State.loseRequests s d).sec = s.sec ∧ (State.loseRequests s d).bw = s.bw ∧ (State.loseRequests s d).time = 
    s.time := by
  simp [State.loseRequests, foldl_tiles, foldl_fuses, foldl_pending, foldl_cfg, foldl_mgmt, foldl_pkg, foldl_sec, foldl_bw, foldl_time, foldlP_tiles, foldlP_fuses, foldlP_pending, foldlP_cfg, foldlP_mgmt, foldlP_pkg, foldlP_sec, foldlP_bw, foldlP_time, foldlW_tiles, foldlW_fuses, foldlW_pending, foldlW_cfg, foldlW_mgmt, foldlW_pkg, foldlW_sec, foldlW_bw, foldlW_time]
@[simp] theorem State.poisonGranules_frame (s : State) (gs : List Nat) :
    (State.poisonGranules s gs).tiles = s.tiles ∧ (State.poisonGranules s gs).fuses = s.fuses ∧ 
    (State.poisonGranules s gs).pending = s.pending ∧ (State.poisonGranules s gs).cfg = s.cfg ∧ 
    (State.poisonGranules s gs).mgmt = s.mgmt ∧ (State.poisonGranules s gs).sec = s.sec ∧ (State.poisonGranules s 
    gs).bw = s.bw ∧ (State.poisonGranules s gs).time = s.time := by
  simp [State.poisonGranules]
@[simp] theorem State.loseBarriers_frame (s : State) (d : Nat) :
    (State.loseBarriers s d).tiles = s.tiles ∧ (State.loseBarriers s d).fuses = s.fuses ∧ (State.loseBarriers s 
    d).pending = s.pending ∧ (State.loseBarriers s d).cfg = s.cfg ∧ (State.loseBarriers s d).mgmt = s.mgmt ∧ 
    (State.loseBarriers s d).pkg = s.pkg ∧ (State.loseBarriers s d).sec = s.sec ∧ (State.loseBarriers s d).bw = 
    s.bw ∧ (State.loseBarriers s d).time = s.time := by
  ((repeat' apply And.intro) <;> (simp only [State.loseBarriers]; (repeat' (first | split | (with_reducible refine (foldl_tiles _ _ _ (fun _ _ => ?_)).trans ?_) | (with_reducible refine (foldl_fuses _ _ _ (fun _ _ => ?_)).trans ?_) | (with_reducible refine (foldl_pending _ _ _ (fun _ _ => ?_)).trans ?_) | (with_reducible refine (foldl_cfg _ _ _ (fun _ _ => ?_)).trans ?_) | (with_reducible refine (foldl_mgmt _ _ _ (fun _ _ => ?_)).trans ?_) | (with_reducible refine (foldl_pkg _ _ _ (fun _ _ => ?_)).trans ?_) | (with_reducible refine (foldl_sec _ _ _ (fun _ _ => ?_)).trans ?_) | (with_reducible refine (foldl_bw _ _ _ (fun _ _ => ?_)).trans ?_) | (with_reducible refine (foldl_time _ _ _ (fun _ _ => ?_)).trans ?_) | (with_reducible refine (foldlP_tiles _ _ _ (fun _ _ => ?_)).trans ?_) | (with_reducible refine (foldlP_fuses _ _ _ (fun _ _ => ?_)).trans ?_) | (with_reducible refine (foldlP_pending _ _ _ (fun _ _ => ?_)).trans ?_) | (with_reducible refine (foldlP_cfg _ _ _ (fun _ _ => ?_)).trans ?_) | (with_reducible refine (foldlP_mgmt _ _ _ (fun _ _ => ?_)).trans ?_) | (with_reducible refine (foldlP_pkg _ _ _ (fun _ _ => ?_)).trans ?_) | (with_reducible refine (foldlP_sec _ _ _ (fun _ _ => ?_)).trans ?_) | (with_reducible refine (foldlP_bw _ _ _ (fun _ _ => ?_)).trans ?_) | (with_reducible refine (foldlP_time _ _ _ (fun _ _ => ?_)).trans ?_) | (with_reducible refine (foldlW_tiles _ _ _ (fun _ _ => ?_)).trans ?_) | (with_reducible refine (foldlW_fuses _ _ _ (fun _ _ => ?_)).trans ?_) | (with_reducible refine (foldlW_pending _ _ _ (fun _ _ => ?_)).trans ?_) | (with_reducible refine (foldlW_cfg _ _ _ (fun _ _ => ?_)).trans ?_) | (with_reducible refine (foldlW_mgmt _ _ _ (fun _ _ => ?_)).trans ?_) | (with_reducible refine (foldlW_pkg _ _ _ (fun _ _ => ?_)).trans ?_) | (with_reducible refine (foldlW_sec _ _ _ (fun _ _ => ?_)).trans ?_) | (with_reducible refine (foldlW_bw _ _ _ (fun _ _ => ?_)).trans ?_) | (with_reducible refine (foldlW_time _ _ _ (fun _ _ => ?_)).trans ?_))) <;> (simp [*])))
@[simp] theorem State.loseDie_frame (s : State) (d ts : Nat) :
    (State.loseDie s d ts).fuses = s.fuses ∧ (State.loseDie s d ts).pending = s.pending ∧ (State.loseDie s d 
    ts).cfg = s.cfg ∧ (State.loseDie s d ts).mgmt = s.mgmt ∧ (State.loseDie s d ts).sec = s.sec ∧ (State.loseDie s 
    d ts).bw = s.bw ∧ (State.loseDie s d ts).time = s.time := by
  simp [State.loseDie]
@[simp] theorem State.tellLost_frame (s : State) (d : Nat) :
    (State.tellLost s d).tiles = s.tiles ∧ (State.tellLost s d).fuses = s.fuses ∧ (State.tellLost s d).pending = 
    s.pending ∧ (State.tellLost s d).cfg = s.cfg ∧ (State.tellLost s d).mgmt = s.mgmt ∧ (State.tellLost s d).pkg = 
    s.pkg ∧ (State.tellLost s d).sec = s.sec ∧ (State.tellLost s d).bw = s.bw ∧ (State.tellLost s d).time = s.time := by
  simp [State.tellLost]
@[simp] theorem State.loseStack_frame (s : State) (k : Nat) :
    (State.loseStack s k).fuses = s.fuses ∧ (State.loseStack s k).pending = s.pending ∧ (State.loseStack s k).cfg 
    = s.cfg ∧ (State.loseStack s k).mgmt = s.mgmt ∧ (State.loseStack s k).sec = s.sec ∧ (State.loseStack s k).bw = 
    s.bw ∧ (State.loseStack s k).time = s.time := by
  simp [State.loseStack]
@[simp] theorem State.afterFall_frame (s : State) (p : Nat) (wasUp : Bool) :
    (State.afterFall s p wasUp).fuses = s.fuses ∧ (State.afterFall s p wasUp).pending = s.pending ∧ 
    (State.afterFall s p wasUp).cfg = s.cfg ∧ (State.afterFall s p wasUp).mgmt = s.mgmt ∧ (State.afterFall s p 
    wasUp).sec = s.sec ∧ (State.afterFall s p wasUp).bw = s.bw ∧ (State.afterFall s p wasUp).time = s.time := by
  simp [State.afterFall]
@[simp] theorem State.portDrop_frame (s : State) (p : Nat) (old : Port) (retry : Bool) :
    (State.portDrop s p old retry).fuses = s.fuses ∧ (State.portDrop s p old retry).pending = s.pending ∧ 
    (State.portDrop s p old retry).cfg = s.cfg ∧ (State.portDrop s p old retry).mgmt = s.mgmt ∧ (State.portDrop s 
    p old retry).sec = s.sec ∧ (State.portDrop s p old retry).bw = s.bw ∧ (State.portDrop s p old retry).time = 
    s.time := by
  simp [State.portDrop]
@[simp] theorem State.portFall_frame (s : State) (p cause : Nat) (retry : Bool) (st : PortSt) :
    (State.portFall s p cause retry st).fuses = s.fuses ∧ (State.portFall s p cause retry st).pending = s.pending 
    ∧ (State.portFall s p cause retry st).cfg = s.cfg ∧ (State.portFall s p cause retry st).mgmt = s.mgmt ∧ 
    (State.portFall s p cause retry st).sec = s.sec ∧ (State.portFall s p cause retry st).bw = s.bw ∧ 
    (State.portFall s p cause retry st).time = s.time := by
  simp [State.portFall]

/-! ### `Ports` -/

@[simp] theorem State.sendRaw_frame (s : State) (p : Nat) (k : Packet) :
    (State.sendRaw s p k).tiles = s.tiles ∧ (State.sendRaw s p k).fuses = s.fuses ∧ (State.sendRaw s p k).pending 
    = s.pending ∧ (State.sendRaw s p k).cfg = s.cfg ∧ (State.sendRaw s p k).mgmt = s.mgmt ∧ (State.sendRaw s p 
    k).pkg = s.pkg ∧ (State.sendRaw s p k).sec = s.sec ∧ (State.sendRaw s p k).bw = s.bw ∧ (State.sendRaw s p 
    k).time = s.time := by
  simp [State.sendRaw]
@[simp] theorem State.sendCaps_frame (s : State) (p : Nat) :
    (State.sendCaps s p).tiles = s.tiles ∧ (State.sendCaps s p).fuses = s.fuses ∧ (State.sendCaps s p).pending = 
    s.pending ∧ (State.sendCaps s p).cfg = s.cfg ∧ (State.sendCaps s p).mgmt = s.mgmt ∧ (State.sendCaps s p).pkg = 
    s.pkg ∧ (State.sendCaps s p).sec = s.sec ∧ (State.sendCaps s p).bw = s.bw ∧ (State.sendCaps s p).time = s.time := by
  simp [State.sendCaps]
@[simp] theorem State.takeCaps_frame (s : State) (p : Nat) (k : Packet) :
    (State.takeCaps s p k).tiles = s.tiles ∧ (State.takeCaps s p k).fuses = s.fuses ∧ (State.takeCaps s p 
    k).pending = s.pending ∧ (State.takeCaps s p k).cfg = s.cfg ∧ (State.takeCaps s p k).mgmt = s.mgmt ∧ 
    (State.takeCaps s p k).pkg = s.pkg ∧ (State.takeCaps s p k).sec = s.sec ∧ (State.takeCaps s p k).bw = s.bw ∧ 
    (State.takeCaps s p k).time = s.time := by
  simp [State.takeCaps]
@[simp] theorem State.portUp_frame (s : State) (p : Nat) (conf : Bool) :
    (State.portUp s p conf).tiles = s.tiles ∧ (State.portUp s p conf).fuses = s.fuses ∧ (State.portUp s p 
    conf).pending = s.pending ∧ (State.portUp s p conf).cfg = s.cfg ∧ (State.portUp s p conf).sec = s.sec ∧ 
    (State.portUp s p conf).bw = s.bw ∧ (State.portUp s p conf).time = s.time := by
  simp [State.portUp]
@[simp] theorem State.beginTraining_frame (s : State) (p : Nat) :
    (State.beginTraining s p).tiles = s.tiles ∧ (State.beginTraining s p).fuses = s.fuses ∧ (State.beginTraining s 
    p).pending = s.pending ∧ (State.beginTraining s p).cfg = s.cfg ∧ (State.beginTraining s p).mgmt = s.mgmt ∧ 
    (State.beginTraining s p).pkg = s.pkg ∧ (State.beginTraining s p).sec = s.sec ∧ (State.beginTraining s p).bw = 
    s.bw ∧ (State.beginTraining s p).time = s.time := by
  simp [State.beginTraining]
@[simp] theorem State.trainRetry_frame (s : State) (p : Nat) (ok : Bool) :
    (State.trainRetry s p ok).tiles = s.tiles ∧ (State.trainRetry s p ok).fuses = s.fuses ∧ (State.trainRetry s p 
    ok).pending = s.pending ∧ (State.trainRetry s p ok).cfg = s.cfg ∧ (State.trainRetry s p ok).mgmt = s.mgmt ∧ 
    (State.trainRetry s p ok).pkg = s.pkg ∧ (State.trainRetry s p ok).sec = s.sec ∧ (State.trainRetry s p ok).bw = 
    s.bw ∧ (State.trainRetry s p ok).time = s.time := by
  simp [State.trainRetry]
@[simp] theorem State.abortPortTest_frame (s : State) (p : Nat) :
    (State.abortPortTest s p).tiles = s.tiles ∧ (State.abortPortTest s p).fuses = s.fuses ∧ (State.abortPortTest s 
    p).pending = s.pending ∧ (State.abortPortTest s p).cfg = s.cfg ∧ (State.abortPortTest s p).mgmt = s.mgmt ∧ 
    (State.abortPortTest s p).pkg = s.pkg ∧ (State.abortPortTest s p).sec = s.sec ∧ (State.abortPortTest s p).bw = 
    s.bw ∧ (State.abortPortTest s p).time = s.time := by
  simp [State.abortPortTest]
@[simp] theorem State.putMap_frame (s : State) (p : Nat) (map : Word) :
    (State.putMap s p map).tiles = s.tiles ∧ (State.putMap s p map).fuses = s.fuses ∧ (State.putMap s p 
    map).pending = s.pending ∧ (State.putMap s p map).mgmt = s.mgmt ∧ (State.putMap s p map).pkg = s.pkg ∧ 
    (State.putMap s p map).sec = s.sec ∧ (State.putMap s p map).bw = s.bw ∧ (State.putMap s p map).time = s.time := by
  simp [State.putMap]
@[simp] theorem State.trainingDone_frame (s : State) (p pass rates : Nat) :
    (State.trainingDone s p pass rates).fuses = s.fuses ∧ (State.trainingDone s p pass rates).pending = s.pending 
    ∧ (State.trainingDone s p pass rates).mgmt = s.mgmt ∧ (State.trainingDone s p pass rates).sec = s.sec ∧ 
    (State.trainingDone s p pass rates).bw = s.bw ∧ (State.trainingDone s p pass rates).time = s.time := by
  simp only [State.trainingDone]; (repeat' split) <;> (simp [*])
@[simp] theorem State.sendKeys_frame (s : State) (p epoch : Nat) :
    (State.sendKeys s p epoch).tiles = s.tiles ∧ (State.sendKeys s p epoch).fuses = s.fuses ∧ (State.sendKeys s p 
    epoch).pending = s.pending ∧ (State.sendKeys s p epoch).cfg = s.cfg ∧ (State.sendKeys s p epoch).mgmt = s.mgmt 
    ∧ (State.sendKeys s p epoch).pkg = s.pkg ∧ (State.sendKeys s p epoch).sec = s.sec ∧ (State.sendKeys s p 
    epoch).bw = s.bw ∧ (State.sendKeys s p epoch).time = s.time := by
  simp [State.sendKeys]
@[simp] theorem State.kexFail_frame (s : State) (p reason : Nat) :
    (State.kexFail s p reason).fuses = s.fuses ∧ (State.kexFail s p reason).pending = s.pending ∧ (State.kexFail s 
    p reason).cfg = s.cfg ∧ (State.kexFail s p reason).mgmt = s.mgmt ∧ (State.kexFail s p reason).sec = s.sec ∧ 
    (State.kexFail s p reason).bw = s.bw ∧ (State.kexFail s p reason).time = s.time := by
  simp [State.kexFail]
@[simp] theorem State.rekey_frame (s : State) (p : Nat) :
    (State.rekey s p).fuses = s.fuses ∧ (State.rekey s p).pending = s.pending ∧ (State.rekey s p).cfg = s.cfg ∧ 
    (State.rekey s p).mgmt = s.mgmt ∧ (State.rekey s p).sec = s.sec ∧ (State.rekey s p).bw = s.bw ∧ (State.rekey s 
    p).time = s.time := by
  simp [State.rekey]
@[simp] theorem State.keyCert_frame (s : State) (p : Nat) (k : Packet) (ok : Bool) :
    (State.keyCert s p k ok).fuses = s.fuses ∧ (State.keyCert s p k ok).pending = s.pending ∧ (State.keyCert s p k 
    ok).cfg = s.cfg ∧ (State.keyCert s p k ok).mgmt = s.mgmt ∧ (State.keyCert s p k ok).sec = s.sec ∧ 
    (State.keyCert s p k ok).bw = s.bw ∧ (State.keyCert s p k ok).time = s.time := by
  simp [State.keyCert]
@[simp] theorem State.keyOffer_frame (s : State) (p : Nat) (k : Packet) (ok : Bool) :
    (State.keyOffer s p k ok).fuses = s.fuses ∧ (State.keyOffer s p k ok).pending = s.pending ∧ (State.keyOffer s 
    p k ok).cfg = s.cfg ∧ (State.keyOffer s p k ok).sec = s.sec ∧ (State.keyOffer s p k ok).bw = s.bw ∧ 
    (State.keyOffer s p k ok).time = s.time := by
  simp [State.keyOffer]
@[simp] theorem State.keySwitch_frame (s : State) (p : Nat) (k : Packet) :
    (State.keySwitch s p k).tiles = s.tiles ∧ (State.keySwitch s p k).fuses = s.fuses ∧ (State.keySwitch s p 
    k).pending = s.pending ∧ (State.keySwitch s p k).cfg = s.cfg ∧ (State.keySwitch s p k).mgmt = s.mgmt ∧ 
    (State.keySwitch s p k).pkg = s.pkg ∧ (State.keySwitch s p k).sec = s.sec ∧ (State.keySwitch s p k).bw = s.bw 
    ∧ (State.keySwitch s p k).time = s.time := by
  simp [State.keySwitch]
@[simp] theorem State.kexTimeout_frame (s : State) (p : Nat) :
    (State.kexTimeout s p).fuses = s.fuses ∧ (State.kexTimeout s p).pending = s.pending ∧ (State.kexTimeout s 
    p).cfg = s.cfg ∧ (State.kexTimeout s p).mgmt = s.mgmt ∧ (State.kexTimeout s p).sec = s.sec ∧ (State.kexTimeout 
    s p).bw = s.bw ∧ (State.kexTimeout s p).time = s.time := by
  simp [State.kexTimeout]
@[simp] theorem State.rekeyStart_frame (s : State) (p : Nat) :
    (State.rekeyStart s p).fuses = s.fuses ∧ (State.rekeyStart s p).pending = s.pending ∧ (State.rekeyStart s 
    p).cfg = s.cfg ∧ (State.rekeyStart s p).mgmt = s.mgmt ∧ (State.rekeyStart s p).sec = s.sec ∧ (State.rekeyStart 
    s p).bw = s.bw ∧ (State.rekeyStart s p).time = s.time := by
  simp [State.rekeyStart]
@[simp] theorem State.refusePartner_frame (s : State) (p reason : Nat) :
    (State.refusePartner s p reason).fuses = s.fuses ∧ (State.refusePartner s p reason).pending = s.pending ∧ 
    (State.refusePartner s p reason).cfg = s.cfg ∧ (State.refusePartner s p reason).mgmt = s.mgmt ∧ 
    (State.refusePartner s p reason).sec = s.sec ∧ (State.refusePartner s p reason).bw = s.bw ∧ 
    (State.refusePartner s p reason).time = s.time := by
  simp [State.refusePartner]
@[simp] theorem State.caps_frame (s : State) (p : Nat) (k : Packet) :
    (State.caps s p k).fuses = s.fuses ∧ (State.caps s p k).pending = s.pending ∧ (State.caps s p k).cfg = s.cfg ∧ 
    (State.caps s p k).sec = s.sec ∧ (State.caps s p k).bw = s.bw ∧ (State.caps s p k).time = s.time := by
  simp [State.caps]
@[simp] theorem State.portEnWrite_frame (s : State) (p : Nat) (en : Bool) :
    (State.portEnWrite s p en).fuses = s.fuses ∧ (State.portEnWrite s p en).pending = s.pending ∧ 
    (State.portEnWrite s p en).mgmt = s.mgmt ∧ (State.portEnWrite s p en).sec = s.sec ∧ (State.portEnWrite s p 
    en).bw = s.bw ∧ (State.portEnWrite s p en).time = s.time := by
  simp [State.portEnWrite]
@[simp] theorem State.beginRetrain_frame (s : State) (p : Nat) :
    (State.beginRetrain s p).tiles = s.tiles ∧ (State.beginRetrain s p).fuses = s.fuses ∧ (State.beginRetrain s 
    p).pending = s.pending ∧ (State.beginRetrain s p).cfg = s.cfg ∧ (State.beginRetrain s p).mgmt = s.mgmt ∧ 
    (State.beginRetrain s p).pkg = s.pkg ∧ (State.beginRetrain s p).sec = s.sec ∧ (State.beginRetrain s p).bw = 
    s.bw ∧ (State.beginRetrain s p).time = s.time := by
  simp [State.beginRetrain]
@[simp] theorem State.retrain_frame (s : State) (p : Nat) :
    (State.retrain s p).tiles = s.tiles ∧ (State.retrain s p).fuses = s.fuses ∧ (State.retrain s p).pending = 
    s.pending ∧ (State.retrain s p).cfg = s.cfg ∧ (State.retrain s p).mgmt = s.mgmt ∧ (State.retrain s p).pkg = 
    s.pkg ∧ (State.retrain s p).sec = s.sec ∧ (State.retrain s p).bw = s.bw ∧ (State.retrain s p).time = s.time := by
  simp only [State.retrain]; (repeat' split) <;> (simp [*])
@[simp] theorem State.errLimit_frame (s : State) (p : Nat) :
    (State.errLimit s p).tiles = s.tiles ∧ (State.errLimit s p).fuses = s.fuses ∧ (State.errLimit s p).pending = 
    s.pending ∧ (State.errLimit s p).cfg = s.cfg ∧ (State.errLimit s p).mgmt = s.mgmt ∧ (State.errLimit s p).pkg = 
    s.pkg ∧ (State.errLimit s p).sec = s.sec ∧ (State.errLimit s p).bw = s.bw ∧ (State.errLimit s p).time = s.time := by
  simp [State.errLimit]
@[simp] theorem State.retrainTimeout_frame (s : State) (p : Nat) :
    (State.retrainTimeout s p).fuses = s.fuses ∧ (State.retrainTimeout s p).pending = s.pending ∧ 
    (State.retrainTimeout s p).cfg = s.cfg ∧ (State.retrainTimeout s p).mgmt = s.mgmt ∧ (State.retrainTimeout s 
    p).sec = s.sec ∧ (State.retrainTimeout s p).bw = s.bw ∧ (State.retrainTimeout s p).time = s.time := by
  simp [State.retrainTimeout]
@[simp] theorem State.portIsolate_frame (s : State) (p : Nat) :
    (State.portIsolate s p).fuses = s.fuses ∧ (State.portIsolate s p).pending = s.pending ∧ (State.portIsolate s 
    p).cfg = s.cfg ∧ (State.portIsolate s p).mgmt = s.mgmt ∧ (State.portIsolate s p).sec = s.sec ∧ 
    (State.portIsolate s p).bw = s.bw ∧ (State.portIsolate s p).time = s.time := by
  simp only [State.portIsolate]; (repeat' split) <;> (simp [*])
@[simp] theorem State.sidebandRetrain_frame (s : State) (p : Nat) :
    (State.sidebandRetrain s p).tiles = s.tiles ∧ (State.sidebandRetrain s p).fuses = s.fuses ∧ 
    (State.sidebandRetrain s p).pending = s.pending ∧ (State.sidebandRetrain s p).cfg = s.cfg ∧ 
    (State.sidebandRetrain s p).mgmt = s.mgmt ∧ (State.sidebandRetrain s p).pkg = s.pkg ∧ (State.sidebandRetrain s 
    p).sec = s.sec ∧ (State.sidebandRetrain s p).bw = s.bw ∧ (State.sidebandRetrain s p).time = s.time := by
  simp [State.sidebandRetrain]
@[simp] theorem State.flitReplay_frame (s : State) (p : Nat) :
    (State.flitReplay s p).tiles = s.tiles ∧ (State.flitReplay s p).fuses = s.fuses ∧ (State.flitReplay s 
    p).pending = s.pending ∧ (State.flitReplay s p).cfg = s.cfg ∧ (State.flitReplay s p).mgmt = s.mgmt ∧ 
    (State.flitReplay s p).pkg = s.pkg ∧ (State.flitReplay s p).sec = s.sec ∧ (State.flitReplay s p).bw = s.bw ∧ 
    (State.flitReplay s p).time = s.time := by
  simp [State.flitReplay]
@[simp] theorem State.linkAck_frame (s : State) (p n : Nat) :
    (State.linkAck s p n).tiles = s.tiles ∧ (State.linkAck s p n).fuses = s.fuses ∧ (State.linkAck s p n).pending 
    = s.pending ∧ (State.linkAck s p n).cfg = s.cfg ∧ (State.linkAck s p n).mgmt = s.mgmt ∧ (State.linkAck s p 
    n).pkg = s.pkg ∧ (State.linkAck s p n).sec = s.sec ∧ (State.linkAck s p n).bw = s.bw ∧ (State.linkAck s p 
    n).time = s.time := by
  simp [State.linkAck]
@[simp] theorem State.keepalive_frame (s : State) (p : Nat) :
    (State.keepalive s p).tiles = s.tiles ∧ (State.keepalive s p).fuses = s.fuses ∧ (State.keepalive s p).pending 
    = s.pending ∧ (State.keepalive s p).cfg = s.cfg ∧ (State.keepalive s p).mgmt = s.mgmt ∧ (State.keepalive s 
    p).pkg = s.pkg ∧ (State.keepalive s p).sec = s.sec ∧ (State.keepalive s p).bw = s.bw ∧ (State.keepalive s 
    p).time = s.time := by
  simp [State.keepalive]
@[simp] theorem State.linkLoss_frame (s : State) (p cause : Nat) :
    (State.linkLoss s p cause).fuses = s.fuses ∧ (State.linkLoss s p cause).pending = s.pending ∧ (State.linkLoss 
    s p cause).cfg = s.cfg ∧ (State.linkLoss s p cause).mgmt = s.mgmt ∧ (State.linkLoss s p cause).sec = s.sec ∧ 
    (State.linkLoss s p cause).bw = s.bw ∧ (State.linkLoss s p cause).time = s.time := by
  simp [State.linkLoss]
@[simp] theorem State.l1Entry_frame (s : State) (p : Nat) :
    (State.l1Entry s p).tiles = s.tiles ∧ (State.l1Entry s p).fuses = s.fuses ∧ (State.l1Entry s p).pending = 
    s.pending ∧ (State.l1Entry s p).cfg = s.cfg ∧ (State.l1Entry s p).mgmt = s.mgmt ∧ (State.l1Entry s p).pkg = 
    s.pkg ∧ (State.l1Entry s p).sec = s.sec ∧ (State.l1Entry s p).bw = s.bw ∧ (State.l1Entry s p).time = s.time := by
  simp [State.l1Entry]
@[simp] theorem State.l1Exit_frame (s : State) (p : Nat) :
    (State.l1Exit s p).tiles = s.tiles ∧ (State.l1Exit s p).fuses = s.fuses ∧ (State.l1Exit s p).pending = 
    s.pending ∧ (State.l1Exit s p).cfg = s.cfg ∧ (State.l1Exit s p).mgmt = s.mgmt ∧ (State.l1Exit s p).pkg = s.pkg 
    ∧ (State.l1Exit s p).sec = s.sec ∧ (State.l1Exit s p).bw = s.bw ∧ (State.l1Exit s p).time = s.time := by
  simp [State.l1Exit]
@[simp] theorem State.tagExpiry_frame (s : State) (tag : Nat) :
    (State.tagExpiry s tag).tiles = s.tiles ∧ (State.tagExpiry s tag).fuses = s.fuses ∧ (State.tagExpiry s 
    tag).pending = s.pending ∧ (State.tagExpiry s tag).cfg = s.cfg ∧ (State.tagExpiry s tag).mgmt = s.mgmt ∧ 
    (State.tagExpiry s tag).pkg = s.pkg ∧ (State.tagExpiry s tag).sec = s.sec ∧ (State.tagExpiry s tag).bw = s.bw 
    ∧ (State.tagExpiry s tag).time = s.time := by
  simp only [State.tagExpiry]; (repeat' split) <;> (simp [*])
@[simp] theorem State.baseDieTimeout_frame (s : State) (p t uid : Nat) :
    (State.baseDieTimeout s p t uid).fuses = s.fuses ∧ (State.baseDieTimeout s p t uid).pending = s.pending ∧ 
    (State.baseDieTimeout s p t uid).cfg = s.cfg ∧ (State.baseDieTimeout s p t uid).mgmt = s.mgmt ∧ 
    (State.baseDieTimeout s p t uid).pkg = s.pkg ∧ (State.baseDieTimeout s p t uid).sec = s.sec ∧ 
    (State.baseDieTimeout s p t uid).bw = s.bw ∧ (State.baseDieTimeout s p t uid).time = s.time := by
  simp [State.baseDieTimeout]
@[simp] theorem State.returnUnits_frame (s : State) (p : Nat) :
    (State.returnUnits s p).tiles = s.tiles ∧ (State.returnUnits s p).fuses = s.fuses ∧ (State.returnUnits s 
    p).pending = s.pending ∧ (State.returnUnits s p).cfg = s.cfg ∧ (State.returnUnits s p).mgmt = s.mgmt ∧ 
    (State.returnUnits s p).pkg = s.pkg ∧ (State.returnUnits s p).sec = s.sec ∧ (State.returnUnits s p).bw = s.bw 
    ∧ (State.returnUnits s p).time = s.time := by
  simp [State.returnUnits]

/-! ### `Packets` -/

@[simp] theorem State.discard_frame (s : State) (p : Nat) :
    (State.discard s p).tiles = s.tiles ∧ (State.discard s p).fuses = s.fuses ∧ (State.discard s p).pending = 
    s.pending ∧ (State.discard s p).cfg = s.cfg ∧ (State.discard s p).mgmt = s.mgmt ∧ (State.discard s p).pkg = 
    s.pkg ∧ (State.discard s p).sec = s.sec ∧ (State.discard s p).bw = s.bw ∧ (State.discard s p).time = s.time := by
  simp [State.discard]
@[simp] theorem State.authFail_frame (s : State) (p : Nat) (k : Packet) :
    (State.authFail s p k).fuses = s.fuses ∧ (State.authFail s p k).pending = s.pending ∧ (State.authFail s p 
    k).cfg = s.cfg ∧ (State.authFail s p k).mgmt = s.mgmt ∧ (State.authFail s p k).sec = s.sec ∧ (State.authFail s 
    p k).bw = s.bw ∧ (State.authFail s p k).time = s.time := by
  simp [State.authFail]
@[simp] theorem State.undeliverable_frame (s : State) (p : Nat) (k : Packet) :
    (State.undeliverable s p k).tiles = s.tiles ∧ (State.undeliverable s p k).fuses = s.fuses ∧ 
    (State.undeliverable s p k).pending = s.pending ∧ (State.undeliverable s p k).cfg = s.cfg ∧ 
    (State.undeliverable s p k).mgmt = s.mgmt ∧ (State.undeliverable s p k).pkg = s.pkg ∧ (State.undeliverable s p 
    k).sec = s.sec ∧ (State.undeliverable s p k).bw = s.bw ∧ (State.undeliverable s p k).time = s.time := by
  simp [State.undeliverable]
@[simp] theorem State.forward_frame (s : State) (p : Nat) (k : Packet) :
    (State.forward s p k).tiles = s.tiles ∧ (State.forward s p k).fuses = s.fuses ∧ (State.forward s p k).pending 
    = s.pending ∧ (State.forward s p k).cfg = s.cfg ∧ (State.forward s p k).mgmt = s.mgmt ∧ (State.forward s p 
    k).pkg = s.pkg ∧ (State.forward s p k).sec = s.sec ∧ (State.forward s p k).bw = s.bw ∧ (State.forward s p 
    k).time = s.time := by
  simp only [State.forward]; (repeat' split) <;> (simp [*])
@[simp] theorem State.receive_fuses (s : State) (p : Nat) (k : Packet) (act : State → State) (h : ∀ s, (act s).fuses = s.fuses) :
    (s.receive p k act).fuses = s.fuses := by
  simp only [State.receive]
  repeat' split
  all_goals first | rfl | simp [h]

@[simp] theorem State.receive_pending (s : State) (p : Nat) (k : Packet) (act : State → State) (h : ∀ s, (act s).pending = s.pending) :
    (s.receive p k act).pending = s.pending := by
  simp only [State.receive]
  repeat' split
  all_goals first | rfl | simp [h]

@[simp] theorem State.receive_cfg (s : State) (p : Nat) (k : Packet) (act : State → State) (h : ∀ s, (act s).cfg = s.cfg) :
    (s.receive p k act).cfg = s.cfg := by
  simp only [State.receive]
  repeat' split
  all_goals first | rfl | simp [h]

@[simp] theorem State.receive_bw (s : State) (p : Nat) (k : Packet) (act : State → State) (h : ∀ s, (act s).bw = s.bw) :
    (s.receive p k act).bw = s.bw := by
  simp only [State.receive]
  repeat' split
  all_goals first | rfl | simp [h]


@[simp] theorem State.deniedFor_frame (s : State) (k : Packet) (reason : Nat) :
    (State.deniedFor s k reason).tiles = s.tiles ∧ (State.deniedFor s k reason).fuses = s.fuses ∧ (State.deniedFor 
    s k reason).pending = s.pending ∧ (State.deniedFor s k reason).cfg = s.cfg ∧ (State.deniedFor s k reason).mgmt 
    = s.mgmt ∧ (State.deniedFor s k reason).pkg = s.pkg ∧ (State.deniedFor s k reason).sec = s.sec ∧ 
    (State.deniedFor s k reason).bw = s.bw ∧ (State.deniedFor s k reason).time = s.time := by
  simp [State.deniedFor]
@[simp] theorem State.dirEvict_frame (s : State) (line : Nat) :
    (State.dirEvict s line).tiles = s.tiles ∧ (State.dirEvict s line).fuses = s.fuses ∧ (State.dirEvict s 
    line).pending = s.pending ∧ (State.dirEvict s line).cfg = s.cfg ∧ (State.dirEvict s line).mgmt = s.mgmt ∧ 
    (State.dirEvict s line).pkg = s.pkg ∧ (State.dirEvict s line).sec = s.sec ∧ (State.dirEvict s line).bw = s.bw 
    ∧ (State.dirEvict s line).time = s.time := by
  simp only [State.dirEvict]; (repeat' split) <;> (simp [*])
@[simp] theorem State.homeRead_frame (s : State) (p : Nat) (k : Packet) :
    (State.homeRead s p k).tiles = s.tiles ∧ (State.homeRead s p k).fuses = s.fuses ∧ (State.homeRead s p 
    k).pending = s.pending ∧ (State.homeRead s p k).cfg = s.cfg ∧ (State.homeRead s p k).mgmt = s.mgmt ∧ 
    (State.homeRead s p k).pkg = s.pkg ∧ (State.homeRead s p k).sec = s.sec ∧ (State.homeRead s p k).bw = s.bw ∧ 
    (State.homeRead s p k).time = s.time := by
  simp [State.homeRead]
@[simp] theorem State.homeReadDir_frame (s : State) (p : Nat) (k : Packet) :
    (State.homeReadDir s p k).tiles = s.tiles ∧ (State.homeReadDir s p k).fuses = s.fuses ∧ (State.homeReadDir s p 
    k).pending = s.pending ∧ (State.homeReadDir s p k).cfg = s.cfg ∧ (State.homeReadDir s p k).mgmt = s.mgmt ∧ 
    (State.homeReadDir s p k).pkg = s.pkg ∧ (State.homeReadDir s p k).sec = s.sec ∧ (State.homeReadDir s p k).bw = 
    s.bw ∧ (State.homeReadDir s p k).time = s.time := by
  simp only [State.homeReadDir]; (repeat' split) <;> (simp [*])
@[simp] theorem State.answerWrite_frame (s : State) (p : Nat) (k ans : Packet) (grp : Nat) (wait : Bool) :
    (State.answerWrite s p k ans grp wait).tiles = s.tiles ∧ (State.answerWrite s p k ans grp wait).fuses = 
    s.fuses ∧ (State.answerWrite s p k ans grp wait).pending = s.pending ∧ (State.answerWrite s p k ans grp 
    wait).cfg = s.cfg ∧ (State.answerWrite s p k ans grp wait).mgmt = s.mgmt ∧ (State.answerWrite s p k ans grp 
    wait).pkg = s.pkg ∧ (State.answerWrite s p k ans grp wait).sec = s.sec ∧ (State.answerWrite s p k ans grp 
    wait).bw = s.bw ∧ (State.answerWrite s p k ans grp wait).time = s.time := by
  simp [State.answerWrite]
@[simp] theorem State.homeWrite_frame (s : State) (p : Nat) (k : Packet) :
    (State.homeWrite s p k).tiles = s.tiles ∧ (State.homeWrite s p k).fuses = s.fuses ∧ (State.homeWrite s p 
    k).pending = s.pending ∧ (State.homeWrite s p k).cfg = s.cfg ∧ (State.homeWrite s p k).mgmt = s.mgmt ∧ 
    (State.homeWrite s p k).pkg = s.pkg ∧ (State.homeWrite s p k).sec = s.sec ∧ (State.homeWrite s p k).bw = s.bw 
    ∧ (State.homeWrite s p k).time = s.time := by
  simp [State.homeWrite]
@[simp] theorem State.homeAtomic_frame (s : State) (p : Nat) (k : Packet) :
    (State.homeAtomic s p k).tiles = s.tiles ∧ (State.homeAtomic s p k).fuses = s.fuses ∧ (State.homeAtomic s p 
    k).pending = s.pending ∧ (State.homeAtomic s p k).cfg = s.cfg ∧ (State.homeAtomic s p k).mgmt = s.mgmt ∧ 
    (State.homeAtomic s p k).pkg = s.pkg ∧ (State.homeAtomic s p k).sec = s.sec ∧ (State.homeAtomic s p k).bw = 
    s.bw ∧ (State.homeAtomic s p k).time = s.time := by
  simp [State.homeAtomic]
@[simp] theorem State.refuseOp_frame (s : State) (p : Nat) (k : Packet) (reason : Nat) :
    (State.refuseOp s p k reason).tiles = s.tiles ∧ (State.refuseOp s p k reason).fuses = s.fuses ∧ 
    (State.refuseOp s p k reason).pending = s.pending ∧ (State.refuseOp s p k reason).cfg = s.cfg ∧ 
    (State.refuseOp s p k reason).mgmt = s.mgmt ∧ (State.refuseOp s p k reason).pkg = s.pkg ∧ (State.refuseOp s p 
    k reason).sec = s.sec ∧ (State.refuseOp s p k reason).bw = s.bw ∧ (State.refuseOp s p k reason).time = s.time := by
  simp [State.refuseOp]
@[simp] theorem State.homeOp_frame (s : State) (p : Nat) (k : Packet) (admitted : Bool) :
    (State.homeOp s p k admitted).tiles = s.tiles ∧ (State.homeOp s p k admitted).fuses = s.fuses ∧ (State.homeOp 
    s p k admitted).pending = s.pending ∧ (State.homeOp s p k admitted).cfg = s.cfg ∧ (State.homeOp s p k 
    admitted).mgmt = s.mgmt ∧ (State.homeOp s p k admitted).pkg = s.pkg ∧ (State.homeOp s p k admitted).sec = 
    s.sec ∧ (State.homeOp s p k admitted).bw = s.bw ∧ (State.homeOp s p k admitted).time = s.time := by
  simp [State.homeOp]
@[simp] theorem State.spRead_frame (s : State) (p : Nat) (k : Packet) :
    (State.spRead s p k).fuses = s.fuses ∧ (State.spRead s p k).pending = s.pending ∧ (State.spRead s p k).cfg = 
    s.cfg ∧ (State.spRead s p k).mgmt = s.mgmt ∧ (State.spRead s p k).pkg = s.pkg ∧ (State.spRead s p k).sec = 
    s.sec ∧ (State.spRead s p k).bw = s.bw ∧ (State.spRead s p k).time = s.time := by
  simp only [State.spRead]; (repeat' split) <;> (simp [*])
@[simp] theorem State.creditReq_frame (s : State) (p : Nat) (k : Packet) :
    (State.creditReq s p k).fuses = s.fuses ∧ (State.creditReq s p k).pending = s.pending ∧ (State.creditReq s p 
    k).cfg = s.cfg ∧ (State.creditReq s p k).mgmt = s.mgmt ∧ (State.creditReq s p k).pkg = s.pkg ∧ 
    (State.creditReq s p k).sec = s.sec ∧ (State.creditReq s p k).bw = s.bw ∧ (State.creditReq s p k).time = 
    s.time := by
  simp only [State.creditReq]; (repeat' split) <;> (simp [*])
@[simp] theorem State.spWrite_frame (s : State) (p : Nat) (k : Packet) (decl : Nat) :
    (State.spWrite s p k decl).fuses = s.fuses ∧ (State.spWrite s p k decl).pending = s.pending ∧ (State.spWrite s 
    p k decl).cfg = s.cfg ∧ (State.spWrite s p k decl).mgmt = s.mgmt ∧ (State.spWrite s p k decl).pkg = s.pkg ∧ 
    (State.spWrite s p k decl).sec = s.sec ∧ (State.spWrite s p k decl).bw = s.bw ∧ (State.spWrite s p k 
    decl).time = s.time := by
  simp only [State.spWrite]; (repeat' split) <;> (simp [*])
@[simp] theorem State.xlateReq_frame (s : State) (p : Nat) (k : Packet) :
    (State.xlateReq s p k).tiles = s.tiles ∧ (State.xlateReq s p k).fuses = s.fuses ∧ (State.xlateReq s p 
    k).pending = s.pending ∧ (State.xlateReq s p k).cfg = s.cfg ∧ (State.xlateReq s p k).mgmt = s.mgmt ∧ 
    (State.xlateReq s p k).pkg = s.pkg ∧ (State.xlateReq s p k).sec = s.sec ∧ (State.xlateReq s p k).bw = s.bw ∧ 
    (State.xlateReq s p k).time = s.time := by
  simp [State.xlateReq]
@[simp] theorem State.serve_frame (s : State) (p : Nat) (k : Packet) :
    (State.serve s p k).fuses = s.fuses ∧ (State.serve s p k).pending = s.pending ∧ (State.serve s p k).cfg = 
    s.cfg ∧ (State.serve s p k).mgmt = s.mgmt ∧ (State.serve s p k).pkg = s.pkg ∧ (State.serve s p k).sec = s.sec 
    ∧ (State.serve s p k).bw = s.bw ∧ (State.serve s p k).time = s.time := by
  simp only [State.serve]; (repeat' split) <;> (simp [*])
@[simp] theorem State.serveHeld_frame (s : State) :
    (State.serveHeld s).fuses = s.fuses ∧ (State.serveHeld s).pending = s.pending ∧ (State.serveHeld s).cfg = 
    s.cfg ∧ (State.serveHeld s).mgmt = s.mgmt ∧ (State.serveHeld s).pkg = s.pkg ∧ (State.serveHeld s).sec = s.sec 
    ∧ (State.serveHeld s).bw = s.bw ∧ (State.serveHeld s).time = s.time := by
  simp [State.serveHeld, foldl_tiles, foldl_fuses, foldl_pending, foldl_cfg, foldl_mgmt, foldl_pkg, foldl_sec, foldl_bw, foldl_time, foldlP_tiles, foldlP_fuses, foldlP_pending, foldlP_cfg, foldlP_mgmt, foldlP_pkg, foldlP_sec, foldlP_bw, foldlP_time, foldlW_tiles, foldlW_fuses, foldlW_pending, foldlW_cfg, foldlW_mgmt, foldlW_pkg, foldlW_sec, foldlW_bw, foldlW_time]
@[simp] theorem State.answered_tiles (s : State) (k : Packet) (fits : Packet → Bool) (f : State → OpenTx → State) (h : ∀ s o, (f s o).tiles = s.tiles) :
    (s.answered k fits f).tiles = s.tiles := by
  simp only [State.answered]
  repeat' split
  all_goals simp [h]

@[simp] theorem State.answered_fuses (s : State) (k : Packet) (fits : Packet → Bool) (f : State → OpenTx → State) (h : ∀ s o, (f s o).fuses = s.fuses) :
    (s.answered k fits f).fuses = s.fuses := by
  simp only [State.answered]
  repeat' split
  all_goals simp [h]

@[simp] theorem State.answered_pending (s : State) (k : Packet) (fits : Packet → Bool) (f : State → OpenTx → State) (h : ∀ s o, (f s o).pending = s.pending) :
    (s.answered k fits f).pending = s.pending := by
  simp only [State.answered]
  repeat' split
  all_goals simp [h]

@[simp] theorem State.answered_cfg (s : State) (k : Packet) (fits : Packet → Bool) (f : State → OpenTx → State) (h : ∀ s o, (f s o).cfg = s.cfg) :
    (s.answered k fits f).cfg = s.cfg := by
  simp only [State.answered]
  repeat' split
  all_goals simp [h]

@[simp] theorem State.answered_mgmt (s : State) (k : Packet) (fits : Packet → Bool) (f : State → OpenTx → State) (h : ∀ s o, (f s o).mgmt = s.mgmt) :
    (s.answered k fits f).mgmt = s.mgmt := by
  simp only [State.answered]
  repeat' split
  all_goals simp [h]

@[simp] theorem State.answered_pkg (s : State) (k : Packet) (fits : Packet → Bool) (f : State → OpenTx → State) (h : ∀ s o, (f s o).pkg = s.pkg) :
    (s.answered k fits f).pkg = s.pkg := by
  simp only [State.answered]
  repeat' split
  all_goals simp [h]

@[simp] theorem State.answered_sec (s : State) (k : Packet) (fits : Packet → Bool) (f : State → OpenTx → State) (h : ∀ s o, (f s o).sec = s.sec) :
    (s.answered k fits f).sec = s.sec := by
  simp only [State.answered]
  repeat' split
  all_goals simp [h]

@[simp] theorem State.answered_bw (s : State) (k : Packet) (fits : Packet → Bool) (f : State → OpenTx → State) (h : ∀ s o, (f s o).bw = s.bw) :
    (s.answered k fits f).bw = s.bw := by
  simp only [State.answered]
  repeat' split
  all_goals simp [h]

@[simp] theorem State.answered_time (s : State) (k : Packet) (fits : Packet → Bool) (f : State → OpenTx → State) (h : ∀ s o, (f s o).time = s.time) :
    (s.answered k fits f).time = s.time := by
  simp only [State.answered]
  repeat' split
  all_goals simp [h]


@[simp] theorem State.takeData_frame (s : State) (o : OpenTx) (k : Packet) :
    (State.takeData s o k).fuses = s.fuses ∧ (State.takeData s o k).pending = s.pending ∧ (State.takeData s o 
    k).cfg = s.cfg ∧ (State.takeData s o k).mgmt = s.mgmt ∧ (State.takeData s o k).pkg = s.pkg ∧ (State.takeData s 
    o k).sec = s.sec ∧ (State.takeData s o k).bw = s.bw ∧ (State.takeData s o k).time = s.time := by
  simp [State.takeData]
@[simp] theorem State.escapeWork_frame (s : State) (o : OpenTx) :
    (State.escapeWork s o).tiles = s.tiles ∧ (State.escapeWork s o).fuses = s.fuses ∧ (State.escapeWork s 
    o).pending = s.pending ∧ (State.escapeWork s o).cfg = s.cfg ∧ (State.escapeWork s o).mgmt = s.mgmt ∧ 
    (State.escapeWork s o).pkg = s.pkg ∧ (State.escapeWork s o).sec = s.sec ∧ (State.escapeWork s o).bw = s.bw ∧ 
    (State.escapeWork s o).time = s.time := by
  simp [State.escapeWork]
@[simp] theorem State.takeAck_frame (s : State) (o : OpenTx) (status : Nat) :
    (State.takeAck s o status).fuses = s.fuses ∧ (State.takeAck s o status).pending = s.pending ∧ (State.takeAck s 
    o status).cfg = s.cfg ∧ (State.takeAck s o status).mgmt = s.mgmt ∧ (State.takeAck s o status).pkg = s.pkg ∧ 
    (State.takeAck s o status).sec = s.sec ∧ (State.takeAck s o status).bw = s.bw ∧ (State.takeAck s o 
    status).time = s.time := by
  simp only [State.takeAck]; (repeat' split) <;> (simp [*])
@[simp] theorem State.takeGrant_frame (s : State) (o : OpenTx) (k : Packet) :
    (State.takeGrant s o k).fuses = s.fuses ∧ (State.takeGrant s o k).pending = s.pending ∧ (State.takeGrant s o 
    k).cfg = s.cfg ∧ (State.takeGrant s o k).mgmt = s.mgmt ∧ (State.takeGrant s o k).pkg = s.pkg ∧ 
    (State.takeGrant s o k).sec = s.sec ∧ (State.takeGrant s o k).bw = s.bw ∧ (State.takeGrant s o k).time = 
    s.time := by
  simp [State.takeGrant]
@[simp] theorem State.addXlate_frame (s : State) (g : Nat) (x : Xlate) :
    (State.addXlate s g x).tiles = s.tiles ∧ (State.addXlate s g x).fuses = s.fuses ∧ (State.addXlate s g 
    x).pending = s.pending ∧ (State.addXlate s g x).cfg = s.cfg ∧ (State.addXlate s g x).mgmt = s.mgmt ∧ 
    (State.addXlate s g x).pkg = s.pkg ∧ (State.addXlate s g x).sec = s.sec ∧ (State.addXlate s g x).bw = s.bw ∧ 
    (State.addXlate s g x).time = s.time := by
  simp [State.addXlate]
@[simp] theorem State.takeHomes_frame (s : State) (g : Nat) (bs : List Byte) :
    (State.takeHomes s g bs).tiles = s.tiles ∧ (State.takeHomes s g bs).fuses = s.fuses ∧ (State.takeHomes s g 
    bs).pending = s.pending ∧ (State.takeHomes s g bs).cfg = s.cfg ∧ (State.takeHomes s g bs).mgmt = s.mgmt ∧ 
    (State.takeHomes s g bs).pkg = s.pkg ∧ (State.takeHomes s g bs).sec = s.sec ∧ (State.takeHomes s g bs).bw = 
    s.bw ∧ (State.takeHomes s g bs).time = s.time := by
  simp [State.takeHomes, foldl_tiles, foldl_fuses, foldl_pending, foldl_cfg, foldl_mgmt, foldl_pkg, foldl_sec, foldl_bw, foldl_time, foldlP_tiles, foldlP_fuses, foldlP_pending, foldlP_cfg, foldlP_mgmt, foldlP_pkg, foldlP_sec, foldlP_bw, foldlP_time, foldlW_tiles, foldlW_fuses, foldlW_pending, foldlW_cfg, foldlW_mgmt, foldlW_pkg, foldlW_sec, foldlW_bw, foldlW_time]
@[simp] theorem State.dropLines_frame (s : State) (ls : List Nat) :
    (State.dropLines s ls).tiles = s.tiles ∧ (State.dropLines s ls).fuses = s.fuses ∧ (State.dropLines s 
    ls).pending = s.pending ∧ (State.dropLines s ls).cfg = s.cfg ∧ (State.dropLines s ls).mgmt = s.mgmt ∧ 
    (State.dropLines s ls).pkg = s.pkg ∧ (State.dropLines s ls).sec = s.sec ∧ (State.dropLines s ls).bw = s.bw ∧ 
    (State.dropLines s ls).time = s.time := by
  simp [State.dropLines]
@[simp] theorem State.invAck_frame (s : State) (p : Nat) (k : Packet) :
    (State.invAck s p k).tiles = s.tiles ∧ (State.invAck s p k).fuses = s.fuses ∧ (State.invAck s p k).pending = 
    s.pending ∧ (State.invAck s p k).cfg = s.cfg ∧ (State.invAck s p k).mgmt = s.mgmt ∧ (State.invAck s p k).pkg = 
    s.pkg ∧ (State.invAck s p k).sec = s.sec ∧ (State.invAck s p k).bw = s.bw ∧ (State.invAck s p k).time = s.time := by
  simp [State.invAck]
@[simp] theorem State.takeInvAck_frame (s : State) (k : Packet) :
    (State.takeInvAck s k).fuses = s.fuses ∧ (State.takeInvAck s k).pending = s.pending ∧ (State.takeInvAck s 
    k).cfg = s.cfg ∧ (State.takeInvAck s k).mgmt = s.mgmt ∧ (State.takeInvAck s k).pkg = s.pkg ∧ (State.takeInvAck 
    s k).sec = s.sec ∧ (State.takeInvAck s k).bw = s.bw ∧ (State.takeInvAck s k).time = s.time := by
  simp [State.takeInvAck]
@[simp] theorem State.syncResult_frame (s : State) (x : SyncSrc) (o v : Nat) :
    (State.syncResult s x o v).fuses = s.fuses ∧ (State.syncResult s x o v).pending = s.pending ∧ 
    (State.syncResult s x o v).cfg = s.cfg ∧ (State.syncResult s x o v).mgmt = s.mgmt ∧ (State.syncResult s x o 
    v).pkg = s.pkg ∧ (State.syncResult s x o v).sec = s.sec ∧ (State.syncResult s x o v).bw = s.bw ∧ 
    (State.syncResult s x o v).time = s.time := by
  simp only [State.syncResult]; (repeat' split) <;> (simp [*])
@[simp] theorem State.localResult_frame (s : State) (i : Nat) :
    (State.localResult s i).fuses = s.fuses ∧ (State.localResult s i).pending = s.pending ∧ (State.localResult s 
    i).cfg = s.cfg ∧ (State.localResult s i).mgmt = s.mgmt ∧ (State.localResult s i).pkg = s.pkg ∧ 
    (State.localResult s i).sec = s.sec ∧ (State.localResult s i).bw = s.bw ∧ (State.localResult s i).time = 
    s.time := by
  simp only [State.localResult]; (repeat' split) <;> (simp [*])
@[simp] theorem State.barReport_frame (s : State) (d id round : Nat) :
    (State.barReport s d id round).tiles = s.tiles ∧ (State.barReport s d id round).fuses = s.fuses ∧ 
    (State.barReport s d id round).pending = s.pending ∧ (State.barReport s d id round).cfg = s.cfg ∧ 
    (State.barReport s d id round).mgmt = s.mgmt ∧ (State.barReport s d id round).pkg = s.pkg ∧ (State.barReport s 
    d id round).sec = s.sec ∧ (State.barReport s d id round).bw = s.bw ∧ (State.barReport s d id round).time = 
    s.time := by
  simp only [State.barReport]; (repeat' split) <;> (simp [*])
@[simp] theorem State.barRelease_frame (s : State) (id round : Nat) :
    (State.barRelease s id round).tiles = s.tiles ∧ (State.barRelease s id round).fuses = s.fuses ∧ 
    (State.barRelease s id round).pending = s.pending ∧ (State.barRelease s id round).cfg = s.cfg ∧ 
    (State.barRelease s id round).mgmt = s.mgmt ∧ (State.barRelease s id round).pkg = s.pkg ∧ (State.barRelease s 
    id round).sec = s.sec ∧ (State.barRelease s id round).bw = s.bw ∧ (State.barRelease s id round).time = s.time := by
  simp only [State.barRelease]; (repeat' split) <;> (simp [*])

/-! ### `SyncDebug` -/

@[simp] theorem State.dbgRefuse_frame (s : State) :
    (State.dbgRefuse s).tiles = s.tiles ∧ (State.dbgRefuse s).fuses = s.fuses ∧ (State.dbgRefuse s).pending = 
    s.pending ∧ (State.dbgRefuse s).mgmt = s.mgmt ∧ (State.dbgRefuse s).pkg = s.pkg ∧ (State.dbgRefuse s).sec = 
    s.sec ∧ (State.dbgRefuse s).bw = s.bw ∧ (State.dbgRefuse s).time = s.time := by
  simp [State.dbgRefuse]
@[simp] theorem State.dbgEvent_frame (s : State) (cmd : Nat) :
    (State.dbgEvent s cmd).tiles = s.tiles ∧ (State.dbgEvent s cmd).fuses = s.fuses ∧ (State.dbgEvent s 
    cmd).pending = s.pending ∧ (State.dbgEvent s cmd).cfg = s.cfg ∧ (State.dbgEvent s cmd).mgmt = s.mgmt ∧ 
    (State.dbgEvent s cmd).pkg = s.pkg ∧ (State.dbgEvent s cmd).sec = s.sec ∧ (State.dbgEvent s cmd).bw = s.bw ∧ 
    (State.dbgEvent s cmd).time = s.time := by
  simp [State.dbgEvent]
@[simp] theorem State.dbgRead_frame (s : State) :
    (State.dbgRead s).tiles = s.tiles ∧ (State.dbgRead s).fuses = s.fuses ∧ (State.dbgRead s).pending = s.pending 
    ∧ (State.dbgRead s).mgmt = s.mgmt ∧ (State.dbgRead s).pkg = s.pkg ∧ (State.dbgRead s).sec = s.sec ∧ 
    (State.dbgRead s).bw = s.bw ∧ (State.dbgRead s).time = s.time := by
  simp only [State.dbgRead]; (repeat' split) <;> (simp [*])
@[simp] theorem State.dbgWrite_frame (s : State) :
    (State.dbgWrite s).tiles = s.tiles ∧ (State.dbgWrite s).fuses = s.fuses ∧ (State.dbgWrite s).pending = 
    s.pending ∧ (State.dbgWrite s).mgmt = s.mgmt ∧ (State.dbgWrite s).pkg = s.pkg ∧ (State.dbgWrite s).sec = s.sec 
    ∧ (State.dbgWrite s).bw = s.bw ∧ (State.dbgWrite s).time = s.time := by
  simp [State.dbgWrite]
@[simp] theorem State.dbgRelease_frame (s : State) :
    (State.dbgRelease s).tiles = s.tiles ∧ (State.dbgRelease s).fuses = s.fuses ∧ (State.dbgRelease s).pending = 
    s.pending ∧ (State.dbgRelease s).mgmt = s.mgmt ∧ (State.dbgRelease s).pkg = s.pkg ∧ (State.dbgRelease s).sec = 
    s.sec ∧ (State.dbgRelease s).bw = s.bw ∧ (State.dbgRelease s).time = s.time := by
  simp [State.dbgRelease]
@[simp] theorem State.dbgClose_frame (s : State) :
    (State.dbgClose s).tiles = s.tiles ∧ (State.dbgClose s).fuses = s.fuses ∧ (State.dbgClose s).pending = 
    s.pending ∧ (State.dbgClose s).mgmt = s.mgmt ∧ (State.dbgClose s).pkg = s.pkg ∧ (State.dbgClose s).sec = s.sec 
    ∧ (State.dbgClose s).bw = s.bw ∧ (State.dbgClose s).time = s.time := by
  simp only [State.dbgClose]; (repeat' split) <;> (simp [*])
@[simp] theorem State.dbgFree_frame (s : State) :
    (State.dbgFree s).tiles = s.tiles ∧ (State.dbgFree s).fuses = s.fuses ∧ (State.dbgFree s).pending = s.pending 
    ∧ (State.dbgFree s).mgmt = s.mgmt ∧ (State.dbgFree s).pkg = s.pkg ∧ (State.dbgFree s).sec = s.sec ∧ 
    (State.dbgFree s).bw = s.bw ∧ (State.dbgFree s).time = s.time := by
  simp [State.dbgFree]
@[simp] theorem State.dbgCmd_frame (s : State) (v : Word) :
    (State.dbgCmd s v).tiles = s.tiles ∧ (State.dbgCmd s v).fuses = s.fuses ∧ (State.dbgCmd s v).pending = 
    s.pending ∧ (State.dbgCmd s v).mgmt = s.mgmt ∧ (State.dbgCmd s v).pkg = s.pkg ∧ (State.dbgCmd s v).sec = s.sec 
    ∧ (State.dbgCmd s v).bw = s.bw ∧ (State.dbgCmd s v).time = s.time := by
  simp only [State.dbgCmd]; (repeat' split) <;> (simp [*])

/-! ### `Members` -/

@[simp] theorem State.sendLevel_frame (s : State) (d v : Nat) :
    (State.sendLevel s d v).tiles = s.tiles ∧ (State.sendLevel s d v).fuses = s.fuses ∧ (State.sendLevel s d 
    v).pending = s.pending ∧ (State.sendLevel s d v).cfg = s.cfg ∧ (State.sendLevel s d v).mgmt = s.mgmt ∧ 
    (State.sendLevel s d v).pkg = s.pkg ∧ (State.sendLevel s d v).sec = s.sec ∧ (State.sendLevel s d v).bw = s.bw 
    ∧ (State.sendLevel s d v).time = s.time := by
  simp [State.sendLevel]
@[simp] theorem State.joinedEvent_frame (s : State) (d caps1 : Nat) :
    (State.joinedEvent s d caps1).tiles = s.tiles ∧ (State.joinedEvent s d caps1).fuses = s.fuses ∧ 
    (State.joinedEvent s d caps1).pending = s.pending ∧ (State.joinedEvent s d caps1).cfg = s.cfg ∧ 
    (State.joinedEvent s d caps1).mgmt = s.mgmt ∧ (State.joinedEvent s d caps1).pkg = s.pkg ∧ (State.joinedEvent s 
    d caps1).sec = s.sec ∧ (State.joinedEvent s d caps1).bw = s.bw ∧ (State.joinedEvent s d caps1).time = s.time := by
  simp [State.joinedEvent]
@[simp] theorem State.refuseDie_frame (s : State) (p d reason : Nat) :
    (State.refuseDie s p d reason).tiles = s.tiles ∧ (State.refuseDie s p d reason).fuses = s.fuses ∧ 
    (State.refuseDie s p d reason).pending = s.pending ∧ (State.refuseDie s p d reason).cfg = s.cfg ∧ 
    (State.refuseDie s p d reason).mgmt = s.mgmt ∧ (State.refuseDie s p d reason).pkg = s.pkg ∧ (State.refuseDie s 
    p d reason).sec = s.sec ∧ (State.refuseDie s p d reason).bw = s.bw ∧ (State.refuseDie s p d reason).time = 
    s.time := by
  simp [State.refuseDie]
@[simp] theorem State.formPackage_frame (s : State) :
    (State.formPackage s).fuses = s.fuses ∧ (State.formPackage s).pending = s.pending ∧ (State.formPackage s).sec 
    = s.sec ∧ (State.formPackage s).bw = s.bw ∧ (State.formPackage s).time = s.time := by
  simp [State.formPackage, foldl_tiles, foldl_fuses, foldl_pending, foldl_cfg, foldl_mgmt, foldl_pkg, foldl_sec, foldl_bw, foldl_time, foldlP_tiles, foldlP_fuses, foldlP_pending, foldlP_cfg, foldlP_mgmt, foldlP_pkg, foldlP_sec, foldlP_bw, foldlP_time, foldlW_tiles, foldlW_fuses, foldlW_pending, foldlW_cfg, foldlW_mgmt, foldlW_pkg, foldlW_sec, foldlW_bw, foldlW_time]
@[simp] theorem State.tryForm_frame (s : State) :
    (State.tryForm s).fuses = s.fuses ∧ (State.tryForm s).pending = s.pending ∧ (State.tryForm s).sec = s.sec ∧ 
    (State.tryForm s).bw = s.bw ∧ (State.tryForm s).time = s.time := by
  simp [State.tryForm]
@[simp] theorem State.joinNow_frame (s : State) :
    (State.joinNow s).fuses = s.fuses ∧ (State.joinNow s).pending = s.pending ∧ (State.joinNow s).sec = s.sec ∧ 
    (State.joinNow s).bw = s.bw ∧ (State.joinNow s).time = s.time := by
  ((repeat' apply And.intro) <;> (simp only [State.joinNow]; (repeat' split) <;> (simp [*, foldl_tiles, foldl_fuses, foldl_pending, foldl_cfg, foldl_mgmt, foldl_pkg, foldl_sec, foldl_bw, foldl_time, foldlP_tiles, foldlP_fuses, foldlP_pending, foldlP_cfg, foldlP_mgmt, foldlP_pkg, foldlP_sec, foldlP_bw, foldlP_time, foldlW_tiles, foldlW_fuses, foldlW_pending, foldlW_cfg, foldlW_mgmt, foldlW_pkg, foldlW_sec, foldlW_bw, foldlW_time])))
@[simp] theorem State.formTimeout_frame (s : State) :
    (State.formTimeout s).fuses = s.fuses ∧ (State.formTimeout s).pending = s.pending ∧ (State.formTimeout s).sec 
    = s.sec ∧ (State.formTimeout s).bw = s.bw ∧ (State.formTimeout s).time = s.time := by
  simp only [State.formTimeout]; (repeat' split) <;> (simp [*])
@[simp] theorem State.readmit_frame (s : State) (d caps1 : Nat) :
    (State.readmit s d caps1).tiles = s.tiles ∧ (State.readmit s d caps1).fuses = s.fuses ∧ (State.readmit s d 
    caps1).pending = s.pending ∧ (State.readmit s d caps1).cfg = s.cfg ∧ (State.readmit s d caps1).mgmt = s.mgmt ∧ 
    (State.readmit s d caps1).sec = s.sec ∧ (State.readmit s d caps1).bw = s.bw ∧ (State.readmit s d caps1).time = 
    s.time := by
  simp [State.readmit, foldl_tiles, foldl_fuses, foldl_pending, foldl_cfg, foldl_mgmt, foldl_pkg, foldl_sec, foldl_bw, foldl_time, foldlP_tiles, foldlP_fuses, foldlP_pending, foldlP_cfg, foldlP_mgmt, foldlP_pkg, foldlP_sec, foldlP_bw, foldlP_time, foldlW_tiles, foldlW_fuses, foldlW_pending, foldlW_cfg, foldlW_mgmt, foldlW_pkg, foldlW_sec, foldlW_bw, foldlW_time]
@[simp] theorem State.rejoin_frame (s : State) (p d c0 c1 : Nat) :
    (State.rejoin s p d c0 c1).fuses = s.fuses ∧ (State.rejoin s p d c0 c1).pending = s.pending ∧ (State.rejoin s 
    p d c0 c1).cfg = s.cfg ∧ (State.rejoin s p d c0 c1).sec = s.sec ∧ (State.rejoin s p d c0 c1).bw = s.bw ∧ 
    (State.rejoin s p d c0 c1).time = s.time := by
  simp [State.rejoin, foldl_tiles, foldl_fuses, foldl_pending, foldl_cfg, foldl_mgmt, foldl_pkg, foldl_sec, foldl_bw, foldl_time, foldlP_tiles, foldlP_fuses, foldlP_pending, foldlP_cfg, foldlP_mgmt, foldlP_pkg, foldlP_sec, foldlP_bw, foldlP_time, foldlW_tiles, foldlW_fuses, foldlW_pending, foldlW_cfg, foldlW_mgmt, foldlW_pkg, foldlW_sec, foldlW_bw, foldlW_time]
@[simp] theorem State.join_frame (s : State) (p : Nat) (k : Packet) :
    (State.join s p k).fuses = s.fuses ∧ (State.join s p k).pending = s.pending ∧ (State.join s p k).sec = s.sec ∧ 
    (State.join s p k).bw = s.bw ∧ (State.join s p k).time = s.time := by
  simp [State.join]
@[simp] theorem State.accept_frame (s : State) (k : Packet) :
    (State.accept s k).tiles = s.tiles ∧ (State.accept s k).fuses = s.fuses ∧ (State.accept s k).pending = 
    s.pending ∧ (State.accept s k).cfg = s.cfg ∧ (State.accept s k).mgmt = s.mgmt ∧ (State.accept s k).sec = s.sec 
    ∧ (State.accept s k).bw = s.bw ∧ (State.accept s k).time = s.time := by
  simp [State.accept]
@[simp] theorem State.refusedJoin_frame (s : State) (k : Packet) :
    (State.refusedJoin s k).tiles = s.tiles ∧ (State.refusedJoin s k).fuses = s.fuses ∧ (State.refusedJoin s 
    k).pending = s.pending ∧ (State.refusedJoin s k).cfg = s.cfg ∧ (State.refusedJoin s k).mgmt = s.mgmt ∧ 
    (State.refusedJoin s k).pkg = s.pkg ∧ (State.refusedJoin s k).sec = s.sec ∧ (State.refusedJoin s k).bw = s.bw 
    ∧ (State.refusedJoin s k).time = s.time := by
  simp [State.refusedJoin]
@[simp] theorem State.lostNotice_frame (s : State) (k : Packet) :
    (State.lostNotice s k).fuses = s.fuses ∧ (State.lostNotice s k).pending = s.pending ∧ (State.lostNotice s 
    k).cfg = s.cfg ∧ (State.lostNotice s k).mgmt = s.mgmt ∧ (State.lostNotice s k).sec = s.sec ∧ (State.lostNotice 
    s k).bw = s.bw ∧ (State.lostNotice s k).time = s.time := by
  simp [State.lostNotice]
@[simp] theorem State.clockFault_frame (s : State) (d : Nat) :
    (State.clockFault s d).fuses = s.fuses ∧ (State.clockFault s d).pending = s.pending ∧ (State.clockFault s 
    d).cfg = s.cfg ∧ (State.clockFault s d).mgmt = s.mgmt ∧ (State.clockFault s d).sec = s.sec ∧ (State.clockFault 
    s d).bw = s.bw ∧ (State.clockFault s d).time = s.time := by
  simp [State.clockFault]
@[simp] theorem State.refLoss_frame (s : State) :
    (State.refLoss s).fuses = s.fuses ∧ (State.refLoss s).pending = s.pending ∧ (State.refLoss s).cfg = s.cfg ∧ 
    (State.refLoss s).sec = s.sec ∧ (State.refLoss s).bw = s.bw ∧ (State.refLoss s).time = s.time := by
  ((repeat' apply And.intro) <;> (simp only [State.refLoss]; (repeat' split) <;> (simp [*, foldl_tiles, foldl_fuses, foldl_pending, foldl_cfg, foldl_mgmt, foldl_pkg, foldl_sec, foldl_bw, foldl_time, foldlP_tiles, foldlP_fuses, foldlP_pending, foldlP_cfg, foldlP_mgmt, foldlP_pkg, foldlP_sec, foldlP_bw, foldlP_time, foldlW_tiles, foldlW_fuses, foldlW_pending, foldlW_cfg, foldlW_mgmt, foldlW_pkg, foldlW_sec, foldlW_bw, foldlW_time])))
@[simp] theorem State.clockStop_frame (s : State) :
    (State.clockStop s).tiles = s.tiles ∧ (State.clockStop s).fuses = s.fuses ∧ (State.clockStop s).pending = 
    s.pending ∧ (State.clockStop s).cfg = s.cfg ∧ (State.clockStop s).mgmt = s.mgmt ∧ (State.clockStop s).sec = 
    s.sec ∧ (State.clockStop s).bw = s.bw ∧ (State.clockStop s).time = s.time := by
  simp [State.clockStop]
@[simp] theorem State.refReturn_frame (s : State) :
    (State.refReturn s).tiles = s.tiles ∧ (State.refReturn s).fuses = s.fuses ∧ (State.refReturn s).pending = 
    s.pending ∧ (State.refReturn s).cfg = s.cfg ∧ (State.refReturn s).mgmt = s.mgmt ∧ (State.refReturn s).sec = 
    s.sec ∧ (State.refReturn s).bw = s.bw ∧ (State.refReturn s).time = s.time := by
  simp [State.refReturn]
@[simp] theorem State.holdoverEnd_frame (s : State) :
    (State.holdoverEnd s).fuses = s.fuses ∧ (State.holdoverEnd s).pending = s.pending ∧ (State.holdoverEnd s).cfg 
    = s.cfg ∧ (State.holdoverEnd s).mgmt = s.mgmt ∧ (State.holdoverEnd s).sec = s.sec ∧ (State.holdoverEnd s).bw = 
    s.bw ∧ (State.holdoverEnd s).time = s.time := by
  simp [State.holdoverEnd]

end Sys2Proof.Machine
end

