-- ==== Sys2Proof/Laws/FramesSystem.lean ====
section
/-!
SUPPORT. Which parts of the state faults, reset, firmware, the Bellows, the Onjan, test access, register access and the tick leave as they were: one lemma
`<operation>_frame` for each operation on the state, of the fields tiles, fuses, pending, cfg, mgmt, pkg, sec, bw and time.
-/

set_option Elab.async false
set_option linter.unusedSimpArgs false
set_option linter.unusedVariables false
set_option linter.unreachableTactic false
set_option linter.unusedTactic false

namespace Sys2Proof.Machine

open Sys2Proof

/-! ### `Faults` -/

@[simp] theorem State.onFlt_frame (s : State) (f : Flt → Flt) :
    (State.onFlt s f).tiles = s.tiles ∧ (State.onFlt s f).fuses = s.fuses ∧ (State.onFlt s f).pending = s.pending 
    ∧ (State.onFlt s f).cfg = s.cfg ∧ (State.onFlt s f).mgmt = s.mgmt ∧ (State.onFlt s f).pkg = s.pkg ∧ 
    (State.onFlt s f).sec = s.sec ∧ (State.onFlt s f).bw = s.bw ∧ (State.onFlt s f).time = s.time := by
  simp [State.onFlt]
@[simp] theorem State.fenceDesc_frame (s : State) (t : Nat) (d : Desc) :
    (State.fenceDesc s t d).tiles = s.tiles ∧ (State.fenceDesc s t d).fuses = s.fuses ∧ (State.fenceDesc s t 
    d).pending = s.pending ∧ (State.fenceDesc s t d).cfg = s.cfg ∧ (State.fenceDesc s t d).mgmt = s.mgmt ∧ 
    (State.fenceDesc s t d).pkg = s.pkg ∧ (State.fenceDesc s t d).sec = s.sec ∧ (State.fenceDesc s t d).bw = s.bw 
    ∧ (State.fenceDesc s t d).time = s.time := by
  simp [State.fenceDesc]
@[simp] theorem State.fenceTile_frame (s : State) (t : Nat) :
    (State.fenceTile s t).fuses = s.fuses ∧ (State.fenceTile s t).pending = s.pending ∧ (State.fenceTile s t).cfg 
    = s.cfg ∧ (State.fenceTile s t).mgmt = s.mgmt ∧ (State.fenceTile s t).pkg = s.pkg ∧ (State.fenceTile s t).sec 
    = s.sec ∧ (State.fenceTile s t).bw = s.bw ∧ (State.fenceTile s t).time = s.time := by
  simp [State.fenceTile]
@[simp] theorem State.coreFault_frame (s : State) (t src : Nat) :
    (State.coreFault s t src).fuses = s.fuses ∧ (State.coreFault s t src).pending = s.pending ∧ (State.coreFault s 
    t src).cfg = s.cfg ∧ (State.coreFault s t src).mgmt = s.mgmt ∧ (State.coreFault s t src).pkg = s.pkg ∧ 
    (State.coreFault s t src).sec = s.sec ∧ (State.coreFault s t src).bw = s.bw ∧ (State.coreFault s t src).time = 
    s.time := by
  simp [State.coreFault, foldl_tiles, foldl_fuses, foldl_pending, foldl_cfg, foldl_mgmt, foldl_pkg, foldl_sec, foldl_bw, foldl_time, foldlP_tiles, foldlP_fuses, foldlP_pending, foldlP_cfg, foldlP_mgmt, foldlP_pkg, foldlP_sec, foldlP_bw, foldlP_time, foldlW_tiles, foldlW_fuses, foldlW_pending, foldlW_cfg, foldlW_mgmt, foldlW_pkg, foldlW_sec, foldlW_bw, foldlW_time]
@[simp] theorem State.corrected_frame (s : State) (t : Nat) :
    (State.corrected s t).tiles = s.tiles ∧ (State.corrected s t).fuses = s.fuses ∧ (State.corrected s t).pending 
    = s.pending ∧ (State.corrected s t).cfg = s.cfg ∧ (State.corrected s t).mgmt = s.mgmt ∧ (State.corrected s 
    t).pkg = s.pkg ∧ (State.corrected s t).sec = s.sec ∧ (State.corrected s t).bw = s.bw ∧ (State.corrected s 
    t).time = s.time := by
  simp [State.corrected]
@[simp] theorem State.predictFence_frame (s : State) (t : Nat) :
    (State.predictFence s t).fuses = s.fuses ∧ (State.predictFence s t).pending = s.pending ∧ (State.predictFence 
    s t).cfg = s.cfg ∧ (State.predictFence s t).mgmt = s.mgmt ∧ (State.predictFence s t).pkg = s.pkg ∧ 
    (State.predictFence s t).sec = s.sec ∧ (State.predictFence s t).bw = s.bw ∧ (State.predictFence s t).time = 
    s.time := by
  simp [State.predictFence]
@[simp] theorem State.uncoreFault_frame (s : State) (b : Nat) :
    (State.uncoreFault s b).fuses = s.fuses ∧ (State.uncoreFault s b).pending = s.pending ∧ (State.uncoreFault s 
    b).cfg = s.cfg ∧ (State.uncoreFault s b).mgmt = s.mgmt ∧ (State.uncoreFault s b).sec = s.sec ∧ 
    (State.uncoreFault s b).bw = s.bw ∧ (State.uncoreFault s b).time = s.time := by
  simp [State.uncoreFault]
@[simp] theorem State.fenceErr_frame (s : State) :
    (State.fenceErr s).tiles = s.tiles ∧ (State.fenceErr s).fuses = s.fuses ∧ (State.fenceErr s).pending = 
    s.pending ∧ (State.fenceErr s).cfg = s.cfg ∧ (State.fenceErr s).mgmt = s.mgmt ∧ (State.fenceErr s).pkg = s.pkg 
    ∧ (State.fenceErr s).sec = s.sec ∧ (State.fenceErr s).bw = s.bw ∧ (State.fenceErr s).time = s.time := by
  simp [State.fenceErr]
@[simp] theorem State.fenceMask_frame (s : State) (w : Nat) (v : Word) :
    (State.fenceMask s w v).fuses = s.fuses ∧ (State.fenceMask s w v).pending = s.pending ∧ (State.fenceMask s w 
    v).cfg = s.cfg ∧ (State.fenceMask s w v).mgmt = s.mgmt ∧ (State.fenceMask s w v).pkg = s.pkg ∧ 
    (State.fenceMask s w v).sec = s.sec ∧ (State.fenceMask s w v).bw = s.bw ∧ (State.fenceMask s w v).time = 
    s.time := by
  simp [State.fenceMask, foldl_tiles, foldl_fuses, foldl_pending, foldl_cfg, foldl_mgmt, foldl_pkg, foldl_sec, foldl_bw, foldl_time, foldlP_tiles, foldlP_fuses, foldlP_pending, foldlP_cfg, foldlP_mgmt, foldlP_pkg, foldlP_sec, foldlP_bw, foldlP_time, foldlW_tiles, foldlW_fuses, foldlW_pending, foldlW_cfg, foldlW_mgmt, foldlW_pkg, foldlW_sec, foldlW_bw, foldlW_time]
@[simp] theorem State.beginCrst_frame (s : State) (t why : Nat) :
    (State.beginCrst s t why).tiles = s.tiles ∧ (State.beginCrst s t why).fuses = s.fuses ∧ (State.beginCrst s t 
    why).pending = s.pending ∧ (State.beginCrst s t why).cfg = s.cfg ∧ (State.beginCrst s t why).pkg = s.pkg ∧ 
    (State.beginCrst s t why).sec = s.sec ∧ (State.beginCrst s t why).bw = s.bw ∧ (State.beginCrst s t why).time = 
    s.time := by
  simp [State.beginCrst]
@[simp] theorem State.fenceRelease_frame (s : State) (w : Nat) (v : Word) :
    (State.fenceRelease s w v).tiles = s.tiles ∧ (State.fenceRelease s w v).fuses = s.fuses ∧ (State.fenceRelease 
    s w v).pending = s.pending ∧ (State.fenceRelease s w v).cfg = s.cfg ∧ (State.fenceRelease s w v).pkg = s.pkg ∧ 
    (State.fenceRelease s w v).sec = s.sec ∧ (State.fenceRelease s w v).bw = s.bw ∧ (State.fenceRelease s w 
    v).time = s.time := by
  simp [State.fenceRelease, foldl_tiles, foldl_fuses, foldl_pending, foldl_cfg, foldl_mgmt, foldl_pkg, foldl_sec, foldl_bw, foldl_time, foldlP_tiles, foldlP_fuses, foldlP_pending, foldlP_cfg, foldlP_mgmt, foldlP_pkg, foldlP_sec, foldlP_bw, foldlP_time, foldlW_tiles, foldlW_fuses, foldlW_pending, foldlW_cfg, foldlW_mgmt, foldlW_pkg, foldlW_sec, foldlW_bw, foldlW_time]
@[simp] theorem State.coreResetMask_frame (s : State) (w : Nat) (v : Word) :
    (State.coreResetMask s w v).tiles = s.tiles ∧ (State.coreResetMask s w v).fuses = s.fuses ∧ 
    (State.coreResetMask s w v).pending = s.pending ∧ (State.coreResetMask s w v).cfg = s.cfg ∧ 
    (State.coreResetMask s w v).pkg = s.pkg ∧ (State.coreResetMask s w v).sec = s.sec ∧ (State.coreResetMask s w 
    v).bw = s.bw ∧ (State.coreResetMask s w v).time = s.time := by
  ((repeat' apply And.intro) <;> (simp only [State.coreResetMask]; (repeat' (first | split | (with_reducible refine (foldl_tiles _ _ _ (fun _ _ => ?_)).trans ?_) | (with_reducible refine (foldl_fuses _ _ _ (fun _ _ => ?_)).trans ?_) | (with_reducible refine (foldl_pending _ _ _ (fun _ _ => ?_)).trans ?_) | (with_reducible refine (foldl_cfg _ _ _ (fun _ _ => ?_)).trans ?_) | (with_reducible refine (foldl_mgmt _ _ _ (fun _ _ => ?_)).trans ?_) | (with_reducible refine (foldl_pkg _ _ _ (fun _ _ => ?_)).trans ?_) | (with_reducible refine (foldl_sec _ _ _ (fun _ _ => ?_)).trans ?_) | (with_reducible refine (foldl_bw _ _ _ (fun _ _ => ?_)).trans ?_) | (with_reducible refine (foldl_time _ _ _ (fun _ _ => ?_)).trans ?_) | (with_reducible refine (foldlP_tiles _ _ _ (fun _ _ => ?_)).trans ?_) | (with_reducible refine (foldlP_fuses _ _ _ (fun _ _ => ?_)).trans ?_) | (with_reducible refine (foldlP_pending _ _ _ (fun _ _ => ?_)).trans ?_) | (with_reducible refine (foldlP_cfg _ _ _ (fun _ _ => ?_)).trans ?_) | (with_reducible refine (foldlP_mgmt _ _ _ (fun _ _ => ?_)).trans ?_) | (with_reducible refine (foldlP_pkg _ _ _ (fun _ _ => ?_)).trans ?_) | (with_reducible refine (foldlP_sec _ _ _ (fun _ _ => ?_)).trans ?_) | (with_reducible refine (foldlP_bw _ _ _ (fun _ _ => ?_)).trans ?_) | (with_reducible refine (foldlP_time _ _ _ (fun _ _ => ?_)).trans ?_) | (with_reducible refine (foldlW_tiles _ _ _ (fun _ _ => ?_)).trans ?_) | (with_reducible refine (foldlW_fuses _ _ _ (fun _ _ => ?_)).trans ?_) | (with_reducible refine (foldlW_pending _ _ _ (fun _ _ => ?_)).trans ?_) | (with_reducible refine (foldlW_cfg _ _ _ (fun _ _ => ?_)).trans ?_) | (with_reducible refine (foldlW_mgmt _ _ _ (fun _ _ => ?_)).trans ?_) | (with_reducible refine (foldlW_pkg _ _ _ (fun _ _ => ?_)).trans ?_) | (with_reducible refine (foldlW_sec _ _ _ (fun _ _ => ?_)).trans ?_) | (with_reducible refine (foldlW_bw _ _ _ (fun _ _ => ?_)).trans ?_) | (with_reducible refine (foldlW_time _ _ _ (fun _ _ => ?_)).trans ?_))) <;> (simp [*])))
@[simp] theorem State.crstDone_frame (s : State) (t : Nat) (pass : Bool) :
    (State.crstDone s t pass).fuses = s.fuses ∧ (State.crstDone s t pass).pending = s.pending ∧ (State.crstDone s 
    t pass).cfg = s.cfg ∧ (State.crstDone s t pass).pkg = s.pkg ∧ (State.crstDone s t pass).sec = s.sec ∧ 
    (State.crstDone s t pass).bw = s.bw ∧ (State.crstDone s t pass).time = s.time := by
  simp [State.crstDone]
@[simp] theorem State.replay_frame (s : State) (uid : Nat) :
    (State.replay s uid).fuses = s.fuses ∧ (State.replay s uid).pending = s.pending ∧ (State.replay s uid).cfg = 
    s.cfg ∧ (State.replay s uid).mgmt = s.mgmt ∧ (State.replay s uid).pkg = s.pkg ∧ (State.replay s uid).sec = 
    s.sec ∧ (State.replay s uid).bw = s.bw ∧ (State.replay s uid).time = s.time := by
  simp only [State.replay]; (repeat' split) <;> (simp [*])
@[simp] theorem State.commitPoint_frame (s : State) (uid : Nat) :
    (State.commitPoint s uid).tiles = s.tiles ∧ (State.commitPoint s uid).fuses = s.fuses ∧ (State.commitPoint s 
    uid).pending = s.pending ∧ (State.commitPoint s uid).cfg = s.cfg ∧ (State.commitPoint s uid).mgmt = s.mgmt ∧ 
    (State.commitPoint s uid).pkg = s.pkg ∧ (State.commitPoint s uid).sec = s.sec ∧ (State.commitPoint s uid).bw = 
    s.bw ∧ (State.commitPoint s uid).time = s.time := by
  simp only [State.commitPoint]; (repeat' split) <;> (simp [*])
@[simp] theorem State.applyRecord_frame (s : State) (d : Desc) (r : Nat × List Byte) :
    (State.applyRecord s d r).st.tiles = s.tiles ∧ (State.applyRecord s d r).st.fuses = s.fuses ∧ 
    (State.applyRecord s d r).st.pending = s.pending ∧ (State.applyRecord s d r).st.cfg = s.cfg ∧ 
    (State.applyRecord s d r).st.mgmt = s.mgmt ∧ (State.applyRecord s d r).st.pkg = s.pkg ∧ (State.applyRecord s d 
    r).st.sec = s.sec ∧ (State.applyRecord s d r).st.bw = s.bw ∧ (State.applyRecord s d r).st.time = s.time := by
  simp [State.applyRecord]
@[simp] theorem State.applyRecords_frame (s : State) (d : Desc) :
    (State.applyRecords s d).st.tiles = s.tiles ∧ (State.applyRecords s d).st.fuses = s.fuses ∧ 
    (State.applyRecords s d).st.pending = s.pending ∧ (State.applyRecords s d).st.cfg = s.cfg ∧ 
    (State.applyRecords s d).st.mgmt = s.mgmt ∧ (State.applyRecords s d).st.pkg = s.pkg ∧ (State.applyRecords s 
    d).st.sec = s.sec ∧ (State.applyRecords s d).st.bw = s.bw ∧ (State.applyRecords s d).st.time = s.time := by
  simp [State.applyRecords, foldl_tiles, foldl_fuses, foldl_pending, foldl_cfg, foldl_mgmt, foldl_pkg, foldl_sec, foldl_bw, foldl_time, foldlP_tiles, foldlP_fuses, foldlP_pending, foldlP_cfg, foldlP_mgmt, foldlP_pkg, foldlP_sec, foldlP_bw, foldlP_time, foldlW_tiles, foldlW_fuses, foldlW_pending, foldlW_cfg, foldlW_mgmt, foldlW_pkg, foldlW_sec, foldlW_bw, foldlW_time]
@[simp] theorem State.applyLogs_frame (s : State) (d : Desc) :
    (State.applyLogs s d).tiles = s.tiles ∧ (State.applyLogs s d).fuses = s.fuses ∧ (State.applyLogs s d).pending 
    = s.pending ∧ (State.applyLogs s d).cfg = s.cfg ∧ (State.applyLogs s d).mgmt = s.mgmt ∧ (State.applyLogs s 
    d).pkg = s.pkg ∧ (State.applyLogs s d).sec = s.sec ∧ (State.applyLogs s d).bw = s.bw ∧ (State.applyLogs s 
    d).time = s.time := by
  simp [State.applyLogs]
@[simp] theorem State.commitDone_frame (s : State) (uid : Nat) :
    (State.commitDone s uid).fuses = s.fuses ∧ (State.commitDone s uid).pending = s.pending ∧ (State.commitDone s 
    uid).cfg = s.cfg ∧ (State.commitDone s uid).mgmt = s.mgmt ∧ (State.commitDone s uid).pkg = s.pkg ∧ 
    (State.commitDone s uid).sec = s.sec ∧ (State.commitDone s uid).bw = s.bw ∧ (State.commitDone s uid).time = 
    s.time := by
  simp only [State.commitDone]; (repeat' split) <;> (simp [*])

/-! ### `Reset` -/

@[simp] theorem State.onMgmt_frame (s : State) (f : Mgmt → Mgmt) :
    (State.onMgmt s f).tiles = s.tiles ∧ (State.onMgmt s f).fuses = s.fuses ∧ (State.onMgmt s f).pending = 
    s.pending ∧ (State.onMgmt s f).cfg = s.cfg ∧ (State.onMgmt s f).pkg = s.pkg ∧ (State.onMgmt s f).sec = s.sec ∧ 
    (State.onMgmt s f).bw = s.bw ∧ (State.onMgmt s f).time = s.time := by
  simp [State.onMgmt]
@[simp] theorem State.afterReset_frame (s : State) (por : Bool) :
    (State.afterReset s por).fuses = s.fuses ∧ (State.afterReset s por).pending = s.pending := by
  exact ⟨rfl, rfl⟩
@[simp] theorem State.takeReset_frame (s : State) (lvl : ResetLevel) (cause sub die ts : Nat) (deferred : Bool) :
    (State.takeReset s lvl cause sub die ts deferred).fuses = s.fuses ∧ (State.takeReset s lvl cause sub die ts 
    deferred).pending = s.pending := by
  simp [State.takeReset]
@[simp] theorem State.pulsed_frame (s : State) (p : FusePulse) :
    (State.pulsed s p).tiles = s.tiles ∧ (State.pulsed s p).pending = s.pending ∧ (State.pulsed s p).cfg = s.cfg ∧ 
    (State.pulsed s p).mgmt = s.mgmt ∧ (State.pulsed s p).pkg = s.pkg ∧ (State.pulsed s p).bw = s.bw ∧ 
    (State.pulsed s p).time = s.time := by
  simp only [State.pulsed]; (repeat' split) <;> (simp [*])
@[simp] theorem State.blow_frame (s : State) (ps : List FusePulse) :
    (State.blow s ps).tiles = s.tiles ∧ (State.blow s ps).fuses = s.fuses ∧ (State.blow s ps).pending = s.pending 
    ∧ (State.blow s ps).cfg = s.cfg ∧ (State.blow s ps).pkg = s.pkg ∧ (State.blow s ps).sec = s.sec ∧ (State.blow 
    s ps).bw = s.bw ∧ (State.blow s ps).time = s.time := by
  simp [State.blow]
@[simp] theorem State.pulse_frame (s : State) :
    (State.pulse s).tiles = s.tiles ∧ (State.pulse s).pending = s.pending ∧ (State.pulse s).cfg = s.cfg ∧ 
    (State.pulse s).pkg = s.pkg ∧ (State.pulse s).bw = s.bw ∧ (State.pulse s).time = s.time := by
  simp only [State.pulse]; (repeat' split) <;> (simp [*])
@[simp] theorem State.pulseCut_frame (s : State) :
    (State.pulseCut s).tiles = s.tiles ∧ (State.pulseCut s).pending = s.pending ∧ (State.pulseCut s).cfg = s.cfg ∧ 
    (State.pulseCut s).mgmt = s.mgmt ∧ (State.pulseCut s).pkg = s.pkg ∧ (State.pulseCut s).bw = s.bw ∧ 
    (State.pulseCut s).time = s.time := by
  simp only [State.pulseCut]; (repeat' split) <;> (simp [*])
@[simp] theorem State.requestReset_frame (s : State) (lvl : ResetLevel) (cause sub die : Nat) :
    (State.requestReset s lvl cause sub die).pending = s.pending := by
  simp only [State.requestReset]; (repeat' split) <;> (simp [*])
@[simp] theorem State.wdogKick_frame (s : State) :
    (State.wdogKick s).tiles = s.tiles ∧ (State.wdogKick s).fuses = s.fuses ∧ (State.wdogKick s).pending = 
    s.pending ∧ (State.wdogKick s).cfg = s.cfg ∧ (State.wdogKick s).pkg = s.pkg ∧ (State.wdogKick s).sec = s.sec ∧ 
    (State.wdogKick s).bw = s.bw ∧ (State.wdogKick s).time = s.time := by
  simp [State.wdogKick]
@[simp] theorem State.pkgSrst_frame (s : State) :
    (State.pkgSrst s).tiles = s.tiles ∧ (State.pkgSrst s).fuses = s.fuses ∧ (State.pkgSrst s).pending = s.pending 
    ∧ (State.pkgSrst s).cfg = s.cfg ∧ (State.pkgSrst s).pkg = s.pkg ∧ (State.pkgSrst s).sec = s.sec ∧ 
    (State.pkgSrst s).bw = s.bw ∧ (State.pkgSrst s).time = s.time := by
  simp [State.pkgSrst, foldl_tiles, foldl_fuses, foldl_pending, foldl_cfg, foldl_mgmt, foldl_pkg, foldl_sec, foldl_bw, foldl_time, foldlP_tiles, foldlP_fuses, foldlP_pending, foldlP_cfg, foldlP_mgmt, foldlP_pkg, foldlP_sec, foldlP_bw, foldlP_time, foldlW_tiles, foldlW_fuses, foldlW_pending, foldlW_cfg, foldlW_mgmt, foldlW_pkg, foldlW_sec, foldlW_bw, foldlW_time]
@[simp] theorem State.deferredReset_frame (s : State) :
    (State.deferredReset s).pending = s.pending := by
  simp only [State.deferredReset]; (repeat' split) <;> (simp [*])
@[simp] theorem State.resetReq_frame (s : State) (p : Nat) (k : Packet) :
    (State.resetReq s p k).pending = s.pending := by
  simp [State.resetReq]
@[simp] theorem State.senseRoles_frame (s : State) :
    (State.senseRoles s).tiles = s.tiles ∧ (State.senseRoles s).fuses = s.fuses ∧ (State.senseRoles s).pending = 
    s.pending ∧ (State.senseRoles s).mgmt = s.mgmt ∧ (State.senseRoles s).pkg = s.pkg ∧ (State.senseRoles s).sec = 
    s.sec ∧ (State.senseRoles s).bw = s.bw ∧ (State.senseRoles s).time = s.time := by
  simp [State.senseRoles, foldl_tiles, foldl_fuses, foldl_pending, foldl_cfg, foldl_mgmt, foldl_pkg, foldl_sec, foldl_bw, foldl_time, foldlP_tiles, foldlP_fuses, foldlP_pending, foldlP_cfg, foldlP_mgmt, foldlP_pkg, foldlP_sec, foldlP_bw, foldlP_time, foldlW_tiles, foldlW_fuses, foldlW_pending, foldlW_cfg, foldlW_mgmt, foldlW_pkg, foldlW_sec, foldlW_bw, foldlW_time]
@[simp] theorem State.senseId_frame (s : State) :
    (State.senseId s).tiles = s.tiles ∧ (State.senseId s).fuses = s.fuses ∧ (State.senseId s).pending = s.pending 
    ∧ (State.senseId s).mgmt = s.mgmt ∧ (State.senseId s).pkg = s.pkg ∧ (State.senseId s).sec = s.sec ∧ 
    (State.senseId s).bw = s.bw ∧ (State.senseId s).time = s.time := by
  simp [State.senseId]
@[simp] theorem State.fuseSense_frame (s : State) :
    (State.fuseSense s).tiles = s.tiles ∧ (State.fuseSense s).fuses = s.fuses ∧ (State.fuseSense s).pending = 
    s.pending ∧ (State.fuseSense s).mgmt = s.mgmt ∧ (State.fuseSense s).pkg = s.pkg ∧ (State.fuseSense s).bw = 
    s.bw ∧ (State.fuseSense s).time = s.time := by
  simp [State.fuseSense]
@[simp] theorem State.applyOptions_frame (s : State) (img : Tab Word) :
    (State.applyOptions s img).tiles = s.tiles ∧ (State.applyOptions s img).fuses = s.fuses ∧ (State.applyOptions 
    s img).pending = s.pending ∧ (State.applyOptions s img).pkg = s.pkg ∧ (State.applyOptions s img).sec = s.sec ∧ 
    (State.applyOptions s img).time = s.time := by
  simp [State.applyOptions, foldl_tiles, foldl_fuses, foldl_pending, foldl_cfg, foldl_mgmt, foldl_pkg, foldl_sec, foldl_bw, foldl_time, foldlP_tiles, foldlP_fuses, foldlP_pending, foldlP_cfg, foldlP_mgmt, foldlP_pkg, foldlP_sec, foldlP_bw, foldlP_time, foldlW_tiles, foldlW_fuses, foldlW_pending, foldlW_cfg, foldlW_mgmt, foldlW_pkg, foldlW_sec, foldlW_bw, foldlW_time]
@[simp] theorem State.optionLoad_frame (s : State) (mOk : Bool) :
    (State.optionLoad s mOk).tiles = s.tiles ∧ (State.optionLoad s mOk).fuses = s.fuses ∧ (State.optionLoad s 
    mOk).pending = s.pending ∧ (State.optionLoad s mOk).pkg = s.pkg ∧ (State.optionLoad s mOk).sec = s.sec ∧ 
    (State.optionLoad s mOk).time = s.time := by
  simp [State.optionLoad]
@[simp] theorem State.bootHalt_frame (s : State) :
    (State.bootHalt s).tiles = s.tiles ∧ (State.bootHalt s).fuses = s.fuses ∧ (State.bootHalt s).pending = 
    s.pending ∧ (State.bootHalt s).cfg = s.cfg ∧ (State.bootHalt s).sec = s.sec ∧ (State.bootHalt s).bw = s.bw ∧ 
    (State.bootHalt s).time = s.time := by
  simp [State.bootHalt]
@[simp] theorem State.clockOut_frame (s : State) :
    (State.clockOut s).tiles = s.tiles ∧ (State.clockOut s).fuses = s.fuses ∧ (State.clockOut s).pending = 
    s.pending ∧ (State.clockOut s).cfg = s.cfg ∧ (State.clockOut s).mgmt = s.mgmt ∧ (State.clockOut s).sec = s.sec 
    ∧ (State.clockOut s).bw = s.bw ∧ (State.clockOut s).time = s.time := by
  simp [State.clockOut]
@[simp] theorem State.bootStart_frame (s : State) (fuseOk mOk : Bool) :
    (State.bootStart s fuseOk mOk).tiles = s.tiles ∧ (State.bootStart s fuseOk mOk).fuses = s.fuses ∧ 
    (State.bootStart s fuseOk mOk).pending = s.pending ∧ (State.bootStart s fuseOk mOk).time = s.time := by
  simp [State.bootStart]
@[simp] theorem State.repairLife_frame (s : State) :
    (State.repairLife s).tiles = s.tiles ∧ (State.repairLife s).fuses = s.fuses ∧ (State.repairLife s).pending = 
    s.pending ∧ (State.repairLife s).cfg = s.cfg ∧ (State.repairLife s).pkg = s.pkg ∧ (State.repairLife s).sec = 
    s.sec ∧ (State.repairLife s).bw = s.bw ∧ (State.repairLife s).time = s.time := by
  simp [State.repairLife]
@[simp] theorem State.selfTestDone_frame (s : State) (ok : Bool) :
    (State.selfTestDone s ok).tiles = s.tiles ∧ (State.selfTestDone s ok).fuses = s.fuses ∧ (State.selfTestDone s 
    ok).pending = s.pending ∧ (State.selfTestDone s ok).cfg = s.cfg ∧ (State.selfTestDone s ok).bw = s.bw ∧ 
    (State.selfTestDone s ok).time = s.time := by
  simp [State.selfTestDone]
@[simp] theorem State.keyworkBegin_frame (s : State) (pass : Nat) :
    (State.keyworkBegin s pass).fuses = s.fuses ∧ (State.keyworkBegin s pass).pending = s.pending ∧ 
    (State.keyworkBegin s pass).sec = s.sec ∧ (State.keyworkBegin s pass).bw = s.bw ∧ (State.keyworkBegin s 
    pass).time = s.time := by
  simp [State.keyworkBegin]
@[simp] theorem State.keyworkInit_frame (s : State) (entries : List (Nat × List Word)) (pass : Nat) :
    (State.keyworkInit s entries pass).fuses = s.fuses ∧ (State.keyworkInit s entries pass).pending = s.pending ∧ 
    (State.keyworkInit s entries pass).sec = s.sec ∧ (State.keyworkInit s entries pass).bw = s.bw ∧ 
    (State.keyworkInit s entries pass).time = s.time := by
  (unfold State.keyworkInit; (try simp only []); (repeat' split) <;> (try simp only [Prod.ext_iff] at *) <;> (repeat (rename _ ∧ _ => hx; cases hx)) <;> (try subst_vars) <;> (simp [*]))
@[simp] theorem State.bootReady_frame (s : State) :
    (State.bootReady s).tiles = s.tiles ∧ (State.bootReady s).fuses = s.fuses ∧ (State.bootReady s).pending = 
    s.pending ∧ (State.bootReady s).cfg = s.cfg ∧ (State.bootReady s).pkg = s.pkg ∧ (State.bootReady s).sec = 
    s.sec ∧ (State.bootReady s).bw = s.bw ∧ (State.bootReady s).time = s.time := by
  simp [State.bootReady]

/-! ### `Firmware` -/

@[simp] theorem State.fwLoad_frame (s : State) :
    (State.fwLoad s).tiles = s.tiles ∧ (State.fwLoad s).fuses = s.fuses ∧ (State.fwLoad s).pending = s.pending ∧ 
    (State.fwLoad s).cfg = s.cfg ∧ (State.fwLoad s).pkg = s.pkg ∧ (State.fwLoad s).sec = s.sec ∧ (State.fwLoad 
    s).bw = s.bw ∧ (State.fwLoad s).time = s.time := by
  simp [State.fwLoad]
@[simp] theorem State.fwFail_frame (s : State) (e : Nat) :
    (State.fwFail s e).tiles = s.tiles ∧ (State.fwFail s e).fuses = s.fuses ∧ (State.fwFail s e).pending = 
    s.pending ∧ (State.fwFail s e).cfg = s.cfg ∧ (State.fwFail s e).pkg = s.pkg ∧ (State.fwFail s e).sec = s.sec ∧ 
    (State.fwFail s e).bw = s.bw ∧ (State.fwFail s e).time = s.time := by
  simp [State.fwFail]
@[simp] theorem State.fwData_frame (s : State) (v : Word) :
    (State.fwData s v).tiles = s.tiles ∧ (State.fwData s v).fuses = s.fuses ∧ (State.fwData s v).pending = 
    s.pending ∧ (State.fwData s v).cfg = s.cfg ∧ (State.fwData s v).pkg = s.pkg ∧ (State.fwData s v).sec = s.sec ∧ 
    (State.fwData s v).bw = s.bw ∧ (State.fwData s v).time = s.time := by
  simp [State.fwData]
@[simp] theorem State.fwVerified_frame (s : State) (key : Nat) (hashOk : Bool) :
    (State.fwVerified s key hashOk).tiles = s.tiles ∧ (State.fwVerified s key hashOk).fuses = s.fuses ∧ 
    (State.fwVerified s key hashOk).pending = s.pending ∧ (State.fwVerified s key hashOk).cfg = s.cfg ∧ 
    (State.fwVerified s key hashOk).pkg = s.pkg ∧ (State.fwVerified s key hashOk).bw = s.bw ∧ (State.fwVerified s 
    key hashOk).time = s.time := by
  simp [State.fwVerified]
@[simp] theorem State.fwSwitch_frame (s : State) :
    (State.fwSwitch s).tiles = s.tiles ∧ (State.fwSwitch s).fuses = s.fuses ∧ (State.fwSwitch s).pending = 
    s.pending ∧ (State.fwSwitch s).cfg = s.cfg ∧ (State.fwSwitch s).pkg = s.pkg ∧ (State.fwSwitch s).sec = s.sec ∧ 
    (State.fwSwitch s).bw = s.bw ∧ (State.fwSwitch s).time = s.time := by
  simp [State.fwSwitch]
@[simp] theorem State.fwQuiesce_frame (s : State) :
    (State.fwQuiesce s).tiles = s.tiles ∧ (State.fwQuiesce s).fuses = s.fuses ∧ (State.fwQuiesce s).pending = 
    s.pending ∧ (State.fwQuiesce s).cfg = s.cfg ∧ (State.fwQuiesce s).pkg = s.pkg ∧ (State.fwQuiesce s).bw = s.bw 
    ∧ (State.fwQuiesce s).time = s.time := by
  simp only [State.fwQuiesce]; (repeat' split) <;> (simp [*])
@[simp] theorem State.fwQuiesceTimeout_frame (s : State) :
    (State.fwQuiesceTimeout s).tiles = s.tiles ∧ (State.fwQuiesceTimeout s).fuses = s.fuses ∧ 
    (State.fwQuiesceTimeout s).pending = s.pending ∧ (State.fwQuiesceTimeout s).cfg = s.cfg ∧ 
    (State.fwQuiesceTimeout s).pkg = s.pkg ∧ (State.fwQuiesceTimeout s).sec = s.sec ∧ (State.fwQuiesceTimeout 
    s).bw = s.bw ∧ (State.fwQuiesceTimeout s).time = s.time := by
  simp only [State.fwQuiesceTimeout]; (repeat' split) <;> (simp [*])
@[simp] theorem State.optRefuse_frame (s : State) :
    (State.optRefuse s).tiles = s.tiles ∧ (State.optRefuse s).fuses = s.fuses ∧ (State.optRefuse s).pending = 
    s.pending ∧ (State.optRefuse s).cfg = s.cfg ∧ (State.optRefuse s).pkg = s.pkg ∧ (State.optRefuse s).sec = 
    s.sec ∧ (State.optRefuse s).bw = s.bw ∧ (State.optRefuse s).time = s.time := by
  simp [State.optRefuse]
@[simp] theorem State.optData_frame (s : State) (v : Word) :
    (State.optData s v).tiles = s.tiles ∧ (State.optData s v).fuses = s.fuses ∧ (State.optData s v).pending = 
    s.pending ∧ (State.optData s v).cfg = s.cfg ∧ (State.optData s v).pkg = s.pkg ∧ (State.optData s v).sec = 
    s.sec ∧ (State.optData s v).bw = s.bw ∧ (State.optData s v).time = s.time := by
  simp [State.optData]
@[simp] theorem State.optRevert_frame (s : State) :
    (State.optRevert s).tiles = s.tiles ∧ (State.optRevert s).fuses = s.fuses ∧ (State.optRevert s).pending = 
    s.pending ∧ (State.optRevert s).cfg = s.cfg ∧ (State.optRevert s).pkg = s.pkg ∧ (State.optRevert s).sec = 
    s.sec ∧ (State.optRevert s).bw = s.bw ∧ (State.optRevert s).time = s.time := by
  simp [State.optRevert]
@[simp] theorem State.optCommit_frame (s : State) :
    (State.optCommit s).tiles = s.tiles ∧ (State.optCommit s).fuses = s.fuses ∧ (State.optCommit s).pending = 
    s.pending ∧ (State.optCommit s).cfg = s.cfg ∧ (State.optCommit s).pkg = s.pkg ∧ (State.optCommit s).sec = 
    s.sec ∧ (State.optCommit s).bw = s.bw ∧ (State.optCommit s).time = s.time := by
  simp [State.optCommit]
@[simp] theorem State.optCommitDone_frame (s : State) (ok : Bool) (failOff : Nat) :
    (State.optCommitDone s ok failOff).tiles = s.tiles ∧ (State.optCommitDone s ok failOff).fuses = s.fuses ∧ 
    (State.optCommitDone s ok failOff).pending = s.pending ∧ (State.optCommitDone s ok failOff).cfg = s.cfg ∧ 
    (State.optCommitDone s ok failOff).pkg = s.pkg ∧ (State.optCommitDone s ok failOff).sec = s.sec ∧ 
    (State.optCommitDone s ok failOff).bw = s.bw ∧ (State.optCommitDone s ok failOff).time = s.time := by
  simp [State.optCommitDone]

/-! ### `Bellows` -/

@[simp] theorem State.onTime_frame (s : State) (f : Time → Time) :
    (State.onTime s f).tiles = s.tiles ∧ (State.onTime s f).fuses = s.fuses ∧ (State.onTime s f).pending = 
    s.pending ∧ (State.onTime s f).cfg = s.cfg ∧ (State.onTime s f).mgmt = s.mgmt ∧ (State.onTime s f).pkg = s.pkg 
    ∧ (State.onTime s f).sec = s.sec ∧ (State.onTime s f).bw = s.bw := by
  simp [State.onTime]
@[simp] theorem State.onBw_frame (s : State) (f : Bw → Bw) :
    (State.onBw s f).tiles = s.tiles ∧ (State.onBw s f).fuses = s.fuses ∧ (State.onBw s f).pending = s.pending ∧ 
    (State.onBw s f).cfg = s.cfg ∧ (State.onBw s f).mgmt = s.mgmt ∧ (State.onBw s f).pkg = s.pkg ∧ (State.onBw s 
    f).sec = s.sec ∧ (State.onBw s f).time = s.time := by
  simp [State.onBw]
@[simp] theorem State.align_frame (s : State) (k since : Nat) :
    (State.align s k since).tiles = s.tiles ∧ (State.align s k since).fuses = s.fuses ∧ (State.align s k 
    since).pending = s.pending ∧ (State.align s k since).cfg = s.cfg ∧ (State.align s k since).mgmt = s.mgmt ∧ 
    (State.align s k since).pkg = s.pkg ∧ (State.align s k since).sec = s.sec ∧ (State.align s k since).bw = s.bw := by
  simp [State.align]
@[simp] theorem State.tsNosync_frame (s : State) :
    (State.tsNosync s).tiles = s.tiles ∧ (State.tsNosync s).fuses = s.fuses ∧ (State.tsNosync s).pending = 
    s.pending ∧ (State.tsNosync s).cfg = s.cfg ∧ (State.tsNosync s).mgmt = s.mgmt ∧ (State.tsNosync s).pkg = s.pkg 
    ∧ (State.tsNosync s).sec = s.sec ∧ (State.tsNosync s).bw = s.bw := by
  simp [State.tsNosync]
@[simp] theorem State.tsLatch_frame (s : State) :
    (State.tsLatch s).tiles = s.tiles ∧ (State.tsLatch s).fuses = s.fuses ∧ (State.tsLatch s).pending = s.pending 
    ∧ (State.tsLatch s).cfg = s.cfg ∧ (State.tsLatch s).mgmt = s.mgmt ∧ (State.tsLatch s).pkg = s.pkg ∧ 
    (State.tsLatch s).sec = s.sec ∧ (State.tsLatch s).bw = s.bw := by
  simp [State.tsLatch]
@[simp] theorem State.mgmtRead_frame (s : State) (v : Word) :
    (State.mgmtRead s v).tiles = s.tiles ∧ (State.mgmtRead s v).fuses = s.fuses ∧ (State.mgmtRead s v).pending = 
    s.pending ∧ (State.mgmtRead s v).cfg = s.cfg ∧ (State.mgmtRead s v).pkg = s.pkg ∧ (State.mgmtRead s v).sec = 
    s.sec ∧ (State.mgmtRead s v).bw = s.bw ∧ (State.mgmtRead s v).time = s.time := by
  simp [State.mgmtRead]
@[simp] theorem State.ladder_frame (s : State) (thermal : Bool) (f : Bw → Bw) :
    (State.ladder s thermal f).tiles = s.tiles ∧ (State.ladder s thermal f).fuses = s.fuses ∧ (State.ladder s 
    thermal f).pending = s.pending ∧ (State.ladder s thermal f).cfg = s.cfg ∧ (State.ladder s thermal f).mgmt = 
    s.mgmt ∧ (State.ladder s thermal f).pkg = s.pkg ∧ (State.ladder s thermal f).sec = s.sec ∧ (State.ladder s 
    thermal f).time = s.time := by
  simp [State.ladder]
@[simp] theorem State.thermWarn_frame (s : State) (tjq tile : Nat) :
    (State.thermWarn s tjq tile).tiles = s.tiles ∧ (State.thermWarn s tjq tile).fuses = s.fuses ∧ (State.thermWarn 
    s tjq tile).pending = s.pending ∧ (State.thermWarn s tjq tile).cfg = s.cfg ∧ (State.thermWarn s tjq tile).mgmt 
    = s.mgmt ∧ (State.thermWarn s tjq tile).sec = s.sec ∧ (State.thermWarn s tjq tile).time = s.time := by
  simp [State.thermWarn]
@[simp] theorem State.currentWindow_frame (s : State) (amps dw tjq tile : Nat) :
    (State.currentWindow s amps dw tjq tile).tiles = s.tiles ∧ (State.currentWindow s amps dw tjq tile).fuses = 
    s.fuses ∧ (State.currentWindow s amps dw tjq tile).pending = s.pending ∧ (State.currentWindow s amps dw tjq 
    tile).cfg = s.cfg ∧ (State.currentWindow s amps dw tjq tile).mgmt = s.mgmt ∧ (State.currentWindow s amps dw 
    tjq tile).sec = s.sec ∧ (State.currentWindow s amps dw tjq tile).time = s.time := by
  simp [State.currentWindow]
@[simp] theorem State.thermalWindow_frame (s : State) :
    (State.thermalWindow s).tiles = s.tiles ∧ (State.thermalWindow s).fuses = s.fuses ∧ (State.thermalWindow 
    s).pending = s.pending ∧ (State.thermalWindow s).cfg = s.cfg ∧ (State.thermalWindow s).mgmt = s.mgmt ∧ 
    (State.thermalWindow s).pkg = s.pkg ∧ (State.thermalWindow s).sec = s.sec ∧ (State.thermalWindow s).time = 
    s.time := by
  simp [State.thermalWindow]
@[simp] theorem State.bwPending_frame (s : State) :
    (State.bwPending s).tiles = s.tiles ∧ (State.bwPending s).fuses = s.fuses ∧ (State.bwPending s).pending = 
    s.pending ∧ (State.bwPending s).mgmt = s.mgmt ∧ (State.bwPending s).pkg = s.pkg ∧ (State.bwPending s).sec = 
    s.sec ∧ (State.bwPending s).time = s.time := by
  ((repeat' apply And.intro) <;> (simp only [State.bwPending]; (repeat' split) <;> (try simp [*]) <;> (repeat' (first | split | (with_reducible refine (foldl_tiles _ _ _ (fun _ _ => ?_)).trans ?_) | (with_reducible refine (foldl_fuses _ _ _ (fun _ _ => ?_)).trans ?_) | (with_reducible refine (foldl_pending _ _ _ (fun _ _ => ?_)).trans ?_) | (with_reducible refine (foldl_cfg _ _ _ (fun _ _ => ?_)).trans ?_) | (with_reducible refine (foldl_mgmt _ _ _ (fun _ _ => ?_)).trans ?_) | (with_reducible refine (foldl_pkg _ _ _ (fun _ _ => ?_)).trans ?_) | (with_reducible refine (foldl_sec _ _ _ (fun _ _ => ?_)).trans ?_) | (with_reducible refine (foldl_bw _ _ _ (fun _ _ => ?_)).trans ?_) | (with_reducible refine (foldl_time _ _ _ (fun _ _ => ?_)).trans ?_) | (with_reducible refine (foldlP_tiles _ _ _ (fun _ _ => ?_)).trans ?_) | (with_reducible refine (foldlP_fuses _ _ _ (fun _ _ => ?_)).trans ?_) | (with_reducible refine (foldlP_pending _ _ _ (fun _ _ => ?_)).trans ?_) | (with_reducible refine (foldlP_cfg _ _ _ (fun _ _ => ?_)).trans ?_) | (with_reducible refine (foldlP_mgmt _ _ _ (fun _ _ => ?_)).trans ?_) | (with_reducible refine (foldlP_pkg _ _ _ (fun _ _ => ?_)).trans ?_) | (with_reducible refine (foldlP_sec _ _ _ (fun _ _ => ?_)).trans ?_) | (with_reducible refine (foldlP_bw _ _ _ (fun _ _ => ?_)).trans ?_) | (with_reducible refine (foldlP_time _ _ _ (fun _ _ => ?_)).trans ?_) | (with_reducible refine (foldlW_tiles _ _ _ (fun _ _ => ?_)).trans ?_) | (with_reducible refine (foldlW_fuses _ _ _ (fun _ _ => ?_)).trans ?_) | (with_reducible refine (foldlW_pending _ _ _ (fun _ _ => ?_)).trans ?_) | (with_reducible refine (foldlW_cfg _ _ _ (fun _ _ => ?_)).trans ?_) | (with_reducible refine (foldlW_mgmt _ _ _ (fun _ _ => ?_)).trans ?_) | (with_reducible refine (foldlW_pkg _ _ _ (fun _ _ => ?_)).trans ?_) | (with_reducible refine (foldlW_sec _ _ _ (fun _ _ => ?_)).trans ?_) | (with_reducible refine (foldlW_bw _ _ _ (fun _ _ => ?_)).trans ?_) | (with_reducible refine (foldlW_time _ _ _ (fun _ _ => ?_)).trans ?_))) <;> (simp [*, foldl_tiles, foldl_fuses, foldl_pending, foldl_cfg, foldl_mgmt, foldl_pkg, foldl_sec, foldl_bw, foldl_time, foldlP_tiles, foldlP_fuses, foldlP_pending, foldlP_cfg, foldlP_mgmt, foldlP_pkg, foldlP_sec, foldlP_bw, foldlP_time, foldlW_tiles, foldlW_fuses, foldlW_pending, foldlW_cfg, foldlW_mgmt, foldlW_pkg, foldlW_sec, foldlW_bw, foldlW_time])))
@[simp] theorem State.powerWindow_frame (s : State) :
    (State.powerWindow s).tiles = s.tiles ∧ (State.powerWindow s).fuses = s.fuses ∧ (State.powerWindow s).pending 
    = s.pending ∧ (State.powerWindow s).mgmt = s.mgmt ∧ (State.powerWindow s).pkg = s.pkg ∧ (State.powerWindow 
    s).sec = s.sec ∧ (State.powerWindow s).time = s.time := by
  simp [State.powerWindow]
@[simp] theorem State.thermalTrip_frame (s : State) :
    (State.thermalTrip s).tiles = s.tiles ∧ (State.thermalTrip s).fuses = s.fuses ∧ (State.thermalTrip s).pending 
    = s.pending ∧ (State.thermalTrip s).cfg = s.cfg ∧ (State.thermalTrip s).mgmt = s.mgmt ∧ (State.thermalTrip 
    s).sec = s.sec ∧ (State.thermalTrip s).time = s.time := by
  simp [State.thermalTrip]
@[simp] theorem State.applyGrant_frame (s : State) (w round : Nat) :
    (State.applyGrant s w round).tiles = s.tiles ∧ (State.applyGrant s w round).fuses = s.fuses ∧ 
    (State.applyGrant s w round).pending = s.pending ∧ (State.applyGrant s w round).cfg = s.cfg ∧ 
    (State.applyGrant s w round).mgmt = s.mgmt ∧ (State.applyGrant s w round).pkg = s.pkg ∧ (State.applyGrant s w 
    round).sec = s.sec ∧ (State.applyGrant s w round).time = s.time := by
  simp [State.applyGrant]
@[simp] theorem State.sendGrants_frame (s : State) :
    (State.sendGrants s).tiles = s.tiles ∧ (State.sendGrants s).fuses = s.fuses ∧ (State.sendGrants s).pending = 
    s.pending ∧ (State.sendGrants s).cfg = s.cfg ∧ (State.sendGrants s).mgmt = s.mgmt ∧ (State.sendGrants s).pkg = 
    s.pkg ∧ (State.sendGrants s).sec = s.sec ∧ (State.sendGrants s).time = s.time := by
  simp [State.sendGrants, foldl_tiles, foldl_fuses, foldl_pending, foldl_cfg, foldl_mgmt, foldl_pkg, foldl_sec, foldl_bw, foldl_time, foldlP_tiles, foldlP_fuses, foldlP_pending, foldlP_cfg, foldlP_mgmt, foldlP_pkg, foldlP_sec, foldlP_bw, foldlP_time, foldlW_tiles, foldlW_fuses, foldlW_pending, foldlW_cfg, foldlW_mgmt, foldlW_pkg, foldlW_sec, foldlW_bw, foldlW_time]
@[simp] theorem State.tryGrant_frame (s : State) :
    (State.tryGrant s).tiles = s.tiles ∧ (State.tryGrant s).fuses = s.fuses ∧ (State.tryGrant s).pending = 
    s.pending ∧ (State.tryGrant s).cfg = s.cfg ∧ (State.tryGrant s).mgmt = s.mgmt ∧ (State.tryGrant s).pkg = s.pkg 
    ∧ (State.tryGrant s).sec = s.sec ∧ (State.tryGrant s).time = s.time := by
  simp [State.tryGrant]
@[simp] theorem State.checkFallback_frame (s : State) :
    (State.checkFallback s).tiles = s.tiles ∧ (State.checkFallback s).fuses = s.fuses ∧ (State.checkFallback 
    s).pending = s.pending ∧ (State.checkFallback s).cfg = s.cfg ∧ (State.checkFallback s).mgmt = s.mgmt ∧ 
    (State.checkFallback s).pkg = s.pkg ∧ (State.checkFallback s).sec = s.sec ∧ (State.checkFallback s).time = 
    s.time := by
  simp [State.checkFallback]
@[simp] theorem State.roundStart_frame (s : State) :
    (State.roundStart s).tiles = s.tiles ∧ (State.roundStart s).fuses = s.fuses ∧ (State.roundStart s).pending = 
    s.pending ∧ (State.roundStart s).cfg = s.cfg ∧ (State.roundStart s).mgmt = s.mgmt ∧ (State.roundStart s).pkg = 
    s.pkg ∧ (State.roundStart s).sec = s.sec ∧ (State.roundStart s).time = s.time := by
  simp [State.roundStart]
@[simp] theorem State.budgetReport_frame (s : State) (k : Packet) :
    (State.budgetReport s k).tiles = s.tiles ∧ (State.budgetReport s k).fuses = s.fuses ∧ (State.budgetReport s 
    k).pending = s.pending ∧ (State.budgetReport s k).cfg = s.cfg ∧ (State.budgetReport s k).mgmt = s.mgmt ∧ 
    (State.budgetReport s k).pkg = s.pkg ∧ (State.budgetReport s k).sec = s.sec ∧ (State.budgetReport s k).time = 
    s.time := by
  simp [State.budgetReport]

/-! ### `Onjan` -/

@[simp] theorem State.onSec_frame (s : State) (f : Sec → Sec) :
    (State.onSec s f).tiles = s.tiles ∧ (State.onSec s f).fuses = s.fuses ∧ (State.onSec s f).pending = s.pending 
    ∧ (State.onSec s f).cfg = s.cfg ∧ (State.onSec s f).mgmt = s.mgmt ∧ (State.onSec s f).pkg = s.pkg ∧ 
    (State.onSec s f).bw = s.bw ∧ (State.onSec s f).time = s.time := by
  simp [State.onSec]
@[simp] theorem State.secRefuse_frame (s : State) (code : Nat) :
    (State.secRefuse s code).tiles = s.tiles ∧ (State.secRefuse s code).fuses = s.fuses ∧ (State.secRefuse s 
    code).pending = s.pending ∧ (State.secRefuse s code).cfg = s.cfg ∧ (State.secRefuse s code).mgmt = s.mgmt ∧ 
    (State.secRefuse s code).pkg = s.pkg ∧ (State.secRefuse s code).bw = s.bw ∧ (State.secRefuse s code).time = 
    s.time := by
  simp [State.secRefuse]
@[simp] theorem State.evaluateConfig_frame (s : State) :
    (State.evaluateConfig s).tiles = s.tiles ∧ (State.evaluateConfig s).fuses = s.fuses ∧ (State.evaluateConfig 
    s).pending = s.pending ∧ (State.evaluateConfig s).cfg = s.cfg ∧ (State.evaluateConfig s).mgmt = s.mgmt ∧ 
    (State.evaluateConfig s).pkg = s.pkg ∧ (State.evaluateConfig s).bw = s.bw ∧ (State.evaluateConfig s).time = 
    s.time := by
  simp [State.evaluateConfig]
@[simp] theorem State.attest_frame (s : State) :
    (State.attest s).tiles = s.tiles ∧ (State.attest s).fuses = s.fuses ∧ (State.attest s).pending = s.pending ∧ 
    (State.attest s).cfg = s.cfg ∧ (State.attest s).mgmt = s.mgmt ∧ (State.attest s).pkg = s.pkg ∧ (State.attest 
    s).bw = s.bw ∧ (State.attest s).time = s.time := by
  simp [State.attest]
@[simp] theorem State.attestDone_frame (s : State) :
    (State.attestDone s).tiles = s.tiles ∧ (State.attestDone s).fuses = s.fuses ∧ (State.attestDone s).pending = 
    s.pending ∧ (State.attestDone s).cfg = s.cfg ∧ (State.attestDone s).mgmt = s.mgmt ∧ (State.attestDone s).pkg = 
    s.pkg ∧ (State.attestDone s).bw = s.bw ∧ (State.attestDone s).time = s.time := by
  simp [State.attestDone]
@[simp] theorem State.rptRead_frame (s : State) :
    (State.rptRead s).tiles = s.tiles ∧ (State.rptRead s).fuses = s.fuses ∧ (State.rptRead s).pending = s.pending 
    ∧ (State.rptRead s).mgmt = s.mgmt ∧ (State.rptRead s).pkg = s.pkg ∧ (State.rptRead s).bw = s.bw ∧ 
    (State.rptRead s).time = s.time := by
  simp [State.rptRead]
@[simp] theorem State.drawChallenge_frame (s : State) :
    (State.drawChallenge s).tiles = s.tiles ∧ (State.drawChallenge s).fuses = s.fuses ∧ (State.drawChallenge 
    s).pending = s.pending ∧ (State.drawChallenge s).cfg = s.cfg ∧ (State.drawChallenge s).mgmt = s.mgmt ∧ 
    (State.drawChallenge s).pkg = s.pkg ∧ (State.drawChallenge s).bw = s.bw ∧ (State.drawChallenge s).time = 
    s.time := by
  simp [State.drawChallenge]
@[simp] theorem State.tokenData_frame (s : State) (v : Word) :
    (State.tokenData s v).tiles = s.tiles ∧ (State.tokenData s v).fuses = s.fuses ∧ (State.tokenData s v).pending 
    = s.pending ∧ (State.tokenData s v).mgmt = s.mgmt ∧ (State.tokenData s v).pkg = s.pkg ∧ (State.tokenData s 
    v).bw = s.bw ∧ (State.tokenData s v).time = s.time := by
  simp [State.tokenData]
@[simp] theorem State.tokenRefuse_frame (s : State) (code : Nat) :
    (State.tokenRefuse s code).tiles = s.tiles ∧ (State.tokenRefuse s code).fuses = s.fuses ∧ (State.tokenRefuse s 
    code).pending = s.pending ∧ (State.tokenRefuse s code).cfg = s.cfg ∧ (State.tokenRefuse s code).mgmt = s.mgmt 
    ∧ (State.tokenRefuse s code).pkg = s.pkg ∧ (State.tokenRefuse s code).bw = s.bw ∧ (State.tokenRefuse s 
    code).time = s.time := by
  simp [State.tokenRefuse]
@[simp] theorem State.tokenSubmit_frame (s : State) :
    (State.tokenSubmit s).tiles = s.tiles ∧ (State.tokenSubmit s).fuses = s.fuses ∧ (State.tokenSubmit s).pending 
    = s.pending ∧ (State.tokenSubmit s).cfg = s.cfg ∧ (State.tokenSubmit s).mgmt = s.mgmt ∧ (State.tokenSubmit 
    s).pkg = s.pkg ∧ (State.tokenSubmit s).bw = s.bw ∧ (State.tokenSubmit s).time = s.time := by
  simp [State.tokenSubmit]
@[simp] theorem State.scrubCores_frame (s : State) :
    (State.scrubCores s).fuses = s.fuses ∧ (State.scrubCores s).pending = s.pending ∧ (State.scrubCores s).cfg = 
    s.cfg ∧ (State.scrubCores s).mgmt = s.mgmt ∧ (State.scrubCores s).pkg = s.pkg ∧ (State.scrubCores s).sec = 
    s.sec ∧ (State.scrubCores s).bw = s.bw ∧ (State.scrubCores s).time = s.time := by
  simp [State.scrubCores, foldl_tiles, foldl_fuses, foldl_pending, foldl_cfg, foldl_mgmt, foldl_pkg, foldl_sec, foldl_bw, foldl_time, foldlP_tiles, foldlP_fuses, foldlP_pending, foldlP_cfg, foldlP_mgmt, foldlP_pkg, foldlP_sec, foldlP_bw, foldlP_time, foldlW_tiles, foldlW_fuses, foldlW_pending, foldlW_cfg, foldlW_mgmt, foldlW_pkg, foldlW_sec, foldlW_bw, foldlW_time]
@[simp] theorem State.dropPortKeys_frame (s : State) :
    (State.dropPortKeys s).fuses = s.fuses ∧ (State.dropPortKeys s).pending = s.pending ∧ (State.dropPortKeys 
    s).cfg = s.cfg ∧ (State.dropPortKeys s).mgmt = s.mgmt ∧ (State.dropPortKeys s).sec = s.sec ∧ 
    (State.dropPortKeys s).bw = s.bw ∧ (State.dropPortKeys s).time = s.time := by
  simp [State.dropPortKeys, foldl_tiles, foldl_fuses, foldl_pending, foldl_cfg, foldl_mgmt, foldl_pkg, foldl_sec, foldl_bw, foldl_time, foldlP_tiles, foldlP_fuses, foldlP_pending, foldlP_cfg, foldlP_mgmt, foldlP_pkg, foldlP_sec, foldlP_bw, foldlP_time, foldlW_tiles, foldlW_fuses, foldlW_pending, foldlW_cfg, foldlW_mgmt, foldlW_pkg, foldlW_sec, foldlW_bw, foldlW_time]
@[simp] theorem State.dropMemKeys_frame (s : State) :
    (State.dropMemKeys s).tiles = s.tiles ∧ (State.dropMemKeys s).fuses = s.fuses ∧ (State.dropMemKeys s).pending 
    = s.pending ∧ (State.dropMemKeys s).cfg = s.cfg ∧ (State.dropMemKeys s).mgmt = s.mgmt ∧ (State.dropMemKeys 
    s).sec = s.sec ∧ (State.dropMemKeys s).bw = s.bw ∧ (State.dropMemKeys s).time = s.time := by
  simp [State.dropMemKeys]
@[simp] theorem State.authEvent_frame (s : State) (z : Bool) :
    (State.authEvent s z).tiles = s.tiles ∧ (State.authEvent s z).fuses = s.fuses ∧ (State.authEvent s z).pending 
    = s.pending ∧ (State.authEvent s z).cfg = s.cfg ∧ (State.authEvent s z).mgmt = s.mgmt ∧ (State.authEvent s 
    z).pkg = s.pkg ∧ (State.authEvent s z).sec = s.sec ∧ (State.authEvent s z).bw = s.bw ∧ (State.authEvent s 
    z).time = s.time := by
  simp [State.authEvent]
@[simp] theorem State.transition_frame (s : State) (dest : Life) :
    (State.transition s dest).tiles = s.tiles ∧ (State.transition s dest).fuses = s.fuses ∧ (State.transition s 
    dest).pending = s.pending ∧ (State.transition s dest).cfg = s.cfg ∧ (State.transition s dest).pkg = s.pkg ∧ 
    (State.transition s dest).sec = s.sec ∧ (State.transition s dest).bw = s.bw ∧ (State.transition s dest).time = 
    s.time := by
  simp [State.transition]
@[simp] theorem State.tokenDone_frame (s : State) (sigOk : Bool) :
    (State.tokenDone s sigOk).fuses = s.fuses ∧ (State.tokenDone s sigOk).pending = s.pending ∧ (State.tokenDone s 
    sigOk).cfg = s.cfg ∧ (State.tokenDone s sigOk).bw = s.bw ∧ (State.tokenDone s sigOk).time = s.time := by
  simp [State.tokenDone]
@[simp] theorem State.dbgLock_frame (s : State) :
    (State.dbgLock s).tiles = s.tiles ∧ (State.dbgLock s).fuses = s.fuses ∧ (State.dbgLock s).pending = s.pending 
    ∧ (State.dbgLock s).cfg = s.cfg ∧ (State.dbgLock s).mgmt = s.mgmt ∧ (State.dbgLock s).pkg = s.pkg ∧ 
    (State.dbgLock s).bw = s.bw ∧ (State.dbgLock s).time = s.time := by
  simp [State.dbgLock]
@[simp] theorem State.svnCommit_frame (s : State) :
    (State.svnCommit s).tiles = s.tiles ∧ (State.svnCommit s).fuses = s.fuses ∧ (State.svnCommit s).pending = 
    s.pending ∧ (State.svnCommit s).cfg = s.cfg ∧ (State.svnCommit s).pkg = s.pkg ∧ (State.svnCommit s).bw = s.bw 
    ∧ (State.svnCommit s).time = s.time := by
  simp [State.svnCommit]
@[simp] theorem State.fk0Revoke_frame (s : State) :
    (State.fk0Revoke s).tiles = s.tiles ∧ (State.fk0Revoke s).fuses = s.fuses ∧ (State.fk0Revoke s).pending = 
    s.pending ∧ (State.fk0Revoke s).cfg = s.cfg ∧ (State.fk0Revoke s).pkg = s.pkg ∧ (State.fk0Revoke s).bw = s.bw 
    ∧ (State.fk0Revoke s).time = s.time := by
  simp [State.fk0Revoke]
@[simp] theorem State.memEncWrite_frame (s : State) (v : Word) :
    (State.memEncWrite s v).tiles = s.tiles ∧ (State.memEncWrite s v).fuses = s.fuses ∧ (State.memEncWrite s 
    v).pending = s.pending ∧ (State.memEncWrite s v).cfg = s.cfg ∧ (State.memEncWrite s v).mgmt = s.mgmt ∧ 
    (State.memEncWrite s v).pkg = s.pkg ∧ (State.memEncWrite s v).bw = s.bw ∧ (State.memEncWrite s v).time = 
    s.time := by
  simp [State.memEncWrite]
@[simp] theorem State.retainRelease_frame (s : State) (j : Nat) :
    (State.retainRelease s j).fuses = s.fuses ∧ (State.retainRelease s j).pending = s.pending ∧ 
    (State.retainRelease s j).cfg = s.cfg ∧ (State.retainRelease s j).mgmt = s.mgmt ∧ (State.retainRelease s 
    j).pkg = s.pkg ∧ (State.retainRelease s j).sec = s.sec ∧ (State.retainRelease s j).bw = s.bw ∧ 
    (State.retainRelease s j).time = s.time := by
  ((repeat' apply And.intro) <;> (simp only [State.retainRelease]; (repeat' split) <;> (try simp [*]) <;> (repeat' (first | split | (with_reducible refine (foldl_tiles _ _ _ (fun _ _ => ?_)).trans ?_) | (with_reducible refine (foldl_fuses _ _ _ (fun _ _ => ?_)).trans ?_) | (with_reducible refine (foldl_pending _ _ _ (fun _ _ => ?_)).trans ?_) | (with_reducible refine (foldl_cfg _ _ _ (fun _ _ => ?_)).trans ?_) | (with_reducible refine (foldl_mgmt _ _ _ (fun _ _ => ?_)).trans ?_) | (with_reducible refine (foldl_pkg _ _ _ (fun _ _ => ?_)).trans ?_) | (with_reducible refine (foldl_sec _ _ _ (fun _ _ => ?_)).trans ?_) | (with_reducible refine (foldl_bw _ _ _ (fun _ _ => ?_)).trans ?_) | (with_reducible refine (foldl_time _ _ _ (fun _ _ => ?_)).trans ?_) | (with_reducible refine (foldlP_tiles _ _ _ (fun _ _ => ?_)).trans ?_) | (with_reducible refine (foldlP_fuses _ _ _ (fun _ _ => ?_)).trans ?_) | (with_reducible refine (foldlP_pending _ _ _ (fun _ _ => ?_)).trans ?_) | (with_reducible refine (foldlP_cfg _ _ _ (fun _ _ => ?_)).trans ?_) | (with_reducible refine (foldlP_mgmt _ _ _ (fun _ _ => ?_)).trans ?_) | (with_reducible refine (foldlP_pkg _ _ _ (fun _ _ => ?_)).trans ?_) | (with_reducible refine (foldlP_sec _ _ _ (fun _ _ => ?_)).trans ?_) | (with_reducible refine (foldlP_bw _ _ _ (fun _ _ => ?_)).trans ?_) | (with_reducible refine (foldlP_time _ _ _ (fun _ _ => ?_)).trans ?_) | (with_reducible refine (foldlW_tiles _ _ _ (fun _ _ => ?_)).trans ?_) | (with_reducible refine (foldlW_fuses _ _ _ (fun _ _ => ?_)).trans ?_) | (with_reducible refine (foldlW_pending _ _ _ (fun _ _ => ?_)).trans ?_) | (with_reducible refine (foldlW_cfg _ _ _ (fun _ _ => ?_)).trans ?_) | (with_reducible refine (foldlW_mgmt _ _ _ (fun _ _ => ?_)).trans ?_) | (with_reducible refine (foldlW_pkg _ _ _ (fun _ _ => ?_)).trans ?_) | (with_reducible refine (foldlW_sec _ _ _ (fun _ _ => ?_)).trans ?_) | (with_reducible refine (foldlW_bw _ _ _ (fun _ _ => ?_)).trans ?_) | (with_reducible refine (foldlW_time _ _ _ (fun _ _ => ?_)).trans ?_))) <;> (simp [*, foldl_tiles, foldl_fuses, foldl_pending, foldl_cfg, foldl_mgmt, foldl_pkg, foldl_sec, foldl_bw, foldl_time, foldlP_tiles, foldlP_fuses, foldlP_pending, foldlP_cfg, foldlP_mgmt, foldlP_pkg, foldlP_sec, foldlP_bw, foldlP_time, foldlW_tiles, foldlW_fuses, foldlW_pending, foldlW_cfg, foldlW_mgmt, foldlW_pkg, foldlW_sec, foldlW_bw, foldlW_time])))
@[simp] theorem State.rngRead_frame (s : State) :
    (State.rngRead s).tiles = s.tiles ∧ (State.rngRead s).fuses = s.fuses ∧ (State.rngRead s).pending = s.pending 
    ∧ (State.rngRead s).cfg = s.cfg ∧ (State.rngRead s).mgmt = s.mgmt ∧ (State.rngRead s).pkg = s.pkg ∧ 
    (State.rngRead s).bw = s.bw ∧ (State.rngRead s).time = s.time := by
  simp [State.rngRead]
@[simp] theorem State.rngTestFail_frame (s : State) (test : Nat) :
    (State.rngTestFail s test).tiles = s.tiles ∧ (State.rngTestFail s test).fuses = s.fuses ∧ (State.rngTestFail s 
    test).pending = s.pending ∧ (State.rngTestFail s test).cfg = s.cfg ∧ (State.rngTestFail s test).mgmt = s.mgmt 
    ∧ (State.rngTestFail s test).pkg = s.pkg ∧ (State.rngTestFail s test).bw = s.bw ∧ (State.rngTestFail s 
    test).time = s.time := by
  simp [State.rngTestFail]

/-! ### `TestAccess` -/

@[simp] theorem State.onTst_frame (s : State) (f : Tst → Tst) :
    (State.onTst s f).tiles = s.tiles ∧ (State.onTst s f).fuses = s.fuses ∧ (State.onTst s f).pending = s.pending 
    ∧ (State.onTst s f).cfg = s.cfg ∧ (State.onTst s f).mgmt = s.mgmt ∧ (State.onTst s f).pkg = s.pkg ∧ 
    (State.onTst s f).sec = s.sec ∧ (State.onTst s f).bw = s.bw ∧ (State.onTst s f).time = s.time := by
  simp [State.onTst]
@[simp] theorem State.tapTake_frame (s : State) (ir out dr : Nat) :
    (State.tapTake s ir out dr).tiles = s.tiles ∧ (State.tapTake s ir out dr).fuses = s.fuses ∧ (State.tapTake s 
    ir out dr).pending = s.pending ∧ (State.tapTake s ir out dr).cfg = s.cfg ∧ (State.tapTake s ir out dr).mgmt = 
    s.mgmt ∧ (State.tapTake s ir out dr).pkg = s.pkg ∧ (State.tapTake s ir out dr).sec = s.sec ∧ (State.tapTake s 
    ir out dr).bw = s.bw ∧ (State.tapTake s ir out dr).time = s.time := by
  simp [State.tapTake]
@[simp] theorem State.tapRefuse_frame (s : State) :
    (State.tapRefuse s).tiles = s.tiles ∧ (State.tapRefuse s).fuses = s.fuses ∧ (State.tapRefuse s).pending = 
    s.pending ∧ (State.tapRefuse s).cfg = s.cfg ∧ (State.tapRefuse s).mgmt = s.mgmt ∧ (State.tapRefuse s).pkg = 
    s.pkg ∧ (State.tapRefuse s).sec = s.sec ∧ (State.tapRefuse s).bw = s.bw ∧ (State.tapRefuse s).time = s.time := by
  simp [State.tapRefuse]
@[simp] theorem State.fuseProg_frame (s : State) (w : Nat) (bits : Word) (vpp : Bool) :
    (State.fuseProg s w bits vpp).tiles = s.tiles ∧ (State.fuseProg s w bits vpp).fuses = s.fuses ∧ 
    (State.fuseProg s w bits vpp).pending = s.pending ∧ (State.fuseProg s w bits vpp).cfg = s.cfg ∧ 
    (State.fuseProg s w bits vpp).pkg = s.pkg ∧ (State.fuseProg s w bits vpp).sec = s.sec ∧ (State.fuseProg s w 
    bits vpp).bw = s.bw ∧ (State.fuseProg s w bits vpp).time = s.time := by
  simp [State.fuseProg]
@[simp] theorem State.fuseVerify_frame (s : State) (w : Nat) :
    (State.fuseVerify s w).tiles = s.tiles ∧ (State.fuseVerify s w).fuses = s.fuses ∧ (State.fuseVerify s 
    w).pending = s.pending ∧ (State.fuseVerify s w).cfg = s.cfg ∧ (State.fuseVerify s w).mgmt = s.mgmt ∧ 
    (State.fuseVerify s w).pkg = s.pkg ∧ (State.fuseVerify s w).sec = s.sec ∧ (State.fuseVerify s w).bw = s.bw ∧ 
    (State.fuseVerify s w).time = s.time := by
  simp [State.fuseVerify]
@[simp] theorem State.bistRun_frame (s : State) (t kind : Nat) :
    (State.bistRun s t kind).tiles = s.tiles ∧ (State.bistRun s t kind).fuses = s.fuses ∧ (State.bistRun s t 
    kind).pending = s.pending ∧ (State.bistRun s t kind).cfg = s.cfg ∧ (State.bistRun s t kind).mgmt = s.mgmt ∧ 
    (State.bistRun s t kind).pkg = s.pkg ∧ (State.bistRun s t kind).sec = s.sec ∧ (State.bistRun s t kind).bw = 
    s.bw ∧ (State.bistRun s t kind).time = s.time := by
  simp [State.bistRun]
@[simp] theorem State.admitWaiting_frame (s : State) :
    (State.admitWaiting s).fuses = s.fuses ∧ (State.admitWaiting s).pending = s.pending ∧ (State.admitWaiting 
    s).cfg = s.cfg ∧ (State.admitWaiting s).mgmt = s.mgmt ∧ (State.admitWaiting s).pkg = s.pkg ∧ 
    (State.admitWaiting s).sec = s.sec ∧ (State.admitWaiting s).bw = s.bw ∧ (State.admitWaiting s).time = s.time := by
  simp [State.admitWaiting, foldl_tiles, foldl_fuses, foldl_pending, foldl_cfg, foldl_mgmt, foldl_pkg, foldl_sec, foldl_bw, foldl_time, foldlP_tiles, foldlP_fuses, foldlP_pending, foldlP_cfg, foldlP_mgmt, foldlP_pkg, foldlP_sec, foldlP_bw, foldlP_time, foldlW_tiles, foldlW_fuses, foldlW_pending, foldlW_cfg, foldlW_mgmt, foldlW_pkg, foldlW_sec, foldlW_bw, foldlW_time]
@[simp] theorem State.bistDone_frame (s : State) (pass : Bool) (store : Nat) :
    (State.bistDone s pass store).fuses = s.fuses ∧ (State.bistDone s pass store).pending = s.pending ∧ 
    (State.bistDone s pass store).cfg = s.cfg ∧ (State.bistDone s pass store).mgmt = s.mgmt ∧ (State.bistDone s 
    pass store).pkg = s.pkg ∧ (State.bistDone s pass store).sec = s.sec ∧ (State.bistDone s pass store).bw = s.bw 
    ∧ (State.bistDone s pass store).time = s.time := by
  simp [State.bistDone]
@[simp] theorem State.portTest_frame (s : State) (p mode lane : Nat) (ok : Bool) :
    (State.portTest s p mode lane ok).tiles = s.tiles ∧ (State.portTest s p mode lane ok).fuses = s.fuses ∧ 
    (State.portTest s p mode lane ok).pending = s.pending ∧ (State.portTest s p mode lane ok).cfg = s.cfg ∧ 
    (State.portTest s p mode lane ok).mgmt = s.mgmt ∧ (State.portTest s p mode lane ok).pkg = s.pkg ∧ 
    (State.portTest s p mode lane ok).sec = s.sec ∧ (State.portTest s p mode lane ok).bw = s.bw ∧ (State.portTest 
    s p mode lane ok).time = s.time := by
  simp [State.portTest]
@[simp] theorem State.portTestDone_frame (s : State) (errors tm vm : Nat) :
    (State.portTestDone s errors tm vm).tiles = s.tiles ∧ (State.portTestDone s errors tm vm).fuses = s.fuses ∧ 
    (State.portTestDone s errors tm vm).pending = s.pending ∧ (State.portTestDone s errors tm vm).cfg = s.cfg ∧ 
    (State.portTestDone s errors tm vm).mgmt = s.mgmt ∧ (State.portTestDone s errors tm vm).pkg = s.pkg ∧ 
    (State.portTestDone s errors tm vm).sec = s.sec ∧ (State.portTestDone s errors tm vm).bw = s.bw ∧ 
    (State.portTestDone s errors tm vm).time = s.time := by
  simp [State.portTestDone]
@[simp] theorem State.dbgGate_tiles (s : State) (act : State → State) (h : ∀ s, (act s).tiles = s.tiles) :
    (s.dbgGate act).tiles = s.tiles := by
  simp only [State.dbgGate]
  split <;> simp [h]

@[simp] theorem State.dbgGate_fuses (s : State) (act : State → State) (h : ∀ s, (act s).fuses = s.fuses) :
    (s.dbgGate act).fuses = s.fuses := by
  simp only [State.dbgGate]
  split <;> simp [h]

@[simp] theorem State.dbgGate_pending (s : State) (act : State → State) (h : ∀ s, (act s).pending = s.pending) :
    (s.dbgGate act).pending = s.pending := by
  simp only [State.dbgGate]
  split <;> simp [h]

@[simp] theorem State.dbgGate_cfg (s : State) (act : State → State) (h : ∀ s, (act s).cfg = s.cfg) :
    (s.dbgGate act).cfg = s.cfg := by
  simp only [State.dbgGate]
  split <;> simp [h]

@[simp] theorem State.dbgGate_mgmt (s : State) (act : State → State) (h : ∀ s, (act s).mgmt = s.mgmt) :
    (s.dbgGate act).mgmt = s.mgmt := by
  simp only [State.dbgGate]
  split <;> simp [h]

@[simp] theorem State.dbgGate_pkg (s : State) (act : State → State) (h : ∀ s, (act s).pkg = s.pkg) :
    (s.dbgGate act).pkg = s.pkg := by
  simp only [State.dbgGate]
  split <;> simp [h]

@[simp] theorem State.dbgGate_sec (s : State) (act : State → State) (h : ∀ s, (act s).sec = s.sec) :
    (s.dbgGate act).sec = s.sec := by
  simp only [State.dbgGate]
  split <;> simp [h]

@[simp] theorem State.dbgGate_bw (s : State) (act : State → State) (h : ∀ s, (act s).bw = s.bw) :
    (s.dbgGate act).bw = s.bw := by
  simp only [State.dbgGate]
  split <;> simp [h]

@[simp] theorem State.dbgGate_time (s : State) (act : State → State) (h : ∀ s, (act s).time = s.time) :
    (s.dbgGate act).time = s.time := by
  simp only [State.dbgGate]
  split <;> simp [h]


@[simp] theorem State.dbgHalt_frame (s : State) (t : Nat) :
    (State.dbgHalt s t).fuses = s.fuses ∧ (State.dbgHalt s t).pending = s.pending ∧ (State.dbgHalt s t).cfg = 
    s.cfg ∧ (State.dbgHalt s t).mgmt = s.mgmt ∧ (State.dbgHalt s t).pkg = s.pkg ∧ (State.dbgHalt s t).sec = s.sec 
    ∧ (State.dbgHalt s t).bw = s.bw ∧ (State.dbgHalt s t).time = s.time := by
  simp [State.dbgHalt]
@[simp] theorem State.dbgStep_frame (s : State) (t : Nat) :
    (State.dbgStep s t).fuses = s.fuses ∧ (State.dbgStep s t).pending = s.pending ∧ (State.dbgStep s t).cfg = 
    s.cfg ∧ (State.dbgStep s t).mgmt = s.mgmt ∧ (State.dbgStep s t).pkg = s.pkg ∧ (State.dbgStep s t).sec = s.sec 
    ∧ (State.dbgStep s t).bw = s.bw ∧ (State.dbgStep s t).time = s.time := by
  simp [State.dbgStep]
@[simp] theorem State.dbgResume_frame (s : State) (t : Nat) :
    (State.dbgResume s t).fuses = s.fuses ∧ (State.dbgResume s t).pending = s.pending ∧ (State.dbgResume s t).cfg 
    = s.cfg ∧ (State.dbgResume s t).mgmt = s.mgmt ∧ (State.dbgResume s t).pkg = s.pkg ∧ (State.dbgResume s t).sec 
    = s.sec ∧ (State.dbgResume s t).bw = s.bw ∧ (State.dbgResume s t).time = s.time := by
  simp [State.dbgResume]
@[simp] theorem State.dbgNext_frame (s : State) :
    (State.dbgNext s).tiles = s.tiles ∧ (State.dbgNext s).fuses = s.fuses ∧ (State.dbgNext s).pending = s.pending 
    ∧ (State.dbgNext s).mgmt = s.mgmt ∧ (State.dbgNext s).pkg = s.pkg ∧ (State.dbgNext s).sec = s.sec ∧ 
    (State.dbgNext s).bw = s.bw ∧ (State.dbgNext s).time = s.time := by
  simp [State.dbgNext]
@[simp] theorem State.dbgRefused_frame (s : State) :
    (State.dbgRefused s).tiles = s.tiles ∧ (State.dbgRefused s).fuses = s.fuses ∧ (State.dbgRefused s).pending = 
    s.pending ∧ (State.dbgRefused s).cfg = s.cfg ∧ (State.dbgRefused s).mgmt = s.mgmt ∧ (State.dbgRefused s).pkg = 
    s.pkg ∧ (State.dbgRefused s).sec = s.sec ∧ (State.dbgRefused s).bw = s.bw ∧ (State.dbgRefused s).time = s.time := by
  simp [State.dbgRefused]
@[simp] theorem State.dbgReadData_frame (s : State) :
    (State.dbgReadData s).tiles = s.tiles ∧ (State.dbgReadData s).fuses = s.fuses ∧ (State.dbgReadData s).pending 
    = s.pending ∧ (State.dbgReadData s).mgmt = s.mgmt ∧ (State.dbgReadData s).pkg = s.pkg ∧ (State.dbgReadData 
    s).sec = s.sec ∧ (State.dbgReadData s).bw = s.bw ∧ (State.dbgReadData s).time = s.time := by
  simp [State.dbgReadData]
@[simp] theorem State.dbgWriteData_frame (s : State) (v : Word) :
    (State.dbgWriteData s v).fuses = s.fuses ∧ (State.dbgWriteData s v).pending = s.pending ∧ (State.dbgWriteData 
    s v).mgmt = s.mgmt ∧ (State.dbgWriteData s v).pkg = s.pkg ∧ (State.dbgWriteData s v).sec = s.sec ∧ 
    (State.dbgWriteData s v).bw = s.bw ∧ (State.dbgWriteData s v).time = s.time := by
  simp only [State.dbgWriteData]; (repeat' split) <;> (simp [*])
@[simp] theorem State.traceClear_frame (s : State) :
    (State.traceClear s).tiles = s.tiles ∧ (State.traceClear s).fuses = s.fuses ∧ (State.traceClear s).pending = 
    s.pending ∧ (State.traceClear s).cfg = s.cfg ∧ (State.traceClear s).mgmt = s.mgmt ∧ (State.traceClear s).pkg = 
    s.pkg ∧ (State.traceClear s).sec = s.sec ∧ (State.traceClear s).bw = s.bw ∧ (State.traceClear s).time = s.time := by
  simp [State.traceClear]
@[simp] theorem State.traceNext_frame (s : State) :
    (State.traceNext s).tiles = s.tiles ∧ (State.traceNext s).fuses = s.fuses ∧ (State.traceNext s).pending = 
    s.pending ∧ (State.traceNext s).mgmt = s.mgmt ∧ (State.traceNext s).pkg = s.pkg ∧ (State.traceNext s).sec = 
    s.sec ∧ (State.traceNext s).bw = s.bw ∧ (State.traceNext s).time = s.time := by
  simp [State.traceNext]
@[simp] theorem State.telemCtrl_frame (s : State) (v : Word) :
    (State.telemCtrl s v).tiles = s.tiles ∧ (State.telemCtrl s v).fuses = s.fuses ∧ (State.telemCtrl s v).pending 
    = s.pending ∧ (State.telemCtrl s v).mgmt = s.mgmt ∧ (State.telemCtrl s v).pkg = s.pkg ∧ (State.telemCtrl s 
    v).sec = s.sec ∧ (State.telemCtrl s v).bw = s.bw ∧ (State.telemCtrl s v).time = s.time := by
  simp [State.telemCtrl]
@[simp] theorem State.telemWindowEnd_frame (s : State) :
    (State.telemWindowEnd s).tiles = s.tiles ∧ (State.telemWindowEnd s).fuses = s.fuses ∧ (State.telemWindowEnd 
    s).pending = s.pending ∧ (State.telemWindowEnd s).cfg = s.cfg ∧ (State.telemWindowEnd s).mgmt = s.mgmt ∧ 
    (State.telemWindowEnd s).pkg = s.pkg ∧ (State.telemWindowEnd s).sec = s.sec ∧ (State.telemWindowEnd s).bw = 
    s.bw ∧ (State.telemWindowEnd s).time = s.time := by
  simp [State.telemWindowEnd]

/-! ### `Flags` -/

@[simp] theorem State.cfgReadEffect_frame (s : State) (off : Nat) :
    (State.cfgReadEffect s off).tiles = s.tiles ∧ (State.cfgReadEffect s off).fuses = s.fuses ∧ 
    (State.cfgReadEffect s off).pending = s.pending ∧ (State.cfgReadEffect s off).mgmt = s.mgmt ∧ 
    (State.cfgReadEffect s off).pkg = s.pkg ∧ (State.cfgReadEffect s off).bw = s.bw := by
  simp only [State.cfgReadEffect]; (repeat' split) <;> (simp [*])

/-! ### `Registers` -/

@[simp] theorem State.onBit_tiles (s : State) (v : Word) (i : Nat) (f : State → State) (h : ∀ s, (f s).tiles = s.tiles) :
    (s.onBit v i f).tiles = s.tiles := by
  simp only [State.onBit]
  split <;> simp [h]

@[simp] theorem State.onBit_fuses (s : State) (v : Word) (i : Nat) (f : State → State) (h : ∀ s, (f s).fuses = s.fuses) :
    (s.onBit v i f).fuses = s.fuses := by
  simp only [State.onBit]
  split <;> simp [h]

@[simp] theorem State.onBit_pending (s : State) (v : Word) (i : Nat) (f : State → State) (h : ∀ s, (f s).pending = s.pending) :
    (s.onBit v i f).pending = s.pending := by
  simp only [State.onBit]
  split <;> simp [h]

@[simp] theorem State.onBit_cfg (s : State) (v : Word) (i : Nat) (f : State → State) (h : ∀ s, (f s).cfg = s.cfg) :
    (s.onBit v i f).cfg = s.cfg := by
  simp only [State.onBit]
  split <;> simp [h]

@[simp] theorem State.onBit_mgmt (s : State) (v : Word) (i : Nat) (f : State → State) (h : ∀ s, (f s).mgmt = s.mgmt) :
    (s.onBit v i f).mgmt = s.mgmt := by
  simp only [State.onBit]
  split <;> simp [h]

@[simp] theorem State.onBit_pkg (s : State) (v : Word) (i : Nat) (f : State → State) (h : ∀ s, (f s).pkg = s.pkg) :
    (s.onBit v i f).pkg = s.pkg := by
  simp only [State.onBit]
  split <;> simp [h]

@[simp] theorem State.onBit_sec (s : State) (v : Word) (i : Nat) (f : State → State) (h : ∀ s, (f s).sec = s.sec) :
    (s.onBit v i f).sec = s.sec := by
  simp only [State.onBit]
  split <;> simp [h]

@[simp] theorem State.onBit_bw (s : State) (v : Word) (i : Nat) (f : State → State) (h : ∀ s, (f s).bw = s.bw) :
    (s.onBit v i f).bw = s.bw := by
  simp only [State.onBit]
  split <;> simp [h]

@[simp] theorem State.onBit_time (s : State) (v : Word) (i : Nat) (f : State → State) (h : ∀ s, (f s).time = s.time) :
    (s.onBit v i f).time = s.time := by
  simp only [State.onBit]
  split <;> simp [h]


@[simp] theorem State.resetCtrl_frame (s : State) (v : Word) :
    (State.resetCtrl s v).pending = s.pending := by
  simp [State.resetCtrl]
@[simp] theorem State.wdogWrite_frame (s : State) (v : Word) :
    (State.wdogWrite s v).tiles = s.tiles ∧ (State.wdogWrite s v).fuses = s.fuses ∧ (State.wdogWrite s v).pending 
    = s.pending ∧ (State.wdogWrite s v).pkg = s.pkg ∧ (State.wdogWrite s v).sec = s.sec ∧ (State.wdogWrite s v).bw 
    = s.bw ∧ (State.wdogWrite s v).time = s.time := by
  simp [State.wdogWrite]
@[simp] theorem State.fwCtrl_frame (s : State) (v : Word) :
    (State.fwCtrl s v).tiles = s.tiles ∧ (State.fwCtrl s v).fuses = s.fuses ∧ (State.fwCtrl s v).pending = 
    s.pending ∧ (State.fwCtrl s v).cfg = s.cfg ∧ (State.fwCtrl s v).pkg = s.pkg ∧ (State.fwCtrl s v).sec = s.sec ∧ 
    (State.fwCtrl s v).bw = s.bw ∧ (State.fwCtrl s v).time = s.time := by
  simp [State.fwCtrl]
@[simp] theorem State.wrReset_frame (s : State) (src : CfgSrc) (off : Nat) (v : Word) :
    (State.wrReset s src off v).1.pending = s.pending := by
  simp only [State.wrReset]; (repeat' split) <;> (simp [*])
@[simp] theorem State.wrOptClk_frame (s : State) (off : Nat) (v : Word) :
    (State.wrOptClk s off v).1.tiles = s.tiles ∧ (State.wrOptClk s off v).1.fuses = s.fuses ∧ (State.wrOptClk s 
    off v).1.pending = s.pending ∧ (State.wrOptClk s off v).1.sec = s.sec ∧ (State.wrOptClk s off v).1.bw = s.bw := by
  simp only [State.wrOptClk]; (repeat' split) <;> (simp [*])
@[simp] theorem State.portCtrl_frame (s : State) (p : Nat) (v : Word) :
    (State.portCtrl s p v).fuses = s.fuses ∧ (State.portCtrl s p v).pending = s.pending ∧ (State.portCtrl s p 
    v).mgmt = s.mgmt ∧ (State.portCtrl s p v).sec = s.sec ∧ (State.portCtrl s p v).bw = s.bw ∧ (State.portCtrl s p 
    v).time = s.time := by
  simp [State.portCtrl]
@[simp] theorem State.wrPort_frame (s : State) (p off : Nat) (v : Word) :
    (State.wrPort s p off v).fuses = s.fuses ∧ (State.wrPort s p off v).pending = s.pending ∧ (State.wrPort s p 
    off v).mgmt = s.mgmt ∧ (State.wrPort s p off v).sec = s.sec ∧ (State.wrPort s p off v).bw = s.bw ∧ 
    (State.wrPort s p off v).time = s.time := by
  unfold State.wrPort
  simp only [State.onBit]
  (repeat' split) <;> simp

@[simp] theorem State.routeWrite_frame (s : State) (v : Word) :
    (State.routeWrite s v).tiles = s.tiles ∧ (State.routeWrite s v).fuses = s.fuses ∧ (State.routeWrite s 
    v).pending = s.pending ∧ (State.routeWrite s v).mgmt = s.mgmt ∧ (State.routeWrite s v).pkg = s.pkg ∧ 
    (State.routeWrite s v).sec = s.sec ∧ (State.routeWrite s v).bw = s.bw ∧ (State.routeWrite s v).time = s.time := by
  simp [State.routeWrite]
@[simp] theorem State.wrQm_frame (s : State) (off : Nat) (v : Word) :
    (State.wrQm s off v).tiles = s.tiles ∧ (State.wrQm s off v).fuses = s.fuses ∧ (State.wrQm s off v).pending = 
    s.pending ∧ (State.wrQm s off v).pkg = s.pkg ∧ (State.wrQm s off v).sec = s.sec ∧ (State.wrQm s off v).bw = 
    s.bw ∧ (State.wrQm s off v).time = s.time := by
  simp only [State.wrQm]; (repeat' split) <;> (simp [*])
@[simp] theorem State.wrKw_frame (s : State) (off : Nat) (v : Word) :
    (State.wrKw s off v).tiles = s.tiles ∧ (State.wrKw s off v).fuses = s.fuses ∧ (State.wrKw s off v).pending = 
    s.pending ∧ (State.wrKw s off v).mgmt = s.mgmt ∧ (State.wrKw s off v).pkg = s.pkg ∧ (State.wrKw s off v).sec = 
    s.sec ∧ (State.wrKw s off v).bw = s.bw ∧ (State.wrKw s off v).time = s.time := by
  simp only [State.wrKw]; (repeat' split) <;> (simp [*])
@[simp] theorem State.bwWrite_frame (s : State) (off : Nat) (v : Word) :
    (State.bwWrite s off v).tiles = s.tiles ∧ (State.bwWrite s off v).fuses = s.fuses ∧ (State.bwWrite s off 
    v).pending = s.pending ∧ (State.bwWrite s off v).cfg = s.cfg ∧ (State.bwWrite s off v).mgmt = s.mgmt ∧ 
    (State.bwWrite s off v).pkg = s.pkg ∧ (State.bwWrite s off v).sec = s.sec ∧ (State.bwWrite s off v).time = 
    s.time := by
  simp [State.bwWrite]
@[simp] theorem State.wrSyncBw_frame (s : State) (off : Nat) (v : Word) :
    (State.wrSyncBw s off v).tiles = s.tiles ∧ (State.wrSyncBw s off v).fuses = s.fuses ∧ (State.wrSyncBw s off 
    v).pending = s.pending ∧ (State.wrSyncBw s off v).mgmt = s.mgmt ∧ (State.wrSyncBw s off v).pkg = s.pkg ∧ 
    (State.wrSyncBw s off v).sec = s.sec ∧ (State.wrSyncBw s off v).time = s.time := by
  simp only [State.wrSyncBw]; (repeat' split) <;> (simp [*])
@[simp] theorem State.secCtrl_frame (s : State) (v : Word) :
    (State.secCtrl s v).tiles = s.tiles ∧ (State.secCtrl s v).fuses = s.fuses ∧ (State.secCtrl s v).pending = 
    s.pending ∧ (State.secCtrl s v).cfg = s.cfg ∧ (State.secCtrl s v).pkg = s.pkg ∧ (State.secCtrl s v).bw = s.bw 
    ∧ (State.secCtrl s v).time = s.time := by
  simp [State.secCtrl]
@[simp] theorem State.wrSec_frame (s : State) (off : Nat) (v : Word) :
    (State.wrSec s off v).1.fuses = s.fuses ∧ (State.wrSec s off v).1.pending = s.pending ∧ (State.wrSec s off 
    v).1.pkg = s.pkg ∧ (State.wrSec s off v).1.bw = s.bw ∧ (State.wrSec s off v).1.time = s.time := by
  simp only [State.wrSec]; (repeat' split) <;> (simp [*])
@[simp] theorem State.faultStatus_frame (s : State) (v : Word) :
    (State.faultStatus s v).tiles = s.tiles ∧ (State.faultStatus s v).fuses = s.fuses ∧ (State.faultStatus s 
    v).pending = s.pending ∧ (State.faultStatus s v).cfg = s.cfg ∧ (State.faultStatus s v).mgmt = s.mgmt ∧ 
    (State.faultStatus s v).pkg = s.pkg ∧ (State.faultStatus s v).sec = s.sec ∧ (State.faultStatus s v).bw = s.bw 
    ∧ (State.faultStatus s v).time = s.time := by
  simp [State.faultStatus]
@[simp] theorem State.wrFault_frame (s : State) (off : Nat) (v : Word) :
    (State.wrFault s off v).fuses = s.fuses ∧ (State.wrFault s off v).pending = s.pending ∧ (State.wrFault s off 
    v).pkg = s.pkg ∧ (State.wrFault s off v).sec = s.sec ∧ (State.wrFault s off v).bw = s.bw ∧ (State.wrFault s 
    off v).time = s.time := by
  simp only [State.wrFault]; (repeat' split) <;> (simp [*])
@[simp] theorem State.bistCtrl_frame (s : State) (v : Word) :
    (State.bistCtrl s v).tiles = s.tiles ∧ (State.bistCtrl s v).fuses = s.fuses ∧ (State.bistCtrl s v).pending = 
    s.pending ∧ (State.bistCtrl s v).mgmt = s.mgmt ∧ (State.bistCtrl s v).pkg = s.pkg ∧ (State.bistCtrl s v).sec = 
    s.sec ∧ (State.bistCtrl s v).bw = s.bw ∧ (State.bistCtrl s v).time = s.time := by
  simp [State.bistCtrl]
@[simp] theorem State.portTestCtrl_frame (s : State) (v : Word) :
    (State.portTestCtrl s v).tiles = s.tiles ∧ (State.portTestCtrl s v).fuses = s.fuses ∧ (State.portTestCtrl s 
    v).pending = s.pending ∧ (State.portTestCtrl s v).mgmt = s.mgmt ∧ (State.portTestCtrl s v).pkg = s.pkg ∧ 
    (State.portTestCtrl s v).sec = s.sec ∧ (State.portTestCtrl s v).bw = s.bw ∧ (State.portTestCtrl s v).time = 
    s.time := by
  simp [State.portTestCtrl]
@[simp] theorem State.dbgCtrl_frame (s : State) (v : Word) :
    (State.dbgCtrl s v).fuses = s.fuses ∧ (State.dbgCtrl s v).pending = s.pending ∧ (State.dbgCtrl s v).mgmt = 
    s.mgmt ∧ (State.dbgCtrl s v).pkg = s.pkg ∧ (State.dbgCtrl s v).sec = s.sec ∧ (State.dbgCtrl s v).bw = s.bw ∧ 
    (State.dbgCtrl s v).time = s.time := by
  simp [State.dbgCtrl]
@[simp] theorem State.wrTest_frame (s : State) (off : Nat) (v : Word) :
    (State.wrTest s off v).fuses = s.fuses ∧ (State.wrTest s off v).pending = s.pending ∧ (State.wrTest s off 
    v).mgmt = s.mgmt ∧ (State.wrTest s off v).pkg = s.pkg ∧ (State.wrTest s off v).sec = s.sec ∧ (State.wrTest s 
    off v).bw = s.bw ∧ (State.wrTest s off v).time = s.time := by
  simp only [State.wrTest]; (repeat' split) <;> (simp [*])
@[simp] theorem State.cfgWrite_frame (s : State) (src : CfgSrc) (off : Nat) (v : Word) :
    (State.cfgWrite s src off v).1.pending = s.pending := by
  simp [State.cfgWrite]
@[simp] theorem State.cfgRsp_frame (s : State) (p : Nat) (k : Packet) (ok : Bool) (v : Word) :
    (State.cfgRsp s p k ok v).tiles = s.tiles ∧ (State.cfgRsp s p k ok v).fuses = s.fuses ∧ (State.cfgRsp s p k ok 
    v).pending = s.pending ∧ (State.cfgRsp s p k ok v).cfg = s.cfg ∧ (State.cfgRsp s p k ok v).mgmt = s.mgmt ∧ 
    (State.cfgRsp s p k ok v).pkg = s.pkg ∧ (State.cfgRsp s p k ok v).sec = s.sec ∧ (State.cfgRsp s p k ok v).bw = 
    s.bw ∧ (State.cfgRsp s p k ok v).time = s.time := by
  simp [State.cfgRsp]
@[simp] theorem State.cfgRefused_frame (s : State) (p : Nat) (k : Packet) :
    (State.cfgRefused s p k).tiles = s.tiles ∧ (State.cfgRefused s p k).fuses = s.fuses ∧ (State.cfgRefused s p 
    k).pending = s.pending ∧ (State.cfgRefused s p k).cfg = s.cfg ∧ (State.cfgRefused s p k).mgmt = s.mgmt ∧ 
    (State.cfgRefused s p k).pkg = s.pkg ∧ (State.cfgRefused s p k).sec = s.sec ∧ (State.cfgRefused s p k).bw = 
    s.bw ∧ (State.cfgRefused s p k).time = s.time := by
  simp [State.cfgRefused]
@[simp] theorem State.cfgRdPacket_frame (s : State) (p : Nat) (k : Packet) :
    (State.cfgRdPacket s p k).tiles = s.tiles ∧ (State.cfgRdPacket s p k).fuses = s.fuses ∧ (State.cfgRdPacket s p 
    k).pending = s.pending ∧ (State.cfgRdPacket s p k).mgmt = s.mgmt ∧ (State.cfgRdPacket s p k).pkg = s.pkg ∧ 
    (State.cfgRdPacket s p k).bw = s.bw := by
  simp only [State.cfgRdPacket]; (repeat' split) <;> (simp [*])
@[simp] theorem State.cfgWrPacket_frame (s : State) (p : Nat) (k : Packet) :
    (State.cfgWrPacket s p k).pending = s.pending := by
  simp only [State.cfgWrPacket]; (repeat' split) <;> (simp [*])
@[simp] theorem State.tapAccess_frame (s : State) (v : Word) (off : Nat) (wr : Bool) :
    (State.tapAccess s v off wr).pending = s.pending := by
  simp only [State.tapAccess]; (repeat' split) <;> (simp [*])

/-! ### `Tick` -/

@[simp] theorem State.idle_frame (s : State) :
    (State.idle s).pending = s.pending ∧ (State.idle s).cfg = s.cfg ∧ (State.idle s).pkg = s.pkg := by
  simp [State.idle]

end Sys2Proof.Machine
end

