-- ==== Sys2Proof/Laws/Work.lean ====
section
/-!
SUPPORT. Facts about the shared operations of the core DMA, the queue manager, the Keywork, the ports and the management controller
that the statements cite: what one completion leaves, and what a table entry holds after it.
-/

set_option Elab.async false

namespace Sys2Proof.Machine

open Sys2Proof

/-- The oldest core DMA command retires (R54). -/
theorem dma_fin {q q2 : Tile} {e : QEntry} {rest : List QEntry} (hq : q2.dma.q = e :: rest)
    (htk : q2.seq.tokens = q.seq.tokens) (hph : q2.seq.phase = q.seq.phase) (hp : ∀ k, e.post = some k → q.token k < 65535) :
    (q2.retire 4 0).dma.q = rest ∧ (q2.retire 4 0).dma.windows = q2.dma.windows ∧ (q2.retire 4 0).dma.granted = q2.dma.granted
    ∧ (q2.retire 4 0).spad = q2.spad ∧ (q2.retire 4 0).seq.phase = q.seq.phase ∧ (q2.retire 4 0).seq.dmem = q2.seq.dmem
    ∧ (q2.retire 4 0).seq.regs = q2.seq.regs := by
  have h1 : q2.queue 4 = e :: rest := hq
  have hp1 : ∀ k, e.post = some k → q2.token k < 65535 := by
    intro k hk; have h := hp k hk; simp only [Tile.token, htk] at h ⊢; exact h
  have f := retire_head_facts (eng := 4) (by decide) h1 hp1
  refine ⟨f.1, ?_, ?_, f.2.2.2.1, f.2.1.trans hph, f.2.2.2.2, ?_⟩ <;>
  · rw [retire_head (by decide) h1 hp1]
    cases e.post <;> rfl

/-- A change of a tile after another. -/
theorem onTile_onTile (s : State) (t : Nat) (f g : Tile → Tile) : ((s.onTile t f).onTile t g).tile t = g (f (s.tile t)) := by
  simp

/-- A tile change that leaves the phase alone, on a state whose tile works. -/
theorem runTile_eq' {s : State} {t : Nat} {f : Tile → Tile} (h1 : (s.tile t).seq.phase = .running ∨ (s.tile t).seq.phase = .yielding)
    (hp : (f (s.tile t)).seq.phase = (s.tile t).seq.phase) : s.runTile t f = s.onTile t f := by
  have h3 : (s.tile t).isFaulted = false := by rcases h1 with e | e <;> simp [Tile.isFaulted, e]
  simp only [State.runTile, h3, State.tile_onTile, hp]
  rcases h1 with e | e <;> simp [e]

/-- The phases in which a tile works. -/
theorem works_phase {s : State} {t : Nat} (h : s.works t = true) :
    (s.tile t).seq.phase = .running ∨ (s.tile t).seq.phase = .yielding := by
  simp only [State.works, Bool.and_eq_true, Bool.or_eq_true, decide_eq_true_eq, beq_iff_eq] at h
  exact h.2

/-- A message to a sharer leaves package memory and the Keywork alone. -/
theorem sendInv_mem (s : State) (grp d ptype : Nat) (lines : List Nat) (addr aux : Nat) :
    (s.sendInv grp d ptype lines addr aux).mem = s.mem := by
  simp only [State.sendInv]; split
  · rfl
  · simp only [State.sendOn, State.count_mem, State.onPort_mem]

/-- A fold of operations that leave package memory alone. -/
theorem foldl_mem {β : Type} (l : List β) (s : State) (g : State → β → State) (h : ∀ s x, (g s x).mem = s.mem) :
    (l.foldl g s).mem = s.mem := by
  induction l generalizing s with
  | nil => rfl
  | cons x r ih => simp only [List.foldl_cons]; rw [ih, h]

/-- Invalidations leave package memory alone (R374). -/
theorem invalidateLines_mem (s : State) (lines : List Nat) : (s.invalidateLines lines).1.mem = s.mem := by
  simp only [State.invalidateLines]
  rw [foldl_mem]
  intro s w
  split
  · rfl
  · simp only [State.invAt]
    split
    · apply foldl_mem; intro s b; split <;> exact sendInv_mem ..
    · apply foldl_mem; intro s b; exact sendInv_mem ..

/-- The object of an address, after a change of that object that keeps its range. -/
theorem findObj_insert {addr i : Nat} {o o' : Obj} {t : Tab (Option Obj)} (h : findObj addr t = some (i, o))
    (hb : o'.pbase = o.pbase) (hg : o'.granules = o.granules) :
    findObj addr (Tab.insert t i (some o')) = some (i, o') := by
  have hm : ∀ {t : Tab (Option Obj)}, findObj addr t = some (i, o) → o.pbase ≤ addr ∧ addr < o.pbase + o.granules * granuleBytes := by
    intro t
    induction t with
    | nil => intro h; simp [findObj] at h
    | cons x r ih =>
      intro h
      obtain ⟨k, v⟩ := x
      cases v with
      | none => exact ih h
      | some v =>
        simp only [findObj] at h
        split at h
        · rename_i hc; simp only [Option.some.injEq, Prod.mk.injEq] at h; obtain ⟨rfl, rfl⟩ := h; exact hc
        · exact ih h
  have hx := hm h
  have here : ∀ r, findObj addr ((i, some o') :: r) = some (i, o') := by
    intro r; simp only [findObj, hb, hg]; rw [if_pos hx]
  induction t with
  | nil => simp [findObj] at h
  | cons x r ih =>
    obtain ⟨k, v⟩ := x
    simp only [Tab.insert]
    split
    · exact here _
    · split
      · exact here _
      · rename_i h1 h2
        cases v with
        | none => exact ih h
        | some v =>
          simp only [findObj] at h ⊢
          split
          · rename_i hc; rw [if_pos hc] at h; simp only [Option.some.injEq, Prod.mk.injEq] at h; omega
          · rename_i hc; rw [if_neg hc] at h; exact ih h

/-- Bytes over a `MEM` port leave package memory alone (R366). -/
@[simp] theorem State.memLine_mem (s : State) (l rd wr : Nat) : (s.memLine l rd wr).mem = s.mem := by
  simp only [State.memLine]; repeat' split
  all_goals simp

/-- A read over the `MEM` ports leaves package memory alone (R366). -/
@[simp] theorem State.memRead_mem (s : State) (a n : Nat) : (s.memRead a n).mem = s.mem :=
  foldl_mem _ _ _ (fun _ _ => State.memLine_mem ..)

/-- The count of a write over the `MEM` ports leaves package memory alone (R366). -/
@[simp] theorem State.memWrite_mem (s : State) (a n : Nat) : (s.memWrite a n).mem = s.mem := by
  unfold State.memWrite
  refine foldl_mem _ _ _ (fun z l => ?_)
  dsimp only; split <;> simp

/-- Counting traffic leaves package memory, and where an address is homed, alone (R367). -/
theorem addTraffic_mem (s : State) (addr n : Nat) :
    (s.addTraffic addr n).mem = s.mem ∧ (s.addTraffic addr n).isHome addr = s.isHome addr := by
  simp only [State.addTraffic]
  split
  · exact ⟨rfl, rfl⟩
  · split
    · exact ⟨rfl, rfl⟩
    · split
      · rename_i i o hfo
        refine ⟨rfl, ?_⟩
        have hs : ∀ z : State, z.kw.xlate = s.kw.xlate → z.pos = s.pos → findObj addr z.kw.objs
            = some (i, { o with traffic := Tab.mod 0 o.traffic s.pos (· + n) }) → z.isHome addr = s.isHome addr := by
          intro z z1 z2 z3
          simp only [State.isHome, State.homeDie, State.homeStack, z1, z2, z3, hfo]
        exact hs _ rfl rfl (by rw [Tab.set, if_neg (by simp)]; exact findObj_insert hfo rfl rfl)
      · exact ⟨rfl, rfl⟩

/-- Marking dirty blocks leaves package memory alone (R369). -/
@[simp] theorem State.markDirty_mem (s : State) (addr n : Nat) : (s.markDirty addr n).mem = s.mem := by
  simp only [State.markDirty]; repeat' split
  all_goals rfl

/-- A write at home puts its bytes into package memory (R374). -/
@[simp] theorem wrHome_mem (s : State) (addr : Nat) (bs : List Byte) : (s.wrHome addr bs).1.mem = s.mem.wrBytes addr bs := by
  simp only [State.wrHome]
  rw [invalidateLines_mem]; simp

/-- Bytes that lie in one granule are one piece (R371). -/
theorem splitGranules_one {addr : Nat} {bs : List Byte} (h : addr % granuleBytes + bs.length ≤ granuleBytes) (hb : bs ≠ [])
    (n : Nat) : splitGranules addr bs (n + 1) = [(addr, bs)] := by
  rw [splitGranules]
  · rw [List.take_of_length_le (by omega), List.drop_eq_nil_of_le (by omega)]; simp [splitGranules]
  · exact hb

/-- A write to package memory that lies in one granule and is homed on this die's stacks (R374). -/
theorem wrPkg_mem_home (s : State) (addr job : Nat) (bs : List Byte) (h : s.isHome addr = true)
    (hg : addr % granuleBytes + bs.length ≤ granuleBytes) : (s.wrPkg addr job bs).mem = s.mem.wrBytes addr bs := by
  have hat := addTraffic_mem s addr bs.length
  simp only [State.wrPkg, State.wrPkgAs]
  by_cases hb : bs = []
  · subst hb; simp only [splitGranules, List.foldl_nil]; rw [hat.1]; rfl
  · rw [splitGranules_one hg hb]
    simp only [List.foldl_cons, List.foldl_nil, State.wrGranule, hat.2, h, if_true]
    split <;> simp [hat.1]

/-- An entry of the core DMA queue replaced on a state with the same tiles. -/
theorem putDma_head {z s : State} {t : Nat} {e e' : QEntry} {rest : List QEntry} (hz : z.tiles = s.tiles)
    (hq : (s.tile t).dma.q = e :: rest) : ((z.putDma t 0 e').tile t).dma.q = e' :: rest := by
  have ht : z.tile t = s.tile t := by simp only [State.tile, hz]
  simp only [State.putDma, State.tile_onTile, ht, Tile.onEntry, Tile.onQueue]
  show modAt _ (s.tile t).dma.q 0 = _
  rw [hq]; rfl

/-- A descriptor change leaves every tile alone. -/
theorem onDescOf_tile (s : State) (t u : Nat) (f : Desc → Desc) : (s.onDescOf t f).tile u = s.tile u := by
  simp only [State.tile, (State.onDescOf_frame s t f).1]

end Sys2Proof.Machine
end

