-- ==== Sys2Proof/Laws/Reports.lean ====
section
/-!
SUPPORT. What writes of package memory, packets and event reports leave alone: the tiles, the sync tree, the queue manager's copies,
the core map and tile states of the Keywork, and the state of every port.
-/

set_option Elab.async false

namespace Sys2Proof.Machine

open Sys2Proof

/-- A port but for what passes through it: its queues, its credits, its packet counts and the times of its last packets. -/
def Port.link (po : Port) : Port :=
  { po with queue := [], unacked := [], credits := [], freed := [], sentCount := 0, recvCount := 0, lastSent := 0, lastRecv := 0, lastBusy := 0
            memLines := 0 }

/-- A change that sends packets, writes package memory or writes events, and leaves the rest of the die as it was. -/
structure Mild (s s' : State) : Prop where
  tiles : s'.tiles = s.tiles
  sync : s'.sync = s.sync
  flt : s'.flt = s.flt
  free : s'.free = s.free
  descs : s'.qm.descs = s.qm.descs
  nextUid : s'.qm.nextUid = s.qm.nextUid
  streams : s'.qm.streams = s.qm.streams
  jobs : s'.qm.jobs = s.qm.jobs
  rings : s'.qm.rings = s.qm.rings
  frames : s'.qm.frames = s.qm.frames
  rr : s'.qm.rr = s.qm.rr
  cores : s'.kw.cores = s.kw.cores
  tileSts : s'.kw.tiles = s.kw.tiles
  xlate : s'.kw.xlate = s.kw.xlate
  st : ∀ p, (s'.port p).st = (s.port p).st
  peer : ∀ p, (s'.port p).peerPos = (s.port p).peerPos
  conf : ∀ p, (s'.port p).confOn = (s.port p).confOn
  link : ∀ p, (s'.port p).link = (s.port p).link
  holds : ∀ p k, s.holds p k → s'.holds p k
  cfg : s'.cfg = s.cfg
  mgmt : s'.mgmt = s.mgmt
  pkg : s'.pkg = s.pkg
  sec : s'.sec = s.sec
  bw : s'.bw = s.bw
  time : s'.time = s.time
  fuses : s'.fuses = s.fuses
  pending : s'.pending = s.pending

theorem Mild.refl (s : State) : Mild s s := by constructor <;> intros <;> first | rfl | assumption

theorem Mild.trans {a b c : State} (h : Mild a b) (k : Mild b c) : Mild a c where
  tiles := k.tiles.trans h.tiles
  sync := k.sync.trans h.sync
  flt := k.flt.trans h.flt
  free := k.free.trans h.free
  descs := k.descs.trans h.descs
  nextUid := k.nextUid.trans h.nextUid
  streams := k.streams.trans h.streams
  jobs := k.jobs.trans h.jobs
  rings := k.rings.trans h.rings
  frames := k.frames.trans h.frames
  rr := k.rr.trans h.rr
  cores := k.cores.trans h.cores
  tileSts := k.tileSts.trans h.tileSts
  xlate := k.xlate.trans h.xlate
  st := fun p => (k.st p).trans (h.st p)
  peer := fun p => (k.peer p).trans (h.peer p)
  conf := fun p => (k.conf p).trans (h.conf p)
  link := fun p => (k.link p).trans (h.link p)
  holds := fun p x hx => k.holds p x (h.holds p x hx)
  cfg := k.cfg.trans h.cfg
  mgmt := k.mgmt.trans h.mgmt
  pkg := k.pkg.trans h.pkg
  sec := k.sec.trans h.sec
  bw := k.bw.trans h.bw
  time := k.time.trans h.time
  fuses := k.fuses.trans h.fuses
  pending := k.pending.trans h.pending

/-- A fold of mild changes. -/
theorem Mild.foldl {β : Type} (l : List β) (g : State → β → State) (h : ∀ s x, Mild s (g s x)) (s : State) :
    Mild s (l.foldl g s) := by
  induction l generalizing s with
  | nil => exact Mild.refl s
  | cons x r ih => exact (h s x).trans (ih _)

/-- A fold of mild changes that carries a value along. -/
theorem Mild.foldlP {β γ : Type} (l : List β) (g : State × γ → β → State × γ) (h : ∀ r x, Mild r.1 (g r x).1) (r : State × γ) :
    Mild r.1 (l.foldl g r).1 := by
  induction l generalizing r with
  | nil => exact Mild.refl r.1
  | cons x l ih => exact (h r x).trans (ih _)

theorem count_mild (s : State) (k n : Nat) : Mild s (s.count k n) := by
  rw [State.count_eq]; constructor <;> intros <;> first | rfl | assumption

theorem traceAdd_mild (s : State) (tile src typ : Nat) (pay : Word) : Mild s (s.traceAdd tile src typ pay) := by
  simp only [State.traceAdd]; split <;> constructor <;> intros <;> first | rfl | assumption

theorem Port.pass_st (po : Port) (l : List Packet) (h : List Nat) : (po.pass l h).st = po.st ∧ (po.pass l h).peerPos = po.peerPos
    ∧ (po.pass l h).confOn = po.confOn ∧ (po.pass l h).link = po.link := by
  induction l generalizing po h with
  | nil => exact ⟨rfl, rfl, rfl, rfl⟩
  | cons k r ih =>
    simp only [Port.pass]
    split
    · exact ih _ _
    · split
      · exact ih _ _
      · exact ih _ _

theorem Port.flush_st (po : Port) : po.flush.st = po.st ∧ po.flush.peerPos = po.peerPos ∧ po.flush.confOn = po.confOn
    ∧ po.flush.link = po.link := by
  simp only [Port.flush]; split
  · exact Port.pass_st _ _ _
  · exact ⟨rfl, rfl, rfl, rfl⟩

theorem Port.flushAt_st (po : Port) (now : Nat) : (po.flushAt now).st = po.st ∧ (po.flushAt now).peerPos = po.peerPos
    ∧ (po.flushAt now).confOn = po.confOn ∧ (po.flushAt now).link = po.link := by
  obtain ⟨h1, h2, h3, h4⟩ := Port.flush_st po
  refine ⟨h1, h2, h3, ?_⟩
  rw [← h4]; rfl

/-- A pass over waiting packets loses none (R399). -/
theorem Port.pass_holds (po : Port) (l : List Packet) (h : List Nat) (k : Packet) (hk : k ∈ l ∨ k ∈ po.queue ∨ k ∈ po.unacked) :
    k ∈ (po.pass l h).queue ∨ k ∈ (po.pass l h).unacked := by
  induction l generalizing po h with
  | nil => simpa [Port.pass] using hk
  | cons x r ih =>
    simp only [List.mem_cons] at hk
    simp only [Port.pass]
    split
    · apply ih; simp only [List.mem_append, List.mem_singleton]; tauto
    · split
      · apply ih; simp only [List.mem_append, List.mem_singleton]; tauto
      · apply ih; simp only [List.mem_append, List.mem_singleton]; tauto

/-- What a port holds it still holds after it has sent what it can. -/
theorem Port.flush_holds (po : Port) (k : Packet) (h : k ∈ po.queue ∨ k ∈ po.unacked) : k ∈ po.flush.queue ∨ k ∈ po.flush.unacked := by
  simp only [Port.flush]; split
  · apply Port.pass_holds
    rcases h with h | h
    · exact .inl h
    · exact .inr (.inr h)
  · exact h

/-- What a port holds it still holds after it has sent what it can. -/
theorem Port.flushAt_holds (po : Port) (now : Nat) (k : Packet) (h : k ∈ po.queue ∨ k ∈ po.unacked) :
    k ∈ (po.flushAt now).queue ∨ k ∈ (po.flushAt now).unacked := Port.flush_holds po k h

/-- A change of a port that leaves its state and peer alone. -/
theorem onPort_mild (s : State) (p : Nat) (f : Port → Port) (h : ∀ po, (f po).st = po.st ∧ (f po).peerPos = po.peerPos ∧ (f po).confOn = po.confOn ∧ (f po).link = po.link)
    (hh : ∀ po k, k ∈ po.queue ∨ k ∈ po.unacked → k ∈ (f po).queue ∨ k ∈ (f po).unacked) :
    Mild s (s.onPort p f) := by
  have hp : ∀ q, ((s.onPort p f).port q).st = (s.port q).st ∧ ((s.onPort p f).port q).peerPos = (s.port q).peerPos
      ∧ ((s.onPort p f).port q).confOn = (s.port q).confOn ∧ ((s.onPort p f).port q).link = (s.port q).link := by
    intro q
    by_cases e : q = p
    · subst e; rw [State.port_onPort]; exact h _
    · rw [State.port_onPort_other _ e]; exact ⟨rfl, rfl, rfl, rfl⟩
  exact { tiles := rfl, sync := rfl, flt := rfl, free := rfl, descs := rfl, nextUid := rfl, streams := rfl, jobs := rfl, rings := rfl
          frames := rfl, rr := rfl, cores := rfl, tileSts := rfl, xlate := rfl, st := fun q => (hp q).1, peer := fun q => (hp q).2.1
          conf := fun q => (hp q).2.2.1, link := fun q => (hp q).2.2.2
          holds := by
            intro q k hk
            by_cases e : q = p
            · subst e; unfold State.holds; rw [State.port_onPort]; exact hh _ _ hk
            · unfold State.holds; rw [State.port_onPort_other _ e]; exact hk
          cfg := rfl, mgmt := rfl, pkg := rfl, sec := rfl, bw := rfl, time := rfl, fuses := rfl, pending := rfl }

theorem sendOn_mild (s : State) (p : Nat) (k : Packet) : Mild s (s.sendOn p k) := by
  simp only [State.sendOn]
  refine Mild.trans (onPort_mild s p _ ?_ ?_) (count_mild _ _ _)
  · intro po; exact Port.flushAt_st _ _
  · intro po k h; apply Port.flushAt_holds
    rcases h with h | h
    · exact .inl (List.mem_append_left _ h)
    · exact .inr h

/-- A change of the remote-data cache's bookkeeping. -/
theorem rdc_mild (s : State) (r : Rdc) : Mild s { s with rdc := r } := by constructor <;> intros <;> first | rfl | assumption

/-- A change of package memory. -/
theorem mem_mild (s : State) (m : Mem) : Mild s { s with mem := m } := by constructor <;> intros <;> first | rfl | assumption

theorem request_mild (s : State) (d : Nat) (k : Packet) (o : OpenTx) : Mild s (s.request d k o).1 := by
  simp only [State.request]; split
  · exact Mild.refl s
  · exact (rdc_mild s _).trans (sendOn_mild _ _ _)

theorem sendInv_mild (s : State) (grp d ptype : Nat) (lines : List Nat) (addr aux : Nat) :
    Mild s (s.sendInv grp d ptype lines addr aux) := by
  simp only [State.sendInv]; split
  · exact Mild.refl s
  · exact (rdc_mild s _).trans (sendOn_mild _ _ _)

theorem invAt_mild (s : State) (grp d : Nat) (lines : List Nat) : Mild s (s.invAt grp d lines) := by
  simp only [State.invAt]; split
  · refine Mild.foldl _ _ ?_ s; intro s x; split <;> exact sendInv_mild ..
  · exact Mild.foldl _ _ (fun s x => sendInv_mild ..) s

theorem invalidateLines_mild (s : State) (lines : List Nat) : Mild s (s.invalidateLines lines).1 := by
  simp only [State.invalidateLines]
  refine (rdc_mild s _).trans (Mild.foldl _ _ ?_ _)
  intro s x; split
  · exact Mild.refl s
  · exact invAt_mild ..

theorem carry_mild (s : State) (p : Nat) : Mild s (s.onPort p (fun po => { po with memLines := po.memLines + 1 })) := by
  refine onPort_mild s p _ (fun po => ⟨rfl, rfl, rfl, rfl⟩) (fun po k h => h)

theorem memLine_mild (s : State) (l rd wr : Nat) : Mild s (s.memLine l rd wr) := by
  simp only [State.memLine]; repeat' split
  · exact Mild.refl s
  · exact ((carry_mild s _).trans (count_mild _ _ _)).trans (count_mild _ _ _)
  · exact Mild.refl s
  · exact Mild.refl s

theorem memRead_mild (s : State) (a n : Nat) : Mild s (s.memRead a n) := Mild.foldl _ _ (fun _ _ => memLine_mild ..) s

theorem memWrite_mild (s : State) (a n : Nat) : Mild s (s.memWrite a n) := by
  refine Mild.foldl _ _ (fun z l => ?_) s
  dsimp only; split <;> exact memLine_mild ..

theorem markDirty_mild (s : State) (addr n : Nat) : Mild s (s.markDirty addr n) := by
  simp only [State.markDirty]; repeat' split
  all_goals (constructor <;> intros <;> first | rfl | assumption)

theorem wrHome_mild (s : State) (addr : Nat) (bs : List Byte) : Mild s (s.wrHome addr bs).1 := by
  simp only [State.wrHome]
  exact (((mem_mild s _).trans (markDirty_mild _ _ _)).trans (memWrite_mild _ _ _)).trans (invalidateLines_mild _ _)

theorem sendWrite_mild (s : State) (addr job stop : Nat) (bs : List Byte) (o : OpenTx) :
    Mild s (s.sendWrite addr job stop bs o).1 := request_mild ..

theorem addTraffic_mild (s : State) (addr n : Nat) : Mild s (s.addTraffic addr n) := by
  simp only [State.addTraffic]; repeat' split
  all_goals (constructor <;> intros <;> first | rfl | assumption)

theorem readAt_mild (s : State) (addr n : Nat) : Mild s (s.readAt addr n) :=
  (addTraffic_mild s addr n).trans (memRead_mild _ _ _)

/-- A fold of mild writes. -/
theorem Mild.foldlW {β : Type} (l : List β) (g : Written → β → Written) (h : ∀ r x, Mild r.st (g r x).st) (r : Written) :
    Mild r.st (l.foldl g r).st := by
  induction l generalizing r with
  | nil => exact Mild.refl r.st
  | cons x l ih => exact (h r x).trans (ih _)

theorem wrGranule_mild (s : State) (addr job stop : Nat) (bs : List Byte) (o : OpenTx) :
    Mild s (s.wrGranule addr job stop bs o).st := by
  simp only [State.wrGranule]
  split
  · have h := wrHome_mild s addr bs
    split
    · exact h.trans (rdc_mild _ _)
    · exact h
  · exact Mild.foldlW _ _ (fun r x => sendWrite_mild ..) ⟨s, 0, none⟩

theorem wrPkgAs_mild (s : State) (addr job stop : Nat) (bs : List Byte) (o : OpenTx) : Mild s (s.wrPkgAs addr job stop bs o).st := by
  simp only [State.wrPkgAs]
  exact (addTraffic_mild s addr bs.length).trans
    (Mild.foldlW (splitGranules addr bs (bs.length / granuleBytes + 2)) (fun (r : Written) (p : Nat × List Byte) =>
      let x := r.st.wrGranule p.1 job stop p.2 o
      ⟨x.st, r.acks + x.acks, r.lost.or x.lost⟩) (fun r x => wrGranule_mild ..) ⟨s.addTraffic addr bs.length, 0, none⟩)

theorem wrPkg_mild (s : State) (addr job : Nat) (bs : List Byte) : Mild s (s.wrPkg addr job bs) := wrPkgAs_mild ..

/-- The end of an event's write. -/
theorem ev_aux (s1 : State) (a : Nat) (bs : List Byte) (x y : Nat) :
    Mild s1 (if s1.evFull then { s1 with qm := { s1.qm with evLost := satAdd s1.qm.evLost 1, evLoss := true } }
    else
      if s1.deny 0 true false a 64 != 0 then
        { s1 with kw := { s1.kw with deny := satAdd s1.kw.deny 1 }
                  qm := { s1.qm with evLost := satAdd s1.qm.evLost 2, evLoss := true, tableErr := true } }
      else if s1.isPoisoned a 64 then
        { s1 with qm := { s1.qm with evLost := satAdd s1.qm.evLost 1, evLoss := true, tableErr := true } }
      else
        let s' := s1.wrPkg a 0 bs
        { s' with qm := { s'.qm with
            evTail := x
            evLap := y
            evLoss := false
            notifyDue := s'.qm.notifyDue || bitAt (s1.reg 0x2000) 16 } }) := by
    split
    · constructor <;> intros <;> first | rfl | assumption
    · split
      · constructor <;> intros <;> first | rfl | assumption
      · split
        · constructor <;> intros <;> first | rfl | assumption
        · refine (wrPkg_mild s1 a 0 bs).trans ?_
          constructor <;> intros <;> first | rfl | assumption

theorem event_mild (s : State) (e : Ev) : Mild s (s.event e) := by
  unfold State.event
  split
  · exact Mild.refl s
  · have h : Mild s (if bitAt (s.reg 0x3C20) 2 then s.traceAdd e.tile 2 e.typ (evWord18 e) else s) := by
      split
      · exact traceAdd_mild ..
      · exact Mild.refl s
    exact h.trans (ev_aux _ _ _ _ _)

theorem denied_mild (s : State) (e : Ev) (core addr reason : Nat) : Mild s (s.denied e core addr reason) := by
  simp only [State.denied]
  refine Mild.trans ?_ (event_mild _ _)
  constructor <;> intros <;> first | rfl | assumption

theorem send_mild (s : State) (d : Nat) (k : Packet) (via : Option Nat) : Mild s (s.send d k via) := by
  simp only [State.send]; split
  · exact sendOn_mild ..
  · exact event_mild ..

theorem reply_mild (s : State) (p : Nat) (rq k : Packet) : Mild s (s.reply p rq k) := by
  simp only [State.reply]; split
  · exact sendOn_mild ..
  · exact send_mild ..

/-- A packet that a port takes in acts on the state in which it is counted (R381, R396). -/
theorem receive_taken {s : State} {p : Nat} {k : Packet} (h : s.accepts p k = true) (act : State → State) :
    onUnit (isPort p) p (s.receive p k act) = .next (act (s.taken p k)) := by
  simp only [State.accepts, Bool.and_eq_true, beq_iff_eq] at h
  obtain ⟨⟨⟨⟨⟨h1, h2⟩, h3⟩, h4⟩, h5⟩, h6⟩ := h
  simp only [onUnit, h1, if_true, State.receive, h2]
  rw [if_neg (by simp), if_neg]
  · have hr : ∀ f : Port → Port, (s.onPort p f).role p = s.role p := fun _ => rfl
    have hp : ∀ f : Port → Port, (s.onPort p f).pos = s.pos := fun _ => rfl
    simp only [hr]
    rw [if_neg (by simp [h4, h5])]
    rw [if_neg]
    · rfl
    · have hc : ∀ (z : State) a b, (z.count a b).pos = z.pos ∧ (z.count a b).role p = z.role p := by
        intro z a b; rw [State.count_eq]; exact ⟨rfl, rfl⟩
      simp only [(hc _ _ _).1, (hc _ _ _).2, hp, hr]
      simp only [Bool.or_eq_true, beq_iff_eq] at h6
      rcases h6 with (h6 | h6) | h6 <;> simp [h6]
  · intro hh
    simp only [Bool.and_eq_true, Bool.not_eq_true'] at hh
    rw [hh.1, hh.2] at h3; simp at h3

/-- A packet taken in leaves everything but its port and the telemetry count alone. -/
theorem taken_mild (s : State) (p : Nat) (k : Packet) : Mild s (s.taken p k) := by
  unfold State.taken
  refine Mild.trans (onPort_mild s p _ ?_ ?_) (count_mild _ _ _)
  · intro po; exact ⟨rfl, rfl, rfl, rfl⟩
  · intro po k h; exact h

/-- A packet taken in leaves package memory and the remote-data cache alone. -/
theorem taken_mem (s : State) (p : Nat) (k : Packet) : (s.taken p k).mem = s.mem ∧ (s.taken p k).rdc = s.rdc ∧ (s.taken p k).kw = s.kw
    ∧ (s.taken p k).qm = s.qm := by
  have hc : ∀ (z : State) a b, (z.count a b).mem = z.mem ∧ (z.count a b).rdc = z.rdc ∧ (z.count a b).kw = z.kw
      ∧ (z.count a b).qm = z.qm := by
    intro z a b; rw [State.count_eq]; exact ⟨rfl, rfl, rfl, rfl⟩
  unfold State.taken
  exact hc _ _ _

/-- A packet given to a port is held by it (R399). -/
theorem sendOn_holds (s : State) (p : Nat) (k : Packet) : (s.sendOn p k).holds p { k with enc := (s.port p).confOn } := by
  have hc : ∀ (z : State) a b, (z.count a b).ports = z.ports := by intro z a b; rw [State.count_eq]
  have hp : ((s.sendOn p k).port p) = ({ s.port p with queue := (s.port p).queue ++ [{ k with enc := (s.port p).confOn }] } : Port).flushAt s.now := by
    simp only [State.sendOn]
    show State.port _ p = _
    rw [show ∀ (z : State) a b, (z.count a b).port p = z.port p from fun z a b => by simp only [State.port, hc]]
    rw [State.port_onPort]
  unfold State.holds
  rw [hp]
  exact Port.flushAt_holds _ _ _ (by left; simp)

/-- An answer on an `UP` port is held by it (R382, R398). -/
theorem reply_holds {s z : State} {p : Nat} (k a : Packet) (h : Mild s z) (hu : (s.port p).st = .up) :
    (z.reply p k a).holds p (s.answerTo p k a) := by
  simp only [State.reply]
  rw [if_pos (by rw [h.st p, hu]; rfl)]
  have := sendOn_holds z p { a with cls := 1, dstDie := k.srcDie, tag := k.tag, job := k.job }
  rw [h.conf p] at this
  exact this

/-- Sending leaves package memory and the sharers alone. -/
theorem sendOn_mem (s : State) (p : Nat) (k : Packet) : (s.sendOn p k).mem = s.mem ∧ (s.sendOn p k).rdc = s.rdc
    ∧ (s.sendOn p k).kw = s.kw := by
  have hc : ∀ (z : State) a b, (z.count a b).mem = z.mem ∧ (z.count a b).rdc = z.rdc ∧ (z.count a b).kw = z.kw := by
    intro z a b; rw [State.count_eq]; exact ⟨rfl, rfl, rfl⟩
  unfold State.sendOn
  exact hc _ _ _

/-- An answer on an `UP` port leaves package memory, the cache and the Keywork alone. -/
theorem reply_mem {s z : State} {p : Nat} (k a : Packet) (h : Mild s z) (hu : (s.port p).st = .up) :
    (z.reply p k a).mem = z.mem ∧ (z.reply p k a).rdc = z.rdc ∧ (z.reply p k a).kw = z.kw := by
  simp only [State.reply]
  rw [if_pos (by rw [h.st p, hu]; rfl)]
  exact sendOn_mem _ _ _

/-- A port that takes a packet in is `UP`. -/
theorem accepts_up {s : State} {p : Nat} {k : Packet} (h : s.accepts p k = true) : (s.port p).st = .up := by
  simp only [State.accepts, Bool.and_eq_true, beq_iff_eq] at h; exact h.1.1.1.1.2

theorem refusedEvent_mild (s : State) (job die core target kind : Nat) : Mild s (s.refusedEvent job die core target kind) :=
  event_mild ..

/-- The state in which a taken packet acts differs from the one before in its ports and telemetry only. -/
theorem taken_shape (s : State) (p : Nat) (k : Packet) : ∃ P T, s.taken p k = { s with ports := P, telem := T } := by
  unfold State.taken
  rw [State.count_eq]
  exact ⟨_, _, rfl⟩

/-- The port of a packet taken in is `UP` still. -/
theorem taken_up {s : State} {p : Nat} {k : Packet} (h : s.accepts p k = true) : ((s.taken p k).port p).st = .up := by
  rw [(taken_mild s p k).st p]; exact accepts_up h

/-- A telemetry count leaves memory, the cache, the tiles and the Keywork alone. -/
theorem count_facts (s : State) (a b : Nat) : (s.count a b).mem = s.mem ∧ (s.count a b).rdc = s.rdc ∧ (s.count a b).tiles = s.tiles
    ∧ (s.count a b).kw = s.kw := by
  rw [State.count_eq]; exact ⟨rfl, rfl, rfl, rfl⟩

/-- A die that reads joins the sharers of each line it reads (R374). -/
theorem foldl_sharers (ls : List Nat) (hn : ls.Nodup) (b : Nat) (t : Tab Nat) (l : Nat) :
    Tab.get 0 (ls.foldl (fun t l => Tab.mod 0 t l (· ||| b)) t) l = if l ∈ ls then Tab.get 0 t l ||| b else Tab.get 0 t l := by
  induction ls generalizing t with
  | nil => simp
  | cons x r ih =>
    simp only [List.nodup_cons] at hn
    rw [List.foldl_cons, ih hn.2, Tab.get_mod]
    by_cases h : l = x
    · subst h; simp [hn.1]
    · simp [h]

/-- The lines of a range are distinct. -/
theorem linesOf_nodup (a n : Nat) : (linesOf a n).Nodup := by
  unfold linesOf
  exact List.Nodup.map (fun a b h => by simpa using h) List.nodup_range

/-- A fold of steps that change nothing changes nothing. -/
theorem foldl_id {α β : Type} (l : List β) (f : α → β → α) (h : ∀ a, ∀ x ∈ l, f a x = a) (a : α) : l.foldl f a = a := by
  induction l generalizing a with
  | nil => rfl
  | cons x r ih => rw [List.foldl_cons, h a x (by simp)]; exact ih (fun a y hy => h a y (by simp [hy])) a

/-- No sharers, no invalidations. -/
theorem invalidateLines_none {s : State} {ls : List Nat} (h : ∀ l ∈ ls, Tab.get 0 s.rdc.sharers l = 0) (hi : s.rdc.invs = []) :
    (s.invalidateLines ls).2.2 = false ∧ (s.invalidateLines ls).1.mem = s.mem := by
  refine ⟨?_, invalidateLines_mem _ _⟩
  have hs : ∀ d, ls.filter (fun l => (Tab.get 0 s.rdc.sharers l).testBit d) = [] := by
    intro d; rw [List.filter_eq_nil_iff]; intro l hl; rw [h l hl]; simp
  simp only [State.invalidateLines, hs]
  rw [foldl_id]
  · simp [hi]
  · intro a x hx
    simp only [List.mem_map] at hx
    obtain ⟨d, _, rfl⟩ := hx
    rfl

/-- Marking a block of a migrating object leaves the cache and memory alone. -/
theorem markDirty_rdc (s : State) (a n : Nat) : (s.markDirty a n).rdc = s.rdc ∧ (s.markDirty a n).mem = s.mem := by
  simp only [State.markDirty]; repeat' split
  all_goals exact ⟨rfl, rfl⟩

/-- The count of a write over the `MEM` ports leaves the remote-data cache alone (R366). -/
theorem memWrite_rdc (s : State) (a n : Nat) : (s.memWrite a n).rdc = s.rdc := by
  have hl : ∀ (z : State) l rd wr, (z.memLine l rd wr).rdc = z.rdc := by
    intro z l rd wr; simp only [State.memLine]; repeat' split
    all_goals simp
  unfold State.memWrite
  generalize linesOf a n = ls
  induction ls generalizing s with
  | nil => rfl
  | cons x r ih => rw [List.foldl_cons, ih]; dsimp only; split <;> exact hl ..

/-- A write that no die shares a line of waits for nothing (R374). -/
theorem wrHome_none {s : State} {a : Nat} {bs : List Byte} (h : ∀ l ∈ linesOf a bs.length, Tab.get 0 s.rdc.sharers l = 0)
    (hi : s.rdc.invs = []) : (s.wrHome a bs).2.2 = false ∧ (s.wrHome a bs).1.mem = s.mem.wrBytes a bs := by
  have hr : ((({ s with mem := s.mem.wrBytes a bs } : State).markDirty a bs.length).memWrite a bs.length).rdc = s.rdc := by
    rw [memWrite_rdc, (markDirty_rdc _ a bs.length).1]
  refine ⟨?_, wrHome_mem ..⟩
  simp only [State.wrHome]
  exact (invalidateLines_none (by rw [hr]; exact h) (by rw [hr]; exact hi)).1

/-- Which ports of a stack are `UP` depends on the set-up and the states of the ports (R383). -/
theorem stackPorts_congr {s z : State} {k : Nat} (hc : z.cfg = s.cfg) (hs : ∀ p, (z.port p).st = (s.port p).st) :
    z.stackPorts k = s.stackPorts k := by
  have hr : ∀ a, z.reg a = s.reg a := fun a => by simp only [State.reg, hc]
  simp only [State.stackPorts, State.upPorts, hs, State.role, State.lstack, State.rfld, hr]

/-- Whether an access touches poison depends on the set-up, the states of the ports, the homes and the marks (R383, R466). -/
theorem isPoisoned_congr {s z : State} {a n : Nat} (hc : z.cfg = s.cfg) (hs : ∀ p, (z.port p).st = (s.port p).st)
    (hp : z.pkg = s.pkg) (hk : z.kw = s.kw) : z.isPoisoned a n = s.isPoisoned a n := by
  have hr : ∀ a, z.reg a = s.reg a := fun a => by simp only [State.reg, hc]
  have hg : z.granuleGone = s.granuleGone := by
    funext g
    have hh : z.homeStack g = s.homeStack g := by
      have hp : z.pos = s.pos := by simp only [State.pos, State.rfld, hr]
      unfold State.homeStack; rw [hp, hk]
    unfold State.granuleGone
    rw [hh, hp]
    cases s.homeStack g with
    | none => rfl
    | some k => simp only [State.stackUp, stackPorts_congr hc hs, hs, State.role, State.lstack, State.rfld, State.pos, hr]
  simp only [State.isPoisoned, hg, hp]

/-- Taking a packet in does not change what an access may touch. -/
theorem admits_taken (s : State) (p : Nat) (k j : Packet) (wr : Bool) (n : Nat) : (s.taken p k).admits j wr n = s.admits j wr n := by
  have hm := taken_mild s p k
  have hp : (s.taken p k).isPoisoned j.addr n = s.isPoisoned j.addr n :=
    isPoisoned_congr hm.cfg hm.st hm.pkg (taken_mem s p k).2.2.1
  obtain ⟨P, T, h⟩ := taken_shape s p k
  simp only [State.admits, hp]
  rw [h]; rfl

/-- The position is held by a set-up register. -/
theorem pos_of_cfg {z s : State} (h : z.cfg = s.cfg) : z.pos = s.pos := by
  simp only [State.pos, State.rfld, State.reg, h]

/-- The lines that a list of lines drops. -/
theorem foldl_drop {α : Type} [DecidableEq α] (ls : List Nat) (t : Tab (Option α)) (l : Nat) :
    Tab.get none (ls.foldl (fun t l => Tab.set none t l none) t) l = if l ∈ ls then none else Tab.get none t l := by
  induction ls generalizing t with
  | nil => simp
  | cons x r ih =>
    rw [List.foldl_cons, ih, Tab.get_set]
    by_cases h : l = x
    · subst h; simp
    · simp [h]

/-- The members of a mask. -/
theorem bitList_mem (v n i : Nat) : i ∈ bitList v n ↔ i < n ∧ v.testBit i = true := by
  simp [bitList]

/-- With nothing held, a second look changes nothing. -/
theorem serveHeld_none {z : State} (h : z.rdc.held = []) : z.serveHeld = z := by
  simp only [State.serveHeld, h, List.foldl_nil]
  rw [← h]

/-- A result for another die is held by the port that the request came in on (R292). -/
theorem answer_remote {s z : State} {p : Nat} (k : Packet) (oc v : Nat) (hu : (z.port p).st = .up)
    (hc : (z.port p).confOn = (s.port p).confOn) (hp : z.pos = s.pos) :
    (z.answer (.remote k.srcDie p k.tag k.job) oc v).sync = z.sync
    ∧ (z.answer (.remote k.srcDie p k.tag k.job) oc v).holds p
        (s.answerTo p k (withData (s.packet 1 9 k.srcDie 122) (resultBytes oc v))) := by
  simp only [State.answer]
  refine ⟨(reply_mild ..).sync, ?_⟩
  have hpk : z.packet 1 9 k.srcDie 122 = s.packet 1 9 k.srcDie 122 := by simp only [State.packet, hp]
  simp only [State.reply, hpk]
  rw [if_pos (by rw [hu]; rfl)]
  have := sendOn_holds z p { withData (s.packet 1 9 k.srcDie 122) (resultBytes oc v) with cls := 1, dstDie := k.srcDie, tag := k.tag, job := k.job }
  rw [hc] at this
  exact this

/-- An object reads back from where it was put. -/
theorem setObj_obj (s : State) (i : Nat) (o : SyncObj) : (s.setObj i o).obj i = o := Tab.get_set_self _ _ _

/-- The oldest sync command retires (R54). -/
theorem sync_fin {q q2 : Tile} {e : QEntry} {rest : List QEntry} (hq : q2.sync.q = e :: rest)
    (htk : q2.seq.tokens = q.seq.tokens) (hp : ∀ k, e.post = some k → q.token k < 65535) :
    (q2.retire 5 0).sync.q = rest ∧ (q2.retire 5 0).seq.phase = q2.seq.phase ∧ (q2.retire 5 0).seq.dmem = q2.seq.dmem := by
  have h1 : q2.queue 5 = e :: rest := hq
  have hp1 : ∀ k, e.post = some k → q2.token k < 65535 := by
    intro k hk; have h := hp k hk; simp only [Tile.token, htk] at h ⊢; exact h
  have f := retire_head_facts (eng := 5) (by decide) h1 hp1
  exact ⟨f.1, f.2.1, f.2.2.2.2⟩

/-- How the oldest sync command of a tile ends when its program goes on (R292, R293). -/
theorem syncEnd_goes {z : State} {t : Nat} {q : Tile} {e : QEntry} {rest : List QEntry} (hz : z.tile t = q)
    (hph : q.seq.phase = .running ∨ q.seq.phase = .yielding)
    (hq : q.sync.q = e :: rest) (hi : e.inFlight = true) (hc : e.code = 3) (ht : bitAt (wordAt e.words 2) 2 = false)
    (hp : ∀ k, e.post = some k → q.token k < 65535) (oc v : Nat) (ho : oc < 2 ^ 32) (hv : v < 2 ^ 32)
    (hl : oc = 1 ∨ q.syncLate e z.now = false) (hs : oc = 0 ∨ (bitAt (wordAt e.words 2) 0 = true ∧ oc ≤ 3)) (hv0 : oc ≠ 0 → v = 0) (v0 : Nat) (hvv : oc = 0 → v0 = v) :
    let s' := z.syncEnd t oc v0
    let a := fld (wordAt e.words 3) 0 14
    (s'.tile t).sync.q = rest ∧ (s'.tile t).seq.phase = q.seq.phase ∧
      if bitAt (wordAt e.words 3) 14 then
        (s'.tile t).seq.dmem.rdLE a 4 = oc ∧ (s'.tile t).seq.dmem.rdLE (a + 4) 4 = v
        ∧ ∀ x, x < a ∨ a + 8 ≤ x → (s'.tile t).seq.dmem.rd x = q.seq.dmem.rd x
      else (s'.tile t).seq.dmem = q.seq.dmem := by
  intro s' a
  have hw : (if oc == 0 || e.code == 4 then v0 else 0) = v := by
    by_cases h : oc = 0
    · simp [h, hvv h]
    · simp [h, hc, hv0 h]
  have hres : resOf e = (bitAt (wordAt e.words 3) 14, a) := by simp only [resOf, hc]; rfl
  have he : s' = z.runTile t (fun q =>
      let q := if bitAt (wordAt e.words 3) 14 then
          q.onSeq (fun z => { z with dmem := (z.dmem.wrLE a 4 oc).wrLE (a + 4) 4 v }) else q
      ({ q with sync := { q.sync with left := if q.sync.withdrawn.isSome then q.sync.left else none } } : Tile).retire 5 0) := by
    show z.syncEnd t oc v0 = _
    have hoc : (if decide (oc ≤ 3) && q.syncLate e z.now then 1 else oc) = oc := by
      rcases hl with h | h
      · rw [h]; split <;> rfl
      · simp [h]
    simp only [State.syncEnd, hz, hq, hi, hoc, Bool.not_true, Bool.false_eq_true, if_false, hres, hw]
    have hsoft : isSoft e = bitAt (wordAt e.words 2) 0 := by simp [isSoft, hc]
    rw [if_neg (by rcases hs with h | ⟨_, h⟩ <;> simp <;> omega), if_pos (by rw [hsoft]; rcases hs with h | ⟨h, h2⟩ <;> simp [h]; right; exact h2), if_neg (by simp [ht])]
  let un := fun (q : Tile) => ({ q with sync := { q.sync with left := if q.sync.withdrawn.isSome then q.sync.left else none } } : Tile)
  have key : ∀ q2 : Tile, q2.sync.q = e :: rest → q2.seq.tokens = q.seq.tokens → q2.seq.phase = q.seq.phase →
      ((un q2).retire 5 0).sync.q = rest ∧ ((un q2).retire 5 0).seq.phase = q.seq.phase
      ∧ ((un q2).retire 5 0).seq.dmem = q2.seq.dmem := by
    intro q2 h1 h2 h3
    have := sync_fin (q2 := un q2) (q := q) h1 h2 hp
    exact ⟨this.1, this.2.1.trans h3, this.2.2⟩
  rw [he]
  by_cases hb : bitAt (wordAt e.words 3) 14 = true
  · simp only [hb, if_true]
    have k := key (q.onSeq (fun z => { z with dmem := (z.dmem.wrLE a 4 oc).wrLE (a + 4) 4 v })) hq rfl rfl
    rw [runTile_eq' (by rw [hz]; exact hph) (by rw [hz]; exact k.2.1), State.tile_onTile, hz]
    refine ⟨k.1, k.2.1, ?_⟩
    rw [k.2.2]
    show Mem.rdLE ((q.seq.dmem.wrLE a 4 oc).wrLE (a + 4) 4 v) a 4 = oc ∧ _
    have hlen : ∀ n, (leBytes 4 n).length = 4 := by intro n; simp [leBytes]
    refine ⟨?_, ?_, ?_⟩
    · simp only [Mem.rdLE]
      rw [show (q.seq.dmem.wrLE a 4 oc).wrLE (a + 4) 4 v = (q.seq.dmem.wrLE a 4 oc).wrBytes (a + 4) (leBytes 4 v) from rfl,
        rdBytes_wrBytes_other _ _ _ _ _ (by omega)]
      have := Mem.rdLE_wrLE q.seq.dmem a 4 oc
      simp only [Mem.rdLE] at this
      rw [this]; exact Nat.mod_eq_of_lt (by simpa using ho)
    · show Mem.rdLE ((q.seq.dmem.wrLE a 4 oc).wrLE (a + 4) 4 v) (a + 4) 4 = v
      rw [Mem.rdLE_wrLE]; exact Nat.mod_eq_of_lt (by simpa using hv)
    · intro x hx
      show Mem.rd ((q.seq.dmem.wrBytes a (leBytes 4 oc)).wrBytes (a + 4) (leBytes 4 v)) x = _
      rw [Mem.rd_wrBytes_outside _ _ _ (by rw [hlen]; omega), Mem.rd_wrBytes_outside _ _ _ (by rw [hlen]; omega)]
  · simp only [hb, if_false]
    have k := key q hq rfl rfl
    rw [if_neg (by simp)]
    rw [runTile_eq' (by rw [hz]; exact hph) (by rw [hz]; simp; exact k.2.1), State.tile_onTile, hz]
    simp only [Bool.false_eq_true, if_false]
    exact k

/-- Closing the oldest open round when no participant is a round ahead (R298). -/
theorem close_even {b : Barrier} (h : ∀ x ∈ b.ahead, x.2 ≤ 1) (hw : ∀ w ∈ b.waits, w.round = some b.round) :
    b.close.1.round = (b.round + 1) % 2 ^ 32 ∧ (∀ x, b.close.1.next x = 0) ∧ b.close.1.waits = [] ∧ b.close.1.coreMask = b.coreMask
    ∧ b.close.1.dieMask = b.dieMask ∧ b.close.1.st = b.st ∧ b.close.2 = b.waits.map (fun w => (⟨w.src, 0, b.round⟩ : SyncResult)) := by
  have ha : b.ahead.filterMap (fun (e : Nat × Nat) => if e.2 ≤ 1 then none else some (e.1, e.2 - 1)) = [] := by
    rw [List.filterMap_eq_nil_iff]; intro x hx; simp [h x hx]
  have h1 : b.waits.filter (fun w => w.round != some b.round) = [] := by
    rw [List.filter_eq_nil_iff]; intro x hx; simp [hw x hx]
  have h2 : b.waits.filter (fun w => w.round == some b.round) = b.waits := by
    rw [List.filter_eq_self]; intro x hx; simp [hw x hx]
  simp only [Barrier.close, ha, h1, h2, Barrier.unblock, Barrier.roundAt, List.append_nil]
  refine ⟨trivial, ?_, trivial, trivial, trivial, trivial, trivial⟩
  intro x; rfl

/-- A round is not full while no participant is ahead (R298). -/
theorem not_full {b : Barrier} {k : Nat} (h : ∀ x, b.next x = 0) (hp : b.parts ≠ []) : b.full k = false := by
  obtain ⟨c, r, hc⟩ := List.exists_cons_of_ne_nil hp
  simp only [Barrier.full, hc, List.all_cons, h]
  simp

/-- A barrier record reads back from where it was put. -/
theorem bar_setBar (s : State) (i : Nat) (b : Option Barrier) : (s.setBar i b).bar i = b := Tab.get_set_self _ _ _

/-- Fetching a line sends a request and nothing else (R374). -/
theorem fetchLine_mild (agent job stop : Nat) (s : State) (line : Nat) : Mild s (State.fetchLine agent job stop s line) := by
  have hc : ∀ b : Bool, Mild s (if b then s.count 5 1 else s) := by
    intro b; split
    · exact count_mild ..
    · exact Mild.refl s
  simp only [State.fetchLine]
  split
  · exact Mild.refl s
  split
  · exact ((rdc_mild s _).trans (count_mild _ _ _)).trans (rdc_mild _ _)
  · refine (hc (s.rdcOn && !isHostAddr (256 * line))).trans ?_
    generalize (if (s.rdcOn && !isHostAddr (256 * line)) = true then s.count 5 1 else s) = z
    split
    · exact (request_mild ..).trans (rdc_mild _ _)
    · exact (rdc_mild z _).trans (event_mild _ _)

/-- Fetching lines sends requests and nothing else (R374). -/
theorem fetch_mild (s : State) (agent job stop addr len : Nat) : Mild s (s.fetch agent job stop addr len) := by
  simp only [State.fetch]
  split
  · exact Mild.refl s
  · exact Mild.foldl _ _ (fetchLine_mild agent job stop) s

/-- What an agent needs is asked for with requests and nothing else (R374). -/
theorem need_mild (s : State) (g : Agent) (agent : Nat) (wr : Bool) (addr len : Nat) : Mild s (s.need g agent wr addr len).1 := by
  simp only [State.need]
  split
  · exact Mild.refl s
  · exact Mild.refl s
  · split
    · exact Mild.refl s
    · exact fetch_mild ..

/-- Dropping what an agent has fetched changes nothing else. -/
theorem dropFetch_mild (s : State) (agent : Nat) : Mild s (s.dropFetch agent) := rdc_mild s _

end Sys2Proof.Machine
end

