-- ==== Sys2Proof/Laws/Stops.lean ====
section
/-!
SUPPORT. How a core program stops (spec/02_core_and_sequencer.md R61): its windows close, its credits and sync commands are withdrawn,
and what the sequencer, the arrays, the vector unit and the row engine of every tile hold stays as the stop left it.
-/

set_option Elab.async false

namespace Sys2Proof.Machine

open Sys2Proof

/-- A descriptor without its grant and transfer. -/
def Desc.bare (d : Desc) : Desc := { d with grant := none, xfer := none }

/-- A change that touches credits, scratchpad fills, sync waits, packets and events, and nothing else of the die's work. -/
structure Quiet (s s' : State) : Prop where
  seq : ∀ u, (s'.tile u).seq = (s.tile u).seq
  ma0 : ∀ u, (s'.tile u).ma0 = (s.tile u).ma0
  ma1 : ∀ u, (s'.tile u).ma1 = (s.tile u).ma1
  vec : ∀ u, (s'.tile u).vec = (s.tile u).vec
  row : ∀ u, (s'.tile u).row = (s.tile u).row
  owner : ∀ u, (s'.tile u).spad.owner = (s.tile u).spad.owner ∧ (s'.tile u).spad.sealed = (s.tile u).spad.sealed
  dmaLen : ∀ u, (s'.tile u).dma.q.length = (s.tile u).dma.q.length
  descs : s'.qm.descs.map Desc.bare = s.qm.descs.map Desc.bare
  streams : s'.qm.streams = s.qm.streams
  jobs : s'.qm.jobs = s.qm.jobs
  rings : s'.qm.rings = s.qm.rings
  frames : s'.qm.frames = s.qm.frames
  cores : s'.kw.cores = s.kw.cores
  tileSts : s'.kw.tiles = s.kw.tiles
  cfg : s'.cfg = s.cfg
  mgmt : s'.mgmt = s.mgmt
  pkg : s'.pkg = s.pkg
  sec : s'.sec = s.sec
  bw : s'.bw = s.bw
  time : s'.time = s.time
  fuses : s'.fuses = s.fuses
  pending : s'.pending = s.pending

theorem Quiet.refl (s : State) : Quiet s s := by constructor <;> intros <;> first | rfl | exact ⟨rfl, rfl⟩

theorem Quiet.trans {a b c : State} (h : Quiet a b) (k : Quiet b c) : Quiet a c where
  seq := fun u => (k.seq u).trans (h.seq u)
  ma0 := fun u => (k.ma0 u).trans (h.ma0 u)
  ma1 := fun u => (k.ma1 u).trans (h.ma1 u)
  vec := fun u => (k.vec u).trans (h.vec u)
  row := fun u => (k.row u).trans (h.row u)
  owner := fun u => ⟨(k.owner u).1.trans (h.owner u).1, (k.owner u).2.trans (h.owner u).2⟩
  dmaLen := fun u => (k.dmaLen u).trans (h.dmaLen u)
  descs := k.descs.trans h.descs
  streams := k.streams.trans h.streams
  jobs := k.jobs.trans h.jobs
  rings := k.rings.trans h.rings
  frames := k.frames.trans h.frames
  cores := k.cores.trans h.cores
  tileSts := k.tileSts.trans h.tileSts
  cfg := k.cfg.trans h.cfg
  mgmt := k.mgmt.trans h.mgmt
  pkg := k.pkg.trans h.pkg
  sec := k.sec.trans h.sec
  bw := k.bw.trans h.bw
  time := k.time.trans h.time
  fuses := k.fuses.trans h.fuses
  pending := k.pending.trans h.pending

theorem Quiet.foldl {β : Type} (l : List β) (g : State → β → State) (h : ∀ s x, Quiet s (g s x)) (s : State) :
    Quiet s (l.foldl g s) := by
  induction l generalizing s with
  | nil => exact Quiet.refl s
  | cons x r ih => exact (h s x).trans (ih _)

theorem Mild.quiet {s s' : State} (h : Mild s s') : Quiet s s' where
  seq := fun u => by simp only [State.tile, h.tiles]
  ma0 := fun u => by simp only [State.tile, h.tiles]
  ma1 := fun u => by simp only [State.tile, h.tiles]
  vec := fun u => by simp only [State.tile, h.tiles]
  row := fun u => by simp only [State.tile, h.tiles]
  owner := fun u => by simp only [State.tile, h.tiles]; exact ⟨trivial, trivial⟩
  dmaLen := fun u => by simp only [State.tile, h.tiles]
  descs := by rw [h.descs]
  streams := h.streams
  jobs := h.jobs
  rings := h.rings
  frames := h.frames
  cores := h.cores
  tileSts := h.tileSts
  cfg := h.cfg
  mgmt := h.mgmt
  pkg := h.pkg
  sec := h.sec
  bw := h.bw
  time := h.time
  fuses := h.fuses
  pending := h.pending

/-- A change of one tile that leaves its sequencer, arrays, vector unit and row engine alone. -/
structure Tile.Calm (q q' : Tile) : Prop where
  seq : q'.seq = q.seq
  ma0 : q'.ma0 = q.ma0
  ma1 : q'.ma1 = q.ma1
  vec : q'.vec = q.vec
  row : q'.row = q.row
  owner : q'.spad.owner = q.spad.owner ∧ q'.spad.sealed = q.spad.sealed
  dmaLen : q'.dma.q.length = q.dma.q.length

theorem Tile.Calm.refl (q : Tile) : Tile.Calm q q := ⟨rfl, rfl, rfl, rfl, rfl, ⟨rfl, rfl⟩, rfl⟩

theorem Tile.Calm.trans {a b c : Tile} (h : Tile.Calm a b) (k : Tile.Calm b c) : Tile.Calm a c :=
  ⟨k.seq.trans h.seq, k.ma0.trans h.ma0, k.ma1.trans h.ma1, k.vec.trans h.vec, k.row.trans h.row,
    ⟨k.owner.1.trans h.owner.1, k.owner.2.trans h.owner.2⟩, k.dmaLen.trans h.dmaLen⟩

theorem Tile.Calm.foldl {β : Type} (l : List β) (g : Tile → β → Tile) (h : ∀ q x, Tile.Calm q (g q x)) (q : Tile) :
    Tile.Calm q (l.foldl g q) := by
  induction l generalizing q with
  | nil => exact Tile.Calm.refl q
  | cons x r ih => exact (h q x).trans (ih _)

theorem onTile_quiet (s : State) (t : Nat) (f : Tile → Tile) (h : ∀ q, Tile.Calm q (f q)) : Quiet s (s.onTile t f) := by
  have e : ∀ u, Tile.Calm (s.tile u) ((s.onTile t f).tile u) := by
    intro u
    by_cases hu : u = t
    · subst hu; rw [State.tile_onTile]; exact h _
    · rw [State.tile_onTile_other _ hu]; exact Tile.Calm.refl _
  exact { seq := fun u => (e u).seq, ma0 := fun u => (e u).ma0, ma1 := fun u => (e u).ma1, vec := fun u => (e u).vec
          row := fun u => (e u).row, owner := fun u => (e u).owner, dmaLen := fun u => (e u).dmaLen, descs := rfl, streams := rfl, jobs := rfl, rings := rfl
          frames := rfl, cores := rfl, tileSts := rfl, cfg := rfl, mgmt := rfl, pkg := rfl, sec := rfl, bw := rfl, time := rfl
          fuses := rfl, pending := rfl }

/-- A change of every listed tile. -/
theorem mapTiles_calm (s s' : State) (f : Tile → Tile) (h : ∀ q, Tile.Calm q (f q))
    (hs : s'.tiles = s.tiles.map (fun e => (e.1, f e.2))) (u : Nat) : Tile.Calm (s.tile u) (s'.tile u) := by
  simp only [State.tile, hs]
  induction s.tiles with
  | nil => exact Tile.Calm.refl _
  | cons x r ih =>
    simp only [List.map_cons, Tab.get]
    split
    · exact h _
    · exact ih

theorem resetFill_calm (q : Tile) (k : Nat) : Tile.Calm q (q.resetFill k) := by
  simp only [Tile.resetFill]; split
  · exact ⟨rfl, rfl, rfl, rfl, rfl, ⟨rfl, rfl⟩, rfl⟩
  · exact Tile.Calm.refl q

theorem onDma_calm (q : Tile) (f : Dma → Dma) (h : ∀ d, (f d).q.length = d.q.length) : Tile.Calm q (q.onDma f) :=
  ⟨rfl, rfl, rfl, rfl, rfl, ⟨rfl, rfl⟩, h _⟩

theorem takeCredits_calm (q : Tile) (f : Granted → Bool) : Tile.Calm q (q.takeCredits f) := by
  simp only [Tile.takeCredits]
  refine Tile.Calm.trans (onDma_calm q _ ?_) (Tile.Calm.foldl _ _ ?_ _)
  · intro d; rfl
  intro q x; exact resetFill_calm ..

/-- A state whose tiles and descriptors have changed quietly. -/
theorem quiet_of (s : State) (tiles : Tab Tile) (ds : List Desc)
    (ht : ∀ u, Tile.Calm (s.tile u) (({ s with tiles := tiles } : State).tile u)) (hd : ds.map Desc.bare = s.qm.descs.map Desc.bare) :
    Quiet s { s with tiles := tiles, qm := { s.qm with descs := ds } } where
  seq := fun u => (ht u).seq
  ma0 := fun u => (ht u).ma0
  ma1 := fun u => (ht u).ma1
  vec := fun u => (ht u).vec
  row := fun u => (ht u).row
  owner := fun u => (ht u).owner
  dmaLen := fun u => (ht u).dmaLen
  descs := hd
  streams := rfl
  jobs := rfl
  rings := rfl
  frames := rfl
  cores := rfl
  tileSts := rfl
  cfg := rfl
  mgmt := rfl
  pkg := rfl
  sec := rfl
  bw := rfl
  time := rfl
  fuses := rfl
  pending := rfl

theorem answerCredit_quiet (s : State) (r : CredReq) (ans tgt : Nat) (g : Option Grant) (first : Nat) :
    Quiet s (s.answerCredit r ans tgt g first) := by
  simp only [State.answerCredit]
  cases r.port with
  | some x =>
    cases g with
    | some y => exact (reply_mild ..).quiet
    | none => exact (reply_mild ..).quiet
  | none =>
    simp only
    by_cases h : r.who.stop < Config.tiles
    · rw [if_pos h]; exact onTile_quiet _ _ _ (fun q => onDma_calm _ _ (fun _ => by simp))
    · rw [if_neg h]
      refine quiet_of s s.tiles _ (fun u => Tile.Calm.refl _) ?_
      rw [List.map_map]
      apply List.map_congr_left
      intro d _
      simp only [Function.comp]
      repeat' split
      all_goals rfl

theorem revoke_quiet (s : State) (t window : Nat) : Quiet s (s.revoke t window) := by
  simp only [State.revoke]
  refine quiet_of s _ _ (fun u => mapTiles_calm s _ _ (fun q => onDma_calm _ _ (fun _ => by simp)) rfl u) ?_
  rw [List.map_map]
  apply List.map_congr_left
  intro d _
  rfl

theorem closeWindow_quiet (s : State) (t window ans : Nat) : Quiet s (s.closeWindow t window ans) := by
  simp only [State.closeWindow]
  refine Quiet.trans (onTile_quiet s t _ ?_) (Quiet.trans (revoke_quiet _ _ _) (Quiet.foldl _ _ (fun s r => answerCredit_quiet ..) _))
  intro q; refine Tile.Calm.trans (onDma_calm q _ ?_) (takeCredits_calm _ _)
  intro d; rfl

theorem closeWindows_quiet (s : State) (t ans : Nat) : Quiet s (s.closeWindows t ans) :=
  Quiet.foldl _ _ (fun s w => closeWindow_quiet s t w ans) s

theorem returnCredits_quiet (s : State) (w : Writer) : Quiet s (s.returnCredits w) := by
  simp only [State.returnCredits]
  exact quiet_of s _ s.qm.descs (fun u => mapTiles_calm s _ _ (fun q => takeCredits_calm q _) rfl u) rfl

theorem dropHandle_quiet (s : State) (t handle : Nat) : Quiet s (s.dropHandle t handle) := by
  simp only [State.dropHandle]
  split
  · exact Quiet.refl s
  · refine Quiet.trans ?_ (onTile_quiet _ t _ (fun q => onDma_calm _ _ (fun _ => by simp)))
    split
    · exact returnCredits_quiet ..
    · split
      · exact Quiet.refl s
      · exact (request_mild ..).quiet

theorem dropHandles_quiet (s : State) (t : Nat) : Quiet s (s.dropHandles t) := by
  simp only [State.dropHandles]
  refine Quiet.foldl _ _ ?_ s
  intro s h; split
  · exact Quiet.refl s
  · exact dropHandle_quiet ..

theorem dropRequests_quiet (s : State) (t : Nat) : Quiet s (s.dropRequests t) := by
  simp only [State.dropRequests]
  exact quiet_of s _ s.qm.descs (fun u => mapTiles_calm s _ _ (fun q => onDma_calm _ _ (fun _ => by simp)) rfl u) rfl

theorem letGo_quiet (s : State) (t ans : Nat) : Quiet s (s.letGo t ans) :=
  ((closeWindows_quiet s t ans).trans (dropRequests_quiet _ _)).trans (dropHandles_quiet _ _)

theorem dropSrcs_quiet (s : State) (p : SyncSrc → Bool) : Quiet s (s.dropSrcs p) := by
  constructor <;> intros <;> first | rfl | exact ⟨rfl, rfl⟩

theorem askWithdraw_quiet (s : State) (tag : Nat) (o : OpenTx) : Quiet s (s.askWithdraw tag o) := by
  simp only [State.askWithdraw]
  split
  · exact (request_mild ..).quiet
  · exact Quiet.refl s

/-- Withdrawing sync commands leaves the tiles' own work alone (R300, R566). -/
theorem withdraw_quiet (s : State) (p : SyncSrc → Bool) (uid : Option Nat) : Quiet s (s.withdraw p uid) := by
  simp only [State.withdraw]
  refine ((dropSrcs_quiet s p).trans (rdc_mild (s.dropSrcs p) _).quiet).trans (Quiet.foldl _ _ (fun s (x : Nat × OpenTx) => askWithdraw_quiet s x.1 x.2) _)

theorem syncStop_quiet (s : State) (t : Nat) : Quiet s (s.syncStop t) :=
  (withdraw_quiet s _ _).trans (onTile_quiet _ _ _ (fun _ => ⟨rfl, rfl, rfl, rfl, rfl, ⟨rfl, rfl⟩, rfl⟩))

theorem faultEvent_mild (s : State) (t : Nat) : Mild s (s.faultEvent t) := by
  simp only [State.faultEvent]; split
  · exact event_mild ..
  · exact Mild.refl s

/-- A program fault stops the sequencer and leaves its pc, registers, data memory and counts alone (R61). -/
theorem progFault_seq (q : Tile) (c n : Nat) (h : q.live = true) :
    (q.progFault c n).seq = { q.seq with
      phase := .faulted c, faultInfo := n, stall := none, halted := false, stepping := false, haltReq := false, twait := none } := by
  simp only [Tile.progFault, h, if_true, Tile.clearMine, Tile.dropUnstarted]
  have : ∀ (l : List Nat) (q : Tile) (keep : Nat → List QEntry → List QEntry), (l.foldl (fun q e => q.onQueue e (keep e)) q).seq = q.seq := by
    intro l; induction l with
    | nil => intro q keep; rfl
    | cons x r ih =>
      intro q keep; simp only [List.foldl_cons]; rw [ih]
      simp only [Tile.onQueue]; repeat' split
      all_goals rfl
  show (List.foldl _ _ _ : Tile).seq = _
  exact this _ _ (fun e => if e < 2 then keepStarted else List.filter QEntry.started)

/-- An outcome of a descriptor that has none. -/
theorem hitDesc_descs (s : State) (uid cause tile : Nat) : (s.hitDesc uid cause tile).qm.descs = s.qm.descs.map (fun d =>
    if d.uid == uid then (if d.outcome.isSome then d else { d with outcome := some (statusOf cause, cause, tile) }) else d) := rfl

/-- What is found among the descriptors is one of them. -/
theorem descOf_mem {s : State} {t : Nat} {d : Desc} (h : s.descOf t = some d) : d ∈ s.qm.descs := by
  simp only [State.descOf] at h
  split at h
  · simp at h
  · exact List.mem_of_find?_eq_some h

/-- A descriptor of the same bare form. -/
theorem bare_mem {l l' : List Desc} (h : l'.map Desc.bare = l.map Desc.bare) {d : Desc} (hd : d ∈ l) :
    ∃ d' ∈ l', d'.bare = d.bare := by
  have : d.bare ∈ l'.map Desc.bare := by rw [h]; exact List.mem_map_of_mem hd
  simpa using this

/-- A program fault on a tile whose program is under way (R61): the tile stops, and its descriptor takes the outcome. -/
theorem runTile_fault {s : State} {t : Nat} {f : Tile → Tile} {c n : Nat} {q1 : Tile} (hl : (s.tile t).live = true)
    (hf : f (s.tile t) = q1.progFault c n ∨ f (s.tile t) = (q1.progFault c n).onSeq Seq.retired)
    (h1 : q1.live = true) (hs : q1.seq.stream = (s.tile t).seq.stream) (hn : q1.seq.seqNo = (s.tile t).seq.seqNo) :
    ((s.runTile t f).tile t).stoppedBy q1 c n ∧ s.givesOutcome (s.runTile t f) t (statusOf c) c := by
  have hnf : (s.tile t).isFaulted = false := by
    simp only [Tile.live, Bool.or_eq_true, beq_iff_eq] at hl
    simp only [Tile.isFaulted]
    rcases hl with (e | e) | e <;> simp [e]
  have hseq : ∃ st, (f (s.tile t)).seq = { q1.seq with
      phase := .faulted c, faultInfo := n, stall := none, halted := false, stepping := false, haltReq := false, twait := none, stallNs := st } := by
    rcases hf with e | e
    · exact ⟨_, by rw [e]; exact progFault_seq _ _ _ h1⟩
    · exact ⟨0, by rw [e]; exact (congrArg Seq.retired (progFault_seq _ c n h1))⟩
  obtain ⟨st, hseq⟩ := hseq
  have ht : ((s.onTile t f).tile t) = f (s.tile t) := State.tile_onTile ..
  have hph : ((s.onTile t f).tile t).seq.phase = .faulted c := by rw [ht, hseq]
  simp only [State.runTile, hnf, hph, Bool.false_eq_true, if_false]
  have hq : ∀ z : State, Quiet z ((((z.faultEvent t).letGo t 2).syncStop t)) := by
    intro z
    exact ((faultEvent_mild z t).quiet.trans (letGo_quiet _ _ _)).trans (syncStop_quiet _ _)
  have hidle : (s.tile t).seq.phase ≠ .idle := by
    simp only [Tile.live, Bool.or_eq_true, beq_iff_eq] at hl
    rcases hl with (e | e) | e <;> simp [e]
  have hdesc : (s.onTile t f).descOf t = s.descOf t := by
    simp only [State.descOf, ht, hseq, hs, hn, State.onTile_qm]
    rw [if_neg (by simp), if_neg (by simpa using hidle)]
  constructor
  · have key : ∀ z : State, (z.tile t).seq = (f (s.tile t)).seq →
        (((((z.faultEvent t).letGo t 2).syncStop t)).tile t).stoppedBy q1 c n := by
      intro z hz
      have e := (hq z).seq t
      refine ⟨?_, ?_, ?_, ?_, ?_⟩ <;> rw [e, hz, hseq]
    split
    · exact key _ (by simp only [State.tile, (State.hitDesc_frame ..).1]; exact congrArg Tile.seq ht)
    · exact key _ (congrArg Tile.seq ht)
  · intro d hd ho
    rw [hdesc, hd]
    simp only
    have hm : d ∈ s.qm.descs := descOf_mem hd
    have hm2 : ({ d with outcome := some (statusOf c, c, t) } : Desc) ∈ ((s.onTile t f).hitDesc d.uid c t).qm.descs := by
      rw [hitDesc_descs, List.mem_map]
      exact ⟨d, hm, by simp [ho]⟩
    obtain ⟨d', hd', hb⟩ := bare_mem (hq _).descs hm2
    refine ⟨d', hd', ?_, ?_⟩
    · have := congrArg Desc.uid hb; exact this
    · have := congrArg Desc.outcome hb; exact this

/-- A queue-manager report leaves the die's work alone (R364). -/
theorem poisonEvent_quiet (s : State) (e : Ev) (a : Nat) : Quiet s (s.poisonEvent e a) := by
  simp only [State.poisonEvent]
  refine Quiet.trans (b := { s with flt := { s.flt with poison := true, poisonCount := satAdd s.flt.poisonCount 1 } }) ?_ (event_mild _ _).quiet
  constructor <;> intros <;> first | rfl | exact ⟨rfl, rfl⟩

theorem qmRefuse_quiet (s : State) (e : Ev) (a r : Nat) : Quiet s (s.qmRefuse e a r) := by
  simp only [State.qmRefuse]; split
  · exact poisonEvent_quiet ..
  · exact (denied_mild ..).quiet

theorem tableRefuse_quiet (s : State) (a r : Nat) : Quiet s (s.tableRefuse a r) := by
  simp only [State.tableRefuse]
  refine Quiet.trans (b := { s with qm := { s.qm with tableErr := true } }) ?_ (qmRefuse_quiet ..)
  constructor <;> intros <;> first | rfl | exact ⟨rfl, rfl⟩

theorem wrTable_quiet (s : State) (a : Nat) (bs : List Byte) : Quiet s (s.wrTable a bs) := by
  simp only [State.wrTable]; split
  · exact tableRefuse_quiet ..
  · exact (wrPkg_mild ..).quiet

theorem writeRing_quiet (s : State) (x : Stream) : Quiet s (s.writeRing x) := by
  unfold State.writeRing
  generalize s.qmBase 0x2008 + 16 * x.ring + 0x0A = a
  split
  · exact wrTable_quiet ..
  · exact Quiet.refl s

theorem writeBack_quiet (s : State) (k : Nat) : Quiet s (s.writeBack k) := by
  unfold State.writeBack
  generalize s.qmBase 0x200C + 128 * k + 0x20 = a
  split
  · exact Quiet.refl s
  · exact (wrTable_quiet ..).trans (writeRing_quiet ..)

/-- Settling a stream keeps the saved frames (R331). -/
theorem settle_keeps_frames (s : State) (k : Nat) : (s.settle k).qm.frames = s.qm.frames := by
  have os : ∀ (s : State) k f, (s.onStream k f).qm.frames = s.qm.frames := by
    intro s k f; simp only [State.onStream]; split <;> rfl
  have rw' : ∀ (s : State) k, (s.rewind k).qm.frames = s.qm.frames := by
    intro s k; simp only [State.rewind]; split
    · rfl
    · rw [os]
  have wb : ∀ (s : State) k, (s.writeBack k).qm.frames = s.qm.frames := fun s k => (writeBack_quiet s k).frames
  have sr : ∀ (s : State) k, (s.startRejected k).qm.frames = s.qm.frames := by
    intro s k; simp only [State.startRejected]; repeat' split
    all_goals rfl
  unfold State.settle
  split
  · rfl
  · dsimp only
    repeat' split
    all_goals simp only [wb, os, rw', sr]

/-- The checks at issue leave the queues, the sequencer and the scratchpad alone. -/
theorem issueCheck_frame {lvl eng : Nat} {q q' : Tile} {e e' : QEntry} (h : issueCheck lvl eng q e = .ok (q', e')) :
    (∀ k, q'.queue k = q.queue k) ∧ q'.seq = q.seq ∧ q'.spad = q.spad := by
  have sync : ∀ {e' q'}, issueSync q e = .ok (q', e') → q' = q := by
    intro e' q' h
    simp only [issueSync] at h
    split at h <;> repeat' (split at h)
    all_goals simp_all
  have onArr : ∀ (ma : Bool) (f : Arr → Arr), (∀ a, (f a).q = a.q) → (∀ k, (q.onArr ma f).queue k = q.queue k) ∧ (q.onArr ma f).seq = q.seq ∧ (q.onArr ma f).spad = q.spad := by
    intro ma f hf
    refine ⟨?_, by cases ma <;> rfl, by cases ma <;> rfl⟩
    intro k
    match k with
    | 0 => cases ma <;> simp [Tile.onArr, Tile.queue, hf]
    | 1 => cases ma <;> simp [Tile.onArr, Tile.queue, hf]
    | 2 => cases ma <;> rfl
    | 3 => cases ma <;> rfl
    | 4 => cases ma <;> rfl
    | 5 => cases ma <;> rfl
    | n + 6 => cases ma <;> rfl
  have arr : ∀ {ma e' q'}, issueArray lvl ma q e = .ok (q', e') → (∀ k, q'.queue k = q.queue k) ∧ q'.seq = q.seq ∧ q'.spad = q.spad := by
    intro ma e' q' h
    simp only [issueArray] at h
    split at h <;> repeat' (split at h)
    all_goals first | (simp at h; done) | (simp only [Except.ok.injEq, Prod.mk.injEq] at h; obtain ⟨rfl, _⟩ := h; first | exact ⟨fun _ => rfl, rfl, rfl⟩ | exact onArr _ _ (fun _ => rfl))
  have row : ∀ {e' q'}, issueRow q e = .ok (q', e') → (∀ k, q'.queue k = q.queue k) ∧ q'.seq = q.seq ∧ q'.spad = q.spad := by
    intro e' q' h
    simp only [issueRow] at h
    split at h <;> repeat' (split at h)
    all_goals first | (simp at h; done) | (simp only [Except.ok.injEq, Prod.mk.injEq] at h; obtain ⟨rfl, _⟩ := h; refine ⟨?_, rfl, rfl⟩; intro k; simp only [Tile.queue])
  have vec : ∀ {e' q'}, issueVec q e = .ok (q', e') → (∀ k, q'.queue k = q.queue k) ∧ q'.seq = q.seq ∧ q'.spad = q.spad := by
    intro e' q' h
    simp only [issueVec] at h
    split at h
    · simp at h
    · split at h <;> repeat' (split at h)
      all_goals first | (simp at h; done) | (simp only [Except.ok.injEq, Prod.mk.injEq] at h; obtain ⟨rfl, _⟩ := h; refine ⟨?_, rfl, rfl⟩; intro k; simp only [Tile.queue])
  have dma : ∀ {e' q'}, issueDma q e = .ok (q', e') → q' = q := by
    intro e' q' h
    simp only [issueDma] at h
    split at h <;> repeat' (split at h)
    all_goals first | (simp at h; done) | (simp only [Except.ok.injEq, Prod.mk.injEq] at h; exact h.1.symm)
  match eng, h with
  | 0, h => exact arr h
  | 1, h => exact arr h
  | 2, h => exact vec h
  | 3, h => exact row h
  | 4, h => rw [dma h]; exact ⟨fun _ => rfl, rfl, rfl⟩
  | 5, h => rw [sync h]; exact ⟨fun _ => rfl, rfl, rfl⟩

/-- An `ISSUE` command's meaning (R47). -/
theorem issue_exec {c : Instr} {t eng cd : Nat} {ia : IssueArgs} (s : State) (h : issueSpec c = some (t, eng, cd, ia))
    (ho : issueOpOk c (issueWords (s.tile t) ia) = true) (ht : isTile t = true) :
    exec c s = .next (s.issue t eng (!issuePastEnd ia) (fun q => issueEntry q cd ia)) := by
  cases c
  all_goals first | (simp [issueSpec] at h; done) | skip
  all_goals (simp only [issueSpec, Option.some.injEq, Prod.mk.injEq] at h; obtain ⟨rfl, rfl, rfl, rfl⟩ := h)
  all_goals first
    | exact if_pos ht
    | (simp only [issueOpOk, issueOpField, beq_iff_eq] at ho
       refine Eq.trans (if_pos ht) (congrArg Host.Outcome.next (if_pos ?_))
       simp only [slotOpOf, signalOpOf, ho]; rfl)

/-- An executing instruction that raises a program fault (R61). -/
theorem instr_fault {s : State} {t : Nat} (h : s.executes t = true) (f : Tile → Tile) {q1 : Tile} {c n : Nat}
    (hf : f (s.tile t) = q1.progFault c n) (hs : q1.seq = (s.tile t).seq) :
    ∃ s', instrOn t f s = .next s' ∧ (s'.tile t).stoppedBy (s.tile t) c n ∧ s.givesOutcome s' t (statusOf c) c := by
  obtain ⟨h1, h2, h3, h4, h5⟩ := executes_iff h
  have hl : (s.tile t).live = true := by simp [Tile.live, h5]
  have hl1 : q1.live = true := by simp only [Tile.live, hs]; exact hl
  obtain ⟨a, b⟩ := runTile_fault (s := s) (t := t) (f := fun q => (f q).onSeq Seq.retired) (c := c) (n := n)
    (q1 := q1) hl (Or.inr (by simp only [hf])) hl1 (by rw [hs]) (by rw [hs])
  refine ⟨_, ?_, ?_, b⟩
  · simp only [instrOn, onUnit, h1, State.instr, h2, h3, h4]; rfl
  · obtain ⟨a1, a2, a3, a4, a5⟩ := a
    exact ⟨a1, a2, by rw [a3, hs], by rw [a4, hs], by rw [a5, hs]⟩

/-- A `VEC` command's meaning (R180). -/
theorem vec_exec {c : Instr} {t vop : Nat} {v : VecArgs} (s : State) (h : vecSpec c = some (t, vop, v)) (ht : isTile t = true) :
    exec c s = .next (s.issue t 2 true (fun q => vecEntry q vop v)) := by
  cases c
  all_goals first | (simp [vecSpec] at h; done) | skip
  all_goals (simp only [vecSpec, Option.some.injEq, Prod.mk.injEq] at h; obtain ⟨rfl, rfl, rfl⟩ := h)
  all_goals exact if_pos ht

/-- Each engine has its own queue. -/
theorem onQueue_queue {q : Tile} {eng k : Nat} (he : eng < 6) (f : List QEntry → List QEntry) :
    (q.onQueue eng f).queue k = if k = eng then f (q.queue k) else q.queue k := by
  match eng, he with
  | 0, _ => match k with
    | 0 => rfl | 1 => rfl | 2 => rfl | 3 => rfl | 4 => rfl | 5 => rfl | n + 6 => rfl
  | 1, _ => match k with
    | 0 => rfl | 1 => rfl | 2 => rfl | 3 => rfl | 4 => rfl | 5 => rfl | n + 6 => rfl
  | 2, _ => match k with
    | 0 => rfl | 1 => rfl | 2 => rfl | 3 => rfl | 4 => rfl | 5 => rfl | n + 6 => rfl
  | 3, _ => match k with
    | 0 => rfl | 1 => rfl | 2 => rfl | 3 => rfl | 4 => rfl | 5 => rfl | n + 6 => rfl
  | 4, _ => match k with
    | 0 => rfl | 1 => rfl | 2 => rfl | 3 => rfl | 4 => rfl | 5 => rfl | n + 6 => rfl
  | 5, _ => match k with
    | 0 => rfl | 1 => rfl | 2 => rfl | 3 => rfl | 4 => rfl | 5 => rfl | n + 6 => rfl

/-- A command whose checks pass enters its queue (R48, R49). -/
theorem enterQueue_ok {lvl eng : Nat} {e e' : QEntry} {q q' : Tile} (he : eng < 6) (h : issueCheck lvl eng q e = .ok (q', e'))
    (hm : q.more = true) :
    (enterQueue lvl eng e q).queue eng = q.queue eng ++ [e'.captured q.seq]
    ∧ (∀ k, k ≠ eng → (enterQueue lvl eng e q).queue k = q.queue k)
    ∧ (enterQueue lvl eng e q).seq = { q.seq with pc := q.seq.pc + 1, issued := q.seq.issued + 1 }
    ∧ (enterQueue lvl eng e q).spad = q.spad := by
  obtain ⟨f1, f2, f3⟩ := issueCheck_frame h
  have rel : ∀ z : Tile, (∀ k, (relAfterIssue eng z).queue k = z.queue k) ∧ (relAfterIssue eng z).seq = z.seq ∧ (relAfterIssue eng z).spad = z.spad := by
    intro z
    have hr : ∀ a : Arr, a.relChannel.q = a.q := by
      intro a
      simp only [Arr.relChannel]
      repeat' split
      all_goals rfl
    simp only [relAfterIssue]
    split
    · refine ⟨?_, rfl, rfl⟩
      intro k
      match k with
      | 0 => exact hr _ | 1 => rfl | 2 => rfl | 3 => rfl | 4 => rfl | 5 => rfl | n + 6 => rfl
    · refine ⟨?_, rfl, rfl⟩
      intro k
      match k with
      | 0 => rfl | 1 => exact hr _ | 2 => rfl | 3 => rfl | 4 => rfl | 5 => rfl | n + 6 => rfl
    · exact ⟨fun _ => rfl, rfl, rfl⟩
  simp only [enterQueue, h]
  let z := (q'.onQueue eng (· ++ [{ e' with
        uid := q.seq.issued, cfg := q.seq.coreCfg, seed := q.seq.seed, taken := e'.wait.isNone }])).onSeq
      (fun z => { z with issued := z.issued + 1 })
  have zs : z.seq = { q.seq with issued := q.seq.issued + 1 } := by
    show ({ (q'.onQueue eng _).seq with issued := (q'.onQueue eng _).seq.issued + 1 } : Seq) = _
    have : ∀ f, (q'.onQueue eng f).seq = q.seq := by
      intro f; rw [← f2]; simp only [Tile.onQueue]; split <;> rfl
    rw [this]
  have zp : z.spad = q.spad := by
    show (q'.onQueue eng _).spad = _
    rw [← f3]; simp only [Tile.onQueue]; split <;> rfl
  obtain ⟨r1, r2, r3⟩ := rel z
  let w := relAfterIssue eng z
  have adv : w.advance = { w with seq := { w.seq with pc := q.seq.pc + 1 } } := by
    have hw : w.seq.pc = q.seq.pc := by rw [r2, zs]
    rw [advance_more, hw]
    simp only [Tile.more, w, r2, zs]; exact hm
  have zq : ∀ k, z.queue k = (q'.onQueue eng (· ++ [{ e' with
        uid := q.seq.issued, cfg := q.seq.coreCfg, seed := q.seq.seed, taken := e'.wait.isNone }])).queue k := by
    intro k
    match k with
    | 0 => rfl | 1 => rfl | 2 => rfl | 3 => rfl | 4 => rfl | 5 => rfl | n + 6 => rfl
  have aq : ∀ (y : Tile) n k, ({ y with seq := { y.seq with pc := n } } : Tile).queue k = y.queue k := by
    intro y n k
    match k with
    | 0 => rfl | 1 => rfl | 2 => rfl | 3 => rfl | 4 => rfl | 5 => rfl | n + 6 => rfl
  show w.advance.queue eng = _ ∧ (∀ k, k ≠ eng → w.advance.queue k = _) ∧ w.advance.seq = _ ∧ w.advance.spad = _
  rw [adv]
  refine ⟨?_, ?_, ?_, ?_⟩
  · rw [aq, r1, zq, onQueue_queue he, if_pos rfl, f1]; rfl
  · intro k hk; rw [aq, r1, zq, onQueue_queue he, if_neg hk, f1]
  · show ({ (relAfterIssue eng z).seq with pc := _ } : Seq) = _
    rw [r2, zs]
  · show (relAfterIssue eng z).spad = _
    rw [r3, zp]

/-- A trace record leaves the tiles alone. -/
theorem issueTrace_tile (b s : State) (t eng : Nat) (e : QEntry) (u : Nat) : (State.issueTrace b s t eng e).tile u = s.tile u := by
  simp only [State.issueTrace]
  split
  · simp only [State.tile, (traceAdd_mild ..).tiles]
  · rfl

/-- A tile change that raises no fault (R61). -/
theorem runTile_ok {s : State} {t : Nat} {f : Tile → Tile} (h : (s.tile t).isFaulted = false)
    (hp : (f (s.tile t)).isFaulted = false) : s.runTile t f = s.onTile t f := by
  simp only [State.runTile, h, State.tile_onTile, Bool.false_eq_true, if_false]
  split
  · rename_i c hc
    simp only [Tile.isFaulted, hc] at hp; simp at hp
  · rfl

/-- A note of a descriptor's start leaves the tiles alone. -/
theorem noteStart_tile (s : State) (uid t : Nat) : (s.noteStart uid).tile t = s.tile t := by
  simp only [State.tile, (State.noteStart_frame ..).1]

/-- Traffic counts leave the tiles alone. -/
theorem readAt_tile (s : State) (a n t : Nat) : (s.readAt a n).tile t = s.tile t := by
  simp only [State.tile, (readAt_mild ..).tiles]

/-- A loaded image changes the program memory of its tile only. -/
theorem loadImage_tile (s : State) (t : Nat) :
    ∃ p r, ((s.loadImage t).tile t) = (s.tile t).onSeq (fun z => { z with pmem := p, resident := r }) := by
  simp only [State.loadImage]
  split
  · exact ⟨(s.tile t).seq.pmem, (s.tile t).seq.resident, rfl⟩
  · refine ⟨s.imageWords (loaderAgent t) (s.progAddr (s.tile t).seq.handle) (s.tile t).seq.progLen,
      some ((s.tile t).seq.handle, (s.tile t).seq.progLen), ?_⟩
    rw [State.tile_onTile, readAt_tile]; rfl

end Sys2Proof.Machine
end

