-- ==== Sys2Proof/Laws/Queue.lean ====
section
/-!
SUPPORT. Facts about descriptors, streams and transfers that the statements on the queue manager cite.
-/

set_option Elab.async false

namespace Sys2Proof.Machine

open Sys2Proof

/-- Settling a stream that nothing stops leaves the descriptors alone (R315). -/
theorem settle_descs {s : State} {k : Nat} {x : Stream} (hx : s.stream k = some x) (h1 : x.resetting = false) (h2 : x.halting = false) :
    (s.settle k).qm.descs.map Desc.bare = s.qm.descs.map Desc.bare := by
  simp only [State.settle, hx, h1, h2, Bool.false_eq_true, if_false]
  split
  · rfl
  · split
    · rfl
    · have hon : ∀ f, (s.onStream k f).qm.descs = s.qm.descs := by intro f; simp only [State.onStream, hx]
      split
      · rw [hon]
      · rw [(writeBack_quiet _ _).descs, hon]

/-- Dispatch over streams of which one has a descriptor that is ready (R328). -/
theorem dispatchOver_one {s : State} {k : Nat} {d : Desc} (hn : s.nextDesc k = some d) (hr : s.ready d (s.level' k) = .start)
    (ho : ∀ j, j ≠ k → s.nextDesc j = none) (l : List Nat) (hk : k ∈ l) : s.dispatchOver l = s.startDesc d := by
  induction l with
  | nil => simp at hk
  | cons j r ih =>
    by_cases h : j = k
    · subst h; simp only [State.dispatchOver, hn, hr]
    · simp only [State.dispatchOver, ho j h]
      exact ih (by simpa [Ne.symm h] using hk)

/-- The descriptor that a stream may start next is one of its own, and nothing stops the stream (R326). -/
theorem nextDesc_facts {s : State} {k : Nat} {d : Desc} {x : Stream} (hx : s.stream k = some x) (h : s.nextDesc k = some d) :
    d ∈ s.qm.descs ∧ d.stream = k ∧ x.halting = false ∧ x.resetting = false := by
  simp only [State.nextDesc, hx] at h
  split at h
  · simp at h
  · rename_i e r hu
    split at h
    · rename_i hc
      simp only [Option.some.injEq] at h; subst h
      have hm : e ∈ s.unstarted k := by rw [hu]; simp
      simp only [State.unstarted, State.descsOf, List.mem_filter, beq_iff_eq] at hm
      simp only [Bool.and_eq_true, Bool.not_eq_true'] at hc
      obtain ⟨⟨⟨⟨⟨⟨⟨⟨⟨⟨⟨c1, c2⟩, c3⟩, _⟩, _⟩, _⟩, _⟩, _⟩, _⟩, _⟩, _⟩, _⟩ := hc
      exact ⟨hm.1.1, hm.1.2, c2, c3⟩
    · simp at h

/-- What a table holds at a key is one of its entries. -/
theorem tab_get_mem {α : Type} [DecidableEq α] {t : Tab (Option α)} {k : Nat} {v : α} (h : Tab.get none t k = some v) : (k, some v) ∈ t := by
  induction t with
  | nil => simp [Tab.get] at h
  | cons x r ih =>
    obtain ⟨a, b⟩ := x
    simp only [Tab.get] at h
    split at h
    · rename_i hk; subst hk; subst h; simp
    · exact List.mem_cons_of_mem _ (ih h)

/-- The descriptor with a uid after a change of it. -/
theorem desc_onDesc {s : State} {uid : Nat} {d : Desc} (h : s.desc uid = some d) (f : Desc → Desc) (hf : (f d).uid = d.uid) :
    (s.onDesc uid f).desc uid = some (f d) := by
  simp only [State.desc, State.onDesc] at h ⊢
  have hu : d.uid = uid := by have := List.find?_some h; simpa using this
  generalize s.qm.descs = l at h
  induction l with
  | nil => simp at h
  | cons x r ih =>
    rw [List.find?_cons] at h
    split at h
    · rename_i hx
      simp only [Option.some.injEq] at h; subst h
      rw [List.map_cons, List.find?_cons]; simp [hf, hu]
    · rename_i hx
      rw [List.map_cons, List.find?_cons]
      simp only [hx, Bool.false_eq_true, if_false]
      exact ih h

/-- Concluding an undecided descriptor whose time limit is not over (R336, R345): its clock stops. -/
theorem conclude_desc {s : State} {uid : Nat} {d : Desc} (h : s.desc uid = some d) (ho : d.outcome = none) (ht : s.inLimit d = true)
    (st c t : Nat) : (s.conclude uid st c t).desc uid = some (d.concluded s st c t) := by
  simp only [State.inLimit, Bool.not_eq_true'] at ht
  have hs : (s.stopClock uid).desc uid = some { d with timed := false, spent := s.elapsed d } := by
    simp only [State.stopClock, h]
    cases hd : d.timed
    · simp only [Bool.not_false, Bool.true_or, if_true, h, State.elapsed, hd, Bool.false_and, Bool.false_eq_true, if_false, Nat.add_zero]
      rw [← hd]
    · simp only [hd, Bool.true_and] at ht
      simp only [ho, Bool.not_true, Option.isSome_none, Bool.or_false, Bool.false_eq_true, if_false, ht]
      rw [desc_onDesc h (fun x => { x with spent := s.elapsed d, timed := false }) rfl, ho]
  have := desc_onDesc hs (fun d => if d.outcome.isSome then d else { d with outcome := some (st, c, t) }) (by simp [ho])
  simp only [State.conclude]; rw [this]; simp [ho, Desc.concluded]

/-- A descriptor whose action is due is in progress and undecided. -/
theorem due_iff {d : Desc} {op : Nat} (h : d.due op = true) : d.st = .running ∧ d.opcode = op ∧ d.outcome = none := by
  simp only [Desc.due, Bool.and_eq_true, beq_iff_eq, Option.isNone_iff_eq_none] at h
  exact ⟨h.1.1, h.1.2, h.2⟩

/-- A write to package memory that lies in one granule and is homed on this die's stacks, for a transfer (R371, R374). -/
theorem wrPkgAs_mem_home (s : State) (addr job stop : Nat) (bs : List Byte) (o : OpenTx) (h : s.isHome addr = true)
    (hg : addr % granuleBytes + bs.length ≤ granuleBytes) :
    (s.wrPkgAs addr job stop bs o).st.mem = s.mem.wrBytes addr bs ∧ (s.wrPkgAs addr job stop bs o).lost = none := by
  have hat := addTraffic_mem s addr bs.length
  simp only [State.wrPkgAs]
  by_cases hb : bs = []
  · subst hb; simp only [splitGranules, List.foldl_nil]; exact ⟨by rw [hat.1]; rfl, trivial⟩
  · rw [splitGranules_one hg hb]
    simp only [List.foldl_cons, List.foldl_nil, State.wrGranule, hat.2, h, if_true]
    split <;> simp [hat.1]

/-- Counting reads leaves package memory alone (R367). -/
theorem readTraffic_mem (s : State) (ps : List (Loc × Nat)) : (s.readTraffic ps).mem = s.mem := by
  unfold State.readTraffic
  refine foldl_mem _ _ _ (fun z x => ?_)
  split
  · simp only [State.readAt, State.memRead_mem, (addTraffic_mem ..).1]
  · rfl

/-- The time limit of a descriptor is not over, as far as its clock runs (R345). -/
def State.inTime (s : State) (uid : Nat) : Prop := ∀ d, s.desc uid = some d → (d.timed && s.overTime d) = false

/-- Stopping the clock of a descriptor whose limit is not over leaves package memory alone (R345). -/
theorem stopClock_inTime {s : State} {uid : Nat} (h : s.inTime uid) :
    (s.stopClock uid).mem = s.mem ∧ (s.stopClock uid).inTime uid := by
  simp only [State.stopClock]
  split
  · exact ⟨rfl, h⟩
  · rename_i d hd
    split
    · exact ⟨rfl, h⟩
    · rename_i hc
      have ht : d.timed = true := by cases hq : d.timed <;> simp_all
      have hov : s.overTime d = false := by have := h d hd; simpa [ht] using this
      rw [hov]
      refine ⟨rfl, ?_⟩
      intro e he
      rw [if_neg (by simp), desc_onDesc hd (fun x => { x with spent := s.elapsed d, timed := false }) rfl] at he
      cases he; rfl

/-- What a descriptor's clock reads. -/
theorem inTime_congr {s z : State} {uid : Nat} (h : s.inTime uid) (hd : z.qm.descs = s.qm.descs) (hs : z.qm.streams = s.qm.streams)
    (ht : z.time = s.time) : z.inTime uid := by
  intro d he
  have e1 : s.desc uid = some d := by simpa only [State.desc, hd] using he
  have e2 : z.overTime d = s.overTime d := by
    have e3 : z.elapsed d = s.elapsed d := by simp only [State.elapsed, State.now, ht]
    have e4 : z.stream d.stream = s.stream d.stream := by simp only [State.stream, hs]
    simp only [State.overTime, e3, e4]
  rw [e2]; exact h d e1

/-- A change of a descriptor's transfer keeps its clock. -/
theorem inTime_putXfer {s : State} {uid : Nat} (h : s.inTime uid) (e : QEntry) : (s.putXfer uid e).inTime uid := by
  intro d he
  cases hq : s.desc uid with
  | none =>
    have : (s.putXfer uid e).desc uid = none := by
      simp only [State.putXfer, State.desc, State.onDesc, List.find?_eq_none, List.mem_map] at hq ⊢
      rintro x ⟨y, hy, rfl⟩
      have hyu := hq y hy
      simp only [beq_iff_eq] at hyu ⊢
      rw [if_neg hyu]; exact hyu
    rw [this] at he; cases he
  | some d0 =>
    have : (s.putXfer uid e).desc uid = some { d0 with xfer := some e } := desc_onDesc hq (fun d => { d with xfer := some e }) rfl
    rw [this] at he; cases he
    exact h d0 hq

/-- The end of a `COPY` within its time limit leaves package memory alone (R248, R324). -/
theorem copyEnd_mem {s : State} {d : Desc} (h : s.inTime d.uid) : (s.copyEnd d).mem = s.mem := by
  have key : ∀ z : State, z.mem = s.mem → z.inTime d.uid → ((z.copyLetGo d).conclude d.uid stOK 0 127).mem = s.mem := by
    intro z hm hz
    have hz' : (z.copyLetGo d).inTime d.uid := inTime_congr hz rfl rfl rfl
    show ((z.copyLetGo d).stopClock d.uid).mem = _
    rw [(stopClock_inTime hz').1]; exact hm
  simp only [State.copyEnd]
  split
  · generalize relSlots d.copyXfer = l
    suffices ∀ z : State, z.mem = s.mem → z.inTime d.uid →
        (l.foldl (fun s r => match r with
          | (some (die, c), k) => if die == s.pos && (s.core c).st == .mapped then
              s.onTile (s.core c).tile (fun q => { q with spad := q.spad.release k }) else s
          | _ => s) z).mem = s.mem ∧ (l.foldl (fun s r => match r with
          | (some (die, c), k) => if die == s.pos && (s.core c).st == .mapped then
              s.onTile (s.core c).tile (fun q => { q with spad := q.spad.release k }) else s
          | _ => s) z).inTime d.uid from key _ (this s rfl h).1 (this s rfl h).2
    induction l with
    | nil => exact fun z a b => ⟨a, b⟩
    | cons x r ih =>
      intro z a b
      rw [List.foldl_cons]
      refine ih _ ?_ ?_
      · repeat' split
        all_goals exact a
      · repeat' split
        all_goals exact b
  · exact key s rfl h

/-- Bytes of a memory, one by one. -/
theorem rdBytes_map (m : Mem) (a n : Nat) : (List.range n).map (fun i => m.rd (a + i)) = m.rdBytes a n := by
  induction n generalizing a with
  | zero => rfl
  | succ n ih =>
    rw [List.range_succ_eq_map, List.map_cons, List.map_map]
    simp only [Mem.rdBytes, Nat.add_zero]
    rw [← ih]
    congr 1
    apply List.map_congr_left
    intro i _
    simp only [Function.comp]
    congr 1; omega

/-- The endpoint of the first row of a package-memory transfer. -/
theorem endpoint_pkg (v : Nat) {x : Nat} (h : x = 0) : endpoint 1 v x = .pkg v := by subst h; rfl

/-- The first row of a package-memory destination. -/
theorem pkg_add (v : Nat) {x : Nat} (h : x = 0) : Loc.pkg (v + x) = .pkg v := by subst h; rfl

/-- A transfer of one row between addresses of package memory that are homed here, into one granule (R250, R271). -/
theorem one_row {s : State} {g : Agent} {e : QEntry} {x : Xfer} {a b n : Nat} (hu : x.units = 1) (hs : x.srcs 0 = [(.pkg a, n)])
    (hd : x.dsts 0 = [(.pkg b, n)]) (hc : x.conv = id) (ha : s.access g false a n = .ok ()) (hb : s.access g true b n = .ok ())
    (hhb : s.isHome b = true) (hgr : b % granuleBytes + n ≤ granuleBytes) (hha : ∀ k, k < n → s.isHome (a + k) = true)
    (ho : e.owed = 0) (hstr : e.strRows = 0) (hl : g.log = none) :
    ∃ y e', s.runUnits g x x.units e = (y, e', none) ∧ y.mem = s.mem.wrBytes b (s.mem.rdBytes a n) ∧ Mild s y := by
  obtain ⟨bs, hbs⟩ : ∃ bs, (List.range n).map (fun i => if s.isHome (a + i) then s.mem.rd (a + i) else e.buf.rd (x.off 0 + i)) = bs := ⟨_, rfl⟩
  have hbl : bs.length = n := by rw [← hbs]; simp
  have hbe : bs = s.mem.rdBytes a n := by
    rw [← hbs, ← rdBytes_map]
    apply List.map_congr_left
    intro i hi
    rw [if_pos (hha i (by simpa using hi))]
  have hread : s.readUnit g e (x.off 0) (x.srcs 0) = .ok bs := by
    rw [hs]
    simp only [State.readUnit, State.readPiece, ha, ho]
    rw [if_neg (by simp), hbs]
    simp
  set o : OpenTx := { OpenTx.posted with tile := g.tile.getD 127, eng := 4, uid := if g.tile.isSome then e.uid else g.uid } with hoo
  obtain ⟨hmem, hlost⟩ := wrPkgAs_mem_home s b g.job g.stop bs o hhb (by rw [hbl]; exact hgr)
  have hwrite : s.writeUnit g e x (x.dsts 0) (x.conv bs)
      = .ok ((s.wrPkgAs b g.job g.stop bs o).st, { e with loadRows := e.loadRows + (s.wrPkgAs b g.job g.stop bs o).acks }) := by
    rw [hd, hc]
    have htk : bs.take n = bs := by rw [← hbl, List.take_length]
    have hb' : s.access g true b bs.length = .ok () := by rw [hbl]; exact hb
    have hlog : (if e.code == 1 then g.log else none) = (none : Option Nat) := by rw [hl]; split <;> rfl
    simp only [State.writeUnit, id, htk, State.writePiece, hb', hlog]
    rw [← hoo, hlost]
  rw [hu]
  simp only [State.runUnits, hu, hstr, hread, hwrite]
  rw [if_neg (by norm_num)]
  refine ⟨_, _, rfl, ?_, ?_⟩
  · rw [readTraffic_mem, hmem, hbe]
  · refine (wrPkgAs_mild s b g.job g.stop bs o).trans ?_
    unfold State.readTraffic
    refine Mild.foldl _ _ (fun z p => ?_) _
    split
    · exact readAt_mild ..
    · exact Mild.refl z

end Sys2Proof.Machine
end

