-- ==== Sys2Proof/Laws/Keywork.lean ====
section
/-!
SUPPORT. Facts about objects, migrations, admissions and the core map that the statements on the Keywork cite.
-/

set_option Elab.async false

namespace Sys2Proof.Machine

open Sys2Proof

/-- What a table of objects holds after one is written. -/
theorem object_setObject (s : State) (i j : Nat) (o : Option Obj) : (s.setObject i o).object j = if j = i then o else s.object j := by
  simp only [State.object, State.setObject, State.onKw, Tab.get_set]

/-- The descriptor that a due `PLACE` names. -/
theorem placeDue_some {s : State} {uid h : Nat} {d : Desc} (hd : s.desc uid = some d) (h5 : d.due 5 = true) (hh : fld (d.w 0x14) 0 4 = h) :
    s.placeDue uid h = some d := by
  simp only [State.placeDue, hd, h5, hh, beq_self_eq_true, Bool.and_self, if_true]

/-- A `PLACE` that the Keywork accepts and that then ends. -/
theorem place_ends {s z : State} {uid : Nat} {d : Desc} (hd : s.desc uid = some d) (h5 : d.due 5 = true) (ht : s.inLimit d = true)
    (hz : z.qm.descs = (s.placeBegun uid).qm.descs) (hs : z.qm.streams = s.qm.streams) (hti : z.time = s.time) (st c : Nat) :
    (z.conclude uid st c 127).desc uid = some (({ d with begun := true, acted := true } : Desc).concluded s st c 127) := by
  have h1 : (s.placeBegun uid).desc uid = some { d with begun := true, acted := true } := desc_onDesc hd _ rfl
  have h2 : z.desc uid = some { d with begun := true, acted := true } := by simp only [State.desc, hz]; exact h1
  have he : ∀ x : Desc, z.elapsed x = s.elapsed x := by intro x; simp only [State.elapsed, State.now, hti]
  have ho : ∀ x : Desc, z.overTime x = s.overTime x := by
    intro x
    have : z.stream x.stream = s.stream x.stream := by simp only [State.stream, hs]
    simp only [State.overTime, this, he]
  have := conclude_desc h2 (due_iff h5).2.2 (by simp only [State.inLimit, ho]; exact ht) st c 127
  rw [this]; simp only [Desc.concluded, he]

/-- Invalidating no line changes nothing but the number of the next group. -/
theorem invalidateLines_nil (s : State) : (s.invalidateLines []).1 = { s with rdc := { s.rdc with nextTag := (s.rdc.nextTag + 1) % 65536 } } := by
  simp only [State.invalidateLines, List.foldl_nil, List.filter_nil, Rdc.drop]
  rw [foldl_id]
  intro a x hx
  simp only [List.mem_map] at hx
  obtain ⟨d, _, rfl⟩ := hx
  rfl

/-- Sending a packet leaves the Keywork alone. -/
@[simp] theorem sendOn_kw (s : State) (p : Nat) (k : Packet) : (s.sendOn p k).kw = s.kw := by
  simp only [State.sendOn, State.count_kw]; rfl

/-- Bytes over a `MEM` port leave the Keywork alone (R366). -/
@[simp] theorem State.memLine_kw (s : State) (l rd wr : Nat) : (s.memLine l rd wr).kw = s.kw := by
  simp only [State.memLine]; repeat' split
  all_goals first | rfl | (simp only [State.count_kw]; rfl)

/-- A request leaves the Keywork alone. -/
theorem request_kw (s : State) (d : Nat) (k : Packet) (o : OpenTx) : (s.request d k o).1.kw = s.kw := by
  simp only [State.request]; split
  · rfl
  · exact sendOn_kw _ _ _

/-- A write packet leaves the Keywork alone. -/
@[simp] theorem sendWrite_kw (s : State) (addr job stop : Nat) (bs : List Byte) (o : OpenTx) : (s.sendWrite addr job stop bs o).1.kw = s.kw :=
  request_kw _ _ _ _

/-- A fold of operations that leave the Keywork alone. -/
theorem foldl_kw {β : Type} (l : List β) (s : State) (g : State → β → State) (h : ∀ s x, (g s x).kw = s.kw) : (l.foldl g s).kw = s.kw := by
  induction l generalizing s with
  | nil => rfl
  | cons x r ih => simp only [List.foldl_cons]; rw [ih, h]

/-- The count of a write over the `MEM` ports leaves the Keywork alone (R366). -/
@[simp] theorem State.memWrite_kw (s : State) (a n : Nat) : (s.memWrite a n).kw = s.kw := by
  unfold State.memWrite
  refine foldl_kw _ _ _ (fun z l => ?_)
  dsimp only; split <;> simp

/-- An invalidation packet leaves the Keywork alone. -/
theorem sendInv_kw (s : State) (grp d ptype : Nat) (lines : List Nat) (addr aux : Nat) : (s.sendInv grp d ptype lines addr aux).kw = s.kw := by
  simp only [State.sendInv]; split
  · rfl
  · exact sendOn_kw _ _ _

/-- Invalidations leave the Keywork alone. -/
theorem invalidateLines_kw (s : State) (lines : List Nat) : (s.invalidateLines lines).1.kw = s.kw := by
  simp only [State.invalidateLines]
  rw [foldl_kw]
  intro s w
  split
  · rfl
  · simp only [State.invAt]
    split
    · apply foldl_kw; intro s b; split <;> exact sendInv_kw ..
    · apply foldl_kw; intro s b; exact sendInv_kw ..

/-- An object but for the traffic of the epoch and the blocks written during a migration. -/
def plainObj (o : Obj) : Obj :=
  { o with traffic := [], mig := match o.mig with | some m => some { m with dirty := [] } | none => none }

/-- The table holds one object, this one but for traffic and dirty blocks. -/
def onlyObj (k : Kw) (i : Nat) (o : Obj) : Prop := ∃ o', k.objs = [(i, some o')] ∧ plainObj o' = plainObj o

/-- The object that holds an address, of a table of one. -/
theorem findObj_one {a i : Nat} {o : Obj} {x : Nat × Obj} (h : findObj a [(i, some o)] = some x) : x = (i, o) := by
  simp only [findObj] at h; split at h
  · exact (Option.some.inj h).symm
  · simp at h

/-- Writing the one entry of a table. -/
theorem tab_one {i : Nat} {o o' : Obj} : Tab.set none [(i, some o)] i (some o') = [(i, some o')] := by
  simp [Tab.set, Tab.insert]

/-- Counting traffic keeps the one object (R367). -/
theorem addTraffic_only {i : Nat} {o : Obj} (s : State) (a n : Nat) (h : onlyObj s.kw i o) : onlyObj (s.addTraffic a n).kw i o := by
  obtain ⟨o', h1, h2⟩ := h
  simp only [State.addTraffic]
  split
  · exact ⟨o', h1, h2⟩
  · split
    · exact ⟨o', h1, h2⟩
    · split
      · rename_i j x hx
        rw [h1] at hx
        have := findObj_one hx; simp only [Prod.mk.injEq] at this; obtain ⟨rfl, rfl⟩ := this
        exact ⟨_, (congrArg (fun t => Tab.set none t j (some _)) h1).trans tab_one, h2⟩
      · exact ⟨o', h1, h2⟩

/-- Marking a block keeps the one object (R369). -/
theorem markDirty_only {i : Nat} {o : Obj} (s : State) (a n : Nat) (h : onlyObj s.kw i o) : onlyObj (s.markDirty a n).kw i o := by
  obtain ⟨o', h1, h2⟩ := h
  simp only [State.markDirty]
  split
  · rename_i j x hx
    rw [h1] at hx
    have := findObj_one hx; simp only [Prod.mk.injEq] at this; obtain ⟨rfl, rfl⟩ := this
    split
    · rename_i m hm
      refine ⟨_, (congrArg (fun t => Tab.set none t j (some _)) h1).trans tab_one, ?_⟩
      simp only [plainObj, hm] at h2 ⊢; exact h2
    · exact ⟨_, h1, h2⟩
  · exact ⟨_, h1, h2⟩

/-- What a write of package memory does to the Keywork: it counts traffic and marks blocks. -/
theorem wrPkg_kw {P : Kw → Prop} (hT : ∀ (z : State) (a n : Nat), P z.kw → P (z.addTraffic a n).kw)
    (hM : ∀ (z : State) (a n : Nat), P z.kw → P (z.markDirty a n).kw) {s : State} (h : P s.kw) (a j : Nat) (bs : List Byte) : P (s.wrPkg a j bs).kw := by
  have hg : ∀ (z : State) (p : Nat × List Byte), P z.kw → P (z.wrGranule p.1 j 120 p.2 OpenTx.posted).st.kw := by
    intro z p hz
    simp only [State.wrGranule]
    split
    · have hw : P (z.wrHome p.1 p.2).1.kw := by
        simp only [State.wrHome, invalidateLines_kw, State.memWrite_kw]
        exact hM ({ z with mem := z.mem.wrBytes p.1 p.2 } : State) p.1 _ hz
      split <;> exact hw
    · generalize splitLines p.1 p.2 (p.2.length / 256 + 2) = l
      have : ∀ (l : List (Nat × List Byte)) (r : Written), P r.st.kw →
          P (l.foldl (fun (r : Written) (p : Nat × List Byte) =>
            let (s', ok) := r.st.sendWrite p.1 j 120 p.2 OpenTx.posted
            ⟨s', r.acks + bit1 ok, r.lost.or (if ok then none else some p.1)⟩) r).st.kw := by
        intro l
        induction l with
        | nil => intro r h; exact h
        | cons x l ih => intro r h; exact ih _ (by simp only [sendWrite_kw]; exact h)
      exact this _ _ hz
  simp only [State.wrPkg, State.wrPkgAs]
  generalize splitGranules a bs (bs.length / granuleBytes + 2) = l
  have : ∀ (l : List (Nat × List Byte)) (r : Written), P r.st.kw →
      P (l.foldl (fun (r : Written) (p : Nat × List Byte) =>
        let x := r.st.wrGranule p.1 j 120 p.2 OpenTx.posted
        ⟨x.st, r.acks + x.acks, r.lost.or x.lost⟩) r).st.kw := by
    intro l
    induction l with
    | nil => intro r h; exact h
    | cons x l ih => intro r h; exact ih _ (hg _ _ h)
  exact this _ _ (hT s a bs.length h)

/-- The end of an event's write, for the Keywork. -/
theorem ev_kw {P : Kw → Prop} (hT : ∀ (z : State) (a n : Nat), P z.kw → P (z.addTraffic a n).kw)
    (hM : ∀ (z : State) (a n : Nat), P z.kw → P (z.markDirty a n).kw) (hD : ∀ (k : Kw) (n : Nat), P k → P { k with deny := n })
    (s1 : State) (h : P s1.kw) (a : Nat) (bs : List Byte) (x y : Nat) :
    P (if s1.evFull then { s1 with qm := { s1.qm with evLost := satAdd s1.qm.evLost 1, evLoss := true } }
    else
      if s1.deny 0 true false a 64 != 0 then
        { s1 with kw := { s1.kw with deny := satAdd s1.kw.deny 1 }
                  qm := { s1.qm with evLost := satAdd s1.qm.evLost 2, evLoss := true, tableErr := true } }
      else if s1.isPoisoned a 64 then
        { s1 with qm := { s1.qm with evLost := satAdd s1.qm.evLost 1, evLoss := true, tableErr := true } }
      else
        let s' := s1.wrPkg a 0 bs
        { s' with qm := { s'.qm with
            evTail := x
            evLap := y
            evLoss := false
            notifyDue := s'.qm.notifyDue || bitAt (s1.reg 0x2000) 16 } }).kw := by
  split
  · exact h
  · split
    · exact hD _ _ h
    · split
      · exact h
      · exact wrPkg_kw hT hM h a 0 bs

/-- What an event does to the Keywork: it counts traffic, marks blocks and counts refusals. -/
theorem event_kw {P : Kw → Prop} (hT : ∀ (z : State) (a n : Nat), P z.kw → P (z.addTraffic a n).kw)
    (hM : ∀ (z : State) (a n : Nat), P z.kw → P (z.markDirty a n).kw) (hD : ∀ (k : Kw) (n : Nat), P k → P { k with deny := n })
    {s : State} (h : P s.kw) (e : Ev) : P (s.event e).kw := by
  unfold State.event
  split
  · exact h
  · have h1 : P (if bitAt (s.reg 0x3C20) 2 then s.traceAdd e.tile 2 e.typ (evWord18 e) else s).kw := by
      split
      · have : (s.traceAdd e.tile 2 e.typ (evWord18 e)).kw = s.kw := by simp only [State.traceAdd]; split <;> rfl
        rw [this]; exact h
      · exact h
    exact ev_kw hT hM hD _ h1 _ _ _ _

/-- A fold of operations that hold no packet. -/
theorem foldl_held {β : Type} (l : List β) (s : State) (g : State → β → State) (h : ∀ s x, (g s x).rdc.held = s.rdc.held) :
    (l.foldl g s).rdc.held = s.rdc.held := by
  induction l generalizing s with
  | nil => rfl
  | cons x r ih => simp only [List.foldl_cons]; rw [ih, h]

/-- Invalidating lines holds no packet. -/
theorem invalidateLines_held (s : State) (lines : List Nat) : (s.invalidateLines lines).1.rdc.held = s.rdc.held := by
  have hs : ∀ (s : State) g d t ls a x, (s.sendInv g d t ls a x).rdc.held = s.rdc.held := by
    intro s g d t ls a x; simp only [State.sendInv]; split
    · rfl
    · rw [(sendOn_mem _ _ _).2.1]
  simp only [State.invalidateLines]
  rw [foldl_held]
  intro s w
  split
  · rfl
  · simp only [State.invAt]
    split
    · refine foldl_held _ _ _ (fun s x => ?_)
      split <;> exact hs ..
    · exact foldl_held _ _ _ (fun s x => hs ..)

/-- Writing package memory holds no packet. -/
theorem wrPkg_held (s : State) (a j : Nat) (bs : List Byte) : (s.wrPkg a j bs).rdc.held = s.rdc.held := by
  have hr : ∀ (s : State) d k o, (s.request d k o).1.rdc.held = s.rdc.held := by
    intro s d k o; simp only [State.request]; split
    · rfl
    · rw [(sendOn_mem _ _ _).2.1]
  have hh : ∀ (s : State) a bs, (s.wrHome a bs).1.rdc.held = s.rdc.held := by
    intro s a bs
    simp only [State.wrHome, invalidateLines_held, memWrite_rdc]
    exact congrArg Rdc.held (markDirty_rdc ({ s with mem := s.mem.wrBytes a bs } : State) a _).1
  have hw : ∀ (l : List (Nat × List Byte)) (g : Written → Nat × List Byte → Written),
      (∀ r p, (g r p).st.rdc.held = r.st.rdc.held) → ∀ r : Written, (l.foldl g r).st.rdc.held = r.st.rdc.held := by
    intro l g h
    induction l with
    | nil => intro r; rfl
    | cons x l ih => intro r; rw [List.foldl_cons, ih, h]
  have ht : (s.addTraffic a bs.length).rdc = s.rdc := by
    simp only [State.addTraffic]; repeat' split
    all_goals rfl
  simp only [State.wrPkg, State.wrPkgAs]
  rw [hw _ _ (fun r p => ?_)]
  · exact congrArg Rdc.held ht
  · simp only [State.wrGranule]
    split
    · split <;> exact hh ..
    · rw [hw _ _ (fun r p => hr ..)]

/-- The end of an event's write holds no packet. -/
theorem ev_held (s1 : State) (a : Nat) (bs : List Byte) (x y : Nat) :
    (if s1.evFull then { s1 with qm := { s1.qm with evLost := satAdd s1.qm.evLost 1, evLoss := true } }
    else
      if s1.deny 0 true false a 64 != 0 then
        { s1 with kw := { s1.kw with deny := satAdd s1.kw.deny 1 }
                  qm := { s1.qm with evLost := satAdd s1.qm.evLost 2, evLoss := true, tableErr := true } }
      else if s1.isPoisoned a 64 then
        { s1 with qm := { s1.qm with evLost := satAdd s1.qm.evLost 1, evLoss := true, tableErr := true } }
      else
        let s' := s1.wrPkg a 0 bs
        { s' with qm := { s'.qm with
            evTail := x
            evLap := y
            evLoss := false
            notifyDue := s'.qm.notifyDue || bitAt (s1.reg 0x2000) 16 } }).rdc.held = s1.rdc.held := by
  split
  · rfl
  · split
    · rfl
    · split
      · rfl
      · exact wrPkg_held s1 a 0 bs

/-- Writing an event holds no packet. -/
theorem event_held (s : State) (e : Ev) : (s.event e).rdc.held = s.rdc.held := by
  unfold State.event
  split
  · rfl
  · have h1 : (if bitAt (s.reg 0x3C20) 2 then s.traceAdd e.tile 2 e.typ (evWord18 e) else s).rdc.held = s.rdc.held := by
      split
      · simp only [State.traceAdd]; split <;> rfl
      · rfl
    exact (ev_held _ _ _ _ _).trans h1

/-- A request for which a port is found. -/
theorem request_some {s : State} {d p : Nat} (k : Packet) (o : OpenTx) (hk : toHost k = false) (h : s.route d k.cls k.addr none = some p) :
    s.request d k o = (({ s with rdc := { s.rdc with
      opens := Tab.set none s.rdc.opens s.rdc.nextTag (some { o with pkt := { k with tag := s.rdc.nextTag }, port := p })
      nextTag := (s.rdc.nextTag + 1) % 65536 } } : State).sendOn p { k with tag := s.rdc.nextTag }, true) := by
  simp only [State.request, hk, h, Bool.false_eq_true, if_false]

/-- Moving granules leaves the Keywork alone. -/
theorem moveGranules_kw (s : State) (b i : Nat) (l : List (Nat × Nat)) : (s.moveGranules b i l).kw = s.kw := by
  induction l generalizing s i with
  | nil => rfl
  | cons x r ih =>
    obtain ⟨a, c⟩ := x
    simp only [State.moveGranules]
    rw [ih]; split
    · rfl
    · split <;> rfl

/-- Tile states after one is written. -/
theorem tileSt_setTileSt (s : State) (t u : Nat) (x : TileSt) : (s.setTileSt t x).tileSt u = if u = t then x else s.tileSt u := by
  simp only [State.tileSt, State.setTileSt, State.onKw, Tab.get_set]

/-- Core map entries after one is written. -/
theorem core_setCore (s : State) (c d : Nat) (x : CoreEnt) : (s.setCore c x).core d = if d = c then x else s.core d := by
  simp only [State.core, State.setCore, State.onKw, Tab.get_set]

/-- Core map entries after one is changed. -/
theorem core_mod (s : State) (c d : Nat) (f : CoreEnt → CoreEnt) (A : List (Nat × Nat × Nat)) :
    (s.onKw (fun k => { k with cores := Tab.mod CoreEnt.init k.cores c f, admitting := A })).core d = if d = c then f (s.core c) else s.core d := by
  simp only [State.core, State.onKw, Tab.get_mod]

/-- Admissions in progress are untouched by an event. -/
theorem event_admitting (s : State) (e : Ev) : (s.event e).kw.admitting = s.kw.admitting := by
  apply event_kw (P := fun k => k.admitting = s.kw.admitting)
  · intro z a n h; simp only [State.addTraffic]; repeat' split
    all_goals exact h
  · intro z a n h; simp only [State.markDirty]; repeat' split
    all_goals exact h
  · intro k n h; exact h
  · rfl

/-- A fold that sets the states of the tiles below `n`. -/
theorem foldl_setTileSt (s : State) (f : Nat → TileSt) (n : Nat) :
    ((∀ t, ((List.range n).foldl (fun s t => s.setTileSt t (f t)) s).tileSt t = if t < n then f t else s.tileSt t)
    ∧ (∀ c, ((List.range n).foldl (fun s t => s.setTileSt t (f t)) s).core c = s.core c))
    ∧ ((List.range n).foldl (fun s t => s.setTileSt t (f t)) s).mgmt = s.mgmt := by
  induction n with
  | zero => exact ⟨⟨fun t => by simp, fun c => rfl⟩, rfl⟩
  | succ n ih =>
    rw [List.range_succ, List.foldl_append]
    refine ⟨⟨fun t => ?_, fun c => ?_⟩, ?_⟩
    · show State.tileSt (State.setTileSt _ n _) t = _
      rw [tileSt_setTileSt, ih.1.1]
      by_cases h : t = n
      · subst h; simp
      · rw [if_neg h]; by_cases h2 : t < n
        · rw [if_pos h2, if_pos (by omega)]
        · rw [if_neg h2, if_neg (by omega)]
    · exact ih.1.2 c
    · exact ih.2

/-- A fold that sets the core map entries below `n`. -/
theorem foldl_setCore (s : State) (f : Nat → CoreEnt) (n : Nat) :
    ((∀ c, ((List.range n).foldl (fun s c => s.setCore c (f c)) s).core c = if c < n then f c else s.core c)
    ∧ (∀ t, ((List.range n).foldl (fun s c => s.setCore c (f c)) s).tileSt t = s.tileSt t))
    ∧ ((List.range n).foldl (fun s c => s.setCore c (f c)) s).mgmt = s.mgmt := by
  induction n with
  | zero => exact ⟨⟨fun t => by simp, fun c => rfl⟩, rfl⟩
  | succ n ih =>
    rw [List.range_succ, List.foldl_append]
    refine ⟨⟨fun t => ?_, fun c => ?_⟩, ?_⟩
    · show State.core (State.setCore _ n _) t = _
      rw [core_setCore, ih.1.1]
      by_cases h : t = n
      · subst h; simp
      · rw [if_neg h]; by_cases h2 : t < n
        · rw [if_pos h2, if_pos (by omega)]
        · rw [if_neg h2, if_neg (by omega)]
    · exact ih.1.2 c
    · exact ih.2

end Sys2Proof.Machine
end

