-- ==== Sys2Proof/Laws/Ends.lean ====
section
/-!
SUPPORT. Facts about streams that settle, descriptors that end, kills, Reed transfers and doorbells that the
statements on the queue manager cite.
-/

set_option Elab.async false

namespace Sys2Proof.Machine

open Sys2Proof

/-- A stream after a change of it. -/
theorem stream_onStream {s : State} {k : Nat} {x : Stream} (h : s.stream k = some x) (f : Stream → Stream) : (s.onStream k f).stream k = some (f x) := by
  have : s.onStream k f = { s with qm := { s.qm with streams := Tab.set none s.qm.streams k (some (f x)) } } := by simp only [State.onStream, h]
  rw [this]; simp only [State.stream, Tab.get_set_self]

/-- Changing a stream leaves the rest of the die alone. -/
theorem onStream_rest (s : State) (k : Nat) (f : Stream → Stream) : ∃ S, s.onStream k f = { s with qm := { s.qm with streams := S } } := by
  simp only [State.onStream]; split
  · exact ⟨_, rfl⟩
  · exact ⟨_, rfl⟩

/-- Settling an active stream that has work changes nothing (R315). -/
theorem settle_active {s : State} {k : Nat} {x : Stream} (hx : s.stream k = some x) (h1 : x.halting = false) (h2 : x.resetting = false) (h3 : x.st = .active)
    (h4 : ∃ y ∈ s.qm.descs, y.stream = k) (h5 : ∀ y ∈ s.qm.descs, y.st ≠ .preempted) : s.settle k = s := by
  obtain ⟨y, hy, hk⟩ := h4
  have hw : s.workState k x = .active := by
    simp only [State.workState]
    rw [if_neg, if_neg]
    · have : (s.descsOf k).isEmpty = false := by
        rw [List.isEmpty_eq_false_iff_exists_mem]; exact ⟨y, by simp [State.descsOf, hy, hk]⟩
      simp [this]
    · simp only [List.any_eq_true, not_exists]
      rintro z ⟨hz, hp⟩
      exact h5 z (List.mem_filter.1 hz).1 (by simpa using hp)
  simp only [State.settle, hx, h1, h2, hw, h3]
  simp

/-- A stream after a mild change. -/
theorem mild_stream {s z : State} (h : Mild s z) (k : Nat) : z.stream k = s.stream k := by simp only [State.stream, h.streams]

/-- The record of a descriptor that ended well, without an event (R336). -/
theorem record_ok {s : State} {d : Desc} {x : Stream} (hx : s.stream d.stream = some x) (hf : d.final = (stOK, 0, 127)) (hw : d.wantsEvent = false)
    (hck : s.access { initReader with job := x.job } true (x.cplBase + 32 * x.cplTail) 32 = .ok ()) :
    s.record d = (let z := s.onStream d.stream (fun x => x.tally d)
      (((((((z.wrPkg (x.cplBase + 32 * x.cplTail) x.job
          (recordBytes d stOK 0 127 (x.lap % 2 == 0) s.now)).count 6 1).onStream d.stream (fun y => { y with
        cplTail := if x.cplTail + 1 == 2 ^ x.cplLog2 then 0 else y.cplTail + 1, lap := if x.cplTail + 1 == 2 ^ x.cplLog2 then y.lap + 1 else y.lap
        done := (y.done + 1) % 2 ^ 64, lastTs := z.now })).forget d).settle d.stream).exact d.stream).killSettle x.job).quiesce) := by
  unfold State.record
  rw [hx]
  simp only [hf, hck, State.recordPut, hw]
  rw [if_neg (by decide)]
  rfl

/-- Abandoning a tile leaves the descriptors and streams alone but for grants and transfers. -/
theorem abandonTile_descs (s : State) (t : Nat) : (s.abandonTile t).qm.descs.map Desc.bare = s.qm.descs.map Desc.bare
    ∧ (s.abandonTile t).qm.streams = s.qm.streams ∧ (s.abandonTile t).qm.jobs = s.qm.jobs := by
  simp only [State.abandonTile]
  set z := s.onTile t (fun q => q.abandon.onSeq (fun z => { z with phase := .discarded, halted := false })) with hz
  have h := (letGo_quiet z t 2).trans (syncStop_quiet _ t)
  exact ⟨h.descs, h.streams, h.jobs⟩

/-- Abandoning the members of a descriptor leaves the descriptors alone but for grants and transfers. -/
theorem abandonMembers_descs (s : State) (d : Desc) : (s.abandonMembers d).qm.descs.map Desc.bare = s.qm.descs.map Desc.bare
    ∧ (s.abandonMembers d).qm.streams = s.qm.streams ∧ (s.abandonMembers d).qm.jobs = s.qm.jobs := by
  simp only [State.abandonMembers]
  generalize s.tilesOf d = l
  induction l generalizing s with
  | nil => exact ⟨rfl, rfl, rfl⟩
  | cons t r ih =>
    rw [List.foldl_cons]
    have h1 := ih (s.abandonFor d t)
    have h2 : (s.abandonFor d t).qm.descs.map Desc.bare = s.qm.descs.map Desc.bare ∧ (s.abandonFor d t).qm.streams = s.qm.streams
        ∧ (s.abandonFor d t).qm.jobs = s.qm.jobs := by
      simp only [State.abandonFor]; split
      · exact abandonTile_descs s t
      · exact ⟨rfl, rfl, rfl⟩
    exact ⟨h1.1.trans h2.1, h1.2.1.trans h2.2.1, h1.2.2.trans h2.2.2⟩

/-- A copy that lets its object go leaves the descriptors alone but for grants and transfers. -/
theorem copyLetGo_descs (s : State) (d : Desc) : (s.copyLetGo d).qm.descs.map Desc.bare = s.qm.descs.map Desc.bare
    ∧ (s.copyLetGo d).qm.streams = s.qm.streams ∧ (s.copyLetGo d).qm.jobs = s.qm.jobs := ⟨rfl, rfl, rfl⟩

/-- Stopping a descriptor's work leaves the descriptors and streams alone but for grants and transfers. -/
theorem stopWork_descs (s : State) (d : Desc) : (s.stopWork d).qm.descs.map Desc.bare = s.qm.descs.map Desc.bare
    ∧ (s.stopWork d).qm.streams = s.qm.streams ∧ (s.stopWork d).qm.jobs = s.qm.jobs := by
  simp only [State.stopWork]
  have h1 := withdraw_quiet (s.abandonMembers d) (· == .desc d.uid) (some d.uid)
  have h2 := abandonMembers_descs s d
  have h := And.intro (h1.descs.trans h2.1) (And.intro (h1.streams.trans h2.2.1) (h1.jobs.trans h2.2.2))
  split
  · have h3 := copyLetGo_descs (((s.abandonMembers d).withdraw (· == .desc d.uid) (some d.uid)).dropLogs d.uid) d
    exact ⟨h3.1.trans h.1, h3.2.1.trans h.2.1, h3.2.2.trans h.2.2⟩
  · exact h

/-- The pieces of a range of package memory lie in it. -/
theorem splitLines_in (n : Nat) : ∀ (a : Nat) (bs : List Byte), ∀ p ∈ splitLines a bs n, a ≤ p.1 ∧ p.1 < a + bs.length := by
  induction n with
  | zero => intro a bs p hp; cases bs <;> simp [splitLines] at hp
  | succ n ih =>
    intro a bs p hp
    cases bs with
    | nil => simp [splitLines] at hp
    | cons b bs =>
      simp only [splitLines, List.mem_cons] at hp
      rcases hp with rfl | hp
      · simp
      · have := ih _ _ p hp
        rw [List.length_drop] at this
        have hk : 0 < 256 - a % 256 := by omega
        simp only [List.length_cons] at this ⊢
        omega

/-- Nothing is asked of another die for a range that is homed here. -/
theorem askPiece_home {s : State} {g : Agent} {e : QEntry} {off a n : Nat} (h : ∀ i, i < n → s.isHome (a + i) = true) :
    s.askPiece g e off (.pkg a) n = (s, e) := by
  simp only [State.askPiece]
  have hm := splitLines_in (n / 256 + 2) a (List.replicate n (0 : Byte))
  generalize splitLines a (List.replicate n (0 : Byte)) (n / 256 + 2) = l at hm
  generalize ({ OpenTx.posted with tile := g.tile.getD 127, eng := 4, uid := if g.tile.isSome then e.uid else g.uid } : OpenTx) = o
  split
  · rfl
  induction l with
  | nil => rfl
  | cons p l ih =>
    rw [List.foldl_cons]
    have hp := hm p (by simp)
    rw [List.length_replicate] at hp
    have : State.askLine g o off a (s, e) p = (s, e) := by
      simp only [State.askLine]
      rw [if_pos]
      have := h (p.1 - a) (by omega)
      rwa [Nat.add_sub_cancel' hp.1] at this
    rw [this]
    exact ih (fun q hq => hm q (by simp [hq]))

/-- Where an address is homed, with one object in the table. -/
theorem isHome_only {s z : State} {i : Nat} {o : Obj} (h : onlyObj z.kw i o) (hs : onlyObj s.kw i o) (hx : z.kw.xlate = s.kw.xlate)
    (hp : z.pos = s.pos) (a : Nat) : z.isHome a = s.isHome a := by
  obtain ⟨o', h1, h2⟩ := h
  obtain ⟨o2, g1, g2⟩ := hs
  have h3 := h2.trans g2.symm
  have hb : o'.pbase = o2.pbase := by have := congrArg Obj.pbase h3; exact this
  have hg : o'.granules = o2.granules := by have := congrArg Obj.granules h3; exact this
  have hh : o'.homes = o2.homes := by have := congrArg Obj.homes h3; exact this
  have e : z.homeStack a = s.homeStack a := by
    simp only [State.homeStack, h1, g1, hx, hp, findObj, hb, hg]
    split
    · rfl
    · split
      · by_cases hc : o2.pbase ≤ a ∧ a < o2.pbase + o2.granules * granuleBytes
        · simp only [if_pos hc, hb, hh]
        · simp only [if_neg hc]
      · rfl
  simp only [State.isHome, State.homeDie, e, hp]

/-- A write at home of memory that no other die caches: no acknowledgement is awaited (R374). -/
theorem wrHome_alone {i : Nat} {o : Obj} (z : State) (ho : onlyObj z.kw i o) (hs : z.rdc.sharers = []) (hi : z.rdc.invs = []) (a : Nat) (bs : List Byte) :
    (z.wrHome a bs).2.2 = false ∧ (z.wrHome a bs).1.rdc.sharers = [] ∧ (z.wrHome a bs).1.rdc.invs = [] ∧ onlyObj (z.wrHome a bs).1.kw i o := by
  have hkw : onlyObj (z.wrHome a bs).1.kw i o := by
    simp only [State.wrHome, invalidateLines_kw, State.memWrite_kw]
    exact markDirty_only ({ z with mem := z.mem.wrBytes a bs } : State) a _ ho
  simp only [State.wrHome] at hkw ⊢
  obtain ⟨m, hmd⟩ : ∃ m, m = (State.markDirty { z with mem := z.mem.wrBytes a bs } a bs.length).memWrite a bs.length := ⟨_, rfl⟩
  have hmr : m.rdc = z.rdc := by rw [hmd, memWrite_rdc, (markDirty_rdc ..).1]
  rw [← hmd] at hkw ⊢
  have hsh : ∀ d, (linesOf a bs.length).filter (fun l => (Tab.get 0 m.rdc.sharers l).testBit d) = [] := by
    intro d; rw [List.filter_eq_nil_iff, hmr, hs]; intro l _; simp [Tab.get]
  have hsf : ∀ l : List Nat, l.foldl (fun t l => Tab.set 0 t l 0) ([] : Tab Nat) = [] := by
    intro l; induction l with
    | nil => rfl
    | cons q l ih => rw [List.foldl_cons]; exact ih
  have hinv : ∃ L, m.invalidateLines (linesOf a bs.length) = ({ m with rdc := { m.rdc with
        nextTag := (m.rdc.nextTag + 1) % 65536, sharers := [], lines := L } }, m.rdc.nextTag, false) := by
    refine ⟨(m.rdc.drop (linesOf a bs.length)).lines, ?_⟩
    simp only [State.invalidateLines, hsh]
    rw [foldl_id]
    · simp only [hmr, hs, hi, hsf, List.any_nil]
    · intro q w hw
      simp only [List.mem_map] at hw
      obtain ⟨d, _, rfl⟩ := hw
      rfl
  obtain ⟨L, hL⟩ := hinv
  rw [hL] at hkw ⊢
  exact ⟨rfl, rfl, by show m.rdc.invs = []; rw [hmr, hi], hkw⟩

/-- A write, into one granule, of memory that is homed here and that no other die caches. -/
theorem wrPkgAs_alone {s : State} {i : Nat} {o : Obj} (ho : onlyObj s.kw i o) (hs : s.rdc.sharers = []) (hi : s.rdc.invs = []) {a : Nat}
    (hh : s.isHome a = true) (j st : Nat) (bs : List Byte) (hg : a % granuleBytes + bs.length ≤ granuleBytes) (x : OpenTx) :
    (s.wrPkgAs a j st bs x).acks = 0 ∧ (s.wrPkgAs a j st bs x).lost = none ∧ (s.wrPkgAs a j st bs x).st.mem = s.mem.wrBytes a bs
    ∧ (s.wrPkgAs a j st bs x).st.rdc.sharers = [] ∧ (s.wrPkgAs a j st bs x).st.rdc.invs = [] ∧ onlyObj (s.wrPkgAs a j st bs x).st.kw i o := by
  obtain ⟨hm, hl⟩ := wrPkgAs_mem_home s a j st bs x hh hg
  have ht := addTraffic_only s a bs.length ho
  have hat := addTraffic_mem s a bs.length
  have htr : (s.addTraffic a bs.length).rdc = s.rdc := by
    simp only [State.addTraffic]; repeat' split
    all_goals rfl
  refine ⟨?_, hl, hm, ?_⟩ <;> clear hm hl
  · simp only [State.wrPkgAs]
    by_cases hb : bs = []
    · subst hb; rfl
    · have hw := wrHome_alone (s.addTraffic a bs.length) ht (by rw [htr, hs]) (by rw [htr, hi]) a bs
      rw [splitGranules_one hg hb]
      simp only [List.foldl_cons, List.foldl_nil, State.wrGranule, hat.2, hh, if_true, hw.1]
      rfl
  · simp only [State.wrPkgAs]
    by_cases hb : bs = []
    · subst hb; exact ⟨by rw [← hs, ← htr]; rfl, by rw [← hi, ← htr]; rfl, ht⟩
    · have hw := wrHome_alone (s.addTraffic a bs.length) ht (by rw [htr, hs]) (by rw [htr, hi]) a bs
      rw [splitGranules_one hg hb]
      simp only [List.foldl_cons, List.foldl_nil, State.wrGranule, hat.2, hh, if_true, hw.1]
      exact hw.2

/-- Writing a job entry is quiet. -/
theorem writeJob_quiet (s : State) (j : Nat) : Quiet s (s.writeJob j) := by
  simp only [State.writeJob]
  split
  · exact Quiet.refl s
  · split
    · exact (wrTable_quiet _ _ _).trans (wrTable_quiet _ _ _)
    · exact wrTable_quiet _ _ _

/-- Answering waiting operations is quiet. -/
theorem answers_quiet (s : State) (rs : List SyncResult) : Quiet s (s.answers rs) := by
  simp only [State.answers]
  refine Quiet.foldl _ _ ?_ s
  intro s r
  simp only [State.answer]
  split
  · exact (reply_mild _ _ _ _).quiet
  · exact Quiet.refl _
  · constructor <;> intros <;> first | rfl | exact ⟨rfl, rfl⟩

/-- Writing an object is quiet. -/
theorem setObj_quiet (s : State) (i : Nat) (o : SyncObj) : Quiet s (s.setObj i o) := by
  constructor <;> intros <;> first | rfl | exact ⟨rfl, rfl⟩

/-- Writing a barrier is quiet. -/
theorem setBar_quiet (s : State) (i : Nat) (o : Option Barrier) : Quiet s (s.setBar i o) := by
  constructor <;> intros <;> first | rfl | exact ⟨rfl, rfl⟩

/-- Sending an operation is quiet. -/
theorem sendSync_quiet (s : State) (d : Nat) (r : SyncReq) : Quiet s (s.sendSync d r).1 := by
  simp only [State.sendSync]
  exact (request_mild _ _ _ _).quiet

/-- Breaking a barrier is quiet. -/
theorem breakBar_quiet (s : State) (i st o : Nat) : Quiet s (s.breakBar i st o) := by
  simp only [State.breakBar]; split
  · exact Quiet.refl s
  · exact (setBar_quiet _ _ _).trans (answers_quiet _ _)

/-- Dropping a barrier is quiet. -/
theorem dropBar_quiet (s : State) (i o : Nat) : Quiet s (s.dropBar i o) := by
  simp only [State.dropBar]; split
  · exact Quiet.refl s
  · exact (setBar_quiet _ _ _).trans (answers_quiet _ _)

/-- Telling other dies is quiet. -/
theorem shareSync_quiet (s : State) (ds : List Nat) (r : SyncReq) : Quiet s (s.shareSync ds r) :=
  Quiet.foldl _ _ (fun s d => sendSync_quiet s d _) s

/-- Releasing what waits on an object is quiet. -/
theorem releaseAll_quiet (s : State) (i : Nat) (o : SyncObj) (a b : Nat) : Quiet s (s.releaseAll i o a b) :=
  (setObj_quiet _ _ _).trans (answers_quiet _ _)

/-- Abandoning an object is quiet. -/
theorem abandonObj_quiet (s : State) (i : Nat) (o : SyncObj) : Quiet s (s.abandonObj i o) :=
  ((releaseAll_quiet ..).trans (breakBar_quiet ..)).trans (shareSync_quiet ..)

/-- Abandoning objects is quiet. -/
theorem abandonObjs_quiet (s : State) (own : SyncObj → Bool) : Quiet s (s.abandonObjs own) := by
  refine Quiet.foldl _ _ (fun s e => ?_) s
  split
  · exact abandonObj_quiet ..
  · exact Quiet.refl s

/-- Freeing objects is quiet. -/
theorem freeObjs_quiet (s : State) (own : SyncObj → Bool) : Quiet s (s.freeObjs own) := by
  refine Quiet.foldl _ _ (fun s e => ?_) s
  dsimp only; split
  · exact ((setObj_quiet ..).trans (dropBar_quiet ..)).trans (shareSync_quiet ..)
  · exact Quiet.refl s

/-- Freeing a job's objects is quiet. -/
theorem freeJobObjs_quiet (s : State) (j : Nat) : Quiet s (s.freeJobObjs j) :=
  ((abandonObjs_quiet ..).trans (freeObjs_quiet ..)).trans (shareSync_quiet ..)

/-- Settling a stream leaves the jobs alone. -/
theorem settle_jobs (s : State) (k : Nat) : (s.settle k).qm.jobs = s.qm.jobs := by
  have ho : ∀ (z : State) f, (z.onStream k f).qm.jobs = z.qm.jobs := by
    intro z f; obtain ⟨S, h⟩ := onStream_rest z k f; rw [h]
  have hr : ∀ s : State, (s.rewind k).qm.jobs = s.qm.jobs := by
    intro s; simp only [State.rewind]; split
    · rfl
    · rw [ho]
  have hs : (s.startRejected k).qm.jobs = s.qm.jobs := by
    simp only [State.startRejected]; repeat' split
    all_goals rfl
  have hw : ∀ z : State, (z.writeBack k).qm.jobs = z.qm.jobs := fun z => (writeBack_quiet z k).jobs
  simp only [State.settle]
  split
  · rfl
  · split
    · split
      · rw [hw, ho, hr]
      · exact hr s
    · split
      · split
        · exact hs
        · rw [hw, ho, hr, hs]
      · split
        · rfl
        · split
          · rfl
          · split
            · rw [ho]
            · rw [hw, ho]

/-- Killing one descriptor leaves jobs alone, and whether slots are sealed. -/
theorem abandonTile_sealed (s : State) (t u : Nat) : ((s.abandonTile t).tile u).spad.sealed = (s.tile u).spad.sealed
    ∧ ((s.abandonTile t).tile u).spad.owner = (s.tile u).spad.owner := by
  simp only [State.abandonTile]
  set z := s.onTile t (fun q => q.abandon.onSeq (fun z => { z with phase := .discarded, halted := false })) with hz
  have h := (letGo_quiet z t 2).trans (syncStop_quiet _ t)
  have hf : ∀ (l : List (Nat × Slot)) (sp : Spad), (l.foldl (fun (sp : Spad) e => sp.onSlot e.1 (fun s => { s with fill := 0, decl := 0 })) sp).sealed = sp.sealed
      ∧ (l.foldl (fun (sp : Spad) e => sp.onSlot e.1 (fun s => { s with fill := 0, decl := 0 })) sp).owner = sp.owner := by
    intro l; induction l with
    | nil => intro sp; exact ⟨rfl, rfl⟩
    | cons e l ih => intro sp; rw [List.foldl_cons]; exact ih _
  have hzt : (z.tile u).spad.sealed = (s.tile u).spad.sealed ∧ (z.tile u).spad.owner = (s.tile u).spad.owner := by
    by_cases hu : u = t
    · subst hu; rw [hz, State.tile_onTile]
      simp only [Tile.onSeq, Tile.abandon, Tile.clearMine, Tile.resetFills]
      exact hf _ _
    · rw [hz, State.tile_onTile_other _ hu]; exact ⟨rfl, rfl⟩
  exact ⟨(h.owner u).2.trans hzt.1, (h.owner u).1.trans hzt.2⟩

/-- Killing a tile seals it, and leaves jobs alone and whether other tiles are sealed. -/
theorem killTile_sealed (s : State) (t j : Nat) (r : Bool) : ((s.killTile t j r).tile t).spad.sealed = true
    ∧ (∀ u, (s.tile u).spad.sealed = true → ((s.killTile t j r).tile u).spad.sealed = true) ∧ (s.killTile t j r).qm.jobs = s.qm.jobs := by
  simp only [State.killTile]
  obtain ⟨z, hz⟩ : ∃ z, z = (if (s.tile t).live && (s.tile t).seq.job != j then s else s.abandonTile t) := ⟨_, rfl⟩
  have hzs : ∀ u, (z.tile u).spad.sealed = (s.tile u).spad.sealed := by
    intro u; rw [hz]; split
    · rfl
    · exact (abandonTile_sealed s t u).1
  have hzj : z.qm.jobs = s.qm.jobs := by
    rw [hz]; split
    · rfl
    · exact (abandonTile_descs s t).2.2
  rw [← hz]
  obtain ⟨y, hy⟩ : ∃ y, y = z.sealTile t 2 := ⟨_, rfl⟩
  have hq := closeWindows_quiet z t 2
  have hyt : (y.tile t).spad.sealed = true := by rw [hy]; simp only [State.sealTile, State.tile_onTile]; rfl
  have hyo : ∀ u, u ≠ t → (y.tile u).spad.sealed = (s.tile u).spad.sealed := by
    intro u hu; rw [hy]; simp only [State.sealTile, State.tile_onTile_other _ hu]
    exact (hq.owner u).2.trans (hzs u)
  have hyj : y.qm.jobs = s.qm.jobs := by rw [hy]; exact hq.jobs.trans hzj
  rw [← hy]
  have ht : ((y.onTile t (fun q =>
    { (if (s.tile t).live && (s.tile t).seq.job != j then q else q.wipe) with spad := { (if (s.tile t).live && (s.tile t).seq.job != j then q else q.wipe).spad with owner := some j, retain := if r then some j else none } })).tile t).spad.sealed = true := by
    rw [State.tile_onTile]
    show (if (s.tile t).live && (s.tile t).seq.job != j then y.tile t else (y.tile t).wipe).spad.sealed = true
    split
    · exact hyt
    · exact hyt
  refine ⟨ht, ?_, hyj⟩
  intro u hu
  by_cases h : u = t
  · subst h; exact ht
  · rw [State.tile_onTile_other _ h, hyo u h]; exact hu

/-- Killing some tiles seals each of them. -/
theorem killTiles_sealed (j : Nat) (r : State → Bool) (l : List Nat) : ∀ s : State,
    (∀ u, (s.tile u).spad.sealed = true → ((l.foldl (fun s t => s.killTile t j (r s)) s).tile u).spad.sealed = true)
    ∧ (∀ u ∈ l, ((l.foldl (fun s t => s.killTile t j (r s)) s).tile u).spad.sealed = true)
    ∧ (l.foldl (fun s t => s.killTile t j (r s)) s).qm.jobs = s.qm.jobs := by
  induction l with
  | nil => intro s; exact ⟨fun u h => h, fun u h => by simp at h, rfl⟩
  | cons t l ih =>
    intro s
    obtain ⟨h1, h2, h3⟩ := ih (s.killTile t j (r s))
    obtain ⟨k1, k2, k3⟩ := killTile_sealed s t j (r s)
    refine ⟨fun u hu => h1 u (k2 u hu), ?_, h3.trans k3⟩
    intro u hu
    rcases List.mem_cons.1 hu with rfl | hu
    · exact h1 _ k1
    · exact h2 u hu

/-- Killing a descriptor leaves the jobs alone. -/
theorem killDesc_jobs (s : State) (d : Desc) (st c : Nat) : (s.killDesc d st c).qm.jobs = s.qm.jobs := by
  have h := (withdraw_quiet (s.stopWork d) (fun x => match x with
    | .defer uid _ => uid == d.uid
    | _ => false) none).jobs
  exact h.trans (stopWork_descs s d).2.2

/-- Killing descriptors leaves the jobs alone. -/
theorem killDescs_jobs (s : State) (uid j : Nat) : (s.killDescs uid j).qm.jobs = s.qm.jobs := by
  simp only [State.killDescs]
  generalize s.qm.descs.filter (fun d => s.jobOf d == j && d.started && d.uid != uid) = l
  induction l generalizing s with
  | nil => rfl
  | cons d l ih => rw [List.foldl_cons, ih, killDesc_jobs]

/-- Resetting a stream leaves the jobs alone. -/
theorem resetStream_jobs (s : State) (k : Nat) : (s.resetStream k).qm.jobs = s.qm.jobs := by
  simp only [State.resetStream, settle_jobs]
  obtain ⟨S, h⟩ := onStream_rest s k (fun x => { x with resetting := true }); rw [h]

/-- Stopping a job's streams leaves the jobs alone. -/
theorem stopStreams_jobs (s : State) (j : Nat) : (s.stopStreams j).qm.jobs = s.qm.jobs := by
  simp only [State.stopStreams]
  generalize s.qm.streams.filter _ = l
  induction l generalizing s with
  | nil => rfl
  | cons d l ih => rw [List.foldl_cons, ih, resetStream_jobs]

/-- A tile that is not as at reset is listed. -/
theorem tile_mem {s : State} {t : Nat} (h : s.tile t ≠ Tile.init) : (t, s.tile t) ∈ s.tiles := by
  simp only [State.tile] at h ⊢
  generalize s.tiles = l at h ⊢
  induction l with
  | nil => simp [Tab.get] at h
  | cons x r ih =>
    obtain ⟨a, b⟩ := x
    simp only [Tab.get] at h ⊢
    split
    · rename_i hk; subst hk; simp
    · rename_i hk; rw [if_neg hk] at h; exact List.mem_cons_of_mem _ (ih h)

/-- The descriptors of a stream, up to grants and transfers. -/
theorem descsOf_bare {s z : State} (h : z.qm.descs.map Desc.bare = s.qm.descs.map Desc.bare) (k : Nat) :
    (z.descsOf k).map Desc.bare = (s.descsOf k).map Desc.bare := by
  have hf : ∀ l : List Desc, (l.filter (fun d => d.stream == k)).map Desc.bare = (l.map Desc.bare).filter (fun d => d.stream == k) := by
    intro l; rw [List.filter_map]; rfl
  simp only [State.descsOf, hf, h]

/-- A quadruple is made of its parts. -/
theorem tuple_eta (r : Nat × Nat × Nat × Nat) : r = (r.1, r.2.1, r.2.2.1, r.2.2.2) := by obtain ⟨a, b, c, d⟩ := r; rfl

/-- A `REED_SPILL` that is due on a tile whose Reed its job owns. -/
theorem reedSpill_due {s : State} {uid t k n a b : Nat} {d : Desc} (hd : s.desc uid = some d) (h6 : d.due 6 = true) (hx : d.xfer = none)
    (ht : s.reedTile d = some t) (ho : (s.tile t).row.owner = some d.job) (hr : d.reedRange = (k, n, a, b)) :
    s.reedSpill uid = s.reedSave d a b (reedImage (s.tile t).row k n) (s.access d.reedAgent true a (8 * n)) (s.access d.reedAgent true b (2 * n)) := by
  unfold State.reedSpill
  rw [hd]
  simp only []
  rw [if_neg (by rw [h6]; simp), hx]
  simp only []
  rw [ht]
  simp only []
  rw [hr]
  simp only []
  rw [if_pos (by rw [ho]; simp)]

/-- The transfer of a fill of a given range. -/
theorem fillXfer_of {d : Desc} {k n a b : Nat} (hr : d.reedRange = (k, n, a, b)) :
    d.fillXfer.srcs 0 = [(.pkg a, 8 * n), (.pkg b, 2 * n)] ∧ d.fillXfer.units = 1 := by
  unfold Desc.fillXfer
  rw [hr]; exact ⟨rfl, rfl⟩

/-- A `REED_FILL` that is due and has not asked for its bytes. -/
theorem reedFill_due {s y : State} {uid t : Nat} {d : Desc} {x : Xfer} {e e1 : QEntry} (hd : s.desc uid = some d) (h7 : d.due 7 = true)
    (hxf : d.xfer = none) (ht : s.reedTile d = some t) (hx : x = d.fillXfer) (he : e = { d.newXfer with ans := 1 }) (hans : ansStop s e = none)
    (hask : s.askHeld x = false)
    (hall : (s.onDesc uid (fun d => { d with begun := true, acted := true })).askAll d.reedAgent x { e with bellRows := 1 }
      = (s.onDesc uid (fun d => { d with begun := true, acted := true }), e1))
    (hy : y = (s.onDesc uid (fun d => { d with begun := true, acted := true })).putXfer uid e1) :
    s.reedFill uid = y.reedTake d t (y.readUnit d.reedAgent e1 0 (x.srcs 0)) := by
  have has : e.asked = false := by rw [he]; rfl
  unfold State.reedFill
  rw [hd]
  simp only []
  rw [if_neg (by rw [h7]; simp), ht]
  simp only []
  rw [hxf, Option.getD_none, ← hx, ← he, hans]
  simp only []
  rw [hask, has, if_neg (by simp), if_neg (by simp), hall, ← hy]

theorem newXfer_facts {d : Desc} {e : QEntry} (h : e = { d.newXfer with ans := 1 }) : e.owed = 0 ∧ e.ans = 1 ∧ e.tgt = 127 := by
  rw [h]; exact ⟨rfl, rfl, rfl⟩

/-- A transfer of two pieces that are homed here asks for nothing. -/
theorem askAll_two {s : State} {g : Agent} {x : Xfer} {e : QEntry} {a b m l : Nat} (hu : x.units = 1) (hs : x.srcs 0 = [(.pkg a, m), (.pkg b, l)])
    (ha : ∀ i, i < m → s.isHome (a + i) = true) (hb : ∀ i, i < l → s.isHome (b + i) = true) : s.askAll g x e = (s, e) := by
  have h1 : ∀ off, s.askPiece g e off (.pkg a) m = (s, e) := fun off => askPiece_home ha
  have h2 : ∀ off, s.askPiece g e off (.pkg b) l = (s, e) := fun off => askPiece_home hb
  unfold State.askAll
  rw [hu, List.range_one, List.foldl_cons, List.foldl_nil, hs, List.foldl_cons, List.foldl_cons, List.foldl_nil, h1]
  rw [h2]

/-- Where an address is homed depends on the Keywork and the set-up registers. -/
theorem isHome_of {s z : State} (hk : z.kw = s.kw) (hc : z.cfg = s.cfg) (a : Nat) : z.isHome a = s.isHome a := by
  simp only [State.isHome, State.homeDie, State.homeStack, hk, pos_of_cfg hc]

/-- An access depends on the Keywork, the set-up registers, the package and the states of the ports. -/
theorem access_of {s z : State} (hk : z.kw = s.kw) (hc : z.cfg = s.cfg) (hp : z.pkg = s.pkg) (hs : ∀ p, (z.port p).st = (s.port p).st)
    (g : Agent) (w : Bool) (a n : Nat) : z.access g w a n = s.access g w a n := by
  have hpos := pos_of_cfg hc
  simp only [State.access, isPoisoned_congr hc hs hp hk, State.deny, State.held, hk, hpos]

/-- The bytes of a piece that is homed here. -/
theorem readPiece_home {s : State} {g : Agent} {e : QEntry} {off a n : Nat} (ho : e.owed = 0) (hh : ∀ i, i < n → s.isHome (a + i) = true)
    (ha : s.access g false a n = .ok ()) : s.readPiece g e off (.pkg a) n = .ok (s.mem.rdBytes a n) := by
  simp only [State.readPiece, ha]
  rw [if_neg (by rw [ho]; simp)]
  congr 1
  rw [← rdBytes_map]
  apply List.map_congr_left
  intro i hi
  rw [if_pos (hh i (by simpa using hi))]

/-- The bytes of two pieces that are homed here. -/
theorem readUnit_two {s y : State} {g : Agent} {x : Xfer} {e : QEntry} {off a b m l : Nat} (hm : y.mem = s.mem) (hs : x.srcs 0 = [(.pkg a, m), (.pkg b, l)])
    (ho : e.owed = 0) (ha : ∀ i, i < m → y.isHome (a + i) = true) (hb : ∀ i, i < l → y.isHome (b + i) = true)
    (haa : y.access g false a m = .ok ()) (hab : y.access g false b l = .ok ()) :
    y.readUnit g e off (x.srcs 0) = .ok (s.mem.rdBytes a m ++ s.mem.rdBytes b l) := by
  rw [hs]
  simp only [State.readUnit, readPiece_home ho ha haa, readPiece_home ho hb hab, List.append_nil, hm]

/-- An event doorbell that moves the head (R319). -/
theorem eventBell_ok {z : State} {v : Nat} (p : Nat) (h1 : v < z.evSize) (h2 : z.evSize ≤ 2 ^ 16)
    (h3 : (v + z.evSize - z.qm.evHead) % z.evSize ≤ (z.qm.evTail + z.evSize - z.qm.evHead) % z.evSize) :
    z.eventBell p v = { z with qm := { z.qm with evHead := v } } := by
  have hb0 : bitsOf v 0 16 = v := by
    simp only [bitsOf, pow_zero, Nat.div_one]; exact Nat.mod_eq_of_lt (by omega)
  have hd0 : v / 2 ^ 16 = 0 := Nat.div_eq_of_lt (by omega)
  unfold State.eventBell
  simp only [hb0]
  rw [if_pos ⟨h1, hd0, h3⟩]

/-- A doorbell of the window that the queue manager looks at. -/
theorem windowWrite_event {z : State} {p : Nat} {k : Packet} (h1 : bitAt (z.reg 0x2000) 0 = true) (h2 : z.role p = 3) (h3 : k.addr = 0x800) :
    z.windowWrite p k = z.eventBell p (leNat (k.data.take 8)) := by
  unfold State.windowWrite
  rw [h1, h2]
  simp only []
  rw [if_neg (by decide), if_neg (by rw [h3]; omega), if_pos h3]

/-- A ring doorbell of the window that the queue manager looks at: it waits on its port while its tables are read (R312). -/
theorem windowWrite_ring {z : State} {p : Nat} {k : Packet} (h1 : bitAt (z.reg 0x2000) 0 = true) (h2 : z.role p = 3) (h3 : k.addr ≤ 0x7F8)
    (h4 : k.addr % 8 = 0) (h5 : (z.ringBell p (leNat (k.data.take 8))).2 = false) :
    z.windowWrite p k = (z.ringBell p (leNat (k.data.take 8))).1 := by
  unfold State.windowWrite
  rw [h1, h2]
  simp only []
  rw [if_neg (by decide), if_pos ⟨h3, h4⟩, h5, if_neg (by decide)]

/-- A table write that the queue manager's map allows, of an address homed here. -/
theorem wrTable_home {s : State} {a : Nat} {bs : List Byte} (hc : s.qmCheck 0 true false a bs.length = 0) (hh : s.isHome a = true)
    (hg : a % granuleBytes + bs.length ≤ granuleBytes) : (s.wrTable a bs).mem = s.mem.wrBytes a bs := by
  simp only [State.wrTable, hc]
  exact wrPkg_mem_home s a 0 bs hh hg

/-- No ring entry is written where the die holds none. -/
theorem writeRing_none {s : State} {x : Stream} (h : Tab.get none s.qm.rings x.ring = none) : s.writeRing x = s := by
  unfold State.writeRing
  split
  · rename_i r hr; rw [h] at hr; exact absurd hr (by simp)
  · rfl

/-- A doorbell of a ring that is held and read, without `RESUME`, that R318 accepts. -/
theorem ringBell_ok {s : State} {v : Nat} {r : Ring} {x : Stream} {j : Job} (p : Nat)
    (h14 : bitsOf v 14 1 = 0) (h15 : bitsOf v 15 1 = 0) (hbw : s.bellWaits (bitsOf v 0 14) = false)
    (hr : Tab.get none s.qm.rings (bitsOf v 0 14) = some r) (hrd : r.read = true) (hrv : r.valid = true) (hx : s.stream r.stream = some x)
    (hxv : x.valid = true) (hxr : x.ring = bitsOf v 0 14) (hlog : r.log2 ≤ x.cplLog2) (hj : Tab.get none s.qm.jobs x.job = some j)
    (hjv : j.valid = true) (hjl : j.st = .live) (ha0 : 0 < (bitsOf v 32 32 + 2 ^ 32 - r.lastTag) % 2 ^ 32)
    (ha1 : (bitsOf v 32 32 + 2 ^ 32 - r.lastTag) % 2 ^ 32 < 2 ^ 31) (ht : bitsOf v 16 16 < 2 ^ r.log2)
    (hah : (r.tail % 2 ^ r.log2 + 2 ^ r.log2 - x.head % 2 ^ r.log2) % 2 ^ r.log2 ≤ (bitsOf v 16 16 + 2 ^ r.log2 - x.head % 2 ^ r.log2) % 2 ^ r.log2) :
    s.ringBell p v = ((((s.onRing (bitsOf v 0 14) (fun r => { r with tail := bitsOf v 16 16, lastTag := bitsOf v 32 32 })).onStream r.stream
      (fun x => x)).settle r.stream).exact r.stream, false) := by
  have hhe : s.heldEntries (bitsOf v 0 14) = some { ring := r, sid := r.stream, stream := x, job := j } := by
    simp only [State.heldEntries, hr, hx, hj]
  have hok : Entries.ok { ring := r, sid := r.stream, stream := x, job := j } (bitsOf v 0 14) = true := by
    simp only [Entries.ok, hrv, hxv, hxr, hjv, hjl]; simp [hlog]
  have hcase : ∀ b, Entries.case { ring := r, sid := r.stream, stream := x, job := j } false (bitsOf v 16 16) (bitsOf v 32 32) b = 6 := by
    intro b
    simp only [Entries.case]
    rw [if_neg, if_neg, if_neg (by simp)]
    · simp only [Bool.or_eq_true, decide_eq_true_eq, not_or, not_le, not_lt]
      exact ⟨ht, hah⟩
    · simp only [Bool.or_eq_true, decide_eq_true_eq, not_or, not_le, beq_iff_eq]
      exact ⟨by omega, ha1⟩
  unfold State.ringBell
  simp only [h14, hr, hrd, hhe, hbw]
  simp only [Bool.not_true, Bool.or_false, Nat.reduceBEq, Bool.false_eq_true, if_false, State.bellCases, h14, hok, h15, hcase, bne_self_eq_false,
    Bool.false_and]

end Sys2Proof.Machine
end

