-- ==== Sys2Proof/Laws/Links.lean ====
section
/-!
SUPPORT. Facts about training, admission, keys and the loss of links that the statements on the ports cite.
-/

set_option Elab.async false

namespace Sys2Proof.Machine

open Sys2Proof

/-- A unit that exists. -/
theorem onUnit_true {b : Bool} (h : b = true) (p : Nat) (z : State) : onUnit b p z = .next z := by subst h; rfl

/-- What an event leaves of a port. -/
theorem event_link (s : State) (e : Ev) (p : Nat) : ((s.event e).port p).link = (s.port p).link := (event_mild s e).link p

/-- Every lane in use lies on a position that passes (R385 to R387). -/
theorem chooseMap_lanes {map m : Word} {pass i : Nat} {x32 half : Bool} (h : chooseMap map pass = some (m, x32, half))
    (h0 : (if half then 32 else 0) ≤ i) (h1 : i < (if x32 && !half then 32 else 64)) :
    ∃ pos, (inService m)[i]? = some pos ∧ pass.testBit pos = true := by
  have hm := List.mem_of_find?_eq_some h
  have hf := List.find?_some h
  simp only [lanesPass, Bool.and_eq_true, beq_iff_eq, List.all_eq_true] at hf
  obtain ⟨hl, ha⟩ := hf
  simp only [List.mem_cons, List.not_mem_nil, or_false, Prod.mk.injEq] at hm
  have hx : i - (if half then 32 else 0) < (if x32 then 32 else 64) := by
    rcases hm with h | h | h | h <;> (obtain ⟨-, rfl, rfl⟩ := h; simp at *; omega)
  have hg : i - (if half then 32 else 0) < (((inService m).drop (if half then 32 else 0)).take (if x32 then 32 else 64)).length := by rw [hl]; exact hx
  refine ⟨_, ?_, ha _ (List.getElem_mem hg)⟩
  rw [List.getElem_take, List.getElem_drop]
  rw [List.getElem?_eq_some_iff]
  refine ⟨?_, ?_⟩
  · rw [List.length_take, List.length_drop] at hg; omega
  · congr 1; omega

/-- The credits that a capability block advertises. -/
theorem caps_credits (a b x y z : Nat) (rest : List Byte) :
    ((leBytes 4 a ++ leBytes 4 b ++ leBytes 4 (256 + 1024 * 2 ^ 16) ++ leBytes 4 (1024 + 128 * 2 ^ 16)
      ++ leBytes 4 (128 + x * 2 ^ 16 + y * 2 ^ 17 + 2 ^ 18) ++ leBytes 4 z ++ rest).drop 8).take 10
      = leBytes 2 256 ++ leBytes 2 1024 ++ leBytes 2 1024 ++ leBytes 2 128 ++ leBytes 2 128 := by
  simp only [leBytes, List.cons_append, List.nil_append, List.drop_succ_cons, List.drop_zero, List.take_succ_cons, List.take_zero,
    List.append_assoc]
  have h : ∀ n m : Nat, n % 256 = m % 256 → BitVec.ofNat 8 n = BitVec.ofNat 8 m := by
    intro n m h; apply BitVec.eq_of_toNat_eq; simpa using h
  simp only [List.cons.injEq, and_true, true_and]
  repeat' apply And.intro
  all_goals (apply h; omega)

/-- Aborting a port test touches test access only. -/
theorem abortPortTest_rest (s : State) (p : Nat) : ∃ T, s.abortPortTest p = { s with tst := T } := by
  simp only [State.abortPortTest]; split
  · exact ⟨_, rfl⟩
  · exact ⟨s.tst, rfl⟩

/-- The registers after a map is written back. -/
theorem putMap_reg (s : State) (p b : Nat) (map : Word) :
    (s.putMap p map).reg b = if b = 0x100C + 0x40 * p then map else s.reg b := by
  simp only [State.putMap]
  split
  · rename_i h
    simp only [beq_iff_eq] at h
    split
    · rename_i hb; rw [hb, h]
    · rfl
  · have h : ∀ z : State, ∀ e, (z.event e).reg b = z.reg b := fun z e => by simp only [State.reg, (event_mild z e).cfg]
    rw [h, State.reg_setReg]

/-- Writing a map back leaves the ports' links alone. -/
theorem putMap_link (s : State) (p q : Nat) (map : Word) : ((s.putMap p map).port q).link = (s.port q).link := by
  simp only [State.putMap]
  split
  · rfl
  · rw [event_link]; rfl

/-- When a list of checks finds nothing. -/
theorem reason_zero (ok v c n : Bool) :
    ((if !ok then 1 else if v then 2 else if c then 3 else if n then 4 else 0) = 0) ↔ ok = true ∧ v = false ∧ c = false ∧ n = false := by
  cases ok <;> cases v <;> cases c <;> cases n <;> simp

/-- When a partner's block passes every check (R391). -/
theorem capsReason_fits {s : State} {p : Nat} {k : Packet} (hr : s.role p < 4) :
    (s.capsReason p k = 0) ↔ ((s.role p = 0 ∧ bitsOf (pktLE k 0 4) 8 4 = 2 ∨ s.role p = 3 ∧ bitsOf (pktLE k 0 4) 8 4 = 1
        ∨ (s.role p = 1 ∨ s.role p = 2) ∧ (bitsOf (pktLE k 0 4) 8 4 = 0 ∨ bitsOf (pktLE k 0 4) 8 4 = 3) ∧ bitsOf (pktLE k 0 4) 12 3 = s.role p)
      ∧ bitsOf (pktLE k 0 4) 0 8 ≠ 0 ∧ 64 ≤ pktLE k 8 2 ∧ 256 ≤ pktLE k 10 2 ∧ 256 ≤ pktLE k 12 2 ∧ 32 ≤ pktLE k 14 2 ∧ 32 ≤ pktLE k 16 2
      ∧ ((bitAt (s.port p).ctl 4 || (pktLE k 0x10 4).testBit 17) = true → (pktLE k 0x10 4).testBit 16 = true)) := by
  unfold State.capsReason State.confReq
  refine (reason_zero _ _ _ _).trans ?_
  refine and_congr ?_ (and_congr (by simp) ?_)
  · have h : s.role p = 0 ∨ s.role p = 1 ∨ s.role p = 2 ∨ s.role p = 3 := by omega
    rcases h with h | h | h | h <;> simp [h]
  · generalize (bitAt (s.port p).ctl 4 || (pktLE k 0x10 4).testBit 17) = c
    generalize (pktLE k 0x10 4).testBit 16 = b
    simp only [Bool.or_eq_false_iff, decide_eq_false_iff_not, not_lt, and_assoc]
    refine and_congr Iff.rfl (and_congr Iff.rfl (and_congr Iff.rfl (and_congr Iff.rfl (and_congr Iff.rfl ?_))))
    cases c <;> cases b <;> simp

/-- The port that comes up. -/
theorem portUp_link (s : State) (p : Nat) (c : Bool) :
    ((s.portUp p c).port p).link = ({ s.port p with st := .up, confOn := c, retrainReq := false } : Port).link := by
  obtain ⟨a, ha⟩ : ∃ a, a = s.onPort p (fun po => { po with
    st := .up, confOn := c, retrainReq := false, lastSent := s.now, lastRecv := s.now, lastBusy := s.now }) := ⟨_, rfl⟩
  have h : ∀ x : State, (x.port p = a.port p) → ∀ e n, ((((x.event e).onPort p (fun po => po.flushAt n))).port p).link = (a.port p).link := by
    intro x hx e n
    rw [State.port_onPort, (Port.flushAt_st _ _).2.2.2, event_link, hx]
  have ha' : (a.port p).link = ({ s.port p with st := .up, confOn := c, retrainReq := false } : Port).link := by
    rw [ha, State.port_onPort]; rfl
  rw [← ha']
  have hx : ∃ x e n, s.portUp p c = (State.event x e).onPort p (fun po => po.flushAt n) ∧ x.port p = a.port p := by
    simp only [State.portUp, ← ha]
    repeat' split
    all_goals exact ⟨_, _, _, rfl, rfl⟩
  obtain ⟨x, e, n, h1, h2⟩ := hx
  rw [h1]; exact h x h2 e n

/-- Sending on a port that is not up leaves its link alone. -/
theorem sendRaw_link (s : State) (p : Nat) (k : Packet) : ((s.sendRaw p k).port p).link = (s.port p).link := by
  rw [State.sendRaw, State.port_onPort]; rfl

/-- Sending leaves the links alone. -/
theorem sendOn_link (s : State) (p q : Nat) (k : Packet) : ((s.sendOn p k).port q).link = (s.port q).link := (sendOn_mild s p k).link q

/-- Sending keys leaves the link alone. -/
theorem sendKeys_link (s : State) (p e : Nat) : ((s.sendKeys p e).port p).link = (s.port p).link := by
  simp only [State.sendKeys]
  have h : ∀ (z : State) (k : Packet), ((if (z.port p).st == .up then z.sendOn p k else z.sendRaw p k).port p).link = (z.port p).link := by
    intro z k; split
    · exact sendOn_link ..
    · exact sendRaw_link ..
  show ((State.tick _).port p).link = _
  have ht : ∀ z : State, (z.tick).port p = z.port p := fun _ => rfl
  rw [ht, h, h]

/-- Equal links are in equal states. -/
theorem link_st {a b : Port} (h : a.link = b.link) : a.st = b.st := by have := congrArg Port.st h; exact this

/-- Changing a transfer leaves the ports alone. -/
theorem onWork_ports (s : State) (o : OpenTx) (f : QEntry → QEntry) : (s.onWork o f).ports = s.ports := by
  simp only [State.onWork]; repeat' split
  all_goals rfl

/-- Completing writes leaves the links alone. -/
theorem settleInvs_link (s : State) (p : Nat) : ((s.settleInvs).port p).link = (s.port p).link := by
  simp only [State.settleInvs]
  have h : ∀ (l : List InvDue) (z : State), ((l.foldl State.due z).port p).link = (z.port p).link := by
    intro l
    induction l with
    | nil => intro z; rfl
    | cons x r ih =>
      intro z
      simp only [List.foldl]
      rw [ih]
      simp only [State.due]
      split
      · simp only [State.sendDue]
        split
        · exact sendOn_link ..
        · split
          · exact sendOn_link ..
          · rfl
      · simp only [State.workAcked]
        repeat' split
        all_goals rfl
  rw [h]; rfl

/-- A partner's block is taken and the port goes on. -/
theorem takeCaps_port (s : State) (p : Nat) (k : Packet) : ((s.takeCaps p k).port p).link = ({ s.port p with
    version := if bitAt (s.port p).ctl 6 then 1 else min (s.rfld 0x0010 8 8) (bitsOf (pktLE k 0 4) 0 8)
    peerKind := bitsOf (pktLE k 0 4) 8 4, peerRole := bitsOf (pktLE k 0 4) 12 3, peerPos := bitsOf (pktLE k 0 4) 16 8
    peerPort := bitsOf (pktLE k 0 4) 24 6, peerPart := pktLE k 4 4, peerL1 := (pktLE k 0x10 4).testBit 18 } : Port).link := by
  rw [State.takeCaps, State.port_onPort]; rfl

/-- Key packets that a lost link held are nobody's. -/
theorem unackedLost_four {s : State} {k : Packet} (h : k.cls = 4) (r : Bool) : s.unackedLost k r = s := by
  have h1 : s.txOf k = none := by simp [State.txOf, State.ownRequest, h]
  simp [State.unackedLost, repeats, State.loseTx, State.loseInv, h, h1]

/-- A failed key exchange isolates the port (R499). -/
theorem kexFail_st {s : State} {p : Nat} (r : Nat) (hq : (s.port p).queue = []) (hu : ∀ x ∈ (s.port p).unacked, x.cls = 4)
    (h1 : (s.port p).st = .admitWait) : ((s.kexFail p r).port p).st = .isolated := by
  obtain ⟨a, ha⟩ : ∃ a, a = (s.onPort p (fun po => po.idle .isolated)).event { typ := 0x0404, pay := [(0x18, 4, p), (0x1C, 4, r)] } := ⟨_, rfl⟩
  have hap : (a.port p).st = .isolated := by
    rw [ha, (event_mild _ _).st, State.port_onPort]; rfl
  have hk : s.kexFail p r = a.portDrop p (s.port p) true := by rw [ha]; rfl
  rw [hk]
  have hf : ∀ (l : List Packet), (∀ x ∈ l, x.cls = 4) → l.foldl (fun z k => State.unackedLost z k true) a = a := by
    intro l
    induction l with
    | nil => intro _; rfl
    | cons x l ih =>
      intro h
      simp only [List.foldl]
      rw [unackedLost_four (h x (by simp))]
      exact ih (fun y hy => h y (by simp [hy]))
  have hseq : ∀ (l : List Packet), (∀ x ∈ l, x.cls = 4) → a.lostSeqs l true = [] := by
    intro l h
    unfold State.lostSeqs
    rw [List.filterMap_eq_nil_iff.mpr]
    · rfl
    · intro x hx
      have hx4 := h x (List.mem_filter.mp hx).1
      have h1 : a.txOf x = none := by simp [State.txOf, State.ownRequest, hx4]
      rw [h1]
  unfold State.portDrop
  rw [show a.afterFall p ((s.port p).st == .up || (s.port p).st == .retraining) = a by rw [h1]; rfl]
  simp only []
  split
  · exact hap
  · rw [hq]
    have hu' : ∀ (f : Packet → Bool), ∀ x ∈ (s.port p).unacked.filter f, x.cls = 4 := fun f x hx => hu x (List.mem_filter.mp hx).1
    simp only [State.portPackets, List.filter_nil, List.foldl_nil]
    rw [hseq _ (hu' _)]
    rw [show a.portFaults p [] = a from rfl, hf _ (hu' _)]
    rw [link_st (settleInvs_link a p)]
    exact hap

/-- A key packet that a port waiting for admission takes in. -/
theorem receive_key {s : State} {p : Nat} {k : Packet} (hst : (s.port p).st = .admitWait) (hc : k.cls = 4) (ht : k.ptype = 7)
    (h1 : roleCarries (s.role p) k = true) (h2 : packetOk (s.port p).version (s.port p).confOn k = true)
    (h3 : (s.port p).confOn = true → k.authOk = true) (act : State → State) : s.receive p k act = act (s.taken p k) := by
  have hk : (k.cls == 4 && k.ptype == 7) = true := by simp [hc, ht]
  simp only [State.receive, hst, hk]
  rw [if_neg (by decide), if_neg]
  · have hr : ∀ f : Port → Port, (s.onPort p f).role p = s.role p := fun _ => rfl
    simp only [hr]
    rw [if_neg (by simp [h1, h2]), if_neg (by simp [linkLocal, hc, ht])]
    rfl
  · intro h
    simp only [Bool.and_eq_true, Bool.not_eq_true'] at h
    rw [h3 h.1] at h; simp at h

/-- A port after it took a packet in. -/
theorem taken_port (s : State) (p : Nat) (k : Packet) : (s.taken p k).port p = { s.port p with
    recvCount := (s.port p).recvCount + 1, lastRecv := s.now, lastBusy := if keepsAwake k then s.now else (s.port p).lastBusy
    freed := if creditFree k then (s.port p).freed else Tab.mod 0 (s.port p).freed k.cls (· + packetUnits k) } := by
  have hc : ∀ (z : State) a b, (z.count a b).port p = z.port p := by
    intro z a b; simp only [State.port, State.count_ports]
  rw [State.taken, hc, State.port_onPort]

/-- Completing writes leaves the fault flags alone. -/
theorem settleInvs_flt (s : State) : (s.settleInvs).flt = s.flt := by
  simp only [State.settleInvs]
  have h : ∀ (l : List InvDue) (z : State), (l.foldl State.due z).flt = z.flt := by
    intro l
    induction l with
    | nil => intro z; rfl
    | cons x r ih =>
      intro z
      simp only [List.foldl]
      rw [ih]
      simp only [State.due]
      split
      · simp only [State.sendDue]
        split
        · exact (sendOn_mild ..).flt
        · split
          · exact (sendOn_mild ..).flt
          · rfl
      · simp only [State.workAcked]
        repeat' split
        all_goals rfl
  rw [h]

/-- The ports that lead to a die, after a change that leaves their links alone. -/
theorem portsTo_link {s z : State} (hc : z.cfg = s.cfg) (h : ∀ q, (z.port q).link = (s.port q).link) (ok : Nat → Bool) (d : Nat) :
    z.portsTo ok d = s.portsTo ok d := by
  have h1 : ∀ q, z.role q = s.role q := fun q => by simp only [State.role, State.rfld, State.reg, hc]
  have h2 : ∀ q, (z.port q).st = (s.port q).st := fun q => link_st (h q)
  have h3 : ∀ q, (z.port q).peerPos = (s.port q).peerPos := fun q => by have := congrArg Port.peerPos (h q); exact this
  simp only [State.portsTo, State.upPorts, h1, h2, h3]

/-- A port that goes down leaves those of other numbers. -/
theorem portsTo_down {s : State} {p : Nat} (f : Port → Port) (hf : (f (s.port p)).st ≠ .up) (ok : Nat → Bool) (d : Nat) :
    (s.onPort p f).portsTo ok d = (s.portsTo ok d).filter (fun q => q != p) := by
  have h1 : ∀ q, (s.onPort p f).role q = s.role q := fun q => rfl
  simp only [State.portsTo, State.upPorts, List.filter_filter, h1]
  apply List.filter_congr
  intro q hq
  by_cases e : q = p
  · subst e
    rw [State.port_onPort]
    simp [hf]
  · rw [State.port_onPort_other s e]
    simp [e]

/-- A port that falls while another leads to the same die, or a host port (R394). -/
theorem portFall_backed {s : State} {p : Nat} (c : Nat) (r : Bool) {st : PortSt} (hq : (s.port p).queue = []) (hu : (s.port p).unacked = [])
    (hold : (s.port p).st = .up ∨ (s.port p).st = .retraining)
    (hb : s.role p = 3 ∨ isDieRole (s.role p) = true ∧ ∃ q, q ≠ p ∧ q ∈ s.portsTo isDieRole (s.port p).peerPos) (hst : st ≠ .up) :
    ((s.portFall p c r st).port p).st = st ∧ ((s.portFall p c r st).port p).linkLoss = true ∧ ((s.portFall p c r st).port p).l1 = false
    ∧ (s.portFall p c r st).flt.port = true := by
  obtain ⟨b, hbd⟩ : ∃ b, b = s.onPort p (fun po => { po.idle st with linkLoss := true }) := ⟨_, rfl⟩
  obtain ⟨a, ha⟩ : ∃ a, a = b.event { typ := 0x0201, pay := [(0x18, 4, p), (0x1C, 4, c)] } := ⟨_, rfl⟩
  have hm : Mild b a := by rw [ha]; exact event_mild _ _
  have hal : (a.port p).link = ({ (s.port p).idle st with linkLoss := true } : Port).link := by
    rw [hm.link, hbd, State.port_onPort]
  have hf : s.portFall p c r st = a.portDrop p (s.port p) r := by rw [ha, hbd]; rfl
  have hw : ((s.port p).st == .up || (s.port p).st == .retraining) = true := by
    rcases hold with h | h <;> rw [h] <;> rfl
  have har : a.role p = s.role p := by simp only [State.role, State.rfld, State.reg, hm.cfg]; rw [hbd]; rfl
  have hpp : (a.port p).peerPos = (s.port p).peerPos := by have := congrArg Port.peerPos hal; exact this
  have hafter : a.afterFall p true = { a with flt := { a.flt with port := true } } := by
    unfold State.afterFall
    simp only [har, hpp]
    rcases hb with h | ⟨h1, q, h2, h3⟩
    · simp [h, isDieRole]
    · have h0 : (s.role p == 0) = false := by
        simp only [isDieRole, Bool.or_eq_true, beq_iff_eq] at h1; rcases h1 with h | h <;> rw [h] <;> rfl
      have hne : a.portsTo isDieRole (s.port p).peerPos ≠ [] := by
        rw [portsTo_link hm.cfg hm.link, hbd, portsTo_down _ (by exact hst)]
        intro h
        have : q ∈ (s.portsTo isDieRole (s.port p).peerPos).filter (fun x => x != p) := List.mem_filter.mpr ⟨h3, by simpa using h2⟩
        rw [h] at this; simp at this
      have hne' : (a.portsTo isDieRole (s.port p).peerPos).isEmpty = false := by
        rw [List.isEmpty_eq_false_iff]; exact hne
      simp only [h0, h1, hne']
      rfl
  have key : ∃ z : State, s.portFall p c r st = z ∧ (z.port p).link = (a.port p).link ∧ z.flt.port = true := by
    refine ⟨_, rfl, ?_⟩
    rw [hf]
    unfold State.portDrop
    rw [hw, hafter, hq, hu]
    simp only [List.filter_nil, State.portPackets, List.foldl_nil]
    split
    · exact ⟨rfl, rfl⟩
    · rw [settleInvs_link, settleInvs_flt]
      exact ⟨rfl, rfl⟩
  obtain ⟨z, h1, h2, h3⟩ := key
  rw [h1]
  rw [hal] at h2
  refine ⟨link_st h2, ?_, ?_, h3⟩
  · have := congrArg Port.linkLoss h2; exact this
  · have := congrArg Port.l1 h2; exact this

/-- Sending leaves the transactions alone. -/
theorem sendOn_rdc (s : State) (p : Nat) (k : Packet) : (s.sendOn p k).rdc = s.rdc := by
  simp only [State.sendOn, State.count_rdc]; rfl

/-- A transaction is read back. -/
theorem setTx_get (s : State) (tag : Nat) (o : Option OpenTx) : Tab.get none (s.setTx tag o).rdc.opens tag = o := by
  simp only [State.setTx]
  exact Tab.get_set_self s.rdc.opens tag o

/-- A one-bit field at bit 0 is read back. -/
theorem setFld_bit0 (s : State) (a v : Nat) (hv : v < 2) : (s.setFld a 0 1 v).rfld a 0 1 = v := by
  simp only [State.rfld, State.setFld, State.reg_setReg, if_true, fld, bitsOf, putBits]
  generalize hx : (s.reg a).toNat = x
  have : x < 2 ^ 32 := by rw [← hx]; exact (s.reg a).isLt
  simp only [BitVec.toNat_ofNat]
  omega

/-- A pass leaves the freed units alone. -/
theorem Port.pass_freed (po : Port) (l : List Packet) (h : List Nat) : (po.pass l h).freed = po.freed := by
  induction l generalizing po h with
  | nil => rfl
  | cons k r ih =>
    simp only [Port.pass]
    split
    · exact ih _ _
    · split
      · exact ih _ _
      · exact ih _ _

/-- Sending leaves the freed units alone. -/
theorem sendOn_freed (s : State) (p : Nat) (k : Packet) : ((s.sendOn p k).port p).freed = (s.port p).freed := by
  have hc : ∀ (z : State) a b, (z.count a b).port p = z.port p := by
    intro z a b; simp only [State.port, State.count_ports]
  rw [State.sendOn, hc, State.port_onPort]
  simp only [Port.flushAt, Port.flush]
  split
  · rw [Port.pass_freed]
  · rfl

/-- Nothing waits, nothing goes out. -/
theorem flush_empty (po : Port) (h : po.queue = []) : po.flush = po := by
  obtain ⟨⟩ := po
  simp only at h
  subst h
  simp only [Port.flush, Port.pass]
  split <;> rfl

/-- A change of the five classes' counts. -/
theorem foldl_mod_five (t : Tab Nat) (g : Nat → Nat → Nat) (c : Nat) (hc : c < 5) :
    Tab.get 0 ((List.range 5).foldl (fun t c => Tab.mod 0 t c (g c)) t) c = g c (Tab.get 0 t c) := by
  rw [show List.range 5 = [0, 1, 2, 3, 4] from rfl]
  simp only [List.foldl, Tab.get_mod]
  have : c = 0 ∨ c = 1 ∨ c = 2 ∨ c = 3 ∨ c = 4 := by omega
  rcases this with rfl | rfl | rfl | rfl | rfl <;> simp

end Sys2Proof.Machine
end

