-- ==== Sys2Proof/Laws/Members.lean ====
section
/-!
SUPPORT. Facts about membership, isolation and configuration answers that the statements on the package cite.
-/

set_option Elab.async false

namespace Sys2Proof.Machine

open Sys2Proof

/-- Refusing a die is mild. -/
theorem refuseDie_mild (s : State) (p d r : Nat) : Mild s (s.refuseDie p d r) := (sendOn_mild _ _ _).trans (event_mild _ _)

/-- Writing another die's level is mild. -/
theorem sendLevel_mild (s : State) (d v : Nat) : Mild s (s.sendLevel d v) := by
  simp only [State.sendLevel]
  split
  · exact request_mild _ _ _ _
  · exact event_mild _ _

/-- Sending an `ADMIT` is mild. -/
theorem sendAdmit_mild (s : State) (d op sub lvl r : Nat) (caps : List Nat) : Mild s (s.sendAdmit d op sub lvl r caps) := send_mild _ _ _ _

/-- Reporting a join is mild. -/
theorem joinedEvent_mild (s : State) (d c : Nat) : Mild s (s.joinedEvent d c) := event_mild _ _

/-- The package that the leader forms (R415, R417). -/
theorem formPackage_facts (s : State) :
    let js := s.positions.filterMap (fun d => (Tab.get none s.pkg.joins d).map (fun c => (d, c)))
    let z := s.formPackage
    z.pkg.accepted = true ∧ z.pkg.leader = s.pos ∧ z.pkg.members = js.foldl (fun m j => m ||| 2 ^ j.1) 0
      ∧ z.pkg.mepoch = (s.pkg.mepoch + 1) % 65536
      ∧ z.reg 0x0020 = BitVec.ofNat 32 (levelWord (packageLevel (js.map (·.2))).1 (packageLevel (js.map (·.2))).2) := by
  intro js z
  obtain ⟨a, ha⟩ : ∃ a, a = s.pkg.refusals.foldl (fun s r => s.refuseDie r.1 r.2.1 r.2.2) s := ⟨_, rfl⟩
  have hma : Mild s a := by rw [ha]; exact Mild.foldl _ _ (fun s r => refuseDie_mild ..) s
  obtain ⟨w, hw⟩ : ∃ w, w = levelWord (packageLevel (js.map (·.2))).1 (packageLevel (js.map (·.2))).2 := ⟨_, rfl⟩
  obtain ⟨b, hb⟩ : ∃ b, b = (js.filter (fun j => j.1 != s.pos)).foldl (fun s j => s.sendLevel j.1 w) (a.setReg 0x0020 (BitVec.ofNat 32 w)) := ⟨_, rfl⟩
  have hmb : Mild (a.setReg 0x0020 (BitVec.ofNat 32 w)) b := by rw [hb]; exact Mild.foldl _ _ (fun s r => sendLevel_mild ..) _
  obtain ⟨L, hz⟩ : ∃ L : List (Nat × Nat × Nat) × Nat, Mild (b.onPkg (fun k => { k with
    members := js.foldl (fun m j => m ||| 2 ^ j.1) 0, leader := b.pos, accepted := true, mepoch := (k.mepoch + 1) % 65536, refusals := []
    lostSeen := L.2 })) z := by
    refine ⟨([], b.pkgMask - js.foldl (fun m j => m ||| 2 ^ j.1) 0 &&& b.pkgMask), ?_⟩
    show Mild _ s.formPackage
    unfold State.formPackage
    simp only []
    rw [← ha, ← hw]
    rw [← hb]
    exact Mild.trans (Mild.foldl _ _ (fun s r => sendAdmit_mild ..) _) (Mild.foldl _ _ (fun s r => joinedEvent_mild ..) _)
  have hbp : b.pos = s.pos := by
    simp only [State.pos, State.rfld, State.reg, hmb.cfg]
    show fld (Tab.get 0 (Tab.set 0 a.cfg 0x0020 _) 0x0008) 0 3 = _
    rw [Tab.get_set, if_neg (by decide), hma.cfg]
  have hbk : b.pkg = s.pkg := by rw [hmb.pkg]; exact hma.pkg
  refine ⟨?_, ?_, ?_, ?_, ?_⟩
  · rw [hz.pkg]; rfl
  · rw [hz.pkg]; exact hbp
  · rw [hz.pkg]; rfl
  · rw [hz.pkg]; show (b.pkg.mepoch + 1) % 65536 = _; rw [hbk]
  · simp only [State.reg, hz.cfg]
    show Tab.get 0 b.cfg 0x0020 = _
    rw [hmb.cfg]
    show Tab.get 0 (Tab.set 0 a.cfg 0x0020 _) 0x0020 = _
    rw [Tab.get_set, if_pos rfl, hw]

/-- A change of the package state is read back. -/
theorem onPkg_pkg (s : State) (f : Pkg → Pkg) : (s.onPkg f).pkg = f s.pkg := rfl

/-- What isolation changes of the package state (R412). -/
theorem isolate_pkg (s : State) (c : Nat) :
    (s.isolate c).pkg = if s.pkg.isolated then s.pkg else { s.pkg with isolated := true, alertN := true } := by
  simp only [State.isolate]
  split
  · rfl
  · simp only [State.isolateNow, onPkg_pkg]
    have h : ((s.event { typ := 0x0284, pay := [(0x18, 4, c)] }).abandonAll.portsIdle).pkg = s.pkg := by simp
    rw [h]

/-- What acting on a loss leaves of the package once the members have changed: the leader, and an isolation. -/
theorem lose_tail (x : State) (P : Pkg → Prop) (hL : ∀ k l, P k → P { k with leader := l })
    (hI : ∀ k, P k → P { k with isolated := true, alertN := true }) (d m ts : Nat) (h : P x.pkg) :
    P (let s' : State := ({ x with flt := { x.flt with dieLost := true } } : State).event
        { typ := 0x0282, pay := [(0x18, 4, d), (0x1C, 4, x.pkg.word), (0x20, 8, ts)] }
      let s' : State := if s'.pkg.leader == d then
          let l := (lowestBit s'.pkg.members 8).getD s'.pos
          (s'.onPkg (fun k => { k with leader := l })).event { typ := 0x0283, pay := [(0x18, 4, d + l * 2 ^ 8)] }
        else s'
      if s'.keepsMajority m then s' else s'.isolate 2 : State).pkg := by
  have hev : ∀ (z : State) (e : Ev), P z.pkg → P (z.event e).pkg := fun z e hz => by rw [(event_mild z e).pkg]; exact hz
  have hiso : ∀ z : State, P z.pkg → P (z.isolate 2).pkg := by
    intro z hz; rw [isolate_pkg]; split
    · exact hz
    · exact hI _ hz
  obtain ⟨y, hy⟩ : ∃ y, y = ({ x with flt := { x.flt with dieLost := true } } : State).event
        { typ := 0x0282, pay := [(0x18, 4, d), (0x1C, 4, x.pkg.word), (0x20, 8, ts)] } := ⟨_, rfl⟩
  have hyp : P y.pkg := by rw [hy]; exact hev _ _ h
  rw [← hy]
  simp only []
  obtain ⟨w, hw⟩ : ∃ w, w = (if y.pkg.leader == d then
          (y.onPkg (fun k => { k with leader := (lowestBit y.pkg.members 8).getD y.pos })).event
            { typ := 0x0283, pay := [(0x18, 4, d + (lowestBit y.pkg.members 8).getD y.pos * 2 ^ 8)] }
        else y) := ⟨_, rfl⟩
  have hwp : P w.pkg := by
    rw [hw]; split
    · apply hev; exact hL _ _ hyp
    · exact hyp
  rw [← hw]
  split
  · exact hwp
  · exact hiso _ hwp

/-- What the loss of a member changes of the package state (R423). -/
theorem loseDie_pkg {s : State} {d : Nat} (ts : Nat) (h1 : d ≠ s.pos) (h2 : s.pkg.members.testBit d = true) (h3 : s.pkg.lostSeen.testBit d = false) :
    (s.loseDie d ts).pkg.members = s.pkg.members - 2 ^ d ∧ (s.loseDie d ts).pkg.mepoch = (s.pkg.mepoch + 1) % 65536
    ∧ (s.loseDie d ts).pkg.lostSeen = s.pkg.lostSeen + 2 ^ d := by
  obtain ⟨a, hap, hla⟩ : ∃ a : State, a.pkg = s.pkg ∧ s.loseDie d ts = (
      let s' : State := (a.poisonGranules (a.granulesOn (fun k => k / 4 == d))).onPkg (fun k => { k with lostSeen := k.lostSeen + 2 ^ d })
      let s' : State := ((s'.loseBarriers d).dropSrcs (fun x => match x with
        | .remote d' _ _ _ => d' == d
        | _ => false)).abandonObjs (fun o => o.ownerDie == d)
      let s' : State := s'.onPkg (fun k => { k with members := k.members - 2 ^ d, mepoch := (k.mepoch + 1) % 65536 })
      let s' : State := ({ s' with flt := { s'.flt with dieLost := true } }).event
        { typ := 0x0282, pay := [(0x18, 4, d), (0x1C, 4, s'.pkg.word), (0x20, 8, ts)] }
      let s' : State := if s'.pkg.leader == d then
          let l := (lowestBit s'.pkg.members 8).getD s'.pos
          (s'.onPkg (fun k => { k with leader := l })).event { typ := 0x0283, pay := [(0x18, 4, d + l * 2 ^ 8)] }
        else s'
      if s'.keepsMajority s.pkg.members then s' else s'.isolate 2) := by
    refine ⟨_, ?_, by unfold State.loseDie; rw [if_neg (by simp [h1, h2, h3])] <;> rfl⟩
    have hs : ∀ z : State, z.settleInvs.pkg = z.pkg := by intro z; simp
    have h : ((s.dropToward d).loseRequests d).pkg = s.pkg := by simp
    exact (hs _).trans h
  have hpg : ∀ (z : State) (l : List Nat), (z.poisonGranules l).pkg.members = z.pkg.members ∧ (z.poisonGranules l).pkg.mepoch = z.pkg.mepoch
      ∧ (z.poisonGranules l).pkg.lostSeen = z.pkg.lostSeen := fun z l => ⟨rfl, rfl, rfl⟩
  rw [hla]
  simp only []
  obtain ⟨b, hb⟩ : ∃ b, b = ((((a.poisonGranules (a.granulesOn (fun k => k / 4 == d))).onPkg (fun k => { k with
      lostSeen := k.lostSeen + 2 ^ d })).loseBarriers d).dropSrcs (fun x => match x with
        | .remote d' _ _ _ => d' == d
        | _ => false)).abandonObjs (fun o => o.ownerDie == d) := ⟨_, rfl⟩
  have hbp : b.pkg.members = s.pkg.members ∧ b.pkg.mepoch = s.pkg.mepoch ∧ b.pkg.lostSeen = s.pkg.lostSeen + 2 ^ d := by
    have hb2 : b.pkg = ((a.poisonGranules (a.granulesOn (fun k => k / 4 == d))).onPkg (fun k => { k with lostSeen := k.lostSeen + 2 ^ d })).pkg := by
      rw [hb]; simp
    rw [hb2, onPkg_pkg]
    refine ⟨?_, ?_, ?_⟩
    · exact (hpg a (a.granulesOn (fun k => k / 4 == d))).1.trans (congrArg Pkg.members hap)
    · exact (hpg a (a.granulesOn (fun k => k / 4 == d))).2.1.trans (congrArg Pkg.mepoch hap)
    · show (a.poisonGranules _).pkg.lostSeen + 2 ^ d = _
      rw [(hpg a (a.granulesOn (fun k => k / 4 == d))).2.2, hap]
  rw [← hb]
  obtain ⟨x, hx⟩ : ∃ x, x = b.onPkg (fun k => { k with members := k.members - 2 ^ d, mepoch := (k.mepoch + 1) % 65536 }) := ⟨_, rfl⟩
  have hxp : x.pkg.members = s.pkg.members - 2 ^ d ∧ x.pkg.mepoch = (s.pkg.mepoch + 1) % 65536 ∧ x.pkg.lostSeen = s.pkg.lostSeen + 2 ^ d := by
    rw [hx, onPkg_pkg]; exact ⟨by rw [hbp.1], by rw [hbp.2.1], hbp.2.2⟩
  rw [← hx]
  exact lose_tail x (fun k => k.members = s.pkg.members - 2 ^ d ∧ k.mepoch = (s.pkg.mepoch + 1) % 65536 ∧ k.lostSeen = s.pkg.lostSeen + 2 ^ d)
    (fun _ _ h => h) (fun _ h => h) d s.pkg.members ts hxp

/-- A die that comes back is a member again (R421, R425). -/
theorem readmit_pkg (s : State) (d c : Nat) : (s.readmit d c).pkg = { s.pkg with
    members := s.pkg.members ||| 2 ^ d, mepoch := (s.pkg.mepoch + 1) % 65536, lostSeen := putBits s.pkg.lostSeen d 1 0
    poison := s.pkg.poison.filter (fun g => !(ownerOf (g * granuleBytes) == d)) } := by
  have h2 : (s.sync.bars.keys.foldl (fun s id => if id / 65536 == d then s.dropBar id 2 else s) s).pkg = s.pkg :=
    (Quiet.foldl _ _ (fun z id => by
      split
      · exact dropBar_quiet ..
      · exact Quiet.refl z) s).pkg
  unfold State.readmit
  simp only []
  rw [(joinedEvent_mild _ _ _).pkg, onPkg_pkg]
  simp only [h2]

/-- Where the ports are once every port has been driven to idle (R412). -/
theorem portsIdle_st (s : State) (p : Nat) (hp : p < Config.ports) :
    ((s.portsIdle).port p).st = .down ∨ ((s.portsIdle).port p).st = .isolated ∨ ((s.portsIdle).port p).st = .failed := by
  have h : ∀ n, n ≤ Config.ports → ∀ q, q < n → let z := (List.range n).foldl (fun s p =>
      if (s.port p).st == .down || (s.port p).st == .isolated || (s.port p).st == .failed then s
      else s.onPort p (fun po => po.idle .down)) s
      (z.port q).st = .down ∨ (z.port q).st = .isolated ∨ (z.port q).st = .failed := by
    intro n
    induction n with
    | zero => intro _ q hq; omega
    | succ n ih =>
      intro hn q hq
      rw [List.range_succ, List.foldl_append]
      simp only [List.foldl]
      obtain ⟨z, hz⟩ : ∃ z, z = (List.range n).foldl (fun s p =>
        if (s.port p).st == .down || (s.port p).st == .isolated || (s.port p).st == .failed then s
        else s.onPort p (fun po => po.idle .down)) s := ⟨_, rfl⟩
      have ih' := ih (by omega)
      simp only [← hz] at ih' ⊢
      by_cases e : q = n
      · subst e
        split
        · rename_i h
          simp only [Bool.or_eq_true, beq_iff_eq] at h
          rcases h with (h | h) | h <;> simp [h]
        · rw [State.port_onPort]; left; rfl
      · split
        · exact ih' q (by omega)
        · rw [State.port_onPort_other z e]; exact ih' q (by omega)
  exact h Config.ports (Nat.le_refl _) p hp

/-- Abandoning all work leaves the package state alone. -/
theorem abandonAll_pkg (s : State) : (s.abandonAll).pkg = s.pkg := by simp

/-- What a package clock fault changes of the package state (R413). -/
theorem clockFault_pkg (s : State) (d : Nat) : (s.clockFault d).pkg = { s.pkg with lastClockFault := some s.now, clkFault := true } := by
  unfold State.clockFault
  simp only []
  split
  · rename_i h
    rw [onPkg_pkg] at h ⊢
    have h' : s.pkg.clkFault = true := h
    generalize s.pkg = k at h'
    obtain ⟨⟩ := k
    simp only at h'
    subst h'; rfl
  · rw [abandonAll_pkg, (event_mild _ _).pkg, onPkg_pkg, onPkg_pkg]

/-- Configuration packets that a port takes in. -/
theorem cfgRsp_holds {s z : State} {p : Nat} {k : Packet} (h : Mild s z) (hu : (s.port p).st = .up) (hp : z.pos = s.pos) (ok : Bool) (v : Word) :
    (z.cfgRsp p k ok v).holds p (s.answerTo p k (withData { s.packet 1 10 k.srcDie 123 with aux := bit1 (!ok) } (leBytes 4 v.toNat ++ List.replicate 28 0))) := by
  have := reply_holds k (withData { z.packet 1 10 k.srcDie 123 with aux := bit1 (!ok) } (leBytes 4 v.toNat ++ List.replicate 28 0)) h hu
  have e : z.packet 1 10 k.srcDie 123 = s.packet 1 10 k.srcDie 123 := by simp only [State.packet, hp]
  rw [e] at this
  unfold State.cfgRsp
  rw [e]
  exact this

end Sys2Proof.Machine
end

