-- ==== Sys2Proof/Laws/Resets.lean ====
section
/-!
SUPPORT. What resets, fuse sense and the option load do: what each spares, and the registers of an image (spec/16).
-/

set_option Elab.async false

namespace Sys2Proof.Machine

open Sys2Proof

/-- What a POR leaves (R428, R429). -/
theorem takeReset_por (s : State) (c su d ts : Nat) (df : Bool) :
    let z := s.takeReset .por c su d ts df
    z.mgmt.stage = 1 ∧ z.tiles = [] ∧ z.sync = SyncTree.init ∧ z.qm = Qm.init ∧ z.kw = Kw.init ∧ z.rdc = Rdc.init ∧ z.time.ts = 0
    ∧ z.sec.dbgAuth = false ∧ z.sec.token = [] ∧ z.flt = Flt.init ∧ z.fuses = s.fuses ∧ z.mgmt.imgA = s.mgmt.imgA ∧ z.mgmt.imgB = s.mgmt.imgB
    ∧ z.mgmt.fwVersion = 0 ∧ z.pending = s.pending ∧ z.mgmt.cause = c ∧ z.mgmt.sub = su ∧ z.mgmt.causeTs = 0 ∧ z.ports = []
    ∧ z.tst = Tst.init ∧ z.sec.refusals = 0 ∧ z.mgmt.deferredBit = df ∧ z.mgmt.pendingReset = none := by
  refine ⟨rfl, rfl, rfl, rfl, rfl, rfl, rfl, rfl, rfl, rfl, rfl, rfl, rfl, rfl, rfl, rfl, rfl, rfl, rfl, rfl, rfl, rfl, rfl⟩

/-- What an SRST leaves (R428, R429). -/
theorem takeReset_srst (s : State) (c su d ts : Nat) (df : Bool) :
    let z := s.takeReset .srst c su d ts df
    z.mgmt.stage = 1 ∧ z.tiles = [] ∧ z.sync = SyncTree.init ∧ z.qm = Qm.init ∧ z.kw = Kw.init ∧ z.rdc = Rdc.init ∧ z.time.ts = 0
    ∧ z.sec.dbgAuth = false ∧ z.sec.token = [] ∧ z.flt = Flt.init ∧ z.fuses = s.fuses ∧ z.mgmt.imgA = s.mgmt.imgA ∧ z.mgmt.imgB = s.mgmt.imgB
    ∧ z.mgmt.fwVersion = 0 ∧ z.pending = s.pending ∧ z.mgmt.cause = c ∧ z.mgmt.sub = su ∧ z.mgmt.reqDie = d ∧ z.mgmt.causeTs = ts
    ∧ z.tst.trace = s.tst.trace ∧ z.tst.wptr = s.tst.wptr ∧ z.sec.refusals = s.sec.refusals ∧ z.mgmt.deferredBit = df ∧ z.mgmt.pendingReset = none := by
  refine ⟨rfl, rfl, rfl, rfl, rfl, rfl, rfl, rfl, rfl, rfl, rfl, rfl, rfl, rfl, rfl, rfl, rfl, rfl, rfl, rfl, rfl, rfl, rfl, rfl⟩

/-- A request out of reset, other than by the supply monitor, with no pulse of the option store or the fuses in the way, takes
effect at once (R436). -/
theorem requestReset_now {s : State} (h1 : s.mgmt.stage ≠ 1) (h2 : s.mgmt.pendingReset = none) (lvl : ResetLevel) (c su d : Nat)
    (hc : c ≠ 1) (h3 : s.mgmt.optBusy = false) (h4 : s.mgmt.pulseNs = 0) : s.requestReset lvl c su d = s.takeReset lvl c su d s.now false := by
  unfold State.requestReset
  rw [if_neg (by simpa using h1), h2]
  simp only []
  rw [if_neg (by simpa using hc), if_neg (by simp [h3, h4])]

/-- A request of the supply monitor out of reset takes effect at once; it cuts a pulse under way (R436, R437). -/
theorem requestReset_supply {s : State} (h1 : s.mgmt.stage ≠ 1) (h2 : s.mgmt.pendingReset = none) (lvl : ResetLevel) (su d : Nat) :
    s.requestReset lvl 1 su d = s.pulseCut.takeReset lvl 1 su d s.now false := by
  unfold State.requestReset
  rw [if_neg (by simpa using h1), h2]
  simp only []
  rw [if_pos (by rfl)]

/-- Taking a packet in leaves the test unit alone. -/
theorem taken_tst (s : State) (p : Nat) (k : Packet) : (s.taken p k).tst = s.tst := by
  simp only [State.taken, State.count_tst]; rfl

/-- A mild change leaves the routes alone (R405). -/
theorem route_mild {s z : State} (h : Mild s z) (d c a : Nat) (v : Option Nat) : z.route d c a v = s.route d c a v := by
  have hp : ∀ ok d, z.portsTo ok d = s.portsTo ok d := fun ok d => portsTo_link h.cfg h.link ok d
  unfold State.route
  have hr : z.rfld 0x1C00 (4 * d) 4 = s.rfld 0x1C00 (4 * d) 4 := by simp only [State.rfld, State.reg, h.cfg]
  rw [hp, hr]
  simp only [hp]

/-- A fold that writes other registers leaves a register alone. -/
theorem foldl_reg {β : Type} (l : List β) (f : State → β → State) (b : Nat) (h : ∀ z, ∀ x ∈ l, (f z x).reg b = z.reg b) (s : State) :
    (l.foldl f s).reg b = s.reg b := by
  induction l generalizing s with
  | nil => rfl
  | cons x r ih =>
    simp only [List.foldl]
    rw [ih (fun z y hy => h z y (List.mem_cons_of_mem _ hy)), h s x (List.mem_cons_self ..)]

/-- The registers of a loaded image that lie outside the blocks of ports (R439). -/
theorem applyOptions_regs (s : State) (img : Tab Word) :
    (s.applyOptions img).reg 0x1C00 = optAt img 0x1BC ∧ (s.applyOptions img).reg 0x2410 = optAt img 0x19C &&& 0x1F
    ∧ (s.applyOptions img).reg 0x2400 = optAt img 0x190 &&& 7 := by
  have hbw : ∀ (x : State) (y : Bw) (m : Mgmt) (b : Nat), ({ x with bw := y, mgmt := m } : State).reg b = x.reg b := fun _ _ _ _ => rfl
  unfold State.applyOptions
  refine ⟨?_, ?_, ?_⟩
  · simp only []
    rw [hbw, State.reg_setReg, if_pos rfl]
  · simp only []
    rw [hbw, State.reg_setReg, if_neg (by decide), State.reg_setReg, if_neg (by decide), State.reg_setReg, if_neg (by decide),
      State.reg_setFld_other _ _ _ _ _ (by decide), State.reg_setReg, if_neg (by decide), State.reg_setReg, if_pos rfl]
  · simp only []
    rw [hbw, State.reg_setReg, if_neg (by decide), State.reg_setReg, if_neg (by decide), State.reg_setReg, if_neg (by decide),
      State.reg_setFld_other _ _ _ _ _ (by decide), State.reg_setReg, if_neg (by decide), State.reg_setReg, if_neg (by decide),
      State.reg_setReg, if_neg (by decide), State.reg_setReg, if_neg (by decide), State.reg_setReg, if_pos rfl]

/-- The options leave the register of a port's role alone, and `DIE_POSITION` (R439). -/
theorem applyOptions_other (s : State) (img : Tab Word) (b : Nat) (hb : b = 0x0008 ∨ ∃ n, n < Config.ports ∧ b = 0x1008 + 0x40 * n) :
    (s.applyOptions img).reg b = s.reg b := by
  have hp : Config.ports = 48 := rfl
  have hne : b ≠ 0x1C00 ∧ b ≠ 0x2C04 ∧ b ≠ 0x2C00 ∧ b ≠ 0x0C00 ∧ b ≠ 0x2414 ∧ b ≠ 0x2410 ∧ b ≠ 0x240C ∧ b ≠ 0x2408 ∧ b ≠ 0x2400 := by
    rcases hb with rfl | ⟨n, hn, rfl⟩
    · decide
    · rw [hp] at hn; omega
  obtain ⟨h1, h2, h3, h4, h5, h6, h7, h8, h9⟩ := hne
  have hbw : ∀ (x : State) (y : Bw) (m : Mgmt) (b : Nat), ({ x with bw := y, mgmt := m } : State).reg b = x.reg b := fun _ _ _ _ => rfl
  unfold State.applyOptions
  simp only []
  rw [hbw, State.reg_setReg, if_neg h1, State.reg_setReg, if_neg h2, State.reg_setReg, if_neg h3,
    State.reg_setFld_other _ _ _ _ _ h4, State.reg_setReg, if_neg h5, State.reg_setReg, if_neg h6,
    State.reg_setReg, if_neg h7, State.reg_setReg, if_neg h8, State.reg_setReg, if_neg h9]
  refine foldl_reg _ _ _ ?_ _
  intro z x hx
  have hxl := List.mem_range.mp hx
  have : b ≠ 0x100C + 0x40 * x ∧ b ≠ 0x1000 + 0x40 * x := by
    rcases hb with rfl | ⟨n, hn, rfl⟩
    · omega
    · omega
  rw [State.reg_setReg, if_neg this.1, State.reg_setReg, if_neg this.2]

/-- The fuses give each port its role (R404, R519). -/
theorem senseRoles_reg (s : State) (n : Nat) (hn : n < Config.ports) :
    s.senseRoles.reg (0x1008 + 0x40 * n) = BitVec.ofNat 32 (fld (s.fuse (0x101 + n / 4)) (8 * (n % 4)) 8) := by
  have hf : ∀ (l : List Nat) (z : State), (l.foldl (fun s n => State.setReg s (0x1008 + 0x40 * n) (BitVec.ofNat 32 (fld (State.fuse s (0x101 + n / 4)) (8 * (n % 4)) 8))) z).fuses = z.fuses := by
    intro l; induction l with
    | nil => intro z; rfl
    | cons x r ih => intro z; simp only [List.foldl]; rw [ih]; rfl
  unfold State.senseRoles
  have key : ∀ (l : List Nat) (z : State), z.fuses = s.fuses → n ∈ l →
      (l.foldl (fun s n => State.setReg s (0x1008 + 0x40 * n) (BitVec.ofNat 32 (fld (State.fuse s (0x101 + n / 4)) (8 * (n % 4)) 8))) z).reg (0x1008 + 0x40 * n)
        = BitVec.ofNat 32 (fld (s.fuse (0x101 + n / 4)) (8 * (n % 4)) 8) := by
    intro l
    induction l with
    | nil => intro z _ h; simp at h
    | cons x r ih =>
      intro z hz hx
      simp only [List.foldl]
      by_cases hr : n ∈ r
      · exact ih _ hz hr
      · have hx' : n = x := by
          rcases List.mem_cons.mp hx with h | h
          · exact h
          · exact absurd h hr
        subst hx'
        rw [foldl_reg r _ _ ?_ _, State.reg_setReg, if_pos rfl]
        · simp only [State.fuse, hz]
        · intro y w hw
          rw [State.reg_setReg, if_neg]
          intro e
          have : n = w := by omega
          exact hr (this ▸ hw)
  exact key _ s rfl (List.mem_range.mpr hn)

/-- Sensing the roles changes nothing but set-up registers (R404). -/
theorem senseRoles_mgmt (s : State) : s.senseRoles.mgmt = s.mgmt := by
  have h : ∀ (f : State → Nat → State), (∀ z x, (f z x).mgmt = z.mgmt) → ∀ (l : List Nat) (z : State), (l.foldl f z).mgmt = z.mgmt := by
    intro f hf l
    induction l with
    | nil => intro z; rfl
    | cons x r ih => intro z; simp only [List.foldl]; rw [ih, hf]
  unfold State.senseRoles
  rw [h]
  intro z x; rfl

/-- What a die in reset holds once its fuses are sensed (R443). -/
theorem fuseSense_facts (s : State) : s.fuseSense.mgmt = s.mgmt ∧ s.fuseSense.pos = fld (s.fuse 0x100) 0 3
    ∧ ∀ n, n < Config.ports → s.fuseSense.role n = fld (s.fuse (0x101 + n / 4)) (8 * (n % 4)) 3 := by
  have hg : ∀ (z : State) (x : Sec) (b : Nat), ({ z with sec := x } : State).reg b = z.reg b := fun _ _ _ => rfl
  have hm : ∀ (z : State) (x : Sec), ({ z with sec := x } : State).mgmt = z.mgmt := fun _ _ => rfl
  have hreg : ∀ b, s.fuseSense.reg b = s.senseId.senseRoles.reg b := by
    intro b; unfold State.fuseSense; rw [hg]
  refine ⟨?_, ?_, ?_⟩
  · unfold State.fuseSense
    have hr : ∀ (z : State) a v, (z.setReg a v).mgmt = z.mgmt := fun _ _ _ => rfl
    rw [hm, senseRoles_mgmt]; unfold State.senseId; rw [hr, hr, hr, hr]
  · unfold State.pos State.rfld
    rw [hreg]
    unfold State.senseRoles
    rw [foldl_reg]
    · unfold State.senseId
      rw [State.reg_setReg, if_neg (by decide), State.reg_setReg, if_pos rfl]
      unfold fld
      rw [BitVec.toNat_ofNat]
      simp only [bitsOf]
      omega
    · intro z x _
      rw [State.reg_setReg, if_neg (by omega)]
  · intro n hn
    unfold State.role State.rfld
    rw [hreg, senseRoles_reg _ n hn]
    have hf : ∀ (z : State) a v w, (z.setReg a v).fuse w = z.fuse w := fun _ _ _ _ => rfl
    have : ∀ w, s.senseId.fuse w = s.fuse w := by
      intro w; unfold State.senseId; rw [hf, hf, hf, hf]
    rw [this]
    generalize s.fuse (0x101 + n / 4) = v
    generalize 8 * (n % 4) = l
    unfold fld
    rw [BitVec.toNat_ofNat]
    simp only [bitsOf]
    omega

/-- The words of the factory image that the registers take (R441). -/
theorem factory_facts (s : State) : optAt s.factory 0x190 = 7 ∧ optAt s.factory 0x19C = 16 ∧ optAt s.factory 0x1BC = 0xFFFFFFFF
    ∧ optAt s.factory 0x1B4 = BitVec.ofNat 32 (450 + 450 * 2 ^ 16)
    ∧ spareBits s.factory = [0, 11, 22, 33, 44, 46, 57, 68].foldl (fun m t => m + 2 ^ t) 0 := by
  unfold spareBits optAt State.factory
  simp only []
  obtain ⟨t, ht⟩ : ∃ t, t = (List.range Config.ports).foldl (fun t n =>
    Tab.set 0 (Tab.set 0 t ((0x10 + 8 * n) / 4) (BitVec.ofNat 32 (bit1 (s.role n != 7) + 2 * 2 ^ 2 + 0x40 * 2 ^ 8))) ((0x14 + 8 * n) / 4) (BitVec.ofNat 32 0xFFFFFFFF))
    (Tab.set 0 [] (0x4 / 4) (BitVec.ofNat 32 1)) := ⟨_, rfl⟩
  rw [← ht]
  refine ⟨?_, ?_, ?_, ?_, ?_⟩
  all_goals simp only [Tab.get_set]
  case refine_5 =>
    rw [if_neg (by decide), if_neg (by decide), if_neg (by decide), if_neg (by decide), if_neg (by decide), if_neg (by decide), if_pos trivial]
    rw [if_neg (by decide), if_neg (by decide), if_neg (by decide), if_neg (by decide), if_neg (by decide), if_pos trivial]
    rw [if_neg (by decide), if_neg (by decide), if_neg (by decide), if_neg (by decide), if_pos trivial]
    decide
  all_goals rfl

/-- The option load, by which image is loaded (R439, R441). -/
theorem optionLoad_facts (s : State) (mOk : Bool) : ∃ img,
    ((∀ b, (s.optionLoad mOk).reg b = (s.applyOptions img).reg b)
      ∧ (∃ d l c v w, (s.optionLoad mOk).mgmt = { s.mgmt with
          mValid := mOk, aValid := v, bValid := w, optDefaulted := d, optLoaded := l,
          optCurrent := c, optImage := img, shadow := img, optDirty := false, spareSet := spareBits img })
      ∧ (s.optionLoad mOk).bw.grant = fld (optAt img 0x1B4) 0 10)
    ∧ (imageValid s.mgmt.cutA s.mgmt.imgA = false → imageValid s.mgmt.cutB s.mgmt.imgB = false →
        (s.optionLoad mOk).mgmt.optDefaulted = true ∧ img = s.factory)
    ∧ (imageValid s.mgmt.cutA s.mgmt.imgA = true → imageValid s.mgmt.cutB s.mgmt.imgB = false →
        (s.optionLoad mOk).mgmt.optLoaded = false ∧ (s.optionLoad mOk).mgmt.optDefaulted = false
        ∧ (s.optionLoad mOk).mgmt.shadow = s.mgmt.imgA ∧ img = s.mgmt.imgA) := by
  have hap : ∀ img, (s.applyOptions img).mgmt = { s.mgmt with spareSet := spareBits img } := by
    intro img
    have h : ∀ (f : State → Nat → State), (∀ z x, (f z x).mgmt = z.mgmt) → ∀ (l : List Nat) (z : State), (l.foldl f z).mgmt = z.mgmt := by
      intro f hf l
      induction l with
      | nil => intro z; rfl
      | cons x r ih => intro z; simp only [List.foldl]; rw [ih, hf]
    have hr : ∀ (z : State) a v, (z.setReg a v).mgmt = z.mgmt := fun _ _ _ => rfl
    have hs : ∀ (z : State) a l n v, (z.setFld a l n v).mgmt = z.mgmt := fun _ _ _ _ _ => rfl
    unfold State.applyOptions
    simp only []
    rw [hr, hr, hr, hs, hr, hr, hr, hr, hr, h]
    intro z x; rw [hr, hr]
  have hon : ∀ (z : State) (f : Mgmt → Mgmt) b, (z.onMgmt f).reg b = z.reg b := fun _ _ _ => rfl
  have hom : ∀ (z : State) (f : Mgmt → Mgmt), (z.onMgmt f).mgmt = f z.mgmt := fun _ _ => rfl
  have hob : ∀ (z : State) (f : Mgmt → Mgmt), (z.onMgmt f).bw = z.bw := fun _ _ => rfl
  have hag : ∀ img, (s.applyOptions img).bw.grant = fld (optAt img 0x1B4) 0 10 := fun _ => rfl
  obtain ⟨va, hva⟩ : ∃ va, va = imageValid s.mgmt.cutA s.mgmt.imgA := ⟨_, rfl⟩
  obtain ⟨vb, hvb⟩ : ∃ vb, vb = imageValid s.mgmt.cutB s.mgmt.imgB := ⟨_, rfl⟩
  obtain ⟨nb, hnb⟩ : ∃ nb, nb = newerB s.mgmt.imgA s.mgmt.imgB := ⟨_, rfl⟩
  obtain ⟨fa, hfa⟩ : ∃ fa, fa = s.factory := ⟨_, rfl⟩
  unfold State.optionLoad
  simp only []
  rw [← hva, ← hvb, ← hnb, ← hfa]
  obtain ⟨img, himg⟩ : ∃ img, img = (if (vb && (!va || nb)) = true then s.mgmt.imgB else if va = true then s.mgmt.imgA else fa) := ⟨_, rfl⟩
  rw [← himg]
  refine ⟨img, ⟨?_, ?_, ?_⟩, ?_, ?_⟩
  · intro b; rw [hon]
  · refine ⟨!va && !vb, vb && (!va || nb), if (va || vb) = true then some (vb && (!va || nb)) else none, va, vb, ?_⟩
    rw [hom, hap]
  · rw [hob, hag]
  · intro e1 e2
    subst e1; subst e2
    rw [himg]
    exact ⟨rfl, rfl⟩
  · intro e1 e2
    subst e1; subst e2
    rw [himg]
    exact ⟨rfl, rfl, rfl, rfl⟩

end Sys2Proof.Machine
end

