-- ==== Sys2Proof/Tests/Slice0.lean ====
section
/-!
SUPPORT. Tests: for every statement with hypotheses, a theorem `wit_…` that applies it to a concrete state and operands which meet them all
(clause by clause where there are several); and small tests of single steps against figures of the spec.
-/

set_option maxRecDepth 4000
namespace Sys2Proof.Tests
open Sys2Proof Sys2Proof.Machine
/-- A command answers a next state. -/
def completes (c : Instr) (s : State) : Prop := ∃ s', exec c s = .next s'

/-- A die on which a program of 16 words runs on tile 0, whose core has been changed by `f`. -/
def tl (f : Tile → Tile) : State :=
  State.reset.onTile 0 (fun q => f { q with seq := { q.seq with phase := .running, progLen := 16 } })

/-- A tile with one command at the front of an engine queue. -/
def withQ (eng : Nat) (e : QEntry) (q : Tile) : Tile := q.onQueue eng (fun _ => [e])

theorem go {c : Instr} {s : State} {P : State → Prop} : (∃ s', exec c s = .next s' ∧ P s') → completes c s := fun ⟨s', x, _⟩ => ⟨s', x⟩

theorem go' {α : Type} {c : Instr} {s : State} {P : State → α → Prop} : (∃ s' x, exec c s = .next s' ∧ P s' x) → completes c s :=
  fun ⟨s', _, x, _⟩ => ⟨s', x⟩

/-- A command in an engine queue, with neither token. -/
def ent (code : Nat) (ws : List Word) : QEntry := { QEntry.init with code := code, words := ws }

/-- An `ACTIVE` data object of job 42, 64 MiB from address 0, homed on stack 0 of this die; its handle is 0x100000. -/
def obj : Obj :=
  { st := .active, gen := 1, job := 42, exec := false, sharedRo := false, nc := false, pol := 0, granules := 32, pbase := 0
    stackMask := 15, homeDie := 0, hintDie := 0xFF, frozen := false, homes := List.replicate 32 0, spread := 15, qualify := []
    traffic := [], shown := [], drained := false, mig := none, hints := [] }

/-- A descriptor of job 42 in progress on logical core 0, of stream 1, with `SEQ` 3: opcode and body words. -/
def dsc (op : Nat) (ws : List Word) : Desc :=
  { Desc.fetched 7 1 0 ([BitVec.ofNat 32 op, 3, 42, 0] ++ ws) with st := .running, cores := [0] }

/-- Stream 1, of job 42. -/
def strm : Stream := { Stream.init with valid := true, job := 42, ring := 1, st := .active, cplLog2 := 4, ctxMembers := 1 }

/-- A die that runs: initialised Keywork with a data object and a program object (handle 0x100001), logical core 0 on tile 0, a memory port of stack 0 that is `UP`, stream 1 of the live job 42, one descriptor. -/
def die (d : Desc) : State :=
  { State.reset with
    kw := { Kw.init with ready := true, objLimit := 65536, tiles := [(0, .inService)], objs := [(0, some obj), (1, some { obj with exec := true, pbase := 0x4000000 })], cores := [(0, ⟨0, .mapped⟩)] }
    qm := { Qm.init with descs := [d], nextUid := 8, streams := [(1, some strm)]
                         jobs := [(42, some { valid := true, retain := false, st := .live, scb := 0, killTs := 0, killStart := 0, killCores := 0, killUid := 0 })] }
    mgmt := { Mgmt.init with stage := 11 }
    ports := [(1, { Port.init with st := .up })]
    cfg := Tab.set 0 (Tab.set 0 resetRegs 0x2000 1) 0x2410 16 }

/-- Tile 0 working for the descriptor of `die`. -/
def busy (ph : Phase) (q : Tile) : Tile :=
  { q with seq := { q.seq with phase := ph, progLen := 16, handle := 0x100001, stream := 1, seqNo := 3, job := 42 } }

/-- The first `n` slots of the scratchpad have tag `g`. -/
def tags (n : Nat) (g : Tag) (q : Tile) : Tile :=
  { q with spad := { q.spad with slots := (List.range n).map (fun i => (i, ⟨g, 0, 0⟩)) } }

theorem noTok {q : Tile} (e : QEntry) (h : e.post = none) : ∀ k, e.post = some k → q.token k < 65535 := by
  intro k hk; rw [h] at hk; cases hk

/-- Port 0 of a die is `UP` at version 2, in role `r`, toward die 1. -/
def lnk (r : Nat) (s : State) : State :=
  ({ s with ports := Tab.set Port.init s.ports 0 { Port.init with st := .up, version := 2, peerPos := 1 } }).setReg 0x1008 (BitVec.ofNat 32 r)

/-- A packet of 32 bytes from die 1 for this die. -/
def pkt : Packet := { Packet.zero with srcDie := 1, len := 32, tag := 5 }
/-- The same with a data block. -/
def pktD (bs : List Byte) : Packet := { pkt with hasData := true, data := bs }

/-- A live counter or flag of job 42. -/
def cnt (v : Nat) : SyncObj := { typ := 0, st := 1, value := v, target := 0, job := 42, owner := 0, ownerDie := 0, waiters := [] }
/-- Objects 0 (a counter), 1 (a flag) and 2 (a barrier) of this die, and a port to another. -/
def sy : State := (lnk 1 (die (dsc 3 []))) |> fun s => { s with sync := { SyncTree.init with
  objs := [(0, cnt 5), (1, { cnt 3 with typ := 1 }), (2, { cnt 0 with typ := 2 })] } }
/-- A live barrier of dies 0 and 1 or of this die alone; logical cores 0 and 1 of each take part. -/
def barr (dm : Nat) : Barrier :=
  { job := 42, st := 1, dieMask := dm, coreMask := 3, round := 0xFFFFFFFF, ahead := [(0, 1)], waits := [], reported := 0, reports := [] }
/-- A die with that record. -/
def ba (b : Barrier) (s : State) : State := { s with sync := { SyncTree.init with objs := [(0, { cnt 0 with typ := 2 })], bars := [(0, some b)] } }


/-- An open transaction of tile 0's sync unit. -/
def tx (c ty : Nat) : OpenTx :=
  { pkt := { Packet.zero with cls := c, ptype := ty, len := 32, dstDie := 1, tag := 5 }, port := 0, tile := 0, eng := 5, uid := 0, off := 0, resent := false, resentAt := 0, answered := false, noInstall := false }


/-- `die` with these descriptors. -/
def dies (ds : List Desc) (s : State) : State := { s with qm := { s.qm with descs := ds } }
/-- The table of objects holds one, of job `j`. -/
def one (j : Nat) (s : State) : State := { s with kw := { s.kw with objs := [(0, some { obj with job := j })] } }
/-- The timestamp is `n`. -/
def late (n : Nat) (s : State) : State := { s with time := { s.time with ts := n } }

/-- Ring 1 of stream 1, whose table and entries the queue manager has read; its two descriptors lie at address 0x1000. -/
def rg (s : State) : State := { s with qm := { s.qm with descs := [], rings := [(1, some ⟨0x1000, 4, true, 1, 2, 0, true⟩)] } }
/-- The die is a member of an accepted package, and the queue manager has read ring 1 and its stream. -/
def acc (s : State) : State :=
  { s with pkg := { Pkg.init with accepted := true }, qm := { s.qm with rings := [(1, some ⟨0x1000, 4, true, 1, 2, 0, true⟩)] } }
theorem acc_ok {s : State} {g : Agent} {wr : Bool} {a n : Nat} (hd : s.deny g.job wr g.hostOk a n = 0) (hp : s.isPoisoned a n = false)
    (hh : s.held a n = false) : s.access g wr a n = .ok () := by
  unfold State.access; rw [hd, hp, hh]; split <;> rfl

/-- A CRC has 32 bits. -/
theorem crcByte_lt : ∀ n c, c < 2 ^ 32 → crc32cByte c n < 2 ^ 32
  | 0, _, h => h
  | n + 1, c, h => by
    unfold crc32cByte
    apply crcByte_lt n
    split
    · exact Nat.xor_lt_two_pow (by omega) (by decide)
    · omega

theorem crc_lt (bs : List Byte) : crc32c bs < 2 ^ 32 := by
  refine Nat.xor_lt_two_pow ?_ (by decide)
  suffices h : ∀ c, c < 2 ^ 32 → bs.foldl (fun c b => crc32cByte (c ^^^ b.toNat) 8) c < 2 ^ 32 from h _ (by decide)
  induction bs with
  | nil => exact fun c h => h
  | cons b r ih => exact fun c h => ih _ (crcByte_lt 8 _ (Nat.xor_lt_two_pow h (by have := b.isLt; omega)))


/-! ### Sequencer -/

theorem wit_AluWritesFunctionOfOperands : Obligations.AluWritesFunctionOfOperands →
    completes (.add 0 31 1 2) (tl id) ∧ completes (.lui 0 0 1 0xFFFF) (tl id) :=
  fun h => ⟨⟨_, (h (tl id) 0 31 1 2 0 (by decide) (by decide)).1⟩,
    ⟨_, (h (tl id) 0 0 1 2 0xFFFF (by decide) (by decide)).2.2.2.2.2.2.2.2.2.2.2.2.2.2.2.2.2.2.2⟩⟩

/-- The last word of data memory. -/
theorem wit_LoadAndStoreDataMemory : Obligations.LoadAndStoreDataMemory →
    completes (.memLoad 0 1 2 (-4) .b32 true) (tl (fun q => q.setReg 2 0x4000)) ∧
    completes (.memStore 0 1 2 (-4) .b32) (tl (fun q => q.setReg 2 0x4000)) :=
  fun h => let x := h (tl (fun q => q.setReg 2 0x4000)) 0 1 1 2 (-4) .b32 true (by decide) (by decide) (by decide) (by decide)
    ⟨⟨_, x.1⟩, ⟨_, x.2⟩⟩

/-- Targets at the first and last word of the image. -/
theorem wit_BranchesAndJumpsGoToTheirTarget : Obligations.BranchesAndJumpsGoToTheirTarget →
    completes (.beq 0 1 2 0) (tl id) ∧ completes (.jal 0 1 15) (tl id) ∧ completes (.jalr 0 1 1) (tl id) :=
  fun h => let x := h (tl id) 0 1 1 2 0 15 0 15 (by decide) (by decide) (by decide) (by decide) (by decide) (by decide) (by decide)
    ⟨⟨_, x.1⟩, ⟨_, x.2.2.2.2.2.2.1⟩, ⟨_, x.2.2.2.2.2.2.2⟩⟩

theorem wit_WaitAndSystemInstructions : Obligations.WaitAndSystemInstructions →
    completes (.fence 0 0x3F) (tl id) ∧ completes (.fence 0 0x20) (tl (withQ 5 (ent 1 []))) ∧ completes (.tpost 0 7) (tl id)
    ∧ completes (.tpost 0 0) (tl (fun q => q.setToken 0 65535)) ∧ completes (.tset 0 0 0xFFFF) (tl id) ∧ completes (.brk 0) (tl id)
    ∧ completes (.endProg 0) (tl id)
    ∧ completes (.brk 0) ((tl id).setReg 0x3C10 0x800 |>.onSec (fun k => { k with dbgAuth := true })) := by
  intro h
  have a := h.1 (tl id) 0 0x3F 7 0xFFFF (by decide) (by decide)
  have a' := h.1 (tl id) 0 0x3F 0 0xFFFF (by decide) (by decide)
  have b := h.1 (tl (withQ 5 (ent 1 []))) 0 0x20 7 0 (by decide) (by decide)
  have c := h.1 (tl (fun q => q.setToken 0 65535)) 0 0 0 0 (by decide) (by decide)
  have d := h.2 (tl id) 0 (by decide) (by decide)
  have e := h.2 ((tl id).setReg 0x3C10 0x800 |>.onSec (fun k => { k with dbgAuth := true })) 0 (by decide) (by decide)
  refine ⟨⟨_, a.2.1 (by decide)⟩, ⟨_, b.2.2.1 ⟨5, by decide⟩⟩, ⟨_, a.2.2.2.2.1 (by decide)⟩, ⟨_, c.2.2.2.2.2.1 (by decide) (by decide)⟩,
    ⟨_, a'.2.2.2.2.2.2.1 ?_⟩, ⟨_, a.2.2.2.2.2.2.2 (by decide)⟩, ?_, ?_⟩
  · intro k c hk hc
    have : ((tl id).tile 0).queue k = [] := by interval_cases k <;> decide
    rw [this] at hc; cases hc
  · exact go (d.1 (by decide))
  · exact go (e.2 (by decide))

theorem wit_CoreRegisterAccess : Obligations.CoreRegisterAccess → completes (.csrRead 0 1 0) (tl id) :=
  fun h => ⟨_, (h (tl id) 0 1 2 (by decide) (by decide)).1⟩

/-- Each cause at a boundary: the first misaligned address, the first address past data memory, the last word of the image. -/
theorem wit_FaultsAndWatchdogStopTheCore : Obligations.FaultsAndWatchdogStopTheCore →
    completes (.trap 0 0xFFFF) (tl id) ∧ completes (.illegalWord 0 0xF0000000) (tl id)
    ∧ completes (.memLoad 0 1 2 1 .b16 false) (tl id) ∧ completes (.memLoad 0 1 2 0 .b32 false) (tl (fun q => q.setReg 2 0x4000))
    ∧ completes (.beq 0 2 2 (-1)) (tl id) ∧ completes (.jal 0 1 16) (tl id) := by
  intro h
  have i := h.1 (tl id) 0 1 2 2 0 (-1) 16 .b32 false 1 0 0xFFFF 0xFFFF 0xF0000000 (.accClear 0 false ⟨31, 1, none, none⟩) (by decide)
  have b := h.1 (tl id) 0 1 2 2 1 (-1) 16 .b16 false 1 0 0xFFFF 0xFFFF 0xF0000000 (.accClear 0 false ⟨31, 1, none, none⟩) (by decide)
  have j := h.1 (tl (fun q => q.setReg 2 0x4000)) 0 1 2 2 0 (-1) 16 .b32 false 1 0 0xFFFF 0xFFFF 0xF0000000 (.accClear 0 false ⟨31, 1, none, none⟩) (by decide)
  exact ⟨go i.1, go (i.2.1 (by decide)), go (b.2.2.1 (by decide)).1, go (j.2.2.2.1 (by decide) (by decide)).1, go (i.2.2.2.2.1 (by decide) rfl),
    go (i.2.2.2.2.2.1 (by decide))⟩

theorem wit_FaultsAndWatchdogStopTheCore_2 : Obligations.FaultsAndWatchdogStopTheCore →
    completes (.jalr 0 1 2) (tl (fun q => q.setReg 2 0x3FFF))
    ∧ completes (.nop 0) (tl (fun q => { q with seq := { q.seq with pc := 15 } })) ∧ completes (.csrWrite 0 1 2 1) (tl id)
    ∧ completes (.csrRead 0 1 0xC) (tl id) ∧ completes (.tset 0 3 0xFFFF) (tl (withQ 0 { ent 1 [] with post := some 3 }))
    ∧ completes (.accClear 0 false ⟨31, 1, none, none⟩) (tl id) := by
  intro h
  have i := h.1 (tl id) 0 1 2 2 0 (-1) 16 .b32 false 1 0 0xFFFF 0xFFFF 0xF0000000 (.accClear 0 false ⟨31, 1, none, none⟩) (by decide)
  have j := h.1 (tl (fun q => q.setReg 2 0x3FFF)) 0 1 2 2 0 (-1) 16 .b32 false 1 0 0xFFFF 0xFFFF 0xF0000000 (.accClear 0 false ⟨31, 1, none, none⟩) (by decide)
  have k := h.1 (tl (fun q => { q with seq := { q.seq with pc := 15 } })) 0 1 2 2 0 (-1) 16 .b32 false 1 0 0xFFFF 0xFFFF 0xF0000000 (.accClear 0 false ⟨31, 1, none, none⟩) (by decide)
  have l := h.1 (tl id) 0 1 2 2 0 (-1) 16 .b32 false 0xC 0 0xFFFF 0xFFFF 0xF0000000 (.accClear 0 false ⟨31, 1, none, none⟩) (by decide)
  have m := h.1 (tl (withQ 0 { ent 1 [] with post := some 3 })) 0 1 2 2 0 (-1) 16 .b32 false 1 3 0xFFFF 0xFFFF 0xF0000000 (.accClear 0 false ⟨31, 1, none, none⟩) (by decide)
  exact ⟨go (j.2.2.2.2.2.2.1 (by decide)), go (k.2.2.2.2.2.2.2.1 (by decide)), go (i.2.2.2.2.2.2.2.2.1 (by decide)).1,
    go (l.2.2.2.2.2.2.2.2.2.1 (by decide)), go (m.2.2.2.2.2.2.2.2.2.2.1 (by decide)),
    go (i.2.2.2.2.2.2.2.2.2.2.2 0 2 ⟨31, 1, none, none⟩ rfl (by decide) (by decide))⟩

theorem wit_FaultsAndWatchdogStopTheCore_3 : Obligations.FaultsAndWatchdogStopTheCore →
    completes (.wdog 0) (tl (fun q => { q with seq := { q.seq with coreCfg := 8, stallNs := 65536000 } })) := fun h =>
  go ((h.2 (tl (fun q => { q with seq := { q.seq with coreCfg := 8, stallNs := 65536000 } })) 0 (by decide) (by decide)).1 (by decide))

theorem wit_IssuedCommandsEnterAndGoOn : Obligations.IssuedCommandsEnterAndGoOn →
    completes (.accClear 0 false ⟨2, 0, none, none⟩) (tl id)
    ∧ completes (.accClear 0 false ⟨2, 0, none, none⟩) (tl (fun q => q.onQueue 0 (fun _ => List.replicate 16 (ent 2 [0]))))
    ∧ completes (.vmov 0 ⟨1, 2, 0, 0, 0⟩) (tl id)
    ∧ completes (.issueStallResume 0) (tl (fun q => { q with seq := { q.seq with stall := some ⟨0, ent 2 [0]⟩ } }))
    ∧ completes (.tokenWaitStart 0 0) (tl (fun q => (withQ 0 { ent 2 [0] with wait := some 7, taken := false } q).setToken 7 1)) := by
  intro h
  have a := h.1 (tl id) 0 0 (.accClear 0 false ⟨2, 0, none, none⟩) (issueEntry ((tl id).tile 0) 2 ⟨2, 0, none, none⟩)
  have a' := h.1 (tl (fun q => q.onQueue 0 (fun _ => List.replicate 16 (ent 2 [0])))) 0 0 (.accClear 0 false ⟨2, 0, none, none⟩) (issueEntry ((tl id).tile 0) 2 ⟨2, 0, none, none⟩)
  have b := h.1 (tl id) 0 2 (.vmov 0 ⟨1, 2, 0, 0, 0⟩) (vecEntry ((tl id).tile 0) 0xD ⟨1, 2, 0, 0, 0⟩)
  have c := h.2 (tl (fun q => { q with seq := { q.seq with stall := some ⟨0, ent 2 [0]⟩ } })) 0 (by decide) (by decide)
  have d := h.2 (tl (fun q => (withQ 0 { ent 2 [0] with wait := some 7, taken := false } q).setToken 7 1)) 0 (by decide) (by decide)
  refine ⟨go ((a _ _ (by decide) (Or.inl ⟨2, ⟨2, 0, none, none⟩, rfl, by decide, by decide, rfl⟩)).2 (by decide) rfl (by decide)),
    ⟨_, (a' (ent 2 [0]) ((tl id).tile 0) (by decide) (Or.inl ⟨2, ⟨2, 0, none, none⟩, rfl, by decide, by decide, rfl⟩)).1 (by decide)⟩,
    go ((b _ _ (by decide) (Or.inr ⟨0xD, ⟨1, 2, 0, 0, 0⟩, rfl, rfl, rfl⟩)).2 (by decide) rfl (by decide)),
    go (c.1 _ _ _ (by decide) rfl (by decide) (by decide) (by decide) (by decide) rfl),
    ⟨_, d.2 0 0 _ 7 (by decide) rfl rfl (by decide)⟩⟩

/-- A program of 16 words whose image and empty argument block lie in memory homed here. -/
theorem wit_ProgramStartsInStartState : Obligations.ProgramStartsInStartState →
    completes (.programStart 0) ((die (dsc 1 [])).onTile 0 (busy .starting)) := by
  intro h
  exact go (h ((die (dsc 1 [])).onTile 0 (busy .starting)) _ _ 0 (dsc 1 []) (by decide) (by decide) (by decide) (by decide) (by decide) (by decide)
    (by decide) (by decide) (by decide) rfl rfl)

/-- A running descriptor of stream 1 on core 0, and one of stream 2, of a higher level, that is ready for the same core. -/
def rival : State :=
  { (die (dsc 1 [])).onTile 0 (busy .running) with
    pkg := { Pkg.init with accepted := true }
    qm := { (die (dsc 1 [])).qm with
      descs := [{ dsc 1 [] with acted := true, begun := true }, { Desc.fetched 8 2 0 [1, 0, 42, 0] with cores := [0] }]
      streams := [(1, some strm), (2, some { strm with prio := 1 })]
      rings := [(1, some ⟨0x1000, 4, true, 1, 2, 0, true⟩)] } }

theorem wit_YieldSavesOrDiscards : Obligations.YieldSavesOrDiscards →
    completes (.yield 0 42) rival
    ∧ completes (.contextSave 0) ((die (dsc 1 [])).onTile 0 (busy .yielding))
    ∧ completes (.yieldGraceExpiry 0) ((die (dsc 1 [])).onTile 0 (fun q => withQ 5 (ent 1 []) (busy .yielding { q with seq := { q.seq with cycles := 4096 } }))) := by
  intro h
  have a := h rival 0 42 { dsc 1 [] with acted := true, begun := true } strm (by decide) (by decide) (by decide) (by decide)
  have b := h ((die (dsc 1 [])).onTile 0 (busy .yielding)) 0 42 (dsc 1 []) strm (by decide) (by decide) (by decide) (by decide)
  have c := h ((die (dsc 1 [])).onTile 0 (fun q => withQ 5 (ent 1 []) (busy .yielding { q with seq := { q.seq with cycles := 4096 } }))) 0 42 (dsc 1 []) strm (by decide) (by decide) (by decide) (by decide)
  obtain ⟨s', f, hs, _⟩ := b.2.1 (by decide) (by decide) (by decide)
  exact ⟨go (a.1 (by decide) (by decide)), ⟨s', hs⟩, go (c.2.2 (by decide) (by decide) ⟨5, by decide⟩)⟩

/-! ### Engines of a core -/

/-- The last row of a load, the pass that is due, and the first of an S8 pass. -/
theorem wit_StationaryRowsAndLoadChannel : Obligations.StationaryRowsAndLoadChannel →
    completes (.statLoadRow 0 true) (tl (fun q => tags 8 .full (withQ 1 { ent 1 [0, 0, 0, 0] with loadRows := 127 } q)))
    ∧ loadDue { Arr.init with q := [ent 1 [0, 0, 0, 0]] } = some (0, ent 1 [0, 0, 0, 0], true)
    ∧ completes (.loadChannelTake 0 false) (tl (withQ 0 (ent 1 [0, 0, 0, 3]))) := by
  intro h
  exact ⟨go (h.1.1 (tl (fun q => tags 8 .full (withQ 1 { ent 1 [0, 0, 0, 0] with loadRows := 127 } q))) 0 true 0
      { ent 1 [0, 0, 0, 0] with loadRows := 127 } true (by decide) (by decide) (.inr (by decide)) (by decide) (by decide) (by decide)),
    h.1.2 { Arr.init with q := [ent 1 [0, 0, 0, 0]] } _ _ rfl rfl rfl (by decide) rfl rfl,
    ⟨_, h.2 (tl (withQ 0 (ent 1 [0, 0, 0, 3]))) 0 false _ _ (by decide) rfl rfl (by decide) (by decide) (by decide) (by decide) (by decide) (by decide)
      (by decide)⟩⟩

/-- A row that stands in the feeder queues, and one that the feeders have yet to read. -/
theorem wit_StreamedIntegerRowsAreExact : Obligations.StreamedIntegerRowsAreExact →
    completes (.streamRowEnter 0 false) (tl (fun q => { withQ 0 { ent 1 [0, 0, 0, 0x20] with loadRows := 128 } q with
      ma0 := { Arr.init with q := [{ ent 1 [0, 0, 0, 0x20] with loadRows := 128 }], feed := [⟨0, 0, []⟩] } }))
    ∧ ((({ Arr.init with q := [ent 1 [0, 0, 0, 0x20]] } : Arr).refill (tags 8 .full Tile.init).spad).headRow (ent 1 [0, 0, 0, 0x20])).isSome = true := by
  intro h
  refine ⟨go (h.1 (tl (fun q => { withQ 0 { ent 1 [0, 0, 0, 0x20] with loadRows := 128 } q with
      ma0 := { Arr.init with q := [{ ent 1 [0, 0, 0, 0x20] with loadRows := 128 }], feed := [⟨0, 0, []⟩] } })) 0 false
      { ent 1 [0, 0, 0, 0x20] with loadRows := 128 } [] [] (by decide) rfl rfl (by decide)
      (by decide) (by decide) (.inr (by decide)) (by decide) (by decide) (by decide) rfl), ?_⟩
  rw [h.2 { Arr.init with q := [ent 1 [0, 0, 0, 0x20]] } (tags 8 .full Tile.init).spad _ _ rfl rfl (by decide) rfl (by decide)]
  rfl

theorem wit_ArrayCommandsComplete : Obligations.ArrayCommandsComplete →
    completes (.passComplete 0 false) (tl (withQ 0 { ent 1 [0, 0, 0, 0] with strRows := 1 }))
    ∧ completes (.commandComplete 0 0 0) (tl (withQ 0 (ent 2 [0x3FFFFF]))) ∧ completes (.commandComplete 0 1 0) (tl (withQ 1 (ent 3 [0x3FC0])))
    ∧ completes (.commandComplete 0 0 0) (tl (withQ 0 (ent 0x10 [0, 0, 0]))) ∧ completes (.commandComplete 0 0 0) (tl (withQ 0 (ent 0x11 [0]))) := by
  intro h
  exact ⟨go ((h (tl (withQ 0 { ent 1 [0, 0, 0, 0] with strRows := 1 })) 0 false { ent 1 [0, 0, 0, 0] with strRows := 1 } [] (by decide)
      (noTok _ rfl)).1 rfl rfl (by decide) (by decide)),
    go ((h (tl (withQ 0 (ent 2 [0x3FFFFF]))) 0 false (ent 2 [0x3FFFFF]) [] (by decide) (noTok _ rfl)).2.1 rfl rfl rfl (by decide) (by decide)),
    go ((h (tl (withQ 1 (ent 3 [0x3FC0]))) 0 true (ent 3 [0x3FC0]) [] (by decide) (noTok _ rfl)).2.2.1 rfl rfl (by decide) (by decide)),
    go ((h (tl (withQ 0 (ent 0x10 [0, 0, 0]))) 0 false (ent 0x10 [0, 0, 0]) [] (by decide) (noTok _ rfl)).2.2.2.1 rfl rfl (by decide) (by decide)),
    go ((h (tl (withQ 0 (ent 0x11 [0]))) 0 false (ent 0x11 [0]) [] (by decide) (noTok _ rfl)).2.2.2.2 rfl (by decide) rfl (by decide) (by decide))⟩

/-- Settings that need vectors, a last row, and a store of which every row has been read. -/
theorem wit_BellStoresRows : Obligations.BellStoresRows →
    completes (.bellVectorLoad 0 2) (tl (fun q => tags 8 .full { q with vec := { q.vec with bell := { q.vec.bell with sets :=
      [{ id := 0, words := [0, 0x1000, 0, 0, 0, 0], mvec := [], nvec := [], bias := [], src := 0, loaded := false, adv := none }] } } }))
    ∧ completes (.bellRowRead 0 0) (tl (fun q => tags 8 .raw (withQ 0 { ent 0x12 [0x800, 0] with store := some (0, 0, 0), bellRows := 1 } q)))
    ∧ completes (.bellStoreComplete 0 0) (tl (withQ 0 { ent 0x12 [0x800, 0] with store := some (0, 0, 0), bellRows := 2 })) := by
  intro h
  have a := (h (tl (fun q => tags 8 .raw (withQ 0 { ent 0x12 [0x800, 0] with store := some (0, 0, 0), bellRows := 1 } q))) 0 (by decide)).2
    false _ _ 0 0 0 rfl rfl rfl rfl rfl
  have b := (h (tl (withQ 0 { ent 0x12 [0x800, 0] with store := some (0, 0, 0), bellRows := 2 })) 0 (by decide)).2
    false _ _ 0 0 0 rfl rfl rfl rfl rfl
  exact ⟨go ((h (tl (fun q => tags 8 .full { q with vec := { q.vec with bell := { q.vec.bell with sets :=
      [{ id := 0, words := [0, 0x1000, 0, 0, 0, 0], mvec := [], nvec := [], bias := [], src := 0, loaded := false, adv := none }] } } })) 0 (by decide)).1
      2 _ (by decide) rfl rfl (by decide)), go (a.1 (by decide) (by decide) (by decide)), go (b.2 (by decide) rfl)⟩

/-- A `VEC` command: operation, operand bits [27:0] of the word and captured scalar registers, over `n` lanes. -/
def vent (code : Nat) (enc : Word) (ws : List Word) (n : Nat) : QEntry := { QEntry.init with code := code, enc := enc, words := ws, vl := n }

theorem wit_VectorInstructionsComplete : Obligations.VectorInstructionsComplete →
    completes (.commandComplete 0 2 0) (tl (withQ 2 (vent 0x10 0x380000 [] 128))) ∧ completes (.commandComplete 0 2 0) (tl (withQ 2 (vent 0x30 0 [] 1)))
    ∧ completes (.commandComplete 0 2 0) (tl (withQ 2 (vent 0x01 0 [] 128))) ∧ completes (.commandComplete 0 2 0) (tl (withQ 2 (vent 0x0B 0 [127] 128)))
    ∧ completes (.commandComplete 0 2 0) (tl (withQ 2 (vent 0x0C 0 [127] 128))) ∧ completes (.commandComplete 0 2 0) (tl (withQ 2 (vent 0x09 3 [2047] 128)))
    ∧ completes (.commandComplete 0 2 0) (tl (fun q => tags 8 .full (withQ 2 (vent 0x08 0 [0] 128) q)))
    ∧ completes (.commandComplete 0 2 0) (tl (withQ 2 (vent 0x08 0 [0] 128)))
    ∧ completes (.tagWaitGrant 0 2 0) (tl (fun q => tags 8 .full (withQ 2 { vent 0x08 0 [0] 128 with waiting := true } q))) := by
  intro h
  have a := h.1 (tl (withQ 2 (vent 0x10 0x380000 [] 128))) 0 _ _ (by decide) rfl rfl (by decide) (by decide) (by decide) (noTok _ rfl)
  have b := h.1 (tl (withQ 2 (vent 0x30 0 [] 1))) 0 _ _ (by decide) rfl rfl (by decide) (by decide) (by decide) (noTok _ rfl)
  have c := fun f e r h0 hq => h.2 (tl f) 0 e r h0 hq
  have d1 := h.2 (tl (withQ 2 (vent 0x01 0 [] 128))) 0 _ _ (by decide) rfl rfl (by decide) (noTok _ rfl)
  have d2 := h.2 (tl (withQ 2 (vent 0x0B 0 [127] 128))) 0 _ _ (by decide) rfl rfl (by decide) (noTok _ rfl)
  have d3 := h.2 (tl (withQ 2 (vent 0x0C 0 [127] 128))) 0 _ _ (by decide) rfl rfl (by decide) (noTok _ rfl)
  have d4 := h.2 (tl (withQ 2 (vent 0x09 3 [2047] 128))) 0 _ _ (by decide) rfl rfl (by decide) (noTok _ rfl)
  have d5 := h.2 (tl (fun q => tags 8 .full (withQ 2 (vent 0x08 0 [0] 128) q))) 0 _ _ (by decide) rfl rfl (by decide) (noTok _ rfl)
  have d6 := h.2 (tl (withQ 2 (vent 0x08 0 [0] 128))) 0 _ _ (by decide) rfl rfl (by decide) (noTok _ rfl)
  have d7 := h.2 (tl (fun q => tags 8 .full (withQ 2 { vent 0x08 0 [0] 128 with waiting := true } q))) 0 _ _ (by decide) rfl rfl (by decide) (noTok _ rfl)
  exact ⟨go (a.1 rfl), go (b.2.2.2.2.2.2.2.2.2.2.2.2.2 (by decide) rfl), go (d1.1 rfl), go (d2.2.2.2.1 rfl), go (d3.2.2.2.2.1 rfl),
    go (d4.2.2.2.2.2.1 rfl), go ((d5.2.2.2.2.2.2 .bf16 rfl rfl).1 (by decide)).1, go ((d6.2.2.2.2.2.2 .bf16 rfl rfl).2 (by decide)),
    go (((d7.2.2.2.2.2.2 .bf16 rfl rfl).1 (by decide)).2 rfl)⟩

/-- The last entry of the Reed, and its image in the last two slots. -/
theorem wit_ReedSpillFillInvalidate : Obligations.ReedSpillFillInvalidate →
    completes (.commandComplete 0 3 0) (tl (withQ 3 (ent 5 [0xFFF])))
    ∧ completes (.commandComplete 0 3 0) (tl (fun q => (fun q : Tile => { q with spad := { q.spad with slots := [(4094, ⟨.raw, 0, 0⟩), (4095, ⟨.raw, 0, 0⟩)] } })
        (withQ 3 (ent 3 [0xFFF, 4094]) q)))
    ∧ completes (.commandComplete 0 3 0) (tl (fun q => tags 2 .full (withQ 3 (ent 4 [0xFFF, 0]) q))) := by
  intro h
  have a := h (tl (withQ 3 (ent 5 [0xFFF]))) 0 _ _ (by decide) rfl rfl (noTok _ rfl)
  have b := h (tl (fun q => (fun q : Tile => { q with spad := { q.spad with slots := [(4094, ⟨.raw, 0, 0⟩), (4095, ⟨.raw, 0, 0⟩)] } })
        (withQ 3 (ent 3 [0xFFF, 4094]) q))) 0 _ _ (by decide) rfl rfl (noTok _ rfl)
  have c := h (tl (fun q => tags 2 .full (withQ 3 (ent 4 [0xFFF, 0]) q))) 0 _ _ (by decide) rfl rfl (noTok _ rfl)
  exact ⟨go (a.1 rfl), go (b.2.1 (by decide) rfl), go (c.2.2 (by decide) rfl)⟩

/-- One whole slot into the last bytes of data memory. -/
theorem wit_DmaCopiesToDataMemory : Obligations.DmaCopiesToDataMemory →
    completes (.dmaTransferComplete 0 0) (tl (fun q => tags 2 .full (withQ 4 (ent 5 [0, 0x3000, 0, 0x1000]) q))) := by
  intro h
  exact go (h (tl (fun q => tags 2 .full (withQ 4 (ent 5 [0, 0x3000, 0, 0x1000]) q))) 0 _ [] (by decide) rfl rfl rfl (by decide) rfl rfl rfl rfl rfl rfl rfl
    nofun (by decide) (noTok _ rfl) (.inl rfl))

/-- Two tiles of the die: a program runs on each. -/
def tl2 (f g : Tile → Tile) : State := (tl f).onTile 1 (fun q => g { q with seq := { q.seq with phase := .running, progLen := 16 } })

theorem wit_SlotTagsAndCredits : Obligations.SlotTagsAndCredits →
    completes (.commandComplete 0 4 0) (tl (withQ 4 (ent 0xC [0x01FFF000]))) ∧ completes (.commandComplete 0 4 0) (tl (withQ 4 (ent 0xA [0])))
    ∧ completes (.creditAllocGrant 0 15) (tl2 (fun q => { q with
        spad := { q.spad with owner := some 0 }
        dma := { q.dma with windows := [(15, some ⟨4, 4, 7⟩)], reqs := [{ who := ⟨0, 1, 0⟩, job := 0, window := 15, count := 4, lcore := 1, since := 0, uid := 0, port := none }] } })
        (withQ 4 { ent 8 [0] with inFlight := true }))
    ∧ completes (.creditWaitTimeout 0 15) (late 100000 (tl2 (fun q => { q with
        dma := { q.dma with reqs := [{ who := ⟨0, 1, 0⟩, job := 0, window := 15, count := 4, lcore := 1, since := 0, uid := 0, port := none }] } })
        (withQ 4 { ent 8 [0] with inFlight := true }))) := by
  intro h
  have a := h.1 (tl (withQ 4 (ent 0xC [0x01FFF000]))) 0 _ [] (by decide) rfl rfl (noTok _ rfl)
  have b := h.1 (tl (withQ 4 (ent 0xA [0]))) 0 _ [] (by decide) rfl rfl (noTok _ rfl)
  have c := h.2 (tl2 (fun q => { q with
        spad := { q.spad with owner := some 0 }
        dma := { q.dma with windows := [(15, some ⟨4, 4, 7⟩)], reqs := [{ who := ⟨0, 1, 0⟩, job := 0, window := 15, count := 4, lcore := 1, since := 0, uid := 0, port := none }] } })
        (withQ 4 { ent 8 [0] with inFlight := true })) 0 1 15 _ _ (by decide) (by decide) (by decide) (by decide) (by decide) rfl rfl rfl rfl rfl rfl rfl rfl rfl
  have d := h.2 (late 100000 (tl2 (fun q => { q with
        dma := { q.dma with reqs := [{ who := ⟨0, 1, 0⟩, job := 0, window := 15, count := 4, lcore := 1, since := 0, uid := 0, port := none }] } })
        (withQ 4 { ent 8 [0] with inFlight := true }))) 0 1 15 _ _ (by decide) (by decide) (by decide) (by decide) (by decide) rfl rfl rfl rfl rfl rfl rfl rfl rfl
  exact ⟨go (a.1 rfl nofun), go (b.2 rfl rfl), go (c.1 ⟨4, 4, 7⟩ rfl rfl (by decide) (by decide)), go (d.2 rfl (by decide))⟩

/-- Job 42 has its stash control block at 0x1000: a region of 64 KiB at 0x10000, a directory of one entry at 0x2000. -/
def stash (e : QEntry) (s : State) : State :=
  ({ s with
    qm := { s.qm with jobs := [(42, some { valid := true, retain := false, st := .live, scb := 0x1000, killTs := 0, killStart := 0, killCores := 0, killUid := 0 })] }
    mem := (Mem.wrBytes [] 0x1000 (leBytes 8 0x10000 ++ leBytes 8 0x10000 ++ leBytes 8 0x10000)).wrBytes 0x1030 (leBytes 8 0x2000) }).onTile 0
      (fun q => withQ 4 e (busy .running q))

theorem wit_StashRecordBecomesPresent : Obligations.StashRecordBecomesPresent →
    completes (.stashAlloc 0 0) (stash { ent 6 [0, 0x100, 0, 0] with inFlight := true } (die (dsc 1 [])))
    ∧ completes (.stashPresent 0 0) (stash { ent 6 [0, 0x100, 0, 0] with inFlight := true, store := some (0x10000, 4096, 0x2000), strRows := 1 } (one 42 (die (dsc 1 [])))) := by
  intro h
  have a := h (stash { ent 6 [0, 0x100, 0, 0] with inFlight := true } (die (dsc 1 []))) 0 _ [] (by decide) rfl rfl
  have b := h (stash { ent 6 [0, 0x100, 0, 0] with inFlight := true, store := some (0x10000, 4096, 0x2000), strRows := 1 } (one 42 (die (dsc 1 [])))) 0 _ [] (by decide) rfl rfl
  exact ⟨go (a.1 _ _ (.inl rfl) rfl rfl (by decide) (by decide) rfl rfl (by decide) (by decide) (by decide) (by decide)),
    go (b.2 _ _ _ _ _ _ rfl rfl (by decide) rfl (by decide) rfl rfl rfl rfl (by decide) (by decide))⟩

/-! ### Synchronisation -/

/-- A request for a sync operation. -/
def rq (code : Nat) (ws : List Word) : SyncReq := { code := code, words := ws, job := 42, stream := 1, die := 1, core := 63, src := .remote 1 0 5 42 }
def sp : Packet := { pktD [] with job := 42 }

theorem wit_SyncOperationsAndResults : Obligations.SyncOperationsAndResults →
    completes (.syOp 0 sp (rq 2 [0, 0xFFFFFFFF, 0])) sy ∧ completes (.syOp 0 sp (rq 2 [0, 7, 2])) sy
    ∧ completes (.syOp 0 sp (rq 2 [1, 8, 0])) sy ∧ completes (.syOp 0 sp (rq 2 [1, 1, 1])) sy ∧ completes (.syOp 0 sp (rq 3 [0, 5, 0])) sy
    ∧ completes (.syOp 0 sp (rq 3 [1, 3, 4])) sy ∧ completes (.syOp 0 sp (rq 3 [0, 6, 0])) sy ∧ completes (.syOp 0 sp (rq 6 [0])) sy
    ∧ completes (.syOp 0 sp (rq 5 [0])) sy ∧ completes (.syOp 0 { sp with job := 41 } (rq 6 [0])) sy := by
  intro h
  have a := fun r (h0 : (wordAt r.words 0).toNat / 65536 = sy.pos) (hn : Tab.get none sy.sync.inits (wordAt r.words 0).toNat = none) (hw : (sy.obj ((wordAt r.words 0).toNat % 65536)).waiters = []) (h1 : (sy.obj ((wordAt r.words 0).toNat % 65536)).st = 1)
    (hj : (sy.obj ((wordAt r.words 0).toNat % 65536)).job = 42) => (h.1 sy 0 sp r (by decide) h0 hn hw).1 h1 hj
  have a1 := a (rq 2 [0, 0xFFFFFFFF, 0]) (by decide) rfl (by decide) (by decide) (by decide)
  have a2 := a (rq 2 [0, 7, 2]) (by decide) rfl (by decide) (by decide) (by decide)
  have a3 := a (rq 2 [1, 8, 0]) (by decide) rfl (by decide) (by decide) (by decide)
  have a4 := a (rq 2 [1, 1, 1]) (by decide) rfl (by decide) (by decide) (by decide)
  have a5 := a (rq 3 [0, 5, 0]) (by decide) rfl (by decide) (by decide) (by decide)
  have a6 := a (rq 3 [1, 3, 4]) (by decide) rfl (by decide) (by decide) (by decide)
  have a7 := a (rq 3 [0, 6, 0]) (by decide) rfl (by decide) (by decide) (by decide)
  have a8 := a (rq 6 [0]) (by decide) rfl (by decide) (by decide) (by decide)
  have a9 := a (rq 5 [0]) (by decide) rfl (by decide) (by decide) (by decide)
  have b := (h.1 sy 0 { sp with job := 41 } (rq 6 [0]) (by decide) (by decide) rfl (by decide)).2 (by decide) (by decide) (by decide)
  exact ⟨go (a1.1 rfl (by decide) (by decide)), go (a2.2.1 rfl (by decide) (by decide)), go (a3.2.2.1 rfl (by decide) (by decide)),
    go (a4.2.2.2.1 rfl (by decide) (by decide)), go (a5.2.2.2.2.1 rfl (by decide) (by decide)),
    go (a6.2.2.2.2.2.1 rfl (by decide) (by decide) (by decide) (by decide) (by decide)), go (a7.2.2.2.2.2.2.1 rfl (by decide) (by decide)),
    go (a8.2.2.2.2.2.2.2.1 rfl (by decide)), go (a9.2.2.2.2.2.2.2.2 rfl (by decide)), go b⟩

/-- A `SY_WAIT` that has been sent, with `SOFT` in bit 0 of the third word and a window in its upper half. -/
def waits (w2 : Word) (s : State) : State := s.onTile 0 (fun q => withQ 5 { ent 3 [0, 9, w2, 0x7FF8] with inFlight := true } (busy .running q))
/-- A result on its way to tile 0. -/
def res (oc v : Nat) (s : State) : State := { s with sync := { s.sync with results := [⟨.tile 0, oc, v⟩] } }
theorem wit_SyncOperationsAndResults_2 : Obligations.SyncOperationsAndResults →
    completes (.syResult none pkt 0) (res 0 0xFFFFFFFF (waits 0 (die (dsc 1 [])))) ∧ completes (.syResult none pkt 0) (res 2 0 (waits 1 (die (dsc 1 []))))
    ∧ completes (.syResult none pkt 0) (res 2 0 (waits 0 (die (dsc 1 []))))
    ∧ completes (.syResult (some 0) (pktD []) 0) (waits 0 { lnk 1 (die (dsc 1 [])) with rdc := { Rdc.init with opens := [(5, some (tx 3 0))] } })
    ∧ completes (.syWaitTimeout 0) (late 1000000 (waits 0x10001 (die (dsc 1 [])))) := by
  intro h
  have a := h.2 (res 0 0xFFFFFFFF (waits 0 (die (dsc 1 [])))) 0 _ [] (by decide) rfl rfl rfl (by decide) (noTok _ rfl)
  have b := h.2 (res 2 0 (waits 1 (die (dsc 1 [])))) 0 _ [] (by decide) rfl rfl rfl (by decide) (noTok _ rfl)
  have c := h.2 (res 2 0 (waits 0 (die (dsc 1 [])))) 0 _ [] (by decide) rfl rfl rfl (by decide) (noTok _ rfl)
  have d := h.2 (waits 0 { lnk 1 (die (dsc 1 [])) with rdc := { Rdc.init with opens := [(5, some (tx 3 0))] } }) 0 _ [] (by decide) rfl rfl rfl (by decide) (noTok _ rfl)
  have e := h.2 (late 1000000 (waits 0x10001 (die (dsc 1 [])))) 0 _ [] (by decide) rfl rfl rfl (by decide) (noTok _ rfl)
  exact ⟨go (a.1 pkt 0 _ (by decide) rfl (by decide)), go ((b.2.1 pkt 0 _ (by decide) rfl).1 (by decide)), go ((c.2.1 pkt 0 _ (by decide) rfl).2 (by decide)),
    go (d.2.2.1 0 0 0 (pktD []) (tx 3 0) (by decide) (by decide) rfl rfl rfl (by decide) (by decide) (by decide)),
    go (e.2.2.2 (by decide) (by decide))⟩

theorem wit_BarrierRounds : Obligations.BarrierRounds →
    completes (.barReport 0 (pktD []) 0 0xFFFFFFFF) (ba (barr 7) (lnk 1 (die (dsc 1 []))))
    ∧ completes (.barRelease 0 (pktD []) 0 0xFFFFFFFF) (ba { barr 3 with waits := [⟨.tile 0, 0, some 0xFFFFFFFF, true⟩] }
        { lnk 1 (die (dsc 1 [])) with pkg := { Pkg.init with leader := 1 } }) := by
  intro h
  exact ⟨go ((h (ba (barr 7) (lnk 1 (die (dsc 1 [])))) 0 0 0xFFFFFFFF (barr 7) (pktD []) rfl rfl).1 2 (by decide) (by decide) (by decide) (by decide)
      (by decide) (by decide) (by decide) (by decide) (by decide) (by decide)),
    go' ((h (ba { barr 3 with waits := [⟨.tile 0, 0, some 0xFFFFFFFF, true⟩] } { lnk 1 (die (dsc 1 [])) with pkg := { Pkg.init with leader := 1 } })
      0 0 0xFFFFFFFF _ (pktD []) rfl rfl).2 0 0 (by decide) (by decide) rfl (by decide) (by decide) rfl (by decide))⟩

/-- The debugger selects field `f` of object `i`. -/
def dbg (f i v : Nat) (s : State) : State := (s.setReg 0x2800 (BitVec.ofNat 32 (i + f * 2 ^ 16))).setReg 0x2804 (BitVec.ofNat 32 v)

theorem wit_DebuggerOverridesObjects : Obligations.DebuggerOverridesObjects →
    completes .syncDbgRead (dbg 0 0 0 sy) ∧ completes .syncDbgRead (dbg 1 1 0 sy) ∧ completes .syncDbgWrite (dbg 1 0 0xFFFFFFFF sy)
    ∧ completes .syncDbgWrite (dbg 1 9 1 sy)
    ∧ completes .syncDbgRelease (dbg 0 0 2 { sy with sync := { sy.sync with objs := [(0, { cnt 5 with waiters := [⟨.tile 0, 9, false, false⟩] })] } })
    ∧ completes .syncDbgClose (dbg 0 0 0 (ba (barr 1) (die (dsc 1 [])))) ∧ completes .syncDbgFree (dbg 0 0 0 sy) := by
  intro h
  exact ⟨go ((h (dbg 0 0 0 sy)).1 (by decide) (by decide) (by decide) (by decide)), go ((h (dbg 1 1 0 sy)).2.1 (by decide) (by decide) (by decide)),
    go ((h (dbg 1 0 0xFFFFFFFF sy)).2.2.1 (by decide) (by decide) (by decide) (by decide)), go ((h (dbg 1 9 1 sy)).2.2.2.1 (by decide)),
    go ((h (dbg 0 0 2 { sy with sync := { sy.sync with objs := [(0, { cnt 5 with waiters := [⟨.tile 0, 9, false, false⟩] })] } })).2.2.2.2.1
      0 9 false false (by decide) (by decide) (by decide) rfl),
    go' ((h (dbg 0 0 0 (ba (barr 1) (die (dsc 1 []))))).2.2.2.2.2.1 (barr 1) (by decide) (by decide) (by decide) rfl (by decide) rfl (by decide) (by decide)),
    go ((h (dbg 0 0 0 sy)).2.2.2.2.2.2 (by decide) (by decide) (by decide))⟩

/-! ### Descriptors and placement -/

/-- A descriptor of job 42 that waits to be started. -/
def qd (op : Nat) (ws : List Word) : Desc := { dsc op ws with st := .fetched, cores := [] }

theorem wit_DescriptorsAreFetchedAndStarted : Obligations.DescriptorsAreFetchedAndStarted →
    completes (.descFetch 1 0) (rg (die (qd 9 []))) ∧ completes .descDispatch (acc (die (qd 9 []))) := by
  intro h
  obtain ⟨s', _, _, x, -⟩ := (h (rg (die (qd 9 []))) 1 strm (by decide)).1 ⟨0x1000, 4, true, 1, 2, 0, true⟩ 0 _ (by decide) rfl rfl
  refine ⟨⟨s', x⟩, go' ((h (acc (die (qd 9 []))) 1 strm (by decide)).2 _ (by decide) rfl (by decide) (by decide) fun j hj => ?_)⟩
  have : (acc (die (qd 9 []))).stream j = none := if_neg hj
  simp only [State.nextDesc, this]

/-- The objects of `sy` and a descriptor. -/
def sd (d : Desc) : State := { sy with qm := (die d).qm }
/-- The transfer of a `COPY` whose piece has been answered. -/
def cpy : QEntry := { QEntry.init with code := 1, words := [0, 0, 0, 0], inFlight := true, uid := 7, ans := 1, bellRows := 1 }

theorem wit_DescriptorsTakeTheirAction : Obligations.DescriptorsTakeTheirAction →
    completes (.nopDesc 7) (die (dsc 9 [])) ∧ completes (.fenceDesc 7) (die (dsc 4 []))
    ∧ completes (.syncDescSignal 7) (sd (dsc 3 [0, 0, 0xFFFFFFFF])) ∧ completes (.syncDescWait 7) (sd (dsc 3 [1, 0, 5]))
    ∧ completes (.syncDescArrive 7) (ba { barr 1 with ahead := [] } (die (dsc 3 [2, 0, 0, 0])))
    ∧ completes (.compute 7) (die (dsc 1 [0, 0, 0x100001]))
    ∧ completes (.copy 7) (die { dsc 2 [0, 0, 0, 0, 0x3FF0000, 0] with xfer := some cpy }) := by
  intro h
  have a := fun s d (hd : s.desc 7 = some d) (hl : s.inLimit d = true) => h.1 s 7 d hd hl
  have a1 := (a (sd (dsc 3 [0, 0, 0xFFFFFFFF])) _ rfl rfl).2.2.1 (by decide) rfl (by decide) rfl rfl
  have a2 := (a (sd (dsc 3 [1, 0, 5])) _ rfl rfl).2.2.1 (by decide) rfl (by decide) rfl rfl
  have a3 := (a (ba { barr 1 with ahead := [] } (die (dsc 3 [2, 0, 0, 0]))) _ rfl rfl).2.2.1 (by decide) rfl (by decide) rfl rfl
  exact ⟨go ((a (die (dsc 9 [])) _ rfl rfl).1 rfl), go ((a (die (dsc 4 [])) _ rfl rfl).2.1 rfl (by decide)),
    go (a1.1 (by decide) (by decide) rfl rfl rfl), go (a2.2.1 (by decide) rfl rfl (by decide) (by decide)),
    go (a3.2.2 _ 0 1 (by decide) (by decide) rfl rfl rfl rfl (by decide) (by decide) (by decide) (by decide) (by decide) (by decide) (by decide) (by decide)),
    go ((a (die (dsc 1 [0, 0, 0x100001])) _ rfl rfl).2.2.2.1 0 0 rfl rfl rfl rfl (by decide) (by decide)),
    go ((a (die { dsc 2 [0, 0, 0, 0, 0x3FF0000, 0] with xfer := some cpy }) _ rfl rfl).2.2.2.2 cpy rfl rfl rfl rfl rfl rfl rfl rfl
      (by decide) (by decide) (by decide)
      (acc_ok (by decide) (by decide) (by decide)) (acc_ok (by decide) (by decide) (by decide)) (by decide) (by decide) (by decide))⟩

/-- A `PLACE` descriptor of job `j`. -/
def pl (j : Nat) (ws : List Word) : Desc := { dsc 5 ws with words := [5, 3, BitVec.ofNat 32 j, 0] ++ ws }
/-- An object table entry of a `LOCAL` object with 32 granules from 128 MiB, of generation 1. -/
def entry : List Word := [0x100001 + 42 * 256 + 16, 31, 0x8000000, 0, 0xFFFFFFFF, 0, 0, 0]

theorem wit_DescriptorsTakeTheirAction_2 : Obligations.DescriptorsTakeTheirAction →
    completes (.near 7) (die (pl 42 [0x100000, 0, 0, 7])) ∧ completes (.nearCore 7) (die (pl 42 [0x100000, 0x3F1]))
    ∧ completes (.spreadOver 7) (die (pl 42 [0x100000, 2, 0xFFFFFFFF])) ∧ completes (.freeze 7) (die (pl 42 [0x100000, 3]))
    ∧ completes (.thaw 7) (die (pl 41 [0x100000, 4])) ∧ completes (.activate 7 entry) (die (pl 0 [0x100002, 8]))
    ∧ completes (.release 7) (die (pl 0 [0x100000, 9])) := by
  intro h
  have a := fun s d (hd : s.desc 7 = some d) (hp : d.due 5 = true) (hl : s.inLimit d = true) => h.2 s 7 d hd hp hl
  exact ⟨go ((((a (die (pl 42 [0x100000, 0, 0, 7])) _ rfl rfl rfl).1 0 obj (by decide)).1 (by decide)).1 rfl),
    go ((((a (die (pl 42 [0x100000, 0x3F1])) _ rfl rfl rfl).1 0 obj (by decide)).2.1 (by decide)).1 rfl),
    go ((((a (die (pl 42 [0x100000, 2, 0xFFFFFFFF])) _ rfl rfl rfl).1 0 obj (by decide)).2.2.1 (by decide)).1 rfl),
    go ((((a (die (pl 42 [0x100000, 3])) _ rfl rfl rfl).1 0 obj (by decide)).2.2.2.1 (by decide)).1 rfl),
    go ((((a (die (pl 41 [0x100000, 4])) _ rfl rfl rfl).1 0 obj (by decide)).2.2.2.2 (by decide)).2 (by decide)),
    go' ((a (die (pl 0 [0x100002, 8])) _ rfl rfl rfl).2.1 entry _ _ (by decide) rfl (by decide) (by decide) (by decide) (by decide) (by decide) (by decide) rfl),
    go ((a (die (pl 0 [0x100000, 9])) _ rfl rfl rfl).2.2 0 obj (by decide) rfl rfl rfl rfl rfl (by decide) (by decide) (by decide) (by decide) (by decide))⟩

/-- One object in the table, at the end of the first epoch, with `KW_CTRL` and `KW_POLICY`. -/
def ow (ctrl pol : Nat) (o : Obj) : State :=
  { (((die (dsc 9 [])).setReg 0x2400 (BitVec.ofNat 32 ctrl)).setReg 0x2414 (BitVec.ofNat 32 pol)) with
    kw := { Kw.init with ready := true, objs := [(0, some o)], cores := [(0, ⟨0, .mapped⟩)] }, time := { Time.init with ts := 1000000 } }
/-- A migration to die 1. -/
def mg (c w : Bool) (ds : List Nat) : Migration := { target := 1, newHomes := List.replicate 32 4, copied := c, switching := w, dirty := ds, postponed := 0 }

theorem wit_KeyworkMovesAndAdmits : Obligations.KeyworkMovesAndAdmits →
    completes (.epochBoundary []) (ow 0 0 { obj with traffic := [(1, 8192)] }) ∧ completes (.epochBoundary []) (ow 0 0 { obj with hints := [(3, 0)] })
    ∧ completes (.epochBoundary []) (ow 0 0 { obj with mig := some (mg true false [1]) })
    ∧ completes (.epochBoundary []) (ow 1 0x13C00 { obj with traffic := [(1, 8192)], stackMask := 0xFF, pol := 1 })
    ∧ completes (.migrationCopyDone 0) (ow 0 0 { obj with mig := some (mg false false []) })
    ∧ completes (.migrationSwitchDone 0) (ow 0 0 { obj with mig := some (mg true true []) })
    ∧ completes (.objFreed 0) (ow 0 0 { obj with st := .releasing, drained := true }) ∧ completes (.translationMiss (2 ^ 48 + 2 ^ 21 + 5)) (lnk 1 (ow 0 0 obj)) := by
  intro h
  have a := fun c p o => h.1 (ow c p o) 0 o
  refine ⟨go (((a 0 0 { obj with traffic := [(1, 8192)] } rfl).1 rfl rfl (by decide) rfl rfl).1 (by decide) |>.1 rfl rfl),
    go (((a 0 0 { obj with hints := [(3, 0)] } rfl).1 rfl rfl (by decide) rfl rfl).1 (by decide) |>.2.1 rfl rfl),
    go (((a 0 0 { obj with mig := some (mg true false [1]) } rfl).1 rfl rfl (by decide) rfl rfl).1 (by decide) |>.2.2 _ rfl rfl rfl rfl (by decide)),
    go' (((a 1 0x13C00 { obj with traffic := [(1, 8192)], stackMask := 0xFF, pol := 1 } rfl).1 rfl rfl (by decide) rfl rfl).2 1 _ _
      (by decide) rfl rfl rfl rfl rfl rfl (by decide) (by decide) (by decide) ?_ (by decide) (by decide) rfl),
    go ((a 0 0 { obj with mig := some (mg false false []) } rfl).2.1 _ rfl).1,
    go' (((a 0 0 { obj with mig := some (mg true true []) } rfl).2.1 _ rfl).2 rfl rfl rfl (by decide) rfl (by decide)),
    go ((a 0 0 { obj with st := .releasing, drained := true } rfl).2.2.1 rfl rfl rfl rfl),
    go' ((h.1 (lnk 1 (ow 0 0 obj)) 0 obj rfl).2.2.2 (2 ^ 48 + 2 ^ 21 + 5) 0 (by decide) (by decide) (by decide) rfl (by decide))⟩
  intro x hx
  have e : Tab.get 0 [(1, 2)] x = 0 := if_neg hx
  have g : ∀ b, decide (shareNeeded 60 b * 2 ≤ 200 * 0) = false := by decide
  show (_ && decide (shareNeeded 60 _ * 2 ≤ 200 * Tab.get 0 [(1, 2)] x)) = false
  rw [e, g, Bool.and_false]

theorem wit_KeyworkMovesAndAdmits_2 : Obligations.KeyworkMovesAndAdmits →
    completes (.spareAdmitted 71 true) { ow 0 0 obj with kw := { Kw.init with admitting := [(71, 63, 5)] } }
    ∧ completes (.spareAdmitted 71 false) { ow 0 0 obj with kw := { Kw.init with admitting := [(71, 63, 5)] } }
    ∧ completes .absentAdmission { ow 2 0 obj with kw := { Kw.init with ready := true, tiles := [(71, .spare)] } }
    ∧ completes (.keyworkInit [] (2 ^ 72 - 2)) { State.reset with mgmt := { Mgmt.init with stage := 9, spareSet := 15 }, pkg := { Pkg.init with joined := some 0 } }
    ∧ completes (.coreMapMovingResolve 0) ((lnk 1 { ow 0 0 obj with rdc := { Rdc.init with held := [(0, { pkt with ptype := 1, job := 42, len := 256 })] } }).onTile 0
        (fun q => { q with spad := { q.spad with owner := some 42, slots := [(0, ⟨.full, 0, 0⟩)] } }))
    ∧ completes (.muteScrubDone 71 true) ((ow 0 0 obj).onTile 71 Tile.seal) := by
  intro h
  have a := fun s => h.2 s 71 (by decide)
  exact ⟨go ((a { ow 0 0 obj with kw := { Kw.init with admitting := [(71, 63, 5)] } }).1 63 5 (by decide) rfl).1,
    go (((a { ow 0 0 obj with kw := { Kw.init with admitting := [(71, 63, 5)] } }).1 63 5 (by decide) rfl).2 (by decide) rfl (by decide)),
    go ((a { ow 2 0 obj with kw := { Kw.init with ready := true, tiles := [(71, .spare)] } }).2.1 0 [] rfl (by decide) (by decide) (by decide)),
    go ((a { State.reset with mgmt := { Mgmt.init with stage := 9, spareSet := 15 }, pkg := { Pkg.init with joined := some 0 } }).2.2.1 (2 ^ 72 - 2) rfl rfl (by decide) (by decide)),
    go ((h.2 ((lnk 1 { ow 0 0 obj with rdc := { Rdc.init with held := [(0, { pkt with ptype := 1, job := 42, len := 256 })] } }).onTile 0
        (fun q => { q with spad := { q.spad with owner := some 42, slots := [(0, ⟨.full, 0, 0⟩)] } })) 0 (by decide)).2.2.2.1 0 _ 0 rfl rfl rfl rfl (by decide) rfl rfl rfl rfl (by decide)),
    go ((a ((ow 0 0 obj).onTile 71 Tile.seal)).2.2.2.2 rfl rfl rfl)⟩

/-! ### Endings and doorbells -/

/-- The length of a saved frame without its CRC, and memory that holds one of zeros at address 0 with its CRC. -/
def frameLen : Nat := Config.contextLen % 2621437
def frameMem : Mem := Mem.wrBytes [] frameLen (leBytes 4 (crc32c (List.replicate frameLen 0)))

/-- A frame saved on tile 0 by a program that is resident there, with its bytes in memory. -/
def saved (s : State) : State :=
  { s.onTile 0 (fun q => { q with spad := { q.spad with owner := some 42 }, seq := { q.seq with resident := some (0x100001, 16) } }) with
    mem := frameMem
    qm := { s.qm with frames := [(448, some ⟨busy .saved Tile.init, none, false⟩)], rings := [(1, some ⟨0x1000, 4, true, 1, 2, 0, true⟩)] } }

/-- That die, with the descriptor that resumes there. -/
def back : State := saved (die { dsc 1 [] with st := .preempted })

theorem frameLen_lt : frameLen < 2621437 := Nat.mod_lt _ (by decide)

theorem back_host (a : Nat) (h : a < 2 ^ 26) : isHostAddr a = false := by
  simp only [isHostAddr, bitsOf]; rw [Nat.div_eq_of_lt (by omega)]; rfl

theorem back_owner (a : Nat) (h : a < 2 ^ 26) : ownerOf a = 0 := by
  unfold ownerOf bitsOf; rw [Nat.div_eq_of_lt (by omega), Nat.zero_mod]

theorem back_obj (a : Nat) (h : a < 2 ^ 26) : findObj a back.kw.objs = some (0, obj) := by
  show (if 0 ≤ a ∧ a < 0 + 32 * 2097152 then _ else _) = _
  rw [if_pos (by omega)]

theorem back_stack (a : Nat) (h : a < 2 ^ 26) : back.homeStack a = some 0 := by
  simp only [State.homeStack, back_host a h, back_owner a h, back_obj a h, (by decide : back.pos = 0)]
  show (List.replicate 32 0)[(a - 0) / 2097152]? = some 0
  rw [List.getElem?_replicate, if_pos (by omega)]

theorem back_home (a : Nat) (h : a < 2 ^ 26) : back.isHome a = true := by
  simp only [State.isHome, State.homeDie, back_stack a h, back_host a h, (by decide : back.pos = 0)]; rfl

theorem back_access (g : Agent) (hg : g.job = 42) (n : Nat) (h : n < 2621441) : back.access g false 0 n = .ok () := by
  by_cases h0 : n = 0
  · simp [State.access, h0]
  have hp : back.pos = 0 := by decide
  refine (if_neg h0).trans ?_
  have hd : back.deny g.job false g.hostOk 0 n = 0 := by
    simp only [State.deny, back_host 0 (by decide), back_owner 0 (by decide), back_obj 0 (by decide), hp, hg]
    have hr : ¬ obj.pbase + obj.granules * granuleBytes < 0 + n := by show ¬ 0 + 32 * 2097152 < 0 + n; omega
    simp only [hr, if_false, (by decide : (obj.st == ObjSt.releasing) = false), (by decide : (obj.st == ObjSt.free) = false)]
    rfl
  have hn : (0 + (n - 1)) / granuleBytes + 1 - 0 / granuleBytes = 1 ∨ (0 + (n - 1)) / granuleBytes + 1 - 0 / granuleBytes = 2 := by
    simp only [granuleBytes]; omega
  have hgone : ∀ a, a < 2 ^ 26 → back.granuleGone a = false := by
    intro a ha
    simp only [State.granuleGone, back_owner a ha, back_stack a ha]
    decide
  have hq : back.isPoisoned 0 n = false := by
    simp only [State.isPoisoned, granulesOf]
    have : back.pkg.poison = [] := rfl
    rw [this]
    rcases hn with e | e <;> rw [e] <;> simp [List.range_succ, hgone, granuleBytes]
  have hh : back.held 0 n = false := by
    simp only [State.held, back_host 0 (by decide)]
    rcases hn with e | e <;> rw [e] <;> simp only [List.range_succ, List.range_zero, granuleBytes] <;> decide
  rw [hd, hq, hh]; rfl

theorem back_need (g : Agent) (hg : g.job = 42) (agent n : Nat) (h : n < 2621441) : back.need g agent false 0 n = (back, .ok ()) := by
  have hl : ∀ l ∈ linesOf 0 n, back.isHome (256 * l) = true := by
    intro l hl
    simp only [linesOf, List.mem_map, List.mem_range] at hl
    obtain ⟨i, hi, rfl⟩ := hl
    exact back_home _ (by omega)
  have hf : back.fetch agent g.job g.stop 0 n = back := by
    simp only [State.fetch]
    split
    · rfl
    · generalize linesOf 0 n = ls at hl
      induction ls with
      | nil => rfl
      | cons l ls ih =>
        have : State.fetchLine agent g.job g.stop back l = back := by simp only [State.fetchLine, hl l (by simp)]; rfl
        rw [List.foldl_cons, this]
        exact ih fun x hx => hl x (List.mem_cons_of_mem _ hx)
  have hr : back.fetched agent 0 n = some 1 := by
    simp only [State.fetched]
    have : (linesOf 0 n).filter (fun l => !back.isHome (256 * l)) = [] := by
      rw [List.filter_eq_nil_iff]; intro l h; simp [hl l h]
    rw [this]; simp
  simp only [State.need, back_access g hg n h, hf, hr]
  rfl

theorem back_bytes (agent : Nat) : ∀ n a, a + n ≤ 2 ^ 26 → back.rdPkg agent a n = frameMem.rdBytes a n
  | 0, _, _ => rfl
  | n + 1, a, h => by
    show back.rdByte agent a :: back.rdPkg agent (a + 1) n = _
    rw [back_bytes agent n (a + 1) (by omega)]
    simp only [State.rdByte, back_home a (by omega)]
    rfl

theorem rdBytes_add (m : Mem) (n k a : Nat) : m.rdBytes a (n + k) = m.rdBytes a n ++ m.rdBytes (a + n) k := by
  induction n generalizing a with
  | zero => simp [Mem.rdBytes]
  | succ n ih =>
    rw [Nat.add_right_comm, Mem.rdBytes, ih, Mem.rdBytes, List.cons_append, Nat.add_assoc a 1 n, Nat.add_comm 1 n]

theorem zeros_read (n a : Nat) : Mem.rdBytes [] a n = List.replicate n 0 := by
  induction n generalizing a with
  | zero => rfl
  | succ n ih => rw [List.replicate_succ, ← ih (a + 1)]; rfl

theorem back_members : back.needMembers { dsc 1 [] with st := .preempted } strm [(0, ⟨busy .saved Tile.init, none, false⟩)] = (back, .ok ()) := by
  have h : back.needMember { dsc 1 [] with st := .preempted } strm 0 ⟨busy .saved Tile.init, none, false⟩ = (back, .ok ()) := by
    have hl := frameLen_lt
    simp only [State.needMember]
    rw [show Config.contextLen % 2621437 = frameLen from rfl, show strm.frameAt 0 = 0 from rfl, back_need _ rfl _ _ (by omega)]
    exact if_pos (by decide)
  simp only [State.needMembers, h]

theorem back_frameOk (d : Desc) (x : Stream) (h : x.frameAt 0 = 0) : back.frameOk d x 0 = true := by
  have hl := frameLen_lt
  have e : back.rdPkg (descAgent d.uid) (x.frameAt 0) (frameLen + 4)
      = List.replicate frameLen 0 ++ leBytes 4 (crc32c (List.replicate frameLen 0)) := by
    rw [h, back_bytes _ _ _ (by omega), rdBytes_add]
    congr 1
    · rw [frameMem, rdBytes_wrBytes_other _ _ _ _ _ (.inl (by omega)), zeros_read]
    · rw [Nat.zero_add, frameMem]
      exact rdBytes_wrBytes' _ _ _ _ (leBytes_length 4 _)
  simp only [State.frameOk]
  rw [show Config.contextLen % 2621437 = frameLen from rfl, e, List.take_left' (by simp), List.drop_left' (by simp)]
  rw [leNat_leBytes, Nat.mod_eq_of_lt (crc_lt _)]
  exact beq_self_eq_true _

theorem wit_DescriptorsEndAndResume : Obligations.DescriptorsEndAndResume →
    completes (.descComplete 7) (dies [{ dsc 9 [] with outcome := some (stOK, 0, 127), cores := [] }, { dsc 9 [] with uid := 8 }] (die (dsc 9 [])))
    ∧ completes (.descResume 7 true) back
    ∧ completes (.streamTimeout 7) { die { dsc 1 [] with timed := true } with
        time := { Time.init with ts := 2 * 10 ^ 6 }, qm := { (die { dsc 1 [] with timed := true }).qm with streams := [(1, some { strm with timeout := 1 })] } } := by
  intro h
  have a := (h (dies [{ dsc 9 [] with outcome := some (stOK, 0, 127), cores := [] }, { dsc 9 [] with uid := 8 }] (die (dsc 9 []))) 7 _ strm rfl (by decide)).1
  have b := (h back 7 { dsc 1 [] with st := .preempted } strm rfl (by decide)).2.1
  have c := (h { die { dsc 1 [] with timed := true } with
        time := { Time.init with ts := 2 * 10 ^ 6 }, qm := { (die { dsc 1 [] with timed := true }).qm with streams := [(1, some { strm with timeout := 1 })] } } 7 _ _ rfl rfl).2.2
  have hc : (busy .saved Tile.init).seq.phase = .saved ∧ back.stream 1 = some strm := ⟨rfl, rfl⟩
  refine ⟨go (a rfl rfl rfl rfl rfl rfl rfl (by decide) rfl rfl rfl (by decide) (by decide) (by decide) (by decide) ⟨{ dsc 9 [] with uid := 8 }, by simp [dies], by decide, by decide⟩ (by decide)
      (acc_ok (by decide) (by decide) (by decide)) (by decide) (by decide)), ?_,
    go' (c (by decide) rfl rfl rfl (by decide))⟩
  refine go' (b 0 0 ⟨busy .saved Tile.init, none, false⟩ rfl rfl rfl rfl rfl rfl (by decide) (by decide) rfl (by decide) (by decide) (by decide) rfl rfl (by decide)
    rfl rfl rfl rfl ?_ ?_ rfl rfl (by decide) rfl)
  · exact back_members
  · exact back_frameOk _ _ (by decide)

/-- A Reed transfer of one vector, its image at address 0, on a core whose entries belong to the job. -/
def rd (op : Nat) : State := (one 42 (die (dsc op [0, 0, 0, 0]))).onTile 0 (fun q => { q with row := { q.row with owner := some 42 } })
/-- A descriptor of job 0. -/
def jz (op : Nat) (ws : List Word) : Desc := { dsc op ws with words := [BitVec.ofNat 32 op, 3, 0, 0] ++ ws }

theorem wit_ReedTransfersAndKills : Obligations.ReedTransfersAndKills →
    completes (.reedSpill 7) (rd 6) ∧ completes (.reedFill 7) (rd 7) ∧ completes (.killJob 7) ((die (jz 8 [0, 42])).onTile 0 (fun q => { q with spad := { q.spad with owner := some 42 } }))
    ∧ completes (.resetStream 7) { die (jz 8 [1, 42, 2]) with qm := { (die (jz 8 [1, 42, 2])).qm with streams := [(2, some strm)] } }
    ∧ completes (.jobKillDone 42) (one 41 { die (jz 8 []) with qm := { (die (jz 8 [])).qm with
        streams := [(1, some { strm with job := 41 })]
        jobs := [(42, some { valid := true, retain := false, st := .killing, scb := 0, killTs := 0, killStart := 0, killCores := 0, killUid := 7 })] } }) := by
  intro h
  have a := (h (rd 6) 7 _ rfl rfl rfl).1 0 0 rfl rfl (by decide) rfl rfl
  have b := (h (rd 7) 7 _ rfl rfl rfl).1 0 0 rfl rfl (by decide) rfl rfl
  have c := (h ((die (jz 8 [0, 42])).onTile 0 (fun q => { q with spad := { q.spad with owner := some 42 } })) 7 _ rfl rfl rfl).2.1
  have d := (h { die (jz 8 [1, 42, 2]) with qm := { (die (jz 8 [1, 42, 2])).qm with streams := [(2, some strm)] } } 7 _ rfl rfl rfl).2.2.1
  have e := (h (one 41 { die (jz 8 []) with qm := { (die (jz 8 [])).qm with
        streams := [(1, some { strm with job := 41 })]
        jobs := [(42, some { valid := true, retain := false, st := .killing, scb := 0, killTs := 0, killStart := 0, killCores := 0, killUid := 7 })] } }) 7 _ rfl rfl rfl).2.2.2
  exact ⟨go (a.1 rfl rfl ⟨0, _, rfl⟩ rfl rfl (by decide) (by decide) (by decide) (by decide) (acc_ok (by decide) (by decide) (by decide)) (acc_ok (by decide) (by decide) (by decide))),
    go (b.2 rfl (by decide) (by decide) (by decide) (by decide) (acc_ok (by decide) (by decide) (by decide)) (acc_ok (by decide) (by decide) (by decide))),
    go' (c 42 _ rfl (by decide) (by decide) (by decide) rfl rfl rfl (by decide)),
    go' (d 42 2 strm rfl (by decide) (by decide) (by decide) (by decide) rfl rfl rfl (by decide) (by decide)),
    go (e 42 _ rfl rfl (by decide) (by simp [one, obj]) rfl)⟩

/-- A port to the host, the queue manager enabled, the event ring of 256 records. -/
def bell (s : State) : State := lnk 3 (s.setReg 0x2000 0x00010001)
/-- A doorbell that moves ring 1 to `tail` with tag 1. -/
def db (tail : Nat) : Packet := { pktD (leBytes 8 (1 + tail * 2 ^ 16 + 2 ^ 32)) with addr := 8 }

theorem wit_DoorbellsAndWriteBacks : Obligations.DoorbellsAndWriteBacks →
    completes (.doorbell 0 (db 15)) (bell (rg (die (dsc 9 []))))
    ∧ completes (.eventDoorbell 0 (pktD (leBytes 8 0))) (bell (die (dsc 9 [])))
    ∧ completes (.qmCtrlWrite 0xFFFFFFFF) State.reset ∧ completes (.streamWriteback 1) (one 0 (die (dsc 9 [])))
    ∧ completes .notifyWrite (bell (one 0 { die (dsc 9 []) with qm := { (die (dsc 9 [])).qm with notifyDue := true, lastNotify := some 0 } })) := by
  intro h
  exact ⟨go ((h (bell (rg (die (dsc 9 [])))) 0 (db 15)).1 _ strm _ (by decide) (by decide) (by decide) (by decide) (by decide) (by decide) (by decide) rfl rfl rfl rfl rfl
      rfl (by decide) rfl rfl rfl (by decide) (by decide) (by decide) (by decide) (.inr rfl) rfl rfl (by decide) (by decide)),
    go ((h (bell (die (dsc 9 []))) 0 (pktD (leBytes 8 0))).2.1 (by decide) (by decide) (by decide) (by decide) (by decide) (by decide)),
    go ((h State.reset 0 pkt).2.2.1 0xFFFFFFFF), go ((h (one 0 (die (dsc 9 []))) 0 pkt).2.2.2.1 1 strm rfl rfl (by decide) (by decide) (by decide)),
    go ((h (bell (one 0 { die (dsc 9 []) with qm := { (die (dsc 9 [])).qm with notifyDue := true, lastNotify := some 0 } })) 0 pkt).2.2.2.2 0
      rfl (by decide) rfl (by decide) (by decide) (by decide) (by decide))⟩

/-! ### Packets of other dies -/

/-- A die whose only program data object is of job 0, with port 0 to die 1. -/
def hm : State := lnk 1 (die (dsc 9 []))
/-- A packet of job 42. -/
def pk (bs : List Byte) : Packet := { pktD (bs ++ List.replicate (32 - bs.length) 0) with job := 42 }
/-- A packet without data. -/
def pn (n a : Nat) : Packet := { pkt with job := 42, len := n, addr := a }

theorem wit_PackageMemoryAccessesAtHome : Obligations.PackageMemoryAccessesAtHome →
    completes (.rd 0 (pn 256 256)) hm ∧ completes (.wr 0 (pk [1, 2])) hm
    ∧ completes (.atomic 0 (pk (leBytes 8 1 ++ leBytes 8 (2 ^ 64 - 1)))) hm ∧ completes (.atomic 0 (pk (leBytes 8 5 ++ leBytes 8 7))) hm := by
  intro h
  exact ⟨go ((h hm 0 (pn 256 256)).1 (by decide) (by decide) (by decide)), go ((h hm 0 (pk [1, 2])).2.1 (by decide) (by decide) rfl (by decide)),
    go ((h hm 0 (pk (leBytes 8 1 ++ leBytes 8 (2 ^ 64 - 1)))).2.2 (by decide) (by decide) rfl (by decide)),
    go ((h hm 0 (pk (leBytes 8 5 ++ leBytes 8 7))).2.2 (by decide) (by decide) rfl (by decide))⟩

/-- Tile 0 of job 42 with its slot 0 at a tag, granted to handle 15 of the DMA of tile 3 of die 1. -/
def so (g : Tag) : State := hm.onTile 0 (fun q => { q with spad := { q.spad with owner := some 42, slots := [(0, ⟨g, 0, 0⟩)] }
                                                           dma := { q.dma with granted := [⟨0, 0, ⟨1, 3, 15⟩, 0⟩] } })
/-- A packet of that handle. -/
def pw : Packet := { pk [1] with srcStop := 3, addr := 15 * 2 ^ 30 }

theorem wit_ScratchpadPacketsOfOtherDies : Obligations.ScratchpadPacketsOfOtherDies →
    completes (.spRd 0 (pn 256 0)) (so .full) ∧ completes (.spRd 0 { pn 256 0 with job := 41 }) (so .full)
    ∧ completes (.credReq 0 (pn 32 (2 ^ 38))) (so .empty) ∧ completes (.spWr 0 pw 32) (so .empty) ∧ completes (.spWr 0 pw 4096) (so .full)
    ∧ completes (.xlate 0 (pn 32 (2 ^ 21))) hm ∧ completes (.xlate 0 (pn 32 (2 ^ 30))) hm ∧ completes (.spRd 0 { pn 256 0 with aux := 1 }) (so .full)
    ∧ completes (.credReq 0 (pn 32 0)) (so .empty) := by
  intro h
  have a := (h (so .full) 0 0 (pn 256 0) 0).1 (by decide) rfl rfl rfl
  have b := (h (so .full) 0 0 { pn 256 0 with job := 41 } 0).1 (by decide) rfl rfl rfl
  have c := (h (so .empty) 0 0 pw 32).2.2.1 (by decide) (by decide) (by decide) rfl rfl
  have d := (h (so .full) 0 0 pw 4096).2.2.1 (by decide) (by decide) (by decide) rfl rfl
  exact ⟨go (a.1 rfl rfl (by decide)), go (b.2.2 (by decide)), go (((h (so .empty) 0 0 (pn 32 (2 ^ 38)) 0).2.1 (by decide)).1 (by decide) (by decide) (by decide) rfl),
    go (c.1 _ rfl), go (d.2 rfl), go (((h hm 0 0 (pn 32 (2 ^ 21)) 0).2.2.2 (by decide)).1 0 obj (by decide) (by decide) (by decide) rfl),
    go (((h hm 0 0 (pn 32 (2 ^ 30)) 0).2.2.2 (by decide)).2 (.inr (.inr (by decide))) (by decide)),
    go (((h (so .full) 0 0 { pn 256 0 with aux := 1 } 0).1 (by decide) rfl rfl rfl).2.1 rfl rfl),
    go (((h (so .empty) 0 0 (pn 32 0) 0).2.1 (by decide)).2 rfl)⟩

/-- Tag 5 of this die is in use for a request of tile 0's DMA, whose only command is `e`. -/
def ask (c ty : Nat) (e : QEntry) : State :=
  { hm with rdc := { Rdc.init with opens := [(5, some { tx c ty with eng := 4 })] } }.onTile 0 (withQ 4 e)

theorem wit_AnswersAndInvalidations : Obligations.AnswersAndInvalidations →
    completes (.rdData 0 (pk [7])) (ask 0 1 (ent 1 [])) ∧ completes (.rdErr 0 { pkt with aux := 1 }) (ask 0 0 (ent 1 []))
    ∧ completes (.wrAck 0 pkt) (ask 2 0 (ent 1 [])) ∧ completes (.wrAck 0 { pkt with aux := 1 }) (ask 2 0 (ent 1 []))
    ∧ completes (.wrAck 0 { pkt with aux := 2 }) (ask 2 0 (ent 1 [])) ∧ completes (.credRefuse 0 { pkt with aux := 2 }) (ask 0 2 (ent 8 []))
    ∧ completes (.credGrant 0 { pkt with addr := 2 ^ 12 }) (ask 0 2 { ent 8 [0] with inFlight := true })
    ∧ completes (.cfgRsp 0 (pk [])) (ask 4 3 (ent 1 []))
    ∧ completes (.xlateRsp 0 (pktD [31])) { hm with rdc := { Rdc.init with opens := [(5, some { tx 0 3 with pkt := { (tx 0 3).pkt with addr := 2 ^ 48 } })] } } := by
  intro h
  have a := fun c ty e k hk => h.1 (ask c ty e) 0 0 k { tx c ty with eng := 4 } e (by decide) hk rfl
  have x := (h.1 { hm with rdc := { Rdc.init with opens := [(5, some { tx 0 3 with pkt := { (tx 0 3).pkt with addr := 2 ^ 48 } })] } } 0 0
      (pktD [31]) _ (ent 1 []) (by decide) rfl rfl).2.2
  have a1 := (a 0 1 (ent 1 []) (pk [7]) rfl).1 rfl rfl rfl rfl (by decide)
  have a2 := (a 0 0 (ent 1 []) { pkt with aux := 1 } rfl).1 rfl rfl rfl rfl (by decide)
  have a3 := (a 2 0 (ent 1 []) pkt rfl).1 rfl rfl rfl rfl (by decide)
  have a4 := (a 2 0 (ent 1 []) { pkt with aux := 1 } rfl).1 rfl rfl rfl rfl (by decide)
  have a5 := (a 2 0 (ent 1 []) { pkt with aux := 2 } rfl).1 rfl rfl rfl rfl (by decide)
  have a6 := (a 0 2 (ent 8 []) { pkt with aux := 2 } rfl).1 rfl rfl rfl rfl (by decide)
  have a7 := (a 0 2 { ent 8 [0] with inFlight := true } { pkt with addr := 2 ^ 12 } rfl).1 rfl rfl rfl rfl (by decide)
  exact ⟨go (a1.1 (by decide) rfl rfl rfl), go (a2.2.1 (by decide) rfl rfl), go ((a3.2.2.1 (by decide) rfl rfl).1 rfl),
    go ((a4.2.2.1 (by decide) rfl rfl).2.1 rfl), go ((a5.2.2.1 (by decide) rfl rfl).2.2 rfl), go (a6.2.2.2.1 (by decide) rfl rfl),
    go (a7.2.2.2.2 (by decide) rfl rfl rfl), go ((a 4 3 (ent 1 []) (pk []) rfl).2.1 (by decide) rfl (.inl rfl)),
    go (x (by decide) rfl rfl rfl (by decide) (by decide) (by decide))⟩

theorem wit_AnswersAndInvalidations_2 : Obligations.AnswersAndInvalidations →
    completes (.inv 0 (pn 256 256)) { hm with rdc := { Rdc.init with lines := [(1, some (0, []))] } }
    ∧ completes (.invBatch 0 { pn 256 0 with aux := 3 }) { hm with rdc := { Rdc.init with lines := [(1, some (0, []))] } }
    ∧ completes (.invAck 0 pkt) { hm with rdc := { Rdc.init with invs := [⟨5, 1, [1], 9⟩], dues := [⟨9, 0, some pkt, 126, 0⟩] } } := by
  intro h
  have a := fun s k => h.2 s 0 k
  exact ⟨go ((a { hm with rdc := { Rdc.init with lines := [(1, some (0, []))] } } (pn 256 256)).1 (by decide)),
    go ((a { hm with rdc := { Rdc.init with lines := [(1, some (0, []))] } } { pn 256 0 with aux := 3 }).2.1 (by decide)),
    go ((a { hm with rdc := { Rdc.init with invs := [⟨5, 1, [1], 9⟩], dues := [⟨9, 0, some pkt, 126, 0⟩] } } pkt).2.2 _ _ _ (by decide) rfl rfl rfl rfl rfl rfl rfl rfl)⟩

/-! ### Ports -/

/-- A running die whose port 0, changed by `f`, has role `r` and `PORT_CTRL` `c`. -/
def po (r c : Nat) (f : Port → Port) : State :=
  ((({ die (dsc 9 []) with ports := [(0, f { Port.init with st := .up, version := 2, peerPos := 1 })] }).setReg 0x1008 (BitVec.ofNat 32 r)).setReg 0x1000
    (BitVec.ofNat 32 c)).setReg 0x0008 0x80000000
/-- The same in a state. -/
def ps (st : PortSt) (q : Port) : Port := { q with st := st }

theorem wit_TrainingChoosesAWholeWidth : Obligations.TrainingChoosesAWholeWidth →
    (∃ pos, (inService 0)[63]? = some pos ∧ (2 ^ 68 - 1).testBit pos = true)
    ∧ completes (.portTrainRetry 0 true) (po 1 1 (ps .down)) ∧ completes (.portTrainingDone 0 (2 ^ 68 - 1) 3) (po 1 9 (fun q => { ps .training q with ctl := 9 }))
    ∧ completes (.portTrainingDone 0 (2 ^ 32 - 1) 0) (po 1 9 (ps .training)) := by
  intro h
  exact ⟨h.1 0 0 (2 ^ 68 - 1) 63 false false (by decide) (by decide) (by decide),
    go ((h.2 (po 1 1 (ps .down)) 0 0 0 rfl).1 rfl (by decide) nofun),
    go ((h.2 (po 1 9 (fun q => { ps .training q with ctl := 9 })) 0 (2 ^ 68 - 1) 3 rfl).2.1 0 false false 1 rfl (by decide) (by decide)),
    go ((h.2 (po 1 9 (ps .training)) 0 (2 ^ 32 - 1) 0 rfl).2.2 rfl (.inr (by decide)))⟩

/-- A capability block of an accelerator die in role `PEER` at version `v`, with minimum buffers. -/
def cb (v : Nat) : List Byte :=
  leBytes 4 (v + 2 ^ 12 + 2 ^ 16) ++ leBytes 4 0 ++ leBytes 2 64 ++ leBytes 2 256 ++ leBytes 2 256 ++ leBytes 2 32 ++ leBytes 2 32 ++ List.replicate 46 0
/-- Its packet. -/
def cp (v : Nat) : Packet := { pktD (cb v) with cls := 4, len := 64 }
/-- Key exchange message `m`. -/
def ke (m : Nat) : Packet := { pktD (leBytes 1 m) with cls := 4, ptype := 7, len := 256 }

theorem wit_PartnersAreAdmittedOrRefused : Obligations.PartnersAreAdmittedOrRefused →
    completes (.caps 0 (cp 2)) (po 1 1 (ps .exchange)) ∧ completes (.caps 0 (cp 0)) (po 1 1 (ps .exchange)) ∧ completes (.caps 0 (cp 1)) (po 1 1 (ps .retraining))
    ∧ completes (.kexTimeout 0) (late (10 ^ 8) (po 1 1 (ps .admitWait)))
    ∧ completes (.keyCert 0 (ke 1) true) { po 1 1 (ps .admitWait) with sec := { Sec.init with rngOk := true } }
    ∧ completes (.keyCert 0 (ke 1) false) { po 1 1 (ps .admitWait) with sec := { Sec.init with rngOk := true } } := by
  intro h
  have a := fun s k hr => h s 0 k rfl hr
  have b := (a { po 1 1 (ps .admitWait) with sec := { Sec.init with rngOk := true } } (ke 1) (by decide)).2.2.1 rfl nofun rfl rfl rfl
    ⟨rfl, nofun, by decide, by decide, nofun⟩
  exact ⟨go (((a (po 1 1 (ps .exchange)) (cp 2) (by decide)).1 rfl).1 (by decide)), go (((a (po 1 1 (ps .exchange)) (cp 0) (by decide)).1 rfl).2 (by decide)),
    go ((a (po 1 1 (ps .retraining)) (cp 1) (by decide)).2.1 rfl (by decide)),
    go ((a (late (10 ^ 8) (po 1 1 (ps .admitWait))) (ke 1) (by decide)).2.2.2.1 rfl (by decide) rfl nofun), go (b.1 (by decide) (by decide)), go (b.2.1 (by decide))⟩

/-- Port 0 with a confidential link whose keys are being changed. -/
def kx (s : PortSt) (n : Nat) (r : Bool) : State :=
  { po 1 0x11 (fun q => { q with st := s, certOk := true, confOn := s == .up, keyed := s == .up, sentCount := n, rekeying := r }) with sec := { Sec.init with rngOk := true } }

theorem wit_PartnersAreAdmittedOrRefused_2 : Obligations.PartnersAreAdmittedOrRefused →
    completes (.keyOffer 0 (ke 2) true) (kx .admitWait 0 false) ∧ completes (.keyOffer 0 (ke 2) false) (kx .admitWait 0 false)
    ∧ completes (.rekeyStart 0) (kx .up (2 ^ 47) false) ∧ completes (.keyOffer 0 { ke 2 with enc := true, authOk := true } true) (kx .up 5 true)
    ∧ completes (.keySwitch 0 { ke 3 with enc := true, authOk := true }) (kx .up 5 true) := by
  intro h
  have a := fun s k hr => h s 0 k rfl hr
  have b := (a (kx .admitWait 0 false) (ke 2) (by decide)).2.2.1 rfl nofun rfl rfl rfl ⟨rfl, nofun, by decide, by decide, nofun⟩
  exact ⟨go (b.2.2 (by decide) rfl).1, go (b.2.2 (by decide) rfl).2, go ((a (kx .up (2 ^ 47) false) (ke 2) (by decide)).2.2.2.2.1 rfl rfl rfl rfl (by decide)),
    go (((a (kx .up 5 true) { ke 2 with enc := true, authOk := true } (by decide)).2.2.2.2.2 (by decide) rfl).1 (by decide) rfl rfl nofun rfl rfl),
    go (((a (kx .up 5 true) { ke 3 with enc := true, authOk := true } (by decide)).2.2.2.2.2 (by decide) rfl).2 (by decide))⟩

theorem wit_LinksRetrainSleepAndFall : Obligations.LinksRetrainSleepAndFall →
    completes (.portRetrain 0) (po 1 1 id) ∧ completes (.sidebandRetrain 0) (po 1 1 id)
    ∧ completes (.errLimitRetrain 0) (po 1 0x101 (fun q => { q with winReplays := 2 })) ∧ completes (.portRetrain 0) (po 1 1 (ps .isolated))
    ∧ completes (.retrainTimeout 0) { po 3 1 (ps .retraining) with time := { Time.init with ts := 500000 } } ∧ completes (.portEn 0 false) (po 3 1 id)
    ∧ completes (.portIsolate 0) (po 3 1 id) ∧ completes (.linkLoss 0 3) (po 3 1 id) ∧ completes (.linkLoss 0 1) (late 1000 (po 3 1 id)) ∧ completes (.linkLoss 0 4) (po 3 1 id)
    ∧ completes (.linkLoss 0 2) (po 3 1 (fun q => { q with flitFails := 8 })) ∧ completes (.portEn 0 true) (po 1 0 (ps .down))
    ∧ completes (.portEn 0 false) (po 1 1 (ps .failed)) ∧ completes (.portIsolate 0) (po 1 1 (ps .down))
    ∧ completes (.flitReplay 0) (po 1 1 id) ∧ completes (.linkLevelAck 0 1) (po 1 1 id) := by
  intro h
  have a := fun s => h s 0 rfl
  have b := (a (po 3 1 id)).2.2.2.1 rfl rfl (.inl (by decide))
  exact ⟨go ((a (po 1 1 id)).1 rfl).1, go ((a (po 1 1 id)).1 rfl).2, go ((a (po 1 0x101 (fun q => { q with winReplays := 2 }))).2.1 rfl (by decide) (by decide)),
    go ((a (po 1 1 (ps .isolated))).2.2.1 rfl (by decide)),
    go (((a { po 3 1 (ps .retraining) with time := { Time.init with ts := 500000 } }).2.2.2.1 rfl rfl (.inl (by decide))).1 rfl (by decide)),
    go (b.2 rfl).1, go (b.2 rfl).2.1, go (b.2 rfl).2.2.1, go ((((a (late 1000 (po 3 1 id))).2.2.2.1 rfl rfl (.inl (by decide))).2 rfl).2.2.2 rfl |>.1 (by decide)), go ((b.2 rfl).2.2.2 rfl).2.1,
    go ((((a (po 3 1 (fun q => { q with flitFails := 8 }))).2.2.2.1 rfl rfl (.inl (by decide))).2 rfl).2.2.2 rfl |>.2.2 (by decide)),
    go (a (po 1 0 (ps .down))).2.2.2.2.1, go ((a (po 1 1 (ps .failed))).2.2.2.2.2.1 rfl), go ((a (po 1 1 (ps .down))).2.2.2.2.2.2.1 (.inl rfl)),
    go ((a (po 1 1 id)).2.2.2.2.2.2.2.1 rfl).1, go (((a (po 1 1 id)).2.2.2.2.2.2.2.1 rfl).2 1)⟩

/-- Ports 0 and 1 both lead to die 1; port 0 has sent packet `k`, for which tag 5 is in use. -/
def two (k : Packet) (s : State) : State :=
  ({ s with
    ports := [(0, { Port.init with st := .up, version := 2, peerPos := 1, unacked := [k] }), (1, { Port.init with st := .up, version := 2, peerPos := 1 })]
    rdc := { Rdc.init with opens := [(5, some { tx k.cls k.ptype with pkt := k, eng := 4 })] } }).setReg 0x1048 1

theorem wit_LinksRetrainSleepAndFall_2 : Obligations.LinksRetrainSleepAndFall →
    completes (.keepaliveSend 0) (late 500 (po 1 1 id)) ∧ completes (.l1Entry 0) (late 10000 (po 1 0x21 (fun q => { q with peerL1 := true })))
    ∧ completes (.l1Exit 0) (po 1 0x21 (fun q => { q with l1 := true })) ∧ completes (.creditReturnSend 0) (po 1 1 (fun q => { q with freed := [(2, 1024)] }))
    ∧ completes (.keepalive 0 pkt) (po 1 1 id) ∧ completes (.creditRet 0 { pkt with addr := 1023 * 2 ^ 40 }) (po 1 1 id)
    ∧ completes (.reqTagExpiry 5) { late 100000 (po 1 1 id) with rdc := { Rdc.init with opens := [(5, some { tx 0 0 with resent := true })] } }
    ∧ completes (.baseDieTimeout 0 71 0) ((po 0 1 id).onTile 71 (withQ 4 (ent 1 []))) := by
  intro h
  have a := fun s => (h s 0 rfl).2.2.2.2.2.2.2.2
  refine ⟨go (((a (late 500 (po 1 1 id))).1 rfl rfl).1 rfl (by decide)), go (((a (late 10000 (po 1 0x21 (fun q => { q with peerL1 := true })))).1 rfl rfl).2.1 (by decide) rfl (by decide)),
    go (((a (po 1 0x21 (fun q => { q with l1 := true }))).1 rfl rfl).2.2 rfl), go ((a (po 1 1 (fun q => { q with freed := [(2, 1024)] }))).2.1 rfl nofun),
    ⟨_, (a (po 1 1 id)).2.2.1 pkt (by decide)⟩, go ((a (po 1 1 id)).2.2.2.1 { pkt with addr := 1023 * 2 ^ 40 } (by decide) rfl),
    go ((a { late 100000 (po 1 1 id) with rdc := { Rdc.init with opens := [(5, some { tx 0 0 with resent := true })] } }).2.2.2.2.1 5 _ rfl rfl (by decide)),
    go ((a ((po 0 1 id).onTile 71 (withQ 4 (ent 1 [])))).2.2.2.2.2.1 71 0 _ (by decide) (by decide) rfl rfl rfl (by decide))⟩

theorem wit_LinksRetrainSleepAndFall_3 : Obligations.LinksRetrainSleepAndFall →
    completes (.linkLoss 0 3) (two { pkt with srcDie := 0, dstDie := 1 } (dies [] ((po 1 1 id).setReg 0x2000 0)))
    ∧ completes (.linkLoss 0 3) (two { pkt with srcDie := 0, dstDie := 1, cls := 2 } ((dies [] ((po 1 1 id).setReg 0x2000 0)).onTile 0 (withQ 4 (ent 1 [])))) := by
  intro h
  have a := fun s => (h s 0 rfl).2.2.2.2.2.2.2.2.2.2.2.2.2.2
  exact ⟨go ((a (two { pkt with srcDie := 0, dstDie := 1 } (dies [] ((po 1 1 id).setReg 0x2000 0))) 1 { pkt with srcDie := 0, dstDie := 1 } _ rfl (by decide) rfl (by decide)
      (.inr (by decide)) rfl rfl (by decide) (by decide) rfl rfl rfl rfl rfl rfl rfl (by decide)).1 rfl (.inl rfl) rfl),
    go ((a (two { pkt with srcDie := 0, dstDie := 1, cls := 2 } ((dies [] ((po 1 1 id).setReg 0x2000 0)).onTile 0 (withQ 4 (ent 1 [])))) 1
      { pkt with srcDie := 0, dstDie := 1, cls := 2 } _ rfl (by decide) rfl (by decide)
      (.inr (by decide)) rfl rfl (by decide) (by decide) rfl rfl rfl rfl rfl rfl rfl (by decide)).2 0 _ rfl rfl rfl (by decide) rfl rfl (by decide))⟩

/-! ### The package -/

/-- A package message: type, subject and what follows. -/
def msg (t d : Nat) (bs : List Byte) : Packet := { pktD (leBytes 1 t ++ leBytes 1 d ++ bs) with cls := 4, ptype := 8 }
/-- Die 0 of a package with the dies of `mask`, its port 0 to die 1. -/
def pg (mask : Nat) (f : Pkg → Pkg) : State :=
  { (po 1 1 id).setReg 0x0008 (BitVec.ofNat 32 (2 ^ 31 + mask * 256)) with pkg := f Pkg.init, time := { Time.init with ts := 100000000 } }
/-- Two bytes that are unused, then `CAPS0` and `CAPS1`. -/
def two6 : List Byte := [0, 0] ++ leBytes 4 0x202 ++ leBytes 4 0x3F

theorem wit_MembershipFormsGrowsAndShrinks : Obligations.MembershipFormsGrowsAndShrinks →
    completes (.join 0 (msg 1 1 two6)) (pg 3 (fun k => { k with joins := [(0, some (0x202, 0x3F))] }))
    ∧ completes (.join 0 (msg 1 1 two6)) (pg 3 id) ∧ completes (.join 0 (msg 1 1 two6)) (pg 3 (fun k => { k with accepted := true, members := 3 }))
    ∧ completes (.join 0 (msg 1 1 two6)) (pg 3 (fun k => { k with accepted := true, members := 1, lostSeen := 2 }))
    ∧ completes (.accept 0 (msg 2 0 (List.replicate 18 0 ++ [3, 0, 5, 0]))) (pg 3 id)
    ∧ completes (.accept 0 (msg 2 7 [])) (pg 0x83 (fun k => { k with accepted := true, members := 3 })) := by
  intro h
  have a := fun s d k => (h s 0 d k).1
  exact ⟨go (((a (pg 3 (fun k => { k with joins := [(0, some (0x202, 0x3F))] })) 1 (msg 1 1 two6) (by decide) (by decide)).1
      (by decide) rfl rfl (by decide) (by decide)).1 rfl (by decide)),
    go (((a (pg 3 id) 1 (msg 1 1 two6) (by decide) (by decide)).1 (by decide) rfl rfl (by decide) (by decide)).2 (by decide)),
    go (((a (pg 3 (fun k => { k with accepted := true, members := 3 })) 1 (msg 1 1 two6) (by decide) (by decide)).2.1 (by decide) rfl (by decide)).1 (by decide)),
    go (((a (pg 3 (fun k => { k with accepted := true, members := 1, lostSeen := 2 })) 1 (msg 1 1 two6) (by decide) (by decide)).2.1
      (by decide) rfl (by decide)).2 (by decide) (by decide) (by decide) (by decide)),
    go (((a (pg 3 id) 0 (msg 2 0 (List.replicate 18 0 ++ [3, 0, 5, 0])) (by decide) (by decide)).2.2.1 (by decide)).1 (by decide)),
    go (((a (pg 0x83 (fun k => { k with accepted := true, members := 3 })) 7 (msg 2 7 []) (by decide) (by decide)).2.2.1 (by decide)).2
      (by decide) (by decide) rfl (by decide))⟩

theorem wit_MembershipFormsGrowsAndShrinks_2 : Obligations.MembershipFormsGrowsAndShrinks →
    completes (.refuse 0 (msg 3 1 [])) (pg 3 id) ∧ completes (.lost 0 (msg 4 1 [])) (pg 3 (fun k => { k with accepted := true, members := 3, lostSeen := 2 }))
    ∧ completes (.lost 0 (msg 4 1 [])) (pg 3 (fun k => { k with accepted := true, members := 3 }))
    ∧ completes .pkgFormTimeout (pg 3 (fun k => { k with joined := some 0, joins := [(0, some (0x202, 0x3F))] })) := by
  intro h
  have a := fun s d k => (h s 0 d k).1
  exact ⟨go ((a (pg 3 id) 1 (msg 3 1 []) (by decide) (by decide)).2.2.2.1 (by decide)),
    go (((a (pg 3 (fun k => { k with accepted := true, members := 3, lostSeen := 2 })) 1 (msg 4 1 []) (by decide) (by decide)).2.2.2.2
      (by decide) (by decide) (by decide)).1 (by decide)),
    go (((a (pg 3 (fun k => { k with accepted := true, members := 3 })) 1 (msg 4 1 []) (by decide) (by decide)).2.2.2.2
      (by decide) (by decide) (by decide)).2 (by decide)),
    go ((h (pg 3 (fun k => { k with joined := some 0, joins := [(0, some (0x202, 0x3F))] })) 0 0 pkt).2 0 rfl rfl (by decide) (by decide))⟩

theorem wit_ReferenceLossAndClockFault : Obligations.ReferenceLossAndClockFault →
    completes .refLoss (pg 3 (fun k => { k with refOk := true })) ∧ completes .refReturn (pg 3 (fun k => { k with holdover := true, holdoverStart := 99999999 }))
    ∧ completes .holdoverExpiry (pg 3 (fun k => { k with holdover := true })) ∧ completes (.clockFault 0 (msg 5 1 [])) (pg 3 id) := by
  intro h
  exact ⟨go ((h (pg 3 (fun k => { k with refOk := true }))).1 rfl rfl), go ((h (pg 3 (fun k => { k with holdover := true, holdoverStart := 99999999 }))).2.1 rfl (by decide)),
    go ((h (pg 3 (fun k => { k with holdover := true }))).2.2.1 rfl (by decide) rfl (by decide) rfl),
    go ((h (pg 3 id)).2.2.2 0 (msg 5 1 []) (by decide) (by decide))⟩

/-- A configuration request from mesh stop `st` of die `d`. -/
def cf (ty off d st : Nat) (bs : List Byte) : Packet := { pkt with cls := 4, ptype := ty, addr := off, srcDie := d, srcStop := st, hasData := ty == 4, data := bs }

theorem wit_ConfigurationAccesses : Obligations.ConfigurationAccesses →
    completes (.cfgRd 0 (cf 3 0x0000 0 0 [])) (po 3 1 id) ∧ completes (.cfgRd 0 (cf 3 0xFFFC 0 0 [])) (po 3 1 id)
    ∧ completes (.cfgRd 0 (cf 3 0 1 122 [])) (pg 3 (fun k => { k with accepted := true, leader := 1 }))
    ∧ completes (.cfgWr 0 (cf 4 0x20 0 0 (leBytes 4 0xFFFFFFFF))) (po 3 1 id)
    ∧ completes (.cfgWr 0 (cf 4 0x20 1 123 (leBytes 4 0xFFFFFFFF))) (pg 3 (fun k => { k with accepted := true, leader := 1 }))
    ∧ completes (.cfgRegWrite 0x2008 1) State.reset ∧ completes (.cfgRegWrite 0x0020 0) State.reset ∧ completes (.cfgRegWrite 0x2008 1) (po 3 1 id)
    ∧ completes (.cfgRegWrite 0x2C04 0xFFFFFFFF) State.reset ∧ completes (.cfgAccess 1 0x2804 true) State.reset
    ∧ completes (.cfgAccess 1 0x0412 true) State.reset ∧ completes (.cfgAccess 0 0x0410 false) State.reset := by
  intro h
  have a := fun s k => ((h s).1 0 k)
  have b := fun s => (h s).2
  refine ⟨?_, go (((a (po 3 1 id) (cf 3 0xFFFC 0 0 [])).1 (by decide)).1 (by decide) |>.2 (by decide)),
    go (((a (pg 3 (fun k => { k with accepted := true, leader := 1 })) (cf 3 0 1 122 [])).1 (by decide)).2 (by decide) (.inl (by decide)) rfl),
    go (((a (po 3 1 id) (cf 4 0x20 0 0 (leBytes 4 0xFFFFFFFF))).2 (by decide) (by decide)).1 (by decide)),
    go (((a (pg 3 (fun k => { k with accepted := true, leader := 1 })) (cf 4 0x20 1 123 (leBytes 4 0xFFFFFFFF))).2 (by decide) (by decide)).2
      (by decide) rfl rfl rfl),
    ⟨_, ((b State.reset).1 1).2.2.2.2.2.1 (by decide)⟩, ⟨_, ((b State.reset).1 0).2.2.2.2.1 (by decide)⟩,
    ⟨_, ((b (po 3 1 id)).1 1).2.2.2.2.2.2.1 (by decide)⟩, go ((b State.reset).1 0xFFFFFFFF).2.2.2.2.2.2.2, go ((b State.reset).2 1 0).1,
    go ((b State.reset).2 1 0).2.2, go (((b State.reset).2 0 0x3E8).2.1 (by decide))⟩
  exact go (((a (po 3 1 id) (cf 3 0x0000 0 0 [])).1 (by decide)).1 (by decide) |>.1 0 (by decide) (by decide))

/-! ### Resets, boot and updates -/

/-- A running die with its management state changed. -/
def mt (f : Mgmt → Mgmt) : State := let s := pg 3 (fun k => { k with accepted := true, members := 3 }); { s with mgmt := f s.mgmt }
/-- The system watchdog runs with a window of 100 ms. -/
def wd (s : State) : State := s.setReg 0x0410 (BitVec.ofNat 32 (2 ^ 31 + 100))
/-- A reset request of the package's leader for this die. -/
def rr (m : Nat) : Packet := { pktD (leBytes 1 1 ++ leBytes 1 m) with srcStop := 123 }

/-- One fuse pulse under way. -/
def pulse : FusePulse := .bit 0x10 3

theorem wit_ResetsClearAndSpare : Obligations.ResetsClearAndSpare →
    completes .porSupply (mt id) ∧ completes .porSupply (mt (fun m => { m with pulses := [pulse], pulseNs := 5 }))
    ∧ completes (.porstN 49 true) (mt id) ∧ completes (.sysrstN 49 true) (mt id) ∧ completes (.porstN 100 false) (mt id)
    ∧ completes (.sysrstN 100 false) (mt id) ∧ completes (.sysrstN 100 true) (mt (fun m => { m with optBusy := true }))
    ∧ completes (.sysrstN 100 true) (mt (fun m => { m with pulses := [pulse], pulseNs := 5 })) ∧ completes .sysWdogKick (mt id)
    ∧ completes .sysWdogExpiry (wd (mt (fun m => { m with wdogStart := 1 }))) ∧ completes .sysWdogExpiry (wd (mt id)) ∧ completes .resetCtrlSrst (mt id) := by
  intro h
  have a := fun f h1 h2 => h (mt f) h1 h2
  have b := (a id (by decide) rfl).2.2.1
  exact ⟨go ((a id (by decide) rfl).1 rfl), go ((a (fun m => { m with pulses := [pulse], pulseNs := 5 }) (by decide) rfl).2.1 pulse [] rfl),
    ⟨_, ((b 49 true).1 (by decide)).1⟩, ⟨_, ((b 49 true).1 (by decide)).2⟩, go ((b 100 false).2.1 rfl rfl (by decide)).1,
    go ((b 100 false).2.1 rfl rfl (by decide)).2,
    ⟨_, (((a (fun m => { m with optBusy := true }) (by decide) rfl).2.2.1 100 true).2.2 (.inl rfl) (by decide))⟩,
    ⟨_, (((a (fun m => { m with pulses := [pulse], pulseNs := 5 }) (by decide) rfl).2.2.1 100 true).2.2 (.inr (by decide)) (by decide))⟩,
    go (a id (by decide) rfl).2.2.2.1, ⟨_, (h (wd (mt (fun m => { m with wdogStart := 1 }))) (by decide) rfl).2.2.2.2.1 (by decide) (by decide)⟩,
    go (((h (wd (mt id)) (by decide) rfl).2.2.2.2.2.1 rfl rfl).1 (by decide) (by decide)), go ((a id (by decide) rfl).2.2.2.2.2.1 rfl rfl).2.1⟩

/-- The die is a member of an accepted package with leader 1. -/
def led (s : State) : State := { s with pkg := { Pkg.init with leader := 1, accepted := true } }

theorem wit_ResetsClearAndSpare_2 : Obligations.ResetsClearAndSpare →
    completes (.resetReq 0 (rr 1)) (led (mt id)) ∧ completes (.resetReq 0 (rr 2)) (led (mt id))
    ∧ completes .deferredReset { mt id with mgmt := { (mt id).mgmt with pkgWait := some 0 } }
    ∧ completes .deferredReset ((mt id).onMgmt (fun m => { m with pendingReset := some (.por, 2, 0, 0, 5) }))
    ∧ completes .deferredReset ((mt (fun m => { m with pulses := [pulse], pulseNs := 5 })).onMgmt (fun m => { m with pendingReset := some (.por, 2, 0, 0, 5) }))
    ∧ completes .pkgSrst (po 1 1 id) ∧ completes .pkgSrst (mt id) := by
  intro h
  have a := (h (led (mt id)) (by decide) rfl).2.2.2.2.2.1 rfl rfl
  exact ⟨go ((a.2.2.1 0 (rr 1) (by decide)).1 (by decide)), go ((a.2.2.1 0 (rr 2) (by decide)).2 (by decide)),
    go (((h { mt id with mgmt := { (mt id).mgmt with pkgWait := some 0 } } (by decide) rfl).2.2.2.2.2.1 rfl rfl).2.2.2 0 rfl (.inl (by decide))),
    go ((h (mt id) (by decide) rfl).2.2.2.2.2.2.1 rfl .por 2 0 0 5),
    ⟨_, (h (mt (fun m => { m with pulses := [pulse], pulseNs := 5 })) (by decide) rfl).2.2.2.2.2.2.2.1 (by decide) (.por, 2, 0, 0, 5)⟩,
    ⟨_, (h (po 1 1 id) (by decide) rfl).2.2.2.2.2.2.2.2.1 (.inl rfl)⟩,
    go ((h (mt id) (by decide) rfl).2.2.2.2.2.2.2.2.2 rfl (by decide) rfl)⟩

/-- Words 1, 3 and 5 of an image header: length `n`, `SVN` 0 and a signed image. -/
def fw (n : Nat) : Mem := ((Mem.wrBytes [] 0 (leBytes 4 0 ++ leBytes 4 n ++ leBytes 4 7)).wrBytes 20 [2])
/-- All the words of a stream of `n` bytes have come into the free slot. -/
def fs (n : Nat) (m : Mgmt) : Mgmt := { m with stage := 8, fwStream := true, fwPos := 64 + n / 4, fwSlot := 1, fwSlots := [(0, fw n)] }

theorem wit_BootGoesStepByStep : Obligations.BootGoesStepByStep →
    completes (.bootStart false true) State.reset ∧ completes (.bootStart true false) State.reset ∧ completes .pllLock (mt (fun m => { m with stage := 4 }))
    ∧ completes .pllLock (mt id) ∧ completes (.onjanSelftestDone true) (mt (fun m => { m with stage := 5 })) ∧ completes (.onjanSelftestDone false) (mt (fun m => { m with stage := 5 }))
    ∧ completes (.fwVerified 2 true) (mt (fs 8)) ∧ completes (.fwVerified 2 false) (mt (fs 8)) ∧ completes .bootReady (mt (fun m => { m with stage := 10 }))
    ∧ completes .bootReady (mt id) := by
  intro h
  have a := fun f => (h (mt f)).2
  exact ⟨go (((h State.reset).1 rfl).1 true), go (((h State.reset).1 rfl).2 false), go ((a (fun m => { m with stage := 4 })).1 rfl), ⟨_, (a id).2.1 (by decide)⟩,
    go ((a (fun m => { m with stage := 5 })).2.2.1 rfl).1, go ((a (fun m => { m with stage := 5 })).2.2.1 rfl).2,
    go (((a (fs 8)).2.2.2.1 2 true rfl rfl (by decide) (by decide)).1 (by decide)), go (((a (fs 8)).2.2.2.1 2 false rfl rfl (by decide) (by decide)).2 (by decide)),
    go ((a (fun m => { m with stage := 10 })).2.2.2.2.1 rfl), ⟨_, (a id).2.2.2.2.2 (by decide)⟩⟩

theorem wit_FirmwareAndOptionUpdates : Obligations.FirmwareAndOptionUpdates →
    completes .fwLoad (mt id) ∧ completes (.fwData 7) (mt (fun m => { m with fwStream := true, fwPos := 63 })) ∧ completes .fwSwitch (mt (fun m => { m with updReady := true }))
    ∧ completes .fwSwitch (mt id) ∧ completes .fwAbort (mt id) ∧ completes .fwQuiesce (mt (fun m => { m with switchReq := some 99999999 }))
    ∧ completes .fwQuiesce (mt (fun m => { m with switchReq := some 99999999, optBusy := true }))
    ∧ completes .fwQuiesceTimeout (mt (fun m => { m with switchReq := some 99000000 }))
    ∧ completes (.optData 5) ((mt id).setReg 0x0808 8) ∧ completes (.optData 5) ((mt id).setReg 0x0808 0xFFFC) ∧ completes .optRevert (mt id)
    ∧ completes .optCommit (mt (fun m => { m with optCurrent := some false })) ∧ completes .optCommit (mt id)
    ∧ completes (.optCommitDone false 8) (mt (fun m => { m with optBusy := true })) := by
  intro h
  have a := fun f => h (mt f)
  have b := fun s => (h s).2.2.2.2.2.2.1 5
  have c := fun f => (a f).2.2.2.2.2.2.2
  exact ⟨go ((a id).1 (by decide) (by decide)), go ((a (fun m => { m with fwStream := true, fwPos := 63 })).2.1 7 rfl (by decide)),
    ⟨_, (a (fun m => { m with updReady := true })).2.2.1 rfl rfl⟩, ⟨_, (a id).2.2.2.1 rfl⟩, go (a id).2.2.2.2.1,
    go (((a (fun m => { m with switchReq := some 99999999 })).2.2.2.2.2.1 _ rfl).2.1 rfl (by decide)),
    ⟨_, ((a (fun m => { m with switchReq := some 99999999, optBusy := true })).2.2.2.2.2.1 _ rfl).1 rfl⟩,
    go (((a (fun m => { m with switchReq := some 99000000 })).2.2.2.2.2.1 _ rfl).2.2 (by decide)),
    ⟨_, (b ((mt id).setReg 0x0808 8)).1 rfl (by decide) (by decide)⟩, ⟨_, (b ((mt id).setReg 0x0808 0xFFFC)).2 (.inr (.inr (by decide)))⟩,
    go ((c id).1 rfl rfl), ⟨_, ((c (fun m => { m with optCurrent := some false })).2.1 rfl rfl).1 rfl⟩, ⟨_, ((c id).2.1 rfl rfl).2 nofun⟩,
    go ((c (fun m => { m with optBusy := true })).2.2 8 rfl rfl).2⟩

/-- An image with its check word, over a shadow. -/
def img (t : Tab Word) : Tab Word := Tab.set 0 t 16383 (BitVec.ofNat 32 (crc32c (imageBytes t)))
theorem get_img (t : Tab Word) (i : Nat) (h : i < 16383) : Tab.get 0 (img t) i = Tab.get 0 t i := by
  rw [img, Tab.get_set, if_neg (by omega)]
theorem img_optAt (t : Tab Word) (off : Nat) (h : off < 65532) : optAt (img t) off = optAt t off := get_img t _ (by omega)
theorem img_legal (t : Tab Word) : optionsLegal (img t) = optionsLegal t := by
  have e : (List.range Config.ports).all (fun n => fld (optAt (img t) (0x10 + 8 * n)) 2 2 != 3)
      = (List.range Config.ports).all (fun n => fld (optAt t (0x10 + 8 * n)) 2 2 != 3) := by
    rw [Bool.eq_iff_iff, List.all_eq_true, List.all_eq_true]
    refine forall_congr' fun n => forall_congr' fun hn => ?_
    have : n < 48 := List.mem_range.1 hn
    rw [img_optAt t _ (by omega)]
  simp only [optionsLegal, spareBits, e, img_optAt t _ (show 0x19C < 65532 by decide), img_optAt t _ (show 0x1A0 < 65532 by decide),
    img_optAt t _ (show 0x1B4 < 65532 by decide), img_optAt t _ (show 0x1BC < 65532 by decide), img_optAt t _ (show 0x1A4 < 65532 by decide),
    img_optAt t _ (show 0x1A8 < 65532 by decide), img_optAt t _ (show 0x1AC < 65532 by decide)]
  rfl
theorem img_valid (t : Tab Word) (h1 : optAt t 4 = 1) (h2 : optionsLegal t = true) : imageValid false (img t) = true := by
  have e : imageBytes (img t) = imageBytes t := by
    unfold imageBytes
    refine List.flatMap_congr fun i hi => ?_
    rw [get_img t i (List.mem_range.1 hi)]
  have w : optAt (img t) 0xFFFC = BitVec.ofNat 32 (crc32c (imageBytes t)) := Tab.get_set_self _ _ _
  simp only [imageValid, img_legal, h2, img_optAt t 4 (by decide), h1, e, w, BitVec.toNat_ofNat, Nat.mod_eq_of_lt (crc_lt _), beq_self_eq_true,
    Bool.not_false, Bool.and_self]

/-- A die in reset whose option store holds image A. -/
def held (a : Tab Word) : State := { State.reset with mgmt := { Mgmt.init with imgA := a } }
theorem boot_img (h : Obligations.BootGoesStepByStep) (a : Tab Word) (ha : imageValid false a = true) :
    ∃ s', exec (.bootStart true true) (held a) = .next s' ∧ s'.mgmt.optDefaulted = false := by
  obtain ⟨s', x, _, _, _, _, _, z⟩ := ((h (held a)).1 rfl).2 true
  exact ⟨s', x, (z ha (show imageValid false [] = false by decide)).2.1⟩

theorem wit_BootGoesStepByStep_2 : Obligations.BootGoesStepByStep →
    ∃ s', exec (.bootStart true true) (held (img State.reset.factory)) = .next s' ∧ s'.mgmt.optDefaulted = false :=
  fun h => boot_img h _ (img_valid _ (by decide) (by decide))

theorem wit_FirmwareAndOptionUpdates_2 : Obligations.FirmwareAndOptionUpdates →
    completes (.optCommitDone true 0) (mt (fun m => { m with optBusy := true, shadow := State.reset.factory })) := by
  intro h
  refine go (((h (mt (fun m => { m with optBusy := true, shadow := State.reset.factory }))).2.2.2.2.2.2.2.2.2 0 rfl rfl).1 ?_)
  show optionsLegal (img _) = true
  rw [img_legal]; decide

/-! ### Faults, fencing and replay -/

/-- `die` with tile 0 in state `st`, a pending prediction for it and a core reset of it in progress. -/
def fl (st : TileSt) (d : Desc) : State :=
  let s := die d
  { s with kw := { s.kw with tiles := [(0, st)] }, flt := { Flt.init with predict := 1 }, mgmt := { s.mgmt with crst := 1 } }

theorem wit_CoresAreFencedAndReset : Obligations.CoresAreFencedAndReset →
    completes (.coreFault 0 3) (fl .fenced (dsc 9 [])) ∧ completes (.coreFault 0 3) ((fl .inService (dsc 1 [])).onTile 0 (busy .running))
    ∧ completes (.correctedError 127) (fl .fenced (dsc 9 [])) ∧ completes (.correctedError 71) ((fl .fenced (dsc 9 [])).setReg 0x341C 1)
    ∧ completes (.cePredictiveFence 0) (fl .inService (qd 9 [])) ∧ completes (.fenceMask 0 1) (fl .inService (qd 9 []))
    ∧ completes (.fenceMask 2 0xFFFFFFFF) (fl .inService (qd 9 [])) ∧ completes (.fenceRelease 0 3) (fl .fenced (qd 9 []))
    ∧ completes (.coreResetMask 2 0x80) (fl .fenced (qd 9 [])) ∧ completes (.crstDone 0 true) (fl .fenced (qd 9 [])) := by
  intro h
  have a := h (fl .fenced (dsc 9 [])) 0 (by decide)
  have b := h (fl .inService (qd 9 [])) 0 (by decide)
  have c := (h ((fl .fenced (dsc 9 [])).setReg 0x341C 1) 71 (by decide)).2.2.1
  have e := (h (fl .inService (qd 9 [])) 71 (by decide)).2.2.2.2.1
  have f := (h (fl .fenced (qd 9 [])) 0 (by decide)).2.2.2.2
  exact ⟨⟨_, (a.1 3).1 (by decide)⟩, go (((h ((fl .inService (dsc 1 [])).onTile 0 (busy .running)) 0 (by decide)).1 3).2 rfl),
    go a.2.1, go c, go (b.2.2.2.1 (by decide) rfl (by decide)), go (b.2.2.2.2.1 0 1 (by decide)).1, go (e 2 0xFFFFFFFF (by decide)).1,
    go (f.1 0 3 (by decide)).2.1,
    go ((h (fl .fenced (qd 9 [])) 71 (by decide)).2.2.2.2.1 2 0x80 (by decide)).2.2, go (f.2 true (by decide) rfl)⟩

/-- The clause about the descriptor of the faulted program has its premises met. -/
theorem wit_CoresAreFencedAndReset_2 :
    ∃ d ∈ ((fl .inService (dsc 1 [])).onTile 0 (busy .running)).qm.descs, d.st = .running ∧ d.opcode = 1
      ∧ (((fl .inService (dsc 1 [])).onTile 0 (busy .running)).tile 0).worksFor d = true ∧ d.outcome = none := by decide

/-- A replayable `COMPUTE` whose core has faulted. -/
def rp (ws : List Word) : Desc :=
  { dsc 1 ws with words := [0x101, 3, 42, 0] ++ ws, outcome := some (0x16, 0x1B, 0) }
/-- A `COMPUTE` with `COMMIT` whose only member has ended. -/
def cm : Desc := { dsc 1 [] with words := [0x4101, 3, 42, 0], acted := true, ended := [0] }

theorem wit_ReplaysCommitsAndUncoreFaults : Obligations.ReplaysCommitsAndUncoreFaults →
    completes (.uncoreFault 1) { State.reset with pkg := { Pkg.init with isolated := true } } ∧ completes (.uncoreFault 1) (po 1 1 id)
    ∧ completes (.descReplay 7) (die (dsc 1 [])) ∧ completes (.descReplay 7) (die (rp []))
    ∧ completes (.descReplay 7) { die (rp []) with kw := { (die (rp [])).kw with cores := [(0, ⟨0, .absent⟩)] } }
    ∧ completes (.commitPoint 7) (die cm)
    ∧ completes (.commitApplyDone 7) { die { cm with committing := true } with flt := { Flt.init with logs := [(448, [(0x3FF0000, [1, 2, 3, 4])])] } } := by
  intro h
  have a := fun s d (hd : s.desc 7 = some d) => (h s).2 7 d hd
  exact ⟨⟨_, ((h { State.reset with pkg := { Pkg.init with isolated := true } }).1 1).1 rfl⟩, go (((h (po 1 1 id)).1 1).2 rfl),
    ⟨_, (a (die (dsc 1 [])) _ rfl).1 rfl⟩, go' (((a (die (rp [])) _ rfl).2.1 (by decide) nofun).1 (by decide)),
    go' (((a { die (rp []) with kw := { (die (rp [])).kw with cores := [(0, ⟨0, .absent⟩)] } } _ rfl).2.1 (by decide) nofun).2 (by decide)),
    go' ((a (die cm) _ rfl).2.2.1 (by decide) (by decide) rfl rfl (by decide)),
    go' ((a { die { cm with committing := true } with flt := { Flt.init with logs := [(448, [(0x3FF0000, [1, 2, 3, 4])])] } } _ rfl).2.2.2 rfl rfl rfl rfl (by decide) rfl rfl (by decide))⟩

/-! ### The timestamp, the Bellows and the budget -/

/-- A running die at time `n`, aligned or not. -/
def ck (al : Bool) (n : Nat) (f : Time → Time) : State := { mt id with time := f { Time.init with aligned := al, ts := n } }
/-- It is the clock master. -/
def ms (s : State) : State := s.setReg 0x0C00 1

theorem wit_TimestampFollowsFrames : Obligations.TimestampFollowsFrames →
    completes (.tsyncFrame 5 3) (ck false 7 id) ∧ completes (.tsyncFrame 5 3) (ck true 5000002 id) ∧ completes (.tsyncFrame 5 3) (ck true 5001004 id)
    ∧ completes (.tsyncFrame 5 3) (ms (ck true 7 id)) ∧ completes (.tsyncFrame 5 3) State.reset
    ∧ completes (.tsyncEmit 3) (ms (ck true 4000000 (fun t => { t with masterMs := 5 })))
    ∧ completes (.tsyncEmit 3) { ck true 7 id with mgmt := Mgmt.init, pkg := { (ck true 7 id).pkg with clkOut := 1 } } ∧ completes (.tsyncEmit 3) (ck true 7 id)
    ∧ completes .tsNosync (ck true 3000000 id) ∧ completes .tsNosync (ck true 2999999 id) ∧ completes .tsLoRead (ck true 7 id) := by
  intro h
  exact ⟨go ((h (ck false 7 id) 5 3).1 rfl (by decide) (by decide)), go ((h (ck true 5000002 id) 5 3).1 rfl (by decide) (by decide)),
    go ((h (ck true 5001004 id) 5 3).1 rfl (by decide) (by decide)), ⟨_, (h (ms (ck true 7 id)) 5 3).2.1 (by decide)⟩,
    ⟨_, (h State.reset 5 3).2.2.1 (by decide)⟩,
    go (((h (ms (ck true 4000000 (fun t => { t with masterMs := 5 }))) 5 3).2.2.2.1 (by decide)).1 (by decide) rfl),
    go (((h { ck true 7 id with mgmt := Mgmt.init, pkg := { (ck true 7 id).pkg with clkOut := 1 } } 5 3).2.2.2.1 (by decide)).2 (by decide)), ⟨_, (h (ck true 7 id) 5 3).2.2.2.2.1 (by decide)⟩,
    go ((h (ck true 3000000 id) 5 3).2.2.2.2.2.1 rfl (by decide) (by decide)),
    ⟨_, (h (ck true 2999999 id) 5 3).2.2.2.2.2.2.1 (by decide)⟩, go (h (ck true 7 id) 5 3).2.2.2.2.2.2.2⟩

/-- The last clauses of the first, second and third kind have their premises met: the counter is behind, ahead, not aligned. -/
theorem wit_TimestampFollowsFrames_2 :
    (ck true 5000002 id).now < 5 % 2 ^ 44 * 10 ^ 6 + (ck true 5000002 id).tsAdj + 3 ∧ 5 % 2 ^ 44 * 10 ^ 6 + (ck true 5001004 id).tsAdj + 3 ≤ (ck true 5001004 id).now
      ∧ (ck false 7 id).time.aligned = false ∧ (ck true 7 id).isMaster = false := by decide

/-- The Bellows of a running die at time 100 ms, changed by `f`; the grant is 900 W, the margin 0, the thermal target 90 degrees. -/
def bl (f : Bw → Bw) : State :=
  let s := ((mt id).setReg 0x2C00 1000).setReg 0x2C04 (BitVec.ofNat 32 (1000 + 90 * 2 ^ 16 + 95 * 2 ^ 24))
  { s with bw := f { Bw.init with grant := 900, freqStep := 7, ceilStep := 14 } }

theorem wit_BellowsWindowsDecide : Obligations.BellowsWindowsDecide →
    completes (.currentWindowEnd 1000 8000 760 5) (bl id) ∧ completes .powerWindowEnd (bl (fun b => { b with thermWin := 10, powN := 2, powSum := 18001 }))
    ∧ completes .powerWindowEnd (bl (fun b => { b with thermWin := 10, powN := 2, powSum := 18000, lowLast := true }))
    ∧ completes .powerWindowEnd (bl (fun b => { b with thermWin := 10, powN := 2, powSum := 18000 }))
    ∧ completes .thermalWindowEnd (bl (fun b => { b with tjN := 2, tjSum := 1441 })) ∧ completes .thermalWindowEnd (bl (fun b => { b with tjN := 2, tjSum := 1440 }))
    ∧ completes .thermalTrip (bl id) := by
  intro h
  have a := fun f (hc : (bl f).clocked = true) => h (bl f) hc
  exact ⟨go ((a id rfl).1 1000 8000 760 5 (by decide)), go ((a (fun b => { b with thermWin := 10, powN := 2, powSum := 18001 }) rfl).2.1 (by decide) (by decide) (by decide)),
    go ((a (fun b => { b with thermWin := 10, powN := 2, powSum := 18000, lowLast := true }) rfl).2.1 (by decide) (by decide) (by decide)),
    go ((a (fun b => { b with thermWin := 10, powN := 2, powSum := 18000 }) rfl).2.1 (by decide) (by decide) (by decide)),
    go ((a (fun b => { b with tjN := 2, tjSum := 1441 }) rfl).2.2.1 (by decide) (by decide)),
    go ((a (fun b => { b with tjN := 2, tjSum := 1440 }) rfl).2.2.1 (by decide) (by decide)), go ((a id rfl).2.2.2 (by decide))⟩

/-- The two averages lie on either side of the target; the temperatures on either side of theirs. -/
theorem wit_BellowsWindowsDecide_2 :
    (let s := bl (fun b => { b with powN := 2, powSum := 18001 });
      (s.grantNow - s.rfld 0x2C04 10 6) * 10 * s.bw.powN < s.bw.powSum ∧ 18000 ≤ (s.grantNow - s.rfld 0x2C04 10 6) * 10 * s.bw.powN)
    ∧ 8 * (bl id).rfld 0x2C04 24 7 ≤ 760 ∧ 743 + 16 < 8 * (bl id).rfld 0x2C04 24 7 ∧ 8 * (bl id).rfld 0x2C04 16 7 * 2 < 1441 := by decide

/-- A `BUDGET` packet: operation, position, round, average, envelope and grant. -/
def bg (op d r a e g : Nat) : Packet := pktD (budgetBytes op d r a e g 0 0 0)
/-- Die 0 of a package led by die `l`, its Bellows changed by `f`. -/
def bd (l : Nat) (f : Bw → Bw) : State := { bl f with pkg := { (mt id).pkg with leader := l } }

theorem wit_BudgetRoundsGiveGrants : Obligations.BudgetRoundsGiveGrants →
    (grantsFor 1000 [(900, 500), (900, 300)]).length = 2 ∧ completes .budgetRoundStart (bd 1 id) ∧ completes .budgetRoundStart (bd 0 id)
    ∧ completes (.budgetGrant 0 (bg 2 0 7 0 0 1000)) (bd 1 id) ∧ completes (.budgetGrant 0 (bg 2 0 7 0 0 1001)) (bd 1 id)
    ∧ completes (.budgetReport 0 (bg 1 1 7 500 900 0)) (bd 0 id) ∧ completes .budgetGrantDeadline (bd 0 (fun b => { b with round := 1999 })) := by
  intro h
  have a := fun l f (hc : (bd l f).clocked = true) (hp : (bd l f).pkg.accepted = true) => h.2 (bd l f) hc hp
  exact ⟨(h.1 1000 [(900, 500), (900, 300)] (by decide)).1, go ((a 1 id rfl rfl).1 (by decide)), go ((a 0 id rfl rfl).1 (by decide)),
    go (((a 1 id rfl rfl).2.1 0 (bg 2 0 7 0 0 1000) (by decide)).1 (by decide) (by decide)),
    go (((a 1 id rfl rfl).2.1 0 (bg 2 0 7 0 0 1001) (by decide)).1 (by decide) (by decide)),
    go (((a 0 id rfl rfl).2.1 0 (bg 1 1 7 500 900 0) (by decide)).2 (by decide) (by decide) (by decide)),
    go ((a 0 (fun b => { b with round := 1999 }) rfl rfl).2.2 (by decide) (by decide) (by decide))⟩

/-- The packets of the round have a way, and the two grants lie on either side of the envelope. -/
theorem wit_BudgetRoundsGiveGrants_2 :
    (bd 1 id).route (bd 1 id).pkg.leader 4 0 none = some 0 ∧ (bd 1 id).pkg.leader ≠ (bd 1 id).pos ∧ (bd 0 id).memberList = [0, 1] ∧ (bd 0 id).pos = 0
      ∧ pktLE (bg 2 0 7 0 0 1000) 8 2 ≤ (bd 1 id).envelope ∧ (bd 1 id).envelope < pktLE (bg 2 0 7 0 0 1001) 8 2 := by decide

/-! ### Onjan -/

/-- A running die with `QM_EN` = 0 whose Onjan state is that of `DEVELOPMENT` with the random source at work, changed by `f`. -/
def oj (f : Sec → Sec) : State :=
  { (mt id).setReg 0x2000 0 with sec := f { Sec.init with life := .development, selfTested := true, rngOk := true } }

theorem wit_AttestationChallengesAndRandom : Obligations.AttestationChallengesAndRandom →
    completes .attest (oj id) ∧ completes .attest (oj (fun k => { k with zeroise := true })) ∧ completes .attestDone (oj (fun k => { k with cmd := 1 }))
    ∧ completes .secRptDataRead (oj id) ∧ completes .challenge (oj id) ∧ completes .challenge (oj (fun k => { k with rngOk := false })) ∧ completes .secRngRead (oj id)
    ∧ completes (.rngTestFail 1) (oj id) ∧ completes (.rngTestFail 1) (oj (fun k => { k with rngOk := false })) := by
  intro h
  have a := fun f => h (oj f)
  exact ⟨go ((a id).2.1 (by decide)), ⟨_, (a (fun k => { k with zeroise := true })).1 (by decide)⟩, go ((a (fun k => { k with cmd := 1 })).2.2.1 rfl), go (a id).2.2.2.1,
    go ((a id).2.2.2.2.1 rfl), ⟨_, (a (fun k => { k with rngOk := false })).2.2.2.2.2.1 rfl⟩, go (a id).2.2.2.2.2.2.1, go (((a id).2.2.2.2.2.2.2 1).1 rfl),
    ⟨_, ((a (fun k => { k with rngOk := false })).2.2.2.2.2.2.2 1).2 rfl⟩⟩

/-- A token for this die under verification: its scope, version and serial number, and the lifecycle. -/
def tk (sc v sn : Word) (l : Life) (hit : Bool) : State := oj (fun k => { k with life := l, cmd := 2, tokenHit := hit, token := [(0, v), (1, sn), (2, sc)] })

theorem wit_TokensAuthoriseTransitions : Obligations.TokensAuthoriseTransitions →
    completes (.secTokenDataWrite 5) (oj id) ∧ completes .tokenSubmit (oj (fun k => { k with lockout := true })) ∧ completes .tokenSubmit (oj id)
    ∧ completes (.tokenVerifyDone true) (tk 9 1 0 .development true) ∧ completes (.tokenVerifyDone true) (tk 1 1 5 .development true)
    ∧ completes (.tokenVerifyDone false) (tk 1 1 0 .development true) ∧ completes (.tokenVerifyDone true) (tk 1 1 0 .development true)
    ∧ completes (.tokenVerifyDone true) (tk 1 1 0 .production true) ∧ completes (.tokenVerifyDone true) (tk 2 1 0 .development true)
    ∧ completes (.tokenVerifyDone true) (tk 3 1 0 .development true) ∧ completes .dbgLock (oj (fun k => { k with life := .blank })) ∧ completes .dbgLock (oj id) := by
  intro h
  have rf : ∀ {c : Instr} {s : State} {A B C D E F G H I : State → Prop},
      (∃ s', exec c s = .next s' ∧ A s' ∧ B s' ∧ C s' ∧ D s' ∧ E s' ∧ F s' ∧ G s' ∧ H s' ∧ I s') → completes c s := fun ⟨s', x, _⟩ => ⟨s', x⟩
  have b := fun s => (h s).2.2.2.1
  exact ⟨go ((h (oj id)).1 5), rf ((h (oj (fun k => { k with lockout := true }))).2.1 rfl), ⟨_, (h (oj id)).2.2.1 rfl rfl⟩,
    rf ((b (tk 9 1 0 .development true) rfl true).1 (by decide)), rf ((b (tk 1 1 5 .development true) rfl true).2.1 (by decide) (.inl (by decide))),
    rf ((b (tk 1 1 0 .development true) rfl false).2.2.1 (by decide) (by decide) rfl),
    go ((b (tk 1 1 0 .development true) rfl true).2.2.2.1 (by decide) (by decide) nofun),
    go ((b (tk 1 1 0 .production true) rfl true).2.2.2.2.1 (by decide) (by decide) rfl),
    go (((b (tk 2 1 0 .development true) rfl true).2.2.2.2.2.1 (by decide) (by decide)).2 rfl),
    go ((b (tk 3 1 0 .development true) rfl true).2.2.2.2.2.2 (by decide) (by decide) rfl),
    ⟨_, (h (oj (fun k => { k with life := .blank }))).2.2.2.2.1 rfl⟩, ⟨_, (h (oj id)).2.2.2.2.2 nofun⟩⟩

/-- A slot of tile 0 held for job 42. -/
def hs (l : Life) : State := (oj (fun k => { k with life := l })).onTile 0 (fun q => { q with spad := { q.spad with retain := some 42 } })

/-- A pulse of `SVN_COMMIT` under way, with `n` ns to go. -/
def pl2 (n : Nat) : State := { oj id with mgmt := { (oj id).mgmt with pulses := [.svn 0 true], pulseNs := n }, pending := [] }
theorem tk' {s : State} {P : State → Prop} : (∃ s', step s = .next s' ∧ P s') → ∃ s', step s = .next s' := fun ⟨s', x, _⟩ => ⟨s', x⟩

theorem wit_RollbackMemoryAndHeldSlots : Obligations.RollbackMemoryAndHeldSlots →
    completes .svnCommit (oj (fun k => { k with fwKey := 2, fwSvn := 65 })) ∧ completes .svnCommit (oj (fun k => { k with fwKey := 1 }))
    ∧ completes .fk0Revoke (oj (fun k => { k with fwKey := 3 })) ∧ completes .fk0Revoke (oj id)
    ∧ (∃ s', step (pl2 5) = .next s') ∧ (∃ s', step (pl2 1) = .next s')
    ∧ completes (.secMemencWrite 14) (oj (fun k => { k with memEnc := 31 })) ∧ completes (.secMemencWrite 8) (oj id)
    ∧ completes (.secRetainRelease 42) (hs .development) ∧ completes (.secRetainRelease 42) (hs .production) := by
  intro h
  have m : exec (.secMemencWrite 14) (oj (fun k => { k with memEnc := 31 })) = _ :=
    ((h (oj (fun k => { k with memEnc := 31 }))).2.2.2.2.2.1 14).1 ⟨0, by decide, by decide, .inr (by decide)⟩
  exact ⟨go ((h (oj (fun k => { k with fwKey := 2, fwSvn := 65 }))).1 nofun rfl), ⟨_, (h (oj (fun k => { k with fwKey := 1 }))).2.1 rfl⟩,
    go ((h (oj (fun k => { k with fwKey := 3 }))).2.2.1 rfl rfl), ⟨_, (h (oj id)).2.2.2.1 nofun⟩,
    tk' (((h (pl2 5)).2.2.2.2.1 (.svn 0 true) [] rfl rfl).1 (by decide)), tk' (((h (pl2 1)).2.2.2.2.1 (.svn 0 true) [] rfl rfl).2 (by decide)), ⟨_, m⟩,
    go (((h (oj id)).2.2.2.2.2.1 8).2 (by decide)),
    go (((h (hs .development)).2.2.2.2.2.2 42).1 rfl ⟨0, by decide, rfl⟩), ⟨_, ((h (hs .production)).2.2.2.2.2.2 42).2 nofun⟩⟩

/-! ### Test access and telemetry -/

/-- A die with `QM_EN` = 0 and an authorised debugger, its test state changed by `f`. -/
def ta (f : Tst → Tst) : State := { oj (fun k => { k with dbgAuth := true }) with tst := f Tst.init }

theorem wit_TapInstructionsAndFuses : Obligations.TapInstructionsAndFuses →
    completes .tapReset (ta id) ∧ completes .idcode (ta id) ∧ completes .bypass (ta id) ∧ completes (.samplePreload 5) (ta id) ∧ completes (.extest 5) (ta id)
    ∧ completes (.extest 5) (mt id) ∧ completes .clamp (ta id) ∧ completes .highz (ta id) ∧ completes .clamp (mt id) ∧ completes .highz (mt id)
    ∧ completes (.wirSel 63) (ta id) ∧ completes .scan (ta id) ∧ completes .scan (mt id) ∧ completes (.fuseProg 0x11F 1 true) (ta id) ∧ completes (.fuseProg 0x11F 1 false) (ta id)
    ∧ completes (.fuseProg 0x11E 1 true) (ta id) ∧ completes (.fuseVerify 511) (ta id) := by
  intro h
  obtain ⟨a1, a2, a3, a4, a5, a6, _, a7, a8, _, a9, a10⟩ := h (ta id)
  obtain ⟨-, -, -, -, b5, -, b6, -, -, b7, -, -⟩ := h (mt id)
  exact ⟨go a1, go a2, go a3, go (a5 5).1, go ((a5 5).2.2.1 (by decide)).1, go ((b5 5).2.2.2 (by decide)), go (a6 (by decide)).1, go (a6 (by decide)).2,
    go (b6 (by decide)).1, go (b6 (by decide)).2, go (a7 63).1, go (a8 rfl (by decide)).1, go (b7 (.inl rfl)), go ((a9 0x11F 1 true (by decide)).2.2 (by decide) rfl rfl), go ((a9 0x11F 1 false (by decide)).2.1 (by decide) rfl),
    go ((a9 0x11E 1 true (by decide)).1 (by decide)), go (a10 511 (by decide))⟩

/-- The die of the port tests: port 0 is down and off, tile 71 a spare. -/
def bt (f : Tst → Tst) : State := { po 1 0 (ps .down) with tst := f Tst.init, kw := { Kw.init with tiles := [(71, .spare)] } }

theorem wit_BistAndPortTests : Obligations.BistAndPortTests →
    completes (.bistRun 71 2) (bt id) ∧ completes (.bistRun 70 2) (bt id) ∧ completes (.bistRun 71 3) (bt id)
    ∧ completes (.bistDone true 5) (bt (fun t => { t with bistBusy := true, bistTile := 71, bistKind := 1 })) ∧ completes (.bistDone true 5) (bt id)
    ∧ completes (.portTestRun 0 1 67 false) (bt id) ∧ completes (.portTestRun 0 2 66 false) { po 1 1 id with tst := Tst.init } ∧ completes (.portTestRun 0 2 67 false) (bt id)
    ∧ completes (.portTestRun 0 1 68 false) (bt id) ∧ completes (.portTestDone 255 7 9) (bt (fun t => { t with ptBusy := true, ptMode := 1 }))
    ∧ completes (.portTestDone 0 255 256) (bt (fun t => { t with ptBusy := true, ptMode := 2 })) := by
  intro h
  have a := fun f => h (bt f)
  exact ⟨⟨_, ((a id).1 71 2).1 (by decide)⟩, ⟨_, ((a id).1 70 2).2 (by decide)⟩, ⟨_, ((a id).1 71 3).2 (by decide)⟩,
    go ((a (fun t => { t with bistBusy := true, bistTile := 71, bistKind := 1 })).2.1 rfl true 5), ⟨_, (a id).2.2.1 rfl true 5⟩,
    ⟨_, ((a id).2.2.2.1 0 1 67 false).1 (by decide)⟩, ⟨_, ((h { po 1 1 id with tst := Tst.init }).2.2.2.1 0 2 66 false).1 (by decide)⟩,
    ⟨_, ((a id).2.2.2.1 0 2 67 false).2 (by decide)⟩, ⟨_, ((a id).2.2.2.1 0 1 68 false).2 (by decide)⟩,
    go ((a (fun t => { t with ptBusy := true, ptMode := 1 })).2.2.2.2 255 7 9 rfl), go ((a (fun t => { t with ptBusy := true, ptMode := 2 })).2.2.2.2 0 255 256 rfl)⟩

/-- Tile 0 runs for the descriptor of `die`, its sequencer changed by `f`; the window names word `a` of space `sp`; the debugger is authorised or not. -/
def dg (au : Bool) (f : Seq → Seq) (a : Nat) : State :=
  { ((die (dsc 1 [])).onTile 0 (fun q => let q := busy .running q; { q with seq := f q.seq })).setReg 0x3C18 (BitVec.ofNat 32 a) with
    sec := { Sec.init with life := .development, dbgAuth := au } }

theorem wit_DebuggerAndTrace : Obligations.DebuggerAndTrace →
    completes (.dbgHalt 0) (dg false id 0) ∧ completes (.dbgHalt 0) (dg true id 0) ∧ completes (.dbgHalt 0) (dg true (fun z => { z with stall := some ⟨0, ent 1 []⟩ }) 0)
    ∧ completes (.dbgStep 0) (dg true (fun z => { z with halted := true }) 0) ∧ completes (.dbgResume 0) (dg true (fun z => { z with halted := true }) 0)
    ∧ completes (.dbgDataAccess false 0) (dg true (fun z => { z with halted := true }) 124) ∧ completes (.dbgDataAccess false 0) (dg false (fun z => { z with halted := true }) 124)
    ∧ completes (.dbgDataAccess true 5) (dg true (fun z => { z with halted := true }) 124) ∧ completes (.dbgDataAccess true 5) (dg true id 124)
    ∧ completes .traceClear (dg true id 0) ∧ completes .traceDataRead (dg true id 0) := by
  intro h
  have a := fun s => h s 0 (by decide)
  have b := (a (dg true (fun z => { z with halted := true }) 124)).2.2.1 rfl
  exact ⟨⟨_, ((a (dg false id 0)).1 (by decide)).1⟩, go (((a (dg true id 0)).2.1 (by decide)).1 rfl rfl rfl),
    go (((a (dg true (fun z => { z with stall := some ⟨0, ent 1 []⟩ }) 0)).2.1 (by decide)).2.1 rfl rfl nofun),
    go (((a (dg true (fun z => { z with halted := true }) 0)).2.1 (by decide)).2.2.1 rfl),
    go ((a (dg true (fun z => { z with halted := true }) 0)).2.1 (by decide)).2.2.2,
    go (b.1 _ (b.2.2.2.2 rfl (by decide) (by decide) (by decide) (by decide) (by decide)).1 0),
    go (((a (dg false (fun z => { z with halted := true }) 124)).2.2.1 rfl).2.1 (by decide) 0),
    go (b.2.2.1 5 _ ((b.2.2.2.2 rfl (by decide) (by decide) (by decide) (by decide) (by decide)).2 5)),
    go (((a (dg true id 124)).2.2.1 rfl).2.2.2.1 5 (by decide)), go (a (dg true id 0)).2.2.2.1, go (a (dg true id 0)).2.2.2.2⟩

/-- The telemetry of a running die at time 100 ms, with a window of 10 ms since `st`. -/
def tm (r : Bool) (st : Nat) : State := { mt id with telem := { Telem.init with running := r, start := st, len := 10, acc := [(0, 4096), (7, 1023)] } }

theorem wit_TelemetryWindows : Obligations.TelemetryWindows →
    completes (.telemCtrlWrite 0xA01) (tm false 0) ∧ completes .telemWindowEnd (tm true 90000000) ∧ completes .telemWindowEnd (tm true 90000001)
    ∧ completes .telemWindowEnd (tm false 0) := by
  intro h
  exact ⟨go ((h (tm false 0)).1 0xA01), go ((h (tm true 90000000)).2.1 rfl (by decide)), ⟨_, (h (tm true 90000001)).2.2 (.inr (by decide))⟩,
    ⟨_, (h (tm false 0)).2.2 (.inl rfl)⟩⟩

/-! ### Rules stated whole -/

/-- A stall of tile 0 on the queue of array 0. -/
def sl : State := tl (fun q => { q with seq := { q.seq with stall := some ⟨0, ent 2 [0]⟩ } })
/-- The same with that queue full. -/
def sf : State := tl (fun q => let q := q.onQueue 0 (fun _ => List.replicate 16 (ent 2 [0])); { q with seq := { q.seq with stall := some ⟨0, ent 2 [0]⟩ } })

theorem wit_FullQueueStallsTheSequencer : Obligations.FullQueueStallsTheSequencer →
    completes (.accClear 0 false ⟨2, 0, none, none⟩) (tl (fun q => q.onQueue 0 (fun _ => List.replicate 16 (ent 2 [0]))))
    ∧ completes (.vmov 0 ⟨1, 2, 0, 0, 0⟩) (tl (fun q => q.onQueue 2 (fun _ => List.replicate 64 (ent 1 []))))
    ∧ completes (.nop 0) sl ∧ completes (.issueStallResume 0) sf ∧ completes (.issueStallResume 0) sl := by
  intro h
  have a := (h (tl (fun q => q.onQueue 0 (fun _ => List.replicate 16 (ent 2 [0])))) 0).1 0 (.accClear 0 false ⟨2, 0, none, none⟩) (ent 2 [0]) (by decide)
    (.inl ⟨2, ⟨2, 0, none, none⟩, rfl, by decide, by decide, rfl⟩) (by decide)
  have b := (h (tl (fun q => q.onQueue 2 (fun _ => List.replicate 64 (ent 1 [])))) 0).1 2 (.vmov 0 ⟨1, 2, 0, 0, 0⟩) _ (by decide)
    (.inr ⟨0xD, ⟨1, 2, 0, 0, 0⟩, rfl, rfl, rfl⟩) (by decide)
  exact ⟨⟨_, a⟩, ⟨_, b⟩, ⟨_, ((h sl 0).2 _ (by decide) rfl).1 (.nop 0) rfl⟩, ⟨_, ((h sf 0).2 _ (by decide) rfl).2.1 (by decide)⟩,
    go (((h sl 0).2 _ (by decide) rfl).2.2 _ _ rfl (by decide) rfl rfl (by decide) (by decide) rfl)⟩

/-- Token 7 is at its highest count, with `TOKEN_CHECK`. -/
def tv : State := tl (fun q => let q := q.setToken 7 65535; { q with seq := { q.seq with coreCfg := 2 } })

theorem wit_TokenCountsSaturate : Obligations.TokenCountsSaturate →
    completes (.tpost 0 7) (tl (fun q => q.setToken 7 65534)) ∧ completes (.tpost 0 7) (tl (fun q => q.setToken 7 65535))
    ∧ completes (.tpost 0 7) tv := by
  intro h
  exact ⟨⟨_, (h.2 (tl (fun q => q.setToken 7 65534)) 0 7 (by decide) (by decide)).1 (by decide)⟩,
    ⟨_, (h.2 (tl (fun q => q.setToken 7 65535)) 0 7 (by decide) (by decide)).2.1 (by decide) (by decide)⟩,
    go ((h.2 tv 0 7 (by decide) (by decide)).2.2 (by decide) (by decide))⟩

theorem wit_TokenCountsSaturate_2 : Obligations.TokenCountsSaturate → ((Tile.init.setToken 5 65535).postToken 0 5).token 5 = 65535 :=
  fun h => (h.1 (Tile.init.setToken 5 65535) 0 5 (by decide)).1

/-- The word `w` stands in `r7`, the last of four argument words. -/
def pa (w : Word) : State := tl (fun q => q.setReg 7 w)

theorem wit_ChannelStreamNeedsFullMode : Obligations.ChannelStreamNeedsFullMode →
    completes (.pass 0 false ⟨4, 3, none, none⟩) (pa 5) ∧ completes (.pass 0 false ⟨4, 3, none, none⟩) (pa 0x24) := by
  intro h
  exact ⟨go ((h (pa 5) 0 false ⟨4, 3, none, none⟩ (by decide) (by decide) (by decide) (by decide) (by decide)).1 (by decide) (by decide)),
    go ((h (pa 0x24) 0 false ⟨4, 3, none, none⟩ (by decide) (by decide) (by decide) (by decide) (by decide)).2 _ _ (by decide) rfl (by decide))⟩

/-! ### The whole machine -/

theorem wit_CommandsAreCarriedOutAndLeaveTheQueue : Obligations.CommandsAreCarriedOutAndLeaveTheQueue →
    completes (.nop 71) State.reset ∧ ∃ s', step { State.reset with pending := [.nop 0, .tpost 71 7] } = .next s' := by
  intro h
  obtain ⟨s', x, -⟩ := h.1 (.nop 71) State.reset (by decide)
  obtain ⟨s'', y, -⟩ := h.2.2 { State.reset with pending := [.nop 0, .tpost 71 7] } (by decide)
  exact ⟨⟨s', x⟩, ⟨s'', y⟩⟩

/-- A die on which the last pulses of the transition to `PRODUCTION` are under way, with a command in its queue. -/
def lw : State :=
  { oj (fun k => { k with copies := (.production, .production, .development) }) with
    mgmt := { (oj id).mgmt with pulses := [.life 2 .production], pulseNs := 9 }, pending := [.nop 0] }

theorem lw_forward : lw.sec.life.code ≤ (Life.majority lw.sec.copies).code
    ∧ ∀ c l, FusePulse.life c l ∈ lw.mgmt.pulses → lw.sec.life.code ≤ l.code := by
  refine ⟨by decide, fun c l h => ?_⟩
  have : FusePulse.life c l = .life 2 .production := List.mem_singleton.1 h
  cases this
  decide

theorem wit_FusesAndLifecycleOnlyAdvance : Obligations.FusesAndLifecycleOnlyAdvance →
    ∃ s', step lw = .next s' ∧ lw.sec.minSvn ≤ s'.sec.minSvn := by
  intro h
  obtain ⟨s', x⟩ : ∃ s', step lw = .next s' := ⟨_, rfl⟩
  exact ⟨s', x, (h lw s' lw_forward x).2.1⟩

theorem wit_MemoryKeepsItsForm : Obligations.MemoryKeepsItsForm →
    ∃ s', step { lw with mem := Mem.wr [] 5 7 } = .next s' ∧ s'.memWf = true := by
  intro h
  obtain ⟨s', x⟩ : ∃ s', step { lw with mem := Mem.wr [] 5 7 } = .next s' := ⟨_, rfl⟩
  exact ⟨s', x, h _ s' (by decide) x⟩

/-! ## Small tests

Expected values are the spec's worked figures, or follow by hand from the rule that a docstring names. -/

/-! ### Well-formed commands: each check refuses a term that breaks it (R12, R14, R396) -/

theorem test_wf_accepts : ([.add 71 31 31 31, .linkLoss 47 4, .rd 47 pkt, .correctedError 127, .baseDieTimeout 0 126 0, .coreFault 0 7, .syResult none pkt 0] : List Instr).all
    wellFormed = true := by decide
theorem test_wf_tile : wellFormed (.add 72 1 2 3) = false := by decide
theorem test_wf_port : wellFormed (.portRetrain 48) = false := by decide
theorem test_wf_packet_class : wellFormed (.rd 0 { pkt with cls := 8 }) = false := by decide
theorem test_wf_packet_type : wellFormed (.rd 0 { pkt with ptype := 32 }) = false := by decide
theorem test_wf_packet_len : wellFormed (.rd 0 { pkt with len := 1025 }) = false := by decide
theorem test_wf_packet_dies : wellFormed (.rd 0 { pkt with srcDie := 8 }) = false ∧ wellFormed (.rd 0 { pkt with dstDie := 8 }) = false := by decide
theorem test_wf_packet_stop : wellFormed (.rd 0 { pkt with srcStop := 256 }) = false := by decide
theorem test_wf_packet_tag : wellFormed (.rd 0 { pkt with tag := 65536 }) = false := by decide
theorem test_wf_packet_addr : wellFormed (.rd 0 { pkt with addr := 2 ^ 52 }) = false := by decide
theorem test_wf_packet_job : wellFormed (.rd 0 { pkt with job := 4096 }) = false := by decide
theorem test_wf_packet_aux : wellFormed (.rd 0 { pkt with aux := 65536 }) = false := by decide
theorem test_wf_packet_data : packetFits { pkt with data := List.replicate 1025 0 } = false := by
  have h : ({ pkt with data := List.replicate 1025 0 } : Packet).data.length = 1025 := List.length_replicate
  simp only [packetFits, h]; decide
theorem test_wf_engine : wellFormed (.tokenWaitStart 0 6) = false ∧ wellFormed (.bellRowRead 0 4) = false := by decide
theorem test_wf_job : wellFormed (.yield 0 4096) = false := by decide
theorem test_wf_window : wellFormed (.creditAllocGrant 0 16) = false := by decide
theorem test_wf_core : wellFormed (.coreMapMovingResolve 64) = false := by decide
theorem test_wf_object : wellFormed (.objFreed (2 ^ 20)) = false := by decide
theorem test_wf_address : wellFormed (.translationMiss (2 ^ 52)) = false := by decide
theorem test_wf_stream : wellFormed (.descFetch 16384 0) = false := by decide
theorem test_wf_lanes : wellFormed (.portTrainingDone 0 (2 ^ 68) 0) = false ∧ wellFormed (.portTrainingDone 0 0 8) = false := by decide
theorem test_wf_loss : wellFormed (.linkLoss 0 0) = false ∧ wellFormed (.linkLoss 0 5) = false := by decide
theorem test_wf_tag : wellFormed (.reqTagExpiry 65536) = false := by decide
theorem test_wf_unit : wellFormed (.baseDieTimeout 0 125 0) = false ∧ wellFormed (.correctedError 126) = false := by decide
theorem test_wf_result_port : wellFormed (.syResult (some 48) pkt 0) = false := by decide
theorem test_wf_mask_word : wellFormed (.fenceMask 3 0) = false ∧ wellFormed (.coreResetMask 3 0) = false := by decide
theorem test_wf_key : wellFormed (.fwVerified 4 true) = false := by decide
theorem test_wf_tiles_passed : wellFormed (.keyworkInit [] (2 ^ 72)) = false := by decide
theorem test_wf_source : wellFormed (.coreFault 0 0) = false ∧ wellFormed (.coreFault 0 8) = false := by decide
theorem test_wf_frame : wellFormed (.tsyncFrame (2 ^ 44) 0) = false := by decide
theorem test_wf_temperature : wellFormed (.currentWindowEnd 0 0 2048 0) = false ∧ wellFormed (.currentWindowEnd 0 0 0 72) = false := by decide
theorem test_wf_cells : wellFormed (.extest (2 ^ 212)) = false := by decide
theorem test_wf_wir : wellFormed (.wirSel 64) = false := by decide
theorem test_wf_offset : wellFormed (.cfgRegWrite 65536 0) = false := by decide
theorem test_wf_fuse : wellFormed (.fuseProg 512 0 true) = false ∧ wellFormed (.fuseVerify 512) = false := by decide
theorem test_wf_bist : wellFormed (.bistRun 128 1) = false ∧ wellFormed (.bistRun 0 4) = false := by decide
theorem test_wf_port_test : wellFormed (.portTestRun 64 1 0 true) = false ∧ wellFormed (.portTestRun 0 4 0 true) = false ∧ wellFormed (.portTestRun 0 1 128 true) = false := by decide

/-- The opcode table gives no row bits: no word spells a command, and a fetch word changes nothing. -/
theorem test_no_word_spells_a_command : decodeTableWord 32 0 = none ∧ State.reset.withFetchWord 32 5 = State.reset := ⟨rfl, rfl⟩

/-! ### Steps -/

/-- The state that a command leaves. -/
def after (c : Instr) (s : State) : State :=
  match exec c s with
  | .next s' => s'
  | _ => s

/-- R42: the sum wraps at 2^32; R36: a write to `s0` is discarded. -/
theorem test_add_wraps : ((after (.add 0 3 1 2) (tl (fun q => (q.setReg 1 0xFFFFFFFF).setReg 2 2))).tile 0).reg 3 = 1 := by decide
theorem test_s0_discards : ((after (.add 0 0 1 1) (tl (fun q => q.setReg 1 5))).tile 0).reg 0 = 0 := by decide
/-- R42: `SRA` keeps the sign, `SLT` compares with sign and `SLTU` without. -/
theorem test_sra_sign : ((after (.sra 0 3 1 2) (tl (fun q => (q.setReg 1 0x80000000).setReg 2 4))).tile 0).reg 3 = 0xF8000000 := by decide
theorem test_slt_signed : ((after (.slt 0 3 1 2) (tl (fun q => (q.setReg 1 0xFFFFFFFF).setReg 2 0))).tile 0).reg 3 = 1
    ∧ ((after (.sltu 0 3 1 2) (tl (fun q => (q.setReg 1 0xFFFFFFFF).setReg 2 0))).tile 0).reg 3 = 0 := by decide
/-- R43: a byte of the little-endian word 0x80 at address 3 is sign-extended. -/
theorem test_load_sign_extends : ((after (.memLoad 0 3 0 3 .b8 true) (after (.memStore 0 1 0 0 .b32) (tl (fun q => q.setReg 1 0x80000000)))).tile 0).reg 3 = 0xFFFFFF80 := by decide
/-- R44: a branch that is not taken goes to the next word. -/
theorem test_branch_not_taken : ((after (.bne 0 1 1 5) (tl id)).tile 0).seq.pc = 1 := by decide
/-- R55: a token at 65,535 stays there. -/
theorem test_token_saturates : ((after (.tpost 0 7) (tl (fun q => q.setToken 7 65535))).tile 0).token 7 = 65535 := by decide
/-- With an empty queue one nanosecond passes (log 10). -/
theorem test_idle_step : ∃ s', step State.reset = .next s' ∧ s'.pending = [] := ⟨_, rfl, rfl⟩

/-! ### Numbers (spec/05, spec/06) -/

/-- Spec/06 on R163: in E4M3, 460 rounds to 448 and is not counted; 470 rounds to 480, saturates to 448, and is counted. -/
theorem test_e4m3_range : convert .e4m3 true .rne false (.fin false ⟨460, 0⟩) = ⟨0x7E, false, false⟩
    ∧ convert .e4m3 true .rne false (.fin false ⟨470, 0⟩) = ⟨0x7E, true, false⟩ := by decide
/-- Spec/06 on R160: 250 with an E4M3 target and `RNE` yields 256. -/
theorem test_e4m3_250 : floatVal .e4m3 (convert .e4m3 true .rne false (.fin false ⟨250, 0⟩)).bits = .fin false ⟨8, 5⟩ := by decide
/-- The worked example of spec/06: 309.375 under `SR` gives 320 (0x7A) from *r* = 21,760 on, else 288 (0x79), and 0x7A under `RNE`. -/
theorem test_e4m3_sr : (convert .e4m3 true (.sr 21760) false (.fin false ⟨2475, -3⟩)).bits = 0x7A
    ∧ (convert .e4m3 true (.sr 21759) false (.fin false ⟨2475, -3⟩)).bits = 0x79 ∧ (convert .e4m3 true .rne false (.fin false ⟨2475, -3⟩)).bits = 0x7A := by decide
/-- The worked example of spec/06: element (3, 77) of Bell 0's first store has *c*0 = 0x0C4D; the scale 0x7D is 0.25. -/
theorem test_sr_c0 : srC0 77 3 0 0 = 0xC4D := by decide
theorem test_e8m0_scale : scaleVal false 0x7D = (.fin false ⟨1, -2⟩, false) ∧ (scaleVal false 0xFF).1 = .nan := by decide
/-- R163: an infinity to INT8 saturates and counts; a subnormal E2M1 result is flushed. -/
theorem test_int8_infinity : convert .int8 true .rne false (.inf true) = ⟨0x80, true, false⟩ := by decide
theorem test_e2m1_flush : convert .e2m1 true .rne false (.fin true ⟨1, -1⟩) = ⟨8, false, true⟩ := by decide

/-! ### Checks of store and option words (R438) -/

/-- The published check value of the CRC that R438 names: of the digits 1 to 9 in ASCII. -/
theorem test_crc32c : crc32c [0x31, 0x32, 0x33, 0x34, 0x35, 0x36, 0x37, 0x38, 0x39] = 0xE3069283 := by decide
/-- Spec/16: the lane map of port P09 lies at option offset 0x5C, and its register at 0x124C (spec/22). -/
theorem test_p09_offsets : 0x14 + 8 * 9 = 0x5C ∧ 0x100C + 0x40 * 9 = 0x124C := by decide

/-! ### Training, package and power figures -/

/-- The worked example of spec/14: positions 17, 40, 41, 42, 55 and 60 fail; x32 on the lower half, `PORT_LANEMAP` 0x0FFF_FF91. -/
theorem test_p09_training : chooseMap (mapOf [17, 40]) (2 ^ 68 - 1 - 2 ^ 17 - 2 ^ 40 - 2 ^ 41 - 2 ^ 42 - 2 ^ 55 - 2 ^ 60) = some (0x0FFFFF91, true, false) := by decide
theorem test_p09_registers : (after (.portTrainingDone 9 (2 ^ 68 - 1 - 2 ^ 17 - 2 ^ 40 - 2 ^ 41 - 2 ^ 42 - 2 ^ 55 - 2 ^ 60) 7)
    ({ po 1 1 id with ports := [(9, { Port.init with st := .training })] }.setReg 0x124C (mapOf [17, 40]))).reg 0x124C = 0x0FFFFF91 := by decide
/-- Spec/20: fuse words 0x100 and 0x103 of die 2 of a Rindar Twin, as its registers show them after the fuse sense: position 2, half 1, orientation 1, mask
0x0F; P08 to P11 are `MEM` ports 0 to 3 of stack 1. -/
def twin2 (c : Instr) : State := after c { State.reset with fuses := [(0x100, 0x0F1A), (0x103, 0x68482808), (0x11F, 1)] }
theorem test_twin_position : (twin2 (.bootStart true true)).reg 0x0008 = 0x80000F1A ∧ (twin2 (.bootStart true true)).pos = 2 := by decide
theorem test_twin_roles : [8, 9, 10, 11].map (fun p => (twin2 (.bootStart true true)).reg (0x1008 + 0x40 * p)) = [0x08, 0x28, 0x48, 0x68] := by decide
/-- The worked example of spec/18: `PKG_W` 1,800, four envelopes of 450 W and averages of 430 W: every grant is 450 W. -/
theorem test_grants : grantsFor 1800 [(450, 430), (450, 430), (450, 430), (450, 430)] = [450, 450, 450, 450] := by decide
/-- The same example: a grant of 450 W less a guard of 15 W; 100 samples that average 454.5 W lower the clock by one step. -/
theorem test_bellows_lowers : (after .powerWindowEnd { bl (fun b => { b with freqStep := 14, grant := 450, thermWin := 10, powN := 100, powSum := 454500 }) with
    cfg := Tab.set 0 (Tab.set 0 (mt id).cfg 0x2C00 450) 0x2C04 (BitVec.ofNat 32 (15 * 2 ^ 10)) }).bw.freqStep = 13 := by decide
/-- The worked example of spec/22: 36,899,999,744 bytes show as 9,008,789, and 1,350,000 units of 1,024 core cycles as they are; `TELEM_WIN` is 0x0A00_03E8. -/
def telemEx : State := after .telemWindowEnd { mt id with telem := { Telem.init with
  running := true, start := 90000000, len := 10, winNum := 999, acc := [(0, 36899999744), (7, 1350000)] } }
theorem test_telemetry : Tab.get 0 telemEx.telem.shown 0 = 9008789 ∧ Tab.get 0 telemEx.telem.shown 7 = 1350000
    ∧ telemEx.cfgRead 0x3804 = some 0x0A0003E8 := by decide
/-- R515: `IDCODE` of B0. -/
theorem test_idcode : (after .idcode State.reset).tst.dr = 0x27A109A7 := by decide
/-- R519: a fuse bit that is blown stays blown, and without the supply nothing is blown. -/
theorem test_fuse_prog : (after (.fuseProg 0x101 2 true) { ta id with fuses := [(0x101, 1)] }).mgmt.pulses = [.bit 0x101 1]
    ∧ (State.pulsed { ta id with fuses := [(0x101, 1)] } (.bit 0x101 1)).fuse 0x101 = 3
    ∧ (after (.fuseProg 0x101 2 false) { ta id with fuses := [(0x101, 1)] }).fuse 0x101 = 1 := by decide
/-- R470: a fence names a tile in service; another sets `FENCE_ERR`. -/
theorem test_fence_mask : (after (.fenceMask 0 1) (fl .inService (qd 9 []))).tileSt 0 = .fenced ∧ (after (.fenceMask 0 1) (fl .spare (qd 9 []))).flt.fenceErr = true := by decide
/-- R477, R478: the first frame sets the counter to its number in milliseconds plus the time since its start edge. -/
theorem test_first_frame : (after (.tsyncFrame 5 3) (ck false 7 id)).now = 5000003 := by decide
/-- R507: `DBG_LOCK` takes the authority away, but in `BLANK`. -/
theorem test_dbg_lock : (after .dbgLock (ta id)).sec.dbgAuth = false := by decide

end Sys2Proof.Tests
end

-- ==== Package memory keeps its form; every command is carried out ====
section
/-!
PROOFS. Package memory stays in canonical form through every operation of the model (log 3), and every command answers a
next state that keeps the queue. An operation that never writes package memory has a lemma `_mem`: its memory is the memory
before. One that may write it, most of them only because they report an event to the event ring in memory, has a lemma
`_memWf`: canonical before, canonical after.
-/

namespace Sys2Proof.Machine

open Sys2Proof

/-! ### Choices and folds -/

@[simp] theorem ite_mem (c : Prop) [Decidable c] (a b : State) : (if c then a else b).mem = if c then a.mem else b.mem :=
  apply_ite State.mem c a b

@[simp] theorem iteP_mem {γ : Type} (c : Prop) [Decidable c] (a b : State × γ) :
    (if c then a else b).1.mem = if c then a.1.mem else b.1.mem := apply_ite (fun r : State × γ => r.1.mem) c a b

@[simp] theorem wf_ite (c : Prop) [Decidable c] (a b : Mem) : (if c then a else b).wf = if c then a.wf else b.wf :=
  apply_ite Mem.wf c a b

/-- A choice between two states whose memory is in form. -/
theorem ite_memWf {c : Prop} [Decidable c] {a b : State} (ha : a.mem.wf = true) (hb : b.mem.wf = true) :
    (if c then a else b).mem.wf = true := by
  split
  · exact ha
  · exact hb

/-- A fold of operations that keep memory in form. -/
theorem foldl_memWf {β : Type} (l : List β) {s : State} (g : State → β → State)
    (hg : ∀ s x, s.mem.wf = true → (g s x).mem.wf = true) (h : s.mem.wf = true) : (l.foldl g s).mem.wf = true :=
  foldl_keeps (fun s => s.mem.wf = true) g hg l s h

/-- The same for a fold that carries something beside the state. -/
theorem foldlP_memWf {β γ : Type} (l : List β) {r : State × γ} (g : State × γ → β → State × γ)
    (hg : ∀ r x, r.1.mem.wf = true → (g r x).1.mem.wf = true) (h : r.1.mem.wf = true) : (l.foldl g r).1.mem.wf = true :=
  foldl_keeps (fun r => r.1.mem.wf = true) g hg l r h

/-- What holds of an answered pair's state holds of the state once the pair is taken apart, as the branches of a `match` do. -/
theorem fst_memWf {α : Type} {r : State × α} {s : State} {a : α} (e : r = (s, a)) (h : r.1.mem.wf = true) : s.mem.wf = true := by
  rw [e] at h
  exact h

/-! ### Shared operations: registers, events, the home side of package memory -/

@[simp] theorem State.countRows_mem (s : State) (a n : Nat) : (s.countRows a n).mem = s.mem := by simp [State.countRows]

@[simp] theorem State.traceAdd_mem (s : State) (tile src typ : Nat) (pay : Word) : (s.traceAdd tile src typ pay).mem = s.mem := by
  simp [State.traceAdd]

@[simp] theorem State.sendOn_mem (s : State) (p : Nat) (k : Packet) : (s.sendOn p k).mem = s.mem := by simp [State.sendOn]

@[simp] theorem State.request_mem (s : State) (d : Nat) (k : Packet) (o : OpenTx) : (s.request d k o).1.mem = s.mem := by
  simp only [State.request]
  repeat' split
  all_goals simp

@[simp] theorem State.workAcked_mem (s : State) (tile uid : Nat) : (s.workAcked tile uid).mem = s.mem := by simp [State.workAcked]

@[simp] theorem State.sendDue_mem (s : State) (p : Nat) (k : Packet) : (s.sendDue p k).mem = s.mem := by
  simp only [State.sendDue]
  repeat' split
  all_goals simp

@[simp] theorem State.due_mem (s : State) (x : InvDue) : (s.due x).mem = s.mem := by
  simp only [State.due]
  repeat' split
  all_goals simp

@[simp] theorem State.settleInvs_mem (s : State) : s.settleInvs.mem = s.mem :=
  foldl_mem _ _ _ State.due_mem

@[simp] theorem State.invalidateLines_mem (s : State) (lines : List Nat) : (s.invalidateLines lines).1.mem = s.mem :=
  Machine.invalidateLines_mem s lines

@[simp] theorem State.wrHome_memWf (s : State) (addr : Nat) (bs : List Byte) (h : s.mem.wf = true) :
    (s.wrHome addr bs).1.mem.wf = true := by
  rw [wrHome_mem]
  exact Mem.wf_wrBytes h addr bs

@[simp] theorem State.sendWrite_mem (s : State) (addr job stop : Nat) (bs : List Byte) (o : OpenTx) :
    (s.sendWrite addr job stop bs o).1.mem = s.mem := by
  simp [State.sendWrite]

@[simp] theorem State.addTraffic_mem (s : State) (addr n : Nat) : (s.addTraffic addr n).mem = s.mem :=
  (Machine.addTraffic_mem s addr n).1

@[simp] theorem State.readAt_mem (s : State) (addr n : Nat) : (s.readAt addr n).mem = s.mem := by simp [State.readAt]

@[simp] theorem State.wrGranule_memWf (s : State) (addr job stop : Nat) (bs : List Byte) (o : OpenTx) (h : s.mem.wf = true) :
    (s.wrGranule addr job stop bs o).st.mem.wf = true := by
  have hh := State.wrHome_memWf s addr bs h
  unfold State.wrGranule
  split
  · dsimp only; split <;> exact hh
  · exact foldl_keeps (fun r : Written => r.st.mem.wf = true) _ (fun r p hr => by simpa using hr) _ _ h

@[simp] theorem State.wrPkgAs_memWf (s : State) (addr job stop : Nat) (bs : List Byte) (o : OpenTx) (h : s.mem.wf = true) :
    (s.wrPkgAs addr job stop bs o).st.mem.wf = true := by
  refine foldl_keeps (fun r : Written => r.st.mem.wf = true) _ (fun r p hr => ?_) _ _ ?_
  · exact State.wrGranule_memWf r.st _ _ _ _ _ hr
  · simpa using h

@[simp] theorem State.wrPkg_memWf (s : State) (addr job : Nat) (bs : List Byte) (h : s.mem.wf = true) :
    (s.wrPkg addr job bs).mem.wf = true := by
  simp [State.wrPkg, h]

/-- What `State.event` and `State.notify` leave: their word written, then the manager's fields changed. Stated for any new fields, so
that the kernel need not compare the written memory with itself field by field. -/
theorem State.wrPkg_withQm_memWf (s : State) (a : Nat) (bs : List Byte) (q : Qm) (h : s.mem.wf = true) :
    ({ s.wrPkg a 0 bs with qm := q } : State).mem.wf = true := State.wrPkg_memWf s a 0 bs h

@[simp] theorem State.event_memWf (s : State) (e : Ev) (h : s.mem.wf = true) : (s.event e).mem.wf = true := by
  unfold State.event
  refine ite_memWf h ?_
  extract_lets s1
  have h1 : s1.mem.wf = true := by unfold s1; split <;> simp [h]
  clear_value s1
  refine ite_memWf h1 (ite_memWf h1 (ite_memWf h1 ?_))
  exact State.wrPkg_withQm_memWf s1 _ _ _ h1

@[simp] theorem State.denied_memWf (s : State) (e : Ev) (core addr reason : Nat) (h : s.mem.wf = true) :
    (s.denied e core addr reason).mem.wf = true := by
  simp [State.denied, h]

@[simp] theorem State.send_memWf (s : State) (d : Nat) (k : Packet) (via : Option Nat) (h : s.mem.wf = true) :
    (s.send d k via).mem.wf = true := by
  simp only [State.send]
  repeat' split
  all_goals simp [h]

@[simp] theorem State.unreachable_memWf (s : State) (k : Packet) (h : s.mem.wf = true) : (s.unreachable k).mem.wf = true := by
  simp [State.unreachable, h]

@[simp] theorem State.reply_memWf (s : State) (p : Nat) (rq : Packet) (k : Packet) (h : s.mem.wf = true) :
    (s.reply p rq k).mem.wf = true := by
  simp only [State.reply]
  repeat' split
  all_goals simp [h]

/-! ### Fetched copies of package memory -/

@[simp] theorem State.addFetch_mem (s : State) (f : Fetch) : (s.addFetch f).mem = s.mem := by simp [State.addFetch]

@[simp] theorem State.fetchLine_memWf (agent job stop : Nat) (s : State) (line : Nat) (h : s.mem.wf = true) :
    (State.fetchLine agent job stop s line).mem.wf = true := by
  simp only [State.fetchLine]
  repeat' split
  all_goals simp [h]

@[simp] theorem State.fetch_memWf (s : State) (agent job stop addr len : Nat) (h : s.mem.wf = true) :
    (s.fetch agent job stop addr len).mem.wf = true := by
  unfold State.fetch
  split
  · exact h
  · exact foldl_memWf _ _ (fun s l => State.fetchLine_memWf _ _ _ s l) h

@[simp] theorem State.hold_mem (s : State) (p : Nat) (k : Packet) : (s.hold p k).mem = s.mem := by simp [State.hold]

@[simp] theorem State.dropFetch_mem (s : State) (agent : Nat) : (s.dropFetch agent).mem = s.mem := by simp [State.dropFetch]

@[simp] theorem State.takeFetch_mem (s : State) (tag ans : Nat) (bs : List Byte) : (s.takeFetch tag ans bs).mem = s.mem := by
  simp [State.takeFetch]

/-! ### What descriptors and tables need -/

@[simp] theorem State.onDescOf_mem (s : State) (t : Nat) (f : Desc → Desc) : (s.onDescOf t f).mem = s.mem := by
  simp only [State.onDescOf]
  repeat' split
  all_goals simp

@[simp] theorem State.onStream_mem (s : State) (k : Nat) (f : Stream → Stream) : (s.onStream k f).mem = s.mem := by
  simp only [State.onStream]
  repeat' split
  all_goals simp

@[simp] theorem State.hitDesc_mem (s : State) (uid cause tile : Nat) : (s.hitDesc uid cause tile).mem = s.mem := by
  simp [State.hitDesc]

@[simp] theorem State.timeUp_memWf (s : State) (d : Desc) (h : s.mem.wf = true) : (s.timeUp d).mem.wf = true := by
  simp [State.timeUp, h]

@[simp] theorem State.stopClock_memWf (s : State) (uid : Nat) (h : s.mem.wf = true) : (s.stopClock uid).mem.wf = true := by
  simp only [State.stopClock]
  repeat' split
  all_goals simp [h]

@[simp] theorem State.escape_mem (s : State) (t : Nat) : (s.escape t).mem = s.mem := by
  simp only [State.escape]
  repeat' split
  all_goals simp

@[simp] theorem State.poisonEvent_memWf (s : State) (e : Ev) (addr : Nat) (h : s.mem.wf = true) :
    (s.poisonEvent e addr).mem.wf = true := by
  simp [State.poisonEvent, h]

@[simp] theorem State.refusedEvent_memWf (s : State) (job die core target kind : Nat) (h : s.mem.wf = true) :
    (s.refusedEvent job die core target kind).mem.wf = true := by
  simp [State.refusedEvent, h]

@[simp] theorem State.absentEvent_memWf (s : State) (core oldTile : Nat) (h : s.mem.wf = true) :
    (s.absentEvent core oldTile).mem.wf = true := by
  simp [State.absentEvent, h]

/-! ### Tiles, windows and credits -/

@[simp] theorem State.answerCredit_memWf (s : State) (r : CredReq) (ans tgt : Nat) (g : Option Grant) (first : Nat) (h : s.mem.wf =
    true) :
    (s.answerCredit r ans tgt g first).mem.wf = true := by
  simp only [State.answerCredit]
  repeat' split
  all_goals simp [h]

@[simp] theorem State.revoke_mem (s : State) (t window : Nat) : (s.revoke t window).mem = s.mem := by simp [State.revoke]

@[simp] theorem State.closeWindow_memWf (s : State) (t window ans : Nat) (h : s.mem.wf = true) :
    (s.closeWindow t window ans).mem.wf = true :=
  foldl_memWf _ _ (fun s r => State.answerCredit_memWf s r _ _ _ _) (by simpa using h)

@[simp] theorem State.closeWindows_memWf (s : State) (t ans : Nat) (h : s.mem.wf = true) : (s.closeWindows t ans).mem.wf = true :=
  foldl_memWf _ _ (fun s w => State.closeWindow_memWf s t w ans) h

@[simp] theorem State.returnCredits_mem (s : State) (w : Writer) : (s.returnCredits w).mem = s.mem := by simp [State.returnCredits]

@[simp] theorem State.dropHandle_mem (s : State) (t handle : Nat) : (s.dropHandle t handle).mem = s.mem := by
  simp only [State.dropHandle]
  repeat' split
  all_goals simp

@[simp] theorem State.dropHandles_mem (s : State) (t : Nat) : (s.dropHandles t).mem = s.mem := by
  simp [State.dropHandles, foldl_mem]

@[simp] theorem State.dropRequests_mem (s : State) (t : Nat) : (s.dropRequests t).mem = s.mem := by simp [State.dropRequests]

@[simp] theorem State.letGo_memWf (s : State) (t ans : Nat) (h : s.mem.wf = true) : (s.letGo t ans).mem.wf = true := by
  simp [State.letGo, h]

@[simp] theorem State.sendSync_mem (s : State) (d : Nat) (r : SyncReq) : (s.sendSync d r).1.mem = s.mem := by simp [State.sendSync]

@[simp] theorem State.askWithdraw_mem (s : State) (tag : Nat) (o : OpenTx) : (s.askWithdraw tag o).mem = s.mem := by
  simp [State.askWithdraw]

@[simp] theorem State.dropSrcs_mem (s : State) (p : SyncSrc → Bool) : (s.dropSrcs p).mem = s.mem := by simp [State.dropSrcs]

@[simp] theorem State.withdraw_mem (s : State) (p : SyncSrc → Bool) (uid : Option Nat) : (s.withdraw p uid).mem = s.mem := by
  simp [State.withdraw, foldl_mem]

@[simp] theorem State.syncStop_mem (s : State) (t : Nat) : (s.syncStop t).mem = s.mem := by simp [State.syncStop]

@[simp] theorem State.faultEvent_memWf (s : State) (t : Nat) (h : s.mem.wf = true) : (s.faultEvent t).mem.wf = true := by
  simp only [State.faultEvent]
  repeat' split
  all_goals simp [h]

@[simp] theorem State.runTile_memWf (s : State) (t : Nat) (f : Tile → Tile) (h : s.mem.wf = true) :
    (s.runTile t f).mem.wf = true := by
  simp only [State.runTile]
  repeat' split
  all_goals simp [h]

@[simp] theorem State.drawIn_memWf (s : State) (t cause tile : Nat) (h : s.mem.wf = true) :
    (s.drawIn t cause tile).mem.wf = true := by
  simp only [State.drawIn]
  repeat' split
  all_goals simp [h]

@[simp] theorem State.haltEvent_memWf (s : State) (t reason : Nat) (h : s.mem.wf = true) :
    (s.haltEvent t reason).mem.wf = true := by
  simp [State.haltEvent, h]

@[simp] theorem State.instr_memWf (s : State) (t : Nat) (f : Tile → Tile) (h : s.mem.wf = true) : (s.instr t f).mem.wf = true := by
  simp only [State.instr]
  repeat' split
  all_goals simp [h]

@[simp] theorem State.instrWhen_memWf (s : State) (t : Nat) (ready : Tile → Bool) (f : Tile → Tile) (h : s.mem.wf = true) :
    (s.instrWhen t ready f).mem.wf = true := by
  simp only [State.instrWhen]
  repeat' split
  all_goals simp [h]

/-! ### Reads and writes of the core DMA -/

@[simp] theorem State.atomicPut_memWf (s : State) (job addr v : Nat) (h : s.mem.wf = true) :
    (s.atomicPut job addr v).mem.wf = true := by
  simp only [State.atomicPut]
  repeat' split
  all_goals simp [h]

@[simp] theorem State.setScb_memWf (s : State) (agent a job : Nat) (c : Scb) (h : s.mem.wf = true) :
    (s.setScb agent a job c).mem.wf = true :=
  foldl_memWf _ _ (fun s _ => State.atomicPut_memWf s _ _ _) h

@[simp] theorem State.setStashEnt_memWf (s : State) (a job : Nat) (e : StashEnt) (h : s.mem.wf = true) :
    (s.setStashEnt a job e).mem.wf = true :=
  foldl_memWf _ _ (fun s _ => State.atomicPut_memWf s _ _ _) h

@[simp] theorem State.need_memWf (s : State) (g : Agent) (agent : Nat) (wr : Bool) (addr len : Nat) (h : s.mem.wf = true) :
    (s.need g agent wr addr len).1.mem.wf = true := by
  simp only [State.need]
  repeat' split
  all_goals simp [h]

@[simp] theorem State.sendCredit_memWf (s : State) (g : Agent) (e : QEntry) (x : Grant) (handle b : Nat) (bs : List Byte)
    (h : s.mem.wf = true) : (s.sendCredit g e x handle b bs).1.mem.wf = true := by
  refine foldlP_memWf _ _ (fun r p hr => ?_) h
  simp [hr]

theorem State.appendLog_mem (s : State) (k addr : Nat) (bs : List Byte) {s' : State} (h : s.appendLog k addr bs = .ok s') :
    s'.mem = s.mem := by
  unfold State.appendLog at h
  dsimp only at h
  split at h
  · cases h
  · cases h; rfl

@[simp] theorem State.wroteTile_mem (s : State) (d : Option Desc) (t : Nat) : (s.wroteTile d t).mem = s.mem := by
  simp only [State.wroteTile]
  repeat' split
  all_goals simp

theorem State.writePiece_memWf (s : State) (g : Agent) (e : QEntry) (x : Xfer) (l : Loc) (bs : List Byte) {r : State × QEntry}
    (h : s.mem.wf = true) (hr : s.writePiece g e x l bs = .ok r) : r.1.mem.wf = true := by
  unfold State.writePiece at hr
  cases l with
  | pkg a =>
    dsimp only at hr
    split at hr
    · cases hr
    · cases hr
    · split at hr
      · split at hr
        · cases hr
        · cases hr
        · rename_i hlog
          cases hr
          rw [State.appendLog_mem _ _ _ _ hlog]
          exact h
      · repeat' split at hr
        all_goals cases hr; simp [h]
  | spad | dmem | credit | remote =>
    dsimp only at hr
    repeat' split at hr
    all_goals cases hr
    all_goals simp [h]

theorem State.writeUnit_memWf (g : Agent) (x : Xfer) (ps : List (Loc × Nat)) : ∀ (s : State) (e : QEntry) (bs : List Byte)
    {r : State × QEntry} (_ : s.mem.wf = true) (_ : s.writeUnit g e x ps bs = .ok r), r.1.mem.wf = true := by
  induction ps with
  | nil => intro s e bs r h hr; rw [State.writeUnit] at hr; cases hr; exact h
  | cons p ps ih =>
    intro s e bs r h hr
    obtain ⟨l, n⟩ := p
    rw [State.writeUnit] at hr
    split at hr
    · cases hr
    · cases hr
    · rename_i hp
      exact ih _ _ _ (State.writePiece_memWf _ _ _ _ _ _ h hp) hr

@[simp] theorem State.readTraffic_mem (s : State) (ps : List (Loc × Nat)) : (s.readTraffic ps).mem = s.mem :=
  Machine.readTraffic_mem s ps

@[simp] theorem State.runUnits_memWf (g : Agent) (x : Xfer) (n : Nat) : ∀ (s : State) (e : QEntry), s.mem.wf = true →
    (s.runUnits g x n e).1.mem.wf = true := by
  induction n with
  | zero => intro s e h; exact h
  | succ n ih =>
    intro s e h
    rw [State.runUnits]
    split
    · exact h
    · split
      · exact h
      · exact h
      · split
        · exact h
        · exact h
        · rename_i hw
          exact ih _ _ (by simpa using State.writeUnit_memWf _ _ _ _ _ _ h hw)

@[simp] theorem State.askOne_memWf (o : OpenTx) (r : State × QEntry) (k : Packet) (at' : Nat) (h : r.1.mem.wf = true) :
    (State.askOne o r k at').1.mem.wf = true := by
  simp only [State.askOne]
  repeat' split
  all_goals simp [h]

@[simp] theorem State.askLine_memWf (g : Agent) (o : OpenTx) (off a : Nat) (r : State × QEntry) (p : Nat × List Byte) (h :
    r.1.mem.wf = true) :
    (State.askLine g o off a r p).1.mem.wf = true := by
  simp only [State.askLine]
  repeat' split
  all_goals simp [h]

@[simp] theorem State.askPiece_memWf (s : State) (g : Agent) (e : QEntry) (off : Nat) (l : Loc) (n : Nat) (h : s.mem.wf = true) :
    (s.askPiece g e off l n).1.mem.wf = true := by
  unfold State.askPiece
  dsimp only
  split
  · split
    · exact h
    · exact foldlP_memWf _ _ (fun r p => State.askLine_memWf _ _ _ _ r p) h
  · split
    · exact h
    · exact foldlP_memWf _ _ (fun r p => State.askOne_memWf _ r _ _) h
  · exact h

@[simp] theorem State.askAll_memWf (s : State) (g : Agent) (x : Xfer) (e : QEntry) (h : s.mem.wf = true) :
    (s.askAll g x e).1.mem.wf = true := by
  refine foldlP_memWf _ _ (fun r i hr => ?_) h
  exact foldl_keeps (fun a : (State × QEntry) × Nat => a.1.1.mem.wf = true) _ (fun a p => State.askPiece_memWf a.1.1 _ _ _ _ _) _ _ hr

@[simp] theorem State.stopTile_memWf (s : State) (t : Nat) (r : Stop) (h : s.mem.wf = true) : (s.stopTile t r).mem.wf = true := by
  simp only [State.stopTile]
  repeat' split
  all_goals simp [h]

@[simp] theorem State.putDma_mem (s : State) (t i : Nat) (e : QEntry) : (s.putDma t i e).mem = s.mem := by simp [State.putDma]

@[simp] theorem State.dropDma_memWf (s : State) (t i : Nat) (r : Stop) (h : s.mem.wf = true) : (s.dropDma t i r).mem.wf = true := by
  simp [State.dropDma, h]

@[simp] theorem State.stashRead_memWf (s : State) (g : Agent) (t : Nat) (ws : List Word) (h : s.mem.wf = true) :
    (s.stashRead g t ws).1.mem.wf = true := by
  unfold State.stashRead
  dsimp only
  split
  · exact h
  · split
    · rename_i he; exact fst_memWf he (by simp [h])
    · rename_i he; simp [fst_memWf he (by simp [h])]
    · rename_i he
      have h1 := fst_memWf he (by simp [h])
      split
      · simp [h1]
      · split
        · rename_i he; exact fst_memWf he (by simp [h1])
        · rename_i he; simp [fst_memWf he (by simp [h1])]
        · rename_i he; simp [fst_memWf he (by simp [h1])]

@[simp] theorem State.dmaAsk_memWf (s : State) (t i : Nat) (e : QEntry) (h : s.mem.wf = true) : (s.dmaAsk t i e).mem.wf = true := by
  simp only [State.dmaAsk]
  repeat' split
  all_goals simp [h]

@[simp] theorem State.dmaStart_memWf (s : State) (t i : Nat) (e : QEntry) (h : s.mem.wf = true) : (s.dmaStart t i e).mem.wf = true := by
  unfold State.dmaStart
  dsimp only
  split
  · simp [h]
  · split
    · have hr := State.stashRead_memWf s (s.agentOf t) t e.words h
      generalize s.stashRead (s.agentOf t) t e.words = r at hr ⊢
      obtain ⟨s1, p⟩ := r
      cases p <;> simp [hr]
    · simp [h]

@[simp] theorem State.dmaMayGo_memWf (s : State) (t i : Nat) (h : s.mem.wf = true) : (s.dmaMayGo t i).mem.wf = true := by
  simp only [State.dmaMayGo]
  repeat' split
  all_goals simp [h]

@[simp] theorem State.dmaUnits_memWf (s : State) (t i : Nat) (h : s.mem.wf = true) : (s.dmaUnits t i).mem.wf = true := by
  have hu := fun x n e => State.runUnits_memWf (s.agentOf t) x n s e h
  unfold State.dmaUnits
  dsimp only
  repeat' split
  all_goals simp [h, hu]

@[simp] theorem State.dmaRun_memWf (s : State) (t i : Nat) (h : s.mem.wf = true) : (s.dmaRun t i).mem.wf = true := by
  simp [State.dmaRun, h]

@[simp] theorem State.relSlot_mem (t : Nat) (s : State) (r : Option (Nat × Nat) × Nat) : (State.relSlot t s r).mem = s.mem := by
  simp only [State.relSlot]
  repeat' split
  all_goals simp

@[simp] theorem State.dmaRelease_mem (s : State) (t : Nat) (x : Xfer) : (s.dmaRelease t x).mem = s.mem := by
  simp [State.dmaRelease, foldl_mem]

@[simp] theorem State.afterStop_mem (s : State) (t : Nat) : (s.afterStop t).mem = s.mem := by simp [State.afterStop]

@[simp] theorem State.dmaFinish_memWf (s : State) (t i : Nat) (h : s.mem.wf = true) : (s.dmaFinish t i).mem.wf = true := by
  simp only [State.dmaFinish]
  repeat' split
  all_goals simp [h]

@[simp] theorem State.stashSkip_memWf (s : State) (agent a t i job id : Nat) (e : QEntry) (c : Scb) (d : StashEnt) (h : s.mem.wf =
    true) :
    (s.stashSkip agent a t i job id e c d).mem.wf = true := by
  simp [State.stashSkip, h]

@[simp] theorem State.stashDecide_memWf (s : State) (g : Agent) (t i a id : Nat) (e : QEntry) (c : Scb) (d : StashEnt) (h : s.mem.wf
    = true) :
    (s.stashDecide g t i a id e c d).mem.wf = true := by
  simp only [State.stashDecide]
  repeat' split
  all_goals simp [h]

@[simp] theorem State.stashAlloc_memWf (s : State) (t i : Nat) (h : s.mem.wf = true) : (s.stashAlloc t i).mem.wf = true := by
  unfold State.stashAlloc
  dsimp only
  split
  · exact h
  · split
    · exact h
    · split
      · simp [h]
      · split
        · rename_i he; simp [fst_memWf he (by simp [h])]
        · rename_i he; simp [fst_memWf he (by simp [h])]
        · rename_i he
          have h1 := fst_memWf he (by simp [h])
          split
          · simp [h1]
          · split
            · rename_i he; simp [fst_memWf he (by simp [h1])]
            · rename_i he; simp [fst_memWf he (by simp [h1])]
            · rename_i he; simp [fst_memWf he (by simp [h1])]

@[simp] theorem State.stashPresent_memWf (s : State) (t i : Nat) (h : s.mem.wf = true) : (s.stashPresent t i).mem.wf = true := by
  unfold State.stashPresent
  dsimp only
  split
  · exact h
  · split
    · exact h
    · split
      · exact h
      · split
        all_goals rename_i he; simp [fst_memWf he (by simp [h])]

@[simp] theorem State.creditStart_memWf (s : State) (t i : Nat) (e : QEntry) (h : s.mem.wf = true) :
    (s.creditStart t i e).mem.wf = true := by
  simp only [State.creditStart]
  repeat' split
  all_goals simp [h]

@[simp] theorem State.creditServe_memWf (s : State) (t window : Nat) (h : s.mem.wf = true) :
    (s.creditServe t window).mem.wf = true := by
  simp only [State.creditServe]
  repeat' split
  all_goals simp [h]

@[simp] theorem State.creditTimeout_memWf (s : State) (t window : Nat) (h : s.mem.wf = true) :
    (s.creditTimeout t window).mem.wf = true := by
  simp only [State.creditTimeout]
  repeat' split
  all_goals simp [h]

@[simp] theorem State.dmaOther_memWf (s : State) (fv : Nat → Word) (t i : Nat) (e : QEntry) (h : s.mem.wf = true) :
    (s.dmaOther fv t i e).mem.wf = true := by
  simp only [State.dmaOther]
  repeat' split
  all_goals simp [h]

@[simp] theorem State.completeDma_memWf (s : State) (t i : Nat) (h : s.mem.wf = true) : (s.completeDma t i).mem.wf = true := by
  simp only [State.completeDma]
  repeat' split
  all_goals simp [h]

/-! ### Synchronisation objects and barriers -/

@[simp] theorem State.answer_memWf (s : State) (src : SyncSrc) (o v : Nat) (h : s.mem.wf = true) :
    (s.answer src o v).mem.wf = true := by
  simp only [State.answer]
  repeat' split
  all_goals simp [h]

@[simp] theorem State.answers_memWf (s : State) (rs : List SyncResult) (h : s.mem.wf = true) : (s.answers rs).mem.wf = true :=
  foldl_memWf _ _ (fun s _ => State.answer_memWf s _ _ _) h

@[simp] theorem State.setObj_mem (s : State) (i : Nat) (o : SyncObj) : (s.setObj i o).mem = s.mem := by simp [State.setObj]

@[simp] theorem State.setBar_mem (s : State) (id : Nat) (b : Option Barrier) : (s.setBar id b).mem = s.mem := by simp [State.setBar]

@[simp] theorem State.setValue_memWf (s : State) (i : Nat) (o : SyncObj) (v : Nat) (h : s.mem.wf = true) :
    (s.setValue i o v).mem.wf = true := by
  simp [State.setValue, h]

@[simp] theorem State.releaseAll_memWf (s : State) (i : Nat) (o : SyncObj) (outcome value : Nat) (h : s.mem.wf = true) :
    (s.releaseAll i o outcome value).mem.wf = true := by
  simp [State.releaseAll, h]

@[simp] theorem State.tellClosed_memWf (s : State) (id : Nat) (b : Barrier) (h : s.mem.wf = true) : (s.tellClosed id b).mem.wf = true :=
  foldl_memWf _ _ (fun s _ => State.send_memWf s _ _ _) h

@[simp] theorem State.closeRounds_memWf (s : State) (id n : Nat) (h : s.mem.wf = true) : (s.closeRounds id n).mem.wf = true := by
  induction n generalizing s with
  | zero => exact h
  | succ n ih =>
    rw [State.closeRounds]
    split
    · exact h
    · extract_lets ready r s'
      split
      · exact h
      · exact ih _ (by simp [s', h])

@[simp] theorem State.reportRounds_memWf (s : State) (id n : Nat) (h : s.mem.wf = true) : (s.reportRounds id n).mem.wf = true := by
  induction n generalizing s with
  | zero => exact h
  | succ n ih =>
    rw [State.reportRounds]
    split
    · exact h
    · split
      · exact h
      · exact ih _ (by simp [h])

@[simp] theorem State.barSettle_memWf (s : State) (id : Nat) (h : s.mem.wf = true) : (s.barSettle id).mem.wf = true := by
  simp [State.barSettle, h]

@[simp] theorem State.breakBar_memWf (s : State) (id st outcome : Nat) (h : s.mem.wf = true) :
    (s.breakBar id st outcome).mem.wf = true := by
  simp only [State.breakBar]
  repeat' split
  all_goals simp [h]

@[simp] theorem State.dropBar_memWf (s : State) (id outcome : Nat) (h : s.mem.wf = true) :
    (s.dropBar id outcome).mem.wf = true := by
  simp only [State.dropBar]
  repeat' split
  all_goals simp [h]

@[simp] theorem State.shareSync_mem (s : State) (ds : List Nat) (r : SyncReq) : (s.shareSync ds r).mem = s.mem := by
  simp [State.shareSync, foldl_mem]

@[simp] theorem State.putRecord_memWf (s : State) (r : SyncReq) (id : Nat) (h : s.mem.wf = true) :
    (s.putRecord r id).mem.wf = true := by
  simp [State.putRecord, h]

@[simp] theorem State.initDone_memWf (s : State) (r : SyncReq) (id : Nat) (h : s.mem.wf = true) :
    (s.initDone r id).mem.wf = true := by
  simp only [State.initDone]
  repeat' split
  all_goals simp [h]

@[simp] theorem State.setInit_mem (s : State) (id : Nat) (x : Option InitWait) : (s.setInit id x).mem = s.mem := by
  simp [State.setInit]

@[simp] theorem State.initUndo_memWf (s : State) (id : Nat) (x : InitWait) (h : s.mem.wf = true) :
    (s.initUndo id x).mem.wf = true := by
  simp [State.initUndo, h]

@[simp] theorem State.initGo_memWf (s : State) (id : Nat) (x : InitWait) (h : s.mem.wf = true) : (s.initGo id x).mem.wf = true := by
  simp only [State.initGo]
  repeat' split
  all_goals simp [h]

@[simp] theorem State.syncInit_memWf (s : State) (r : SyncReq) (id : Nat) (h : s.mem.wf = true) :
    (s.syncInit r id).mem.wf = true := by
  simp only [State.syncInit]
  repeat' split
  all_goals simp [h]

@[simp] theorem State.syncRecord_memWf (s : State) (r : SyncReq) (id : Nat) (h : s.mem.wf = true) :
    (s.syncRecord r id).mem.wf = true := by
  simp only [State.syncRecord]
  repeat' split
  all_goals simp [h]

@[simp] theorem State.syncArrive_memWf (s : State) (r : SyncReq) (id : Nat) (h : s.mem.wf = true) :
    (s.syncArrive r id).mem.wf = true := by
  simp only [State.syncArrive]
  repeat' split
  all_goals simp [h]

@[simp] theorem State.syncFree_memWf (s : State) (r : SyncReq) (id i : Nat) (o : SyncObj) (h : s.mem.wf = true) :
    (s.syncFree r id i o).mem.wf = true :=
  State.answer_memWf _ _ _ _ (by simp [h])

@[simp] theorem State.releaseBar_memWf (s : State) (id outcome : Nat) (h : s.mem.wf = true) :
    (s.releaseBar id outcome).mem.wf = true := by
  simp only [State.releaseBar]
  repeat' split
  all_goals simp [h]

@[simp] theorem State.abandonObj_memWf (s : State) (i : Nat) (o : SyncObj) (h : s.mem.wf = true) :
    (s.abandonObj i o).mem.wf = true := by
  simp [State.abandonObj, h]

@[simp] theorem State.abandonObjs_memWf (s : State) (own : SyncObj → Bool) (h : s.mem.wf = true) : (s.abandonObjs own).mem.wf = true :=
  foldl_memWf _ _ (fun s e hs => by split <;> simp [hs]) h

@[simp] theorem State.freeObjs_memWf (s : State) (own : SyncObj → Bool) (h : s.mem.wf = true) : (s.freeObjs own).mem.wf = true :=
  foldl_memWf _ _ (fun s e hs => by split <;> simp [hs]) h

@[simp] theorem State.withdrawFor_memWf (s : State) (d tag : Nat) (h : s.mem.wf = true) : (s.withdrawFor d tag).mem.wf = true := by
  simp [State.withdrawFor, h]

@[simp] theorem State.syncNote_memWf (s : State) (r : SyncReq) (h : s.mem.wf = true) : (s.syncNote r).mem.wf = true := by
  simp only [State.syncNote]
  repeat' split
  all_goals simp [h]

@[simp] theorem State.syncLive_memWf (s : State) (r : SyncReq) (id i : Nat) (o : SyncObj) (h : s.mem.wf = true) :
    (s.syncLive r id i o).mem.wf = true := by
  simp only [State.syncLive]
  repeat' split
  all_goals simp [h]

@[simp] theorem State.syncHome_memWf (s : State) (r : SyncReq) (id : Nat) (h : s.mem.wf = true) :
    (s.syncHome r id).mem.wf = true := by
  simp only [State.syncHome]
  repeat' split
  all_goals simp [h]

@[simp] theorem State.syncApply_memWf (s : State) (r : SyncReq) (h : s.mem.wf = true) : (s.syncApply r).mem.wf = true := by
  simp only [State.syncApply]
  repeat' split
  all_goals simp [h]

@[simp] theorem State.serveSync_memWf (s : State) (id : Nat) (h : s.mem.wf = true) : (s.serveSync id).mem.wf = true :=
  foldl_memWf _ _ (fun s r => State.syncApply_memWf s r) h

@[simp] theorem State.initNext_memWf (s : State) (id o : Nat) (h : s.mem.wf = true) : (s.initNext id o).mem.wf = true := by
  simp only [State.initNext]
  repeat' split
  all_goals simp [h]

@[simp] theorem State.syncSend_memWf (s : State) (r : SyncReq) (h : s.mem.wf = true) : (s.syncSend r).1.mem.wf = true := by
  simp only [State.syncSend]
  repeat' split
  all_goals simp [h]

@[simp] theorem State.syncStart_memWf (s : State) (t : Nat) (e : QEntry) (h : s.mem.wf = true) :
    (s.syncStart t e).mem.wf = true := by
  simp only [State.syncStart]
  repeat' split
  all_goals simp [h]

@[simp] theorem State.syncBack_mem (s : State) (t : Nat) (round : Option Nat) : (s.syncBack t round).mem = s.mem := by
  simp [State.syncBack]

@[simp] theorem State.syncEnd_memWf (s : State) (t o v : Nat) (h : s.mem.wf = true) : (s.syncEnd t o v).mem.wf = true := by
  simp only [State.syncEnd]
  repeat' split
  all_goals simp [h]

@[simp] theorem State.syncYield_mem (s : State) (t : Nat) : (s.syncYield t).mem = s.mem := by
  simp only [State.syncYield]
  repeat' split
  all_goals simp [foldl_mem]

@[simp] theorem State.syncTimeout_memWf (s : State) (t : Nat) (h : s.mem.wf = true) : (s.syncTimeout t).mem.wf = true := by
  simp only [State.syncTimeout]
  repeat' split
  all_goals simp [h]

@[simp] theorem State.abandonStream_memWf (s : State) (k : Nat) (h : s.mem.wf = true) : (s.abandonStream k).mem.wf = true := by
  simp [State.abandonStream, h]

@[simp] theorem State.freeJobObjs_memWf (s : State) (j : Nat) (h : s.mem.wf = true) : (s.freeJobObjs j).mem.wf = true := by
  simp [State.freeJobObjs, h]

/-! ### The sequencer -/

@[simp] theorem State.endReport_memWf (s : State) (t : Nat) (h : s.mem.wf = true) : (s.endReport t).mem.wf = true := by
  simp only [State.endReport]
  repeat' split
  all_goals simp [h]

/-! ### `ISSUE` and command completion -/

@[simp] theorem State.issueTrace_mem (before s : State) (t eng : Nat) (e : QEntry) :
    (State.issueTrace before s t eng e).mem = s.mem := by
  simp [State.issueTrace]

@[simp] theorem State.issue_memWf (s : State) (t eng : Nat) (legal : Bool) (mk : Tile → QEntry) (h : s.mem.wf = true) :
    (s.issue t eng legal mk).mem.wf = true := by
  simp only [State.issue]
  repeat' split
  all_goals simp [h]

@[simp] theorem State.stallResume_memWf (s : State) (t : Nat) (h : s.mem.wf = true) : (s.stallResume t).mem.wf = true := by
  simp only [State.stallResume]
  repeat' split
  all_goals simp [h]

@[simp] theorem State.syncGo_memWf (s : State) (t : Nat) (h : s.mem.wf = true) : (s.syncGo t).mem.wf = true := by
  simp only [State.syncGo]
  repeat' split
  all_goals simp [h]

@[simp] theorem State.complete_memWf (s : State) (t eng i : Nat) (h : s.mem.wf = true) : (s.complete t eng i).mem.wf = true := by
  simp only [State.complete]
  repeat' split
  all_goals simp [h]

@[simp] theorem State.bellRowStep_memWf (s : State) (t eng : Nat) (h : s.mem.wf = true) : (s.bellRowStep t eng).mem.wf = true := by
  simp only [State.bellRowStep]
  repeat' split
  all_goals simp [h]

@[simp] theorem State.retry_memWf (s : State) (t eng i : Nat) (e : QEntry) (h : s.mem.wf = true) :
    (s.retry t eng i e).mem.wf = true := by
  simp only [State.retry]
  repeat' split
  all_goals simp [h]

/-! ### Keywork: objects, homes and migration -/

@[simp] theorem State.onKw_mem (s : State) (f : Kw → Kw) : (s.onKw f).mem = s.mem := by simp [State.onKw]

@[simp] theorem State.setObject_mem (s : State) (i : Nat) (o : Option Obj) : (s.setObject i o).mem = s.mem := by
  simp [State.setObject]

@[simp] theorem State.setTileSt_mem (s : State) (t : Nat) (x : TileSt) : (s.setTileSt t x).mem = s.mem := by simp [State.setTileSt]

@[simp] theorem State.setCore_mem (s : State) (c : Nat) (e : CoreEnt) : (s.setCore c e).mem = s.mem := by simp [State.setCore]

@[simp] theorem State.lateEvent_memWf (s : State) (e : Ev) (h : s.mem.wf = true) : (s.lateEvent e).mem.wf = true := by
  simp only [State.lateEvent]
  repeat' split
  all_goals simp [h]

@[simp] theorem State.initStep_memWf (s : State) (src n : Nat) (h : s.mem.wf = true) : (s.initStep src n).1.mem.wf = true := by
  simp only [State.initStep]
  repeat' split
  all_goals simp [h]

@[simp] theorem State.initNeed_memWf (s : State) (src n : Nat) (h : s.mem.wf = true) : (s.initNeed src n).1.mem.wf = true := by
  induction n generalizing s src with
  | zero => exact h
  | succ n ih =>
    rw [State.initNeed]
    split
    · rename_i he; exact ih _ _ (fst_memWf he (by simp [h]))
    · simp [h]

@[simp] theorem State.memGranule_mem (s : State) (a : Nat) : (s.memGranule a).mem = s.mem := by
  unfold State.memGranule
  split
  · split
    · rfl
    · exact foldl_mem _ _ _ (fun s j => by split <;> simp)
  · rfl

@[simp] theorem State.copyInit_memWf (s : State) (src dst : Nat) (h : s.mem.wf = true) : (s.copyInit src dst).mem.wf = true := by
  unfold State.copyInit
  dsimp only
  split
  · simp only [State.memGranule_mem]
    exact foldl_keeps (fun m : Mem => m.wf = true) _ (fun m e hm => Mem.wf_wr hm _ _) _ _ h
  · simp [h]

@[simp] theorem State.copyInitAll_memWf (s : State) (src dst n : Nat) (h : s.mem.wf = true) :
    (s.copyInitAll src dst n).mem.wf = true := by
  induction n generalizing s src dst with
  | zero => exact h
  | succ n ih => exact ih _ _ _ (State.copyInit_memWf s src dst h)

@[simp] theorem State.initFails_memWf (s : State) (z0 : Stop) (h : s.mem.wf = true) : (s.initFails z0).1.mem.wf = true := by
  simp only [State.initFails]
  repeat' split
  all_goals simp [h]

@[simp] theorem State.activate_memWf (s : State) (i : Nat) (e : ObjEntry) (h : s.mem.wf = true) : (s.activate i e).1.mem.wf = true := by
  unfold State.activate
  split
  · split
    · exact h
    · split
      · exact h
      · simp [h]
  · split
    · exact h
    · dsimp only
      split
      · exact h
      · split
        · simp [Mem.wf_clear h]
        · split
          · rename_i he; exact fst_memWf he (by simp [h])
          · rename_i he; simp [fst_memWf he (by simp [h])]
          · rename_i he
            have h1 := fst_memWf he (by simp [h])
            split <;> simp [Mem.wf_clear h1]

@[simp] theorem State.readEntry_mem (s : State) (i : Nat) (ws : List Word) : (s.readEntry i ws).mem = s.mem := by
  simp [State.readEntry]

@[simp] theorem State.dropImages_mem (s : State) (h : Nat) : (s.dropImages h).mem = s.mem := by simp [State.dropImages]

@[simp] theorem State.invalidateObj_mem (s : State) (o : Obj) : (s.invalidateObj o).mem = s.mem := by simp [State.invalidateObj]

@[simp] theorem State.abandonMigration_memWf (s : State) (i : Nat) (o : Obj) (h : s.mem.wf = true) :
    (s.abandonMigration i o).mem.wf = true := by
  simp only [State.abandonMigration]
  repeat' split
  all_goals simp [h]

@[simp] theorem State.releaseStep_mem (s : State) (i : Nat) : (s.releaseStep i).mem = s.mem := by
  simp only [State.releaseStep]
  repeat' split
  all_goals simp

@[simp] theorem State.release_memWf (s : State) (i : Nat) (h : s.mem.wf = true) : (s.release i).mem.wf = true := by
  simp only [State.release]
  repeat' split
  all_goals simp [h]

@[simp] theorem State.releaseJob_memWf (s : State) (j : Nat) (h : s.mem.wf = true) : (s.releaseJob j).mem.wf = true := by
  refine foldl_memWf _ _ (fun s i hs => ?_) h
  split
  · dsimp only; split <;> simp [hs]
  · exact hs

@[simp] theorem State.objFreed_memWf (s : State) (i : Nat) (h : s.mem.wf = true) : (s.objFreed i).mem.wf = true := by
  have h1 : (s.releaseStep i).mem.wf = true := by simp [h]
  unfold State.objFreed
  dsimp only
  split
  · exact h1
  · split
    · exact h1
    · simp [Mem.wf_clear h]

@[simp] theorem State.startMigration_mem (s : State) (i : Nat) (o : Obj) (target : Nat) (l : List Nat) :
    (s.startMigration i o target l).mem = s.mem := by
  simp only [State.startMigration]
  repeat' split
  all_goals simp

@[simp] theorem State.applyHint_mem (s : State) (i : Nat) (h : Nat × Nat) : (s.applyHint i h).mem = s.mem := by
  simp only [State.applyHint]
  repeat' split
  all_goals simp

@[simp] theorem State.applyHints_mem (s : State) (i : Nat) : (s.applyHints i).mem = s.mem := by
  simp only [State.applyHints]
  repeat' split
  all_goals simp [foldl_mem]

@[simp] theorem State.evaluate_mem (s : State) (i : Nat) : (s.evaluate i).mem = s.mem := by
  simp only [State.evaluate]
  repeat' split
  all_goals simp

@[simp] theorem State.boundaryMigration_memWf (s : State) (i : Nat) (h : s.mem.wf = true) :
    (s.boundaryMigration i).mem.wf = true := by
  simp only [State.boundaryMigration]
  repeat' split
  all_goals simp [h]

@[simp] theorem State.kwPending_mem (s : State) : (s.kwPending).mem = s.mem := by
  simp only [State.kwPending]
  repeat' split
  all_goals simp

@[simp] theorem State.closeObjEpoch_mem (s : State) (reports : List (Nat × Nat × Nat)) (i : Nat) :
    (s.closeObjEpoch reports i).mem = s.mem := by
  simp only [State.closeObjEpoch]
  repeat' split
  all_goals simp

@[simp] theorem State.closeExt_mem (s : State) : (s.closeExt).mem = s.mem := by simp [State.closeExt]

@[simp] theorem State.epochBoundary_memWf (s : State) (reports : List (Nat × Nat × Nat)) (h : s.mem.wf = true) :
    (s.epochBoundary reports).mem.wf = true := by
  unfold State.epochBoundary
  split
  · exact h
  · refine foldl_memWf _ _ (fun s i hs => by simp [hs]) ?_
    refine foldl_memWf _ _ (fun s i hs => by simp [hs]) ?_
    refine foldl_memWf _ _ (fun s i => State.boundaryMigration_memWf s i) ?_
    have h1 : (s.kw.objs.keys.foldl (fun s i => s.closeObjEpoch reports i) s).mem.wf = true :=
      foldl_memWf _ _ (fun s i hs => by simp [hs]) h
    simp [h1]

@[simp] theorem State.migrationCopied_mem (s : State) (i : Nat) : (s.migrationCopied i).mem = s.mem := by
  simp only [State.migrationCopied]
  repeat' split
  all_goals simp

@[simp] theorem State.moveGranules_memWf (s : State) (pbase i : Nat) (l : List (Nat × Nat)) (h : s.mem.wf = true) :
    (s.moveGranules pbase i l).mem.wf = true := by
  induction l generalizing s i with
  | nil => exact h
  | cons x r ih =>
    rw [State.moveGranules]
    refine ih _ _ ?_
    split
    · exact Mem.wf_clear h _ _
    · split
      · simp only [Mem.wf_wrBytes (Mem.wf_clear h _ _)]
      · exact h

@[simp] theorem State.migrationSwitched_memWf (s : State) (i : Nat) (h : s.mem.wf = true) :
    (s.migrationSwitched i).mem.wf = true := by
  simp only [State.migrationSwitched]
  repeat' split
  all_goals simp [h]

@[simp] theorem State.translationMiss_memWf (s : State) (addr : Nat) (h : s.mem.wf = true) :
    (s.translationMiss addr).mem.wf = true := by
  simp only [State.translationMiss]
  repeat' split
  all_goals simp [h]

@[simp] theorem State.admitFor_memWf (s : State) (core old : Nat) (h : s.mem.wf = true) : (s.admitFor core old).mem.wf = true := by
  simp only [State.admitFor]
  repeat' split
  all_goals simp [h]

@[simp] theorem State.mapFence_memWf (s : State) (t : Nat) (h : s.mem.wf = true) : (s.mapFence t).mem.wf = true := by
  simp only [State.mapFence]
  repeat' split
  all_goals simp [h]

@[simp] theorem State.spareDone_memWf (s : State) (sp : Nat) (ok : Bool) (h : s.mem.wf = true) :
    (s.spareDone sp ok).mem.wf = true := by
  simp only [State.spareDone]
  repeat' split
  all_goals simp [h]

@[simp] theorem State.buildMap_mem (s : State) (pass spareSet : Nat) : (s.buildMap pass spareSet).mem = s.mem := by
  simp [State.buildMap, foldl_mem]

@[simp] theorem State.initPast_mem (s : State) (i : Nat) : (s.initPast i).mem = s.mem := by simp [State.initPast]

@[simp] theorem State.initFailed_memWf (s : State) (i cause : Nat) (e : ObjEntry) (h : s.mem.wf = true) :
    (s.initFailed i cause e).mem.wf = true := by
  simp [State.initFailed, h]

@[simp] theorem State.activateFrom_memWf (s : State) (l : List (Nat × List Word)) (h : s.mem.wf = true) :
    (s.activateFrom l).1.mem.wf = true := by
  induction l generalizing s with
  | nil => exact h
  | cons x r ih =>
    obtain ⟨i, ws⟩ := x
    rw [State.activateFrom]
    split
    · exact ih s h
    · split
      · rename_i he; exact fst_memWf he (by simp [h])
      · rename_i he; exact ih _ (by simp [fst_memWf he (by simp [h])])
      · rename_i he; exact ih _ (by simp [fst_memWf he (by simp [h])])

@[simp] theorem State.kwLatch_mem (s : State) : (s.kwLatch).mem = s.mem := by simp [State.kwLatch]

/-! ### Program start, yield and context save -/

@[simp] theorem State.qmRefuse_memWf (s : State) (e : Ev) (addr reason : Nat) (h : s.mem.wf = true) :
    (s.qmRefuse e addr reason).mem.wf = true := by
  simp only [State.qmRefuse]
  repeat' split
  all_goals simp [h]

@[simp] theorem State.sealTile_memWf (s : State) (t ans : Nat) (h : s.mem.wf = true) : (s.sealTile t ans).mem.wf = true := by
  simp [State.sealTile, h]

@[simp] theorem State.framesGone_mem (s : State) (t : Nat) : (s.framesGone t).mem = s.mem := by simp [State.framesGone]

@[simp] theorem State.muteScrubDone_mem (s : State) (t : Nat) (ok : Bool) : (s.muteScrubDone t ok).mem = s.mem := by
  simp [State.muteScrubDone]

@[simp] theorem State.progDenied_memWf (s : State) (uid reason : Nat) (h : s.mem.wf = true) :
    (s.progDenied uid reason).mem.wf = true := by
  simp only [State.progDenied]
  repeat' split
  all_goals simp [h]

@[simp] theorem State.needImage_memWf (s : State) (t : Nat) (h : s.mem.wf = true) : (s.needImage t).1.mem.wf = true := by
  simp only [State.needImage]
  repeat' split
  all_goals simp [h]

@[simp] theorem State.needArgs_memWf (s : State) (t : Nat) (h : s.mem.wf = true) : (s.needArgs t).1.mem.wf = true := by
  simp [State.needArgs, h]

@[simp] theorem State.loadImage_mem (s : State) (t : Nat) : (s.loadImage t).mem = s.mem := by simp [State.loadImage]

@[simp] theorem State.noteStart_mem (s : State) (uid : Nat) : (s.noteStart uid).mem = s.mem := by
  simp only [State.noteStart]
  repeat' split
  all_goals simp

@[simp] theorem State.startRun_mem (s : State) (t : Nat) (d : Desc) : (s.startRun t d).mem = s.mem := by simp [State.startRun]

@[simp] theorem State.startFetched_memWf (s : State) (t : Nat) (d : Desc) (h : s.mem.wf = true) :
    (s.startFetched t d).mem.wf = true := by
  unfold State.startFetched
  rcases he : s.needImage t with ⟨s1, p⟩
  have h1 := fst_memWf he (by simp [h])
  rcases he' : s1.needArgs t with ⟨s2, q⟩
  have h2 := fst_memWf he' (by simp [h1])
  cases p with
  | stop r => simp [h1]
  | wait => cases q <;> simp [he', h2]
  | ok a => cases q <;> simp [he', h2]

@[simp] theorem State.programStart_memWf (s : State) (t : Nat) (h : s.mem.wf = true) : (s.programStart t).mem.wf = true := by
  simp only [State.programStart]
  repeat' split
  all_goals simp [h]

@[simp] theorem State.settleYield_mem (s : State) (uid : Nat) : (s.settleYield uid).mem = s.mem := by
  simp only [State.settleYield]
  repeat' split
  all_goals simp

@[simp] theorem State.discardContext_memWf (s : State) (t : Nat) (h : s.mem.wf = true) : (s.discardContext t).mem.wf = true := by
  simp only [State.discardContext]
  repeat' split
  all_goals simp [h]

@[simp] theorem State.writeFrame_memWf (s : State) (x : Stream) (member : Nat) (spad : Option Spad) (h : s.mem.wf = true) :
    (s.writeFrame x member spad).mem.wf = true :=
  foldl_memWf _ _ (fun s _ hs => State.wrPkg_memWf s _ _ _ hs) h

@[simp] theorem State.saveContext_memWf (s : State) (t : Nat) (phase : Phase) (h : s.mem.wf = true) :
    (s.saveContext t phase).mem.wf = true := by
  unfold State.saveContext
  split
  · exact h
  · split
    · exact h
    · extract_lets q a r s1 q1 held _ _ _ kept f s2 _ s3
      split
      · simp [h]
      · have h2 : s2.mem.wf = true := by simp [s2, s1, h]
        simp [s3, h2]

@[simp] theorem State.yield_memWf (s : State) (t job : Nat) (h : s.mem.wf = true) : (s.yield t job).mem.wf = true := by
  simp only [State.yield]
  repeat' split
  all_goals simp [h]

/-! ### The Queue Manager: tables and doorbells -/

@[simp] theorem State.tableRefuse_memWf (s : State) (addr reason : Nat) (h : s.mem.wf = true) :
    (s.tableRefuse addr reason).mem.wf = true := by
  simp [State.tableRefuse, h]

@[simp] theorem State.tableStop_memWf (s : State) (r : Stop) (h : s.mem.wf = true) : (s.tableStop r).mem.wf = true := by
  simp only [State.tableStop]
  repeat' split
  all_goals simp [h]

@[simp] theorem State.qmNeed_memWf (s : State) (agent j : Nat) (hostOk : Bool) (addr len : Nat) (h : s.mem.wf = true) :
    (s.qmNeed agent j hostOk addr len).1.mem.wf = true := by
  simp [State.qmNeed, h]

@[simp] theorem State.wrTable_memWf (s : State) (addr : Nat) (bs : List Byte) (h : s.mem.wf = true) :
    (s.wrTable addr bs).mem.wf = true := by
  simp only [State.wrTable]
  repeat' split
  all_goals simp [h]

@[simp] theorem State.writeRing_memWf (s : State) (x : Stream) (h : s.mem.wf = true) : (s.writeRing x).mem.wf = true := by
  simp only [State.writeRing]
  repeat' split
  all_goals simp [h]

@[simp] theorem State.writeBack_memWf (s : State) (k : Nat) (h : s.mem.wf = true) : (s.writeBack k).mem.wf = true := by
  simp only [State.writeBack]
  repeat' split
  all_goals simp [h]

@[simp] theorem State.writeJob_memWf (s : State) (j : Nat) (h : s.mem.wf = true) : (s.writeJob j).mem.wf = true := by
  simp only [State.writeJob]
  repeat' split
  all_goals simp [h]

@[simp] theorem State.onRing_mem (s : State) (rid : Nat) (f : Ring → Ring) : (s.onRing rid f).mem = s.mem := by
  simp only [State.onRing]
  repeat' split
  all_goals simp

@[simp] theorem State.rewind_mem (s : State) (k : Nat) : (s.rewind k).mem = s.mem := by
  simp only [State.rewind]
  repeat' split
  all_goals simp

@[simp] theorem State.startRejected_mem (s : State) (k : Nat) : (s.startRejected k).mem = s.mem := by
  simp only [State.startRejected]
  repeat' split
  all_goals simp

@[simp] theorem State.settle_memWf (s : State) (k : Nat) (h : s.mem.wf = true) : (s.settle k).mem.wf = true := by
  simp only [State.settle]
  repeat' split
  all_goals simp [h]

@[simp] theorem State.exact_memWf (s : State) (k : Nat) (h : s.mem.wf = true) : (s.exact k).mem.wf = true := by
  simp only [State.exact]
  repeat' split
  all_goals simp [h]

@[simp] theorem State.quiesce_memWf (s : State) (h : s.mem.wf = true) : s.quiesce.mem.wf = true := by
  unfold State.quiesce
  split
  · exact h
  · exact foldl_memWf _ _ (fun s k hs => State.writeBack_memWf s k hs) h

@[simp] theorem State.yieldTile_memWf (s : State) (t job : Nat) (h : s.mem.wf = true) : (s.yieldTile t job).mem.wf = true := by
  simp [State.yieldTile, h]

@[simp] theorem State.streamNeed_memWf (s : State) (ag sid : Nat) (h : s.mem.wf = true) :
    (s.streamNeed ag sid).1.mem.wf = true := by
  simp [State.streamNeed, h]

@[simp] theorem State.jobNeed_memWf (s : State) (ag j : Nat) (h : s.mem.wf = true) : (s.jobNeed ag j).1.mem.wf = true := by
  simp [State.jobNeed, h]

@[simp] theorem State.entriesNeed_memWf (s : State) (ag rid : Nat) (h : s.mem.wf = true) :
    (s.entriesNeed ag rid).1.mem.wf = true :=
  State.entriesNeed_ind (P := fun s => s.mem.wf = true) h (fun s ag j b a n => State.qmNeed_memWf s ag j b a n)

@[simp] theorem State.entriesRead_mem (s : State) (rid sid job : Nat) : (s.entriesRead rid sid job).mem = s.mem := by
  simp [State.entriesRead]

@[simp] theorem State.takeEntries_mem (ag rid : Nat) (s : State) : (State.takeEntries ag rid s).1.mem = s.mem := by
  simp [State.takeEntries]

@[simp] theorem State.readEntries_memWf (s : State) (rid : Nat) (h : s.mem.wf = true) : (s.readEntries rid).1.mem.wf = true :=
  tableRead_ind (P := fun s => s.mem.wf = true) (State.entriesNeed_memWf s _ _ h) (fun s x hs => by simp [hs])
    (fun s hs => by simp [hs])

@[simp] theorem State.keepEntries_mem (s : State) (rid : Nat) (e : Entries) : (s.keepEntries rid e).mem = s.mem := by
  simp [State.keepEntries]

@[simp] theorem State.dropBell_memWf (s : State) (p v case : Nat) (e : Option Entries) (h : s.mem.wf = true) :
    (s.dropBell p v case e).mem.wf = true := by
  simp only [State.dropBell]
  repeat' split
  all_goals simp [h]

@[simp] theorem State.bellCases_memWf (s : State) (p v : Nat) (again running : Bool) (e : Entries) (h : s.mem.wf = true) :
    (s.bellCases p v again running e).mem.wf = true := by
  simp only [State.bellCases]
  repeat' split
  all_goals simp [h]

@[simp] theorem State.ringBell_memWf (s : State) (p v : Nat) (h : s.mem.wf = true) : (s.ringBell p v).1.mem.wf = true := by
  unfold State.ringBell
  extract_lets rid again running
  split
  · exact h
  · split
    · split
      all_goals rename_i he; simp [fst_memWf he (by simp [h])]
    · split <;> simp [h]

@[simp] theorem State.eventBell_memWf (s : State) (p v : Nat) (h : s.mem.wf = true) : (s.eventBell p v).mem.wf = true := by
  simp only [State.eventBell]
  repeat' split
  all_goals simp [h]

@[simp] theorem State.windowWrite_memWf (s : State) (p : Nat) (k : Packet) (h : s.mem.wf = true) :
    (s.windowWrite p k).mem.wf = true := by
  simp only [State.windowWrite]
  repeat' split
  all_goals simp [h]

@[simp] theorem State.bootReadyEvent_memWf (s : State) (h : s.mem.wf = true) : (s.bootReadyEvent).mem.wf = true := by
  simp only [State.bootReadyEvent]
  repeat' split
  all_goals simp [h]

@[simp] theorem State.earlyEvents_memWf (s : State) (h : s.mem.wf = true) : s.earlyEvents.mem.wf = true :=
  foldl_memWf _ _ (fun s e => State.event_memWf s e) h

@[simp] theorem State.qmCtrl_memWf (s : State) (v : Word) (h : s.mem.wf = true) : (s.qmCtrl v).mem.wf = true := by
  unfold State.qmCtrl
  extract_lets on s1 s2 _ s3
  have h1 : s1.mem.wf = true := by simp [s1, h]
  have h2 : s2.mem.wf = true := by unfold s2; split <;> simp [h1]
  have h3 : s3.mem.wf = true := by unfold s3; split <;> exact h2
  split <;> simp [h3]

@[simp] theorem State.notify_memWf (s : State) (h : s.mem.wf = true) : s.notify.mem.wf = true := by
  unfold State.notify
  extract_lets due a r _ s1
  have h1 : s1.mem.wf = true := h
  clear_value s1
  refine ite_memWf h (ite_memWf (by simp [h1]) ?_)
  exact State.wrPkg_withQm_memWf s1 _ _ _ h1

/-! ### The Queue Manager: descriptors under way -/

@[simp] theorem State.readGroup_mem (s : State) (d : Desc) (grp : BitVec 64) : (s.readGroup d grp).mem = s.mem := by
  simp only [State.readGroup]
  repeat' split
  all_goals simp

@[simp] theorem State.ringStop_memWf (s : State) (k : Nat) (e : Ev) (r : Stop) (h : s.mem.wf = true) :
    (s.ringStop k e r).mem.wf = true := by
  simp only [State.ringStop]
  repeat' split
  all_goals simp [h]

@[simp] theorem State.takeDesc_memWf (s : State) (k : Nat) (x : Stream) (log2 : Nat) (ws : List Word) (grp : BitVec 64) (h :
    s.mem.wf = true) :
    (s.takeDesc k x log2 ws grp).mem.wf = true := by
  simp only [State.takeDesc]
  repeat' split
  all_goals simp [h]

@[simp] theorem State.descFetch_memWf (s : State) (k : Nat) (grp : BitVec 64) (h : s.mem.wf = true) :
    (s.descFetch k grp).mem.wf = true := by
  unfold State.descFetch
  split
  · exact h
  · split
    · exact h
    · split
      · exact h
      · extract_lets a ag
        split
        all_goals
          rename_i he
          have h1 := fst_memWf he (by simp [h])
          simp [h1]

@[simp] theorem State.startDesc_memWf (s : State) (d : Desc) (h : s.mem.wf = true) : (s.startDesc d).mem.wf = true := by
  simp [State.startDesc, h]

@[simp] theorem State.dispatchOver_memWf (s : State) (l : List Nat) (h : s.mem.wf = true) : (s.dispatchOver l).mem.wf = true := by
  induction l with
  | nil => exact h
  | cons k ks ih =>
    rw [State.dispatchOver]
    split
    · exact ih
    · split
      · exact ih
      · simp [h]
      · simp [h]
      · exact foldl_memWf _ _ (fun s t => State.yieldTile_memWf s t _) h

@[simp] theorem State.dispatch_memWf (s : State) (h : s.mem.wf = true) : (s.dispatch).mem.wf = true := by simp [State.dispatch, h]

@[simp] theorem State.conclude_memWf (s : State) (uid st cause tile : Nat) (h : s.mem.wf = true) :
    (s.conclude uid st cause tile).mem.wf = true := by
  simp [State.conclude, h]

@[simp] theorem State.stopDesc_memWf (s : State) (d : Desc) (r : Stop) (h : s.mem.wf = true) : (s.stopDesc d r).mem.wf = true := by
  simp only [State.stopDesc]
  repeat' split
  all_goals simp [h]

@[simp] theorem State.compute_memWf (s : State) (uid : Nat) (h : s.mem.wf = true) : (s.compute uid).mem.wf = true := by
  unfold State.compute
  split
  · exact h
  · split
    · exact h
    · split
      · simp [h]
      · split
        · exact h
        · exact foldl_memWf _ _ (fun s p hs => by simp [hs]) (by simp [h])

@[simp] theorem State.putXfer_mem (s : State) (uid : Nat) (e : QEntry) : (s.putXfer uid e).mem = s.mem := by simp [State.putXfer]

@[simp] theorem State.copyBegin_memWf (s : State) (d : Desc) (h : s.mem.wf = true) : (s.copyBegin d).mem.wf = true := by
  simp only [State.copyBegin]
  repeat' split
  all_goals simp [h]

@[simp] theorem State.copyLetGo_mem (s : State) (d : Desc) : (s.copyLetGo d).mem = s.mem := by simp [State.copyLetGo]

@[simp] theorem State.copyEnd_memWf (s : State) (d : Desc) (h : s.mem.wf = true) : (s.copyEnd d).mem.wf = true := by
  unfold State.copyEnd
  extract_lets s1
  have h1 : s1.mem.wf = true := by
    refine ite_memWf (foldl_memWf _ _ (fun s r hs => ?_) h) h
    split
    · exact ite_memWf (by simp [hs]) hs
    · exact hs
  simp [h1]

@[simp] theorem State.copyStep_memWf (s : State) (uid : Nat) (h : s.mem.wf = true) : (s.copyStep uid).mem.wf = true := by
  unfold State.copyStep
  split
  · exact h
  · split
    · exact h
    · split
      · simp [h]
      · split
        · simp [h]
        · split
          · exact h
          · extract_lets x g
            split
            · exact h
            · split
              rename_i s1 e1 he
              have h1 : s1.mem.wf = true := fst_memWf he (by split <;> simp [h])
              split
              rename_i s2 e2 r he
              have h2 := fst_memWf he (by simp [h1])
              extract_lets e3 s3 s4
              have h4 : s4.mem.wf = true := by unfold s4; split <;> simp [s3, h2]
              split
              · simp [h4]
              · split <;> simp [h4]

@[simp] theorem State.syncDesc_memWf (s : State) (uid sop : Nat) (h : s.mem.wf = true) : (s.syncDesc uid sop).mem.wf = true := by
  simp only [State.syncDesc]
  repeat' split
  all_goals simp [h]

@[simp] theorem State.syncDescEnd_memWf (s : State) (uid o : Nat) (h : s.mem.wf = true) : (s.syncDescEnd uid o).mem.wf = true := by
  simp only [State.syncDescEnd]
  repeat' split
  all_goals simp [h]

@[simp] theorem State.deferEnd_memWf (s : State) (uid i o : Nat) (h : s.mem.wf = true) : (s.deferEnd uid i o).mem.wf = true := by
  simp only [State.deferEnd]
  repeat' split
  all_goals simp [h]

@[simp] theorem State.placeBegun_mem (s : State) (uid : Nat) : (s.placeBegun uid).mem = s.mem := by simp [State.placeBegun]

@[simp] theorem State.placeHint_memWf (s : State) (uid hint operand : Nat) (h : s.mem.wf = true) :
    (s.placeHint uid hint operand).mem.wf = true := by
  simp only [State.placeHint]
  repeat' split
  all_goals simp [h]

@[simp] theorem State.placeActivate_memWf (s : State) (uid : Nat) (entry : List Word) (h : s.mem.wf = true) :
    (s.placeActivate uid entry).mem.wf = true := by
  unfold State.placeActivate
  split
  · exact h
  · extract_lets s1 hd e
    have h1 : s1.mem.wf = true := by simp [s1, h]
    split
    · simp [h1]
    · split
      · simp [h1]
      · split
        all_goals rename_i he; simp [fst_memWf he (by simp [h1])]

@[simp] theorem State.placeReleased_memWf (s : State) (uid i : Nat) (h : s.mem.wf = true) :
    (s.placeReleased uid i).mem.wf = true := by
  simp only [State.placeReleased]
  repeat' split
  all_goals simp [h]

@[simp] theorem State.placeRelease_memWf (s : State) (uid : Nat) (h : s.mem.wf = true) : (s.placeRelease uid).mem.wf = true := by
  simp only [State.placeRelease]
  repeat' split
  all_goals simp [h]

@[simp] theorem State.reedStored_memWf (s : State) (uid : Nat) (e : QEntry) (h : s.mem.wf = true) :
    (s.reedStored uid e).mem.wf = true := by
  simp only [State.reedStored]
  repeat' split
  all_goals simp [h]

@[simp] theorem State.reedSave_memWf (s : State) (d : Desc) (a b : Nat) (img : List Byte × List Byte) (p q : Piece Unit)
    (h : s.mem.wf = true) : (s.reedSave d a b img p q).mem.wf = true := by
  cases p with
  | stop r => simp [State.reedSave, h]
  | wait => cases q <;> simp [State.reedSave, h]
  | ok u =>
    cases q with
    | stop r => simp [State.reedSave, h]
    | wait => exact h
    | ok v => exact State.reedStored_memWf _ _ _ (State.wrPkgAs_memWf _ _ _ _ _ _ (State.wrPkgAs_memWf s _ _ _ _ _ h))

@[simp] theorem State.reedSpill_memWf (s : State) (uid : Nat) (h : s.mem.wf = true) : (s.reedSpill uid).mem.wf = true := by
  simp only [State.reedSpill]
  repeat' split
  all_goals simp [h]

@[simp] theorem State.reedTake_memWf (s : State) (d : Desc) (t : Nat) (z0 : Piece (List Byte)) (h : s.mem.wf = true) :
    (s.reedTake d t z0).mem.wf = true := by
  simp only [State.reedTake]
  repeat' split
  all_goals simp [h]

@[simp] theorem State.reedFill_memWf (s : State) (uid : Nat) (h : s.mem.wf = true) : (s.reedFill uid).mem.wf = true := by
  simp only [State.reedFill]
  repeat' split
  all_goals simp [h]

/-! ### The Queue Manager: completion, kill and reset -/

@[simp] theorem State.abandonTile_memWf (s : State) (t : Nat) (h : s.mem.wf = true) : (s.abandonTile t).mem.wf = true := by
  simp [State.abandonTile, h]

@[simp] theorem State.dropFrames_mem (s : State) (d : Desc) : (s.dropFrames d).mem = s.mem := by simp [State.dropFrames]

@[simp] theorem State.dropLogs_mem (s : State) (uid : Nat) : (s.dropLogs uid).mem = s.mem := by simp [State.dropLogs]

@[simp] theorem State.abandonFor_memWf (s : State) (d : Desc) (t : Nat) (h : s.mem.wf = true) :
    (s.abandonFor d t).mem.wf = true := by
  simp only [State.abandonFor]
  repeat' split
  all_goals simp [h]

@[simp] theorem State.abandonMembers_memWf (s : State) (d : Desc) (h : s.mem.wf = true) : (s.abandonMembers d).mem.wf = true :=
  foldl_memWf _ _ (fun s t => State.abandonFor_memWf s d t) h

@[simp] theorem State.stopWork_memWf (s : State) (d : Desc) (h : s.mem.wf = true) : (s.stopWork d).mem.wf = true := by
  simp [State.stopWork, h]

@[simp] theorem State.stashStop_memWf (s : State) (e : Ev) (r : Stop) (h : s.mem.wf = true) : (s.stashStop e r).mem.wf = true := by
  simp only [State.stashStop]
  repeat' split
  all_goals simp [h]

@[simp] theorem State.freeRecord_memWf (s : State) (ag job a : Nat) (c : Scb) (id st : Nat) (h : s.mem.wf = true) :
    (s.freeRecord ag job a c id st).mem.wf = true := by
  unfold State.freeRecord
  extract_lets ent e recs x s1
  have h1 : s1.mem.wf = true := by simp [s1, h]
  simp [h1]

@[simp] theorem State.stashFree_memWf (s : State) (d : Desc) (id st : Nat) (writing : Bool) (h : s.mem.wf = true) :
    (s.stashFree d id st writing).1.mem.wf = true := by
  unfold State.stashFree
  extract_lets ag job a _ g
  split
  · exact h
  · split
    · rename_i he; exact fst_memWf he (by simp [h])
    · rename_i he; simp [fst_memWf he (by simp [h])]
    · rename_i he
      have h1 := fst_memWf he (by simp [h])
      extract_lets c
      split
      · rename_i he; exact fst_memWf he (by simp [h1])
      · rename_i he; simp [fst_memWf he (by simp [h1])]
      · rename_i he
        have h2 := fst_memWf he (by simp [h1])
        split <;> simp [h2]

@[simp] theorem State.stashFreeAll_memWf (s : State) (d : Desc) (st : Nat) (writing : Bool) (l : List Nat) (h : s.mem.wf = true) :
    (s.stashFreeAll d st writing l).1.mem.wf = true := by
  induction l generalizing s with
  | nil => exact h
  | cons id ids ih =>
    rw [State.stashFreeAll]
    split
    · rename_i he; exact ih _ (fst_memWf he (by simp [h]))
    · rename_i he; exact fst_memWf he (by simp [h])

@[simp] theorem State.killSettle_memWf (s : State) (j : Nat) (h : s.mem.wf = true) : (s.killSettle j).mem.wf = true := by
  simp only [State.killSettle]
  repeat' split
  all_goals simp [h]

@[simp] theorem State.forget_mem (s : State) (d : Desc) : (s.forget d).mem = s.mem := by simp [State.forget]

@[simp] theorem State.recordStop_memWf (s : State) (d : Desc) (r : Stop) (h : s.mem.wf = true) :
    (s.recordStop d r).mem.wf = true := by
  simp [State.recordStop, h]

@[simp] theorem State.recordPut_memWf (s : State) (d : Desc) (x : Stream) (job : Nat) (bs : List Byte) (h : s.mem.wf = true) :
    (s.recordPut d x job bs).mem.wf = true := by
  simp only [State.recordPut]
  repeat' split
  all_goals simp [h]

@[simp] theorem State.record_memWf (s : State) (d : Desc) (h : s.mem.wf = true) : (s.record d).mem.wf = true := by
  unfold State.record
  split
  · simp [h]
  · extract_lets bs _ put
    have hput : ∀ s1, put = some s1 → s1.mem.wf = true := by
      intro s1 he
      unfold put at he
      split at he
      · cases he
      · cases he; simp [h]
      · cases he; simp [h]
    clear_value put
    split
    · exact h
    · rename_i s1
      have h1 := hput s1 rfl
      extract_lets s2
      have h2 : s2.mem.wf = true := by unfold s2; split <;> simp [h1]
      have h3 : (((s2.forget d).settle d.stream).exact d.stream).mem.wf = true := by simp [h2]
      simp [h3]

@[simp] theorem State.sendDeferred_memWf (s : State) (d : Desc) (h : s.mem.wf = true) : (s.sendDeferred d).mem.wf = true := by
  unfold State.sendDeferred
  extract_lets order s1
  refine foldl_memWf _ _ (fun s p hs => ?_) (by simp [s1, h])
  extract_lets src
  split
  rename_i he
  have h1 := fst_memWf he (by simp [hs])
  split <;> simp [h1]

@[simp] theorem State.clearMembers_mem (s : State) (d : Desc) : (s.clearMembers d).mem = s.mem := by
  simp [State.clearMembers, foldl_mem]

@[simp] theorem State.finish_memWf (s : State) (d : Desc) (h : s.mem.wf = true) : (s.finish d).mem.wf = true := by
  simp only [State.finish]
  repeat' split
  all_goals simp [h]

@[simp] theorem State.recordIf_memWf (s : State) (uid : Nat) (h : s.mem.wf = true) : (s.recordIf uid).mem.wf = true := by
  simp only [State.recordIf]
  repeat' split
  all_goals simp [h]

@[simp] theorem State.finishNow_memWf (s : State) (uid : Nat) (h : s.mem.wf = true) : (s.finishNow uid).mem.wf = true := by
  simp only [State.finishNow]
  repeat' split
  all_goals simp [h]

@[simp] theorem State.descComplete_memWf (s : State) (uid : Nat) (h : s.mem.wf = true) : (s.descComplete uid).mem.wf = true := by
  simp only [State.descComplete]
  repeat' split
  all_goals simp [h]

@[simp] theorem State.needMember_memWf (s : State) (d : Desc) (x : Stream) (m : Nat) (f : Frame) (h : s.mem.wf = true) :
    (s.needMember d x m f).1.mem.wf = true := by
  unfold State.needMember
  extract_lets g a t z
  split
  · rename_i he
    have h1 := fst_memWf he (by simp [h])
    split
    · rename_i he
      have h2 := fst_memWf he (by split <;> simp [h1])
      split <;> simp [h2]
    · split <;> simp [h1]
  · simp [h]

@[simp] theorem State.needMembers_memWf (s : State) (d : Desc) (x : Stream) (l : List (Nat × Frame)) (h : s.mem.wf = true) :
    (s.needMembers d x l).1.mem.wf = true := by
  induction l generalizing s with
  | nil => exact h
  | cons p fs ih =>
    obtain ⟨m, f⟩ := p
    rw [State.needMembers]
    split
    · rename_i he; exact ih _ (fst_memWf he (by simp [h]))
    · simp [h]

@[simp] theorem State.restoreMember_mem (s : State) (d : Desc) (x : Stream) (m : Nat) (f : Frame) :
    (s.restoreMember d x m f).mem = s.mem := by
  simp [State.restoreMember]

@[simp] theorem State.restoreAll_mem (s : State) (d : Desc) (x : Stream) (fs : List (Nat × Frame)) :
    (s.restoreAll d x fs).mem = s.mem := by
  simp [State.restoreAll, foldl_mem]

@[simp] theorem State.restartDesc_memWf (s : State) (d : Desc) (h : s.mem.wf = true) : (s.restartDesc d).mem.wf = true := by
  simp [State.restartDesc, h]

@[simp] theorem State.resumeFrames_memWf (s : State) (d : Desc) (x : Stream) (ok : Bool) (fs : List (Nat × Frame))
    (h : s.mem.wf = true) : (s.resumeFrames d x ok fs).mem.wf = true := by
  unfold State.resumeFrames
  split
  · exact h
  · split
    · rename_i he; exact fst_memWf he (by simp [h])
    · rename_i he; simp [fst_memWf he (by simp [h])]
    · rename_i he
      have h1 := fst_memWf he (by simp [h])
      split <;> simp [h1]

@[simp] theorem State.descResume_memWf (s : State) (uid : Nat) (ok : Bool) (h : s.mem.wf = true) :
    (s.descResume uid ok).mem.wf = true := by
  unfold State.descResume
  split
  · exact h
  · split
    · exact h
    · extract_lets fs of other
      split
      · exact h
      · split
        · simp [h]
        · split
          · exact foldl_memWf _ _ (fun s p hs => by simp [hs]) h
          · split
            · exact h
            · split <;> simp [h]

@[simp] theorem State.timeout_memWf (s : State) (uid : Nat) (h : s.mem.wf = true) : (s.timeout uid).mem.wf = true := by
  simp only [State.timeout]
  repeat' split
  all_goals simp [h]

@[simp] theorem State.killDesc_memWf (s : State) (d : Desc) (st cause : Nat) (h : s.mem.wf = true) :
    (s.killDesc d st cause).mem.wf = true := by
  simp [State.killDesc, h]

@[simp] theorem State.resetStream_memWf (s : State) (k : Nat) (h : s.mem.wf = true) : (s.resetStream k).mem.wf = true := by
  simp [State.resetStream, h]

@[simp] theorem State.killTile_memWf (s : State) (t j : Nat) (retain : Bool) (h : s.mem.wf = true) :
    (s.killTile t j retain).mem.wf = true := by
  simp only [State.killTile]
  repeat' split
  all_goals simp [h]

@[simp] theorem State.beginKill_memWf (s : State) (uid j : Nat) (x : Job) (cores : Nat) (h : s.mem.wf = true) :
    (s.beginKill uid j x cores).mem.wf = true := by
  simp [State.beginKill, h]

@[simp] theorem State.killDescs_memWf (s : State) (uid j : Nat) (h : s.mem.wf = true) : (s.killDescs uid j).mem.wf = true :=
  foldl_memWf _ _ (fun s d hs => by simp [hs]) h

@[simp] theorem State.dropReeds_mem (s : State) (j : Nat) : (s.dropReeds j).mem = s.mem := by simp [State.dropReeds]

@[simp] theorem State.stopStreams_memWf (s : State) (j : Nat) (h : s.mem.wf = true) : (s.stopStreams j).mem.wf = true :=
  foldl_memWf _ _ (fun s e hs => by simp [hs]) h

@[simp] theorem State.killJob_memWf (s : State) (uid j : Nat) (x : Job) (h : s.mem.wf = true) :
    (s.killJob uid j x).mem.wf = true := by
  unfold State.killJob
  extract_lets cores
  have h1 : ((s.beginKill uid j x cores.length).killDescs uid j).mem.wf = true := by simp [h]
  have h2 := foldl_memWf cores (fun s t => s.killTile t j (x.retain && s.sec.life == .development)) (fun s t hs => by simp [hs]) h1
  simp [h2]

@[simp] theorem State.takeJob_mem (ag j : Nat) (s : State) : (State.takeJob ag j s).1.mem = s.mem := by simp [State.takeJob]

@[simp] theorem State.takeStream_mem (ag k : Nat) (s : State) : (State.takeStream ag k s).1.mem = s.mem := by
  simp [State.takeStream]

@[simp] theorem State.targetJob_memWf (s : State) (uid j : Nat) (h : s.mem.wf = true) : (s.targetJob uid j).1.mem.wf = true := by
  unfold State.targetJob
  split
  · exact h
  · exact tableRead_ind (P := fun s => s.mem.wf = true) (State.jobNeed_memWf s _ _ h) (fun s x hs => by simp [hs])
      (fun s hs => by simp [hs])

@[simp] theorem State.targetStream_memWf (s : State) (uid k : Nat) (h : s.mem.wf = true) :
    (s.targetStream uid k).1.mem.wf = true := by
  unfold State.targetStream
  split
  · exact h
  · exact tableRead_ind (P := fun s => s.mem.wf = true) (State.streamNeed_memWf s _ _ h) (fun s x hs => by simp [hs])
      (fun s hs => by simp [hs])

@[simp] theorem State.scrubNoJob_memWf (s : State) (d : Desc) (h : s.mem.wf = true) : (s.scrubNoJob d).mem.wf = true := by
  simp [State.scrubNoJob, h]

@[simp] theorem State.scrubJobAt_memWf (s : State) (d : Desc) (j : Nat) (x : Job) (h : s.mem.wf = true) :
    (s.scrubJobAt d j x).mem.wf = true := by
  simp only [State.scrubJobAt]
  repeat' split
  all_goals simp [h]

@[simp] theorem State.scrubJob_memWf (s : State) (uid : Nat) (h : s.mem.wf = true) : (s.scrubJob uid).mem.wf = true := by
  unfold State.scrubJob
  split
  · exact h
  · refine ite_memWf h (ite_memWf (by simp [h]) ?_)
    split
    all_goals rename_i he; simp [fst_memWf he (by simp [h])]

@[simp] theorem State.holdStream_mem (s : State) (k : Nat) (x : Stream) : (s.holdStream k x).mem = s.mem := by
  simp [State.holdStream]

@[simp] theorem State.endStarted_memWf (s : State) (k uid : Nat) (h : s.mem.wf = true) : (s.endStarted k uid).mem.wf = true :=
  foldl_memWf _ _ (fun s y hs => by split <;> simp [hs]) h

@[simp] theorem State.scrubStream_memWf (s : State) (uid : Nat) (h : s.mem.wf = true) : (s.scrubStream uid).mem.wf = true := by
  unfold State.scrubStream
  split
  · exact h
  · refine ite_memWf h ?_
    split
    · rename_i he; exact fst_memWf he (by simp [h])
    · rename_i he; simp [fst_memWf he (by simp [h])]
    · rename_i x he
      have h1 := fst_memWf he (by simp [h])
      refine ite_memWf (by simp [h1]) ?_
      exact State.resetStream_memWf _ _ (State.conclude_memWf _ _ _ _ _ (by simp [h1]))

@[simp] theorem State.jobKillDone_memWf (s : State) (j : Nat) (h : s.mem.wf = true) : (s.jobKillDone j).mem.wf = true := by
  simp only [State.jobKillDone]
  repeat' split
  all_goals simp [h]

/-! ### Open transactions -/

@[simp] theorem State.setTx_mem (s : State) (tag : Nat) (o : Option OpenTx) : (s.setTx tag o).mem = s.mem := by simp [State.setTx]

@[simp] theorem State.closeTx_mem (s : State) (tag : Nat) (o : OpenTx) : (s.closeTx tag o).mem = s.mem := by simp [State.closeTx]

@[simp] theorem State.onWork_mem (s : State) (o : OpenTx) (f : QEntry → QEntry) : (s.onWork o f).mem = s.mem := by
  simp [State.onWork]

@[simp] theorem State.failTx_memWf (s : State) (o : OpenTx) (ans : Nat) (h : s.mem.wf = true) : (s.failTx o ans).mem.wf = true := by
  simp only [State.failTx]
  repeat' split
  all_goals simp [h]

@[simp] theorem State.loseTx_memWf (s : State) (k : Packet) (ans : Nat) (h : s.mem.wf = true) : (s.loseTx k ans).mem.wf = true := by
  simp only [State.loseTx]
  repeat' split
  all_goals simp [h]

@[simp] theorem State.loseInv_memWf (s : State) (k : Packet) (h : s.mem.wf = true) : (s.loseInv k).mem.wf = true := by
  unfold State.loseInv
  split
  · exact h
  · split
    · exact h
    · exact foldl_memWf _ _ (fun s x hs => by split <;> simp [hs]) h

@[simp] theorem State.dropPacket_memWf (s : State) (k : Packet) (h : s.mem.wf = true) : (s.dropPacket k).mem.wf = true := by
  have h1 := State.loseTx_memWf s k 8 h
  simp [State.dropPacket, h1]

@[simp] theorem State.resend_memWf (s : State) (k : Packet) (h : s.mem.wf = true) : (s.resend k).mem.wf = true := by
  simp only [State.resend]
  repeat' split
  all_goals simp [h]

@[simp] theorem State.markResent_mem (s : State) (k : Packet) : (s.markResent k).mem = s.mem := by
  simp only [State.markResent]
  repeat' split
  all_goals simp

@[simp] theorem State.unackedLost_memWf (s : State) (k : Packet) (retry : Bool) (h : s.mem.wf = true) :
    (s.unackedLost k retry).mem.wf = true := by
  simp only [State.unackedLost]
  repeat' split
  all_goals simp [h]

@[simp] theorem State.portFaultEvents_memWf (s : State) (p : Nat) (l : List Nat) (n : Nat) (h : s.mem.wf = true) :
    (s.portFaultEvents p l n).mem.wf = true := by
  induction n generalizing s l with
  | zero => cases l <;> exact h
  | succ n ih =>
    cases l with
    | nil => exact h
    | cons x l => exact ih _ _ (State.event_memWf s _ h)

@[simp] theorem State.portFaults_memWf (s : State) (p : Nat) (seqs : List Nat) (h : s.mem.wf = true) :
    (s.portFaults p seqs).mem.wf = true := by
  simp only [State.portFaults]
  repeat' split
  all_goals simp [h]

@[simp] theorem State.portPackets_memWf (s : State) (p : Nat) (unacked queue : List Packet) (retry : Bool) (h : s.mem.wf = true) :
    (s.portPackets p unacked queue retry).mem.wf = true := by
  unfold State.portPackets
  have h1 := State.portFaults_memWf s p (s.lostSeqs unacked retry) h
  have h2 := foldl_memWf unacked (fun s k => s.unackedLost k retry) (fun s k hs => by simp [hs]) h1
  have h3 := foldl_memWf queue State.resend (fun s k hs => by simp [hs]) h2
  simp [h3]

/-! ### What is lost with a port or a die -/

@[simp] theorem State.onPkg_mem (s : State) (f : Pkg → Pkg) : (s.onPkg f).mem = s.mem := by simp [State.onPkg]

@[simp] theorem State.portsIdle_mem (s : State) : (s.portsIdle).mem = s.mem := by simp [State.portsIdle, foldl_mem]

@[simp] theorem State.abandonAll_memWf (s : State) (h : s.mem.wf = true) : s.abandonAll.mem.wf = true := by
  unfold State.abandonAll
  refine foldl_memWf _ _ (fun s k hs => by simp [hs]) ?_
  refine foldl_memWf _ _ (fun s j hs => by simp [hs]) ?_
  refine foldl_memWf _ _ (fun s e hs => by simp [hs]) ?_
  exact foldl_memWf _ _ (fun s d hs => by simp [hs]) h

@[simp] theorem State.isolateNow_memWf (s : State) (h : s.mem.wf = true) : (s.isolateNow).mem.wf = true := by
  simp [State.isolateNow, h]

@[simp] theorem State.isolate_memWf (s : State) (cause : Nat) (h : s.mem.wf = true) : (s.isolate cause).mem.wf = true := by
  simp only [State.isolate]
  repeat' split
  all_goals simp [h]

@[simp] theorem State.sendAdmit_memWf (s : State) (d op subject level reason : Nat) (caps : List Nat) (h : s.mem.wf = true) :
    (s.sendAdmit d op subject level reason caps).mem.wf = true := by
  simp [State.sendAdmit, h]

@[simp] theorem State.sendLost_memWf (s : State) (d : Nat) (ms : List Nat) (h : s.mem.wf = true) : (s.sendLost d ms).mem.wf = true :=
  foldl_memWf _ _ (fun s m hs => by simp [hs]) h

@[simp] theorem State.dropToward_mem (s : State) (d : Nat) : (s.dropToward d).mem = s.mem := by simp [State.dropToward]

@[simp] theorem State.loseRequests_memWf (s : State) (d : Nat) (h : s.mem.wf = true) : (s.loseRequests d).mem.wf = true :=
  foldl_memWf _ _ (fun s x hs => by simp [hs]) h

@[simp] theorem State.poisonGranules_mem (s : State) (gs : List Nat) : (s.poisonGranules gs).mem = s.mem := by
  simp [State.poisonGranules]

@[simp] theorem State.loseBarriers_memWf (s : State) (d : Nat) (h : s.mem.wf = true) : (s.loseBarriers d).mem.wf = true := by
  refine foldl_memWf _ _ (fun s e hs => ?_) h
  split
  · refine ite_memWf ?_ hs
    extract_lets _ s1
    have h1 : s1.mem.wf = true := by unfold s1; split <;> simp [hs]
    simp [h1]
  · exact hs

@[simp] theorem State.loseDie_memWf (s : State) (d ts : Nat) (h : s.mem.wf = true) : (s.loseDie d ts).mem.wf = true := by
  unfold State.loseDie
  refine ite_memWf h ?_
  extract_lets before s1 _ s2 s3 s4 s5 _ s6 l s7
  have h1 : s1.mem.wf = true := by simp [s1, h]
  have h2 : s2.mem.wf = true := by simp [s2, h1]
  have h3 : s3.mem.wf = true := by simp [s3, h2]
  have h4 : s4.mem.wf = true := by simp [s4, h3]
  have h5 : s5.mem.wf = true := by simp [s5, h4]
  have h6 : s6.mem.wf = true := by simp [s6, h5]
  have h7 : s7.mem.wf = true := by unfold s7; split <;> simp [h6]
  split <;> simp [h7]

@[simp] theorem State.tellLost_memWf (s : State) (d : Nat) (h : s.mem.wf = true) : (s.tellLost d).mem.wf = true := by
  simp [State.tellLost, h]

@[simp] theorem State.loseStack_memWf (s : State) (k : Nat) (h : s.mem.wf = true) : (s.loseStack k).mem.wf = true := by
  simp only [State.loseStack]
  repeat' split
  all_goals simp [h]

@[simp] theorem State.afterFall_memWf (s : State) (p : Nat) (wasUp : Bool) (h : s.mem.wf = true) :
    (s.afterFall p wasUp).mem.wf = true := by
  simp only [State.afterFall]
  repeat' split
  all_goals simp [h]

@[simp] theorem State.portDrop_memWf (s : State) (p : Nat) (old : Port) (retry : Bool) (h : s.mem.wf = true) :
    (s.portDrop p old retry).mem.wf = true := by
  simp only [State.portDrop]
  repeat' split
  all_goals simp [h]

@[simp] theorem State.portFall_memWf (s : State) (p cause : Nat) (retry : Bool) (st : PortSt) (h : s.mem.wf = true) :
    (s.portFall p cause retry st).mem.wf = true := by
  simp [State.portFall, h]

/-! ### Ports -/

@[simp] theorem State.sendRaw_mem (s : State) (p : Nat) (k : Packet) : (s.sendRaw p k).mem = s.mem := by simp [State.sendRaw]

@[simp] theorem State.sendCaps_mem (s : State) (p : Nat) : (s.sendCaps p).mem = s.mem := by simp [State.sendCaps]

@[simp] theorem State.takeCaps_mem (s : State) (p : Nat) (k : Packet) : (s.takeCaps p k).mem = s.mem := by simp [State.takeCaps]

@[simp] theorem State.portUp_memWf (s : State) (p : Nat) (conf : Bool) (h : s.mem.wf = true) : (s.portUp p conf).mem.wf = true := by
  simp [State.portUp, h]

@[simp] theorem State.beginTraining_mem (s : State) (p : Nat) : (s.beginTraining p).mem = s.mem := by simp [State.beginTraining]

@[simp] theorem State.trainRetry_mem (s : State) (p : Nat) (ok : Bool) : (s.trainRetry p ok).mem = s.mem := by
  simp [State.trainRetry]

@[simp] theorem State.abortPortTest_mem (s : State) (p : Nat) : (s.abortPortTest p).mem = s.mem := by simp [State.abortPortTest]

@[simp] theorem State.putMap_memWf (s : State) (p : Nat) (map : Word) (h : s.mem.wf = true) : (s.putMap p map).mem.wf = true := by
  simp only [State.putMap]
  repeat' split
  all_goals simp [h]

@[simp] theorem State.trainingDone_memWf (s : State) (p pass rates : Nat) (h : s.mem.wf = true) :
    (s.trainingDone p pass rates).mem.wf = true := by
  simp only [State.trainingDone]
  repeat' split
  all_goals simp [h]

@[simp] theorem State.sendKeys_mem (s : State) (p epoch : Nat) : (s.sendKeys p epoch).mem = s.mem := by simp [State.sendKeys]

@[simp] theorem State.kexFail_memWf (s : State) (p reason : Nat) (h : s.mem.wf = true) : (s.kexFail p reason).mem.wf = true := by
  simp [State.kexFail, h]

@[simp] theorem State.rekey_memWf (s : State) (p : Nat) (h : s.mem.wf = true) : (s.rekey p).mem.wf = true := by
  simp only [State.rekey]
  repeat' split
  all_goals simp [h]

@[simp] theorem State.keyCert_memWf (s : State) (p : Nat) (k : Packet) (ok : Bool) (h : s.mem.wf = true) :
    (s.keyCert p k ok).mem.wf = true := by
  simp only [State.keyCert]
  repeat' split
  all_goals simp [h]

@[simp] theorem State.keyOffer_memWf (s : State) (p : Nat) (k : Packet) (ok : Bool) (h : s.mem.wf = true) :
    (s.keyOffer p k ok).mem.wf = true := by
  simp only [State.keyOffer]
  repeat' split
  all_goals simp [h]

@[simp] theorem State.keySwitch_memWf (s : State) (p : Nat) (k : Packet) (h : s.mem.wf = true) :
    (s.keySwitch p k).mem.wf = true := by
  simp only [State.keySwitch]
  repeat' split
  all_goals simp [h]

@[simp] theorem State.kexTimeout_memWf (s : State) (p : Nat) (h : s.mem.wf = true) : (s.kexTimeout p).mem.wf = true := by
  simp only [State.kexTimeout]
  repeat' split
  all_goals simp [h]

@[simp] theorem State.rekeyStart_memWf (s : State) (p : Nat) (h : s.mem.wf = true) : (s.rekeyStart p).mem.wf = true := by
  simp only [State.rekeyStart]
  repeat' split
  all_goals simp [h]

@[simp] theorem State.refusePartner_memWf (s : State) (p reason : Nat) (h : s.mem.wf = true) :
    (s.refusePartner p reason).mem.wf = true := by
  simp only [State.refusePartner]
  repeat' split
  all_goals simp [h]

@[simp] theorem State.caps_memWf (s : State) (p : Nat) (k : Packet) (h : s.mem.wf = true) : (s.caps p k).mem.wf = true := by
  simp only [State.caps]
  repeat' split
  all_goals simp [h]

@[simp] theorem State.portEnWrite_memWf (s : State) (p : Nat) (en : Bool) (h : s.mem.wf = true) :
    (s.portEnWrite p en).mem.wf = true := by
  simp only [State.portEnWrite]
  repeat' split
  all_goals simp [h]

@[simp] theorem State.beginRetrain_mem (s : State) (p : Nat) : (s.beginRetrain p).mem = s.mem := by simp [State.beginRetrain]

@[simp] theorem State.retrain_mem (s : State) (p : Nat) : (s.retrain p).mem = s.mem := by
  simp only [State.retrain]
  repeat' split
  all_goals simp

@[simp] theorem State.errLimit_mem (s : State) (p : Nat) : (s.errLimit p).mem = s.mem := by simp [State.errLimit]

@[simp] theorem State.retrainTimeout_memWf (s : State) (p : Nat) (h : s.mem.wf = true) : (s.retrainTimeout p).mem.wf = true := by
  simp only [State.retrainTimeout]
  repeat' split
  all_goals simp [h]

@[simp] theorem State.portIsolate_memWf (s : State) (p : Nat) (h : s.mem.wf = true) : (s.portIsolate p).mem.wf = true := by
  simp only [State.portIsolate]
  repeat' split
  all_goals simp [h]

@[simp] theorem State.sidebandRetrain_mem (s : State) (p : Nat) : (s.sidebandRetrain p).mem = s.mem := by
  simp [State.sidebandRetrain]

@[simp] theorem State.flitReplay_mem (s : State) (p : Nat) : (s.flitReplay p).mem = s.mem := by simp [State.flitReplay]

@[simp] theorem State.linkAck_mem (s : State) (p n : Nat) : (s.linkAck p n).mem = s.mem := by simp [State.linkAck]

@[simp] theorem State.keepalive_mem (s : State) (p : Nat) : (s.keepalive p).mem = s.mem := by simp [State.keepalive]

@[simp] theorem State.linkLoss_memWf (s : State) (p cause : Nat) (h : s.mem.wf = true) : (s.linkLoss p cause).mem.wf = true := by
  simp only [State.linkLoss]
  repeat' split
  all_goals simp [h]

@[simp] theorem State.l1Entry_mem (s : State) (p : Nat) : (s.l1Entry p).mem = s.mem := by simp [State.l1Entry]

@[simp] theorem State.l1Exit_mem (s : State) (p : Nat) : (s.l1Exit p).mem = s.mem := by simp [State.l1Exit]

@[simp] theorem State.tagExpiry_mem (s : State) (tag : Nat) : (s.tagExpiry tag).mem = s.mem := by
  simp only [State.tagExpiry]
  repeat' split
  all_goals simp

@[simp] theorem State.baseDieTimeout_mem (s : State) (p t uid : Nat) : (s.baseDieTimeout p t uid).mem = s.mem := by
  simp [State.baseDieTimeout]

@[simp] theorem State.returnUnits_mem (s : State) (p : Nat) : (s.returnUnits p).mem = s.mem := by simp [State.returnUnits]

/-! ### Packets -/

@[simp] theorem State.discard_memWf (s : State) (p : Nat) (h : s.mem.wf = true) : (s.discard p).mem.wf = true := by
  simp [State.discard, h]

@[simp] theorem State.authFail_memWf (s : State) (p : Nat) (k : Packet) (h : s.mem.wf = true) : (s.authFail p k).mem.wf = true := by
  simp [State.authFail, h]

@[simp] theorem State.undeliverable_memWf (s : State) (p : Nat) (k : Packet) (h : s.mem.wf = true) :
    (s.undeliverable p k).mem.wf = true := by
  simp only [State.undeliverable]
  repeat' split
  all_goals simp [h]

@[simp] theorem State.forward_memWf (s : State) (p : Nat) (k : Packet) (h : s.mem.wf = true) : (s.forward p k).mem.wf = true := by
  simp only [State.forward]
  repeat' split
  all_goals simp [h]

@[simp] theorem State.receive_memWf (s : State) (p : Nat) (k : Packet) (act : State → State)
    (hact : ∀ s, s.mem.wf = true → (act s).mem.wf = true) (h : s.mem.wf = true) : (s.receive p k act).mem.wf = true := by
  unfold State.receive
  refine ite_memWf h (ite_memWf (by simp [h]) (ite_memWf (by simp [h]) (ite_memWf (by simp [h]) (hact _ (by simp [h])))))

@[simp] theorem State.deniedFor_memWf (s : State) (k : Packet) (reason : Nat) (h : s.mem.wf = true) :
    (s.deniedFor k reason).mem.wf = true := by
  simp [State.deniedFor, h]

@[simp] theorem State.dirEvict_mem (s : State) (line : Nat) : (s.dirEvict line).mem = s.mem := by
  simp only [State.dirEvict]
  repeat' split
  all_goals simp

@[simp] theorem State.homeRead_memWf (s : State) (p : Nat) (k : Packet) (h : s.mem.wf = true) : (s.homeRead p k).mem.wf = true := by
  simp [State.homeRead, h]

@[simp] theorem State.homeReadDir_memWf (s : State) (p : Nat) (k : Packet) (h : s.mem.wf = true) :
    (s.homeReadDir p k).mem.wf = true := by
  simp only [State.homeReadDir]
  repeat' split
  all_goals simp [h]

@[simp] theorem State.answerWrite_memWf (s : State) (p : Nat) (k ans : Packet) (grp : Nat) (wait : Bool) (h : s.mem.wf = true) :
    (s.answerWrite p k ans grp wait).mem.wf = true := by
  simp only [State.answerWrite]
  repeat' split
  all_goals simp [h]

@[simp] theorem State.homeWrite_memWf (s : State) (p : Nat) (k : Packet) (h : s.mem.wf = true) : (s.homeWrite p k).mem.wf = true :=
  State.answerWrite_memWf _ _ _ _ _ _ (State.wrHome_memWf s _ _ h)

@[simp] theorem State.homeAtomic_memWf (s : State) (p : Nat) (k : Packet) (h : s.mem.wf = true) : (s.homeAtomic p k).mem.wf = true :=
  State.answerWrite_memWf _ _ _ _ _ _ (State.wrHome_memWf s _ _ h)

@[simp] theorem State.refuseOp_memWf (s : State) (p : Nat) (k : Packet) (reason : Nat) (h : s.mem.wf = true) :
    (s.refuseOp p k reason).mem.wf = true := by
  simp only [State.refuseOp]
  repeat' split
  all_goals simp [h]

@[simp] theorem State.homeOp_memWf (s : State) (p : Nat) (k : Packet) (admitted : Bool) (h : s.mem.wf = true) :
    (s.homeOp p k admitted).mem.wf = true := by
  simp only [State.homeOp]
  repeat' split
  all_goals simp [h]

@[simp] theorem State.spRead_memWf (s : State) (p : Nat) (k : Packet) (h : s.mem.wf = true) : (s.spRead p k).mem.wf = true := by
  simp only [State.spRead]
  repeat' split
  all_goals simp [h]

@[simp] theorem State.creditReq_memWf (s : State) (p : Nat) (k : Packet) (h : s.mem.wf = true) :
    (s.creditReq p k).mem.wf = true := by
  simp only [State.creditReq]
  repeat' split
  all_goals simp [h]

@[simp] theorem State.spWrite_memWf (s : State) (p : Nat) (k : Packet) (decl : Nat) (h : s.mem.wf = true) :
    (s.spWrite p k decl).mem.wf = true := by
  simp only [State.spWrite]
  repeat' split
  all_goals simp [h]

@[simp] theorem State.xlateReq_memWf (s : State) (p : Nat) (k : Packet) (h : s.mem.wf = true) : (s.xlateReq p k).mem.wf = true := by
  simp only [State.xlateReq]
  repeat' split
  all_goals simp [h]

@[simp] theorem State.serve_memWf (s : State) (p : Nat) (k : Packet) (h : s.mem.wf = true) : (s.serve p k).mem.wf = true := by
  simp only [State.serve]
  repeat' split
  all_goals simp [h]

@[simp] theorem State.serveHeld_memWf (s : State) (h : s.mem.wf = true) : s.serveHeld.mem.wf = true :=
  foldl_memWf _ _ (fun s x hs => State.serve_memWf s x.1 x.2 hs) h

@[simp] theorem State.answered_memWf (s : State) (k : Packet) (fits : Packet → Bool) (f : State → OpenTx → State)
    (hf : ∀ s o, s.mem.wf = true → (f s o).mem.wf = true) (h : s.mem.wf = true) : (s.answered k fits f).mem.wf = true := by
  unfold State.answered
  split
  · exact h
  · exact ite_memWf (hf _ _ (by simp [h])) h

@[simp] theorem State.takeData_memWf (s : State) (o : OpenTx) (k : Packet) (h : s.mem.wf = true) :
    (s.takeData o k).mem.wf = true := by
  simp only [State.takeData]
  repeat' split
  all_goals simp [h]

@[simp] theorem State.escapeWork_mem (s : State) (o : OpenTx) : (s.escapeWork o).mem = s.mem := by simp [State.escapeWork]

@[simp] theorem State.takeAck_memWf (s : State) (o : OpenTx) (status : Nat) (h : s.mem.wf = true) :
    (s.takeAck o status).mem.wf = true := by
  simp only [State.takeAck]
  repeat' split
  all_goals simp [h]

@[simp] theorem State.takeGrant_mem (s : State) (o : OpenTx) (k : Packet) : (s.takeGrant o k).mem = s.mem := by
  simp [State.takeGrant]

@[simp] theorem State.addXlate_memWf (s : State) (g : Nat) (x : Xlate) (h : s.mem.wf = true) : (s.addXlate g x).mem.wf = true := by
  simp only [State.addXlate, State.tick_mem]
  split
  · exact h
  · exact Mem.wf_clear h _ _

@[simp] theorem State.takeHomes_memWf (s : State) (g : Nat) (bs : List Byte) (h : s.mem.wf = true) : (s.takeHomes g bs).mem.wf = true := by
  unfold State.takeHomes
  refine ite_memWf h (ite_memWf (by simp [h]) ?_)
  exact foldl_memWf _ _ (fun s i hs => by simp [hs]) h

@[simp] theorem State.dropLines_mem (s : State) (ls : List Nat) : (s.dropLines ls).mem = s.mem := by simp [State.dropLines]

@[simp] theorem State.invAck_memWf (s : State) (p : Nat) (k : Packet) (h : s.mem.wf = true) : (s.invAck p k).mem.wf = true := by
  simp [State.invAck, h]

@[simp] theorem State.takeInvAck_memWf (s : State) (k : Packet) (h : s.mem.wf = true) : (s.takeInvAck k).mem.wf = true := by
  simp [State.takeInvAck, h]

@[simp] theorem State.syncResult_memWf (s : State) (x : SyncSrc) (o v : Nat) (h : s.mem.wf = true) :
    (s.syncResult x o v).mem.wf = true := by
  simp only [State.syncResult]
  repeat' split
  all_goals simp [h]

@[simp] theorem State.localResult_memWf (s : State) (i : Nat) (h : s.mem.wf = true) : (s.localResult i).mem.wf = true := by
  simp only [State.localResult]
  repeat' split
  all_goals simp [h]

@[simp] theorem State.barReport_memWf (s : State) (d id round : Nat) (h : s.mem.wf = true) :
    (s.barReport d id round).mem.wf = true := by
  simp only [State.barReport]
  repeat' split
  all_goals simp [h]

@[simp] theorem State.barRelease_memWf (s : State) (id round : Nat) (h : s.mem.wf = true) :
    (s.barRelease id round).mem.wf = true := by
  simp only [State.barRelease]
  repeat' split
  all_goals simp [h]

/-! ### Debug access to synchronisation objects -/

@[simp] theorem State.dbgRefuse_mem (s : State) : (s.dbgRefuse).mem = s.mem := by simp [State.dbgRefuse]

@[simp] theorem State.dbgEvent_memWf (s : State) (cmd : Nat) (h : s.mem.wf = true) : (s.dbgEvent cmd).mem.wf = true := by
  simp [State.dbgEvent, h]

@[simp] theorem State.dbgRead_mem (s : State) : (s.dbgRead).mem = s.mem := by
  simp only [State.dbgRead]
  repeat' split
  all_goals simp

@[simp] theorem State.dbgWrite_memWf (s : State) (h : s.mem.wf = true) : (s.dbgWrite).mem.wf = true := by
  simp only [State.dbgWrite]
  repeat' split
  all_goals simp [h]

@[simp] theorem State.dbgRelease_memWf (s : State) (h : s.mem.wf = true) : (s.dbgRelease).mem.wf = true := by
  simp only [State.dbgRelease]
  repeat' split
  all_goals simp [h]

@[simp] theorem State.dbgClose_memWf (s : State) (h : s.mem.wf = true) : s.dbgClose.mem.wf = true := by
  unfold State.dbgClose
  extract_lets o id
  split
  · rename_i b _
    refine ite_memWf (by simp [h]) ?_
    extract_lets r
    have h1 : ((s.setBar id (some r.1)).answers r.2).mem.wf = true := by simp [h]
    exact State.dbgEvent_memWf _ _ (State.barSettle_memWf _ _ (State.tellClosed_memWf _ _ b h1))
  · simp [h]

@[simp] theorem State.dbgFree_memWf (s : State) (h : s.mem.wf = true) : s.dbgFree.mem.wf = true := by
  unfold State.dbgFree
  refine ite_memWf (by simp [h]) ?_
  extract_lets s1
  have h1 : s1.mem.wf = true := by simp [s1, h]
  simp [h1]

@[simp] theorem State.dbgCmd_memWf (s : State) (v : Word) (h : s.mem.wf = true) : (s.dbgCmd v).mem.wf = true := by
  simp only [State.dbgCmd]
  repeat' split
  all_goals simp [h]

/-! ### Package membership -/

@[simp] theorem State.sendLevel_memWf (s : State) (d v : Nat) (h : s.mem.wf = true) : (s.sendLevel d v).mem.wf = true := by
  simp only [State.sendLevel]
  repeat' split
  all_goals simp [h]

@[simp] theorem State.joinedEvent_memWf (s : State) (d caps1 : Nat) (h : s.mem.wf = true) :
    (s.joinedEvent d caps1).mem.wf = true := by
  simp [State.joinedEvent, h]

@[simp] theorem State.refuseDie_memWf (s : State) (p d reason : Nat) (h : s.mem.wf = true) :
    (s.refuseDie p d reason).mem.wf = true := by
  simp [State.refuseDie, h]

@[simp] theorem State.formPackage_memWf (s : State) (h : s.mem.wf = true) : s.formPackage.mem.wf = true := by
  unfold State.formPackage
  extract_lets js mem others s1
  split
  extract_lets s2 s3 s4 s5
  have h1 : s1.mem.wf = true := foldl_memWf _ _ (fun s r hs => by simp [hs]) h
  have h3 : s3.mem.wf = true := foldl_memWf _ _ (fun s j hs => by simp [hs]) (by simp [s2, h1])
  have h5 : s5.mem.wf = true := foldl_memWf _ _ (fun s j hs => by simp [hs]) (by simp [s4, h3])
  exact foldl_memWf _ _ (fun s j hs => by simp [hs]) h5

@[simp] theorem State.tryForm_memWf (s : State) (h : s.mem.wf = true) : (s.tryForm).mem.wf = true := by
  simp only [State.tryForm]
  repeat' split
  all_goals simp [h]

@[simp] theorem State.joinNow_memWf (s : State) (h : s.mem.wf = true) : s.joinNow.mem.wf = true := by
  unfold State.joinNow
  extract_lets s1
  have h1 : s1.mem.wf = true := by simp [s1, h]
  clear_value s1
  split
  · exact h1
  · refine ite_memWf (State.tryForm_memWf _ ?_) (by simp [h1])
    rw [State.onPkg_mem]
    exact foldl_memWf _ _ (fun s m hs => by simp [hs]) h1

@[simp] theorem State.formTimeout_memWf (s : State) (h : s.mem.wf = true) : (s.formTimeout).mem.wf = true := by
  simp only [State.formTimeout]
  repeat' split
  all_goals simp [h]

@[simp] theorem State.readmit_memWf (s : State) (d caps1 : Nat) (h : s.mem.wf = true) : (s.readmit d caps1).mem.wf = true := by
  unfold State.readmit
  extract_lets s1 mine _ _ s2 s3
  have h1 : s1.mem.wf = true := foldl_memWf _ _ (fun s id hs => by split <;> simp [hs]) h
  simp [s3, s2, h1]

@[simp] theorem State.rejoin_memWf (s : State) (p d c0 c1 : Nat) (h : s.mem.wf = true) : (s.rejoin p d c0 c1).mem.wf = true := by
  unfold State.rejoin
  refine ite_memWf (ite_memWf h (by simp [h])) (ite_memWf (by simp [h]) (ite_memWf (by simp [h]) (ite_memWf (by simp [h]) ?_)))
  exact foldl_memWf _ _ (fun s m hs => by simp [hs]) (by simp [h])

@[simp] theorem State.join_memWf (s : State) (p : Nat) (k : Packet) (h : s.mem.wf = true) : (s.join p k).mem.wf = true := by
  simp only [State.join]
  repeat' split
  all_goals simp [h]

@[simp] theorem State.accept_memWf (s : State) (k : Packet) (h : s.mem.wf = true) : (s.accept k).mem.wf = true := by
  simp only [State.accept]
  repeat' split
  all_goals simp [h]

@[simp] theorem State.refusedJoin_memWf (s : State) (k : Packet) (h : s.mem.wf = true) : (s.refusedJoin k).mem.wf = true := by
  simp only [State.refusedJoin]
  repeat' split
  all_goals simp [h]

@[simp] theorem State.lostNotice_memWf (s : State) (k : Packet) (h : s.mem.wf = true) : (s.lostNotice k).mem.wf = true := by
  simp only [State.lostNotice]
  repeat' split
  all_goals simp [h]

@[simp] theorem State.clockFault_memWf (s : State) (d : Nat) (h : s.mem.wf = true) : (s.clockFault d).mem.wf = true := by
  simp only [State.clockFault]
  repeat' split
  all_goals simp [h]

@[simp] theorem State.refLoss_memWf (s : State) (h : s.mem.wf = true) : s.refLoss.mem.wf = true := by
  unfold State.refLoss
  refine ite_memWf h ?_
  extract_lets s1
  have h1 : s1.mem.wf = true := by simp [s1, h]
  refine ite_memWf (State.clockFault_memWf _ _ (foldl_memWf _ _ (fun s m hs => by simp [hs]) h1)) ?_
  split
  · split <;> simp [h1]
  · exact h1

@[simp] theorem State.clockStop_mem (s : State) : (s.clockStop).mem = s.mem := by simp [State.clockStop]

@[simp] theorem State.refReturn_memWf (s : State) (h : s.mem.wf = true) : (s.refReturn).mem.wf = true := by
  simp only [State.refReturn]
  repeat' split
  all_goals simp [h]

@[simp] theorem State.holdoverEnd_memWf (s : State) (h : s.mem.wf = true) : (s.holdoverEnd).mem.wf = true := by
  simp only [State.holdoverEnd]
  repeat' split
  all_goals simp [h]

/-! ### Faults, fences and replay -/

@[simp] theorem State.onFlt_mem (s : State) (f : Flt → Flt) : (s.onFlt f).mem = s.mem := by simp [State.onFlt]

@[simp] theorem State.fenceDesc_memWf (s : State) (t : Nat) (d : Desc) (h : s.mem.wf = true) : (s.fenceDesc t d).mem.wf = true := by
  simp only [State.fenceDesc]
  repeat' split
  all_goals simp [h]

@[simp] theorem State.fenceTile_memWf (s : State) (t : Nat) (h : s.mem.wf = true) : (s.fenceTile t).mem.wf = true := by
  have h1 := State.abandonTile_memWf _ t (State.closeWindows_memWf s t 5 h)
  simp [State.fenceTile, h1]

@[simp] theorem State.coreFault_memWf (s : State) (t src : Nat) (h : s.mem.wf = true) : (s.coreFault t src).mem.wf = true := by
  unfold State.coreFault
  refine ite_memWf h ?_
  extract_lets hits seq core s1 s2
  have h1 : s1.mem.wf = true := foldl_memWf _ _ (fun s d hs => by simp [hs]) h
  simp [s2, h1]

@[simp] theorem State.corrected_mem (s : State) (t : Nat) : (s.corrected t).mem = s.mem := by simp [State.corrected]

@[simp] theorem State.predictFence_memWf (s : State) (t : Nat) (h : s.mem.wf = true) : (s.predictFence t).mem.wf = true := by
  simp only [State.predictFence]
  repeat' split
  all_goals simp [h]

@[simp] theorem State.uncoreFault_memWf (s : State) (b : Nat) (h : s.mem.wf = true) : (s.uncoreFault b).mem.wf = true := by
  simp only [State.uncoreFault]
  repeat' split
  all_goals simp [h]

@[simp] theorem State.fenceErr_mem (s : State) : (s.fenceErr).mem = s.mem := by simp [State.fenceErr]

@[simp] theorem State.fenceMask_memWf (s : State) (w : Nat) (v : Word) (h : s.mem.wf = true) : (s.fenceMask w v).mem.wf = true :=
  foldl_memWf _ _ (fun s t hs => by split <;> simp [hs]) h

@[simp] theorem State.beginCrst_memWf (s : State) (t why : Nat) (h : s.mem.wf = true) : (s.beginCrst t why).mem.wf = true := by
  simp [State.beginCrst, h]

@[simp] theorem State.fenceRelease_memWf (s : State) (w : Nat) (v : Word) (h : s.mem.wf = true) : (s.fenceRelease w v).mem.wf = true := by
  refine foldl_memWf _ _ (fun s t hs => ite_memWf (by simp [hs]) (ite_memWf hs ?_)) h
  simp only
  split <;> simp [hs]

@[simp] theorem State.coreResetMask_memWf (s : State) (w : Nat) (v : Word) (h : s.mem.wf = true) :
    (s.coreResetMask w v).mem.wf = true := by
  refine foldl_memWf _ _ (fun s t hs => ?_) h
  split
  · exact hs
  · exact hs
  · exact ite_memWf hs (by simp [hs])

@[simp] theorem State.crstDone_memWf (s : State) (t : Nat) (pass : Bool) (h : s.mem.wf = true) :
    (s.crstDone t pass).mem.wf = true := by
  simp only [State.crstDone]
  repeat' split
  all_goals simp [h]

@[simp] theorem State.replay_memWf (s : State) (uid : Nat) (h : s.mem.wf = true) : (s.replay uid).mem.wf = true := by
  unfold State.replay
  split
  · exact h
  · refine ite_memWf h ?_
    extract_lets s1 fault tile s2 _
    have h1 : s1.mem.wf = true := by simp [s1, h]
    have h2 : s2.mem.wf = true := by simp [s2, h1]
    split
    · simp [h1]
    · exact ite_memWf (by simp [h1]) (by simp [h2])

@[simp] theorem State.commitPoint_mem (s : State) (uid : Nat) : (s.commitPoint uid).mem = s.mem := by
  simp only [State.commitPoint]
  repeat' split
  all_goals simp

@[simp] theorem State.applyRecord_memWf (s : State) (d : Desc) (r : Nat × List Byte) (h : s.mem.wf = true) :
    (s.applyRecord d r).st.mem.wf = true := by
  simp only [State.applyRecord]
  repeat' split
  all_goals simp [h]

@[simp] theorem State.applyRecords_memWf (s : State) (d : Desc) (h : s.mem.wf = true) : (s.applyRecords d).st.mem.wf = true := by
  refine foldl_keeps (fun x : Written => x.st.mem.wf = true) _ (fun x r hx => ?_) _ _ h
  exact State.applyRecord_memWf x.st d r hx

@[simp] theorem State.applyLogs_memWf (s : State) (d : Desc) (h : s.mem.wf = true) : (s.applyLogs d).mem.wf = true := by
  simp only [State.applyLogs]
  repeat' split
  all_goals simp [h]

@[simp] theorem State.commitDone_memWf (s : State) (uid : Nat) (h : s.mem.wf = true) : (s.commitDone uid).mem.wf = true := by
  simp only [State.commitDone]
  repeat' split
  all_goals simp [h]

/-! ### Reset and boot -/

@[simp] theorem State.onMgmt_mem (s : State) (f : Mgmt → Mgmt) : (s.onMgmt f).mem = s.mem := by simp [State.onMgmt]

/-- The memory that a reset leaves: bytes written over bytes. -/
theorem State.scramble_wf (s : State) (h : s.mem.wf = true) : s.scramble.wf = true := by
  refine foldl_keeps (fun m : Mem => m.wf = true) _ (fun m e hm => ?_) _ _ h
  split
  · split
    · exact Mem.wf_wr hm _ _
    · exact hm
  · exact hm

@[simp] theorem State.afterReset_memWf (s : State) (por : Bool) (h : s.mem.wf = true) : (s.afterReset por).mem.wf = true :=
  State.scramble_wf s h

@[simp] theorem State.takeReset_memWf (s : State) (lvl : ResetLevel) (cause sub die ts : Nat) (deferred : Bool) (h : s.mem.wf =
    true) :
    (s.takeReset lvl cause sub die ts deferred).mem.wf = true := by
  simp [State.takeReset, h]

@[simp] theorem State.pulsed_memWf (s : State) (p : FusePulse) (h : s.mem.wf = true) : (s.pulsed p).mem.wf = true := by
  simp only [State.pulsed]
  repeat' split
  all_goals simp [h]

@[simp] theorem State.blow_mem (s : State) (ps : List FusePulse) : (s.blow ps).mem = s.mem := by simp [State.blow]

@[simp] theorem State.pulse_memWf (s : State) (h : s.mem.wf = true) : (s.pulse).mem.wf = true := by
  simp only [State.pulse]
  repeat' split
  all_goals simp [h]

@[simp] theorem State.pulseCut_memWf (s : State) (h : s.mem.wf = true) : (s.pulseCut).mem.wf = true := by
  simp only [State.pulseCut]
  repeat' split
  all_goals simp [h]

@[simp] theorem State.requestReset_memWf (s : State) (lvl : ResetLevel) (cause sub die : Nat) (h : s.mem.wf = true) :
    (s.requestReset lvl cause sub die).mem.wf = true := by
  simp only [State.requestReset]
  repeat' split
  all_goals simp [h]

@[simp] theorem State.wdogKick_mem (s : State) : (s.wdogKick).mem = s.mem := by simp [State.wdogKick]

@[simp] theorem State.pkgSrst_memWf (s : State) (h : s.mem.wf = true) : s.pkgSrst.mem.wf = true := by
  unfold State.pkgSrst
  refine ite_memWf (by simp [h]) (ite_memWf h ?_)
  rw [State.onMgmt_mem]
  exact foldl_memWf _ _ (fun s d hs => by simp [hs]) h

@[simp] theorem State.deferredReset_memWf (s : State) (h : s.mem.wf = true) : (s.deferredReset).mem.wf = true := by
  simp only [State.deferredReset]
  repeat' split
  all_goals simp [h]

@[simp] theorem State.resetReq_memWf (s : State) (p : Nat) (k : Packet) (h : s.mem.wf = true) : (s.resetReq p k).mem.wf = true := by
  simp only [State.resetReq]
  repeat' split
  all_goals simp [h]

@[simp] theorem State.senseRoles_mem (s : State) : (s.senseRoles).mem = s.mem := by simp [State.senseRoles, foldl_mem]

@[simp] theorem State.senseId_mem (s : State) : (s.senseId).mem = s.mem := by simp [State.senseId]

@[simp] theorem State.fuseSense_mem (s : State) : (s.fuseSense).mem = s.mem := by simp [State.fuseSense]

@[simp] theorem State.applyOptions_mem (s : State) (img : Tab Word) : (s.applyOptions img).mem = s.mem := by
  simp [State.applyOptions, foldl_mem]

@[simp] theorem State.optionLoad_mem (s : State) (mOk : Bool) : (s.optionLoad mOk).mem = s.mem := by simp [State.optionLoad]

@[simp] theorem State.bootHalt_mem (s : State) : (s.bootHalt).mem = s.mem := by simp [State.bootHalt]

@[simp] theorem State.clockOut_mem (s : State) : (s.clockOut).mem = s.mem := by simp [State.clockOut]

@[simp] theorem State.bootStart_mem (s : State) (fuseOk mOk : Bool) : (s.bootStart fuseOk mOk).mem = s.mem := by
  simp [State.bootStart]

@[simp] theorem State.repairLife_mem (s : State) : (s.repairLife).mem = s.mem := by simp [State.repairLife]

@[simp] theorem State.selfTestDone_mem (s : State) (ok : Bool) : (s.selfTestDone ok).mem = s.mem := by simp [State.selfTestDone]

@[simp] theorem State.keyworkBegin_memWf (s : State) (pass : Nat) (h : s.mem.wf = true) : (s.keyworkBegin pass).mem.wf = true := by
  simp only [State.keyworkBegin]
  repeat' split
  all_goals simp [h]

@[simp] theorem State.keyworkInit_memWf (s : State) (entries : List (Nat × List Word)) (pass : Nat) (h : s.mem.wf = true) :
    (s.keyworkInit entries pass).mem.wf = true := by
  unfold State.keyworkInit
  refine ite_memWf h (ite_memWf h ?_)
  extract_lets s1
  have h1 : s1.mem.wf = true := by unfold s1; split <;> simp [h]
  split
  all_goals rename_i he; simp [fst_memWf he (by simp [h1])]

@[simp] theorem State.bootReady_mem (s : State) : (s.bootReady).mem = s.mem := by simp [State.bootReady]

/-! ### Firmware and options -/

@[simp] theorem State.fwLoad_mem (s : State) : (s.fwLoad).mem = s.mem := by simp [State.fwLoad]

@[simp] theorem State.fwFail_memWf (s : State) (e : Nat) (h : s.mem.wf = true) : (s.fwFail e).mem.wf = true := by
  simp only [State.fwFail]
  repeat' split
  all_goals simp [h]

@[simp] theorem State.fwData_memWf (s : State) (v : Word) (h : s.mem.wf = true) : (s.fwData v).mem.wf = true := by
  simp only [State.fwData]
  repeat' split
  all_goals simp [h]

@[simp] theorem State.fwVerified_memWf (s : State) (key : Nat) (hashOk : Bool) (h : s.mem.wf = true) :
    (s.fwVerified key hashOk).mem.wf = true := by
  simp only [State.fwVerified]
  repeat' split
  all_goals simp [h]

@[simp] theorem State.fwSwitch_mem (s : State) : (s.fwSwitch).mem = s.mem := by simp [State.fwSwitch]

@[simp] theorem State.fwQuiesce_memWf (s : State) (h : s.mem.wf = true) : (s.fwQuiesce).mem.wf = true := by
  simp only [State.fwQuiesce]
  repeat' split
  all_goals simp [h]

@[simp] theorem State.fwQuiesceTimeout_memWf (s : State) (h : s.mem.wf = true) : (s.fwQuiesceTimeout).mem.wf = true := by
  simp only [State.fwQuiesceTimeout]
  repeat' split
  all_goals simp [h]

@[simp] theorem State.optRefuse_mem (s : State) : (s.optRefuse).mem = s.mem := by simp [State.optRefuse]

@[simp] theorem State.optData_mem (s : State) (v : Word) : (s.optData v).mem = s.mem := by simp [State.optData]

@[simp] theorem State.optRevert_mem (s : State) : (s.optRevert).mem = s.mem := by simp [State.optRevert]

@[simp] theorem State.optCommit_mem (s : State) : (s.optCommit).mem = s.mem := by simp [State.optCommit]

@[simp] theorem State.optCommitDone_memWf (s : State) (ok : Bool) (failOff : Nat) (h : s.mem.wf = true) :
    (s.optCommitDone ok failOff).mem.wf = true := by
  simp only [State.optCommitDone]
  repeat' split
  all_goals simp [h]

/-! ### Bellows: power and budget -/

@[simp] theorem State.onTime_mem (s : State) (f : Time → Time) : (s.onTime f).mem = s.mem := by simp [State.onTime]

@[simp] theorem State.onBw_mem (s : State) (f : Bw → Bw) : (s.onBw f).mem = s.mem := by simp [State.onBw]

@[simp] theorem State.align_memWf (s : State) (k since : Nat) (h : s.mem.wf = true) : (s.align k since).mem.wf = true := by
  simp only [State.align]
  repeat' split
  all_goals simp [h]

@[simp] theorem State.tsNosync_memWf (s : State) (h : s.mem.wf = true) : (s.tsNosync).mem.wf = true := by
  simp only [State.tsNosync]
  repeat' split
  all_goals simp [h]

@[simp] theorem State.tsLatch_mem (s : State) : (s.tsLatch).mem = s.mem := by simp [State.tsLatch]

@[simp] theorem State.mgmtRead_mem (s : State) (v : Word) : (s.mgmtRead v).mem = s.mem := by simp [State.mgmtRead]

@[simp] theorem State.ladder_memWf (s : State) (thermal : Bool) (f : Bw → Bw) (h : s.mem.wf = true) :
    (s.ladder thermal f).mem.wf = true := by
  simp only [State.ladder]
  repeat' split
  all_goals simp [h]

@[simp] theorem State.thermWarn_memWf (s : State) (tjq tile : Nat) (h : s.mem.wf = true) :
    (s.thermWarn tjq tile).mem.wf = true := by
  simp only [State.thermWarn]
  repeat' split
  all_goals simp [h]

@[simp] theorem State.currentWindow_memWf (s : State) (amps dw tjq tile : Nat) (h : s.mem.wf = true) :
    (s.currentWindow amps dw tjq tile).mem.wf = true := by
  simp only [State.currentWindow]
  repeat' split
  all_goals simp [h]

@[simp] theorem State.thermalWindow_memWf (s : State) (h : s.mem.wf = true) : (s.thermalWindow).mem.wf = true := by
  simp only [State.thermalWindow]
  repeat' split
  all_goals simp [h]

@[simp] theorem State.bwPending_mem (s : State) : s.bwPending.mem = s.mem := by
  unfold State.bwPending
  rw [State.onBw_mem]
  exact foldl_mem _ _ _ (fun s e => by split <;> simp)

@[simp] theorem State.powerWindow_memWf (s : State) (h : s.mem.wf = true) : (s.powerWindow).mem.wf = true := by
  simp only [State.powerWindow]
  repeat' split
  all_goals simp [h]

@[simp] theorem State.thermalTrip_mem (s : State) : (s.thermalTrip).mem = s.mem := by simp [State.thermalTrip]

@[simp] theorem State.applyGrant_mem (s : State) (w round : Nat) : (s.applyGrant w round).mem = s.mem := by simp [State.applyGrant]

@[simp] theorem State.sendGrants_memWf (s : State) (h : s.mem.wf = true) : s.sendGrants.mem.wf = true := by
  unfold State.sendGrants
  extract_lets ms r gs s1
  exact foldl_memWf _ _ (fun s x hs => by split <;> simp [hs]) (by simp [s1, h])

@[simp] theorem State.tryGrant_memWf (s : State) (h : s.mem.wf = true) : (s.tryGrant).mem.wf = true := by
  simp only [State.tryGrant]
  repeat' split
  all_goals simp [h]

@[simp] theorem State.checkFallback_memWf (s : State) (h : s.mem.wf = true) : (s.checkFallback).mem.wf = true := by
  simp only [State.checkFallback]
  repeat' split
  all_goals simp [h]

@[simp] theorem State.roundStart_memWf (s : State) (h : s.mem.wf = true) : (s.roundStart).mem.wf = true := by
  simp only [State.roundStart]
  repeat' split
  all_goals simp [h]

@[simp] theorem State.budgetReport_memWf (s : State) (k : Packet) (h : s.mem.wf = true) : (s.budgetReport k).mem.wf = true := by
  simp only [State.budgetReport]
  repeat' split
  all_goals simp [h]

/-! ### Onjan: the security processor -/

@[simp] theorem State.onSec_mem (s : State) (f : Sec → Sec) : (s.onSec f).mem = s.mem := by simp [State.onSec]

@[simp] theorem State.secRefuse_mem (s : State) (code : Nat) : (s.secRefuse code).mem = s.mem := by simp [State.secRefuse]

@[simp] theorem State.evaluateConfig_memWf (s : State) (h : s.mem.wf = true) : (s.evaluateConfig).mem.wf = true := by
  simp only [State.evaluateConfig]
  repeat' split
  all_goals simp [h]

@[simp] theorem State.attest_mem (s : State) : (s.attest).mem = s.mem := by simp [State.attest]

@[simp] theorem State.attestDone_memWf (s : State) (h : s.mem.wf = true) : (s.attestDone).mem.wf = true := by
  simp only [State.attestDone]
  repeat' split
  all_goals simp [h]

@[simp] theorem State.rptRead_mem (s : State) : (s.rptRead).mem = s.mem := by simp [State.rptRead]

@[simp] theorem State.drawChallenge_mem (s : State) : (s.drawChallenge).mem = s.mem := by simp [State.drawChallenge]

@[simp] theorem State.tokenData_mem (s : State) (v : Word) : (s.tokenData v).mem = s.mem := by simp [State.tokenData]

@[simp] theorem State.tokenRefuse_memWf (s : State) (code : Nat) (h : s.mem.wf = true) : (s.tokenRefuse code).mem.wf = true := by
  simp [State.tokenRefuse, h]

@[simp] theorem State.tokenSubmit_memWf (s : State) (h : s.mem.wf = true) : (s.tokenSubmit).mem.wf = true := by
  simp only [State.tokenSubmit]
  repeat' split
  all_goals simp [h]

@[simp] theorem State.scrubCores_memWf (s : State) (h : s.mem.wf = true) : s.scrubCores.mem.wf = true := by
  refine foldl_memWf _ _ (fun s t hs => by simp [hs]) ?_
  exact foldl_memWf _ _ (fun s d hs => by simp [hs]) h

@[simp] theorem State.dropPortKeys_memWf (s : State) (h : s.mem.wf = true) : s.dropPortKeys.mem.wf = true :=
  foldl_memWf _ _ (fun s p hs => by simp [hs]) h

@[simp] theorem State.dropMemKeys_mem (s : State) : (s.dropMemKeys).mem = s.mem := by simp [State.dropMemKeys]

@[simp] theorem State.authEvent_memWf (s : State) (z : Bool) (h : s.mem.wf = true) : (s.authEvent z).mem.wf = true := by
  simp [State.authEvent, h]

@[simp] theorem State.transition_memWf (s : State) (dest : Life) (h : s.mem.wf = true) : (s.transition dest).mem.wf = true := by
  simp [State.transition, h]

@[simp] theorem State.tokenDone_memWf (s : State) (sigOk : Bool) (h : s.mem.wf = true) : (s.tokenDone sigOk).mem.wf = true := by
  unfold State.tokenDone
  refine ite_memWf h ?_
  extract_lets code scope s1 s2
  have h1 : s1.mem.wf = true := by simp [s1, h]
  have h2 : s2.mem.wf = true := by simp [s2, h1]
  refine ite_memWf (by simp [h1]) (ite_memWf (ite_memWf (by simp [h2]) (by simp [h1])) (ite_memWf (by simp [h1]) (by simp [h1])))

@[simp] theorem State.dbgLock_mem (s : State) : (s.dbgLock).mem = s.mem := by simp [State.dbgLock]

@[simp] theorem State.svnCommit_mem (s : State) : (s.svnCommit).mem = s.mem := by simp [State.svnCommit]

@[simp] theorem State.fk0Revoke_mem (s : State) : (s.fk0Revoke).mem = s.mem := by simp [State.fk0Revoke]

@[simp] theorem State.memEncWrite_mem (s : State) (v : Word) : (s.memEncWrite v).mem = s.mem := by simp [State.memEncWrite]

@[simp] theorem State.retainRelease_memWf (s : State) (j : Nat) (h : s.mem.wf = true) : (s.retainRelease j).mem.wf = true := by
  unfold State.retainRelease
  refine ite_memWf h (State.event_memWf _ _ ?_)
  exact foldl_memWf _ _ (fun s t hs => by simp [hs]) h

@[simp] theorem State.rngRead_mem (s : State) : (s.rngRead).mem = s.mem := by simp [State.rngRead]

@[simp] theorem State.rngTestFail_memWf (s : State) (test : Nat) (h : s.mem.wf = true) : (s.rngTestFail test).mem.wf = true := by
  simp only [State.rngTestFail]
  repeat' split
  all_goals simp [h]

/-! ### Test access -/

@[simp] theorem State.onTst_mem (s : State) (f : Tst → Tst) : (s.onTst f).mem = s.mem := by simp [State.onTst]

@[simp] theorem State.tapTake_mem (s : State) (ir out dr : Nat) : (s.tapTake ir out dr).mem = s.mem := by simp [State.tapTake]

@[simp] theorem State.tapRefuse_mem (s : State) : (s.tapRefuse).mem = s.mem := by simp [State.tapRefuse]

@[simp] theorem State.fuseProg_mem (s : State) (w : Nat) (bits : Word) (vpp : Bool) : (s.fuseProg w bits vpp).mem = s.mem := by
  simp [State.fuseProg]

@[simp] theorem State.fuseVerify_mem (s : State) (w : Nat) : (s.fuseVerify w).mem = s.mem := by simp [State.fuseVerify]

@[simp] theorem State.bistRun_mem (s : State) (t kind : Nat) : (s.bistRun t kind).mem = s.mem := by simp [State.bistRun]

@[simp] theorem State.admitWaiting_memWf (s : State) (h : s.mem.wf = true) : s.admitWaiting.mem.wf = true :=
  foldl_memWf _ _ (fun s a hs => by simp [hs]) (by simp [h])

@[simp] theorem State.bistDone_memWf (s : State) (pass : Bool) (store : Nat) (h : s.mem.wf = true) :
    (s.bistDone pass store).mem.wf = true := by
  simp only [State.bistDone]
  repeat' split
  all_goals simp [h]

@[simp] theorem State.portTest_mem (s : State) (p mode lane : Nat) (ok : Bool) : (s.portTest p mode lane ok).mem = s.mem := by
  simp [State.portTest]

@[simp] theorem State.portTestDone_memWf (s : State) (errors tm vm : Nat) (h : s.mem.wf = true) :
    (s.portTestDone errors tm vm).mem.wf = true := by
  simp only [State.portTestDone]
  repeat' split
  all_goals simp [h]

@[simp] theorem State.dbgGate_memWf (s : State) (act : State → State) (hact : ∀ s, s.mem.wf = true → (act s).mem.wf = true)
    (h : s.mem.wf = true) : (s.dbgGate act).mem.wf = true :=
  ite_memWf (hact s h) (by simp [h])

@[simp] theorem State.dbgHalt_memWf (s : State) (t : Nat) (h : s.mem.wf = true) : (s.dbgHalt t).mem.wf = true := by
  simp only [State.dbgHalt]
  repeat' split
  all_goals simp [h]

@[simp] theorem State.dbgStep_mem (s : State) (t : Nat) : (s.dbgStep t).mem = s.mem := by simp [State.dbgStep]

@[simp] theorem State.dbgResume_mem (s : State) (t : Nat) : (s.dbgResume t).mem = s.mem := by simp [State.dbgResume]

@[simp] theorem State.dbgNext_mem (s : State) : (s.dbgNext).mem = s.mem := by simp [State.dbgNext]

@[simp] theorem State.dbgRefused_memWf (s : State) (h : s.mem.wf = true) : (s.dbgRefused).mem.wf = true := by
  simp [State.dbgRefused, h]

@[simp] theorem State.dbgReadData_memWf (s : State) (h : s.mem.wf = true) : (s.dbgReadData).mem.wf = true := by
  simp only [State.dbgReadData]
  repeat' split
  all_goals simp [h]

@[simp] theorem State.dbgWriteData_memWf (s : State) (v : Word) (h : s.mem.wf = true) : (s.dbgWriteData v).mem.wf = true := by
  simp only [State.dbgWriteData]
  repeat' split
  all_goals simp [h]

@[simp] theorem State.traceClear_mem (s : State) : (s.traceClear).mem = s.mem := by simp [State.traceClear]

@[simp] theorem State.traceNext_mem (s : State) : (s.traceNext).mem = s.mem := by simp [State.traceNext]

@[simp] theorem State.telemCtrl_mem (s : State) (v : Word) : (s.telemCtrl v).mem = s.mem := by simp [State.telemCtrl]

@[simp] theorem State.telemWindowEnd_mem (s : State) : (s.telemWindowEnd).mem = s.mem := by simp [State.telemWindowEnd]

/-! ### Flag bits of a register write -/

@[simp] theorem State.cfgReadEffect_memWf (s : State) (off : Nat) (h : s.mem.wf = true) : (s.cfgReadEffect off).mem.wf = true := by
  simp only [State.cfgReadEffect]
  repeat' split
  all_goals simp [h]

/-! ### Register writes -/

@[simp] theorem State.onBit_mem (s : State) (v : Word) (i : Nat) (f : State → State) (hf : ∀ s, (f s).mem = s.mem) :
    (s.onBit v i f).mem = s.mem := by
  unfold State.onBit
  split
  · exact hf s
  · rfl

@[simp] theorem State.onBit_memWf (s : State) (v : Word) (i : Nat) (f : State → State)
    (hf : ∀ s, s.mem.wf = true → (f s).mem.wf = true) (h : s.mem.wf = true) : (s.onBit v i f).mem.wf = true :=
  ite_memWf (hf s h) h

@[simp] theorem State.resetCtrl_memWf (s : State) (v : Word) (h : s.mem.wf = true) : (s.resetCtrl v).mem.wf = true :=
  State.onBit_memWf _ _ _ _ (fun s hs => State.requestReset_memWf s _ _ _ _ hs)
    (State.onBit_memWf _ _ _ _ State.pkgSrst_memWf (by simp [h]))

@[simp] theorem State.wdogWrite_mem (s : State) (v : Word) : (s.wdogWrite v).mem = s.mem := by simp [State.wdogWrite]

@[simp] theorem State.fwCtrl_mem (s : State) (v : Word) : (s.fwCtrl v).mem = s.mem := by simp [State.fwCtrl]

@[simp] theorem State.wrReset_memWf (s : State) (src : CfgSrc) (off : Nat) (v : Word) (h : s.mem.wf = true) :
    (s.wrReset src off v).1.mem.wf = true := by
  simp only [State.wrReset]
  repeat' split
  all_goals simp [h]

@[simp] theorem State.wrOptClk_mem (s : State) (off : Nat) (v : Word) : (s.wrOptClk off v).1.mem = s.mem := by
  simp only [State.wrOptClk]
  repeat' split
  all_goals simp

@[simp] theorem State.portCtrl_memWf (s : State) (p : Nat) (v : Word) (h : s.mem.wf = true) : (s.portCtrl p v).mem.wf = true := by
  unfold State.portCtrl
  extract_lets base rate s1 s2
  have h2 : s2.mem.wf = true := by unfold s2; split <;> simp [s1, h]
  exact State.onBit_memWf _ _ _ _ (fun s hs => State.portIsolate_memWf s p hs) (by simp [h2])

@[simp] theorem State.wrPort_memWf (s : State) (p off : Nat) (v : Word) (h : s.mem.wf = true) : (s.wrPort p off v).mem.wf = true := by
  unfold State.wrPort
  split <;> simp +contextual [h]

@[simp] theorem State.routeWrite_mem (s : State) (v : Word) : (s.routeWrite v).mem = s.mem := by simp [State.routeWrite]

@[simp] theorem State.wrQm_memWf (s : State) (off : Nat) (v : Word) (h : s.mem.wf = true) : (s.wrQm off v).mem.wf = true := by
  simp only [State.wrQm]
  repeat' split
  all_goals simp [h]

@[simp] theorem State.wrKw_mem (s : State) (off : Nat) (v : Word) : (s.wrKw off v).mem = s.mem := by
  simp only [State.wrKw]
  repeat' split
  all_goals simp

@[simp] theorem State.bwWrite_mem (s : State) (off : Nat) (v : Word) : (s.bwWrite off v).mem = s.mem := by simp [State.bwWrite]

@[simp] theorem State.wrSyncBw_memWf (s : State) (off : Nat) (v : Word) (h : s.mem.wf = true) :
    (s.wrSyncBw off v).mem.wf = true := by
  simp only [State.wrSyncBw]
  repeat' split
  all_goals simp [h]

@[simp] theorem State.secCtrl_memWf (s : State) (v : Word) (h : s.mem.wf = true) : (s.secCtrl v).mem.wf = true := by
  have h2 := State.onBit_memWf ((s.onBit v 0 State.attest).onBit v 1 State.drawChallenge) v 2 State.tokenSubmit
    State.tokenSubmit_memWf (by simp [h])
  simp [State.secCtrl, h2]

@[simp] theorem State.wrSec_memWf (s : State) (off : Nat) (v : Word) (h : s.mem.wf = true) : (s.wrSec off v).1.mem.wf = true := by
  simp only [State.wrSec]
  repeat' split
  all_goals simp +contextual [h]

@[simp] theorem State.faultStatus_mem (s : State) (v : Word) : (s.faultStatus v).mem = s.mem := by simp [State.faultStatus]

@[simp] theorem State.wrFault_memWf (s : State) (off : Nat) (v : Word) (h : s.mem.wf = true) : (s.wrFault off v).mem.wf = true := by
  simp only [State.wrFault]
  repeat' split
  all_goals simp [h]

@[simp] theorem State.bistCtrl_mem (s : State) (v : Word) : (s.bistCtrl v).mem = s.mem := by simp [State.bistCtrl]

@[simp] theorem State.portTestCtrl_mem (s : State) (v : Word) : (s.portTestCtrl v).mem = s.mem := by simp [State.portTestCtrl]

@[simp] theorem State.dbgCtrl_memWf (s : State) (v : Word) (h : s.mem.wf = true) : (s.dbgCtrl v).mem.wf = true := by
  unfold State.dbgCtrl
  extract_lets t gate s1
  have hgate : ∀ f : State → Nat → State, (∀ s, s.mem.wf = true → (f s t).mem.wf = true) →
      ∀ s, s.mem.wf = true → (gate f s).mem.wf = true := by
    intro f hf s hs
    exact State.dbgGate_memWf s _ (fun s hs => ite_memWf (hf s hs) hs) hs
  refine State.onBit_memWf _ _ _ _ (hgate _ (fun s hs => by simp [hs])) ?_
  refine State.onBit_memWf _ _ _ _ (hgate _ (fun s hs => by simp [hs])) ?_
  exact State.onBit_memWf _ _ _ _ (hgate _ (fun s hs => by simp [hs])) (by simp [s1, h])

@[simp] theorem State.wrTest_memWf (s : State) (off : Nat) (v : Word) (h : s.mem.wf = true) : (s.wrTest off v).mem.wf = true := by
  simp only [State.wrTest]
  repeat' split
  all_goals simp [h]

@[simp] theorem State.cfgWrite_memWf (s : State) (src : CfgSrc) (off : Nat) (v : Word) (h : s.mem.wf = true) :
    (s.cfgWrite src off v).1.mem.wf = true := by
  simp only [State.cfgWrite]
  repeat' split
  all_goals simp [h]

@[simp] theorem State.cfgRsp_memWf (s : State) (p : Nat) (k : Packet) (ok : Bool) (v : Word) (h : s.mem.wf = true) :
    (s.cfgRsp p k ok v).mem.wf = true := by
  simp [State.cfgRsp, h]

@[simp] theorem State.cfgRefused_memWf (s : State) (p : Nat) (k : Packet) (h : s.mem.wf = true) :
    (s.cfgRefused p k).mem.wf = true := by
  simp [State.cfgRefused, h]

@[simp] theorem State.cfgRdPacket_memWf (s : State) (p : Nat) (k : Packet) (h : s.mem.wf = true) :
    (s.cfgRdPacket p k).mem.wf = true := by
  simp only [State.cfgRdPacket]
  repeat' split
  all_goals simp [h]

@[simp] theorem State.cfgWrPacket_memWf (s : State) (p : Nat) (k : Packet) (h : s.mem.wf = true) :
    (s.cfgWrPacket p k).mem.wf = true := by
  simp only [State.cfgWrPacket]
  repeat' split
  all_goals simp [h]

@[simp] theorem State.tapAccess_memWf (s : State) (v : Word) (off : Nat) (wr : Bool) (h : s.mem.wf = true) :
    (s.tapAccess v off wr).mem.wf = true := by
  simp only [State.tapAccess]
  repeat' split
  all_goals simp [h]

/-! ### An idle step -/

@[simp] theorem State.idle_memWf (s : State) (h : s.mem.wf = true) : s.idle.mem.wf = true := by
  unfold State.idle
  extract_lets s1 s2 s3
  have h1 : s1.mem.wf = true := by simp [s1, h]
  refine ite_memWf h1 (ite_memWf h1 ?_)
  have h3 : s3.mem.wf = true := h1
  simp [h3]

end Sys2Proof.Machine
end

section
/-!
PROOFS. The outcome of a command: a next state with the same queue and with memory in form, or a fault that names a unit which
no well-formed command names. The two statements on the whole machine follow (O57, O59).
-/

namespace Sys2Proof.Machine

open Sys2Proof

/-- What every command keeps of a state: the waiting commands, and the form of package memory. -/
structure State.Kept (s s' : State) : Prop where
  pending : s'.pending = s.pending
  memWf : s.mem.wf = true → s'.mem.wf = true

theorem State.Kept.refl {s : State} : s.Kept s := ⟨Eq.refl _, id⟩

theorem State.Kept.ite {c : Prop} [Decidable c] {s a b : State} (ha : s.Kept a) (hb : s.Kept b) : s.Kept (if c then a else b) := by
  split
  · exact ha
  · exact hb

/-- How a command may come out of the state `s`: with a next state that keeps what every command keeps, or, when the command is not
well formed, with a fault. It is never refused. -/
def CarriedOut (wf : Bool) (s : State) : Host.Outcome State Fault Refusal → Prop
  | .next s' => s.Kept s'
  | .fault _ => wf = false
  | .refused _ => False

theorem CarriedOut.kept_of_next {wf : Bool} {s s' : State} {o : Host.Outcome State Fault Refusal} (h : CarriedOut wf s o)
    (he : o = .next s') : s.Kept s' := by
  subst he
  exact h

theorem CarriedOut.next_of_wf {wf : Bool} {s : State} {o : Host.Outcome State Fault Refusal} (h : CarriedOut wf s o)
    (hwf : wf = true) : ∃ s', o = .next s' ∧ s.Kept s' := by
  cases o with
  | next s' => exact ⟨s', rfl, h⟩
  | fault f => exact absurd (hwf.symm.trans h) (by decide)
  | refused r => exact h.elim

/-- A command of a unit: well-formedness says that the unit is there. -/
theorem carriedOut_onUnit {wf ok : Bool} {n : Nat} {s s' : State} (hok : wf = true → ok = true) (hk : s.Kept s') :
    CarriedOut wf s (onUnit ok n s') := by
  cases ok with
  | true => exact hk
  | false => exact Bool.eq_false_iff.mpr (fun h => Bool.false_ne_true (hok h))

theorem State.instr_kept (s : State) (t : Nat) (f : Tile → Tile) : s.Kept (s.instr t f) := ⟨by simp, fun h => by simp [h]⟩

theorem State.instrWhen_kept (s : State) (t : Nat) (ready : Tile → Bool) (f : Tile → Tile) : s.Kept (s.instrWhen t ready f) :=
  .ite (s.instr_kept t f) .refl

theorem carriedOut_instrOn (t : Nat) (f : Tile → Tile) (s : State) : CarriedOut (tileOk t) s (instrOn t f s) :=
  carriedOut_onUnit id (s.instr_kept t f)

theorem State.issue_kept (s : State) (t eng : Nat) (legal : Bool) (mk : Tile → QEntry) :
    s.Kept (s.issue t eng legal mk) := ⟨by simp, fun h => by simp [h]⟩

theorem carriedOut_issueOn (t eng code : Nat) (a : IssueArgs) (s : State) : CarriedOut (tileOk t) s (issueOn t eng code a s) :=
  carriedOut_onUnit id (s.issue_kept t eng _ _)

theorem carriedOut_issueOpOn (t eng code : Nat) (opOf : List Word → Nat) (op top : Nat) (a : IssueArgs) (s : State) :
    CarriedOut (tileOk t) s (issueOpOn t eng code opOf op top a s) :=
  carriedOut_onUnit id (.ite (s.issue_kept t eng _ _) .refl)

theorem carriedOut_vecOn (t vop : Nat) (v : VecArgs) (s : State) : CarriedOut (tileOk t) s (vecOn t vop v s) :=
  carriedOut_onUnit id (s.issue_kept t 2 _ _)

/-- A packet that arrives: what the port does keeps both, so the outcome turns on what the packet is acted on with. -/
theorem carriedOut_receive {wf : Bool} {p : Nat} (s : State) (k : Packet) (act : State → State) (hok : wf = true → portOk p = true)
    (hact : ∀ s : State, s.Kept (act s)) : CarriedOut wf s (onUnit (isPort p) p (s.receive p k act)) :=
  carriedOut_onUnit hok ⟨State.receive_pending s p k act (fun s => (hact s).pending),
    State.receive_memWf s p k act (fun s => (hact s).memWf)⟩

theorem portOk_of_packet {p : Nat} {k : Packet} (h : (portOk p && packetFits k) = true) : portOk p = true :=
  Bool.and_elim_left h

/-- The same for an answer, which acts on the open transaction that it closes. -/
theorem carriedOut_answered {wf : Bool} {p : Nat} (s : State) (k : Packet) (fits : Packet → Bool) (f : State → OpenTx → State)
    (hok : wf = true → portOk p = true) (hf : ∀ (s : State) o, s.Kept (f s o)) :
    CarriedOut wf s (onUnit (isPort p) p (s.receive p k (fun s => s.answered k fits f))) :=
  carriedOut_receive s k _ hok (fun s => ⟨State.answered_pending s k fits f (fun s o => (hf s o).pending),
    State.answered_memWf s k fits f (fun s o => (hf s o).memWf)⟩)

/-- Every command is carried out. The sequencer, `ISSUE` and vector instructions are each one shared operation; a command that names a
tile or a port is stopped only where the die has no such unit; a packet goes through its port; the rest are carried out anywhere. -/
theorem exec_carriedOut (c : Instr) (s : State) : CarriedOut (wellFormed c) s (exec c s) := by
  cases c with
  | add | sub | and | or | xor | sll | srl | sra | slt | sltu | mul | mulhu | min | max | minu | maxu | addi | andi | ori |
  lui | memLoad | memStore | beq | bne | blt | bge | bltu | bgeu | jal | jalr | csrRead | csrWrite | csrSet | csrClear | tpost
  | tset | nop | trap =>
    exact carriedOut_instrOn _ _ _
  | pass | accClear | cntStore | scale | bellCfg | bellStore | rowFwd | rowBwd | rSpill | rFill | rInval | rbellCfg | rCnt |
  dmMove | dmGather | dmTfill | dmTread | dmDmem | dmSwrite | dmSread | creditReq | creditDrop | rxOpen | rxClose | dmCnt |
  syInit | syWait | syArrive | syFree | syRead =>
    exact carriedOut_issueOn _ _ _ _ _
  | slotRelease | markFull | setRaw | rawEmpty | rawFull | sySignalAdd | sySignalClear | sySignalLoad =>
    exact carriedOut_issueOpOn _ _ _ _ _ _ _ _
  | vsetvl | vbcfg | vcnt | vwait | vpost | vld | vacc | vacct | vtr | vtw | vmov | vbcast | viota | vadd | vsub | vmul | vfma
  | vmax | vmin | vabs | vneg | vcmp | vsel | vrsum | vrmax | vrmin | vramax | vexp2 | vlog2 | vrcp | vrsqrt | vtanh | vperm |
  vstv | vstt =>
    exact carriedOut_vecOn _ _ _ _
  | fence | twait | brk | issueStallResume | tokenWaitStart | commandComplete | programStart | wdog | yieldGraceExpiry |
  contextSave | statLoadRow | streamRowEnter | loadChannelTake | bellVectorLoad | bellRowRead | bellStoreComplete |
  dmaTransferComplete | creditAllocGrant | creditWaitTimeout | muteScrubDone | syWaitTimeout | stashAlloc | stashPresent |
  spareAdmitted | crstDone | cePredictiveFence | dbgStep | dbgResume | illegalWord | portTrainRetry | kexTimeout | rekeyStart
  | portEn | portRetrain | errLimitRetrain | retrainTimeout | portIsolate | keepaliveSend | l1Entry | l1Exit | sidebandRetrain
  | flitReplay | linkLevelAck | creditReturnSend =>
    exact carriedOut_onUnit id ⟨by simp, fun h => by simp [h]⟩
  | eventDoorbell | keyCert | keyOffer | keySwitch | rd | spRd | credReq | xlate | wr | spWr | doorbell | atomic | inv |
  invBatch | invAck | syOp | barReport | barRelease | creditRet | keepalive | cfgRd | cfgWr | budgetReport | budgetGrant |
  resetReq | join | accept | refuse | lost | clockFault =>
    exact carriedOut_receive s _ _ portOk_of_packet (fun s => ⟨by simp, fun h => by simp [h]⟩)
  | coreMapMovingResolve | syncDbgRead | syncDbgWrite | syncDbgRelease | syncDbgClose | syncDbgFree | qmCtrlWrite | descFetch
  | descDispatch | compute | copy | syncDescSignal | syncDescWait | syncDescArrive | near | nearCore | spreadOver | freeze |
  thaw | activate | release | reedSpill | reedFill | killJob | resetStream | jobKillDone | descComplete | descResume |
  streamTimeout | streamWriteback | notifyWrite | epochBoundary | migrationCopyDone | migrationSwitchDone | objFreed |
  translationMiss | reqTagExpiry | pkgFormTimeout | refLoss | refReturn | holdoverExpiry | porSupply | porstN | sysrstN |
  sysWdogExpiry | sysWdogKick | resetCtrlSrst | pkgSrst | deferredReset | coreResetMask | bootStart | pllLock |
  onjanSelftestDone | fwVerified | keyworkInit | bootReady | fwLoad | fwData | fwSwitch | fwAbort | fwQuiesce |
  fwQuiesceTimeout | optData | optCommit | optRevert | optCommitDone | uncoreFault | fenceMask | fenceRelease | descReplay |
  commitPoint | commitApplyDone | tsyncEmit | tsyncFrame | tsNosync | currentWindowEnd | powerWindowEnd | thermalWindowEnd |
  budgetRoundStart | budgetGrantDeadline | thermalTrip | tsLoRead | attest | attestDone | secRptDataRead | challenge |
  secTokenDataWrite | tokenSubmit | dbgLock | svnCommit | fk0Revoke | secMemencWrite | secRetainRelease | secRngRead |
  rngTestFail | tapReset | extest | idcode | samplePreload | clamp | highz | wirSel | cfgAccess | fuseProg | fuseVerify | scan
  | bypass | bistRun | bistDone | portTestRun | portTestDone | dbgDataAccess | traceClear | traceDataRead | telemCtrlWrite |
  telemWindowEnd | cfgRegWrite | tokenVerifyDone =>
    exact State.Kept.mk (by simp) (fun h => by simp [h])
  | endProg t =>
    have h1 := s.instrWhen_kept t (fun q => q.drained 63) (fun q => q.onSeq (fun z => { z with phase := .ended }))
    exact carriedOut_onUnit id (.ite ⟨by simp, fun h => by simp [h1.memWf h]⟩ h1)
  | passComplete t ma =>
    refine carriedOut_onUnit id (.ite ?_ .refl)
    split
    · exact ⟨by simp, fun h => by simp [h]⟩
    · exact .refl
  | tagWaitGrant t eng idx =>
    refine carriedOut_onUnit id ?_
    split
    · exact .ite ⟨by simp, fun h => by simp [h]⟩ .refl
    · exact .refl
  | dbgHalt t => exact carriedOut_onUnit id ⟨by simp, s.dbgGate_memWf _ (fun s h => by simp [h])⟩
  | correctedError t => exact carriedOut_onUnit id ⟨by simp, fun h => by simp [h]⟩
  | yield | baseDieTimeout => exact carriedOut_onUnit Bool.and_elim_left ⟨by simp, fun h => by simp [h]⟩
  | coreFault | portTrainingDone | linkLoss =>
    exact carriedOut_onUnit (fun h => Bool.and_elim_left (Bool.and_elim_left h)) ⟨by simp, fun h => by simp [h]⟩
  | caps => exact carriedOut_onUnit portOk_of_packet ⟨by simp, fun h => by simp [h]⟩
  | fenceDesc d =>
    change s.Kept (match s.desc d with | none => _ | some x => _)
    split
    · exact .refl
    · exact .ite ⟨by simp, fun h => by simp [h]⟩ .refl
  | nopDesc d =>
    change s.Kept (match s.desc d with | some x => _ | none => _)
    split
    · exact .ite ⟨by simp, fun h => by simp [h]⟩ .refl
    · exact .refl
  | absentAdmission =>
    change s.Kept (match s.lowestAbsent with | some c => _ | none => _)
    split
    · exact .ite ⟨by simp, fun h => by simp [h]⟩ .refl
    · exact .refl
  | rdData p k =>
    exact carriedOut_answered s _ _ _ portOk_of_packet
      (fun s o => .ite ⟨by simp, fun h => by simp [h]⟩ ⟨by simp, fun h => by simp [h]⟩)
  | rdErr | wrAck | credGrant | credRefuse | xlateRsp | cfgRsp =>
    exact carriedOut_answered s _ _ _ portOk_of_packet (fun s o => ⟨by simp, fun h => by simp [h]⟩)
  | syResult p k i =>
    cases p with
    | none => exact State.Kept.mk (by simp) (fun h => by simp [h])
    | some p =>
      refine carriedOut_answered s _ _ _ portOk_of_packet (fun s o => ?_)
      split
      · exact ⟨by simp, fun h => by simp [h]⟩
      · exact .refl

/-- A step takes the front command, or nothing when none waits. -/
theorem step_carriedOut (s : State) (hwf : s.queueWf = true) :
    ∃ s', step s = .next s' ∧ s'.pending = s.pending.tail ∧ s'.queueWf = true := by
  unfold State.queueWf at hwf ⊢
  unfold step
  split
  · rename_i hq
    exact ⟨_, rfl, by simp [hq], by simp [hq]⟩
  · rename_i c rest hq
    rw [hq, List.all_cons, Bool.and_eq_true] at hwf
    obtain ⟨hc, hrest⟩ := hwf
    obtain ⟨s', he, hk⟩ := (exec_carriedOut c { s with pending := rest }).next_of_wf hc
    exact ⟨s', he, by rw [hk.pending, hq]; rfl, by rw [hk.pending]; exact hrest⟩

/-- Settles O57: no command is refused, the only fault is a missing unit (`exec_carriedOut`), and no command touches the queue. -/
theorem commandsAreCarriedOutAndLeaveTheQueue : Obligations.CommandsAreCarriedOutAndLeaveTheQueue := by
  refine ⟨fun c s hc => ?_, fun c s s' he => ?_, step_carriedOut⟩
  · obtain ⟨s', he, hk⟩ := (exec_carriedOut c s).next_of_wf hc
    exact ⟨s', he, hk.pending⟩
  · exact ((exec_carriedOut c s).kept_of_next he).pending

/-- Settles O59, by cases on whether a command waits: an idle step keeps memory in form, and so does every command (`exec_carriedOut`). -/
theorem memoryKeepsItsForm : Obligations.MemoryKeepsItsForm := by
  intro s s' hwf hs
  unfold step at hs
  split at hs
  · cases hs
    exact State.idle_memWf s hwf
  · exact ((exec_carriedOut _ _).kept_of_next hs).memWf hwf

end Sys2Proof.Machine
end

section
/-!
PROOFS. The scalar registers, and the instructions that compute, access data memory, branch and jump
(spec/02_core_and_sequencer.md, R36 to R45).
-/

namespace Sys2Proof.Machine

open Sys2Proof

/-! ### Scalar registers (R36) -/

theorem reg_zero (q : Tile) : q.reg 0 = 0 := if_pos rfl

theorem setReg_zero (q : Tile) (v : Word) : q.setReg 0 v = q := if_pos rfl

/-- A register read after a register is written: s0 discards the write (R36). -/
theorem reg_setReg (q : Tile) (r x : BitVec 5) (v : Word) :
    (q.setReg r v).reg x = if x = r ∧ r ≠ 0 then v else q.reg x := by
  by_cases hr : r = 0
  · subst hr
    rw [setReg_zero, if_neg fun h => h.2 rfl]
  · simp only [Tile.setReg, if_neg hr, Tile.reg, Tab.get_set]
    by_cases hx : x = r
    · subst hx
      rw [if_neg hr, if_pos rfl, if_pos ⟨rfl, hr⟩]
    · rw [if_neg (c := x.toNat = r.toNat) (fun h => hx (BitVec.eq_of_toNat_eq h)), if_neg (c := x = r ∧ r ≠ 0) (fun h => hx h.1)]

/-- Settles O3: the two rules of s0 and the read after a write (`reg_setReg`). -/
theorem scalarRegistersHoldWrites : Obligations.ScalarRegistersHoldWrites :=
  fun q r x v => ⟨reg_zero q, setReg_zero q v, reg_setReg q r x v⟩

/-! ### An instruction that moves on -/

/-- Two tiles whose sequencers stand alike in their program: same place, image, phase and step grant. -/
structure Tile.SameControl (q q' : Tile) : Prop where
  pc : q'.seq.pc = q.seq.pc
  progLen : q'.seq.progLen = q.seq.progLen
  phase : q'.seq.phase = q.seq.phase
  stepping : q'.seq.stepping = q.seq.stepping

theorem Tile.SameControl.refl (q : Tile) : q.SameControl q := ⟨rfl, rfl, rfl, rfl⟩

theorem setReg_control (q : Tile) (r : BitVec 5) (v : Word) : q.SameControl (q.setReg r v) :=
  ⟨setReg_pc q r v, setReg_pl q r v, setReg_ph q r v, setReg_st q r v⟩

theorem setToken_control (q : Tile) (k v : Nat) : q.SameControl (q.setToken k v) := ⟨rfl, rfl, rfl, rfl⟩

section
variable {s : State} {t : Nat} (h : s.executes t = true) (hm : (s.tile t).more = true)
include h hm

/-- An executing instruction that is not the last and moves past itself from a tile `q1` of the same control (R45, R60). -/
theorem moveOn_next {f g : Tile → Tile} {q1 : Tile} (hc : (s.tile t).SameControl q1) (hf : f (s.tile t) = q1.advance)
    (hg : g (s.tile t) = q1.at ((s.tile t).seq.pc + 1)) : instrOn t f s = .next (s.onTile t g) := by
  obtain ⟨-, -, -, hst, hph⟩ := executes_iff h
  have hm1 : q1.more = true := by simpa only [Tile.more, hc.pc, hc.progLen] using hm
  refine instr_next h f g ?_ ?_
  · rw [hf, hg, retire_more hm1 (hc.stepping.trans hst), hc.pc]
  · rw [hg]; exact hc.phase.trans hph

end

/-! ### ALU and ALUI (R42) -/

/-- A shift distance is the low five bits of its register (R42). -/
theorem fld_shift (b : Word) : fld b 0 5 = b.toNat % 32 := by simp [fld, bitsOf]

/-- The smaller and the larger of two words in a linear order, as the comparison picks them. -/
theorem pick_min {α β : Type} [LinearOrder β] (f : α → β) (hf : Function.Injective f) (a b : α) :
    (if f a < f b then a else b) = (if f a ≤ f b then a else b) := by
  rcases lt_trichotomy (f a) (f b) with h | h | h
  · rw [if_pos h, if_pos h.le]
  · rw [hf h]; simp
  · rw [if_neg h.not_gt, if_neg h.not_ge]

theorem pick_max {α β : Type} [LinearOrder β] (f : α → β) (hf : Function.Injective f) (a b : α) :
    (if f a < f b then b else a) = (if f a ≤ f b then b else a) := by
  rcases lt_trichotomy (f a) (f b) with h | h | h
  · rw [if_pos h, if_pos h.le]
  · rw [hf h]; simp
  · rw [if_neg h.not_gt, if_neg h.not_ge]

/-- A truth value as a register value (R42). -/
theorem boolWord_decide (p : Prop) [Decidable p] : boolWord (decide p) = if p then 1 else 0 := by
  by_cases h : p <;> simp [boolWord, h]

/-- Signed and unsigned comparisons of words (R42). -/
theorem slt_decide (a b : Word) : a.slt b = decide (a.toInt < b.toInt) := rfl
theorem ult_decide (a b : Word) : a.ult b = decide (a.toNat < b.toNat) := rfl

section
variable {s : State} {t : Nat} (h : s.executes t = true) (hm : (s.tile t).more = true)
include h hm

/-- An executing `ALU` instruction that is not the last writes its function of the two operands (R42). -/
theorem alu_next {g : Word → Word → Word} {ra rb : BitVec 5} {v : Word} (hv : g ((s.tile t).reg ra) ((s.tile t).reg rb) = v)
    (rd : BitVec 5) : instrOn t (aluOp g rd ra rb) s = .next (s.onTile t (fun q => q.after rd v)) :=
  result_next h hm rd v _ (by rw [aluOp, hv])

end

/-- Settles O2: each instruction is one register write (`alu_next`, `result_next`), and its value is the function of R42. -/
theorem aluWritesFunctionOfOperands : Obligations.AluWritesFunctionOfOperands := by
  intro s t rd ra rb imm h hm a b gives
  refine ⟨alu_next h hm rfl rd, alu_next h hm rfl rd, alu_next h hm rfl rd, alu_next h hm rfl rd, alu_next h hm rfl rd,
    alu_next h hm ?sll rd, alu_next h hm ?srl rd, alu_next h hm ?sra rd, alu_next h hm ?slt rd, alu_next h hm ?sltu rd,
    alu_next h hm ?mul rd, alu_next h hm rfl rd, alu_next h hm ?min rd, alu_next h hm ?max rd, alu_next h hm ?minu rd,
    alu_next h hm ?maxu rd, result_next h hm rd _ _ rfl, result_next h hm rd _ _ rfl, result_next h hm rd _ _ rfl,
    result_next h hm rd _ _ ?lui⟩
  case sll | srl | sra => simp only [fld_shift]; rfl
  case slt => simp only [slt_decide, boolWord_decide]; rfl
  case sltu => simp only [ult_decide, boolWord_decide]; rfl
  case mul => exact BitVec.eq_of_toNat_eq (by simp [a, b])
  case min => simp only [slt_decide, decide_eq_true_eq]; exact pick_min BitVec.toInt (fun _ _ => BitVec.eq_of_toInt_eq) a b
  case max => simp only [slt_decide, decide_eq_true_eq]; exact pick_max BitVec.toInt (fun _ _ => BitVec.eq_of_toInt_eq) a b
  case minu => simp only [ult_decide, decide_eq_true_eq]; exact pick_min BitVec.toNat (fun _ _ => BitVec.eq_of_toNat_eq) a b
  case maxu => simp only [ult_decide, decide_eq_true_eq]; exact pick_max BitVec.toNat (fun _ _ => BitVec.eq_of_toNat_eq) a b
  case lui => exact congrArg ((s.tile t).result rd) (BitVec.eq_of_toNat_eq (by simp [Nat.shiftLeft_eq]))

/-! ### Data memory (R38, R43) -/

/-- An aligned address within the data memory raises no fault (R38). -/
theorem dmemFault_none {a n : Nat} (ha : a % n = 0) (hn : a + n ≤ 0x4000) : dmemFault a n = none := by
  simp [dmemFault, ha, hn]

/-- A misaligned address is an `ALIGN` fault, whatever its range (R38). -/
theorem dmemFault_align {a n : Nat} (ha : a % n ≠ 0) : dmemFault a n = some causeAlign := by
  simp [dmemFault, ha]

/-- An aligned address past the data memory is a `DMEM_RANGE` fault (R38). -/
theorem dmemFault_range {a n : Nat} (ha : a % n = 0) (hn : 0x4000 < a + n) : dmemFault a n = some causeDmem := by
  simp [dmemFault, ha, hn]

/-- A loaded value is below 2 to the width of its access (R7). -/
theorem rdLE_lt (m : Mem) (a n : Nat) : m.rdLE a n < 2 ^ (8 * n) := by
  simpa [Mem.rdLE, rdBytes_length] using leNat_lt (m.rdBytes a n)

/-- A loaded value as a register value: zero-extended, or with the sign of its top bit carried up (R43). -/
theorem loadExtend_eq (size : MemSize) (sx : Bool) {v : Nat} (hv : v < 2 ^ (8 * sizeBytes size)) :
    loadExtend (sizeBytes size) sx v
      = if sx && decide (2 ^ (8 * sizeBytes size - 1) ≤ v) then BitVec.ofNat 32 (v + 2 ^ 32 - 2 ^ (8 * sizeBytes size))
        else BitVec.ofNat 32 v := by
  cases sx with
  | false => simp [loadExtend]
  | true =>
    have hmod := Nat.mod_eq_of_lt hv
    simp only [loadExtend, signedOf, hmod, Bool.true_and, decide_eq_true_eq, if_true]
    have hw : 2 ^ (8 * sizeBytes size) ≤ 2 ^ 32 := Nat.pow_le_pow_right (by decide) (by have := (sizeBytes_pos size).2; omega)
    by_cases hlow : v < 2 ^ (8 * sizeBytes size - 1)
    · rw [if_pos hlow, if_neg (by omega), BitVec.ofInt_natCast]
    · rw [if_neg hlow, if_pos (by omega)]
      rw [← BitVec.ofInt_natCast]
      have he : ((v + 2 ^ 32 - 2 ^ (8 * sizeBytes size) : Nat) : Int) = ((v : Int) - (2 ^ (8 * sizeBytes size) : Nat)) + 2 ^ 32 := by omega
      rw [he]
      exact BitVec.eq_of_toInt_eq (by rw [BitVec.toInt_ofInt, BitVec.toInt_ofInt]; exact (Int.add_bmod_right _ _).symm)

/-- Settles O4: an access that raises no fault (`dmemFault_none`) is a register write of the extended value, or a change of data memory. -/
theorem loadAndStoreDataMemory : Obligations.LoadAndStoreDataMemory := by
  intro s t rd rs ra off size sx h hm n a ha hn v
  have hok : dmemFault (effAddr (s.tile t) ra off) (sizeBytes size) = none := dmemFault_none ha hn
  constructor
  · refine result_next h hm rd _ _ ?_
    rw [loadOp, hok]
    exact congrArg ((s.tile t).result rd) (loadExtend_eq size sx (rdLE_lt _ _ _))
  · refine moveOn_next h hm (q1 := { (s.tile t) with seq := { (s.tile t).seq with
      dmem := (s.tile t).seq.dmem.wrLE a n ((s.tile t).reg rs).toNat } }) ⟨rfl, rfl, rfl, rfl⟩ ?_ rfl
    rw [storeOp, hok]
    rfl

/-! ### Branches and jumps (R44) -/

section
variable {s : State} {t : Nat} (h : s.executes t = true) (hm : (s.tile t).more = true)
include h hm

/-- A conditional branch whose target lies in the image goes there when it is taken, and on to the next word when not (R44). -/
theorem branch_next {cond : Word → Word → Bool} {ra rb : BitVec 5} {off : BitVec 15} {tgt : Nat} {taken : Prop} [Decidable taken]
    (ht : ((s.tile t).seq.pc : Int) + off.toInt = tgt) (hl : tgt < (s.tile t).seq.progLen)
    (hc : cond ((s.tile t).reg ra) ((s.tile t).reg rb) = decide taken) :
    instrOn t (branchOp cond ra rb off) s = .next (s.onTile t (fun q => q.at (if taken then tgt else q.seq.pc + 1))) := by
  obtain ⟨-, -, -, hst, hph⟩ := executes_iff h
  refine instr_next h _ _ ?_ hph
  rw [branchOp, hc, ht]
  by_cases hk : taken
  · simp only [hk, decide_true, if_true]; exact (retire_jump hl hst).symm
  · simp only [hk, decide_false, if_false]; exact (retire_more hm hst).symm

omit hm in
/-- A jump inside the image links the next word and goes to its target (R44). -/
theorem jump_next {f : Tile → Tile} {rd : BitVec 5} {tgt : Nat} (hf : f (s.tile t) = jumpLink rd (tgt : Int) (s.tile t))
    (hl : tgt < (s.tile t).seq.progLen) :
    instrOn t f s = .next (s.onTile t (fun q => (q.setReg rd (BitVec.ofNat 32 (q.seq.pc + 1))).at tgt)) := by
  obtain ⟨-, -, -, hst, hph⟩ := executes_iff h
  refine instr_next h _ _ ?_ (by simpa [Tile.at] using hph)
  have hin : (0 : Int) ≤ tgt ∧ (tgt : Int) < (s.tile t).seq.progLen := by omega
  rw [hf, jumpLink, if_pos hin, retire_jump (by simpa using hl) (by simpa using hst)]

end

/-- Settles O5: six conditions of one branch (`branch_next`) and two jumps (`jump_next`). -/
theorem branchesAndJumpsGoToTheirTarget : Obligations.BranchesAndJumpsGoToTheirTarget := by
  intro s t rd ra rb off joff tgt jtgt h hm q ht hl hj hjl hra a b goes
  refine ⟨branch_next h hm ht hl ?beq, branch_next h hm ht hl ?bne, branch_next h hm ht hl rfl, branch_next h hm ht hl ?bge,
    branch_next h hm ht hl rfl, branch_next h hm ht hl ?bgeu, jump_next h ?jal hjl, jump_next h ?jalr hra⟩
  case beq => exact beq_eq_decide _ _
  case bne => simp [bne, beq_eq_decide, q, a, b]
  case bge => rw [slt_decide, ← decide_not]; exact decide_eq_decide.2 not_lt
  case bgeu => rw [ult_decide, ← decide_not]; exact decide_eq_decide.2 not_lt
  case jal => exact congrArg (fun x => jumpLink rd x q) hj
  case jalr => simp [fld, bitsOf, q, a]

end Sys2Proof.Machine
end

section
/-!
PROOFS. An executing instruction on its sequencer, fences, and tokens with their increments (spec/02_core_and_sequencer.md, R52 to R56).
-/

namespace Sys2Proof.Machine

open Sys2Proof

/-- An executing instruction that raises no fault, on the state (R42). -/
theorem instr_eq {s : State} {t : Nat} (h : s.executes t = true) {f : Tile → Tile} (hf : (f (s.tile t)).isFaulted = false) :
    s.instr t f = s.onTile t (fun q => (f q).onSeq Seq.retired) := by
  obtain ⟨-, hrun, hcan, hst, hph⟩ := executes_iff h
  have hnf : (s.tile t).isFaulted = false := by simp [Tile.isFaulted, hph]
  simp [State.instr, hrun, hcan, hst, runTile_ok (f := fun q => (f q).onSeq Seq.retired) hnf hf]

/-- Whether or not a change of a tile raises a fault, the tile's sequencer is what the change made of it (R61). -/
theorem runTile_seq (s : State) (t : Nat) (f : Tile → Tile) : ((s.runTile t f).tile t).seq = (f (s.tile t)).seq := by
  have hset : ((s.onTile t f).tile t).seq = (f (s.tile t)).seq := congrArg Tile.seq (State.tile_onTile s t f)
  have hquiet : ∀ z : State, z.tiles = (s.onTile t f).tiles → ((((z.faultEvent t).letGo t 2).syncStop t).tile t).seq = (f (s.tile t)).seq := by
    intro z hz
    have hq := ((faultEvent_mild z t).quiet.trans (letGo_quiet _ t 2)).trans (syncStop_quiet _ t)
    rw [hq.seq t, State.tile, hz]; exact hset
  simp only [State.runTile]
  split
  · exact hset
  · split
    · split
      · exact hquiet _ (State.hitDesc_frame ..).1
      · exact hquiet _ rfl
    · exact hset

/-- An executing instruction, on its sequencer. -/
theorem instr_seq {s : State} {t : Nat} (h : s.executes t = true) (f : Tile → Tile) :
    ((s.instr t f).tile t).seq = (f (s.tile t)).seq.retired := by
  obtain ⟨-, hrun, hcan, hst, -⟩ := executes_iff h
  simp only [State.instr, hrun, hcan, hst, Bool.and_self, if_true, Bool.false_and, Bool.false_eq_true, if_false]
  exact runTile_seq ..

/-- An executing instruction, on its tokens. -/
theorem instr_token {s : State} {t : Nat} (h : s.executes t = true) (f : Tile → Tile) (k : Nat) :
    ((s.instr t f).tile t).token k = (f (s.tile t)).token k := by
  rw [Tile.token, instr_seq h]
  rfl

/-- An instruction of a tile that is there, on the state (R40). -/
theorem instrOn_eq {t : Nat} (ht : isTile t = true) (f : Tile → Tile) (s : State) : instrOn t f s = .next (s.instr t f) := if_pos ht

/-! ### Fences and tokens (R53 to R56) -/

/-- A fence is passed when the queues of the engines of its mask are empty (R53). -/
theorem drained_iff (q : Tile) (mask : Nat) : q.drained mask = true ↔ ∀ e, e < 6 → mask.testBit e = true → q.queue e = [] := by
  simp only [Tile.drained, List.all_eq_true, List.mem_range, Bool.or_eq_true, Bool.not_eq_true', List.isEmpty_iff]
  exact forall₂_congr fun e _ => by cases mask.testBit e <;> simp

/-- The fence of `END` and of a save is on all six engines (R57, R63). -/
theorem drained_all (q : Tile) : q.drained 63 = true ↔ ∀ e, e < 6 → q.queue e = [] := by
  rw [drained_iff]
  have hbit : ∀ e, e < 6 → Nat.testBit 63 e = true := by decide
  exact forall₂_congr fun e he => by simp [hbit e he]

/-- A token that no queued command names (R53). -/
theorem namesToken_false (q : Tile) (k : Nat)
    (hq : ∀ e c, e < 6 → c ∈ q.queue e → c.wait ≠ some k ∧ c.post ≠ some k) : q.namesToken k = false := by
  simp only [Tile.namesToken, List.any_eq_false, List.mem_range, Bool.or_eq_true, beq_iff_eq, List.any_eq_true, not_exists, not_and]
  exact fun e he c hc hor => hor.elim (hq e c he hc).1 (hq e c he hc).2

/-- A program fault leaves the tokens alone (R61). -/
theorem progFault_token (q : Tile) (c n k : Nat) : (q.progFault c n).token k = q.token k := by
  by_cases hl : q.live = true
  · simp only [Tile.token, progFault_seq q c n hl]
  · simp [Tile.progFault, hl]

/-- A token that an increment would carry past its highest count, without `TOKEN_CHECK` (R55). -/
theorem postToken_full {q : Tile} {cfg : Word} {k : Nat} (hk : 65535 ≤ q.token k) (hc : bitAt cfg 1 = false) :
    q.postToken cfg k = q := by
  simp [Tile.postToken, hc, show ¬ q.token k < 65535 by omega]

/-- The same under `TOKEN_CHECK`: the program stops (R55). -/
theorem postToken_ovf {q : Tile} {cfg : Word} {k : Nat} (hk : 65535 ≤ q.token k) (hc : bitAt cfg 1 = true) :
    q.postToken cfg k = q.progFault causeTokenOvf 0 := by
  simp [Tile.postToken, hc, show ¬ q.token k < 65535 by omega]

/-- A program that is under way has not stopped with a fault. -/
theorem live_not_faulted {q : Tile} (hl : q.live = true) (c : Nat) : q.seq.phase ≠ .faulted c := by
  intro hp; simp [Tile.live, hp] at hl

theorem isFaulted_of_running {q : Tile} (h : q.seq.phase = .running) : q.isFaulted = false := by simp [Tile.isFaulted, h]

/-- What `TPOST` does to its tile: the increment, and on to the next word unless it stopped the program (R53, R55). -/
def tpostOp (k : BitVec 3) (q : Tile) : Tile :=
  let q' := q.postToken q.seq.coreCfg k.toNat
  if q'.isFaulted then q' else q'.advance

section
variable {s : State} {t : Nat} (h : s.executes t = true) (hm : (s.tile t).more = true)
include h hm

omit h hm in
/-- `TPOST` is the instruction of one change of its tile (R53, R55). -/
theorem tpost_eq (k : BitVec 3) : exec (.tpost t k) s = instrOn t (tpostOp k) s := rfl

/-- `TPOST` of a token that can count on (R53, R55). -/
theorem tpost_next {k : BitVec 3} (hk : (s.tile t).token k.toNat < 65535) :
    exec (.tpost t k) s = .next (s.onTile t (fun q => (q.setToken k.toNat (q.token k.toNat + 1)).at (q.seq.pc + 1))) := by
  obtain ⟨-, -, -, -, hph⟩ := executes_iff h
  refine moveOn_next h hm (setToken_control _ _ _) ?_ rfl
  dsimp only
  rw [postToken_lt hk]
  exact if_neg (Bool.eq_false_iff.1 (isFaulted_of_running hph))

/-- `TPOST` of a full token without `TOKEN_CHECK` (R55). -/
theorem tpost_full {k : BitVec 3} (hk : (s.tile t).token k.toNat = 65535) (hc : bitAt (s.tile t).seq.coreCfg 1 = false) :
    exec (.tpost t k) s = .next (s.onTile t (fun q => q.at (q.seq.pc + 1))) := by
  obtain ⟨-, -, -, -, hph⟩ := executes_iff h
  refine moveOn_next h hm (Tile.SameControl.refl _) ?_ rfl
  dsimp only
  rw [postToken_full hk.ge hc]
  exact if_neg (Bool.eq_false_iff.1 (isFaulted_of_running hph))

end

/-- Settles O55: an increment below the highest count, at it without `TOKEN_CHECK` and at it with `TOKEN_CHECK` (`postToken_lt`,
`postToken_full`, `postToken_ovf`); `TPOST` is one of its users. -/
theorem tokenCountsSaturate : Obligations.TokenCountsSaturate := by
  refine ⟨fun q cfg k hk => ?_, fun s t k h hm => ⟨tpost_next h hm, tpost_full h hm, fun hk hc => ?_⟩⟩
  · rcases Nat.lt_or_ge (q.token k) 65535 with hlt | hge
    · rw [postToken_lt hlt]
      refine ⟨?_, fun j hj => ?_, fun hl => ?_⟩
      · rw [token_setToken, if_pos rfl, Nat.min_eq_right (by omega)]
      · rw [token_setToken, if_neg hj]
      · exact iff_of_false (live_not_faulted (q := q) hl _) (by omega)
    · cases hc : bitAt cfg 1 with
      | false =>
        rw [postToken_full hge hc]
        exact ⟨by omega, fun _ _ => rfl, fun hl => iff_of_false (live_not_faulted hl _) (by simp)⟩
      | true =>
        rw [postToken_ovf hge hc]
        refine ⟨by rw [progFault_token]; omega, fun j _ => progFault_token .., fun hl => ?_⟩
        rw [progFault_seq q _ _ hl]
        exact iff_of_true rfl ⟨by omega, rfl⟩
  · obtain ⟨htile, hrun, hcan, hst, hph⟩ := executes_iff h
    have hl : (s.tile t).live = true := by simp [Tile.live, hph]
    have hf : tpostOp k (s.tile t) = (s.tile t).progFault causeTokenOvf 0 := by
      simp only [tpostOp]
      rw [postToken_ovf hk.ge hc, if_pos]
      simp [Tile.isFaulted, progFault_seq _ _ _ hl]
    obtain ⟨s', he, hstop, -⟩ := instr_fault h (tpostOp k) hf rfl
    refine ⟨s', he, hstop, ?_⟩
    obtain rfl := Host.Outcome.next.inj ((instrOn_eq htile _ s).symm.trans he)
    rw [instr_token h, hf, progFault_token, hk]

end Sys2Proof.Machine
end

section
/-!
PROOFS. The instructions of `WAIT` and `SYS`, with the report of `END`, and the core registers (spec/02_core_and_sequencer.md, R46, R53 to R59).
-/

namespace Sys2Proof.Machine

open Sys2Proof

/-! ### FENCE, TWAIT, TSET, NOP and BRK (R46, R53, R56) -/

section
variable {s : State} {t : Nat} (h : s.executes t = true)
include h

omit h in
/-- A fence whose engines are drained is passed (R53). -/
theorem fence_passes {mask : BitVec 6} (hd : (s.tile t).drained mask.toNat = true) :
    exec (.fence t mask) s = instrOn t Tile.advance s := by
  show onUnit _ _ (State.instrWhen ..) = _
  rw [State.instrWhen, if_pos hd]; rfl

/-- The sequencer stays at a fence whose engines are not drained (R53). -/
theorem fence_stays {mask : BitVec 6} (hd : (s.tile t).drained mask.toNat = false) : exec (.fence t mask) s = .next s := by
  obtain ⟨htile, -⟩ := executes_iff h
  show onUnit _ _ (State.instrWhen ..) = _
  rw [State.instrWhen, if_neg (by simp [hd])]; exact if_pos htile

/-- A `TWAIT` on an empty token makes the sequencer one of its waiters (R53, R56). -/
theorem twait_stays {tok : BitVec 3} (hk : (s.tile t).token tok.toNat = 0) :
    exec (.twait t tok) s = .next (s.onTile t (fun q => { q with seq := { q.seq with twait := some tok.toNat } })) := by
  obtain ⟨htile, hrun, hcan, -⟩ := executes_iff h
  refine (if_pos htile).trans (congrArg _ ?_)
  rw [if_neg (by simp [hk]), if_pos (by simp [hrun, hcan])]; rfl

/-- A `TWAIT` on a token that holds a count takes it (R53). -/
theorem twait_takes {tok : BitVec 3} (hk : (s.tile t).token tok.toNat ≠ 0) :
    exec (.twait t tok) s = instrOn t (fun q => (q.setToken tok.toNat (q.token tok.toNat - 1)).advance) s := by
  obtain ⟨htile, -⟩ := executes_iff h
  refine (if_pos htile).trans ((congrArg _ ?_).trans (instrOn_eq htile _ s).symm)
  rw [if_pos (by simp [hk])]

/-- A `BRK` that does not halt is a `NOP` (R46). -/
theorem brk_passes (hb : (bitAt (s.reg 0x3C10) 11 && s.dbgOpen) = false) : exec (.brk t) s = instrOn t Tile.advance s := by
  obtain ⟨htile, hrun, hcan, -⟩ := executes_iff h
  refine (if_pos htile).trans ((congrArg _ ?_).trans (instrOn_eq htile _ s).symm)
  rw [if_neg (by simp only [hrun, hcan, Bool.true_and]; simp [hb])]

/-- A `BRK` that halts: the sequencer stands behind it, halted, and its event is written (R46, R523). -/
theorem brk_halts (hm : (s.tile t).more = true) (hb : (bitAt (s.reg 0x3C10) 11 && s.dbgOpen) = true) :
    exec (.brk t) s = .next (((s.onTile t (fun q => q.advance.onSeq Seq.retired)).onTile t
      (fun q => q.onSeq (fun z => { z with halted := true }))).haltEvent t 3) := by
  obtain ⟨htile, hrun, hcan, -, hph⟩ := executes_iff h
  have hok : (s.tile t).advance.isFaulted = false := by rw [advance_more hm]; exact isFaulted_of_running (q := _) hph
  have hone : s.runTile t (fun q => q.advance.onSeq Seq.retired) = s.onTile t (fun q => q.advance.onSeq Seq.retired) :=
    runTile_ok (isFaulted_of_running hph) hok
  refine (if_pos htile).trans (congrArg _ ?_)
  rw [if_pos (by simp only [hrun, hcan, Bool.true_and]; exact hb), hone]
  exact if_neg (by rw [State.tile_onTile]; exact Bool.eq_false_iff.1 hok)

end

/-! ### END (R35, R57) -/

/-- A search among descriptors by what their grants and transfers do not touch. -/
theorem find_bare {p : Desc → Bool} (hp : ∀ d : Desc, p d.bare = p d) (l : List Desc) :
    (l.find? p).map Desc.bare = (l.map Desc.bare).find? p := by
  rw [List.find?_map]; congr 2; funext d; exact (hp d).symm

/-- A quiet change keeps the descriptor that a tile works for. -/
theorem Quiet.descOf {s s' : State} (h : Quiet s s') (t : Nat) : (s'.descOf t).map Desc.bare = (s.descOf t).map Desc.bare := by
  simp only [State.descOf, h.seq t]
  split
  · rfl
  · rw [find_bare (fun _ => rfl), find_bare (fun _ => rfl), h.descs]

/-- A change of descriptors that decides no more of each than its outcome and its time keeps every one but for these. -/
theorem onDesc_keeps {s : State} {d : Desc} (hd : d ∈ s.qm.descs) (uid : Nat) {f : Desc → Desc}
    (hf : ∀ x : Desc, ∃ o sp tm, f x = { x with outcome := o, spent := sp, timed := tm }) :
    ∃ o sp tm, { d with outcome := o, spent := sp, timed := tm } ∈ (s.onDesc uid f).qm.descs := by
  have hin : (if d.uid == uid then f d else d) ∈ (s.onDesc uid f).qm.descs :=
    List.mem_map_of_mem (f := fun d => if d.uid == uid then f d else d) hd
  split at hin
  · obtain ⟨o, sp, tm, e⟩ := hf d
    exact ⟨o, sp, tm, e ▸ hin⟩
  · exact ⟨_, _, _, hin⟩

/-- Stopping a descriptor's clock is such a change (R345). -/
theorem stopClock_keeps {s : State} {d : Desc} (hd : d ∈ s.qm.descs) (uid : Nat) :
    ∃ o sp tm, { d with outcome := o, spent := sp, timed := tm } ∈ (s.stopClock uid).qm.descs := by
  simp only [State.stopClock]
  split
  · exact ⟨_, _, _, hd⟩
  · rename_i c _
    split
    · exact ⟨_, _, _, hd⟩
    · obtain ⟨o, sp, tm, hstop⟩ := onDesc_keeps hd uid (f := fun x => { x with spent := s.elapsed c, timed := false }) (fun x => ⟨_, _, _, rfl⟩)
      split
      · obtain ⟨o', sp', tm', hhit⟩ := onDesc_keeps hstop c.uid
          (f := fun d => if d.outcome.isSome then d else { d with outcome := some (statusOf 0x14, 0x14, 127) })
          (fun x => by split <;> exact ⟨_, _, _, rfl⟩)
        exact ⟨o', sp', tm', by rw [State.timeUp, (event_mild ..).descs]; exact hhit⟩
      · exact ⟨o, sp, tm, hstop⟩

/-- A descriptor once one of its members has ended: it counts the member, takes its counts and what it has deferred (R35, R57). -/
def Desc.memberEnded (d : Desc) (z : Seq) (deferred : List SyncReq) : Desc :=
  { d with defer := d.defer ++ [(z.member, deferred)], ended := d.ended ++ [z.member], sat := d.sat + z.sat
           flushIn := d.flushIn + z.flushIn, flushOut := d.flushOut + z.flushOut }

/-- The report of an ended member, before the descriptor's time stops with the last member (R57). -/
def State.reported (s : State) (t uid : Nat) : State :=
  (s.onTile t (fun q => { q with sync := { q.sync with deferred := [] } })).onDesc uid
    (fun d => d.memberEnded (s.tile t).seq (s.tile t).sync.deferred)

theorem endReport_some {s : State} {t : Nat} {d : Desc} (hd : s.descOf t = some d) :
    s.endReport t = if (d.memberEnded (s.tile t).seq (s.tile t).sync.deferred).allEnded then (s.reported t d.uid).stopClock d.uid
      else s.reported t d.uid := by
  simp only [State.endReport, hd]
  rfl

/-- The report of an ended member: its descriptor counts it and takes its counts (R35, R57). -/
theorem endReport_counts {s : State} {t : Nat} {d : Desc} (hd : s.descOf t = some d) :
    let z := (s.tile t).seq
    ∃ d' ∈ (s.endReport t).qm.descs, d'.uid = d.uid ∧ d'.ended = d.ended ++ [z.member] ∧ d'.sat = d.sat + z.sat
      ∧ d'.flushIn = d.flushIn + z.flushIn ∧ d'.flushOut = d.flushOut + z.flushOut := by
  intro z
  have hm : d ∈ s.qm.descs := descOf_mem hd
  have hin : d.memberEnded z (s.tile t).sync.deferred ∈ (s.reported t d.uid).qm.descs :=
    List.mem_map.2 ⟨d, hm, if_pos (beq_self_eq_true d.uid)⟩
  rw [endReport_some hd]
  split
  · obtain ⟨o, sp, tm, hstop⟩ := stopClock_keeps hin d.uid
    exact ⟨_, hstop, rfl, rfl, rfl, rfl, rfl⟩
  · exact ⟨_, hin, rfl, rfl, rfl, rfl, rfl⟩

/-- The report of an ended member leaves its sequencer alone (R57). -/
theorem endReport_seq (s : State) (t : Nat) : ((s.endReport t).tile t).seq = (s.tile t).seq := by
  have hone : ∀ uid, ((s.reported t uid).tile t).seq = (s.tile t).seq := fun uid =>
    (congrArg Tile.seq (State.tile_onTile s t (fun q => { q with sync := { q.sync with deferred := [] } })) :)
  cases hd : s.descOf t with
  | none => simp only [State.endReport, hd]
  | some d =>
    rw [endReport_some hd]
    split
    · rw [State.tile, (State.stopClock_frame ..).1]; exact hone d.uid
    · exact hone d.uid

/-- An `END` whose engines are drained: the program has ended, lets go and reports (R57, R262, R263). -/
theorem end_exec {s : State} {t : Nat} (h : s.executes t = true) (hd : (s.tile t).drained 63 = true) :
    exec (.endProg t) s = .next (((s.onTile t (fun q => (q.onSeq (fun z => { z with phase := .ended })).onSeq Seq.retired)).letGo t 2).endReport t) := by
  obtain ⟨htile, -, -, -, hph⟩ := executes_iff h
  have hone : s.instrWhen t (fun q => q.drained 63) (fun q => q.onSeq (fun z => { z with phase := .ended }))
      = s.onTile t (fun q => (q.onSeq (fun z => { z with phase := .ended })).onSeq Seq.retired) := by
    rw [State.instrWhen, if_pos hd]; exact instr_eq h rfl
  refine (if_pos htile).trans (congrArg _ ?_)
  rw [hone]
  exact if_pos (by rw [State.tile_onTile, hph]; rfl)

/-- Settles O6: a fence and a `TWAIT` by whether they wait, `TPOST` by its token, `BRK` by whether it halts, and `END` by its report
(`endReport_counts`), which the release of windows and credits before it does not disturb (`Quiet.descOf`). -/
theorem waitAndSystemInstructions : Obligations.WaitAndSystemInstructions := by
  constructor
  · intro s t mask tok val h hm q k moves
    have hnop : instrOn t Tile.advance s = .next (s.onTile t (fun q => q.at (q.seq.pc + 1))) :=
      moveOn_next h hm (.refl _) rfl rfl
    refine ⟨hnop, fun hq => ?fencePasses, fun hq => ?fenceStays, ?twait, tpost_next h hm, tpost_full h hm, fun hq => ?tset, fun hb => ?brk⟩
    case fencePasses =>
      refine (fence_passes ((drained_iff q _).2 fun e he hb => hq e he ?_)).trans hnop
      rwa [← BitVec.testBit_toNat]
    case fenceStays =>
      obtain ⟨e, he, hb, hne⟩ := hq
      refine fence_stays h (Bool.eq_false_iff.2 fun hd => hne ((drained_iff q _).1 hd e he ?_))
      rwa [BitVec.testBit_toNat]
    case twait =>
      by_cases hk : k = 0
      · rw [if_pos hk]; exact twait_stays h hk
      · rw [if_neg hk]; exact (twait_takes h hk).trans (moveOn_next h hm (setToken_control q _ _) rfl rfl)
    case tset =>
      refine moveOn_next h hm (setToken_control q tok.toNat val.toNat) ?_ rfl
      exact if_neg (by rw [namesToken_false q _ hq]; simp)
    case brk => exact (brk_passes h hb).trans hnop
  · intro s t h hm z
    obtain ⟨-, -, -, -, hph⟩ := executes_iff h
    refine ⟨fun hq => ⟨_, end_exec h ((drained_all _).2 hq), ?_, fun d hd _ _ => ?_⟩, fun hb => ⟨_, brk_halts h hm hb, ?_⟩⟩
    · rw [endReport_seq, (letGo_quiet ..).seq, State.tile_onTile]; rfl
    · set s1 := s.onTile t (fun q => (q.onSeq (fun z => { z with phase := .ended })).onSeq Seq.retired)
      have hseq : (s1.tile t).seq = { (s.tile t).seq with phase := .ended }.retired := congrArg Tile.seq (State.tile_onTile s t _)
      have hsame : s1.descOf t = s.descOf t := by
        simp only [State.descOf, hseq, hph, Seq.retired]; rfl
      have hbare := (letGo_quiet s1 t 2).descOf t
      rw [hsame, hd] at hbare
      obtain ⟨d1, hd1, he⟩ := Option.map_eq_some_iff.1 hbare
      obtain ⟨d', hin, hu, hend, hsat, hfi, hfo⟩ := endReport_counts hd1
      rw [(letGo_quiet s1 t 2).seq t, hseq] at hend hsat hfi hfo
      have hf : ∀ {α : Type} (f : Desc → α), (∀ x, f x = f x.bare) → f d1 = f d := fun f hx => by rw [hx d1, he, ← hx d]
      refine ⟨d', hin, hu.trans (hf Desc.uid fun _ => rfl), ?_, ?_, ?_, ?_⟩
      · rw [hend, hf Desc.ended fun _ => rfl]; rfl
      · rw [hsat, hf Desc.sat fun _ => rfl]; rfl
      · rw [hfi, hf Desc.flushIn fun _ => rfl]; rfl
      · rw [hfo, hf Desc.flushOut fun _ => rfl]; rfl
    · have hev : ∀ z : State, (z.haltEvent t 3).tile t = z.tile t := fun z => by
        simp only [State.tile, (State.haltEvent_frame z t 3).1]
      rw [hev, State.tile_onTile, State.tile_onTile, advance_more hm]
      exact ⟨rfl, rfl, hph, rfl⟩

/-! ### Core registers (R58, R59) -/

section
variable {s : State} {t : Nat} (h : s.executes t = true) (hm : (s.tile t).more = true)
include h hm

/-- A read of a core register that has no effect of its own (R58). -/
theorem csrRead_next {rd : BitVec 5} {num : BitVec 12} {v : Word} (hn : num.toNat ≠ 4)
    (hv : csrValue (s.tile t) s.pos t s.now num.toNat = some v) :
    exec (.csrRead t rd num) s = .next (s.onTile t (fun q => q.after rd v)) := by
  refine result_next h hm rd v _ ?_
  simp only [csrReadOp, hv, Tile.csrReadEffect, if_neg hn]

/-- A write, set or clear of `CORE_CFG`: the previous value goes to rd (R58, R59). -/
theorem coreCfg_next (f : Word → Word → Word) (rd ra : BitVec 5) :
    instrOn t (csrModOp f rd ra 0) s = .next (s.onTile t (fun q =>
      ({ q with seq := { q.seq with coreCfg := f (s.tile t).seq.coreCfg ((s.tile t).reg ra) &&& 0xFFFF000F } } : Tile).after rd q.seq.coreCfg)) := by
  refine moveOn_next h hm (q1 := Tile.setReg { (s.tile t) with seq := { (s.tile t).seq with
    coreCfg := f (s.tile t).seq.coreCfg ((s.tile t).reg ra) &&& 0xFFFF000F } } rd (s.tile t).seq.coreCfg) ?_ rfl rfl
  obtain ⟨hpc, hpl, hph, hst⟩ := setReg_control { (s.tile t) with seq := { (s.tile t).seq with
    coreCfg := f (s.tile t).seq.coreCfg ((s.tile t).reg ra) &&& 0xFFFF000F } } rd (s.tile t).seq.coreCfg
  exact ⟨hpc, hpl, hph, hst⟩

end

/-- Settles O7: every register but `TS_LO` is a plain read (`csrRead_next`), and the three writes are one (`coreCfg_next`). -/
theorem coreRegisterAccess : Obligations.CoreRegisterAccess := by
  intro s t rd ra h hm q w free reads
  refine ⟨csrRead_next h hm (by decide) rfl, csrRead_next h hm (by decide) rfl, csrRead_next h hm (by decide) rfl,
    csrRead_next h hm (by decide) rfl, ?tsLo, csrRead_next h hm (by decide) rfl, csrRead_next h hm (by decide) rfl,
    csrRead_next h hm (by decide) rfl, csrRead_next h hm (by decide) rfl, csrRead_next h hm (by decide) rfl,
    csrRead_next h hm (by decide) rfl, csrRead_next h hm (by decide) rfl, coreCfg_next h hm (fun _ v => v) rd ra,
    coreCfg_next h hm (· ||| ·) rd ra, coreCfg_next h hm (fun c v => c &&& ~~~v) rd ra⟩
  obtain ⟨hpc, hpl, hph, hst⟩ := setReg_control { q with seq := { q.seq with tsHi := w (s.time.ts / 2 ^ 32) } } rd (w s.time.ts)
  exact moveOn_next h hm ⟨hpc, hpl, hph, hst⟩ rfl rfl

end Sys2Proof.Machine
end

section
/-!
PROOFS. Program faults of the sequencer and its watchdog (spec/02_core_and_sequencer.md, R61, R60).
-/

namespace Sys2Proof.Machine

open Sys2Proof

/-! ### Faults (R38, R45, R58, R61) -/

/-- A jump outside the image (R45). -/
theorem jumpTo_fault {q : Tile} {x : Int} (hx : x < 0 ∨ (q.seq.progLen : Int) ≤ x) : q.jumpTo x = q.progFault causePc 0 :=
  if_neg (by omega)

/-- A linking jump outside the image (R45). -/
theorem jumpLink_fault {q : Tile} {x : Int} (hx : x < 0 ∨ (q.seq.progLen : Int) ≤ x) (rd : BitVec 5) :
    jumpLink rd x q = q.progFault causePc 0 := if_neg (by omega)

/-- Moving past the last word of the image (R45). -/
theorem advance_last {q : Tile} (hl : q.seq.progLen ≤ q.seq.pc + 1) : q.advance = q.progFault causePc 0 := if_neg (by omega)

/-- Core registers are numbered 0 to 0xB (R58). -/
theorem csrValue_unlisted (q : Tile) (pos t ts : Nat) {n : Nat} (hn : 0xB < n) : csrValue q pos t ts n = none := by
  obtain ⟨m, rfl⟩ := Nat.exists_eq_add_of_lt hn
  rw [Nat.add_right_comm, Nat.add_comm]
  rfl

/-- Only `CORE_CFG` can be written (R58). -/
theorem csrModOp_fault {num : BitVec 12} (hn : num ≠ 0) (f : Word → Word → Word) (rd ra : BitVec 5) (q : Tile) :
    csrModOp f rd ra num q = q.progFault causeIllegal 0 :=
  if_neg fun h0 => hn (BitVec.eq_of_toNat_eq h0)

/-- Loads and stores at an address that faults (R38). -/
theorem memOps_fault {q : Tile} {ra : BitVec 5} {off : BitVec 14} {size : MemSize} {c : Nat}
    (hc : dmemFault (effAddr q ra off) (sizeBytes size) = some c) (rd : BitVec 5) (sx : Bool) :
    loadOp rd ra off size sx q = q.progFault c 0 ∧ storeOp rd ra off size q = q.progFault c 0 := by
  simp only [loadOp, storeOp, hc, and_self]

/-- An `ISSUE` or `VEC` whose words are not legal is a program fault (R48). -/
theorem issue_illegal (s : State) (t eng : Nat) (mk : Tile → QEntry) :
    s.issue t eng false mk = s.instr t (fun q => q.progFault causeIllegal 0) := rfl

/-! ### The watchdog (R60, R524) -/

/-- What the watchdog asks for before it stops a program (R59, R60, R524). -/
def Seq.watchdogDue (z : Seq) : Prop :=
  z.phase = .running ∧ bitAt z.coreCfg 3 = true ∧ z.halted = false ∧ z.stallLimit ≤ z.stallNs

/-- The test of `WDOG`, on a die whose clocks run. -/
theorem wdog_test {s : State} {t : Nat} (hc : s.clocked = true) :
    (s.clocked && (s.tile t).seq.phase == .running && bitAt (s.tile t).seq.coreCfg 3 && !(s.tile t).seq.halted
      && decide ((s.tile t).seq.stallLimit ≤ (s.tile t).seq.stallNs)) = true ↔ (s.tile t).seq.watchdogDue := by
  simp [hc, Seq.watchdogDue, and_assoc]

/-- The watchdog stops a program that it is due for, and does nothing to another (R60). -/
theorem wdog_exec {s : State} {t : Nat} (ht : isTile t = true) (hc : s.clocked = true) :
    ((s.tile t).seq.watchdogDue → exec (.wdog t) s = .next (s.runTile t (fun q => q.progFault causeWdog 0)))
    ∧ (¬ (s.tile t).seq.watchdogDue → exec (.wdog t) s = .next s) :=
  ⟨fun hd => (if_pos ht).trans (congrArg _ (if_pos ((wdog_test hc).2 hd))),
   fun hd => (if_pos ht).trans (congrArg _ (if_neg (mt (wdog_test hc).1 hd)))⟩

/-- Settles O8: each fault is an instruction that comes to `progFault` (`instr_fault`); the watchdog stops the tile from outside
(`wdog_exec`, `runTile_fault`). -/
theorem faultsAndWatchdogStopTheCore : Obligations.FaultsAndWatchdogStopTheCore := by
  constructor
  · intro s t rd ra rb off boff joff size sx num tok val code word c h q n a stops outside
    obtain ⟨htile, -, -, -, -⟩ := executes_iff h
    refine ⟨instr_fault h _ rfl rfl, fun hw => ?illegal, fun ha => ?align, fun ha hn => ?range, fun hx hr => ?branch, fun hx => ?jal,
      fun hx => ?jalr, fun hx => ?last, fun hn => ⟨?_, ?_, ?_⟩, fun hn => ?csrRead, fun hn => ?tset, fun eng cd ia hc ho hp => ?issue⟩
    case illegal =>
      obtain ⟨s', he, hs⟩ := instr_fault h (fun q => q.progFault causeIllegal 0) rfl rfl
      refine ⟨s', Eq.trans ?_ he, hs⟩
      exact congrArg (onUnit (isTile t) t) (if_neg (by simp [hw]))
    case align =>
      have hf := fun rd => memOps_fault (q := q) (ra := ra) (off := off) (dmemFault_align ha) rd sx
      exact ⟨instr_fault h _ (hf rd).1 rfl, instr_fault h _ (hf rd).2 rfl⟩
    case range =>
      have hf := fun rd => memOps_fault (q := q) (ra := ra) (off := off) (dmemFault_range ha hn) rd sx
      exact ⟨instr_fault h _ (hf rd).1 rfl, instr_fault h _ (hf rd).2 rfl⟩
    case branch =>
      refine instr_fault h _ (q1 := q) ?_ rfl
      rw [branchOp, if_pos (by simpa using hr), jumpTo_fault hx]
    case jal => exact instr_fault h _ (jumpLink_fault hx rd) rfl
    case jalr =>
      refine instr_fault h _ (jumpLink_fault (.inr (Int.ofNat_le.2 ?_)) rd) rfl
      simpa [fld, bitsOf] using hx
    case last => exact instr_fault h _ (advance_last hx) rfl
    case csrRead =>
      refine instr_fault h _ (q1 := q) ?_ rfl
      rw [csrReadOp, csrValue_unlisted _ _ _ _ hn]
    case tset => exact instr_fault h _ (q1 := q) (if_pos hn) rfl
    case issue =>
      obtain ⟨s', he, hs⟩ := instr_fault h (fun q => q.progFault causeIllegal 0) rfl rfl
      refine ⟨s', ?_, hs⟩
      rw [issue_exec s hc ho htile, issuePastEnd, decide_eq_true hp, Bool.not_true, issue_illegal]
      exact (instrOn_eq htile _ s).symm.trans he
    all_goals exact instr_fault h _ (csrModOp_fault hn _ rd ra q) rfl
  · intro s t ht hc z l due
    have htile : isTile t = true := decide_eq_true ht
    obtain ⟨hstop, hstay⟩ := wdog_exec (s := s) htile hc
    refine ⟨fun hd => ⟨_, hstop hd, ?_⟩, hstay⟩
    have hl : (s.tile t).live = true := by simp [Tile.live, show (s.tile t).seq.phase = .running from hd.1]
    exact runTile_fault hl (.inl rfl) hl rfl rfl

end Sys2Proof.Machine
end

section
/-!
PROOFS. How an `ISSUE` or `VEC` leaves the sequencer: into its queue, or into a stall; and how a waiting command takes its token
(spec/02_core_and_sequencer.md, R47 to R52, R56).
-/

namespace Sys2Proof.Machine

open Sys2Proof

/-! ### A tile whose sequencer does not run (R50) -/

section
variable {s : State} {t : Nat} (hn : (s.tile t).canRun = false)
include hn

/-- No instruction of a tile whose sequencer does not run has an effect (R50). -/
theorem instr_halted (f : Tile → Tile) : s.instr t f = s := by simp [State.instr, hn]

theorem issue_halted (eng : Nat) (legal : Bool) (mk : Tile → QEntry) : s.issue t eng legal mk = s := by
  cases legal with
  | false => exact instr_halted hn _
  | true => simp [State.issue, hn, instr_halted hn, State.issueTrace]

theorem instrOn_halted (ht : isTile t = true) (f : Tile → Tile) : instrOn t f s = .next s := by
  rw [instrOn_eq ht, instr_halted hn]

/-- The scalar instructions (R40). -/
theorem scalar_halted (ht : isTile t = true) {c : Instr} (hc : scalarTile c = some t) : exec c s = .next s := by
  cases c <;> simp only [scalarTile, reduceCtorEq, Option.some.injEq] at hc <;> subst hc
  case fence => exact (if_pos ht).trans (congrArg _ (by rw [State.instrWhen, instr_halted hn, ite_self]))
  case twait => exact (if_pos ht).trans (congrArg _ (by simp [instr_halted hn, hn]))
  case endProg =>
    refine (if_pos ht).trans (congrArg _ ?_)
    rw [State.instrWhen, instr_halted hn, ite_self, ite_eq_right_iff]
    intro hp
    simp only [Bool.and_eq_true, beq_iff_eq] at hp
    exact absurd (hp.1.symm.trans hp.2) (by decide)
  case brk => exact (if_pos ht).trans (congrArg _ (by simp [instr_halted hn, hn]))
  all_goals exact instrOn_halted hn ht _

/-- The `ISSUE` instructions (R47). -/
theorem issueSpec_halted (ht : isTile t = true) {c : Instr} {x : Nat × Nat × IssueArgs} (hc : issueSpec c = some (t, x)) :
    exec c s = .next s := by
  cases c <;> simp only [issueSpec, reduceCtorEq, Option.some.injEq, Prod.mk.injEq] at hc <;> obtain ⟨rfl, -⟩ := hc
  case slotRelease | markFull | setRaw | rawEmpty | rawFull | sySignalAdd | sySignalClear | sySignalLoad =>
    exact (if_pos ht).trans (congrArg _ (by rw [issue_halted hn, ite_self]))
  all_goals exact (if_pos ht).trans (congrArg _ (issue_halted hn ..))

/-- While the sequencer of a tile does not run, no instruction of the tile does (R50). -/
theorem instrTile_halted (ht : isTile t = true) {c : Instr} (hc : instrTile c = some t) : exec c s = .next s := by
  unfold instrTile at hc
  split at hc
  · rename_i u hu
    obtain rfl := Option.some.inj hc
    exact scalar_halted hn ht hu
  · split at hc
    · rename_i x hx
      obtain rfl := Option.some.inj hc
      exact issueSpec_halted hn ht hx
    · obtain ⟨⟨u, vop, v⟩, hx, rfl⟩ := Option.map_eq_some_iff.1 hc
      exact (vec_exec s hx ht).trans (congrArg _ (issue_halted hn ..))

end

/-- A sequencer that a full queue stalls does not run (R50). -/
theorem canRun_stalled {q : Tile} {st : Stall} (h : q.seq.stall = some st) : q.canRun = false := by simp [Tile.canRun, h]

/-! ### Into a queue, or into a stall (R47 to R50) -/

/-- An instruction is an `ISSUE` with legal words, or a `VEC`, of a tile for an engine, and builds a queue entry (R47). -/
def Tile.Builds (q : Tile) (t eng : Nat) (c : Instr) (e : QEntry) : Prop :=
  (∃ cd ia, issueSpec c = some (t, eng, cd, ia) ∧ issueOpOk c (issueWords q ia) = true ∧ ia.ra.toNat + ia.n1.toNat < 32
    ∧ e = issueEntry q cd ia)
  ∨ (∃ vop v, vecSpec c = some (t, vop, v) ∧ eng = 2 ∧ e = vecEntry q vop v)

/-- Such an instruction issues what it builds (R47, R180). -/
theorem builds_exec {s : State} {t eng : Nat} {c : Instr} {e : QEntry} (hb : (s.tile t).Builds t eng c e) (ht : isTile t = true) :
    ∃ mk : Tile → QEntry, mk (s.tile t) = e ∧ exec c s = .next (s.issue t eng true mk) := by
  rcases hb with ⟨cd, ia, hc, ho, hl, rfl⟩ | ⟨vop, v, hc, rfl, rfl⟩
  · refine ⟨fun q => issueEntry q cd ia, rfl, ?_⟩
    rw [issue_exec s hc ho ht, issuePastEnd, decide_eq_false (by omega), Bool.not_false]
  · exact ⟨fun q => vecEntry q vop v, rfl, vec_exec s hc ht⟩

/-- Into a full queue nothing goes: the sequencer stalls (R50). -/
theorem issue_stalls {s : State} {t eng : Nat} {c : Instr} {e : QEntry} (h : s.executes t = true)
    (hb : (s.tile t).Builds t eng c e) (hf : queueDepth eng ≤ ((s.tile t).queue eng).length) :
    exec c s = .next (s.onTile t (fun q => { q with seq := { q.seq with stall := some ⟨eng, e⟩ } })) := by
  obtain ⟨htile, hrun, hcan, -⟩ := executes_iff h
  obtain ⟨mk, rfl, he⟩ := builds_exec hb htile
  rw [he, State.issue, if_neg (by simp), if_pos (by simp [hrun, hcan, Tile.queueFull, hf])]
  exact congrArg _ (onTile_congr _ _ _ _ rfl)

/-- A command whose checks pass has an engine. -/
theorem issueCheck_eng {lvl eng : Nat} {q : Tile} {e : QEntry} {r : Tile × QEntry} (h : issueCheck lvl eng q e = .ok r) : eng < 6 := by
  by_contra hn
  obtain ⟨n, rfl⟩ := Nat.exists_eq_add_of_le (Nat.not_lt.1 hn)
  rw [Nat.add_comm] at h
  cases h

/-- A command with room in its queue enters it behind what is there, and the sequencer goes on (R47 to R49). -/
theorem issue_enters {s : State} {t eng : Nat} {c : Instr} {e e' : QEntry} {q' : Tile} (h : s.executes t = true)
    (hb : (s.tile t).Builds t eng c e) (hr : ((s.tile t).queue eng).length < queueDepth eng)
    (hk : issueCheck s.level eng (s.tile t) e = .ok (q', e')) (hm : (s.tile t).more = true) :
    ∃ s', exec c s = .next s' ∧ s'.tile t = (enterQueue s.level eng e (s.tile t)).onSeq Seq.retired := by
  obtain ⟨htile, hrun, hcan, -, hph⟩ := executes_iff h
  obtain ⟨mk, rfl, he⟩ := builds_exec hb htile
  obtain ⟨-, -, hseq, -⟩ := enterQueue_ok (issueCheck_eng hk) hk hm
  refine ⟨_, he, ?_⟩
  have hok : (enterQueue s.level eng (mk (s.tile t)) (s.tile t)).isFaulted = false :=
    isFaulted_of_running (by rw [hseq]; exact hph)
  rw [State.issue, if_neg (by simp), if_neg (by simp [Tile.queueFull, hr]), issueTrace_tile,
    instr_eq (f := fun q => enterQueue s.level eng (mk q) q) h hok, State.tile_onTile]

/-- A stalled instruction with room in its queue enters it, and the stall ends (R50). -/
theorem stall_resumes {s : State} {t : Nat} {st : Stall} {q' : Tile} {e' : QEntry} (ht : isTile t = true) (hrun : s.coresRun = true)
    (hph : (s.tile t).seq.phase = .running) (hst : (s.tile t).seq.stall = some st) (hstep : (s.tile t).seq.stepping = false)
    (hhalt : (s.tile t).seq.haltReq = false) (hr : ((s.tile t).queue st.eng).length < queueDepth st.eng) (hm : (s.tile t).more = true)
    (hk : issueCheck s.level st.eng { (s.tile t) with seq := { (s.tile t).seq with stall := none } } st.entry = .ok (q', e')) :
    ∃ s', exec (.issueStallResume t) s = .next s' ∧ (s'.tile t).seq.stall = none
      ∧ (s'.tile t).queue st.eng = (s.tile t).queue st.eng ++ [e'.captured (s.tile t).seq]
      ∧ (s'.tile t).seq.pc = (s.tile t).seq.pc + 1 := by
  set q0 : Tile := { (s.tile t) with seq := { (s.tile t).seq with stall := none } } with hq0
  obtain ⟨hque, -, hseq, -⟩ := enterQueue_ok (q := q0) (issueCheck_eng hk) hk hm
  have hok : (enterQueue s.level st.eng st.entry q0).isFaulted = false := isFaulted_of_running (by rw [hseq]; exact hph)
  set f : Tile → Tile := fun q => (enterQueue s.level st.eng st.entry (q.onSeq (fun z => { z with stall := none }))).onSeq Seq.retired with hf
  have hone : s.runTile t f = s.onTile t f := runTile_ok (isFaulted_of_running hph) hok
  have htile : ((State.issueTrace s (s.onTile t f) t st.eng st.entry).tile t) = f (s.tile t) := by
    rw [issueTrace_tile, State.tile_onTile]
  have hexec : exec (.issueStallResume t) s = .next (State.issueTrace s (s.onTile t f) t st.eng st.entry) := by
    refine (if_pos ht).trans (congrArg _ ?_)
    simp only [State.stallResume, hst]
    rw [if_neg (by simp [hrun, hph, Tile.queueFull, hr])]
    simp only [← hf, hone, hstep, hhalt]
    rw [if_neg (by rw [htile]; exact Bool.eq_false_iff.1 hok), if_neg (by simp), if_neg (by simp)]
  refine ⟨_, hexec, ?_⟩
  rw [htile]
  refine ⟨?_, hque, ?_⟩
  · exact (congrArg Seq.stall hseq :)
  · exact (congrArg Seq.pc hseq :)

/-- While the queue stays full, so does the stall (R50). -/
theorem stall_stays {s : State} {t : Nat} {st : Stall} (ht : isTile t = true) (hst : (s.tile t).seq.stall = some st)
    (hf : queueDepth st.eng ≤ ((s.tile t).queue st.eng).length) : exec (.issueStallResume t) s = .next s := by
  refine (if_pos ht).trans (congrArg _ ?_)
  simp only [State.stallResume, hst]
  exact if_pos (by simp [Tile.queueFull, hf])

/-- Settles O54: the stall (`issue_stalls`), in which no instruction runs (`instrTile_halted`), until an entry frees (`stall_resumes`). -/
theorem fullQueueStallsTheSequencer : Obligations.FullQueueStallsTheSequencer := by
  intro s t
  refine ⟨fun eng c e h hb hf => issue_stalls h hb hf, fun st ht hst => ?_⟩
  have htile : isTile t = true := decide_eq_true ht
  exact ⟨fun c hc => instrTile_halted (canRun_stalled hst) htile hc, stall_stays htile hst,
    fun q' e' hrun hph hstep hhalt hr hm hk => stall_resumes htile hrun hph hst hstep hhalt hr hm hk⟩

/-! ### A command takes its wait token (R52, R56) -/

/-- A command that waits for its token and nothing else takes it, where the token holds a count of its own for it (R52, R56). -/
theorem tokenStart_takes {eng i k : Nat} {q : Tile} {e : QEntry} (hw : tokenWaiter eng (settleStores eng q) = some (i, e))
    (hk : e.wait = some k) (hc : waitersBefore eng k (settleStores eng q) < (settleStores eng q).token k) :
    tokenStart eng q = ((settleStores eng q).setToken k ((settleStores eng q).token k - 1)).onEntry eng i (fun x => { x with taken := true }) := by
  simp only [tokenStart, hw, hk]
  exact if_neg (by omega)

/-- Settles O9: into the queue or into a stall (`issue_enters`, `issue_stalls`), out of the stall (`stall_resumes`), and the token
(`tokenStart_takes`). -/
theorem issuedCommandsEnterAndGoOn : Obligations.IssuedCommandsEnterAndGoOn := by
  constructor
  · intro s t eng c e e' q' h q hb
    refine ⟨issue_stalls h hb, fun hr hk hm => ?_⟩
    obtain ⟨-, -, -, -, hph⟩ := executes_iff h
    obtain ⟨hque, hoth, hseq, hspad⟩ := enterQueue_ok (issueCheck_eng hk) hk hm
    obtain ⟨s', he, htile⟩ := issue_enters h hb hr hk hm
    refine ⟨s', he, ?_⟩
    rw [htile]
    exact ⟨hque, hoth, (congrArg Seq.pc hseq :), (congrArg Seq.phase hseq :).trans hph, (congrArg Seq.regs hseq :), hspad⟩
  · intro s t ht hrun
    have htile : isTile t = true := decide_eq_true ht
    refine ⟨fun st q' e' hph hst hstep hhalt hr hm hk => stall_resumes htile hrun hph hst hstep hhalt hr hm hk,
      fun eng i e k heng hw hk hc => ?_⟩
    refine (if_pos (by simp [htile, heng])).trans (congrArg _ ((if_pos hrun).trans ?_))
    exact onTile_congr _ _ _ _ (tokenStart_takes hw hk hc)

end Sys2Proof.Machine
end

section
/-!
PROOFS. How a program starts (spec/02_core_and_sequencer.md, R33, R34, R564).
-/

namespace Sys2Proof.Machine

open Sys2Proof

/-! ### Start (R33, R34, R564) -/

/-- The scalar registers of the start state, one by one (R34). -/
theorem startRegs_get (z : Seq) (n : Nat) : Tab.get 0 (startRegs z) n =
    if n = 12 then BitVec.ofNat 32 z.argLen
    else if n = 11 then wordAt z.args 3 else if n = 10 then wordAt z.args 2 else if n = 9 then wordAt z.args 1
    else if n = 8 then wordAt z.args 0 else if n = 6 then BitVec.ofNat 32 z.seqNo else if n = 5 then BitVec.ofNat 32 z.stream
    else if n = 4 then BitVec.ofNat 32 z.job else if n = 3 then BitVec.ofNat 32 z.group else if n = 2 then BitVec.ofNat 32 z.member
    else if n = 1 then BitVec.ofNat 32 z.lcore else 0 := by
  simp only [startRegs, List.foldl_cons, List.foldl_nil, Tab.get_set]
  rfl

/-- s0 has no entry among the start registers, so that every register reads as its entry (R34, R36). -/
theorem reg_start (q : Tile) (bs : List Byte) (r : BitVec 5) : (q.start bs).reg r = Tab.get 0 (startRegs q.seq) r.toNat := by
  by_cases hr : r = 0
  · subst hr; exact (startRegs_get q.seq 0).symm
  · exact if_neg hr

/-- The image and the argument block of a program are fetched with requests and nothing else (R32, R33). -/
theorem needImage_mild (s : State) (t : Nat) : Mild s (s.needImage t).1 := by
  simp only [State.needImage]
  split
  · exact Mild.refl s
  · exact need_mild ..

/-- A program whose image and argument block are here stands in its start state, but for its program memory (R33). -/
theorem startRun_tile (s : State) (t : Nat) (d : Desc) :
    ∃ p r, (s.startRun t d).tile t = ((s.tile t).onSeq (fun z => { z with pmem := p, resident := r })).start (s.argBlock t) := by
  obtain ⟨p, r, hload⟩ := loadImage_tile s t
  refine ⟨p, r, ?_⟩
  rw [State.startRun, noteStart_tile, State.tile_onTile]
  have hdrop : ∀ z : State, (z.dropFetch (loaderAgent t)).tile t = z.tile t := fun _ => rfl
  rw [hdrop, readAt_tile, hload]

/-- A program whose handle passes its check and whose fetches have ended starts (R564). -/
theorem programStart_runs {s s1 s2 : State} {t : Nat} {d : Desc} (hrun : s.coresRun = true) (hold : s.pkg.holdover = false)
    (hph : (s.tile t).seq.phase = .starting) (hd : s.descOf t = some d) (ho : d.outcome = none)
    (hr : s.progReason (s.tile t).seq.job (s.tile t).seq.handle (s.tile t).seq.progLen = 0) (hs : (s.tile t).spad.sealed = false)
    (hown : (s.tile t).spad.owner = none ∨ (s.tile t).spad.owner = some (s.tile t).seq.job) (h1 : s.needImage t = (s1, .ok ()))
    (h2 : s1.needArgs t = (s2, .ok ())) : s.programStart t = s2.startRun t d := by
  have hgoes : d.goesOn = true := by simp [Desc.goesOn, ho]
  have hown' : ((s.tile t).spad.owner.isSome && (s.tile t).spad.owner != some (s.tile t).seq.job) = false := by
    rcases hown with h | h <;> simp [h]
  simp only [State.programStart, hrun, hold, hph, hd, hgoes, hr, hs, hown']
  simp [State.startFetched, h1, h2]

/-- Settles O10: the fetches leave the tile alone (`Mild.tiles`), so that it is the handed-over tile that takes its start state (`startRun_tile`). -/
theorem programStartsInStartState : Obligations.ProgramStartsInStartState := by
  intro s s1 s2 t d ht hrun hold z hph hd ho hr hs hown h1 h2 bs
  have htiles : s2.tile t = s.tile t := by
    have m1 := needImage_mild s t
    have m2 := need_mild s1 (s1.agentOf t) (loaderAgent t) false (s1.tile t).seq.argAddr (s1.tile t).seq.argLen
    rw [h1] at m1
    rw [show s1.need _ _ _ _ _ = (s2, .ok ()) from h2] at m2
    exact congrArg (fun x => Tab.get Tile.init x t) (m2.tiles.trans m1.tiles)
  obtain ⟨p, r, hq⟩ := startRun_tile s2 t d
  rw [htiles] at hq
  refine ⟨_, (if_pos (decide_eq_true ht)).trans (congrArg _ (programStart_runs hrun hold hph hd ho hr hs hown h1 h2)), ?_⟩
  rw [hq]
  refine ⟨rfl, rfl, rfl, rfl, rfl, rfl, rfl, rfl, rfl, rfl, rfl, fun r => ?_⟩
  rw [reg_start, startRegs_get]
  generalize r.toNat = n
  rcases n with _ | _ | _ | _ | _ | _ | _ | _ | _ | _ | _ | _ | _ | n
  all_goals rfl

end Sys2Proof.Machine
end

section
/-!
PROOFS. Yielding (spec/02_core_and_sequencer.md R63, R330 to R332): the yield of a running core, the save of a context, the end of the grace.
-/

namespace Sys2Proof.Machine

open Sys2Proof

/-! ### The yield of a running core (R63, R300) -/

/-- Taking a sync command back leaves every sequencer alone. -/
theorem syncBack_seq (s : State) (t u : Nat) (r : Option Nat) : ((s.syncBack t r).tile u).seq = (s.tile u).seq := by
  simp only [State.syncBack]
  by_cases hu : u = t
  · subst hu
    rw [State.tile_onTile]
    split
    · rfl
    · rfl
  · rw [State.tile_onTile_other _ hu]

/-- Asking the home to withdraw a yielding core's sync command leaves every sequencer alone. -/
theorem syncYield_seq (s : State) (t u : Nat) : ((s.syncYield t).tile u).seq = (s.tile u).seq := by
  simp only [State.syncYield]
  split
  · rfl
  · split
    · rfl
    · split
      · rw [syncBack_seq, (dropSrcs_quiet s _).seq]
      · exact (Quiet.foldl _ _ (fun s (x : Nat × OpenTx) => askWithdraw_quiet s x.1 x.2) s).seq u

/-- Settling a stream leaves every tile alone. -/
theorem settle_tile (s : State) (k u : Nat) : (s.settle k).tile u = s.tile u := by
  simp only [State.tile, (State.settle_frame s k).1]

/-- Settling a yield leaves every tile alone. -/
theorem settleYield_tile (s : State) (uid u : Nat) : (s.settleYield uid).tile u = s.tile u := by
  simp only [State.tile, (State.settleYield_frame s uid).1]

/-- Changing a descriptor leaves every tile alone. -/
theorem onDesc_tile (s : State) (uid u : Nat) (f : Desc → Desc) : (s.onDesc uid f).tile u = s.tile u := rfl

/-- Settling a yield keeps the saved frames. -/
theorem settleYield_frames (s : State) (uid : Nat) : (s.settleYield uid).qm.frames = s.qm.frames := by
  simp only [State.settleYield]
  split
  · rfl
  · split
    · rfl
    · rfl

/-- A running core that is told to yield stops issuing where it stands, and gives up a stalled instruction. -/
theorem yieldTile_running {s : State} {t : Nat} (job : Nat) (hp : (s.tile t).seq.phase = .running) :
    let z := ((s.yieldTile t job).tile t).seq
    z.phase = .yielding ∧ z.stall = none ∧ z.pc = (s.tile t).seq.pc ∧ z.regs = (s.tile t).seq.regs := by
  simp only [State.yieldTile, settle_tile, State.yield, hp, (letGo_quiet ..).seq, syncYield_seq, State.tile_onTile, and_self]

/-! ### The save of a context (R331) -/

theorem yieldDone_iff (q : Tile) : q.yieldDone = true ↔ q.seq.phase = .yielding ∧ ∀ e, e < 6 → q.queue e = [] := by
  rw [Tile.yieldDone, Bool.and_eq_true, beq_iff_eq, drained_all]

/-- A context whose frame area the Keywork allows is saved: the core is free, and the frame holds what the tile held. -/
theorem saveContext_saves {s : State} {t : Nat} {d : Desc} {x : Stream} (ph : Phase) (hd : s.descOf t = some d) (hx : s.stream d.stream = some x)
    (hc : s.qmCheck x.job true false (x.frameAt (s.tile t).seq.member) x.frameSize = 0) :
    ((s.saveContext t ph).tile t).seq.phase = .saved
    ∧ ∃ f, Tab.get none (s.saveContext t ph).qm.frames (64 * d.uid + (s.tile t).seq.member) = some f ∧ f.tile.seq.pc = (s.tile t).seq.pc
      ∧ f.tile.seq.regs = (s.tile t).seq.regs ∧ f.tile.seq.dmem = (s.tile t).seq.dmem ∧ f.tile.ma0.acc = (s.tile t).ma0.acc := by
  have hl := letGo_quiet s t 2
  have hs := hl.seq t
  simp only [State.saveContext, hd, hx, hc, bne_self_eq_false, Bool.false_eq_true, if_false, settleYield_tile, settleYield_frames,
    State.tile_onTile, State.onTile_qm, hs, Tab.get_set, hl.ma0 t]
  exact ⟨rfl, _, rfl, rfl, rfl, rfl, rfl⟩

/-! ### The end of the grace (R63, R196) -/

theorem resetFills_work (q : Tile) : q.resetFills.ma0 = q.ma0 ∧ q.resetFills.ma1 = q.ma1 ∧ ∀ e, q.resetFills.queue e = q.queue e := by
  refine ⟨rfl, rfl, fun e => ?_⟩
  rcases e with _ | _ | _ | _ | _ | _ | e
  all_goals rfl

/-- An abandoned core has no command and no valid accumulator row. -/
theorem abandon_work (q : Tile) : q.abandon.ma0.acc = [] ∧ q.abandon.ma1.acc = [] ∧ ∀ e, q.abandon.queue e = [] := by
  refine ⟨rfl, rfl, fun e => ?_⟩
  rcases e with _ | _ | _ | _ | _ | _ | e
  all_goals rfl

/-- Stopping the sync commands of a tile empties its sync unit. -/
theorem syncStop_sync (s : State) (t : Nat) : ((s.syncStop t).tile t).sync = SyncUnit.init := by
  rw [State.syncStop, State.tile_onTile]

/-- A quiet change after which the sync unit is empty leaves a tile without commands without commands. -/
theorem Quiet.queues_empty {s s' : State} (h : Quiet s s') {t : Nat} (hq : ∀ e, (s.tile t).queue e = []) (hs : (s'.tile t).sync.q = []) (e : Nat) :
    (s'.tile t).queue e = [] := by
  rcases e with _ | _ | _ | _ | _ | _ | e
  · exact (congrArg Arr.q (h.ma0 t)).trans (hq 0)
  · exact (congrArg Arr.q (h.ma1 t)).trans (hq 1)
  · exact (congrArg Vec.q (h.vec t)).trans (hq 2)
  · exact (congrArg Row.q (h.row t)).trans (hq 3)
  · exact List.length_eq_zero_iff.mp ((h.dmaLen t).trans (congrArg List.length (hq 4)))
  · exact hs
  · rfl

/-- A core whose context is discarded holds no command and no valid accumulator row. -/
theorem discardContext_discards {s : State} {t : Nat} {d : Desc} (hd : s.descOf t = some d) :
    let q := (s.discardContext t).tile t
    q.seq.phase = .discarded ∧ q.ma0.acc = [] ∧ q.ma1.acc = [] ∧ ∀ e, q.queue e = [] := by
  set z := s.onTile t (fun q => q.abandon.onSeq (fun z => { z with phase := .discarded })) with hz
  have hq := (letGo_quiet z t 2).trans (syncStop_quiet _ t)
  have ht : z.tile t = (s.tile t).abandon.onSeq (fun z => { z with phase := .discarded }) := State.tile_onTile ..
  have hw := abandon_work (s.tile t)
  have he : (s.discardContext t).tile t = (((z.letGo t 2).syncStop t).tile t) := by
    simp only [State.discardContext, hd, ← hz, settleYield_tile, onDesc_tile]
  rw [he]
  refine ⟨?_, ?_, ?_, hq.queues_empty (fun e => ?_) ?_⟩
  · rw [hq.seq, ht]; rfl
  · rw [hq.ma0, ht]; exact hw.1
  · rw [hq.ma1, ht]; exact hw.2.1
  · rw [ht]; exact hw.2.2 e
  · rw [syncStop_sync]; rfl

/-- Settles O11: the yield, the save and the discard change the core's own registers only where they say so, for the windows, credits and sync
commands that they let go are no part of them. -/
theorem yieldSavesOrDiscards : Obligations.YieldSavesOrDiscards := by
  intro s t job d x ht hr hd hx q
  have hu : isTile t = true := decide_eq_true ht
  refine ⟨fun hp hy => ?_, fun hp hq hc => ?_, fun hp hg hq => ?_⟩
  · refine ⟨_, if_pos hu, ?_⟩
    rw [if_pos (by rw [hr, hy]; rfl)]
    exact yieldTile_running job hp
  · have hdone : (s.tile t).yieldDone = true := (yieldDone_iff _).mpr ⟨hp, hq⟩
    obtain ⟨hs, f, hf⟩ := saveContext_saves .running hd hx hc
    refine ⟨(s.saveContext t .running).settle (s.tile t).seq.stream, f, ?_, ?_, ?_⟩
    · refine (if_pos hu).trans (congrArg Host.Outcome.next (if_pos ?_))
      rw [hr, hdone]; rfl
    · rw [settle_tile]; exact hs
    · rw [settle_keeps_frames]; exact hf
  · have hn : (s.tile t).yieldDone = false := by
      obtain ⟨e, he, hne⟩ := hq
      exact Bool.eq_false_iff.mpr (fun h => hne (((yieldDone_iff _).mp h).2 e he))
    have hover : (s.tile t).graceOver = true := by
      rw [Tile.graceOver, hp, decide_eq_true hg]; rfl
    obtain ⟨h1, h2, h3, h4⟩ := discardContext_discards hd
    refine ⟨(s.discardContext t).settle (s.tile t).seq.stream, ?_, ?_⟩
    · refine (if_pos hu).trans (congrArg Host.Outcome.next (if_pos ?_))
      rw [hr, hover, hn]; rfl
    · rw [settle_tile]; exact ⟨h1, h2, h3, fun e _ => h4 e⟩

end Sys2Proof.Machine
end

section
/-!
PROOFS. The completion of an array's oldest command (spec/02_core_and_sequencer.md R54; R78, R80, R98, R132, R155).
-/

namespace Sys2Proof.Machine

open Sys2Proof

/-! ### An array of a tile -/

theorem arr_onArr (q : Tile) (ma : Bool) (f : Arr → Arr) : (q.onArr ma f).arr ma = f (q.arr ma) := by cases ma <;> rfl

theorem arr_onArr_other (q : Tile) (ma : Bool) (f : Arr → Arr) : (q.onArr ma f).arr (!ma) = q.arr (!ma) := by cases ma <;> rfl

theorem seq_onArr (q : Tile) (ma : Bool) (f : Arr → Arr) : (q.onArr ma f).seq = q.seq := by cases ma <;> rfl

theorem spad_onArr (q : Tile) (ma : Bool) (f : Arr → Arr) : (q.onArr ma f).spad = q.spad := by cases ma <;> rfl

theorem arr_onSeq (q : Tile) (ma : Bool) (f : Seq → Seq) : (q.onSeq f).arr ma = q.arr ma := by cases ma <;> rfl

/-! ### What a completion leaves behind (R54) -/

/-- The oldest command `e` of an array has left its queue, and its post token is incremented. -/
def Tile.Left (q q' : Tile) (ma : Bool) (e : QEntry) (rest : List QEntry) : Prop :=
  (q'.arr ma).q = rest ∧ q'.seq.phase = q.seq.phase ∧ ∀ k, q'.token k = q.token k + (if e.post = some k then 1 else 0)

/-- A command that retires from a tile with the phase and the tokens of another. -/
theorem retire_left {q q1 : Tile} {ma : Bool} {e : QEntry} {rest : List QEntry} (hq : (q1.arr ma).q = e :: rest)
    (hph : q1.seq.phase = q.seq.phase) (htk : q1.seq.tokens = q.seq.tokens) (hp : ∀ k, e.post = some k → q.token k < 65535) :
    q.Left (q1.retire (arrEng ma) 0) ma e rest ∧ (q1.retire (arrEng ma) 0).spad = q1.spad
    ∧ (q1.retire (arrEng ma) 0).seq.dmem = q1.seq.dmem ∧ ((q1.retire (arrEng ma) 0).arr ma).acc = (q1.arr ma).acc
    ∧ ((q1.retire (arrEng ma) 0).arr ma).bell = (q1.arr ma).bell ∧ ((q1.retire (arrEng ma) 0).arr ma).cnt = (q1.arr ma).cnt := by
  have htok : ∀ k, q1.token k = q.token k := fun k => by simp only [Tile.token, htk]
  have hp1 : ∀ k, e.post = some k → q1.token k < 65535 := fun k hk => by rw [htok]; exact hp k hk
  have hq' : q1.queue (arrEng ma) = e :: rest := by cases ma <;> exact hq
  have he : arrEng ma < 6 := by cases ma <;> decide
  obtain ⟨_, hphase, htoken, hspad, hdmem⟩ := retire_head_facts he hq' hp1
  obtain ⟨hrest, hacc, hbell, hcnt⟩ := retire_arr hq hp1
  exact ⟨⟨hrest, hphase.trans hph, fun k => by rw [htoken, htok]⟩, hspad, hdmem, hacc, hbell, hcnt⟩

/-- `COMMAND_COMPLETE` at an array whose oldest command retires: the tile of the new state, by what the retirement keeps of the
tile `q1` that retires it. -/
theorem array_complete {s : State} {t : Nat} {ma : Bool} {e : QEntry} {rest : List QEntry} {q1 : Tile} (hw : s.works t = true)
    (hc : completeArray s.fv ma 0 (s.tile t) = q1.retire (arrEng ma) 0) (hq : (q1.arr ma).q = e :: rest)
    (hph : q1.seq.phase = (s.tile t).seq.phase) (htk : q1.seq.tokens = (s.tile t).seq.tokens)
    (hp : ∀ k, e.post = some k → (s.tile t).token k < 65535) :
    ∃ s', exec (.commandComplete t (arrEng ma) 0) s = .next s' ∧ (s.tile t).Left (s'.tile t) ma e rest
      ∧ (s'.tile t).spad = q1.spad ∧ (s'.tile t).seq.dmem = q1.seq.dmem ∧ ((s'.tile t).arr ma).acc = (q1.arr ma).acc
      ∧ ((s'.tile t).arr ma).bell = (q1.arr ma).bell ∧ ((s'.tile t).arr ma).cnt = (q1.arr ma).cnt := by
  obtain ⟨ht, hr, _, _⟩ := works_iff hw
  have hfacts := retire_left hq hph htk hp
  have hu : (isTile t && decide (arrEng ma < 6)) = true := by rw [ht]; cases ma <;> rfl
  have hrun : s.runTile t (completeArray s.fv ma 0) = s.onTile t (completeArray s.fv ma 0) := runTile_eq hw (by rw [hc]; exact hfacts.1.2.1)
  have htile : (s.onTile t (completeArray s.fv ma 0)).tick.tile t = q1.retire (arrEng ma) 0 := (State.tile_onTile s t _).trans hc
  refine ⟨(s.onTile t (completeArray s.fv ma 0)).tick, ?_, by rw [htile]; exact hfacts⟩
  refine (if_pos hu).trans (congrArg Host.Outcome.next ((if_pos hr).trans ?_))
  rw [← hrun]
  cases ma <;> rfl

/-! ### `PASS` (R54, R78) -/

/-- A slot after a release that may be asked for. -/
theorem releaseRun_if_slot (b : Bool) (sp : Spad) (n k i : Nat) :
    (if b then sp.releaseRun n k else sp).slot i =
      if (b = true ∧ n ≤ i ∧ i < n + k) ∧ (sp.slot i).tag = .full then { sp.slot i with tag := .empty } else sp.slot i := by
  cases b
  · simp
  · simp [releaseRun_slot]

/-- A slot after the two releases of a pass. -/
theorem passRelease_slot (sp : Spad) (p : PassP) (i : Nat) :
    (let sp1 := if p.srcRel then sp.releaseRun p.src p.srcSlots else sp
     if p.statRel && !p.reuse then sp1.releaseRun p.stat 8 else sp1).slot i =
      if ((p.srcRel = true ∧ p.src ≤ i ∧ i < p.src + p.srcSlots) ∨ (p.statRel = true ∧ p.reuse = false ∧ p.stat ≤ i ∧ i < p.stat + 8))
          ∧ (sp.slot i).tag = .full
      then { sp.slot i with tag := .empty } else sp.slot i := by
  dsimp only
  rw [releaseRun_if_slot, releaseRun_if_slot]
  simp only [Bool.and_eq_true, Bool.not_eq_true', and_assoc]
  by_cases hf : (sp.slot i).tag = .full
  · by_cases ha : p.srcRel = true ∧ p.src ≤ i ∧ i < p.src + p.srcSlots
    · simp [ha, hf]
    · simp only [hf, and_true, ha, if_false, false_or]
  · simp [hf]

/-- A pass that has entered its rows, and stored them where it stores, is done. -/
theorem passDone_of {e : QEntry} (hc : e.code = cPASS) (hs : e.strRows = (passP e.words).m) (hb : (passP e.words).bell = true → e.stored = true) :
    passDone e = true := by
  have hstr : streaming e = false := by simp [streaming, hs]
  cases hbell : (passP e.words).bell with
  | false => simp [passDone, hc, hstr, hbell]
  | true => simp [passDone, hc, hstr, hb hbell]

/-- The oldest pass of an array, once done, leaves its queue and releases the slots that it asked to release. -/
theorem passComplete_runs {s : State} {t : Nat} {ma : Bool} {e : QEntry} {rest : List QEntry} (hw : s.works t = true)
    (hp : ∀ k, e.post = some k → (s.tile t).token k < 65535) (hq : ((s.tile t).arr ma).q = e :: rest) (hc : e.code = cPASS)
    (hs : e.strRows = (passP e.words).m) (hb : (passP e.words).bell = true → e.stored = true) :
    let p := passP e.words
    ∃ s', exec (.passComplete t ma) s = .next s' ∧ (s.tile t).Left (s'.tile t) ma e rest ∧ ((s'.tile t).arr ma).acc = ((s.tile t).arr ma).acc
      ∧ ∀ i, (s'.tile t).spad.slot i =
          if ((p.srcRel = true ∧ p.src ≤ i ∧ i < p.src + p.srcSlots) ∨ (p.statRel = true ∧ p.reuse = false ∧ p.stat ≤ i ∧ i < p.stat + 8))
              ∧ ((s.tile t).spad.slot i).tag = .full
          then { (s.tile t).spad.slot i with tag := .empty } else (s.tile t).spad.slot i := by
  intro p
  obtain ⟨ht, hr, _, _⟩ := works_iff hw
  set q := s.tile t
  let sp1 := if p.srcRel then q.spad.releaseRun p.src p.srcSlots else q.spad
  let q0 : Tile := { q with spad := if p.statRel && !p.reuse then sp1.releaseRun p.stat 8 else sp1 }
  let q1 := q0.onArr ma (fun a => { a with cnt := Tab.mod 0 a.cnt 0 (· + 1) })
  have h0 : q0.arr ma = q.arr ma := by cases ma <;> rfl
  have h1 : (q1.arr ma).q = e :: rest ∧ (q1.arr ma).acc = (q.arr ma).acc := by
    rw [arr_onArr, h0]; exact ⟨hq, rfl⟩
  have hseq : q1.seq = q.seq := seq_onArr ..
  have hdo : completePass ma 0 q = q1.retire (arrEng ma) 0 := by
    simp only [completePass, hq, entryAt, List.getElem?_cons_zero, passDone_of hc hs hb]
    rfl
  obtain ⟨hleft, hspad, _, hacc, _, _⟩ := retire_left (q := q) h1.1 (congrArg Seq.phase hseq) (congrArg Seq.tokens hseq) hp
  have hrun : s.runTile t (completePass ma 0) = s.onTile t (completePass ma 0) := runTile_eq hw (by rw [hdo]; exact hleft.2.1)
  have htile : (s.onTile t (completePass ma 0)).tile t = q1.retire (arrEng ma) 0 := (State.tile_onTile s t _).trans hdo
  refine ⟨s.onTile t (completePass ma 0), ?_, ?_, ?_, fun i => ?_⟩
  · refine (if_pos ht).trans (congrArg Host.Outcome.next ((if_pos hr).trans ?_))
    rw [hq, firstWhere_head (by rw [hc]; rfl), ← hrun]
  · rw [htile]; exact hleft
  · rw [htile, hacc]; exact h1.2
  · rw [htile, hspad, show q1.spad = q0.spad from spad_onArr ..]
    exact passRelease_slot q.spad p i

/-! ### The other commands (R80, R98, R132, R155) -/

/-- A command other than a pass or a store at the head of an array, with its token taken and the other array's load channel
free, is completed by the rule of its code. -/
theorem completeArray_head {fv : Nat → Word} {ma : Bool} {q : Tile} {e : QEntry} {rest : List QEntry}
    (hq : ((acceptDue ma q).arr ma).q = e :: rest) (ht : e.taken = true) (hch : (q.arr !ma).channel = false) (h1 : e.code ≠ cPASS)
    (h12 : e.code ≠ 0x12) :
    completeArray fv ma 0 q = (let q := acceptDue ma q
      match e.code with
      | 0x02 => (q.onArr ma (fun a => a.clear e.uid ((List.range (fld (wordAt e.words 0) 12 11 + 1)).map (· + fld (wordAt e.words 0) 0 11)))).retire (arrEng ma) 0
      | 0x03 =>
        let c := cntGrow fv (fun k => decide (3 ≤ k)) (q.arr ma).cnt
        ((q.onArr ma (fun a => { a with cnt := c })).onSeq (fun z => { z with
          dmem := cntBlock c z.dmem (fld (wordAt e.words 0) 0 14) })).retire (arrEng ma) 0
      | 0x10 => q.retire (arrEng ma) 0
      | 0x11 =>
        match (q.arr ma).bell.newSet e.words (setUsed (q.arr ma).q) with
        | some b => (q.onArr ma (fun a => { a with bell := b })).retire (arrEng ma) 0
        | none => q
      | _ => q) := by
  have hch' : ((acceptDue ma q).arr !ma).channel = false := by
    obtain ⟨x, hx, _⟩ := acceptDue_begins ma q
    rw [hx, arr_onArr_other]; exact hch
  have hm : mayStart (acceptDue ma q) ma e = true := mayStart_of hch'
  have e1 : (e.code == cPASS) = false := beq_false_of_ne h1
  have e12 : (e.code == 0x12) = false := beq_false_of_ne h12
  simp only [completeArray, hq, entryAt, List.getElem?_cons_zero, e1, e12, ht, hm, Bool.false_eq_true, if_false, Bool.not_true, Bool.or_self,
    List.take_zero, List.any_nil, aheadBegun, List.all_nil, if_true, ne_eq, not_true_eq_false] <;> rfl

/-- The accumulator after a clear behind which nothing waits (R72, R80). -/
theorem clear_row (a : Arr) {uid : Nat} (h : Tab.get [] a.later uid = []) (n k r : Nat) :
    Tab.get none (a.clear uid ((List.range (k + 1)).map (· + n))).acc r = if n ≤ r ∧ r ≤ n + k then none else Tab.get none a.acc r := by
  have hrows : ((List.range (k + 1)).map (· + n)).contains r = decide (n ≤ r ∧ r ≤ n + k) := by
    rw [Bool.eq_iff_iff, List.contains_iff_mem, decide_eq_true_iff, List.mem_map]
    constructor
    · rintro ⟨x, hx, rfl⟩
      have := List.mem_range.mp hx
      omega
    · rintro ⟨h1, h2⟩
      exact ⟨r - n, List.mem_range.mpr (by omega), by omega⟩
  have hget := Tab.get_filter_key (d := none) a.acc (fun x => !((List.range (k + 1)).map (· + n)).contains x) r
  simp only [Arr.clear, h, List.foldl_nil]
  rw [hget, hrows]
  by_cases hr : n ≤ r ∧ r ≤ n + k
  · simp [hr]
  · simp [hr]

/-- A Bell with at most one settings set takes another one (R153, R155). -/
theorem newSet_adds {b : Bell} (h : b.sets.length ≤ 1) (ws : List Word) (used : Nat → Bool) :
    ∃ b', b.newSet ws used = some b' ∧ b'.sets.length = b.sets.length + 1 ∧ b'.latest.words = bellMerge b.latest.words ws
      ∧ b'.latest.adv = none ∧ (b'.latest.loaded = true ↔ ws.length = 1 ∧ b.latest.loaded = true) := by
  have hkeep : ∀ x y, b.sets ≠ [x, y] := fun x y e => by simp [e] at h
  by_cases h1 : ws.length = 1
  · simp only [Bell.newSet, h1, beq_self_eq_true, if_true]
    refine ⟨_, rfl, ?_⟩
    simp [Bell.latest]
  · simp only [Bell.newSet, beq_false_of_ne h1, Bool.false_eq_true, if_false]
    refine ⟨_, rfl, ?_⟩
    simp [Bell.latest, h1]

/-- Settles O14: a completion is the rule of its code, and then the retirement of the oldest command. -/
theorem arrayCommandsComplete : Obligations.ArrayCommandsComplete := by
  intro s t ma e rest hw q0 q a p w hp gone completes
  obtain ⟨x, hx, -, -, -⟩ := acceptDue_begins ma q0
  have hseq : q.seq = q0.seq := by rw [show q = _ from hx, seq_onArr]
  have hspad : q.spad = q0.spad := by rw [show q = _ from hx, spad_onArr]
  refine ⟨fun hq hc hs hb => ?pass, fun hc hl hq ht hch => ?clear, fun hc hq ht hch => ?counters, fun hc hq ht hch => ?scale,
    fun hc hn hq ht hch => ?bell⟩
  case pass => exact passComplete_runs hw hp hq hc hs hb
  all_goals have hdo := completeArray_head (fv := s.fv) hq ht hch (by rw [hc]; decide) (by rw [hc]; decide)
  case clear =>
    set rows := (List.range (fld w 12 11 + 1)).map (· + fld w 0 11)
    set q1 := q.onArr ma (fun a => a.clear e.uid rows)
    have ha : q1.arr ma = a.clear e.uid rows := arr_onArr ..
    have hs : q1.seq = q0.seq := (seq_onArr ..).trans hseq
    obtain ⟨s', hex, hleft, -, -, hacc, -, -⟩ := array_complete hw (hdo.trans (by simp only [hc]; rfl) : _ = q1.retire (arrEng ma) 0)
      (by rw [ha]; exact hq) (congrArg Seq.phase hs) (congrArg Seq.tokens hs) hp
    exact ⟨s', hex, hleft, fun r => by rw [hacc, ha]; exact clear_row a hl _ _ r⟩
  case counters =>
    set c := cntGrow s.fv (fun k => decide (3 ≤ k)) a.cnt
    set q1 := (q.onArr ma (fun a => { a with cnt := c })).onSeq (fun z => { z with dmem := cntBlock c z.dmem (fld w 0 14) })
    have ha : q1.arr ma = { a with cnt := c } := (arr_onSeq ..).trans (arr_onArr ..)
    have hs : q1.seq = { q0.seq with dmem := cntBlock c q0.seq.dmem (fld w 0 14) } := by
      rw [← hseq, ← seq_onArr q ma (fun a => { a with cnt := c })]; rfl
    obtain ⟨s', hex, hleft, -, hdmem, -, -, hcnt⟩ := array_complete hw (hdo.trans (by simp only [hc]; rfl) : _ = q1.retire (arrEng ma) 0)
      (by rw [ha]; exact hq) (by rw [hs]) (by rw [hs]) hp
    obtain ⟨hin, hout⟩ := cntBlock_facts c q0.seq.dmem (fld w 0 14)
    have hc' : ((s'.tile t).arr ma).cnt = c := by rw [hcnt, ha]
    have hd' : (s'.tile t).seq.dmem = cntBlock c q0.seq.dmem (fld w 0 14) := by rw [hdmem, hs]
    refine ⟨s', hex, hleft, fun i hi => ?_, fun i hi => ?_, fun b hb => ?_⟩
    · rw [hd', hc']; exact hin i hi
    · rw [hc']; exact cntGrow_other _ _ _ _ (decide_eq_false (by omega))
    · rw [hd']; exact hout b hb
  case scale =>
    obtain ⟨s', hex, hleft, hsp, -⟩ := array_complete hw (hdo.trans (by simp only [hc]; rfl) : _ = q.retire (arrEng ma) 0)
      hq (congrArg Seq.phase hseq) (congrArg Seq.tokens hseq) hp
    exact ⟨s', hex, hleft, hsp.trans hspad⟩
  case bell =>
    obtain ⟨b, hb, hsets⟩ := newSet_adds hn e.words (setUsed a.q)
    set q1 := q.onArr ma (fun a => { a with bell := b })
    have ha : q1.arr ma = { a with bell := b } := arr_onArr ..
    have hs : q1.seq = q0.seq := (seq_onArr ..).trans hseq
    obtain ⟨s', hex, hleft, -, -, -, hbell, -⟩ := array_complete hw (hdo.trans (by simp only [hc]; rw [hb]) : _ = q1.retire (arrEng ma) 0)
      (by rw [ha]; exact hq) (congrArg Seq.phase hs) (congrArg Seq.tokens hs) hp
    have hb' : ((s'.tile t).arr ma).bell = b := by rw [hbell, ha]
    exact ⟨s', hex, hleft, by rw [← hb'] at hsets; exact hsets⟩

end Sys2Proof.Machine
end

section
/-!
PROOFS. Descriptors in progress take their action (spec/12_rings_doorbells_descriptors.md R321 to R325, spec/11 R305): `NOP`, `FENCE`, `SYNC`,
`COMPUTE` and `COPY`.
-/

namespace Sys2Proof.Machine

open Sys2Proof

/-! ### A descriptor within its time limit is concluded (R336, R345) -/

theorem desc_uid {s : State} {uid : Nat} {d : Desc} (h : s.desc uid = some d) : d.uid = uid := by
  simpa using List.find?_some (show s.qm.descs.find? (fun d => d.uid == uid) = some d from h)

theorem inTime_of {s : State} {uid : Nat} {d : Desc} (hd : s.desc uid = some d) (hl : s.inLimit d = true) : s.inTime uid := by
  intro e he
  rw [hd] at he
  cases he
  exact (Bool.not_eq_true' _).mp hl

/-- The die with other queue-manager copies of its descriptors. -/
def State.withDescs (s : State) (ds : List Desc) : State := { s with qm := { s.qm with descs := ds } }

/-- Stopping a clock within the limit changes the descriptors only: the time in progress is written down. -/
theorem stopClock_withDescs {s : State} {uid : Nat} {d : Desc} (hd : s.desc uid = some d) (ho : d.outcome = none) (hl : s.inTime uid) :
    ∃ ds, s.stopClock uid = s.withDescs ds
      ∧ (s.withDescs ds).desc uid = some { d with timed := false, spent := s.elapsed d } := by
  cases ht : d.timed with
  | false =>
    refine ⟨s.qm.descs, ?_, ?_⟩
    · simp [State.stopClock, hd, ht, State.withDescs]
    · show s.desc uid = _
      simp only [hd, State.elapsed, ht, Bool.false_and, Bool.false_eq_true, if_false, Nat.add_zero]
      rw [← ht]
  | true =>
    have hov : s.overTime d = false := by have := hl d hd; simpa [ht] using this
    refine ⟨s.qm.descs.map (fun x => if x.uid == uid then { x with spent := s.elapsed d, timed := false } else x), ?_, ?_⟩
    · simp only [State.stopClock, hd, ht, ho, hov]
      rfl
    · exact desc_onDesc hd (fun x => { x with spent := s.elapsed d, timed := false }) rfl

/-- Concluding a descriptor within its limit changes the descriptors only. -/
theorem conclude_withDescs {s : State} {uid : Nat} {d : Desc} (hd : s.desc uid = some d) (ho : d.outcome = none) (hl : s.inTime uid)
    (st c t : Nat) : ∃ ds, s.conclude uid st c t = s.withDescs ds := by
  obtain ⟨ds, hs, -⟩ := stopClock_withDescs hd ho hl
  rw [State.conclude, hs]
  exact ⟨_, rfl⟩

/-- A due descriptor that is concluded with `OK`, and nothing else of the die that a program sees. -/
theorem concluded_ok {s : State} {uid op : Nat} {d : Desc} (hd : s.desc uid = some d) (hl : s.inLimit d = true) (h : d.due op = true) :
    (s.conclude uid stOK 0 127).desc uid = some (d.concluded s stOK 0 127) ∧ (s.conclude uid stOK 0 127).mem = s.mem
    ∧ (s.conclude uid stOK 0 127).tiles = s.tiles := by
  have ho := (due_iff h).2.2
  obtain ⟨ds, hc⟩ := conclude_withDescs hd ho (inTime_of hd hl) stOK 0 127
  exact ⟨conclude_desc hd ho hl _ _ _, by rw [hc]; rfl, by rw [hc]; rfl⟩

/-! ### `NOP` and `FENCE` (R321, R325) -/

theorem nopDesc_ends {s : State} {uid : Nat} {d : Desc} (hd : s.desc uid = some d) (hl : s.inLimit d = true) (h : d.due 9 = true) :
    ∃ s', exec (.nopDesc uid) s = .next s' ∧ s'.desc uid = some (d.concluded s stOK 0 127) ∧ s'.mem = s.mem ∧ s'.tiles = s.tiles := by
  refine ⟨s.conclude uid stOK 0 127, congrArg Host.Outcome.next ?_, concluded_ok hd hl h⟩
  rw [hd]
  exact if_pos h

theorem fenceDesc_ends {s : State} {uid : Nat} {d : Desc} (hd : s.desc uid = some d) (hl : s.inLimit d = true) (h : d.due 4 = true)
    (hn : ∀ y ∈ s.qm.descs, y.uid < uid → y.stream ≠ d.stream ∧ (bitAt (d.w 0x10) 0 = true → y.job ≠ d.job)) :
    ∃ s', exec (.fenceDesc uid) s = .next s' ∧ s'.desc uid = some (d.concluded s stOK 0 127) ∧ s'.mem = s.mem ∧ s'.tiles = s.tiles := by
  have hany : s.qm.descs.any (fun y => decide (y.uid < uid) && (y.stream == d.stream || (bitAt (d.w 0x10) 0 && y.job == d.job))) = false := by
    rw [List.any_eq_false]
    intro y hy hc
    simp only [Bool.and_eq_true, Bool.or_eq_true, decide_eq_true_eq, beq_iff_eq] at hc
    obtain ⟨hlt, hs | ⟨hw, hj⟩⟩ := hc
    · exact (hn y hy hlt).1 hs
    · exact (hn y hy hlt).2 hw hj
  refine ⟨s.conclude uid stOK 0 127, congrArg Host.Outcome.next ?_, concluded_ok hd hl h⟩
  rw [hd]
  exact if_pos (by rw [h, hany]; rfl)

/-! ### `COMPUTE` (R35, R564) -/

theorem compute_hands {s : State} {uid c t : Nat} {d : Desc} (hd : s.desc uid = some d) (h : d.due 1 = true) (ha : d.acted = false)
    (hk : s.clocked = true) (hc : d.cores = [c]) (hm : s.core c = ⟨t, .mapped⟩) (hf : (s.tile t).isFree = true) :
    ∃ s', exec (.compute uid) s = .next s' ∧ (s'.tile t).seq = (s.tile t).seq.handOver d c 0 1 := by
  set z := s.onDesc uid (fun d => { d with acted := true })
  refine ⟨(z.letGo t 2).onTile t (fun q => q.handOver d c 0 1), congrArg Host.Outcome.next ?_, ?_⟩
  · rw [if_pos hk]
    have hz : z.core c = ⟨t, .mapped⟩ := hm
    have hnot : (CoreSt.mapped == CoreSt.absent) = false := rfl
    simp only [State.compute, hd, h, ha, hc, hm, hf, List.find?_cons, hnot, List.find?_nil, List.all_cons, List.all_nil]
    show ((z.letGo (z.core c).tile 2).onTile (z.core c).tile (fun q => q.handOver d c 0 1)) = _
    rw [hz]
  · rw [State.tile_onTile]
    exact congrArg (fun x => x.handOver d c 0 1) ((letGo_quiet z t 2).seq t)

/-! ### `SYNC` (R305) -/

/-- What the request of a `SYNC` descriptor says, whatever its operation: its object, and who asks (R305). -/
theorem syncReq_names (d : Desc) (p : Nat) : wordAt (d.syncReq p).words 0 = d.w 0x14 ∧ (d.syncReq p).code < 7 ∧ (d.syncReq p).job = d.job
    ∧ (d.syncReq p).die = p ∧ (d.syncReq p).core = fld (d.w 0x1C) 0 6 ∧ (d.syncReq p).src = .desc d.uid := by
  simp only [Desc.syncReq, and_true]
  split
  · exact ⟨rfl, by norm_num⟩
  · exact ⟨rfl, by norm_num⟩
  · exact ⟨rfl, by norm_num⟩

/-- A request about an object that is homed here is applied here (R289). -/
theorem syncSend_home {s : State} {d : Desc} {p : Nat} (h : (d.w 0x14).toNat / 65536 = s.pos) :
    s.syncSend (d.syncReq p) = (s.syncHome (d.syncReq p) (d.w 0x14).toNat, true) := by
  obtain ⟨hid, hcode, -⟩ := syncReq_names d p
  have hpos : s.pos < 8 := Nat.mod_lt _ (by decide)
  have hdie : fld (d.w 0x14) 16 8 = s.pos := by
    rw [← h]
    exact Nat.mod_eq_of_lt (by omega)
  simp only [State.syncSend, State.syncApply, hid, hdie, h, beq_self_eq_true, if_true]
  rw [if_neg (by omega)]

/-- The descriptor of a `SYNC` whose operation has been sent. -/
def Desc.sent (d : Desc) : Desc := { d with acted := true, begun := !d.syncHolds }

/-- A `SYNC` within its time limit has its operation before it, on an object of its job that is homed here and no `SY_INIT` of which
is under way. -/
structure State.SyncsHere (s : State) (uid : Nat) (d : Desc) : Prop where
  desc : s.desc uid = some d
  limit : s.inLimit d = true
  due : d.due 3 = true
  fresh : d.acted = false
  home : (d.w 0x14).toNat / 65536 = s.pos
  noInit : Tab.get none s.sync.inits (d.w 0x14).toNat = none
  job : (s.obj ((d.w 0x14).toNat % 65536)).job = d.job

/-- The home does what the request of a `SYNC` asks, and the descriptor waits for the result. -/
theorem State.SyncsHere.applies {s z : State} {uid x : Nat} {d : Desc} (h : s.SyncsHere uid d)
    (hz : (s.onDesc uid Desc.sent).syncHome (d.syncReq s.pos) (d.w 0x14).toNat = z)
    (hq : z.qm = (s.onDesc uid Desc.sent).qm) (ht : z.time = s.time) (hr : z.sync.results = s.sync.results ++ [⟨.desc uid, 0, x⟩]) :
    ∃ s', s.syncDesc uid (fld (d.w 0x10) 0 2) = s' ∧ s'.sync = z.sync ∧ s'.sync.results = s.sync.results ++ [⟨.desc uid, 0, x⟩]
      ∧ ∃ d', s'.desc uid = some d' ∧ d'.acted = true ∧ d'.begun = !d.syncHolds ∧ d'.outcome = none := by
  have ho := (due_iff h.due).2.2
  have hs : s.syncDesc uid (fld (d.w 0x10) 0 2) = if d.syncHolds then z else z.stopClock uid := by
    have hsend : (s.onDesc uid Desc.sent).syncSend (d.syncReq s.pos) = (z, true) := by
      rw [syncSend_home (show (d.w 0x14).toNat / 65536 = (s.onDesc uid Desc.sent).pos from h.home), hz]
    have hgo : (!d.due 3 || d.acted || fld (d.w 0x10) 0 2 != fld (d.w 0x10) 0 2) = false := by
      rw [h.due, h.fresh, bne_self_eq_false]; rfl
    simp only [State.syncDesc, h.desc, hgo]
    exact congrArg (fun r : State × Bool => if (!r.2) = true then r.1.hitDesc uid causePortFault 127
      else if d.syncHolds = true then r.1 else r.1.stopClock uid) hsend
  have hdz : z.desc uid = some d.sent := by
    have h1 : (s.onDesc uid Desc.sent).desc uid = some d.sent := desc_onDesc h.desc Desc.sent rfl
    simpa only [State.desc, hq] using h1
  have hin : z.inTime uid := by
    intro e he
    rw [hdz] at he
    cases he
    have hov : z.overTime d.sent = s.overTime d := by
      simp only [State.overTime, State.stream, State.elapsed, State.now, hq, ht]
      rfl
    rw [hov]
    exact inTime_of h.desc h.limit d h.desc
  refine ⟨_, hs, ?_⟩
  cases hh : d.syncHolds with
  | true => exact ⟨rfl, hr, d.sent, hdz, rfl, congrArg (!·) hh, ho⟩
  | false =>
    obtain ⟨ds, hst, hds⟩ := stopClock_withDescs hdz ho hin
    rw [if_neg (by decide), hst]
    exact ⟨rfl, hr, _, hds, rfl, congrArg (!·) hh, ho⟩

/-- A signal or a wait of a `SYNC` at the home of a `LIVE` object (R289). -/
theorem State.SyncsHere.home_live {s : State} {uid : Nat} {d : Desc} (h : s.SyncsHere uid d) (f : Desc → Desc)
    (hst : (s.obj ((d.w 0x14).toNat % 65536)).st = 1) (hc : (d.syncReq s.pos).code = 2 ∨ (d.syncReq s.pos).code = 3) :
    (s.onDesc uid f).syncHome (d.syncReq s.pos) (d.w 0x14).toNat
      = (s.onDesc uid f).syncLive (d.syncReq s.pos) (d.w 0x14).toNat ((d.w 0x14).toNat % 65536) (s.obj ((d.w 0x14).toNat % 65536)) := by
  obtain ⟨-, -, hjob, -⟩ := syncReq_names d s.pos
  have ho : (s.onDesc uid f).obj ((d.w 0x14).toNat % 65536) = s.obj ((d.w 0x14).toNat % 65536) := rfl
  rcases hc with hc | hc
  · simp [State.syncHome, h.noInit, ho, hst, h.job, hjob, hc]
  · simp [State.syncHome, h.noInit, ho, hst, h.job, hjob, hc]

/-- An arrival of a `SYNC` at the home of a `LIVE` barrier (R298). -/
theorem State.SyncsHere.home_arrive {s : State} {uid : Nat} {d : Desc} (h : s.SyncsHere uid d) (f : Desc → Desc)
    (hst : (s.obj ((d.w 0x14).toNat % 65536)).st = 1) (ht : (s.obj ((d.w 0x14).toNat % 65536)).typ = 2) (hc : (d.syncReq s.pos).code = 4) :
    (s.onDesc uid f).syncHome (d.syncReq s.pos) (d.w 0x14).toNat = (s.onDesc uid f).syncArrive (d.syncReq s.pos) (d.w 0x14).toNat := by
  obtain ⟨-, -, hjob, hdie, -⟩ := syncReq_names d s.pos
  have ho : (s.onDesc uid f).obj ((d.w 0x14).toNat % 65536) = s.obj ((d.w 0x14).toNat % 65536) := rfl
  have hpos : (s.onDesc uid f).pos = s.pos := rfl
  simp [State.syncHome, h.noInit, ho, hst, ht, h.job, hjob, hdie, hpos, hc]

theorem satAdd_eq (n k : Nat) : satAdd n k = min (n + k) (2 ^ 32 - 1) := by
  simp only [satAdd]
  split
  · omega
  · omega

/-- An addition to a counter that nobody waits at (R289). -/
theorem syncLive_add {z : State} {r : SyncReq} {id i : Nat} {o : SyncObj} (hc : r.code = 2) (hop : fld (wordAt r.words 2) 0 2 = 0)
    (ht : o.typ = 0) (hw : o.waiters = []) :
    z.syncLive r id i o = (z.setObj i { o with value := min (o.value + (wordAt r.words 1).toNat) (2 ^ 32 - 1) }).answer r.src 0 0 := by
  have hv : ∀ v, z.setValue i o v = z.setObj i { o with value := v } := fun v => by
    simp only [State.setValue, hw, testWaiters, State.answers, List.foldl_nil]
  simp only [State.syncLive, hc, hop, ht, beq_self_eq_true, Bool.and_self, if_true, hv, satAdd_eq]

/-- A wait for a count that the counter has reached (R290). -/
theorem syncLive_wait {z : State} {r : SyncReq} {id i : Nat} {o : SyncObj} (hc : r.code = 3) (ht : o.typ = 0)
    (h0 : (wordAt r.words 1).toNat ≠ 0) (hv : (wordAt r.words 1).toNat ≤ o.value) :
    z.syncLive r id i o = (z.setObj i o).answer r.src 0 o.value := by
  have hok : waiterOk o ⟨r.src, (wordAt r.words 1).toNat, bitAt (wordAt r.words 2) 1, bitAt (wordAt r.words 2) 2⟩ = true := by
    simp only [waiterOk, ht, beq_self_eq_true, if_true, if_neg h0, decide_eq_true hv]
  have hf1 : ((0 : Nat) == 2) = false := rfl
  have hf2 : ((0 : Nat) == 1) = false := rfl
  simp only [State.syncLive, hc, hok, ht, hf1, hf2, Bool.false_and, Bool.and_false, Bool.or_self, Bool.false_eq_true, if_false, if_true]
  rw [← ht]

/-- No round is full for which some participant has not arrived. -/
theorem full_false {b : Barrier} {c : Nat} (hc : c < 64) (hp : b.coreMask.testBit c = true) (hn : b.next c = 0) (k : Nat) :
    b.full k = false := by
  rw [Barrier.full, List.all_eq_false]
  exact ⟨c, (bitList_mem _ _ _).mpr ⟨hc, hp⟩, by simp [hn]⟩

/-- A record whose oldest round some participant of this die has not arrived for is left as it is (R298, R299). -/
theorem barSettle_open {z : State} {id c : Nat} {b : Barrier} (hb : z.bar id = some b) (hc : c < 64) (hp : b.coreMask.testBit c = true)
    (hn : b.next c = 0) (hpos : z.pos < 8) (hd : b.dieMask.testBit z.pos = true) : z.barSettle id = z := by
  have hf := full_false hc hp hn
  have hreport : z.reportRounds id 2 = z := by
    simp only [State.reportRounds, hb, hf, Bool.not_false, Bool.or_true, Bool.true_or, if_true]
  have hroot : (bitList b.dieMask 8).all (fun d => if d == z.pos then b.full 0 else decide (1 ≤ Tab.get 0 b.reports d)) = false := by
    rw [List.all_eq_false]
    exact ⟨z.pos, (bitList_mem _ _ _).mpr ⟨hpos, hd⟩, by simp [hf]⟩
  have hready : (if b.dieWide then b.full 0 && b.dieMask.testBit z.pos
      else z.leader == z.pos && (bitList b.dieMask 8).all (fun d => if d == z.pos then b.full 0 else decide (1 ≤ Tab.get 0 b.reports d))) = false := by
    rw [hroot, hf, Bool.false_and, Bool.and_false, ite_self]
  rw [State.barSettle, hreport, State.closeRounds, hb]
  exact if_pos (by rw [hready, Bool.not_false, Bool.or_true])

/-- An arrival behind which the oldest round stays open, without a wait (R298). -/
theorem syncArrive_open {z : State} {r : SyncReq} {id c2 u : Nat} {b : Barrier} (hb : z.bar id = some b) (hst : b.st = 1) (hsrc : r.src = .desc u)
    (hw : bitAt (wordAt r.words 1) 0 = false) (hp : b.coreMask.testBit r.core = true) (hn : b.next r.core = 0) (h2 : c2 < 64)
    (hne : c2 ≠ r.core) (hp2 : b.coreMask.testBit c2 = true) (hn2 : b.next c2 = 0) (hd : b.dieMask.testBit z.pos = true) :
    z.syncArrive r id
      = (z.setBar id (some { b with ahead := Tab.mod 0 b.ahead r.core (· + 1) })).answer r.src 0 (b.round % 2 ^ 32) := by
  set b' : Barrier := { b with ahead := Tab.mod 0 b.ahead r.core (· + 1) }
  have harr : b.arrive r.src r.core false = (b', [⟨r.src, 0, b.round % 2 ^ 32⟩], true) := by
    simp only [Barrier.arrive, hp, hn, Barrier.roundAt]
    rfl
  have hnext : b'.next c2 = 0 := (Tab.get_mod (d := 0) b.ahead r.core c2 (· + 1)).trans ((if_neg hne).trans hn2)
  have hsettle : ((z.setBar id (some b')).answer r.src 0 (b.round % 2 ^ 32)).barSettle id = (z.setBar id (some b')).answer r.src 0 (b.round % 2 ^ 32) := by
    rw [hsrc]
    exact barSettle_open (b := b') (bar_setBar z id (some b') :) h2 hp2 hnext (Nat.mod_lt _ (by decide)) hd
  have hf2 : ((1 : Nat) == 2) = false := rfl
  have hf3 : ((1 : Nat) == 3) = false := rfl
  simp only [State.syncArrive, hb, hst, hf2, hf3, hw, harr, Bool.false_eq_true, if_false]
  exact hsettle

theorem State.SyncsHere.src {s : State} {uid : Nat} {d : Desc} (h : s.SyncsHere uid d) : (d.syncReq s.pos).src = .desc uid := by
  obtain ⟨-, -, -, -, -, hsrc⟩ := syncReq_names d s.pos
  rw [hsrc, desc_uid h.desc]

/-- A `SYNC` signal to a counter. -/
theorem State.SyncsHere.signal {s : State} {uid : Nat} {d : Desc} (h : s.SyncsHere uid d) (hs : fld (d.w 0x10) 0 2 = 0) (hop : fld (d.w 0x10) 2 2 = 0)
    (hst : (s.obj ((d.w 0x14).toNat % 65536)).st = 1) (ht : (s.obj ((d.w 0x14).toNat % 65536)).typ = 0)
    (hw : (s.obj ((d.w 0x14).toNat % 65536)).waiters = []) :
    ∃ s', exec (.syncDescSignal uid) s = .next s' ∧ s'.sync.results = s.sync.results ++ [⟨.desc uid, 0, 0⟩]
      ∧ s'.obj ((d.w 0x14).toNat % 65536) = { s.obj ((d.w 0x14).toNat % 65536) with
          value := min ((s.obj ((d.w 0x14).toNat % 65536)).value + (d.w 0x18).toNat) (2 ^ 32 - 1) }
      ∧ ∃ d', s'.desc uid = some d' ∧ d'.acted = true ∧ d'.begun = true ∧ d'.outcome = none := by
  have hreq : (d.syncReq s.pos).code = 2 ∧ (d.syncReq s.pos).words = [d.w 0x14, d.w 0x18, BitVec.ofNat 32 (fld (d.w 0x10) 2 2)] := by
    rw [Desc.syncReq, hs]; exact ⟨rfl, rfl⟩
  have hholds : d.syncHolds = false := by rw [Desc.syncHolds, hs]; rfl
  have hhome := h.home_live Desc.sent hst (.inl hreq.1)
  rw [syncLive_add hreq.1 (by rw [hreq.2, hop]; simp [wordAt, fld, bitsOf]) ht hw, h.src, hreq.2] at hhome
  obtain ⟨s', hs', hsync, hres, hdesc⟩ := h.applies hhome rfl rfl rfl
  rw [hs] at hs'
  rw [hholds] at hdesc
  exact ⟨s', congrArg Host.Outcome.next hs', hres, (congrArg (fun y : SyncTree => Tab.get SyncObj.init y.objs _) hsync).trans (setObj_obj _ _ _), hdesc⟩

/-- A `SYNC` wait for a count that the counter has reached. -/
theorem State.SyncsHere.wait {s : State} {uid : Nat} {d : Desc} (h : s.SyncsHere uid d) (hs : fld (d.w 0x10) 0 2 = 1)
    (hst : (s.obj ((d.w 0x14).toNat % 65536)).st = 1) (ht : (s.obj ((d.w 0x14).toNat % 65536)).typ = 0)
    (h0 : (d.w 0x18).toNat ≠ 0) (hv : (d.w 0x18).toNat ≤ (s.obj ((d.w 0x14).toNat % 65536)).value) :
    ∃ s', exec (.syncDescWait uid) s = .next s'
      ∧ s'.sync.results = s.sync.results ++ [⟨.desc uid, 0, (s.obj ((d.w 0x14).toNat % 65536)).value⟩]
      ∧ s'.obj ((d.w 0x14).toNat % 65536) = s.obj ((d.w 0x14).toNat % 65536)
      ∧ ∃ d', s'.desc uid = some d' ∧ d'.acted = true ∧ d'.begun = false ∧ d'.outcome = none := by
  have hreq : (d.syncReq s.pos).code = 3 ∧ wordAt (d.syncReq s.pos).words 1 = d.w 0x18 := by
    rw [Desc.syncReq, hs]; exact ⟨rfl, rfl⟩
  have hholds : d.syncHolds = true := by rw [Desc.syncHolds, hs]; rfl
  have hhome := h.home_live Desc.sent hst (.inr hreq.1)
  rw [syncLive_wait hreq.1 ht (by rw [hreq.2]; exact h0) (by rw [hreq.2]; exact hv), h.src] at hhome
  obtain ⟨s', hs', hsync, hres, hdesc⟩ := h.applies hhome rfl rfl rfl
  rw [hs] at hs'
  rw [hholds] at hdesc
  exact ⟨s', congrArg Host.Outcome.next hs', hres, (congrArg (fun y : SyncTree => Tab.get SyncObj.init y.objs _) hsync).trans (setObj_obj _ _ _), hdesc⟩

/-- A `SYNC` arrival behind which the oldest round stays open. -/
theorem State.SyncsHere.arrive {s : State} {uid c2 : Nat} {d : Desc} {b : Barrier} (h : s.SyncsHere uid d) (hs : fld (d.w 0x10) 0 2 = 2)
    (hnw : bitAt (d.w 0x10) 6 = false) (hst : (s.obj ((d.w 0x14).toNat % 65536)).st = 1) (ht : (s.obj ((d.w 0x14).toNat % 65536)).typ = 2)
    (hb : s.bar (d.w 0x14).toNat = some b) (hbst : b.st = 1) (hp : b.coreMask.testBit (fld (d.w 0x1C) 0 6) = true)
    (hn : b.next (fld (d.w 0x1C) 0 6) = 0) (h2 : c2 < 64) (hne : c2 ≠ fld (d.w 0x1C) 0 6) (hp2 : b.coreMask.testBit c2 = true)
    (hn2 : b.next c2 = 0) (hd : b.dieMask.testBit s.pos = true) :
    ∃ s', exec (.syncDescArrive uid) s = .next s' ∧ s'.sync.results = s.sync.results ++ [⟨.desc uid, 0, b.round % 2 ^ 32⟩]
      ∧ s'.bar (d.w 0x14).toNat = some { b with ahead := Tab.mod 0 b.ahead (fld (d.w 0x1C) 0 6) (· + 1) }
      ∧ ∃ d', s'.desc uid = some d' ∧ d'.acted = true ∧ d'.begun = true ∧ d'.outcome = none := by
  obtain ⟨-, -, -, -, hcore, -⟩ := syncReq_names d s.pos
  have hreq : (d.syncReq s.pos).code = 4 ∧ bitAt (wordAt (d.syncReq s.pos).words 1) 0 = false := by
    simp only [Desc.syncReq, hs, hnw, true_and]; simp [wordAt, bit1, bitAt, bitsOf]
  have hholds : d.syncHolds = false := by rw [Desc.syncHolds, hs, hnw]; rfl
  have hhome := h.home_arrive Desc.sent hst ht hreq.1
  rw [syncArrive_open (z := s.onDesc uid Desc.sent) hb hbst h.src hreq.2 (by rw [hcore]; exact hp) (by rw [hcore]; exact hn) h2
    (by rw [hcore]; exact hne) hp2 hn2 hd, h.src, hcore] at hhome
  obtain ⟨s', hs', hsync, hres, hdesc⟩ := h.applies hhome rfl rfl rfl
  rw [hs] at hs'
  rw [hholds] at hdesc
  exact ⟨s', congrArg Host.Outcome.next hs', hres, (congrArg (fun y : SyncTree => Tab.get none y.bars _) hsync).trans (bar_setBar (s.onDesc uid Desc.sent) _ (some _) :), hdesc⟩

/-! ### `COPY` (R324) -/

/-- Putting a transfer back and stopping the clock leave package memory alone, and the time limit. -/
theorem putXfer_clock {y : State} {uid : Nat} (h : y.inTime uid) (e : QEntry) (b : Bool) :
    (if b then (y.putXfer uid e).stopClock uid else y.putXfer uid e).mem = y.mem
    ∧ (if b then (y.putXfer uid e).stopClock uid else y.putXfer uid e).inTime uid := by
  have hp := inTime_putXfer h e
  cases b with
  | true => exact stopClock_inTime hp
  | false => exact ⟨rfl, hp⟩

/-- A `COPY` that may end within its time limit leaves package memory alone. -/
theorem copyEnd_if_mem {z : State} {uid : Nat} {d : Desc} (hu : d.uid = uid) (h : z.inTime uid) (b : Bool) :
    (if b then z.copyEnd d else z).mem = z.mem := by
  cases b with
  | true => exact copyEnd_mem (by rw [hu]; exact h)
  | false => rfl

/-- The copy engine copies the one row of a `COPY` whose requests have been answered. -/
theorem copy_moves {s : State} {uid : Nat} {d : Desc} {e : QEntry} (hd : s.desc uid = some d) (hl : s.inLimit d = true)
    (h : d.due 2 = true) (hk : s.clocked = true) (hx : d.xfer = some e) (hans : e.ans = 1) (hask : e.asked = true) (hown : e.owed = 0)
    (hstr : e.strRows = 0) (htgt : e.tgt = 127) (hsrc : fld (d.w 0x10) 0 2 = 0) (hdst : fld (d.w 0x10) 2 2 = 0) (hrow : fld (d.w 0x14) 0 16 = 0)
    (ha : s.access d.agent false (d.w64 0x18) d.copyB = .ok ()) (hb : s.access d.agent true (d.w64 0x20) d.copyB = .ok ())
    (hh : s.isHome (d.w64 0x20) = true) (hha : ∀ k, k < d.copyB → s.isHome (d.w64 0x18 + k) = true)
    (hg : d.w64 0x20 % granuleBytes + d.copyB ≤ granuleBytes) :
    ∃ s', exec (.copy uid) s = .next s' ∧ s'.mem = s.mem.wrBytes (d.w64 0x20) (s.mem.rdBytes (d.w64 0x18) d.copyB) := by
  have hunits : d.copyXfer.units = 1 := by rw [Desc.copyXfer, Desc.copyRows, hrow]
  have hsrcs : d.copyXfer.srcs 0 = [(.pkg (d.w64 0x18), d.copyB)] := by
    simp only [Desc.copyXfer, hsrc, beq_self_eq_true, if_true, endpoint_pkg _ (Nat.zero_mul _)]
  have hdsts : d.copyXfer.dsts 0 = [(.pkg (d.w64 0x20), d.copyB)] := by
    simp only [Desc.copyXfer, hdst, beq_self_eq_true, if_true, pkg_add _ (Nat.zero_mul _)]
  obtain ⟨y, e', hrun, hmem, hmild⟩ := one_row hunits hsrcs hdsts rfl ha hb hh hg hha hown hstr rfl
  have hok : ansStop s e = none := by simp only [ansStop, hans, htgt]; rfl
  have hin : y.inTime uid := inTime_congr (inTime_of hd hl) hmild.descs hmild.streams hmild.time
  refine ⟨_, congrArg Host.Outcome.next (if_pos hk), ?_⟩
  show (s.copyStep uid).mem = _
  simp only [State.copyStep, hd, h, hx, hok, hans, hask, if_true, hrun, Bool.not_true, bne_self_eq_false, Bool.false_and, Bool.false_eq_true, if_false]
  have hz := putXfer_clock hin { e' with stored := decide (d.copyXfer.units ≤ e'.strRows) } (decide (d.copyXfer.units ≤ e'.strRows))
  exact (copyEnd_if_mem (desc_uid hd) hz.2 _).trans (hz.1.trans hmem)

end Sys2Proof.Machine
end

section
/-!
PROOFS. `PLACE` descriptors take their action (spec/13_keywork_placement_and_remote_cache.md R359 to R361, R372), and O25.
-/

namespace Sys2Proof.Machine

open Sys2Proof

/-! ### A `PLACE` ends (R321) -/

/-- A `PLACE` that has been accepted ends: its descriptor has its outcome, and nothing else of the die has changed. -/
theorem place_concluded {s z : State} {uid : Nat} {d : Desc} (hd : s.desc uid = some d) (h : d.due 5 = true) (hl : s.inLimit d = true)
    (hq : z.qm.descs = (s.placeBegun uid).qm.descs) (hs : z.qm.streams = s.qm.streams) (ht : z.time = s.time) (st c : Nat) :
    (z.conclude uid st c 127).desc uid = some (({ d with begun := true, acted := true } : Desc).concluded s st c 127)
    ∧ ∃ ds, z.conclude uid st c 127 = z.withDescs ds := by
  refine ⟨place_ends hd h hl hq hs ht st c, ?_⟩
  have h1 : (s.placeBegun uid).desc uid = some { d with begun := true, acted := true } := desc_onDesc hd _ rfl
  have h2 : z.desc uid = some { d with begun := true, acted := true } := by simp only [State.desc, hq]; exact h1
  have hin : z.inTime uid := by
    intro e he
    rw [h2] at he
    cases he
    have hov : z.overTime { d with begun := true, acted := true } = s.overTime d := by
      simp only [State.overTime, State.stream, State.elapsed, State.now, hs, ht]
      rfl
    exact (congrArg (d.timed && ·) hov).trans (inTime_of hd hl d hd)
  exact conclude_withDescs h2 (due_iff h).2.2 hin st c 127

/-! ### Hints (R372) -/

/-- A command that gives a hint of a `PLACE`: on an object of its job the hint is recorded for the next epoch boundary, on another job's
object it is refused. -/
theorem placeHint_ends {s : State} {c : Instr} {uid code x i : Nat} {d : Desc} {o : Obj} (hd : s.desc uid = some d) (h : d.due 5 = true)
    (hl : s.inLimit d = true) (hc : fld (d.w 0x14) 0 4 = code) (ho : s.handleObj (d.w 0x10).toNat = some (i, o))
    (hex : exec c s = .next (s.placeHint uid code x)) :
    let ended := fun (s' : State) st => s'.desc uid = some (({ d with begun := true, acted := true } : Desc).concluded s st 0 127)
    (o.job = d.job → ∃ s', exec c s = .next s' ∧ ended s' stOK ∧ s'.mem = s.mem
      ∧ ∀ j, s'.object j = if j = i then some { o with hints := o.hints.filter (fun y => y.1 != code) ++ [(code, x)] } else s.object j)
    ∧ (o.job ≠ d.job → ∃ s', exec c s = .next s' ∧ ended s' stSecurity ∧ s'.kw = s.kw) := by
  have hob : (s.placeBegun uid).handleObj (d.w 0x10).toNat = some (i, o) := ho
  simp only [State.placeHint, placeDue_some hd h hc, hob] at hex
  refine ⟨fun hj => ?_, fun hj => ?_⟩
  · have hne : (o.job != d.job) = false := by rw [hj, bne_self_eq_false]
    obtain ⟨hdesc, ds, hz⟩ := place_concluded (z := (s.placeBegun uid).setObject i (some (o.hint code x))) hd h hl rfl rfl rfl stOK 0
    refine ⟨_, hex.trans (congrArg Host.Outcome.next (if_neg (by rw [hne]; decide))), hdesc, by rw [hz]; rfl, fun j => ?_⟩
    rw [hz]
    exact object_setObject (s.placeBegun uid) i j _
  · have hne : (o.job != d.job) = true := bne_iff_ne.mpr hj
    obtain ⟨hdesc, ds, hz⟩ := place_concluded (z := s.placeBegun uid) hd h hl rfl rfl rfl stSecurity 0
    exact ⟨_, hex.trans (congrArg Host.Outcome.next (if_pos hne)), hdesc, by rw [hz]; rfl⟩

/-- The operand of a hint, as the descriptor has it. -/
theorem placeWord_eq {s : State} {uid : Nat} {d : Desc} (hd : s.desc uid = some d) (off lo n : Nat) :
    s.placeWord uid off lo n = fld (d.w off) lo n := by
  rw [State.placeWord, hd]

/-- The field that is a whole word. -/
theorem fld_word (w : Word) : fld w 0 32 = w.toNat := by
  rw [fld, bitsOf, pow_zero, Nat.div_one]
  exact Nat.mod_eq_of_lt w.isLt

/-! ### `ACTIVATE` (R360) -/

/-- The die once an object stands in the table, its bytes cleared and its granules taken. -/
def State.placed (s : State) (i : Nat) (e : ObjEntry) (used : Tab Nat) (o : Obj) : State :=
  (({ s with mem := s.mem.clear e.pbase (e.granules * granuleBytes) } : State).onKw (fun k => { k with used := used })).setObject i (some o)

/-- An object in use as its entry says, with these homes. -/
def Obj.Follows (o : Obj) (e : ObjEntry) (hs : List Nat) : Prop :=
  o.st = .active ∧ o.gen = e.gen ∧ o.job = e.job ∧ o.exec = e.exec ∧ o.sharedRo = e.sharedRo ∧ o.granules = e.granules ∧ o.pbase = e.pbase
  ∧ o.homes = hs

/-- A free entry whose fields and range are legal, and for which there is room, becomes an object in use. -/
theorem activate_places {s : State} {i : Nat} {e : ObjEntry} {hs : List Nat} {used : Tab Nat} (hi : i < s.objLimit) (hfree : s.object i = none)
    (hclean : e.clean = true) (hrange : s.rangeOk e = true) (hinit : e.initSrc = 0)
    (hroom : allocHomes (homeList e.pol e.mask (firstHomeDie e.mask s.pos) e.mask) s.kw.used 0 e.granules = some (hs, used)) :
    ∃ o, s.activate i e = (s.placed i e used o, some 0) ∧ o.Follows e hs := by
  have hgo : (s.objLimit ≤ i || !e.clean || !s.rangeOk e : Bool) = false := by
    rw [hclean, hrange, decide_eq_false (by omega)]; rfl
  simp only [State.activate, hfree, hgo, hroom, hinit]
  exact ⟨_, rfl, rfl, rfl, rfl, rfl, rfl, rfl, rfl, rfl⟩

/-- The activation that a `PLACE` of job 0 asks for. -/
theorem placeActivate_ends {s : State} {uid i : Nat} {d : Desc} {ws : List Word} {e : ObjEntry} {hs : List Nat} {used : Tab Nat}
    (hd : s.desc uid = some d) (h : d.due 5 = true) (hl : s.inLimit d = true) (hc : fld (d.w 0x14) 0 4 = 8) (hj : d.job = 0)
    (he : objEntry ws = e) (hgen : (d.w 0x10).toNat / 2 ^ 20 = e.gen) (hx : (d.w 0x10).toNat % 2 ^ 20 = i) (hi : i < s.objLimit)
    (hfree : s.object i = none) (hclean : e.clean = true) (hrange : s.rangeOk e = true) (hinit : e.initSrc = 0)
    (hroom : allocHomes (homeList e.pol e.mask (firstHomeDie e.mask s.pos) e.mask) s.kw.used 0 e.granules = some (hs, used)) :
    ∃ s' o, exec (.activate uid ws) s = .next s' ∧ s'.desc uid = some (({ d with begun := true, acted := true } : Desc).concluded s stOK 0 127)
      ∧ s'.object i = some o ∧ o.Follows e hs ∧ s'.kw.used = used ∧ (∀ j, j ≠ i → s'.object j = s.object j)
      ∧ ∀ a, s'.mem.rd a = if e.pbase ≤ a ∧ a < e.pbase + e.granules * granuleBytes then 0 else s.mem.rd a := by
  set z := (s.placeBegun uid).readEntry i ws with hzdef
  obtain ⟨o, hact, ho⟩ := activate_places (s := z) hi hfree hclean hrange hinit hroom
  obtain ⟨hdesc, ds, hz⟩ := place_concluded (z := z.placed i e used o) hd h hl rfl rfl rfl stOK 0
  have hjob : (d.job != 0) = false := by rw [hj]; rfl
  have hg : ((d.w 0x10).toNat / 2 ^ 20 != e.gen) = false := by rw [hgen, bne_self_eq_false]
  refine ⟨(z.placed i e used o).conclude uid stOK 0 127, o, congrArg Host.Outcome.next ?_, hdesc, ?_, ho, ?_, fun j hne => ?_, fun a => ?_⟩
  · simp only [State.placeActivate, placeDue_some hd h hc, he, hx, hjob, hg, ← hzdef, hact, Bool.false_eq_true, if_false]
  · rw [hz]; exact (object_setObject _ i i _).trans (if_pos rfl)
  · rw [hz]; rfl
  · rw [hz]; exact (object_setObject _ i j _).trans (if_neg hne)
  · rw [hz]; exact Mem.rd_clear _ _ _ _

/-! ### `RELEASE` (R361) -/

/-- The object that a handle names is the one at its index. -/
theorem handleObj_some {s : State} {h i : Nat} {o : Obj} (hh : s.handleObj h = some (i, o)) : i = h % 2 ^ 20 ∧ s.object i = some o := by
  simp only [State.handleObj] at hh
  split at hh
  · simp at hh
  · split at hh
    next x hx =>
      split at hh
      · simp only [Option.some.injEq, Prod.mk.injEq] at hh
        obtain ⟨rfl, rfl⟩ := hh
        exact ⟨rfl, hx⟩
      · simp at hh
    next => simp at hh

/-- Invalidating an object whose lines no cache holds only takes the number of a group. -/
theorem invalidateObj_none {z : State} {o : Obj} (hs : z.rdc.sharers = []) (hl : z.rdc.lines = []) :
    z.invalidateObj o = { z with rdc := { z.rdc with nextTag := (z.rdc.nextTag + 1) % 65536 } } := by
  have hlines : z.objLines o = [] := by simp only [State.objLines, hs, hl]; rfl
  rw [State.invalidateObj, hlines, invalidateLines_nil]

/-- The step of a release on an object on which no access is open and whose lines no cache holds. -/
theorem releaseStep_drains {s : State} {i : Nat} {o : Obj} (ho : s.object i = some o) (hst : o.st = .releasing) (hd : o.drained = false)
    (hb : s.objBusy o = false) (hs : s.rdc.sharers = []) (hl : s.rdc.lines = []) :
    ∃ tiles tag, s.releaseStep i
      = { s.setObject i (some { o with drained := true }) with tiles := tiles, rdc := { s.rdc with nextTag := tag } } := by
  have hgo : (o.st != .releasing || o.drained || s.objBusy o : Bool) = false := by rw [hst, hd, hb]; rfl
  simp only [State.releaseStep, ho, hgo, Bool.false_eq_true, if_false]
  by_cases hx : o.exec = true
  · rw [if_pos hx]
    exact ⟨_, _, invalidateObj_none hs hl⟩
  · rw [if_neg hx]
    exact ⟨_, _, invalidateObj_none hs hl⟩

/-- A release that is drained waits for invalidations only. -/
theorem releaseStep_drained {s : State} {i : Nat} {o : Obj} (ho : s.object i = some o) (hd : o.drained = true) : s.releaseStep i = s := by
  simp only [State.releaseStep, ho, hd, Bool.or_true, Bool.true_or, if_true]

/-- The `RELEASE` of a `PLACE` of job 0, of an object on which no access is open and whose lines no cache holds. -/
theorem placeRelease_ends {s : State} {uid i : Nat} {d : Desc} {o : Obj} (hd : s.desc uid = some d) (h : d.due 5 = true) (hl : s.inLimit d = true)
    (hc : fld (d.w 0x14) 0 4 = 9) (hj : d.job = 0) (ha : d.acted = false) (hh : s.handleObj (d.w 0x10).toNat = some (i, o)) (hst : o.st = .active)
    (hm : o.mig = none) (hact : s.activating ((d.w 0x10).toNat % 2 ^ 20) = false) (hb : s.objBusy o = false) (hinv : s.rdc.invs = [])
    (hsh : s.rdc.sharers = []) (hln : s.rdc.lines = []) :
    ∃ s', exec (.release uid) s = .next s' ∧ s'.desc uid = some (({ d with begun := true, acted := true } : Desc).concluded s stOK 0 127)
      ∧ s'.object i = some { o with st := .releasing, hints := [], drained := true } ∧ s'.mem = s.mem ∧ ∀ j, j ≠ i → s'.object j = s.object j := by
  obtain ⟨hi, ho⟩ := handleObj_some hh
  set o1 : Obj := { o with st := .releasing, mig := none, hints := [], drained := false }
  set z1 := (s.placeBegun uid).setObject i (some o1) with hz1
  obtain ⟨tiles, tag, hstep⟩ := releaseStep_drains (s := z1) (o := o1) ((object_setObject _ i i _).trans (if_pos rfl)) rfl rfl hb hsh hln
  set z2 := z1.releaseStep i with hz2
  have ho2 : z2.object i = some { o1 with drained := true } := by
    rw [hstep]; exact (object_setObject z1 i i _).trans (if_pos rfl)
  have hother : ∀ j, j ≠ i → z2.object j = s.object j := fun j hne => by
    rw [hstep]
    exact (object_setObject z1 i j _).trans ((if_neg hne).trans ((object_setObject _ i j _).trans (if_neg hne)))
  have hrelease : (s.placeBegun uid).release i = z2 := by
    have hob : (s.placeBegun uid).object i = some o := ho
    have hmig : (o.st == ObjSt.migrating) = false := by rw [hst]; rfl
    simp only [State.release, hob, hmig, Bool.false_eq_true, if_false]
    rfl
  have hdone : z2.released i = true := by
    have hno : z2.objInvalidating { o1 with drained := true } = false := by
      have hi2 : z2.rdc.invs = [] := by rw [hstep]; exact hinv
      rw [State.objInvalidating, hi2, List.any_nil]
    simp only [State.released, ho2, hno]
    rfl
  obtain ⟨hdesc, ds, hz⟩ := place_concluded (z := z2) hd h hl (by rw [hstep]; rfl) (by rw [hstep]; rfl) (by rw [hstep]; rfl) stOK 0
  have hjob : (d.job != 0) = false := by rw [hj]; rfl
  rw [← hi] at hact
  refine ⟨z2.conclude uid stOK 0 127, congrArg Host.Outcome.next ?_, hdesc, ?_, ?_, fun j hne => ?_⟩
  · simp only [State.placeRelease, placeDue_some hd h hc, hjob, ha, hact, hh, hm, hrelease, State.placeReleased, ← hi,
      releaseStep_drained ho2 rfl, hdone, Bool.false_eq_true, if_false, if_true]
  · rw [hz]
    exact (show z2.object i = _ from ho2).trans (by simp only [o1, hm])
  · rw [hz]; show z2.mem = s.mem; rw [hstep]; rfl
  · rw [hz]; exact hother j hne

/-- Settles O25: each descriptor's action is the lemma of its opcode; what a clause says of the rest of the die holds because deciding an
outcome within the time limit changes the descriptors only. -/
theorem descriptorsTakeTheirAction : Obligations.DescriptorsTakeTheirAction := by
  refine ⟨fun s uid d hd hl => ?_, fun s uid d hd h hl => ?_⟩
  · refine ⟨nopDesc_ends hd hl, fenceDesc_ends hd hl, fun h ha hpos hi hj => ?_, fun c t h ha hk hc hm hf => ?_,
      fun e h hk hx hans hask hown hstr htgt hsrc hdst hrow hacc hacc2 hh hha hg => ?_⟩
    · have hsync : s.SyncsHere uid d := ⟨hd, hl, h, ha, hpos, hi, hj⟩
      refine ⟨hsync.signal, hsync.wait, fun b c c2 hs hnw hst ht hb hbst hc hp hn h2 hne hp2 hn2 hdm => ?_⟩
      subst hc
      exact hsync.arrive hs hnw hst ht hb hbst hp hn h2 hne hp2 hn2 hdm
    · obtain ⟨s', hex, hseq⟩ := compute_hands hd h ha hk hc hm hf
      refine ⟨s', hex, ?_⟩
      rw [hseq]
      exact ⟨rfl, rfl, rfl, rfl, rfl, rfl, rfl⟩
    · exact copy_moves hd hl h hk hx hans hask hown hstr htgt hsrc hdst hrow hacc hacc2 hh hha hg
  · refine ⟨fun i o ho => ?_, fun ws hs used hc hj hgen hi hfree hclean hrange hinit hroom => ?_,
      fun i o hc hj ha hh hst hm hact hb hinv hsh hln => placeRelease_ends hd h hl hc hj ha hh hst hm hact hb hinv hsh hln⟩
    · refine ⟨fun hc => placeHint_ends hd h hl hc ho ?_, fun hc => placeHint_ends hd h hl hc ho ?_, fun hc => placeHint_ends hd h hl hc ho ?_,
        fun hc => placeHint_ends hd h hl hc ho rfl, fun hc => placeHint_ends hd h hl hc ho rfl⟩
      · rw [← placeWord_eq hd]; rfl
      · rw [← placeWord_eq hd]; rfl
      · rw [← fld_word, ← placeWord_eq hd]; rfl
    · obtain ⟨s', o, hex, hdesc, hob, ⟨h1, h2, h3, h4, h5, h6, h7, h8⟩, hused, hother, hmem⟩ :=
        placeActivate_ends hd h hl hc hj rfl hgen rfl hi hfree hclean hrange hinit hroom
      exact ⟨s', o, hex, hdesc, hob, h1, h2, h3, h4, h5, h6, h7, h8, hused, hother, hmem⟩

end Sys2Proof.Machine
end

section
/-!
PROOFS. Stationary rows and the load channel of an array, and the streamed rows of an integer pass
(spec/03_matrix_arrays.md R68, R71, R72, R81 to R88, R102, R107, R108, R111; spec/05_number_formats_and_block_scales.md R127).
-/

namespace Sys2Proof.Machine

open Sys2Proof

/-! ### One step of an array -/

/-- A step of an array `ma` leaves it as `a`; the other array, the scratchpad, data memory and the phase stay as they were. -/
structure Tile.ArrSteps (q q' : Tile) (ma : Bool) (a : Arr) : Prop where
  own : q'.arr ma = a
  other : q'.arr (!ma) = q.arr (!ma)
  spad : q'.spad = q.spad
  dmem : q'.seq.dmem = q.seq.dmem
  phase : q'.seq.phase = q.seq.phase

/-- Making an array ready for its step changes that array only. -/
theorem arrReady_eq (q : Tile) (ma : Bool) : arrReady ma q = q.onArr ma (fun _ => (arrReady ma q).arr ma) := by
  obtain ⟨x, hx, -, -⟩ := arrReady_begins ma q
  rw [hx, arr_onArr]

/-- Changing an array that is ready for its step, and counting flushes, is a step of that array. -/
theorem arrReady_steps (q : Tile) (ma : Bool) (a : Arr) (sat fin fout : Nat) :
    q.ArrSteps (((arrReady ma q).onArr ma (fun _ => a)).addCounts sat fin fout) ma a := by
  rw [arrReady_eq]
  cases ma <;> exact ⟨rfl, rfl, rfl, rfl, rfl⟩

/-- Changing an entry of an array's queue, after a change of the array. -/
theorem onArr_onEntry (q : Tile) (ma : Bool) (f : Arr → Arr) (i : Nat) (g : QEntry → QEntry) :
    (q.onArr ma f).onEntry (arrEng ma) i g
      = q.onArr ma (fun _ => { f (q.arr ma) with q := modAt g (f (q.arr ma)).q i }) := by
  cases ma <;> rfl

/-- A step of an array, made in the state, raises no fault and is a step of that tile's array. -/
theorem tile_arrSteps {s : State} {t : Nat} {ma : Bool} {a : Arr} {f : Tile → Tile} (hw : s.works t = true)
    (hf : (s.tile t).ArrSteps (f (s.tile t)) ma a) :
    s.runTile t f = s.onTile t f ∧ (s.tile t).ArrSteps ((s.onTile t f).tile t) ma a :=
  ⟨runTile_eq hw hf.phase, by rw [State.tile_onTile]; exact hf⟩

/-- A pass that has started, or may start, does not wait for the other array's channel (R109). -/
theorem noWaitToStart {q : Tile} {ma : Bool} {e : QEntry} (h : e.begun = true ∨ mayStart q ma e = true) :
    (!e.begun && !mayStart q ma e) = false := by
  rcases h with h | h <;> simp [h]

/-! ### Banks (R67) -/

theorem bank_onBank_self (a : Arr) (b : Bool) (f : Bank → Bank) : (a.onBank b f).bank b = f (a.bank b) := by cases b <;> rfl

theorem bank_onBank_other (a : Arr) (b : Bool) (f : Bank → Bank) : (a.onBank b f).bank (!b) = a.bank (!b) := by cases b <;> rfl

/-- A change of a bank leaves the rest of its array as it was. -/
theorem onBank_keeps (a : Arr) (b : Bool) (f : Bank → Bank) :
    (a.onBank b f).acc = a.acc ∧ (a.onBank b f).sel = a.sel ∧ (a.onBank b f).cnt = a.cnt ∧ (a.onBank b f).q = a.q := by
  cases b <;> exact ⟨rfl, rfl, rfl, rfl⟩

/-- Stores that begin leave the banks as they are (R155). -/
theorem Arr.Begins.bank {a a' : Arr} (h : a.Begins a') (b : Bool) : a'.bank b = a.bank b := by
  cases b
  · exact h.bankA
  · exact h.bankB

/-! ### The stationary load (R82, R86, R88, R102) -/

/-- The pass whose load row is due stands at its index in the queue. -/
theorem entryAt_of_loadDue {a : Arr} {i : Nat} {e : QEntry} {b : Bool} (h : loadDue a = some (i, e, b)) : entryAt a.q i = some e := by
  unfold loadDue at h
  split at h
  · cases h
  · split at h
    · cases h
    · rename_i he
      dsimp only at h
      split at h
      · cases h; exact he
      · cases h

/-- The oldest pass with rows to load is due, into the bank that it uses (R88). -/
theorem loadDue_head {a : Arr} {e : QEntry} {rest : List QEntry} (hq : a.q = e :: rest) (hc : e.code = cPASS) (ht : e.taken = true)
    (hl : e.loadRows < loadTarget e) : loadDue a = some (0, e, bankAfter a.sel e) := by
  have hcand : loadCandidate a = some 0 := by
    rw [loadCandidate, hq]
    exact firstWhere_head (by simp [hc, ht, hl])
  simp [loadDue, hcand, hq, entryAt, bankFree, prevBank]

/-- A loading pass that has no bank yet takes the one that is not selected (R82, R87). -/
theorem bankAfter_loading {b : Bool} {e : QEntry} (hb : e.bank = none) (hr : (passP e.words).reuse = false) : bankAfter b e = !b := by
  simp [bankAfter, hb, hr]

/-- The array after the due load row of the pass `e` at index `i` has entered bank `b`, read from the scratchpad bytes `m` (R82, R102). -/
def Arr.loaded (a : Arr) (i : Nat) (e : QEntry) (b : Bool) (m : Mem) : Arr :=
  let x := (a.onBank b (fun _ => loadRow (a.bank b) m (passP e.words) (scaleP e.scale) e.loadRows)).startPass i
  { x with q := modAt (fun x => { x with loadRows := x.loadRows + 1, bank := some b, waiting := false }) x.q i }

/-- What the entry of a load row changes in its array, and what it leaves. -/
theorem loaded_facts {a : Arr} {i : Nat} {e : QEntry} (b : Bool) (m : Mem) (he : entryAt a.q i = some e) :
    let p := passP e.words
    let k := e.loadRows
    ((a.loaded i e b m).bank b).data = (a.bank b).data.wrBytes (256 * p.w * k) (m.rdBytes (4096 * p.stat + 256 * p.w * k) (256 * p.w))
    ∧ (a.loaded i e b m).bank (!b) = a.bank (!b) ∧ (a.loaded i e b m).acc = a.acc ∧ (a.loaded i e b m).sel = a.sel
    ∧ (a.loaded i e b m).cnt = a.cnt
    ∧ ∃ st, entryAt (a.loaded i e b m).q i = some { e with loadRows := k + 1, bank := some b, waiting := false, store := st } := by
  intro p k
  set row := loadRow (a.bank b) m p (scaleP e.scale) k
  obtain ⟨hacc, hsel, hcnt, hqueue⟩ := onBank_keeps a b (fun _ => row)
  have hstart := startPass_begins (a.onBank b (fun _ => row)) i
  obtain ⟨st, hst⟩ := hstart.entry (hqueue.symm ▸ he)
  refine ⟨congrArg Bank.data ((hstart.bank b).trans (bank_onBank_self ..)), (hstart.bank (!b)).trans (bank_onBank_other ..),
    hstart.acc.trans hacc, hstart.sel.trans hsel, hstart.cnt.trans hcnt, st, ?_⟩
  rw [Arr.loaded, entryAt_modAt, if_pos rfl, hst]
  rfl

/-- A load row that is due enters its bank once nothing keeps it: its pass may start, the array does not hold, and its slots
may be read. -/
theorem loadStep_due {ma : Bool} {q0 q : Tile} {i : Nat} {e : QEntry} {b : Bool} (hq : arrReady ma q0 = q)
    (hd : loadDue (q.arr ma) = some (i, e, b)) (hs : e.begun = true ∨ mayStart q ma e = true)
    (hch : (passP e.words).mode = 3 → (q.arr ma).channel = true) (hh : feederHold ma q = false)
    (hr : mayRead q.spad ((q.arr ma).q.take i) (loadSlots (passP e.words) (scaleP e.scale) e.loadRows) = true) :
    q0.ArrSteps (loadStep ma q0) ma ((q.arr ma).loaded i e b q.spad.mem) := by
  have hchannel : ((passP e.words).mode == 3 && !(q.arr ma).channel) = false := by
    by_cases hm : (passP e.words).mode = 3
    · simp [hch hm]
    · simp [hm]
  simp only [loadStep, hq, hd, noWaitToStart hs, hchannel, hh, hr, Bool.or_self, Bool.false_eq_true, if_false, Bool.not_true, onArr_onEntry]
  rw [← hq]
  exact arrReady_steps ..

/-- `STAT_LOAD_ROW` on a working tile is the step of its array. -/
theorem statLoadRow_enters {s : State} {t : Nat} {ma : Bool} {a : Arr} (hw : s.works t = true)
    (hf : (s.tile t).ArrSteps (loadStep ma (s.tile t)) ma a) :
    ∃ s', exec (.statLoadRow t ma) s = .next s' ∧ (s.tile t).ArrSteps (s'.tile t) ma a := by
  obtain ⟨ht, hr, -, -⟩ := works_iff hw
  obtain ⟨hrun, htile⟩ := tile_arrSteps hw hf
  exact ⟨_, (if_pos ht).trans (congrArg Host.Outcome.next ((if_pos hr).trans hrun)), htile⟩

/-! ### The load channel (R107, R108) -/

/-- An array whose next pass to load is an S8 pass takes the whole load channel of an idle other array (R107, R108). -/
theorem channelStep_takes {ma : Bool} {q : Tile} {e : QEntry} {rest : List QEntry} (hq : (q.arr ma).q = e :: rest) (hc : e.code = cPASS)
    (ht : e.taken = true) (hl : e.loadRows = 0) (hm : (passP e.words).mode = 3) (hr : (passP e.words).reuse = false)
    (hch : (q.arr ma).channel = false) (hoc : (q.arr !ma).channel = false) (hoq : (q.arr !ma).q = []) :
    channelStep ma q = q.onArr ma (fun a => { a with channel := true }) := by
  have hrows : loadTarget e = 16 := by simp [loadTarget, hr, PassP.l, PassP.w, hm]
  have hdue := loadDue_head hq hc ht (by rw [hl, hrows]; decide)
  have hidle : (q.arr !ma).relChannel = q.arr !ma := by simp [Arr.relChannel, hoc]
  have hother : (q.onArr ma (fun a => { a with channel := true })).onArr (!ma) Arr.relChannel = q.onArr ma (fun a => { a with channel := true }) := by
    cases ma
    · exact congrArg (fun x => { q.onArr false (fun a => { a with channel := true }) with ma1 := x }) hidle
    · exact congrArg (fun x => { q.onArr true (fun a => { a with channel := true }) with ma0 := x }) hidle
  simp only [channelStep, hdue, hm, hl, hch, hidle, hoc, hoq, hother, List.any_nil, BEq.rfl, Bool.not_false, Bool.and_self, if_true]

/-- Settles O12: a due row enters its bank (`loadStep_due`, `loaded_facts`), the oldest pass with rows to load is due (`loadDue_head`),
and the whole load channel is taken (`channelStep_takes`). -/
theorem stationaryRowsAndLoadChannel : Obligations.StationaryRowsAndLoadChannel := by
  refine ⟨⟨?row, fun a e rest hq hc ht hl hb hr => ?due⟩, ?channel⟩
  case row =>
    intro s t ma i e b hw q a p k hd hs hch hh hr
    obtain ⟨s', hex, hown, hother, hspad, hdmem, -⟩ := statLoadRow_enters hw (loadStep_due rfl hd hs hch hh hr)
    obtain ⟨hdata, hbank, hacc, hsel, hcnt, hentry⟩ := loaded_facts b q.spad.mem (entryAt_of_loadDue hd)
    refine ⟨s', hex, ?_⟩
    dsimp only
    rw [hown]
    exact ⟨hdata, hbank, hacc, hsel, hcnt, hentry, hother, hspad, hdmem⟩
  case due => rw [loadDue_head hq hc ht hl, bankAfter_loading hb hr]
  case channel =>
    intro s t ma e rest hw q hq hc ht hl hm hr hch hoc hoq
    obtain ⟨ht', hr', -, -⟩ := works_iff hw
    exact (if_pos ht').trans (congrArg Host.Outcome.next ((if_pos hr').trans (onTile_congr s t _ _ (channelStep_takes hq hc ht hl hm hr hch hoc hoq))))

/-! ### The accumulator row of an integer pass (R71, R72, R127) -/

/-- The integer sum of one output element, as the sum of its products (R127). -/
theorem passInt_eq_sum (m : Mem) (b : Bank) (p : PassP) (j n : Nat) :
    passInt m b p j n = ((List.range (redLen p)).map (fun κ =>
      (if p.sgnS then signedOf (streamElem m p j κ) p.fmt.width else (streamElem m p j κ : Int))
      * (if p.sgnW then signedOf (statFor b p κ n) p.fmt.width else (statFor b p κ n : Int)))).sum := by
  rw [passInt, foldl_sum _ (fun k => _ * _), zero_add]

/-- The columns that a slice's row takes from a result row are its active outputs, each once (R71, R91). -/
theorem mem_sliceCols (p : PassP) (sl : Nat) :
    let cols := ((List.range 128).map (· + 128 * sl)).filter (fun n => decide (n < p.nOut))
    (∀ n, n ∈ cols ↔ n / 128 = sl ∧ n < p.nOut) ∧ cols.Nodup := by
  refine ⟨fun n => ?_, (List.nodup_range.map (fun _ _ h => Nat.add_right_cancel h)).filter _⟩
  simp only [List.mem_filter, List.mem_map, List.mem_range, decide_eq_true_eq]
  constructor
  · rintro ⟨⟨y, hy, rfl⟩, hn⟩
    exact ⟨by omega, hn⟩
  · rintro ⟨rfl, hn⟩
    exact ⟨⟨n % 128, by omega, by omega⟩, hn⟩

/-- What an integer pass puts at output `n`: the old value where it takes part, and the sum of products, modulo 2^32. -/
def intCell (m : Mem) (b : Bank) (p : PassP) (j : Nat) (add : Bool) (old : AccRow) (n : Nat) : Word :=
  BitVec.ofInt 32 ((if add then (Tab.get 0 old.bits (n % 128)).toInt else 0) + passInt m b p j n)

/-- The old value at a column that an integer pass adds to: that of a valid row of the integer class where `ACC_ADD` is 1 (R72). -/
def addedTo (p : PassP) (row : Option AccRow) (col : Nat) : Int :=
  match row with
  | some o => if p.accAdd && o.isInt then (Tab.get 0 o.bits col).toInt else 0
  | none => 0

section
variable {fv : Nat → Word} {m : Mem} {b : Bank} {p : PassP} {c : ScaleP} {j : Nat} {add : Bool} {old : AccRow}

/-- The words of an accumulator row after elements of an integer pass. -/
theorem accCells_bits (hi : passIsInt p c = true) (cols : List Nat) (r : AccRow) :
    (cols.foldl (accCell fv m b p c j add old) r).bits
      = cols.foldl (fun t n => Tab.set 0 t (n % 128) (intCell m b p j add old n)) r.bits :=
  (List.foldl_hom AccRow.bits (fun x n => by simp only [accCell, hi, if_true]; rfl)).symm

/-- Elements leave the class of a row alone. -/
theorem accCells_isInt (cols : List Nat) (r : AccRow) : (cols.foldl (accCell fv m b p c j add old) r).isInt = r.isInt := by
  induction cols generalizing r with
  | nil => rfl
  | cons n rest ih =>
    rw [List.foldl_cons, ih]
    simp only [accCell]
    split <;> rfl

/-- The row of slice `n / 128` after a result row of an integer pass: it is valid, of the integer class, and holds at `n` the
exact sum, to which the old value is added where `ACC_ADD` is 1 and the row was valid and of the integer class (R72). -/
theorem accRowNew_at (hi : passIsInt p c = true) {n : Nat} (hn : n < p.nOut) (row : Option AccRow) :
    ∃ r, accRowNew fv m b p c j (n / 128) row = some r ∧ r.isInt = true
      ∧ Tab.get 0 r.bits (n % 128) = BitVec.ofInt 32
          (addedTo p row (n % 128) + passInt m b p j n) := by
  obtain ⟨hmem, hnodup⟩ := mem_sliceCols p (n / 128)
  set cols := ((List.range 128).map (· + 128 * (n / 128))).filter (fun x => decide (x < p.nOut)) with hcols
  have hncols : n ∈ cols := (hmem n).mpr ⟨rfl, hn⟩
  have hsome : cols.isEmpty = false := List.isEmpty_eq_false_iff.mpr (List.ne_nil_of_mem hncols)
  have hkey : ∀ x ∈ cols, ∀ y ∈ cols, x % 128 = y % 128 → x = y := by
    intro x hx y hy h
    have hxs := ((hmem x).mp hx).1
    have hys := ((hmem y).mp hy).1
    omega
  refine ⟨_, by simp only [accRowNew, ← hcols, hsome, Bool.false_eq_true, if_false]; rfl, by rw [accCells_isInt]; exact hi, ?_⟩
  rw [accCells_bits hi, Tab.foldl_set_const (· % 128) _ cols hnodup hkey _ n hncols, intCell]
  cases row <;> simp [hi, addedTo]

end

/-! ### The accumulator of an array after a streamed row (R71, R72) -/

/-- The accumulator after result row `j` of the oldest pass: each of its `w` rows anew, in turn. -/
theorem accumulate_head (a : Arr) (fv : Nat → Word) (m : Mem) (p : PassP) (c : ScaleP) (j : Nat) (b : Bool) :
    a.accumulate fv m 0 p c j b = { a with acc := (List.range p.w).foldl (fun t sl => Tab.set none t (p.accBase + p.w * j + sl)
      (accRowNew fv m (a.bank b) p c j sl (Tab.get none t (p.accBase + p.w * j + sl)))) a.acc } :=
  (List.foldl_hom (fun acc => ({ a with acc := acc } : Arr)) (fun _ _ => rfl))

/-- A row of result row `j`, read back. -/
theorem accumulate_row (a : Arr) (fv : Nat → Word) (m : Mem) (p : PassP) (c : ScaleP) (j : Nat) (b : Bool) {sl : Nat} (h : sl < p.w) :
    Tab.get none (a.accumulate fv m 0 p c j b).acc (p.accBase + p.w * j + sl)
      = accRowNew fv m (a.bank b) p c j sl (Tab.get none a.acc (p.accBase + p.w * j + sl)) := by
  rw [accumulate_head]
  exact Tab.foldl_set_at (fun sl => p.accBase + p.w * j + sl) (fun _ _ h => Nat.add_left_cancel h) (accRowNew fv m (a.bank b) p c j) a.acc p.w sl h

/-- Every other row stays. -/
theorem accumulate_other (a : Arr) (fv : Nat → Word) (m : Mem) (p : PassP) (c : ScaleP) (j : Nat) (b : Bool) {i : Nat}
    (h : ∀ sl, sl < p.w → i ≠ p.accBase + p.w * j + sl) : Tab.get none (a.accumulate fv m 0 p c j b).acc i = Tab.get none a.acc i := by
  rw [accumulate_head]
  exact Tab.foldl_set_other _ (fun sl => p.accBase + p.w * j + sl) (fun t sl => accRowNew fv m (a.bank b) p c j sl _) a.acc i
    (fun sl hsl => h sl (List.mem_range.mp hsl))

/-! ### A streamed row (R68, R81, R85) -/

/-- The start of an oldest pass that stores nothing changes nothing (R155). -/
theorem startPass_noStore {a : Arr} {e : QEntry} {rest : List QEntry} (hq : a.q = e :: rest) (h : storeShape e = none) : a.startPass 0 = a := by
  simp [Arr.startPass, Arr.beginStore, hq, entryAt, h]

/-- The array after the streamed row with the bytes `m` of its oldest pass `e` has entered, before the feeders read on. -/
def Arr.streamed (a : Arr) (fv : Nat → Word) (m : Mem) (e : QEntry) (rest : List QEntry) : Arr :=
  let p := passP e.words
  let b := bankAfter a.sel e
  { a.accumulate fv m 0 p (scaleP e.scale) e.strRows b with
    sel := b, feed := a.feed.drop 1
    cnt := Tab.mod 0 (Tab.mod 0 a.cnt 1 (· + 1)) 2 (· + p.ka * p.na)
    q := { e with strRows := e.strRows + 1, bank := some b, waiting := false } :: rest }

/-- The next row of the oldest pass enters once it stands complete at the head of the feeder queues (R81): nothing of a pass
without a Bell store waits. -/
theorem streamStep_head {fv : Nat → Word} {ma : Bool} {q0 q : Tile} {e : QEntry} {rest : List QEntry} {m : Mem} (hready : arrReady ma q0 = q)
    (hq : (q.arr ma).q = e :: rest) (hc : e.code = cPASS) (ht : e.taken = true) (hj : e.strRows < (passP e.words).m)
    (hl : e.loadRows = loadTarget e) (hs : e.begun = true ∨ mayStart q ma e = true) (hb : (passP e.words).bell = false)
    (hm : (q.arr ma).headRow e = some m) :
    q0.ArrSteps (streamStep fv ma q0) ma (((q.arr ma).streamed fv m e rest).refill q.spad).relChannel := by
  have hwaits : streamWaits ma q 0 e = false := by simp [streamWaits, noWaitToStart hs, hb, sinceClear]
  have hat : entryAt (q.arr ma).q 0 = some e := by rw [hq]; rfl
  have hstart : (q.arr ma).startPass 0 = q.arr ma := startPass_noStore hq (by simp [storeShape, hc, hb])
  have hprev : prevBank (q.arr ma) 0 = (q.arr ma).sel := rfl
  simp only [streamStep, hready, streamCand hq hc ht hj hl, hat, hwaits, hm, hstart, hprev, Bool.false_eq_true, if_false]
  simp only [Arr.streamed, accumulate_head, hq, modAt]
  rw [← hready]
  exact arrReady_steps ..

/-- The telemetry count of rows leaves the tiles alone (R561). -/
theorem countRows_tile (s : State) (a n t : Nat) : (s.countRows a n).tile t = s.tile t := by
  rw [State.tile, (State.countRows_frame s a n).1, State.tile]

/-- `STREAM_ROW_ENTER` on a working tile is the step of its array. -/
theorem streamRowEnter_enters {s : State} {t : Nat} {ma : Bool} {a : Arr} (hw : s.works t = true)
    (hf : (s.tile t).ArrSteps (streamStep s.fv ma (s.tile t)) ma a) :
    ∃ s', exec (.streamRowEnter t ma) s = .next s' ∧ (s.tile t).ArrSteps (s'.tile t) ma a := by
  obtain ⟨ht, hr, -, -⟩ := works_iff hw
  obtain ⟨hrun, htile⟩ := tile_arrSteps hw hf
  have htick : ((s.runTile t (streamStep s.fv ma)).tick).tile t = (s.onTile t (streamStep s.fv ma)).tile t := by rw [hrun]; rfl
  refine ⟨_, (if_pos ht).trans (congrArg Host.Outcome.next (if_pos hr)), ?_⟩
  dsimp only
  split
  · rw [htick]; exact htile
  · rw [countRows_tile, htick]; exact htile

/-- What the feeders that read on, and the load channel that may be given back, leave of an array (R85, R108). -/
theorem refill_relChannel_keeps (a : Arr) (sp : Spad) :
    let a' := (a.refill sp).relChannel
    a'.acc = a.acc ∧ a'.q = a.q ∧ a'.sel = a.sel ∧ a'.bankA = a.bankA ∧ a'.bankB = a.bankB := by
  intro a'
  obtain ⟨f, hf⟩ := refill_eq a sp
  have ha : a' = { a with feed := f, channel := (a.refill sp).relChannel.channel } := by
    simp only [a']; rw [relChannel_eq, hf]
  rw [ha]
  exact ⟨rfl, rfl, rfl, rfl, rfl⟩

/-- Settles O13: the due row enters (`streamStep_head`), each of its outputs is the exact sum (`accRowNew_at`, `passInt_eq_sum`), and
no other row changes (`accumulate_other`); the feeders read the due row into empty queues (`refill_reads`). Which element of a
register takes part with `CSTREAM` 1 in a narrow format is the model's choice (`outRow`, log 7), and nothing here depends on it. -/
theorem streamedIntegerRowsAreExact : Obligations.StreamedIntegerRowsAreExact := by
  refine ⟨?_, fun a sp e rest hf hq hs ht hr => refill_reads hf hq hs ht hr⟩
  intro s t ma e rest m hw q a p c j hq hc ht hj hl hs hb hint hscale hm b x y
  have hi : passIsInt p c = true := by simp [passIsInt, hint, hscale]
  obtain ⟨s', hex, hown, hother, hspad, -, -⟩ := streamRowEnter_enters hw (streamStep_head rfl hq hc ht hj hl hs hb hm)
  obtain ⟨hacc, hqueue, hsel, hA, hB⟩ := refill_relChannel_keeps (a.streamed s.fv m e rest) q.spad
  have hbanks : (a.streamed s.fv m e rest).bankA = a.bankA ∧ (a.streamed s.fv m e rest).bankB = a.bankB := by
    rw [Arr.streamed, accumulate_head]; exact ⟨rfl, rfl⟩
  refine ⟨s', hex, ?_⟩
  dsimp only
  rw [hown, hacc, hqueue, hsel, hA, hB]
  refine ⟨fun n hn hnw => ?_, fun i hrow => accumulate_other a s.fv m p c j b hrow, rfl, rfl, hbanks.1, hbanks.2, hspad, hother⟩
  have hsl : n / 128 < p.w := by omega
  obtain ⟨r, hr, hri, hbits⟩ := accRowNew_at (fv := s.fv) (m := m) (b := a.bank b) (j := j) hi hn
    (Tab.get none a.acc (p.accBase + p.w * j + n / 128))
  refine ⟨r, (accumulate_row a s.fv m p c j b hsl).trans hr, hri, ?_⟩
  rw [hbits, passInt_eq_sum]
  rfl

end Sys2Proof.Machine
end

section
/-!
PROOFS. When a `PASS` may stream by channel (spec/04_slide_mode_and_transposed_use.md, R110, R75).
-/

namespace Sys2Proof.Machine

open Sys2Proof

/-- A command with room in its queue that fails a check at issue stops the program with the cause of that check, and enters no queue
(R48, R61). -/
theorem issue_refused {s : State} {t eng cause : Nat} {c : Instr} {e : QEntry} (h : s.executes t = true)
    (hb : (s.tile t).Builds t eng c e) (hr : ((s.tile t).queue eng).length < queueDepth eng)
    (hk : issueCheck s.level eng (s.tile t) e = .error cause) :
    ∃ s', exec c s = .next s' ∧ (s'.tile t).stoppedBy (s.tile t) cause 0 := by
  obtain ⟨htile, -⟩ := executes_iff h
  obtain ⟨mk, rfl, he⟩ := builds_exec hb htile
  obtain ⟨s', hi, hstop, -⟩ := instr_fault h (fun q => enterQueue s.level eng (mk q) q) (q1 := s.tile t) (c := cause) (n := 0)
    (by simp only [enterQueue, hk]) rfl
  obtain rfl : s.instr t (fun q => enterQueue s.level eng (mk q) q) = s' := Host.Outcome.next.inj ((instrOn_eq htile _ s).symm.trans hi)
  refine ⟨_, he, ?_⟩
  rw [State.issue, if_neg (by simp), if_neg (by simp [Tile.queueFull, hr]), issueTrace_tile]
  exact hstop

/-- Words that ask for `CSTREAM` in another mode than full do not meet the limits of a `PASS` (R110). -/
theorem passLimits_cstream {ws : List Word} (hcs : (passP ws).cstream = true) (hmode : (passP ws).mode ≠ 0) :
    passLimits ws = false := by
  simp [passLimits, hcs, hmode]

/-- A `PASS` of four words that does not meet its limits is `ILLEGAL`, unless it asks for an S8 that is absent (R75). -/
theorem issueArray_pass_illegal {lvl : Nat} {ma : Bool} {q : Tile} {e : QEntry} (hc : e.code = 0x01) (hw : e.words.length = 4)
    (hl : passLimits e.words = false) (hf : 2 ≤ lvl ∨ (passP e.words).mode ≠ 3) :
    issueArray lvl ma q e = .error causeIllegal := by
  have hs8 : ((passP e.words).mode == 3 && decide (lvl < 2)) = false := Bool.eq_false_iff.2 fun hx => by
    simp only [Bool.and_eq_true, beq_iff_eq, decide_eq_true_eq] at hx
    omega
  simp only [issueArray, hc, hw, hs8, hl]
  rfl

/-- The checks at issue of an array's command are those of its engine. -/
theorem issueCheck_arrEng (lvl : Nat) (ma : Bool) (q : Tile) (e : QEntry) :
    issueCheck lvl (arrEng ma) q e = issueArray lvl ma q e := by cases ma <;> rfl

/-- Settles O56: `CSTREAM` outside mode full breaks the limits of a `PASS` (`passLimits_cstream`), so that the check at issue fails and
the program stops (`issue_refused`); a `PASS` that passes its checks enters (`issue_enters`). A `PASS` that asks for S8 where it is
absent is left out by the statement: R75's `FEATURE_ABSENT` comes before the limits. -/
theorem channelStreamNeedsFullMode : Obligations.ChannelStreamNeedsFullMode := by
  intro s t ma a h q ws eng hlen hrun hroom hcs
  have heng : arrEng ma = eng := by cases ma <;> rfl
  have hb : q.Builds t eng (.pass t ma a) (issueEntry q 0x01 a) := .inl ⟨0x01, a, by rw [← heng]; rfl, rfl, hrun, rfl⟩
  refine ⟨fun hmode hf => issue_refused h hb hroom ?_, fun q' e' _ hk hm => ?_⟩
  · rw [← heng, issueCheck_arrEng]
    exact issueArray_pass_illegal rfl hlen (passLimits_cstream hcs hmode) hf
  · obtain ⟨-, -, -, -, hph⟩ := executes_iff h
    obtain ⟨hque, -, hseq, -⟩ := enterQueue_ok (issueCheck_eng hk) hk hm
    obtain ⟨s', he, htile⟩ := issue_enters h hb hroom hk hm
    refine ⟨s', he, ?_⟩
    rw [htile]
    exact ⟨hque, (congrArg Seq.phase hseq :).trans hph⟩

end Sys2Proof.Machine
end

section
/-!
PROOFS. A Bell loads its vectors, and the oldest `BELL_STORE` of an array writes its rows and completes
(spec/06_bell_output_stage.md R150, R157, R164, R165, R168, R170).
-/

namespace Sys2Proof.Machine

open Sys2Proof

/-! ### The vector load (R157) -/

/-- A change of the Bell of an array or of the vector Bell leaves the scratchpad and the sequencer alone. -/
theorem onBell_facts (q : Tile) {eng : Nat} (h : eng < 3) (f : Bell → Bell) :
    (q.onBell eng f).bellOf eng = f (q.bellOf eng) ∧ (q.onBell eng f).spad = q.spad ∧ (q.onBell eng f).seq = q.seq := by
  match eng, h with
  | 0, _ | 1, _ | 2, _ => exact ⟨rfl, rfl, rfl⟩

/-- A Bell whose one settings set waits for its vectors loads them once their slots may be read. -/
theorem bellVectorLoad_loads {s : State} {t eng : Nat} {x : BellSet} (hw : s.works t = true) (he : eng < 3)
    (hset : ((s.tile t).bellOf eng).sets = [x]) (hx : x.loaded = false)
    (hv : (vectorSlots (bellP x.words)).all (s.tile t).spad.canRead = true) :
    ∃ s', exec (.bellVectorLoad t eng) s = .next s' ∧ ((s'.tile t).bellOf eng).sets = [x.load (s.tile t).spad.mem]
      ∧ (s'.tile t).spad = (s.tile t).spad ∧ (s'.tile t).seq = (s.tile t).seq := by
  obtain ⟨ht, hr, -, -⟩ := works_iff hw
  obtain ⟨hbell, hspad, hseq⟩ := onBell_facts (s.tile t) he (fun b => b.loadVectors (s.tile t).spad)
  have hunit : (isTile t && decide (eng < 4)) = true := by simp [ht, Nat.lt_succ_of_lt he]
  refine ⟨_, (if_pos hunit).trans (congrArg Host.Outcome.next (if_pos hr)), ?_⟩
  rw [State.tile_onTile, hbell, hspad, hseq]
  exact ⟨loadVectors_one hset hx hv, rfl, rfl⟩

/-! ### A converted row in the scratchpad (R150, R164, R165) -/

/-- A converted row has the written row length. -/
theorem bellRow_length (p : BellP) (s : BellSet) (seed : BitVec 64) (bell count j off n : Nat) (src : Nat → Val × Bool) :
    (bellRow p s seed bell count j off n src).bytes.length = rowLen p n := leBytes_length ..

/-- The bytes of a converted row that starts at output index 0: its elements, converted one by one and packed. -/
theorem bellRow_bytes (p : BellP) (s : BellSet) (seed : BitVec 64) (bell count j n : Nat) (src : Nat → Val × Bool) :
    (bellRow p s seed bell count j 0 n src).bytes = leBytes (rowLen p n) (packBits p.fmt.width
      ((List.range n).map (fun e => (bellElem p s seed bell count j e (src e).1).bits))) := by
  simp [bellRow, Function.comp_def]

/-- A row whose slots are all `RAW` may be written. -/
theorem storeWritable_raw {q : Tile} {p : BellP} {n d j : Nat}
    (h : ∀ i ∈ slotsOf (rowByte p n d j) (rowLen p n), (q.spad.slot i).tag = .raw) : storeWritable q p n d j = true :=
  List.all_eq_true.mpr fun i hi => by simp [Spad.canWrite, h i hi]

/-- A row written into `RAW` slots: its bytes stand in the scratchpad, no tag changes, and no fill is broken (R246, R247). -/
theorem writeStoreRow_raw {q : Tile} {p : BellP} {n d m j : Nat} {r : BellRow} (hlen : r.bytes.length = rowLen p n)
    (h : ∀ i ∈ slotsOf (rowByte p n d j) (rowLen p n), (q.spad.slot i).tag = .raw) :
    ∃ sp, writeStoreRow q p n d m j r = (q.wrote sp).addCounts r.sat r.flushIn r.flushOut
      ∧ sp.mem = q.spad.mem.wrBytes (rowByte p n d j) r.bytes ∧ ∀ i, sp.slot i = q.spad.slot i := by
  obtain ⟨sp, hsp, hmem, hslot⟩ := writeFill_raw q.spad (declOf p n d m) (rowByte p n d j) r.bytes (r.bytes.length / 4096 + 2)
    (by omega) (by rw [hlen]; exact h)
  exact ⟨sp, by simp only [writeStoreRow, hsp], hmem, hslot⟩

/-! ### The rows that a store clears (R168) -/

/-- Accumulator rows that are made invalid, in turn. -/
theorem get_foldl_set_none (l : List Nat) (acc : Tab (Option AccRow)) (r : Nat) :
    Tab.get none (l.foldl (fun acc r => Tab.set none acc r none) acc) r = if r ∈ l then none else Tab.get none acc r := by
  induction l generalizing acc with
  | nil => simp
  | cons x rest ih =>
    rw [List.foldl_cons, ih, Tab.get_set]
    by_cases hx : r = x <;> simp [hx]

/-- The rows from `r0` on of one result row of `w` accumulator rows. -/
theorem mem_accRows {w r0 r : Nat} : r ∈ (List.range w).map (· + r0) ↔ r0 ≤ r ∧ r < r0 + w := by
  simp only [List.mem_map, List.mem_range]
  constructor
  · rintro ⟨k, hk, rfl⟩
    omega
  · rintro ⟨h1, h2⟩
    exact ⟨r - r0, by omega, by omega⟩

/-! ### A row of the oldest store (R155, R170) -/

/-- The array after its Bell has read the due row of its oldest command, the `BELL_STORE` `e`. -/
def Arr.bellRead (a : Arr) (e : QEntry) (rest : List QEntry) : Arr :=
  let b := bellStoreP e.words
  let rows := (List.range b.w).map (· + (b.first + b.w * e.bellRows))
  { a with
    acc := if b.clr then rows.foldl (fun acc r => Tab.set none acc r none) a.acc else a.acc
    q := { e with bellRows := e.bellRows + 1, waiting := false } :: rest }

/-- The accumulator rows of the row that the Bell has read are invalid where the store clears; no other row changes. -/
theorem bellRead_acc (a : Arr) (e : QEntry) (rest : List QEntry) (r : Nat) :
    let b := bellStoreP e.words
    Tab.get none (a.bellRead e rest).acc r =
      if b.clr = true ∧ b.first + b.w * e.bellRows ≤ r ∧ r < b.first + b.w * e.bellRows + b.w then none else Tab.get none a.acc r := by
  dsimp only
  cases hclr : (bellStoreP e.words).clr with
  | false => simp [Arr.bellRead, hclr]
  | true => simp only [Arr.bellRead, hclr, if_true, true_and, get_foldl_set_none, mem_accRows]

/-- A `BELL_STORE` stores the elements and rows that its words give. -/
theorem storeShape_bellStore {e : QEntry} (hc : e.code = 0x12) :
    storeShape e = some ((bellStoreP e.words).nOut, (bellStoreP e.words).rows) := by
  simp only [storeShape, hc]

/-- Where the Bell reads the next row of a `BELL_STORE`. -/
theorem storeSource_bellStore {e : QEntry} (hc : e.code = 0x12) :
    storeSource e = ((bellStoreP e.words).first + (bellStoreP e.words).w * e.bellRows, (bellStoreP e.words).w,
      (bellStoreP e.words).rows, (bellStoreP e.words).nOut, (bellStoreP e.words).clr) := by
  simp only [storeSource, hc]
  rfl

/-- The oldest command of an array, an accepted store with rows left, is the one whose row is due. -/
theorem bellCandidate_head {e : QEntry} {rest : List QEntry} {st : Nat × Nat × Nat} (hc : e.code = 0x12) (hst : e.store = some st)
    (hj : e.bellRows < (bellStoreP e.words).rows) : bellCandidate (e :: rest) = some 0 :=
  firstWhere_head (by simp [hst, storeShape_bellStore hc, hj])

/-- The row that the Bell of an array makes of the due row of the store `e`, under the settings set `id` and the store count `cnt`. -/
def Arr.bellOut (a : Arr) (ma : Bool) (e : QEntry) (id cnt : Nat) : BellRow :=
  let b := bellStoreP e.words
  let set := a.bell.setOf id
  bellRow (bellP set.words) set e.seed (arrEng ma) cnt e.bellRows 0 b.nOut (accSource a (b.first + b.w * e.bellRows))

section
variable {ma : Bool} {q0 q : Tile} {a : Arr} {e : QEntry} {rest : List QEntry} {id d cnt : Nat}
  (hready : acceptDue ma q0 = q) (ha : q.arr ma = a) (hq : a.q = e :: rest) (hc : e.code = 0x12) (hst : e.store = some (id, d, cnt))
  (hj : e.bellRows < (bellStoreP e.words).rows) (hset : (a.bell.setOf id).loaded = true)
include hready ha hq hc hst hj hset

/-- The Bell reads the due row of the oldest `BELL_STORE`, whose settings set is loaded, and writes it once its slots may be
written: no command ahead keeps it. -/
theorem bellStep_head (hwr : storeWritable q (bellP (a.bell.setOf id).words) (bellStoreP e.words).nOut d e.bellRows = true) :
    bellStep ma q0 = writeStoreRow (q.onArr ma (fun _ => a.bellRead e rest)) (bellP (a.bell.setOf id).words) (bellStoreP e.words).nOut d
      (bellStoreP e.words).rows e.bellRows (a.bellOut ma e id cnt) := by
  have hat : entryAt (e :: rest) 0 = some e := rfl
  have hpass : (e.code == cPASS) = false := by rw [hc]; rfl
  have hfree : ∀ l : List Nat, (l.any fun _ => false) = false := fun l => by simp
  simp only [bellStep, hready, ha, hq, bellCandidate_head hc hst hj, hat, hst, storeSource_bellStore hc, hset, hpass, hwr, hfree,
    List.take_zero, List.any_nil, Bool.false_and, Bool.not_true, Bool.or_self, Bool.false_eq_true, if_false, modAt,
    Arr.bellRead, Arr.bellOut]

/-- Where the slots of the due row are `RAW`, the step writes the bytes of that row, and leaves tags, data memory,
registers and the phase as they were. -/
theorem bellStep_writes
    (hraw : ∀ i ∈ slotsOf (rowByte (bellP (a.bell.setOf id).words) (bellStoreP e.words).nOut d e.bellRows)
      (rowLen (bellP (a.bell.setOf id).words) (bellStoreP e.words).nOut), (q0.spad.slot i).tag = .raw) :
    let q' := bellStep ma q0
    q'.arr ma = a.bellRead e rest ∧ (∀ i, q'.spad.slot i = q0.spad.slot i)
      ∧ q'.spad.mem = q0.spad.mem.wrBytes (rowByte (bellP (a.bell.setOf id).words) (bellStoreP e.words).nOut d e.bellRows)
          (a.bellOut ma e id cnt).bytes
      ∧ q'.seq.dmem = q0.seq.dmem ∧ q'.seq.regs = q0.seq.regs ∧ q'.seq.phase = q0.seq.phase := by
  intro q'
  obtain ⟨x, hx, -⟩ := acceptDue_begins ma q0
  rw [hready] at hx
  have hspad : q.spad = q0.spad := by rw [hx, spad_onArr]
  have hseq : q.seq = q0.seq := by rw [hx, seq_onArr]
  set q1 := q.onArr ma (fun _ => a.bellRead e rest)
  have hspad1 : q1.spad = q0.spad := (spad_onArr ..).trans hspad
  have hseq1 : q1.seq = q0.seq := (seq_onArr ..).trans hseq
  obtain ⟨sp, hrow, hmem, hslot⟩ := writeStoreRow_raw (q := q1) (p := bellP (a.bell.setOf id).words) (m := (bellStoreP e.words).rows)
    (r := a.bellOut ma e id cnt) (bellRow_length ..) (by rw [hspad1]; exact hraw)
  have hq' : q' = _ := (bellStep_head hready ha hq hc hst hj hset (storeWritable_raw (by rw [hspad]; exact hraw))).trans hrow
  rw [hspad1] at hmem hslot
  rw [hq', ← hseq1]
  exact ⟨by cases ma <;> rfl, hslot, hmem, rfl, rfl, rfl⟩

end

/-- `BELL_ROW_READ` at an array of a working tile is the step of its Bell, where that raises no fault. -/
theorem bellRowRead_steps {s : State} {t : Nat} {ma : Bool} (hw : s.works t = true)
    (hp : (bellStep ma (s.tile t)).seq.phase = (s.tile t).seq.phase) :
    ∃ s', exec (.bellRowRead t (arrEng ma)) s = .next s' ∧ s'.tile t = bellStep ma (s.tile t) := by
  obtain ⟨ht, hr, -, -⟩ := works_iff hw
  have hunit : (isTile t && decide (arrEng ma < 4)) = true := by rw [ht]; cases ma <;> rfl
  have hstep : s.bellRowStep t (arrEng ma) = s.onTile t (bellStep ma) := by
    rw [← runTile_eq hw hp]; cases ma <;> rfl
  exact ⟨_, (if_pos hunit).trans (congrArg Host.Outcome.next ((if_pos hr).trans hstep)), State.tile_onTile ..⟩

/-! ### The end of a store (R170) -/

/-- The oldest command of an array, a store whose rows have all been written, is marked as stored. -/
theorem bellDone_head {e : QEntry} {rest : List QEntry} {st : Nat × Nat × Nat} (hc : e.code = 0x12) (hst : e.store = some st)
    (hs : e.stored = false) (hj : e.bellRows = (bellStoreP e.words).rows) :
    bellDone (e :: rest) = { e with stored := true } :: rest := by
  rw [bellDone, firstWhere_head (by simp [hst, hs, storeShape_bellStore hc, hj])]
  rfl

/-- `BELL_STORE_COMPLETE` at an array of a working tile changes the queue of that array and nothing else of the tile. -/
theorem bellStoreComplete_marks {s : State} {t : Nat} {ma : Bool} (hw : s.works t = true) :
    ∃ s', exec (.bellStoreComplete t (arrEng ma)) s = .next s'
      ∧ s'.tile t = (s.tile t).onArr ma (fun a => { a with q := bellDone a.q }) := by
  obtain ⟨ht, hr, -, -⟩ := works_iff hw
  have hunit : (isTile t && decide (arrEng ma < 4)) = true := by rw [ht]; cases ma <;> rfl
  refine ⟨_, (if_pos hunit).trans (congrArg Host.Outcome.next (if_pos hr)), ?_⟩
  rw [State.tile_onTile]
  cases ma <;> rfl

/-- Settles O15: a Bell loads its vectors (`bellVectorLoad_loads`), the oldest store of an array writes its due row
(`bellStep_writes`), whose bytes are its converted elements (`bellRow_bytes`), and is stored after its last row (`bellDone_head`). -/
theorem bellStoresRows : Obligations.BellStoresRows := by
  intro s t hw q0
  refine ⟨fun eng x he hset hx hv => bellVectorLoad_loads hw he hset hx hv, ?_⟩
  intro ma e rest id d cnt q a hq hc ht hst hs b set p j
  constructor
  · intro hj hset hraw
    obtain ⟨harr, hslot, hmem, hdmem, hregs, hphase⟩ := bellStep_writes (q0 := q0) rfl rfl hq hc hst hj hset hraw
    obtain ⟨s', hex, htile⟩ := bellRowRead_steps hw hphase
    have hlen : (a.bellOut ma e id cnt).bytes.length = rowLen p b.nOut := bellRow_length ..
    refine ⟨s', hex, ?_⟩
    dsimp only
    rw [htile, harr, hmem]
    refine ⟨?_, fun x hx => ?_, hslot, rfl, bellRead_acc a e rest, hdmem, hregs⟩
    · rw [rdBytes_wrBytes' _ _ _ _ hlen]
      exact bellRow_bytes ..
    · exact Mem.rd_wrBytes_outside _ _ _ (by rw [hlen]; exact hx)
  · intro hj hq'
    obtain ⟨s', hex, htile⟩ := bellStoreComplete_marks (ma := ma) hw
    refine ⟨s', hex, ?_⟩
    rw [htile, arr_onArr, spad_onArr, hq', bellDone_head hc hst hs hj]
    exact ⟨rfl, rfl, rfl⟩

end Sys2Proof.Machine
end

section
/-!
PROOFS. The oldest instruction of the vector engine completes (spec/07_vector_engine.md R177 to R190, spec/10_scratchpad_tags_and_dma.md R250).
-/

namespace Sys2Proof.Machine

open Sys2Proof

/-! ### The oldest instruction (R54, R182) -/

/-- The vector engine of a working tile has `e` as its oldest instruction, with its wait token taken and room for its post. -/
structure State.VecOldest (s : State) (t : Nat) (e : QEntry) (rest : List QEntry) : Prop where
  works : s.works t = true
  head : (s.tile t).vec.q = e :: rest
  taken : e.taken = true
  room : ∀ k, e.post = some k → (s.tile t).token k < 65535

/-- The tile whose oldest vector instruction `e` has done its work: the instruction is counted and retires (R54, R198). -/
def Tile.vecDone (q : Tile) (e : QEntry) : Tile :=
  (q.onVec (fun x => ((x.cntAdd 0 1).cntAdd 1 (laneOps e)).cntAdd 2 (transCycles e))).retire 2 0

/-- What a tile keeps of the tile `q` whose oldest vector instruction `e` retires. -/
structure Tile.VecRetired (q' q : Tile) (e : QEntry) (rest : List QEntry) : Prop where
  queue : q'.vec.q = rest
  rows : q'.vec.v = q.vec.v
  tiles : q'.vec.t = q.vec.t
  vl : q'.vec.vl = q.vec.vl
  spad : q'.spad = q.spad
  dmem : q'.seq.dmem = q.seq.dmem
  regs : q'.seq.regs = q.seq.regs
  arr : ∀ ma, q'.arr ma = q.arr ma
  token : ∀ k, q'.token k = q.token k + (if e.post = some k then 1 else 0)

/-- Rows are read from the row registers alone. -/
theorem row_congr {x y : Vec} (h : x.v = y.v) (r : BitVec 3) : x.row r = y.row r := congrArg (fun v => Tab.get [] v r.toNat) h

/-- Tile-buffer rows are read from the tile buffers alone. -/
theorem tileRow_congr {x y : Vec} (h : x.t = y.t) (tl r : Nat) : x.tileRow tl r = y.tileRow tl r :=
  congrArg (fun t => (Tab.get none t (128 * tl + r)).getD []) h

/-- A tile-buffer row read back from where it was put. -/
theorem tileRow_set (x : Vec) (tl r : Nat) (tb : Tab Word) :
    Vec.tileRow { x with t := Tab.set none x.t (128 * tl + r) (some tb) } tl r = tb := by
  simp only [Vec.tileRow, Tab.get_set_self, Option.getD_some]

theorem vec_onArr (q : Tile) (ma : Bool) (f : Arr → Arr) : (q.onArr ma f).vec = q.vec := by cases ma <;> rfl

theorem arr_onVec (q : Tile) (ma : Bool) (f : Vec → Vec) : (q.onVec f).arr ma = q.arr ma := by cases ma <;> rfl

/-- The retirement of the oldest instruction keeps all that `VecRetired` names, and the phase. -/
theorem vecDone_retired {q : Tile} {e : QEntry} {rest : List QEntry} (hq : q.vec.q = e :: rest)
    (hp : ∀ k, e.post = some k → q.token k < 65535) : (q.vecDone e).VecRetired q e rest ∧ (q.vecDone e).seq.phase = q.seq.phase := by
  obtain ⟨hque, hv, ht, hvl, hph, hspad, hdmem, hregs, h0, h1, htok⟩ := vec_fin hq hp (laneOps e) (transCycles e)
  refine ⟨⟨hque, hv, ht, hvl, hspad, hdmem, hregs, fun ma => ?_, htok⟩, hph⟩
  cases ma
  · exact h0
  · exact h1

section
variable {s : State} {t : Nat} {e : QEntry} {rest : List QEntry} (h : s.VecOldest t e rest)
include h

/-- `COMMAND_COMPLETE` at an instruction whose work gives the tile `q1`. -/
theorem State.VecOldest.completes {q1 : Tile} (hc : completeVec s.fv 0 (s.tile t) = q1.vecDone e) (hq : q1.vec.q = e :: rest)
    (hph : q1.seq.phase = (s.tile t).seq.phase) (htk : q1.seq.tokens = (s.tile t).seq.tokens) :
    ∃ s', exec (.commandComplete t 2 0) s = .next s' ∧ (s'.tile t).VecRetired q1 e rest := by
  have hroom : ∀ k, e.post = some k → q1.token k < 65535 := fun k hk => by
    rw [Tile.token, htk]
    exact h.room k hk
  obtain ⟨hret, hphase⟩ := vecDone_retired hq hroom
  obtain ⟨s', hex, htile⟩ := vec_complete h.works (by rw [hc, hphase, hph])
  exact ⟨s', hex, by rw [htile, hc]; exact hret⟩

/-- `TAG_WAIT_GRANT` at an instruction that waits for a slot is its `COMMAND_COMPLETE` (R250). -/
theorem State.VecOldest.grant_eq (hw : e.waiting = true) (hs : isVStore e = false) :
    exec (.tagWaitGrant t 2 0) s = exec (.commandComplete t 2 0) s := by
  obtain ⟨ht, hr, -, -⟩ := works_iff h.works
  have hu : (isTile t && decide (2 < 6)) = true := by rw [ht]; rfl
  have hat : entryAt ((s.tile t).queue 2) 0 = some e := congrArg (fun l : List QEntry => l[0]?) h.head
  show execTagWaitGrant t 2 0 s = execCommandComplete t 2 0 s
  simp only [execTagWaitGrant, execCommandComplete, hu, hat, hr, hw, Bool.and_self, if_true, State.retry, hs, Bool.false_eq_true, if_false]

/-- The oldest instruction, where it is no store, may complete: nothing is ahead of it, and the vector Bell accepts nothing behind
it (R182, R193). -/
theorem State.VecOldest.unheld {c : Nat} (hc : e.code = c) (hstore : c ≠ opVSTV ∧ c ≠ opVSTT) :
    isVStore e = false ∧ acceptVec (s.tile t) = s.tile t ∧ entryAt (s.tile t).vec.q 0 = some e ∧ vecMay (s.tile t) 0 e = true := by
  have hs : isVStore e = false := by simp [isVStore, hc, hstore]
  exact ⟨hs, acceptVec_head h.head hs, congrArg (fun l : List QEntry => l[0]?) h.head, by simp [vecMay, h.taken]⟩

end

/-! ### The row registers after an instruction (R179) -/

/-- The vector engine `x'` is `x` with the lanes below `n` of row `r` given by `f`: the other lanes, the other rows, the tile
buffers and the queue stay. -/
structure Vec.WritesRow (x x' : Vec) (r : BitVec 3) (n : Nat) (f : Nat → Word) : Prop where
  queue : x'.q = x.q
  tiles : x'.t = x.t
  lanes : ∀ i, i < 128 → laneOf (x'.row r) i = if i < n then f i else laneOf (x.row r) i
  others : ∀ r', r' ≠ r → x'.row r' = x.row r'

/-- A row register written whole. -/
theorem setRow_writes (x : Vec) (r : BitVec 3) (tb : Tab Word) : x.WritesRow (x.setRow r tb) r 128 (laneOf tb) where
  queue := rfl
  tiles := rfl
  lanes i hi := by rw [row_setRow, if_pos rfl, if_pos hi]
  others r' hr := by rw [row_setRow, if_neg hr]

theorem laneOf_setActive (old : Tab Word) (n : Nat) (f : Nat → Word) {i : Nat} (hi : i < 128) :
    laneOf (setActive old n f) i = if i < n then f i else laneOf old i := laneOf_rowOf _ hi

/-- The active lanes of a row register written. -/
theorem setActive_writes (x : Vec) (r : BitVec 3) (n : Nat) (f : Nat → Word) :
    x.WritesRow (x.setRow r (setActive (x.row r) n f)) r n f where
  queue := rfl
  tiles := rfl
  lanes i hi := by rw [row_setRow, if_pos rfl, laneOf_setActive _ _ _ hi]
  others r' hr := by rw [row_setRow, if_neg hr]

/-- Lane functions that agree on the lanes written. -/
theorem Vec.WritesRow.congr {x x' : Vec} {r : BitVec 3} {n : Nat} {f g : Nat → Word} (h : x.WritesRow x' r n f)
    (hfg : ∀ i, i < 128 → i < n → f i = g i) : x.WritesRow x' r n g where
  queue := h.queue
  tiles := h.tiles
  lanes i hi := by
    rw [h.lanes i hi]
    split
    · next hn => exact hfg i hi hn
    · rfl
  others := h.others

/-- An instruction whose work writes a row register completes, and keeps all else. -/
theorem State.VecOldest.writes {s : State} {t n : Nat} {e : QEntry} {rest : List QEntry} {x : Vec} {r : BitVec 3} {f : Nat → Word}
    (h : s.VecOldest t e rest) (hc : completeVec s.fv 0 (s.tile t) = ((s.tile t).onVec (fun _ => x)).vecDone e)
    (hx : (s.tile t).vec.WritesRow x r n f) :
    ∃ s', exec (.commandComplete t 2 0) s = .next s' ∧ (s'.tile t).vec.q = rest
      ∧ (∀ i, i < 128 → laneOf ((s'.tile t).vec.row r) i = if i < n then f i else laneOf ((s.tile t).vec.row r) i)
      ∧ (∀ r', r' ≠ r → (s'.tile t).vec.row r' = (s.tile t).vec.row r') ∧ (s'.tile t).vec.t = (s.tile t).vec.t
      ∧ (s'.tile t).spad = (s.tile t).spad ∧ (s'.tile t).seq.dmem = (s.tile t).seq.dmem
      ∧ (s'.tile t).seq.regs = (s.tile t).seq.regs := by
  obtain ⟨s', hex, hr⟩ := h.completes hc (hx.queue.trans h.head) rfl rfl
  refine ⟨s', hex, hr.queue, fun i hi => ?_, fun r' hne => ?_, hr.tiles.trans hx.tiles, hr.spad, hr.dmem, hr.regs⟩
  · rw [row_congr hr.rows]
    exact hx.lanes i hi
  · rw [row_congr hr.rows]
    exact hx.others r' hne

/-! ### What each instruction does when it completes (R181) -/

/-- Lane `i` of the row that `VPERM` makes (R190). -/
def permLane (e : QEntry) (x : Vec) (i : Nat) : Word :=
  match permIndex e.vl (laneOf (x.row (vecArgs e.enc).vb) i) with
  | some k => laneOf (x.row (vecArgs e.enc).va) k
  | none => 0

/-- `VPERM` raises no fault in the mode that is not strict (R191). -/
theorem vecPerm_writes {e : QEntry} (h : bitAt e.cfg 0 = false) (x : Vec) :
    ∃ x', vecPerm e x = some x' ∧ x.WritesRow x' (vecArgs e.enc).vd e.vl (permLane e x) := by
  have hw := setActive_writes x (vecArgs e.enc).vd e.vl (permLane e x)
  have hgo : ∀ b, (bitAt e.cfg 0 && b) = false := fun b => by rw [h]; rfl
  exact ⟨_, if_neg (by rw [hgo]; decide), hw.queue, hw.tiles, hw.lanes, hw.others⟩

/-- The codes that have a rule of their own as they complete: all others work on row registers, tile rows and VL alone. -/
def ownRule : List Nat := [0x02, 0x03, 0x04, 0x05, 0x08, 0x09, 0x0A, 0x30, 0x38, 0x39]

section
variable {s : State} {t : Nat} {e : QEntry} {rest : List QEntry} (h : s.VecOldest t e rest)
include h

/-- Every instruction without a rule of its own does what `vecRegOp` gives, and retires. -/
theorem State.VecOldest.regOp (hc : e.code ∉ ownRule) :
    completeVec s.fv 0 (s.tile t) = ((s.tile t).onVec (vecRegOp s.fv e)).vecDone e := by
  simp only [ownRule, List.mem_cons, List.not_mem_nil, or_false, not_or] at hc
  obtain ⟨h2, h3, h4, h5, h8, h9, hA, h30, h38, h39⟩ := hc
  obtain ⟨hs, hacc, hat, hmay⟩ := h.unheld rfl ⟨h38, h39⟩
  simp only [completeVec, hacc, hat, hmay, hs, Bool.not_true, Bool.false_eq_true, if_false]
  rfl

/-- `VWAIT` and `VPOST` have no work to do (R181). -/
theorem State.VecOldest.wait (hc : e.code = 0x04 ∨ e.code = 0x05) : completeVec s.fv 0 (s.tile t) = (s.tile t).vecDone e := by
  rcases hc with hc | hc
  all_goals
    obtain ⟨hs, hacc, hat, hmay⟩ := h.unheld hc (by decide)
    simp only [completeVec, hacc, hat, hmay, hs, hc, Bool.not_true, Bool.false_eq_true, if_false]
    rfl

/-- `VPERM` in the mode that is not strict fills the active lanes (R190). -/
theorem State.VecOldest.perm (hc : e.code = 0x30) (hstrict : bitAt e.cfg 0 = false) :
    ∃ x, completeVec s.fv 0 (s.tile t) = ((s.tile t).onVec (fun _ => x)).vecDone e
      ∧ (s.tile t).vec.WritesRow x (vecArgs e.enc).vd e.vl (permLane e (s.tile t).vec) := by
  obtain ⟨hs, hacc, hat, hmay⟩ := h.unheld hc (by decide)
  obtain ⟨x, hx, hw⟩ := vecPerm_writes hstrict (s.tile t).vec
  refine ⟨x, ?_, hw⟩
  simp only [completeVec, hacc, hat, hmay, hs, hc, hx, Bool.not_true, Bool.false_eq_true, if_false]
  rfl

/-- The row register `vd` that a `VLD` of format `f` fills, and the slot that it releases where it asks to (R185). -/
def Tile.vecLoaded (q : Tile) (e : QEntry) (f : Fmt) : Tile :=
  let v := vecArgs e.enc
  let a := fld (wordAt e.words 0) 0 24
  let q' := q.onVec (fun x => x.setRow v.vd (setActive (x.row v.vd) e.vl (vldLane q.spad.mem a f (v.modv.getLsbD 5) (vP v))))
  { q' with spad := if v.modv.getLsbD 6 then q.spad.release (a / 4096) else q.spad }

/-- A `VLD` whose slots may be read loads its row register and retires; its flushed elements are counted (R185). -/
theorem State.VecOldest.load (hc : e.code = 0x08) {f : Fmt} (hf : vldFmt (vecArgs e.enc) = some f)
    (hr : (s.tile t).spad.canReadRange (fld (wordAt e.words 0) 0 24) (vldBytes f (vP (vecArgs e.enc)) e.vl) = true) :
    ∃ n, completeVec s.fv 0 (s.tile t) = (((s.tile t).vecLoaded e f).addCounts 0 n 0).vecDone e := by
  obtain ⟨hs, hacc, hat, hmay⟩ := h.unheld hc (by decide)
  refine ⟨vldFlushes (s.tile t).spad.mem (fld (wordAt e.words 0) 0 24) f (vElems (vP (vecArgs e.enc)) e.vl), ?_⟩
  simp only [completeVec, hacc, hat, hmay, hs, hc, hf, hr, Bool.not_true, Bool.false_eq_true, if_false, Tile.vecLoaded]
  cases (vecArgs e.enc).modv.getLsbD 6 <;> rfl

/-- A `VLD` that meets a slot that may not be read waits for its tag (R250, R251). -/
theorem State.VecOldest.loadWaits (hc : e.code = 0x08) {f : Fmt} (hf : vldFmt (vecArgs e.enc) = some f)
    (hr : (s.tile t).spad.canReadRange (fld (wordAt e.words 0) 0 24) (vldBytes f (vP (vecArgs e.enc)) e.vl) = false) :
    completeVec s.fv 0 (s.tile t) = (s.tile t).onVec (fun x => { x with q := { e with waiting := true } :: rest }) := by
  obtain ⟨hs, hacc, hat, hmay⟩ := h.unheld hc (by decide)
  have hwait : completeVec s.fv 0 (s.tile t) = (s.tile t).onEntry 2 0 (fun x => { x with waiting := true }) := by
    simp only [completeVec, hacc, hat, hmay, hs, hc, hf, hr, Bool.not_true, Bool.not_false, Bool.false_eq_true, if_false, if_true]
  rw [hwait]
  simp only [Tile.onEntry, Tile.onQueue, h.head, modAt, Tile.onVec]

/-- The row register `vd` that a `VACC` fills from an accumulator row, and the row that it clears where it asks to (R187). -/
def Tile.vecAcc (q : Tile) (e : QEntry) : Tile :=
  let v := vecArgs e.enc
  let ma := v.modv.getLsbD 0
  let r := fld (wordAt e.words 0) 0 11
  let q' := q.onVec (fun x => (x.setRow v.vd (accRead (Tab.get none (q.arr ma).acc r)).1).cntAdd 3 1)
  if v.modv.getLsbD 1 then q'.onArr ma (fun a => { a with acc := Tab.set none a.acc r none }) else q'

/-- A `VACC` reads its accumulator row and retires; its flushed lanes are counted (R187). -/
theorem State.VecOldest.acc (hc : e.code = 0x09) :
    ∃ n, completeVec s.fv 0 (s.tile t) = (((s.tile t).vecAcc e).addCounts 0 n 0).vecDone e := by
  obtain ⟨hs, hacc, hat, hmay⟩ := h.unheld hc (by decide)
  refine ⟨(accRead (Tab.get none ((s.tile t).arr ((vecArgs e.enc).modv.getLsbD 0)).acc (fld (wordAt e.words 0) 0 11))).2, ?_⟩
  simp only [completeVec, hacc, hat, hmay, hs, hc, Bool.not_true, Bool.false_eq_true, if_false, Tile.vecAcc]
  rfl

end

/-! ### The instructions on row registers, tile rows and VL alone (R177, R178, R181) -/

section
variable {fv : Nat → Word} {e : QEntry} (x : Vec)

theorem vecRegOp_vsetvl (hc : e.code = 0x01) : vecRegOp fv e x = { x with vl := e.vl } := by
  simp only [vecRegOp, hc]

theorem vecRegOp_vtr (hc : e.code = 0x0B) :
    let v := vecArgs e.enc
    vecRegOp fv e x = x.setRow v.vd (x.tileRow v.va.toNat (fld (wordAt e.words 0) 0 7)) := by
  simp only [vecRegOp, hc]

theorem vecRegOp_vtw (hc : e.code = 0x0C) :
    let v := vecArgs e.enc
    vecRegOp fv e x = { x with t := Tab.set none x.t (128 * v.vd.toNat + fld (wordAt e.words 0) 0 7) (some (x.row v.va)) } := by
  simp only [vecRegOp, hc]

theorem vecRegOp_vmov (hc : e.code = 0x0D) : vecRegOp fv e x = x.setRow (vecArgs e.enc).vd (x.row (vecArgs e.enc).va) := by
  simp only [vecRegOp, hc]

theorem vecRegOp_vbcast (hc : e.code = 0x0E) :
    vecRegOp fv e x = x.setRow (vecArgs e.enc).vd (rowOf (fun _ => wordAt e.words 0)) := by
  simp only [vecRegOp, hc]

theorem vecRegOp_viota (hc : e.code = 0x0F) :
    let v := vecArgs e.enc
    vecRegOp fv e x = x.setRow v.vd (setActive (x.row v.vd) e.vl (fun i => fp32Keep (.fin false (.ofInt i)))) := by
  simp only [vecRegOp, hc]

theorem vecRegOp_vabs (hc : e.code = 0x16) (hP : vP (vecArgs e.enc) = false) :
    let v := vecArgs e.enc
    vecRegOp fv e x = x.setRow v.vd (setActive (x.row v.vd) e.vl (fun i => laneOf (x.row v.va) i &&& 0x7FFFFFFF)) := by
  simp only [vecRegOp, hc, hP, Bool.false_eq_true, if_false]

theorem vecRegOp_vneg (hc : e.code = 0x17) (hP : vP (vecArgs e.enc) = false) :
    let v := vecArgs e.enc
    vecRegOp fv e x = x.setRow v.vd (setActive (x.row v.vd) e.vl (fun i => laneOf (x.row v.va) i ^^^ 0x80000000)) := by
  simp only [vecRegOp, hc, hP, Bool.false_eq_true, if_false]

end

/-! ### The lane functions of FP32 mode (R181, R183, R184) -/

/-- The codes whose lane of `vd` is `vecFn` of the lanes of the operands. -/
def laneCodes : List Nat := [0x10, 0x11, 0x12, 0x13, 0x14, 0x15, 0x18, 0x19]

/-- The condition field of `VCMP` (R180). -/
theorem fld_modv_cond (m : BitVec 8) : fld (m.zeroExtend 32) 0 3 = m.toNat % 8 := by
  have := m.isLt
  simp [fld, bitsOf]

/-- In FP32 mode, without a scalar operand, lane `i` of `vd` becomes the function of the instruction of lane `i` of the operands. -/
theorem vecRegOp_lanes {fv : Nat → Word} {e : QEntry} (hc : e.code ∈ laneCodes) (hP : vP (vecArgs e.enc) = false)
    (hS : vS (vecArgs e.enc) = false) (x : Vec) :
    let v := vecArgs e.enc
    let val := fun r i => (fp32Read (laneOf (x.row r) i)).1
    x.WritesRow (vecRegOp fv e x) v.vd e.vl (fun i => vecFn e.code (v.modv.toNat % 8) (fv (2 * i)) (val v.vd i) (val v.va i) (val v.vb i)) := by
  intro v val
  have hop : vecRegOp fv e x = x.setRow v.vd (setActive (x.row v.vd) e.vl (fun i =>
      vecFn e.code (v.modv.toNat % 8) (fv (2 * i)) (val v.vd i) (val v.va i) (val v.vb i))) := by
    simp only [laneCodes, List.mem_cons, List.not_mem_nil, or_false] at hc
    rcases hc with hc | hc | hc | hc | hc | hc | hc | hc
    all_goals
      simp only [vecRegOp, hc, hP, hS, fld_modv_cond, laneApply, Bool.false_and, Bool.false_eq_true, if_false]
      rfl
  rw [hop]
  exact setActive_writes ..

theorem vmaxVal_eq (a b : Val) : vmaxVal a b = if a = .nan ∨ b = .nan then .nan else if ordLt a b then b else a := by
  simp only [vmaxVal, Bool.or_eq_true, beq_iff_eq]

theorem vminVal_eq (a b : Val) : vminVal a b = if a = .nan ∨ b = .nan then .nan else if ordLt b a then b else a := by
  simp only [vminVal, Bool.or_eq_true, beq_iff_eq]

/-! ### What a `VACC` leaves behind (R187) -/

/-- A lane of a row read from the accumulator. -/
theorem laneOf_accRead (r : Option AccRow) {i : Nat} (hi : i < 128) :
    laneOf (accRead r).1 i = match r with
      | some row => fp32Keep (prepareAcc row.isInt (Tab.get 0 row.bits i)).1
      | none => 0 := by
  cases r with
  | none => rfl
  | some row => simp only [accRead, laneOf_rowOf _ hi]

/-- A `VACC` writes its row register, clears its accumulator row where it asks to, and leaves the queue, the phase and the tokens. -/
theorem vecAcc_facts (q : Tile) (e : QEntry) :
    let v := vecArgs e.enc
    let ma := v.modv.getLsbD 0
    let r := fld (wordAt e.words 0) 0 11
    (q.vecAcc e).vec.row v.vd = (accRead (Tab.get none (q.arr ma).acc r)).1
    ∧ (∀ k, Tab.get none ((q.vecAcc e).arr ma).acc k = if v.modv.getLsbD 1 = true ∧ k = r then none else Tab.get none (q.arr ma).acc k)
    ∧ (q.vecAcc e).vec.q = q.vec.q ∧ (q.vecAcc e).seq = q.seq := by
  intro v ma r
  set q1 := q.onVec (fun x => (x.setRow v.vd (accRead (Tab.get none (q.arr ma).acc r)).1).cntAdd 3 1)
  have harr : q1.arr ma = q.arr ma := arr_onVec ..
  have hrow : q1.vec.row v.vd = (accRead (Tab.get none (q.arr ma).acc r)).1 := (row_setRow ..).trans (if_pos rfl)
  have hacc : q.vecAcc e = if v.modv.getLsbD 1 then q1.onArr ma (fun a => { a with acc := Tab.set none a.acc r none }) else q1 := rfl
  rw [hacc]
  cases hclr : v.modv.getLsbD 1 with
  | false => exact ⟨hrow, fun k => by simp [harr], rfl, rfl⟩
  | true =>
    rw [if_pos rfl, vec_onArr, arr_onArr, seq_onArr, harr]
    exact ⟨hrow, fun k => by simp [Tab.get_set], rfl, rfl⟩

/-! ### Completion, instruction by instruction -/

section
variable {s : State} {t : Nat} {e : QEntry} {rest : List QEntry} (h : s.VecOldest t e rest)
include h

/-- A `VACC` completes. -/
theorem State.VecOldest.acc_completes (hc : e.code = 0x09) :
    let v := vecArgs e.enc
    let ma := v.modv.getLsbD 0
    let r := fld (wordAt e.words 0) 0 11
    ∃ s', exec (.commandComplete t 2 0) s = .next s' ∧ (s'.tile t).vec.q = rest
      ∧ (s'.tile t).vec.row v.vd = (accRead (Tab.get none ((s.tile t).arr ma).acc r)).1
      ∧ ∀ k, Tab.get none ((s'.tile t).arr ma).acc k =
          if v.modv.getLsbD 1 = true ∧ k = r then none else Tab.get none ((s.tile t).arr ma).acc k := by
  intro v ma r
  obtain ⟨n, hdo⟩ := h.acc hc
  obtain ⟨hrow, hacc, hq, hseq⟩ := vecAcc_facts (s.tile t) e
  obtain ⟨s', hex, hr⟩ := h.completes hdo (hq.trans h.head) (congrArg Seq.phase hseq :) (congrArg Seq.tokens hseq :)
  refine ⟨s', hex, hr.queue, (row_congr hr.rows _).trans hrow, fun k => ?_⟩
  rw [hr.arr]
  exact hacc k

/-- A `VLD` whose slots may be read completes. -/
theorem State.VecOldest.load_completes (hc : e.code = 0x08) {f : Fmt} (hf : vldFmt (vecArgs e.enc) = some f)
    (hread : (s.tile t).spad.canReadRange (fld (wordAt e.words 0) 0 24) (vldBytes f (vP (vecArgs e.enc)) e.vl) = true) :
    let v := vecArgs e.enc
    let a := fld (wordAt e.words 0) 0 24
    ∃ s', exec (.commandComplete t 2 0) s = .next s' ∧ (s'.tile t).vec.q = rest
      ∧ (∀ i, i < 128 → laneOf ((s'.tile t).vec.row v.vd) i =
          if i < e.vl then vldLane (s.tile t).spad.mem a f (v.modv.getLsbD 5) (vP v) i else laneOf ((s.tile t).vec.row v.vd) i)
      ∧ (s'.tile t).spad = if v.modv.getLsbD 6 then (s.tile t).spad.release (a / 4096) else (s.tile t).spad := by
  intro v a
  obtain ⟨n, hdo⟩ := h.load hc hf hread
  obtain ⟨s', hex, hr⟩ := h.completes hdo h.head rfl rfl
  have hw := setActive_writes (s.tile t).vec v.vd e.vl (vldLane (s.tile t).spad.mem a f (v.modv.getLsbD 5) (vP v))
  refine ⟨s', hex, hr.queue, fun i hi => ?_, hr.spad⟩
  rw [row_congr hr.rows]
  exact hw.lanes i hi

/-- The work of an instruction of FP32 mode whose lanes are a function of the lanes of its operands. -/
theorem State.VecOldest.lanes {c : Nat} (hc : e.code = c) (hl : c ∈ laneCodes) (hP : vP (vecArgs e.enc) = false)
    (hS : vS (vecArgs e.enc) = false) :
    ∃ x, completeVec s.fv 0 (s.tile t) = ((s.tile t).onVec (fun _ => x)).vecDone e
      ∧ (s.tile t).vec.WritesRow x (vecArgs e.enc).vd e.vl (fun i =>
        let v := vecArgs e.enc
        let val := fun r => (fp32Read (laneOf ((s.tile t).vec.row r) i)).1
        vecFn c (v.modv.toNat % 8) (s.fv (2 * i)) (val v.vd) (val v.va) (val v.vb)) := by
  subst hc
  have hdisj : ∀ c ∈ laneCodes, c ∉ ownRule := by decide
  exact ⟨_, h.regOp (hdisj _ hl), vecRegOp_lanes hl hP hS _⟩

/-- An instruction on row registers, tile rows and VL alone, by the equation of its code in `vecRegOp`. -/
theorem State.VecOldest.regOp_eq {c : Nat} {x : Vec} (hc : e.code = c) (hown : c ∉ ownRule)
    (hx : vecRegOp s.fv e (s.tile t).vec = x) : completeVec s.fv 0 (s.tile t) = ((s.tile t).onVec (fun _ => x)).vecDone e := by
  subst hc hx
  exact h.regOp hown

end

/-- Settles O16: the instructions of FP32 mode write their row register (`VecOldest.writes`), by the equation of their code in
`vecRegOp`; the others complete by their own rules, and a `VLD` that waits is granted its tag (`VecOldest.grant_eq`). -/
theorem vectorInstructionsComplete : Obligations.VectorInstructionsComplete := by
  constructor
  · intro s t e rest hw q v hq ht _ hP hS hp lane x writes vl
    have h : s.VecOldest t e rest := ⟨hw, hq, ht, hp⟩
    have lanes : ∀ {c : Nat} {f : Nat → Word}, c ∈ laneCodes →
        (∀ i, vecFn c (v.modv.toNat % 8) (s.fv (2 * i)) (x v.vd i) (x v.va i) (x v.vb i) = f i) → writes c vl f := by
      intro c f hl hf hc
      obtain ⟨x', hdo, hx⟩ := h.lanes hc hl hP hS
      exact h.writes hdo (hx.congr fun i _ _ => hf i)
    have hadd := lanes (c := 0x10) (by decide) fun _ => rfl
    have hsub := lanes (c := 0x11) (by decide) fun _ => rfl
    have hmul := lanes (c := 0x12) (by decide) fun _ => rfl
    have hfma := lanes (c := 0x13) (by decide) fun _ => rfl
    have hmax := lanes (c := 0x14) (by decide) fun _ => congrArg fp32Keep (vmaxVal_eq ..)
    have hmin := lanes (c := 0x15) (by decide) fun _ => congrArg fp32Keep (vminVal_eq ..)
    have hcmp := lanes (c := 0x18) (by decide) fun _ => rfl
    have hsel := lanes (c := 0x19) (by decide) fun _ => rfl
    refine ⟨hadd, hsub, hmul, hfma, hmax, hmin, fun habs => ?_, fun hneg => ?_, hcmp, hsel, fun hmov => ?_, fun hbcast => ?_,
      fun hiota => ?_, fun hstrict hperm => ?_⟩
    · exact h.writes (h.regOp_eq habs (by decide) (vecRegOp_vabs _ habs hP)) (setActive_writes ..)
    · exact h.writes (h.regOp_eq hneg (by decide) (vecRegOp_vneg _ hneg hP)) (setActive_writes ..)
    · exact h.writes (h.regOp_eq hmov (by decide) (vecRegOp_vmov _ hmov)) (setRow_writes ..)
    · exact h.writes (h.regOp_eq hbcast (by decide) (vecRegOp_vbcast _ hbcast)) ((setRow_writes ..).congr fun _ hi _ => laneOf_rowOf _ hi)
    · exact h.writes (h.regOp_eq hiota (by decide) (vecRegOp_viota _ hiota)) (setActive_writes ..)
    · obtain ⟨x', hdo, hx⟩ := h.perm hperm hstrict
      exact h.writes hdo hx
  · intro s t e rest hw q v w hq ht _ hp does ends
    have h : s.VecOldest t e rest := ⟨hw, hq, ht, hp⟩
    refine ⟨fun hsetvl => ?_, fun hwait => ?_, fun hpost => ?_, fun htr => ?_, fun htw => ?_, fun hacc => ?_,
      fun f hld hf => ⟨fun hread => ?_, fun hread => ?_⟩⟩
    · obtain ⟨s', hex, hr⟩ := h.completes (h.regOp_eq hsetvl (by decide) (vecRegOp_vsetvl _ hsetvl)) hq rfl rfl
      exact ⟨s', hex, hr.queue, hr.vl, hr.rows, hr.tiles⟩
    · obtain ⟨s', hex, hr⟩ := h.completes (h.wait (.inl hwait)) hq rfl rfl
      exact ⟨s', hex, hr.queue, hr.rows, hr.tiles⟩
    · obtain ⟨s', hex, hr⟩ := h.completes (h.wait (.inr hpost)) hq rfl rfl
      exact ⟨s', hex, hr.queue, hr.rows, hr.tiles, fun k hk => by rw [hr.token, if_pos hk]⟩
    · obtain ⟨s', hex, hr⟩ := h.completes (h.regOp_eq htr (by decide) (vecRegOp_vtr _ htr)) hq rfl rfl
      exact ⟨s', hex, hr.queue, (row_congr hr.rows _).trans ((row_setRow ..).trans (if_pos rfl)), hr.tiles⟩
    · obtain ⟨s', hex, hr⟩ := h.completes (h.regOp_eq htw (by decide) (vecRegOp_vtw _ htw)) hq rfl rfl
      have hset := fun k => Tab.get_set (d := none) q.vec.t (128 * v.vd.toNat + fld w 0 7) k (some (q.vec.row v.va))
      exact ⟨s', hex, hr.queue, (tileRow_congr hr.tiles _ _).trans (tileRow_set ..),
        fun k hk => by rw [hr.tiles]; exact (hset k).trans (if_neg hk), hr.rows⟩
    · obtain ⟨s', hex, hque, hrow, hclr⟩ := h.acc_completes hacc
      exact ⟨s', hex, hque, fun i hi => by rw [hrow]; exact laneOf_accRead _ hi, hclr⟩
    · have hload := h.load_completes hld hf hread
      refine ⟨hload, fun hwait => ?_⟩
      rw [← h.grant_eq hwait (h.unheld hld (by decide)).1] at hload
      exact hload
    · have hdo := h.loadWaits hld hf hread
      obtain ⟨s', hex, htile⟩ := vec_complete hw (by rw [hdo]; rfl)
      exact ⟨s', hex, by rw [htile, hdo]; exact ⟨rfl, rfl, rfl⟩⟩

end Sys2Proof.Machine
end

section
/-!
PROOFS. The oldest command of the row engine is an `R_INVAL`, an `R_SPILL` or an `R_FILL` and completes
(spec/08_row_engine_and_reed.md R207, R210, R216, R217).
-/

namespace Sys2Proof.Machine

open Sys2Proof

/-! ### Writing entries leaves the queue alone -/

theorem foldl_setEnt_q (k : Nat) (g : Row → Nat → ReedEnt) (l : List Nat) (r : Row) :
    (l.foldl (fun r i => r.setEnt (k + i) (g r i)) r).q = r.q := by
  induction l generalizing r with
  | nil => rfl
  | cons i l ih => exact ih (r.setEnt (k + i) (g r i))

@[simp] theorem Row.inval_q (r : Row) (k n : Nat) : (r.inval k n).q = r.q :=
  foldl_setEnt_q k (fun r i => { r.ent (k + i) with valid := false }) ..

@[simp] theorem Row.fillFrom_q (r : Row) (m : Mem) (a b k n : Nat) : (r.fillFrom m a b k n).q = r.q :=
  foldl_setEnt_q k _ ..

/-! ### The oldest command (R54) -/

/-- The row engine of a working tile has `e` as its oldest command, with its wait token taken and room for its post. -/
structure State.RowOldest (s : State) (t : Nat) (e : QEntry) (rest : List QEntry) : Prop where
  works : s.works t = true
  head : (s.tile t).row.q = e :: rest
  taken : e.taken = true
  room : ∀ k, e.post = some k → (s.tile t).token k < 65535

/-- What a completion leaves of the tile `q1` whose oldest row-engine command retires. -/
structure Tile.RowRetired (q' q1 : Tile) (rest : List QEntry) : Prop where
  queue : q'.row.q = rest
  ent : ∀ k, q'.row.ent k = q1.row.ent k
  spad : q'.spad = q1.spad

section
variable {s : State} {t : Nat} {e : QEntry} {rest : List QEntry} (h : s.RowOldest t e rest)
include h

/-- `COMMAND_COMPLETE` at a command whose work gives the tile `q1`. -/
theorem State.RowOldest.completes {q1 : Tile} (hc : completeRow s.fv (s.recompOk t) 0 (s.tile t) = q1.retire 3 0)
    (hq : q1.row.q = (s.tile t).row.q) (hseq : q1.seq = (s.tile t).seq) :
    ∃ s', exec (.commandComplete t 3 0) s = .next s' ∧ (s'.tile t).RowRetired q1 rest := by
  obtain ⟨hque, hent, hspad, hph, -⟩ := row_fin (hq.trans h.head) (congrArg Seq.tokens hseq) (congrArg Seq.phase hseq) h.room
  obtain ⟨s', hex, htile⟩ := row_complete h.works (by rw [hc, hph])
  exact ⟨s', hex, by rw [htile, hc]; exact ⟨hque, hent, hspad⟩⟩

/-! ### `R_INVAL` (R210) -/

theorem State.RowOldest.inval (hc : e.code = 0x05) :
    completeRow s.fv (s.recompOk t) 0 (s.tile t)
      = ((s.tile t).onRow (fun r => r.inval (fld (wordAt e.words 0) 0 12) (fld (wordAt e.words 0) 12 12 + 1))).retire 3 0 := by
  have hstore : isRowStore e = false := by simp [isRowStore, hc]
  simp only [completeRow, h.head, h.taken, hstore, hc]
  rfl

/-! ### `R_SPILL` (R216) -/

/-- A spill whose image has been written completes. -/
theorem State.RowOldest.spill (hc : e.code = 0x03) {q1 : Tile} (hq : spillStep (spillP e.words) (s.tile t) = some q1)
    (hseq : q1.seq = (s.tile t).seq) : completeRow s.fv (s.recompOk t) 0 (s.tile t) = q1.retire 3 0 := by
  have hstore : isRowStore e = false := by simp [isRowStore, hc]
  have hfault : q1.isFaulted = false := by
    rw [Tile.isFaulted, hseq]; exact (works_iff h.works).2.2.1
  simp only [completeRow, h.head, h.taken, hstore, hc, hq, hfault]
  rfl

/-! ### `R_FILL` (R217) -/

/-- The Reed of a program that has not faulted takes the image, and the image's slots are released where the command asks for it. -/
def Tile.rowFilled (q : Tile) (p : SpillP) : Tile :=
  let q' := q.onRow (fun r => (r.fillFrom q.spad.mem (4096 * p.slot) (4096 * (p.slot + statSlots p.n)) p.first p.n).cntAdd 5 p.n)
  { q' with spad := if p.rel then q.spad.releaseRun p.slot (imageSlots p.n) else q.spad }

theorem State.RowOldest.fill (hc : e.code = 0x04)
    (hr : ∀ i, i < imageSlots (spillP e.words).n → (s.tile t).spad.canRead ((spillP e.words).slot + i) = true) :
    completeRow s.fv (s.recompOk t) 0 (s.tile t) = ((s.tile t).rowFilled (spillP e.words)).retire 3 0 := by
  have hstore : isRowStore e = false := by simp [isRowStore, hc]
  have hfault : ∀ f, ((s.tile t).onRow f).unkept = (s.tile t).onRow f := fun f =>
    if_neg (by rw [show ((s.tile t).onRow f).isFaulted = _ from (works_iff h.works).2.2.1]; decide)
  have hall : ((List.range (imageSlots (spillP e.words).n)).map (· + (spillP e.words).slot)).all (s.tile t).spad.canRead = true := by
    simpa [Nat.add_comm] using hr
  simp only [completeRow, h.head, h.taken, hstore, hc, hall, hfault]
  rfl

end

/-! ### The image of a part of the Reed (R216) -/

/-- The statistics block of an image has 8 bytes for each entry, its tag block 2 (R216). -/
theorem reedImage_length (r : Row) (k n : Nat) : (reedImage r k n).1.length = 8 * n ∧ (reedImage r k n).2.length = 2 * n := by
  simp [reedImage, List.length_flatMap, Function.comp_def, Nat.mul_comm]

theorem reedImage_entries (r : Row) (k n : Nat) :
    (reedImage r k n).1 = (List.range n).flatMap (fun i => leBytes 4 (r.ent (k + i)).stat0.toNat ++ leBytes 4 (r.ent (k + i)).stat1.toNat)
    ∧ (reedImage r k n).2 = (List.range n).flatMap (fun i => leBytes 2 ((r.ent (k + i)).key % 2 ^ 15 + bit1 (r.ent (k + i)).valid * 2 ^ 15)) := by
  simp only [reedImage, List.flatMap_map, ReedEnt.tagWord, and_self]

/-- The statistics block lies in its slots, and the tag block in the slots that follow (R216). -/
theorem imageSlots_hold (n : Nat) : 8 * n ≤ 4096 * statSlots n ∧ 2 * n ≤ 4096 * (imageSlots n - statSlots n) ∧ statSlots n ≤ imageSlots n := by
  simp only [imageSlots, statSlots, ceilDiv]
  omega

/-- The slots of a block that begins with a slot. -/
theorem slotsOf_block {i a n k : Nat} (hn : n ≤ 4096 * k) (hi : i ∈ slotsOf (4096 * a) n) : a ≤ i ∧ i < a + k := by
  simp only [slotsOf, List.mem_map, List.mem_range] at hi
  obtain ⟨j, hj, rfl⟩ := hi
  omega

/-- A spill into `RAW` slots writes its image, and changes no tag (R216, R251). -/
theorem spillStep_raw {p : SpillP} {q : Tile} (hr : ∀ i, i < imageSlots p.n → (q.spad.slot (p.slot + i)).tag = .raw) :
    ∃ q1, spillStep p q = some q1 ∧ q1.row.q = q.row.q ∧ q1.seq = q.seq ∧ (∀ i, q1.spad.slot i = q.spad.slot i)
      ∧ q1.spad.mem = (q.spad.mem.wrBytes (4096 * p.slot) (reedImage q.row p.first p.n).1).wrBytes (4096 * (p.slot + statSlots p.n))
          (reedImage q.row p.first p.n).2 := by
  obtain ⟨hstat, htag, hle⟩ := imageSlots_hold p.n
  obtain ⟨hlen1, hlen2⟩ := reedImage_length q.row p.first p.n
  have hraw : ∀ i, p.slot ≤ i → i < p.slot + imageSlots p.n → (q.spad.slot i).tag = .raw := fun i h1 h2 => by
    have := hr (i - p.slot) (by omega)
    rwa [Nat.add_sub_cancel' h1] at this
  have hall : ((List.range (imageSlots p.n)).map (· + p.slot)).all q.spad.canWrite = true := by
    simp only [List.all_map, List.all_eq_true, List.mem_range, Function.comp, Spad.canWrite]
    intro i hi
    rw [Nat.add_comm, hr i hi]; rfl
  obtain ⟨sp1, hw1, hm1, hs1⟩ := writeFill_raw q.spad (fun i => partLen (8 * p.n) (i - p.slot)) (4096 * p.slot)
    (reedImage q.row p.first p.n).1 (statSlots p.n + 1) (by rw [hlen1]; omega) (fun i hi => by
      obtain ⟨h1, h2⟩ := slotsOf_block (by rw [hlen1]; exact hstat) hi
      exact hraw i h1 (by omega))
  obtain ⟨sp2, hw2, hm2, hs2⟩ := writeFill_raw sp1 (fun i => partLen (2 * p.n) (i - (p.slot + statSlots p.n))) (4096 * (p.slot + statSlots p.n))
    (reedImage q.row p.first p.n).2 (imageSlots p.n + 1) (by rw [hlen2]; omega) (fun i hi => by
      obtain ⟨h1, h2⟩ := slotsOf_block (by rw [hlen2]; exact htag) hi
      rw [hs1]
      exact hraw i (by omega) (by omega))
  refine ⟨(q.wrote sp2).onRow (fun r => (if p.inv then r.inval p.first p.n else r).cntAdd 4 p.n), ?_, ?_, rfl,
    fun i => (hs2 i).trans (hs1 i), hm2.trans (by rw [hm1])⟩
  · simp only [spillStep, hall, hw1, Option.bind_eq_bind, Option.bind_some, hw2]
    rfl
  · cases p.inv
    · rfl
    · exact Row.inval_q ..

/-- Settles O17: each command does its work (`RowOldest.inval`, `spillStep_raw`, `RowOldest.fill`) and retires (`RowOldest.completes`). -/
theorem reedSpillFillInvalidate : Obligations.ReedSpillFillInvalidate := by
  intro s t e rest hw q w p hq ht hp ends
  have h : s.RowOldest t e rest := ⟨hw, hq, ht, hp⟩
  refine ⟨fun hc => ?inval, fun hraw hc => ?spill, fun hread hc => ?fill⟩
  case inval =>
    obtain ⟨s', hex, hr⟩ := h.completes (h.inval hc) (Row.inval_q ..) rfl
    refine ⟨s', hex, hr.queue, fun k => (hr.ent k).trans ((ent_inval ..).trans (if_congr ?_ rfl rfl))⟩
    exact and_congr_right fun _ => Nat.lt_succ_iff
  case spill =>
    obtain ⟨q1, hstep, hque, hseq, hslot, hmem⟩ := spillStep_raw hraw
    obtain ⟨s', hex, hr⟩ := h.completes (h.spill hc hstep hseq) hque hseq
    obtain ⟨hstat, htag⟩ := reedImage_entries q.row p.first p.n
    obtain ⟨hlen1, hlen2⟩ := reedImage_length q.row p.first p.n
    refine ⟨s', hex, hr.queue, ?_, ?_, fun i => by rw [hr.spad]; exact hslot i⟩
    · rw [hr.spad, hmem, rdBytes_wrBytes_other _ _ _ _ _ (.inl (by have := (imageSlots_hold p.n).1; omega)), rdBytes_wrBytes' _ _ _ _ hlen1, hstat]
    · rw [hr.spad, hmem, rdBytes_wrBytes' _ _ _ _ hlen2, htag]
  case fill =>
    obtain ⟨s', hex, hr⟩ := h.completes (h.fill hc hread) (Row.fillFrom_q ..) rfl
    exact ⟨s', hex, hr.queue, fun k => (hr.ent k).trans (ent_fillFrom ..)⟩

end Sys2Proof.Machine
end

section
/-!
PROOFS. `REED_SPILL` and `REED_FILL` on a free core, with their image in package memory that is homed here (spec/08_row_engine_and_reed.md
R211, R216, R218).
-/

namespace Sys2Proof.Machine

open Sys2Proof

/-! ### A descriptor that has ended well (R336) -/

/-- A descriptor of this uid is held, decided with `OK`. -/
def State.endedOk (s : State) (uid : Nat) : Prop := ∃ d ∈ s.qm.descs, d.uid = uid ∧ d.outcome = some (stOK, 0, 127)

theorem inLimit_congr {s z : State} (hs : z.qm.streams = s.qm.streams) (ht : z.time = s.time) (d : Desc) : z.inLimit d = s.inLimit d := by
  have helapsed : z.elapsed d = s.elapsed d := by simp only [State.elapsed, State.now, ht]
  have hstream : z.stream d.stream = s.stream d.stream := by simp only [State.stream, hs]
  simp only [State.inLimit, State.overTime, helapsed, hstream]

/-- A due descriptor that is concluded with `OK` within its limit has ended well. -/
theorem conclude_endedOk {s : State} {uid op : Nat} {d : Desc} (hd : s.desc uid = some d) (hl : s.inLimit d = true) (h : d.due op = true) :
    (s.conclude uid stOK 0 127).endedOk uid :=
  ⟨d.concluded s stOK 0 127, List.mem_of_find?_eq_some (concluded_ok hd hl h).1, (desc_uid hd :), rfl⟩

/-! ### The tile of a Reed transfer (R218) -/

theorem reedTile_free {s : State} {d : Desc} {c t : Nat} (hc : d.cores = [c]) (hm : s.core c = ⟨t, .mapped⟩) (hf : (s.tile t).isFree = true)
    (hs : (s.tile t).spad.sealed = false) : s.reedTile d = some t := by
  simp only [State.reedTile, hc, hm, hf, hs]
  rfl

/-! ### `REED_SPILL` -/

/-- The image of a `REED_SPILL` that waits for no acknowledgement has been written: the descriptor ends, and memory stays. -/
theorem reedStored_ends {z : State} {uid : Nat} {d : Desc} {e : QEntry} (hd : z.desc uid = some d) (hl : z.inLimit d = true)
    (h : d.due 6 = true) (he : e.loadRows = 0) : (z.reedStored uid e).endedOk uid ∧ (z.reedStored uid e).mem = z.mem := by
  set y := (z.onDesc uid (fun d => { d with begun := true, acted := true })).putXfer uid e with hy
  have hdy : y.desc uid = some { d with begun := true, acted := true, xfer := some e } :=
    desc_onDesc (desc_onDesc hd (fun d => { d with begun := true, acted := true }) rfl) (fun d => { d with xfer := some e }) rfl
  obtain ⟨ds, hclock, hdesc⟩ := stopClock_withDescs hdy (due_iff h).2.2 (inTime_of hdy hl)
  have hstored : z.reedStored uid e = (y.withDescs ds).conclude uid stOK 0 127 := by
    simp only [State.reedStored, ← hy, hclock, he]
    rfl
  rw [hstored]
  exact ⟨conclude_endedOk hdesc rfl h, (concluded_ok hdesc rfl h).2.1⟩

/-- The image of a `REED_SPILL` goes to memory that is homed here and cached nowhere (R218, R374). -/
theorem reedSave_ends {s : State} {uid i a b : Nat} {d : Desc} {o : Obj} {img : List Byte × List Byte} (hd : s.desc uid = some d)
    (hl : s.inLimit d = true) (h : d.due 6 = true) (ho : s.kw.objs = [(i, some o)]) (hsh : s.rdc.sharers = []) (hin : s.rdc.invs = [])
    (ha : s.isHome a = true) (hb : s.isHome b = true) (hga : a % granuleBytes + img.1.length ≤ granuleBytes)
    (hgb : b % granuleBytes + img.2.length ≤ granuleBytes) :
    (s.reedSave d a b img (.ok ()) (.ok ())).endedOk uid
    ∧ (s.reedSave d a b img (.ok ()) (.ok ())).mem = (s.mem.wrBytes a img.1).wrBytes b img.2 := by
  set x : OpenTx := { OpenTx.posted with tile := 127, eng := 4, uid := d.uid }
  have honly : onlyObj s.kw i o := ⟨o, ho, rfl⟩
  have hmild1 := wrPkgAs_mild s a d.job 120 img.1 x
  obtain ⟨hack1, hlost1, hmem1, hsh1, hin1, honly1⟩ := wrPkgAs_alone honly hsh hin ha d.job 120 img.1 hga x
  set z1 := (s.wrPkgAs a d.job 120 img.1 x).st
  have hb1 : z1.isHome b = true := (isHome_only honly1 honly hmild1.xlate (pos_of_cfg hmild1.cfg) b).trans hb
  have hmild := hmild1.trans (wrPkgAs_mild z1 b d.job 120 img.2 x)
  obtain ⟨hack2, hlost2, hmem2, -⟩ := wrPkgAs_alone honly1 hsh1 hin1 hb1 d.job 120 img.2 hgb x
  set z2 := (z1.wrPkgAs b d.job 120 img.2 x).st
  have hdz : z2.desc uid = some d := by simpa only [State.desc, hmild.descs] using hd
  have hlz : z2.inLimit d = true := (inLimit_congr hmild.streams hmild.time d).trans hl
  obtain ⟨hend, hmem⟩ := reedStored_ends hdz hlz h (e := { d.newXfer with
      stored := true, loadRows := (s.wrPkgAs a d.job 120 img.1 x).acks + (z1.wrPkgAs b d.job 120 img.2 x).acks
      ans := if ((s.wrPkgAs a d.job 120 img.1 x).lost.or (z1.wrPkgAs b d.job 120 img.2 x).lost).isSome then 8 else 1 })
    (by rw [hack1, hack2])
  rw [← desc_uid hd] at hend hmem ⊢
  exact ⟨hend, hmem.trans (hmem2.trans (by rw [hmem1]))⟩

/-- A `REED_SPILL` of a Reed that belongs to its job writes the image, and ends. -/
theorem reedSpill_ends {s : State} {uid t k n a b i : Nat} {d : Desc} {o : Obj} (hd : s.desc uid = some d) (hl : s.inLimit d = true)
    (h : d.due 6 = true) (hx : d.xfer = none) (ht : s.reedTile d = some t) (hr : d.reedRange = (k, n, a, b))
    (hown : (s.tile t).row.owner = some d.job) (ho : s.kw.objs = [(i, some o)]) (hsh : s.rdc.sharers = []) (hin : s.rdc.invs = [])
    (ha : s.isHome a = true) (hb : s.isHome b = true) (hga : a % granuleBytes + 8 * n ≤ granuleBytes)
    (hgb : b % granuleBytes + 2 * n ≤ granuleBytes) (haa : s.access d.reedAgent true a (8 * n) = .ok ())
    (hab : s.access d.reedAgent true b (2 * n) = .ok ()) :
    (s.reedSpill uid).endedOk uid
    ∧ (s.reedSpill uid).mem = (s.mem.wrBytes a (reedImage (s.tile t).row k n).1).wrBytes b (reedImage (s.tile t).row k n).2 := by
  obtain ⟨hlen1, hlen2⟩ := reedImage_length (s.tile t).row k n
  rw [reedSpill_due hd h hx ht hown hr, haa, hab]
  exact reedSave_ends hd hl h ho hsh hin ha hb (by rw [hlen1]; exact hga) (by rw [hlen2]; exact hgb)

/-! ### `REED_FILL` -/

/-- A `REED_FILL` whose image is homed here fills the Reed of its core, and ends. -/
theorem reedFill_ends {s : State} {uid t k n a b : Nat} {d : Desc} (hd : s.desc uid = some d) (hl : s.inLimit d = true)
    (h : d.due 7 = true) (hx : d.xfer = none) (ht : s.reedTile d = some t) (hr : d.reedRange = (k, n, a, b))
    (hha : s.held a (8 * n) = false) (hhb : s.held b (2 * n) = false) (ha : ∀ i, i < 8 * n → s.isHome (a + i) = true)
    (hb : ∀ i, i < 2 * n → s.isHome (b + i) = true) (haa : s.access d.reedAgent false a (8 * n) = .ok ())
    (hab : s.access d.reedAgent false b (2 * n) = .ok ()) :
    (s.reedFill uid).endedOk uid ∧ (s.reedFill uid).mem = s.mem
    ∧ (s.reedFill uid).tile t = (s.tile t).fillReed d.job k n (s.mem.rdBytes a (8 * n) ++ s.mem.rdBytes b (2 * n)) := by
  obtain ⟨hsrcs, hunits⟩ := fillXfer_of hr
  set e : QEntry := { d.newXfer with ans := 1 } with he
  set z := s.onDesc uid (fun d => { d with begun := true, acted := true })
  set y := z.putXfer uid { e with bellRows := 1 }
  have hdy : y.desc uid = some { d with begun := true, acted := true, xfer := some { e with bellRows := 1 } } :=
    desc_onDesc (desc_onDesc hd (fun d => { d with begun := true, acted := true }) rfl) (fun d => { d with xfer := some { e with bellRows := 1 } }) rfl
  have hask : s.askHeld d.fillXfer = false := by
    simp only [State.askHeld, hunits, List.range_one, List.any_cons, List.any_nil, hsrcs, hha, hhb, Bool.and_false, Bool.or_self]
  have hfill := reedFill_due hd h hx ht rfl he rfl hask (askAll_two hunits hsrcs ha hb) rfl
  have hread : y.readUnit d.reedAgent { e with bellRows := 1 } 0 (d.fillXfer.srcs 0) = .ok (s.mem.rdBytes a (8 * n) ++ s.mem.rdBytes b (2 * n)) :=
    readUnit_two rfl hsrcs rfl ha hb haa hab
  set f : Tile → Tile := fun q => q.fillReed d.job k n (s.mem.rdBytes a (8 * n) ++ s.mem.rdBytes b (2 * n))
  have hends : s.reedFill uid = (y.onTile t f).conclude uid stOK 0 127 := by
    rw [hfill, hread]
    simp only [State.reedTake, hr, desc_uid hd]
    rfl
  have hdt : (y.onTile t f).desc uid = _ := hdy
  obtain ⟨-, hmem, htiles⟩ := concluded_ok hdt hl h
  rw [hends]
  refine ⟨conclude_endedOk hdt hl h, hmem, ?_⟩
  rw [State.tile, htiles]
  exact State.tile_onTile y t f

end Sys2Proof.Machine
end

section
/-!
PROOFS. `KILL_JOB`, `RESET_STREAM` and the end of a kill (spec/12_rings_doorbells_descriptors.md R341 to R343), and O28.
-/

namespace Sys2Proof.Machine

open Sys2Proof

/-! ### Whom a `SCRUB` may target (R341) -/

/-- Job 0 may target any other job, and another job itself only. -/
theorem scrub_allowed {job j : Nat} (h : if job = 0 then j ≠ 0 else j = job) : (if job == 0 then j == 0 else j != job) = false := by
  by_cases h0 : job = 0
  · rw [if_pos h0] at h
    rw [if_pos (beq_iff_eq.mpr h0)]
    exact beq_false_of_ne h
  · rw [if_neg h0] at h
    rw [if_neg (by simp [h0]), h, bne_self_eq_false]

/-! ### `KILL_JOB` (R342) -/

theorem beginKill_jobs (s : State) (uid j : Nat) (x : Job) (n : Nat) :
    Tab.get none (s.beginKill uid j x n).qm.jobs j = some { x with st := .killing, killStart := s.now, killCores := n, killUid := uid } := by
  rw [State.beginKill, (writeJob_quiet _ j).jobs]
  simp only [Tab.get_set_self]

/-- Emptying Reeds leaves the scratchpads alone. -/
theorem dropReeds_spad (s : State) (j t : Nat) : ((s.dropReeds j).tile t).spad = (s.tile t).spad := by
  simp only [State.tile, State.dropReeds]
  generalize s.tiles = l
  induction l with
  | nil => rfl
  | cons e l ih =>
    rw [List.map_cons]
    split
    all_goals
      simp only [Tab.get]
      split
      · rfl
      · exact ih

/-- A core that a job owns is one of those that its kill visits. -/
theorem owned_visited {s : State} {j t : Nat} (h : (s.tile t).spad.owner = some j) :
    t ∈ (s.tiles.filter (fun e => e.2.ofJob j)).map (·.1) := by
  have hinit : s.tile t ≠ Tile.init := fun hi => by rw [hi] at h; exact Option.some_ne_none j h.symm
  have hof : (s.tile t).ofJob j = true := by simp [Tile.ofJob, h]
  exact List.mem_map.mpr ⟨_, List.mem_filter.mpr ⟨tile_mem hinit, hof⟩, rfl⟩

/-- A kill turns its job `KILLING`, and seals every core that the job owns. -/
theorem killJob_kills (s : State) (uid j : Nat) (x : Job) :
    (∃ x', Tab.get none (s.killJob uid j x).qm.jobs j = some x' ∧ x'.st = .killing ∧ x'.killStart = s.now)
    ∧ ∀ t, (s.tile t).spad.owner = some j → ((s.killJob uid j x).tile t).spad.sealed = true := by
  set cores := (s.tiles.filter (fun e => e.2.ofJob j)).map (·.1) with hcores
  set z0 := (s.beginKill uid j x cores.length).killDescs uid j with hz0
  obtain ⟨-, hsealed, hjobs⟩ := killTiles_sealed j (fun s => x.retain && s.sec.life == .development) cores z0
  set z1 := cores.foldl (fun s t => s.killTile t j (x.retain && s.sec.life == .development)) z0
  have hkill : s.killJob uid j x = ((z1.dropReeds j).freeJobObjs j).stopStreams j := rfl
  have hquiet := freeJobObjs_quiet (z1.dropReeds j) j
  refine ⟨⟨{ x with st := .killing, killStart := s.now, killCores := cores.length, killUid := uid }, ?_, rfl, rfl⟩, fun t ht => ?_⟩
  · rw [hkill, stopStreams_jobs, hquiet.jobs]
    show Tab.get none z1.qm.jobs j = _
    rw [hjobs, hz0, killDescs_jobs]
    exact beginKill_jobs ..
  · have hstop : (((z1.dropReeds j).freeJobObjs j).stopStreams j).tile t = ((z1.dropReeds j).freeJobObjs j).tile t := by
      rw [State.tile, (State.stopStreams_frame ..).1]
      rfl
    rw [hkill, hstop, (hquiet.owner t).2, dropReeds_spad]
    exact hsealed t (owned_visited ht)

/-- Concluding a descriptor leaves the jobs alone, even when its time is over. -/
theorem conclude_jobs (s : State) (uid st c t : Nat) : (s.conclude uid st c t).qm.jobs = s.qm.jobs := by
  have hclock : (s.stopClock uid).qm.jobs = s.qm.jobs := by
    simp only [State.stopClock]
    split
    · rfl
    · split
      · rfl
      · split
        · exact (event_mild _ _).jobs
        · rfl
  exact hclock

/-- `KILL_JOB` of a live job: its kill begins, and the descriptor ends once no core is left to be scrubbed. -/
theorem scrubJob_live {s : State} {uid j : Nat} {d : Desc} {x : Job} (hd : s.desc uid = some d) (h : d.due 8 = true)
    (hop : fld (d.w 0x10) 0 2 = 0) (hj : fld (d.w 0x14) 0 12 = j) (hok : if d.job = 0 then j ≠ 0 else j = d.job)
    (hx : Tab.get none s.qm.jobs j = some x) (hv : x.valid = true) (hst : x.st = .live) :
    s.scrubJob uid = if (s.killJob uid j x).jobScrubbing j then s.killJob uid j x else (s.killJob uid j x).conclude uid stOK 0 127 := by
  have hgo : (!d.due 8 || fld (d.w 0x10) 0 2 != 0) = false := by rw [h, hop]; rfl
  simp only [State.scrubJob, hd, hgo, hj, scrub_allowed hok, State.targetJob, hx, State.scrubJobAt, hv, hst, desc_uid hd]
  rfl

/-- A `KILL_JOB` of a live job, whether or not cores are left to be scrubbed as it begins. -/
theorem killJob_next {s : State} {uid j : Nat} {d : Desc} {x : Job} (hd : s.desc uid = some d) (h : d.due 8 = true)
    (hop : fld (d.w 0x10) 0 2 = 0) (hj : fld (d.w 0x14) 0 12 = j) (hok : if d.job = 0 then j ≠ 0 else j = d.job)
    (hx : Tab.get none s.qm.jobs j = some x) (hv : x.valid = true) (hst : x.st = .live) :
    ∃ s' x', exec (.killJob uid) s = .next s' ∧ Tab.get none s'.qm.jobs j = some x' ∧ x'.st = .killing ∧ x'.killStart = s.now
      ∧ ∀ t, (s.tile t).spad.owner = some j → (s'.tile t).spad.sealed = true := by
  obtain ⟨⟨x', hx', hst', hstart⟩, hsealed⟩ := killJob_kills s uid j x
  have hscrub := scrubJob_live hd h hop hj hok hx hv hst
  by_cases hbusy : (s.killJob uid j x).jobScrubbing j = true
  · rw [if_pos hbusy] at hscrub
    exact ⟨_, x', congrArg Host.Outcome.next hscrub, hx', hst', hstart, hsealed⟩
  · rw [if_neg hbusy] at hscrub
    refine ⟨_, x', congrArg Host.Outcome.next hscrub, by rw [conclude_jobs]; exact hx', hst', hstart, fun t ht => ?_⟩
    rw [State.tile, (State.conclude_frame ..).1]
    exact hsealed t ht

/-! ### `RESET_STREAM` (R343) -/

/-- What of a descriptor decides whether a reset of its stream drops it. -/
def Desc.standing (d : Desc) : Nat × DescSt := (d.stream, d.st)

/-- No descriptor of a stream has been started. -/
def State.noneStarted (s : State) (k : Nat) : Prop := ∀ y ∈ s.descsOf k, y.started = false

theorem noneStarted_iff (s : State) (k : Nat) : s.noneStarted k ↔ ∀ y ∈ s.qm.descs.map Desc.standing, y.1 = k → y.2 = .fetched := by
  simp [State.noneStarted, State.descsOf, Desc.started, Desc.standing]

theorem noneStarted_congr {s z : State} (h : z.qm.descs.map Desc.standing = s.qm.descs.map Desc.standing) {k : Nat}
    (hn : s.noneStarted k) : z.noneStarted k := by
  rw [noneStarted_iff] at hn ⊢
  rw [h]
  exact hn

theorem standing_of_bare {l l' : List Desc} (h : l'.map Desc.bare = l.map Desc.bare) : l'.map Desc.standing = l.map Desc.standing := by
  have hbare : ∀ l : List Desc, l.map Desc.standing = (l.map Desc.bare).map Desc.standing := fun l => by rw [List.map_map]; rfl
  rw [hbare, h, ← hbare]

theorem onDesc_standing (s : State) (uid : Nat) (f : Desc → Desc) (hf : ∀ d, (f d).standing = d.standing) :
    (s.onDesc uid f).qm.descs.map Desc.standing = s.qm.descs.map Desc.standing := by
  simp only [State.onDesc, List.map_map]
  refine List.map_congr_left fun d _ => ?_
  simp only [Function.comp]
  split
  · exact hf d
  · rfl

/-- Concluding a descriptor starts none and moves none to another stream. -/
theorem conclude_standing {s : State} (uid st c t : Nat) :
    (s.conclude uid st c t).qm.descs.map Desc.standing = s.qm.descs.map Desc.standing := by
  have hdecide : ∀ (d : Desc) o, (if d.outcome.isSome then d else { d with outcome := o }).standing = d.standing := fun d o => by
    split
    · rfl
    · rfl
  have hclock : (s.stopClock uid).qm.descs.map Desc.standing = s.qm.descs.map Desc.standing := by
    simp only [State.stopClock]
    split
    · rfl
    · next d hd =>
      have hstop := onDesc_standing s uid (fun x => { x with spent := s.elapsed d, timed := false }) (fun _ => rfl)
      split
      · rfl
      · split
        · rw [State.timeUp, (event_mild _ _).descs]
          exact (onDesc_standing _ _ _ fun d => hdecide d _).trans hstop
        · exact hstop
  exact (onDesc_standing _ _ _ fun d => hdecide d _).trans hclock

theorem onStream_descs (s : State) (k : Nat) (f : Stream → Stream) : (s.onStream k f).qm.descs = s.qm.descs := by
  obtain ⟨S, hS⟩ := onStream_rest s k f
  rw [hS]

/-- The descriptors of a stream none of which has been started are dropped as it is rewound (R343). -/
theorem rewind_descs {s : State} {k : Nat} (hn : s.noneStarted k) : (s.rewind k).qm.descs = s.qm.descs.filter (fun y => !(y.stream == k)) := by
  have hun : s.unstarted k = s.descsOf k := List.filter_eq_self.mpr fun y hy => by rw [hn y hy]; rfl
  unfold State.rewind
  split
  · next hnil =>
    rw [hun] at hnil
    refine (List.filter_eq_self.mpr fun y hy => ?_).symm
    have hne := List.filter_eq_nil_iff.mp hnil y hy
    simpa using hne
  · rw [onStream_descs]
    refine List.filter_congr fun y hy => ?_
    by_cases hk : y.stream = k
    · rw [hn y (List.mem_filter.mpr ⟨hy, beq_iff_eq.mpr hk⟩)]; simp
    · simp [hk]

/-- None of them is left. -/
theorem rewind_empty {s : State} {k : Nat} (hn : s.noneStarted k) : (s.rewind k).descsOf k = [] := by
  rw [State.descsOf, rewind_descs hn, List.filter_filter]
  exact List.filter_eq_nil_iff.mpr fun y _ => by simp

theorem rewind_stream {s : State} {k : Nat} {x : Stream} (hx : s.stream k = some x) : ∃ x', (s.rewind k).stream k = some x' := by
  unfold State.rewind
  split
  · exact ⟨x, hx⟩
  · refine ⟨_, stream_onStream (x := x) ?_ _⟩
    exact hx

/-- A stream in reset, none of whose descriptors has been started, is `RESET` with none left; the others stay. -/
theorem resetStream_resets {s : State} {k : Nat} {x : Stream} (hx : s.stream k = some x) (hn : s.noneStarted k) :
    (∃ x', (s.resetStream k).stream k = some x' ∧ x'.st = .reset) ∧ (s.resetStream k).descsOf k = []
    ∧ (s.resetStream k).qm.descs.map Desc.bare = (s.qm.descs.filter (fun y => !(y.stream == k))).map Desc.bare := by
  set z := s.onStream k (fun x => { x with resetting := true })
  have hz : z.stream k = some { x with resetting := true } := stream_onStream hx _
  have hzd : z.qm.descs = s.qm.descs := onStream_descs ..
  have hzn : z.noneStarted k := by simpa only [State.noneStarted, State.descsOf, hzd] using hn
  obtain ⟨x1, hx1⟩ := rewind_stream hz
  have hempty := rewind_empty hzn
  set w := (z.rewind k).onStream k (fun x => { x with st := .reset, resetting := false, halting := false })
  have hw : w.stream k = some { x1 with st := .reset, resetting := false, halting := false } := stream_onStream hx1 _
  have hwd : w.qm.descs = (z.rewind k).qm.descs := onStream_descs ..
  have hreset : s.resetStream k = w.writeBack k := by
    show z.settle k = _
    simp only [State.settle, hz, hempty]
    rfl
  have hquiet := writeBack_quiet w k
  have hdescs : (w.writeBack k).qm.descs.map Desc.bare = (s.qm.descs.filter (fun y => !(y.stream == k))).map Desc.bare := by
    rw [hquiet.descs, hwd, rewind_descs hzn, hzd]
  rw [hreset]
  refine ⟨⟨_, (congrArg (fun t => Tab.get none t k) hquiet.streams :).trans hw, rfl⟩, ?_, hdescs⟩
  have hbare := descsOf_bare (s := w) hquiet.descs k
  rw [show w.descsOf k = [] by rw [State.descsOf, hwd]; exact hempty] at hbare
  exact List.map_eq_nil_iff.mp hbare

theorem abandonStream_quiet (s : State) (k : Nat) : Quiet s (s.abandonStream k) := (abandonObjs_quiet ..).trans (shareSync_quiet ..)

/-- A descriptor after a change that leaves descriptors alone but for grants and transfers. -/
theorem Quiet.desc {s z : State} (h : Quiet s z) {uid : Nat} {d : Desc} (hd : s.desc uid = some d) :
    ∃ d', z.desc uid = some d' ∧ d'.bare = d.bare := by
  have hfind : (z.desc uid).map Desc.bare = (s.desc uid).map Desc.bare := by
    rw [State.desc, State.desc, find_bare (fun _ => rfl), find_bare (fun _ => rfl), h.descs]
  rw [hd] at hfind
  exact Option.map_eq_some_iff.mp hfind

theorem endStarted_none {s : State} {k uid : Nat} (hn : s.noneStarted k) : s.endStarted k uid = s := by
  have hnil : (s.descsOf k).filter (fun y => y.started && y.uid != uid) = [] :=
    List.filter_eq_nil_iff.mpr fun y hy => by rw [hn y hy]; simp
  rw [State.endStarted, hnil]
  rfl

/-- `RESET_STREAM` of a stream none of whose descriptors has been started. -/
theorem scrubStream_unstarted {s : State} {uid j k : Nat} {d : Desc} {x : Stream} (hd : s.desc uid = some d) (h : d.due 8 = true)
    (hop : fld (d.w 0x10) 0 2 = 1) (hj : fld (d.w 0x14) 0 12 = j) (hk : fld (d.w 0x18) 0 14 = k)
    (hok : if d.job = 0 then j ≠ 0 else j = d.job) (hx : s.stream k = some x) (hv : x.valid = true) (hxj : x.job = j)
    (hn : s.noneStarted k) : s.scrubStream uid = ((s.abandonStream k).conclude uid stOK 0 127).resetStream k := by
  have hgo : (!d.due 8 || fld (d.w 0x10) 0 2 != 1) = false := by rw [h, hop]; rfl
  have hhold : s.holdStream k x = s := if_pos (by rw [hx]; rfl)
  simp only [State.scrubStream, hd, hgo, hj, hk, State.targetStream, hx, scrub_allowed hok, hv, hxj, bne_self_eq_false, hhold, endStarted_none hn]
  rfl

/-- The reset of another stream ends its descriptor, which stays among those of its own stream. -/
theorem resetStream_ends {s : State} {uid j k : Nat} {d : Desc} {x : Stream} (hd : s.desc uid = some d) (hl : s.inLimit d = true)
    (h : d.due 8 = true) (hop : fld (d.w 0x10) 0 2 = 1) (hj : fld (d.w 0x14) 0 12 = j) (hk : fld (d.w 0x18) 0 14 = k)
    (hok : if d.job = 0 then j ≠ 0 else j = d.job) (hx : s.stream k = some x) (hv : x.valid = true) (hxj : x.job = j)
    (hne : d.stream ≠ k) (hn : s.noneStarted k) :
    ∃ s' x', exec (.resetStream uid) s = .next s' ∧ s'.endedOk uid ∧ s'.stream k = some x' ∧ x'.st = .reset ∧ s'.descsOf k = [] := by
  have hquiet := abandonStream_quiet s k
  set z := s.abandonStream k
  obtain ⟨d1, hd1, hbare⟩ := hquiet.desc hd
  have h1 : d1.due 8 = true := (congrArg (fun y : Desc => y.due 8) hbare :).trans h
  have hl1 : z.inLimit d1 = true :=
    (congrArg z.inLimit hbare :).trans ((inLimit_congr hquiet.streams hquiet.time d).trans hl)
  have hstream : d1.stream = d.stream := (congrArg Desc.stream hbare :)
  obtain ⟨hdw, -, -⟩ := concluded_ok hd1 hl1 h1
  obtain ⟨ds, hds⟩ := conclude_withDescs hd1 (due_iff h1).2.2 (inTime_of hd1 hl1) stOK 0 127
  set w := z.conclude uid stOK 0 127
  have hwx : w.stream k = some x := by
    rw [hds]
    exact (congrArg (fun t => Tab.get none t k) hquiet.streams :).trans hx
  have hwn : w.noneStarted k := noneStarted_congr ((conclude_standing ..).trans (standing_of_bare hquiet.descs)) hn
  obtain ⟨⟨x', hx', hst⟩, hnil, hkept⟩ := resetStream_resets hwx hwn
  obtain ⟨d2, hd2, hbare2⟩ := bare_mem hkept (List.mem_filter.mpr ⟨List.mem_of_find?_eq_some hdw, by simp [Desc.concluded, hstream, hne]⟩)
  refine ⟨w.resetStream k, x', congrArg Host.Outcome.next (scrubStream_unstarted hd h hop hj hk hok hx hv hxj hn),
    ⟨d2, hd2, ?_, congrArg Desc.outcome hbare2⟩, hx', hst, hnil⟩
  exact (congrArg Desc.uid hbare2 :).trans (desc_uid hdw :)

/-! ### The end of a kill (R342) -/

/-- A kill of which nothing is left is over. -/
theorem jobKillDone_ends {s : State} {j : Nat} {x : Job} (hx : Tab.get none s.qm.jobs j = some x) (hst : x.st = .killing)
    (hd : ∀ y ∈ s.qm.descs, s.jobOf y ≠ j) (ho : ∀ i o, (i, some o) ∈ s.kw.objs → o.job ≠ j) (hs : s.jobScrubbing j = false) :
    ∃ s', exec (.jobKillDone j) s = .next s' ∧ Tab.get none s'.qm.jobs j = some { x with st := .killed, killTs := s.now } := by
  set z : State := { s with qm := { s.qm with jobs := Tab.set none s.qm.jobs j (some { x with st := .killed, killTs := s.now }) } }
  refine ⟨(z.writeJob j).event { typ := 0x0009, job := j, pay := [(0x18, 8, x.killStart), (0x20, 4, x.killCores)] },
    congrArg Host.Outcome.next ?_, ?_⟩
  · simp only [State.jobKillDone, hx]
    refine (if_neg ?state).trans ((if_neg ?descs).trans ((if_neg ?objs).trans (if_neg ?cores)))
    case state => rw [hst]; decide
    case descs => simpa using hd
    case objs =>
      rw [List.any_eq_true]
      rintro ⟨⟨i, o⟩, he, hj⟩
      cases o with
      | none => exact Bool.false_ne_true hj
      | some o => exact ho i o he (beq_iff_eq.mp hj)
    case cores => rw [hs]; decide
  · rw [(event_mild _ _).jobs, (writeJob_quiet _ _).jobs]
    simp only [Tab.get_set_self, z]

/-- Settles O28: a Reed transfer whose bytes are homed here ends at once (`reedSpill_ends`, `reedFill_ends`); a kill seals the cores that it
visits (`killJob_kills`); a reset drops what has not been started (`resetStream_resets`); and a kill of which nothing is left is over. -/
theorem reedTransfersAndKills : Obligations.ReedTransfersAndKills := by
  intro s uid d hd hk hl ended k n a b
  have hr : d.reedRange = (k, n, a, b) := tuple_eta _
  refine ⟨fun t c hc hm hf hs hx => ⟨fun h hown ho hsh hin hha hhb hga hgb haa hab => ?spill, fun h hha hhb ha hb haa hab => ?fill⟩,
    fun j x h hop hj hok hx hv hst _ => killJob_next hd h hop hj hok hx hv hst,
    fun j st x h hop hj hst hok hx hv hxj hne hn => resetStream_ends hd hl h hop hj hst hok hx hv hxj hne hn,
    fun j x hx hst hds ho hs => jobKillDone_ends hx hst hds ho hs⟩
  case spill =>
    obtain ⟨i, o, ho⟩ := ho
    obtain ⟨hend, hmem⟩ := reedSpill_ends hd hl h hx (reedTile_free hc hm hf hs) hr hown ho hsh hin hha hhb hga hgb haa hab
    exact ⟨s.reedSpill uid, congrArg Host.Outcome.next (if_pos hk), hend, hmem⟩
  case fill =>
    obtain ⟨hend, hmem, htile⟩ := reedFill_ends hd hl h hx (reedTile_free hc hm hf hs) hr hha hhb ha hb haa hab
    exact ⟨(s.reedFill uid).tick, congrArg Host.Outcome.next (if_pos hk), hend, hmem, htile⟩

end Sys2Proof.Machine
end

section
/-!
PROOFS. A stash write is allocated, and its record becomes `PRESENT` (spec/09_backward_pass_and_stash.md R225 to R230): O20.
-/

namespace Sys2Proof.Machine

open Sys2Proof

/-! ### Control data of the stash that is homed here (R225) -/

/-- `z` is `s` after the bytes `bs` have been written at `a`, in memory that one object of this die holds and no other die caches. -/
structure State.WroteAlone (s z : State) (i : Nat) (o : Obj) (a : Nat) (bs : List Byte) : Prop where
  mem : z.mem = s.mem.wrBytes a bs
  obj : onlyObj z.kw i o
  sharers : z.rdc.sharers = []
  invs : z.rdc.invs = []
  home : ∀ b, z.isHome b = s.isHome b

/-- Before the first byte is written. -/
theorem State.WroteAlone.refl {s : State} {i : Nat} {o : Obj} (ho : s.kw.objs = [(i, some o)]) (hs : s.rdc.sharers = [])
    (hi : s.rdc.invs = []) (a : Nat) : s.WroteAlone s i o a [] :=
  ⟨rfl, ⟨o, ho, rfl⟩, hs, hi, fun _ => rfl⟩

/-- An update of 64 bits that is homed here, in the same granule, appends its bytes to what has been written before it. -/
theorem State.WroteAlone.put {s z : State} {i a n : Nat} {o : Obj} {bs : List Byte} (h : s.WroteAlone z i o a bs)
    (hn : bs.length = n) (hh : s.isHome (a + n) = true) (hg : a % granuleBytes + n + 8 ≤ granuleBytes) (job v : Nat) :
    s.WroteAlone (z.atomicPut job (a + n) v) i o a (bs ++ leBytes 8 v) := by
  have hz : z.isHome (a + n) = true := (h.home _).trans hh
  have hfit : (a + n) % granuleBytes + (leBytes 8 v).length ≤ granuleBytes := by
    rw [leBytes_length]
    simp only [granuleBytes] at hg ⊢
    omega
  obtain ⟨-, -, hmem, hsharers, hinvs, hobj⟩ := wrPkgAs_alone h.obj h.sharers h.invs hz job 120 (leBytes 8 v) hfit OpenTx.posted
  have hput : z.atomicPut job (a + n) v = z.wrPkg (a + n) job (leBytes 8 v) := if_pos hz
  have hmild := wrPkg_mild z (a + n) job (leBytes 8 v)
  rw [hput]
  refine ⟨?mem, hobj, hsharers, hinvs, fun b => ?home⟩
  case mem => rw [wrBytes_append, hn, ← h.mem]; exact hmem
  case home => exact (isHome_only hobj h.obj hmild.xlate (pos_of_cfg hmild.cfg) b).trans (h.home b)

/-- The 32 bytes of a directory entry (R227). -/
def StashEnt.bytes (x : StashEnt) : List Byte :=
  leBytes 8 (x.state + x.kind * 4 + x.fmt * 16 + x.data % 2 ^ 32 * 2 ^ 32) ++ leBytes 8 x.recOff
    ++ leBytes 8 (x.scale % 2 ^ 32 + x.alloc % 2 ^ 32 * 2 ^ 32) ++ leBytes 8 (x.seq % 2 ^ 32)

theorem StashEnt.bytes_length (x : StashEnt) : x.bytes.length = 32 := by simp [StashEnt.bytes]

/-- A directory entry that is homed here, in one granule, takes its 32 bytes; no other byte of package memory changes. -/
theorem setStashEnt_mem {s : State} {i ent : Nat} {o : Obj} (ho : s.kw.objs = [(i, some o)]) (hs : s.rdc.sharers = [])
    (hi : s.rdc.invs = []) (hh : ∀ k, k < 4 → s.isHome (ent + 8 * k) = true) (hg : ent % granuleBytes + 32 ≤ granuleBytes)
    (job : Nat) (x : StashEnt) : (s.setStashEnt ent job x).mem = s.mem.wrBytes ent x.bytes := by
  have h0 := (State.WroteAlone.refl ho hs hi ent).put (n := 0) rfl (hh 0 (by decide)) (by omega) job
    (x.state + x.kind * 4 + x.fmt * 16 + x.data % 2 ^ 32 * 2 ^ 32)
  have h1 := h0.put (n := 8) (by simp) (hh 1 (by decide)) (by omega) job x.recOff
  have h2 := h1.put (n := 16) (by simp) (hh 2 (by decide)) (by omega) job (x.scale % 2 ^ 32 + x.alloc % 2 ^ 32 * 2 ^ 32)
  have h3 := h2.put (n := 24) (by simp) (hh 3 (by decide)) (by omega) job (x.seq % 2 ^ 32)
  exact h3.mem

/-! ### The allocation of a record (R225, R226, R229) -/

/-- A command that has what it needed of package memory finds every tile as it was. -/
theorem need_tiles {s s1 : State} {g : Agent} {ag addr len : Nat} {wr : Bool} (h : s.need g ag wr addr len = (s1, .ok ())) :
    s1.tiles = s.tiles := by
  have hf := (State.need_frame s g ag wr addr len).1
  rwa [h] at hf

/-- Where a record of `alloc` bytes begins: at `HEAD`, past a pad where it would cross the region's end (R226). -/
def Scb.place (c : Scb) (alloc : Nat) : Nat := if c.size < c.head % c.size + alloc then (c.head / c.size + 1) * c.size else c.head

/-- Bytes that a stash write allocates for its record (R226). -/
def QEntry.stashBytes (e : QEntry) : Nat := roundUp (stashTotal (wordAt e.words 1).toNat (wordAt e.words 3).toNat) 4096

/-- A stash write whose record has been placed for stash ID `id` (R226). -/
def QEntry.placed (e : QEntry) (c : Scb) (id : Nat) : QEntry :=
  { e with store := some (c.base + c.place e.stashBytes % c.size, e.stashBytes, c.ent id), waiting := false, bellRows := 1 }

/-- A new record that has room below `HWM` is placed (R226, R229). -/
theorem stashDecide_places {s z : State} {g : Agent} {t a id : Nat} {e e0 : QEntry} {rest : List QEntry} {c : Scb} {d : StashEnt}
    (hz : z.tiles = s.tiles) (hq : (s.tile t).dma.q = e0 :: rest) (h1 : d.state ≠ 1) (h2 : d.state ≠ 2) (hovf : c.ovf = false)
    (hroom : c.place e.stashBytes + e.stashBytes - c.tail ≤ c.hwm) :
    ((z.stashDecide g t 0 a id e c d).tile t).dma.q = e.placed c id :: rest := by
  have hnew : ¬ (d.state = 1 ∨ d.state = 2) := fun h => h.elim h1 h2
  have hopen : ¬ c.ovf = true := by rw [hovf]; decide
  refine (congrArg (fun y : State => (y.tile t).dma.q) ((if_neg hnew).trans ((if_neg hopen).trans (if_pos hroom)))).trans ?_
  refine (congrArg (fun q : Tile => q.dma.q) (onDescOf_tile ..)).trans (putDma_head ?_ hq)
  rw [(State.setStashEnt_frame ..).1, (State.setScb_frame ..).1]
  exact hz

/-- Once its control block and its entry are at hand, a stash write's request is decided on them (R225, R228). -/
theorem stashAlloc_decides {s s1 s2 : State} {t a id : Nat} {e : QEntry} {rest : List QEntry} {c : Scb} (hq : (s.tile t).dma.q = e :: rest)
    (hcode : e.code = 0x06) (hgo : e.inFlight = true ∨ dmaMayStart (s.tile t).dma.q 0 e = true) (hst : e.store = none)
    (hns : e.stored = false) (ha : s.scbAddr (s.agentOf t).job = a) (ha0 : a ≠ 0) (hi : fld (wordAt e.words 0) 0 20 = id)
    (hn1 : s.need (s.agentOf t) (stashAgent t) true a 64 = (s1, .ok ())) (hc : s1.scb (stashAgent t) a = c) (hid : id < c.entries)
    (hn2 : s1.need (s.agentOf t) (stashAgent t) true (c.ent id) 32 = (s2, .ok ())) :
    s.stashAlloc t 0 = (((s2.readAt a 64).readAt (c.ent id) 32).stashDecide (s.agentOf t) t 0 a id
      { e with inFlight := true } c (s2.stashEnt (stashAgent t) (c.ent id))).dropFetch (stashAgent t) := by
  have he : entryAt (s.tile t).dma.q 0 = some e := by rw [hq]; rfl
  have hready : ¬ (decide (e.code ≠ 6) || e.store.isSome || e.stored || !(e.inFlight || dmaMayStart (s.tile t).dma.q 0 e)) = true := by
    rw [hcode, hst, hns, Bool.or_eq_true_iff.mpr hgo]
    decide
  simp only [State.stashAlloc, he]
  rw [if_neg hready, ha, hi, if_neg ha0]
  simp only [hn1, hc]
  rw [if_neg (Nat.not_le.mpr hid)]
  simp only [hn2]

/-! ### A record becomes `PRESENT` (R230) -/

/-- With its writes acknowledged and its entry at hand, the record's entry takes its state and the command is done (R230). -/
theorem stashPresent_marks {s s1 : State} {t rec alloc ent : Nat} {e : QEntry} {rest : List QEntry} (hq : (s.tile t).dma.q = e :: rest)
    (hcode : e.code = 0x06) (hst : e.store = some (rec, alloc, ent)) (hns : e.stored = false) (hwr : e.strRows ≠ 0)
    (hack : e.loadRows = 0) (hans : e.ans < 2) (hn : s.need (s.agentOf t) (stashAgent t) true ent 32 = (s1, .ok ())) :
    s.stashPresent t 0 = ((s1.setStashEnt ent (s1.tile t).seq.job
      { s1.stashEnt (stashAgent t) ent with state := 2, seq := (s1.tile t).seq.seqNo }).dropFetch (stashAgent t)).putDma t 0
        { e with stored := true } := by
  have he : entryAt (s.tile t).dma.q 0 = some e := by rw [hq]; rfl
  have hready : ¬ (decide (e.code ≠ 6) || e.stored || decide (e.strRows = 0) || decide (e.loadRows ≠ 0) || decide (2 ≤ e.ans)) = true := by
    simp [hcode, hns, hwr, hack, hans]
  simp only [State.stashPresent, he, hst]
  rw [if_neg hready]
  simp only [hn]

/-- Settles O20: the request is decided on its control block and entry (`stashAlloc_decides`) and places the record
(`stashDecide_places`); then the entry is written at its home (`stashPresent_marks`, `setStashEnt_mem`). -/
theorem stashRecordBecomesPresent : Obligations.StashRecordBecomesPresent := by
  intro s t e rest hw q g ag hq hcode
  obtain ⟨ht, hrun, -, -⟩ := works_iff hw
  have hexec (z : State) : onUnit (isTile t) t (if s.coresRun then z else s) = .next z := by rw [onUnit_true ht, if_pos hrun]
  refine ⟨?alloc, ?present⟩
  case alloc =>
    intro s1 s2 w a c x alloc at0 hgo hst hns ha hid hn1 hn2 h1 h2 hovf hroom
    have htiles : ((s2.readAt a 64).readAt (c.ent (fld w 0 20)) 32).tiles = s.tiles := by
      rw [(State.readAt_frame ..).1, (State.readAt_frame ..).1, need_tiles hn2, need_tiles hn1]
    refine ⟨_, hexec _, ?_⟩
    rw [stashAlloc_decides hq hcode hgo hst hns rfl ha rfl hn1 rfl hid hn2]
    exact stashDecide_places htiles hq h1 h2 hovf hroom
  case present =>
    intro rec alloc ent i o s1 hst hns hwr hack hans hn ho hsh hin hh hg x
    have hstep := stashPresent_marks hq hcode hst hns hwr hack hans hn
    have hmem : (s.stashPresent t 0).mem = s1.mem.wrBytes ent
        ({ x with state := 2, seq := (s.tile t).seq.seqNo } : StashEnt).bytes := by
      rw [hstep, State.putDma_mem, State.dropFetch_mem, setStashEnt_mem ho hsh hin hh hg, State.tile, need_tiles hn]
      rfl
    refine ⟨_, hexec _, ?done, ?entry, fun b hb => ?other⟩
    case done =>
      rw [hstep]
      exact putDma_head ((State.setStashEnt_frame ..).1.trans (need_tiles hn)) hq
    case entry =>
      rw [hmem]
      exact rdBytes_wrBytes' _ _ _ _ (StashEnt.bytes_length _)
    case other =>
      rw [hmem]
      exact Mem.rd_wrBytes_outside _ _ _ (by rwa [StashEnt.bytes_length])

end Sys2Proof.Machine
end

section
/-!
PROOFS. The debugger's controls, its memory window and the trace reads (spec/20_test_access_and_debug.md R523 to R528).
-/

namespace Sys2Proof.Machine

open Sys2Proof

/-! ### Writes of package memory and events leave the test registers' error flag alone -/

theorem foldl_tst {β : Type} (l : List β) (s : State) (g : State → β → State) (h : ∀ s x, (g s x).tst = s.tst) :
    (l.foldl g s).tst = s.tst := by
  induction l generalizing s with
  | nil => rfl
  | cons x r ih => exact (ih _).trans (h s x)

theorem foldlW_tst {β : Type} (l : List β) (r : Written) (g : Written → β → Written) (h : ∀ r x, (g r x).st.tst = r.st.tst) :
    (l.foldl g r).st.tst = r.st.tst := by
  induction l generalizing r with
  | nil => rfl
  | cons x l ih => exact (ih _).trans (h r x)

@[simp] theorem sendOn_tst (s : State) (p : Nat) (k : Packet) : (s.sendOn p k).tst = s.tst := State.count_tst ..

@[simp] theorem request_tst (s : State) (d : Nat) (k : Packet) (o : OpenTx) : (s.request d k o).1.tst = s.tst := by
  simp only [State.request]
  split
  · rfl
  · exact sendOn_tst ..

@[simp] theorem sendInv_tst (s : State) (grp d ptype : Nat) (lines : List Nat) (addr aux : Nat) :
    (s.sendInv grp d ptype lines addr aux).tst = s.tst := by
  simp only [State.sendInv]
  split
  · rfl
  · exact sendOn_tst ..

@[simp] theorem invAt_tst (s : State) (grp d : Nat) (lines : List Nat) : (s.invAt grp d lines).tst = s.tst := by
  simp only [State.invAt]
  split
  · refine foldl_tst _ _ _ (fun s b => ?_)
    split <;> exact sendInv_tst ..
  · exact foldl_tst _ _ _ (fun s l => sendInv_tst ..)

@[simp] theorem invalidateLines_tst (s : State) (lines : List Nat) : (s.invalidateLines lines).1.tst = s.tst := by
  simp only [State.invalidateLines]
  refine foldl_tst _ _ _ (fun s w => ?_)
  split
  · rfl
  · exact invAt_tst ..

@[simp] theorem memLine_tst (s : State) (l rd wr : Nat) : (s.memLine l rd wr).tst = s.tst := by
  simp only [State.memLine]
  repeat' split
  all_goals simp

@[simp] theorem memWrite_tst (s : State) (a n : Nat) : (s.memWrite a n).tst = s.tst := by
  refine foldl_tst _ _ _ (fun s l => ?_)
  dsimp only
  split <;> exact memLine_tst ..

@[simp] theorem markDirty_tst (s : State) (a n : Nat) : (s.markDirty a n).tst = s.tst := by
  simp only [State.markDirty]
  repeat' split
  all_goals rfl

@[simp] theorem addTraffic_tst (s : State) (a n : Nat) : (s.addTraffic a n).tst = s.tst := by
  simp only [State.addTraffic]
  repeat' split
  all_goals rfl

@[simp] theorem wrHome_tst (s : State) (a : Nat) (bs : List Byte) : (s.wrHome a bs).1.tst = s.tst := by
  simp only [State.wrHome, invalidateLines_tst, memWrite_tst, markDirty_tst]

@[simp] theorem wrGranule_tst (s : State) (a job stop : Nat) (bs : List Byte) (o : OpenTx) :
    (s.wrGranule a job stop bs o).st.tst = s.tst := by
  simp only [State.wrGranule]
  split
  · split <;> exact wrHome_tst ..
  · exact foldlW_tst _ _ _ (fun r x => request_tst ..)

@[simp] theorem wrPkg_tst (s : State) (a job : Nat) (bs : List Byte) : (s.wrPkg a job bs).tst = s.tst := by
  simp only [State.wrPkg, State.wrPkgAs]
  refine (foldlW_tst _ _ _ (fun r x => ?_)).trans (addTraffic_tst s a bs.length)
  exact wrGranule_tst ..

@[simp] theorem traceAdd_accErr (s : State) (tile src typ : Nat) (pay : Word) :
    (s.traceAdd tile src typ pay).tst.accErr = s.tst.accErr := by
  simp only [State.traceAdd]
  split <;> rfl

/-- What an event may do to a state: add a trace record, write package memory, and count in the queue manager and the Keywork (R338,
R339, R364, R527). -/
theorem event_keeps {P : State → Prop} (htrace : ∀ (z : State) tile src typ pay, P z → P (z.traceAdd tile src typ pay))
    (hwr : ∀ (z : State) a bs, P z → P (z.wrPkg a 0 bs)) (hqm : ∀ (z : State) q, P z → P { z with qm := q })
    (hkw : ∀ (z : State) k q, P z → P { z with kw := k, qm := q }) {s : State} (h : P s) (e : Ev) : P (s.event e) := by
  unfold State.event
  split
  · exact h
  have h1 : P (if bitAt (s.reg 0x3C20) 2 then s.traceAdd e.tile 2 e.typ (evWord18 e) else s) := by
    split
    · exact htrace _ _ _ _ _ h
    · exact h
  generalize (if bitAt (s.reg 0x3C20) 2 then s.traceAdd e.tile 2 e.typ (evWord18 e) else s) = z at h1 ⊢
  dsimp only
  split
  · exact hqm _ _ h1
  · split
    · exact hkw _ _ _ h1
    · split
      · exact hqm _ _ h1
      · exact hqm _ _ (hwr _ _ _ h1)

/-- An event may be traced, which is all that it does to the test registers (R527). -/
theorem event_accErr (s : State) (e : Ev) : (s.event e).tst.accErr = s.tst.accErr :=
  event_keeps (P := fun z => z.tst.accErr = s.tst.accErr) (fun z _ _ _ _ h => (traceAdd_accErr z ..).trans h)
    (fun z _ _ h => (congrArg Tst.accErr (wrPkg_tst z ..)).trans h) (fun _ _ h => h) (fun _ _ _ h => h) rfl e

/-! ### What a debug access leaves alone (R523, R525) -/

/-- A debug access of tile `t` leaves the fuses, the security state and every other tile alone. -/
def State.SparesAllBut (s s' : State) (t : Nat) : Prop :=
  s'.fuses = s.fuses ∧ s'.sec = s.sec ∧ ∀ u, u ≠ t → s'.tile u = s.tile u

theorem onTile_spares (s : State) (t : Nat) (f : Tile → Tile) : s.SparesAllBut (s.onTile t f) t :=
  ⟨rfl, rfl, fun _ hu => State.tile_onTile_other s hu f⟩

theorem spares_of_tiles {s s' : State} (t : Nat) (hf : s'.fuses = s.fuses) (hs : s'.sec = s.sec) (ht : s'.tiles = s.tiles) :
    s.SparesAllBut s' t := ⟨hf, hs, fun u _ => congrArg (Tab.get Tile.init · u) ht⟩

theorem State.SparesAllBut.mild {s z z' : State} {t : Nat} (h : s.SparesAllBut z t) (m : Mild z z') :
    s.SparesAllBut z' t ∧ z'.tile t = z.tile t := by
  obtain ⟨hf, hs, ht⟩ := h
  have htile : ∀ u, z'.tile u = z.tile u := fun u => congrArg (Tab.get Tile.init · u) m.tiles
  exact ⟨⟨m.fuses.trans hf, m.sec.trans hs, fun u hu => (htile u).trans (ht u hu)⟩, htile t⟩

/-! ### The controls of the sequencer (R523) -/

section
variable {s : State} {t : Nat}

theorem dbgGate_refuses (h : s.dbgOpen = false) (act : State → State) :
    s.dbgGate act = { s with tst := { s.tst with refused := true } } := if_neg (by simp [h])

/-- `HALT` between two instructions: the sequencer halts and its event is written. -/
theorem dbgHalt_halts (hph : (s.tile t).seq.phase = .running) (hh : (s.tile t).seq.halted = false) (hst : (s.tile t).seq.stall = none) :
    s.dbgHalt t = (s.onTile t (fun q => q.onSeq (fun z => { z with halted := true }))).haltEvent t 1 := by
  simp [State.dbgHalt, hph, hh, hst]

/-- `HALT` behind a stalled instruction is requested. -/
theorem dbgHalt_requests (hph : (s.tile t).seq.phase = .running) (hh : (s.tile t).seq.halted = false) (hst : (s.tile t).seq.stall ≠ none) :
    s.dbgHalt t = s.onTile t (fun q => q.onSeq (fun z => { z with haltReq := true })) := by
  obtain ⟨st, hst⟩ := Option.ne_none_iff_exists'.1 hst
  simp [State.dbgHalt, hph, hh, hst]

theorem dbgStep_grants (hh : (s.tile t).seq.halted = true) :
    s.dbgStep t = s.onTile t (fun q => q.onSeq (fun z => { z with stepping := true })) := if_pos hh

end

/-! ### The memory window (R525, R526) -/

theorem dbgAddr_of_cfg {s z : State} (h : z.cfg = s.cfg) : z.dbgAddr = s.dbgAddr := by
  simp only [State.dbgAddr, State.rfld, State.reg, h]

/-- The address advances by 4 within its 24 bits, in the same space. -/
theorem dbgNext_addr (s : State) : s.dbgNext.dbgAddr = ((s.dbgAddr.1 + 4) % 2 ^ 24, s.dbgAddr.2) := by
  have hlow := s.rfld_setFld 0x3C18 0 24 (s.dbgAddr.1 + 4) (by decide)
  have hspace := s.rfld_setFld_other 0x3C18 0 24 (s.dbgAddr.1 + 4) 0x3C18 24 4 (by decide) (.inr (.inr (by decide)))
  refine Prod.ext ?_ hspace
  show s.dbgNext.rfld 0x3C18 0 24 / 4 * 4 = _
  rw [State.dbgNext, hlow]
  show (s.rfld 0x3C18 0 24 / 4 * 4 + 4) % 2 ^ 24 / 4 * 4 = (s.rfld 0x3C18 0 24 / 4 * 4 + 4) % 2 ^ 24
  omega

section
variable {s : State} {t : Nat}

/-- A refused access changes no tile and sets the error flag (R252, R530). -/
theorem dbgRefused_facts (s : State) : s.dbgRefused.tiles = s.tiles ∧ s.dbgRefused.tst.accErr = true :=
  ⟨(State.dbgRefused_frame s).1, event_accErr ..⟩

/-- A write that the window admits: the tile is the written one, and the run of its descriptor has escaped (R526). -/
theorem dbgWriteData_puts {v : Word} {q : Tile} (hp : s.dbgPut s.dbgTile v = some q) :
    s.dbgWriteData v = ((s.onTile s.dbgTile (fun _ => q)).escape s.dbgTile).dbgNext := by
  simp only [State.dbgWriteData, hp]

theorem dbgWriteData_refuses {v : Word} (hp : s.dbgPut s.dbgTile v = none) : s.dbgWriteData v = s.dbgRefused.dbgNext := by
  simp only [State.dbgWriteData, hp]

theorem dbgReadData_reads (h : (s.dbgFetch s.dbgTile).isSome = true) : s.dbgReadData = s.tick.dbgNext := by
  simp only [State.dbgReadData, h, if_true]

theorem dbgReadData_refuses (h : s.dbgFetch s.dbgTile = none) : s.dbgReadData = s.dbgRefused.tick.dbgNext := by
  simp only [State.dbgReadData, h, Option.isSome_none, Bool.false_eq_true, if_false]

/-- Space 0 holds the scalar registers of a halted sequencer (log 33). -/
theorem dbgWindow_registers (ht : t < Config.tiles) (hh : (s.tile t).seq.halted = true) (ho : s.dbgOpen = true) (hp : s.powered t = true)
    (hs : (s.tile t).spad.sealed = false) (hsp : s.dbgAddr.2 = 0) (ha : s.dbgAddr.1 < 128) :
    s.dbgFetch t = some ((s.tile t).reg (BitVec.ofNat 5 (s.dbgAddr.1 / 4)))
    ∧ ∀ v, s.dbgPut t v = some ((s.tile t).setReg (BitVec.ofNat 5 (s.dbgAddr.1 / 4)) v) := by
  obtain ⟨a, haddr⟩ : ∃ a, s.dbgAddr = (a, 0) := ⟨_, Prod.ext rfl hsp⟩
  have hin : decide (a < 128) = true := by rw [haddr] at ha; exact decide_eq_true ha
  have htile : isTile t = true := decide_eq_true ht
  constructor
  · simp [State.dbgFetch, haddr, htile, ho, hp, hs, hh, hin]
  · intro v
    simp [State.dbgPut, haddr, htile, ho, hp, hs, hh, hin]

end

/-! ### The trace (R528) -/

theorem traceWord_closed {s : State} (h : s.dbgOpen = false) : s.traceWord = 0 := by
  simp [State.traceWord, h]

/-- The word of a trace read is the one that the index names in its record. -/
theorem traceWord_open {s : State} (h : s.dbgOpen = true) :
    let r := Tab.get (0, 0, 0, 0) s.tst.trace (s.traceIdx / 4)
    s.traceWord = ([r.1, r.2.1, r.2.2.1, r.2.2.2][s.traceIdx % 4]?).getD 0 := by
  intro r
  obtain hi | hi | hi | hi : s.traceIdx % 4 = 0 ∨ s.traceIdx % 4 = 1 ∨ s.traceIdx % 4 = 2 ∨ s.traceIdx % 4 = 3 := by omega
  all_goals
    simp only [State.traceWord, h, hi]
    rfl

/-- Settles O52: the controls act through their gate, the window by whether `dbgFetch` and `dbgPut` allow the access, and a refused
access leaves its mark through the event that reports it (`event_accErr`). -/
theorem debuggerAndTrace : Obligations.DebuggerAndTrace := by
  intro s t ht z frame
  have htile : isTile t = true := decide_eq_true ht
  have gated : ∀ act : State → State, s.dbgOpen = true → onUnit (isTile t) t (s.dbgGate act) = .next (act s) := fun act ho =>
    (if_pos htile).trans (congrArg _ (if_pos ho))
  have tileTo : ∀ f : Tile → Tile, frame (s.onTile t f) ∧ (s.onTile t f).tile t = f (s.tile t) := fun f =>
    ⟨onTile_spares s t f, State.tile_onTile ..⟩
  refine ⟨fun hc => ?refused, fun ho => ⟨fun hph hh hst => ?halt, fun hph hh hst => ?request, fun hh => ?step, ?resume⟩,
    fun hd => ⟨fun v hv x => ?read, fun hv x => ?noRead, fun v q hq => ?write, fun v hq => ?noWrite, ?registers⟩, ?clear, ?trace⟩
  case refused =>
    have no := fun act => (if_pos htile : onUnit (isTile t) t (s.dbgGate act) = _).trans (congrArg _ (dbgGate_refuses hc act))
    exact ⟨no _, no _, no _⟩
  case halt =>
    obtain ⟨hframe, htile1⟩ := (onTile_spares s t (fun q => q.onSeq (fun z => { z with halted := true }))).mild (event_mild ..)
    exact ⟨_, (gated _ ho).trans (congrArg _ (dbgHalt_halts hph hh hst)), hframe, htile1.trans (State.tile_onTile ..)⟩
  case request => exact ⟨_, (gated _ ho).trans (congrArg _ (dbgHalt_requests hph hh hst)), tileTo _⟩
  case step => exact ⟨_, (gated _ ho).trans (congrArg _ (dbgStep_grants hh)), tileTo _⟩
  case resume => exact ⟨_, gated _ ho, tileTo _⟩
  case read =>
    subst hd
    refine ⟨_, congrArg (fun z : State => Host.Outcome.next (z.mgmtRead s.dbgWord)) (dbgReadData_reads (by rw [hv]; rfl)), rfl, rfl, ?_,
      dbgNext_addr s.tick⟩
    exact congrArg (Option.getD · 0) hv
  case noRead =>
    subst hd
    obtain ⟨htiles, herr⟩ := dbgRefused_facts s
    refine ⟨_, congrArg (fun z : State => Host.Outcome.next (z.mgmtRead s.dbgWord)) (dbgReadData_refuses hv), htiles, ?_, herr⟩
    exact congrArg (Option.getD · 0) hv
  case write =>
    subst hd
    set z := (s.onTile s.dbgTile (fun _ => q)).escape s.dbgTile
    obtain ⟨htiles, hfuses, -, hcfg, -, -, hsec, -⟩ := State.escape_frame (s.onTile s.dbgTile (fun _ => q)) s.dbgTile
    have hone : ∀ u, z.dbgNext.tile u = (s.onTile s.dbgTile (fun _ => q)).tile u := fun u => congrArg (Tab.get Tile.init · u) htiles
    refine ⟨z.dbgNext, congrArg _ (dbgWriteData_puts hq), ⟨hfuses, hsec, fun u hu => ?_⟩, ?_, State.escape_mem .., ?_⟩
    · exact (hone u).trans (State.tile_onTile_other s hu _)
    · exact (hone _).trans (State.tile_onTile ..)
    · rw [dbgNext_addr, dbgAddr_of_cfg (s := s) hcfg]
  case noWrite =>
    subst hd
    obtain ⟨htiles, herr⟩ := dbgRefused_facts s
    exact ⟨_, congrArg Host.Outcome.next (dbgWriteData_refuses hq), htiles, herr⟩
  case registers => exact fun hh ho hp hs hsp ha => dbgWindow_registers ht hh ho hp hs hsp ha
  case clear => exact ⟨_, rfl, spares_of_tiles t rfl rfl rfl, rfl, rfl, rfl, rfl⟩
  case trace =>
    exact ⟨_, rfl, spares_of_tiles t rfl rfl rfl, rfl, traceWord_closed, traceWord_open, State.rfld_setFld _ _ _ _ _ (by decide)⟩

end Sys2Proof.Machine
end

section
/-!
PROOFS. A `DM_DMEM` from the scratchpad: the parts it is carried out in, its run, and its completion (R274, R279, R280).
-/

namespace Sys2Proof.Machine

open Sys2Proof

variable {s : State} {t : Nat} {e : QEntry} {rest : List QEntry}

/-! ### The parts of the copy -/

/-- A part of a copy from the scratchpad to data memory that lies in one slot. -/
structure DmemCut where
  src : Nat
  dst : Nat
  len : Nat

/-- The unit of the transfer that carries a part. -/
def DmemCut.unit (u : DmemCut) : (Loc × Nat) × (Loc × Nat) := ((.spad u.src, u.len), (.dmem u.dst, u.len))

/-- The parts of a copy of `n` bytes from scratchpad address `b` to data memory address `a`; the first argument bounds their number. -/
def dmemCuts : Nat → Nat → Nat → Nat → List DmemCut
  | 0, _, _, _ => []
  | f + 1, a, b, n =>
    if n = 0 then []
    else
      let c := min n (4096 - b % 4096)
      ⟨b, a, c⟩ :: dmemCuts f (a + c) (b + c) (n - c)

/-- The parts of a command's copy. -/
def QEntry.cuts (e : QEntry) : List DmemCut :=
  let n := (wordAt e.words 3).toNat
  dmemCuts (n / 1024 + 8) (wordAt e.words 1).toNat (wordAt e.words 2).toNat n

/-- Data memory after the parts have been copied from scratchpad contents `sp`. -/
def copyCuts (sp m : Mem) (us : List DmemCut) : Mem := us.foldl (fun m u => m.wrBytes u.dst (sp.rdBytes u.src u.len)) m

theorem cutPieces_dmem (f a b n : Nat) :
    cutPieces [(.spad b, n)] [(.dmem a, n)] f = (dmemCuts f a b n).map DmemCut.unit := by
  induction f generalizing a b n with
  | zero => rfl
  | succ f ih =>
    by_cases hn : n = 0
    · subst hn; cases f <;> rfl
    · have hc : min (min n n) (min (4096 - b % 4096) n) = min n (4096 - b % 4096) := by omega
      simp only [cutPieces, dmemCuts, if_neg hn, Loc.room, Loc.skip, hc, ih]
      rfl

/-- Two blocks read in a row are one block. -/
theorem rdBytes_append (m : Mem) (a n k : Nat) : m.rdBytes a (n + k) = m.rdBytes a n ++ m.rdBytes (a + n) k := by
  simp [← rdBytes_map, List.range_add, Nat.add_assoc]

/-- The parts together copy the whole block, when their number is not cut short. -/
theorem copyCuts_all (sp m : Mem) {f a b n : Nat} (h : n = 0 ∨ n + b % 4096 ≤ 4096 * f) :
    copyCuts sp m (dmemCuts f a b n) = m.wrBytes a (sp.rdBytes b n) := by
  induction f generalizing m a b n with
  | zero =>
    obtain rfl : n = 0 := by omega
    rfl
  | succ f ih =>
    by_cases hn : n = 0
    · subst hn; rfl
    · obtain ⟨c, hc⟩ : ∃ c, c = min n (4096 - b % 4096) := ⟨_, rfl⟩
      have hsplit : sp.rdBytes b n = sp.rdBytes b c ++ sp.rdBytes (b + c) (n - c) := by
        rw [← rdBytes_append]; congr 1; omega
      simp only [dmemCuts, if_neg hn, ← hc, copyCuts, List.foldl_cons]
      rw [hsplit, wrBytes_append, rdBytes_length]
      exact ih _ (by omega)

/-- Every part lies in the block. -/
theorem dmemCuts_inside {f a b n : Nat} {u : DmemCut} (hu : u ∈ dmemCuts f a b n) : b ≤ u.src ∧ u.src + u.len ≤ b + n := by
  induction f generalizing a b n with
  | zero => simp [dmemCuts] at hu
  | succ f ih =>
    by_cases hn : n = 0
    · simp [dmemCuts, hn] at hu
    · simp only [dmemCuts, if_neg hn, List.mem_cons] at hu
      rcases hu with rfl | hu
      · dsimp only; omega
      · have := ih hu; omega

/-- A part of a readable range is readable (R251). -/
theorem canReadRange_part {sp : Spad} {a n b k : Nat} (h : sp.canReadRange a n = true) (hb : a ≤ b) (hk : b + k ≤ a + n) :
    sp.canReadRange b k = true := by
  simp only [Spad.canReadRange, slotsOf, List.all_map, List.all_eq_true, List.mem_range, Function.comp_apply] at h ⊢
  intro i hi
  have := h (i + b / 4096 - a / 4096) (by omega)
  rwa [show i + b / 4096 - a / 4096 + a / 4096 = i + b / 4096 by omega] at this

/-- The transfer of a `DM_DMEM` from the scratchpad: a unit for each part (R274). -/
def QEntry.copyXfer (e : QEntry) : Xfer :=
  { dmemXfer e.words with
    units := e.cuts.length
    srcs := fun i => ((e.cuts.map (fun u => [u.unit.1]))[i]?).getD []
    dsts := fun i => ((e.cuts.map (fun u => [u.unit.2]))[i]?).getD [] }

theorem bySlot_dmemXfer (hdir : bitAt (wordAt e.words 0) 0 = false) : (dmemXfer e.words).bySlot = e.copyXfer := by
  simp [Xfer.bySlot, dmemXfer, hdir, QEntry.copyXfer, QEntry.cuts, cutPieces_dmem, Xfer.unitLen, Function.comp_def]

theorem xferOf_dmem (s : State) (t : Nat) (hc : e.code = 5) (hdir : bitAt (wordAt e.words 0) 0 = false) :
    s.xferOf t e = some e.copyXfer := by
  simp only [State.xferOf, hc, bySlot_dmemXfer hdir]

/-- Every source piece lies in the own scratchpad. -/
theorem copyXfer_srcs {i : Nat} {p : Loc × Nat} (hp : p ∈ e.copyXfer.srcs i) : ∃ a, p.1 = .spad a := by
  simp only [QEntry.copyXfer, List.getElem?_map] at hp
  cases hu : e.cuts[i]? with
  | none => simp [hu] at hp
  | some u => simp only [hu, Option.map_some, Option.getD_some, List.mem_singleton] at hp; exact ⟨u.src, hp ▸ rfl⟩

/-! ### The start (R279) -/

/-- Nothing of the scratchpad is asked of another die, and nothing holds its reading back (R279). -/
theorem askHeld_copy (s : State) (e : QEntry) : s.askHeld e.copyXfer = false := by
  simp only [State.askHeld, List.any_eq_false]
  intro i _
  simp only [Bool.not_eq_true, List.any_eq_false]
  intro p hp
  obtain ⟨a, ha⟩ := copyXfer_srcs hp
  simp [ha]

theorem askPieces_spad (g : Agent) (ps : List (Loc × Nat)) (h : ∀ p ∈ ps, ∃ a, p.1 = .spad a) (r : (State × QEntry) × Nat) :
    (ps.foldl (fun (a : (State × QEntry) × Nat) p => ((a.1.1.askPiece g a.1.2 a.2 p.1 p.2), a.2 + p.2)) r).1 = r.1 := by
  induction ps generalizing r with
  | nil => rfl
  | cons p ps ih =>
    obtain ⟨a, ha⟩ := h p (by simp)
    rw [List.foldl_cons, ih (fun p hp => h p (List.mem_cons_of_mem _ hp)), ha]
    rfl

theorem askAll_copy (s : State) (g : Agent) (e e' : QEntry) : s.askAll g e.copyXfer e' = (s, e') := by
  simp only [State.askAll]
  generalize List.range e.copyXfer.units = l
  induction l with
  | nil => rfl
  | cons i l ih => rw [List.foldl_cons, askPieces_spad g _ (fun p hp => copyXfer_srcs hp), ih]

/-- The first entry of the core DMA's queue put back. -/
theorem putDma_tile (hq : (s.tile t).dma.q = e :: rest) (e' : QEntry) :
    (s.putDma t 0 e').tile t = (s.tile t).onDma (fun d => { d with q := e' :: rest }) := by
  simp only [State.putDma, State.tile_onTile, Tile.onEntry, Tile.onQueue, Tile.onDma, hq, modAt]

theorem dmaMayGo_copy (hq : (s.tile t).dma.q = e :: rest) (hc : e.code = 5) (htk : e.taken = true)
    (hdir : bitAt (wordAt e.words 0) 0 = false) (hfl : e.inFlight = false) (hrest : ∀ x ∈ rest, x.inFlight = false) :
    s.dmaMayGo t 0 = s.putDma t 0 { e with inFlight := true, bellRows := 1 } := by
  have hstart : dmaMayStart (e :: rest) 0 e = true := by
    have hnone : rest.filter (·.inFlight) = [] := List.filter_eq_nil_iff.2 fun x hx => by simp [hrest x hx]
    simp [dmaMayStart, htk, hfl, hnone]
  have hask : s.dmaAsk t 0 { e with inFlight := true } = s.putDma t 0 { e with inFlight := true, bellRows := 1 } := by
    simp only [State.dmaAsk, xferOf_dmem (e := { e with inFlight := true }) s t hc hdir, askHeld_copy, askAll_copy]
    rfl
  have hkind : (e.code == 1) = false ∧ (e.code == 7) = false ∧ (decide (e.code = 0) || decide (7 < e.code)) = false := by simp [hc]
  obtain ⟨h1, h7, hcode⟩ := hkind
  simp only [State.dmaMayGo, hq, entryAt, List.getElem?_cons_zero, hcode, hfl, hstart, State.dmaStart, h1, h7]
  exact hask

/-! ### The units (R250, R271) -/

/-- The tile with parts copied from its scratchpad to its data memory (R274). -/
def Tile.copied (q : Tile) (us : List DmemCut) : Tile := q.onSeq (fun y => { y with dmem := copyCuts q.spad.mem y.dmem us })

/-- The copy of one part waits for nothing (R251). -/
theorem runUnits_step {g : Agent} (hg : g.tile = some t) {x : Xfer} (hconv : x.conv = id) {u : DmemCut} {e : QEntry} {n : Nat}
    (hun : e.strRows < x.units) (hs : x.srcs e.strRows = [u.unit.1]) (hd : x.dsts e.strRows = [u.unit.2])
    (hread : (s.tile t).spad.canReadRange u.src u.len = true) :
    ∃ z : State, s.runUnits g x (n + 1) e = z.runUnits g x n { e with strRows := e.strRows + 1, waiting := false }
      ∧ z.tile t = (s.tile t).copied [u] := by
  have htake : ((s.tile t).spad.mem.rdBytes u.src u.len).take u.len = (s.tile t).spad.mem.rdBytes u.src u.len :=
    List.take_of_length_le (by rw [rdBytes_length])
  simp only [State.runUnits, if_neg (Nat.not_le.2 hun), hs, hd, DmemCut.unit, State.readUnit, State.readPiece, hg, hread, if_true,
    List.append_nil, hconv, id, State.writeUnit, State.writePiece, htake, State.readTraffic, List.foldl_cons, List.foldl_nil]
  exact ⟨_, rfl, State.tile_onTile ..⟩

/-- All parts are copied in order; the rest of the tile stays. -/
theorem runUnits_copy {g : Agent} (hg : g.tile = some t) (c : QEntry) (todo : List DmemCut) (z : State) (e : QEntry)
    (hdone : c.cuts.drop e.strRows = todo) (hlen : e.strRows + todo.length = c.cuts.length)
    (hread : ∀ u ∈ todo, (z.tile t).spad.canReadRange u.src u.len = true) :
    ∃ z' w, z.runUnits g c.copyXfer todo.length e = (z', { e with strRows := c.cuts.length, waiting := w }, none)
      ∧ z'.tile t = (z.tile t).copied todo := by
  induction todo generalizing z e with
  | nil => exact ⟨z, e.waiting, by rw [← hlen]; rfl, rfl⟩
  | cons u us ih =>
    rw [List.length_cons] at hlen
    have hu : c.cuts[e.strRows]? = some u := by rw [← List.head?_drop, hdone]; rfl
    obtain ⟨y, hstep, hy⟩ := runUnits_step (s := z) (u := u) (n := us.length) hg (x := c.copyXfer) rfl
      (show e.strRows < c.cuts.length by omega) (by simp [QEntry.copyXfer, hu]) (by simp [QEntry.copyXfer, hu]) (hread u (by simp))
    obtain ⟨z', w, hrun, htile⟩ := ih y { e with strRows := e.strRows + 1, waiting := false }
      (by rw [← List.tail_drop, hdone]; rfl) (by dsimp only; omega)
      (by rw [hy]; exact fun v hv => hread v (List.mem_cons_of_mem _ hv))
    exact ⟨z', w, hstep.trans hrun, by rw [htile, hy]; rfl⟩

/-- A started copy runs to its end: its units are done, and the tile holds the bytes (R271). -/
theorem dmaUnits_copy (hq : (s.tile t).dma.q = e :: rest) (hc : e.code = 5) (hfl : e.inFlight = true) (hasked : e.bellRows = 1)
    (hdir : bitAt (wordAt e.words 0) 0 = false) (hstr : e.strRows = 0) (hans : e.ans = 0) (htgt : e.tgt = 127)
    (hread : (s.tile t).spad.canReadRange (wordAt e.words 2).toNat (wordAt e.words 3).toNat = true) :
    ∃ w, (s.dmaUnits t 0).tile t = ((s.tile t).copied e.cuts).onDma
      (fun d => { d with q := { e with strRows := e.cuts.length, waiting := w, stored := true } :: rest }) := by
  have hstop : ansStop s e = none := by simp only [ansStop, hans, htgt]; rfl
  have hfrom : s.readsFrom e.copyXfer e.tgt = e.tgt := by
    unfold State.readsFrom
    split
    case h_1 d _ _ _ _ hsrc =>
      obtain ⟨a, ha⟩ := copyXfer_srcs (e := e) (i := 0) (hsrc ▸ List.mem_cons_self)
      cases ha
    case h_2 => rfl
  obtain ⟨z', w, hrun, htile⟩ := runUnits_copy (t := t) (g := s.agentOf t) rfl e e.cuts s e (by rw [hstr]; rfl) (by omega)
    (fun u hu => canReadRange_part hread (dmemCuts_inside hu).1 (dmemCuts_inside hu).2)
  have hrun' : s.runUnits (s.agentOf t) e.copyXfer e.copyXfer.units { e with tgt := s.readsFrom e.copyXfer e.tgt } =
      (z', { e with strRows := e.cuts.length, waiting := w }, none) := by rw [hfrom]; exact hrun
  have hgate : (decide (e.code = 0) || decide (7 < e.code) || !e.inFlight) = false ∧ (!e.asked && e.code != 6) = false := by
    simp [hc, hfl, QEntry.asked, hasked]
  have hdone : (e.stored || (e.code != 6 && decide (e.copyXfer.units ≤ e.cuts.length))) = true := by
    simp [hc, QEntry.copyXfer]
  have hunits : s.dmaUnits t 0 = z'.putDma t 0 { e with strRows := e.cuts.length, waiting := w, stored := true } := by
    simp only [State.dmaUnits, hq, entryAt, List.getElem?_cons_zero, hgate, hstop, xferOf_dmem s t hc hdir, hrun', hdone]
    rfl
  exact ⟨w, by rw [hunits, putDma_tile (by rw [htile]; exact hq), htile]⟩

/-! ### The completion (R280) -/

/-- Releases of slots of the own scratchpad change its tags only (R248). -/
theorem relSlots_own {l : List (Option (Nat × Nat) × Nat)} (hl : ∀ r ∈ l, r.1 = none) (s : State) (t : Nat) :
    ∃ sp, (l.foldl (State.relSlot t) s).tile t = { s.tile t with spad := sp } ∧ sp.mem = (s.tile t).spad.mem := by
  induction l generalizing s with
  | nil => exact ⟨_, rfl, rfl⟩
  | cons r l ih =>
    obtain ⟨o, k⟩ := r
    obtain rfl : o = none := hl (o, k) (by simp)
    obtain ⟨sp, htile, hmem⟩ := ih (fun r hr => hl r (List.mem_cons_of_mem _ hr)) (State.relSlot t s (none, k))
    have hone : (State.relSlot t s (none, k)).tile t = { s.tile t with spad := (s.tile t).spad.release k } := State.tile_onTile ..
    rw [hone] at htile hmem
    exact ⟨sp, htile, hmem⟩

theorem dmaRelease_copy (s : State) (t : Nat) (e : QEntry) :
    ∃ sp, (s.dmaRelease t e.copyXfer).tile t = { s.tile t with spad := sp } ∧ sp.mem = (s.tile t).spad.mem := by
  refine relSlots_own (fun r hr => ?_) s t
  simp only [relSlots, List.mem_eraseDups, List.mem_flatMap] at hr
  obtain ⟨i, -, p, hp, hr⟩ := hr
  obtain ⟨a, ha⟩ := copyXfer_srcs hp
  simp only [ha, List.mem_map] at hr
  obtain ⟨k, -, rfl⟩ := hr
  rfl

/-- A core that runs, or that holds no credit, returns none as its command completes (R262). -/
theorem afterStop_keeps (h : (s.tile t).seq.phase = .running ∨ (s.tile t).dma.handles = []) : s.afterStop t = s := by
  rcases h with h | h
  · simp [State.afterStop, h]
  · simp [State.afterStop, State.dropHandles, h, Tab.keys]

/-- A retiring core DMA command leaves the credit handles alone (R54). -/
theorem retire_handles {q : Tile} (hq : q.dma.q = e :: rest) (hroom : ∀ k, e.post = some k → q.token k < 65535) :
    (q.retire 4 0).dma.handles = q.dma.handles := by
  rw [retire_head (eng := 4) (by decide) hq hroom]
  cases e.post <;> rfl

/-- The completion of a copy whose bytes are in place (R280). -/
theorem dmaFinish_copy (hph : (s.tile t).seq.phase = .running ∨ (s.tile t).seq.phase = .yielding)
    (hq : (s.tile t).dma.q = e :: rest) (hc : e.code = 5) (hfl : e.inFlight = true) (hst : e.stored = true) (how : e.owed = 0)
    (hlr : e.loadRows = 0) (hdir : bitAt (wordAt e.words 0) 0 = false) (hroom : ∀ k, e.post = some k → (s.tile t).token k < 65535)
    (hyield : (s.tile t).seq.phase = .running ∨ (s.tile t).dma.handles = []) :
    let q' := (s.dmaFinish t 0).tile t
    q'.dma.q = rest ∧ q'.seq.dmem = (s.tile t).seq.dmem ∧ q'.seq.regs = (s.tile t).seq.regs
      ∧ q'.spad.mem = (s.tile t).spad.mem ∧ (bitAt (wordAt e.words 0) 1 = false → q'.spad = (s.tile t).spad) := by
  obtain ⟨z, sp, hz, htile, hmem, hkeep⟩ : ∃ z sp, (if e.copyXfer.rel = true then s.dmaRelease t e.copyXfer else s) = z
      ∧ z.tile t = { s.tile t with spad := sp } ∧ sp.mem = (s.tile t).spad.mem
      ∧ (bitAt (wordAt e.words 0) 1 = false → sp = (s.tile t).spad) := by
    have hrel : e.copyXfer.rel = bitAt (wordAt e.words 0) 1 := rfl
    rw [hrel]
    cases hb : bitAt (wordAt e.words 0) 1 with
    | false => exact ⟨s, (s.tile t).spad, rfl, rfl, rfl, fun _ => rfl⟩
    | true =>
      obtain ⟨sp, h1, h2⟩ := dmaRelease_copy s t e
      exact ⟨_, sp, rfl, h1, h2, fun h => by cases h⟩
  have hkind : (e.code == 6) = false ∧ (e.code == 7) = false ∧ (!(e.inFlight && e.stored && e.owed == 0 && e.loadRows == 0)) = false := by
    simp [hc, hfl, hst, how, hlr]
  obtain ⟨h6, h7, hdone⟩ := hkind
  have hfin : s.dmaFinish t 0 =
      (z.runTile t (fun q => ((q.dmaCount 0 1).dmaCount 1 e.copyXfer.bytes).retire 4 0)).afterStop t := by
    simp only [State.dmaFinish, hq, entryAt, List.getElem?_cons_zero, hdone, xferOf_dmem s t hc hdir, hz, h6, h7]
    simp only [xferOf_dmem z t hc hdir]
    rfl
  have hcnt : (((z.tile t).dmaCount 0 1).dmaCount 1 e.copyXfer.bytes).dma.q = e :: rest := by rw [htile]; exact hq
  obtain ⟨fq, -, -, fspad, fphase, fdmem, fregs⟩ := dma_fin (q := z.tile t) hcnt rfl rfl (by rw [htile]; exact hroom)
  have hhandles := retire_handles hcnt (by rw [htile]; exact hroom)
  rw [runTile_eq' (by rw [htile]; exact hph) fphase] at hfin
  have hend := State.tile_onTile z t (fun q => ((q.dmaCount 0 1).dmaCount 1 e.copyXfer.bytes).retire 4 0)
  rw [afterStop_keeps (by rw [hend, fphase, hhandles, htile]; exact hyield)] at hfin
  dsimp only
  rw [hfin, hend, fq, fdmem, fregs, fspad, htile]
  exact ⟨rfl, rfl, rfl, hmem, hkeep⟩

/-- The oldest core DMA command, by the kind of its code. -/
theorem completeDma_head (hq : (s.tile t).dma.q = e :: rest) :
    s.completeDma t 0 = if 8 ≤ e.code then s.dmaOther s.fv t 0 e else (s.dmaRun t 0).dmaFinish t 0 := by
  simp only [State.completeDma, hq, entryAt, List.getElem?_cons_zero]

/-- Settles O18: the command starts, copies its parts one after another, and completes; each step leaves the rest of the tile. -/
theorem dmaCopiesToDataMemory : Obligations.DmaCopiesToDataMemory := by
  intro s t e rest hw q a b n hq hc htk hdir hfl hbell hstr howed hload hans htgt hrest hread hroom hyield
  obtain ⟨ht, hrun, -, -⟩ := works_iff hw
  have hgo := dmaMayGo_copy hq hc htk hdir hfl hrest
  have hstart := putDma_tile hq { e with inFlight := true, bellRows := 1 }
  rw [← hgo] at hstart
  have hq1 : ((s.dmaMayGo t 0).tile t).dma.q = { e with inFlight := true, bellRows := 1 } :: rest := by rw [hstart]; rfl
  obtain ⟨w, hunits⟩ := dmaUnits_copy hq1 hc rfl rfl hdir hstr hans htgt
    (by rw [hstart]; exact hread)
  rw [← State.dmaRun, hstart] at hunits
  have hq2 := congrArg (fun q' : Tile => q'.dma.q) hunits
  have hfin := dmaFinish_copy (by rw [hunits]; exact works_phase hw) hq2 hc rfl rfl howed hload hdir (by rw [hunits]; exact hroom)
    (by rw [hunits]; exact hyield)
  have hexec : exec (.dmaTransferComplete t 0) s = .next ((s.dmaRun t 0).dmaFinish t 0).tick := by
    have hcode : ¬ 8 ≤ e.code := by omega
    simp only [exec, execDmaTransferComplete, onUnit, ht, hrun, completeDma_head hq, hcode]
    rfl
  obtain ⟨fq, fdmem, fregs, fmem, fspad⟩ := hfin
  have hcopy : ((s.dmaRun t 0).tile t).seq.dmem = q.seq.dmem.wrBytes a (q.spad.mem.rdBytes b n) := by
    rw [hunits]
    exact copyCuts_all _ _ (by omega)
  refine ⟨_, hexec, ?_⟩
  have htick : ((s.dmaRun t 0).dmaFinish t 0).tick.tile t = ((s.dmaRun t 0).dmaFinish t 0).tile t := rfl
  dsimp only
  rw [htick, fq, fdmem, hcopy, fmem, fregs]
  refine ⟨rfl, rdBytes_wrBytes' _ _ _ _ (rdBytes_length ..), fun x hx => ?_, ?_, fun hrel => ?_, ?_⟩
  · exact Mem.rd_wrBytes_outside _ _ _ (by rwa [rdBytes_length])
  · rw [hunits]; rfl
  · rw [fspad hrel, hunits]; rfl
  · rw [hunits]; rfl

end Sys2Proof.Machine
end

section
/-!
PROOFS. Slot tags, windows and credits: the commands of the core DMA that are no transfer, and the allocator of a tile (R248, R258,
R259, R260, R278).
-/

namespace Sys2Proof.Machine

open Sys2Proof

variable {s : State} {t u : Nat} {e : QEntry} {rest : List QEntry}

/-! ### The commands of the core DMA -/

/-- A run of slots changed one after another: every slot of the run by the change, and no other slot. -/
theorem onSlots_run (f : Slot → Slot) (sp : Spad) (a n : Nat) :
    let sp' := ((List.range n).map (· + a)).foldl (fun sp k => sp.onSlot k f) sp
    sp'.mem = sp.mem ∧ ∀ i, sp'.slot i = if i < a ∨ a + n ≤ i then sp.slot i else f (sp.slot i) := by
  induction n with
  | zero => exact ⟨rfl, fun i => by simp [show i < a ∨ a ≤ i by omega]⟩
  | succ n ih =>
    obtain ⟨hmem, hslot⟩ := ih
    simp only [List.range_succ, List.map_append, List.foldl_append, List.map_cons, List.map_nil, List.foldl_cons, List.foldl_nil]
    refine ⟨hmem, fun i => ?_⟩
    simp only [Spad.onSlot, Spad.slot, Tab.get_mod] at hslot ⊢
    by_cases hi : i = n + a
    · rw [if_pos hi, hslot, if_pos (by omega), if_neg (by omega), hi]
    · rw [if_neg hi, hslot]
      exact if_congr (by omega) rfl rfl

/-- The oldest core DMA command, when it is no transfer, takes effect. -/
theorem exec_dmaOther (hw : s.works t = true) (hq : (s.tile t).dma.q = e :: rest) (hc : 8 ≤ e.code) :
    exec (.commandComplete t 4 0) s = .next (s.dmaOther s.fv t 0 e).tick := by
  obtain ⟨ht, hrun, -, -⟩ := works_iff hw
  simp only [exec, execCommandComplete, onUnit, ht, hrun, State.complete, completeDma_head hq, if_pos hc]
  rfl

/-- The oldest core DMA command retires after a change of its tile that leaves the queue, the phase and the tokens (R54). -/
theorem retire_changed {f : Tile → Tile} (hw : s.works t = true) (hq : (f (s.tile t)).dma.q = e :: rest)
    (hseq : (f (s.tile t)).seq = (s.tile t).seq) (hroom : ∀ k, e.post = some k → (s.tile t).token k < 65535) :
    let q' := ((s.onTile t f).runTile t (fun q => q.retire 4 0)).tile t
    q'.dma.q = rest ∧ q'.dma.windows = (f (s.tile t)).dma.windows ∧ q'.dma.granted = (f (s.tile t)).dma.granted
      ∧ q'.spad = (f (s.tile t)).spad := by
  obtain ⟨fq, fwin, fgr, fsp, fph, -, -⟩ := dma_fin (q := s.tile t) hq (by rw [hseq]) (by rw [hseq]) hroom
  have hz := State.tile_onTile s t f
  have hrun := runTile_eq' (s := s.onTile t f) (t := t) (f := fun q => q.retire 4 0)
    (by rw [hz, hseq]; exact works_phase hw) (by rw [hz, fph, hseq])
  dsimp only
  rw [hrun, onTile_onTile]
  exact ⟨fq, fwin, fgr, fsp⟩

/-- The tile after a slot-tag command on a run of slots (R278). -/
def Tile.tagRun (op first count : Nat) (q : Tile) : Tile :=
  { q with spad := ((List.range count).map (· + first)).foldl (fun sp k => sp.onSlot k (tagOp op)) q.spad }

/-- The tile after a window has been opened (R258). -/
def Tile.openWindow (k : Nat) (w : Window) (q : Tile) : Tile := q.onDma (fun d => { d with windows := Tab.set none d.windows k (some w) })

theorem Tile.openWindow_window (k : Nat) (w : Window) (q : Tile) : Tab.get none (q.openWindow k w).dma.windows k = some w :=
  Tab.get_set_self (d := none) q.dma.windows k (some w)

/-- A slot-tag command on slots that are not granted (R278). -/
theorem dmaOther_tags (hc : e.code = 0x0C) (htk : e.taken = true)
    (hfree : ∀ g ∈ (s.tile t).dma.granted, g.slot < fld (wordAt e.words 0) 0 12
      ∨ fld (wordAt e.words 0) 0 12 + (fld (wordAt e.words 0) 12 12 + 1) ≤ g.slot) (fv : Nat → Word) :
    s.dmaOther fv t 0 e =
      (s.onTile t (Tile.tagRun (fld (wordAt e.words 0) 24 3) (fld (wordAt e.words 0) 0 12) (fld (wordAt e.words 0) 12 12 + 1))).runTile t
        (fun q => q.retire 4 0) := by
  have hrun : ((List.range (fld (wordAt e.words 0) 12 12 + 1)).map (· + fld (wordAt e.words 0) 0 12)).any (s.tile t).isGranted = false := by
    simp only [Tile.isGranted, List.any_eq_false, List.mem_map, List.mem_range, Bool.not_eq_true, beq_eq_false_iff_ne]
    rintro _ ⟨i, hi, rfl⟩ g hg
    have := hfree g hg
    omega
  simp only [State.dmaOther, hc, htk, hrun]
  rfl

/-- `RX_OPEN` of a window on a tile that has none open (R258). -/
theorem dmaOther_open (hc : e.code = 0x0A) (htk : e.taken = true) (hwin : (s.tile t).dma.windows = []) (fv : Nat → Word) :
    s.dmaOther fv t 0 e =
      (s.onTile t (Tile.openWindow (fld (wordAt e.words 0) 0 4)
        ⟨fld (wordAt e.words 0) 4 12, fld (wordAt e.words 0) 16 12 + 1, fld (wordAt e.words 0) 4 12⟩)).runTile t (fun q => q.retire 4 0) := by
  simp only [State.dmaOther, hc, htk, hwin]
  rfl

/-! ### The allocator -/

/-- An answer to the only command of a tile, which asks for credits (R259). -/
theorem answerReq_only {q : Tile} {uid : Nat} (hq : q.dma.q = [e]) (hc : e.code = 8) (huid : e.uid = uid) (hans : e.ans = 0)
    (handle ans tgt : Nat) (g : Option Grant) :
    (q.answerReq uid handle ans tgt g).dma.q = [{ e with ans := ans, tgt := tgt, owed := 0 }] := by
  have hmine : (e.code == 8 && e.uid == uid && e.ans == 0) = true := by simp [hc, huid, hans]
  simp only [Tile.answerReq, Tile.onDma, hq, List.map_cons, List.map_nil, if_pos hmine]

theorem answerReq_handle (q : Tile) (uid handle ans tgt : Nat) (g : Grant) :
    Tab.get none (q.answerReq uid handle ans tgt (some g)).dma.handles handle = some g :=
  Tab.get_set_self (d := (none : Option Grant)) q.dma.handles handle (some g)

/-- An answer to the only command in the core DMA's queue of a tile of this die (R259). -/
theorem answerCredit_tile {r : CredReq} (hport : r.port = none) (hstop : r.who.stop = u) (hu : u < 72)
    (hq : (s.tile u).dma.q = [e]) (hc : e.code = 8) (hans : e.ans = 0) (huid : e.uid = r.uid) (ans tgt first : Nat) (g : Option Grant) :
    let s' := s.answerCredit r ans tgt g first
    (∀ t, t ≠ u → s'.tile t = s.tile t) ∧ (s'.tile u).dma.q = [{ e with ans := ans, tgt := tgt, owed := 0 }]
      ∧ (s'.tile u).dma.handles = (match g with
        | some x => Tab.set none (s.tile u).dma.handles r.who.handle (some x)
        | none => (s.tile u).dma.handles) := by
  have hs : s.answerCredit r ans tgt g first = s.onTile u (fun q => q.answerReq r.uid r.who.handle ans tgt g) := by
    simp only [State.answerCredit, hport, hstop, Config.tiles, if_pos hu]
  dsimp only
  rw [hs, State.tile_onTile]
  refine ⟨fun t ht => State.tile_onTile_other _ ht _, answerReq_only hq hc huid hans .., ?_⟩
  cases g <;> rfl

/-- The granted slots as a run from the grant pointer (R259). -/
theorem granted_run (w : Window) (n window : Nat) (who : Writer) :
    (((List.range n).zip (windowRun w n)).map (fun p => (⟨p.2, window, who, p.1⟩ : Granted)))
      = (List.range n).map (fun i => ⟨w.first + (w.ptr - w.first + i) % w.count, window, who, i⟩) := by
  rw [windowRun, ← List.map_prod_left_eq_zip, List.map_map]
  rfl

/-- The tile with its only request taken out. -/
def Tile.unasked (q : Tile) : Tile := q.onDma (fun d => { d with reqs := [] })

/-- The tile with a request granted in a window (R259). -/
def Tile.grantRun (r : CredReq) (window : Nat) (w : Window) (q : Tile) : Tile :=
  q.onDma (fun d => { d with
    granted := d.granted ++ (List.range r.count).map (fun i => ⟨w.first + (w.ptr - w.first + i) % w.count, window, r.who, i⟩)
    windows := Tab.set none d.windows window (some { w with ptr := w.first + (w.ptr - w.first + r.count) % w.count }) })

theorem Tile.grantRun_window (r : CredReq) (window : Nat) (w : Window) (q : Tile) :
    Tab.get none (q.grantRun r window w).dma.windows window = some { w with ptr := w.first + (w.ptr - w.first + r.count) % w.count } :=
  Tab.get_set_self (d := none) q.dma.windows window (some _)

/-- The die with a request taken out at a tile and granted there, before it is answered. -/
def State.grantsAt (s : State) (t : Nat) (r : CredReq) (window : Nat) (w : Window) : State :=
  (s.onTile t (fun q => q.onDma (fun d => { d with reqs := d.reqs.erase r }))).onTile t (Tile.grantRun r window w)

variable {r : CredReq} {window : Nat}

theorem dropReq_tile (hreqs : (s.tile t).dma.reqs = [r]) :
    (s.onTile t (fun q => q.onDma (fun d => { d with reqs := d.reqs.erase r }))).tile t = (s.tile t).unasked := by
  simp only [State.tile_onTile, Tile.onDma, Tile.unasked, hreqs, List.erase_cons_head]

theorem grantsAt_tile (hreqs : (s.tile t).dma.reqs = [r]) (w : Window) :
    (s.grantsAt t r window w).tile t = (s.tile t).unasked.grantRun r window w := by
  rw [State.grantsAt, State.tile_onTile, dropReq_tile hreqs]

theorem grantsAt_other {v : Nat} (hv : v ≠ t) (w : Window) : (s.grantsAt t r window w).tile v = s.tile v := by
  rw [State.grantsAt, State.tile_onTile_other _ hv, State.tile_onTile_other _ hv]

/-- The allocator grants the only request, whose slots are free (R259). -/
theorem creditServe_grants {w : Window} (hreqs : (s.tile t).dma.reqs = [r]) (hrw : r.window = window)
    (hown : (s.tile t).spad.owner = some r.job) (hwin : Tab.get none (s.tile t).dma.windows window = some w) (hn : r.count ≤ w.count)
    (hfree : ∀ i, i < r.count → ((s.tile t).spad.slot (w.first + (w.ptr - w.first + i) % w.count)).tag = .empty
      ∧ ∀ g ∈ (s.tile t).dma.granted, g.slot ≠ w.first + (w.ptr - w.first + i) % w.count) :
    ∃ x : Grant, s.creditServe t window = (s.grantsAt t r window w).answerCredit r 1 t (some x) w.ptr
      ∧ x.die = s.pos ∧ x.tile = t ∧ x.window = window ∧ x.count = r.count ∧ x.revoked = false := by
  have hfind : (s.tile t).dma.reqs.find? (fun r => r.window == window) = some r := by simp [hreqs, hrw]
  have howner : ((s.tile t).spad.owner != some r.job) = false := by simp [hown]
  have hrun : (windowRun w r.count).all (fun k => ((s.tile t).spad.slot k).tag == .empty && !(s.tile t).isGranted k) = true := by
    simp only [windowRun, List.all_map, List.all_eq_true, List.mem_range, Function.comp_apply, Bool.and_eq_true, beq_iff_eq,
      Tile.isGranted, Bool.not_eq_true', List.any_eq_false]
    exact hfree
  refine ⟨⟨s.pos, ((s.grantsAt t r window w).coreOf t).getD 63, window, r.count, false, t⟩, ?_, rfl, rfl, rfl, rfl, rfl⟩
  simp only [State.creditServe, hfind, howner, hwin, if_neg (Nat.not_lt.2 hn), hrun, granted_run]
  rfl

/-- The allocator refuses the only request when its window has not opened in time (R260). -/
theorem creditTimeout_refuses (hreqs : (s.tile t).dma.reqs = [r]) (hrw : r.window = window)
    (hwin : Tab.get none (s.tile t).dma.windows window = none) (hlate : r.since + 10 ^ 5 ≤ s.now) :
    ∃ z : State, s.creditTimeout t window = z.answerCredit r 2 127 none 0 ∧ z.tile t = (s.tile t).unasked
      ∧ ∀ v, v ≠ t → z.tile v = s.tile v := by
  have hfind : (s.tile t).dma.reqs.find? (fun r => r.window == window) = some r := by simp [hreqs, hrw]
  refine ⟨_, ?_, dropReq_tile hreqs, fun v hv => State.tile_onTile_other _ hv _⟩
  simp only [State.creditTimeout, hfind, hwin, if_neg (Nat.not_lt.2 hlate)]

/-- Settles O19: the command's effect and its retirement; the allocator's tile and the requester's tile apart. -/
theorem slotTagsAndCredits : Obligations.SlotTagsAndCredits := by
  refine ⟨?commands, ?allocator⟩
  case commands =>
    intro s t e rest hw q w hq htk hroom ends first count
    refine ⟨fun hc hfree => ?_, fun hc hwin => ?_⟩
    · refine ⟨_, exec_dmaOther hw hq (by omega), ?_⟩
      obtain ⟨hmem, hslot⟩ := onSlots_run (tagOp (fld w 24 3)) q.spad first count
      obtain ⟨fq, -, -, fsp⟩ := retire_changed (f := Tile.tagRun (fld w 24 3) first count) hw hq rfl hroom
      rw [State.tile, State.tick_tiles, ← State.tile, dmaOther_tags hc htk hfree]
      refine ⟨fq, by rw [fsp]; exact hmem, fun i => ?_⟩
      rw [fsp]
      exact hslot i
    · refine ⟨_, exec_dmaOther hw hq (by omega), ?_⟩
      obtain ⟨fq, fwin, fgr, fsp⟩ :=
        retire_changed (f := Tile.openWindow (fld w 0 4) ⟨fld w 4 12, fld w 16 12 + 1, fld w 4 12⟩) hw hq rfl hroom
      rw [State.tile, State.tick_tiles, ← State.tile, dmaOther_open hc htk hwin]
      exact ⟨fq, by rw [fwin, Tile.openWindow_window], fsp, fgr⟩
  case allocator =>
    intro s t u window r e ht hu hut hwin hrun q hreqs hrw hport hstop hq hc hfl hans huid
    have hunit : (isTile t && decide (window < 16)) = true := by simp [isTile, Config.tiles, ht, hwin]
    refine ⟨fun w hown hw hn hfree => ?_, fun hnone hlate => ?_⟩
    · obtain ⟨x, hserve, hgrant⟩ := creditServe_grants hreqs hrw hown hw hn hfree
      obtain ⟨hother, hqu, hhandles⟩ := answerCredit_tile (s := s.grantsAt t r window w) hport hstop hu (by rw [grantsAt_other hut]; exact hq)
        hc hans huid 1 t w.ptr (some x)
      refine ⟨(s.grantsAt t r window w).answerCredit r 1 t (some x) w.ptr, ?_, ?_⟩
      · simp only [exec, execCreditAllocGrant, onUnit, hunit, hrun, hserve, if_true]
      · rw [hother t (Ne.symm hut), grantsAt_tile hreqs, hqu, hhandles]
        exact ⟨rfl, rfl, Tile.grantRun_window .., ⟨x, Tab.get_set_self .., hgrant⟩, rfl⟩
    · obtain ⟨z, hserve, hzt, hzo⟩ := creditTimeout_refuses hreqs hrw hnone hlate
      obtain ⟨hother, hqu, hhandles⟩ := answerCredit_tile hport hstop hu (by rw [hzo u hut]; exact hq) hc hans huid 2 127 0 none
      refine ⟨z.answerCredit r 2 127 none 0, ?_, ?_⟩
      · simp only [exec, execCreditWaitTimeout, onUnit, hunit, hrun, hserve, if_true]
      · rw [hother t (Ne.symm hut), hzt, hqu, hhandles, hzo u hut]
        exact ⟨rfl, rfl, rfl⟩

end Sys2Proof.Machine
end

section
/-!
PROOFS. Packets of other dies for a scratchpad and for a translation (R251, R259, R261, R265, R266, R358).
-/

namespace Sys2Proof.Machine

open Sys2Proof

variable {s z : State} {p t : Nat} {k : Packet}

/-! ### Answers of a state that has changed since the packet came in -/

/-- State `z` answers on port `p` as state `s` would: the port is `UP`, it has the same keying, and the die the same position. -/
structure State.AnswersAs (z s : State) (p : Nat) : Prop where
  cfg : z.cfg = s.cfg
  up : (z.port p).st = .up
  conf : (z.port p).confOn = (s.port p).confOn

theorem taken_answersAs (h : s.accepts p k = true) : (s.taken p k).AnswersAs s p :=
  ⟨(taken_mild s p k).cfg, taken_up h, (taken_mild s p k).conf p⟩

theorem State.AnswersAs.mild {z' : State} (h : z.AnswersAs s p) (m : Mild z z') : z'.AnswersAs s p :=
  ⟨m.cfg.trans h.cfg, (m.st p).trans h.up, (m.conf p).trans h.conf⟩

theorem State.AnswersAs.onTile (h : z.AnswersAs s p) (f : Tile → Tile) : (z.onTile t f).AnswersAs s p := ⟨h.cfg, h.up, h.conf⟩

theorem State.AnswersAs.packet (h : z.AnswersAs s p) (cls ptype dst stop : Nat) : z.packet cls ptype dst stop = s.packet cls ptype dst stop := by
  simp only [State.packet, pos_of_cfg h.cfg]

/-- The answer goes out on the port. -/
theorem State.AnswersAs.holds (h : z.AnswersAs s p) (k a : Packet) : (z.reply p k a).holds p (s.answerTo p k a) := by
  have := reply_holds k a (Mild.refl z) h.up
  rwa [State.answerTo, h.conf] at this

/-- An answer leaves the tiles alone. -/
theorem reply_tiles (z : State) (p : Nat) (k a : Packet) : (z.reply p k a).tiles = z.tiles := (reply_mild z p k a).tiles

theorem tile_of_tiles (h : z.tiles = s.tiles) (t : Nat) : z.tile t = s.tile t := by simp only [State.tile, h]

theorem taken_tile (s : State) (p : Nat) (k : Packet) (t : Nat) : (s.taken p k).tile t = s.tile t := tile_of_tiles (taken_mild s p k).tiles t

theorem taken_core (s : State) (p : Nat) (k : Packet) (c : Nat) : (s.taken p k).core c = s.core c := by
  simp only [State.core, (taken_mild s p k).cores]

/-! ### Reads of a scratchpad (R251, R265, R266) -/

theorem reach_owner {job core : Nat} (hmap : (s.core core).st = .mapped) (htile : (s.core core).tile = t)
    (hown : (s.tile t).spad.owner = some job) : s.reach job core = .ok t := by
  simp [State.reach, hmap, htile, hown]

theorem reach_stranger {job core : Nat} (hmap : (s.core core).st = .mapped) (htile : (s.core core).tile = t)
    (hown : (s.tile t).spad.owner ≠ some job) : s.reach job core = .stop (.refused s.pos core) := by
  simp [State.reach, hmap, htile, hown]

theorem spRead_reads (hr : s.reach k.job (bitsOf k.addr 24 6) = .ok t) (hseal : (s.tile t).spad.sealed = false) (haux : k.aux % 2 = 0)
    (hread : (s.tile t).spad.canReadRange (bitsOf k.addr 0 24) k.len = true) :
    s.spRead p k = s.reply p k (withData (s.packet 1 0 k.srcDie t) ((s.tile t).spad.mem.rdBytes (bitsOf k.addr 0 24) k.len)) := by
  simp [State.spRead, hr, hseal, haux, hread]

theorem spRead_releases (hr : s.reach k.job (bitsOf k.addr 24 6) = .ok t) (hseal : (s.tile t).spad.sealed = false) (haux : k.aux % 2 = 1) :
    s.spRead p k = (s.onTile t (fun q => { q with spad := q.spad.release (bitsOf k.addr 0 24 / 4096) })).reply p k
      (withData (s.packet 1 0 k.srcDie t) ((s.tile t).spad.mem.rdBytes (bitsOf k.addr 0 24) k.len)) := by
  simp [State.spRead, hr, hseal, haux]

theorem spRead_refuses {d c : Nat} (hr : s.reach k.job (bitsOf k.addr 24 6) = .stop (.refused d c)) :
    ∃ y, Mild s y ∧ s.spRead p k = y.reply p k { y.packet 1 1 k.srcDie 120 with aux := 3 } := by
  refine ⟨_, refusedEvent_mild s k.job k.srcDie 63 (s.pos + bitsOf k.addr 24 6 * 2 ^ 8) 2, ?_⟩
  simp only [State.spRead, hr]

/-! ### Requests for credits (R259, R262) -/

theorem resetFills_facts (l : List Granted) (q : Tile) :
    let q' := l.foldl (fun q g => q.resetFill g.slot) q
    q'.dma.reqs = q.dma.reqs ∧ q'.dma.granted = q.dma.granted ∧ q'.spad.owner = q.spad.owner := by
  induction l generalizing q with
  | nil => exact ⟨rfl, rfl, rfl⟩
  | cons g l ih =>
    obtain ⟨hr, hg, ho⟩ := ih (q.resetFill g.slot)
    have hone : (q.resetFill g.slot).dma.reqs = q.dma.reqs ∧ (q.resetFill g.slot).dma.granted = q.dma.granted
        ∧ (q.resetFill g.slot).spad.owner = q.spad.owner := by
      simp only [Tile.resetFill]
      split <;> exact ⟨rfl, rfl, rfl⟩
    exact ⟨hr.trans hone.1, hg.trans hone.2.1, ho.trans hone.2.2⟩

/-- What taking credits back does to a tile (R254, R262). -/
theorem takeCredits_facts (q : Tile) (f : Granted → Bool) :
    (q.takeCredits f).dma.reqs = q.dma.reqs ∧ (q.takeCredits f).dma.granted = q.dma.granted.filter (fun g => !f g)
    ∧ (q.takeCredits f).spad.owner = q.spad.owner ∧ ((∀ g ∈ q.dma.granted, f g = false) → (q.takeCredits f).spad = q.spad) := by
  obtain ⟨hr, hg, ho⟩ := resetFills_facts (q.dma.granted.filter f)
    (q.onDma (fun d => { d with granted := d.granted.filter (fun g => !f g) }))
  refine ⟨hr, hg, ho, fun hnone => ?_⟩
  have hback : q.dma.granted.filter f = [] := List.filter_eq_nil_iff.2 fun g hg => by simp [hnone g hg]
  simp only [Tile.takeCredits, hback, List.foldl_nil]
  rfl

/-- Credits return from every tile of the die. -/
theorem returnCredits_tile (s : State) (w : Writer) (t : Nat) :
    (s.returnCredits w).tile t = (s.tile t).takeCredits (fun x => x.who == w) := by
  simp only [State.tile, State.returnCredits]
  induction s.tiles with
  | nil => rfl
  | cons e l ih =>
    simp only [List.map_cons, Tab.get]
    split
    · rfl
    · exact ih

/-- The request that a packet of another die makes at an allocator, and the writer that it names (R259, R396). -/
def creditWriter (k : Packet) : Writer := ⟨k.srcDie, k.srcStop, bitsOf k.addr 34 4⟩

theorem creditReq_queues (hn : bitsOf k.addr 38 12 ≠ 0) (hmap : (s.core (bitsOf k.addr 24 6)).st = .mapped)
    (htile : (s.core (bitsOf k.addr 24 6)).tile = t) (hown : (s.tile t).spad.owner = some k.job) :
    s.creditReq p k = (s.returnCredits (creditWriter k)).onTile t (fun q => q.onDma (fun d => { d with reqs := d.reqs ++
      [⟨(creditWriter k), k.job, bitsOf k.addr 30 4, bitsOf k.addr 38 12, 63, s.now, 0, some (p, k)⟩] })) := by
  have hr : (s.returnCredits (creditWriter k)).reach k.job (bitsOf k.addr 24 6) = .ok t := by
    refine reach_owner hmap htile ?_
    rw [returnCredits_tile, (takeCredits_facts _ _).2.2.1]
    exact hown
  simp only [State.creditReq, if_neg hn]
  rw [← creditWriter, hr]
  rfl

theorem creditReq_returns (hn : bitsOf k.addr 38 12 = 0) :
    s.creditReq p k = (s.returnCredits (creditWriter k)).reply p k (s.packet 1 3 k.srcDie 121) := by
  simp only [State.creditReq, if_pos hn]
  rfl

/-! ### Writes under credit (R251, R261) -/

section
variable {decl : Nat} (hmap : (s.core (bitsOf k.addr 24 6)).st = .mapped) (htile : (s.core (bitsOf k.addr 24 6)).tile = t)
  (hseal : (s.tile t).spad.sealed = false) (hpoison : k.poison = false)
include hmap htile hseal hpoison

theorem spWrite_accepts {q' : Tile} (hacc : acceptWrite (s.tile t) ⟨k.srcDie, k.srcStop, bitsOf k.addr 30 4⟩ (bitsOf k.addr 0 24)
      (fun _ => decl) ((k.data ++ List.replicate k.len 0).take k.len) (k.len / 4096 + 2) = some (q', true)) :
    s.spWrite p k decl = (s.onTile t (fun _ => q')).reply p k { s.packet 1 2 k.srcDie 120 with aux := 0 } := by
  simp only [State.spWrite, hmap, htile, hseal, hpoison, hacc]
  rfl

theorem spWrite_refuses (hacc : acceptWrite (s.tile t) ⟨k.srcDie, k.srcStop, bitsOf k.addr 30 4⟩ (bitsOf k.addr 0 24)
      (fun _ => decl) ((k.data ++ List.replicate k.len 0).take k.len) (k.len / 4096 + 2) = none) :
    s.spWrite p k decl = s.reply p k { s.packet 1 2 k.srcDie 120 with aux := 1 } := by
  simp only [State.spWrite, hmap, htile, hseal, hpoison, hacc]
  rfl

end

/-! ### Translations (R358) -/

/-- Taking a packet in changes neither what holds a translation back nor the homes that it answers. -/
theorem taken_homes (s : State) (p : Nat) (k : Packet) (addr : Nat) :
    (s.taken p k).held addr 1 = s.held addr 1 ∧ (s.taken p k).homesData addr = s.homesData addr ∧ (s.taken p k).pos = s.pos := by
  obtain ⟨P, T, h⟩ := taken_shape s p k
  rw [h]
  exact ⟨rfl, rfl, rfl⟩

theorem xlateReq_answers (h : ownerOf k.addr = s.pos → s.held k.addr 1 = false) :
    s.xlateReq p k = s.reply p k (withData { s.packet 1 5 k.srcDie 121 with addr := k.addr } (s.homesData k.addr)) := by
  have hcond : (ownerOf k.addr == s.pos && s.held k.addr 1) = false := by
    by_cases ho : ownerOf k.addr = s.pos
    · simp [h ho]
    · simp [ho]
  simp [State.xlateReq, hcond]

/-- The homes of an address that is in no object of this die. -/
theorem homesData_unknown {addr : Nat} (h : isHostAddr addr = true ∨ ownerOf addr ≠ s.pos ∨ findObj addr s.kw.objs = none) :
    s.homesData addr = List.replicate 32 0 := by
  have hnone : (if ownerOf addr == s.pos && !isHostAddr addr then findObj addr s.kw.objs else none) = none := by
    rcases h with h | h | h <;> simp [h]
  simp only [State.homesData, hnone]

/-- The homes of an address in an object of this die. -/
theorem homesData_known {addr i : Nat} {o : Obj} (hhost : isHostAddr addr = false) (hown : ownerOf addr = s.pos)
    (hobj : findObj addr s.kw.objs = some (i, o)) :
    s.homesData addr = leBytes 4 (o.job + bit1 o.exec * 2 ^ 12 + bit1 o.sharedRo * 2 ^ 13 + bit1 o.nc * 2 ^ 14
        + bit1 (o.st == .active || o.st == .migrating) * 2 ^ 15)
      ++ leBytes 4 (o.granules - (addr - o.pbase) / granuleBytes)
      ++ ((o.homes.drop ((addr - o.pbase) / granuleBytes) ++ List.replicate 24 0).take 24).map (BitVec.ofNat 8) := by
  have hsome : (if ownerOf addr == s.pos && !isHostAddr addr then findObj addr s.kw.objs else none) = some (i, o) := by
    simp [hhost, hown, hobj]
  simp only [State.homesData, hsome]

/-- Settles O31: each packet acts on the state in which it was taken in, and its answer goes out on the port that it came in on. -/
theorem scratchpadPacketsOfOtherDies : Obligations.ScratchpadPacketsOfOtherDies := by
  intro s p t k0 decl core a q
  refine ⟨?read, ?credit, ?write, ?translate⟩
  case read =>
    intro k hacc hmap htile hseal
    have hz := taken_answersAs hacc
    have hmap' : ((s.taken p k).core core).st = .mapped := by rw [taken_core]; exact hmap
    have htile' : ((s.taken p k).core core).tile = t := by rw [taken_core]; exact htile
    have hq := taken_tile s p k t
    have hexec : exec (.spRd p k0) s = .next ((s.taken p k).spRead p k) := receive_taken hacc _
    refine ⟨fun hown haux hread => ?_, fun hown haux => ?_, fun hown => ?_⟩
    · have hr := reach_owner hmap' htile' (job := k.job) (by rw [hq]; exact hown)
      rw [spRead_reads hr (by rw [hq]; exact hseal) haux (by rw [hq]; exact hread), hz.packet, hq] at hexec
      exact ⟨_, hexec, (reply_tiles ..).trans (taken_mild s p k).tiles, hz.holds k _⟩
    · have hr := reach_owner hmap' htile' (job := k.job) (by rw [hq]; exact hown)
      rw [spRead_releases hr (by rw [hq]; exact hseal) haux, hz.packet, hq] at hexec
      refine ⟨_, hexec, ?_, fun u hu => ?_, (hz.onTile _).holds k _⟩
      · rw [tile_of_tiles (reply_tiles ..), State.tile_onTile, hq]; rfl
      · rw [tile_of_tiles (reply_tiles ..), State.tile_onTile_other _ hu, taken_tile]
    · obtain ⟨y, hy, hno⟩ := spRead_refuses (p := p) (reach_stranger hmap' htile' (job := k.job) (by rw [hq]; exact hown))
      rw [hno, (hz.mild hy).packet] at hexec
      exact ⟨_, hexec, ((reply_tiles ..).trans hy.tiles).trans (taken_mild s p k).tiles, (hz.mild hy).holds k _⟩
  case credit =>
    intro k who hacc
    have hz := taken_answersAs hacc
    have hexec : exec (.credReq p k0) s = .next ((s.taken p k).creditReq p k) := receive_taken hacc _
    have hback := returnCredits_tile (s.taken p k) (creditWriter k) t
    obtain ⟨freqs, fgranted, -, fspad⟩ := takeCredits_facts (s.tile t) (fun x => x.who == who)
    rw [taken_tile] at hback
    refine ⟨fun hn hmap htile hown => ?_, fun hn => ?_⟩
    · rw [creditReq_queues (t := t) hn (by rw [taken_core]; exact hmap) (by rw [taken_core]; exact htile) (by rw [taken_tile]; exact hown)] at hexec
      refine ⟨_, hexec, ?_⟩
      rw [State.tile_onTile, hback]
      have hnow : (s.taken p k).now = s.now := congrArg Time.ts (taken_mild s p k).time
      rw [hnow]
      exact ⟨congrArg (· ++ _) freqs, fgranted, fun hnone => fspad fun g hg => by simp [hnone g hg]⟩
    · rw [creditReq_returns hn, hz.packet] at hexec
      have hret : ((s.taken p k).returnCredits (creditWriter k)).AnswersAs s p := ⟨hz.cfg, hz.up, hz.conf⟩
      refine ⟨_, hexec, hret.holds k _, ?_⟩
      rw [tile_of_tiles (reply_tiles ..), hback]
      exact ⟨freqs, fgranted⟩
  case write =>
    intro k bs who hacc hmap htile hseal hpoison
    have hz := taken_answersAs hacc
    have hmap' : ((s.taken p k).core core).st = .mapped := by rw [taken_core]; exact hmap
    have htile' : ((s.taken p k).core core).tile = t := by rw [taken_core]; exact htile
    have hq := taken_tile s p k t
    have hseal' : ((s.taken p k).tile t).spad.sealed = false := by rw [hq]; exact hseal
    have hexec : exec (.spWr p k0 decl) s = .next ((s.taken p k).spWrite p k decl) := receive_taken hacc _
    refine ⟨fun q' hok => ?_, fun hno => ?_⟩
    · rw [spWrite_accepts (k := k) hmap' htile' hseal' hpoison (by rw [hq]; exact hok), hz.packet] at hexec
      refine ⟨_, hexec, ?_, (hz.onTile _).holds k _⟩
      rw [tile_of_tiles (reply_tiles ..), State.tile_onTile]
    · rw [spWrite_refuses (k := k) hmap' htile' hseal' hpoison (by rw [hq]; exact hno), hz.packet] at hexec
      exact ⟨_, hexec, (reply_tiles ..).trans (taken_mild s p k).tiles, hz.holds k _⟩
  case translate =>
    intro k hacc
    have hz := taken_answersAs hacc
    obtain ⟨hheld, hhomes, hpos⟩ := taken_homes s p k k.addr
    have hexec : exec (.xlate p k0) s = .next ((s.taken p k).xlateReq p k) := receive_taken hacc _
    have hanswer : ∀ bs, (ownerOf k.addr = s.pos → s.held k.addr 1 = false) → s.homesData k.addr = bs →
        ∃ s', exec (.xlate p k0) s = .next s' ∧ s'.tiles = s.tiles ∧ s'.kw = s.kw
          ∧ s'.holds p (s.answerTo p k (withData { s.packet 1 5 k.srcDie 121 with addr := k.addr } bs)) := by
      intro bs hfree hbs
      rw [xlateReq_answers (by rw [hpos, hheld]; exact hfree), hz.packet, hhomes, hbs] at hexec
      have hkw := (reply_mem (z := s.taken p k) k (withData { s.packet 1 5 k.srcDie 121 with addr := k.addr } bs) (taken_mild s p k)
        (accepts_up hacc)).2.2
      exact ⟨_, hexec, (reply_tiles ..).trans (taken_mild s p k).tiles, hkw.trans (taken_mem s p k).2.2.1, hz.holds k _⟩
    refine ⟨fun i o hhost hown hfree hobj => ?_, fun hunknown hfree => ?_⟩
    · exact hanswer _ (fun _ => hfree) (homesData_known hhost hown hobj)
    · exact hanswer _ hfree (homesData_unknown hunknown)

end Sys2Proof.Machine
end

section
/-!
PROOFS. Answers to this die's open transactions, and invalidations of its remote-data cache (R259, R264, R374, R376, R377, R394, R396,
R401).
-/

namespace Sys2Proof.Machine

open Sys2Proof

variable {s z : State} {p t : Nat} {k : Packet} {o : OpenTx} {e : QEntry}

/-! ### Answers (R394) -/

/-- The state in which an answer acts: it has been taken in, and its transaction has closed. -/
def State.closed (s : State) (p : Nat) (k : Packet) : State := (s.taken p k).setTx k.tag none

/-- An answer to an open transaction of the right kind, sent once, closes it and acts. -/
theorem answered_open (htx : s.tx k.tag = some o) (hsent : o.resent = false) {fits : Packet → Bool} (hfits : fits o.pkt = true)
    (f : State → OpenTx → State) : (s.taken p k).answered k fits f = f (s.closed p k) o := by
  have htaken : (s.taken p k).tx k.tag = some o := by
    rw [State.tx, (taken_mem s p k).2.1]
    exact htx
  simp only [State.answered, htaken, hfits, State.closeTx, hsent]
  rfl

/-- An instruction that takes such an answer in ends in what the answer makes of the state. -/
theorem exec_answer {c : Instr} {fits : Packet → Bool} {f : State → OpenTx → State} (hacc : s.accepts p k = true)
    (hexec : exec c s = onUnit (isPort p) p (s.receive p k (fun s => s.answered k fits f))) (htx : s.tx k.tag = some o)
    (hsent : o.resent = false) (hfits : fits o.pkt = true) : exec c s = .next (f (s.closed p k) o) := by
  rw [hexec, receive_taken hacc, answered_open htx hsent hfits]

/-- A closed transaction stays closed while the transactions stay as they are. -/
theorem tx_closed (h : z.rdc.opens = (s.closed p k).rdc.opens) : z.tx k.tag = none := by
  have : Tab.get none z.rdc.opens k.tag = none := by rw [h]; exact setTx_get ..
  simp only [State.tx, this]

theorem closed_tiles (s : State) (p : Nat) (k : Packet) : (s.closed p k).tiles = s.tiles := (taken_mild s p k).tiles

theorem closed_held (s : State) (p : Nat) (k : Packet) : (s.closed p k).rdc.held = s.rdc.held := by
  have := congrArg Rdc.held (taken_mem s p k).2.1
  exact this

/-! ### The command that a transaction works for -/

/-- The tile with the core DMA command of an identity changed. -/
def Tile.onUid (uid : Nat) (f : QEntry → QEntry) (q : Tile) : Tile :=
  q.onDma (fun d => { d with q := d.q.map (fun e => if e.uid == uid then f e else e) })

theorem onWork_tile (htile : o.tile = t) (ht : t < 72) (f : QEntry → QEntry) : z.onWork o f = z.onTile t (Tile.onUid o.uid f) := by
  simp only [State.onWork, htile, Config.tiles, if_pos ht]
  rfl

theorem workAcked_tile (ht : t < 72) (uid : Nat) :
    z.workAcked t uid = z.onTile t (Tile.onUid uid (fun e => { e with loadRows := e.loadRows - 1 })) := by
  simp only [State.workAcked, Config.tiles, if_pos ht]
  rfl

theorem tile_not_fetch (htile : o.tile = t) (ht : t < 72) : (o.tile == fetchTx) = false := by
  have : t ≠ fetchTx := by unfold fetchTx; omega
  simp [htile, this]

/-- A reason of an error or refusal goes to the command of the tile (R394, R396). -/
theorem failTx_tile (htile : o.tile = t) (ht : t < 72) (hcls : o.pkt.cls ≠ 3) (ans : Nat) :
    z.failTx o ans = z.onTile t (Tile.onUid o.uid (fun e => e.fail ans)) := by
  have hsrc : o.src = none := by simp [OpenTx.src, hcls]
  simp only [State.failTx, hsrc, tile_not_fetch htile ht, onWork_tile htile ht]
  rfl

theorem fail_unanswered (hans : e.ans = 0) (ans : Nat) : e.fail ans = { e with ans := ans } := by
  simp [QEntry.fail, hans]

/-- Data that is not for the cache goes to the command of the tile (R265). -/
theorem takeData_tile (htile : o.tile = t) (ht : t < 72) (hpt : o.pkt.ptype = 1) :
    z.takeData o k = z.onTile t (Tile.onUid o.uid (fun e =>
      { e with buf := e.buf.wrBytes o.off (k.data.take o.pkt.len), owed := e.owed - 1 })) := by
  simp only [State.takeData, hpt, tile_not_fetch htile ht]
  simp [onWork_tile htile ht]

/-- The acknowledgement of a write is taken off what its command awaits (R401). -/
theorem takeAck_done (htile : o.tile = t) (ht : t < 72) (hpt : o.pkt.ptype = 0) :
    z.takeAck o 0 = z.onTile t (Tile.onUid o.uid (fun e => { e with loadRows := e.loadRows - 1 })) := by
  simp only [State.takeAck, hpt, htile, ← workAcked_tile ht]
  rfl

theorem takeGrant_tile (htile : o.tile = t) (ht : t < 72) :
    z.takeGrant o k = z.onTile t (fun q => q.answerReq o.uid (bitsOf o.pkt.addr 34 4) 1 127
      (some ⟨o.pkt.dstDie, bitsOf o.pkt.addr 24 6, bitsOf o.pkt.addr 30 4, bitsOf k.addr 12 12, false, 127⟩)) := by
  simp only [State.takeGrant, htile, Config.tiles, if_pos ht]

/-- The only command of a tile has changed and the transaction has closed; the scratchpad is as it was. -/
theorem work_ends {c : Instr} {f : QEntry → QEntry} (hq : (s.tile t).dma.q = [e]) (huid : e.uid = o.uid)
    (hexec : exec c s = .next ((s.closed p k).onTile t (Tile.onUid o.uid f))) :
    ∃ s', exec c s = .next s' ∧ s'.tx k.tag = none ∧ (s'.tile t).dma.q = [f e] ∧ (s'.tile t).spad = (s.tile t).spad := by
  refine ⟨_, hexec, tx_closed rfl, ?_⟩
  rw [State.tile_onTile, tile_of_tiles (closed_tiles s p k)]
  simp [Tile.onUid, Tile.onDma, hq, huid]

theorem work_fails {c : Instr} {ans : Nat} (hq : (s.tile t).dma.q = [e]) (huid : e.uid = o.uid) (hans : e.ans = 0)
    (htile : o.tile = t) (ht : t < 72) (hcls : o.pkt.cls ≠ 3) (hexec : exec c s = .next ((s.closed p k).failTx o ans)) :
    ∃ s', exec c s = .next s' ∧ s'.tx k.tag = none ∧ (s'.tile t).dma.q = [{ e with ans := ans }]
      ∧ (s'.tile t).spad = (s.tile t).spad := by
  rw [failTx_tile htile ht hcls] at hexec
  simpa only [fail_unanswered hans] using work_ends hq huid hexec

/-! ### Granule homes (R358) -/

theorem insert_length {α : Type} (m : Tab α) (j : Nat) (v : α) : (Tab.insert m j v).length ≤ m.length + 1 := by
  induction m with
  | nil => simp [Tab.insert]
  | cons x r ih =>
    simp only [Tab.insert]
    split
    · simp
    · split
      · simp
      · simpa using ih

/-- A translation enters a cache that has room for it. -/
theorem addXlate_room {g : Nat} {x : Xlate} (h : s.kw.xlate.length < xlateMax) :
    (∀ j, Tab.get none (s.addXlate g x).kw.xlate j = if j = g then some x else Tab.get none s.kw.xlate j)
    ∧ (s.addXlate g x).kw.xlate.length ≤ s.kw.xlate.length + 1 ∧ (s.addXlate g x).tiles = s.tiles ∧ (s.addXlate g x).rdc = s.rdc := by
  have hroom : ((Tab.get none s.kw.xlate g).isNone && decide (xlateMax ≤ s.kw.xlate.length)) = false := by
    simp [Nat.not_le.2 h]
  have hx : (s.addXlate g x).kw.xlate = Tab.set none s.kw.xlate g (some x) := by
    simp only [State.addXlate, hroom]
    rfl
  refine ⟨fun j => by rw [hx, Tab.get_set], ?_, rfl, rfl⟩
  rw [hx]
  simp only [Tab.set, reduceCtorEq, if_false]
  exact insert_length ..

/-- A run of translations enters a cache that has room for it. -/
theorem addXlates_room (x : Nat → Xlate) (g n : Nat) (h : s.kw.xlate.length + n ≤ xlateMax) :
    let s' := (List.range n).foldl (fun s i => s.addXlate (g + i) (x i)) s
    (∀ i, i < n → Tab.get none s'.kw.xlate (g + i) = some (x i)) ∧ s'.kw.xlate.length ≤ s.kw.xlate.length + n
      ∧ s'.tiles = s.tiles ∧ s'.rdc = s.rdc := by
  induction n with
  | zero => exact ⟨fun i hi => absurd hi (Nat.not_lt_zero i), Nat.le_refl _, rfl, rfl⟩
  | succ n ih =>
    obtain ⟨hget, hlen, htiles, hrdc⟩ := ih (by omega)
    rw [List.range_succ, List.foldl_append]
    simp only [List.foldl_cons, List.foldl_nil]
    obtain ⟨hone, hlen1, ht1, hr1⟩ := addXlate_room (s := (List.range n).foldl (fun s i => s.addXlate (g + i) (x i)) s)
      (g := g + n) (x := x n) (by omega)
    refine ⟨fun i hi => ?_, by omega, ht1.trans htiles, hr1.trans hrdc⟩
    rw [hone]
    by_cases hin : i = n
    · rw [if_pos (by omega), hin]
    · rw [if_neg (by omega), hget i (by omega)]

/-- The translation that an answer's header word and a home stack give (log 13). -/
def xlateOf (bs : List Byte) (stack left : Nat) : Xlate :=
  let w := leNat (bs.take 4)
  { stack := stack, job := bitsOf w 0 12, exec := w.testBit 12, sharedRo := w.testBit 13, nc := w.testBit 14, left := left }

/-- Granule homes enter the translations; an object that is not `ACTIVE` is held as one granule (R358). -/
theorem takeHomes_room {g : Nat} {bs : List Byte} (hhost : isHostAddr (g * granuleBytes) = false)
    (hown : ownerOf (g * granuleBytes) ≠ s.pos) (h : s.kw.xlate.length + 24 ≤ xlateMax) :
    let s' := s.takeHomes g bs
    s'.tiles = s.tiles ∧ s'.rdc = s.rdc
    ∧ ((leNat (bs.take 4)).testBit 15 = true → ∀ i, i < min (leNat ((bs.drop 4).take 4)) 24 →
        Tab.get none s'.kw.xlate (g + i) = some (xlateOf bs ((bs[8 + i]?.getD 0).toNat % 32) (leNat ((bs.drop 4).take 4) - i)))
    ∧ ((leNat (bs.take 4)).testBit 15 = false →
        Tab.get none s'.kw.xlate g = some (xlateOf bs (4 * ownerOf (g * granuleBytes)) 0)) := by
  have hmine : (isHostAddr (g * granuleBytes) || ownerOf (g * granuleBytes) == s.pos) = false := by simp [hhost, hown]
  obtain ⟨hget1, -, ht1, hr1⟩ := addXlate_room (s := s) (g := g) (x := xlateOf bs (4 * ownerOf (g * granuleBytes)) 0) (by omega)
  by_cases hleft : (if (leNat (bs.take 4)).testBit 15 then leNat ((bs.drop 4).take 4) else 0) = 0
  · have hs : s.takeHomes g bs = s.addXlate g (xlateOf bs (4 * ownerOf (g * granuleBytes)) 0) := by
      simp only [State.takeHomes, hmine, Bool.false_eq_true, if_false, if_pos hleft]
      rw [hleft]
      rfl
    rw [hs]
    refine ⟨ht1, hr1, fun hbit i hi => ?_, fun _ => by rw [hget1, if_pos rfl]⟩
    rw [if_pos hbit] at hleft
    omega
  · have hbit : (leNat (bs.take 4)).testBit 15 = true := by
      by_contra hno
      exact hleft (if_neg hno)
    rw [if_pos hbit] at hleft
    have hs : s.takeHomes g bs = (List.range (min (leNat ((bs.drop 4).take 4)) 24)).foldl (fun s i =>
        s.addXlate (g + i) (xlateOf bs ((bs[8 + i]?.getD 0).toNat % 32) (leNat ((bs.drop 4).take 4) - i))) s := by
      simp only [State.takeHomes, hmine, Bool.false_eq_true, if_false, if_pos hbit, if_neg hleft]
      rfl
    obtain ⟨hget, -, ht, hr⟩ := addXlates_room (s := s)
      (fun i => xlateOf bs ((bs[8 + i]?.getD 0).toNat % 32) (leNat ((bs.drop 4).take 4) - i)) g (min (leNat ((bs.drop 4).take 4)) 24)
      (by omega)
    rw [hs]
    exact ⟨ht, hr, fun _ => hget, fun hno => by simp [hbit] at hno⟩

/-! ### Invalidations (R374, R376, R377) -/

/-- What dropping lines does to the remote-data cache and to the misses under way. -/
theorem dropLines_facts (z : State) (ls : List Nat) :
    (∀ l, Tab.get none (z.dropLines ls).rdc.lines l = if l ∈ ls then none else Tab.get none z.rdc.lines l)
    ∧ ∀ tag o, (tag, some o) ∈ (z.dropLines ls).rdc.opens → o.pkt.cls = 0 → o.pkt.ptype = 0 → o.pkt.addr / 256 ∈ ls →
        o.noInstall = true := by
  refine ⟨fun l => foldl_drop ls z.rdc.lines l, fun tag o ho hcls hpt hin => ?_⟩
  simp only [State.dropLines, List.mem_map, Prod.mk.injEq] at ho
  obtain ⟨⟨j, x⟩, -, -, hx⟩ := ho
  obtain ⟨y, rfl, hy⟩ := Option.map_eq_some_iff.1 hx
  by_cases hc : (y.pkt.cls == 0 && y.pkt.ptype == 0 && ls.contains (y.pkt.addr / 256)) = true
  · rw [if_pos hc] at hy
    subst hy
    rfl
  · rw [if_neg hc] at hy
    subst hy
    simp [hcls, hpt, hin] at hc

/-- An invalidation drops the lines that it names, keeps every other, and is acknowledged. -/
theorem inv_acked {c : Instr} {ls : List Nat} (hacc : s.accepts p k = true)
    (hexec : exec c s = .next (((s.taken p k).dropLines ls).invAck p k)) (named : Nat → Prop) [DecidablePred named]
    (hnamed : ∀ l, l ∈ ls ↔ named l) :
    ∃ s', exec c s = .next s' ∧ s'.mem = s.mem ∧ s'.tiles = s.tiles
      ∧ s'.holds p (s.answerTo p k (s.packet 1 8 k.srcDie 120))
      ∧ (∀ l, Tab.get none s'.rdc.lines l = if named l then none else Tab.get none s.rdc.lines l)
      ∧ (∀ tag o, (tag, some o) ∈ s'.rdc.opens → o.pkt.cls = 0 → o.pkt.ptype = 0 → named (o.pkt.addr / 256) → o.noInstall = true) := by
  obtain ⟨hlines, hopens⟩ := dropLines_facts (s.taken p k) ls
  obtain ⟨hmem, hrdc, -, -⟩ := taken_mem s p k
  have hmild : Mild s ((s.taken p k).dropLines ls) := (taken_mild s p k).trans (rdc_mild _ _)
  have hz := (taken_answersAs hacc).mild (rdc_mild (s.taken p k) ((s.taken p k).dropLines ls).rdc)
  have hans : ((s.taken p k).dropLines ls).invAck p k = ((s.taken p k).dropLines ls).reply p k (s.packet 1 8 k.srcDie 120) := by
    rw [State.invAck]
    exact congrArg _ (hz.packet ..)
  obtain ⟨rmem, rrdc, -⟩ := reply_mem k (s.packet 1 8 k.srcDie 120) hmild (accepts_up hacc)
  rw [hans] at hexec
  refine ⟨_, hexec, rmem.trans hmem, (reply_tiles ..).trans hmild.tiles, hz.holds k _, fun l => ?_, fun tag o ho hcls hpt hin => ?_⟩
  · rw [rrdc, hlines, hrdc]
    exact if_congr (hnamed l) rfl rfl
  · rw [rrdc] at ho
    exact hopens tag o ho hcls hpt ((hnamed _).2 hin)

/-- The lines of a 4 KiB block that a mask names (R377). -/
theorem mem_blockLines {b mask l : Nat} :
    l ∈ (bitList mask 16).map (fun i => b * 16 + i) ↔ l / 16 = b ∧ mask.testBit (l % 16) = true := by
  simp only [List.mem_map, bitList_mem]
  constructor
  · rintro ⟨i, ⟨hi, hbit⟩, rfl⟩
    have h1 : (b * 16 + i) / 16 = b := by omega
    have h2 : (b * 16 + i) % 16 = i := by omega
    rw [h1, h2]
    exact ⟨rfl, hbit⟩
  · rintro ⟨rfl, hbit⟩
    exact ⟨l % 16, ⟨by omega, hbit⟩, by omega⟩

/-- The state with no acknowledgement awaited and nothing due. -/
def State.settled (z : State) : State := { z with rdc := { z.rdc with invs := [], dues := [] } }

/-- The last acknowledgement that a write awaits sends the write's own answer out (R374, R401). -/
theorem takeInvAck_last {w : InvWait} {x : InvDue} {a : Packet} (hinvs : z.rdc.invs = [w]) (htag : w.tag = k.tag) (hdie : w.die = k.srcDie)
    (hheld : z.rdc.held = []) (hdues : z.rdc.dues = [x]) (hport : x.port = p) (hreply : x.reply = some a) (hup : (z.port p).st = .up) :
    z.takeInvAck k = z.settled.sendOn p a := by
  have hrest : z.rdc.invs.filter (fun w => !(w.tag == k.tag && w.die == k.srcDie)) = [] := by
    simp only [hinvs, htag, hdie, beq_self_eq_true, Bool.and_self, Bool.not_true, List.filter_cons, Bool.false_eq_true, if_false,
      List.filter_nil]
  have hdue : z.settled.due x
      = z.settled.sendOn p a := by
    have hst : ((z.settled.port p).st == .up) = true := by
      show ((z.port p).st == .up) = true
      rw [hup]; rfl
    simp only [State.due, hreply, hport, State.sendDue, hst, Bool.true_or, if_true]
  have hsettle : ({ z with rdc := { z.rdc with invs := z.rdc.invs.filter (fun w => !(w.tag == k.tag && w.die == k.srcDie)) } } : State).settleInvs
      = z.settled.sendOn p a := by
    rw [← hdue]
    simp only [State.settleInvs, hrest, hdues]
    rfl
  rw [State.takeInvAck, hsettle]
  refine serveHeld_none ?_
  rw [(sendOn_mem _ _ _).2.1]
  exact hheld

theorem invAck_last {k0 : Packet} {w : InvWait} {x : InvDue} {a : Packet} (hacc : s.accepts p (asType k0 1 8) = true)
    (hinvs : s.rdc.invs = [w]) (htag : w.tag = k0.tag) (hdie : w.die = k0.srcDie) (hheld : s.rdc.held = []) (hdues : s.rdc.dues = [x])
    (hport : x.port = p) (hreply : x.reply = some a) :
    ∃ s', exec (.invAck p k0) s = .next s' ∧ s'.rdc.invs = [] ∧ s'.rdc.dues = [] ∧ s'.mem = s.mem
      ∧ s'.holds p { a with enc := (s.port p).confOn } := by
  obtain ⟨hmem, hrdc, -, -⟩ := taken_mem s p (asType k0 1 8)
  have hexec : exec (.invAck p k0) s = .next ((s.taken p (asType k0 1 8)).takeInvAck (asType k0 1 8)) := receive_taken hacc _
  rw [takeInvAck_last (k := asType k0 1 8) (by rw [hrdc]; exact hinvs) htag hdie (by rw [hrdc]; exact hheld) (by rw [hrdc]; exact hdues) hport hreply
    (taken_up hacc)] at hexec
  obtain ⟨smem, srdc, -⟩ := sendOn_mem (s.taken p (asType k0 1 8)).settled p a
  have hhold := sendOn_holds (s.taken p (asType k0 1 8)).settled p a
  have hconf : ((s.taken p (asType k0 1 8)).settled.port p).confOn = (s.port p).confOn := (taken_mild s p (asType k0 1 8)).conf p
  rw [hconf] at hhold
  exact ⟨_, hexec, by rw [srdc]; rfl, by rw [srdc]; rfl, smem.trans hmem, hhold⟩

/-! ### Each answer to a command of a tile -/

/-- An instruction closes the transaction of a tag and leaves `e'` as the only core DMA command of a tile, its scratchpad as it was. -/
def State.Ends (s : State) (tag t : Nat) (c : Instr) (e' : QEntry) : Prop :=
  ∃ s', exec c s = .next s' ∧ s'.tx tag = none ∧ (s'.tile t).dma.q = [e'] ∧ (s'.tile t).spad = (s.tile t).spad

/-- What a status of `CRED_REFUSE` makes of a command (R396). -/
def credRefuseAns : Nat → Nat
  | 2 => 3
  | 3 => 4
  | _ => 2

section
variable {k0 : Packet} (ht : t < 72) (htx : s.tx k0.tag = some o) (hsent : o.resent = false) (htile : o.tile = t)
  (hq : (s.tile t).dma.q = [e]) (huid : e.uid = o.uid)
include ht htx hsent htile hq huid

theorem rdData_ends (hacc : s.accepts p (asType k0 1 0) = true) (h0 : o.pkt.cls = 0) (h1 : o.pkt.ptype = 1) (hpoison : k0.poison = false) :
    s.Ends k0.tag t (.rdData p k0) { e with buf := e.buf.wrBytes o.off (k0.data.take o.pkt.len), owed := e.owed - 1 } := by
  have hp : ¬ (asType k0 1 0).poison = true := by
    show ¬ k0.poison = true
    simp [hpoison]
  have hexec := exec_answer (c := .rdData p k0) (k := asType k0 1 0) hacc rfl htx hsent (by simp [h0, h1])
  rw [if_neg hp, takeData_tile htile ht h1] at hexec
  exact work_ends (k := asType k0 1 0) hq huid hexec

theorem wrAck_done_ends (hacc : s.accepts p (asType k0 1 2) = true) (h2 : o.pkt.cls = 2) (h0 : o.pkt.ptype = 0) (haux : k0.aux % 16 = 0) :
    s.Ends k0.tag t (.wrAck p k0) { e with loadRows := e.loadRows - 1 } := by
  have hexec := exec_answer (c := .wrAck p k0) (k := asType k0 1 2) hacc rfl htx hsent (by simp [h2, h0])
  rw [show (asType k0 1 2).aux % 16 = 0 from haux, takeAck_done htile ht h0] at hexec
  exact work_ends (k := asType k0 1 2) hq huid hexec

variable (hans : e.ans = 0) (hcls : o.pkt.cls ≠ 3)
include hans

theorem credGrant_ends (hacc : s.accepts p (asType k0 1 3) = true) (h0 : o.pkt.cls = 0) (h2 : o.pkt.ptype = 2) (hcode : e.code = 8) :
    ∃ s', exec (.credGrant p k0) s = .next s' ∧ s'.tx k0.tag = none ∧ (s'.tile t).dma.q = [{ e with ans := 1, tgt := 127, owed := 0 }]
      ∧ Tab.get none (s'.tile t).dma.handles (bitsOf o.pkt.addr 34 4) = some
          ⟨o.pkt.dstDie, bitsOf o.pkt.addr 24 6, bitsOf o.pkt.addr 30 4, bitsOf k0.addr 12 12, false, 127⟩ := by
  have hexec := exec_answer (c := .credGrant p k0) (k := asType k0 1 3) hacc rfl htx hsent (by simp [h0, h2])
  rw [takeGrant_tile htile ht] at hexec
  refine ⟨_, hexec, tx_closed (k := asType k0 1 3) rfl, ?_⟩
  rw [State.tile_onTile, tile_of_tiles (closed_tiles s p _)]
  exact ⟨answerReq_only hq hcode huid hans .., answerReq_handle ..⟩

include hcls

theorem rdErr_ends (hacc : s.accepts p (asType k0 1 1) = true) (h0 : o.pkt.cls = 0) (hheld : s.rdc.held = []) :
    s.Ends k0.tag t (.rdErr p k0) { e with ans := rdErrAns (k0.aux % 16) } := by
  have hexec := exec_answer (c := .rdErr p k0) (k := asType k0 1 1) hacc rfl htx hsent (by simp [h0])
  have hserve := failTx_tile (z := s.closed p (asType k0 1 1)) htile ht hcls (rdErrAns (k0.aux % 16))
  refine work_fails (k := asType k0 1 1) hq huid hans htile ht hcls (hexec.trans (congrArg Host.Outcome.next (serveHeld_none ?_)))
  rw [show (asType k0 1 1).aux = k0.aux from rfl, hserve]
  exact (closed_held s p _).trans hheld

theorem wrAck_refused_ends (hacc : s.accepts p (asType k0 1 2) = true) (h2 : o.pkt.cls = 2) (h0 : o.pkt.ptype = 0) :
    (k0.aux % 16 = 1 → s.Ends k0.tag t (.wrAck p k0) { e with ans := 2 })
    ∧ (k0.aux % 16 = 2 → s.Ends k0.tag t (.wrAck p k0) { e with ans := 3 }) := by
  have hexec := exec_answer (c := .wrAck p k0) (k := asType k0 1 2) hacc rfl htx hsent (by simp [h2, h0])
  rw [show (asType k0 1 2).aux = k0.aux from rfl] at hexec
  refine ⟨fun haux => ?_, fun haux => ?_⟩
  all_goals
    rw [haux] at hexec
    exact work_fails (k := asType k0 1 2) hq huid hans htile ht hcls hexec

theorem credRefuse_ends (hacc : s.accepts p (asType k0 1 4) = true) (h0 : o.pkt.cls = 0) (h2 : o.pkt.ptype = 2) :
    s.Ends k0.tag t (.credRefuse p k0) { e with ans := credRefuseAns (k0.aux % 16) } :=
  work_fails (k := asType k0 1 4) hq huid hans htile ht hcls
    (exec_answer (c := .credRefuse p k0) (k := asType k0 1 4) hacc rfl htx hsent (by simp [h0, h2]))

end

theorem cfgRsp_ends {k0 : Packet} (htx : s.tx k0.tag = some o) (hsent : o.resent = false) (hacc : s.accepts p (asType k0 1 10) = true)
    (h4 : o.pkt.cls = 4) (h34 : o.pkt.ptype = 3 ∨ o.pkt.ptype = 4) :
    ∃ s', exec (.cfgRsp p k0) s = .next s' ∧ s'.tx k0.tag = none ∧ s'.tiles = s.tiles :=
  ⟨_, exec_answer (c := .cfgRsp p k0) (k := asType k0 1 10) hacc rfl htx hsent (by rcases h34 with h | h <;> simp [h4, h]),
    tx_closed (k := asType k0 1 10) rfl, closed_tiles ..⟩

theorem xlateRsp_ends {k0 : Packet} {g : Nat} (htx : s.tx k0.tag = some o) (hsent : o.resent = false)
    (hacc : s.accepts p (asType k0 1 5) = true) (h0 : o.pkt.cls = 0) (h3 : o.pkt.ptype = 3) (hheld : s.rdc.held = [])
    (hg : o.pkt.addr / granuleBytes = g) (hhost : isHostAddr (g * granuleBytes) = false) (hown : ownerOf (g * granuleBytes) ≠ s.pos)
    (hroom : s.kw.xlate.length + 24 ≤ xlateMax) :
    ∃ s', exec (.xlateRsp p k0) s = .next s' ∧ s'.tx k0.tag = none ∧ s'.tiles = s.tiles
      ∧ ((leNat (k0.data.take 4)).testBit 15 = true → ∀ i, i < min (leNat ((k0.data.drop 4).take 4)) 24 →
          Tab.get none s'.kw.xlate (g + i) = some (xlateOf k0.data ((k0.data[8 + i]?.getD 0).toNat % 32) (leNat ((k0.data.drop 4).take 4) - i)))
      ∧ ((leNat (k0.data.take 4)).testBit 15 = false →
          Tab.get none s'.kw.xlate g = some (xlateOf k0.data (4 * ownerOf (g * granuleBytes)) 0)) := by
  have hc := taken_mild s p (asType k0 1 5)
  have hpos : (s.closed p (asType k0 1 5)).pos = s.pos := pos_of_cfg hc.cfg
  have hkw : (s.closed p (asType k0 1 5)).kw.xlate = s.kw.xlate := hc.xlate
  obtain ⟨htiles, hrdc, hon, hoff⟩ := takeHomes_room (bs := k0.data) hhost (by rw [hpos]; exact hown) (by rw [hkw]; exact hroom)
  have hexec := exec_answer (c := .xlateRsp p k0) (k := asType k0 1 5) hacc rfl htx hsent (by simp [h0, h3])
  rw [hg] at hexec
  have hserve : ((s.closed p (asType k0 1 5)).takeHomes g k0.data).serveHeld = (s.closed p (asType k0 1 5)).takeHomes g k0.data :=
    serveHeld_none (by rw [hrdc, closed_held, hheld])
  exact ⟨_, hexec.trans (congrArg Host.Outcome.next hserve), tx_closed (k := asType k0 1 5) (by rw [hrdc]),
    htiles.trans (closed_tiles ..), hon, hoff⟩

/-- Settles O32: an answer acts on the state in which its transaction has closed; an invalidation on that in which it was taken in. -/
theorem answersAndInvalidations : Obligations.AnswersAndInvalidations := by
  refine ⟨?answers, ?invalidations⟩
  case answers =>
    intro s p t k0 o e ht htx hsent
    refine ⟨?work, fun hacc h4 h34 => cfgRsp_ends htx hsent hacc h4 h34, ?homes⟩
    case work =>
      intro q htile hq huid hans hcls ends
      refine ⟨fun hacc h0 h1 hpoison => rdData_ends ht htx hsent htile hq huid hacc h0 h1 hpoison,
        fun hacc h0 hheld => rdErr_ends ht htx hsent htile hq huid hans hcls hacc h0 hheld,
        fun hacc h2 h0 => ⟨fun haux => wrAck_done_ends ht htx hsent htile hq huid hacc h2 h0 haux,
          wrAck_refused_ends ht htx hsent htile hq huid hans hcls hacc h2 h0⟩,
        fun hacc h0 h2 => credRefuse_ends ht htx hsent htile hq huid hans hcls hacc h0 h2,
        fun hacc h0 h2 hcode => credGrant_ends ht htx hsent htile hq huid hans hacc h0 h2 hcode⟩
    case homes =>
      intro hacc h0 h3 hheld g w left known hhost hown hroom
      exact xlateRsp_ends htx hsent hacc h0 h3 hheld rfl hhost hown hroom
  case invalidations =>
    intro s p k0 inv
    refine ⟨fun hacc => ?line, fun hacc => ?block, fun w x a hacc hinvs htag hdie hheld hdues hgrp hport hreply => ?last⟩
    case line =>
      exact inv_acked (c := .inv p k0) (ls := [k0.addr / 256]) hacc (receive_taken hacc _) (fun l => l = k0.addr / 256)
        (fun l => List.mem_singleton)
    case block =>
      exact inv_acked (c := .invBatch p k0) (ls := (bitList k0.aux 16).map (fun i => k0.addr / 4096 * 16 + i)) hacc
        (receive_taken hacc _) (fun l => l / 16 = k0.addr / 4096 ∧ k0.aux.testBit (l % 16) = true) (fun l => mem_blockLines)
    case last => exact invAck_last hacc hinvs htag hdie hheld hdues hport hreply

end Sys2Proof.Machine
end

section
/-!
PROOFS. Synchronisation objects at their home, and the results that end a tile's wait (spec/11_synchronisation.md, R286, R289, R290,
R292 to R294).
-/

namespace Sys2Proof.Machine

open Sys2Proof

/-! ### Objects on which nothing waits (R289, R290) -/

section
variable {z : State} {r : SyncReq} {id i : Nat} {o : SyncObj}

theorem setValue_idle (hw : o.waiters = []) (v : Nat) : z.setValue i o v = z.setObj i { o with value := v } := by
  simp only [State.setValue, hw, testWaiters, State.answers, List.foldl_nil]

theorem releaseAll_idle (hw : o.waiters = []) (oc v : Nat) : z.releaseAll i o oc v = z.setObj i o := by
  have ho : { o with waiters := [] } = o := by rw [← hw]
  rw [State.releaseAll, ho, hw]
  rfl

/-- The value of an object after a signal (R290): counters take the operations 0 and 2, flags 0 and 1. -/
def SyncObj.signalled (o : SyncObj) (op v : Nat) : Option Nat :=
  match o.typ, op with
  | 0, 0 => some (min (o.value + v) (2 ^ 32 - 1))
  | 0, 2 => some v
  | 1, 0 => some (o.value ||| v)
  | 1, 1 => some (clearBits o.value v)
  | _, _ => none

theorem syncLive_signal {n : Nat} (hc : r.code = 2) (hw : o.waiters = [])
    (hn : o.signalled (fld (wordAt r.words 2) 0 2) (wordAt r.words 1).toNat = some n) :
    z.syncLive r id i o = (z.setObj i { o with value := n }).answer r.src 0 0 := by
  simp only [State.syncLive, hc, setValue_idle hw, satAdd_eq]
  unfold SyncObj.signalled at hn
  split at hn
  case h_1 ht hop | h_2 ht hop | h_3 ht hop | h_4 ht hop =>
    cases hn
    simp [ht, hop]
  case h_5 => cases hn

/-- The waiter that a request becomes. -/
def waiterOf (r : SyncReq) : SyncWaiter :=
  ⟨r.src, (wordAt r.words 1).toNat, bitAt (wordAt r.words 2) 1, bitAt (wordAt r.words 2) 2⟩

/-- The value that a satisfied wait leaves behind: with `TAKE` it clears its mask bits of a flag (R290). -/
def valueLeft (r : SyncReq) (o : SyncObj) : Nat :=
  if bitAt (wordAt r.words 2) 2 && o.typ == 1 then clearBits o.value (wordAt r.words 1).toNat else o.value

theorem waiterOk_counter (ht : o.typ = 0) (w : SyncWaiter) :
    waiterOk o w = decide ((if w.operand = 0 then o.target else w.operand) ≤ o.value) := by
  simp only [waiterOk, ht, beq_self_eq_true, if_true]

theorem waiterOk_flags {w : SyncWaiter} (ht : o.typ = 1) (hany : w.any = false) :
    waiterOk o w = (o.value &&& w.operand == w.operand) := by
  simp [waiterOk, ht, hany]

/-- Whether an object takes waits with an operand: a counter any, a flag a mask that is not 0 (R290). -/
def SyncObj.takesWait (o : SyncObj) (v : Nat) : Prop := o.typ = 0 ∨ (o.typ = 1 ∧ v ≠ 0)

theorem takesWait_legal {v : Nat} (h : o.takesWait v) : (o.typ == 2 || (o.typ == 1 && v == 0)) = false := by
  rcases h with ht | ⟨ht, hv⟩
  · simp [ht]
  · simp [ht, hv]

theorem syncLive_satisfied (hc : r.code = 3) (ht : o.takesWait (wordAt r.words 1).toNat) (hok : waiterOk o (waiterOf r) = true) :
    z.syncLive r id i o = (z.setObj i { o with value := valueLeft r o }).answer r.src 0 o.value := by
  rw [waiterOf] at hok
  simp only [State.syncLive, hc, takesWait_legal ht, hok, Bool.false_eq_true, if_false, if_true, valueLeft]

theorem syncLive_joins (hc : r.code = 3) (ht : o.takesWait (wordAt r.words 1).toNat) (hok : waiterOk o (waiterOf r) = false) :
    z.syncLive r id i o = z.setObj i { o with waiters := o.waiters ++ [waiterOf r] } := by
  rw [waiterOf] at hok ⊢
  simp only [State.syncLive, hc, takesWait_legal ht, hok, Bool.false_eq_true, if_false]

theorem syncLive_read (hc : r.code = 6) (ht : o.typ ≠ 2) : z.syncLive r id i o = z.answer r.src 0 o.value := by
  simp [State.syncLive, hc, ht]

theorem syncFree_idle (hw : o.waiters = []) (hbar : z.bar id = none) :
    z.syncFree r id i o = ((z.setObj i o).setObj i SyncObj.init).answer r.src 0 0 := by
  have hdrop : ((z.setObj i o).setObj i SyncObj.init).dropBar id 2 = (z.setObj i o).setObj i SyncObj.init := by
    have hb : ((z.setObj i o).setObj i SyncObj.init).bar id = none := hbar
    simp only [State.dropBar, hb]
  have hshare : z.otherDies id = [] := by simp only [State.otherDies, hbar]
  rw [State.syncFree, releaseAll_idle hw, hdrop, hshare]
  rfl

/-! ### Requests at the home (R286, R293) -/

theorem syncApply_home (hhome : (wordAt r.words 0).toNat / 65536 = z.pos) (hc : r.code < 7) :
    z.syncApply r = z.syncHome r (wordAt r.words 0).toNat := by
  simp only [State.syncApply, hhome, beq_self_eq_true, if_true, if_neg (Nat.not_le.2 hc)]

theorem syncHome_stranger (hinit : Tab.get none z.sync.inits id = none) (hst : (z.obj (id % 65536)).st ≠ 0)
    (hjob : (z.obj (id % 65536)).job ≠ r.job) :
    z.syncHome r id = (z.refusedEvent r.job r.die r.core id 1).answer r.src 5 0 := by
  simp [State.syncHome, hinit, hst, hjob]

section
variable (hinit : Tab.get none z.sync.inits id = none) (hst : (z.obj (id % 65536)).st = 1) (hjob : (z.obj (id % 65536)).job = r.job)
include hinit hst hjob

theorem syncHome_live (hc : r.code = 2 ∨ r.code = 3 ∨ r.code = 6) :
    z.syncHome r id = z.syncLive r id (id % 65536) (z.obj (id % 65536)) := by
  rcases hc with hc | hc | hc
  · simp [State.syncHome, hinit, hst, hjob, hc]
  · simp [State.syncHome, hinit, hst, hjob, hc]
  · simp [State.syncHome, hinit, hst, hjob, hc]

theorem syncHome_free (hc : r.code = 5) : z.syncHome r id = z.syncFree r id (id % 65536) (z.obj (id % 65536)) := by
  simp [State.syncHome, hinit, hst, hjob, hc]

end

end

/-! ### `SY_OP` (R289, R292) -/

/-- The request that a `SY_OP` packet brings. -/
def sentBy (r : SyncReq) (p : Nat) (k : Packet) : SyncReq :=
  { r with job := k.job, die := k.srcDie, src := .remote k.srcDie p k.tag k.job }

/-- The result of a `SY_OP` that has come in on a port. -/
def State.syResultTo (s : State) (p : Nat) (k : Packet) (oc v : Nat) : Packet :=
  s.answerTo p k (withData (s.packet 1 9 k.srcDie 122) (resultBytes oc v))

/-- A `SY_OP` leaves its object as `o'` and the barrier records as they were, and is answered with outcome 0 and value `x`. -/
def State.SyOpEnds (s : State) (p : Nat) (k0 : Packet) (r : SyncReq) (o' : SyncObj) (x : Nat) : Prop :=
  ∃ s', exec (.syOp p k0 r) s = .next s' ∧ s'.obj ((wordAt r.words 0).toNat % 65536) = o' ∧ s'.sync.bars = s.sync.bars
    ∧ s'.holds p (s.syResultTo p (asType k0 3 0) 0 x)

/-- A `SY_OP` that a port takes in names a `LIVE` object of its job that is homed here, on which nothing waits and no `SY_INIT` is
under way. -/
structure State.OpReaches (s : State) (p : Nat) (k0 : Packet) (r : SyncReq) (o : SyncObj) : Prop where
  accepted : s.accepts p (asType k0 3 0) = true
  home : (wordAt r.words 0).toNat / 65536 = s.pos
  noInit : Tab.get none s.sync.inits (wordAt r.words 0).toNat = none
  obj : s.obj ((wordAt r.words 0).toNat % 65536) = o
  live : o.st = 1
  job : o.job = k0.job
  idle : o.waiters = []

section
variable {s y : State} {p : Nat} {k0 : Packet} {r : SyncReq} {o : SyncObj}

theorem taken_obj (s : State) (p : Nat) (k : Packet) (i : Nat) : (s.taken p k).obj i = s.obj i := by
  simp only [State.obj, (taken_mild s p k).sync]

theorem taken_bar (s : State) (p : Nat) (k : Packet) (id : Nat) : (s.taken p k).bar id = s.bar id := by
  simp only [State.bar, (taken_mild s p k).sync]

theorem taken_bars (s : State) (p : Nat) (k : Packet) : (s.taken p k).sync.bars = s.sync.bars := congrArg SyncTree.bars (taken_mild s p k).sync

/-- A result for the sender of a `SY_OP` changes nothing of the sync tree, and the port holds it (R292). -/
theorem answer_sender (r : SyncReq) (hy : y.AnswersAs s p) (k : Packet) (oc v : Nat) :
    (y.answer (sentBy r p k).src oc v).sync = y.sync ∧ (y.answer (sentBy r p k).src oc v).holds p (s.syResultTo p k oc v) :=
  answer_remote k oc v hy.up hy.conf (pos_of_cfg hy.cfg)

theorem exec_syOp (hacc : s.accepts p (asType k0 3 0) = true) (hhome : (wordAt r.words 0).toNat / 65536 = s.pos) (hc : r.code < 7) :
    exec (.syOp p k0 r) s
      = .next ((s.taken p (asType k0 3 0)).syncHome (sentBy r p (asType k0 3 0)) (wordAt r.words 0).toNat) := by
  have hpos : (s.taken p (asType k0 3 0)).pos = s.pos := pos_of_cfg (taken_mild s p _).cfg
  have happly := syncApply_home (r := sentBy r p (asType k0 3 0)) (hhome.trans hpos.symm) hc
  exact (receive_taken hacc _).trans (congrArg Host.Outcome.next happly)

/-- An operation of another job is refused (R293). -/
theorem syOp_refused (hacc : s.accepts p (asType k0 3 0) = true) (hhome : (wordAt r.words 0).toNat / 65536 = s.pos)
    (hinit : Tab.get none s.sync.inits (wordAt r.words 0).toNat = none) (hst : (s.obj ((wordAt r.words 0).toNat % 65536)).st ≠ 0)
    (hjob : (s.obj ((wordAt r.words 0).toNat % 65536)).job ≠ k0.job) (hc : r.code < 7) :
    ∃ s', exec (.syOp p k0 r) s = .next s' ∧ s'.sync = s.sync ∧ s'.holds p (s.syResultTo p (asType k0 3 0) 5 0) := by
  have htaken := taken_mild s p (asType k0 3 0)
  have hevent := refusedEvent_mild (s.taken p (asType k0 3 0)) k0.job k0.srcDie r.core (wordAt r.words 0).toNat 1
  have hexec := exec_syOp hacc hhome hc
  rw [syncHome_stranger (by rw [htaken.sync]; exact hinit) (by rw [taken_obj]; exact hst) (by rw [taken_obj]; exact hjob)] at hexec
  obtain ⟨hsync, hholds⟩ := answer_sender r ((taken_answersAs hacc).mild hevent) (asType k0 3 0) 5 0
  exact ⟨_, hexec, hsync.trans (hevent.sync.trans htaken.sync), hholds⟩

/-- A `SY_OP` that sets its object and changes nothing else of the sync tree. -/
theorem syOpEnds_set {o' : SyncObj} {x : Nat} (hy : y.AnswersAs s p) (hbars : y.sync.bars = s.sync.bars)
    (hexec : exec (.syOp p k0 r) s
      = .next ((y.setObj ((wordAt r.words 0).toNat % 65536) o').answer (sentBy r p (asType k0 3 0)).src 0 x)) :
    s.SyOpEnds p k0 r o' x := by
  obtain ⟨hsync, hholds⟩ := answer_sender r (y := y.setObj ((wordAt r.words 0).toNat % 65536) o') ⟨hy.cfg, hy.up, hy.conf⟩
    (asType k0 3 0) 0 x
  refine ⟨_, hexec, ?_, ?_, hholds⟩
  · simp only [State.obj, hsync]
    exact setObj_obj ..
  · rw [hsync]
    exact hbars

section
variable (h : s.OpReaches p k0 r o)
include h

theorem exec_syOp_live (hc : r.code = 2 ∨ r.code = 3 ∨ r.code = 6) : exec (.syOp p k0 r) s
    = .next ((s.taken p (asType k0 3 0)).syncLive (sentBy r p (asType k0 3 0)) (wordAt r.words 0).toNat
        ((wordAt r.words 0).toNat % 65536) o) := by
  have hobj := (taken_obj s p (asType k0 3 0) ((wordAt r.words 0).toNat % 65536)).trans h.obj
  have hlive := syncHome_live (r := sentBy r p (asType k0 3 0)) (by rw [(taken_mild s p (asType k0 3 0)).sync]; exact h.noInit)
    (by rw [hobj]; exact h.live) (by rw [hobj]; exact h.job) hc
  rw [exec_syOp h.accepted h.home (by omega), hlive, hobj]

theorem exec_syOp_free (hc : r.code = 5) : exec (.syOp p k0 r) s
    = .next ((s.taken p (asType k0 3 0)).syncFree (sentBy r p (asType k0 3 0)) (wordAt r.words 0).toNat
        ((wordAt r.words 0).toNat % 65536) o) := by
  have hobj := (taken_obj s p (asType k0 3 0) ((wordAt r.words 0).toNat % 65536)).trans h.obj
  have hfree := syncHome_free (r := sentBy r p (asType k0 3 0)) (by rw [(taken_mild s p (asType k0 3 0)).sync]; exact h.noInit)
    (by rw [hobj]; exact h.live) (by rw [hobj]; exact h.job) hc
  rw [exec_syOp h.accepted h.home (by omega), hfree, hobj]

/-- An operation at the home that sets the object and is answered. -/
theorem syOp_sets {o' : SyncObj} {x : Nat} (hc : r.code = 2 ∨ r.code = 3 ∨ r.code = 6)
    (hlive : ∀ z : State, z.syncLive (sentBy r p (asType k0 3 0)) (wordAt r.words 0).toNat ((wordAt r.words 0).toNat % 65536) o
      = (z.setObj ((wordAt r.words 0).toNat % 65536) o').answer (sentBy r p (asType k0 3 0)).src 0 x) : s.SyOpEnds p k0 r o' x :=
  syOpEnds_set (taken_answersAs h.accepted) (taken_bars s p _)
    ((exec_syOp_live h hc).trans (congrArg Host.Outcome.next (hlive _)))

theorem syOp_signal {n : Nat} (hc : r.code = 2)
    (hn : o.signalled (fld (wordAt r.words 2) 0 2) (wordAt r.words 1).toNat = some n) :
    s.SyOpEnds p k0 r { o with value := n } 0 :=
  syOp_sets h (.inl hc) (fun _ => syncLive_signal (r := sentBy r p (asType k0 3 0)) hc h.idle hn)

theorem syOp_satisfied (hc : r.code = 3) (ht : o.takesWait (wordAt r.words 1).toNat)
    (hok : waiterOk o (waiterOf (sentBy r p (asType k0 3 0))) = true) :
    s.SyOpEnds p k0 r { o with value := valueLeft r o } o.value :=
  syOp_sets h (.inr (.inl hc)) (fun _ => syncLive_satisfied (r := sentBy r p (asType k0 3 0)) hc ht hok)

theorem syOp_joins (hc : r.code = 3) (ht : o.takesWait (wordAt r.words 1).toNat)
    (hok : waiterOk o (waiterOf (sentBy r p (asType k0 3 0))) = false) :
    ∃ s', exec (.syOp p k0 r) s = .next s' ∧ s'.sync.bars = s.sync.bars ∧ s'.obj ((wordAt r.words 0).toNat % 65536)
      = { o with waiters := [waiterOf (sentBy r p (asType k0 3 0))] } := by
  have hexec := exec_syOp_live h (.inr (.inl hc))
  rw [syncLive_joins (r := sentBy r p (asType k0 3 0)) hc ht hok, h.idle] at hexec
  exact ⟨_, hexec, taken_bars s p _, setObj_obj ..⟩

theorem syOp_read (hc : r.code = 6) (ht : o.typ ≠ 2) : s.SyOpEnds p k0 r o o.value := by
  have hexec := exec_syOp_live h (.inr (.inr hc))
  rw [syncLive_read (r := sentBy r p (asType k0 3 0)) hc ht] at hexec
  obtain ⟨hsync, hholds⟩ := answer_sender r (taken_answersAs h.accepted) (asType k0 3 0) 0 o.value
  rw [(taken_mild s p _).sync] at hsync
  refine ⟨_, hexec, ?_, congrArg SyncTree.bars hsync, hholds⟩
  simp only [State.obj, hsync]
  exact h.obj

theorem syOp_free (hc : r.code = 5) (hbar : s.bar (wordAt r.words 0).toNat = none) : s.SyOpEnds p k0 r SyncObj.init 0 := by
  have hexec := exec_syOp_free h hc
  rw [syncFree_idle h.idle (by rw [taken_bar]; exact hbar)] at hexec
  obtain ⟨hcfg, hup, hconf⟩ := taken_answersAs h.accepted
  exact syOpEnds_set (y := (s.taken p (asType k0 3 0)).setObj _ _) ⟨hcfg, hup, hconf⟩ (taken_bars s p _) hexec

end

end

/-! ### Results for a tile's wait (R292 to R294) -/

section
variable {s z : State} {t : Nat} {e : QEntry} {rest : List QEntry}

/-- The state from which result number `i` inside the die has been delivered. -/
def State.resultTaken (s : State) (i : Nat) : State := { s with sync := { s.sync with results := s.sync.results.eraseIdx i } }

theorem exec_syResult_local {i oc v : Nat} (k : Packet) (hr : s.sync.results[i]? = some ⟨.tile t, oc, v⟩) :
    exec (.syResult none k i) s = .next ((s.resultTaken i).syncEnd t oc v) := by
  have hlocal : s.localResult i = (s.resultTaken i).syncEnd t oc v := by
    simp only [State.localResult, hr]
    rfl
  exact congrArg Host.Outcome.next hlocal

theorem exec_syResult_port {p i : Nat} {k0 : Packet} {o : OpenTx} (hacc : s.accepts p (asType k0 1 9) = true)
    (htx : s.tx k0.tag = some o) (hcls : o.pkt.cls = 3) (htile : o.tile < Config.tiles) :
    exec (.syResult (some p) k0 i) s = .next (((s.taken p (asType k0 1 9)).closeTx k0.tag o).syncEnd o.tile
      (pktLE (asType k0 1 9) 0 4) (pktLE (asType k0 1 9) 4 4)) := by
  have hsrc : o.src = some (.tile o.tile) := by simp [OpenTx.src, hcls, htile]
  have htaken : (s.taken p (asType k0 1 9)).tx (asType k0 1 9).tag = some o := by
    rw [State.tx, (taken_mem s p _).2.1]
    exact htx
  refine (receive_taken hacc _).trans ?_
  simp only [State.answered, htaken, hcls, hsrc, beq_self_eq_true, if_true]
  rfl

/-- The window of a wait ends: the wait is withdrawn and ends with outcome 1. -/
theorem exec_syWaitTimeout (hrun : s.works t = true) (hq : (s.tile t).sync.q = e :: rest) (hfly : e.inFlight = true)
    (hlate : (s.tile t).syncLate e s.now = true) :
    ∃ round, exec (.syWaitTimeout t) s = .next ((s.withdraw (· == .tile t) none).syncEnd t 1 round) := by
  simp only [State.works, Bool.and_eq_true, decide_eq_true_eq] at hrun
  obtain ⟨⟨ht, hcores⟩, -⟩ := hrun
  have hexec : exec (.syWaitTimeout t) s = .next (s.syncTimeout t) := by
    refine (if_pos (decide_eq_true ht)).trans ?_
    rw [if_pos hcores]
  rw [hexec]
  simp only [State.syncTimeout, hq, hfly, hlate, Bool.not_true, Bool.or_self, Bool.false_eq_true, if_false]
  exact ⟨_, rfl⟩

/-- An outcome other than success of a wait that is not `SOFT` stops the program (R293). -/
theorem syncEnd_stops {oc v : Nat} (hph : (z.tile t).seq.phase = .running ∨ (z.tile t).seq.phase = .yielding)
    (hq : (z.tile t).sync.q = e :: rest) (hfly : e.inFlight = true) (hcode : e.code = 3) (hsoft : bitAt (wordAt e.words 2) 0 = false)
    (hlate : (z.tile t).syncLate e z.now = false) (h0 : oc ≠ 0) (h6 : oc ≠ 6) :
    ((z.syncEnd t oc v).tile t).stoppedBy ((z.tile t).onQueue 5 (fun _ => rest)) (outcomeCause oc) 0
      ∧ z.givesOutcome (z.syncEnd t oc v) t (statusOf (outcomeCause oc)) (outcomeCause oc) := by
  have hs : isSoft e = false := by simp [isSoft, hcode, hsoft]
  have hend : z.syncEnd t oc v
      = z.runTile t (fun q => (q.onQueue 5 (fun l => dropAt l 0)).progFault (outcomeCause oc) 0) := by
    simp [State.syncEnd, hq, hlate, hfly, h0, h6, hs]
  have hlive : (z.tile t).live = true := by
    rcases hph with h | h
    · simp [Tile.live, h]
    · simp [Tile.live, h]
  rw [hend]
  exact runTile_fault (q1 := (z.tile t).onQueue 5 (fun l => dropAt l 0)) hlive (.inl rfl) hlive rfl rfl

end

/-- Settles O21: a `SY_OP` acts on the state in which it has been taken in, by `syncLive` at the home; a result ends the oldest wait of
its tile by `syncEnd_goes`, or stops the program by `syncEnd_stops`. -/
theorem syncOperationsAndResults : Obligations.SyncOperationsAndResults := by
  refine ⟨?operations, ?results⟩
  case operations =>
    intro s p k0 r k w i o v result ends hacc hhome hinit hw
    refine ⟨fun hst hjob => ?live, fun hst hjob hc => syOp_refused hacc hhome hinit hst hjob hc⟩
    case live =>
      have h : s.OpReaches p k0 r o := ⟨hacc, hhome, hinit, rfl, hst, hjob, hw⟩
      have hsignal : ∀ op n, r.code = 2 → fld (w 2) 0 2 = op → o.signalled op v = some n → ends { o with value := n } 0 :=
        fun op n hc hop hn => syOp_signal h hc (by rw [← hn, ← hop])
      refine ⟨fun hc ht hop => hsignal 0 _ hc hop ?_, fun hc ht hop => hsignal 2 _ hc hop ?_, fun hc ht hop => hsignal 0 _ hc hop ?_,
        fun hc ht hop => hsignal 1 _ hc hop ?_, fun hc ht hv => ?reached, fun hc ht h0 hany hv htake => ?flags, fun hc ht hv => ?below,
        fun hc ht => syOp_read h hc ht, fun hc hbar => syOp_free h hc hbar⟩
      -- the four signals: the object's type and the operation select the case of `signalled`
      iterate 4 simp only [SyncObj.signalled, ht]
      case reached =>
        have hleft : valueLeft r o = o.value := by simp [valueLeft, ht]
        have hend := syOp_satisfied h hc (.inl ht) (by rw [waiterOk_counter ht]; exact decide_eq_true hv)
        rwa [hleft] at hend
      case flags =>
        have hleft : valueLeft r o = clearBits o.value v := by
          rw [valueLeft, htake, ht]
          rfl
        have hend := syOp_satisfied h hc (.inr ⟨ht, h0⟩) (by rw [waiterOk_flags ht hany]; exact beq_iff_eq.2 hv)
        rwa [hleft] at hend
      case below => exact syOp_joins h hc (.inl ht) (by rw [waiterOk_counter ht]; exact decide_eq_false (Nat.not_le.2 hv))
  case results =>
    intro s t e rest hrun q w a hq hfly hcode htake hpost ends
    have hph := works_phase hrun
    have ht : t < Config.tiles := by
      simp only [State.works, Bool.and_eq_true, decide_eq_true_eq] at hrun
      exact hrun.1.1
    have hsat : ∀ (z : State) (c : Instr) (v : Nat), exec c s = .next (z.syncEnd t 0 v) → z.tile t = q → q.syncLate e z.now = false →
        v < 2 ^ 32 → ends c 0 v := fun z c v hexec hz hlate hv =>
      ⟨_, hexec, syncEnd_goes hz hph hq hfly hcode htake hpost 0 v (by norm_num) hv (.inr hlate) (.inl rfl) (fun h => absurd rfl h) v
        (fun _ => rfl)⟩
    have hunsat : ∀ (z : State) (c : Instr) (oc v : Nat), exec c s = .next (z.syncEnd t oc v) → z.tile t = q →
        oc = 1 ∨ q.syncLate e z.now = false → bitAt (w 2) 0 = true → 0 < oc → oc ≤ 3 → ends c oc 0 :=
      fun z c oc v hexec hz hlate hsoft h0 h3 =>
        ⟨_, hexec, syncEnd_goes hz hph hq hfly hcode htake hpost oc 0 (by omega) (by norm_num) hlate (.inr ⟨hsoft, h3⟩) (fun _ => rfl) v
          (fun h => absurd h h0.ne')⟩
    refine ⟨fun k i v hlate hr hv => hsat (s.resultTaken i) _ v (exec_syResult_local k hr) rfl hlate hv,
      fun k i v hlate hr => ⟨fun hsoft => hunsat (s.resultTaken i) _ 2 v (exec_syResult_local k hr) rfl (.inr hlate) hsoft (by norm_num)
        (by norm_num), fun hhard => ?hard⟩, ?port, fun hlate hsoft => ?late⟩
    case hard =>
      exact ⟨_, exec_syResult_local k hr,
        syncEnd_stops (z := s.resultTaken i) hph hq hfly hcode hhard hlate (by norm_num) (by norm_num)⟩
    case port =>
      intro p i v k0 o k hlate hacc htx htile hcls hoc hval hv
      subst htile
      have hexec := exec_syResult_port (i := i) hacc htx hcls ht
      rw [hoc, hval] at hexec
      have hnow : (s.taken p k).now = s.now := congrArg Time.ts (taken_mild s p k).time
      exact hsat ((s.taken p k).closeTx k.tag o) _ v hexec (taken_tile s p k _) (by rw [← hlate, ← hnow]; rfl) hv
    case late =>
      obtain ⟨round, hexec⟩ := exec_syWaitTimeout hrun hq hfly hlate
      exact hunsat _ _ 1 round hexec (tile_of_tiles (State.withdraw_frame ..).1 t) (.inl rfl) hsoft (by norm_num) (by norm_num)

end Sys2Proof.Machine
end

section
/-!
PROOFS. Rounds of barriers and the debugger's commands on objects (spec/11_synchronisation.md, R297 to R299, R306, R307).
-/

namespace Sys2Proof.Machine

open Sys2Proof

/-! ### Records that settle as they are (R298, R299) -/

section
variable {z : State} {id : Nat} {b : Barrier}

/-- Nothing is reported of a barrier of one die, at the package root, or before every participant of this die has arrived. -/
theorem reportRounds_still (hb : z.bar id = some b) (h : b.dieWide = true ∨ z.leader = z.pos ∨ b.full b.reported = false) (n : Nat) :
    z.reportRounds id n = z := by
  cases n with
  | zero => rfl
  | succ n =>
    rw [State.reportRounds, hb]
    refine if_pos ?_
    rcases h with h | h | h
    · simp [h]
    · simp [h]
    · simp [h]

/-- A round of one die stays open until every participant has arrived. -/
theorem closeRounds_wide (hb : z.bar id = some b) (hwide : b.dieWide = true) (hfull : b.full 0 = false) (n : Nat) :
    z.closeRounds id n = z := by
  cases n with
  | zero => rfl
  | succ n =>
    rw [State.closeRounds, hb]
    exact if_pos (by simp [hwide, hfull])

/-- Only the package root closes rounds of several dies. -/
theorem closeRounds_away (hb : z.bar id = some b) (hwide : b.dieWide = false) (hlead : z.leader ≠ z.pos) (n : Nat) :
    z.closeRounds id n = z := by
  cases n with
  | zero => rfl
  | succ n =>
    rw [State.closeRounds, hb]
    exact if_pos (by simp [hwide, hlead])

/-- The package root waits for the report of every die in the mask. -/
theorem closeRounds_unreported {d : Nat} (hb : z.bar id = some b) (hwide : b.dieWide = false) (hd : d < 8) (hne : d ≠ z.pos)
    (hmask : b.dieMask.testBit d = true) (hrep : Tab.get 0 b.reports d = 0) (n : Nat) : z.closeRounds id n = z := by
  cases n with
  | zero => rfl
  | succ n =>
    have hall : (bitList b.dieMask 8).all (fun d => if d == z.pos then b.full 0 else decide (1 ≤ Tab.get 0 b.reports d)) = false :=
      List.all_eq_false.2 ⟨d, (bitList_mem _ _ _).2 ⟨hd, hmask⟩, by simp [hne, hrep]⟩
    rw [State.closeRounds, hb]
    exact if_pos (by simp only [hwide, hall, Bool.and_false, Bool.false_eq_true, if_false, Bool.not_false, Bool.or_true])

end

/-! ### Reports and releases (R298, R299) -/

section
variable {s : State} {p id round : Nat} {b : Barrier} {k0 : Packet}

theorem taken_results (s : State) (p : Nat) (k : Packet) : (s.taken p k).sync.results = s.sync.results :=
  congrArg SyncTree.results (taken_mild s p k).sync

theorem taken_leader (s : State) (p : Nat) (k : Packet) : (s.taken p k).leader = s.leader := by
  simp only [State.leader, (taken_mild s p k).pkg]

theorem taken_pos (s : State) (p : Nat) (k : Packet) : (s.taken p k).pos = s.pos := pos_of_cfg (taken_mild s p k).cfg

/-- A report behind which another die is still to report is counted. -/
theorem barReport_counts {z : State} {src d : Nat} (hb : z.bar id = some b) (hst : b.st = 1) (hlead : z.leader = z.pos)
    (hsrc : b.dieMask.testBit src = true) (hwide : b.dieWide = false) (hround : b.roundAt (Tab.get 0 b.reports src) = round) (hd : d < 8)
    (hds : d ≠ src) (hne : d ≠ z.pos) (hmask : b.dieMask.testBit d = true) (hrep : Tab.get 0 b.reports d = 0) :
    z.barReport src id round = z.setBar id (some { b with reports := Tab.mod 0 b.reports src (· + 1) }) := by
  set b' : Barrier := { b with reports := Tab.mod 0 b.reports src (· + 1) }
  have hrep' : Tab.get 0 b'.reports d = 0 := (Tab.get_mod (d := 0) b.reports src d (· + 1)).trans ((if_neg hds).trans hrep)
  have hb' : (z.setBar id (some b')).bar id = some b' := bar_setBar ..
  have hsettle : (z.setBar id (some b')).barSettle id = z.setBar id (some b') := by
    rw [State.barSettle, reportRounds_still hb' (.inr (.inl hlead)), closeRounds_unreported hb' hwide hd hne hmask hrep']
  simp only [State.barReport, hb]
  rw [if_pos (by simp [hlead, hst, hsrc, hround])]
  exact hsettle

/-- A release of the oldest open round closes it, and this die's record is left as the closing makes it. -/
theorem barRelease_closes {z : State} (hb : z.bar id = some b) (hst : b.st = 1) (hlead : z.leader ≠ z.pos) (hround : b.round = round)
    (hwide : b.dieWide = false) (hparts : b.parts ≠ []) (hahead : ∀ x ∈ b.ahead, x.2 ≤ 1) {t c : Nat}
    (hwaits : b.waits = [⟨.tile t, c, some round, true⟩]) :
    z.barRelease id round = (z.setBar id (some b.close.1)).answer (.tile t) 0 round := by
  obtain ⟨-, hnext, -, hcores, hdies, -, hres⟩ := close_even hahead (by simp [hwaits, hround])
  have hb' : ((z.setBar id (some b.close.1)).answer (.tile t) 0 round).bar id = some b.close.1 := bar_setBar z id (some b.close.1)
  have hfull : b.close.1.full b.close.1.reported = false := not_full hnext (by rw [Barrier.parts, hcores]; exact hparts)
  have hwide' : b.close.1.dieWide = false := by rw [Barrier.dieWide, hdies]; exact hwide
  rw [hwaits, hround] at hres
  simp only [State.barRelease, hb, hst, hround, beq_self_eq_true, Bool.and_self, if_true, hres, State.answers, List.map_cons, List.map_nil,
    List.foldl_cons, List.foldl_nil]
  rw [State.barSettle, reportRounds_still hb' (.inr (.inr hfull)), closeRounds_away hb' hwide' hlead]

end

/-- Settles O22: a report is counted by `barReport_counts`, and a release closes the round by `barRelease_closes`, with what `close_even`
says of the record. -/
theorem barrierRounds : Obligations.BarrierRounds := by
  intro s p id round b k0 hb hst
  refine ⟨?report, ?release⟩
  case report =>
    intro k d hacc hlead hsrc hwide hround hd hds hne hmask hrep
    have hexec := barReport_counts (z := s.taken p k) (by rw [taken_bar]; exact hb) hst (by rw [taken_leader, taken_pos]; exact hlead) hsrc hwide
      hround hd hds (by rw [taken_pos]; exact hne) hmask hrep
    exact ⟨_, (receive_taken hacc _).trans (congrArg Host.Outcome.next hexec), taken_results s p k,
      bar_setBar ..⟩
  case release =>
    intro k t c hacc hlead hround hwide hparts hwaits hahead
    have hexec := barRelease_closes (z := s.taken p k) (by rw [taken_bar]; exact hb) hst (by rw [taken_leader, taken_pos]; exact hlead) hround
      hwide hparts hahead hwaits
    obtain ⟨hnew, hnext, hnone, hcores, -⟩ := close_even hahead (by simp [hwaits, hround])
    rw [hround] at hnew
    exact ⟨_, b.close.1, (receive_taken hacc _).trans (congrArg Host.Outcome.next hexec), bar_setBar (s.taken p k) id (some b.close.1),
      hnew, hnext, hnone, hcores, congrArg (fun l : List SyncResult => l ++ [⟨.tile t, 0, round⟩]) (taken_results s p k)⟩

/-! ### The debugger (R306, R307) -/

section
variable {s z : State}

theorem dbgEvent_sync (z : State) (cmd : Nat) : (z.dbgEvent cmd).sync = z.sync := (event_mild ..).sync

theorem obj_of_sync (h : z.sync = s.sync) (i : Nat) : z.obj i = s.obj i := by simp only [State.obj, h]

theorem bar_of_sync (h : z.sync = s.sync) (id : Nat) : z.bar id = s.bar id := by simp only [State.bar, h]

theorem reg_setReg_same (s : State) (a : Nat) (v : Word) : (s.setReg a v).reg a = v := (State.reg_setReg s a a v).trans (if_pos rfl)

/-- `READ` of a field that the object has. -/
theorem dbgRead_shows {v : Nat} (h : s.dbgField s.dbgIdx (s.rfld 0x2800 16 4) = some v) :
    ∃ s', exec .syncDbgRead s = .next s' ∧ s'.sync = s.sync ∧ s'.reg 0x2804 = BitVec.ofNat 32 v := by
  have hread : s.dbgRead = s.setReg 0x2804 (BitVec.ofNat 32 v) := by simp only [State.dbgRead, h]
  exact ⟨_, congrArg Host.Outcome.next hread, State.setReg_sync .., reg_setReg_same ..⟩

theorem dbgRefuse_err (s : State) : s.dbgRefuse.rfld 0x2800 30 1 = 1 := by
  rw [State.dbgRefuse, State.rfld_setFld _ _ _ _ _ (by norm_num)]
  norm_num

theorem dbgRefuse_sync (s : State) : s.dbgRefuse.sync = s.sync := by rw [State.dbgRefuse, State.setFld_sync]

theorem tellClosed_sync (z : State) (id : Nat) (b : Barrier) : (z.tellClosed id b).sync = z.sync :=
  (Mild.foldl (z.recordDies b.dieMask) _ (fun z d => send_mild z d _ none) z).sync

/-- The state word of an object for which this die holds no barrier record. -/
theorem dbgState_plain {i : Nat} (h : s.bar (i + s.pos * 2 ^ 16) = none) : s.dbgState i = (s.obj i).typ + (s.obj i).st * 4 + (s.obj i).job * 16
    + (s.obj i).owner * 65536 + (if (s.obj i).waiters = [] then 0 else 2 ^ 31) := by
  have hbit : bit1 (s.hasWaiters i) * 2 ^ 31 = if (s.obj i).waiters = [] then 0 else 2 ^ 31 := by
    simp only [State.hasWaiters, h]
    cases (s.obj i).waiters with
    | nil => simp [bit1]
    | cons w ws => simp [bit1]
  simp only [State.dbgState, h, hbit]
  norm_num [bit1]

theorem dbgWrite_value (hst : (s.obj s.dbgIdx).st = 1) (ht : (s.obj s.dbgIdx).typ ≠ 2) (hf : s.rfld 0x2800 16 4 = 1)
    (hw : (s.obj s.dbgIdx).waiters = []) :
    s.dbgWrite = (s.setObj s.dbgIdx { s.obj s.dbgIdx with value := s.dbgValue }).dbgEvent 2 := by
  simp [State.dbgWrite, hst, ht, hf, setValue_idle hw]

theorem dbgWrite_refused (hst : (s.obj s.dbgIdx).st ≠ 1) : s.dbgWrite = s.dbgRefuse := by
  simp [State.dbgWrite, hst]

theorem dbgRelease_abandons (hst : (s.obj s.dbgIdx).st ≠ 0) (ht : (s.obj s.dbgIdx).typ = 0) (hv : s.dbgValue % 4 = 2) :
    s.dbgRelease = (s.releaseAll s.dbgIdx (s.obj s.dbgIdx) 2 0).dbgEvent 3 := by
  simp [State.dbgRelease, hst, ht, hv]

/-- `CLOSE` of a die-wide barrier on which nothing waits: the record is left as the closing makes it, and the objects as they were. -/
theorem dbgClose_closes {b : Barrier} (hb : s.bar s.dbgId = some b) (hst : (s.obj s.dbgIdx).st = 1) (ht : (s.obj s.dbgIdx).typ = 2)
    (hbst : b.st = 1) (hwide : b.dieWide = true) (hwaits : b.waits = []) (hparts : b.parts ≠ []) (hahead : ∀ x ∈ b.ahead, x.2 ≤ 1) :
    s.dbgClose.sync = (s.setBar s.dbgId (some b.close.1)).sync := by
  obtain ⟨-, hnext, -, hcores, hdies, -, hres⟩ := close_even hahead (by simp [hwaits])
  have htold := tellClosed_sync (s.setBar s.dbgId (some b.close.1)) s.dbgId b
  have hb' : ((s.setBar s.dbgId (some b.close.1)).tellClosed s.dbgId b).bar s.dbgId = some b.close.1 :=
    (bar_of_sync htold _).trans (bar_setBar ..)
  have hfull : b.close.1.full 0 = false := not_full hnext (by rw [Barrier.parts, hcores]; exact hparts)
  have hwide' : b.close.1.dieWide = true := by rw [Barrier.dieWide, hdies]; exact hwide
  have hclose : s.dbgClose = ((s.setBar s.dbgId (some b.close.1)).tellClosed s.dbgId b).dbgEvent 4 := by
    rw [hwaits] at hres
    simp only [State.dbgClose, hb, hst, ht, hbst, hres, State.answers, List.map_nil, List.foldl_nil, bne_self_eq_false, Bool.or_self,
      Bool.false_eq_true, if_false]
    rw [State.barSettle, reportRounds_still hb' (.inl hwide'), closeRounds_wide hb' hwide' hfull]
  rw [hclose, dbgEvent_sync, htold]

/-- `FREE` of an object on which nothing waits and for which this die holds no barrier record. -/
theorem dbgFree_frees (hst : (s.obj s.dbgIdx).st ≠ 0) (hw : (s.obj s.dbgIdx).waiters = []) (hb : s.bar s.dbgId = none) :
    s.dbgFree = ((s.dbgEvent 5).setObj s.dbgIdx (s.obj s.dbgIdx)).setObj s.dbgIdx SyncObj.init := by
  have hshare : ∀ r, (s.dbgEvent 5).shareSync (s.otherDies s.dbgId) r = s.dbgEvent 5 := by
    intro r
    simp only [State.otherDies, hb]
    rfl
  have hdrop : ∀ z : State, z.bar s.dbgId = none → z.dropBar s.dbgId 2 = z := by
    intro z hz
    simp only [State.dropBar, hz]
  simp only [State.dbgFree, beq_eq_false_iff_ne.2 hst, Bool.false_eq_true, if_false, hshare, releaseAll_idle hw]
  exact hdrop _ ((bar_of_sync (dbgEvent_sync s 5) s.dbgId).trans hb :)

end

/-- Settles O23: each command acts by its lemma above; the event that follows leaves the sync tree alone. -/
theorem debuggerOverridesObjects : Obligations.DebuggerOverridesObjects := by
  intro s i o f v b
  refine ⟨fun hf hst ht hb => ?state, fun hf hst ht => ?value, fun hf hst ht hw => ?write, fun hst => ?refused,
    fun t x a tk hst ht hv hw => ?release, fun bb hb hst ht hbst hwide hwaits hparts hahead => ?close, fun hst hw hb => ?free⟩
  case state =>
    have hfield : s.dbgField i f = some (s.dbgState i) := by rw [hf]; rfl
    exact dbgRead_shows (hfield.trans (congrArg some (dbgState_plain hb)))
  case value =>
    have hfield : s.dbgField i f = some o.value := by rw [hf]; simp [State.dbgField, o, hst, ht]
    exact dbgRead_shows hfield
  case write =>
    refine ⟨_, congrArg Host.Outcome.next (dbgWrite_value hst ht hf hw), ?_, (congrArg SyncTree.results (dbgEvent_sync _ 2) :)⟩
    exact (obj_of_sync (dbgEvent_sync _ 2) i).trans (setObj_obj ..)
  case refused =>
    exact ⟨_, congrArg Host.Outcome.next (dbgWrite_refused hst), dbgRefuse_sync s, dbgRefuse_err s⟩
  case release =>
    refine ⟨_, congrArg Host.Outcome.next (dbgRelease_abandons hst ht hv), ?_, ?_⟩
    · rw [obj_of_sync (dbgEvent_sync _ 3), State.releaseAll, hw]
      exact setObj_obj ..
    · rw [dbgEvent_sync, State.releaseAll, hw]
      rfl
  case close =>
    have hsync := dbgClose_closes hb hst ht hbst hwide hwaits hparts hahead
    obtain ⟨hnew, hnext, -⟩ := close_even hahead (by simp [hwaits])
    exact ⟨_, bb.close.1, rfl, (bar_of_sync hsync _).trans (bar_setBar ..), hnew, hnext, (congrArg SyncTree.objs hsync :)⟩
  case free =>
    exact ⟨_, congrArg Host.Outcome.next (dbgFree_frees hst hw hb), setObj_obj .., (congrArg SyncTree.results (dbgEvent_sync s 5) :)⟩

end Sys2Proof.Machine
end

section
/-!
PROOFS. Doorbells, `QM_CTRL`, write-backs and notifications (spec/12_rings_doorbells_descriptors.md R309, R314, R318, R319, R340).
-/

namespace Sys2Proof.Machine

open Sys2Proof

variable {s : State}

/-! ### A stream that has work settles `ACTIVE` (R315) -/

/-- The die with other queue-manager copies of its streams. -/
def State.withStreams (s : State) (t : Tab (Option Stream)) : State := { s with qm := { s.qm with streams := t } }

/-- A stream that holds a descriptor, or whose ring does, has work, unless a descriptor of it is pre-empted. -/
theorem workState_active {k : Nat} {x : Stream} (hpre : ∀ y ∈ s.descsOf k, y.st ≠ .preempted)
    (hwork : s.descsOf k ≠ [] ∨ x.head ≠ s.tailOf x) : s.workState k x = .active := by
  have hnone : (s.descsOf k).any (fun d => d.st == .preempted) = false := by
    rw [List.any_eq_false]
    exact fun y hy h => hpre y hy (beq_iff_eq.mp h)
  have hsome : ((s.descsOf k).isEmpty && x.head == s.tailOf x) = false := by
    rw [Bool.and_eq_false_iff, List.isEmpty_eq_false_iff, beq_eq_false_iff_ne]
    exact hwork
  simp only [State.workState, hnone, hsome, Bool.false_eq_true, if_false]

/-- A stream that runs, or that takes up work, comes out `ACTIVE`, and no entry is written. -/
theorem settle_exact_working {k : Nat} {x : Stream} (hx : s.stream k = some x) (hhalt : x.halting = false) (hreset : x.resetting = false)
    (hst : x.st = .idle ∨ x.st = .active) (hwork : s.workState k x = .active) :
    ∃ t, (s.settle k).exact k = s.withStreams t ∧ Tab.get none t k = some { x with st := .active } := by
  obtain hidle | hact := hst
  · obtain ⟨t, ht⟩ := onStream_rest s k (fun x => { x with st := .active })
    have hget : (s.onStream k (fun x => { x with st := .active })).stream k = some { x with st := .active } := stream_onStream hx _
    refine ⟨t, ?_, ?_⟩
    · have hsettle : s.settle k = s.onStream k (fun x => { x with st := .active }) := by
        simp only [State.settle, hx, hhalt, hreset, hidle, hwork]
        rfl
      rw [hsettle, State.exact, hget]
      exact ht
    · rw [ht] at hget
      exact hget
  · have hsettle : s.settle k = s := by
      simp only [State.settle, hx, hhalt, hreset, hact, hwork]
      rfl
    refine ⟨s.qm.streams, ?_, ?_⟩
    · rw [hsettle, State.exact, hx]
      exact if_pos (beq_iff_eq.mpr hact)
    · rw [← hact]
      exact hx

/-! ### Doorbells (R318, R319) -/

theorem onRing_held {rid : Nat} {r : Ring} (hr : Tab.get none s.qm.rings rid = some r) (f : Ring → Ring) :
    s.onRing rid f = { s with qm := { s.qm with rings := Tab.set none s.qm.rings rid (some (f r)) } } := by
  simp only [State.onRing, hr]

/-- What a doorbell has done that R318 accepts: its ring has a new tail and tag, its stream is `ACTIVE`, and memory stays. -/
structure State.Rung (s s' : State) (rid : Nat) (r : Ring) (x : Stream) : Prop where
  ring : Tab.get none s'.qm.rings rid = some r
  stream : s'.stream r.stream = some { x with st := .active }
  mem : s'.mem = s.mem

/-- The stream of an accepted doorbell settles `ACTIVE`, with its ring's new tail. -/
theorem bellSettle_rung {rid : Nat} {r : Ring} {x : Stream} (tail tag : Nat) (hr : Tab.get none s.qm.rings rid = some r)
    (hx : s.stream r.stream = some x) (hxr : x.ring = rid) (hhalt : x.halting = false) (hreset : x.resetting = false)
    (hst : (x.st = .idle ∧ x.head ≠ tail) ∨ x.st = .active) (hpre : ∀ y ∈ s.descsOf r.stream, y.st ≠ .preempted)
    (hwork : x.st = .active → (s.descsOf r.stream ≠ [] ∨ x.head ≠ tail)) :
    s.Rung ((((s.onRing rid (fun r => { r with tail := tail, lastTag := tag })).onStream r.stream (fun x => x)).settle r.stream).exact
      r.stream) rid { r with tail := tail, lastTag := tag } x := by
  rw [onRing_held hr]
  set z : State := { s with qm := { s.qm with rings := Tab.set none s.qm.rings rid (some { r with tail := tail, lastTag := tag }) } }
  obtain ⟨t0, ht0⟩ := onStream_rest z r.stream (fun x => x)
  have hzx : (z.onStream r.stream (fun x => x)).stream r.stream = some x := stream_onStream (s := z) hx _
  rw [ht0] at hzx ⊢
  set y : State := { z with qm := { z.qm with streams := t0 } }
  have hring : Tab.get none y.qm.rings rid = some { r with tail := tail, lastTag := tag } :=
    Tab.get_set_self (d := none) s.qm.rings rid (some { r with tail := tail, lastTag := tag })
  have htail : y.tailOf x = tail := by rw [State.tailOf, hxr, hring]
  have hhas : y.descsOf r.stream ≠ [] ∨ x.head ≠ y.tailOf x := by
    rw [htail]
    exact hst.elim (fun h => .inr h.2) hwork
  obtain ⟨t, heq, hget⟩ := settle_exact_working hzx hhalt hreset (hst.imp_left And.left) (workState_active hpre hhas)
  rw [heq]
  exact ⟨hring, hget, rfl⟩

/-! ### `QM_CTRL` (R309) -/

/-- Writing `QM_CTRL` changes no other set-up register, whatever it starts or stops. -/
theorem qmCtrl_cfg (v : Word) : (s.qmCtrl v).cfg = (s.setReg 0x2000 (v &&& 0x0001FF01)).cfg := by
  have hstart : ∀ (b : Bool) (z : State), (if b then z.bootReadyEvent.earlyEvents else z).cfg = z.cfg := fun b z => by
    split
    · rw [(State.earlyEvents_frame _).2.2.2.1, (State.bootReadyEvent_frame _).2.2.2.1]
    · rfl
  have hread : ∀ (b : Bool) (z : State) (q : Qm), (if b then { z with qm := q } else z).cfg = z.cfg := fun b z q => by
    split
    · rfl
    · rfl
  have hstop : ∀ (b : Bool) (z : State), (if b then z.quiesce else z).cfg = z.cfg := fun b z => by
    split
    · exact (State.quiesce_frame z).2.2.2.1
    · rfl
  exact (hstop _ _).trans ((hread _ _ _).trans (hstart _ _))

theorem qmCtrl_reg (v : Word) (a : Nat) : (s.qmCtrl v).reg a = if a = 0x2000 then v &&& 0x0001FF01 else s.reg a :=
  (congrArg (fun t => Tab.get 0 t a) (qmCtrl_cfg v)).trans (State.reg_setReg ..)

/-! ### Write-backs and notifications (R314, R340) -/

/-- A write-back of a stream of which no ring is held writes its 56 bytes. -/
theorem writeBack_mem {sid : Nat} {x : Stream} (hx : s.stream sid = some x) (hring : Tab.get none s.qm.rings x.ring = none)
    (hc : s.qmCheck 0 true false (s.qmBase 0x200C + 128 * sid + 0x20) 56 = 0)
    (hhome : s.isHome (s.qmBase 0x200C + 128 * sid + 0x20) = true)
    (hg : (s.qmBase 0x200C + 128 * sid + 0x20) % granuleBytes + 56 ≤ granuleBytes) :
    (s.writeBack sid).mem = s.mem.wrBytes (s.qmBase 0x200C + 128 * sid + 0x20) x.bytes := by
  have hlen : x.bytes.length = 56 := by simp [Stream.bytes]
  simp only [State.writeBack, hx]
  rw [writeRing_none ((congrArg (fun t => Tab.get none t x.ring) (wrTable_quiet s _ x.bytes).rings).trans hring)]
  exact wrTable_home (by rw [hlen]; exact hc) hhome (by rw [hlen]; exact hg)

/-- A notification at the end of the gap writes its word, and starts a new gap. -/
theorem notify_writes {t0 a : Nat} (ha : a = s.rfld 0x2020 2 30 * 4 + s.rfld 0x2024 0 20 * 2 ^ 32) (hdue : s.qm.notifyDue = true)
    (hon : bitAt (s.reg 0x2000) 16 = true) (hlast : s.qm.lastNotify = some t0) (hgap : t0 + 1000 * s.rfld 0x2000 8 8 ≤ s.now)
    (hc : s.qmCheck 0 true true a 4 = 0) (hhome : s.isHome a = true) (hg : a % granuleBytes + 4 ≤ granuleBytes) :
    s.notify.mem = s.mem.wrLE a 4 (s.reg 0x2028).toNat
    ∧ s.notify.qm = { s.qm with notifyDue := false, lastNotify := some s.now } := by
  have hwrites : s.notify = { State.wrPkg { s with qm := { s.qm with notifyDue := false } } a 0 (leBytes 4 (s.reg 0x2028).toNat) with
      qm := { s.qm with notifyDue := false, lastNotify := some s.now } } := by
    simp only [State.notify, hdue, hon, hlast, decide_eq_true hgap, ← ha, hc]
    rfl
  rw [hwrites]
  exact ⟨wrPkg_mem_home _ a 0 _ ((isHome_of rfl rfl a).trans hhome) (by rwa [leBytes_length]), rfl⟩

/-- Settles O29: an accepted doorbell leaves its stream `ACTIVE` (`ringBell_ok`, `bellSettle_rung`); an event doorbell moves the head
(`eventBell_ok`); `QM_CTRL` is one register write (`qmCtrl_reg`); a write-back and a notification are one write each. -/
theorem doorbellsAndWriteBacks : Obligations.DoorbellsAndWriteBacks := by
  intro s p k0
  refine ⟨?ring, ?event, fun v => ⟨s.qmCtrl v, rfl, (qmCtrl_reg v _).trans (if_pos rfl), fun a ha => (qmCtrl_reg v a).trans (if_neg ha)⟩,
    ?writeback, ?notify⟩
  case ring =>
    intro r x j k v rid tail age hacc hrole hon hwaits haddr halign hbits hr hread hvalid hx hxv hxr hlog hj hjv hjl hnew hage htail
      hahead hst hhalt hreset hpre hwork
    have hresume : bitsOf v 14 1 = 0 := by simp only [bitsOf] at hbits ⊢; omega
    have hreserved : bitsOf v 15 1 = 0 := by simp only [bitsOf] at hbits ⊢; omega
    obtain ⟨P, T, htaken⟩ := taken_shape s p k
    set z : State := { s with ports := P, telem := T }
    have hexec : exec (.doorbell p k0) s = .next (z.windowWrite p k) := htaken ▸ receive_taken hacc _
    have hbell := ringBell_ok (s := z) p hresume hreserved hwaits hr hread hvalid hx hxv hxr hlog hj hjv hjl hnew hage htail hahead
    have hwrite := (windowWrite_ring (z := z) hon hrole haddr halign (congrArg Prod.snd hbell)).trans (congrArg Prod.fst hbell)
    obtain ⟨hring, hstream, hmem⟩ := bellSettle_rung (s := z) tail (bitsOf v 32 32) hr hx hxr hhalt hreset hst hpre hwork
    exact ⟨_, hexec.trans (congrArg Host.Outcome.next hwrite), hmem, hring, hstream⟩
  case event =>
    intro k h n hacc hrole hon hlt hle hahead
    obtain ⟨P, T, htaken⟩ := taken_shape s p k
    set z : State := { s with ports := P, telem := T }
    have hexec : exec (.eventDoorbell p k0) s = .next (z.windowWrite p k) := htaken ▸ receive_taken hacc _
    have hwrite := (windowWrite_event (z := z) hon hrole rfl).trans (eventBell_ok (z := z) p hlt hle hahead)
    exact ⟨_, hexec.trans (congrArg Host.Outcome.next hwrite), rfl, rfl⟩
  case writeback =>
    intro sid x a hx hring hc hhome hg
    exact ⟨s.writeBack sid, rfl, (writeBack_quiet s sid).streams, writeBack_mem hx hring hc hhome hg⟩
  case notify =>
    intro t0 a hdue hon hlast hgap hc hhome hg
    exact ⟨s.notify, rfl, notify_writes rfl hdue hon hlast hgap hc hhome hg⟩

end Sys2Proof.Machine
end

section
/-!
PROOFS. The fetch and the dispatch of descriptors (spec/12_rings_doorbells_descriptors.md R322, R326, R327, R328).
-/

namespace Sys2Proof.Machine

open Sys2Proof

variable {s : State} {k : Nat} {x : Stream} {d : Desc}

/-! ### The queue manager's table accesses leave its descriptors alone (R314, R364) -/

theorem qmRefuse_descs (s : State) (e : Ev) (a r : Nat) : (s.qmRefuse e a r).qm.descs = s.qm.descs := by
  rw [State.qmRefuse]
  split
  · exact (event_mild _ _).descs
  · exact (denied_mild ..).descs

theorem wrTable_descs (s : State) (a : Nat) (bs : List Byte) : (s.wrTable a bs).qm.descs = s.qm.descs := by
  simp only [State.wrTable]
  split
  · exact qmRefuse_descs ..
  · exact (wrPkg_mild ..).descs

theorem writeRing_descs (s : State) (x : Stream) : (s.writeRing x).qm.descs = s.qm.descs := by
  rw [State.writeRing]
  split
  · exact wrTable_descs ..
  · rfl

theorem writeBack_descs (s : State) (k : Nat) : (s.writeBack k).qm.descs = s.qm.descs := by
  rw [State.writeBack]
  split
  · rfl
  · rw [writeRing_descs, wrTable_descs]

theorem exact_descs (s : State) (k : Nat) : (s.exact k).qm.descs = s.qm.descs := by
  rw [State.exact]
  split
  · split
    · rfl
    · exact writeBack_descs ..
  · rfl

theorem exact_stream (s : State) (k : Nat) : (s.exact k).stream = s.stream := by
  have hstreams : (s.exact k).qm.streams = s.qm.streams := by
    rw [State.exact]
    split
    · split
      · rfl
      · exact (writeBack_quiet ..).streams
    · rfl
  exact funext fun j => congrArg (fun t => Tab.get none t j) hstreams

/-! ### The check at fetch (R322, R354) -/

/-- The mask of a group decides about a descriptor only if the descriptor names a group. -/
theorem formOk_ungrouped (h : d.groupOf = none) (members g g' : Nat) : d.formOk members g = d.formOk members g' := by
  have hcompute : d.opcode = 1 → d.computeOk members g = d.computeOk members g' := fun hop => by
    have hbit : bitAt (d.w 0x10) 15 = false := by simpa [Desc.groupOf, hop] using h
    simp only [Desc.computeOk, hbit, Bool.false_eq_true, if_false]
  rw [Desc.formOk, Desc.formOk]
  congr 1
  split
  · next hop => exact hcompute hop
  all_goals rfl

/-- The check of a descriptor with the group entry that the Keywork has read for it, as with that entry itself. -/
theorem rejectReason_readGroup (s : State) (x : Stream) (d : Desc) (grp : BitVec 64) :
    (s.readGroup d grp).rejectReason x d ((s.readGroup d grp).group d) = s.rejectReason x d grp.toNat := by
  cases hg : d.groupOf with
  | none =>
    have hread : s.readGroup d grp = s := by simp only [State.readGroup, hg]
    rw [hread, State.rejectReason, State.rejectReason, formOk_ungrouped hg _ _ grp.toNat]
  | some g =>
    have hread : s.readGroup d grp = s.onKw (fun k => { k with groups := Tab.set 0 k.groups g grp }) := by simp only [State.readGroup, hg]
    have hmask : (s.readGroup d grp).group d = grp.toNat := by
      rw [hread, State.group, hg]
      exact congrArg BitVec.toNat (Tab.get_set_self (d := 0) s.kw.groups g grp)
    rw [hmask, hread]
    rfl

/-- A check depends on the jobs and on the lifecycle of the part. -/
theorem rejectReason_congr {z : State} (hj : z.qm.jobs = s.qm.jobs) (hs : z.sec = s.sec) (x : Stream) (d : Desc) (grp : Nat) :
    z.rejectReason x d grp = s.rejectReason x d grp := by
  have hlive : z.jobLive x.job = s.jobLive x.job := by rw [State.jobLive, State.jobLive, hj]
  have hretain : z.jobRetain x.job = s.jobRetain x.job := by rw [State.jobRetain, State.jobRetain, hj]
  rw [State.rejectReason, State.rejectReason, hlive, hretain, hs]

/-! ### The fetch (R322, R327) -/

/-- A copy as its check, with result `n`, leaves it. -/
def Desc.checked (d : Desc) (n grp : Nat) : Desc :=
  { d with cores := if n = 0 then d.coresOf grp else []
           outcome := if n = 0 then none else some (if n = 3 then (stKilled, 0, 127) else (stSecurity, 0, 127)) }

/-- A copy joins those held, and its stream goes on to the next ring entry. -/
def State.joinDesc (s : State) (k : Nat) (x : Stream) (log2 : Nat) (d : Desc) : State :=
  (State.onStream { s with qm := { s.qm with descs := s.qm.descs ++ [d], nextUid := s.qm.nextUid + 1 } } k (fun y => { y with
    head := (x.head + 1) % 2 ^ log2, nextSeq := (x.nextSeq + 1) % 2 ^ 32 })).exact k

theorem joinDesc_descs (s : State) (k : Nat) (x : Stream) (log2 : Nat) (d : Desc) : (s.joinDesc k x log2 d).qm.descs = s.qm.descs ++ [d] := by
  rw [State.joinDesc, exact_descs, onStream_descs]

theorem joinDesc_stream (hx : s.stream k = some x) (log2 : Nat) (d : Desc) :
    (s.joinDesc k x log2 d).stream k = some { x with head := (x.head + 1) % 2 ^ log2, nextSeq := (x.nextSeq + 1) % 2 ^ 32 } := by
  rw [State.joinDesc, exact_stream]
  refine stream_onStream (x := x) ?_ _
  exact hx

/-- A descriptor that has been read joins as its check leaves it; a rejected one is reported, which touches none of this. -/
theorem takeDesc_joins {ws : List Word} {n : Nat} (hd : d = Desc.fetched s.qm.nextUid k x.head ws) {grp : BitVec 64}
    (hn : s.rejectReason x d grp.toNat = n) (log2 : Nat) :
    Mild ((s.readGroup d grp).joinDesc k x log2 (d.checked n ((s.readGroup d grp).group d))) (s.takeDesc k x log2 ws grp) := by
  set z := s.readGroup d grp with hz
  have hreason : z.rejectReason x d (z.group d) = n := (rejectReason_readGroup ..).trans hn
  obtain ⟨e, htake⟩ : ∃ e, s.takeDesc k x log2 ws grp = if z.rejectReason x d (z.group d) = 0
      then z.joinDesc k x log2 (d.checked (z.rejectReason x d (z.group d)) (z.group d))
      else (z.joinDesc k x log2 (d.checked (z.rejectReason x d (z.group d)) (z.group d))).event e := by
    rw [hz, hd]
    exact ⟨_, rfl⟩
  rw [htake, hreason]
  split
  · exact Mild.refl _
  · exact event_mild ..

theorem readGroup_qm (s : State) (d : Desc) (grp : BitVec 64) : (s.readGroup d grp).qm = s.qm := by
  rw [State.readGroup]
  split
  · rfl
  · rfl

/-- A stream that may fetch and whose ring entry is at hand takes it up. -/
theorem descFetch_takes {r : Ring} {s1 : State} (hx : s.stream k = some x) (hr : Tab.get none s.qm.rings x.ring = some r)
    (hmay : s.mayFetch x k = true) (hneed : s.qmNeed (ringAgent k) x.job true (r.base + 64 * x.head) 64 = (s1, .ok ()))
    (grp : BitVec 64) :
    s.descFetch k grp = ((s1.readAt (r.base + 64 * x.head) 64).dropFetch (ringAgent k)).takeDesc k x r.log2
      ((List.range 16).map fun i => BitVec.ofNat 32 ((Mem.wrBytes [] 0 (s1.rdPkg (ringAgent k) (r.base + 64 * x.head) 64)).rdLE (4 * i) 4))
      grp := by
  simp only [State.descFetch, hx, hr, hmay, hneed, Bool.not_true, Bool.false_eq_true, if_false]

/-! ### The dispatch (R326, R328) -/

/-- Every stream that is held is served at its level. -/
theorem mem_served (hx : s.stream k = some x) : k ∈ s.served x.prio := by
  simp only [State.served, List.mem_append, List.mem_filter, List.mem_map, decide_eq_true_eq]
  refine (lt_or_ge (Tab.get 0 s.qm.rr x.prio) k).imp (fun h => ⟨?_, h⟩) (fun h => ⟨?_, h⟩)
  all_goals exact ⟨(k, some x), ⟨tab_get_mem hx, beq_self_eq_true _⟩, rfl⟩

/-- The one descriptor that is ready starts. -/
theorem dispatch_starts (hx : s.stream k = some x) (hn : s.nextDesc k = some d) (hprio : x.prio < 8) (hready : s.ready d x.prio = .start)
    (honly : ∀ j, j ≠ k → s.nextDesc j = none) : s.dispatch = s.startDesc d := by
  have hlevel : s.level' k = x.prio := by rw [State.level', hx]
  refine dispatchOver_one hn (by rw [hlevel]; exact hready) honly _ ?_
  exact List.mem_flatMap.mpr ⟨x.prio, by simpa using hprio, mem_served hx⟩

/-- A descriptor that starts is in progress from now on. -/
theorem startDesc_running (hx : s.stream k = some x) (hn : s.nextDesc k = some d) :
    ∃ d' ∈ (s.startDesc d).qm.descs, d'.uid = d.uid ∧ d'.words = d.words ∧ d'.st = .running ∧ d'.startTs = s.now
      ∧ d'.outcome = d.outcome := by
  obtain ⟨hmem, hstream, hhalt, hreset⟩ := nextDesc_facts hx hn
  set f : Desc → Desc := fun d' => { d' with
    st := .running, startTs := s.now, timed := d.opcode != 1, place := s.freePlace.getD 0
    begun := d'.outcome.isSome || d.opcode == 2 || d.opcode == 4 || d.opcode == 8 || d.opcode == 9, acted := d'.outcome.isSome }
  set z := s.onDesc d.uid f
  set w : State := { z with qm := { z.qm with rr := Tab.set 0 z.qm.rr (z.level' d.stream) d.stream } }
  have hstart : s.startDesc d = w.settle d.stream := rfl
  have hwx : w.stream d.stream = some x := by rw [hstream]; exact hx
  have hwd : f d ∈ w.qm.descs := List.mem_map.mpr ⟨d, hmem, if_pos (beq_self_eq_true _)⟩
  obtain ⟨d', hd', hbare⟩ := bare_mem (settle_descs hwx hreset hhalt) hwd
  rw [hstart]
  exact ⟨d', hd', (congrArg Desc.uid hbare :), (congrArg Desc.words hbare :), (congrArg Desc.st hbare :), (congrArg Desc.startTs hbare :),
    (congrArg Desc.outcome hbare :)⟩

/-- Settles O24: the fetched words join the descriptors held as the check leaves them (`takeDesc_joins`), and the one descriptor that is
ready is in progress after dispatch (`dispatch_starts`, `startDesc_running`). That a `SECURITY` rejection carries cause 0 is the model's
choice (log 36). -/
theorem descriptorsAreFetchedAndStarted : Obligations.DescriptorsAreFetchedAndStarted := by
  intro s k x hx
  refine ⟨?fetch, fun d hclk hn hprio hready honly => ?dispatch⟩
  case fetch =>
    intro r grp s1 hmay hr a ag m ws n hneed
    have hread : Mild s ((s1.readAt a 64).dropFetch ag) := by
      have h := need_mild s { initReader with job := x.job, hostOk := true } ag false a 64
      rw [show (s.need _ ag false a 64).1 = s1 from congrArg Prod.fst hneed] at h
      exact h.trans ((readAt_mild ..).trans (dropFetch_mild ..))
    set z := (s1.readAt a 64).dropFetch ag
    set d := Desc.fetched s.qm.nextUid k x.head ws
    have htake := takeDesc_joins (s := z) (x := x) (k := k) (d := d) (ws := ws) (by rw [hread.nextUid])
      (rejectReason_congr hread.jobs hread.sec x d grp.toNat) r.log2
    set w := z.readGroup d grp
    have hqm : w.qm = z.qm := readGroup_qm ..
    have hwx : w.stream k = some x := (congrArg (fun q : Qm => Tab.get none q.streams k) hqm).trans ((mild_stream hread k).trans hx)
    refine ⟨_, d.checked n (w.group d), _, congrArg Host.Outcome.next (descFetch_takes hx hr hmay hneed grp), ?_, rfl, rfl, rfl, rfl, ?_,
      (mild_stream htake k).trans (joinDesc_stream hwx ..), rfl, rfl⟩
    · rw [htake.descs, joinDesc_descs, hqm, hread.descs]
    · rw [Desc.checked, apply_ite some]
  case dispatch =>
    obtain ⟨d', hd', huid, hwords, hst, hts, hout⟩ := startDesc_running hx hn
    have hstart : exec .descDispatch s = .next (s.startDesc d) :=
      congrArg Host.Outcome.next ((if_pos hclk).trans (dispatch_starts hx hn hprio hready honly))
    exact ⟨_, d', hstart, hd', huid, hwords, hst, hts, hout, (State.startDesc_frame s d).1⟩

end Sys2Proof.Machine
end

section
/-!
PROOFS. How descriptors end and resume: the record of a descriptor that ended well, and the time-out
(spec/12_rings_doorbells_descriptors.md R335, R336, R345).
-/

namespace Sys2Proof.Machine

open Sys2Proof

variable {s : State} {d : Desc} {x : Stream}

/-! ### After a record nothing is left to settle (R310, R315, R342) -/

theorem killSettle_live {j : Nat} (h : s.jobLive j = true) : s.killSettle j = s := by
  unfold State.jobLive at h
  unfold State.killSettle
  split
  · next y hy =>
    rw [hy] at h
    have hlive : y.st = .live := by simpa using (Bool.and_eq_true_iff.mp h).2
    rw [hlive]
    rfl
  · rfl

theorem quiesce_enabled (h : bitAt (s.reg 0x2000) 0 = true) : s.quiesce = s :=
  if_pos (by rw [State.qmOn, h]; rfl)

theorem exact_active {k : Nat} (hx : s.stream k = some x) (hst : x.st = .active) : s.exact k = s := by
  rw [State.exact, hx]
  exact if_pos (beq_iff_eq.mpr hst)

/-! ### A descriptor is forgotten (R336) -/

/-- What of the die a forgotten descriptor has nothing to do with. -/
theorem forget_facts (s : State) (d : Desc) : (s.forget d).qm.descs = s.qm.descs.filter (fun y => y.uid != d.uid)
    ∧ (s.forget d).qm.streams = s.qm.streams ∧ (s.forget d).qm.jobs = s.qm.jobs ∧ (s.forget d).mem = s.mem ∧ (s.forget d).cfg = s.cfg := by
  rw [State.forget]
  split
  · exact ⟨rfl, rfl, rfl, rfl, rfl⟩
  · exact ⟨rfl, rfl, rfl, rfl, rfl⟩

/-! ### The record (R335, R336) -/

/-- A stream after the record of a descriptor that ended well. -/
def Stream.recorded (x : Stream) (d : Desc) (now : Nat) : Stream :=
  { x with
    satTotal := (x.satTotal + min d.sat (2 ^ 32 - 1)) % 2 ^ 64
    flushInTotal := (x.flushInTotal + min d.flushIn (2 ^ 32 - 1)) % 2 ^ 64
    flushOutTotal := (x.flushOutTotal + min d.flushOut (2 ^ 32 - 1)) % 2 ^ 64
    done := (x.done + 1) % 2 ^ 64, lastTs := now
    cplTail := if x.cplTail + 1 == 2 ^ x.cplLog2 then 0 else x.cplTail + 1
    lap := if x.cplTail + 1 == 2 ^ x.cplLog2 then x.lap + 1 else x.lap }

theorem tally_ok (x : Stream) (h : d.final.1 = stOK) : x.tally d = { x with
    satTotal := (x.satTotal + min d.sat (2 ^ 32 - 1)) % 2 ^ 64
    flushInTotal := (x.flushInTotal + min d.flushIn (2 ^ 32 - 1)) % 2 ^ 64
    flushOutTotal := (x.flushOutTotal + min d.flushOut (2 ^ 32 - 1)) % 2 ^ 64 } := by
  have hhalt : (x.halting || !(d.final.1 == stOK || d.final.1 == stReplayedOk)) = x.halting := by rw [h]; exact Bool.or_false _
  rw [Stream.tally, hhalt]

/-- What a record asks for besides the access: the queue manager is enabled, the stream is at work with another descriptor, and
nothing stops it or its job. -/
structure State.Working (s : State) (d : Desc) (x : Stream) : Prop where
  stream : s.stream d.stream = some x
  halting : x.halting = false
  resetting : x.resetting = false
  active : x.st = .active
  enabled : bitAt (s.reg 0x2000) 0 = true
  live : s.jobLive x.job = true
  other : ∃ y ∈ s.qm.descs, y.stream = d.stream
  unpreempted : ∀ y ∈ s.qm.descs, y.st ≠ .preempted

/-- A stream at work, with a descriptor left, is settled; so are its live job and the enabled queue manager. -/
theorem State.Working.settled (h : s.Working d x) :
    (((s.settle d.stream).exact d.stream).killSettle x.job).quiesce = s := by
  obtain ⟨hx, hhalt, hreset, hact, hon, hlive, hother, hpre⟩ := h
  rw [settle_active hx hhalt hreset hact hother hpre, exact_active hx hact, killSettle_live hlive, quiesce_enabled hon]

/-- Stream `y` gone past the record at the tail of `x`. -/
def Stream.pastRecord (x : Stream) (now : Nat) (y : Stream) : Stream :=
  { y with
    cplTail := if x.cplTail + 1 == 2 ^ x.cplLog2 then 0 else y.cplTail + 1
    lap := if x.cplTail + 1 == 2 ^ x.cplLog2 then y.lap + 1 else y.lap
    done := (y.done + 1) % 2 ^ 64, lastTs := now }

/-- The die once the counts of a descriptor that ended well are added and its record is written. -/
def State.wroteRecord (s : State) (d : Desc) (x : Stream) : State :=
  ((s.onStream d.stream (fun x => x.tally d)).wrPkg (x.cplBase + 32 * x.cplTail) x.job
    (recordBytes d stOK 0 127 (x.lap % 2 == 0) s.now)).count 6 1

/-- The die once the stream of that descriptor has gone on, too; the descriptor is still held. -/
def State.recorded (s : State) (d : Desc) (x : Stream) : State :=
  (s.wroteRecord d x).onStream d.stream (x.pastRecord (s.onStream d.stream (fun x => x.tally d)).now)

theorem onStream_mem (s : State) (k : Nat) (f : Stream → Stream) : (s.onStream k f).mem = s.mem := by
  obtain ⟨S, hS⟩ := onStream_rest s k f
  rw [hS]

theorem onStream_jobs (s : State) (k : Nat) (f : Stream → Stream) : (s.onStream k f).qm.jobs = s.qm.jobs := by
  obtain ⟨S, hS⟩ := onStream_rest s k f
  rw [hS]

theorem wroteRecord_mild (s : State) (d : Desc) (x : Stream) : Mild (s.onStream d.stream (fun x => x.tally d)) (s.wroteRecord d x) :=
  (wrPkg_mild ..).trans (count_mild ..)

/-- What a record leaves alone. -/
theorem recorded_leaves (s : State) (d : Desc) (x : Stream) : (s.recorded d x).qm.descs = s.qm.descs ∧ (s.recorded d x).qm.jobs = s.qm.jobs
    ∧ (s.recorded d x).cfg = s.cfg := by
  have hmild := wroteRecord_mild s d x
  refine ⟨?_, ?_, ?_⟩
  · rw [State.recorded, onStream_descs, hmild.descs, onStream_descs]
  · rw [State.recorded, onStream_jobs, hmild.jobs, onStream_jobs]
  · rw [State.recorded, (State.onStream_frame ..).2.2.2.1, hmild.cfg, (State.onStream_frame ..).2.2.2.1]

theorem recorded_stream (hx : s.stream d.stream = some x) (hf : d.final.1 = stOK) :
    (s.recorded d x).stream d.stream = some (x.recorded d s.now) := by
  have hnow : (s.onStream d.stream (fun x => x.tally d)).now = s.now := by
    rw [State.now, (State.onStream_frame ..).2.2.2.2.2.2.2.2]
    rfl
  have hput : (s.wroteRecord d x).stream d.stream = some (x.tally d) := (mild_stream (wroteRecord_mild s d x) _).trans (stream_onStream hx _)
  rw [State.recorded, stream_onStream hput, tally_ok x hf, hnow]
  rfl

theorem recorded_mem (hhome : s.isHome (x.cplBase + 32 * x.cplTail) = true)
    (hg : (x.cplBase + 32 * x.cplTail) % granuleBytes + 32 ≤ granuleBytes) : (s.recorded d x).mem
      = s.mem.wrBytes (x.cplBase + 32 * x.cplTail) (recordBytes d stOK 0 127 (x.lap % 2 == 0) s.now) := by
  obtain ⟨S, hS⟩ := onStream_rest s d.stream (fun x => x.tally d)
  have hhome' : (s.onStream d.stream (fun x => x.tally d)).isHome (x.cplBase + 32 * x.cplTail) = true := by
    rw [hS]
    exact hhome
  have hlen : (recordBytes d stOK 0 127 (x.lap % 2 == 0) s.now).length = 32 := by simp [recordBytes]
  rw [State.recorded, onStream_mem, State.wroteRecord, State.count_mem, wrPkg_mem_home _ _ _ _ hhome' (by rw [hlen]; exact hg), onStream_mem]

/-- The record of a descriptor that ended well goes to the tail of its ring; the stream goes on, and the descriptor is gone. -/
theorem record_writes (h : s.Working d x) (hother : ∃ y ∈ s.qm.descs, y.uid ≠ d.uid ∧ y.stream = d.stream) (hf : d.final = (stOK, 0, 127))
    (hw : d.wantsEvent = false)
    (hck : s.access { initReader with job := x.job } true (x.cplBase + 32 * x.cplTail) 32 = .ok ()) :
    s.record d = (s.recorded d x).forget d ∧ (s.record d).desc d.uid = none
    ∧ (s.record d).stream d.stream = some (x.recorded d s.now) := by
  obtain ⟨hdescs, hjobs, hcfg⟩ := recorded_leaves s d x
  have hrecorded := recorded_stream h.stream (congrArg Prod.fst hf)
  have hrecord : s.record d
      = (((((s.recorded d x).forget d).settle d.stream).exact d.stream).killSettle x.job).quiesce := record_ok h.stream hf hw hck
  set v := s.recorded d x
  obtain ⟨hfdescs, hfstreams, hfjobs, -, hfcfg⟩ := forget_facts v d
  set e := v.forget d
  have hheld : e.qm.descs = s.qm.descs.filter (fun y => y.uid != d.uid) := by rw [hfdescs, hdescs]
  have hex : e.stream d.stream = some (x.recorded d s.now) := (congrArg (fun t => Tab.get none t d.stream) hfstreams :).trans hrecorded
  obtain ⟨y, hy, hyu, hys⟩ := hother
  have hworks : e.Working d (x.recorded d s.now) := {
    stream := hex, halting := h.halting, resetting := h.resetting, active := h.active
    enabled := by simpa only [State.reg, hfcfg, hcfg] using h.enabled
    live := by
      rw [State.jobLive, hfjobs, hjobs]
      exact h.live
    other := ⟨y, by rw [hheld]; exact List.mem_filter.mpr ⟨hy, bne_iff_ne.mpr hyu⟩, hys⟩
    unpreempted := fun y hy => h.unpreempted y (List.mem_of_mem_filter (hheld ▸ hy)) }
  have hend : s.record d = e := hrecord.trans hworks.settled
  rw [hend]
  refine ⟨rfl, ?_, hex⟩
  rw [State.desc, hheld, List.find?_eq_none]
  exact fun y hy => by simpa using (List.mem_filter.mp hy).2

/-! ### A decided descriptor without a member (R336) -/

/-- A decided descriptor that leaves nothing to free and no operation to send, through with its run. -/
def Desc.through (d : Desc) : Desc := { d with frees := [], st := .finished, defer := [(0, [])] }

/-- A descriptor that is decided with `OK`, in progress on no core, with nothing to free, send or wait for. -/
structure Desc.EndsOk (d : Desc) : Prop where
  running : d.st = .running
  outcome : d.outcome = some (stOK, 0, 127)
  replays : d.replays = 0
  cores : d.cores = []
  frees : d.frees = []
  defer : d.defer = []
  deferring : d.deferring = 0

theorem Desc.EndsOk.final (h : d.EndsOk) : d.final = (stOK, 0, 127) := by
  simp only [Desc.final, h.outcome, h.replays]
  rfl

theorem onDesc_onDesc (s : State) (uid : Nat) (f g : Desc → Desc) (hf : ∀ d, (f d).uid = d.uid) :
    (s.onDesc uid f).onDesc uid g = s.onDesc uid (fun d => g (f d)) := by
  have hmap : (s.qm.descs.map (fun d => if d.uid == uid then f d else d)).map (fun d => if d.uid == uid then g d else d)
      = s.qm.descs.map (fun d => if d.uid == uid then g (f d) else d) := by
    rw [List.map_map]
    refine List.map_congr_left fun d _ => ?_
    by_cases h : d.uid = uid
    · simp [h, hf]
    · simp [h]
  simp only [State.onDesc, hmap]

/-- It stops being in progress at once. -/
theorem finish_through (h : d.EndsOk) : s.finish d = s.onDesc d.uid Desc.through := by
  have horder : (List.range 64).flatMap (fun m => (d.defer.filter (fun e => e.1 == m)).flatMap (·.2)) = [] := by
    rw [h.defer]
    exact List.flatMap_eq_nil_iff.mpr fun _ _ => rfl
  have hfinish : s.finish d = (s.onDesc d.uid (fun d => { d with frees := [] })).onDesc d.uid
      (fun d => { d with st := .finished, defer := [(0, [])] }) := by
    simp only [State.finish, h.final, h.frees, State.stashFreeAll, State.sendDeferred, horder]
    rfl
  exact hfinish.trans (onDesc_onDesc s d.uid _ _ fun _ => rfl)

/-- It completes, and its completion is the writing of its record. -/
theorem descComplete_records {uid : Nat} (hd : s.desc uid = some d) (h : d.EndsOk) (hx : s.stream d.stream = some x)
    (hwith : s.withdrawing uid = false) (hposted : s.postedOpen x.job = false) :
    s.descComplete uid = (s.onDesc uid Desc.through).record d.through := by
  set w := s.onDesc uid Desc.through with hw
  have hfinish : s.finish d = w := by rw [finish_through h, desc_uid hd]
  have hwd : w.desc uid = some d.through := desc_onDesc hd Desc.through rfl
  have hjob : w.jobOf d.through = x.job := by
    have hwx : w.stream d.through.stream = some x := hx
    rw [State.jobOf, hwx]
  have hgo : (d.through.st == .finished && decide (d.through.deferring = 0) && !w.withdrawing uid && !w.postedOpen x.job) = true := by
    have hw1 : w.withdrawing uid = false := hwith
    have hw2 : w.postedOpen x.job = false := hposted
    have hsent : d.through.deferring = 0 := h.deferring
    rw [hw1, hw2, hsent]
    rfl
  have hrecord : w.recordIf uid = w.record d.through := by
    simp only [State.recordIf, hwd, hjob]
    exact if_pos hgo
  have hreplay : d.willReplay = false := by
    simp only [Desc.willReplay, h.outcome]
    rfl
  have hmay : s.mayEnd d = true := by
    have hon : d.goesOn = false := by
      simp only [Desc.goesOn, h.outcome]
      rfl
    rw [State.mayEnd, State.tilesOf, h.cores, hon]
    rfl
  have hnow : s.finishNow uid = w.record d.through := by
    simp only [State.finishNow, hd, hfinish, hrecord]
  simp only [State.descComplete, hd, Desc.started, h.running, hreplay, h.outcome, hmay, hnow]
  rfl

/-- The record of a descriptor that was never replayed (R335). -/
theorem recordBytes_ok (h : d.replays = 0) (phase : Bool) (ts : Nat) :
    recordBytes d stOK 0 127 phase ts = leBytes 4 d.seq ++ leBytes 4 (bit1 phase * 2 ^ 8 + d.stream * 2 ^ 16)
      ++ leBytes 4 (min d.sat (2 ^ 32 - 1)) ++ leBytes 4 (min d.flushIn (2 ^ 32 - 1)) ++ leBytes 4 (min d.flushOut (2 ^ 32 - 1))
      ++ leBytes 4 (127 * 2 ^ 8) ++ leBytes 8 ts := by
  have hflag : bit1 (d.replays != 0) = 0 := by rw [h]; rfl
  simp only [recordBytes, hflag, Nat.zero_mul, Nat.add_zero, Nat.zero_add]

/-- Marking a descriptor as through changes nothing that a record asks for. -/
theorem State.Working.onDesc_through (h : s.Working d x) : (s.onDesc d.uid Desc.through).Working d.through x := by
  obtain ⟨hx, hhalt, hreset, hact, hon, hlive, ⟨y, hy, hys⟩, hpre⟩ := h
  refine ⟨hx, hhalt, hreset, hact, hon, hlive, ⟨_, List.mem_map_of_mem hy, ?_⟩, fun z hz => ?_⟩
  · split
    · exact hys
    · exact hys
  · obtain ⟨z0, hz0, rfl⟩ := List.mem_map.mp hz
    split
    · exact DescSt.noConfusion
    · exact hpre z0 hz0

/-! ### The time-out (R345) -/

/-- At its stream's limit a descriptor that is not decided ends `KILLED`, cause 0x14. -/
theorem timeout_kills {uid : Nat} (hd : s.desc uid = some d) (hx : s.stream d.stream = some x) (hlimit : x.timeout ≠ 0)
    (hst : d.st = .running) (htimed : d.timed = true) (hout : d.outcome = none) (hover : 10 ^ 6 * x.timeout ≤ s.elapsed d) :
    ∃ d' ∈ (s.timeout uid).qm.descs, d'.uid = uid ∧ d'.outcome = some (stKilled, 0x14, 127) := by
  have hdue : s.overTime d = true := by
    simp only [State.overTime, hx, Bool.and_eq_true, bne_iff_ne, decide_eq_true_eq]
    exact ⟨hlimit, hover⟩
  have htimeout : s.timeout uid = (s.stopWork d).timeUp d := by
    simp only [State.timeout, hd, hst, htimed, hout, hdue]
    exact if_neg (by decide)
  obtain ⟨d1, hd1, hbare⟩ := bare_mem (stopWork_descs s d).1 (List.mem_of_find?_eq_some hd)
  have hout1 : d1.outcome = none := (congrArg Desc.outcome hbare :).trans hout
  have huid1 : d1.uid = d.uid := (congrArg Desc.uid hbare :)
  refine ⟨{ d1 with outcome := some (stKilled, 0x14, 127) }, ?_, huid1.trans (desc_uid hd), rfl⟩
  rw [htimeout, State.timeUp, (event_mild _ _).descs]
  exact List.mem_map.mpr ⟨d1, hd1, (if_pos (beq_iff_eq.mpr huid1)).trans (if_neg (by rw [hout1]; decide))⟩

end Sys2Proof.Machine
end

section
/-!
PROOFS. The resumption of a pre-empted descriptor (spec/12_rings_doorbells_descriptors.md R333), and O27.
-/

namespace Sys2Proof.Machine

open Sys2Proof

variable {s : State} {d : Desc} {x : Stream} {c t : Nat} {f : Frame}

/-- A pre-empted descriptor of one member, on core `c` with tile `t`, that nothing holds back: its frame `f` holds no scratchpad part,
the slots that it relied on are there still, and so is its program (R32, R333). -/
structure State.MayResume (s : State) (d : Desc) (x : Stream) (c t : Nat) (f : Frame) : Prop where
  preempted : d.st = .preempted
  kept : d.discarded = false
  undecided : d.outcome = none
  cores : d.cores = [c]
  mapped : s.core c = ⟨t, .mapped⟩
  enabled : bitAt (s.reg 0x2000) 0 = true
  read : s.ringRead x = true
  clock : s.pkg.holdover = false
  alone : s.occupant c d.uid = none
  free : (s.tile t).isFree = true
  unwanted : s.wantedAbove x.prio [c] = false
  posted : s.postedOpen d.job = false
  frame : Tab.get none s.qm.frames (64 * d.uid) = some f
  slots : f.spad = none
  unscrubbed : f.gone = false
  saved : f.tile.seq.phase = .saved
  owner : (s.tile t).spad.owner = some d.job
  unsealed : (s.tile t).spad.sealed = false
  allowed : s.progReason d.job f.tile.seq.handle f.tile.seq.progLen = 0
  resident : (s.tile t).seq.resident = some (f.tile.seq.handle, f.tile.seq.progLen)

namespace State.MayResume

theorem framesOf (h : s.MayResume d x c t f) : s.framesOf d = [(0, f)] := by
  simp only [State.framesOf, h.cores, List.length_singleton, List.range_one, List.filterMap_cons, Nat.add_zero, h.frame, List.filterMap_nil]

theorem memberTile (h : s.MayResume d x c t f) : s.memberTile d 0 = t := by
  simp only [State.memberTile, h.cores, List.getElem?_cons_zero, Option.getD_some, h.mapped]

theorem resumeHeld (h : s.MayResume d x c t f) : s.resumeHeld d x = false := by
  simp only [State.resumeHeld, h.preempted, h.enabled, h.read, h.clock, Desc.goesOn, h.undecided, h.kept, h.cores, h.mapped, h.alone, h.free,
    h.unwanted, List.any_cons, List.any_nil]
  rfl

theorem slotsGone (h : s.MayResume d x c t f) : s.slotsGone d (0, f) = false := by
  simp only [State.slotsGone, h.slots, h.saved, h.unscrubbed, h.memberTile, h.owner, bne_self_eq_false, Bool.or_self, Bool.and_false]

/-- The contexts come back at once. -/
theorem descResume {uid : Nat} (h : s.MayResume d x c t f) (hd : s.desc uid = some d) (hx : s.stream d.stream = some x) :
    s.descResume uid true = s.resumeFrames d x true [(0, f)] := by
  simp only [State.descResume, hd, hx, h.framesOf, h.resumeHeld, h.kept, List.any_cons, List.any_nil, h.slotsGone, List.filter_cons,
    List.filter_nil, h.slots, h.memberTile, h.unsealed, List.find?_cons, List.find?_nil, h.allowed]
  rfl

/-- The member goes on where it stopped, with its program where it is (R32, R333). -/
theorem restoreMember (h : s.MayResume d x c t f) : ∃ z, Mild s z ∧ s.restoreMember d x 0 f
    = (z.onTile t (fun q => q.restore f none (s.tile t).seq.pmem (s.tile t).seq.resident)).dropFetch (loaderAgent t) := by
  have hkeep : (f.tile.seq.phase == .starting || { (s.tile t).seq with
      handle := f.tile.seq.handle, progLen := f.tile.seq.progLen }.residentOk) = true := by
    simp only [Seq.residentOk, h.resident, beq_self_eq_true, le_refl, decide_true, Bool.and_self, Bool.or_true]
  refine ⟨_, readAt_mild s (x.frameAt 0) (Config.contextLen % 2621437 + 4), ?_⟩
  simp only [State.restoreMember, h.memberTile, hkeep, h.slots]
  rfl

end State.MayResume

/-- A member that was at work when its context was saved is put back at work. -/
theorem restore_saved (q : Tile) (hf : f.tile.seq.phase = .saved) (pm : Tab Word) (rs : Option (Nat × Nat)) :
    q.restore f none pm rs = { f.tile with
      seq := { f.tile.seq with phase := .running, pmem := pm, resident := rs, stallNs := 0 }
      dma := { f.tile.dma with windows := f.tile.dma.reopen, reopen := [], reqs := q.dma.reqs, granted := q.dma.granted }
      spad := q.spad } := by
  rw [Tile.restore, hf]
  rfl

/-- What a resumed descriptor and its member's tile are like: the descriptor is in progress from now on, the member where it stopped. -/
structure State.Resumed (s s' : State) (uid t : Nat) (q : Tile) : Prop where
  desc : ∃ d' ∈ s'.qm.descs, d'.uid = uid ∧ d'.st = .running ∧ d'.startTs = s.now
  phase : (s'.tile t).seq.phase = .running
  pc : (s'.tile t).seq.pc = q.seq.pc
  regs : (s'.tile t).seq.regs = q.seq.regs
  dmem : (s'.tile t).seq.dmem = q.seq.dmem
  tokens : (s'.tile t).seq.tokens = q.seq.tokens
  acc0 : (s'.tile t).ma0.acc = q.ma0.acc
  acc1 : (s'.tile t).ma1.acc = q.ma1.acc
  vec : (s'.tile t).vec = q.vec

/-- A descriptor of one member whose frame is at hand and verifies resumes. -/
theorem resumeFrames_resumes (h : s.MayResume d x c t f) (hmem : d ∈ s.qm.descs) (hx : s.stream d.stream = some x) (hhalt : x.halting = false)
    (hreset : x.resetting = false) (hneed : s.needMembers d x [(0, f)] = (s, .ok ())) (hok : s.frameOk d x 0 = true) :
    s.Resumed (s.resumeFrames d x true [(0, f)]) d.uid t f.tile := by
  set g : Desc → Desc := fun y => { y with st := .running, startTs := s.now }
  set w := ((s.restoreAll d x [(0, f)]).dropFrames d).onDesc d.uid g with hw
  have hframes : s.resumeFrames d x true [(0, f)] = w.settle d.stream := by
    simp only [State.resumeFrames, h.posted, hneed, List.all_cons, List.all_nil, hok]
    exact if_neg (by decide)
  obtain ⟨z, hmild, hrestore⟩ := h.restoreMember
  set back : Tile → Tile := fun q => q.restore f none (s.tile t).seq.pmem (s.tile t).seq.resident
  have hall : s.restoreAll d x [(0, f)] = ((z.onTile t back).dropFetch (loaderAgent t)).dropFetch (descAgent d.uid) := by
    rw [State.restoreAll, List.foldl_cons, List.foldl_nil, hrestore]
  have hwx : w.stream d.stream = some x := by
    rw [hw, hall]
    exact (mild_stream hmild d.stream).trans hx
  have hwd : g d ∈ w.qm.descs := by
    rw [hw, hall]
    exact List.mem_map.mpr ⟨d, by rw [← hmild.descs] at hmem; exact hmem, if_pos (beq_self_eq_true _)⟩
  have htile : (w.settle d.stream).tile t = back (z.tile t) := by
    rw [settle_tile, hw, hall]
    exact State.tile_onTile z t back
  rw [show back (z.tile t) = _ from restore_saved _ h.saved _ _] at htile
  obtain ⟨d', hd', hbare⟩ := bare_mem (settle_descs hwx hreset hhalt) hwd
  rw [hframes]
  exact { desc := ⟨d', hd', (congrArg Desc.uid hbare :), (congrArg Desc.st hbare :), (congrArg Desc.startTs hbare :)⟩
          phase := by rw [htile], pc := by rw [htile], regs := by rw [htile], dmem := by rw [htile], tokens := by rw [htile]
          acc0 := by rw [htile], acc1 := by rw [htile], vec := by rw [htile] }

/-- Settles O27: a decided descriptor without a member is through at once, so that its completion is its record (`descComplete_records`,
`record_writes`); a member whose frame is at hand goes on where it stopped (`resumeFrames_resumes`); at the limit a descriptor is killed
(`timeout_kills`). That the record's timestamp is the present count is the model's choice (log 25). -/
theorem descriptorsEndAndResume : Obligations.DescriptorsEndAndResume := by
  intro s uid d x hd hx
  refine ⟨?record, ?resume, fun hlimit hst htimed hout hover => ?timeout⟩
  case record =>
    intro hst hout hreplays hcores hfrees hdefer hsent hevent hhalt hreset hact hon hlive hwith hposted hother hpre a last c hck hhome hg
    obtain ⟨y, hy, hyu, hys⟩ := hother
    have huid := desc_uid hd
    have hends : d.EndsOk := ⟨hst, hout, hreplays, hcores, hfrees, hdefer, hsent⟩
    have hworks : s.Working d x := ⟨hx, hhalt, hreset, hact, hon, hlive, ⟨y, hy, hys⟩, hpre⟩
    have hcomplete := descComplete_records hd hends hx hwith hposted
    rw [← huid] at hyu
    set w := s.onDesc uid Desc.through with hw
    rw [← huid] at hw
    have hy' : y ∈ w.qm.descs := hw ▸ List.mem_map.mpr ⟨y, hy, if_neg (by rwa [beq_iff_eq])⟩
    obtain ⟨hrecord, hgone, hstream⟩ :=
      record_writes (d := d.through) (hw ▸ hworks.onDesc_through) ⟨y, hy', hyu, hys⟩ hends.final hevent hck
    have hmem : (w.record d.through).mem = _ :=
      (congrArg State.mem hrecord).trans ((forget_facts ..).2.2.2.1.trans (recorded_mem (s := w) hhome hg))
    rw [recordBytes_ok (d := d.through) hreplays] at hmem
    rw [← hcomplete] at hgone hstream hmem
    exact ⟨(s.descComplete uid).tick, rfl, huid ▸ hgone, hstream, hmem⟩
  case resume =>
    intro c t f hst hdisc hout hcores hmap hrun hon hread hhold hocc hfree hwant hhalt hreset hposted hframe hspad hgone hphase hneed hok
      hown hseal hprog hres
    have huid := desc_uid hd
    rw [← huid] at hocc hframe
    have hmay : s.MayResume d x c t f := ⟨hst, hdisc, hout, hcores, hmap, hon, hread, hhold, hocc, hfree, hwant, hposted, hframe, hspad, hgone,
      hphase, hown, hseal, hprog, hres⟩
    have hexec : exec (.descResume uid true) s = .next (s.resumeFrames d x true [(0, f)]) :=
      congrArg Host.Outcome.next ((if_pos hrun).trans (hmay.descResume hd hx))
    obtain ⟨⟨d', hd', hu, hs, hts⟩, hph, hpc, hregs, hdmem, htok, hacc0, hacc1, hvec⟩ :=
      resumeFrames_resumes hmay (List.mem_of_find?_eq_some hd) hx hhalt hreset hneed hok
    exact ⟨_, d', hexec, hd', hu.trans huid, hs, hts, hph, hpc, hregs, hdmem, htok, hacc0, hacc1, hvec⟩
  case timeout =>
    obtain ⟨d', hd', hu, ho⟩ := timeout_kills hd hx hlimit hst htimed hout hover
    exact ⟨_, d', rfl, hd', hu, ho⟩

end Sys2Proof.Machine
end

section
/-!
PROOFS. What the operations of the die leave alone of the fuses: the array, the copies and the state of the lifecycle, the rollback
fuses, and the pulses to come (spec/16_reset_options_and_boot.md R436; spec/19_onjan_security.md R492, R495).
An operation has a lemma `_same` where the frame of its chapter does not say so much.
-/

namespace Sys2Proof.Machine

open Sys2Proof

/-! ### The bits of a number -/

theorem testBit_eq_bitsOf (n b : Nat) : n.testBit b = decide (bitsOf n b 1 = 1) := by
  simp [Nat.testBit_eq_decide_div_mod_eq, bitsOf]

/-- A bit of a number of which one bit has been replaced. -/
theorem testBit_putBits (n i b v : Nat) : (putBits n i 1 v).testBit b = if b = i then decide (v % 2 = 1) else n.testBit b := by
  simp only [testBit_eq_bitsOf]
  rcases Nat.lt_trichotomy b i with h | rfl | h
  · rw [bitsOf_putBits_low n i 1 v b 1 h, if_neg h.ne]
  · rw [bitsOf_putBits, if_pos rfl, pow_one]
  · rw [bitsOf_putBits_high n i 1 v b 1 h, if_neg h.ne']

/-! ### The fuses -/

@[simp] theorem State.onMgmt_mgmt (s : State) (f : Mgmt → Mgmt) : (s.onMgmt f).mgmt = f s.mgmt := rfl
@[simp] theorem State.onSec_sec (s : State) (f : Sec → Sec) : (s.onSec f).sec = f s.sec := rfl
@[simp] theorem ite_pulses (c : Prop) [Decidable c] (a b : Mgmt) : (if c then a else b).pulses = if c then a.pulses else b.pulses :=
  apply_ite Mgmt.pulses c a b
@[simp] theorem ite_life (c : Prop) [Decidable c] (a b : Sec) : (if c then a else b).life = if c then a.life else b.life :=
  apply_ite Sec.life c a b
@[simp] theorem ite_copies (c : Prop) [Decidable c] (a b : Sec) : (if c then a else b).copies = if c then a.copies else b.copies :=
  apply_ite Sec.copies c a b
@[simp] theorem ite_minSvn (c : Prop) [Decidable c] (a b : Sec) : (if c then a else b).minSvn = if c then a.minSvn else b.minSvn :=
  apply_ite Sec.minSvn c a b
@[simp] theorem ite_fk0Revoked (c : Prop) [Decidable c] (a b : Sec) :
    (if c then a else b).fk0Revoked = if c then a.fk0Revoked else b.fk0Revoked :=
  apply_ite Sec.fk0Revoked c a b

/-- `s'` has the same fuses as `s`: the array, the copies and the state of the lifecycle, the rollback fuses, and the pulses to come. -/
abbrev State.SameFuses (s s' : State) : Prop :=
  s'.fuses = s.fuses ∧ s'.sec.life = s.sec.life ∧ s'.sec.copies = s.sec.copies ∧ s'.sec.minSvn = s.sec.minSvn
    ∧ s'.sec.fk0Revoked = s.sec.fk0Revoked ∧ s'.mgmt.pulses = s.mgmt.pulses

theorem foldl_same {β : Type} (l : List β) (s : State) (g : State → β → State) (h : ∀ (s : State) (x : β), s.SameFuses (g s x)) :
    s.SameFuses (l.foldl g s) := by
  induction l generalizing s with
  | nil => exact ⟨rfl, rfl, rfl, rfl, rfl, rfl⟩
  | cons x l ih =>
    obtain ⟨h1, h2, h3, h4, h5, h6⟩ := ih (g s x)
    obtain ⟨e1, e2, e3, e4, e5, e6⟩ := h s x
    exact ⟨h1.trans e1, h2.trans e2, h3.trans e3, h4.trans e4, h5.trans e5, h6.trans e6⟩

@[simp] theorem State.onBit_same (s : State) (v : Word) (i : Nat) (f : State → State) (h : ∀ s : State, s.SameFuses (f s)) :
    s.SameFuses (s.onBit v i f) := by
  unfold State.onBit
  split
  · exact h s
  · exact ⟨rfl, rfl, rfl, rfl, rfl, rfl⟩

@[simp] theorem State.bootReadyEvent_same (s : State) : s.SameFuses s.bootReadyEvent := by
  simp only [State.bootReadyEvent, State.SameFuses]
  (repeat' split) <;> simp [*]

@[simp] theorem State.qmCtrl_same (s : State) (v : Word) : s.SameFuses (s.qmCtrl v) := by
  simp only [State.qmCtrl, State.SameFuses]
  (repeat' split) <;> simp [*]

@[simp] theorem State.sendAdmit_same (s : State) (d op subject level reason : Nat) (caps : List Nat) :
    s.SameFuses (s.sendAdmit d op subject level reason caps) := by
  simp [State.sendAdmit, State.SameFuses]

@[simp] theorem State.portUp_same (s : State) (p : Nat) (conf : Bool) : s.SameFuses (s.portUp p conf) := by
  simp only [State.portUp, State.SameFuses]
  (repeat' split) <;> simp [*]

@[simp] theorem State.keyOffer_same (s : State) (p : Nat) (k : Packet) (ok : Bool) : s.SameFuses (s.keyOffer p k ok) := by
  simp only [State.keyOffer, State.SameFuses]
  (repeat' split) <;> simp [*]

@[simp] theorem State.caps_same (s : State) (p : Nat) (k : Packet) : s.SameFuses (s.caps p k) := by
  simp only [State.caps, State.SameFuses]
  (repeat' split) <;> simp [*]

@[simp] theorem State.formPackage_same (s : State) : s.SameFuses s.formPackage := by
  simp [State.formPackage, foldl_same, State.SameFuses]

@[simp] theorem State.tryForm_same (s : State) : s.SameFuses s.tryForm := by
  simp only [State.tryForm, State.SameFuses]
  (repeat' split) <;> simp [*]

@[simp] theorem State.joinNow_same (s : State) : s.SameFuses s.joinNow := by
  simp only [State.joinNow, State.SameFuses]
  (repeat' split) <;> simp [*, foldl_same, State.SameFuses]

@[simp] theorem State.formTimeout_same (s : State) : s.SameFuses s.formTimeout := by
  simp only [State.formTimeout, State.SameFuses]
  (repeat' split) <;> simp [*]

@[simp] theorem State.rejoin_same (s : State) (p d c0 c1 : Nat) : s.SameFuses (s.rejoin p d c0 c1) := by
  simp only [State.rejoin, State.SameFuses]
  (repeat' split) <;> simp [*, foldl_same, State.SameFuses]

@[simp] theorem State.join_same (s : State) (p : Nat) (k : Packet) : s.SameFuses (s.join p k) := by
  simp only [State.join, State.SameFuses]
  (repeat' split) <;> simp [*]

@[simp] theorem State.refLoss_same (s : State) : s.SameFuses s.refLoss := by
  simp only [State.refLoss, State.SameFuses]
  (repeat' split) <;> simp [*, foldl_same, State.SameFuses]

@[simp] theorem State.beginCrst_same (s : State) (t why : Nat) : s.SameFuses (s.beginCrst t why) := by
  simp [State.beginCrst, State.SameFuses]

@[simp] theorem State.fenceRelease_same (s : State) (w : Nat) (v : Word) : s.SameFuses (s.fenceRelease w v) := by
  refine foldl_same _ _ _ (fun s t => ?_)
  simp [State.SameFuses]

@[simp] theorem State.coreResetMask_same (s : State) (w : Nat) (v : Word) : s.SameFuses (s.coreResetMask w v) := by
  refine foldl_same _ _ _ (fun s t => ?_)
  split <;> simp [State.SameFuses]

@[simp] theorem State.crstDone_same (s : State) (t : Nat) (pass : Bool) : s.SameFuses (s.crstDone t pass) := by
  simp only [State.crstDone, State.SameFuses]
  (repeat' split) <;> simp [*]

@[simp] theorem State.pkgSrst_same (s : State) : s.SameFuses s.pkgSrst := by
  simp only [State.pkgSrst, State.SameFuses]
  (repeat' split) <;> simp [*, foldl_same, State.SameFuses]

@[simp] theorem State.wdogKick_same (s : State) : s.SameFuses s.wdogKick := by
  simp [State.wdogKick, State.SameFuses]

@[simp] theorem State.fuseSense_same (s : State) : s.SameFuses s.fuseSense := by
  simp [State.fuseSense, State.SameFuses]

@[simp] theorem State.applyOptions_same (s : State) (img : Tab Word) : s.SameFuses (s.applyOptions img) := by
  simp [State.applyOptions, foldl_same, State.SameFuses]

@[simp] theorem State.optionLoad_same (s : State) (mOk : Bool) : s.SameFuses (s.optionLoad mOk) := by
  simp only [State.optionLoad, State.SameFuses]
  (repeat' split) <;> simp [*]

@[simp] theorem State.bootHalt_same (s : State) : s.SameFuses s.bootHalt := by
  simp [State.bootHalt, State.SameFuses]

@[simp] theorem State.bootStart_same (s : State) (fuseOk mOk : Bool) : s.SameFuses (s.bootStart fuseOk mOk) := by
  simp only [State.bootStart, State.SameFuses]
  (repeat' split) <;> simp [*]

@[simp] theorem State.keyworkBegin_same (s : State) (pass : Nat) : s.SameFuses (s.keyworkBegin pass) := by
  simp only [State.keyworkBegin, State.SameFuses]
  (repeat' split) <;> simp [*]

@[simp] theorem State.keyworkInit_same (s : State) (entries : List (Nat × List Word)) (pass : Nat) :
    s.SameFuses (s.keyworkInit entries pass) := by
  unfold State.keyworkInit
  extract_lets s1
  have h1 : s.SameFuses s1 := by simp [s1, State.SameFuses]
  have h2 := s1.activateFrom_frame (inIndexOrder entries)
  (repeat' split) <;> simp_all [State.SameFuses]

@[simp] theorem State.bootReady_same (s : State) : s.SameFuses s.bootReady := by
  simp only [State.bootReady, State.SameFuses]
  (repeat' split) <;> simp [*]

@[simp] theorem State.fwLoad_same (s : State) : s.SameFuses s.fwLoad := by
  simp only [State.fwLoad, State.SameFuses]
  (repeat' split) <;> simp [*]

@[simp] theorem State.fwFail_same (s : State) (e : Nat) : s.SameFuses (s.fwFail e) := by
  simp only [State.fwFail, State.SameFuses]
  (repeat' split) <;> simp [*]

@[simp] theorem State.fwData_same (s : State) (v : Word) : s.SameFuses (s.fwData v) := by
  simp only [State.fwData, State.SameFuses]
  (repeat' split) <;> simp [*]

@[simp] theorem State.fwVerified_same (s : State) (key : Nat) (hashOk : Bool) : s.SameFuses (s.fwVerified key hashOk) := by
  simp only [State.fwVerified, State.SameFuses]
  (repeat' split) <;> simp [*]

@[simp] theorem State.fwSwitch_same (s : State) : s.SameFuses s.fwSwitch := by
  simp only [State.fwSwitch, State.SameFuses]
  (repeat' split) <;> simp [*]

@[simp] theorem State.fwQuiesce_same (s : State) : s.SameFuses s.fwQuiesce := by
  simp only [State.fwQuiesce, State.SameFuses]
  (repeat' split) <;> simp [*]

@[simp] theorem State.fwQuiesceTimeout_same (s : State) : s.SameFuses s.fwQuiesceTimeout := by
  simp only [State.fwQuiesceTimeout, State.SameFuses]
  (repeat' split) <;> simp [*]

@[simp] theorem State.optRefuse_same (s : State) : s.SameFuses s.optRefuse := by
  simp [State.optRefuse, State.SameFuses]

@[simp] theorem State.optData_same (s : State) (v : Word) : s.SameFuses (s.optData v) := by
  simp only [State.optData, State.SameFuses]
  (repeat' split) <;> simp [*]

@[simp] theorem State.optRevert_same (s : State) : s.SameFuses s.optRevert := by
  simp only [State.optRevert, State.SameFuses]
  (repeat' split) <;> simp [*]

@[simp] theorem State.optCommit_same (s : State) : s.SameFuses s.optCommit := by
  simp only [State.optCommit, State.SameFuses]
  (repeat' split) <;> simp [*]

@[simp] theorem State.optCommitDone_same (s : State) (ok : Bool) (failOff : Nat) : s.SameFuses (s.optCommitDone ok failOff) := by
  simp only [State.optCommitDone, State.SameFuses]
  (repeat' split) <;> simp [*]

@[simp] theorem State.mgmtRead_same (s : State) (v : Word) : s.SameFuses (s.mgmtRead v) := by
  simp [State.mgmtRead, State.SameFuses]

@[simp] theorem State.secRefuse_same (s : State) (code : Nat) : s.SameFuses (s.secRefuse code) := by
  simp [State.secRefuse, State.SameFuses]

@[simp] theorem State.evaluateConfig_same (s : State) : s.SameFuses s.evaluateConfig := by
  simp only [State.evaluateConfig, State.SameFuses]
  (repeat' split) <;> simp [*]

@[simp] theorem State.attest_same (s : State) : s.SameFuses s.attest := by
  simp only [State.attest, State.SameFuses]
  (repeat' split) <;> simp [*]

@[simp] theorem State.attestDone_same (s : State) : s.SameFuses s.attestDone := by
  simp only [State.attestDone, State.SameFuses]
  (repeat' split) <;> simp [*]

@[simp] theorem State.rptRead_same (s : State) : s.SameFuses s.rptRead := by
  simp only [State.rptRead, State.SameFuses]
  (repeat' split) <;> simp [*]

@[simp] theorem State.drawChallenge_same (s : State) : s.SameFuses s.drawChallenge := by
  simp only [State.drawChallenge, State.SameFuses]
  (repeat' split) <;> simp [*]

@[simp] theorem State.tokenData_same (s : State) (v : Word) : s.SameFuses (s.tokenData v) := by
  simp only [State.tokenData, State.SameFuses]
  (repeat' split) <;> simp [*]

@[simp] theorem State.tokenRefuse_same (s : State) (code : Nat) : s.SameFuses (s.tokenRefuse code) := by
  simp [State.tokenRefuse, State.SameFuses]

@[simp] theorem State.tokenSubmit_same (s : State) : s.SameFuses s.tokenSubmit := by
  simp only [State.tokenSubmit, State.SameFuses]
  (repeat' split) <;> simp [*]

@[simp] theorem State.dbgLock_same (s : State) : s.SameFuses s.dbgLock := by
  simp only [State.dbgLock, State.SameFuses]
  (repeat' split) <;> simp [*]

@[simp] theorem State.memEncWrite_same (s : State) (v : Word) : s.SameFuses (s.memEncWrite v) := by
  simp only [State.memEncWrite, State.SameFuses]
  (repeat' split) <;> simp [*]

@[simp] theorem State.rngRead_same (s : State) : s.SameFuses s.rngRead := by
  simp only [State.rngRead, State.SameFuses]
  (repeat' split) <;> simp [*]

@[simp] theorem State.rngTestFail_same (s : State) (test : Nat) : s.SameFuses (s.rngTestFail test) := by
  simp only [State.rngTestFail, State.SameFuses]
  (repeat' split) <;> simp [*]

@[simp] theorem State.cfgReadEffect_same (s : State) (off : Nat) : s.SameFuses (s.cfgReadEffect off) := by
  simp only [State.cfgReadEffect, State.SameFuses]
  (repeat' split) <;> simp [*]

@[simp] theorem State.wdogWrite_same (s : State) (v : Word) : s.SameFuses (s.wdogWrite v) := by
  simp only [State.wdogWrite, State.SameFuses]
  (repeat' split) <;> simp [*]

@[simp] theorem State.fwCtrl_same (s : State) (v : Word) : s.SameFuses (s.fwCtrl v) := by
  simp [State.fwCtrl, State.SameFuses]

@[simp] theorem State.wrOptClk_same (s : State) (off : Nat) (v : Word) : s.SameFuses (s.wrOptClk off v).1 := by
  simp only [State.wrOptClk, State.SameFuses]
  (repeat' split) <;> simp [*, State.SameFuses]

@[simp] theorem State.wrQm_same (s : State) (off : Nat) (v : Word) : s.SameFuses (s.wrQm off v) := by
  simp only [State.wrQm, State.SameFuses]
  (repeat' split) <;> simp [*]

@[simp] theorem State.wrFault_same (s : State) (off : Nat) (v : Word) : s.SameFuses (s.wrFault off v) := by
  simp only [State.wrFault, State.SameFuses]
  (repeat' split) <;> simp [*]

@[simp] theorem State.cfgRdPacket_same (s : State) (p : Nat) (k : Packet) : s.SameFuses (s.cfgRdPacket p k) := by
  simp only [State.cfgRdPacket, State.SameFuses]
  (repeat' split) <;> simp [*]

end Sys2Proof.Machine
end

section
/-!
PROOFS. No command takes back what the fuses hold: pulses, resets, Onjan's commands and register writes go only on (spec/16 R427, R436;
spec/19 R492, R495, R506; spec/20 R519), and O58.
-/

namespace Sys2Proof.Machine

open Sys2Proof

/-! ### What only advances (R492, R495, R519) -/

/-- Neither the majority of the copies nor a pulse that is to program one lies behind the lifecycle in effect. -/
def State.Forward (s : State) : Prop :=
  s.sec.life.code ≤ (Life.majority s.sec.copies).code ∧ ∀ c l, FusePulse.life c l ∈ s.mgmt.pulses → s.sec.life.code ≤ l.code

/-- From a state in which no copy lies behind, nothing of the fuses is taken back, and no copy comes to lie behind. -/
structure State.Later (s s' : State) : Prop where
  fuse : ∀ w b, (s.fuse w).getLsbD b = true → (s'.fuse w).getLsbD b = true
  svn : s.sec.minSvn ≤ s'.sec.minSvn
  fk0 : s.sec.fk0Revoked = true → s'.sec.fk0Revoked = true
  life : s.sec.life.code ≤ s'.sec.life.code
  forward : s'.Forward

/-- What every operation keeps: from a state in which no copy lies behind, it goes only on. -/
structure State.Advances (s s' : State) : Prop where
  later : s.Forward → s.Later s'

theorem State.Advances.trans {s s' s'' : State} (h : s.Advances s') (h' : s'.Advances s'') : s.Advances s'' := by
  refine ⟨fun hf => ?_⟩
  obtain ⟨f1, v1, k1, l1, w1⟩ := h.later hf
  obtain ⟨f2, v2, k2, l2, w2⟩ := h'.later w1
  exact ⟨fun w b hb => f2 w b (f1 w b hb), v1.trans v2, fun hk => k2 (k1 hk), l1.trans l2, w2⟩

theorem State.Advances.of_same {s s' : State} (h : s.SameFuses s') : s.Advances s' := by
  refine ⟨fun hf => ?_⟩
  obtain ⟨e1, e2, e3, e4, e5, e6⟩ := h
  refine ⟨fun w b hb => ?_, e4.ge, fun hk => e5.trans hk, (congrArg Life.code e2).ge, ?_⟩
  · rwa [State.fuse, e1]
  · rwa [State.Forward, e2, e3, e6]

theorem State.Advances.refl {s : State} : s.Advances s := .of_same ⟨rfl, rfl, rfl, rfl, rfl, rfl⟩

theorem State.Advances.ite {c : Prop} [Decidable c] {s a b : State} (ha : s.Advances a) (hb : s.Advances b) :
    s.Advances (if c then a else b) := by
  split
  · exact ha
  · exact hb

/-- An operation on a state with the same fuses. -/
theorem State.Advances.after_same {s s' s'' : State} (hs : s.SameFuses s') (h : s'.Advances s'') : s.Advances s'' :=
  (State.Advances.of_same hs).trans h

/-! ### Pulses (R436) -/

theorem Life.code_ofCode {n : Nat} (h : n ≤ 3) : (Life.ofCode n).code = n := by
  interval_cases n <;> rfl

theorem Life.code_le (l : Life) : l.code ≤ 3 := by
  cases l <;> decide

/-- The majority is the middle one of the three. -/
theorem Life.code_majority (x y z : Life) :
    (Life.majority (x, y, z)).code = max (min x.code y.code) (min (max x.code y.code) z.code) := by
  have := x.code_le
  have := y.code_le
  have := z.code_le
  exact Life.code_ofCode (by dsimp only; omega)

/-- Lifecycle pulses among those to come that do not go back. -/
def PulsesAhead (s : State) (ps : List FusePulse) : Prop := ∀ c l, FusePulse.life c l ∈ ps → s.sec.life.code ≤ l.code

/-- A bit that is set stays set when a bit is blown. -/
theorem getLsbD_putBits_one {v : Word} {b : Nat} (i : Nat) (h : v.getLsbD b = true) :
    (BitVec.ofNat 32 (putBits v.toNat i 1 1)).getLsbD b = true := by
  have hb := BitVec.lt_of_getLsbD h
  simp only [BitVec.getLsbD_ofNat, hb, decide_true, Bool.true_and, testBit_putBits]
  split
  · rfl
  · exact h

theorem State.pulsed_advances (s : State) (p : FusePulse) (hp : PulsesAhead s [p]) : s.Advances (s.pulsed p) := by
  refine ⟨fun hf => ?_⟩
  cases p with
  | bit w b =>
    refine ⟨fun u i hi => ?_, le_rfl, id, le_rfl, hf⟩
    simp only [State.pulsed, State.fuse, Tab.get_set]
    split
    · subst_vars
      exact getLsbD_putBits_one b hi
    · exact hi
  | svn old last =>
    have hsame : ∀ e, State.SameFuses { s with sec := { s.sec with minSvn := s.sec.minSvn + 1 } }
        ((State.event { s with sec := { s.sec with minSvn := s.sec.minSvn + 1 } }) e) := fun e => by simp [State.SameFuses]
    have hone : s.Later { s with sec := { s.sec with minSvn := s.sec.minSvn + 1 } } :=
      ⟨fun _ _ h => h, Nat.le_succ _, id, le_rfl, hf⟩
    exact (State.Advances.ite (.trans ⟨fun _ => hone⟩ (.of_same (hsame _))) ⟨fun _ => hone⟩).later hf
  | fk0 => exact ⟨fun _ _ h => h, le_rfl, fun _ => rfl, le_rfl, hf⟩
  | life c l =>
    obtain ⟨hmaj, hpulses⟩ := hf
    have hl := hp c l (List.mem_singleton_self _)
    refine ⟨fun _ _ h => h, le_rfl, id, le_rfl, ?_, hpulses⟩
    change s.sec.life.code ≤ (Life.majority (s.pulsed (.life c l)).sec.copies).code
    generalize hv : s.sec.copies = v at hmaj
    obtain ⟨x, y, z⟩ := v
    simp only [State.pulsed, hv]
    split <;> simp only [Life.code_majority] at hmaj ⊢ <;> omega

/-- Pulses are put behind those to come. -/
theorem State.blow_advances {s : State} {ps : List FusePulse} (hps : PulsesAhead s ps) : s.Advances (s.blow ps) := by
  unfold State.blow
  refine .ite .refl ⟨fun hf => ⟨fun _ _ h => h, le_rfl, id, le_rfl, hf.1, fun c l hl => ?_⟩⟩
  rcases List.mem_append.mp hl with hl | hl
  · exact hf.2 c l hl
  · exact hps c l hl

/-- Pulses that program no copy of the lifecycle. -/
theorem PulsesAhead.of_none {s : State} {ps : List FusePulse} (h : ∀ c l, FusePulse.life c l ∉ ps) : PulsesAhead s ps :=
  fun c l hl => absurd hl (h c l)

/-- The management state changes, and no pulse comes in. -/
theorem State.onMgmt_advances (s : State) (f : Mgmt → Mgmt) (h : (f s.mgmt).pulses ⊆ s.mgmt.pulses) : s.Advances (s.onMgmt f) :=
  ⟨fun hf => ⟨fun _ _ h => h, le_rfl, id, le_rfl, hf.1, fun c l hl => hf.2 c l (h hl)⟩⟩

theorem State.tick_advances (s : State) : s.Advances s.tick := .of_same (by simp [State.SameFuses])

theorem State.pulse_advances (s : State) : s.Advances s.pulse := by
  unfold State.pulse
  split
  · exact .refl
  · next p ps hps =>
    refine .ite (.of_same (by simp [State.SameFuses])) (.trans ⟨fun hf => ?_⟩ (State.tick_advances _))
    have hone : PulsesAhead s [p] := fun c l hl => hf.2 c l (by rw [hps, ← List.mem_singleton.mp hl]; exact List.mem_cons_self)
    refine ((s.pulsed_advances p hone).trans (State.onMgmt_advances _ _ ?_)).later hf
    have hm : (s.pulsed p).mgmt = s.mgmt := by simp
    rw [hm, hps]
    split
    · exact List.nil_subset _
    · exact List.subset_cons_self _ _

theorem State.pulseCut_advances (s : State) : s.Advances s.pulseCut := by
  unfold State.pulseCut
  split
  · exact .refl
  · next p ps hps =>
    refine .trans (.ite ⟨fun hf => (s.pulsed_advances p (fun c l hl => hf.2 c l ?_)).later hf⟩ .refl) (State.tick_advances _)
    rw [hps, ← List.mem_singleton.mp hl]
    exact List.mem_cons_self

/-! ### Resets (R427, R492) -/

/-- The majority of the copies takes effect, and no pulse is left. -/
theorem State.takeReset_advances (s : State) (lvl : ResetLevel) (cause sub die ts : Nat) (deferred : Bool) :
    s.Advances (s.takeReset lvl cause sub die ts deferred) :=
  ⟨fun hf => ⟨fun _ _ h => h, le_rfl, id, hf.1, le_rfl, fun _ _ hl => nomatch hl⟩⟩

theorem State.requestReset_advances (s : State) (lvl : ResetLevel) (cause sub die : Nat) :
    s.Advances (s.requestReset lvl cause sub die) := by
  have hcut : ∀ l, s.Advances (s.pulseCut.takeReset l cause sub die s.now false) :=
    fun l => s.pulseCut_advances.trans (State.takeReset_advances ..)
  have hwait : ∀ r, s.Advances (s.onMgmt (fun m => { m with pendingReset := r })) := fun r => s.onMgmt_advances _ (List.Subset.refl _)
  unfold State.requestReset
  refine .ite (.ite (State.takeReset_advances ..) .refl) ?_
  split
  · exact .ite (hcut _) (.ite (hwait _) .refl)
  · exact .ite (hcut _) (.ite (hwait _) (State.takeReset_advances ..))

theorem State.deferredReset_advances (s : State) : s.Advances s.deferredReset := by
  unfold State.deferredReset
  split
  · exact .ite .refl (State.takeReset_advances ..)
  · split
    · exact .ite ((s.onMgmt_advances _ (List.Subset.refl _)).trans (State.requestReset_advances ..)) .refl
    · exact .refl

theorem State.event_advances (s : State) (e : Ev) : s.Advances (s.event e) := .of_same (by simp [State.SameFuses])

theorem State.resetReq_advances (s : State) (p : Nat) (k : Packet) : s.Advances (s.resetReq p k) :=
  .ite (State.requestReset_advances ..) (State.event_advances ..)

/-! ### Onjan (R492, R495, R506) -/

theorem State.repairLife_advances (s : State) : s.Advances s.repairLife := by
  refine State.blow_advances (fun c l hl => ?_)
  obtain ⟨e, _, he⟩ := List.mem_map.mp hl
  obtain ⟨_, rfl⟩ := FusePulse.life.inj he
  exact le_rfl

theorem State.selfTestDone_advances (s : State) (ok : Bool) : s.Advances (s.selfTestDone ok) := by
  unfold State.selfTestDone
  refine .ite .refl (.ite (.of_same (by simp [State.SameFuses])) (.after_same ?_ (State.repairLife_advances _)))
  simp [State.SameFuses]

theorem State.transition_advances {s : State} {dest : Life} (h : s.sec.life.code ≤ dest.code) : s.Advances (s.transition dest) := by
  refine .trans (State.blow_advances (fun c l hl => ?_)) (State.event_advances ..)
  simp only [List.mem_cons, FusePulse.life.injEq, List.not_mem_nil, or_false] at hl
  rcases hl with ⟨_, rfl⟩ | ⟨_, rfl⟩ | ⟨_, rfl⟩ <;> exact h

/-- A token that is accepted with scope 2 finds the part in `DEVELOPMENT`. -/
theorem State.tokenCheck_scope2 {s : State} {ok : Bool} (h : s.tokenCheck ok = 0) (hs : (s.sec.tok 8).toNat = 2) :
    s.sec.life = .development := by
  simp only [State.tokenCheck, hs] at h
  by_contra hl
  simp [hl] at h
  grind

/-- What a scope-1 token does in `PRODUCTION`. -/
theorem State.zeroise_same (s : State) : s.SameFuses s.scrubCores.dropPortKeys.dropMemKeys := by simp [State.SameFuses]

theorem State.authEvent_same (s : State) (z : Bool) : s.SameFuses (s.authEvent z) := by simp [State.SameFuses]

/-- A change of what Onjan holds beside the fuses. -/
theorem State.onSec_same (s : State) {f : Sec → Sec}
    (h : ∀ k, (f k).life = k.life ∧ (f k).copies = k.copies ∧ (f k).minSvn = k.minSvn ∧ (f k).fk0Revoked = k.fk0Revoked) :
    s.SameFuses (s.onSec f) :=
  ⟨rfl, (h _).1, (h _).2.1, (h _).2.2.1, (h _).2.2.2, rfl⟩

/-- A scope-1 token is accepted. -/
theorem State.authorise_advances {s : State} {f : Sec → Sec} (h : s.SameFuses (s.onSec f)) (z : Bool) :
    s.Advances ((s.onSec f).authEvent z) := .after_same h (.of_same (State.authEvent_same _ z))

theorem State.retire_same (s : State) :
    s.SameFuses ((s.dropPortKeys.dropMemKeys).onSec (fun k => { k with idKey := false })) := by simp [State.SameFuses]

theorem State.tokenDone_advances (s : State) (ok : Bool) : s.Advances (s.tokenDone ok) := by
  unfold State.tokenDone
  refine .ite .refl ?_
  extract_lets code scope s1 s2
  have h1 : s.SameFuses s1 := State.onSec_same _ (fun _ => ⟨rfl, rfl, rfl, rfl⟩)
  have h2 : s1.SameFuses s2 := State.zeroise_same s1
  refine .after_same h1 ?_
  split
  · exact .of_same (State.tokenRefuse_same ..)
  next hcode =>
  have hdev : scope = 2 → s1.sec.life = .development := s.tokenCheck_scope2 (by simpa using hcode)
  split
  · split
    · refine .after_same h2 (State.authorise_advances ?_ true)
      exact s2.onSec_same (fun _ => ⟨rfl, rfl, rfl, rfl⟩)
    · refine State.authorise_advances ?_ false
      exact s1.onSec_same (fun _ => ⟨rfl, rfl, rfl, rfl⟩)
  split
  next hscope =>
    refine State.transition_advances ?_
    rw [hdev (by simpa using hscope)]
    decide
  next =>
    exact .after_same (State.retire_same _) (State.transition_advances (Life.code_le _))

theorem State.svnCommit_advances (s : State) : s.Advances s.svnCommit := by
  unfold State.svnCommit
  refine .ite (.of_same (by simp [State.SameFuses])) (State.blow_advances (.of_none (fun c l hl => ?_)))
  obtain ⟨i, _, hi⟩ := List.mem_map.mp hl
  cases hi

theorem State.fk0Revoke_advances (s : State) : s.Advances s.fk0Revoke :=
  .ite (.of_same (by simp [State.SameFuses])) (State.blow_advances (.of_none (by simp)))

theorem State.fuseProg_advances (s : State) (w : Nat) (bits : Word) (vpp : Bool) : s.Advances (s.fuseProg w bits vpp) := by
  unfold State.fuseProg
  have htap : s.SameFuses (s.tapTake 0x18 0 s.fuseBusy) := by simp [State.SameFuses]
  refine .ite (.of_same (by simp [State.SameFuses])) (.ite
    (.after_same htap (State.blow_advances (.of_none (fun c l hl => ?_)))) (.of_same htap))
  obtain ⟨i, _, hi⟩ := List.mem_map.mp hl
  cases hi

/-! ### Register writes (R554) -/

theorem State.onBit_advances (s : State) (v : Word) (i : Nat) {f : State → State} (h : ∀ s : State, s.Advances (f s)) :
    s.Advances (s.onBit v i f) := .ite (h s) .refl

theorem State.resetCtrl_advances (s : State) (v : Word) : s.Advances (s.resetCtrl v) := by
  refine .trans (.trans (.of_same ?_) (State.onBit_advances _ _ _ (fun s => .of_same s.pkgSrst_same)))
    (State.onBit_advances _ _ _ (fun s => s.requestReset_advances _ _ _ _))
  simp [State.SameFuses]

theorem State.wrReset_advances (s : State) (src : CfgSrc) (off : Nat) (v : Word) : s.Advances (s.wrReset src off v).1 := by
  unfold State.wrReset
  split
  case h_2 => exact s.resetCtrl_advances v
  all_goals exact .of_same (by simp [State.SameFuses])

theorem State.secCtrl_advances (s : State) (v : Word) : s.Advances (s.secCtrl v) := by
  unfold State.secCtrl
  refine .trans (.trans (.of_same (by simp [State.SameFuses])) (State.onBit_advances _ _ _ State.svnCommit_advances))
    (State.onBit_advances _ _ _ State.fk0Revoke_advances)

theorem State.wrSec_advances (s : State) (off : Nat) (v : Word) : s.Advances (s.wrSec off v).1 := by
  unfold State.wrSec
  split
  case h_1 => exact s.secCtrl_advances v
  case h_3 => exact .of_same (by simp [State.SameFuses])
  all_goals exact .of_same (by simp [State.SameFuses])

theorem State.cfgWrite_advances (s : State) (src : CfgSrc) (off : Nat) (v : Word) : s.Advances (s.cfgWrite src off v).1 := by
  unfold State.cfgWrite
  split
  · exact .refl
  split
  · exact s.wrReset_advances ..
  iterate 6
    split
    · exact .of_same (by simp [State.SameFuses])
  split
  · exact s.wrSec_advances ..
  split
  · exact .of_same (by simp [State.SameFuses])
  · exact .of_same (by simp [State.SameFuses])

theorem State.cfgRsp_same (s : State) (p : Nat) (k : Packet) (ok : Bool) (v : Word) : s.SameFuses (s.cfgRsp p k ok v) := by
  simp [State.SameFuses]

theorem State.cfgWrPacket_advances (s : State) (p : Nat) (k : Packet) : s.Advances (s.cfgWrPacket p k) := by
  unfold State.cfgWrPacket
  split
  · exact .of_same (by simp [State.SameFuses])
  · exact .trans (s.cfgWrite_advances ..) (.of_same (State.cfgRsp_same ..))

theorem State.tapAccess_advances (s : State) (v : Word) (off : Nat) (wr : Bool) : s.Advances (s.tapAccess v off wr) := by
  unfold State.tapAccess
  extract_lets r d
  have hr : s.Advances r.1 := by
    unfold r
    split
    · exact s.cfgWrite_advances ..
    · split
      · exact .refl
      · exact .of_same (s.cfgReadEffect_same off)
  exact hr.trans (.of_same (by simp [State.SameFuses]))

/-! ### Packets, an idle step, and every command -/

theorem State.receive_advances (s : State) (p : Nat) (k : Packet) {act : State → State} (h : ∀ s : State, s.Advances (act s)) :
    s.Advances (s.receive p k act) := by
  unfold State.receive
  extract_lets po key s1 s2
  refine .ite .refl (.ite (.of_same (by simp [State.SameFuses])) (.ite (.of_same (by simp [s1, State.SameFuses])) ?_))
  refine .after_same (s' := s2) (by simp [s2, s1, State.SameFuses]) (.ite (.of_same (by simp [State.SameFuses])) (h _))

theorem State.answered_advances (s : State) (k : Packet) (fits : Packet → Bool) {f : State → OpenTx → State}
    (h : ∀ (s : State) o, s.Advances (f s o)) :
    s.Advances (s.answered k fits f) := by
  unfold State.answered
  split
  · exact .refl
  · exact .ite (.after_same (by simp [State.SameFuses]) (h _ _)) .refl

theorem State.idle_advances (s : State) : s.Advances s.idle := by
  unfold State.idle
  extract_lets s1 s2 s3
  have h2 : s1.SameFuses s2 := ⟨rfl, rfl, rfl, rfl, rfl, rfl⟩
  have h3 : s1.SameFuses s3 := h2
  exact s.pulse_advances.trans (.ite .refl (.ite (.of_same h2) (.after_same h3 (.of_same (by simp [State.SameFuses])))))

/-- A command that comes out with a next state has only advanced the fuses. -/
def OnlyAdvances (s : State) : Host.Outcome State Fault Refusal → Prop
  | .next s' => s.Advances s'
  | _ => True

theorem onlyAdvances_onUnit {ok : Bool} {n : Nat} {s s' : State} (h : s.Advances s') : OnlyAdvances s (onUnit ok n s') := by
  cases ok with
  | true => exact h
  | false => trivial

theorem onlyAdvances_issue (t eng : Nat) (legal : Bool) (mk : Tile → QEntry) (s : State) : s.Advances (s.issue t eng legal mk) :=
  .of_same (by simp [State.SameFuses])

theorem onlyAdvances_instr (s : State) (t : Nat) (f : Tile → Tile) : s.Advances (s.instr t f) := .of_same (by simp [State.SameFuses])

theorem exec_onlyAdvances (c : Instr) (s : State) : OnlyAdvances s (exec c s) := by
  cases c with
  | add | sub | and | or | xor | sll | srl | sra | slt | sltu | mul | mulhu | min | max | minu | maxu | addi | andi | ori |
  lui | memLoad | memStore | beq | bne | blt | bge | bltu | bgeu | jal | jalr | csrRead | csrWrite | csrSet | csrClear | tpost
  | tset | nop | trap =>
    exact onlyAdvances_onUnit (onlyAdvances_instr ..)
  | pass | accClear | cntStore | scale | bellCfg | bellStore | rowFwd | rowBwd | rSpill | rFill | rInval | rbellCfg | rCnt |
  dmMove | dmGather | dmTfill | dmTread | dmDmem | dmSwrite | dmSread | creditReq | creditDrop | rxOpen | rxClose | dmCnt |
  syInit | syWait | syArrive | syFree | syRead =>
    exact onlyAdvances_onUnit (onlyAdvances_issue ..)
  | slotRelease | markFull | setRaw | rawEmpty | rawFull | sySignalAdd | sySignalClear | sySignalLoad =>
    exact onlyAdvances_onUnit (.ite (onlyAdvances_issue ..) .refl)
  | vsetvl | vbcfg | vcnt | vwait | vpost | vld | vacc | vacct | vtr | vtw | vmov | vbcast | viota | vadd | vsub | vmul | vfma
  | vmax | vmin | vabs | vneg | vcmp | vsel | vrsum | vrmax | vrmin | vramax | vexp2 | vlog2 | vrcp | vrsqrt | vtanh | vperm |
  vstv | vstt =>
    exact onlyAdvances_onUnit (onlyAdvances_issue ..)
  | fence | twait | brk | issueStallResume | tokenWaitStart | commandComplete | programStart | wdog | yieldGraceExpiry |
  contextSave | statLoadRow | streamRowEnter | loadChannelTake | bellVectorLoad | bellRowRead | bellStoreComplete |
  dmaTransferComplete | creditAllocGrant | creditWaitTimeout | muteScrubDone | syWaitTimeout | stashAlloc | stashPresent |
  spareAdmitted | crstDone | cePredictiveFence | dbgStep | dbgResume | illegalWord | portTrainRetry | kexTimeout | rekeyStart
  | portEn | portRetrain | errLimitRetrain | retrainTimeout | portIsolate | keepaliveSend | l1Entry | l1Exit | sidebandRetrain
  | flitReplay | linkLevelAck | creditReturnSend | endProg | dbgHalt | correctedError | yield | baseDieTimeout | coreFault
  | portTrainingDone | linkLoss | caps =>
    exact onlyAdvances_onUnit (.of_same (by simp [State.SameFuses]))
  | eventDoorbell | keyCert | keyOffer | keySwitch | rd | spRd | credReq | xlate | wr | spWr | doorbell | atomic | inv |
  invBatch | invAck | syOp | barReport | barRelease | creditRet | keepalive | cfgRd | budgetReport | budgetGrant |
  join | accept | refuse | lost | clockFault =>
    exact onlyAdvances_onUnit (State.receive_advances _ _ _ (fun s => .of_same (by simp [State.SameFuses])))
  | cfgWr => exact onlyAdvances_onUnit (State.receive_advances _ _ _ (fun s => s.cfgWrPacket_advances _ _))
  | resetReq => exact onlyAdvances_onUnit (State.receive_advances _ _ _ (fun s => s.resetReq_advances _ _))
  | coreMapMovingResolve | syncDbgRead | syncDbgWrite | syncDbgRelease | syncDbgClose | syncDbgFree | qmCtrlWrite | descFetch
  | descDispatch | compute | copy | syncDescSignal | syncDescWait | syncDescArrive | near | nearCore | spreadOver | freeze |
  thaw | activate | release | reedSpill | reedFill | killJob | resetStream | jobKillDone | descComplete | descResume |
  streamTimeout | streamWriteback | notifyWrite | epochBoundary | migrationCopyDone | migrationSwitchDone | objFreed |
  translationMiss | reqTagExpiry | pkgFormTimeout | refLoss | refReturn | holdoverExpiry |
  sysWdogKick | pkgSrst | coreResetMask | bootStart | pllLock |
  fwVerified | keyworkInit | bootReady | fwLoad | fwData | fwSwitch | fwAbort | fwQuiesce |
  fwQuiesceTimeout | optData | optCommit | optRevert | optCommitDone | uncoreFault | fenceMask | fenceRelease | descReplay |
  commitPoint | commitApplyDone | tsyncEmit | tsyncFrame | tsNosync | currentWindowEnd | powerWindowEnd | thermalWindowEnd |
  budgetRoundStart | budgetGrantDeadline | thermalTrip | tsLoRead | attest | attestDone | secRptDataRead | challenge |
  secTokenDataWrite | tokenSubmit | dbgLock | secMemencWrite | secRetainRelease | secRngRead |
  rngTestFail | tapReset | extest | idcode | samplePreload | clamp | highz | wirSel | fuseVerify | scan
  | bypass | bistRun | bistDone | portTestRun | portTestDone | dbgDataAccess | traceClear | traceDataRead | telemCtrlWrite |
  telemWindowEnd =>
    exact State.Advances.of_same (by simp [State.SameFuses])
  | porSupply | resetCtrlSrst => exact State.requestReset_advances ..
  | porstN | sysrstN | sysWdogExpiry => exact .ite (State.requestReset_advances ..) .refl
  | deferredReset => exact s.deferredReset_advances
  | onjanSelftestDone ok => exact s.selfTestDone_advances ok
  | svnCommit => exact s.svnCommit_advances
  | fk0Revoke => exact s.fk0Revoke_advances
  | tokenVerifyDone ok => exact s.tokenDone_advances ok
  | fuseProg w bits vpp => exact s.fuseProg_advances _ bits vpp
  | cfgAccess v off wr => exact s.tapAccess_advances v _ wr
  | cfgRegWrite off v => exact s.cfgWrite_advances _ off v
  | passComplete t ma =>
    refine onlyAdvances_onUnit (.ite ?_ .refl)
    split
    · exact .of_same (by simp [State.SameFuses])
    · exact .refl
  | tagWaitGrant t eng idx =>
    refine onlyAdvances_onUnit ?_
    split
    · exact .ite (.of_same (by simp [State.SameFuses])) .refl
    · exact .refl
  | fenceDesc d =>
    change s.Advances (match s.desc d with | none => _ | some x => _)
    split
    · exact .refl
    · exact .ite (.of_same (by simp [State.SameFuses])) .refl
  | nopDesc d =>
    change s.Advances (match s.desc d with | some x => _ | none => _)
    split
    · exact .ite (.of_same (by simp [State.SameFuses])) .refl
    · exact .refl
  | absentAdmission =>
    change s.Advances (match s.lowestAbsent with | some c => _ | none => _)
    split
    · exact .ite (.of_same (by simp [State.SameFuses])) .refl
    · exact .refl
  | rdData p k =>
    exact onlyAdvances_onUnit (State.receive_advances _ _ _ (fun s => State.answered_advances _ _ _ (fun s o =>
      .ite (.of_same (by simp [State.SameFuses])) (.of_same (by simp [State.SameFuses])))))
  | rdErr | wrAck | credGrant | credRefuse | xlateRsp | cfgRsp =>
    exact onlyAdvances_onUnit (State.receive_advances _ _ _ (fun s => State.answered_advances _ _ _ (fun s o =>
      .of_same (by simp [State.SameFuses]))))
  | syResult p k i =>
    cases p with
    | none => exact State.Advances.of_same (by simp [State.SameFuses])
    | some p =>
      refine onlyAdvances_onUnit (State.receive_advances _ _ _ (fun s => State.answered_advances _ _ _ (fun s o => ?_)))
      split
      · exact .of_same (by simp [State.SameFuses])
      · exact .refl

/-- Settles O58: by cases on whether a command waits; the idle step and every command only advance the fuses
(`State.idle_advances`, `exec_onlyAdvances`). -/
theorem fusesAndLifecycleOnlyAdvance : Obligations.FusesAndLifecycleOnlyAdvance := by
  intro s s' hf hs
  have h : s.Later s' := by
    unfold step at hs
    split at hs
    · cases hs
      exact s.idle_advances.later hf
    · next c rest _ =>
      have hc := exec_onlyAdvances c { s with pending := rest }
      rw [hs] at hc
      obtain ⟨hfuse, hsvn, hfk0, hlife, hforward⟩ := hc.later hf
      exact ⟨hfuse, hsvn, hfk0, hlife, hforward⟩
  exact ⟨h.fuse, h.svn, h.fk0, h.life, h.forward⟩

end Sys2Proof.Machine
end

section
/-!
PROOFS. The state at reset, telemetry, the timestamp, BIST and port tests (spec/16 R427; spec/17 R477 to R480; spec/20 R521, R522;
spec/23 R560 to R562).
-/

namespace Sys2Proof.Machine

open Sys2Proof

/-- Settles O1: a step is `exec` of the front command, by the definition of `step`. -/
theorem stepTakesFrontCommand : Obligations.StepTakesFrontCommand := fun _ _ => rfl

/-- An offset of a port's block is that port's register (R404). -/
theorem cfgRead_port (s : State) {n off k : Nat} (hn : n < 48) (hk : k < 0x40) (h4 : k % 4 = 0) (hoff : off = 0x1000 + 0x40 * n + k) :
    s.cfgRead off = s.portBlock n k := by
  unfold State.cfgRead
  rw [if_neg (by omega), if_neg (by omega), if_neg (by omega), if_neg (by omega), if_pos (by omega)]
  have hport : (off - 0x1000) / 0x40 = n := by omega
  have hreg : (off - 0x1000) % 0x40 = k := by omega
  rw [hport, hreg]

/-- At power-on every port is as at reset: no partner, no replay, no failure (R404). -/
theorem port_reset (n : Nat) : State.reset.port n = Port.init := by
  unfold State.port State.reset Tab.get
  rfl

/-- The registers of a port that are kept in its state alone (R404). -/
theorem State.portBlock_of_port (s : State) (n : Nat) : s.portBlock n 0x10 = some (w32 (s.port n).peerId)
    ∧ s.portBlock n 0x14 = some (w32 (s.port n).peerPart) ∧ s.portBlock n 0x18 = some (w32 (s.port n).replays)
    ∧ s.portBlock n 0x1C = some (w32 (s.port n).authFails) := ⟨rfl, rfl, rfl, rfl⟩

/-- Settles O60: each clause evaluates in the closed state `State.reset`; the registers of a port by their offset within its block. -/
theorem resetMeetsTheInvariants : Obligations.ResetMeetsTheInvariants := by
  refine ⟨by decide, rfl, rfl, rfl, rfl, rfl, rfl, rfl, rfl, fun _ => rfl, fun _ => rfl, by decide, by decide, by decide, by decide, fun n hn => ?_⟩
  obtain ⟨hpeer, hpart, hreplays, hfails⟩ := State.reset.portBlock_of_port n
  rw [port_reset] at hpeer hpart hreplays hfails
  refine ⟨?_, ?_, ?_, ?_⟩
  · exact (cfgRead_port _ hn (k := 0x10) (by decide) (by decide) (by omega)).trans hpeer
  · exact (cfgRead_port _ hn (k := 0x14) (by decide) (by decide) (by omega)).trans hpart
  · exact (cfgRead_port _ hn (k := 0x18) (by decide) (by decide) (by omega)).trans hreplays
  · exact (cfgRead_port _ hn (k := 0x1C) (by decide) (by decide) (by omega)).trans hfails

/-! ### Telemetry (R560 to R562) -/

/-- The value that a write of `TELEM_CTRL` leaves in the register: a length of 0 keeps the one there (R561). -/
def State.telemWord (s : State) (v : Word) : Word :=
  BitVec.ofNat 32 (fld v 0 1 + (if fld v 8 8 = 0 then s.winMs else fld v 8 8) * 2 ^ 8)

/-- A write of `TELEM_CTRL` stores the new value, and changes the telemetry alone besides. -/
theorem State.telemCtrl_eq (s : State) (v : Word) :
    s.telemCtrl v = { s.setReg 0x3800 (s.telemWord v) with telem := (s.telemCtrl v).telem } := by
  unfold State.telemCtrl State.telemWord
  cases bitAt v 0 <;> cases s.telem.running <;> rfl

/-- The fields of a value of `TELEM_CTRL`. -/
theorem telemWord_fields {e m : Nat} (he : e < 2) (hm : m < 256) :
    fld (BitVec.ofNat 32 (e + m * 2 ^ 8)) 0 1 = e ∧ fld (BitVec.ofNat 32 (e + m * 2 ^ 8)) 8 8 = m := by
  simp only [fld, bitsOf, BitVec.toNat_ofNat]
  omega

theorem bit1_bitAt (v : Word) : bit1 (bitAt v 0) = fld v 0 1 := by
  have h : fld v 0 1 < 2 := Nat.mod_lt _ (by decide)
  simp only [bit1, bitAt, beq_iff_eq]
  change (if fld v 0 1 = 1 then 1 else 0) = fld v 0 1
  split <;> omega

/-- The fields of the stored value: `EN` as written, and the length. -/
theorem State.telemCtrl_fields (s : State) (v : Word) : (s.telemCtrl v).rfld 0x3800 0 1 = bit1 (bitAt v 0)
    ∧ (s.telemCtrl v).rfld 0x3800 8 8 = (if fld v 8 8 = 0 then s.rfld 0x3800 8 8 else fld v 8 8) := by
  have hreg : (s.telemCtrl v).reg 0x3800 = s.telemWord v := by
    rw [s.telemCtrl_eq v]; exact Tab.get_set_self ..
  have hm : (if fld v 8 8 = 0 then s.winMs else fld v 8 8) < 256 := by
    split <;> exact Nat.mod_lt _ (by decide)
  obtain ⟨hen, hlen⟩ := telemWord_fields (e := fld v 0 1) (Nat.mod_lt _ (by decide)) hm
  rw [bit1_bitAt]
  exact ⟨(congrArg (fld · 0 1) hreg).trans hen, (congrArg (fld · 8 8) hreg).trans hlen⟩

/-- What a write of `TELEM_CTRL` does to the window in progress (R561). -/
theorem State.telemCtrl_window (s : State) (v : Word) : (s.telemCtrl v).telem.running = bitAt v 0
    ∧ (s.telemCtrl v).telem.shown = s.telem.shown
    ∧ (bitAt v 0 = true → s.telem.running = false → (s.telemCtrl v).telem.start = s.now ∧ (s.telemCtrl v).telem.acc = [])
    ∧ (bitAt v 0 = false → (s.telemCtrl v).telem.acc = []) := by
  unfold State.telemCtrl
  cases hv : bitAt v 0 <;> cases hr : s.telem.running <;> simp [State.now, hr]

/-- The counters shown at the end of a window: each value at its index (R560). -/
theorem telem_shown (acc : Tab Nat) {k : Nat} (hk : k < 8) :
    Tab.get 0 ((List.range 8).foldl (fun x k => Tab.set 0 x k (telemShown k (Tab.get 0 acc k))) []) k = telemShown k (Tab.get 0 acc k) :=
  Tab.foldl_set_at (fun k => k) Function.injective_id (fun k _ => telemShown k (Tab.get 0 acc k)) [] 8 k hk

/-- Settles O53: a write by its stored value and its window, an end by the two branches of `telemWindowEnd`. -/
theorem telemetryWindows : Obligations.TelemetryWindows := by
  intro s
  refine ⟨fun v => ⟨_, rfl, ?_⟩, fun hrun hend => ?_, fun hnone => ?_⟩
  · obtain ⟨hrunning, hshown, hstart, hstop⟩ := s.telemCtrl_window v
    obtain ⟨hen, hlen⟩ := s.telemCtrl_fields v
    have hframe : (s.telemCtrl v).tiles = s.tiles ∧ (s.telemCtrl v).mem = s.mem ∧ (s.telemCtrl v).fuses = s.fuses
        ∧ (s.telemCtrl v).mgmt = s.mgmt ∧ (s.telemCtrl v).tst = s.tst := by
      rw [s.telemCtrl_eq v]; simp
    exact ⟨hframe, hrunning, hshown, hen, hlen, hstart, hstop⟩
  · have hgo : ¬(!s.telem.running || decide (s.now < s.telem.start + 10 ^ 6 * s.telem.len)) = true := by
      simp [hrun]; omega
    refine ⟨_, congrArg Host.Outcome.next (if_neg hgo), ⟨rfl, rfl, rfl, rfl, rfl⟩, rfl, hrun, rfl, rfl, rfl, rfl, rfl, ?_⟩
    exact fun k hk => telem_shown s.telem.acc hk
  · have hstay : (!s.telem.running || decide (s.now < s.telem.start + 10 ^ 6 * s.telem.len)) = true := by
      simpa using hnone
    exact congrArg Host.Outcome.next (if_pos hstay)

/-! ### The timestamp (R477 to R480) -/

/-- What a frame that puts the counter at `goal` leaves of it (R478). -/
def State.Lands (s s' : State) (goal : Nat) : Prop :=
  (s.time.aligned = false → s'.time.ts = goal ∧ s'.time.aligned = true)
  ∧ (s.time.aligned = true → s.now < goal →
      s'.time.ts = goal ∧ s'.time.slew = 0 ∧ s'.time.slip = (s.time.slip || decide (1000 < goal - s.now)))
  ∧ (s.time.aligned = true → goal ≤ s.now →
      s'.time.ts = s.now ∧ s'.time.slew = 2 * (s.now - goal) ∧ s'.time.slip = (s.time.slip || decide (1000 < s.now - goal)))

/-- The counter after a frame, by the sign of the difference to it. -/
theorem State.align_lands (s : State) (k since : Nat) : s.Lands (s.align k since) (k % 2 ^ 44 * 10 ^ 6 + s.tsAdj + since) := by
  unfold State.align
  by_cases hal : s.time.aligned = true
  · refine ⟨fun h => absurd hal (by simp [h]), fun _ hlt => ?_, fun _ hle => ?_⟩
    · have hneg : (s.now : Int) - since - ((k % 2 ^ 44 * 10 ^ 6 + s.tsAdj : Nat) : Int) < 0 := by omega
      have habs : ((s.now : Int) - since - ((k % 2 ^ 44 * 10 ^ 6 + s.tsAdj : Nat) : Int)).natAbs = (k % 2 ^ 44 * 10 ^ 6 + s.tsAdj) + since - s.now := by omega
      have hts : s.time.ts + ((k % 2 ^ 44 * 10 ^ 6 + s.tsAdj) + since - s.now) = (k % 2 ^ 44 * 10 ^ 6 + s.tsAdj) + since := by unfold State.now at *; omega
      simp only [hal, Bool.not_true, Bool.false_eq_true, if_false, hneg, if_true, habs]
      split <;> simp [State.onTime, *, -Nat.reducePow, -Nat.reduceMul]
    · have hnn : ¬(s.now : Int) - since - ((k % 2 ^ 44 * 10 ^ 6 + s.tsAdj : Nat) : Int) < 0 := by omega
      have habs : ((s.now : Int) - since - ((k % 2 ^ 44 * 10 ^ 6 + s.tsAdj : Nat) : Int)).natAbs = s.now - ((k % 2 ^ 44 * 10 ^ 6 + s.tsAdj) + since) := by omega
      simp only [hal, Bool.not_true, Bool.false_eq_true, if_false, hnn, habs]
      have hts : s.time.ts = s.now := rfl
      split <;> simp [State.onTime, *, -Nat.reducePow, -Nat.reduceMul]
  · simp only [Bool.not_eq_true] at hal
    simp [State.Lands, hal, State.onTime]

/-- A frame changes the timestamp, and reports at most. -/
theorem State.align_rest (s : State) (k since : Nat) : (s.align k since).tiles = s.tiles ∧ (s.align k since).cfg = s.cfg
    ∧ (s.align k since).fuses = s.fuses ∧ (s.align k since).bw = s.bw ∧ (s.align k since).pending = s.pending
    ∧ (s.align k since).time.masterMs = s.time.masterMs := by
  unfold State.align
  split
  · exact ⟨rfl, rfl, rfl, rfl, rfl, rfl⟩
  · dsimp only
    split
    · simp [State.onTime]
    · exact ⟨rfl, rfl, rfl, rfl, rfl, rfl⟩

/-- Settles O44: frames by `align_lands` and `align_rest`, the rest by the branch of each command. -/
theorem timestampFollowsFrames : Obligations.TimestampFollowsFrames := by
  intro s k since
  have hcount (h : 5 ≤ s.mgmt.stage) : s.counting = true := decide_eq_true h
  have hstill (h : s.mgmt.stage < 5) : s.counting = false := decide_eq_false (by omega)
  refine ⟨fun hclk hslave hst => ?_, fun hm => ?_, fun hst => ?_, fun hem => ⟨fun hst hk => ?_, fun hst => ?_⟩, fun hem => ?_,
    fun hno hst hlate => ?_, fun hearly => ?_, ⟨_, rfl, ⟨rfl, rfl, rfl, rfl, rfl⟩, rfl, rfl, rfl⟩⟩
  · have hgo : ¬(s.isMaster || !s.clocked || !s.counting) = true := by simp [hclk, hslave, hcount hst]
    obtain ⟨ht, hc, hf, hb, hp, _⟩ := s.align_rest k since
    exact ⟨_, congrArg Host.Outcome.next (if_neg hgo), s.align_lands k since, ht, hc, hf, hb, hp⟩
  · exact congrArg Host.Outcome.next (if_pos (by simp [hm]))
  · exact congrArg Host.Outcome.next (if_pos (by simp [hstill hst]))
  · subst hk
    let s1 := s.onTime (fun t => { t with masterMs := t.masterMs + 1 })
    obtain ⟨ht, hc, hf, hb, hp, hms⟩ := s1.align_rest s.time.masterMs since
    exact ⟨_, congrArg Host.Outcome.next ((if_pos hem).trans (if_pos (hcount hst))), s1.align_lands _ since, ⟨ht, hc, hf, hb, hp⟩, hms⟩
  · exact ⟨_, congrArg Host.Outcome.next ((if_pos hem).trans (if_neg (by simp [hstill hst]))), ⟨rfl, rfl, rfl, rfl, rfl⟩, rfl⟩
  · exact congrArg Host.Outcome.next (if_neg (by simp [hem]))
  · have hgo : ¬(s.time.nosync || !s.counting || decide (s.now < s.time.lastFrame + 3000000)) = true := by
      simp [hno, hcount hst]; omega
    exact ⟨_, congrArg Host.Outcome.next (if_neg hgo), by simp [State.onTime]⟩
  · exact congrArg Host.Outcome.next (if_pos (by simp; omega))

/-! ### BIST and port tests (R521, R522) -/

/-- The test registers without the trace buffer, to which an event may add a record (R527). -/
def Tst.untraced (x : Tst) : Tst := { x with trace := [], wptr := 0, full := false, lostFlag := false }

theorem traceAdd_untraced (s : State) (tile src typ : Nat) (pay : Word) :
    (s.traceAdd tile src typ pay).tst.untraced = s.tst.untraced := by
  unfold State.traceAdd
  split <;> rfl

theorem event_untraced (s : State) (e : Ev) : (s.event e).tst.untraced = s.tst.untraced :=
  event_keeps (P := fun z => z.tst.untraced = s.tst.untraced) (fun z _ _ _ _ h => (traceAdd_untraced z ..).trans h)
    (fun z _ _ h => (congrArg Tst.untraced (wrPkg_tst z ..)).trans h) (fun _ _ h => h) (fun _ _ _ h => h) rfl e

theorem event_tileStates (s : State) (e : Ev) : (s.event e).kw.tiles = s.kw.tiles := by
  apply event_kw (P := fun k => k.tiles = s.kw.tiles)
  · intro z a n h; simp only [State.addTraffic]; repeat' split
    all_goals exact h
  · intro z a n h; simp only [State.markDirty]; repeat' split
    all_goals exact h
  · exact fun _ _ h => h
  · rfl

/-- What the end of a BIST may find changed by the admissions that waited for it: the core map and the states of the tiles. -/
def State.SameTest (s s' : State) : Prop := s'.tiles = s.tiles ∧ s'.tst.untraced = s.tst.untraced

theorem State.event_sameTest {s z : State} (h : s.SameTest z) (e : Ev) : s.SameTest (z.event e) :=
  ⟨by simpa using h.1, (event_untraced z e).trans h.2⟩

theorem State.admitFor_sameTest (s : State) (core old : Nat) : s.SameTest (s.admitFor core old) := by
  unfold State.admitFor
  dsimp only
  generalize (if old == 127 then s.spares.head? else nearestSpare old s.spares) = pick
  cases pick with
  | some sp => exact ⟨rfl, rfl⟩
  | none =>
    dsimp only
    split
    · exact ⟨rfl, rfl⟩
    · unfold State.absentEvent
      refine State.event_sameTest ?_ _
      exact ⟨rfl, rfl⟩

theorem State.admitWaiting_sameTest (s : State) : s.SameTest s.admitWaiting := by
  unfold State.admitWaiting
  refine List.foldlRecOn _ _ (motive := fun z => s.SameTest z) ⟨rfl, rfl⟩ (fun z hz a _ => ?_)
  obtain ⟨ht, hu⟩ := z.admitFor_sameTest a.2.1 a.2.2
  exact ⟨ht.trans hz.1, hu.trans hz.2⟩

/-- Without an admission that waits for a BIST nothing is admitted (R521). -/
theorem State.admitWaiting_tileSt {s : State} (h : ∀ a ∈ s.kw.admitting, a.1 ≠ 127) (t : Nat) : s.admitWaiting.tileSt t = s.tileSt t := by
  have hnone : s.kw.admitting.filter (fun a => a.1 == 127) = [] := by
    simpa [List.filter_eq_nil_iff] using h
  unfold State.admitWaiting
  rw [hnone]
  rfl

/-- When a port test may run, written out (R522). -/
theorem State.portTestOk_iff (s : State) (p mode lane : Nat) (ok : Bool) :
    let off := (s.port p).st = .down ∧ s.portEn p = false
    s.portTestOk p mode lane ok = true ↔ p < Config.ports ∧ lane < 68 ∧ s.tst.ptBusy = false ∧ ((mode = 1 ∧ off)
      ∨ (mode = 2 ∧ ((off ∧ ok = true) ∨ ((s.port p).st = .up ∧ lane ∉ inService (s.reg (0x100C + 0x40 * p)))))) := by
  unfold State.portTestOk
  by_cases h1 : mode = 1
  · simp [h1, isPort, and_assoc]
  · by_cases h2 : mode = 2 <;> simp [h1, h2, isPort, and_assoc]

/-- Settles O51: BIST by its two commands, the end of one by `admitWaiting_sameTest`; port tests by the branch of each command. -/
theorem bistAndPortTests : Obligations.BistAndPortTests := by
  intro s
  refine ⟨fun t kind => ⟨fun hok => ?_, fun hno => ?_⟩, fun hbusy pass store => ?_, fun hidle pass store => ?_,
    fun p mode lane ok => ⟨fun hruns => ?_, fun hno => ?_⟩, fun errors tm vm hbusy => ?_⟩
  · have hb : (decide (t < Config.tiles) && (kind == 1 || kind == 2) && !s.tst.bistBusy
        && (s.tileSt t == .spare || s.tileSt t == .fenced || s.tileSt t == .failed)) = true := by
      simpa [and_assoc, or_assoc] using hok
    refine congrArg Host.Outcome.next (?_ : s.bistRun t kind = _)
    unfold State.bistRun
    dsimp only
    rw [hb]; rfl
  · have hb : (decide (t < Config.tiles) && (kind == 1 || kind == 2) && !s.tst.bistBusy
        && (s.tileSt t == .spare || s.tileSt t == .fenced || s.tileSt t == .failed)) = false := by
      rw [Bool.eq_false_iff]
      exact fun h => hno (by simpa [and_assoc, or_assoc] using h)
    refine congrArg Host.Outcome.next (?_ : s.bistRun t kind = _)
    unfold State.bistRun
    dsimp only
    rw [hb]; rfl
  · have hgo : ¬(!s.tst.bistBusy) = true := by simp [hbusy]
    let s1 := s.onTst (fun x => { x with bistBusy := false, bistPass := pass, bistFail := if pass then 0 else store % 256 })
    let e : Ev := { typ := 0x0500, tile := s.tst.bistTile, pay := [(0x18, 4, s.tst.bistTile + s.tst.bistKind * 2 ^ 7 + bit1 pass * 2 ^ 9),
      (0x1C, 4, if pass then 0 else store % 256)] }
    obtain ⟨htiles, hun⟩ := (s1.event e).admitWaiting_sameTest
    have htst : (s1.event e).admitWaiting.tst.untraced = s1.tst.untraced := hun.trans (event_untraced s1 e)
    refine ⟨(s1.event e).admitWaiting, congrArg Host.Outcome.next (if_neg hgo), ⟨?_, ?_, ?_, ?_, ?_⟩, congrArg Tst.bistBusy htst,
      congrArg Tst.bistPass htst, congrArg Tst.bistFail htst, fun hnone t => ?_⟩
    · exact htiles.trans (by simp [s1, State.onTst])
    · simp [s1, State.onTst]
    · simp [s1, State.onTst]
    · simp [s1, State.onTst]
    · simp [s1, State.onTst]
    · rw [State.admitWaiting_tileSt (by rw [event_admitting]; exact hnone)]
      exact congrArg (Tab.get .off · t) (event_tileStates s1 e)
  · exact congrArg Host.Outcome.next (if_pos (by simp [hidle]))
  · have hb : s.portTestOk p mode lane ok = true := (s.portTestOk_iff p mode lane ok).mpr hruns
    refine congrArg Host.Outcome.next (?_ : s.portTest p mode lane ok = _)
    unfold State.portTest
    rw [hb]; rfl
  · have hb : s.portTestOk p mode lane ok = false := by
      rw [Bool.eq_false_iff]
      exact fun h => hno ((s.portTestOk_iff p mode lane ok).mp h)
    refine congrArg Host.Outcome.next (?_ : s.portTest p mode lane ok = _)
    unfold State.portTest
    rw [hb]; rfl
  · have hgo : ¬(!s.tst.ptBusy) = true := by simp [hbusy]
    by_cases hmode : (s.tst.ptMode == 1) = true
    · refine ⟨_, congrArg Host.Outcome.next ((if_neg hgo).trans (if_pos hmode)), ⟨rfl, rfl, rfl, rfl, rfl⟩, rfl, rfl, fun _ => rfl,
        fun h => absurd (eq_of_beq hmode) h⟩
    · let s1 := s.onTst (fun x => { x with ptBusy := false, ptDone := true, ptT := tm % 256, ptV := vm % 256 })
      have htst (e : Ev) : (s1.event e).tst.untraced = s1.tst.untraced := event_untraced s1 e
      refine ⟨_, congrArg Host.Outcome.next ((if_neg hgo).trans (if_neg hmode)), ?_, congrArg Tst.ptBusy (htst _),
        congrArg Tst.ptDone (htst _), fun h => absurd (by simpa using h) hmode,
        fun _ => ⟨congrArg Tst.ptT (htst _), congrArg Tst.ptV (htst _)⟩⟩
      simp [State.onTst]

end Sys2Proof.Machine
end

section
/-!
PROOFS. The TAP and the fuses, rollback, memory encryption and held slots, attestation and the random source (spec/19 R495 to R509;
spec/20 R513 to R520).
-/

namespace Sys2Proof.Machine

open Sys2Proof

/-! ### The TAP (R513 to R520) -/

/-- The TAP takes up instruction `c`, with code `ir` and outputs `out` (R514). -/
def State.TapTakes (s : State) (c : Instr) (ir out : Nat) : Prop :=
  ∃ s', exec c s = .next s' ∧ (s'.tiles = s.tiles ∧ s'.ports = s.ports ∧ s'.mgmt = s.mgmt ∧ s'.sec = s.sec ∧ s'.mem = s.mem
      ∧ s'.cfg = s.cfg ∧ s'.pending = s.pending ∧ s'.tst.trace = s.tst.trace) ∧ s'.fuses = s.fuses ∧ s'.tst.ir = ir
    ∧ s'.tst.outMode = out ∧ s'.tst.refused = s.tst.refused ∧ (c ≠ .scan → s'.tst.scanned = s.tst.scanned)

theorem State.tapTakes_of {s : State} {c : Instr} {ir out n : Nat} {x : Tst} (hx : exec c s = .next { s with tst := x, free := n })
    (htr : x.trace = s.tst.trace) (hir : x.ir = ir) (hout : x.outMode = out)
    (href : x.refused = s.tst.refused) (hsc : c ≠ .scan → x.scanned = s.tst.scanned) : s.TapTakes c ir out :=
  ⟨_, hx, ⟨rfl, rfl, rfl, rfl, rfl, rfl, rfl, htr⟩, rfl, hir, hout, href, hsc⟩

/-- The TAP refuses instruction `c` (R514). -/
theorem State.tapRefuses {s : State} {c : Instr} (hx : exec c s = .next s.tapRefuse) :
    ∃ s', exec c s = .next s' ∧ (s'.tiles = s.tiles ∧ s'.ports = s.ports ∧ s'.mgmt = s.mgmt ∧ s'.sec = s.sec ∧ s'.mem = s.mem
        ∧ s'.cfg = s.cfg ∧ s'.pending = s.pending ∧ s'.tst.trace = s.tst.trace) ∧ s'.fuses = s.fuses ∧ s'.tst.ir = 0xFF
      ∧ s'.tst.outMode = 0 ∧ s'.tst.refused = true ∧ s'.tst.boundary = s.tst.boundary ∧ s'.tst.scanned = s.tst.scanned :=
  ⟨_, hx, ⟨rfl, rfl, rfl, rfl, rfl, rfl, rfl, rfl⟩, rfl, rfl, rfl, rfl, rfl, rfl⟩

/-- Pulses that nothing holds back begin behind those under way (R436). -/
theorem State.blow_pulses {s : State} (ps : List FusePulse) (h : s.mgmt.pendingReset = none) :
    (s.blow ps).mgmt.pulses = s.mgmt.pulses ++ ps := by
  unfold State.blow
  cases ps with
  | nil => simp
  | cons p l => rw [if_neg (by simp [h])]; rfl

/-- Pulses touch the management part, and draw a free value. -/
theorem State.blow_rest (s : State) (ps : List FusePulse) : (s.blow ps).ports = s.ports ∧ (s.blow ps).mem = s.mem
    ∧ (s.blow ps).tst = s.tst := by
  unfold State.blow
  split <;> exact ⟨rfl, rfl, rfl⟩

/-- Settles O50: each instruction by the branch that its condition takes. -/
theorem tapInstructionsAndFuses : Obligations.TapInstructionsAndFuses := by
  intro s
  have hon {b : Bool} (h : bitAt (s.reg 0x2000) 0 = b) : s.qmEn = b := h
  refine ⟨State.tapTakes_of rfl rfl rfl rfl rfl fun _ => rfl, State.tapTakes_of rfl rfl rfl rfl rfl fun _ => rfl,
    State.tapTakes_of rfl rfl rfl rfl rfl fun _ => rfl, ⟨_, rfl, rfl⟩, fun cells => ⟨?_, ⟨_, rfl, rfl⟩, fun hoff => ⟨?_, ?_⟩, fun hqm => ?_⟩,
    fun hoff => ⟨?_, ?_⟩, fun hqm => ⟨?_, ?_⟩, fun v => ⟨?_, ⟨_, rfl, rfl⟩⟩, fun hdbg hoff => ⟨?_, ?_⟩, fun hno => ?_, fun w bits vpp hw => ?_,
    fun w hw => ?_⟩
  · exact State.tapTakes_of rfl rfl rfl rfl rfl fun _ => rfl
  · exact State.tapTakes_of (congrArg Host.Outcome.next (if_neg (by simp [hon hoff]))) rfl rfl rfl rfl fun _ => rfl
  · exact ⟨_, congrArg Host.Outcome.next (if_neg (by simp [hon hoff])), rfl⟩
  · exact State.tapRefuses (congrArg Host.Outcome.next (if_pos (hon hqm)))
  · exact State.tapTakes_of (congrArg Host.Outcome.next (if_neg (by simp [hon hoff]))) rfl rfl rfl rfl fun _ => rfl
  · exact State.tapTakes_of (congrArg Host.Outcome.next (if_neg (by simp [hon hoff]))) rfl rfl rfl rfl fun _ => rfl
  · exact State.tapRefuses (congrArg Host.Outcome.next (if_pos (hon hqm)))
  · exact State.tapRefuses (congrArg Host.Outcome.next (if_pos (hon hqm)))
  · exact State.tapTakes_of rfl rfl rfl rfl rfl fun _ => rfl
  · exact State.tapTakes_of (congrArg Host.Outcome.next (if_pos (by simp [hdbg, hon hoff]))) rfl rfl rfl rfl fun h => absurd rfl h
  · exact ⟨_, congrArg Host.Outcome.next (if_pos (by simp [hdbg, hon hoff])), by simp [State.clocked, State.onTst]⟩
  · refine State.tapRefuses (congrArg Host.Outcome.next (if_neg ?_))
    rcases hno with h | h
    · simp [h]
    · simp [hon h]
  · have hx : exec (.fuseProg w bits vpp) s = .next (s.fuseProg w bits vpp) := by
      show Host.Outcome.next (s.fuseProg (w % 512) bits vpp) = _
      rw [Nat.mod_eq_of_lt hw]
    have hcond (b : Bool) : s.fuseRefused w bits = b → (s.tapTake 0x18 0 s.fuseBusy).fuseRefused w bits = b := id
    refine ⟨fun hr => ?_, fun hr hv => ?_, fun hr hv hnone => ?_⟩
    · refine ⟨_, hx.trans (congrArg _ (if_pos (hcond true hr))), ⟨rfl, rfl, rfl, rfl, rfl, rfl, rfl, rfl⟩, rfl, rfl⟩
    · refine ⟨_, hx.trans (congrArg _ ((if_neg (by simp [hcond false hr])).trans (if_neg (by simp [hv])))),
        ⟨rfl, rfl, rfl, rfl, rfl, rfl, rfl, rfl⟩, rfl, rfl⟩
    · let s1 := s.tapTake 0x18 0 s.fuseBusy
      refine ⟨_, hx.trans (congrArg _ ((if_neg (by simp [hcond false hr])).trans (if_pos hv))), ?_⟩
      obtain ⟨hports, hmem, htst⟩ := s1.blow_rest ((bitList (bits &&& ~~~(s1.fuse w)).toNat 32).map (FusePulse.bit w))
      exact ⟨congrArg Tst.ir htst, by simp, by simp, hports, by simp, hmem, by simp, s1.blow_pulses _ hnone⟩
  · have hx : exec (.fuseVerify w) s = .next (s.fuseVerify w) := by
      show Host.Outcome.next (s.fuseVerify (w % 512)) = _
      rw [Nat.mod_eq_of_lt hw]
    exact ⟨_, hx, ⟨rfl, rfl, rfl, rfl, rfl, rfl, rfl, rfl⟩, rfl, rfl, fun h => if_neg (by omega)⟩

/-! ### Rollback fuses, memory encryption and held slots (R436, R495, R503, R505) -/

theorem State.served_same (s : State) : s.serveHeld.evaluateConfig.mgmt = s.mgmt ∧ s.SameFuses s.serveHeld.evaluateConfig := by
  obtain ⟨hf, hl, hc, hm, hk, hp⟩ := s.serveHeld.evaluateConfig_same
  simp only [State.serveHeld_frame] at hf hl hc hm hk hp
  exact ⟨by simp, hf, hl, hc, hm, hk, hp⟩

/-- An idle step leaves of the management part and the fuses what the pulse leaves (R436). -/
theorem State.idle_pulse (s : State) : s.idle.mgmt = s.pulse.mgmt ∧ s.pulse.SameFuses s.idle := by
  unfold State.idle
  generalize s.pulse = z
  have refl (z : State) : z.SameFuses z := ⟨rfl, rfl, rfl, rfl, rfl, rfl⟩
  dsimp only
  split
  · exact ⟨rfl, refl z⟩
  · split
    · exact ⟨rfl, refl z⟩
    · exact State.served_same _

/-- What the end of one pulse leaves: the number of the next pulses and their time are the management part's affair (R436). -/
theorem State.pulse_of_cons {s : State} {q : FusePulse} {l : List FusePulse} (h : s.mgmt.pulses = q :: l) :
    s.pulse = if 1 < s.mgmt.pulseNs then s.onMgmt (fun m => { m with pulseNs := m.pulseNs - 1 })
      else ((s.pulsed q).onMgmt (fun m => { m with
        pulses := if s.mgmt.pendingReset.isSome then [] else l
        pulseNs := if (if s.mgmt.pendingReset.isSome then [] else l).isEmpty then 0 else s.pulseTime })).tick := by
  unfold State.pulse
  rw [h]

theorem getLsbD_putBits_self (v : Word) {b : Nat} (hb : b < 32) :
    (BitVec.ofNat 32 (putBits v.toNat b 1 1)).getLsbD b = true := by
  simp [BitVec.getLsbD_ofNat, hb, testBit_putBits]

/-- The effect of one pulse: a step of the minimum version, the revocation, a bit; never the lifecycle in force (R436, R495, R519). -/
theorem State.pulsed_effect (s : State) (q : FusePulse) :
    (∀ old last, q = .svn old last → (s.pulsed q).sec.minSvn = s.sec.minSvn + 1) ∧ (q = .fk0 → (s.pulsed q).sec.fk0Revoked = true)
    ∧ (∀ w b, q = .bit w b → b < 32 → ((s.pulsed q).fuse w).getLsbD b = true) ∧ (s.pulsed q).sec.life = s.sec.life := by
  cases q with
  | bit w b =>
    refine ⟨by simp, by simp, fun w' b' h hb => ?_, rfl⟩
    obtain ⟨rfl, rfl⟩ := FusePulse.bit.inj h
    simp only [State.pulsed, State.fuse, Tab.get_set_self]
    exact getLsbD_putBits_self _ hb
  | svn old last => cases last <;> simp [State.pulsed]
  | fk0 => exact ⟨by simp, fun _ => rfl, by simp, rfl⟩
  | life c l => exact ⟨by simp, by simp, by simp, rfl⟩

/-- The steps to come count the pulses of a commit (R495). -/
theorem Mgmt.svnSteps_of_pulses {m m' : Mgmt} {n old : Nat} {f : Nat → Bool}
    (h : m'.pulses = m.pulses ++ (List.range n).map (fun i => FusePulse.svn old (f i))) : m'.svnSteps = m.svnSteps + n := by
  simp [Mgmt.svnSteps, h, List.countP_append, List.countP_map, Function.comp_def]

/-- Tiles changed one after another, each once. -/
theorem State.tile_foldl_onTile (f : Tile → Tile) {l : List Nat} (hl : l.Nodup) (s : State) (t : Nat) :
    (l.foldl (fun s t => s.onTile t f) s).tile t = if t ∈ l then f (s.tile t) else s.tile t := by
  induction l generalizing s with
  | nil => rfl
  | cons u l ih =>
    obtain ⟨hu, hl⟩ := List.nodup_cons.mp hl
    rw [List.foldl_cons, ih hl]
    by_cases ht : t = u
    · subst ht; simp [hu]
    · simp [ht, State.tile_onTile_other s ht f]

/-- Whether a write of `SEC_MEMENC` is refused, written out: a changed bit of a stack in use or of a locked register (R503). -/
theorem memEnc_barred_iff (s : State) (v : Word) :
    ((List.range 4).filter (fun k => s.sec.memEnc.testBit k != (fld v 0 4).testBit k)).any
      (fun k => s.stackInUse k || (s.sec.memEnc.testBit k && s.sec.memEnc.testBit 4)) = true
    ↔ ∃ k, k < 4 ∧ s.sec.memEnc.testBit k ≠ v.toNat.testBit k
      ∧ (s.stackInUse k = true ∨ (s.sec.memEnc.testBit k = true ∧ s.sec.memEnc.testBit 4 = true)) := by
  have hbit {k : Nat} (hk : k < 4) : (fld v 0 4).testBit k = v.toNat.testBit k := by
    have h : fld v 0 4 = v.toNat % 2 ^ 4 := by simp [fld, bitsOf]
    simp [h, Nat.testBit_mod_two_pow, hk, -Nat.reducePow]
  simp only [List.any_eq_true, List.mem_filter, List.mem_range, bne_iff_ne, Bool.or_eq_true, Bool.and_eq_true, and_assoc]
  exact exists_congr fun k => and_congr_right fun hk => by rw [hbit hk]

/-- Settles O49: commits and revocations by `blow_pulses`, an idle step by `idle_pulse` and `pulsed_effect`, the rest by the branch of
each command. -/
theorem rollbackMemoryAndHeldSlots : Obligations.RollbackMemoryAndHeldSlots := by
  intro s
  refine ⟨fun hkey hnone => ?_, fun hkey => ?_, fun hkey hnone => ?_, fun hkey => ?_, fun q l hpend hq => ⟨fun hns => ?_, fun hns => ?_⟩,
    fun v => ⟨fun hbar => ?_, fun hbar => ?_⟩, fun j => ⟨fun hdev hheld => ?_, fun hlife => ?_⟩⟩
  · refine ⟨_, congrArg Host.Outcome.next (if_neg (by simpa using hkey)), by simp, by simp, by simp, ?_, ?_⟩
    · exact Mgmt.svnSteps_of_pulses (s.blow_pulses _ hnone)
    · rw [s.blow_pulses _ hnone]; exact List.prefix_append _ _
  · exact congrArg Host.Outcome.next (if_pos (by simp [hkey]))
  · exact ⟨_, congrArg Host.Outcome.next (if_neg (by simp [hkey])), by simp, by simp, s.blow_pulses _ hnone⟩
  · exact congrArg Host.Outcome.next (if_pos (by simpa using hkey))
  · have hstep : step s = .next s.idle := by unfold step; rw [hpend]
    obtain ⟨hmgmt, hf, _, _, hsvn, hfk0, _⟩ := s.idle_pulse
    rw [State.pulse_of_cons hq, if_pos hns] at hmgmt hf hsvn hfk0
    exact ⟨_, hstep, hmgmt, hsvn, hfk0, hf⟩
  · have hstep : step s = .next s.idle := by unfold step; rw [hpend]
    obtain ⟨hmgmt, hf, hlife, _, hsvn, hfk0, _⟩ := s.idle_pulse
    rw [State.pulse_of_cons hq, if_neg (by omega)] at hmgmt hf hlife hsvn hfk0
    obtain ⟨hesvn, hefk0, hebit, helife⟩ := s.pulsed_effect q
    refine ⟨_, hstep, congrArg Mgmt.pulses hmgmt, fun old last h => hsvn.trans (hesvn old last h), fun h => hfk0.trans (hefk0 h),
      fun w b h hb => ?_, hlife.trans helife⟩
    exact (congrArg (fun f => (Tab.get 0 f w).getLsbD b) hf).trans (hebit w b h hb)
  · exact congrArg Host.Outcome.next (if_pos ((memEnc_barred_iff s v).mpr hbar))
  · refine ⟨_, congrArg Host.Outcome.next (if_neg (fun h => hbar ((memEnc_barred_iff s v).mp h))), ?_, ?_, rfl, rfl, rfl⟩
    · simp only [State.onSec_sec, putBits_eq]; omega
    · simp only [State.onSec_sec, putBits_eq, fld, bitsOf]; omega
  · have hsome : s.heldTiles j ≠ [] := by
      obtain ⟨t, ht, hr⟩ := hheld
      exact List.ne_nil_of_mem (List.mem_filter.mpr ⟨List.mem_range.mpr ht, by simp [hr]⟩)
    have hnd : (s.heldTiles j).Nodup := List.nodup_range.filter _
    refine ⟨_, congrArg Host.Outcome.next (if_neg (by simp [hdev, hsome])), ?_, ?_, fun t ht => ?_⟩
    · exact (State.event_frame ..).2.2.2.2.2.2.1.trans (foldl_sec _ _ _ fun s t => rfl)
    · exact (State.event_frame ..).2.1.trans (foldl_fuses _ _ _ fun s t => rfl)
    · refine (tile_of_tiles (State.event_frame ..).1 t).trans ((State.tile_foldl_onTile Tile.scrub hnd s t).trans ?_)
      simp [State.heldTiles, ht]
  · exact congrArg Host.Outcome.next (if_pos (by simp [hlife]))

/-! ### Attestation and the random source (R496, R497, R506, R509) -/

/-- A list of words put into a table, read back. -/
theorem get_putWords (t : Tab Word) (i : Nat) (l : List Word) (j : Nat) :
    Tab.get 0 (putWords t i l) j = if i ≤ j then (l[j - i]?).getD (Tab.get 0 t j) else Tab.get 0 t j := by
  induction l generalizing t i with
  | nil => simp [putWords]
  | cons w ws ih =>
    rw [putWords, ih, Tab.get_set]
    by_cases h : i + 1 ≤ j
    · obtain ⟨d, rfl⟩ := Nat.exists_eq_add_of_le h
      have hd : i + 1 + d - i = d + 1 := by omega
      simp [h, hd, show i + 1 + d ≠ i by omega, show i ≤ i + 1 + d by omega]
    · by_cases hj : j = i
      · subst hj; simp
      · simp [h, hj, show ¬i ≤ j by omega]

/-- A block of a list, found behind the blocks before it. -/
theorem getElem?_block {α : Type} {A N : List α} (C : List α) {n i : Nat} (hA : A.length = n) (hi : i < N.length) :
    (A ++ N ++ C)[n + i]? = N[i]? := by
  subst hA
  rw [List.append_assoc, List.getElem?_append_right (by omega), Nat.add_sub_cancel_left, List.getElem?_append_left hi]

/-- The words of a captured report (R497). -/
theorem State.reportWords_get (s : State) : Tab.get 0 s.reportWords 0 = 1 ∧ Tab.get 0 s.reportWords 1 = s.reg 0x0000
    ∧ Tab.get 0 s.reportWords 4 = s.reg 0x0008 ∧ Tab.get 0 s.reportWords 8 = BitVec.ofNat 32 s.mgmt.fwVersion
    ∧ Tab.get 0 s.reportWords 10 = BitVec.ofNat 32 s.sec.minSvn ∧ Tab.get 0 s.reportWords 14 = BitVec.ofNat 32 s.now
    ∧ ∀ i, i < 12 → Tab.get 0 s.reportWords (40 + i) = s.reg (0x3060 + 4 * i) := by
  unfold State.reportWords
  simp only [get_putWords]
  refine ⟨?_, ?_, ?_, ?_, ?_, ?_, fun i hi => ?_⟩
  · simp
  · simp
  · simp
  · simp
  · simp
  · simp
  · rw [if_neg (by omega), if_pos (by omega), Nat.sub_zero, getElem?_block _ (by simp) (by simpa using hi)]
    simp [hi]

/-- A read of a report word advances the index, and sets `ERR` where there is no report (R496). -/
theorem State.rptRead_shape (s : State) : ∃ k : Sec, s.rptRead = { s.tick.setFld 0x3018 0 8 (s.rptIdx + 1) with sec := k }
    ∧ k.life = s.sec.life ∧ k.minSvn = s.sec.minSvn ∧ (s.sec.rptValid = false → k.cmdErr = true) := by
  unfold State.rptRead
  cases s.sec.rptValid
  · exact ⟨_, rfl, rfl, rfl, fun _ => rfl⟩
  · exact ⟨_, rfl, rfl, rfl, by simp⟩

/-- Settles O47: each command by the branch that its condition takes; the captured words by `reportWords_get`. -/
theorem attestationChallengesAndRandom : Obligations.AttestationChallengesAndRandom := by
  intro s
  refine ⟨fun href => ?_, fun href => ?_, fun hcmd => ?_, ⟨_, rfl, ?_⟩, fun hrng => ?_, fun hrng => ?_, ⟨_, rfl, ?_⟩, fun test => ⟨fun hrng => ?_, fun hrng => ?_⟩⟩
  · by_cases h1 : s.sec.cmd ≠ 0 ∨ s.sec.life = .blank ∨ s.sec.life = .retired
    · rw [if_pos h1]
      exact congrArg Host.Outcome.next (if_pos (by simpa [or_assoc] using h1))
    · rw [if_neg h1] at href ⊢
      have hgo1 : ¬(s.sec.cmd != 0 || s.sec.life == .blank || s.sec.life == .retired) = true := by simpa [or_assoc] using h1
      by_cases h2 : s.sec.zeroise = true ∨ s.sec.idKey = false
      · rw [if_pos h2]
        exact congrArg Host.Outcome.next ((if_neg hgo1).trans (if_pos (by simpa using h2)))
      · rw [if_neg h2] at href ⊢
        have hgo2 : ¬(s.sec.zeroise || !s.sec.idKey) = true := by simpa using h2
        by_cases h3 : s.sec.rngOk = false
        · rw [if_pos h3]
          exact congrArg Host.Outcome.next ((if_neg hgo1).trans ((if_neg hgo2).trans (if_pos (by simp [h3]))))
        · rw [if_neg h3] at href
          exact absurd rfl href
  · have h1 : ¬(s.sec.cmd ≠ 0 ∨ s.sec.life = .blank ∨ s.sec.life = .retired) := fun h => by simp [h] at href
    rw [if_neg h1] at href
    have h2 : ¬(s.sec.zeroise = true ∨ s.sec.idKey = false) := fun h => by simp [h] at href
    rw [if_neg h2] at href
    have h3 : ¬s.sec.rngOk = false := fun h => by simp [h] at href
    obtain ⟨w0, w1, w4, w8, w10, w14, hnonce⟩ := s.reportWords_get
    exact ⟨_, congrArg Host.Outcome.next ((if_neg (by simpa [or_assoc] using h1)).trans ((if_neg (by simpa using h2)).trans
      (if_neg (by simpa using h3)))), ⟨rfl, rfl, rfl, rfl, rfl⟩, rfl, rfl, rfl, w0, w1, w4, w8, w10, w14, hnonce⟩
  · refine ⟨_, congrArg Host.Outcome.next (if_neg (by simp [hcmd])), ⟨?_, ?_, ?_, ?_, ?_⟩, ?_, ?_, fun i hi => ?_⟩
    · simp
    · simp
    · simp
    · simp
    · simp
    · simp
    · simp
    · refine (congrArg (fun k => Tab.get 0 k.report i) (event_mild ..).sec).trans ?_
      exact (get_putWords ..).trans (if_neg (by omega))
  · obtain ⟨k, hread, hlife, hsvn, herr⟩ := s.rptRead_shape
    rw [hread]
    exact ⟨⟨rfl, rfl, hlife, hsvn, rfl⟩, rfl, fun hv hi => by simp [State.rptWord, State.rptIdx, State.mgmtRead, hv, hi],
      fun hv => ⟨by simp [State.rptWord, State.mgmtRead, hv], herr hv⟩, State.rfld_setFld s.tick 0x3018 0 8 (s.rptIdx + 1) (by decide)⟩
  · exact ⟨_, congrArg Host.Outcome.next (if_neg (by simp [hrng])), ⟨rfl, rfl, rfl, rfl, rfl⟩, rfl, fun i hi =>
      (get_putWords ..).trans (by simp [hi, State.fv])⟩
  · exact congrArg Host.Outcome.next (if_pos (by simp [hrng]))
  · unfold State.rngRead State.rngWord
    cases s.sec.rngOk
    · exact ⟨⟨rfl, rfl, rfl, rfl, rfl⟩, rfl, by simp, fun _ => ⟨rfl, rfl⟩⟩
    · exact ⟨⟨rfl, rfl, rfl, rfl, rfl⟩, rfl, fun _ => ⟨rfl, rfl⟩, by simp⟩
  · exact ⟨_, congrArg Host.Outcome.next (if_neg (by simp [hrng])), by simp⟩
  · exact congrArg Host.Outcome.next (if_pos (by simp [hrng]))

end Sys2Proof.Machine
end

section
/-!
PROOFS. The reference clock, the budget rounds and the windows of the Bellows (spec/15 R411 to R413; spec/18 R482 to R489).
-/

namespace Sys2Proof.Machine

open Sys2Proof

/-! ### The reference clock (R411 to R413) -/

/-- The ports and outputs of a die at the end of its holdover in package clock fault: the tiles go on, and so does the reference (R413). -/
theorem State.clockStop_rest (s : State) : s.clockStop.tiles = s.tiles ∧ s.clockStop.pkg = { s.pkg with alertN := true, clkOut := 0 } := by
  simp [State.clockStop, onPkg_pkg]

/-- The warnings of a master that loses its reference change no package state (R413). -/
theorem sendWarnings_mild (s : State) (l : List Nat) : Mild s (l.foldl (fun s m => s.sendAdmit m 5 s.pos 0 0 []) s) :=
  Mild.foldl _ _ (fun _ _ => sendAdmit_mild ..) s

theorem clockFault_of_mild {s z : State} (h : Mild s z) (d : Nat) :
    (z.clockFault d).pkg = { s.pkg with lastClockFault := some s.now, clkFault := true } := by
  have hnow : z.now = s.now := congrArg Time.ts h.time
  rw [clockFault_pkg, h.pkg, hnow]

/-- Isolation leaves no port `UP` (R412). -/
theorem isolate_ports {s : State} (c : Nat) (h : s.pkg.isolated = false) (p : Nat) (hp : p < Config.ports) :
    ((s.isolate c).port p).st = .down ∨ ((s.isolate c).port p).st = .isolated ∨ ((s.isolate c).port p).st = .failed := by
  unfold State.isolate
  have hports (z : State) (f : Pkg → Pkg) : (z.onPkg f).port p = z.port p := rfl
  rw [if_neg (by simp [h]), State.isolateNow, hports]
  exact portsIdle_st _ p hp

/-- Settles O37: the package state by `clockFault_pkg` and `isolate_pkg`, the ports of an isolated die by `portsIdle_st`. -/
theorem referenceLossAndClockFault : Obligations.ReferenceLossAndClockFault := by
  intro s
  refine ⟨fun hok hno => ?_, fun hhold hin => ?_, fun hhold hend hfault hslave hiso => ?_, fun p k0 hacc hop => ?_⟩
  · have hgo : ¬(s.pkg.holdover || !s.pkg.refOk) = true := by simp [hok, hno]
    by_cases hm : s.isMaster = true
    · refine ⟨_, congrArg Host.Outcome.next ((if_neg hgo).trans (if_pos hm)), ?_⟩
      rw [clockFault_of_mild (sendWarnings_mild ..)]
      exact ⟨rfl, rfl, rfl, fun _ => rfl, by simp [hm]⟩
    · refine ⟨_, congrArg Host.Outcome.next ((if_neg hgo).trans (if_neg hm)), ?_⟩
      obtain ⟨s1, hs1⟩ : ∃ s1, s1 = s.onPkg (fun k => { k with refOk := false, holdover := true, holdoverStart := s.now }) := ⟨_, rfl⟩
      have hpkg : s1.pkg = { s.pkg with refOk := false, holdover := true, holdoverStart := s.now } := by rw [hs1]; rfl
      have htiles : s1.tiles = s.tiles := by rw [hs1]; rfl
      rw [← hs1]
      split
      · next t ht =>
        split
        · rw [clockFault_pkg, hpkg]
          exact ⟨rfl, rfl, rfl, fun h => absurd h hm, fun _ h => by simp [hpkg, h] at ht⟩
        · rw [hpkg]
          exact ⟨rfl, rfl, rfl, fun h => absurd h hm, fun _ _ => ⟨rfl, htiles⟩⟩
      · rw [hpkg]
        exact ⟨rfl, rfl, rfl, fun h => absurd h hm, fun _ _ => ⟨rfl, htiles⟩⟩
  · have hgo : ¬(!s.pkg.holdover || decide (s.pkg.holdoverStart + 20000 ≤ s.now)) = true := by simp [hhold]; omega
    refine ⟨_, congrArg Host.Outcome.next (if_neg hgo), ?_⟩
    dsimp only
    split
    · simp [State.clockStop_rest, onPkg_pkg]
    · simp [onPkg_pkg]
  · have hgo : ¬(!s.pkg.holdover || decide (s.now < s.pkg.holdoverStart + 20000)) = true := by simp [hhold]; omega
    let s1 := s.onPkg (fun k => { k with holdover := false })
    have hslave1 : ¬s1.isMaster = true := fun h => absurd hslave (by rw [show s.isMaster = true from h]; decide)
    refine ⟨s1.isolate 1, congrArg Host.Outcome.next ((if_neg hgo).trans ((if_neg (by simp [onPkg_pkg, hfault])).trans (if_neg hslave1))), ?_⟩
    have hpkg : (s1.isolate 1).pkg = { s1.pkg with isolated := true, alertN := true } := by
      rw [isolate_pkg, if_neg (by simp [s1, onPkg_pkg, hiso])]
    rw [hpkg]
    exact ⟨rfl, rfl, rfl, isolate_ports 1 hiso⟩
  · have hop5 : (pktLE (asType k0 4 8) 0 1 == 5) = true := beq_iff_eq.mpr hop
    refine ⟨_, (receive_taken hacc _).trans (congrArg Host.Outcome.next (if_pos hop5)), ?_⟩
    rw [clockFault_of_mild (taken_mild ..)]
    exact ⟨rfl, rfl, rfl⟩

/-! ### Budget rounds (R483 to R485) -/

theorem largest_holds {p : Nat → Bool} (h : p 0 = true) (n : Nat) : p (largest p n) = true := by
  induction n with
  | zero => exact h
  | succ n ih =>
    rw [largest]
    split
    · next hp => exact hp
    · exact ih

theorem total_eq_sum (l : List Nat) : total l = l.sum := List.sum_eq_foldl.symm

/-- Grants that lie between bounds which a member sets, one by one. -/
theorem grants_of_map {ms : List (Nat × Nat)} {f : Nat × Nat → Nat} (hf : ∀ m ∈ ms, f m ≤ m.1 ∧ 200 ≤ f m) :
    (ms.map f).length = ms.length
    ∧ ∀ i (h : i < ms.length), (ms.map f)[i]?.getD 0 ≤ ms[i].1 ∧ 200 ≤ (ms.map f)[i]?.getD 0 := by
  refine ⟨List.length_map .., fun i h => ?_⟩
  rw [List.getElem?_eq_getElem (by simpa using h), Option.getD_some, List.getElem_map]
  exact hf _ (List.getElem_mem h)

/-- The highest level that the budget affords keeps within it, if the lowest does (R484). -/
theorem largest_affords {ms : List (Nat × Nat)} {w : Nat} (g : Nat → Nat × Nat → Nat) (h : (ms.map (g 0)).sum ≤ w) (top : Nat) :
    (ms.map (g (largest (fun l => decide ((ms.map (g l)).sum ≤ w)) top))).sum ≤ w :=
  of_decide_eq_true (largest_holds (p := fun l => decide ((ms.map (g l)).sum ≤ w)) (decide_eq_true h) top)

/-- What a member needs (R484). -/
def needOf (m : Nat × Nat) : Nat := min m.1 (max 200 (m.2 + 20))

/-- The grants of a round (R484): what a member needs and a level above it, or a level below it. -/
theorem grantsFor_eq (pkgW : Nat) (ms : List (Nat × Nat)) : ∃ f : Nat × Nat → Nat, grantsFor pkgW ms = ms.map f
    ∧ (∀ m, 200 ≤ m.1 → f m ≤ m.1 ∧ 200 ≤ f m) ∧ (pkgW ≠ 0 → (ms.map f).sum ≤ max pkgW (200 * ms.length)) := by
  unfold grantsFor
  simp only [List.map_map, total_eq_sum]
  by_cases h0 : pkgW = 0
  · rw [if_pos h0]
    exact ⟨_, rfl, fun m h => ⟨le_rfl, h⟩, fun h => absurd h0 h⟩
  · rw [if_neg h0]
    split
    · next hfit =>
      refine ⟨_, rfl, fun m h => by simp only [Function.comp_apply]; omega, fun _ => ?_⟩
      refine largest_affords (fun l m => min m.1 (max (needOf m) l)) (le_of_eq_of_le (congrArg List.sum ?_) hfit) _
      exact List.map_congr_left fun m _ => by simp only [needOf, Function.comp_apply]; omega
    · refine ⟨_, rfl, fun m h => by simp only [Function.comp_apply]; omega, fun _ => ?_⟩
      refine largest_affords (fun l m => min (needOf m) (max 200 l)) ?_ _
      have hsum := List.sum_le_card_nsmul (ms.map (fun m => min (needOf m) (max 200 0))) 200
        (by simp only [List.mem_map]; rintro x ⟨m, _, rfl⟩; omega)
      simp only [List.length_map, smul_eq_mul] at hsum
      omega

/-! ### The packets of a round (R483) -/

/-- The type of a packet is no part of its data. -/
theorem pktLE_asType (k : Packet) (c t off n : Nat) : pktLE (asType k c t) off n = pktLE k off n := rfl

/-- The fields of a BUDGET block. -/
theorem budget_fields {k : Packet} {op pos round avg env grant rung tj ts : Nat} (h : k.data = budgetBytes op pos round avg env grant rung tj ts) :
    pktLE k 0 1 = op % 256 ∧ pktLE k 2 2 = round % 65536 ∧ pktLE k 4 2 = avg % 65536 ∧ pktLE k 6 2 = env % 65536
    ∧ pktLE k 8 2 = grant % 65536 := by
  simp only [pktLE, h, budgetBytes, leBytes]
  simp [leNat]
  omega

theorem send_holds {s : State} {d p : Nat} {k : Packet} {via : Option Nat} (h : s.route d k.cls k.addr via = some p) :
    (s.send d k via).holds p { k with enc := (s.port p).confOn } := by
  unfold State.send
  rw [h]
  exact sendOn_holds s p k

/-- A change that keeps the set-up registers, the links of the ports and the packets that they hold. -/
structure State.Posts (s z : State) : Prop where
  cfg : z.cfg = s.cfg
  link : ∀ p, (z.port p).link = (s.port p).link
  holds : ∀ p k, s.holds p k → z.holds p k

theorem Mild.posts {s z : State} (h : Mild s z) : s.Posts z := ⟨h.cfg, h.link, h.holds⟩

theorem State.Posts.trans {a b c : State} (h : a.Posts b) (k : b.Posts c) : a.Posts c :=
  ⟨k.cfg.trans h.cfg, fun p => (k.link p).trans (h.link p), fun p x hx => k.holds p x (h.holds p x hx)⟩

theorem State.onBw_posts (s : State) (f : Bw → Bw) : s.Posts (s.onBw f) := ⟨rfl, fun _ => rfl, fun _ _ h => h⟩

theorem State.Posts.route {s z : State} (h : s.Posts z) (d c a : Nat) (v : Option Nat) : z.route d c a v = s.route d c a v := by
  have hp (ok : Nat → Bool) (d : Nat) : z.portsTo ok d = s.portsTo ok d := portsTo_link h.cfg h.link ok d
  have hr : z.rfld 0x1C00 (4 * d) 4 = s.rfld 0x1C00 (4 * d) 4 := by simp only [State.rfld, State.reg, h.cfg]
  simp only [State.route, hp, hr]

/-- A packet that one turn of a fold sends is held at the end of the fold. -/
theorem foldl_sends {β : Type} {g : State → β → State} (hg : ∀ (s : State) (x : β), s.Posts (g s x)) {P : Packet → Prop} {p : Nat} {x : β}
    {l : List β} (hx : x ∈ l) {s : State} (hsend : ∀ z, s.Posts z → ∃ k, (g z x).holds p k ∧ P k) : ∃ k, (l.foldl g s).holds p k ∧ P k := by
  have hfold (l : List β) (z : State) : z.Posts (l.foldl g z) :=
    List.foldlRecOn l g (motive := fun y => z.Posts y) ⟨rfl, fun _ => rfl, fun _ _ h => h⟩ (fun y hy a _ => hy.trans (hg y a))
  obtain ⟨l1, l2, rfl⟩ := List.append_of_mem hx
  rw [List.foldl_append, List.foldl_cons]
  obtain ⟨k, hk, hP⟩ := hsend _ (hfold l1 s)
  exact ⟨k, (hfold l2 _).holds p k hk, hP⟩

/-- One turn of sending grants: the leader's own takes effect, another member's goes out (R483). -/
def State.grantTurn (r : Nat) (s : State) (x : Nat × Nat) : State :=
  if x.1 == s.pos then s.applyGrant x.2 r
  else s.send x.1 (withData (s.packet 4 5 x.1 123) (budgetBytes 2 x.1 r 0 0 x.2 0 0 s.now)) none

theorem sendGrants_eq (s : State) : s.sendGrants = (s.memberList.zip (grantsFor (s.rfld 0x2C08 0 14) (s.memberList.map s.lastReport))).foldl
    (State.grantTurn (s.bw.round % 65536)) ((s.tick).onBw (fun b => { b with granted := true })) := rfl

theorem grantTurn_posts (r : Nat) (s : State) (x : Nat × Nat) : s.Posts (s.grantTurn r x) := by
  unfold State.grantTurn
  split
  · unfold State.applyGrant
    split
    · exact s.onBw_posts _
    · exact (Mild.refl s).posts
  · exact (send_mild ..).posts

theorem grantTurn_bw (r : Nat) (s : State) (x : Nat × Nat) :
    (s.grantTurn r x).bw.granted = s.bw.granted ∧ (s.grantTurn r x).bw.reports = s.bw.reports ∧ (s.grantTurn r x).bw.round = s.bw.round := by
  unfold State.grantTurn
  split
  · unfold State.applyGrant
    split <;> exact ⟨rfl, rfl, rfl⟩
  · rw [(send_mild ..).bw]; exact ⟨rfl, rfl, rfl⟩

theorem sendGrants_bw (s : State) : s.sendGrants.bw.granted = true ∧ s.sendGrants.bw.reports = s.bw.reports
    ∧ s.sendGrants.bw.round = s.bw.round := by
  rw [sendGrants_eq]
  refine List.foldlRecOn _ _ (motive := fun (z : State) => z.bw.granted = true ∧ z.bw.reports = s.bw.reports ∧ z.bw.round = s.bw.round)
    ⟨rfl, rfl, rfl⟩ (fun z ⟨hg, hr, hn⟩ x _ => ?_)
  obtain ⟨hg', hr', hn'⟩ := grantTurn_bw (s.bw.round % 65536) z x
  exact ⟨hg'.trans hg, hr'.trans hr, hn'.trans hn⟩

theorem tryGrant_bw (s : State) : s.tryGrant.bw.reports = s.bw.reports ∧ s.tryGrant.bw.round = s.bw.round := by
  unfold State.tryGrant
  dsimp only
  split
  · exact (sendGrants_bw s).2
  · exact ⟨rfl, rfl⟩

/-- The leader's grants go out to every member that a port leads to (R483, R484). -/
theorem sendGrants_sends (s : State) {i p : Nat} (h : i < s.memberList.length) (hne : s.memberList[i] ≠ s.pos)
    (hr : s.route s.memberList[i] 4 0 none = some p) :
    ∃ k, s.sendGrants.holds p k ∧ k.cls = 4 ∧ k.ptype = 5 ∧ k.dstDie = s.memberList[i] ∧ pktLE k 0 1 = 2
      ∧ pktLE k 8 2 = (grantsFor (s.rfld 0x2C08 0 14) (s.memberList.map s.lastReport))[i]?.getD 0 % 65536 := by
  obtain ⟨gs, hgs⟩ : ∃ gs, gs = grantsFor (s.rfld 0x2C08 0 14) (s.memberList.map s.lastReport) := ⟨_, rfl⟩
  have hlen : gs.length = s.memberList.length := by
    obtain ⟨f, hf, _⟩ := grantsFor_eq (s.rfld 0x2C08 0 14) (s.memberList.map s.lastReport)
    rw [hgs, hf]; simp
  have hx : (s.memberList[i], gs[i]'(by omega)) ∈ s.memberList.zip gs := by
    rw [← List.getElem_zip (h := by simp; omega)]
    exact List.getElem_mem _
  have hval : gs[i]?.getD 0 = gs[i]'(by omega) := by rw [List.getElem?_eq_getElem (by omega), Option.getD_some]
  rw [sendGrants_eq, ← hgs, hval]
  refine foldl_sends (grantTurn_posts (s.bw.round % 65536)) hx (fun z hz => ?_)
  have hroute : z.route s.memberList[i] 4 0 none = some p := (hz.route ..).trans hr
  have hpos : ¬(s.memberList[i] == z.pos) = true := by
    rw [pos_of_cfg hz.cfg]
    exact fun h => hne (eq_of_beq h)
  rw [State.grantTurn, if_neg hpos]
  obtain ⟨hop, _, _, _, hgrant⟩ := budget_fields (k := { withData (z.packet 4 5 s.memberList[i] 123)
    (budgetBytes 2 s.memberList[i] (s.bw.round % 65536) 0 0 (gs[i]'(by omega)) 0 0 z.now) with enc := (z.port p).confOn }) rfl
  exact ⟨_, send_holds hroute, rfl, rfl, rfl, hop, hgrant⟩

/-- What a round finds of three rounds without a grant (R485), apart from the event of a fallback. -/
theorem checkFallback_mild (s : State) : Mild (s.onBw (fun b => { b with
    late := if s.bw.gotGrant then 0 else s.bw.late + 1, gotGrant := false
    fallback := s.bw.fallback || (!s.bw.gotGrant && decide (2 ≤ s.bw.late)) })) s.checkFallback := by
  have hgo : (s.bw.fallback || (decide (3 ≤ if s.bw.gotGrant then 0 else s.bw.late + 1) && !s.bw.fallback))
      = (s.bw.fallback || (!s.bw.gotGrant && decide (2 ≤ s.bw.late))) := by
    cases s.bw.fallback <;> cases s.bw.gotGrant <;> simp
  unfold State.checkFallback
  dsimp only
  rw [← hgo]
  by_cases hfall : (decide (3 ≤ if s.bw.gotGrant then 0 else s.bw.late + 1) && !s.bw.fallback) = true
  · rw [if_pos hfall]; exact event_mild ..
  · rw [if_neg hfall]; exact Mild.refl _

theorem checkFallback_bw (s : State) : s.checkFallback.bw = { s.bw with
    late := if s.bw.gotGrant then 0 else s.bw.late + 1, gotGrant := false
    fallback := s.bw.fallback || (!s.bw.gotGrant && decide (2 ≤ s.bw.late)) } := (checkFallback_mild s).bw

/-- Settles O46: the grants by `grantsFor_eq`, the packets by `send_holds` and `sendGrants_sends`. -/
theorem budgetRoundsGiveGrants : Obligations.BudgetRoundsGiveGrants := by
  refine ⟨fun pkgW ms hms => ?_, fun s hclk hacc => ⟨fun hround => ?_, fun p k0 htake => ⟨fun hop hpos => ?_, fun hop hlead hd => ?_⟩,
    fun hlead hno hdue => ?_⟩⟩
  · obtain ⟨f, hf, hbound, hsum⟩ := grantsFor_eq pkgW ms
    rw [hf]
    obtain ⟨hlen, hget⟩ := grants_of_map (fun m hm => hbound m (hms m hm))
    exact ⟨hlen, hget, hsum⟩
  · have hgo : ¬(!s.pkg.accepted || !s.clocked || decide (s.now / 50000 ≤ s.bw.round)) = true := by simp [hacc, hclk]; omega
    obtain ⟨s1, hs1⟩ : ∃ s1, s1 = s.checkFallback.onBw (fun b => { b with round := s.now / 50000, granted := false }) := ⟨_, rfl⟩
    have hbw : s1.bw = { s.checkFallback.bw with round := s.now / 50000, granted := false } := by rw [hs1]; rfl
    have hposts : s.Posts s1 := by
      rw [hs1]
      exact (s.onBw_posts _).trans ((checkFallback_mild s).posts.trans (State.onBw_posts ..))
    have hpkg : s1.pkg = s.pkg := by rw [hs1]; simp [State.onBw]
    have hpos : s1.pos = s.pos := pos_of_cfg hposts.cfg
    have hround : s.roundStart = if s1.isLeader then
          (s1.onBw (fun b => { b with reports := Tab.set none b.reports s1.pos (some (s.now / 50000 % 65536, s1.envelope, s1.bw.avgPower / 10)) })).tryGrant
        else s1.send s1.pkg.leader (withData (s1.packet 4 5 s1.pkg.leader 123) (budgetBytes 1 s1.pos (s.now / 50000 % 65536) (s1.bw.avgPower / 10)
          s1.envelope 0 s1.bw.rung (s1.bw.tj / 8) s1.now)) none := by
      unfold State.roundStart
      rw [if_neg hgo, hs1]
    have hslave (h : s.pkg.leader ≠ s.pos) : s1.isLeader = false := by
      simp [State.isLeader, hpkg, hpos, h]
    refine ⟨s.roundStart, rfl, ?_, by simp, by simp, fun h => ?_, fun p h hr => ?_⟩
    · rw [hround]
      split
      · exact (tryGrant_bw _).2.trans (by simp [State.onBw, hbw])
      · rw [(send_mild ..).bw, hbw]
    · rw [hround, hslave h, if_neg (by simp), (send_mild ..).bw, hbw, checkFallback_bw]
    · rw [hround, hslave h, if_neg (by simp), hpkg]
      have henv : s1.envelope = s.envelope := by simp only [State.envelope, State.rfld, State.reg, hposts.cfg]
      have hlt : s.envelope < 1024 := Nat.mod_lt _ (by decide)
      obtain ⟨hop, hr2, havg, he, _⟩ := budget_fields (k := { withData (s1.packet 4 5 s.pkg.leader 123) (budgetBytes 1 s1.pos
        (s.now / 50000 % 65536) (s1.bw.avgPower / 10) s1.envelope 0 s1.bw.rung (s1.bw.tj / 8) s1.now) with enc := (s1.port p).confOn }) rfl
      refine ⟨_, send_holds ((hposts.route ..).trans hr), rfl, rfl, rfl, hop, hr2.trans (Nat.mod_mod ..), havg.trans ?_, he.trans ?_⟩
      · rw [hbw, checkFallback_bw]
      · rw [henv]; omega
  · have hact : (pktLE (asType k0 4 5) 0 1 == 2 && pktLE (asType k0 4 5) 1 1 == (s.taken p (asType k0 4 5)).pos) = true := by
      rw [pos_of_cfg (taken_mild ..).cfg]
      exact Bool.and_eq_true_iff.mpr ⟨beq_iff_eq.mpr hop, beq_iff_eq.mpr hpos⟩
    have hm := taken_mild s p (asType k0 4 5)
    have henv : (s.taken p (asType k0 4 5)).envelope = s.envelope := by simp only [State.envelope, State.rfld, State.reg, hm.cfg]
    refine ⟨_, (receive_taken htake _).trans (congrArg Host.Outcome.next (if_pos hact)), by simp [hm.tiles], by simp [hm.cfg], fun h => ?_, fun h => ?_⟩
    · rw [State.applyGrant, pktLE_asType, henv, if_pos h, ← hm.bw]; rfl
    · rw [State.applyGrant, pktLE_asType, henv, if_neg (Nat.not_le.mpr h), hm.bw]
  · have hm := taken_mild s p (asType k0 4 5)
    have hgo : ¬(pktLE (asType k0 4 5) 0 1 != 1 || !(s.taken p (asType k0 4 5)).isLeader || decide (8 ≤ pktLE (asType k0 4 5) 1 1)) = true := by
      have hop' : pktLE (asType k0 4 5) 0 1 = 1 := hop
      have hd' : pktLE (asType k0 4 5) 1 1 < 8 := hd
      simp [hop', hd', State.isLeader, hm.pkg, pos_of_cfg hm.cfg, hacc, hlead]
    refine ⟨_, (receive_taken htake _).trans (congrArg Host.Outcome.next (if_neg hgo)), ?_, ?_, ?_⟩
    · simp [State.onBw, hm.tiles]
    · simp [State.onBw, hm.cfg]
    · rw [(tryGrant_bw _).1]
      simp only [State.onBw, pktLE_asType, Tab.get_set_self]
  · have hgo : (s.isLeader && !s.bw.granted && s.clocked && decide (50000 * s.bw.round + 10000 ≤ s.now)) = true := by
      simp [State.isLeader, hacc, hlead, hno, hclk, hdue]
    exact ⟨_, congrArg Host.Outcome.next (if_pos hgo), (sendGrants_bw s).1, by simp, by simp, fun i h p hne hr => sendGrants_sends s h hne hr⟩

/-! ### Windows of the Bellows (R486, R488) -/

theorem State.onBw_bw (s : State) (f : Bw → Bw) : (s.onBw f).bw = f s.bw := rfl

/-- A change of the ladder: with a lower step the clock glides (R486). -/
def Bw.laddered (b : Bw) (f : Bw → Bw) : Bw := { f b with glide := if (f b).freqStep < b.freqStep then 1280 else (f b).glide }

theorem State.ladder_bw (s : State) (thermal : Bool) (f : Bw → Bw) : (s.ladder thermal f).bw = s.bw.laddered f := by
  obtain ⟨s1, hs1⟩ : ∃ s1, s1 = if (s.onBw f).bw.freqStep < s.bw.freqStep then (s.onBw f).onBw (fun b => { b with glide := 1280 }) else s.onBw f :=
    ⟨_, rfl⟩
  have hbw : s1.bw = s.bw.laddered f := by
    rw [hs1]
    unfold Bw.laddered
    split
    · next h => rw [if_pos (show (f s.bw).freqStep < s.bw.freqStep from h)]; rfl
    · next h => rw [if_neg (show ¬(f s.bw).freqStep < s.bw.freqStep from h)]; rfl
  unfold State.ladder
  dsimp only
  rw [← hs1]
  simp only [apply_ite State.bw, State.event_frame, State.traceAdd_frame, State.tick_frame, ite_self]
  exact hbw

/-- The warning has no part in the ladder and the counts of the windows (R488). -/
theorem State.thermWarn_bw (s : State) (tjq tile : Nat) : ∃ w, (s.thermWarn tjq tile).bw = { s.bw with warn := w }
    ∧ (8 * s.rfld 0x2C04 24 7 ≤ tjq → w = true) ∧ (s.bw.warn = false → 8 * s.rfld 0x2C04 24 7 ≤ tjq → (s.thermWarn tjq tile).pkg.alertN = true)
    ∧ (tjq + 16 < 8 * s.rfld 0x2C04 24 7 → w = false) := by
  unfold State.thermWarn
  dsimp only
  split
  · next h =>
    simp only [Bool.and_eq_true, Bool.not_eq_true', decide_eq_true_eq] at h
    rw [(event_mild ..).bw, (event_mild ..).pkg]
    exact ⟨true, rfl, fun _ => rfl, fun _ _ => rfl, fun hlow => by omega⟩
  · next h =>
    simp only [Bool.and_eq_true, Bool.not_eq_true', decide_eq_true_eq, not_and] at h
    split
    · next h2 =>
      simp only [Bool.and_eq_true, decide_eq_true_eq] at h2
      exact ⟨false, rfl, fun hhigh => by omega, fun _ hhigh => by omega, fun _ => rfl⟩
    · next h2 =>
      simp only [Bool.and_eq_true, decide_eq_true_eq, not_and] at h2
      refine ⟨s.bw.warn, rfl, fun hhigh => ?_, fun hw hhigh => absurd hhigh (h hw), fun hlow => ?_⟩
      · cases hw : s.bw.warn with
        | true => rfl
        | false => exact absurd hhigh (h hw)
      · cases hw : s.bw.warn with
        | true => exact absurd hlow (h2 hw)
        | false => rfl

/-- The register writes that waited change no other part of the Bellows, and the grant stays within the envelope (R485, R489). -/
theorem State.bwPending_bw (s : State) : s.bwPending.bw = { s.bw with pend := [], grant := min s.bw.grant s.bwPending.envelope }
    ∧ (s.bw.pend = [] → s.bwPending.cfg = s.cfg) := by
  have hshape : ∃ z : State, z.bw = s.bw ∧ (s.bw.pend = [] → z.cfg = s.cfg)
      ∧ s.bwPending = z.onBw (fun b => { b with pend := [], grant := min b.grant z.envelope }) := by
    refine ⟨_, foldl_bw _ _ _ (fun s e => ?_), fun h => ?_, rfl⟩
    · split <;> rfl
    · rw [h]; rfl
  obtain ⟨z, hbw, hcfg, heq⟩ := hshape
  rw [heq, ← hbw]
  exact ⟨rfl, fun h => hcfg (by rw [← hbw]; exact h)⟩

theorem State.rfld_of_cfg {s z : State} (h : z.cfg = s.cfg) (a lo len : Nat) : z.rfld a lo len = s.rfld a lo len := by
  simp only [State.rfld, State.reg, h]

/-- The decision at the end of a 100 µs window (R486): one step down, one step up, or none. -/
def Bw.decided (b : Bw) (high : Bool) (m : Nat) : Bw :=
  if high then b.laddered Bw.lower
  else if b.lowLast && b.lowered != some m then b.laddered Bw.higher else b

/-- A decision changes the step and *q* alone, and starts a glide. -/
theorem Bw.decided_rest (b : Bw) (high : Bool) (m : Nat) : (b.decided high m).ceilStep = b.ceilStep ∧ (b.decided high m).stretch = b.stretch
    ∧ (b.decided high m).pend = b.pend := by
  unfold Bw.decided
  split
  · by_cases hf : b.freqStep = 0 <;> simp [Bw.laddered, Bw.lower, hf]
  · split
    · by_cases hq : b.duty = 0 <;> simp [Bw.laddered, Bw.higher, hq]
    · exact ⟨rfl, rfl, rfl⟩

theorem Bw.decided_high (b : Bw) (m : Nat) : if b.freqStep = 0
    then (b.decided true m).duty = min 7 (b.duty + 1) ∧ (b.decided true m).freqStep = 0
    else (b.decided true m).freqStep = b.freqStep - 1 ∧ (b.decided true m).duty = b.duty := by
  by_cases hf : b.freqStep = 0 <;> simp [Bw.decided, Bw.laddered, Bw.lower, hf]

theorem Bw.decided_low {b : Bw} {m : Nat} (hlast : b.lowLast = true) (hl : b.lowered ≠ some m) : if b.duty ≠ 0
    then (b.decided false m).duty = b.duty - 1 ∧ (b.decided false m).freqStep = b.freqStep
    else (b.decided false m).duty = 0 ∧ (b.decided false m).freqStep = max b.freqStep (min (b.freqStep + 1) (min 14 b.ceilStep)) := by
  have hup : (b.lowLast && b.lowered != some m) = true := by simp [hlast, hl]
  by_cases hq : b.duty = 0 <;> simp [Bw.decided, Bw.laddered, Bw.higher, hq, hup]

theorem Bw.decided_first {b : Bw} {m : Nat} (hlast : b.lowLast = false) : b.decided false m = b := by
  simp [Bw.decided, hlast]

/-- The end of a 100 µs window with samples, apart from the register writes that waited. -/
theorem State.powerWindow_shape {s : State} (hclk : s.clocked = true) (hnew : s.bw.powWin < s.now / 10 ^ 5)
    (hdone : s.now / 10 ^ 7 ≤ s.bw.thermWin) (hn : 0 < s.bw.powN) : ∃ z : State, s.powerWindow = z.bwPending ∧ z.cfg = s.cfg
      ∧ ∃ g, z.bw = { s.bw.decided s.powHigh (s.now / 10 ^ 5) with
          powWin := s.now / 10 ^ 5, powSum := 0, powN := 0, curPeak := 0, avgPower := s.bw.powSum / s.bw.powN, peakA := s.bw.curPeak
          lowLast := !s.powHigh, glide := g } := by
  have hgo : ¬(!s.clocked || decide (s.now / 10 ^ 5 ≤ s.bw.powWin) || decide (s.bw.thermWin < s.now / 10 ^ 7)) = true := by
    simp [hclk]; omega
  unfold State.powerWindow
  rw [if_neg hgo]
  dsimp only
  rw [if_neg (by omega)]
  refine ⟨_, rfl, ?_, ?_⟩
  · split
    · simp
    · split <;> simp
  · unfold Bw.decided
    split
    · rw [State.ladder_bw]
      by_cases hf : s.bw.freqStep = 0 <;> simp [Bw.laddered, Bw.lower, State.onBw, hf]
    · split
      · rw [State.ladder_bw]
        by_cases hq : s.bw.duty = 0 <;> simp [Bw.laddered, Bw.higher, State.onBw, hq]
      · exact ⟨_, rfl⟩

/-- Settles O45: the ladder by `ladder_bw`, the branches by the comparison that each window makes. -/
theorem bellowsWindowsDecide : Obligations.BellowsWindowsDecide := by
  intro s hclk
  refine ⟨fun amps dw tjq tile hnew => ?_, fun hnew hdone hn => ?_, fun hnew hn => ?_, fun htrip => ?_⟩
  · have hgo : ¬(!s.clocked || decide (s.now / 1000 ≤ s.bw.curWin)) = true := by simp [hclk]; omega
    refine ⟨s.currentWindow amps dw tjq tile, rfl, by simp, by simp, ?_⟩
    unfold State.currentWindow
    rw [if_neg hgo]
    dsimp only
    obtain ⟨s1, hs1⟩ : ∃ s1 : State, s1 = s.onBw (fun b => { b with
      curWin := s.now / 1000, curPeak := max b.curPeak amps, powSum := b.powSum + dw, powN := b.powN + 1
      tjSum := b.tjSum + tjq, tjN := b.tjN + 1, tj := tjq, tjTile := tile % 128 }) := ⟨_, rfl⟩
    have hbw1 : s1.bw = { s.bw with
      curWin := s.now / 1000, curPeak := max s.bw.curPeak amps, powSum := s.bw.powSum + dw, powN := s.bw.powN + 1
      tjSum := s.bw.tjSum + tjq, tjN := s.bw.tjN + 1, tj := tjq, tjTile := tile % 128 } := by rw [hs1]; rfl
    have hcfg1 : s1.cfg = s.cfg := by rw [hs1]; rfl
    rw [← hs1]
    obtain ⟨s2, hs2⟩ : ∃ s2, s2 = s1.ladder false (fun b => { b with
      stretch := if s.rfld 0x2C04 0 10 ≤ amps then true else if 10 * amps < 9 * s.rfld 0x2C04 0 10 then false else b.stretch }) := ⟨_, rfl⟩
    have hbw2 := s1.ladder_bw false (fun b => { b with
      stretch := if s.rfld 0x2C04 0 10 ≤ amps then true else if 10 * amps < 9 * s.rfld 0x2C04 0 10 then false else b.stretch })
    have hcfg2 : s2.cfg = s.cfg := by rw [hs2]; simp [hcfg1]
    rw [← hs2] at hbw2 ⊢
    obtain ⟨w, hw, hhot, halert, hcool⟩ := s2.thermWarn_bw tjq tile
    rw [State.rfld_of_cfg hcfg2] at hhot halert hcool
    rw [hw, hbw2, hbw1]
    refine ⟨rfl, rfl, rfl, rfl, rfl, rfl, rfl, rfl, rfl, hhot, fun hq => halert ?_, hcool⟩
    rw [hbw2, hbw1]; exact hq
  · obtain ⟨z, hz, hcfg, g, hbw⟩ := State.powerWindow_shape hclk hnew hdone hn
    obtain ⟨hpend, hkeep⟩ := z.bwPending_bw
    refine ⟨s.powerWindow, rfl, by simp, ?_⟩
    rw [hz, hpend, hbw]
    obtain ⟨hceil, hstretch, hpnd⟩ := s.bw.decided_rest s.powHigh (s.now / 10 ^ 5)
    refine ⟨rfl, rfl, rfl, rfl, Nat.min_le_right .., hceil, hstretch, fun hhigh => ?_, fun hlow hlast hl => ?_, fun hlow hlast => ?_, fun hp => ?_⟩
    · have hh : s.powHigh = true := decide_eq_true hhigh
      rw [hh]; exact s.bw.decided_high (s.now / 10 ^ 5)
    · have hh : s.powHigh = false := decide_eq_false hlow
      rw [hh]; exact Bw.decided_low hlast hl
    · have hh : s.powHigh = false := decide_eq_false hlow
      rw [hh, Bw.decided_first hlast]; exact ⟨rfl, rfl⟩
    · exact (hkeep (by rw [hbw]; exact hpnd.trans hp)).trans hcfg
  · have hgo : ¬(!s.clocked || decide (s.now / 10 ^ 7 ≤ s.bw.thermWin)) = true := by simp [hclk]; omega
    have hn0 : ¬s.bw.tjN = 0 := by omega
    refine ⟨s.thermalWindow, rfl, by simp, by simp, ?_⟩
    unfold State.thermalWindow
    rw [if_neg hgo]
    dsimp only
    rw [if_neg hn0]
    by_cases hhot : 8 * s.rfld 0x2C04 16 7 * s.bw.tjN < s.bw.tjSum
    · rw [if_pos hhot, State.onBw_bw, State.ladder_bw, State.onBw_bw]
      refine ⟨?_, ?_, fun _ => ?_, fun hcold => absurd hhot (by omega)⟩
      · by_cases hc : s.bw.ceilStep = 0 <;> simp [Bw.laddered, hc]
      · by_cases hc : s.bw.ceilStep = 0 <;> simp [Bw.laddered, hc]
      · by_cases hc : s.bw.ceilStep = 0 <;> simp [Bw.laddered, hc]
    · have hsame : (s.onBw (fun b => { b with thermWin := s.now / 10 ^ 7, tjSum := 0, tjN := 0 })).powHigh = s.powHigh := rfl
      rw [if_neg hhot, hsame]
      have hcond : (decide (s.bw.tjSum < 8 * (s.rfld 0x2C04 16 7 - 3) * s.bw.tjN) && !s.powHigh) = true
          ↔ s.bw.tjSum < 8 * (s.rfld 0x2C04 16 7 - 3) * s.bw.tjN ∧ ¬(s.grantNow - s.rfld 0x2C04 10 6) * 10 * s.bw.powN < s.bw.powSum := by
        simp [State.powHigh]
      by_cases hcool : s.bw.tjSum < 8 * (s.rfld 0x2C04 16 7 - 3) * s.bw.tjN ∧ ¬(s.grantNow - s.rfld 0x2C04 10 6) * 10 * s.bw.powN < s.bw.powSum
      · rw [if_pos (hcond.mpr hcool), State.onBw_bw, State.onBw_bw]
        exact ⟨rfl, rfl, fun h => absurd h hhot, fun _ => ⟨rfl, rfl, (if_pos hcool).symm⟩⟩
      · rw [if_neg (fun h => hcool (hcond.mp h)), State.onBw_bw]
        exact ⟨rfl, rfl, fun h => absurd h hhot, fun _ => ⟨rfl, rfl, (if_neg hcool).symm⟩⟩
  · have hgo : ¬s.bw.trip = true := by simp [htrip]
    have hport (z : State) (f : Bw → Bw) (g : Pkg → Pkg) (p : Nat) : ((z.onBw f).onPkg g).port p = z.port p := rfl
    refine ⟨_, congrArg Host.Outcome.next (if_neg hgo), rfl, rfl, by simp [State.onBw], fun p hp => ?_⟩
    rw [hport]
    rcases portsIdle_st s p hp with h | h | h <;> simp [h]

end Sys2Proof.Machine
end

section
/-!
PROOFS. Resets, boot, firmware and options, and the configuration space (spec/16; spec/14 R397; spec/22).
-/

namespace Sys2Proof.Machine

open Sys2Proof

/-! ### Resets (R427 to R436) -/

/-- What every reset clears and spares (R427, R430). -/
def State.ClearedFrom (s s' : State) : Prop :=
  s'.mgmt.stage = 1 ∧ s'.tiles = [] ∧ s'.sync = SyncTree.init ∧ s'.qm = Qm.init
    ∧ s'.kw = Kw.init ∧ s'.rdc = Rdc.init ∧ s'.time.ts = 0 ∧ s'.sec.dbgAuth = false ∧ s'.sec.token = [] ∧ s'.flt = Flt.init
    ∧ s'.fuses = s.fuses ∧ s'.mgmt.imgA = s.mgmt.imgA ∧ s'.mgmt.imgB = s.mgmt.imgB ∧ s'.mgmt.fwVersion = 0 ∧ s'.pending = s.pending

theorem takeReset_cleared (s : State) (lvl : ResetLevel) (c su d ts : Nat) (df : Bool) : s.ClearedFrom (s.takeReset lvl c su d ts df) := by
  cases lvl <;> exact ⟨rfl, rfl, rfl, rfl, rfl, rfl, rfl, rfl, rfl, rfl, rfl, rfl, rfl, rfl, rfl⟩

theorem State.ClearedFrom.of_mild {s s1 s' : State} (h : s1.ClearedFrom s') (m : Mild s s1) : s.ClearedFrom s' := by
  obtain ⟨hst, hti, hsy, hqm, hkw, hrd, hts, hdb, hto, hfl, hfu, ha, hb, hfw, hpe⟩ := h
  rw [m.fuses] at hfu
  rw [m.mgmt] at ha hb
  rw [m.pending] at hpe
  exact ⟨hst, hti, hsy, hqm, hkw, hrd, hts, hdb, hto, hfl, hfu, ha, hb, hfw, hpe⟩

/-- A command whose outcome is a POR with a cause (R430). -/
theorem por_of {s s1 : State} {c : Instr} {cause d ts : Nat} {df : Bool} (hx : exec c s = .next (s1.takeReset .por cause 0 d ts df)) (hs : s1 = s) :
    ∃ s', exec c s = .next s' ∧ s.ClearedFrom s' ∧ s'.mgmt.cause = cause ∧ s'.mgmt.sub = 0
      ∧ s'.mgmt.causeTs = 0 ∧ s'.ports = [] ∧ s'.tst = Tst.init ∧ s'.sec.refusals = 0 := by
  subst hs
  exact ⟨_, hx, takeReset_cleared .., rfl, rfl, rfl, rfl, rfl, rfl⟩

/-- A command whose outcome is an SRST with a cause (R430). -/
theorem srst_of {s : State} {c : Instr} {cause sub d : Nat} {df : Bool} (hx : exec c s = .next (s.takeReset .srst cause sub d s.now df)) :
    ∃ s', exec c s = .next s' ∧ s.ClearedFrom s' ∧ s'.mgmt.cause = cause
      ∧ s'.mgmt.sub = sub ∧ s'.mgmt.reqDie = d ∧ s'.mgmt.causeTs = s.now ∧ s'.tst.trace = s.tst.trace
      ∧ s'.tst.wptr = s.tst.wptr ∧ s'.sec.refusals = s.sec.refusals :=
  ⟨_, hx, takeReset_cleared .., rfl, rfl, rfl, rfl, rfl, rfl, rfl⟩

/-- A request out of reset while a pulse of the option store or of the fuses is under way waits (R436). -/
theorem requestReset_waits {s : State} (h1 : s.mgmt.stage ≠ 1) (h2 : s.mgmt.pendingReset = none) (lvl : ResetLevel) (c su d : Nat)
    (hc : c ≠ 1) (h3 : s.mgmt.optBusy = true ∨ s.mgmt.pulseNs ≠ 0) :
    s.requestReset lvl c su d = s.onMgmt (fun m => { m with pendingReset := some (lvl, c, su, d, s.now) }) := by
  unfold State.requestReset
  rw [if_neg (by simpa using h1), h2]
  simp only []
  rw [if_neg (by simpa using hc), if_pos (by simpa using h3)]

/-- Which `RESET_REQ` is followed (R432). -/
theorem resetReq_cond {s z : State} (h : Mild s z) {p : Nat} (k0 : Packet) :
    (isDieRole (z.role p) && (asType k0 4 6).srcStop == 123 && z.pkg.accepted && (asType k0 4 6).srcDie == z.pkg.leader
      && pktLE (asType k0 4 6) 0 1 == 1 && (pktLE (asType k0 4 6) 1 1).testBit z.pos) = true
    ↔ isDieRole (s.role p) = true ∧ k0.srcStop = 123 ∧ s.pkg.accepted = true ∧ k0.srcDie = s.pkg.leader ∧ pktLE k0 0 1 = 1
      ∧ (pktLE k0 1 1).testBit s.pos = true := by
  have hrole : z.role p = s.role p := State.rfld_of_cfg h.cfg ..
  simp only [hrole, h.pkg, pos_of_cfg h.cfg, pktLE_asType, Bool.and_eq_true, beq_iff_eq, and_assoc]
  rfl

/-- The leader asks every other member that a port leads to (R432). -/
theorem pkgSrst_sends {s : State} (hlead : (s.pkg.accepted && s.pkg.leader == s.pos) = true) (hno : s.mgmt.pkgWait = none) {d p : Nat}
    (hd : d < 8) (hne : d ≠ s.pos) (hmem : s.pkg.members.testBit d = true) (hr : s.route d 4 0 none = some p) :
    ∃ k, s.pkgSrst.holds p k ∧ k.cls = 4 ∧ k.ptype = 6 ∧ k.dstDie = d ∧ k.data.take 1 = [1] := by
  unfold State.pkgSrst
  rw [if_neg (by simp [hlead]), if_neg (by simp [hno])]
  have hmgmt (z : State) (f : Mgmt → Mgmt) (k : Packet) : (z.onMgmt f).holds p k = z.holds p k := rfl
  simp only [hmgmt]
  refine foldl_sends (fun z d => (send_mild ..).posts) (x := d) ?_ (fun z hz => ?_)
  · exact List.mem_filter.mpr ⟨(bitList_mem ..).mpr ⟨hd, hmem⟩, by simpa using hne⟩
  · exact ⟨_, send_holds ((hz.route ..).trans hr), rfl, rfl, rfl, rfl⟩

theorem pkgSrst_waits {s : State} (hlead : (s.pkg.accepted && s.pkg.leader == s.pos) = true) (hno : s.mgmt.pkgWait = none) :
    s.pkgSrst.mgmt.pkgWait = some s.now := by
  have hshape : ∃ z : State, Mild s z ∧ s.pkgSrst = z.onMgmt (fun m => { m with pkgWait := some z.now }) := by
    unfold State.pkgSrst
    rw [if_neg (by simp [hlead]), if_neg (by simp [hno])]
    exact ⟨_, Mild.foldl _ _ (fun z d => send_mild ..) s, rfl⟩
  obtain ⟨z, hm, hz⟩ := hshape
  rw [hz]
  exact congrArg (fun t => some t.ts) hm.time

theorem pulseTaken_long {ns : Nat} (h : 100 ≤ ns) (taken : Bool) : pulseTaken ns taken = true := by
  simp [pulseTaken, h]

theorem pulseTaken_short {ns : Nat} (h : ns < 50) (taken : Bool) : ¬pulseTaken ns taken = true := by
  simp [pulseTaken]; omega

/-- Settles O39: each source by the request that it makes, and each request by whether it takes effect now or waits. -/
theorem resetsClearAndSpare : Obligations.ResetsClearAndSpare := by
  intro s hst hpend
  refine ⟨fun hp => ?_, fun q l hp => ?_, fun ns taken => ⟨fun hns => ⟨?_, ?_⟩, fun hopt hpls hns => ⟨?_, ?_⟩, fun hbusy hns => ?_⟩, ⟨_, rfl, rfl, rfl⟩,
    fun hen hearly => ?_, fun hopt hpls => ⟨fun hen hlate => ?_, ?_, fun p k0 hacc => ⟨fun hgood => ?_, fun hbad => ?_⟩, fun t hwait hdue => ?_⟩,
    fun hpls lvl cause sub die ts => ?_, fun hpls r => ?_, fun hno => ?_, fun hacc hlead hno => ?_⟩
  · have hcut : s.pulseCut = s := by unfold State.pulseCut; rw [hp]
    exact por_of (congrArg Host.Outcome.next (requestReset_supply hst hpend ..)) hcut
  · refine ⟨_, congrArg Host.Outcome.next (requestReset_supply hst hpend ..), rfl, rfl, rfl, ?_⟩
    have hfuses : (s.pulseCut.takeReset .por 1 0 0 s.now false).fuses = s.pulseCut.fuses := rfl
    rw [hfuses, State.pulseCut, hp]
    dsimp only
    split
    · exact .inr rfl
    · exact .inl rfl
  · exact congrArg Host.Outcome.next (if_neg (pulseTaken_short hns taken))
  · exact congrArg Host.Outcome.next (if_neg (pulseTaken_short hns taken))
  · exact por_of (congrArg Host.Outcome.next ((if_pos (pulseTaken_long hns taken)).trans
      (requestReset_now hst hpend .por 2 0 0 (by decide) hopt hpls))) rfl
  · exact srst_of (congrArg Host.Outcome.next ((if_pos (pulseTaken_long hns taken)).trans
      (requestReset_now hst hpend .srst 3 0 0 (by decide) hopt hpls)))
  · exact congrArg Host.Outcome.next ((if_pos (pulseTaken_long hns taken)).trans
      (requestReset_waits hst hpend .srst 3 0 0 (by decide) hbusy))
  · exact congrArg Host.Outcome.next (if_neg (by simp; omega))
  · exact srst_of (congrArg Host.Outcome.next ((if_pos (by simp [hen]; omega)).trans
      (requestReset_now hst hpend .srst 5 0 0 (by decide) hopt hpls)))
  · exact srst_of (congrArg Host.Outcome.next (requestReset_now hst hpend .srst 6 1 0 (by decide) hopt hpls))
  · have hm := taken_mild s p (asType k0 4 6)
    refine ⟨_, (receive_taken hacc _).trans (congrArg Host.Outcome.next ((if_pos ((resetReq_cond hm k0).mpr hgood)).trans
      (requestReset_now (by rw [hm.mgmt]; exact hst) (by rw [hm.mgmt]; exact hpend) .srst 4 0 k0.srcDie (by decide)
        (by rw [hm.mgmt]; exact hopt) (by rw [hm.mgmt]; exact hpls)))), ?_, rfl, hgood.2.2.2.1⟩
    exact (takeReset_cleared ..).of_mild hm
  · have hm := taken_mild s p (asType k0 4 6)
    refine ⟨_, (receive_taken hacc _).trans (congrArg Host.Outcome.next (if_neg (fun h => hbad ((resetReq_cond hm k0).mp h)))), ?_, ?_⟩
    · rw [(event_mild ..).mgmt, hm.mgmt]
    · rw [(event_mild ..).tiles, hm.tiles]
  · let s1 := s.onMgmt (fun m => { m with pkgWait := none })
    have hdue' : (!s.resetReqOpen || decide (t + 10000 ≤ s.now)) = true := by
      rcases hdue with h | h <;> simp [h]
    have hdef : s.deferredReset = s1.takeReset .srst 6 2 0 s1.now false := by
      unfold State.deferredReset
      rw [hpend, hwait]
      dsimp only
      rw [if_pos hdue']
      exact requestReset_now (s := s1) hst hpend .srst 6 2 0 (by decide) hopt hpls
    exact ⟨_, congrArg Host.Outcome.next hdef, takeReset_cleared s1 .., rfl, rfl, rfl, rfl, rfl, rfl, rfl⟩
  · have hdef : (s.onMgmt (fun m => { m with pendingReset := some (lvl, cause, sub, die, ts) })).deferredReset
        = (s.onMgmt (fun m => { m with pendingReset := some (lvl, cause, sub, die, ts) })).takeReset lvl cause sub die ts true :=
      if_neg (by simp [hpls])
    refine ⟨_, congrArg Host.Outcome.next hdef, takeReset_cleared .., ?_⟩
    cases lvl <;> exact ⟨rfl, rfl, rfl⟩
  · exact congrArg Host.Outcome.next (if_pos (by simp [hpls]))
  · exact congrArg Host.Outcome.next (if_pos (by simpa [-not_and] using hno))
  · have hl : (s.pkg.accepted && s.pkg.leader == s.pos) = true := by simp [hacc, hlead]
    exact ⟨s.pkgSrst, rfl, pkgSrst_waits hl hno, by simp, fun d p hd hne hmem hr => pkgSrst_sends hl hno hd hne hmem hr⟩

/-! ### Boot (R439 to R443, R509) -/

/-- A die in reset whose fuses can be sensed: its set-up registers and its option state come from the fuses and the image (R439, R443). -/
theorem bootStart_shape {s : State} (h : s.mgmt.stage = 1) (mOk : Bool) : ∃ s', exec (.bootStart true mOk) s = .next s'
    ∧ (∀ b, s'.reg b = (s.fuseSense.optionLoad mOk).reg b) ∧ s'.bw = (s.fuseSense.optionLoad mOk).bw
    ∧ s'.mgmt = { (s.fuseSense.optionLoad mOk).mgmt with stage := if (s.fuseSense.optionLoad mOk).mgmt.wasPor then 4 else 5 } := by
  obtain ⟨s1, hs1⟩ : ∃ s1, s1 = s.fuseSense.optionLoad mOk := ⟨_, rfl⟩
  have hx : exec (.bootStart true mOk) s = .next (if (s1.onMgmt (fun m => { m with stage := if m.wasPor then 4 else 5 })).mgmt.stage == 5
      then (s1.onMgmt (fun m => { m with stage := if m.wasPor then 4 else 5 })).clockOut
      else s1.onMgmt (fun m => { m with stage := if m.wasPor then 4 else 5 })) := by
    rw [hs1]
    exact congrArg Host.Outcome.next ((if_neg (by simp [h])).trans (if_neg (by simp)))
  rw [← hs1]
  refine ⟨_, hx, ?_⟩
  split <;> exact ⟨fun _ => rfl, rfl, rfl⟩

/-- The registers that the boot leaves: those of the fuses, and those of the image (R404, R408, R439). -/
theorem bootStart_facts {s : State} (h : s.mgmt.stage = 1) (mOk : Bool) :
    ∃ s', exec (.bootStart true mOk) s = .next s' ∧ s'.mgmt.stage = (if s.mgmt.cause ≤ 2 then 4 else 5)
      ∧ s'.pos = fld (s.fuse 0x100) 0 3 ∧ s'.mgmt.mValid = mOk
      ∧ (∀ n, n < Config.ports → s'.role n = fld (s.fuse (0x101 + n / 4)) (8 * (n % 4)) 3)
      ∧ (imageValid s.mgmt.cutA s.mgmt.imgA = false → imageValid s.mgmt.cutB s.mgmt.imgB = false →
        s'.mgmt.optDefaulted = true ∧ s'.rfld 0x2400 0 3 = 7 ∧ s'.rfld 0x2410 0 5 = 16 ∧ s'.reg 0x1C00 = 0xFFFFFFFF
        ∧ s'.bw.grant = 450
        ∧ s'.mgmt.spareSet = [0, 11, 22, 33, 44, 46, 57, 68].foldl (fun m t => m + 2 ^ t) 0)
      ∧ (imageValid s.mgmt.cutA s.mgmt.imgA = true → imageValid s.mgmt.cutB s.mgmt.imgB = false →
        s'.mgmt.optLoaded = false ∧ s'.mgmt.optDefaulted = false ∧ s'.mgmt.shadow = s.mgmt.imgA
        ∧ s'.reg 0x1C00 = optAt s.mgmt.imgA 0x1BC) := by
  obtain ⟨s', hx, hreg, hbw, hmgmt⟩ := bootStart_shape h mOk
  obtain ⟨hsm, hspos, hsrole⟩ := fuseSense_facts s
  obtain ⟨img, ⟨hlreg, ⟨d, l, c, v, w, hlm⟩, hgrant⟩, hnone, honly⟩ := optionLoad_facts s.fuseSense mOk
  rw [hsm] at hlm hnone honly
  have hregs : ∀ b, s'.reg b = (s.fuseSense.applyOptions img).reg b := fun b => (hreg b).trans (hlreg b)
  obtain ⟨hroute, hobj, hkw⟩ := applyOptions_regs s.fuseSense img
  refine ⟨s', hx, ?_, ?_, ?_, fun n hn => ?_, fun ha hb => ?_, fun ha hb => ?_⟩
  · rw [hmgmt, hlm]
    by_cases hc : s.mgmt.cause ≤ 2 <;> simp [Mgmt.wasPor, hc]
  · rw [← hspos]
    unfold State.pos State.rfld
    rw [hregs, applyOptions_other _ _ _ (.inl rfl)]
  · rw [hmgmt, hlm]
  · rw [← hsrole n hn]
    unfold State.role State.rfld
    rw [hregs, applyOptions_other _ _ _ (.inr ⟨n, hn, rfl⟩)]
  · obtain ⟨hdef, himg⟩ := hnone ha hb
    obtain ⟨hf190, hf19C, hf1BC, hf1B4, hspare⟩ := factory_facts s.fuseSense
    rw [himg] at hregs hroute hobj hkw hgrant hlm
    refine ⟨?_, ?_, ?_, ?_, ?_, ?_⟩
    · rw [hmgmt]; exact hdef
    · rw [State.rfld, hregs, hkw, hf190]; decide
    · rw [State.rfld, hregs, hobj, hf19C]; decide
    · rw [hregs, hroute, hf1BC]
    · rw [hbw, hgrant, hf1B4]; decide
    · rw [hmgmt, hlm]; exact hspare
  · obtain ⟨hload, hdef, hshadow, himg⟩ := honly ha hb
    rw [hmgmt]
    exact ⟨hload, hdef, hshadow, by rw [hregs, hroute, himg]⟩

/-- Pulses that begin leave the boot step alone. -/
theorem State.blow_stage (s : State) (ps : List FusePulse) : (s.blow ps).mgmt.stage = s.mgmt.stage := by
  unfold State.blow
  split <;> rfl

/-- A whole image in the free slot is verified (R445, R446). -/
theorem fwVerified_goes {s : State} (hstream : s.mgmt.fwStream = true) (hpos : 64 ≤ s.mgmt.fwPos)
    (hlen : 4 * s.mgmt.fwPos = 256 + s.mgmt.header 4) (e : Nat) :
    ¬(!s.mgmt.fwStream || decide (s.mgmt.fwPos < 64) || (!(4 * s.mgmt.fwPos == 256 + s.mgmt.header 4) && (e == 0 || e == 5))) = true := by
  simp [hstream, hlen, hpos]

/-- Settles O40: reset to options by `bootStart_facts`, each later step by its branch. -/
theorem bootGoesStepByStep : Obligations.BootGoesStepByStep := by
  intro s
  refine ⟨fun h => ⟨fun mOk => ?_, bootStart_facts h⟩, fun h => ?_, fun h => ?_, fun h => ⟨?_, ?_⟩,
    fun key hashOk h hstream hpos hlen => ⟨fun hok => ?_, fun hbad => ?_⟩, fun h => ?_, fun h => ?_⟩
  · exact ⟨_, congrArg Host.Outcome.next ((if_neg (by simp [h])).trans (if_pos (by simp))), rfl, rfl⟩
  · exact ⟨_, congrArg Host.Outcome.next (if_pos (by simp [h])), rfl, rfl⟩
  · exact congrArg Host.Outcome.next (if_neg (by simp [h]))
  · refine ⟨_, congrArg Host.Outcome.next ((if_neg (by simp [h])).trans (if_neg (by simp))), ?_⟩
    unfold State.repairLife
    refine ⟨State.blow_stage .., ?_, ?_, ?_⟩ <;> simp
  · exact ⟨_, congrArg Host.Outcome.next ((if_neg (by simp [h])).trans (if_pos (by simp))), rfl, rfl⟩
  · have hgo := fwVerified_goes hstream hpos hlen (s.fwCheck key hashOk)
    exact ⟨_, congrArg Host.Outcome.next ((if_neg hgo).trans ((if_neg (by simp [hok])).trans (if_pos (by simp [h])))), rfl, rfl, rfl, rfl, rfl⟩
  · have hgo := fwVerified_goes hstream hpos hlen (s.fwCheck key hashOk)
    refine ⟨_, congrArg Host.Outcome.next ((if_neg hgo).trans ((if_pos (by simpa using hbad)).trans (if_neg (?_ : ¬9 ≤ s.mgmt.stage)))), h, rfl, rfl⟩
    omega
  · exact ⟨_, congrArg Host.Outcome.next (if_neg (by simp [h])), rfl, rfl, rfl⟩
  · exact congrArg Host.Outcome.next (if_pos (by simp [h]))

/-! ### Firmware and options at work (R442, R445 to R447) -/

/-- Settles O41: each command by its branch, the slots of management SRAM by the rule of a table that is written. -/
theorem firmwareAndOptionUpdates : Obligations.FirmwareAndOptionUpdates := by
  intro s
  refine ⟨fun hlo hhi => ?_, fun v hstream hpos => ?_, fun hready hno => ?_, fun hno => ?_, ⟨_, rfl, rfl, rfl, rfl⟩,
    fun t ht => ⟨fun hbusy => ?_, fun hfree hin => ?_, fun hlate => ?_⟩, fun v => ⟨fun hfree hlo hhi => ?_, fun hbad => ?_⟩,
    fun hfree hdef => ?_, fun hfree hpend => ⟨fun hb => ?_, fun hb => ?_⟩, fun off hbusy hpend => ⟨fun hlegal => ?_, ?_⟩⟩
  · have hgo : (decide (8 ≤ s.mgmt.stage) && decide (s.mgmt.stage ≤ 11)) = true := by simp [hlo, hhi]
    refine ⟨_, congrArg Host.Outcome.next (if_pos hgo), rfl, rfl, Tab.get_set_self s.mgmt.fwSlots s.mgmt.freeSlot [], fun hslot => ?_⟩
    refine (Tab.get_set s.mgmt.fwSlots s.mgmt.freeSlot s.mgmt.fwSlot []).trans (if_neg ?_)
    unfold Mgmt.freeSlot; omega
  · have hgo : ¬(decide (458752 ≤ 4 * s.mgmt.fwPos) || (decide (64 ≤ s.mgmt.fwPos) && decide (256 + s.mgmt.header 4 ≤ 4 * s.mgmt.fwPos))) = true := by
      simp; omega
    exact ⟨_, congrArg Host.Outcome.next ((if_neg (by simp [hstream])).trans (if_neg hgo)), rfl,
      Tab.get_set_self s.mgmt.fwSlots s.mgmt.freeSlot _⟩
  · exact congrArg Host.Outcome.next (if_pos (by simp [hready, hno]))
  · exact congrArg Host.Outcome.next (if_neg (by simp [hno]))
  · refine congrArg Host.Outcome.next (?_ : s.fwQuiesce = s)
    unfold State.fwQuiesce
    rw [ht]
    exact if_pos (by simp [hbusy])
  · refine ⟨s.fwQuiesce, rfl, ?_⟩
    unfold State.fwQuiesce
    rw [ht]
    dsimp only
    rw [if_neg (by simp [hfree]; omega), (event_mild ..).mgmt, (event_mild ..).sec, (event_mild ..).tiles]
    exact ⟨rfl, rfl, rfl, rfl, rfl, rfl⟩
  · refine ⟨s.fwQuiesceTimeout, rfl, ?_⟩
    unfold State.fwQuiesceTimeout
    rw [ht]
    dsimp only
    rw [if_neg (by omega), (event_mild ..).mgmt]
    exact ⟨rfl, rfl, rfl, rfl⟩
  · exact congrArg Host.Outcome.next (if_neg (by simp [hfree, hlo, hhi]))
  · exact congrArg Host.Outcome.next (if_pos (by simpa [or_assoc] using hbad))
  · refine ⟨_, congrArg Host.Outcome.next (if_neg (by simp [hfree])), ?_, rfl⟩
    exact if_neg (by simp [hdef])
  · have htarget : s.mgmt.targetB = true := beq_iff_eq.mpr hb
    exact congrArg Host.Outcome.next ((if_neg (by simp [hfree, hpend])).trans (if_pos htarget))
  · have htarget : ¬s.mgmt.targetB = true := fun h => hb (beq_iff_eq.mp h)
    exact congrArg Host.Outcome.next ((if_neg (by simp [hfree, hpend])).trans (if_neg htarget))
  · refine ⟨_, congrArg Host.Outcome.next ((if_neg (by simp [hbusy, hpend])).trans (if_pos (by simp [hlegal]))), ?_⟩
    rw [(event_mild ..).cfg, (event_mild ..).mgmt, State.onMgmt_mgmt]
    refine ⟨rfl, ?_⟩
    cases s.mgmt.targetB <;> simp
  · refine ⟨_, congrArg Host.Outcome.next ((if_neg (by simp [hbusy, hpend])).trans (if_neg (by simp))), ?_⟩
    rw [(event_mild ..).mgmt]
    exact ⟨rfl, rfl, rfl, rfl⟩

/-! ### The configuration space (R397, R516, R552 to R554) -/

/-- The answer to a configuration packet (R396, R553). -/
def State.cfgAnswer (s : State) (p : Nat) (k : Packet) (ok : Bool) (v : Word) : Packet :=
  s.answerTo p k (withData { s.packet 1 10 k.srcDie 123 with aux := bit1 (!ok) } (leBytes 4 v.toNat ++ List.replicate 28 0))

/-- A packet that has been taken in, on a die of which no more than a register has changed, is answered on its port. -/
theorem cfgRsp_answers {s z : State} {p : Nat} {k : Packet} (hu : (z.port p).st = .up) (hconf : (z.port p).confOn = (s.port p).confOn)
    (hpos : z.pos = s.pos) (ok : Bool) (v : Word) : (z.cfgRsp p k ok v).holds p (s.cfgAnswer p k ok v) := by
  have h := cfgRsp_holds (k := k) (Mild.refl z) hu rfl ok v
  have hans (a : Packet) : z.answerTo p k a = s.answerTo p k a := by simp only [State.answerTo, hconf]
  have hpkt : z.packet 1 10 k.srcDie 123 = s.packet 1 10 k.srcDie 123 := by simp only [State.packet, hpos]
  rw [hans, hpkt] at h
  exact h

/-- An answered packet leaves the registers alone. -/
theorem cfgRsp_cfg (s : State) (p : Nat) (k : Packet) (ok : Bool) (v : Word) : (s.cfgRsp p k ok v).cfg = s.cfg := (reply_mild ..).cfg

/-- A read whose register has no side effect changes nothing (R556). -/
theorem cfgReadEffect_none {s : State} {off : Nat} (h : off ∉ [0x0C04, 0x301C, 0x3028, 0x3C1C, 0x3C2C]) : s.cfgReadEffect off = s := by
  simp only [List.mem_cons, List.not_mem_nil, or_false, not_or] at h
  obtain ⟨h1, h2, h3, h4, h5⟩ := h
  unfold State.cfgReadEffect
  split
  · exact absurd rfl h1
  · exact absurd rfl h2
  · exact absurd rfl h3
  · exact absurd rfl h4
  · exact absurd rfl h5
  · rfl

section Sources
variable {s z : State} {p : Nat} {k : Packet}

theorem cfgSource_host (h : z.cfg = s.cfg) (hr : s.role p = 3) : z.cfgSource p k = some .host := by
  have hz : z.role p = 3 := (State.rfld_of_cfg h ..).trans hr
  simp [State.cfgSource, hz]

theorem cfgSource_leader (h : Mild s z) (hr : isDieRole (s.role p) = true) (hstop : k.srcStop = 123) (hdie : k.srcDie = s.pkg.leader)
    (hacc : s.pkg.accepted = true) : z.cfgSource p k = some .leader := by
  have hz : z.role p = s.role p := State.rfld_of_cfg h.cfg ..
  have h3 : s.role p ≠ 3 := fun h3 => by simp [h3, isDieRole] at hr
  simp [State.cfgSource, hz, h3, hr, hstop, State.isLeaderDie, h.pkg, hacc, hdie]

theorem cfgSource_none (h : Mild s z) (hr : isDieRole (s.role p) = true) (hsrc : k.srcStop ≠ 123 ∨ k.srcDie ≠ s.pkg.leader)
    (hacc : s.pkg.accepted = true) : z.cfgSource p k = none := by
  have hz : z.role p = s.role p := State.rfld_of_cfg h.cfg ..
  have h3 : s.role p ≠ 3 := fun h3 => by simp [h3, isDieRole] at hr
  rcases hsrc with hsrc | hsrc <;> simp [State.cfgSource, hz, h3, State.isLeaderDie, h.pkg, hacc, hsrc]

end Sources

/-- A write of `FEATURE_LEVEL`, which has a register of its own (R417). -/
theorem cfgWrite_level (s : State) (src : CfgSrc) (v : Word) : s.cfgWrite src 0x0020 v
    = if s.mayLevel src then (s.setReg 0x0020 (v &&& 0x803F000F), true) else (s, false) := rfl

/-- `CFG_RD` by its source: a value, an unmapped offset, a refusal (R397, R553). -/
theorem cfgRd_answers {s : State} {p : Nat} {k0 k : Packet} (hk : k = asType k0 4 3) (hacc : s.accepts p k = true) :
    (s.role p = 3 → (∀ v, (s.taken p k).cfgRead (k.addr % 2 ^ 16) = some v → k.addr % 2 ^ 16 ∉ [0x0C04, 0x301C, 0x3028, 0x3C1C, 0x3C2C] →
          ∃ s', exec (.cfgRd p k0) s = .next s' ∧ s'.holds p (s.cfgAnswer p k true v) ∧ s'.cfg = s.cfg)
      ∧ ((s.taken p k).cfgRead (k.addr % 2 ^ 16) = none →
          ∃ s', exec (.cfgRd p k0) s = .next s' ∧ s'.holds p (s.cfgAnswer p k false 0) ∧ s'.cfg = s.cfg))
    ∧ (isDieRole (s.role p) = true → (k.srcStop ≠ 123 ∨ k.srcDie ≠ s.pkg.leader) → s.pkg.accepted = true →
        ∃ s', exec (.cfgRd p k0) s = .next s' ∧ s'.holds p (s.cfgAnswer p k false 0) ∧ s'.cfg = s.cfg) := by
  have hx (z : State) (h : (s.taken p k).cfgRdPacket p k = z) : exec (.cfgRd p k0) s = .next z := by
    subst hk h
    exact receive_taken hacc _
  have hm := taken_mild s p k
  have hpos : (s.taken p k).pos = s.pos := pos_of_cfg hm.cfg
  have hanswer := fun ok v => cfgRsp_answers (k := k) (taken_up hacc) (hm.conf p) hpos ok v
  refine ⟨fun hr => ⟨fun v hv hoff => ?_, fun hno => ?_⟩, fun hr hsrc hpa => ?_⟩
  · have hact : (s.taken p k).cfgRdPacket p k = (s.taken p k).cfgRsp p k true v := by
      unfold State.cfgRdPacket
      rw [cfgSource_host hm.cfg hr]
      dsimp only
      rw [hv]
      dsimp only
      rw [cfgReadEffect_none hoff]
    exact ⟨_, hx _ hact, hanswer true v, (cfgRsp_cfg ..).trans hm.cfg⟩
  · have hact : (s.taken p k).cfgRdPacket p k = (s.taken p k).cfgRsp p k false 0 := by
      unfold State.cfgRdPacket
      rw [cfgSource_host hm.cfg hr]
      dsimp only
      rw [hno]
    exact ⟨_, hx _ hact, hanswer false 0, (cfgRsp_cfg ..).trans hm.cfg⟩
  · have hact : (s.taken p k).cfgRdPacket p k = (s.taken p k).cfgRefused p k := by
      unfold State.cfgRdPacket
      rw [cfgSource_none (k := k) hm hr hsrc hpa]
    exact ⟨_, hx _ hact, (event_mild ..).holds _ _ (hanswer false 0),
      (event_mild ..).cfg.trans ((cfgRsp_cfg ..).trans hm.cfg)⟩

/-- `CFG_WR` of `FEATURE_LEVEL` by its source (R397, R417). -/
theorem cfgWr_level_answers {s : State} {p : Nat} {k0 k : Packet} (hk : k = asType k0 4 4) (hacc : s.accepts p k = true)
    (hoff : k.addr % 2 ^ 16 = 0x0020) :
    (s.role p = 3 → ∃ s', exec (.cfgWr p k0) s = .next s' ∧ s'.holds p (s.cfgAnswer p k false 0) ∧ s'.cfg = s.cfg)
    ∧ (isDieRole (s.role p) = true → k.srcStop = 123 → k.srcDie = s.pkg.leader → s.pkg.accepted = true →
        ∃ s', exec (.cfgWr p k0) s = .next s' ∧ s'.holds p (s.cfgAnswer p k true 0)
          ∧ s'.reg 0x0020 = w32 (pktLE k 0 4) &&& 0x803F000F) := by
  have hx (z : State) (h : (s.taken p k).cfgWrPacket p k = z) : exec (.cfgWr p k0) s = .next z := by
    subst hk h
    exact receive_taken hacc _
  have hm := taken_mild s p k
  have hpos : (s.taken p k).pos = s.pos := pos_of_cfg hm.cfg
  refine ⟨fun hr => ?_, fun hr hstop hdie hpa => ?_⟩
  · have hact : (s.taken p k).cfgWrPacket p k = (s.taken p k).cfgRsp p k false 0 := by
      unfold State.cfgWrPacket
      rw [cfgSource_host hm.cfg hr]
      dsimp only
      rw [hoff, cfgWrite_level]
      rfl
    exact ⟨_, hx _ hact, cfgRsp_answers (taken_up hacc) (hm.conf p) hpos false 0, (cfgRsp_cfg ..).trans hm.cfg⟩
  · have hact : (s.taken p k).cfgWrPacket p k = ((s.taken p k).setReg 0x0020 (w32 (pktLE k 0 4) &&& 0x803F000F)).cfgRsp p k true 0 := by
      unfold State.cfgWrPacket
      rw [cfgSource_leader (k := k) hm hr hstop hdie hpa]
      dsimp only
      rw [hoff, cfgWrite_level]
      rfl
    have hpos' : ((s.taken p k).setReg 0x0020 (w32 (pktLE k 0 4) &&& 0x803F000F)).pos = s.pos := by
      rw [← hpos]
      simp only [State.pos, State.rfld, State.reg_setReg]
      rfl
    refine ⟨_, hx _ hact, cfgRsp_answers (z := (s.taken p k).setReg 0x0020 (w32 (pktLE k 0 4) &&& 0x803F000F)) (taken_up hacc) (hm.conf p) hpos' true 0, ?_⟩
    rw [State.reg, cfgRsp_cfg]
    exact Tab.get_set_self ..

/-- Settles O38: packets by their source and the answer of `cfgRsp_answers`; accesses of the die itself and of the TAP by the register. -/
theorem configurationAccesses : Obligations.ConfigurationAccesses := by
  intro s
  refine ⟨fun p k0 => ⟨?_, ?_⟩, fun v => ⟨rfl, rfl, rfl, rfl, fun hl => ?_, fun hq => ?_, fun hq => ?_, ?_⟩, fun v w => ⟨?_, fun hr => ?_, ?_⟩⟩
  · intro k off rsp hacc
    exact cfgRd_answers (k0 := k0) rfl hacc
  · intro k v rsp hacc hoff
    exact cfgWr_level_answers (k0 := k0) rfl hacc hoff
  · have hno : s.mayLevel .mgmt = false := by simp [State.mayLevel, hl]
    show Host.Outcome.next (s.cfgWrite .mgmt 0x0020 v).1 = _
    rw [cfgWrite_level, hno]
    rfl
  · show Host.Outcome.next (if 0x2008 ≤ 0x2008 ∧ 0x2008 ≤ 0x2018 ∧ !s.qmOn then s.setReg 0x2008 v else s) = _
    rw [if_pos (by simp [hq])]
  · show Host.Outcome.next (if 0x2008 ≤ 0x2008 ∧ 0x2008 ≤ 0x2018 ∧ !s.qmOn then s.setReg 0x2008 v else s) = _
    rw [if_neg (by simp [hq])]
  · exact ⟨_, rfl, rfl, congrArg (Option.getD · (s.reg 0x2C04)) (Tab.get_set_self s.bw.pend 0x2C04 (some (v &&& 0xFF7FFFFF)))⟩
  · exact ⟨_, rfl, Tab.get_set_self .., rfl, rfl⟩
  · have hw : w = s.reg 0x0410 := (Option.some.inj hr).symm
    exact ⟨_, rfl, hw.symm, rfl, rfl⟩
  · exact ⟨_, rfl, rfl, rfl⟩

end Sys2Proof.Machine
end

section
/-!
PROOFS. Membership of the package, and the ports: training, admission and keys, retraining and the loss of links (spec/14, spec/15, spec/19).
-/

namespace Sys2Proof.Machine

open Sys2Proof

/-! ### Membership of the package (R414, R415, R417, R422, R423, R425) -/

/-- The dies of `PKG_MASK` among the `JOIN`s of a table, each with its capabilities (R415). -/
def State.joined (s : State) (t : Tab (Option (Nat × Nat))) : List (Nat × Nat × Nat) :=
  s.positions.filterMap (fun d => (Tab.get none t d).map (fun c => (d, c)))

/-- A leader of the positions and epoch of `s` that forms the package from a table of `JOIN`s (R415, R417). -/
theorem formPackage_forms {s z : State} {t : Tab (Option (Nat × Nat))} (hcfg : z.cfg = s.cfg) (hjoins : z.pkg.joins = t)
    (hepoch : z.pkg.mepoch = s.pkg.mepoch) :
    z.formPackage.pkg.accepted = true ∧ z.formPackage.pkg.leader = s.pos
    ∧ z.formPackage.pkg.members = (s.joined t).foldl (fun m j => m ||| 2 ^ j.1) 0
    ∧ z.formPackage.pkg.mepoch = (s.pkg.mepoch + 1) % 65536
    ∧ z.formPackage.reg 0x0020 = BitVec.ofNat 32 (levelWord (packageLevel ((s.joined t).map (·.2))).1 (packageLevel ((s.joined t).map (·.2))).2) := by
  have hform := formPackage_facts z
  have hpos : z.positions = s.positions := by simp only [State.positions, State.pkgMask, State.rfld_of_cfg hcfg]
  rw [hpos, hjoins, hepoch, pos_of_cfg hcfg] at hform
  exact hform

/-- A package whose leader and every position have joined is formed (R415). -/
theorem tryForm_forms {z : State} (hacc : z.pkg.accepted = false) (hown : (Tab.get none z.pkg.joins z.pos).isSome = true)
    (hall : ∀ x ∈ z.positions, (Tab.get none z.pkg.joins x).isSome = true) : z.tryForm = z.formPackage := by
  have hgo : (!z.pkg.accepted && (Tab.get none z.pkg.joins z.pos).isSome
      && z.positions.all (fun d => (Tab.get none z.pkg.joins d).isSome)) = true := by
    simp only [hacc, hown, Bool.not_false, Bool.and_true, Bool.true_and, List.all_eq_true]
    exact hall
  exact if_pos hgo

/-- Without the leader's own `JOIN` no package is formed (R415). -/
theorem tryForm_waits {z : State} (hown : (Tab.get none z.pkg.joins z.pos).isSome = false) : z.tryForm = z := by
  simp [State.tryForm, hown]

/-- A fresh `JOIN` of a position of `PKG_MASK`, before the package is formed, is noted (R415). -/
theorem join_notes {s : State} (p : Nat) {k : Packet} (hop : pktLE k 0 1 = 1) (hacc : s.pkg.accepted = false)
    (hnew : (Tab.get none s.pkg.joins (pktLE k 1 1)).isSome = false) (hother : pktLE k 1 1 ≠ s.pos)
    (hmask : s.pkgMask.testBit (pktLE k 1 1) = true) :
    s.join p k = (s.onPkg (fun x => { x with joins := Tab.set none x.joins (pktLE k 1 1) (some (pktLE k 4 4, pktLE k 8 4)) })).tryForm := by
  have h1 : (pktLE k 0 1 != 1) = false := by simp [hop]
  have h3 : ((Tab.get none s.pkg.joins (pktLE k 1 1)).isSome || pktLE k 1 1 == s.pos) = false := by simp [hnew, hother]
  simp only [State.join, h1, hacc, h3, hmask, Bool.false_eq_true, if_false, Bool.not_true]

/-- A `JOIN` after the package is formed is for the leader to decide (R425). -/
theorem join_rejoins {s : State} (p : Nat) {k : Packet} (hop : pktLE k 0 1 = 1) (hacc : s.pkg.accepted = true) :
    s.join p k = s.rejoin p (pktLE k 1 1) (pktLE k 4 4) (pktLE k 8 4) := by
  have h1 : (pktLE k 0 1 != 1) = false := by simp [hop]
  simp only [State.join, h1, hacc, Bool.false_eq_true, if_false, if_true]

/-- The leader refuses a member that joins again (R425). -/
theorem rejoin_member {s : State} (p c0 c1 : Nat) {d : Nat} (hlead : s.pkg.leader = s.pos) (hmem : s.pkg.members.testBit d = true) :
    (s.rejoin p d c0 c1).pkg = s.pkg := by
  have h : s.rejoin p d c0 c1 = s.refuseDie p d 1 := by simp [State.rejoin, hlead, hmem]
  rw [h, (refuseDie_mild ..).pkg]

/-- The leader takes a lost die of a fitting level and features back (R425). -/
theorem rejoin_lost {s : State} (p : Nat) {d c0 c1 : Nat} (hlead : s.pkg.leader = s.pos) (hmem : s.pkg.members.testBit d = false)
    (hmask : s.pkgMask.testBit d = true) (hlevel : s.level ≤ bitsOf c0 0 8)
    (hfeats : bitsOf c1 0 6 &&& s.rfld 0x0020 16 6 = s.rfld 0x0020 16 6) :
    (s.rejoin p d c0 c1).pkg.members = s.pkg.members ||| 2 ^ d ∧ (s.rejoin p d c0 c1).pkg.mepoch = (s.pkg.mepoch + 1) % 65536
    ∧ (s.rejoin p d c0 c1).pkg.lostSeen = putBits s.pkg.lostSeen d 1 0 := by
  obtain ⟨z, hz⟩ : ∃ z, z = (s.sendLevel d (s.reg 0x0020).toNat).readmit d c1 := ⟨_, rfl⟩
  have hshape : s.rejoin p d c0 c1
      = ((bitList z.pkg.members 8).filter (· != z.pos)).foldl (fun z' m => z'.sendAdmit m 2 d z'.level 0 [c0, c1]) z := by
    simp only [State.rejoin, hlead, bne_self_eq_false, hmem, hmask, hfeats, Nat.not_lt.mpr hlevel, decide_false, Bool.or_self,
      Bool.not_true, Bool.false_eq_true, if_false, hz]
  have hpkg : (s.rejoin p d c0 c1).pkg = z.pkg := by
    rw [hshape]
    exact (Mild.foldl _ _ (fun z' m => sendAdmit_mild ..) z).pkg
  rw [hpkg, hz, readmit_pkg, (sendLevel_mild ..).pkg]
  exact ⟨rfl, rfl, rfl⟩

/-- Notices to other members are packets. -/
theorem sendLost_mild (s : State) (d : Nat) (ms : List Nat) : Mild s (s.sendLost d ms) := Mild.foldl _ _ (fun _ _ => send_mild ..) s

/-- The first `LOST` of a member takes it out (R422, R423). -/
theorem lostNotice_loses {s : State} {k : Packet} (hop : pktLE k 0 1 = 4) (hother : pktLE k 1 1 ≠ s.pos)
    (hmem : s.pkg.members.testBit (pktLE k 1 1) = true) (hfresh : s.pkg.lostSeen.testBit (pktLE k 1 1) = false) :
    (s.lostNotice k).pkg.members = s.pkg.members - 2 ^ pktLE k 1 1 ∧ (s.lostNotice k).pkg.mepoch = (s.pkg.mepoch + 1) % 65536
    ∧ (s.lostNotice k).pkg.lostSeen = s.pkg.lostSeen + 2 ^ pktLE k 1 1 := by
  have hgo : ¬(pktLE k 0 1 != 4 || pktLE k 1 1 == s.pos || !s.pkg.members.testBit (pktLE k 1 1)
      || s.pkg.lostSeen.testBit (pktLE k 1 1)) = true := by simp [hop, hother, hmem, hfresh]
  obtain ⟨z, hz, hmild⟩ : ∃ z : State, s.lostNotice k = z.loseDie (pktLE k 1 1) (pktLE k 24 8) ∧ Mild s z := by
    refine ⟨s.sendLost (pktLE k 1 1) (s.neighbours.filter (fun m => m != pktLE k 1 1 && m != k.srcDie)), ?_, sendLost_mild ..⟩
    exact if_neg hgo
  rw [hz, ← hmild.pkg]
  rw [← hmild.pkg] at hmem hfresh
  exact loseDie_pkg _ ((pos_of_cfg hmild.cfg).symm ▸ hother) hmem hfresh

/-- Settles O36: each packet is taken in, which leaves the package alone, and the branch of its operation decides: a `JOIN` is noted
and forms the package with the last one (`formPackage_facts`), or goes to `rejoin` once it is formed. -/
theorem membershipFormsGrowsAndShrinks : Obligations.MembershipFormsGrowsAndShrinks := by
  intro s p d k0 k c0 c1 forms held keeps
  refine ⟨fun htake hd => ?_, fun t ht hacc hown hdue => ?_⟩
  · have hm := taken_mild s p k
    have hpos : (s.taken p k).pos = s.pos := pos_of_cfg hm.cfg
    have hmask : (s.taken p k).pkgMask = s.pkgMask := State.rfld_of_cfg hm.cfg ..
    have hd' : pktLE k 1 1 = d := hd
    refine ⟨fun hop hacc hnew hother hin => ?_, fun hop hacc hlead => ?_, fun hop => ?_, fun hop => ?_, fun hop hother hmem => ?_⟩
    · obtain ⟨z, hz⟩ : ∃ z, z = (s.taken p k).onPkg (fun x => { x with joins := Tab.set none x.joins d (some (c0, c1)) }) := ⟨_, rfl⟩
      have hrun : exec (.join p k0) s = .next z.tryForm := by
        refine (receive_taken htake _).trans (congrArg Host.Outcome.next ?_)
        rw [hz, ← hd']
        exact join_notes p hop (by rw [hm.pkg, hacc]) (by rw [hm.pkg, hd', hnew]) (by rwa [hd', hpos]) (by rwa [hmask, hd'])
      have hzcfg : z.cfg = s.cfg := by rw [hz]; exact hm.cfg
      have hzpos : z.positions = s.positions := by simp only [State.positions, State.pkgMask, State.rfld_of_cfg hzcfg]
      have hzpkg : z.pkg = { s.pkg with joins := Tab.set none s.pkg.joins d (some (c0, c1)) } := by rw [hz, onPkg_pkg, hm.pkg]
      have hown : Tab.get none z.pkg.joins z.pos = Tab.get none s.pkg.joins s.pos := by
        rw [hzpkg, pos_of_cfg hzcfg]
        rw [Tab.get_set, if_neg (Ne.symm hother)]
      refine ⟨fun hself hrest => ?_, fun hself => ?_⟩
      · refine ⟨_, hrun, ?_⟩
        rw [tryForm_forms (by rw [hzpkg]; exact hacc) (by rw [hown]; exact hself) fun x hx => ?_]
        · exact formPackage_forms hzcfg (by rw [hzpkg]) (by rw [hzpkg])
        · rw [hzpos] at hx
          rw [hzpkg]
          by_cases hxd : x = d
          · simp [hxd]
          · rw [Tab.get_set, if_neg hxd]
            exact (hrest x hx).resolve_left hxd
      · refine ⟨_, hrun, ?_⟩
        rw [tryForm_waits (by rw [hown]; exact hself), hzpkg]
        exact ⟨Tab.get_set_self s.pkg.joins d (some (c0, c1)), hacc⟩
    · have hrun : exec (.join p k0) s = .next ((s.taken p k).rejoin p d c0 c1) := by
        refine (receive_taken htake _).trans (congrArg Host.Outcome.next ?_)
        have h := join_rejoins (s := s.taken p k) p (k := k) hop (by rw [hm.pkg, hacc])
        rwa [hd'] at h
      have hlead' : (s.taken p k).pkg.leader = (s.taken p k).pos := by rw [hm.pkg, hpos, hlead]
      refine ⟨fun hmem => ⟨_, hrun, ?_⟩, fun hmem hin hlevel hfeats => ⟨_, hrun, ?_⟩⟩
      · rw [rejoin_member p c0 c1 hlead' (by rw [hm.pkg, hmem]), hm.pkg]
      · have hlev : (s.taken p k).level = s.level := State.rfld_of_cfg hm.cfg ..
        have hfld : (s.taken p k).rfld 0x0020 16 6 = s.rfld 0x0020 16 6 := State.rfld_of_cfg hm.cfg ..
        have h := rejoin_lost p hlead' (d := d) (c0 := c0) (c1 := c1) (by rw [hm.pkg, hmem]) (by rw [hmask, hin]) (by rwa [hlev])
          (by rwa [hfld])
        rwa [hm.pkg] at h
    · have hop' : ¬(pktLE k 0 1 != 2) = true := by simp [show pktLE k 0 1 = 2 from hop]
      have hrun : exec (.accept p k0) s = .next ((s.taken p k).accept k) := receive_taken htake _
      refine ⟨fun hself => ⟨_, hrun, ?_⟩, fun hother hlt hacc hmem => ⟨_, hrun, ?_⟩⟩
      · have h : (s.taken p k).accept k = _ := (if_neg hop').trans (if_pos (by rw [hd', hpos]; simpa using hself))
        rw [h, (joinedEvent_mild ..).pkg, onPkg_pkg]
        exact ⟨rfl, rfl, rfl, rfl⟩
      · have h : (s.taken p k).accept k = _ := (if_neg hop').trans ((if_neg (by rw [hd', hpos]; simpa using hother)).trans
          (if_pos (by rw [hd', hm.pkg]; simp [hacc, hlt, hmem])))
        rw [h, readmit_pkg, hd', hm.pkg]
        exact ⟨rfl, rfl⟩
    · have hop' : ¬(pktLE k 0 1 != 3) = true := by simp [show pktLE k 0 1 = 3 from hop]
      refine ⟨_, (receive_taken htake _).trans (congrArg Host.Outcome.next (if_neg hop')), ?_⟩
      rw [(event_mild ..).pkg, hm.pkg]
    · have hrun : exec (.lost p k0) s = .next ((s.taken p k).lostNotice k) := receive_taken htake _
      refine ⟨fun hseen => ⟨_, hrun, ?_⟩, fun hseen => ⟨_, hrun, ?_⟩⟩
      · have h : (s.taken p k).lostNotice k = s.taken p k := if_pos (by rw [hd', hm.pkg]; simp [hseen])
        rw [h, hm.pkg]
      · have h := lostNotice_loses (s := s.taken p k) (k := k) hop (by rwa [hd', hpos]) (by rwa [hd', hm.pkg]) (by rwa [hd', hm.pkg])
        rwa [hm.pkg, hd'] at h
  · have hgo : (!s.pkg.accepted && (Tab.get none s.pkg.joins s.pos).isSome && decide (t + 10 ^ 8 ≤ s.now)) = true := by
      rw [hacc, hown, decide_eq_true hdue]
      rfl
    have hrun : s.formTimeout = s.formPackage := by
      simp only [State.formTimeout, ht, hgo, if_true]
    refine ⟨_, congrArg Host.Outcome.next hrun, formPackage_forms rfl rfl rfl⟩

/-! ### Training (R385 to R390) -/

/-- The block of capabilities that a port sends (R390): 64 bytes, with the identity first and the buffers after the part number. -/
theorem capsBytes_block (s : State) (p : Nat) :
    (s.capsBytes p).length = 64
    ∧ (s.capsBytes p).take 4 = leBytes 4 (s.rfld 0x0010 8 8 + s.role p * 2 ^ 12 + s.pos * 2 ^ 16 + p * 2 ^ 24)
    ∧ ((s.capsBytes p).drop 8).take 10 = leBytes 2 256 ++ leBytes 2 1024 ++ leBytes 2 1024 ++ leBytes 2 128 ++ leBytes 2 128 := by
  refine ⟨by simp [State.capsBytes, leBytes], by simp [State.capsBytes, leBytes], ?_⟩
  have h := caps_credits (s.rfld 0x0010 8 8 + s.role p * 2 ^ 12 + s.pos * 2 ^ 16 + p * 2 ^ 24) (s.fv 0).toNat (s.rfld 0x0014 4 1)
    (bit1 (s.confReq p)) (s.reg 0x0010).toNat (leBytes 4 (s.reg 0x0014).toNat ++ leBytes 8 0 ++ List.replicate 28 0)
  rw [← h]
  simp only [State.capsBytes, List.append_assoc]

/-- A map that is written back changes no other field of a register (R386). -/
theorem putMap_rfld {s : State} {p b : Nat} (map : Word) (lo len : Nat) (h : b ≠ 0x100C + 0x40 * p) :
    (s.putMap p map).rfld b lo len = s.rfld b lo len := by
  rw [State.rfld, putMap_reg, if_neg h]
  rfl

/-- A port that sends its block of capabilities (R390). -/
theorem sendCaps_port (s : State) (p : Nat) : (s.sendCaps p).port p = { s.port p with
    unacked := (s.port p).unacked ++ [withData (s.packet 4 0 (s.port p).peerPos 123) (s.capsBytes p)] } := by
  have htick (z : State) : z.tick.port p = z.port p := rfl
  rw [State.sendCaps, htick, State.sendRaw, State.port_onPort]
  rfl

/-- A training that ends with a map, a width and a rate (R386 to R390). -/
theorem trainingDone_chosen {s : State} {p pass rates : Nat} {m : Word} {x32 half : Bool} {r : Nat} (hst : (s.port p).st = .training)
    (hmap : chooseMap (s.reg (0x100C + 0x40 * p)) pass = some (m, x32, half))
    (hrate : chooseRate (min 2 (fld (s.port p).ctl 2 2)) rates = some r) :
    ∃ a : State, s.trainingDone p pass rates = ((a.putMap p m).onPort p (fun po => { po with
        rate := r, x32 := x32, half := half, st := if po.st == .training then .exchange else .retraining
        lastRecv := a.now })).sendCaps p
      ∧ a.cfg = s.cfg ∧ ((a.putMap p m).port p).st = .training := by
  obtain ⟨a, ha⟩ : ∃ a, a = (s.abortPortTest p).onPort p (fun po => { po with retrains := min 65535 (po.retrains + 1) }) := ⟨_, rfl⟩
  obtain ⟨T, hT⟩ := abortPortTest_rest s p
  have hcfg : a.cfg = s.cfg := by rw [ha, hT]; rfl
  have hast : (a.port p).st = .training := by rw [ha, State.port_onPort, hT]; exact hst
  have hgo : ¬(!((s.port p).st == .training || (s.port p).st == .retraining)) = true := by simp [hst]
  refine ⟨a, (if_neg hgo).trans ?_, hcfg, (link_st (putMap_link ..)).trans hast⟩
  rw [← ha, State.reg, hcfg, ← State.reg, hmap, hrate]

/-- Settles O33: `chooseMap_lanes` for the map; a training that ends comes to `sendCaps` with the choice, or to the idle port. -/
theorem trainingChoosesAWholeWidth : Obligations.TrainingChoosesAWholeWidth := by
  refine ⟨fun map m pass i x32 half h h0 h1 => chooseMap_lanes h h0 h1, fun s p pass rates hp => ?_⟩
  intro map rate
  refine ⟨?_, ?_, ?_⟩
  · intro hst hmay htried
    have hdue : s.tryDue p = true := by
      unfold State.tryDue
      split
      next t ht => exact decide_eq_true (htried t ht)
      next => rfl
    have hgo : ((s.port p).st == .down && s.mayTrain p && s.tryDue p) = true := by simp [hst, hmay, hdue]
    refine ⟨s.beginTraining p, (onUnit_true hp ..).trans (congrArg Host.Outcome.next (if_pos hgo)), State.port_onPort .., rfl, ?_⟩
    exact fun q hq => State.port_onPort_other s hq _
  · intro m x32 half r hst hmap hrate
    obtain ⟨a, hdone, hacfg, haport⟩ := trainingDone_chosen hst hmap hrate
    obtain ⟨z, hz⟩ : ∃ z, z = (a.putMap p m).onPort p (fun po => { po with
      rate := r, x32 := x32, half := half, st := if po.st == .training then .exchange else .retraining
      lastRecv := a.now }) := ⟨_, rfl⟩
    have hrfld (b lo len : Nat) (hb : b ≠ 0x100C + 0x40 * p) : z.rfld b lo len = s.rfld b lo len := by
      rw [hz]
      exact (putMap_rfld m lo len hb).trans (State.rfld_of_cfg hacfg ..)
    have hrole : z.role p = s.role p := hrfld _ _ _ (by omega)
    have hpos : z.pos = s.pos := hrfld _ _ _ (by omega)
    obtain ⟨hlen, hid, hbuf⟩ := capsBytes_block z p
    rw [hrole, hpos, hrfld _ _ _ (by omega)] at hid
    rw [← hz] at hdone
    refine ⟨z.sendCaps p, (onUnit_true hp ..).trans (congrArg Host.Outcome.next hdone), ?_⟩
    rw [sendCaps_port]
    refine ⟨by rw [hz, State.port_onPort, haport]; rfl, by rw [hz, State.port_onPort], by rw [hz, State.port_onPort], by rw [hz, State.port_onPort], ?_,
      _, List.mem_append_right _ (List.mem_singleton_self _), rfl, rfl, hlen, hid, hbuf⟩
    have hreg : (z.sendCaps p).reg (0x100C + 0x40 * p) = z.reg (0x100C + 0x40 * p) := rfl
    rw [hreg, hz]
    exact (putMap_reg ..).trans (if_pos rfl)
  · intro hst hnone
    obtain ⟨a, ha⟩ : ∃ a, a = (s.abortPortTest p).onPort p (fun po => { po with retrains := min 65535 (po.retrains + 1) }) := ⟨_, rfl⟩
    have hgo : ¬(!((s.port p).st == .training || (s.port p).st == .retraining)) = true := by simp [hst]
    have hdone : s.trainingDone p pass rates = a.onPort p (fun po => po.idle .failed) := by
      have hreg : a.reg (0x100C + 0x40 * p) = map := by
        obtain ⟨T, hT⟩ := abortPortTest_rest s p
        rw [ha, hT]
        rfl
      refine (if_neg hgo).trans ?_
      rw [← ha, hreg, hst]
      rcases hnone with h | h
      · rw [h]; rfl
      · rw [show chooseRate (min 2 (fld (s.port p).ctl 2 2)) rates = none from h]
        cases chooseMap map pass <;> rfl
    refine ⟨_, (onUnit_true hp ..).trans (congrArg Host.Outcome.next hdone), ?_⟩
    rw [State.port_onPort]
    rfl

/-! ### Admission of a partner (R390, R391) -/

/-- No event is written while the queue manager is off (R338). -/
theorem event_off {s : State} (h : s.qmOn = false) (e : Ev) : s.event e = s := if_pos (by simp [h])

/-- Flushing a port that holds nothing leaves its credits alone. -/
theorem Port.flushAt_credits {po : Port} (h : po.queue = []) (n : Nat) : (po.flushAt n).credits = po.credits := by
  rw [Port.flushAt, flush_empty po h]

/-- A port that comes up before events are enabled keeps its credits. -/
theorem portUp_credits {s : State} {p : Nat} (c : Bool) (hoff : s.qmOn = false) (hq : (s.port p).queue = []) :
    ((s.portUp p c).port p).credits = (s.port p).credits := by
  obtain ⟨a, ha⟩ : ∃ a, a = s.onPort p (fun po => { po with
    st := .up, confOn := c, retrainReq := false, lastSent := s.now, lastRecv := s.now, lastBusy := s.now }) := ⟨_, rfl⟩
  have hap : (a.port p).credits = (s.port p).credits ∧ (a.port p).queue = [] := by
    rw [ha, State.port_onPort]
    exact ⟨rfl, hq⟩
  have haoff : a.qmOn = false := by rw [ha]; exact hoff
  have hx : ∃ x e n, s.portUp p c = (State.event x e).onPort p (fun po => po.flushAt n) ∧ x.port p = a.port p ∧ x.qmOn = a.qmOn := by
    simp only [State.portUp, ← ha]
    (repeat' split) <;> exact ⟨_, _, _, rfl, rfl, rfl⟩
  obtain ⟨x, e, n, hup, hport, hon⟩ := hx
  rw [hup, event_off (hon.trans haoff), State.port_onPort, hport, Port.flushAt_credits hap.2, hap.1]

/-- The credits that a partner's block gives (R391, R399). -/
theorem takeCaps_credits (s : State) (p : Nat) (k : Packet) {c : Nat} (hc : c < 5) :
    Tab.get 0 ((s.takeCaps p k).port p).credits c = pktLE k (8 + 2 * c) 2 := by
  have h : ∀ l : List Nat, c ∈ l → ∀ t : Tab Nat, Tab.get 0 (l.foldl (fun t c => Tab.set 0 t c (pktLE k (8 + 2 * c) 2)) t) c = pktLE k (8 + 2 * c) 2 := by
    intro l
    induction l using List.reverseRecOn with
    | nil => intro hm; simp at hm
    | append_singleton l x ih =>
      intro hm t
      rw [List.foldl_append, List.foldl_cons, List.foldl_nil, Tab.get_set]
      split
      next hx => rw [hx]
      next hx =>
        refine ih ?_ t
        rcases List.mem_append.mp hm with hl | hl
        · exact hl
        · exact absurd (List.mem_singleton.mp hl) hx
  rw [State.takeCaps, State.port_onPort]
  exact h _ (List.mem_range.mpr hc) []

/-- A packet on a link that is not up takes credits of its own class only (R399). -/
theorem sendRaw_credits {s : State} {p c : Nat} {k : Packet} (hc : c ≠ k.cls) :
    Tab.get 0 ((s.sendRaw p k).port p).credits c = Tab.get 0 (s.port p).credits c := by
  rw [State.sendRaw, State.port_onPort]
  show Tab.get 0 (if creditFree k then (s.port p).credits else Tab.mod 0 (s.port p).credits k.cls (· - packetUnits k)) c = _
  split
  · rfl
  · rw [Tab.get_mod, if_neg hc]

/-- Keys sent before the link is up take credits of the management class only (R399, R498). -/
theorem sendKeys_credits {s : State} {p c : Nat} (e : Nat) (hst : (s.port p).st ≠ .up) (hc : c < 4) :
    Tab.get 0 ((s.sendKeys p e).port p).credits c = Tab.get 0 (s.port p).credits c := by
  have hraw (z : State) (k : Packet) (h : (z.port p).st ≠ .up) :
      (if (z.port p).st == .up then z.sendOn p k else z.sendRaw p k) = z.sendRaw p k := if_neg (by simpa using h)
  have htick (z : State) : z.tick.port p = z.port p := rfl
  simp only [State.sendKeys]
  rw [htick, hraw s _ hst, hraw _ _ (by rw [link_st (sendRaw_link ..)]; exact hst), sendRaw_credits (Nat.ne_of_lt hc),
    sendRaw_credits (Nat.ne_of_lt hc)]

/-- Where the partner's block is looked at (R390). -/
def State.heard (s : State) (p : Nat) : State := s.onPort p (fun po => { po with lastRecv := s.now })

theorem heard_port (s : State) (p : Nat) : (s.heard p).port p = { s.port p with lastRecv := s.now } := State.port_onPort ..

theorem heard_reason (s : State) (p : Nat) (k : Packet) : (s.heard p).capsReason p k = s.capsReason p k := by
  have hrole : (s.heard p).role p = s.role p := rfl
  have hconf : (s.heard p).confReq p = s.confReq p := by rw [State.confReq, heard_port]; rfl
  simp only [State.capsReason, hrole, hconf]

/-- What is recorded of a partner (R391). -/
def Port.knows (q : Port) (s : State) (p : Nat) (k : Packet) : Prop :=
  q.peerKind = bitsOf (pktLE k 0 4) 8 4 ∧ q.peerRole = bitsOf (pktLE k 0 4) 12 3 ∧ q.peerPos = bitsOf (pktLE k 0 4) 16 8
  ∧ q.peerPart = pktLE k 4 4 ∧ q.version = if bitAt (s.port p).ctl 6 then 1 else min (s.rfld 0x0010 8 8) (bitsOf (pktLE k 0 4) 0 8)

theorem Port.knows_link {q r : Port} {s : State} {p : Nat} {k : Packet} (h : q.link = r.link) (hr : r.knows s p k) : q.knows s p k := by
  obtain ⟨h1, h2, h3, h4, h5⟩ := hr
  exact ⟨(congrArg Port.peerKind h : _).trans h1, (congrArg Port.peerRole h : _).trans h2, (congrArg Port.peerPos h : _).trans h3,
    (congrArg Port.peerPart h : _).trans h4, (congrArg Port.version h : _).trans h5⟩

/-- A port that has recorded its partner. -/
theorem takeCaps_knows (s : State) (p : Nat) (k : Packet) : (((s.heard p).takeCaps p k).port p).knows s p k := by
  refine Port.knows_link (takeCaps_port ..) ⟨rfl, rfl, rfl, rfl, ?_⟩
  rw [heard_port]
  rfl

section Fits
variable {s : State} {p : Nat} {k : Packet}

/-- A partner that fits: the branch of `caps` after its block is taken (R391, R393). -/
theorem caps_fits (hst : (s.port p).st = .exchange ∨ (s.port p).st = .retraining) (hfits : s.capsReason p k = 0) :
    s.caps p k =
      if (s.port p).st == .retraining && (s.confReq p || (pktLE k 0x10 4).testBit 17) == (s.port p).confOn then
        ((((s.heard p).takeCaps p k).onPort p (fun po => { po with st := .up, retrainReq := false })).event
          { typ := 0x0202, pay := [(0x18, 4, p), (0x20, 8, s.now - (s.port p).trainStart)] }).onPort p (fun po => po.flushAt s.now)
      else if s.confReq p || (pktLE k 0x10 4).testBit 17 then
        (((s.heard p).takeCaps p k).onPort p (fun po => { po with
          st := .admitWait, kexStart := s.now, confOn := false, certOk := false })).sendKeys p 0
      else ((s.heard p).takeCaps p k).portUp p false := by
  have hgo : ¬(!((s.port p).st == .exchange || (s.port p).st == .retraining)) = true := by rcases hst with h | h <;> simp [h]
  have hreason : ¬((s.heard p).capsReason p k != 0) = true := by rw [heard_reason, hfits]; simp
  have hconf : (s.heard p).confReq p = s.confReq p := by rw [State.confReq, heard_port]; rfl
  refine (if_neg hgo).trans ((if_neg hreason).trans ?_)
  have hheard : s.onPort p (fun po => { po with lastRecv := s.now }) = s.heard p := rfl
  rw [hheard, hconf]
  rfl

/-- A port whose partner has been recorded and that comes up, or waits for keys (R391). -/
theorem caps_admits (hst : (s.port p).st = .exchange) (hfits : s.capsReason p k = 0) :
    ((s.caps p k).port p).st = (if s.confReq p || (pktLE k 0x10 4).testBit 17 then .admitWait else .up)
    ∧ ((s.caps p k).port p).knows s p k
    ∧ (s.qmOn = false → (s.port p).queue = [] → ∀ c, c < (if s.confReq p || (pktLE k 0x10 4).testBit 17 then 4 else 5) →
      Tab.get 0 ((s.caps p k).port p).credits c = pktLE k (8 + 2 * c) 2) := by
  rw [caps_fits (Or.inl hst) hfits, if_neg (by simp [hst])]
  obtain ⟨z, hz⟩ : ∃ z, z = (s.heard p).takeCaps p k := ⟨_, rfl⟩
  have hknows : (z.port p).knows s p k := hz ▸ takeCaps_knows s p k
  have hcred (c : Nat) (hc : c < 5) : Tab.get 0 (z.port p).credits c = pktLE k (8 + 2 * c) 2 := hz ▸ takeCaps_credits _ p k hc
  have hoff : z.qmOn = s.qmOn := by rw [hz]; rfl
  have hqueue : (z.port p).queue = (s.port p).queue := by rw [hz, State.takeCaps, State.port_onPort, heard_port]
  rw [← hz]
  by_cases hconf : (s.confReq p || (pktLE k 0x10 4).testBit 17) = true
  · obtain ⟨y, hy⟩ : ∃ y, y = z.onPort p (fun po => { po with
      st := .admitWait, kexStart := s.now, confOn := false, certOk := false }) := ⟨_, rfl⟩
    have hyp : y.port p = { z.port p with st := .admitWait, kexStart := s.now, confOn := false, certOk := false } := by
      rw [hy, State.port_onPort]
    have hyst : (y.port p).st = .admitWait := by rw [hyp]
    simp only [if_pos hconf, ← hy]
    refine ⟨(link_st (sendKeys_link ..)).trans hyst, Port.knows_link (sendKeys_link ..) (hyp ▸ hknows), fun _ _ c hc => ?_⟩
    rw [sendKeys_credits 0 (by rw [hyst]; decide) hc, hyp]
    exact hcred c (by omega)
  · simp only [if_neg hconf]
    refine ⟨link_st (portUp_link ..), Port.knows_link (portUp_link ..) hknows, fun h1 h2 c hc => ?_⟩
    rw [portUp_credits false (hoff.trans h1) (hqueue.trans h2)]
    exact hcred c hc

/-- A retrained port whose partner still fits (R393, R404). -/
theorem caps_retrains (hst : (s.port p).st = .retraining) (hfits : s.capsReason p k = 0) :
    ((s.caps p k).port p).knows s p k
    ∧ ((s.caps p k).port p).st =
      (if (s.confReq p || (pktLE k 0x10 4).testBit 17) && !(s.port p).confOn then .admitWait else .up) := by
  rw [caps_fits (Or.inr hst) hfits]
  obtain ⟨z, hz⟩ : ∃ z, z = (s.heard p).takeCaps p k := ⟨_, rfl⟩
  have hknows : (z.port p).knows s p k := hz ▸ takeCaps_knows s p k
  rw [← hz]
  obtain ⟨conf, hconf⟩ : ∃ b, b = (s.confReq p || (pktLE k 0x10 4).testBit 17) := ⟨_, rfl⟩
  rw [← hconf]
  by_cases hsame : conf = (s.port p).confOn
  · rw [if_pos (by simp [hst, hsame]), if_neg (by cases conf <;> simp [← hsame])]
    obtain ⟨y, hy⟩ : ∃ y, y = z.onPort p (fun po => { po with st := .up, retrainReq := false }) := ⟨_, rfl⟩
    have hyp : y.port p = { z.port p with st := .up, retrainReq := false } := by rw [hy, State.port_onPort]
    rw [← hy, State.port_onPort]
    have hlink : (((y.event { typ := 0x0202, pay := [(0x18, 4, p), (0x20, 8, s.now - (s.port p).trainStart)] }).port p).flushAt s.now).link
        = (y.port p).link := (Port.flushAt_st _ _).2.2.2.trans (event_link ..)
    exact ⟨Port.knows_link hlink (hyp ▸ hknows), (link_st hlink).trans (by rw [hyp])⟩
  · rw [if_neg (by simp [hsame])]
    cases conf with
    | true =>
      have hoff : (s.port p).confOn = false := by simpa using Ne.symm hsame
      obtain ⟨y, hy⟩ : ∃ y, y = z.onPort p (fun po => { po with
        st := .admitWait, kexStart := s.now, confOn := false, certOk := false }) := ⟨_, rfl⟩
      have hyp : y.port p = { z.port p with st := .admitWait, kexStart := s.now, confOn := false, certOk := false } := by
        rw [hy, State.port_onPort]
      rw [if_pos rfl, ← hy, hoff]
      exact ⟨Port.knows_link (sendKeys_link ..) (hyp ▸ hknows), (link_st (sendKeys_link ..)).trans (by rw [hyp]; rfl)⟩
    | false =>
      rw [if_neg (by simp)]
      exact ⟨Port.knows_link (portUp_link ..) hknows, link_st (portUp_link ..)⟩

/-- A partner that does not fit is refused (R391). -/
theorem caps_refuses (hst : (s.port p).st = .exchange) (hreason : s.capsReason p k ≠ 0) :
    ((s.caps p k).port p).st = .down ∧ ((s.caps p k).port p).admitErr = true := by
  have hgo : ¬(!((s.port p).st == .exchange || (s.port p).st == .retraining)) = true := by simp [hst]
  obtain ⟨z, hz⟩ : ∃ z, z = s.heard p := ⟨_, rfl⟩
  have hr : (z.capsReason p k != 0) = true := by rw [hz, heard_reason]; simpa using hreason
  have hzst : (z.port p).st = .exchange := by rw [hz, heard_port]; exact hst
  have hrefuse : s.caps p k = z.refusePartner p (z.capsReason p k) := by
    refine (if_neg hgo).trans ?_
    rw [hz] at hr ⊢
    exact if_pos hr
  have hlink : ((z.refusePartner p (z.capsReason p k)).port p).link
      = ({ (z.port p).idle .down with admitErr := true } : Port).link := by
    rw [State.refusePartner, event_link, State.port_onPort, if_neg (by simp [hzst]), State.port_onPort]
  rw [hrefuse]
  exact ⟨link_st hlink, (congrArg Port.admitErr hlink : _)⟩

end Fits

/-! ### Keys (R498 to R500) -/

section Keys
variable {s : State} {p : Nat} {k : Packet}

/-- Onjan serves a port that waits for admission, or that rekeys (R492, R508). -/
theorem kexOpen_of (hst : (s.port p).st = .admitWait ∨ (s.port p).st = .up ∧ (s.port p).rekeying = true) (hlife : s.sec.life ≠ .retired)
    (hid : s.sec.idKey = true) (hzero : s.sec.zeroise = false) : s.kexOpen p = true := by
  have hlife' : (s.sec.life != .retired) = true := by simpa using hlife
  rcases hst with h | ⟨h, hr⟩ <;> simp [State.kexOpen, *]

/-- A certificate that an exchange takes (R499, R510). -/
theorem keyCert_takes (hst : (s.port p).st = .admitWait) (hopen : s.kexOpen p = true) (hrng : s.sec.rngOk = true) (hop : pktLE k 0 1 = 1)
    (hca : pktLE k 208 1 = 0) : s.keyCert p k true = s.onPort p (fun po => { po with certOk := true, ca := 0 }) := by
  simp [State.keyCert, hst, hopen, hrng, hop, hca]

/-- A certificate that does not verify ends the exchange (R499). -/
theorem keyCert_fails (hst : (s.port p).st = .admitWait) (hopen : s.kexOpen p = true) (hrng : s.sec.rngOk = true) (hop : pktLE k 0 1 = 1) :
    s.keyCert p k false = s.kexFail p 1 := by
  simp [State.keyCert, hst, hopen, hrng, hop]

/-- An offer that verifies brings a port up under a key (R499). -/
theorem keyOffer_admits (hst : (s.port p).st = .admitWait) (hopen : s.kexOpen p = true) (hrng : s.sec.rngOk = true) (hop : pktLE k 0 1 = 2)
    (hcert : (s.port p).certOk = true) :
    ((s.keyOffer p k true).port p).link = ({ s.port p with
      keyed := true, certOk := false, keyEpoch := 0, st := .up, confOn := true, retrainReq := false } : Port).link := by
  have hgo : ¬(!s.kexOpen p || pktLE k 0 1 != 2 || !(s.port p).certOk) = true := by simp [hopen, hop, hcert]
  have h : s.keyOffer p k true = (s.onPort p (fun po => { po with
      keyed := true, certOk := false, keyEpoch := 0, sentCount := 0, recvCount := 0 })).portUp p true :=
    (if_neg hgo).trans ((if_neg (by simp [hrng])).trans ((if_neg (by simp)).trans (if_pos (by simp [hst]))))
  rw [h, portUp_link, State.port_onPort]
  rfl

/-- An offer that does not verify ends the exchange (R499). -/
theorem keyOffer_fails (hopen : s.kexOpen p = true) (hrng : s.sec.rngOk = true) (hop : pktLE k 0 1 = 2)
    (hcert : (s.port p).certOk = true) : s.keyOffer p k false = s.kexFail p 2 := by
  simp [State.keyOffer, hopen, hrng, hop, hcert]

/-- An offer in a repeated exchange is answered by `SWITCH`, and the next key is in use (R500). -/
theorem keyOffer_switches (hst : (s.port p).st = .up) (hopen : s.kexOpen p = true) (hrng : s.sec.rngOk = true) (hop : pktLE k 0 1 = 2)
    (hcert : (s.port p).certOk = true) :
    ((s.keyOffer p k true).port p).keyEpoch = ((s.port p).keyEpoch + 1) % 65536
    ∧ ((s.keyOffer p k true).port p).sentCount = 0 ∧ ((s.keyOffer p k true).port p).st = .up := by
  have hgo : ¬(!s.kexOpen p || pktLE k 0 1 != 2 || !(s.port p).certOk) = true := by simp [hopen, hop, hcert]
  obtain ⟨z, hz, hmild⟩ : ∃ z, s.keyOffer p k true
      = State.onPort z p (fun po => { po with keyEpoch := ((s.port p).keyEpoch + 1) % 65536, certOk := false, sentCount := 0 })
      ∧ Mild s z :=
    ⟨_, (if_neg hgo).trans ((if_neg (by simp [hrng])).trans ((if_neg (by simp)).trans (if_neg (by simp [hst])))), sendOn_mild ..⟩
  rw [hz, State.port_onPort]
  exact ⟨rfl, rfl, (hmild.st p).trans hst⟩

/-- An exchange that is repeated (R500). -/
theorem rekeyStart_rekeys (hst : (s.port p).st = .up) (hconf : (s.port p).confOn = true) (hre : (s.port p).rekeying = false)
    (hrng : s.sec.rngOk = true) (hcount : 2 ^ 47 ≤ max (s.port p).sentCount (s.port p).recvCount) :
    ((s.rekeyStart p).port p).link = ({ s.port p with rekeying := true, certOk := false } : Port).link := by
  have hgo : ((s.port p).st == .up && (s.port p).confOn && !(s.port p).rekeying
      && decide (2 ^ 47 ≤ max (s.port p).sentCount (s.port p).recvCount)) = true := by
    rw [hst, hconf, hre, decide_eq_true hcount]; rfl
  have hrekey : s.rekeyStart p = (s.onPort p (fun po => { po with rekeying := true, certOk := false })).sendKeys p
      (((s.port p).keyEpoch + 1) % 65536) := (if_pos hgo).trans (if_neg (by simp [hrng]))
  rw [hrekey, sendKeys_link, State.port_onPort]

/-- The partner's `SWITCH` ends a repeated exchange (R500). -/
theorem keySwitch_ends (hst : (s.port p).st = .up) (hre : (s.port p).rekeying = true) (hop : pktLE k 0 1 = 3) :
    ((s.keySwitch p k).port p).link = ({ s.port p with rekeying := false } : Port).link := by
  have hgo : ¬(!((s.port p).st == .up && (s.port p).rekeying) || pktLE k 0 1 != 3) = true := by simp [hst, hre, hop]
  obtain ⟨e, he⟩ : ∃ e, s.keySwitch p k = (s.onPort p (fun po => { po with rekeying := false, recvCount := 0 })).event e := ⟨_, if_neg hgo⟩
  rw [he, event_link, State.port_onPort]
  rfl

/-- The packets of an exchange on a port that waits for admission (R499). -/
theorem exchange_packets (hst : (s.port p).st = .admitWait) (hopen : s.kexOpen p = true) (hrng : s.sec.rngOk = true)
    (hqueue : (s.port p).queue = []) (hun : ∀ x ∈ (s.port p).unacked, x.cls = 4) :
    (pktLE k 0 1 = 1 → pktLE k 208 1 = 0 → ((s.keyCert p k true).port p).certOk = true ∧ ((s.keyCert p k true).port p).ca = 0
      ∧ ((s.keyCert p k true).port p).st = .admitWait)
    ∧ (pktLE k 0 1 = 1 → ((s.keyCert p k false).port p).st = .isolated)
    ∧ (pktLE k 0 1 = 2 → (s.port p).certOk = true → ((s.keyOffer p k true).port p).st = .up ∧ ((s.keyOffer p k true).port p).keyed = true
      ∧ ((s.keyOffer p k true).port p).confOn = true ∧ ((s.keyOffer p k true).port p).keyEpoch = 0)
    ∧ (pktLE k 0 1 = 2 → (s.port p).certOk = true → ((s.keyOffer p k false).port p).st = .isolated) := by
  refine ⟨fun hop hca => ?_, fun hop => ?_, fun hop hcert => ?_, fun hop hcert => ?_⟩
  · rw [keyCert_takes hst hopen hrng hop hca, State.port_onPort]
    exact ⟨rfl, rfl, hst⟩
  · rw [keyCert_fails hst hopen hrng hop]
    exact kexFail_st 1 hqueue hun hst
  · have hlink := keyOffer_admits hst hopen hrng hop hcert
    exact ⟨link_st hlink, (congrArg Port.keyed hlink : _), (congrArg Port.confOn hlink : _), (congrArg Port.keyEpoch hlink : _)⟩
  · rw [keyOffer_fails hopen hrng hop hcert]
    exact kexFail_st 2 hqueue hun hst

end Keys


/-- Settles O34: `capsReason_fits` says which blocks pass; an admitted partner by `caps_admits` and `caps_retrains`, a refused one by
`caps_refuses`; the packets of an exchange by the branch of `keyCert`, `keyOffer` and `keySwitch`, failures by `kexFail_st`. -/
theorem partnersAreAdmittedOrRefused : Obligations.PartnersAreAdmittedOrRefused := by
  intro s p k hp hrole w conf kind fits known only key
  have hreason : s.capsReason p k = 0 ↔ fits := capsReason_fits hrole
  have hcaps : exec (.caps p k) s = .next (s.caps p k) := onUnit_true hp ..
  refine ⟨fun hst => ⟨fun hfits => ?_, fun hfits => ?_⟩, fun hst hfits => ?_, fun hst hlife hid hzero hrng honly => ?_,
    fun hst hlate hqueue hun => ?_, fun hst hconf hre hrng hcount => ?_, fun htake hre => ?_⟩
  · obtain ⟨hst', hknows, hcred⟩ := caps_admits hst (hreason.mpr hfits)
    exact ⟨_, hcaps, hst', hknows, hcred⟩
  · obtain ⟨hst', herr⟩ := caps_refuses hst (fun h => hfits (hreason.mp h))
    exact ⟨_, hcaps, hst', herr⟩
  · obtain ⟨hknows, hst'⟩ := caps_retrains hst (hreason.mpr hfits)
    exact ⟨_, hcaps, hknows, hst'⟩
  · obtain ⟨hqueue, hun, hcarry, hok, hauth⟩ := honly
    obtain ⟨z, hz⟩ : ∃ z, z = s.taken p key := ⟨_, rfl⟩
    have hm : Mild s z := hz ▸ taken_mild s p key
    have hzst : (z.port p).st = .admitWait := (hm.st p).trans hst
    have hzqueue : (z.port p).queue = [] := by rw [hz, taken_port]; exact hqueue
    have hzun : ∀ x ∈ (z.port p).unacked, x.cls = 4 := by rw [hz, taken_port]; exact hun
    have hopen : z.kexOpen p = true := kexOpen_of (Or.inl hzst) (by rwa [hm.sec]) (by rwa [hm.sec]) (by rwa [hm.sec])
    have hzrng : z.sec.rngOk = true := by rwa [hm.sec]
    have htaken (act : State → State) : s.receive p key act = act z := hz ▸ receive_key hst rfl rfl hcarry hok hauth act
    have hrun (act : State → State) : onUnit (isPort p) p (s.receive p key act) = .next (act z) :=
      (onUnit_true hp ..).trans (congrArg Host.Outcome.next (htaken act))
    have hcert' : (z.port p).certOk = (s.port p).certOk := by rw [hz, taken_port]
    obtain ⟨hcertOk, hcertBad, hofferOk, hofferBad⟩ := exchange_packets (k := key) hzst hopen hzrng hzqueue hzun
    rw [hcert'] at hofferOk hofferBad
    exact ⟨fun hop hca => ⟨_, hrun _, hcertOk hop hca⟩, fun hop => ⟨_, hrun _, hcertBad hop⟩,
      fun hop hcert => ⟨⟨_, hrun _, hofferOk hop hcert⟩, ⟨_, hrun _, hofferBad hop hcert⟩⟩⟩
  · have hgo : s.kexLate p = true := by rw [State.kexLate, hst, decide_eq_true hlate]; rfl
    refine ⟨_, (onUnit_true hp ..).trans (congrArg Host.Outcome.next (if_pos hgo)), kexFail_st 3 hqueue hun hst⟩
  · have hlink := rekeyStart_rekeys hst hconf hre hrng hcount
    exact ⟨_, onUnit_true hp .., (congrArg Port.rekeying hlink : _), (congrArg Port.certOk hlink : _), (link_st hlink).trans hst⟩
  · obtain ⟨z, hz⟩ : ∃ z, z = s.taken p key := ⟨_, rfl⟩
    have hm : Mild s z := hz ▸ taken_mild s p key
    have hst : (s.port p).st = .up := by
      simp only [State.accepts, Bool.and_eq_true, beq_iff_eq] at htake
      exact htake.1.1.1.1.2
    have hzst : (z.port p).st = .up := (hm.st p).trans hst
    have hzre : (z.port p).rekeying = true := by rw [hz, taken_port]; exact hre
    have hzepoch : (z.port p).keyEpoch = (s.port p).keyEpoch := by rw [hz, taken_port]
    have hrun (act : State → State) : onUnit (isPort p) p (s.receive p key act) = .next (act z) := hz ▸ receive_taken htake act
    refine ⟨fun hop hcert hrng hlife hid hzero => ⟨_, hrun _, ?_⟩, fun hop => ⟨_, hrun _, ?_⟩⟩
    · have hopen : z.kexOpen p = true := kexOpen_of (Or.inr ⟨hzst, hzre⟩) (by rwa [hm.sec]) (by rwa [hm.sec]) (by rwa [hm.sec])
      have h := keyOffer_switches (k := key) hzst hopen (by rwa [hm.sec]) hop (by rw [hz, taken_port]; exact hcert)
      rwa [hzepoch] at h
    · have hlink := keySwitch_ends (k := key) hzst hzre hop
      exact ⟨(congrArg Port.rekeying hlink : _), (link_st hlink).trans hzst, (congrArg Port.keyEpoch hlink : _).trans hzepoch⟩

/-! ### Retraining and the loss of a link (R393, R394) -/

/-- A port that begins to retrain, as it stands at time `n` with control register `c` (R393). -/
def Port.retraining (po : Port) (n : Nat) (c : Word) : Port :=
  { { po with l1 := false }.flushAt n with st := .retraining, trainStart := n, ctl := c, winReplays := 0 }

/-- Beginning to retrain changes the port and test access only (R393, R522). -/
theorem beginRetrain_shape (s : State) (p : Nat) :
    ∃ T, s.beginRetrain p = State.onPort { s with tst := T } p (fun po => po.retraining s.now (s.reg (0x1000 + 0x40 * p))) := by
  obtain ⟨T, hT⟩ := abortPortTest_rest s p
  refine ⟨T, ?_⟩
  rw [State.beginRetrain, hT]
  rfl

theorem beginRetrain_port (s : State) (p : Nat) :
    (s.beginRetrain p).port p = (s.port p).retraining s.now (s.reg (0x1000 + 0x40 * p))
    ∧ (s.beginRetrain p).mem = s.mem ∧ (s.beginRetrain p).tiles = s.tiles := by
  obtain ⟨T, hT⟩ := beginRetrain_shape s p
  rw [hT, State.port_onPort]
  exact ⟨rfl, rfl, rfl⟩

/-- The ports that lead to a die depend on their roles, states and partners. -/
theorem portsTo_congr {s z : State} (hrole : ∀ q, z.role q = s.role q) (hst : ∀ q, (z.port q).st = (s.port q).st)
    (hpeer : ∀ q, (z.port q).peerPos = (s.port q).peerPos) (ok : Nat → Bool) (d : Nat) : z.portsTo ok d = s.portsTo ok d := by
  simp only [State.portsTo, State.upPorts, hrole, hst, hpeer]

/-- A port with another one to its die, or of a host, that falls while it holds nothing (R394, R404). -/
theorem portFall_falls {s z : State} {p : Nat} (c : Nat) (retry : Bool) {st : PortSt} (hst : st ≠ .up)
    (hrole : ∀ q, z.role q = s.role q) (hport : ∀ q, ∃ t, z.port q = { s.port q with tried := t })
    (hqueue : (s.port p).queue = []) (hun : (s.port p).unacked = []) (hold : (s.port p).st = .up ∨ (s.port p).st = .retraining)
    (hbacked : s.role p = 3 ∨ isDieRole (s.role p) = true ∧ ∃ q, q ≠ p ∧ q ∈ s.portsTo isDieRole (s.port p).peerPos) :
    ((z.portFall p c retry st).port p).st = st ∧ ((z.portFall p c retry st).port p).linkLoss = true
    ∧ ((z.portFall p c retry st).port p).l1 = false ∧ (z.portFall p c retry st).flt.port = true := by
  have hzst (q : Nat) : (z.port q).st = (s.port q).st := by obtain ⟨t, ht⟩ := hport q; rw [ht]
  have hzpeer (q : Nat) : (z.port q).peerPos = (s.port q).peerPos := by obtain ⟨t, ht⟩ := hport q; rw [ht]
  have hzqueue : (z.port p).queue = [] := by obtain ⟨t, ht⟩ := hport p; rw [ht]; exact hqueue
  have hzun : (z.port p).unacked = [] := by obtain ⟨t, ht⟩ := hport p; rw [ht]; exact hun
  refine portFall_backed c retry hzqueue hzun (by rw [hzst]; exact hold) ?_ hst
  rw [hrole, hzpeer, portsTo_congr hrole hzst hzpeer]
  exact hbacked

/-- An aborted port test leaves roles and ports alone (R522). -/
theorem abortPortTest_ports (s : State) (p : Nat) :
    (∀ q, (s.abortPortTest p).role q = s.role q) ∧ ∀ q, ∃ t, (s.abortPortTest p).port q = { s.port q with tried := t } := by
  obtain ⟨T, hT⟩ := abortPortTest_rest s p
  rw [hT]
  exact ⟨fun _ => rfl, fun q => ⟨(s.port q).tried, rfl⟩⟩

/-- A write of `EN` touches no port's role, and of the ports no more than the time of an attempt (R404). -/
theorem portEnWrite_ports (s : State) (p v : Nat) (f : Port → Port) (hf : ∀ po, ∃ t, f po = { po with tried := t }) :
    let z := (s.setFld (0x1000 + 0x40 * p) 0 1 v).onPort p f
    (∀ q, z.role q = s.role q) ∧ ∀ q, ∃ t, z.port q = { s.port q with tried := t } := by
  intro z
  refine ⟨fun q => ?_, fun q => ?_⟩
  · show fld ((s.setFld (0x1000 + 0x40 * p) 0 1 v).reg (0x1008 + 0x40 * q)) 0 3 = _
    rw [State.setFld, State.reg_setReg, if_neg (by omega)]
    rfl
  · by_cases h : q = p
    · subst h
      obtain ⟨t, ht⟩ := hf (s.port q)
      exact ⟨t, (State.port_onPort ..).trans ht⟩
    · exact ⟨(s.port q).tried, State.port_onPort_other _ h _⟩

/-! ### Packets of a lost link (R394, R467) -/

/-- Nothing is due. -/
theorem settleInvs_none {s : State} (h : s.rdc.dues = []) : s.settleInvs = s := by
  have hdrop : ({ s with rdc := { s.rdc with dues := [] } } : State) = s := by rw [← h]
  simp only [State.settleInvs, h, List.filter_nil, List.foldl_nil]
  exact hdrop

/-- A request of this die with its transaction (R394). -/
theorem txOf_own {s : State} {k : Packet} {o : OpenTx} (hown : s.ownRequest k = true) (htx : s.tx k.tag = some o)
    (hcls : o.pkt.cls = k.cls) (htype : o.pkt.ptype = k.ptype) (haddr : o.pkt.addr = k.addr) : s.txOf k = some o := by
  simp [State.txOf, hown, htx, hcls, htype, haddr]

/-- A transaction that is changed but not answered is still open. -/
theorem tx_setTx {s : State} {tag : Nat} {o : OpenTx} (h : o.answered = false) : (s.setTx tag (some o)).tx tag = some o := by
  rw [State.tx, setTx_get]
  simp [h]

/-- An open transaction has had no answer. -/
theorem tx_answered {s : State} {tag : Nat} {o : OpenTx} (h : s.tx tag = some o) : o.answered = false := by
  unfold State.tx at h
  split at h
  next x _ =>
    split at h
    next => exact absurd h (by simp)
    next ha => rw [← Option.some.inj h]; simpa using ha
  next => exact absurd h (by simp)

/-- A port that has fallen (R394). -/
def Port.fell (po : Port) : Port := { po.idle .down with linkLoss := true }

/-- The state in which the packets of a fallen port are looked at, when another port leads to the same die (R394). -/
def State.fallen (s : State) (p : Nat) : State :=
  { s.onPort p Port.fell with flt := { s.flt with port := true } }

section Fallen
variable {s : State} {p q : Nat} {k : Packet} {o : OpenTx}

theorem fallen_port (s : State) (p : Nat) : (s.fallen p).port p = (s.port p).fell :=
  State.port_onPort s p Port.fell

theorem fallen_other (h : q ≠ p) : (s.fallen p).port q = s.port q := State.port_onPort_other s h Port.fell

/-- The ports that are left toward a die after one of two has fallen. -/
theorem fallen_portsTo {d : Nat} (hqp : q ≠ p) (htwo : s.portsTo isDieRole d = [q, p] ∨ s.portsTo isDieRole d = [p, q]) :
    (s.fallen p).portsTo isDieRole d = [q] := by
  have h : (s.fallen p).portsTo isDieRole d = (s.portsTo isDieRole d).filter (fun x => x != p) :=
    portsTo_down Port.fell (fun h => PortSt.noConfusion h) isDieRole d
  rcases htwo with h2 | h2 <;> simp [h, h2, hqp]

/-- A port that falls while another leads to the same die: its packets are looked at one after the other (R394). -/
theorem portFall_packets (c : Nat) (hoff : s.qmOn = false) (hst : (s.port p).st = .up) (hrole : isDieRole (s.role p) = true)
    (hpeer : (s.port p).peerPos = k.dstDie) (hleft : (s.fallen p).portsTo isDieRole k.dstDie = [q])
    (hiso : s.pkg.isolated = false) (hseen : s.pkg.lostSeen.testBit k.dstDie = false) (hqueue : (s.port p).queue = [])
    (hun : (s.port p).unacked = [k]) : s.portFall p c true .down = (s.fallen p).portPackets p [k] [] true := by
  obtain ⟨a, ha⟩ : ∃ a, a = s.onPort p Port.fell := ⟨_, rfl⟩
  have haoff : a.qmOn = false := by rw [ha]; exact hoff
  have hfall : s.portFall p c true .down = a.portDrop p (s.port p) true := by
    show State.portDrop (State.event (s.onPort p Port.fell) _) p (s.port p) true = _
    rw [← ha, event_off haoff]
  have harole : a.role p = s.role p := by rw [ha]; rfl
  have hapeer : (a.port p).peerPos = k.dstDie := by rw [ha, State.port_onPort]; exact hpeer
  have hleft' : a.portsTo isDieRole k.dstDie = [q] := by rw [ha]; exact hleft
  have h0 : ¬(s.role p == 0) = true := fun h => by rw [eq_of_beq h] at hrole; exact absurd hrole (by decide)
  have hafter : a.afterFall p true = s.fallen p := by
    have hstep : a.afterFall p true = { a with flt := { a.flt with port := true } } := by
      simp only [State.afterFall, harole, hapeer, hleft', hrole, Bool.not_true, Bool.false_eq_true, if_false, if_neg h0, if_true,
        List.isEmpty_cons, Bool.not_false]
    rw [hstep, ha]
    rfl
  have hisoF : (s.fallen p).pkg.isolated = false := hiso
  have hstays : (toHost k || !(s.fallen p).pkg.lostSeen.testBit k.dstDie) = true := by
    rw [show (s.fallen p).pkg.lostSeen.testBit k.dstDie = false from hseen]
    simp
  rw [hfall, State.portDrop, hst, show (PortSt.up == .up || PortSt.up == .retraining) = true from rfl, hafter, hqueue, hun]
  simp only [hisoF, List.filter_cons, List.filter_nil, hstays, if_true]
  rfl

/-- A read that was not acknowledged goes out once more on the other port (R394). -/
theorem fallen_repeats (hqp : q ≠ p) (hleft : (s.fallen p).portsTo isDieRole k.dstDie = [q]) (haddr : isHostAddr k.addr = false)
    (hsrc : k.srcDie = s.pos) (htx : s.tx k.tag = some o) (hcls : o.pkt.cls = k.cls) (htype : o.pkt.ptype = k.ptype)
    (hpa : o.pkt.addr = k.addr) (hdues : s.rdc.dues = []) (hreq : k.cls = 0) (hread : k.ptype = 0 ∨ k.ptype = 1 ∨ k.ptype = 3)
    (hfirst : o.resent = false) :
    (((s.fallen p).portPackets p [k] [] true).port p).st = .down
    ∧ ((s.fallen p).portPackets p [k] [] true).holds q { k with enc := (s.port q).confOn }
    ∧ Tab.get none ((s.fallen p).portPackets p [k] [] true).rdc.opens k.tag
      = some { o with resent := true, resentAt := s.now, port := q } := by
  have hown (z : State) (h : z.pos = s.pos) : z.ownRequest k = true := by simp [State.ownRequest, hsrc, h, hreq]
  have hrep : repeats k = true := by rcases hread with h | h | h <;> simp [repeats, hreq, h]
  have hhost : toHost k = false := by simp [toHost, haddr]
  have hans : o.answered = false := tx_answered htx
  have htxF : (s.fallen p).txOf k = some o := txOf_own (hown _ rfl) htx hcls htype hpa
  obtain ⟨y, hy⟩ : ∃ y, y = (s.fallen p).setTx k.tag (some { o with resent := true, resentAt := s.now }) := ⟨_, rfl⟩
  have hmark : (s.fallen p).markResent k = y := by
    unfold State.markResent
    rw [htxF, hy]
    rfl
  have hytx : y.txOf k = some { o with resent := true, resentAt := s.now } :=
    txOf_own (hown _ (by rw [hy]; rfl)) (by rw [hy]; exact tx_setTx hans) hcls htype hpa
  have hyto : y.portsTo isDieRole k.dstDie = [q] := by rw [hy]; exact hleft
  have hroute : y.routeOf k = some q := by
    have hpos : (k.srcDie == y.pos) = true := by rw [hsrc, hy]; exact beq_self_eq_true _
    unfold State.routeOf
    rw [if_neg (by simp [hhost]), if_pos hpos]
    unfold State.route
    rw [hyto, hreq]
    simp [pickPort, Nat.mod_one]
  obtain ⟨x, hx⟩ : ∃ x, x = y.setTx k.tag (some { o with resent := true, resentAt := s.now, port := q }) := ⟨_, rfl⟩
  have hresend : y.resend k = x.sendOn q k := by
    unfold State.resend
    rw [hroute]
    dsimp only
    rw [hytx, hx]
  have hlost : (s.fallen p).unackedLost k true = x.sendOn q k := by
    unfold State.unackedLost
    rw [htxF]
    dsimp only
    rw [if_pos (by simp [hrep, hfirst]), hmark, hresend]
  have hfaults : (s.fallen p).portFaults p ((s.fallen p).lostSeqs [k] true) = s.fallen p := by
    have hnone : (s.fallen p).lostSeqs [k] true = [] := by simp [State.lostSeqs, hrep]
    rw [hnone]
    rfl
  have hxdues : (x.sendOn q k).rdc.dues = [] := by rw [sendOn_rdc, hx, hy]; exact hdues
  have hpackets : (s.fallen p).portPackets p [k] [] true = x.sendOn q k := by
    rw [State.portPackets, hfaults]
    simp only [List.foldl_cons, List.foldl_nil]
    rw [hlost, settleInvs_none hxdues]
  have hxport (r : Nat) : x.port r = (s.fallen p).port r := by rw [hx, hy]; rfl
  rw [hpackets]
  refine ⟨?_, ?_, ?_⟩
  · rw [(sendOn_mild ..).st, hxport, fallen_port]
    rfl
  · have h := sendOn_holds x q k
    rwa [hxport, fallen_other hqp] at h
  · rw [sendOn_rdc, hx, setTx_get]

/-- A write that was not acknowledged ends as a port fault (R394, R467). -/
theorem fallen_faults {t : Nat} {e : QEntry} (hoff : s.qmOn = false) (hsrc : k.srcDie = s.pos) (htx : s.tx k.tag = some o)
    (hcls : o.pkt.cls = k.cls) (htype : o.pkt.ptype = k.ptype) (hpa : o.pkt.addr = k.addr) (hdues : s.rdc.dues = [])
    (hwr : k.cls = 2) (hptype : k.ptype = 0) (htile : o.tile = t) (ht : t < 72) (hq : (s.tile t).dma.q = [e]) (huid : e.uid = o.uid)
    (hans : e.ans < 2) :
    ((s.fallen p).portPackets p [k] [] true).tx k.tag = none
    ∧ (((s.fallen p).portPackets p [k] [] true).tile t).dma.q = [{ e with ans := 9 }]
    ∧ ((s.fallen p).portPackets p [k] [] true).flt.port = true := by
  have hown : (s.fallen p).ownRequest k = true := by
    have hpos : (s.fallen p).pos = s.pos := rfl
    simp [State.ownRequest, hsrc, hpos, hwr, hptype]
  have hrep : repeats k = false := by simp [repeats, hwr]
  have htxF : (s.fallen p).txOf k = some o := txOf_own hown htx hcls htype hpa
  have hfaults : (s.fallen p).portFaults p ((s.fallen p).lostSeqs [k] true) = s.fallen p := by
    have hev (l : List Nat) (n : Nat) : (s.fallen p).portFaultEvents p l n = s.fallen p := by
      induction n generalizing l with
      | zero => cases l <;> rfl
      | succ n ih =>
        cases l with
        | nil => rfl
        | cons x l =>
          show State.portFaultEvents (State.event (s.fallen p) _) p _ n = _
          rw [event_off (s := s.fallen p) hoff]
          exact ih _
    unfold State.portFaults
    split
    · rfl
    · exact hev _ _
  obtain ⟨y, hy⟩ : ∃ y, y = (s.fallen p).setTx k.tag none := ⟨_, rfl⟩
  have hfail : y.failTx o 9 = y.onTile t (fun q => q.onDma (fun d => { d with
      q := d.q.map (fun e => if e.uid == o.uid then e.fail 9 else e) })) := by
    have hosrc : o.src = none := by simp [OpenTx.src, hcls, hwr]
    have hfetch : ¬(o.tile == fetchTx) = true := by
      simp only [htile, fetchTx, beq_iff_eq]
      omega
    unfold State.failTx
    rw [hosrc]
    dsimp only
    rw [if_neg hfetch, State.onWork, if_pos (show o.tile < Config.tiles by rw [htile]; exact ht), htile]
  have hlose : (s.fallen p).unackedLost k true = y.failTx o 9 := by
    unfold State.unackedLost
    rw [if_neg (by simp [hrep])]
    have h : (s.fallen p).loseTx k 9 = y.failTx o 9 := by
      unfold State.loseTx
      rw [htxF, hy]
    rw [h]
    exact if_pos (by simp [hwr])
  have hpackets : (s.fallen p).portPackets p [k] [] true = y.failTx o 9 := by
    rw [State.portPackets, hfaults]
    simp only [List.foldl_cons, List.foldl_nil]
    rw [hlose, settleInvs_none]
    rw [hfail, hy]
    exact hdues
  have htile' : y.tile t = s.tile t := by rw [hy]; rfl
  have hgone : (y.tx k.tag) = none := by
    unfold State.tx
    rw [hy, setTx_get]
  have hflt : y.flt.port = true := by rw [hy]; rfl
  rw [hpackets, hfail, State.tile_onTile, htile']
  refine ⟨hgone, ?_, hflt⟩
  show (s.tile t).dma.q.map _ = _
  simp [hq, huid, QEntry.fail, Nat.not_le.mpr hans]

end Fallen

/-- The fields of a control register of a port, written and read back (R404). -/
theorem portEnWrite_pctl (s : State) (p v : Nat) (f : Port → Port) (hv : v < 2) :
    ((s.setFld (0x1000 + 0x40 * p) 0 1 v).onPort p f).pctl p 0 1 = v := setFld_bit0 s _ v hv

/-- Returned credits are added to those that a port holds (R399). -/
theorem creditRet_port {s : State} {p : Nat} (k : Packet) (hqueue : (s.port p).queue = []) :
    let po := (s.onPort p (fun po => { po with
      credits := (List.range 5).foldl (fun t c => Tab.mod 0 t c (· + returnedUnits k c)) po.credits }.flushAt s.now)).port p
    po.unacked = (s.port p).unacked
    ∧ ∀ c, c < 5 → Tab.get 0 po.credits c = Tab.get 0 (s.port p).credits c + bitsOf k.addr (10 * c) 10 := by
  intro po
  obtain ⟨r, hr⟩ : ∃ r : Port, r = { s.port p with
    credits := (List.range 5).foldl (fun t c => Tab.mod 0 t c (· + returnedUnits k c)) (s.port p).credits } := ⟨_, rfl⟩
  have hpo : po = r.flushAt s.now := by rw [hr]; exact State.port_onPort ..
  have hflush : r.flush = r := flush_empty r (by rw [hr]; exact hqueue)
  refine ⟨?_, fun c hc => ?_⟩
  · rw [hpo, Port.flushAt, hflush, hr]
  · rw [hpo, Port.flushAt, hflush, hr]
    exact foldl_mod_five (s.port p).credits (fun c n => n + returnedUnits k c) c hc

section Falls
variable {s : State} {p : Nat}

/-- A write of 0 to `EN` takes a port that carries packets down (R404). -/
theorem portEnWrite_falls (hst : (s.port p).st = .up) :
    ∃ z : State, s.portEnWrite p false = z.portFall p 5 false .down ∧ (∀ q, z.role q = s.role q)
      ∧ ∀ q, ∃ t, z.port q = { s.port q with tried := t } := by
  obtain ⟨z, hz⟩ : ∃ z, z = (s.setFld (0x1000 + 0x40 * p) 0 1 (bit1 false)).onPort p (fun po => { po with tried := none }) := ⟨_, rfl⟩
  obtain ⟨hrole, hport⟩ := portEnWrite_ports s p (bit1 false) (fun po => { po with tried := none }) (fun po => ⟨none, rfl⟩)
  rw [← hz] at hrole hport
  have hzst : (z.port p).st = .up := by obtain ⟨t, ht⟩ := hport p; rw [ht]; exact hst
  obtain ⟨hrole2, hport2⟩ := abortPortTest_ports z p
  refine ⟨z.abortPortTest p, ?_, fun q => (hrole2 q).trans (hrole q), fun q => ?_⟩
  · have hshape : s.portEnWrite p false = if false || (z.port p).st == .down || (z.port p).st == .isolated then z
        else if (z.port p).st == .failed then z.onPort p (fun po => po.idle .down)
        else (z.abortPortTest p).portFall p 5 false .down := by rw [hz]; rfl
    rw [hshape, hzst]
    rfl
  · obtain ⟨t, ht⟩ := hport q
    obtain ⟨t2, ht2⟩ := hport2 q
    exact ⟨t2, by rw [ht2, ht]⟩

/-- A write of 0 to `EN` of a failed port (R404). -/
theorem portEnWrite_failed (hst : (s.port p).st = .failed) :
    ((s.portEnWrite p false).port p).st = .down ∧ (s.portEnWrite p false).pctl p 0 1 = 0 := by
  obtain ⟨z, hz⟩ : ∃ z, z = (s.setFld (0x1000 + 0x40 * p) 0 1 (bit1 false)).onPort p (fun po => { po with tried := none }) := ⟨_, rfl⟩
  have hzst : (z.port p).st = .failed := by rw [hz, State.port_onPort]; exact hst
  have hzctl : z.pctl p 0 1 = 0 := by rw [hz]; exact portEnWrite_pctl s p 0 _ (by decide)
  have hshape : s.portEnWrite p false = z.onPort p (fun po => po.idle .down) := by
    have h : s.portEnWrite p false = if false || (z.port p).st == .down || (z.port p).st == .isolated then z
        else if (z.port p).st == .failed then z.onPort p (fun po => po.idle .down)
        else (z.abortPortTest p).portFall p 5 false .down := by rw [hz]; rfl
    rw [h, hzst]
    rfl
  rw [hshape, State.port_onPort]
  exact ⟨rfl, hzctl⟩

/-- A link that is lost for a cause that counts (R394). -/
theorem linkLoss_falls {c : Nat} (hst : (s.port p).st = .up)
    (hcause : c = 3 ∨ (s.port p).l1 = false ∧ (c = 4 ∨ c = 1 ∧ (s.port p).lastRecv + 1000 ≤ s.now ∨ c = 2 ∧ 8 ≤ (s.port p).flitFails)) :
    s.linkLoss p c = (s.abortPortTest p).portFall p c true .down := by
  have hlinked : (s.port p).linked = true := by rw [Port.linked, hst]; rfl
  rcases hcause with rfl | ⟨hl1, rfl | ⟨rfl, hlate⟩ | ⟨rfl, hfails⟩⟩
  · exact if_pos (by simp [hlinked])
  · exact if_pos (by simp [hlinked, hst, hl1])
  · exact if_pos (by rw [hlinked, hst, hl1, decide_eq_true hlate]; rfl)
  · exact if_pos (by rw [hlinked, hst, hl1, decide_eq_true hfails]; rfl)

end Falls

/-- A base die that does not answer (R419): the transfer is answered as poisoned, and the port retrains. -/
theorem baseDieTimeout_poisons {s : State} {p t uid : Nat} {e : QEntry} (ht : t < 72) (hrole : s.role p = 0) (hst : (s.port p).st = .up)
    (hq : (s.tile t).dma.q = [e]) (huid : e.uid = uid) (hans : e.ans < 2) :
    ((s.baseDieTimeout p t uid).tile t).dma.q = [{ e with ans := 7 }]
    ∧ (s.baseDieTimeout p t uid).port p = (s.port p).retraining s.now (s.reg (0x1000 + 0x40 * p)) := by
  obtain ⟨y, hy⟩ : ∃ y, y = s.onTile t (fun q => q.onDma (fun d => { d with
      q := d.q.map (fun e => if e.uid == uid then e.fail 7 else e) })) := ⟨_, rfl⟩
  have hrun : s.baseDieTimeout p t uid = y.beginRetrain p := by
    have hgo : (s.role p == 0 && (s.port p).st == .up) = true := by rw [hrole, hst]; rfl
    have hwork : s.onWork { OpenTx.posted with tile := t, uid := uid } (fun e => e.fail 7) = y := by
      rw [hy]
      exact if_pos ht
    exact (if_pos hgo).trans (by rw [hwork])
  obtain ⟨hport, _, htiles⟩ := beginRetrain_port y p
  rw [hrun]
  refine ⟨?_, hport.trans (by rw [hy]; rfl)⟩
  rw [tile_of_tiles htiles, hy, State.tile_onTile]
  show (s.tile t).dma.q.map _ = _
  simp [hq, huid, QEntry.fail, Nat.not_le.mpr hans]

/-- The units that a port returns in one packet (R396, R399). -/
theorem returnUnits_sends {s : State} {p : Nat} (hst : (s.port p).st = .up) (hfreed : (s.port p).freed ≠ []) :
    let n := fun c => min 1023 (Tab.get 0 (s.port p).freed c)
    (∀ c, c < 5 → Tab.get 0 ((s.returnUnits p).port p).freed c = Tab.get 0 (s.port p).freed c - n c)
    ∧ (s.returnUnits p).holds p { s.packet 4 1 (s.port p).peerPos (72 + p) with
        addr := n 0 + n 1 * 2 ^ 10 + n 2 * 2 ^ 20 + n 3 * 2 ^ 30 + n 4 * 2 ^ 40, enc := (s.port p).confOn } := by
  intro n
  have hgo : ((s.port p).st == .up && !(s.port p).freed.isEmpty) = true := by
    cases h : (s.port p).freed with
    | nil => exact absurd h hfreed
    | cons x l => rw [hst]; rfl
  obtain ⟨y, hy⟩ : ∃ y, y = s.onPort p (fun po => { po with
    freed := (List.range 5).foldl (fun t c => Tab.mod 0 t c (· - n c)) (s.port p).freed }) := ⟨_, rfl⟩
  have hyp : y.port p = { s.port p with freed := (List.range 5).foldl (fun t c => Tab.mod 0 t c (· - n c)) (s.port p).freed } := by
    rw [hy, State.port_onPort]
  have hrun : s.returnUnits p = y.sendOn p { s.packet 4 1 (s.port p).peerPos (72 + p) with
      addr := n 0 + n 1 * 2 ^ 10 + n 2 * 2 ^ 20 + n 3 * 2 ^ 30 + n 4 * 2 ^ 40 } := by
    rw [hy]
    exact if_pos hgo
  rw [hrun]
  refine ⟨fun c hc => ?_, ?_⟩
  · rw [sendOn_freed, hyp]
    exact foldl_mod_five _ (fun c m => m - n c) c hc
  · have h := sendOn_holds y p { s.packet 4 1 (s.port p).peerPos (72 + p) with
      addr := n 0 + n 1 * 2 ^ 10 + n 2 * 2 ^ 20 + n 3 * 2 ^ 30 + n 4 * 2 ^ 40 }
    rwa [hyp] at h

/-- Settles O35: retraining by `beginRetrain_port`; a fall of a port with another to its die by `portFall_falls`; the packets that it
held by `fallen_repeats` and `fallen_faults`; the rest are the branches of the link's operations. -/
theorem linksRetrainSleepAndFall : Obligations.LinksRetrainSleepAndFall := by
  intro s p hp po backed falls becomes retrains
  have hrun (z : State) : onUnit (isPort p) p z = .next z := onUnit_true hp ..
  have hbegin : ∃ s', Host.Outcome.next (s.beginRetrain p) = (.next s' : Host.Outcome State Fault Refusal) ∧ s'.port p = retrains
      ∧ s'.mem = s.mem ∧ s'.tiles = s.tiles := ⟨_, rfl, beginRetrain_port s p⟩
  obtain ⟨hbport, hbmem, hbtiles⟩ := beginRetrain_port s p
  refine ⟨fun hst => ⟨?_, ?_⟩, fun hst hlim hover => ?_, fun hst hmay => ?_, fun hqueue hun hbacked => ⟨fun hst hlate => ?_, fun hst => ?_⟩,
    ?_, fun hst => ?_, fun hst => ?_, fun hlinked => ⟨?_, fun n => ?_⟩, fun hst hqueue => ⟨fun hl1 hlate => ?_, fun hen hpeer hlate => ?_, fun hl1 => ?_⟩,
    fun hst hfreed => ?_, fun k htake => receive_taken htake _, fun k htake hqueue => ?_, fun tag o ho hre hlate => ?_,
    fun t uid e ht hrole hst hq huid hans => ?_, ?_⟩
  · have h : s.retrain p = (s.beginRetrain p).onPort p (fun po => { po with retrainReq := true }) := by
      unfold State.retrain
      rw [show (s.port p).st = .up from hst]
    refine ⟨_, (hrun _).trans (congrArg Host.Outcome.next h), ?_, hbmem, hbtiles⟩
    rw [State.port_onPort, hbport]
    rfl
  · exact ⟨_, (hrun _).trans (congrArg Host.Outcome.next (if_pos (by rw [show (s.port p).st = .up from hst]; rfl))), hbport, hbmem, hbtiles⟩
  · have hgo : ((s.port p).st == .up && s.pctl p 8 8 != 0 && decide (s.pctl p 8 8 < (s.port p).winReplays)) = true := by
      rw [show (s.port p).st = .up from hst, decide_eq_true hover]
      simp only [beq_self_eq_true, Bool.true_and, Bool.and_true, bne_iff_ne]
      exact Nat.ne_of_gt hlim
    exact ⟨_, (hrun _).trans (congrArg Host.Outcome.next (if_pos hgo)), hbport, hbmem, hbtiles⟩
  · have h : s.retrain p = (s.beginTraining p).onPort p (fun po => { po with retrainReq := true }) := by
      unfold State.retrain
      rw [show (s.port p).st = .isolated from hst]
      exact if_pos hmay
    refine ⟨_, (hrun _).trans (congrArg Host.Outcome.next h), ?_, rfl, rfl⟩
    rw [State.port_onPort, State.beginTraining, State.port_onPort]
  · have hgo : ((s.port p).st == .retraining && decide ((s.port p).trainStart + 500000 ≤ s.now)) = true := by
      rw [show (s.port p).st = .retraining from hst, decide_eq_true hlate]; rfl
    exact ⟨_, (hrun _).trans (congrArg Host.Outcome.next (if_pos hgo)),
      portFall_falls 6 true (by decide) (fun _ => rfl) (fun q => ⟨(s.port q).tried, rfl⟩) hqueue hun (Or.inr hst) hbacked⟩
  · obtain ⟨hrole, hport⟩ := abortPortTest_ports s p
    have hfall (c : Nat) (retry : Bool) {st : PortSt} (hne : st ≠ .up) :=
      portFall_falls c retry hne hrole hport hqueue hun (Or.inl hst) hbacked
    have hloss (c : Nat) (h : c = 3 ∨ po.l1 = false ∧ (c = 4 ∨ c = 1 ∧ po.lastRecv + 1000 ≤ s.now ∨ c = 2 ∧ 8 ≤ po.flitFails)) :
        falls (.linkLoss p c) .down :=
      ⟨_, (hrun _).trans (congrArg Host.Outcome.next (linkLoss_falls hst h)), hfall c true (by decide)⟩
    refine ⟨?_, ?_, hloss 3 (Or.inl rfl), fun hl1 => ⟨fun hlate => hloss 1 (Or.inr ⟨hl1, Or.inr (Or.inl ⟨rfl, hlate⟩)⟩),
      hloss 4 (Or.inr ⟨hl1, Or.inl rfl⟩), fun hfails => hloss 2 (Or.inr ⟨hl1, Or.inr (Or.inr ⟨rfl, hfails⟩)⟩)⟩⟩
    · obtain ⟨z, hz, hrole', hport'⟩ := portEnWrite_falls hst
      exact ⟨_, (hrun _).trans (congrArg Host.Outcome.next hz),
        portFall_falls 5 false (by decide) hrole' hport' hqueue hun (Or.inl hst) hbacked⟩
    · have h : s.portIsolate p = (s.abortPortTest p).portFall p 5 false .isolated := by
        unfold State.portIsolate
        rw [show (s.port p).st = .up from hst]
      exact ⟨_, (hrun _).trans (congrArg Host.Outcome.next h), hfall 5 false (by decide)⟩
  · obtain ⟨z, hz⟩ : ∃ z, z = (s.setFld (0x1000 + 0x40 * p) 0 1 (bit1 true)).onPort p (fun po => po) := ⟨_, rfl⟩
    have h : s.portEnWrite p true = z := by rw [hz]; rfl
    refine ⟨z, (hrun _).trans (congrArg Host.Outcome.next h), fun q => ?_, ?_⟩
    · rw [hz]
      by_cases hq : q = p
      · rw [hq, State.port_onPort]; rfl
      · rw [State.port_onPort_other _ hq]; rfl
    · rw [hz]
      exact portEnWrite_pctl s p 1 _ (by decide)
  · obtain ⟨h1, h2⟩ := portEnWrite_failed hst
    exact ⟨_, hrun _, h1, h2⟩
  · have h : s.portIsolate p = s.onPort p (fun po => po.idle .isolated) := by
      unfold State.portIsolate
      rcases hst with h | h <;> rw [show (s.port p).st = _ from h]
    refine ⟨_, (hrun _).trans (congrArg Host.Outcome.next h), ?_⟩
    rw [State.port_onPort]
    rfl
  · refine ⟨_, (hrun _).trans (congrArg Host.Outcome.next (if_neg (by simp [show (s.port p).linked = true from hlinked]))), ?_⟩
    rw [State.port_onPort]
    exact ⟨rfl, rfl, rfl, rfl⟩
  · refine ⟨_, (hrun _).trans (congrArg Host.Outcome.next (if_pos hlinked)), ?_, rfl, rfl⟩
    rw [State.port_onPort]
  · have hgo : ((s.port p).st == .up && !(s.port p).l1 && (s.port p).queue.isEmpty && decide ((s.port p).lastSent + 500 ≤ s.now)) = true := by
      rw [show (s.port p).st = .up from hst, show (s.port p).l1 = false from hl1, show (s.port p).queue = [] from hqueue, decide_eq_true hlate]
      rfl
    exact ⟨_, (hrun _).trans (congrArg Host.Outcome.next (if_pos hgo)), ((sendOn_mild ..).st p).trans hst, sendOn_holds ..⟩
  · have hgo : ((s.port p).st == .up && s.pctl p 5 1 == 1 && (s.port p).peerL1 && (s.port p).queue.isEmpty
        && decide ((s.port p).lastBusy + 10 ^ 4 ≤ s.now)) = true := by
      rw [show (s.port p).st = .up from hst, show (s.port p).peerL1 = true from hpeer, show (s.port p).queue = [] from hqueue,
        decide_eq_true hlate, hen]
      rfl
    refine ⟨_, (hrun _).trans (congrArg Host.Outcome.next (if_pos hgo)), ?_, rfl, rfl⟩
    rw [State.port_onPort]
  · have hlink : ((s.l1Exit p).port p).link = ({ s.port p with l1 := false } : Port).link := by
      have h : s.l1Exit p = s.onPort p (fun po => { po with l1 := false, lastRecv := s.now }.flushAt s.now) := if_pos hl1
      rw [h, State.port_onPort]
      exact (Port.flushAt_st _ _).2.2.2
    exact ⟨_, hrun _, (congrArg Port.l1 hlink : _), (link_st hlink).trans hst⟩
  · obtain ⟨hfree, hholds⟩ := returnUnits_sends hst hfreed
    exact ⟨_, hrun _, hfree, hholds⟩
  · obtain ⟨z, hz⟩ : ∃ z, z = s.taken p (asType k 4 1) := ⟨_, rfl⟩
    have hzp : (z.port p).queue = [] ∧ (z.port p).unacked = (s.port p).unacked ∧ (z.port p).credits = (s.port p).credits := by
      rw [hz, taken_port]
      exact ⟨hqueue, rfl, rfl⟩
    obtain ⟨hzq, hzu, hzc⟩ := hzp
    obtain ⟨hun, hcred⟩ := creditRet_port (asType k 4 1) hzq
    refine ⟨_, hz ▸ receive_taken htake _, hun.trans hzu, fun c hc => (hcred c hc).trans ?_⟩
    rw [hzc]
    rfl
  · refine ⟨s.setTx tag (if o.answered then none else some { o with resent := false }), congrArg Host.Outcome.next ?_, setTx_get ..⟩
    unfold State.tagExpiry
    rw [ho]
    dsimp only
    rw [if_pos (by rw [hre, decide_eq_true hlate]; rfl)]
  · obtain ⟨hdma, hport⟩ := baseDieTimeout_poisons ht hrole hst hq huid hans
    exact ⟨_, hrun _, hdma, hport⟩
  · intro q k o hst hdie hpeer hqp htwo hiso hseen haddr hsrc htx hcls htype hpa hdues hqueue hun hoff
    obtain ⟨T, hT⟩ := abortPortTest_rest s p
    have hleft := fallen_portsTo (s := { s with tst := T }) hqp htwo
    have hfall : s.linkLoss p 3 = (State.fallen { s with tst := T } p).portPackets p [k] [] true := by
      rw [linkLoss_falls hst (Or.inl rfl), hT]
      exact portFall_packets 3 hoff hst hdie hpeer hleft hiso hseen hqueue hun
    refine ⟨fun hreq hread hfirst => ⟨_, (hrun _).trans (congrArg Host.Outcome.next hfall), ?_⟩,
      fun t e hwr hptype htile ht hq huid hans => ⟨_, (hrun _).trans (congrArg Host.Outcome.next hfall), ?_⟩⟩
    · exact fallen_repeats (s := { s with tst := T }) hqp hleft haddr hsrc htx hcls htype hpa hdues hreq hread hfirst
    · exact fallen_faults (s := { s with tst := T }) hoff hsrc htx hcls htype hpa hdues hwr hptype htile ht hq huid hans

end Sys2Proof.Machine
end

section
/-!
PROOFS. Faults, fencing and core resets, and the commit of a descriptor (spec/17, spec/16 R433, R434).
-/

namespace Sys2Proof.Machine

open Sys2Proof

/-! ### The fault registers while work is stopped (R450, R470) -/

/-- The fault registers but for the reports of poison and the commit logs. -/
def Flt.counts (f : Flt) : Flt := { f with poison := false, poisonCount := 0, logs := [], logLen := [] }

/-- A fold of operations that leave the fault registers alone. -/
theorem foldl_flt {β : Type} (l : List β) (g : State → β → State) (h : ∀ z x, (g z x).flt = z.flt) (s : State) : (l.foldl g s).flt = s.flt := by
  induction l generalizing s with
  | nil => rfl
  | cons x r ih => exact (ih _).trans (h s x)

theorem answerCredit_flt (s : State) (r : CredReq) (ans tgt : Nat) (g : Option Grant) (first : Nat) :
    (s.answerCredit r ans tgt g first).flt = s.flt := by
  simp only [State.answerCredit]
  cases r.port with
  | some x => cases g <;> exact (reply_mild ..).flt
  | none => dsimp only; split <;> rfl

theorem closeWindow_flt (s : State) (t window ans : Nat) : (s.closeWindow t window ans).flt = s.flt :=
  foldl_flt _ _ (fun z r => answerCredit_flt z r _ _ _ _) _

theorem closeWindows_flt (s : State) (t ans : Nat) : (s.closeWindows t ans).flt = s.flt :=
  foldl_flt _ _ (fun z w => closeWindow_flt z t w ans) s

theorem dropHandle_flt (s : State) (t handle : Nat) : (s.dropHandle t handle).flt = s.flt := by
  simp only [State.dropHandle]
  split
  · rfl
  · rw [State.onTile_flt]
    split
    · rfl
    · split
      · rfl
      · exact (request_mild ..).flt

theorem letGo_flt (s : State) (t ans : Nat) : (s.letGo t ans).flt = s.flt := by
  refine (foldl_flt _ _ (fun z h => ?_) _).trans (closeWindows_flt s t ans)
  split
  · rfl
  · exact dropHandle_flt ..

theorem withdraw_flt (s : State) (p : SyncSrc → Bool) (uid : Option Nat) : (s.withdraw p uid).flt = s.flt := by
  refine foldl_flt _ _ (fun z x => ?_) _
  simp only [State.askWithdraw, State.sendSync]
  split
  · exact (request_mild ..).flt
  · rfl

theorem abandonTile_flt (s : State) (t : Nat) : (s.abandonTile t).flt = s.flt := by
  simp only [State.abandonTile, State.syncStop, State.onTile_flt, withdraw_flt, letGo_flt]

theorem sealTile_flt (s : State) (t ans : Nat) : (s.sealTile t ans).flt = s.flt := closeWindows_flt s t ans

/-! ### Settling a stream (R315) -/

theorem writeBack_counts (s : State) (k : Nat) : (s.writeBack k).flt.counts = s.flt.counts := by
  have htable (z : State) (a : Nat) (bs : List Byte) : (z.wrTable a bs).flt.counts = z.flt.counts := by
    simp only [State.wrTable]
    split
    · simp only [State.tableRefuse, State.qmRefuse]
      split
      · rw [State.poisonEvent, (event_mild ..).flt]; rfl
      · rw [State.denied, (event_mild ..).flt]
    · rw [State.wrPkg, (wrPkgAs_mild ..).flt]
  have hring (z : State) (x : Stream) : (z.writeRing x).flt.counts = z.flt.counts := by
    simp only [State.writeRing]
    split
    · exact htable ..
    · rfl
  unfold State.writeBack
  split
  · rfl
  · exact (hring _ _).trans (htable ..)

/-- What settling a stream, deciding a descriptor and stopping work leave: programs and seals of the tiles, the core map, the registers and
the counts of faults. -/
structure State.Stays (s z : State) : Prop where
  seq : ∀ u, (z.tile u).seq = (s.tile u).seq
  sealed : ∀ u, (z.tile u).spad.sealed = (s.tile u).spad.sealed
  cores : z.kw.cores = s.kw.cores
  tileSts : z.kw.tiles = s.kw.tiles
  counts : z.flt.counts = s.flt.counts
  cfg : z.cfg = s.cfg
  time : z.time = s.time

theorem State.Stays.refl (s : State) : s.Stays s := ⟨fun _ => rfl, fun _ => rfl, rfl, rfl, rfl, rfl, rfl⟩

theorem State.Stays.trans {a b c : State} (h : a.Stays b) (k : b.Stays c) : a.Stays c :=
  ⟨fun u => (k.seq u).trans (h.seq u), fun u => (k.sealed u).trans (h.sealed u), k.cores.trans h.cores, k.tileSts.trans h.tileSts,
    k.counts.trans h.counts, k.cfg.trans h.cfg, k.time.trans h.time⟩

theorem State.Stays.foldl {β : Type} (l : List β) (g : State → β → State) (h : ∀ (z : State) x, z.Stays (g z x)) (s : State) : s.Stays (l.foldl g s) := by
  induction l generalizing s with
  | nil => exact .refl s
  | cons x r ih => exact (h s x).trans (ih _)

theorem Quiet.stays {s z : State} (h : Quiet s z) (hflt : z.flt.counts = s.flt.counts) : s.Stays z :=
  ⟨h.seq, fun u => (h.owner u).2, h.cores, h.tileSts, hflt, h.cfg, h.time⟩

/-- A change of descriptors and streams only. -/
theorem stays_qm (s : State) (q : Qm) : s.Stays { s with qm := q } := ⟨fun _ => rfl, fun _ => rfl, rfl, rfl, rfl, rfl, rfl⟩

theorem onDesc_stays (s : State) (uid : Nat) (f : Desc → Desc) : s.Stays (s.onDesc uid f) := stays_qm s _

theorem onStream_stays (s : State) (k : Nat) (f : Stream → Stream) : s.Stays (s.onStream k f) := by
  obtain ⟨S, hS⟩ := onStream_rest s k f
  rw [hS]
  exact stays_qm s _

theorem writeBack_stays (s : State) (k : Nat) : s.Stays (s.writeBack k) := (writeBack_quiet s k).stays (writeBack_counts s k)

theorem rewind_stays (s : State) (k : Nat) : s.Stays (s.rewind k) := by
  unfold State.rewind
  split
  · exact .refl s
  · exact (stays_qm s _).trans (onStream_stays ..)

theorem startRejected_stays (s : State) (k : Nat) : s.Stays (s.startRejected k) := by
  unfold State.startRejected
  split
  · split
    · exact onDesc_stays ..
    · exact .refl s
  · exact .refl s

theorem settle_stays (s : State) (k : Nat) : s.Stays (s.settle k) := by
  unfold State.settle
  split
  · exact .refl s
  · dsimp only
    split
    · split
      · exact ((rewind_stays s k).trans (onStream_stays ..)).trans (writeBack_stays ..)
      · exact rewind_stays s k
    · split
      · split
        · exact startRejected_stays s k
        · exact (((startRejected_stays s k).trans (rewind_stays ..)).trans (onStream_stays ..)).trans (writeBack_stays ..)
      · split
        · exact .refl s
        · split
          · exact .refl s
          · split
            · exact onStream_stays ..
            · exact (onStream_stays ..).trans (writeBack_stays ..)

/-- A descriptor of a number that is in progress and satisfies a condition on its outcome. -/
def State.hasOutcome (s : State) (uid : Nat) (P : Option (Nat × Nat × Nat) → Prop) : Prop :=
  ∃ d ∈ s.qm.descs, d.uid = uid ∧ d.started = true ∧ P d.outcome

section HasOutcome
variable {s : State} {uid : Nat} {P : Option (Nat × Nat × Nat) → Prop}

theorem hasOutcome_of_descs {z : State} (h : s.hasOutcome uid P) (hd : z.qm.descs = s.qm.descs) : z.hasOutcome uid P := by
  rw [State.hasOutcome, hd]
  exact h

theorem hasOutcome_bare {z : State} (h : s.hasOutcome uid P) (hd : z.qm.descs.map Desc.bare = s.qm.descs.map Desc.bare) : z.hasOutcome uid P := by
  obtain ⟨d, hmem, huid, hst, hP⟩ := h
  obtain ⟨d', hmem', hbare⟩ := bare_mem hd hmem
  refine ⟨d', hmem', (congrArg Desc.uid hbare : _).trans huid, (congrArg Desc.started hbare : _).trans hst, ?_⟩
  have ho : d'.outcome = d.outcome := (congrArg Desc.outcome hbare : _)
  rwa [ho]

/-- A change of a descriptor that keeps it in progress. -/
theorem hasOutcome_onDesc (h : s.hasOutcome uid P) (u : Nat) (f : Desc → Desc)
    (hf : ∀ d, d.started = true → P d.outcome → (f d).uid = d.uid ∧ (f d).started = true ∧ P (f d).outcome) :
    (s.onDesc u f).hasOutcome uid P := by
  obtain ⟨d, hmem, huid, hst, hP⟩ := h
  refine ⟨_, List.mem_map_of_mem hmem, ?_⟩
  split
  · obtain ⟨h1, h2, h3⟩ := hf d hst hP
    exact ⟨h1.trans huid, h2, h3⟩
  · exact ⟨huid, hst, hP⟩

theorem hasOutcome_rewind (h : s.hasOutcome uid P) (k : Nat) : (s.rewind k).hasOutcome uid P := by
  unfold State.rewind
  split
  · exact h
  next d ds _ =>
    obtain ⟨S, hS⟩ := onStream_rest ({ s with qm := { s.qm with descs := s.qm.descs.filter (fun x => !(x.stream == k && !x.started)) } } : State) k
      (fun x => { x with head := d.idx, nextSeq := (x.nextSeq + 2 ^ 32 - (ds.length + 1)) % 2 ^ 32 })
    rw [hS]
    obtain ⟨d', hmem, huid, hst, hP⟩ := h
    exact ⟨d', List.mem_filter.mpr ⟨hmem, by simp [hst]⟩, huid, hst, hP⟩

theorem hasOutcome_onStream (h : s.hasOutcome uid P) (k : Nat) (f : Stream → Stream) : (s.onStream k f).hasOutcome uid P := by
  obtain ⟨S, hS⟩ := onStream_rest s k f
  rw [hS]
  exact h

theorem hasOutcome_startRejected (h : s.hasOutcome uid P) (k : Nat) : (s.startRejected k).hasOutcome uid P := by
  unfold State.startRejected
  split
  · split
    · exact hasOutcome_onDesc h _ _ (fun d _ hP => ⟨rfl, rfl, hP⟩)
    · exact h
  · exact h

theorem hasOutcome_writeBack (h : s.hasOutcome uid P) (k : Nat) : (s.writeBack k).hasOutcome uid P :=
  hasOutcome_bare h (writeBack_quiet s k).descs

/-- Settling a stream keeps the descriptors that are in progress (R315). -/
theorem hasOutcome_settle (h : s.hasOutcome uid P) (k : Nat) : (s.settle k).hasOutcome uid P := by
  unfold State.settle
  split
  · exact h
  · dsimp only
    split
    · split
      · exact hasOutcome_writeBack (hasOutcome_onStream (hasOutcome_rewind h k) ..) k
      · exact hasOutcome_rewind h k
    · split
      · split
        · exact hasOutcome_startRejected h k
        · exact hasOutcome_writeBack (hasOutcome_onStream (hasOutcome_rewind (hasOutcome_startRejected h k) k) ..) k
      · split
        · exact h
        · split
          · exact h
          · split
            · exact hasOutcome_onStream h ..
            · exact hasOutcome_writeBack (hasOutcome_onStream h ..) k

end HasOutcome

/-! ### Fencing a tile (R352, R355, R450) -/

/-- A fold in which one element brings about what no element undoes. -/
theorem foldl_reaches {σ β : Type} {P Q : σ → Prop} {g : σ → β → σ} {x : β} (hkeep : ∀ z y, y ≠ x → P z → P (g z y))
    (hhit : ∀ z, P z → Q (g z x)) (hstay : ∀ z y, Q z → Q (g z y)) {l : List β} (hx : x ∈ l) {s : σ} (hs : P s) : Q (l.foldl g s) := by
  have hdone (l : List β) : ∀ z, Q z → Q (l.foldl g z) := by
    induction l with
    | nil => exact fun z h => h
    | cons y l ih => exact fun z h => ih _ (hstay z y h)
  induction l generalizing s with
  | nil => exact absurd hx (List.not_mem_nil)
  | cons y l ih =>
    rw [List.foldl_cons]
    by_cases h : y = x
    · rw [h]
      exact hdone l _ (hhit s hs)
    · exact ih ((List.mem_cons.mp hx).resolve_left (Ne.symm h)) (hkeep s y h hs)

/-- The spare nearest to a tile is one of the spares (R355). -/
theorem nearestSpare_mem {t sp : Nat} {l : List Nat} (h : nearestSpare t l = some sp) : sp ∈ l := by
  induction l generalizing sp with
  | nil => exact absurd h (by simp [nearestSpare])
  | cons x xs ih =>
    unfold nearestSpare at h
    split at h
    next => exact Option.some.inj h ▸ List.mem_cons_self
    next y hy =>
      split at h
      · exact Option.some.inj h ▸ List.mem_cons_of_mem _ (ih hy)
      · exact Option.some.inj h ▸ List.mem_cons_self

/-- What admitting a spare leaves: tiles, descriptors, faults, and the states of tiles but for a spare that is being admitted (R355). -/
structure State.Admits (s z : State) : Prop where
  tiles : z.tiles = s.tiles
  descs : z.qm.descs = s.qm.descs
  flt : z.flt = s.flt
  states : ∀ u, z.tileSt u = s.tileSt u ∨ s.tileSt u = .spare ∧ z.tileSt u = .admitting

theorem absentEvent_admits {s z : State} (h : s.Admits z) (c o : Nat) : s.Admits (z.absentEvent c o) := by
  have hm : Mild z (z.absentEvent c o) := event_mild ..
  exact ⟨hm.tiles.trans h.tiles, hm.descs.trans h.descs, hm.flt.trans h.flt, fun u => by
    rw [State.tileSt, hm.tileSts]; exact h.states u⟩

theorem onKw_admits (s : State) (f : Kw → Kw) (hf : (f s.kw).tiles = s.kw.tiles) : s.Admits (s.onKw f) :=
  ⟨rfl, rfl, rfl, fun u => Or.inl (congrArg (Tab.get TileSt.off · u) hf)⟩

theorem admitFor_admits (s : State) (core old : Nat) : s.Admits (s.admitFor core old) := by
  have hpick (sp : Nat) (h : (if old == 127 then s.spares.head? else nearestSpare old s.spares) = some sp) : s.tileSt sp = .spare := by
    have hmem : sp ∈ s.spares := by
      split at h
      · exact List.mem_of_mem_head? h
      · exact nearestSpare_mem h
    have hspare := (List.mem_filter.mp hmem).2
    simp only [Bool.and_eq_true, beq_iff_eq] at hspare
    exact hspare.1
  unfold State.admitFor
  dsimp only
  split
  next sp hsp =>
    refine ⟨rfl, rfl, rfl, fun u => ?_⟩
    have hset : _ = if u = sp then TileSt.admitting else s.tileSt u := tileSt_setTileSt s sp u .admitting
    by_cases h : u = sp
    · exact Or.inr ⟨h ▸ hpick sp hsp, hset.trans (if_pos h)⟩
    · exact Or.inl (hset.trans (if_neg h))
  next =>
    split
    · exact onKw_admits s _ rfl
    · exact absentEvent_admits (onKw_admits s _ rfl) ..

/-- Fencing in the core map: the tile is `FENCED`, and no other tile but a spare changes its state (R352, R355). -/
theorem mapFence_facts (s : State) (t : Nat) : (s.mapFence t).tiles = s.tiles ∧ (s.mapFence t).qm.descs = s.qm.descs
    ∧ (s.mapFence t).flt = s.flt ∧ (s.mapFence t).tileSt t = .fenced
    ∧ ∀ u, u ≠ t → (s.mapFence t).tileSt u = s.tileSt u ∨ s.tileSt u = .spare ∧ (s.mapFence t).tileSt u = .admitting := by
  have hset (u : Nat) : (s.setTileSt t .fenced).tileSt u = if u = t then .fenced else s.tileSt u := tileSt_setTileSt ..
  have hself : (s.setTileSt t .fenced).tileSt t = .fenced := (hset t).trans (if_pos rfl)
  suffices h : (s.setTileSt t .fenced).Admits (s.mapFence t) by
    refine ⟨h.tiles, h.descs, h.flt, ?_, fun u hu => ?_⟩
    · rcases h.states t with h' | ⟨h', _⟩
      · exact h'.trans hself
      · exact absurd (hself.symm.trans h') (by decide)
    · have hu' : (s.setTileSt t .fenced).tileSt u = s.tileSt u := (hset u).trans (if_neg hu)
      rw [← hu']
      exact h.states u
  unfold State.mapFence
  dsimp only
  split
  · exact ⟨rfl, rfl, rfl, fun _ => Or.inl rfl⟩
  · split
    · exact admitFor_admits ..
    · exact absentEvent_admits (onKw_admits _ _ rfl) ..

/-- An abandoned tile leaves the core map alone. -/
theorem abandonTile_kw (s : State) (t : Nat) :
    (s.abandonTile t).kw.tiles = s.kw.tiles ∧ (s.abandonTile t).kw.cores = s.kw.cores := by
  simp only [State.abandonTile]
  obtain ⟨z, hz⟩ : ∃ z, z = s.onTile t (fun q => q.abandon.onSeq (fun z => { z with phase := .discarded, halted := false })) := ⟨_, rfl⟩
  have h := (letGo_quiet z t 2).trans (syncStop_quiet _ t)
  have hk : z.kw = s.kw := by rw [hz]; rfl
  rw [← hz, h.tileSts, h.cores, hk]
  exact ⟨rfl, rfl⟩

/-- An abandoned program leaves no trace (R61). -/
theorem abandonTile_phase (s : State) (t : Nat) : ((s.abandonTile t).tile t).seq.phase = .discarded := by
  simp only [State.abandonTile]
  obtain ⟨z, hz⟩ : ∃ z, z = s.onTile t (fun q => q.abandon.onSeq (fun z => { z with phase := .discarded, halted := false })) := ⟨_, rfl⟩
  have h := ((letGo_quiet z t 2).trans (syncStop_quiet _ t)).seq t
  rw [← hz, h, hz, State.tile_onTile]
  rfl

/-- What fencing a tile does: its program is discarded, its slots are sealed, and it is `FENCED` (R255, R352, R450). -/
theorem fenceTile_facts (s : State) (t : Nat) : ((s.fenceTile t).tile t).seq.phase = .discarded ∧ ((s.fenceTile t).tile t).spad.sealed = true
    ∧ (s.fenceTile t).qm.descs.map Desc.bare = s.qm.descs.map Desc.bare ∧ (s.fenceTile t).flt = s.flt ∧ (s.fenceTile t).tileSt t = .fenced
    ∧ ∀ u, u ≠ t → (s.fenceTile t).tileSt u = s.tileSt u ∨ s.tileSt u = .spare ∧ (s.fenceTile t).tileSt u = .admitting := by
  obtain ⟨a, ha⟩ : ∃ a, a = (s.closeWindows t 5).abandonTile t := ⟨_, rfl⟩
  obtain ⟨b, hb⟩ : ∃ b, b = a.sealTile t 5 := ⟨_, rfl⟩
  have hclose := closeWindows_quiet s t 5
  have hseal := closeWindows_quiet a t 5
  have hkw : b.kw.tiles = s.kw.tiles := by
    rw [hb]
    exact hseal.tileSts.trans (ha ▸ (abandonTile_kw (s.closeWindows t 5) t).1.trans hclose.tileSts)
  have hflt : b.flt = s.flt := by rw [hb, sealTile_flt, ha, abandonTile_flt, closeWindows_flt]
  have hdescs : b.qm.descs.map Desc.bare = s.qm.descs.map Desc.bare := by
    rw [hb]
    exact hseal.descs.trans (ha ▸ (abandonTile_descs (s.closeWindows t 5) t).1.trans hclose.descs)
  have hphase : (b.tile t).seq.phase = .discarded := by
    have h : (b.tile t).seq = ((a.closeWindows t 5).tile t).seq := by
      rw [hb, State.sealTile, State.tile_onTile]
      rfl
    rw [h, hseal.seq, ha]
    exact abandonTile_phase ..
  have hsealed : (b.tile t).spad.sealed = true := by
    rw [hb, State.sealTile, State.tile_onTile]
    rfl
  obtain ⟨htiles, hdescs', hflt', hst, hother⟩ := mapFence_facts b t
  have hbst (u : Nat) : b.tileSt u = s.tileSt u := by rw [State.tileSt, hkw, ← State.tileSt]
  have hfence : s.fenceTile t = b.mapFence t := by rw [hb, ha]; rfl
  rw [hfence, tile_of_tiles htiles]
  exact ⟨hphase, hsealed, by rw [hdescs']; exact hdescs, hflt'.trans hflt, hst, fun u hu => by
    rw [← hbst]; exact hother u hu⟩

/-! ### Descriptors that a fence hits (R450, R459) -/

/-- The outcome of a core fault on a tile (R450). -/
def coreFaultOutcome (t : Nat) : Nat × Nat × Nat := (0x16, 0x1B, t)

theorem fenceDesc_stays (s : State) (t : Nat) (d : Desc) : s.Stays (s.fenceDesc t d) := by
  unfold State.fenceDesc
  dsimp only
  split
  · exact (((stays_qm s _).trans (onDesc_stays ..)).trans (settle_stays ..)).trans (onDesc_stays ..)
  · exact onDesc_stays ..

section Hits
variable {s : State} {t uid : Nat}

/-- A descriptor without an outcome takes that of the core fault, and one that has it keeps it. -/
theorem hitDesc_outcome {P : Option (Nat × Nat × Nat) → Prop} (h : s.hasOutcome uid P) (hnone : P none → P (some (coreFaultOutcome t))) (u : Nat) :
    (s.hitDesc u causeCoreFault t).hasOutcome uid P := by
  refine hasOutcome_onDesc h u _ (fun d hst hP => ?_)
  split
  · exact ⟨rfl, hst, hP⟩
  next ho =>
    have ho' : d.outcome = none := by simpa using ho
    rw [ho'] at hP
    exact ⟨rfl, hst, hnone hP⟩

/-- The state in which a fence decides a descriptor: a pre-empted one is pre-empted no longer (R315, R459). -/
theorem fenceDesc_shape (s : State) (t : Nat) (d : Desc) : ∃ z : State, s.fenceDesc t d = z.hitDesc d.uid causeCoreFault t
    ∧ ∀ (uid : Nat) (P : Option (Nat × Nat × Nat) → Prop), s.hasOutcome uid P → z.hasOutcome uid P := by
  unfold State.fenceDesc
  dsimp only
  split
  · refine ⟨_, rfl, fun uid P h => hasOutcome_settle (hasOutcome_onDesc (s := s.dropFrames d) h _ _ ?_) _⟩
    exact fun _ _ hP => ⟨rfl, rfl, hP⟩
  · exact ⟨s, rfl, fun _ _ h => h⟩

/-- A fence of a tile gives each descriptor that it hits, and that is undecided, the outcome of a core fault. -/
theorem fenceHits_outcome {l : List Desc} {d : Desc} (hmem : d ∈ l) (h : s.hasOutcome d.uid (fun o => o = none ∨ o = some (coreFaultOutcome t))) :
    (l.foldl (fun s d => s.fenceDesc t d) s).hasOutcome d.uid (fun o => o = some (coreFaultOutcome t)) := by
  refine foldl_reaches (P := fun z : State => z.hasOutcome d.uid (fun o => o = none ∨ o = some (coreFaultOutcome t)))
    (Q := fun z : State => z.hasOutcome d.uid (fun o => o = some (coreFaultOutcome t))) (g := fun s d => s.fenceDesc t d) (fun z y _ hz => ?_) (fun z hz => ?_) (fun z y hz => ?_) hmem h
  · obtain ⟨x, hx, hkeep⟩ := fenceDesc_shape z t y
    rw [hx]
    exact hitDesc_outcome (hkeep _ _ hz) (fun _ => Or.inr rfl) _
  · obtain ⟨x, hx, hkeep⟩ := fenceDesc_shape z t d
    rw [hx]
    obtain ⟨e, hmem, huid, hst, ho⟩ := hkeep _ _ hz
    refine ⟨_, List.mem_map_of_mem hmem, ?_⟩
    rw [if_pos (by simpa using huid)]
    dsimp only
    rcases ho with ho | ho
    · rw [if_neg (by simp [ho])]
      exact ⟨huid, hst, rfl⟩
    · rw [if_pos (by simp [ho])]
      exact ⟨huid, hst, ho⟩
  · obtain ⟨x, hx, hkeep⟩ := fenceDesc_shape z t y
    rw [hx]
    exact hitDesc_outcome (hkeep _ _ hz) (fun h => nomatch h) _

end Hits

/-- What a core fault of a tile in service does (R450). -/
theorem coreFault_facts {s : State} {t : Nat} (src : Nat) (hst : s.tileSt t = .inService) :
    (s.coreFault t src).tileSt t = .fenced ∧ (s.coreFault t src).flt.counts = { s.flt.counts with
      core := true, lastTile := t, coreCount := satAdd s.flt.coreCount 1 }
    ∧ ((s.coreFault t src).tile t).seq.phase = .discarded ∧ ((s.coreFault t src).tile t).spad.sealed = true
    ∧ (∀ u, u ≠ t → (s.coreFault t src).tileSt u = s.tileSt u ∨ s.tileSt u = .spare ∧ (s.coreFault t src).tileSt u = .admitting)
    ∧ ∀ d ∈ s.fenceHits t, d.started = true → d.outcome = none →
      (s.coreFault t src).hasOutcome d.uid (fun o => o = some (coreFaultOutcome t)) := by
  obtain ⟨a, ha⟩ : ∃ a, a = (s.fenceHits t).foldl (fun s d => s.fenceDesc t d) s := ⟨_, rfl⟩
  have hstays : s.Stays a := ha ▸ State.Stays.foldl _ _ (fun z d => fenceDesc_stays z t d) s
  obtain ⟨y, hy⟩ : ∃ y, y = a.fenceTile t := ⟨_, rfl⟩
  obtain ⟨hphase, hsealed, hdescs, hflt, hfenced, hother⟩ := fenceTile_facts a t
  rw [← hy] at hphase hsealed hdescs hflt hfenced hother
  obtain ⟨b, hb⟩ : ∃ b, b = y.onFlt (fun f => { f with core := true, lastTile := t, coreCount := satAdd f.coreCount 1 }) := ⟨_, rfl⟩
  have hgo : ¬(s.tileSt t != .inService) = true := by simp [hst]
  obtain ⟨e, he⟩ : ∃ e, s.coreFault t src = b.event e := ⟨_, (if_neg hgo).trans (by rw [hb, hy, ha])⟩
  have hm : Mild b (b.event e) := event_mild ..
  have hbst (u : Nat) : (b.event e).tileSt u = y.tileSt u := by rw [State.tileSt, hm.tileSts, hb]; rfl
  have hast (u : Nat) : a.tileSt u = s.tileSt u := by rw [State.tileSt, hstays.tileSts, ← State.tileSt]
  have hbt : (b.event e).tile t = y.tile t := by rw [tile_of_tiles hm.tiles, hb]; rfl
  have hcount : a.flt.coreCount = s.flt.coreCount := (congrArg Flt.coreCount hstays.counts : _)
  rw [he]
  refine ⟨(hbst t).trans hfenced, ?_, hbt ▸ hphase, hbt ▸ hsealed, fun u hu => ?_, fun d hd hstart hnone => ?_⟩
  · rw [hm.flt, hb]
    show ({ y.flt with core := true, lastTile := t, coreCount := satAdd y.flt.coreCount 1 } : Flt).counts = _
    rw [hflt, ← hstays.counts, hcount]
    rfl
  · rw [hbst, ← hast]
    exact hother u hu
  · have h : a.hasOutcome d.uid (fun o => o = some (coreFaultOutcome t)) :=
      ha ▸ fenceHits_outcome hd ⟨d, (List.mem_filter.mp hd).1, rfl, hstart, Or.inl hnone⟩
    refine hasOutcome_of_descs (s := b) ?_ hm.descs
    rw [hb]
    exact hasOutcome_of_descs (hasOutcome_bare h hdescs) rfl

/-! ### Masks of tiles (R433, R470) -/

/-- What a fence mask does to one tile. -/
theorem fenceStep_facts (s : State) (u : Nat) :
    let z := if s.tileSt u == .inService then s.coreFault u 7 else s.fenceErr
    (s.flt.fenceErr = true → z.flt.fenceErr = true) ∧ (s.tileSt u ≠ .inService → z.flt.fenceErr = true)
    ∧ (s.tileSt u = .inService → z.tileSt u = .fenced)
    ∧ ∀ t, (t ≠ u ∨ s.tileSt u ≠ .inService) → z.tileSt t = s.tileSt t ∨ s.tileSt t = .spare ∧ z.tileSt t = .admitting := by
  intro z
  by_cases h : s.tileSt u = .inService
  · obtain ⟨hfenced, hcounts, _, _, hother, _⟩ := coreFault_facts 7 h
    have hz : z = s.coreFault u 7 := if_pos (by simp [h])
    rw [hz]
    refine ⟨fun he => ?_, fun hn => absurd h hn, fun _ => hfenced, fun t ht => hother t (ht.resolve_right (fun hn => hn h))⟩
    exact (congrArg Flt.fenceErr hcounts : _).trans he
  · have hz : z = s.fenceErr := if_neg (by simpa using h)
    rw [hz]
    exact ⟨fun _ => rfl, fun _ => rfl, fun h' => absurd h' h, fun _ _ => Or.inl rfl⟩

section Masks
variable {s : State} {t : Nat} (w : Nat) (v : Word)

/-- A tile in service that a fence mask names is fenced (R470). -/
theorem fenceMask_fences (ht : t ∈ maskTiles w v) (hst : s.tileSt t = .inService) : (s.fenceMask w v).tileSt t = .fenced := by
  refine foldl_reaches (P := fun z : State => z.tileSt t = .inService) (Q := fun z : State => z.tileSt t = .fenced)
    (g := fun z u => if z.tileSt u == .inService then z.coreFault u 7 else z.fenceErr) (fun z u hne hz => ?_) (fun z hz => ?_)
    (fun z u hz => ?_) ht hst
  · obtain ⟨_, _, _, hother⟩ := fenceStep_facts z u
    rcases hother t (Or.inl (Ne.symm hne)) with h | ⟨h, _⟩
    · exact h.trans hz
    · exact absurd (hz.symm.trans h) (by decide)
  · exact (fenceStep_facts z t).2.2.1 hz
  · obtain ⟨_, _, _, hother⟩ := fenceStep_facts z u
    have hside : t ≠ u ∨ z.tileSt u ≠ .inService := by
      by_cases h : t = u
      · exact Or.inr (by rw [← h, hz]; decide)
      · exact Or.inl h
    rcases hother t hside with h | ⟨h, _⟩
    · exact h.trans hz
    · exact absurd (hz.symm.trans h) (by decide)

/-- A tile in another state that a fence mask names sets the error bit (R470). -/
theorem fenceMask_errs (ht : t ∈ maskTiles w v) (hst : s.tileSt t ≠ .inService) : (s.fenceMask w v).flt.fenceErr = true := by
  refine foldl_reaches (P := fun z : State => z.tileSt t ≠ .inService) (Q := fun z : State => z.flt.fenceErr = true)
    (g := fun z u => if z.tileSt u == .inService then z.coreFault u 7 else z.fenceErr) (fun z u hne hz => ?_) (fun z hz => ?_)
    (fun z u hz => ?_) ht hst
  · obtain ⟨_, _, _, hother⟩ := fenceStep_facts z u
    rcases hother t (Or.inl (Ne.symm hne)) with h | ⟨_, h⟩
    · rw [h]; exact hz
    · rw [h]; decide
  · exact (fenceStep_facts z t).2.1 hz
  · exact (fenceStep_facts z u).1 hz

end Masks

/-- A count that stays at its maximum. -/
theorem satAdd_one (n : Nat) : satAdd n 1 = min (n + 1) (2 ^ 32 - 1) := by
  unfold satAdd
  split <;> omega

/-- A bit that is set in a mask stays set when bits are added. -/
theorem testBit_or_self (n b : Nat) : (n ||| 2 ^ b).testBit b = true := by simp

theorem testBit_or_other {n b c : Nat} (h : b ≠ c) : (n ||| 2 ^ c).testBit b = n.testBit b := by
  simp [Nat.testBit_or, Ne.symm h]

/-- Beginning a core reset marks the tile (R430, R434). -/
theorem beginCrst_facts (s : State) (t why : Nat) : (s.beginCrst t why).kw.tiles = s.kw.tiles ∧ (s.beginCrst t why).flt = s.flt
    ∧ (s.beginCrst t why).mgmt = { s.mgmt with crst := s.mgmt.crst ||| 2 ^ t } := by
  have hm : Mild ({ s with mgmt := { s.mgmt with crst := s.mgmt.crst ||| 2 ^ t } } : State) (s.beginCrst t why) := event_mild ..
  exact ⟨hm.tileSts, hm.flt, hm.mgmt⟩

/-- What a release does to one tile (R470). -/
def State.releaseTile (s : State) (t : Nat) : State :=
  if s.tileSt t != .fenced then s.fenceErr
  else if s.mgmt.releasing.testBit t then s
  else
    let s : State := if s.mgmt.crst.testBit t then s else s.beginCrst t 2
    { s with mgmt := { s.mgmt with releasing := s.mgmt.releasing ||| 2 ^ t } }

theorem releaseTile_facts (s : State) (t : Nat) : (s.releaseTile t).kw.tiles = s.kw.tiles
    ∧ (s.flt.fenceErr = true → (s.releaseTile t).flt.fenceErr = true) ∧ (s.tileSt t ≠ .fenced → (s.releaseTile t).flt.fenceErr = true)
    ∧ (∀ u, s.mgmt.crst.testBit u = true → (s.releaseTile t).mgmt.crst.testBit u = true)
    ∧ (∀ u, s.mgmt.releasing.testBit u = true → (s.releaseTile t).mgmt.releasing.testBit u = true)
    ∧ (∀ u, u ≠ t → (s.releaseTile t).mgmt.releasing.testBit u = s.mgmt.releasing.testBit u)
    ∧ (s.tileSt t = .fenced → s.mgmt.releasing.testBit t = false →
      (s.releaseTile t).mgmt.crst.testBit t = true ∧ (s.releaseTile t).mgmt.releasing.testBit t = true) := by
  by_cases hst : s.tileSt t = .fenced
  · by_cases hrel : s.mgmt.releasing.testBit t = true
    · have h : s.releaseTile t = s := (if_neg (by simp [hst])).trans (if_pos hrel)
      rw [h]
      exact ⟨rfl, id, fun hn => absurd hst hn, fun _ => id, fun _ => id, fun _ _ => rfl, fun _ h0 => absurd hrel (by simp [h0])⟩
    · obtain ⟨y, hy⟩ : ∃ y, y = (if s.mgmt.crst.testBit t then s else s.beginCrst t 2) := ⟨_, rfl⟩
      have h : s.releaseTile t = { y with mgmt := { y.mgmt with releasing := y.mgmt.releasing ||| 2 ^ t } } := by
        rw [hy]
        exact (if_neg (by simp [hst])).trans (if_neg hrel)
      have hfacts : y.kw.tiles = s.kw.tiles ∧ y.flt = s.flt ∧ y.mgmt.releasing = s.mgmt.releasing ∧ y.mgmt.crst.testBit t = true
          ∧ ∀ u, s.mgmt.crst.testBit u = true → y.mgmt.crst.testBit u = true := by
        rw [hy]
        split
        next hc => exact ⟨rfl, rfl, rfl, hc, fun _ => id⟩
        next =>
          obtain ⟨hk, hf, hm⟩ := beginCrst_facts s t 2
          rw [hm]
          refine ⟨hk, hf, rfl, testBit_or_self .., fun u hu => ?_⟩
          show (s.mgmt.crst ||| 2 ^ t).testBit u = true
          rw [Nat.testBit_or, hu]
          rfl
      obtain ⟨hk, hf, hr, hc, hcs⟩ := hfacts
      rw [h]
      refine ⟨hk, fun he => by rw [← hf] at he; exact he, fun hn => absurd hst hn, hcs, fun u hu => ?_, fun u hu => ?_, fun _ _ => ⟨hc, testBit_or_self ..⟩⟩
      · show (y.mgmt.releasing ||| 2 ^ t).testBit u = true
        rw [Nat.testBit_or, hr, hu]
        rfl
      · show (y.mgmt.releasing ||| 2 ^ t).testBit u = _
        rw [hr]
        exact testBit_or_other hu
  · have h : s.releaseTile t = s.fenceErr := if_pos (by simpa using hst)
    rw [h]
    exact ⟨rfl, fun _ => rfl, fun _ => rfl, fun _ => id, fun _ => id, fun _ _ => rfl, fun h' => absurd h' hst⟩

section Releases
variable {s : State} {t : Nat} (w : Nat) (v : Word)

theorem fenceRelease_tiles : (s.fenceRelease w v).kw.tiles = s.kw.tiles :=
  List.foldlRecOn (maskTiles w v) State.releaseTile (motive := fun z : State => z.kw.tiles = s.kw.tiles) rfl
    (fun z hz u _ => (releaseTile_facts z u).1.trans hz)

/-- The release of a fenced tile begins a core reset (R470). -/
theorem fenceRelease_resets (ht : t ∈ maskTiles w v) (hst : s.tileSt t = .fenced) (hrel : s.mgmt.releasing.testBit t = false) :
    (s.fenceRelease w v).mgmt.crst.testBit t = true ∧ (s.fenceRelease w v).mgmt.releasing.testBit t = true := by
  refine foldl_reaches (P := fun z : State => z.tileSt t = .fenced ∧ z.mgmt.releasing.testBit t = false)
    (Q := fun z : State => z.mgmt.crst.testBit t = true ∧ z.mgmt.releasing.testBit t = true)
    (g := State.releaseTile) (fun z u hne hz => ?_) (fun z hz => ?_) (fun z u hz => ?_) ht ⟨hst, hrel⟩
  · obtain ⟨hk, _, _, _, _, hother, _⟩ := releaseTile_facts z u
    exact ⟨(congrArg (Tab.get TileSt.off · t) hk : _).trans hz.1, (hother t (Ne.symm hne)).trans hz.2⟩
  · exact (releaseTile_facts z t).2.2.2.2.2.2 hz.1 hz.2
  · obtain ⟨_, _, _, hcrst, hreleasing, _⟩ := releaseTile_facts z u
    exact ⟨hcrst t hz.1, hreleasing t hz.2⟩

theorem fenceRelease_errs (ht : t ∈ maskTiles w v) (hst : s.tileSt t ≠ .fenced) : (s.fenceRelease w v).flt.fenceErr = true := by
  refine foldl_reaches (P := fun z : State => z.tileSt t ≠ .fenced) (Q := fun z : State => z.flt.fenceErr = true)
    (g := State.releaseTile) (fun z u _ hz => ?_) (fun z hz => ?_) (fun z u hz => ?_) ht hst
  · rw [show (z.releaseTile u).tileSt t = z.tileSt t from congrArg (Tab.get TileSt.off · t) (releaseTile_facts z u).1]
    exact hz
  · exact (releaseTile_facts z t).2.2.1 hz
  · exact (releaseTile_facts z u).2.1 hz

end Releases

/-- What a core reset does to one tile of a mask (R433). -/
def State.resetTile (s : State) (t : Nat) : State :=
  if s.tileSt t == .inService || s.tileSt t == .admitting then { s with mgmt := { s.mgmt with crstErr := true } }
  else if s.mgmt.crst.testBit t then s else s.beginCrst t 1

theorem coreResetMask_eq (s : State) (w : Nat) (v : Word) : s.coreResetMask w v = (maskTiles w v).foldl State.resetTile s := by
  unfold State.coreResetMask
  congr 1
  funext z u
  unfold State.resetTile
  split
  next h => rw [h]; rfl
  next h => rw [h]; rfl
  next h1 h2 => exact (if_neg (by simpa using ⟨h1, h2⟩)).symm

theorem resetTile_facts (s : State) (t : Nat) : (s.resetTile t).kw.tiles = s.kw.tiles
    ∧ (s.mgmt.crstErr = true → (s.resetTile t).mgmt.crstErr = true)
    ∧ (∀ u, s.mgmt.crst.testBit u = true → (s.resetTile t).mgmt.crst.testBit u = true)
    ∧ (s.tileSt t ≠ .inService → s.tileSt t ≠ .admitting → (s.resetTile t).mgmt.crst.testBit t = true)
    ∧ (s.tileSt t = .inService ∨ s.tileSt t = .admitting → (s.resetTile t).mgmt.crstErr = true) := by
  by_cases hst : s.tileSt t = .inService ∨ s.tileSt t = .admitting
  · have h : s.resetTile t = { s with mgmt := { s.mgmt with crstErr := true } } := if_pos (by simpa using hst)
    rw [h]
    exact ⟨rfl, fun _ => rfl, fun _ => id, fun h1 h2 => absurd hst (not_or.mpr ⟨h1, h2⟩), fun _ => rfl⟩
  · by_cases hc : s.mgmt.crst.testBit t = true
    · have h : s.resetTile t = s := (if_neg (by simpa using hst)).trans (if_pos hc)
      rw [h]
      exact ⟨rfl, id, fun _ => id, fun _ _ => hc, fun h' => absurd h' hst⟩
    · have h : s.resetTile t = s.beginCrst t 1 := (if_neg (by simpa using hst)).trans (if_neg hc)
      obtain ⟨hk, _, hm⟩ := beginCrst_facts s t 1
      rw [h, hm]
      refine ⟨hk, id, fun u hu => ?_, fun _ _ => testBit_or_self .., fun h' => absurd h' hst⟩
      show (s.mgmt.crst ||| 2 ^ t).testBit u = true
      rw [Nat.testBit_or, hu]
      rfl

section Resets
variable {s : State} {t : Nat} (w : Nat) (v : Word)

theorem coreResetMask_tiles : (s.coreResetMask w v).kw.tiles = s.kw.tiles := by
  rw [coreResetMask_eq]
  exact List.foldlRecOn (maskTiles w v) State.resetTile (motive := fun z : State => z.kw.tiles = s.kw.tiles) rfl
    (fun z hz u _ => (resetTile_facts z u).1.trans hz)

theorem resetTile_tileSt (z : State) (u x : Nat) : (z.resetTile u).tileSt x = z.tileSt x :=
  congrArg (Tab.get TileSt.off · x) (resetTile_facts z u).1

/-- A tile that is neither in service nor being admitted is reset (R433). -/
theorem coreResetMask_resets (ht : t ∈ maskTiles w v) (hst : s.tileSt t ≠ .inService) (hadm : s.tileSt t ≠ .admitting) :
    (s.coreResetMask w v).mgmt.crst.testBit t = true := by
  rw [coreResetMask_eq]
  refine foldl_reaches (P := fun z : State => z.tileSt t ≠ .inService ∧ z.tileSt t ≠ .admitting)
    (Q := fun z : State => z.mgmt.crst.testBit t = true) (g := State.resetTile) (fun z u _ hz => ?_) (fun z hz => ?_) (fun z u hz => ?_)
    ht ⟨hst, hadm⟩
  · rw [resetTile_tileSt]
    exact hz
  · exact (resetTile_facts z t).2.2.2.1 hz.1 hz.2
  · exact (resetTile_facts z u).2.2.1 t hz

theorem coreResetMask_errs (ht : t ∈ maskTiles w v) (hst : s.tileSt t = .inService ∨ s.tileSt t = .admitting) :
    (s.coreResetMask w v).mgmt.crstErr = true := by
  rw [coreResetMask_eq]
  refine foldl_reaches (P := fun z : State => z.tileSt t = .inService ∨ z.tileSt t = .admitting)
    (Q := fun z : State => z.mgmt.crstErr = true) (g := State.resetTile) (fun z u _ hz => ?_) (fun z hz => ?_) (fun z u hz => ?_) ht hst
  · rw [resetTile_tileSt]
    exact hz
  · exact (resetTile_facts z t).2.2.2.2 hz
  · exact (resetTile_facts z u).2.1 hz

end Resets

/-- The end of a core reset (R30, R434, R470). -/
theorem crstDone_facts {s : State} {t : Nat} (pass : Bool) (hcrst : s.mgmt.crst.testBit t = true) (hclk : s.clocked = true) :
    (s.crstDone t pass).tile t = Tile.init ∧ (s.crstDone t pass).mgmt.crst.testBit t = false
    ∧ (s.crstDone t pass).mgmt.releasing.testBit t = false
    ∧ (∀ u, u ≠ t → (s.crstDone t pass).tile u = s.tile u ∧ (s.crstDone t pass).tileSt u = s.tileSt u)
    ∧ (s.crstDone t pass).tileSt t = if s.mgmt.releasing.testBit t = true ∧ s.tileSt t = .fenced then (if pass then .spare else .failed)
      else s.tileSt t := by
  have hgo : ¬(!s.mgmt.crst.testBit t || !s.clocked) = true := by simp [hcrst, hclk]
  obtain ⟨z, hz⟩ : ∃ z : State, z = { s.onTile t (fun _ => Tile.init) with mgmt := { s.mgmt with
      crst := putBits s.mgmt.crst t 1 0, releasing := putBits s.mgmt.releasing t 1 0 } } := ⟨_, rfl⟩
  have hself : z.tile t = Tile.init := by
    rw [hz]
    exact State.tile_onTile s t (fun _ => Tile.init)
  have hother (u : Nat) (hu : u ≠ t) : z.tile u = s.tile u := by
    rw [hz]
    exact State.tile_onTile_other s hu (fun _ => Tile.init)
  have hcrst' : z.mgmt.crst.testBit t = false := by rw [hz]; exact (testBit_putBits ..).trans (if_pos rfl)
  have hrel' : z.mgmt.releasing.testBit t = false := by rw [hz]; exact (testBit_putBits ..).trans (if_pos rfl)
  have hst (u : Nat) : z.tileSt u = s.tileSt u := by rw [hz]; rfl
  by_cases hrel : s.mgmt.releasing.testBit t = true ∧ s.tileSt t = .fenced
  · obtain ⟨e, he⟩ : ∃ e, s.crstDone t pass = (z.setTileSt t (if pass then .spare else .failed)).event e := by
      refine ⟨{ typ := 0x0106, tile := t, pay := [(0x18, 4, t), (0x1C, 4, if pass then 1 else 2)] }, ?_⟩
      rw [hz]
      exact (if_neg hgo).trans (if_pos (by simp [hrel.1, hrel.2]))
    have hm : Mild (z.setTileSt t (if pass then .spare else .failed)) ((z.setTileSt t (if pass then .spare else .failed)).event e) := event_mild ..
    have htile (u : Nat) : (s.crstDone t pass).tile u = z.tile u := by rw [he]; exact tile_of_tiles hm.tiles u
    have hstate (u : Nat) : (s.crstDone t pass).tileSt u = if u = t then (if pass then .spare else .failed) else z.tileSt u := by
      rw [he, State.tileSt, hm.tileSts]
      exact tileSt_setTileSt ..
    have hmgmt : (s.crstDone t pass).mgmt = z.mgmt := by rw [he]; exact hm.mgmt
    rw [htile, hmgmt, if_pos hrel]
    refine ⟨hself, hcrst', hrel', fun u hu => ⟨(htile u).trans (hother u hu), ?_⟩, (hstate t).trans (if_pos rfl)⟩
    exact (hstate u).trans ((if_neg hu).trans (hst u))
  · have he : s.crstDone t pass = z := by
      rw [hz]
      refine (if_neg hgo).trans (if_neg ?_)
      simpa using hrel
    rw [he, if_neg hrel]
    exact ⟨hself, hcrst', hrel', fun u hu => ⟨hother u hu, hst u⟩, hst t⟩

/-- A tile that is fenced by prediction (R453). -/
theorem predictFence_facts {s : State} {t : Nat} (hpred : s.flt.predict.testBit t = true) (hst : s.tileSt t = .inService)
    (hidle : s.tileIdle t = true) :
    (s.predictFence t).tileSt t = .fenced ∧ (s.predictFence t).flt.predict.testBit t = false
    ∧ (s.predictFence t).flt.coreCount = s.flt.coreCount := by
  have hgo : ¬(!s.flt.predict.testBit t || s.tileSt t != .inService || !s.tileIdle t) = true := by simp [hpred, hst, hidle]
  obtain ⟨y, hy⟩ : ∃ y, y = s.fenceTile t := ⟨_, rfl⟩
  obtain ⟨_, _, _, hflt, hfenced, _⟩ := fenceTile_facts s t
  rw [← hy] at hflt hfenced
  obtain ⟨b, hb⟩ : ∃ b, b = y.onFlt (fun f => { f with predict := putBits f.predict t 1 0 }) := ⟨_, rfl⟩
  obtain ⟨e, he⟩ : ∃ e, s.predictFence t = b.event e := by
    refine ⟨{ typ := 0x0105, tile := t, pay := [(0x18, 4, t), (0x1C, 4, (Tab.get (0, 0) s.flt.ceWin t).1)] }, ?_⟩
    rw [hb, hy]
    exact if_neg hgo
  have hm : Mild b (b.event e) := event_mild ..
  rw [he, State.tileSt, hm.tileSts, hm.flt, hb]
  refine ⟨hfenced, (testBit_putBits ..).trans (if_pos rfl), ?_⟩
  show y.flt.coreCount = _
  rw [hflt]

/-- The window and the count of a corrected error of a tile (R453). -/
def State.correctedCount (s : State) (t : Nat) : Nat :=
  if (Tab.get (0, 0) s.flt.ceWin t).2 = s.now / 10 ^ 9 * 10 ^ 9 then (Tab.get (0, 0) s.flt.ceWin t).1 + 1 else 1

/-- A corrected error of a tile (R453, R470). -/
theorem corrected_facts {s : State} {t : Nat} (ht : t ≠ 127) :
    (s.corrected t).kw = s.kw ∧ (s.corrected t).tiles = s.tiles ∧ (s.corrected t).flt.ceCount = satAdd s.flt.ceCount 1
    ∧ Tab.get (0, 0) (s.corrected t).flt.ceWin t = (s.correctedCount t, s.now / 10 ^ 9 * 10 ^ 9)
    ∧ (s.corrected t).flt.predict = if s.rfld 0x341C 0 16 ≠ 0 ∧ s.rfld 0x341C 0 16 ≤ s.correctedCount t then s.flt.predict ||| 2 ^ t
      else s.flt.predict := by
  obtain ⟨n, hn⟩ : ∃ n, n = (if (Tab.get (0, 0) s.flt.ceWin t).2 == s.now / 10 ^ 9 * 10 ^ 9 then (Tab.get (0, 0) s.flt.ceWin t).1 else 0) + 1 :=
    ⟨_, rfl⟩
  have hcount : n = s.correctedCount t := by
    rw [hn, State.correctedCount]
    by_cases h : (Tab.get (0, 0) s.flt.ceWin t).2 = s.now / 10 ^ 9 * 10 ^ 9
    · rw [if_pos h, if_pos (by simpa using h)]
    · rw [if_neg h, if_neg (by simpa using h)]
  have hrun : s.corrected t = (s.onFlt (fun f => { f with ceCount := satAdd f.ceCount 1 })).onFlt (fun f => { f with
      ceWin := Tab.set (0, 0) f.ceWin t (n, s.now / 10 ^ 9 * 10 ^ 9)
      predict := if s.rfld 0x341C 0 16 != 0 && decide (s.rfld 0x341C 0 16 ≤ n) then f.predict ||| 2 ^ t else f.predict }) := by
    rw [hn]
    exact if_neg (by simpa using ht)
  rw [hrun, ← hcount]
  refine ⟨rfl, rfl, rfl, Tab.get_set_self s.flt.ceWin t _, ?_⟩
  show (if _ then _ else _) = _
  simp only [Bool.and_eq_true, bne_iff_ne, decide_eq_true_eq]
  rfl

/-- Settles O42: a core fault by `coreFault_facts`, prediction by `predictFence_facts`, the masks by folds over the tiles they name
(`foldl_reaches`), the end of a core reset by `crstDone_facts`. -/
theorem coresAreFencedAndReset : Obligations.CoresAreFencedAndReset := by
  intro s t ht frame
  have htile : isTile t = true := decide_eq_true ht
  have hunit (z : State) : onUnit (isTile t) t z = .next z := onUnit_true htile ..
  have hframe (z : State) (h1 : z.fuses = s.fuses) (h2 : z.sec = s.sec) (h3 : z.bw = s.bw) (h4 : z.pending = s.pending) : frame z := ⟨h1, h2, h3, h4⟩
  refine ⟨fun src => ⟨fun hst => ?_, fun hst => ?_⟩, ?_, ?_, fun hpred hst hidle => ?_, fun w v hmem => ⟨?_, ?_, ?_⟩, fun pass hcrst hclk => ?_⟩
  · exact (hunit _).trans (congrArg Host.Outcome.next (if_pos (by simpa using hst)))
  · obtain ⟨hfenced, hcounts, hphase, hsealed, _, hhits⟩ := coreFault_facts src hst
    refine ⟨_, hunit _, hframe _ (by simp) (by simp) (by simp) (by simp), hfenced, (congrArg Flt.core hcounts : _),
      (congrArg Flt.lastTile hcounts : _),
      (congrArg Flt.coreCount hcounts : _).trans (satAdd_one _), hphase, hsealed, fun d hd hrun hop hwork hnone => ?_⟩
    have hhit : d ∈ s.fenceHits t := List.mem_filter.mpr ⟨hd, by simp [hrun, hop, hwork]⟩
    obtain ⟨d', hd', huid, _, hout⟩ := hhits d hhit (by simp [Desc.started, hrun]) hnone
    exact ⟨d', hd', huid, hout⟩
  · exact ⟨_, rfl, rfl, satAdd_one _, rfl, rfl⟩
  · have hne : t ≠ 127 := by
      have : Config.tiles = 72 := rfl
      omega
    obtain ⟨hkw, htiles, hce, hwin, hpredict⟩ := corrected_facts (s := s) hne
    exact ⟨_, onUnit_true (by simp [htile]) .., htiles, hkw, hce.trans (satAdd_one _), hwin, hpredict⟩
  · obtain ⟨hfenced, hbit, hcount⟩ := predictFence_facts hpred hst hidle
    exact ⟨_, hunit _, hframe _ (by simp) (by simp) (by simp) (by simp), hfenced, hbit, hcount⟩
  · exact ⟨_, rfl, hframe _ (by simp) (by simp) (by simp) (by simp), fenceMask_fences w v hmem, fenceMask_errs w v hmem⟩
  · exact ⟨_, rfl, hframe _ (by simp) (by simp) (by simp) (by simp), by simp,
      fun u => congrArg (Tab.get TileSt.off · u) (fenceRelease_tiles w v), fenceRelease_resets w v hmem, fenceRelease_errs w v hmem⟩
  · exact ⟨_, rfl, hframe _ (by simp) (by simp) (by simp) (by simp), by simp,
      fun u => congrArg (Tab.get TileSt.off · u) (coreResetMask_tiles w v), coreResetMask_resets w v hmem, coreResetMask_errs w v hmem⟩
  · obtain ⟨h1, h2, h3, h4, h5⟩ := crstDone_facts pass hcrst hclk
    exact ⟨_, hunit _, hframe _ (by simp) (by simp) (by simp) (by simp), h1, h2, h3, h4, h5⟩

/-! ### A commit over an object table that lists an index twice (R462) -/

/-- An object table with two entries of index 5, which no write of an entry makes: the first for the object of the logs' second record,
the second for that of the first. -/
def twiceListed : Tab (Option Obj) := [(5, some Tests.obj), (5, some { Tests.obj with pbase := 0x4000000 })]

/-- A running die with that table, and a `COMMIT` descriptor that applies one log of two records. -/
def twiceState : State :=
  let s := Tests.die { Tests.cm with committing := true }
  { s with kw := { s.kw with objs := twiceListed }
           flt := { Flt.init with logs := [(448, [(0x4000000, [1]), (0x3FF0000, [2])])] } }

/-- Traffic of the first record is counted in the wrong entry: the object of the second record is gone, and its write is refused (R363). -/
theorem twiceState_denies : ∀ d ∈ (twiceState.commitDone 7).qm.descs, d.outcome = some (0x1A, 0x17, 127) := by decide

/-- Every record of the logs may be written to memory that is homed here, before the first of them is. -/
theorem twiceState_records : ∀ r ∈ twiceState.logRecords { Tests.cm with committing := true },
    r.1 % granuleBytes + r.2.length ≤ granuleBytes ∧ twiceState.held r.1 r.2.length = false
    ∧ twiceState.deny (Desc.job { Tests.cm with committing := true }) true false r.1 r.2.length = 0
    ∧ twiceState.isPoisoned r.1 r.2.length = false ∧ twiceState.isHome r.1 = true ∧ isHostAddr r.1 = false := by decide

/-- Refutes O43: the clause on `commitApplyDone` asks of every record, in the state before the apply, that it may be written at home, and
says nothing of the form of the object table. Over a table that lists index 5 twice the write of the first record replaces the first
entry, so that the second record has no object left and the descriptor ends with `DENY` (`twiceState_denies`). -/
theorem not_replaysCommitsAndUncoreFaults : ¬ Obligations.ReplaysCommitsAndUncoreFaults := by
  intro h
  obtain ⟨_, _, _, hcommit⟩ := (h twiceState).2 7 { Tests.cm with committing := true } rfl
  obtain ⟨s', d', hrun, hmem, _, hout, _⟩ := hcommit rfl rfl rfl rfl (by decide) rfl rfl twiceState_records
  have hs' : s' = twiceState.commitDone 7 := (Host.Outcome.next.inj hrun).symm
  rw [hs'] at hmem
  have hdeny := twiceState_denies d' hmem
  rw [hout] at hdeny
  exact absurd hdeny (by decide)

end Sys2Proof.Machine
end

section
/-!
PROOFS. Tokens of the debugger and of the lifecycle (spec/19 R506 to R508).
-/

namespace Sys2Proof.Machine

open Sys2Proof

/-! ### Cores that have been scrubbed stay scrubbed (R256, R508) -/

/-- A tile without an owner whose accumulators, tile buffers and Reed are empty (R256). -/
def Tile.Scrubbed (q : Tile) : Prop := q.spad.owner = none ∧ q.ma0.acc = [] ∧ q.vec.t = [] ∧ q.row.reed = []

/-- A change that leaves scrubbed tiles scrubbed. -/
structure State.KeepsScrubbed (s z : State) : Prop where
  keeps : ∀ u, (s.tile u).Scrubbed → (z.tile u).Scrubbed

theorem State.KeepsScrubbed.refl (s : State) : s.KeepsScrubbed s := ⟨fun _ h => h⟩

theorem State.KeepsScrubbed.trans {a b c : State} (h : a.KeepsScrubbed b) (k : b.KeepsScrubbed c) : a.KeepsScrubbed c :=
  ⟨fun u hu => k.keeps u (h.keeps u hu)⟩

theorem keepsScrubbed_of_tiles {s z : State} (h : z.tiles = s.tiles) : s.KeepsScrubbed z :=
  ⟨fun u hu => (tile_of_tiles h u).symm ▸ hu⟩

/-- A change of anything but the tiles. -/
theorem State.KeepsScrubbed.same {a b c : State} (h : a.KeepsScrubbed b) (k : c.tiles = b.tiles) : a.KeepsScrubbed c :=
  h.trans (keepsScrubbed_of_tiles k)

theorem State.KeepsScrubbed.foldl {β : Type} (l : List β) (g : State → β → State) (h : ∀ (z : State) x, z.KeepsScrubbed (g z x)) (s : State) :
    s.KeepsScrubbed (l.foldl g s) := by
  induction l generalizing s with
  | nil => exact .refl s
  | cons x r ih => exact (h s x).trans (ih _)

theorem keepsScrubbed_onTile (s : State) (t : Nat) (f : Tile → Tile) (hf : ∀ q : Tile, q.Scrubbed → (f q).Scrubbed) :
    s.KeepsScrubbed (s.onTile t f) := by
  refine ⟨fun u hu => ?_⟩
  by_cases h : u = t
  · subst h
    rw [State.tile_onTile]
    exact hf _ hu
  · rw [State.tile_onTile_other _ h]
    exact hu

theorem Quiet.keepsScrubbed {s z : State} (h : Quiet s z) : s.KeepsScrubbed z := by
  refine ⟨?_⟩
  rintro u ⟨h1, h2, h3, h4⟩
  exact ⟨(h.owner u).1.trans h1, by rw [h.ma0, h2], by rw [h.vec, h3], by rw [h.row, h4]⟩

/-! #### Tiles whose work is stopped -/

/-- Abandoning a tile's work empties its accumulators and invalidates its Reed entries: what is empty stays so (R61). -/
theorem Tile.abandon_scrubbed (q : Tile) (h : q.Scrubbed) : q.abandon.Scrubbed := by
  obtain ⟨h1, -, h3, h4⟩ := h
  have hfold (l : List (Nat × Slot)) (sp : Spad) :
      (l.foldl (fun (sp : Spad) e => sp.onSlot e.1 (fun s => { s with fill := 0, decl := 0 })) sp).owner = sp.owner := by
    induction l generalizing sp with
    | nil => rfl
    | cons e l ih => exact (ih _).trans rfl
  refine ⟨(hfold _ _).trans h1, rfl, h3, ?_⟩
  simp only [Tile.abandon, Tile.clearMine, Tile.resetFills, h4, List.filter_nil, List.map_nil, List.foldl_nil]

theorem keepsScrubbed_abandonTile (s : State) (t : Nat) : s.KeepsScrubbed (s.abandonTile t) := by
  refine (keepsScrubbed_onTile s t _ (fun q hq => ?_)).trans ((letGo_quiet _ t 2).trans (syncStop_quiet _ t)).keepsScrubbed
  exact q.abandon_scrubbed hq

theorem keepsScrubbed_sealTile (s : State) (t ans : Nat) : s.KeepsScrubbed (s.sealTile t ans) :=
  (closeWindows_quiet s t ans).keepsScrubbed.trans (keepsScrubbed_onTile _ t Tile.seal (fun _ hq => hq))

theorem keepsScrubbed_drawIn (s : State) (t cause tile : Nat) : s.KeepsScrubbed (s.drawIn t cause tile) := by
  obtain ⟨z, hz, htiles⟩ : ∃ z : State, s.drawIn t cause tile
      = ((z.onTile t (fun q => q.abandon.onSeq (fun z => { z with phase := .discarded }))).letGo t 2).syncStop t ∧ z.tiles = s.tiles := by
    unfold State.drawIn
    dsimp only
    split
    · exact ⟨_, rfl, rfl⟩
    · exact ⟨_, rfl, rfl⟩
  rw [hz]
  refine ((keepsScrubbed_of_tiles htiles).trans (keepsScrubbed_onTile z t _ (fun q hq => ?_))).trans
    ((letGo_quiet _ t 2).trans (syncStop_quiet _ t)).keepsScrubbed
  exact q.abandon_scrubbed hq

theorem keepsScrubbed_stopWork (s : State) (d : Desc) : s.KeepsScrubbed (s.stopWork d) := by
  have hmembers : s.KeepsScrubbed (s.abandonMembers d) := by
    refine .foldl _ _ (fun z t => ?_) s
    unfold State.abandonFor
    split
    · exact keepsScrubbed_abandonTile ..
    · exact .refl z
  obtain ⟨z, hz⟩ : ∃ z, z = (s.abandonMembers d).withdraw (· == .desc d.uid) (some d.uid) := ⟨_, rfl⟩
  have hkeep : s.KeepsScrubbed z := hz ▸ hmembers.trans (withdraw_quiet ..).keepsScrubbed
  have hcopy : z.KeepsScrubbed ((z.dropLogs d.uid).copyLetGo d) := by
    have hcalm := mapTiles_calm z ((z.dropLogs d.uid).copyLetGo d)
      (fun q => (q.takeCredits (fun g => g.who == ⟨z.pos, 120, d.place⟩)).onDma (fun x => { x with
        reqs := x.reqs.filter (fun r => r.who != ⟨z.pos, 120, d.place⟩) }))
      (fun q => (takeCredits_calm q _).trans (onDma_calm _ _ (fun _ => rfl))) rfl
    refine ⟨?_⟩
    rintro u ⟨h1, h2, h3, h4⟩
    exact ⟨(hcalm u).owner.1.trans h1, by rw [(hcalm u).ma0, h2], by rw [(hcalm u).vec, h3], by rw [(hcalm u).row, h4]⟩
  have hstop : s.stopWork d = if d.opcode == 2 then (z.dropLogs d.uid).copyLetGo d else z.dropLogs d.uid := by rw [hz]; rfl
  rw [hstop]
  split
  · exact hkeep.trans hcopy
  · exact hkeep.same rfl

theorem keepsScrubbed_killDesc (s : State) (d : Desc) (st cause : Nat) : s.KeepsScrubbed (s.killDesc d st cause) :=
  ((keepsScrubbed_stopWork s d).trans (withdraw_quiet _ _ none).keepsScrubbed).same rfl

theorem keepsScrubbed_abandonAll (s : State) : s.KeepsScrubbed s.abandonAll := by
  refine (((State.KeepsScrubbed.foldl _ _ (fun z d => keepsScrubbed_killDesc ..) s).trans
    (.foldl _ _ (fun z e => ?_) _)).trans (.foldl _ _ (fun z j => (freeJobObjs_quiet ..).keepsScrubbed) _)).trans
    (.foldl _ _ (fun z k => keepsScrubbed_of_tiles (by simp)) _)
  exact ((keepsScrubbed_abandonTile ..).trans (keepsScrubbed_sealTile ..)).trans (keepsScrubbed_onTile _ _ Tile.wipe (fun _ hq => hq))

theorem keepsScrubbed_event (s : State) (e : Ev) : s.KeepsScrubbed (s.event e) := keepsScrubbed_of_tiles (event_mild s e).tiles

theorem keepsScrubbed_isolate (s : State) (cause : Nat) : s.KeepsScrubbed (s.isolate cause) := by
  unfold State.isolate
  split
  · exact .refl s
  · exact ((keepsScrubbed_event s _).trans (keepsScrubbed_abandonAll _)).same
      ((State.onPkg_frame _ _).1.trans (State.portsIdle_frame _).1)

/-! #### Requests and packets that are lost (R394, R423) -/

theorem keepsScrubbed_onWork (s : State) (o : OpenTx) (f : QEntry → QEntry) : s.KeepsScrubbed (s.onWork o f) := by
  unfold State.onWork
  split
  · exact keepsScrubbed_onTile s _ _ (fun _ hq => hq)
  · exact keepsScrubbed_of_tiles (by split <;> rfl)

theorem keepsScrubbed_failTx (s : State) (o : OpenTx) (ans : Nat) : s.KeepsScrubbed (s.failTx o ans) := by
  unfold State.failTx
  generalize o.src = src
  cases src with
  | some x =>
    dsimp only
    split
    · exact keepsScrubbed_of_tiles rfl
    · cases x with
      | tile t => exact keepsScrubbed_drawIn s t causePortFault 127
      | desc uid => exact keepsScrubbed_of_tiles rfl
      | defer uid i => exact keepsScrubbed_of_tiles rfl
      | init id => exact keepsScrubbed_of_tiles rfl
      | remote d a b c => exact .refl s
      | nobody => exact .refl s
  | none =>
    dsimp only
    split
    · exact keepsScrubbed_of_tiles (State.takeFetch_frame ..).1
    · exact keepsScrubbed_onWork ..

theorem keepsScrubbed_workAcked (s : State) (tile uid : Nat) : s.KeepsScrubbed (s.workAcked tile uid) := by
  unfold State.workAcked
  dsimp only
  split
  · exact keepsScrubbed_onTile s _ _ (fun _ hq => hq)
  · exact keepsScrubbed_of_tiles (by split <;> rfl)

theorem keepsScrubbed_due (s : State) (x : InvDue) : s.KeepsScrubbed (s.due x) := by
  unfold State.due
  split
  · exact keepsScrubbed_of_tiles (State.sendDue_frame ..).1
  · exact keepsScrubbed_workAcked ..

/-- Invalidations leave the tiles as they are (R376). -/
theorem keepsScrubbed_setRdc (s : State) (r : Rdc) : s.KeepsScrubbed { s with rdc := r } := keepsScrubbed_of_tiles rfl

theorem keepsScrubbed_settleInvs (s : State) : s.KeepsScrubbed s.settleInvs :=
  (keepsScrubbed_setRdc s _).trans (.foldl _ State.due keepsScrubbed_due _)

theorem keepsScrubbed_setTx (s : State) (tag : Nat) (o : Option OpenTx) : s.KeepsScrubbed (s.setTx tag o) := keepsScrubbed_of_tiles rfl

theorem keepsScrubbed_loseTx (s : State) (k : Packet) (ans : Nat) : s.KeepsScrubbed (s.loseTx k ans) := by
  unfold State.loseTx
  split
  · exact (keepsScrubbed_setTx s _ none).trans (keepsScrubbed_failTx ..)
  · exact .refl s

theorem keepsScrubbed_loseInv (s : State) (k : Packet) : s.KeepsScrubbed (s.loseInv k) := by
  unfold State.loseInv
  split
  · exact .refl s
  · split
    · exact .refl s
    · refine (keepsScrubbed_setRdc s _).trans (.foldl _ _ (fun z x => ?_) _)
      split
      · exact .refl z
      · exact keepsScrubbed_failTx ..

theorem keepsScrubbed_resend (s : State) (k : Packet) : s.KeepsScrubbed (s.resend k) := by
  unfold State.resend
  split
  · split
    · exact (keepsScrubbed_setTx s _ _).same (sendOn_mild ..).tiles
    · exact (State.KeepsScrubbed.refl s).same (sendOn_mild ..).tiles
  · exact ((keepsScrubbed_loseTx s k 8).trans (keepsScrubbed_loseInv _ k)).same (State.unreachable_frame ..).1

theorem keepsScrubbed_unackedLost (s : State) (k : Packet) (retry : Bool) : s.KeepsScrubbed (s.unackedLost k retry) := by
  have hmark : s.KeepsScrubbed (s.markResent k) := by
    unfold State.markResent
    split
    · exact keepsScrubbed_setTx ..
    · exact .refl s
  have hite {c : Prop} [Decidable c] {a b : State} (ha : s.KeepsScrubbed a) (hb : s.KeepsScrubbed b) :
      s.KeepsScrubbed (if c then a else b) := by split <;> assumption
  exact hite (hmark.trans (keepsScrubbed_resend ..)) ((keepsScrubbed_loseTx s k 9).trans (keepsScrubbed_loseInv ..))

theorem keepsScrubbed_portPackets (s : State) (p : Nat) (unacked queue : List Packet) (retry : Bool) :
    s.KeepsScrubbed (s.portPackets p unacked queue retry) :=
  (((keepsScrubbed_of_tiles (State.portFaults_frame s p _).1).trans
    (.foldl unacked (fun s k => s.unackedLost k retry) (fun z k => keepsScrubbed_unackedLost z k retry) _)).trans
    (.foldl queue State.resend keepsScrubbed_resend _)).trans (keepsScrubbed_settleInvs _)

theorem keepsScrubbed_loseRequests (s : State) (d : Nat) : s.KeepsScrubbed (s.loseRequests d) := by
  refine .foldl _ _ (fun z x => ?_) s
  exact (keepsScrubbed_setTx z x.1 none).trans (keepsScrubbed_failTx ..)

theorem keepsScrubbed_isolateUnless (s : State) (b : Bool) (c : Nat) : s.KeepsScrubbed (if b = true then s else s.isolate c) := by
  split
  · exact .refl s
  · exact keepsScrubbed_isolate s c

theorem keepsScrubbed_loseDie (s : State) (d ts : Nat) : s.KeepsScrubbed (s.loseDie d ts) := by
  unfold State.loseDie
  split
  · exact .refl s
  · have hrequests : s.KeepsScrubbed ((s.dropToward d).loseRequests d) :=
      (keepsScrubbed_of_tiles (State.dropToward_frame s d).1).trans (keepsScrubbed_loseRequests _ d)
    have hsettled := fun r => hrequests.trans ((keepsScrubbed_setRdc _ r).trans (keepsScrubbed_settleInvs _))
    dsimp only
    generalize hz : State.settleInvs _ = z
    have hkeep : s.KeepsScrubbed z := hz ▸ hsettled _
    refine (hkeep.same ?_).trans (keepsScrubbed_isolateUnless _ _ 2)
    split <;> simp
  
theorem keepsScrubbed_loseStack (s : State) (k : Nat) : s.KeepsScrubbed (s.loseStack k) := by
  unfold State.loseStack
  split
  · exact .refl s
  · dsimp only
    split
    · refine (keepsScrubbed_of_tiles ?_).trans (keepsScrubbed_isolate ..)
      simp
    · exact keepsScrubbed_of_tiles (by simp)

theorem keepsScrubbed_setFlt (s : State) (f : Flt) : s.KeepsScrubbed { s with flt := f } := keepsScrubbed_of_tiles rfl

theorem keepsScrubbed_afterFall (s : State) (p : Nat) (wasUp : Bool) : s.KeepsScrubbed (s.afterFall p wasUp) := by
  unfold State.afterFall
  dsimp only
  split
  · exact .refl s
  · split
    · split
      · exact keepsScrubbed_setFlt s _
      · exact keepsScrubbed_loseStack ..
    · split
      · split
        · exact keepsScrubbed_setFlt s _
        · split
          · exact (keepsScrubbed_of_tiles (State.tellLost_frame ..).1).trans (keepsScrubbed_loseDie ..)
          · exact .refl s
      · exact keepsScrubbed_setFlt s _

theorem keepsScrubbed_portDrop (s : State) (p : Nat) (old : Port) (retry : Bool) : s.KeepsScrubbed (s.portDrop p old retry) := by
  unfold State.portDrop
  dsimp only
  split
  · exact keepsScrubbed_afterFall ..
  · exact (keepsScrubbed_afterFall ..).trans (keepsScrubbed_portPackets ..)

/-! ### The keys are taken away and every core is scrubbed (R508) -/

theorem keepsScrubbed_dropPortKeys (s : State) : s.KeepsScrubbed s.dropPortKeys := by
  refine .foldl _ _ (fun z p => ?_) s
  exact (keepsScrubbed_of_tiles (State.onPort_frame ..).1).trans (keepsScrubbed_portDrop ..)

/-- What scrubbing one core does. -/
theorem scrub_tile_scrubbed (z : State) (t : Nat) :
    (((((z.abandonTile t).sealTile t 2).onTile t Tile.wipe).onTile t Tile.scrub).tile t).Scrubbed := by
  rw [State.tile_onTile]
  exact ⟨rfl, rfl, rfl, rfl⟩

theorem keepsScrubbed_scrubTile (z : State) (t : Nat) :
    z.KeepsScrubbed ((((z.abandonTile t).sealTile t 2).onTile t Tile.wipe).onTile t Tile.scrub) :=
  (((keepsScrubbed_abandonTile z t).trans (keepsScrubbed_sealTile _ t 2)).trans (keepsScrubbed_onTile _ t Tile.wipe (fun _ hq => hq))).trans
    (keepsScrubbed_onTile _ t Tile.scrub (fun _ _ => ⟨rfl, rfl, rfl, rfl⟩))

theorem scrubCores_scrubbed (s : State) {t : Nat} (ht : t < Config.tiles) : (s.scrubCores.tile t).Scrubbed := by
  unfold State.scrubCores
  dsimp only
  have hmem : t ∈ List.range Config.tiles := List.mem_range.mpr ht
  generalize List.range Config.tiles = l at hmem ⊢
  generalize List.foldl _ s _ = k
  exact foldl_reaches (P := fun _ : State => True) (Q := fun z : State => (z.tile t).Scrubbed)
    (g := fun z u => (((z.abandonTile u).sealTile u 2).onTile u Tile.wipe).onTile u Tile.scrub) (fun _ _ _ _ => trivial)
    (fun z _ => scrub_tile_scrubbed z t) (fun z u hz => (keepsScrubbed_scrubTile z u).keeps t hz) hmem trivial

/-- After the keys are taken away, with every core scrubbed before (R508). -/
theorem dropKeys_scrubbed (s : State) {t : Nat} (ht : t < Config.tiles) :
    (s.scrubCores.dropPortKeys.dropMemKeys.tile t).Scrubbed := by
  rw [tile_of_tiles (State.dropMemKeys_frame _).1]
  exact (keepsScrubbed_dropPortKeys _).keeps t (scrubCores_scrubbed s ht)

/-! ### Tokens (R506) -/

theorem tokenRefuse_facts (s : State) (code : Nat) : (s.tokenRefuse code).sec = { s.sec with
    cmdErr := true, errCode := code, refusals := min 255 (s.sec.refusals + 1),
    lockout := s.sec.lockout || decide (3 ≤ min 255 (s.sec.refusals + 1)) }
      ∧ (s.tokenRefuse code).mgmt = s.mgmt ∧ (s.tokenRefuse code).tiles = s.tiles := by
  obtain ⟨z, hz⟩ : ∃ z, z = (s.secRefuse code).onSec (fun k => { k with
    refusals := min 255 (s.sec.refusals + 1), lockout := k.lockout || decide (3 ≤ min 255 (s.sec.refusals + 1)) }) := ⟨_, rfl⟩
  have hmild := event_mild z { typ := 0x0402, pay := [(0x18, 4, code), (0x1C, 4, min 255 (s.sec.refusals + 1))] }
  have h : s.tokenRefuse code = z.event { typ := 0x0402, pay := [(0x18, 4, code), (0x1C, 4, min 255 (s.sec.refusals + 1))] } := hz ▸ rfl
  rw [h]
  exact ⟨hmild.sec.trans (hz ▸ rfl), hmild.mgmt.trans (hz ▸ rfl), hmild.tiles.trans (hz ▸ rfl)⟩

theorem tokenRefused {s : State} {c : Instr} {z : State} {code : Nat} (hx : exec c s = .next (z.tokenRefuse code)) (hmgmt : z.mgmt = s.mgmt)
    (htiles : z.tiles = s.tiles) (hrefusals : z.sec.refusals = s.sec.refusals) (hauth : z.sec.dbgAuth = s.sec.dbgAuth)
    (hlife : z.sec.life = s.sec.life) (hcopies : z.sec.copies = s.sec.copies) :
    ∃ s', exec c s = .next s' ∧ s'.sec.cmd = z.sec.cmd ∧ s'.sec.errCode = code ∧ s'.sec.cmdErr = true
      ∧ s'.sec.refusals = min 255 (s.sec.refusals + 1) ∧ (2 ≤ s.sec.refusals → s'.sec.lockout = true) ∧ s'.sec.dbgAuth = s.sec.dbgAuth
      ∧ s'.sec.life = s.sec.life ∧ s'.sec.copies = s.sec.copies ∧ s'.mgmt.pulses = s.mgmt.pulses ∧ s'.tiles = s.tiles := by
  obtain ⟨hsec, hm, ht⟩ := tokenRefuse_facts z code
  refine ⟨_, hx, ?_⟩
  rw [hsec, hm, ht, hmgmt, htiles, hrefusals]
  refine ⟨rfl, rfl, rfl, rfl, fun h => ?_, hauth, hlife, hcopies, rfl, rfl⟩
  rw [Bool.or_eq_true, decide_eq_true_eq]
  omega

/-- Under way, a token that the check accepts or refuses (R506). -/
theorem tokenDone_of {s : State} (hcmd : s.sec.cmd = 2) (sigOk : Bool) {z : State} (hz : s.onSec (fun k => { k with cmd := 0 }) = z) :
    s.tokenDone sigOk =
      if s.tokenCheck sigOk != 0 then z.tokenRefuse (s.tokenCheck sigOk)
      else if (s.sec.tok 8).toNat == 1 then
        if s.sec.life == .production then
          (z.scrubCores.dropPortKeys.dropMemKeys.onSec (fun k => { k with zeroise := true, dbgAuth := true })).authEvent true
        else (z.onSec (fun k => { k with dbgAuth := true })).authEvent false
      else if (s.sec.tok 8).toNat == 2 then z.transition .production
      else (z.dropPortKeys.dropMemKeys.onSec (fun k => { k with idKey := false })).transition .retired := by
  subst hz
  exact if_neg (by simp [hcmd])

/-- The event of an accepted token leaves the tiles and what Onjan holds (R512). -/
theorem authEvent_rest (s : State) (b : Bool) : (s.authEvent b).sec = s.sec ∧ (s.authEvent b).tiles = s.tiles :=
  ⟨(event_mild s _).sec, (event_mild s _).tiles⟩

/-- A transition programs the three copies of the lifecycle (R492). -/
theorem transition_programs (s : State) (l : Life) (h : s.mgmt.pendingReset = none) :
    (s.transition l).sec = s.sec ∧ (s.transition l).tiles = s.tiles
      ∧ (s.transition l).mgmt.pulses = s.mgmt.pulses ++ [.life 0 l, .life 1 l, .life 2 l] := by
  have hmild := event_mild (s.blow [.life 0 l, .life 1 l, .life 2 l]) { typ := 0x0403, pay := [(0x18, 4, s.sec.life.code + l.code * 2 ^ 8)] }
  refine ⟨hmild.sec.trans ?_, hmild.tiles.trans (State.blow_frame ..).1, (congrArg Mgmt.pulses hmild.mgmt).trans (State.blow_pulses _ h)⟩
  simp

theorem tokenData_token (s : State) (v : Word) (i : Nat) :
    Tab.get 0 (s.tokenData v).sec.token i = if i = s.rfld 0x3020 0 6 ∧ i < 36 then v else Tab.get 0 s.sec.token i := by
  have h : (s.tokenData v).sec.token = if s.rfld 0x3020 0 6 < 36 then Tab.set 0 s.sec.token (s.rfld 0x3020 0 6) v else s.sec.token := rfl
  rw [h]
  by_cases hi : s.rfld 0x3020 0 6 < 36
  · rw [if_pos hi, Tab.get_set]
    by_cases he : i = s.rfld 0x3020 0 6
    · rw [if_pos he, if_pos ⟨he, he ▸ hi⟩]
    · rw [if_neg he, if_neg (fun h : i = _ ∧ _ => he h.1)]
  · rw [if_neg hi, if_neg (fun h : i = s.rfld 0x3020 0 6 ∧ i < 36 => hi (h.1 ▸ h.2))]

/-- A token for another part, or without the present challenge (R506). -/
theorem tokenCheck_mismatch {s : State} (htok : s.sec.tok 0 = 1) (h : s.sec.tok 4 ≠ s.reg 0x0000 ∨ s.sec.tokenHit = false) (sigOk : Bool) :
    s.tokenCheck sigOk = 3 := by
  have hbad : (s.sec.tok 4 != s.reg 0x0000 || !s.sec.tokenHit) = true := by
    rcases h with h | h
    · simp [h]
    · simp [h]
  exact (if_neg (by simp [htok])).trans (if_pos hbad)

/-- A token of this part and challenge whose signature does not verify (R506). -/
theorem tokenCheck_unsigned {s : State} (htok : s.sec.tok 0 = 1) (hserial : s.sec.tok 4 = s.reg 0x0000) (hhit : s.sec.tokenHit = true) :
    s.tokenCheck false = 2 :=
  (if_neg (by simp [htok])).trans ((if_neg (by simp [hserial, hhit])).trans (if_pos (by simp)))

/-- Settles O48: a refusal by `tokenRefused`; the scrubbed cores stay so while the port keys are dropped (`dropKeys_scrubbed`); a
transition by `transition_programs`. -/
theorem tokensAuthoriseTransitions : Obligations.TokensAuthoriseTransitions := by
  intro s hit refused programs
  refine ⟨fun v => ⟨_, rfl, rfl, rfl, State.rfld_setFld (s.onSec _) 0x3020 0 6 _ (by decide), fun i => ?_⟩, fun hlock => ?_, fun hlock hcmd => ?_,
    fun hcmd sigOk => ?_, fun h => ?_, fun h => ?_⟩
  · exact tokenData_token s v i
  · exact tokenRefused (z := s.onSec (fun k => { k with challengeOk := false, tokenHit := hit }))
      (congrArg Host.Outcome.next (if_pos hlock)) rfl rfl rfl rfl rfl rfl
  · exact congrArg Host.Outcome.next ((if_neg (by simp [hlock])).trans (if_neg (by simp [hcmd])))
  · obtain ⟨z, hz⟩ : ∃ z, s.onSec (fun k => { k with cmd := 0 }) = z := ⟨_, rfl⟩
    have hsec : z.sec = { s.sec with cmd := 0 } := hz ▸ rfl
    have hmgmt : z.mgmt = s.mgmt := hz ▸ rfl
    have htiles : z.tiles = s.tiles := hz ▸ rfl
    have hrefuse (ok : Bool) (hne : s.tokenCheck ok ≠ 0) : refused (.tokenVerifyDone ok) 0 (s.tokenCheck ok) := by
      obtain ⟨s', hx, hbusy, hrest⟩ := tokenRefused (s := s) (c := .tokenVerifyDone ok) (code := s.tokenCheck ok)
        (congrArg Host.Outcome.next ((tokenDone_of hcmd ok hz).trans (if_pos (by simpa using hne)))) hmgmt htiles (by rw [hsec]) (by rw [hsec])
        (by rw [hsec]) (by rw [hsec])
      exact ⟨s', hx, hbusy.trans (by rw [hsec]), hrest⟩
    have haccept (hok : s.tokenCheck sigOk = 0) := (tokenDone_of hcmd sigOk hz).trans (if_neg (by simp [hok]))
    refine ⟨hrefuse sigOk, fun htok hbad => ?_, fun htok hserial hhit => ?_, fun hok hscope hlife => ?_, fun hok hscope hlife => ?_,
      fun hok hscope => ⟨State.tokenCheck_scope2 hok (by rw [hscope]; rfl), fun hreset => ?_⟩, fun hok hscope hreset => ?_⟩
    · have hcode := tokenCheck_mismatch htok hbad sigOk
      exact hcode ▸ hrefuse sigOk (by rw [hcode]; decide)
    · have hcode := tokenCheck_unsigned htok hserial hhit
      exact hcode ▸ hrefuse false (by rw [hcode]; decide)
    · obtain ⟨hsec', htiles'⟩ := authEvent_rest (z.onSec (fun k => { k with dbgAuth := true })) false
      exact ⟨_, congrArg Host.Outcome.next ((haccept hok).trans ((if_pos (by rw [hscope]; rfl)).trans (if_neg (by simpa using hlife)))),
        hsec'.trans (by rw [State.onSec_sec, hsec]), htiles'.trans htiles⟩
    · obtain ⟨y, hy⟩ : ∃ y, y = z.scrubCores.dropPortKeys.dropMemKeys := ⟨_, rfl⟩
      have hysec : y.sec = { s.sec with cmd := 0 } := by simp [hy, hsec]
      obtain ⟨hsec', htiles'⟩ := authEvent_rest (y.onSec (fun k => { k with zeroise := true, dbgAuth := true })) true
      refine ⟨(y.onSec (fun k => { k with zeroise := true, dbgAuth := true })).authEvent true, ?_, ?_⟩
      · rw [hy]
        exact congrArg Host.Outcome.next ((haccept hok).trans ((if_pos (by rw [hscope]; rfl)).trans (if_pos (by simpa using hlife))))
      rw [hsec', State.onSec_sec, hysec]
      refine ⟨rfl, rfl, hlife, fun t ht => ?_⟩
      rw [tile_of_tiles (htiles'.trans (congrArg State.tiles hy : y.tiles = _))]
      exact dropKeys_scrubbed z ht
    · obtain ⟨h1, h2, h3⟩ := transition_programs z .production (by rw [hmgmt]; exact hreset)
      exact ⟨_, congrArg Host.Outcome.next ((haccept hok).trans ((if_neg (by rw [hscope]; decide)).trans (if_pos (by rw [hscope]; rfl)))),
        h1.trans hsec, h2.trans htiles, h3.trans (by rw [hmgmt])⟩
    · obtain ⟨y, hy⟩ : ∃ y, y = z.dropPortKeys.dropMemKeys.onSec (fun k => { k with idKey := false }) := ⟨_, rfl⟩
      have hysec : y.sec = { s.sec with cmd := 0, idKey := false } := by simp [hy, hsec]
      have hymgmt : y.mgmt = s.mgmt := by simp [hy, hmgmt]
      obtain ⟨h1, -, h3⟩ := transition_programs y .retired (by rw [hymgmt]; exact hreset)
      exact ⟨_, congrArg Host.Outcome.next ((haccept hok).trans ((if_neg (by rw [hscope]; decide)).trans
        ((if_neg (by rw [hscope]; decide)).trans (hy ▸ rfl)))), h1.trans hysec, h3.trans (by rw [hymgmt])⟩
  · exact congrArg Host.Outcome.next (if_pos (by simp [h]))
  · exact congrArg Host.Outcome.next (if_neg (by simp [h]))

end Sys2Proof.Machine
end

section
/-!
PROOFS. Operations on package memory at its home (spec/14 R374, R401, R420).
-/

namespace Sys2Proof.Machine

open Sys2Proof

/-! ### Operations on package memory at its home (R374, R401, R420) -/

/-- An operation that is admitted is neither refused nor held (R363, R371, R466). -/
theorem homeOp_admits {s : State} {k : Packet} (p : Nat) (h : s.admits k (k.cls == 2) (opLen k) = true) :
    s.homeOp p k false =
      if ownersOwn k && k.ptype == 0 then (if k.cls == 2 then s.homeWrite p k else s.homeRead p k)
      else if !(k.cls == 2) then s.homeReadDir p k else if k.ptype == 0 then s.homeWrite p k else s.homeAtomic p k := by
  simp only [State.admits, Bool.and_eq_true, Bool.not_eq_true', beq_iff_eq] at h
  obtain ⟨⟨⟨⟨⟨hhost, hdeny⟩, hpoison⟩, hmark⟩, hbusy⟩, hhome⟩ := h
  simp [State.homeOp, hhost, hdeny, hpoison, hmark, hbusy, hhome]

/-- A read that is admitted, of lines for which the directory has room (R374, R375). -/
theorem homeOp_read {s : State} {p : Nat} {k : Packet} (hcls : k.cls = 0) (h : s.admits k false k.len = true)
    (hroom : ∀ l ∈ linesOf k.addr k.len, s.rdc.dirRoom l = true) : s.homeOp p k false = s.homeRead p k := by
  have hop := homeOp_admits p (k := k) (s := s) (by simpa [hcls, opLen] using h)
  have hdir : s.homeReadDir p k = s.homeRead p k := by
    have hnone : (linesOf k.addr k.len).find? (fun l => !s.rdc.dirRoom l) = none := by
      rw [List.find?_eq_none]
      intro l hl
      simp [hroom l hl]
    unfold State.homeReadDir
    rw [hnone]
    exact ite_self _
  rw [hop, hdir]
  simp [hcls]

/-- A write that is admitted (R374). -/
theorem homeOp_write {s : State} {p : Nat} {k : Packet} (hcls : k.cls = 2) (hptype : k.ptype = 0) (h : s.admits k true k.len = true) :
    s.homeOp p k false = s.homeWrite p k := by
  rw [homeOp_admits p (by simpa [hcls, hptype, opLen] using h)]
  simp [hcls, hptype]

/-- An `ATOMIC` that is admitted (R420). -/
theorem homeOp_atomic {s : State} {p : Nat} {k : Packet} (hcls : k.cls = 2) (hptype : k.ptype = 3) (h : s.admits k true 8 = true) :
    s.homeOp p k false = s.homeAtomic p k := by
  rw [homeOp_admits p (by simpa [hcls, hptype, opLen] using h)]
  simp [hcls, hptype]

/-- A write at home that waits for no acknowledgement is answered at once (R374, R401). -/
theorem wrHome_answered {s z : State} {p : Nat} {k : Packet} {a : Nat} {bs : List Byte} (ans : Packet) (hmild : Mild s z)
    (hup : (s.port p).st = .up) (hsharers : ∀ l ∈ linesOf a bs.length, Tab.get 0 z.rdc.sharers l = 0) (hinvs : z.rdc.invs = []) :
    ((z.wrHome a bs).1.answerWrite p k ans (z.wrHome a bs).2.1 (z.wrHome a bs).2.2).mem = z.mem.wrBytes a bs
      ∧ ((z.wrHome a bs).1.answerWrite p k ans (z.wrHome a bs).2.1 (z.wrHome a bs).2.2).holds p (s.answerTo p k ans) := by
  obtain ⟨hwait, hmem⟩ := wrHome_none hsharers hinvs
  have hw : Mild s (z.wrHome a bs).1 := hmild.trans (wrHome_mild ..)
  rw [hwait]
  exact ⟨(reply_mem k _ hw hup).1.trans hmem, reply_holds k _ hw hup⟩

theorem memRead_rdc (s : State) (a n : Nat) : (s.memRead a n).rdc = s.rdc := by
  have hline (z : State) (l rd wr : Nat) : (z.memLine l rd wr).rdc = z.rdc := by
    unfold State.memLine
    repeat' split
    all_goals simp
  unfold State.memRead
  generalize linesOf a n = ls
  induction ls generalizing s with
  | nil => rfl
  | cons l ls ih => exact (ih _).trans (hline ..)

/-- Bytes read over the `MEM` ports go to the reader on its port (R374, R398). -/
theorem memRead_answered {s y : State} {p : Nat} (k : Packet) (bs : List Byte) (hmild : Mild s y) (hup : (s.port p).st = .up) :
    ((y.memRead k.addr k.len).reply p k (withData (y.packet 1 0 k.srcDie 121) bs)).mem = y.mem
      ∧ ((y.memRead k.addr k.len).reply p k (withData (y.packet 1 0 k.srcDie 121) bs)).holds p
          (s.answerTo p k (withData (s.packet 1 0 k.srcDie 121) bs))
      ∧ ((y.memRead k.addr k.len).reply p k (withData (y.packet 1 0 k.srcDie 121) bs)).rdc = y.rdc := by
  have hread : Mild s (y.memRead k.addr k.len) := hmild.trans (memRead_mild ..)
  have hpacket : y.packet 1 0 k.srcDie 121 = s.packet 1 0 k.srcDie 121 := by simp only [State.packet, pos_of_cfg hmild.cfg]
  obtain ⟨hmem, hrdc, -⟩ := reply_mem k (withData (s.packet 1 0 k.srcDie 121) bs) hread hup
  rw [hpacket]
  exact ⟨hmem.trans (State.memRead_mem ..), reply_holds k _ hread hup, hrdc.trans (memRead_rdc ..)⟩

/-- What a read at home leaves in the directory: where a die may cache the bytes it shares each line (R374). -/
theorem homeRead_facts {s z : State} {p : Nat} {k : Packet} (hmild : Mild s z) (hup : (s.port p).st = .up) :
    (z.homeRead p k).mem = z.mem
      ∧ (z.homeRead p k).holds p (s.answerTo p k (withData (s.packet 1 0 k.srcDie 121) (z.mem.rdBytes k.addr k.len)))
      ∧ ∀ l, Tab.get 0 (z.homeRead p k).rdc.sharers l =
          if isDieRole (z.role p) = true ∧ z.isNc k.addr = false ∧ l ∈ linesOf k.addr k.len
          then Tab.get 0 z.rdc.sharers l ||| 2 ^ k.srcDie else Tab.get 0 z.rdc.sharers l := by
  unfold State.homeRead
  dsimp only
  split
  next hshares =>
    obtain ⟨hmem, hholds, hrdc⟩ := memRead_answered k (z.mem.rdBytes k.addr k.len) (hmild.trans (rdc_mild z { z.rdc with
      sharers := (linesOf k.addr k.len).foldl (fun t l => Tab.mod 0 t l (· ||| 2 ^ k.srcDie)) z.rdc.sharers })) hup
    refine ⟨hmem, hholds, fun l => ?_⟩
    rw [hrdc, foldl_sharers _ (linesOf_nodup ..)]
    simp only [Bool.and_eq_true, Bool.not_eq_true'] at hshares
    simp [hshares]
  next hshares =>
    obtain ⟨hmem, hholds, hrdc⟩ := memRead_answered k (z.mem.rdBytes k.addr k.len) hmild hup
    refine ⟨hmem, hholds, fun l => ?_⟩
    rw [hrdc, if_neg]
    rintro ⟨hdie, hnc, -⟩
    exact hshares (by simp [hdie, hnc])

/-- A packet taken in changes neither the role of a port nor which reads are cached. -/
theorem taken_role_isNc (s : State) (p : Nat) (k : Packet) (addr : Nat) :
    (s.taken p k).role p = s.role p ∧ (s.taken p k).isNc addr = s.isNc addr := by
  obtain ⟨P, T, h⟩ := taken_shape s p k
  rw [h]
  exact ⟨rfl, rfl⟩

/-- Settles O30: each command acts on the state in which its packet was taken in (`receive_taken`), where it is admitted as before. -/
theorem packageMemoryAccessesAtHome : Obligations.PackageMemoryAccessesAtHome := by
  intro s p k0
  refine ⟨?_, ?_, ?_⟩
  · intro k hacc hadm hroom
    obtain ⟨hmem, hrdc, -, -⟩ := taken_mem s p k
    have hop := homeOp_read (s := s.taken p k) (p := p) (k := k) rfl (by rwa [admits_taken]) (by rwa [hrdc])
    obtain ⟨h1, h2, h3⟩ := homeRead_facts (k := k) (taken_mild s p k) (accepts_up hacc)
    obtain ⟨hrole, hnc⟩ := taken_role_isNc s p k k.addr
    refine ⟨_, (receive_taken hacc _).trans (congrArg Host.Outcome.next hop), h1.trans hmem, hmem ▸ h2, fun l => ?_⟩
    rw [h3, hrdc, hrole, hnc]
  · intro k bs hacc hadm hinvs hsharers
    obtain ⟨hmem, hrdc, -, -⟩ := taken_mem s p k
    have hlen : bs.length = k.len := by simp [bs]
    have hop := homeOp_write (s := s.taken p k) (p := p) (k := k) rfl rfl (by rwa [admits_taken])
    obtain ⟨h1, h2⟩ := wrHome_answered (k := k) (a := k.addr) (bs := bs) { (s.taken p k).packet 1 2 k.srcDie 121 with aux := 0 }
      (taken_mild s p k) (accepts_up hacc) (by rwa [hrdc, hlen]) (by rwa [hrdc])
    have hpacket : (s.taken p k).packet 1 2 k.srcDie 121 = s.packet 1 2 k.srcDie 121 := by
      simp only [State.packet, pos_of_cfg (taken_mild s p k).cfg]
    exact ⟨_, (receive_taken hacc _).trans (congrArg Host.Outcome.next hop), hmem ▸ h1, hpacket ▸ h2⟩
  · intro k old v new hacc hadm hinvs hsharers
    obtain ⟨hmem, hrdc, -, -⟩ := taken_mem s p k
    have hnew : atomicOp (pktLE k 0 1) old v (pktLE k 16 8) = new := by
      simp only [atomicOp, beq_iff_eq] <;> rfl
    have hlen : (leBytes 8 new).length = 8 := rfl
    have hop := homeOp_atomic (s := s.taken p k) (p := p) (k := k) rfl rfl (by rwa [admits_taken])
    obtain ⟨h1, h2⟩ := wrHome_answered (k := k) (a := k.addr) (bs := leBytes 8 new)
      (withData ((s.taken p k).packet 1 0 k.srcDie 121) (leBytes 8 old ++ List.replicate 24 0))
      (taken_mild s p k) (accepts_up hacc) (by rwa [hrdc, hlen]) (by rwa [hrdc])
    have hpacket : (s.taken p k).packet 1 0 k.srcDie 121 = s.packet 1 0 k.srcDie 121 := by
      simp only [State.packet, pos_of_cfg (taken_mild s p k).cfg]
    refine ⟨_, (receive_taken hacc _).trans (congrArg Host.Outcome.next (hop.trans ?_)), hmem ▸ h1, hpacket ▸ h2⟩
    unfold State.homeAtomic
    rw [hmem, ← hnew]

end Sys2Proof.Machine
end

section
/-!
PROOFS. Keywork epochs, migrations, spares and the core map (spec/13).
-/

namespace Sys2Proof.Machine

open Sys2Proof

/-! ### An epoch boundary of a table of one object (R349, R367 to R370, R372) -/

theorem setObject_object (s : State) (i : Nat) (o : Option Obj) : (s.setObject i o).object i = o := by
  rw [object_setObject, if_pos rfl]

section Epoch

variable {s z : State} {i : Nat} {o : Obj}

/-- An epoch boundary with one object closes its counts; then its migration, its hints and its evaluation follow. -/
theorem epochBoundary_only (hobjs : s.kw.objs = [(i, some o)]) (hready : s.kw.ready = true) (hnew : s.now / s.epochNs ≠ s.kw.epoch)
    (hctrl : s.kw.pendCtrl = none) (hpolicy : s.kw.pendPolicy = none) :
    ∃ K : Kw, s.epochBoundary [] = (({ s with kw := K } : State).boundaryMigration i |>.applyHints i |>.evaluate i)
      ∧ Tab.get none K.objs i = some (o.closeEpoch []) ∧ K.epoch = s.now / s.epochNs ∧ K.used = s.kw.used := by
  have hget : s.object i = some o := by simp [State.object, hobjs, Tab.get]
  have hclose : s.closeObjEpoch [] i = s.setObject i (some (o.closeEpoch [])) := by
    unfold State.closeObjEpoch
    rw [hget]
    rfl
  refine ⟨{ (s.setObject i (some (o.closeEpoch []))).kw with
    sent := s.kw.ext, ext := [], xlate := [], pendCtrl := none, pendPolicy := none, epoch := s.now / s.epochNs },
    ?_, setObject_object s i (some (o.closeEpoch [])), rfl, rfl⟩
  have hkeys : s.kw.objs.keys = [i] := by rw [hobjs]; rfl
  unfold State.epochBoundary
  rw [if_neg (by simp [hready, hnew])]
  simp only [hkeys, List.foldl_cons, List.foldl_nil, hclose]
  have hpend : (s.setObject i (some (o.closeEpoch []))).closeExt.kwPending = { s with kw := { (s.setObject i (some (o.closeEpoch []))).kw with
    sent := s.kw.ext, ext := [], xlate := [], pendCtrl := none, pendPolicy := none } } := by
    have h1 : (s.setObject i (some (o.closeEpoch []))).closeExt.kw.pendCtrl = none := hctrl
    have h2 : (s.setObject i (some (o.closeEpoch []))).closeExt.kw.pendPolicy = none := hpolicy
    unfold State.kwPending
    dsimp only
    rw [h1, h2]
    rfl
  rw [hpend]
  rfl

theorem boundaryMigration_none (h : z.object i = some o) (hmig : o.mig = none) : z.boundaryMigration i = z := by
  unfold State.boundaryMigration
  rw [h]
  dsimp only
  rw [hmig]

/-- A copied migration with few dirty bytes begins its switch (R369). -/
theorem boundaryMigration_switch (h : z.object i = some o) {m : Migration} (hmig : o.mig = some m) (hcopied : m.copied = true)
    (hswitching : m.switching = false) (hdirty : m.dirty.length ≤ 1024) :
    z.boundaryMigration i = (z.setObject i (some { o with mig := some { m with switching := true } })).invalidateObj o := by
  unfold State.boundaryMigration
  rw [h]
  dsimp only
  rw [hmig]
  dsimp only
  rw [if_neg (by simp [hcopied, hswitching]), if_neg (by omega)]

theorem applyHints_one (h : z.object i = some o) :
    z.applyHints i = o.hints.foldl (fun s h => s.applyHint i h) (z.setObject i (some { o with hints := [] })) := by
  unfold State.applyHints
  rw [h]

/-- Without a recorded hint nothing is applied (R372). -/
theorem applyHints_nil (h : z.object i = some o) (hhints : o.hints = []) : z.applyHints i = z.setObject i (some o) := by
  have hsame : ({ o with hints := [] } : Obj) = o := by rw [← hhints]
  rw [applyHints_one h, hhints, List.foldl_nil, hsame]

/-- A recorded `FREEZE` takes effect (R372). -/
theorem applyHints_freeze (h : z.object i = some o) {x : Nat} (hhints : o.hints = [(3, x)]) :
    z.applyHints i = (z.setObject i (some { o with hints := [] })).setObject i (some { o with hints := [], frozen := true }) := by
  rw [applyHints_one h, hhints, List.foldl_cons, List.foldl_nil]
  unfold State.applyHint
  rw [setObject_object]
  rfl

/-- An object is not evaluated where `MIG_EN` is 0 (R368). -/
theorem evaluate_off (h : z.object i = some o) (hen : bitAt (z.reg 0x2400) 0 = false) :
    z.evaluate i = z.setObject i (some { o with qualify := [] }) := by
  unfold State.evaluate
  rw [h]
  dsimp only
  rw [if_pos (by simp [hen])]

/-- The consecutive qualifying epochs of each die, after one more (R368). -/
theorem qualify_get (f : Nat → Nat) (n d : Nat) :
    Tab.get 0 ((List.range n).foldl (fun t d => Tab.set 0 t d (f d)) ([] : Tab Nat)) d = if d < n then f d else 0 := by
  induction n with
  | zero => rfl
  | succ n ih =>
    rw [List.range_succ, List.foldl_append, List.foldl_cons, List.foldl_nil, Tab.get_set, ih]
    by_cases h : d = n
    · simp [h]
    · simp [h, show d < n + 1 ↔ d < n by omega]

/-- The only element of a list that passes is the one that is found. -/
theorem find?_unique {α : Type} {l : List α} {p : α → Bool} {d : α} (hd : d ∈ l) (hp : p d = true) (honly : ∀ x ∈ l, p x = true → x = d) :
    l.find? p = some d := by
  cases hf : l.find? p with
  | none => exact absurd hp (by simpa using List.find?_eq_none.mp hf d hd)
  | some x => rw [honly x (List.mem_of_find?_eq_some hf) (List.find?_some hf)]

/-- A `LOCAL` object of which only die `d` qualifies, often enough, begins to move there (R368, R369). -/
theorem evaluate_moves (h : z.object i = some o) {d : Nat} {hs : List Nat} {used : Tab Nat} (hen : bitAt (z.reg 0x2400) 0 = true)
    (hst : o.st = .active) (hpol : o.pol = 1) (hfrozen : o.frozen = false) (hhint : o.hintDie = 0xFF) (hd : d < 8) (hhome : d ≠ o.homeDie)
    (hqual : o.qualifies (z.rfld 0x2414 8 7) d = true) (honly : ∀ x, x ≠ d → o.qualifies (z.rfld 0x2414 8 7) x = false)
    (hhyst : z.rfld 0x2414 16 3 ≤ Tab.get 0 o.qualify d + 1)
    (halloc : allocHomes (dieStacks o.stackMask d) z.kw.used 0 o.granules = some (hs, used)) :
    ∃ q, z.evaluate i = ((z.setObject i (some { o with qualify := q })).onKw (fun k => { k with used := used })).setObject i (some { o with
      qualify := q, st := .migrating
      mig := some { target := d, newHomes := hs, copied := false, switching := false, dirty := [], postponed := 0 } }) := by
  obtain ⟨q, hq⟩ : ∃ q, q = (List.range 8).foldl (fun t d =>
    Tab.set 0 t d (if o.qualifies (z.rfld 0x2414 8 7) d then Tab.get 0 o.qualify d + 1 else 0)) ([] : Tab Nat) := ⟨_, rfl⟩
  have hqget (x : Nat) (hx : x < 8) : Tab.get 0 q x = if o.qualifies (z.rfld 0x2414 8 7) x = true then Tab.get 0 o.qualify x + 1 else 0 := by
    rw [hq, qualify_get, if_pos hx]
  have hgo : (List.range 8).find? (fun x => x != o.homeDie
      && decide ((if x == o.hintDie then 1 else z.rfld 0x2414 16 3) ≤ Tab.get 0 q x) && decide (1 ≤ Tab.get 0 q x)) = some d := by
    refine find?_unique (List.mem_range.mpr hd) ?_ (fun x hx hp => ?_)
    · have : Tab.get 0 q d = Tab.get 0 o.qualify d + 1 := by rw [hqget d hd, if_pos hqual]
      rw [this, if_neg (by simp [hhint]; omega)]
      simp [hhome, hhyst]
    · by_contra hne
      have : Tab.get 0 q x = 0 := by rw [hqget x (List.mem_range.mp hx), if_neg (by simp [honly x hne])]
      simp [this] at hp
  refine ⟨q, ?_⟩
  unfold State.evaluate
  rw [h]
  dsimp only
  rw [if_neg (by simp [hst, hpol, hfrozen, hen]), ← hq, hgo]
  dsimp only
  unfold State.startMigration
  have hused : (z.setObject i (some { o with qualify := q })).kw.used = z.kw.used := rfl
  rw [hused, halloc]

end Epoch

/-! ### Migrations and releases that end (R361, R369) -/

section Ends

variable {s z : State} {i : Nat} {o : Obj}

/-- An event leaves an empty object table empty, and the granules in use as they are. -/
theorem event_emptyTable (h : z.kw.objs = []) (e : Ev) : (z.event e).kw.objs = [] ∧ (z.event e).kw.used = z.kw.used := by
  have hnone (y : State) (a : Nat) (hy : y.kw.objs = []) : findObj a y.kw.objs = none := by
    rw [hy]
    rfl
  refine event_kw (P := fun k => k.objs = [] ∧ k.used = z.kw.used) (fun y a n hy => ?_) (fun y a n hy => ?_) (fun k n hk => hk) ⟨h, rfl⟩ e
  · simp only [State.addTraffic, hnone y a hy.1]
    repeat' split
    all_goals exact hy
  · simp only [State.markDirty, hnone y a hy.1]
    exact hy

/-- An event keeps the one object, but for its traffic and the blocks written during a migration. -/
theorem event_only (h : z.kw.objs = [(i, some o)]) (e : Ev) : onlyObj (z.event e).kw i o :=
  event_kw (P := fun k => onlyObj k i o) (fun y a n hy => addTraffic_only y a n hy) (fun y a n hy => markDirty_only y a n hy) (fun _ _ hk => hk)
    ⟨o, h, rfl⟩ e

theorem moveGranules_rdc (s : State) (b i : Nat) (l : List (Nat × Nat)) : (s.moveGranules b i l).rdc = s.rdc := by
  induction l generalizing s i with
  | nil => rfl
  | cons x l ih =>
    unfold State.moveGranules
    refine (ih _ _).trans ?_
    repeat' split
    all_goals rfl

/-- Without invalidations on the way no line of an object is being invalidated. -/
theorem objInvalidating_none (h : z.rdc.invs = []) (o : Obj) : z.objInvalidating o = false := by simp [State.objInvalidating, h]

/-- A switch without open accesses and without held packets gives the object its new homes (R369). -/
theorem migrationSwitched_object {m : Migration} (hobjs : s.kw.objs = [(i, some o)]) (hmig : o.mig = some m) (hswitching : m.switching = true)
    (hinvs : s.rdc.invs = []) (hopen : s.objOpen o = false) (hheld : s.rdc.held = []) (htarget : m.target < 8) :
    ∃ o', (s.migrationSwitched i).serveHeld.object i = some o' ∧ plainObj o' = plainObj { o with
      st := .active, homes := m.newHomes, homeDie := m.target, mig := none, qualify := [] } := by
  obtain ⟨y, hy⟩ : ∃ y, y = ((s.moveGranules o.pbase 0 (o.homes.zip m.newHomes)).onKw
    (fun k => { k with used := freeHomes k.used o.homes })).setObject i (some { o with st := .active, homes := m.newHomes, homeDie := m.target, mig := none, qualify := [] }) := ⟨_, rfl⟩
  obtain ⟨e, he⟩ : ∃ e, s.migrationSwitched i = (y.event e).tick := by
    have hget : s.object i = some o := by simp [State.object, hobjs, Tab.get]
    unfold State.migrationSwitched
    rw [hget]
    dsimp only
    rw [hmig]
    dsimp only
    rw [if_neg (by simp [hswitching, objInvalidating_none hinvs, hopen]), if_pos htarget, ← hy]
    exact ⟨_, rfl⟩
  have hyobjs : y.kw.objs = [(i, some { o with st := .active, homes := m.newHomes, homeDie := m.target, mig := none, qualify := [] })] := by
    have hmoved : (s.moveGranules o.pbase 0 (o.homes.zip m.newHomes)).kw.objs = [(i, some o)] := by rw [moveGranules_kw, hobjs]
    rw [hy]
    exact (congrArg (fun t => Tab.set none t i _) hmoved).trans tab_one
  have hyheld : (y.event e).tick.rdc.held = [] := by
    show (y.event e).rdc.held = []
    rw [event_held, hy]
    show (s.moveGranules o.pbase 0 (o.homes.zip m.newHomes)).rdc.held = []
    rw [moveGranules_rdc, hheld]
  obtain ⟨o', hobj, hplain⟩ := event_only hyobjs e
  refine ⟨o', ?_, hplain⟩
  rw [he, serveHeld_none hyheld]
  show Tab.get none (y.event e).kw.objs i = some o'
  rw [hobj]
  simp [Tab.get]

/-- What an object is but for its traffic and the blocks written during a migration. -/
theorem plainObj_fields {a b : Obj} (h : plainObj a = plainObj b) (hb : b.mig = none) : a.st = b.st ∧ a.homes = b.homes ∧ a.homeDie = b.homeDie
    ∧ a.mig = none ∧ a.qualify = b.qualify ∧ a.gen = b.gen ∧ a.job = b.job ∧ a.pbase = b.pbase ∧ a.granules = b.granules := by
  simp only [plainObj, hb, Obj.mk.injEq] at h
  obtain ⟨hst, hgen, hjob, -, -, -, -, hgranules, hpbase, -, hhomeDie, -, -, hhomes, -, hqualify, -, -, hmig, -⟩ := h
  refine ⟨hst, hhomes, hhomeDie, ?_, hqualify, hgen, hjob, hpbase, hgranules⟩
  cases ha : a.mig with
  | none => rfl
  | some m => simp [ha] at hmig

/-- The last granule of a released object is clear (R361). -/
theorem objFreed_facts (hobjs : s.kw.objs = [(i, some o)]) (hst : o.st = .releasing) (hdrained : o.drained = true) (hinvs : s.rdc.invs = []) :
    (s.objFreed i).object i = none ∧ (s.objFreed i).kw.used = freeHomes s.kw.used o.homes
      ∧ (s.qmOn = false → (s.objFreed i).mem = s.mem.clear o.pbase (o.granules * granuleBytes)) := by
  have hget : s.object i = some o := by simp [State.object, hobjs, Tab.get]
  have hstep : s.releaseStep i = s := by
    unfold State.releaseStep
    rw [hget]
    exact if_pos (by simp [hdrained])
  have hreleased : s.released i = true := by
    unfold State.released
    rw [hget]
    simp [hst, hdrained, objInvalidating_none hinvs]
  obtain ⟨y, e, he, hyobjs, hyused, hymem, hyon⟩ : ∃ (y : State) (e : Ev), s.objFreed i = y.event e ∧ y.kw.objs = []
      ∧ y.kw.used = freeHomes s.kw.used o.homes ∧ y.mem = s.mem.clear o.pbase (o.granules * granuleBytes) ∧ y.qmOn = s.qmOn := by
    unfold State.objFreed
    dsimp only
    rw [hstep, hget]
    dsimp only
    rw [if_neg (by simp [hreleased])]
    refine ⟨_, _, rfl, ?_, rfl, rfl, rfl⟩
    have hdrop : Tab.set none ([(i, some o)] : Tab (Option Obj)) i none = [] := by simp [Tab.set, Tab.drop]
    exact (congrArg (fun t => Tab.set none t i none) hobjs).trans hdrop
  obtain ⟨hobj, hused⟩ := event_emptyTable hyobjs e
  rw [he]
  refine ⟨?_, hused.trans hyused, fun hoff => ?_⟩
  · show Tab.get none (y.event e).kw.objs i = none
    rw [hobj]
    rfl
  · rw [event_off (hyon.trans hoff), hymem]

/-- A translation of another die's granule is asked of its owner (R358). -/
theorem translationMiss_asks {addr p : Nat} (hhost : isHostAddr (addr / granuleBytes * granuleBytes) = false)
    (howner : ownerOf (addr / granuleBytes * granuleBytes) ≠ s.pos) (hxlate : Tab.get none s.kw.xlate (addr / granuleBytes) = none)
    (hopens : s.rdc.opens = [])
    (hroute : s.route (ownerOf (addr / granuleBytes * granuleBytes)) 0 (addr / granuleBytes * granuleBytes) none = some p) :
    ∃ t, (s.translationMiss addr).tx s.rdc.nextTag = some t ∧ t.pkt.cls = 0 ∧ t.pkt.ptype = 3
      ∧ t.pkt.addr = addr / granuleBytes * granuleBytes ∧ t.pkt.dstDie = ownerOf (addr / granuleBytes * granuleBytes) ∧ t.port = p
      ∧ (s.translationMiss addr).mem = s.mem := by
  have hg : addr / granuleBytes * granuleBytes / granuleBytes = addr / granuleBytes := Nat.mul_div_cancel _ (by decide)
  unfold State.translationMiss
  dsimp only
  generalize ha : addr / granuleBytes * granuleBytes = a at *
  rw [if_neg (by simp [hhost, howner, hg, hxlate, hopens]), request_some _ _ rfl hroute]
  refine ⟨{ OpenTx.posted with pkt := { s.packet 0 3 (ownerOf a) 121 with addr := a, tag := s.rdc.nextTag }, port := p }, ?_, rfl, rfl, rfl, rfl, rfl,
    (sendOn_mem ..).1⟩
  unfold State.tx
  rw [if_pos rfl, sendOn_rdc, Tab.get_set_self]
  rfl

end Ends

/-! ### Spares, the core map and scrubs (R256, R351, R355, R568, R569) -/

section Cores

variable {s z : State} {t core old : Nat}

/-- An admission that ends well puts the spare in service behind the logical core, with its stores empty (R355). -/
theorem spareDone_serves (h : s.kw.admitting = [(t, core, old)]) :
    (s.spareDone t true).tileSt t = .inService ∧ (s.spareDone t true).core core = ⟨t, .mapped⟩ ∧ (s.spareDone t true).tile t = Tile.init
      ∧ (s.spareDone t true).kw.admitting = [] ∧ ∀ c, c ≠ core → (s.spareDone t true).core c = s.core c := by
  obtain ⟨y, hy⟩ : ∃ y, y = (((s.onKw (fun k => { k with admitting := k.admitting.filter (fun a => a.1 != t) })).setTileSt t .inService).setCore core
    ⟨t, .mapped⟩).onTile t (fun _ => Tile.init) := ⟨_, rfl⟩
  obtain ⟨e, he⟩ : ∃ e, s.spareDone t true = y.event e := by
    unfold State.spareDone
    rw [h]
    simp only [List.find?_cons, beq_self_eq_true, if_true, ← hy]
    exact ⟨_, rfl⟩
  have hcore (c : Nat) : (y.event e).core c = if c = core then ⟨t, .mapped⟩ else s.core c := by
    have hset := core_setCore ((s.onKw (fun k => { k with
      admitting := k.admitting.filter (fun a => a.1 != t) })).setTileSt t .inService) core c ⟨t, .mapped⟩
    exact (congrArg (Tab.get CoreEnt.init · c) (event_mild y e).cores : _).trans (hy ▸ hset)
  have hstate : y.tileSt t = .inService := by
    rw [hy]
    exact (tileSt_setTileSt (s.onKw (fun k => { k with admitting := k.admitting.filter (fun a => a.1 != t) })) t t .inService).trans (if_pos rfl)
  rw [he]
  refine ⟨(congrArg (Tab.get TileSt.off · t) (event_mild y e).tileSts : _).trans hstate, (hcore core).trans (if_pos rfl), ?_, ?_,
    fun c hc => (hcore c).trans (if_neg hc)⟩
  · rw [tile_of_tiles (event_mild y e).tiles, hy, State.tile_onTile]
  · have hadm : y.kw.admitting = s.kw.admitting.filter (fun a => a.1 != t) := hy ▸ rfl
    rw [event_admitting, hadm, h]
    simp

/-- Without a spare that may be chosen, an admission leaves the logical core `ABSENT` (R355). -/
theorem admitFor_absent (hspares : z.spares = []) (hbist : z.tst.bistBusy = false) (core old : Nat) :
    (z.admitFor core old).tileSt = z.tileSt ∧ ((z.admitFor core old).core core).st = .absent
      ∧ (z.admitFor core old).kw.admitting = z.kw.admitting := by
  obtain ⟨y, hy⟩ : ∃ y, y = z.onKw (fun k => { k with cores := Tab.mod CoreEnt.init k.cores core (fun e => { e with st := .absent }) }) := ⟨_, rfl⟩
  have hadmit : z.admitFor core old = y.absentEvent core old := by
    have hpick : (if old == 127 then z.spares.head? else nearestSpare old z.spares) = none := by
      rw [hspares]
      exact ite_self _
    unfold State.admitFor
    dsimp only
    rw [hpick]
    dsimp only
    rw [if_neg (by simp [hbist]), hy]
  have hmild : Mild y (y.absentEvent core old) := event_mild ..
  have hcore : y.core core = { z.core core with st := .absent } := by
    rw [hy]
    exact (Tab.get_mod (d := CoreEnt.init) z.kw.cores core core (fun e => { e with st := .absent })).trans (if_pos rfl)
  rw [hadmit]
  refine ⟨funext fun u => (congrArg (Tab.get TileSt.off · u) (hmild.tileSts.trans (hy ▸ rfl)) : _), ?_, (event_admitting ..).trans (hy ▸ rfl)⟩
  have hsame : (y.absentEvent core old).core core = y.core core := congrArg (Tab.get CoreEnt.init · core) hmild.cores
  rw [hsame, hcore]

/-- An admission that ends badly leaves the spare `FAILED` and, when no spare is left, the core `ABSENT` (R355). -/
theorem spareDone_fails (h : s.kw.admitting = [(t, core, old)]) (hspares : s.spares = []) (hbist : s.tst.bistBusy = false) :
    (s.spareDone t false).tileSt t = .failed ∧ ((s.spareDone t false).core core).st = .absent ∧ (s.spareDone t false).kw.admitting = [] := by
  obtain ⟨y, hy⟩ : ∃ y, y = ((s.onKw (fun k => { k with admitting := k.admitting.filter (fun a => a.1 != t) })).setTileSt t .failed).onTile t
    (fun _ => Tile.init) := ⟨_, rfl⟩
  have hdone : s.spareDone t false = y.admitFor core old := by
    unfold State.spareDone
    rw [h]
    simp only [List.find?_cons, beq_self_eq_true, hy]
    rfl
  have hstate (u : Nat) : y.tileSt u = if u = t then .failed else s.tileSt u := by
    rw [hy]
    exact tileSt_setTileSt (s.onKw (fun k => { k with admitting := k.admitting.filter (fun a => a.1 != t) })) t u .failed
  have htst : y.tst = s.tst := hy ▸ rfl
  have hnone : y.spares = [] := by
    rw [State.spares, List.filter_eq_nil_iff] at hspares ⊢
    intro u hu
    have hno := hspares u hu
    rw [hstate, State.inBist, htst]
    by_cases hut : u = t
    · simp [hut]
    · rwa [if_neg hut]
  obtain ⟨hsts, habsent, hadm⟩ := admitFor_absent hnone (htst ▸ hbist) core old
  have hyadm : y.kw.admitting = s.kw.admitting.filter (fun a => a.1 != t) := hy ▸ rfl
  rw [hdone]
  refine ⟨(congrFun hsts t).trans ((hstate t).trans (if_pos rfl)), habsent, ?_⟩
  rw [hadm, hyadm, h]
  simp

/-- The lowest `ABSENT` core gets the first spare (R568). -/
theorem admitFor_first {r : List Nat} (h : s.spares = t :: r) (core : Nat) :
    (s.admitFor core 127).tileSt t = .admitting ∧ ((s.admitFor core 127).core core).st = .moving
      ∧ (s.admitFor core 127).kw.admitting = s.kw.admitting ++ [(t, core, 127)] := by
  have hadmit : s.admitFor core 127 = (s.setTileSt t .admitting).onKw (fun k => { k with
      cores := Tab.mod CoreEnt.init k.cores core (fun e => { e with st := .moving }), admitting := k.admitting ++ [(t, core, 127)] }) := by
    unfold State.admitFor
    rw [h]
    rfl
  rw [hadmit]
  refine ⟨(tileSt_setTileSt s t t .admitting).trans (if_pos rfl), ?_, rfl⟩
  exact congrArg CoreEnt.st ((core_mod (s.setTileSt t .admitting) core core (fun e => { e with st := .moving }) _).trans (if_pos rfl))

/-- The tiles that Keywork initialisation maps, in the order of their logical cores: those of the spare set last (R351, R440). -/
def mapOrder (pass spareSet : Nat) : List Nat :=
  let ok := fun (x : Bool) => (List.range 72).filter (fun u => pass.testBit u && (spareSet.testBit u == x))
  (ok false).take 64 ++ (ok true).take (64 - ((ok false).take 64).length)

/-- The core map that Keywork initialisation builds (R351). -/
theorem buildMap_facts (s : State) (pass spareSet : Nat) :
    (∀ t, t < 72 → pass.testBit t = false → (s.buildMap pass spareSet).tileSt t = .failed)
      ∧ ∀ c, c < 64 → (s.buildMap pass spareSet).core c = ((mapOrder pass spareSet)[c]?).elim ⟨127, .absent⟩ (fun u => ⟨u, .mapped⟩) := by
  have horder : (let ok := (List.range Config.tiles).filter (fun t => pass.testBit t)
      let plain := (ok.filter (fun t => !spareSet.testBit t)).take 64
      plain ++ (ok.filter (fun t => spareSet.testBit t)).take (64 - plain.length)) = mapOrder pass spareSet := by
    have hfalse (u : Nat) : (!spareSet.testBit u && pass.testBit u) = (pass.testBit u && (spareSet.testBit u == false)) := by
      cases spareSet.testBit u <;> simp
    have htrue (u : Nat) : (spareSet.testBit u && pass.testBit u) = (pass.testBit u && (spareSet.testBit u == true)) := by
      cases spareSet.testBit u <;> simp
    simp only [List.filter_filter, hfalse, htrue]
    rfl
  unfold State.buildMap
  dsimp only at horder ⊢
  rw [horder]
  refine ⟨fun t ht hfail => ?_, fun c hc => ?_⟩
  · refine ((foldl_setCore _ _ 64).1.2 t).trans (((foldl_setTileSt _ _ 72).1.1 t).trans ?_)
    rw [if_pos ht, hfail]
    rfl
  · refine ((foldl_setCore _ _ 64).1.1 c).trans ?_
    rw [if_pos hc]
    cases (mapOrder pass spareSet)[c]? <;> rfl

/-- Keywork initialisation without a table maps the tiles that pass (R351, R443). -/
theorem keyworkInit_maps {pass : Nat} (hstage : s.mgmt.stage = 9) (hjoined : s.pkg.joined.isSome = true) (hlimit : s.kw.objLimit = 0)
    (htried : s.portsTried = true) : s.keyworkInit [] pass = (s.kwLatch.buildMap pass s.mgmt.spareSet).onMgmt (fun m => { m with stage := 10 }) := by
  unfold State.keyworkInit
  rw [if_neg (by simp [hstage]), if_neg (by simp [htried])]
  dsimp only
  rw [if_pos (show s.objLimit = 0 from hlimit)]
  unfold State.keyworkBegin
  rw [if_pos hjoined]
  rfl

/-- A read that waited for a moving core is answered once it is mapped (R569). -/
theorem serveHeld_spRead {p : Nat} {k : Packet} (hheld : s.rdc.held = [(p, k)]) (hcls : k.cls = 0) (hptype : k.ptype = 1) (haux : k.aux % 2 = 0)
    (hmapped : s.core (bitsOf k.addr 24 6) = ⟨t, .mapped⟩) (hup : (s.port p).st = .up) (howner : (s.tile t).spad.owner = some k.job)
    (hsealed : (s.tile t).spad.sealed = false) (hread : (s.tile t).spad.canReadRange (bitsOf k.addr 0 24) k.len = true) :
    s.serveHeld.rdc.held = [] ∧ s.serveHeld.tiles = s.tiles
      ∧ s.serveHeld.holds p (s.answerTo p k (withData (s.packet 1 0 k.srcDie t) ((s.tile t).spad.mem.rdBytes (bitsOf k.addr 0 24) k.len))) := by
  obtain ⟨y, hy⟩ : ∃ y, y = { s with rdc := { s.rdc with held := [] } } := ⟨_, rfl⟩
  have hmild : Mild s y := hy ▸ rdc_mild s _
  have hserve : s.serveHeld = y.reply p k (withData (s.packet 1 0 k.srcDie t) ((s.tile t).spad.mem.rdBytes (bitsOf k.addr 0 24) k.len)) := by
    have hreach : y.reach k.job (bitsOf k.addr 24 6) = .ok t := by
      have hcore : y.core (bitsOf k.addr 24 6) = ⟨t, .mapped⟩ := hy ▸ hmapped
      have hown : (y.tile t).spad.owner = some k.job := hy ▸ howner
      unfold State.reach
      rw [hcore]
      exact if_neg (by simp [hown])
    have hspad : (y.tile t).spad = (s.tile t).spad := hy ▸ rfl
    have hpacket : y.packet 1 0 k.srcDie t = s.packet 1 0 k.srcDie t := hy ▸ rfl
    unfold State.serveHeld
    rw [hheld, ← hy]
    have hspRead : y.serve p k = y.spRead p k := by
      unfold State.serve
      rw [hcls, hptype]
      rfl
    refine hspRead.trans ?_
    unfold State.spRead
    dsimp only
    rw [hreach]
    dsimp only
    rw [hspad, if_neg (by simp [hsealed]), if_neg (by simp [haux]), if_pos hread, hpacket]
  have hrdc : y.rdc.held = [] := hy ▸ rfl
  rw [hserve]
  exact ⟨(congrArg Rdc.held (reply_mem k _ hmild hup).2.1 : _).trans hrdc, (reply_mild ..).tiles.trans hmild.tiles, reply_holds k _ hmild hup⟩

end Cores

/-- Settles O26: an epoch boundary by its three parts (`epochBoundary_only`), then one lemma for each command that ends something. -/
theorem keyworkMovesAndAdmits : Obligations.KeyworkMovesAndAdmits := by
  refine ⟨fun s i o hget => ⟨?_, fun m hmig => ⟨?_, ?_⟩, ?_, ?_⟩, fun s t ht => ⟨?_, ?_, ?_, ?_, ?_⟩⟩
  · intro hobjs hready hnew hctrl hpolicy closed idle at_
    obtain ⟨K, hbound, hK, hepoch, hused⟩ := epochBoundary_only hobjs hready hnew hctrl hpolicy
    obtain ⟨z, hz⟩ : ∃ z, z = ({ s with kw := K } : State) := ⟨_, rfl⟩
    rw [← hz] at hbound
    have hzo : z.object i = some closed := hz ▸ hK
    have hreg (a : Nat) : z.reg a = s.reg a := hz ▸ rfl
    have hend {o' : Obj} {y : State} (hy : (z.boundaryMigration i |>.applyHints i |>.evaluate i) = y) (hobj : y.object i = some o')
        (hep : y.kw.epoch = z.kw.epoch) (hmem : y.mem = z.mem) : at_ o' :=
      ⟨y, congrArg Host.Outcome.next (hbound.trans hy), hep.trans (hz ▸ hepoch), hobj, hmem.trans (hz ▸ rfl)⟩
    refine ⟨fun hen => ⟨fun hmig hhints => ?_, fun hmig hhints => ?_, fun m hmig hhints hcopied hsw hdirty => ?_⟩,
      fun d hs used hen hmig hhints hst hpol hfrozen hhint hd hhome hqual honly hhyst hpos halloc => ?_⟩
    · refine hend ?_ (setObject_object (z.setObject i (some closed)) i (some idle)) rfl rfl
      rw [boundaryMigration_none hzo hmig, applyHints_nil hzo hhints, evaluate_off (setObject_object ..) ((congrArg (bitAt · 0) (hreg _)).trans hen)]
    · refine hend ?_ (setObject_object ((z.setObject i (some { closed with hints := [] })).setObject i
        (some { closed with hints := [], frozen := true })) i (some { idle with hints := [], frozen := true })) rfl rfl
      rw [boundaryMigration_none hzo hmig, applyHints_freeze hzo hhints,
        evaluate_off (setObject_object (z.setObject i _) i _) ((congrArg (bitAt · 0) (hreg _)).trans hen)]
    · obtain ⟨y, hy⟩ : ∃ y, y = (z.setObject i (some { closed with mig := some { m with switching := true } })).invalidateObj closed := ⟨_, rfl⟩
      have hkw : y.kw = (z.setObject i (some { closed with mig := some { m with switching := true } })).kw := hy ▸ invalidateLines_kw ..
      have hyo : y.object i = some { closed with mig := some { m with switching := true } } :=
        (congrArg (fun k : Kw => Tab.get none k.objs i) hkw).trans (setObject_object ..)
      have hyreg (a : Nat) : y.reg a = z.reg a := by
        have hcfg : y.cfg = z.cfg := hy ▸ (invalidateLines_mild ..).cfg
        simp only [State.reg, hcfg]
      refine hend ?_ (setObject_object (y.setObject i (some { closed with mig := some { m with switching := true } })) i
        (some { idle with mig := some { m with switching := true } })) (congrArg Kw.epoch hkw : _) (hy ▸ invalidateLines_mem ..)
      rw [boundaryMigration_switch hzo hmig hcopied hsw hdirty, ← hy, applyHints_nil hyo hhints,
        evaluate_off (setObject_object ..) ((congrArg (bitAt · 0) ((hyreg _).trans (hreg _))).trans hen)]
    · have hrfld (a lo len : Nat) : (z.setObject i (some closed)).rfld a lo len = s.rfld a lo len := congrArg (fld · lo len) (hreg a)
      obtain ⟨q, hq⟩ := evaluate_moves (z := z.setObject i (some closed)) (setObject_object ..)
        ((congrArg (bitAt · 0) (hreg _)).trans hen) hst hpol hfrozen hhint hd hhome (by rw [hrfld]; exact hqual) (by rw [hrfld]; exact honly) (by rw [hrfld]; exact hhyst)
        ((congrArg (allocHomes (dieStacks o.stackMask d) · 0 o.granules) (show z.kw.used = s.kw.used from hz ▸ hused)).trans halloc)
      rw [boundaryMigration_none hzo hmig, applyHints_nil hzo hhints, hq] at hbound
      exact ⟨_, _, congrArg Host.Outcome.next hbound, setObject_object .., rfl, rfl, rfl⟩
  · refine ⟨s.setObject i (some { o with mig := some { m with copied := true } }), ?_, setObject_object .., rfl⟩
    refine congrArg Host.Outcome.next ?_
    unfold State.migrationCopied
    rw [hget]
    dsimp only
    rw [hmig]
  · intro hobjs hsw hinvs hopen hheld htarget
    obtain ⟨o', hobj, hplain⟩ := migrationSwitched_object hobjs hmig hsw hinvs hopen hheld htarget
    exact ⟨_, o', rfl, hobj, plainObj_fields hplain rfl⟩
  · intro hobjs hst hdrained hinvs
    obtain ⟨h1, h2, h3⟩ := objFreed_facts hobjs hst hdrained hinvs
    exact ⟨_, rfl, h1, h2, fun hoff a => by rw [h3 hoff, Mem.rd_clear]⟩
  · intro addr p g a hhost howner hxlate hopens hroute
    obtain ⟨t, h⟩ := translationMiss_asks hhost howner hxlate hopens hroute
    exact ⟨_, t, rfl, h⟩
  · intro core old hcore hadm
    exact ⟨⟨_, onUnit_true (decide_eq_true ht) .., spareDone_serves hadm⟩,
      fun hspares hbist _ => ⟨_, onUnit_true (decide_eq_true ht) .., spareDone_fails hadm hspares hbist⟩⟩
  · intro core r hready hen habsent hspares
    refine ⟨s.admitFor core 127, ?_, admitFor_first hspares core⟩
    have hgo : (s.kw.ready && bitAt (s.reg 0x2400) 1 && !s.spares.isEmpty) = true := by simp [hready, hen, hspares]
    simp only [exec, execAbsentAdmission, habsent, hgo, if_true]
  · intro pass hstage hjoined hlimit htried ok plain
    obtain ⟨hfail, hcore⟩ := buildMap_facts s.kwLatch pass s.mgmt.spareSet
    have hinit := keyworkInit_maps (pass := pass) hstage hjoined hlimit htried
    have hlist : plain ++ (ok true).take (64 - plain.length) = mapOrder pass s.mgmt.spareSet := rfl
    generalize s.kwLatch.buildMap pass s.mgmt.spareSet = y at hfail hcore hinit
    refine ⟨y.onMgmt (fun m => { m with stage := 10 }), congrArg Host.Outcome.next hinit, rfl, hfail t ht, fun c hc => ?_⟩
    rw [hlist]
    refine (hcore c hc).trans ?_
    cases (mapOrder pass s.mgmt.spareSet)[c]? <;> rfl
  · intro p k core a hheld hcls hptype haux hcore hmapped hup howner hsealed hread
    exact ⟨_, congrArg Host.Outcome.next (if_neg (by simp [hmapped])),
      serveHeld_spRead hheld hcls hptype haux (hcore ▸ hmapped) hup howner hsealed hread⟩
  · intro hrun hsealed hretain
    have hdone : s.muteScrubDone t true = (s.onTile t Tile.scrub).framesGone t := by
      unfold State.muteScrubDone
      dsimp only
      rw [if_neg (by simp [hrun, hsealed, hretain])]
      rfl
    refine ⟨_, (onUnit_true (decide_eq_true ht) ..).trans (congrArg Host.Outcome.next hdone), ?_⟩
    have htile : ((s.onTile t Tile.scrub).framesGone t).tile t = (s.tile t).scrub := State.tile_onTile ..
    rw [htile]
    exact ⟨rfl, rfl, rfl, rfl, rfl, fun u hu => State.tile_onTile_other s hu Tile.scrub⟩

end Sys2Proof.Machine
end
